-- ==== Sys2Proof/Word.lean ====
section
/-! DEFINITION. The word types of the module and their plainest arithmetic.
Byte, register word (R481), 64-bit scalar (Table 6.2) and device address (R200). -/
namespace Sys2Proof

/-- One byte of memory or of a wire format. -/
abbrev Byte := BitVec 8

/-- One register of the module (R481: every register is 32 bits wide). -/
abbrev Word := BitVec 32

/-- One scalar register of a sequencer (Table 6.2). -/
abbrev DWord := BitVec 64

/-- A 48-bit device address (Table 1.6), kept as the number it is. -/
abbrev Addr := Nat

/-- 2^32: step numbers, epochs, counters and sync objects are u32. -/
abbrev u32Mod : Nat := 4294967296

/-- The largest u32. -/
abbrev u32Max : Nat := 4294967295

end Sys2Proof
end

