-- ==== Sys2Proof/Machine/Bits.lean ====
section
/-! DEFINITION. Bit fields, sign extension, byte order and alignment, on numbers and byte lists (R4, R7, R8, R11). -/
namespace Sys2Proof.Machine

/-- Field [hi:lo] of a number (R8). -/
def bits (v hi lo : Nat) : Nat := v / 2 ^ lo % 2 ^ (hi + 1 - lo)

/-- Bit n of a number. -/
def bitAt (v n : Nat) : Bool := v / 2 ^ n % 2 == 1

/-- A number with field [hi:lo] replaced. -/
def putBits (v hi lo x : Nat) : Nat :=
  v / 2 ^ (hi + 1) * 2 ^ (hi + 1) + x % 2 ^ (hi + 1 - lo) * 2 ^ lo + v % 2 ^ lo

/-- One bit of a Bool. -/
def b2n (b : Bool) : Nat := if b then 1 else 0

/-- A number with bit n set. -/
def setBit (v n : Nat) : Nat := v ||| 2 ^ n

/-- A number with bit n clear. -/
def clrBit (v n : Nat) : Nat := if bitAt v n then v - 2 ^ n else v

/-- Sign extension of the low `w` bits of a number, as an integer (w > 0). -/
def sextI (w v : Nat) : Int :=
  if v % 2 ^ w < 2 ^ (w - 1) then (v % 2 ^ w : Nat) else ((v % 2 ^ w : Nat) : Int) - ((2 ^ w : Nat) : Int)

/-- The 48-bit immediate as a sign-extended 64-bit value (R209, Table 7.4). -/
def sext48 (v : Nat) : DWord := BitVec.ofInt 64 (sextI 48 v)

/-- Add a sign-extended 48-bit immediate to a 64-bit address. -/
def addSext48 (a : DWord) (imm : Nat) : Nat := (a + sext48 imm).toNat

/-- Division rounding up. -/
def ceilDiv (a b : Nat) : Nat := if b = 0 then 0 else (a + b - 1) / b

/-- The bytes of a number, least significant first (R7). -/
def leBytes : Nat → Nat → List Byte
  | 0, _ => []
  | n + 1, v => BitVec.ofNat 8 v :: leBytes n (v / 256)

/-- The number that bytes spell, least significant first (R7). -/
def leNat : List Byte → Nat
  | [] => 0
  | b :: r => b.toNat + 256 * leNat r

/-- The bytes of a number, most significant first. -/
def beBytes (n v : Nat) : List Byte := (leBytes n v).reverse

/-- The number that bytes spell, most significant first. -/
def beNat (l : List Byte) : Nat := leNat l.reverse

/-- `n` bytes of a list from an offset, zero past its end. -/
def slice (l : List Byte) (off n : Nat) : List Byte :=
  let r := (l.drop off).take n
  r ++ List.replicate (n - r.length) 0

/-- Little-endian field of `n` bytes at an offset of a byte list. -/
def leAt (l : List Byte) (off n : Nat) : Nat := leNat (slice l off n)

/-- Replace the bytes of a list from an offset. -/
def splice (l : List Byte) (off : Nat) (x : List Byte) : List Byte :=
  l.take off ++ x ++ l.drop (off + x.length)

/-- A byte list cut or zero-padded to a length. -/
def padTo (n : Nat) (l : List Byte) : List Byte := slice l 0 n

/-- Count of set bits among the low `n` bits. -/
def popCount : Nat → Nat → Nat
  | 0, _ => 0
  | n + 1, v => v % 2 + popCount n (v / 2)

/-- The numbers 0 to n − 1 whose bit is set. -/
def setBits (n v : Nat) : List Nat := (List.range n).filter (bitAt v)

/-- The serial-number comparison of R183: `v` has reached `t`. -/
def reached (v t : Word) : Bool := (v - t).toNat < 2147483648

end Sys2Proof.Machine
end

