-- ==== Sys2Proof/Machine/Events.lean ====
section
/-! DEFINITION. The events of the module with their codes and severities (R506, Table 18.14), and the packing of
their arguments (R507). -/
namespace Sys2Proof.Machine

/-- The events of Table 18.14, in code order. -/
inductive Ev where
  | cont
  | cntSat
  | regLive
  | regLocked
  | applyRefused
  | stepCommit
  | stepAbandoned
  | stepTimeout
  | sealMismatch
  | commitFail
  | stepLimit
  | epochLimit
  | stepGroup
  | abftMismatch
  | abftUncured
  | unitEclipse
  | unitDoubled
  | clusterNoUnit
  | fenceRefused
  | unitFenced
  | gangMode
  | sparseMeta
  | blockCrc
  | blockCrcUncured
  | badHeader
  | blockMismatch
  | badScale
  | blockAddr
  | mxInexact
  | satOverflow
  | constChannel
  | flushMicroblock
  | lossScaleFloor
  | fade
  | fadeClear
  | lsTensorAddr
  | ptiIllegal
  | descInvalid
  | insnLimit
  | insnAlign
  | insnAddr
  | fmtClass
  | convUnsupported
  | remoteRefused
  | detRefused
  | updStep
  | syncTimeout
  | bcnOverrun
  | bcnFar
  | routeAxis
  | routeOverflow
  | routeNan
  | dieAbsentAccess
  | xlatInvalid
  | memCeRate
  | memUe
  | memPoison
  | memReserved
  | memThrottle
  | memTestAccess
  | memTgDone
  | memRetrain
  | updMismatch
  | updNonfinite
  | updFrameWait
  | updFreeLow
  | paramWrite
  | updFreeFull
  | linkLost
  | linkDegraded
  | laneSpared
  | linkMiswire
  | linkDetour
  | linkReorderFull
  | collFail
  | laserCart
  | vecDualMismatch
  | vecDualUncured
  | prismMismatch
  | prismNoquorum
  | prismDie
  | foldMismatch
  | aglFull
  | aglLost
  | replayDiverge
  | reflLate
  | reflOff
  | reflMismatch
  | certPass
  | certFail
  | certWait
  | dieDegrade
  | health
  | ckptDone
  | ckptAbort
  | ckptDeferred
  | ckptReflDigest
  | flicker
  | restoreMixed
  | restoreFail
  | restoreDone
  | cwtSessionLost
  | cwtRegDenied
  | cwtRefused
  | pwrInput
  | pwrRail
  | pwrCap
  | pwrRefused
  | thermLevel
  | thermCrit
  | thermTrip
  | thermOptics
  | coolant
  | bootReady
  | bootFail
  | resetForced
  | secAlarm
  | secErased
  deriving DecidableEq, Repr

/-- The event code: group × 0x100 + position within the group (R506). -/
def Ev.code : Ev → Nat
  | .cont => 0x0001
  | .cntSat => 0x0002
  | .regLive => 0x0003
  | .regLocked => 0x0004
  | .applyRefused => 0x0005
  | .stepCommit => 0x0101
  | .stepAbandoned => 0x0102
  | .stepTimeout => 0x0103
  | .sealMismatch => 0x0104
  | .commitFail => 0x0105
  | .stepLimit => 0x0106
  | .epochLimit => 0x0107
  | .stepGroup => 0x0108
  | .abftMismatch => 0x0201
  | .abftUncured => 0x0202
  | .unitEclipse => 0x0203
  | .unitDoubled => 0x0204
  | .clusterNoUnit => 0x0205
  | .fenceRefused => 0x0206
  | .unitFenced => 0x0207
  | .gangMode => 0x0208
  | .sparseMeta => 0x0209
  | .blockCrc => 0x0301
  | .blockCrcUncured => 0x0302
  | .badHeader => 0x0303
  | .blockMismatch => 0x0304
  | .badScale => 0x0305
  | .blockAddr => 0x0306
  | .mxInexact => 0x0307
  | .satOverflow => 0x0308
  | .constChannel => 0x0309
  | .flushMicroblock => 0x030A
  | .lossScaleFloor => 0x030B
  | .fade => 0x030C
  | .fadeClear => 0x030D
  | .lsTensorAddr => 0x030E
  | .ptiIllegal => 0x0401
  | .descInvalid => 0x0402
  | .insnLimit => 0x0403
  | .insnAlign => 0x0404
  | .insnAddr => 0x0405
  | .fmtClass => 0x0406
  | .convUnsupported => 0x0407
  | .remoteRefused => 0x0408
  | .detRefused => 0x0409
  | .updStep => 0x040A
  | .syncTimeout => 0x040B
  | .bcnOverrun => 0x040C
  | .bcnFar => 0x040D
  | .routeAxis => 0x040E
  | .routeOverflow => 0x040F
  | .routeNan => 0x0410
  | .dieAbsentAccess => 0x0411
  | .xlatInvalid => 0x0412
  | .memCeRate => 0x0501
  | .memUe => 0x0502
  | .memPoison => 0x0503
  | .memReserved => 0x0504
  | .memThrottle => 0x0505
  | .memTestAccess => 0x0506
  | .memTgDone => 0x0507
  | .memRetrain => 0x0508
  | .updMismatch => 0x0601
  | .updNonfinite => 0x0602
  | .updFrameWait => 0x0603
  | .updFreeLow => 0x0604
  | .paramWrite => 0x0605
  | .updFreeFull => 0x0606
  | .linkLost => 0x0701
  | .linkDegraded => 0x0702
  | .laneSpared => 0x0703
  | .linkMiswire => 0x0704
  | .linkDetour => 0x0705
  | .linkReorderFull => 0x0706
  | .collFail => 0x0707
  | .laserCart => 0x0708
  | .vecDualMismatch => 0x0801
  | .vecDualUncured => 0x0802
  | .prismMismatch => 0x0803
  | .prismNoquorum => 0x0804
  | .prismDie => 0x0805
  | .foldMismatch => 0x0806
  | .aglFull => 0x0901
  | .aglLost => 0x0902
  | .replayDiverge => 0x0903
  | .reflLate => 0x0904
  | .reflOff => 0x0905
  | .reflMismatch => 0x0906
  | .certPass => 0x0907
  | .certFail => 0x0908
  | .certWait => 0x0909
  | .dieDegrade => 0x090A
  | .health => 0x090B
  | .ckptDone => 0x0A01
  | .ckptAbort => 0x0A02
  | .ckptDeferred => 0x0A03
  | .ckptReflDigest => 0x0A04
  | .flicker => 0x0A05
  | .restoreMixed => 0x0A06
  | .restoreFail => 0x0A07
  | .restoreDone => 0x0A08
  | .cwtSessionLost => 0x0B01
  | .cwtRegDenied => 0x0B02
  | .cwtRefused => 0x0B03
  | .pwrInput => 0x0C01
  | .pwrRail => 0x0C02
  | .pwrCap => 0x0C03
  | .pwrRefused => 0x0C04
  | .thermLevel => 0x0C05
  | .thermCrit => 0x0C06
  | .thermTrip => 0x0C07
  | .thermOptics => 0x0C08
  | .coolant => 0x0C09
  | .bootReady => 0x0C0A
  | .bootFail => 0x0C0B
  | .resetForced => 0x0C0C
  | .secAlarm => 0x0D01
  | .secErased => 0x0D02

/-- Severity: 0 info, 1 warning, 2 error, 3 fatal (R506). -/
def Ev.sev : Ev → Nat
  | .cont => 0
  | .cntSat => 1
  | .regLive => 1
  | .regLocked => 1
  | .applyRefused => 1
  | .stepCommit => 0
  | .stepAbandoned => 1
  | .stepTimeout => 1
  | .sealMismatch => 2
  | .commitFail => 3
  | .stepLimit => 2
  | .epochLimit => 2
  | .stepGroup => 2
  | .abftMismatch => 1
  | .abftUncured => 2
  | .unitEclipse => 1
  | .unitDoubled => 1
  | .clusterNoUnit => 2
  | .fenceRefused => 1
  | .unitFenced => 0
  | .gangMode => 2
  | .sparseMeta => 2
  | .blockCrc => 1
  | .blockCrcUncured => 2
  | .badHeader => 2
  | .blockMismatch => 2
  | .badScale => 2
  | .blockAddr => 2
  | .mxInexact => 0
  | .satOverflow => 1
  | .constChannel => 0
  | .flushMicroblock => 1
  | .lossScaleFloor => 1
  | .fade => 1
  | .fadeClear => 0
  | .lsTensorAddr => 1
  | .ptiIllegal => 2
  | .descInvalid => 2
  | .insnLimit => 2
  | .insnAlign => 2
  | .insnAddr => 2
  | .fmtClass => 2
  | .convUnsupported => 2
  | .remoteRefused => 2
  | .detRefused => 2
  | .updStep => 2
  | .syncTimeout => 1
  | .bcnOverrun => 0
  | .bcnFar => 2
  | .routeAxis => 2
  | .routeOverflow => 0
  | .routeNan => 1
  | .dieAbsentAccess => 2
  | .xlatInvalid => 2
  | .memCeRate => 1
  | .memUe => 2
  | .memPoison => 2
  | .memReserved => 2
  | .memThrottle => 0
  | .memTestAccess => 2
  | .memTgDone => 0
  | .memRetrain => 0
  | .updMismatch => 1
  | .updNonfinite => 1
  | .updFrameWait => 1
  | .updFreeLow => 1
  | .paramWrite => 2
  | .updFreeFull => 1
  | .linkLost => 2
  | .linkDegraded => 1
  | .laneSpared => 0
  | .linkMiswire => 2
  | .linkDetour => 1
  | .linkReorderFull => 2
  | .collFail => 2
  | .laserCart => 1
  | .vecDualMismatch => 1
  | .vecDualUncured => 2
  | .prismMismatch => 1
  | .prismNoquorum => 1
  | .prismDie => 2
  | .foldMismatch => 3
  | .aglFull => 1
  | .aglLost => 2
  | .replayDiverge => 2
  | .reflLate => 1
  | .reflOff => 1
  | .reflMismatch => 2
  | .certPass => 0
  | .certFail => 1
  | .certWait => 0
  | .dieDegrade => 2
  | .health => 0
  | .ckptDone => 0
  | .ckptAbort => 2
  | .ckptDeferred => 1
  | .ckptReflDigest => 1
  | .flicker => 1
  | .restoreMixed => 1
  | .restoreFail => 2
  | .restoreDone => 0
  | .cwtSessionLost => 2
  | .cwtRegDenied => 1
  | .cwtRefused => 1
  | .pwrInput => 1
  | .pwrRail => 2
  | .pwrCap => 0
  | .pwrRefused => 0
  | .thermLevel => 1
  | .thermCrit => 2
  | .thermTrip => 3
  | .thermOptics => 1
  | .coolant => 1
  | .bootReady => 0
  | .bootFail => 3
  | .resetForced => 1
  | .secAlarm => 2
  | .secErased => 3

/-- One argument of an event (R507): its size in bytes and its value. -/
structure EArg where
  size : Nat
  val : Nat
  deriving DecidableEq, Repr

/-- u8: flags, bands, kinds, levels, directions, causes. -/
def a8 (v : Nat) : EArg := ⟨1, v⟩
/-- u16: slots, groups, codes, temperatures, voltages, frequencies. -/
def a16 (v : Nat) : EArg := ⟨2, v⟩
/-- u32: counts, tensor ids, block indices, step numbers; f32 as its code. -/
def a32 (v : Nat) : EArg := ⟨4, v⟩
/-- u64: addresses, beacon values, serials. -/
def a64 (v : Nat) : EArg := ⟨8, v⟩

/-- Pack arguments little-endian, each at its natural alignment, gaps zero (R507). -/
def packArgs : List Byte → List EArg → List Byte
  | acc, [] => acc
  | acc, a :: r =>
    let pad := if a.size = 0 then 0 else (a.size - acc.length % a.size) % a.size
    packArgs (acc ++ List.replicate pad 0 ++ leBytes a.size a.val) r

/-- Cut packed arguments into the 16-byte ARGS of a head record and up to three EVT_CONT records (R507). -/
def argChunks (b : List Byte) : List (List Byte) :=
  let n := min 4 (max 1 (ceilDiv b.length 16))
  (List.range n).map (fun k => slice b (16 * k) 16)

/-- WHERE of a record (Table 15.7): die, region, index, link. -/
def whereWord (die region idx link : Nat) : Nat := die % 8 + region % 4 * 8 + idx % 128 * 32 + link % 8 * 4096

/-- WHERE of the hub. -/
def whHub : Nat := whereWord 4 0 0 0
/-- WHERE of a compute die. -/
def whDie (d : Nat) : Nat := whereWord d 0 0 0
/-- WHERE of a cluster of the module (index 64 × die + 16 × region + cluster). -/
def whClu (q : Nat) : Nat := whereWord (q / 64) (q / 16 % 4) (q % 16) 0
/-- WHERE of a physical unit. -/
def whUnit (d r u : Nat) : Nat := whereWord d r u 0
/-- WHERE of a link. -/
def whLink (l : Nat) : Nat := whereWord 4 0 0 l
/-- WHERE of a fast-tier controller. -/
def whHc (k : Nat) : Nat := whereWord (k / 8) 0 k 0
/-- WHERE of a slow-tier controller. -/
def whLpc (k : Nat) : Nat := whereWord 4 0 k 0

end Sys2Proof.Machine
end

