-- ==== Sys2Proof/Machine/RegTable.lean ====
section
/-! DEFINITION. The register map: blocks and their places (R483, Table 18.2), and every register with its fields,
access codes and reset values, transcribed from the register tables of the spec (R10, R481). -/
namespace Sys2Proof.Machine

/-- Access code of a register field (Table 0.3). -/
inductive Acc where
  | ro | rw | rc | wo | rwl | live
  deriving DecidableEq, Repr

/-- One field of a register table. -/
structure RegField where
  hi : Nat
  lo : Nat
  acc : Acc
  rst : Nat
  deriving DecidableEq, Repr

/-- One row of a register table: `count` registers `stride` bytes apart. -/
structure RegRow where
  off : Nat
  count : Nat
  stride : Nat
  fields : List RegField
  deriving DecidableEq, Repr

/-- The register blocks of Table 18.2. `d` a compute die, `q` a cluster of the module (64 per die), `k` a controller,
`u` a physical unit 0–65, `p` a port, `l` a link. -/
inductive Blk where
  | sync (d : Nat) | bcn (d : Nat) | clk (d : Nat) | route (d : Nat)
  | hc (k : Nat) | rgn (d r : Nat) | clu (q : Nat) | unit (d r u : Nat)
  | hub | regdec | coord | xlat | evt | hlth | pwr | scl | upd | mig | chk | ckpt | cwt | sec
  | eth (p : Nat) | lnk (l : Nat) | lpc (k : Nat)
  deriving DecidableEq, Repr

/-! Register offsets within an instance. -/

/-- CLU_GANG (R137). -/
abbrev rCluGang : Nat := 0x0
/-- CLU_APPLY (R137). -/
abbrev rCluApply : Nat := 0x4
/-- CLU_GANG_NOW (R137). -/
abbrev rCluGangNow : Nat := 0x8
/-- RGN_ECLIPSE_WIN (R138). -/
abbrev rRgnEclipseWin : Nat := 0x0
/-- RGN_APPLY (R138). -/
abbrev rRgnApply : Nat := 0x4
/-- RGN_UNITMAP (R138). -/
abbrev rRgnUnitmap : Nat := 0x100
/-- UNIT_STATUS (R139). -/
abbrev rUnitStatus : Nat := 0x0
/-- UNIT_ABFT_MISMATCH (R139). -/
abbrev rUnitAbftMismatch : Nat := 0x10
/-- UNIT_ACC_FLUSH (R139). -/
abbrev rUnitAccFlush : Nat := 0x14
/-- UNIT_ABFT_SKIP (R139). -/
abbrev rUnitAbftSkip : Nat := 0x18
/-- UNIT_CNT_SAT (R139). -/
abbrev rUnitCntSat : Nat := 0x1C
/-- UNIT_ZSKIP_LO (R139). -/
abbrev rUnitZskipLo : Nat := 0x20
/-- UNIT_ZSKIP_HI (R139). -/
abbrev rUnitZskipHi : Nat := 0x24
/-- UNIT_CHECKS_LO (R139). -/
abbrev rUnitChecksLo : Nat := 0x28
/-- UNIT_CHECKS_HI (R139). -/
abbrev rUnitChecksHi : Nat := 0x2C
/-- UNIT_FENCE (R139). -/
abbrev rUnitFence : Nat := 0x40
/-- ROUTE_OWNER_LO (R169). -/
abbrev rRouteOwnerLo : Nat := 0x0
/-- ROUTE_OWNER_HI (R169). -/
abbrev rRouteOwnerHi : Nat := 0x4
/-- ROUTE_OWNER_COUNT (R169). -/
abbrev rRouteOwnerCount : Nat := 0x8
/-- ROUTE_APPLY (R169). -/
abbrev rRouteApply : Nat := 0xC
/-- ROUTE_OVERFLOW (R169). -/
abbrev rRouteOverflow : Nat := 0x10
/-- ROUTE_RESIDUAL (R169). -/
abbrev rRouteResidual : Nat := 0x14
/-- ROUTE_NANTOK (R169). -/
abbrev rRouteNantok : Nat := 0x18
/-- ROUTE_REQUANT (R169). -/
abbrev rRouteRequant : Nat := 0x1C
/-- ROUTE_CNT_SAT (R169). -/
abbrev rRouteCntSat : Nat := 0x20
/-- CLU_SEQ_ENTRY_LO (R176). -/
abbrev rCluSeqEntryLo : Nat := 0x40
/-- CLU_SEQ_ENTRY_HI (R176). -/
abbrev rCluSeqEntryHi : Nat := 0x44
/-- CLU_SEQ_CTL (R176). -/
abbrev rCluSeqCtl : Nat := 0x48
/-- CLU_SEQ_STATUS (R176). -/
abbrev rCluSeqStatus : Nat := 0x4C
/-- CLU_SEQ_ERR (R176). -/
abbrev rCluSeqErr : Nat := 0x50
/-- CLU_SEQ_ERRPC_HI (R176). -/
abbrev rCluSeqErrpcHi : Nat := 0x54
/-- SCL_EST_LO (R253). -/
abbrev rSclEstLo : Nat := 0x0
/-- SCL_EST_HI (R253). -/
abbrev rSclEstHi : Nat := 0x4
/-- SCL_EST_COUNT (R253). -/
abbrev rSclEstCount : Nat := 0x8
/-- SCL_APPLY (R253). -/
abbrev rSclApply : Nat := 0xC
/-- SCL_LS_INIT (R253). -/
abbrev rSclLsInit : Nat := 0x10
/-- SCL_LS_CTL (R253). -/
abbrev rSclLsCtl : Nat := 0x14
/-- SCL_LS_NOW (R253). -/
abbrev rSclLsNow : Nat := 0x18
/-- SCL_LS_BASE_LO (R253). -/
abbrev rSclLsBaseLo : Nat := 0x1C
/-- SCL_LS_BASE_HI (R253). -/
abbrev rSclLsBaseHi : Nat := 0x20
/-- SCL_SEED_LO (R253). -/
abbrev rSclSeedLo : Nat := 0x24
/-- SCL_SEED_HI (R253). -/
abbrev rSclSeedHi : Nat := 0x28
/-- SCL_FADE_THRESH (R253). -/
abbrev rSclFadeThresh : Nat := 0x2C
/-- SCL_FLUSH_RATE (R253). -/
abbrev rSclFlushRate : Nat := 0x30
/-- SCL_FADE_SEL (R253). -/
abbrev rSclFadeSel : Nat := 0x34
/-- SCL_FADE_COUNT (R253). -/
abbrev rSclFadeCount : Nat := 0x38
/-- SCL_SAT_NOSLOT (R253). -/
abbrev rSclSatNoslot : Nat := 0x3C
/-- SCL_FLUSH16 (R253). -/
abbrev rSclFlush16 : Nat := 0x40
/-- SCL_CONST (R253). -/
abbrev rSclConst : Nat := 0x44
/-- SCL_DROP (R253). -/
abbrev rSclDrop : Nat := 0x48
/-- SCL_CNT_SAT (R253). -/
abbrev rSclCntSat : Nat := 0x4C
/-- SCL_STATUS (R253). -/
abbrev rSclStatus : Nat := 0x50
/-- HC_CTL (R282). -/
abbrev rHcCtl : Nat := 0x0
/-- HC_STATUS (R282). -/
abbrev rHcStatus : Nat := 0x4
/-- HC_TLIM (R282). -/
abbrev rHcTlim : Nat := 0x8
/-- HC_ECC_CE (R282). -/
abbrev rHcEccCe : Nat := 0x10
/-- HC_ECC_UE (R282). -/
abbrev rHcEccUe : Nat := 0x14
/-- HC_POISON_RD (R282). -/
abbrev rHcPoisonRd : Nat := 0x18
/-- HC_CNT_SAT (R282). -/
abbrev rHcCntSat : Nat := 0x1C
/-- HC_CE_RATE (R282). -/
abbrev rHcCeRate : Nat := 0x20
/-- HC_UE_ADDR_LO (R282). -/
abbrev rHcUeAddrLo : Nat := 0x24
/-- HC_UE_ADDR_HI (R282). -/
abbrev rHcUeAddrHi : Nat := 0x28
/-- HC_RD_BYTES_LO (R282). -/
abbrev rHcRdBytesLo : Nat := 0x30
/-- HC_RD_BYTES_HI (R282). -/
abbrev rHcRdBytesHi : Nat := 0x34
/-- HC_WR_BYTES_LO (R282). -/
abbrev rHcWrBytesLo : Nat := 0x38
/-- HC_WR_BYTES_HI (R282). -/
abbrev rHcWrBytesHi : Nat := 0x3C
/-- HC_THR_TIME_LO (R282). -/
abbrev rHcThrTimeLo : Nat := 0x40
/-- HC_THR_TIME_HI (R282). -/
abbrev rHcThrTimeHi : Nat := 0x44
/-- LPC_CTL (R283). -/
abbrev rLpcCtl : Nat := 0x0
/-- LPC_STATUS (R283). -/
abbrev rLpcStatus : Nat := 0x4
/-- LPC_ECS_CE (R283). -/
abbrev rLpcEcsCe : Nat := 0x10
/-- LPC_LINK_CE (R283). -/
abbrev rLpcLinkCe : Nat := 0x14
/-- LPC_CNT_SAT (R283). -/
abbrev rLpcCntSat : Nat := 0x1C
/-- LPC_CE_RATE (R283). -/
abbrev rLpcCeRate : Nat := 0x20
/-- LPC_RD_BYTES_LO (R283). -/
abbrev rLpcRdBytesLo : Nat := 0x30
/-- LPC_RD_BYTES_HI (R283). -/
abbrev rLpcRdBytesHi : Nat := 0x34
/-- LPC_WR_BYTES_LO (R283). -/
abbrev rLpcWrBytesLo : Nat := 0x38
/-- LPC_WR_BYTES_HI (R283). -/
abbrev rLpcWrBytesHi : Nat := 0x3C
/-- TG_CTL (R284). -/
abbrev rTgCtl : Nat := 0x0
/-- TG_STATUS (R284). -/
abbrev rTgStatus : Nat := 0x4
/-- TG_BASE (R284). -/
abbrev rTgBase : Nat := 0x8
/-- TG_COUNT (R284). -/
abbrev rTgCount : Nat := 0xC
/-- TG_STRIDE (R284). -/
abbrev rTgStride : Nat := 0x10
/-- TG_SEED (R284). -/
abbrev rTgSeed : Nat := 0x14
/-- TG_ERRCNT (R284). -/
abbrev rTgErrcnt : Nat := 0x18
/-- TG_FAILADDR (R284). -/
abbrev rTgFailaddr : Nat := 0x1C
/-- TG_FAILXOR (R284). -/
abbrev rTgFailxor : Nat := 0x20
/-- TG_FAILWORD (R284). -/
abbrev rTgFailword : Nat := 0x24
/-- TG_USER (R284). -/
abbrev rTgUser : Nat := 0x40
/-- MIG_RING_LO (R285). -/
abbrev rMigRingLo : Nat := 0x0
/-- MIG_RING_HI (R285). -/
abbrev rMigRingHi : Nat := 0x4
/-- MIG_RING_SIZE (R285). -/
abbrev rMigRingSize : Nat := 0x8
/-- MIG_TRIG (R285). -/
abbrev rMigTrig : Nat := 0xC
/-- MIG_APPLY (R285). -/
abbrev rMigApply : Nat := 0x10
/-- MIG_DONE (R285). -/
abbrev rMigDone : Nat := 0x14
/-- MIG_STATUS (R285). -/
abbrev rMigStatus : Nat := 0x18
/-- MIG_BYTES_LO (R285). -/
abbrev rMigBytesLo : Nat := 0x20
/-- MIG_BYTES_HI (R285). -/
abbrev rMigBytesHi : Nat := 0x24
/-- RGN_CACHE_CTL (R286). -/
abbrev rRgnCacheCtl : Nat := 0x200
/-- RGN_CACHE_KEEP (R286). -/
abbrev rRgnCacheKeep : Nat := 0x204
/-- RGN_CACHE_HIT_LO (R286). -/
abbrev rRgnCacheHitLo : Nat := 0x210
/-- RGN_CACHE_HIT_HI (R286). -/
abbrev rRgnCacheHitHi : Nat := 0x214
/-- RGN_CACHE_MISS_LO (R286). -/
abbrev rRgnCacheMissLo : Nat := 0x218
/-- RGN_CACHE_MISS_HI (R286). -/
abbrev rRgnCacheMissHi : Nat := 0x21C
/-- RGN_SRAM_CE (R286). -/
abbrev rRgnSramCe : Nat := 0x220
/-- RGN_SRAM_UE (R286). -/
abbrev rRgnSramUe : Nat := 0x224
/-- RGN_SRAM_SAT (R286). -/
abbrev rRgnSramSat : Nat := 0x228
/-- UPD_PPT_LO (R309). -/
abbrev rUpdPptLo : Nat := 0x0
/-- UPD_PPT_HI (R309). -/
abbrev rUpdPptHi : Nat := 0x4
/-- UPD_PPT_COUNT (R309). -/
abbrev rUpdPptCount : Nat := 0x8
/-- UPD_FREE_LO (R309). -/
abbrev rUpdFreeLo : Nat := 0xC
/-- UPD_FREE_HI (R309). -/
abbrev rUpdFreeHi : Nat := 0x10
/-- UPD_FREE_CAP (R309). -/
abbrev rUpdFreeCap : Nat := 0x14
/-- UPD_FREE_COUNT (R309). -/
abbrev rUpdFreeCount : Nat := 0x18
/-- UPD_FREE_LOW (R309). -/
abbrev rUpdFreeLow : Nat := 0x1C
/-- UPD_APPLY (R309). -/
abbrev rUpdApply : Nat := 0xA0
/-- UPD_STATUS (R309). -/
abbrev rUpdStatus : Nat := 0xA4
/-- UPD_DUAL_MISMATCH (R309). -/
abbrev rUpdDualMismatch : Nat := 0xB0
/-- UPD_NONFIN (R309). -/
abbrev rUpdNonfin : Nat := 0xB4
/-- UPD_FRESH (R309). -/
abbrev rUpdFresh : Nat := 0xB8
/-- UPD_CNT_SAT (R309). -/
abbrev rUpdCntSat : Nat := 0xBC
/-- UPD_PARAMS_LO (R309). -/
abbrev rUpdParamsLo : Nat := 0xC0
/-- UPD_PARAMS_HI (R309). -/
abbrev rUpdParamsHi : Nat := 0xC4
/-- LNK_CTL (R344). -/
abbrev rLnkCtl : Nat := 0x0
/-- LNK_STATUS (R344). -/
abbrev rLnkStatus : Nat := 0x4
/-- LNK_PARTNER (R344). -/
abbrev rLnkPartner : Nat := 0x8
/-- LNK_PARTNER_SN_LO (R344). -/
abbrev rLnkPartnerSnLo : Nat := 0xC
/-- LNK_PARTNER_SN_HI (R344). -/
abbrev rLnkPartnerSnHi : Nat := 0x10
/-- LNK_EXPECT (R344). -/
abbrev rLnkExpect : Nat := 0x14
/-- LNK_EXPECT_SN_LO (R344). -/
abbrev rLnkExpectSnLo : Nat := 0x18
/-- LNK_EXPECT_SN_HI (R344). -/
abbrev rLnkExpectSnHi : Nat := 0x1C
/-- LNK_DETOUR0 (R344). -/
abbrev rLnkDetour0 : Nat := 0x20
/-- LNK_DETOUR1 (R344). -/
abbrev rLnkDetour1 : Nat := 0x24
/-- LNK_APPLY (R344). -/
abbrev rLnkApply : Nat := 0x28
/-- LNK_SPARE_THRESH (R344). -/
abbrev rLnkSpareThresh : Nat := 0x2C
/-- LNK_LANE_BAD0 (R344). -/
abbrev rLnkLaneBad0 : Nat := 0x30
/-- LNK_LANE_BAD1 (R344). -/
abbrev rLnkLaneBad1 : Nat := 0x34
/-- LNK_LANE_BAD2 (R344). -/
abbrev rLnkLaneBad2 : Nat := 0x38
/-- LNK_FEC_CORR_LO (R344). -/
abbrev rLnkFecCorrLo : Nat := 0x40
/-- LNK_FEC_CORR_HI (R344). -/
abbrev rLnkFecCorrHi : Nat := 0x44
/-- LNK_FEC_UNCORR (R344). -/
abbrev rLnkFecUncorr : Nat := 0x48
/-- LNK_FLIT_CRC (R344). -/
abbrev rLnkFlitCrc : Nat := 0x4C
/-- LNK_REPLAY (R344). -/
abbrev rLnkReplay : Nat := 0x50
/-- LNK_SWAPS (R344). -/
abbrev rLnkSwaps : Nat := 0x54
/-- LNK_E2E_DUP (R344). -/
abbrev rLnkE2eDup : Nat := 0x58
/-- LNK_DROP (R344). -/
abbrev rLnkDrop : Nat := 0x5C
/-- LNK_CNT_SAT (R344). -/
abbrev rLnkCntSat : Nat := 0x60
/-- LNK_TX_FLITS_LO (R344). -/
abbrev rLnkTxFlitsLo : Nat := 0x70
/-- LNK_TX_FLITS_HI (R344). -/
abbrev rLnkTxFlitsHi : Nat := 0x74
/-- LNK_RX_FLITS_LO (R344). -/
abbrev rLnkRxFlitsLo : Nat := 0x78
/-- LNK_RX_FLITS_HI (R344). -/
abbrev rLnkRxFlitsHi : Nat := 0x7C
/-- CHK_APPLY (R361). -/
abbrev rChkApply : Nat := 0x100
/-- CHK_PRISM_CTL (R361). -/
abbrev rChkPrismCtl : Nat := 0x104
/-- CHK_PRISM_SEED_LO (R361). -/
abbrev rChkPrismSeedLo : Nat := 0x108
/-- CHK_PRISM_SEED_HI (R361). -/
abbrev rChkPrismSeedHi : Nat := 0x10C
/-- CHK_PRISM_RUNS_LO (R361). -/
abbrev rChkPrismRunsLo : Nat := 0x110
/-- CHK_PRISM_RUNS_HI (R361). -/
abbrev rChkPrismRunsHi : Nat := 0x114
/-- CHK_PRISM_MISMATCH (R361). -/
abbrev rChkPrismMismatch : Nat := 0x118
/-- CHK_PRISM_NOQUORUM (R361). -/
abbrev rChkPrismNoquorum : Nat := 0x11C
/-- CHK_PRISM_DIE (R361). -/
abbrev rChkPrismDie : Nat := 0x120
/-- CHK_DUAL (R361). -/
abbrev rChkDual : Nat := 0x124
/-- CHK_DUAL_MISMATCH (R361). -/
abbrev rChkDualMismatch : Nat := 0x128
/-- CHK_DUAL_UNCURED (R361). -/
abbrev rChkDualUncured : Nat := 0x12C
/-- CHK_FOLD_CTL (R361). -/
abbrev rChkFoldCtl : Nat := 0x130
/-- CHK_FOLD_GROUP (R361). -/
abbrev rChkFoldGroup : Nat := 0x134
/-- CHK_FOLD_STATUS (R361). -/
abbrev rChkFoldStatus : Nat := 0x138
/-- CHK_FOLD_LAST (R361). -/
abbrev rChkFoldLast : Nat := 0x13C
/-- CHK_FOLD_REC (R361). -/
abbrev rChkFoldRec : Nat := 0x140
/-- CHK_BAND_SEL (R361). -/
abbrev rChkBandSel : Nat := 0x180
/-- CHK_BAND_RUNS (R361). -/
abbrev rChkBandRuns : Nat := 0x184
/-- CHK_BAND_PRISM (R361). -/
abbrev rChkBandPrism : Nat := 0x188
/-- CHK_BAND_ABFT (R361). -/
abbrev rChkBandAbft : Nat := 0x18C
/-- CHK_BAND_SAT (R361). -/
abbrev rChkBandSat : Nat := 0x190
/-- CHK_PC_SAT (R361). -/
abbrev rChkPcSat : Nat := 0x194
/-- HUB_AGL_SIZE (R393). -/
abbrev rHubAglSize : Nat := 0x300
/-- HUB_AGL_USED (R393). -/
abbrev rHubAglUsed : Nat := 0x304
/-- HUB_AGL_HWM (R393). -/
abbrev rHubAglHwm : Nat := 0x308
/-- HUB_AGL_MATCHED (R393). -/
abbrev rHubAglMatched : Nat := 0x30C
/-- HUB_AGL_WAITS (R393). -/
abbrev rHubAglWaits : Nat := 0x310
/-- HUB_AGL_DIVERGE (R393). -/
abbrev rHubAglDiverge : Nat := 0x314
/-- HUB_RESIL_CNT_SAT (R393). -/
abbrev rHubResilCntSat : Nat := 0x318
/-- HUB_REFL_BUDDY (R393). -/
abbrev rHubReflBuddy : Nat := 0x320
/-- HUB_REFL_WARD (R393). -/
abbrev rHubReflWard : Nat := 0x324
/-- HUB_REFL_STATUS (R393). -/
abbrev rHubReflStatus : Nat := 0x328
/-- HUB_REFL_STEP (R393). -/
abbrev rHubReflStep : Nat := 0x32C
/-- HUB_REFL_ACKED (R393). -/
abbrev rHubReflAcked : Nat := 0x330
/-- HUB_REFL_LATE (R393). -/
abbrev rHubReflLate : Nat := 0x334
/-- HUB_CERT_CTL (R393). -/
abbrev rHubCertCtl : Nat := 0x338
/-- HUB_RESIL_APPLY (R393). -/
abbrev rHubResilApply : Nat := 0x33C
/-- CKPT_CTL (R412). -/
abbrev rCkptCtl : Nat := 0x0
/-- CKPT_REQ (R412). -/
abbrev rCkptReq : Nat := 0x4
/-- CKPT_JOB_LO (R412). -/
abbrev rCkptJobLo : Nat := 0x8
/-- CKPT_JOB_HI (R412). -/
abbrev rCkptJobHi : Nat := 0xC
/-- CKPT_SINK_LO (R412). -/
abbrev rCkptSinkLo : Nat := 0x10
/-- CKPT_SINK_HI (R412). -/
abbrev rCkptSinkHi : Nat := 0x14
/-- CKPT_SINK_COUNT (R412). -/
abbrev rCkptSinkCount : Nat := 0x18
/-- CKPT_RATE (R412). -/
abbrev rCkptRate : Nat := 0x1C
/-- CKPT_FLK_THR (R412). -/
abbrev rCkptFlkThr : Nat := 0x20
/-- CKPT_FLK_TIME (R412). -/
abbrev rCkptFlkTime : Nat := 0x24
/-- CKPT_APPLY (R412). -/
abbrev rCkptApply : Nat := 0x28
/-- CKPT_STATUS (R412). -/
abbrev rCkptStatus : Nat := 0x2C
/-- CKPT_LAST (R412). -/
abbrev rCkptLast : Nat := 0x30
/-- CKPT_HELD (R412). -/
abbrev rCkptHeld : Nat := 0x34
/-- CKPT_BYTES_LO (R412). -/
abbrev rCkptBytesLo : Nat := 0x38
/-- CKPT_BYTES_HI (R412). -/
abbrev rCkptBytesHi : Nat := 0x3C
/-- CKPT_ABORTS (R412). -/
abbrev rCkptAborts : Nat := 0x40
/-- CKPT_DEFERS (R412). -/
abbrev rCkptDefers : Nat := 0x44
/-- CKPT_FLICKERS (R412). -/
abbrev rCkptFlickers : Nat := 0x48
/-- CKPT_CNT_SAT (R412). -/
abbrev rCkptCntSat : Nat := 0x4C
/-- CKPT_RST_STEP (R412). -/
abbrev rCkptRstStep : Nat := 0x60
/-- CKPT_RST_CTL (R412). -/
abbrev rCkptRstCtl : Nat := 0x64
/-- CKPT_RST_STATUS (R412). -/
abbrev rCkptRstStatus : Nat := 0x68
/-- CKPT_RST_RESULT (R412). -/
abbrev rCkptRstResult : Nat := 0x6C
/-- CKPT_RST_REFL (R412). -/
abbrev rCkptRstRefl : Nat := 0x70
/-- CKPT_TRUST_LO (R412). -/
abbrev rCkptTrustLo : Nat := 0x74
/-- CKPT_TRUST_HI (R412). -/
abbrev rCkptTrustHi : Nat := 0x78
/-- CKPT_TRUST_COUNT (R412). -/
abbrev rCkptTrustCount : Nat := 0x7C
/-- ETH_CTL (R439). -/
abbrev rEthCtl : Nat := 0x0
/-- ETH_PFC (R439). -/
abbrev rEthPfc : Nat := 0x4
/-- ETH_PFC_WM (R439). -/
abbrev rEthPfcWm : Nat := 0x8
/-- ETH_STATUS (R439). -/
abbrev rEthStatus : Nat := 0xC
/-- ETH_RX_DROP (R439). -/
abbrev rEthRxDrop : Nat := 0x10
/-- ETH_CNT_SAT (R439). -/
abbrev rEthCntSat : Nat := 0x14
/-- CWT_CFG (R439). -/
abbrev rCwtCfg : Nat := 0x0
/-- CWT_WIN (R439). -/
abbrev rCwtWin : Nat := 0x4
/-- CWT_TMR (R439). -/
abbrev rCwtTmr : Nat := 0x8
/-- CWT_APPLY (R439). -/
abbrev rCwtApply : Nat := 0xC
/-- CWT_STATUS (R439). -/
abbrev rCwtStatus : Nat := 0x10
/-- CWT_JOB_LO (R439). -/
abbrev rCwtJobLo : Nat := 0x14
/-- CWT_JOB_HI (R439). -/
abbrev rCwtJobHi : Nat := 0x18
/-- CWT_BAD (R439). -/
abbrev rCwtBad : Nat := 0x20
/-- CWT_DUP (R439). -/
abbrev rCwtDup : Nat := 0x24
/-- CWT_BUSY (R439). -/
abbrev rCwtBusy : Nat := 0x28
/-- CWT_STALE (R439). -/
abbrev rCwtStale : Nat := 0x2C
/-- CWT_CNT_SAT (R439). -/
abbrev rCwtCntSat : Nat := 0x30
/-- PWR_REQ (R463). -/
abbrev rPwrReq : Nat := 0x0
/-- PWR_STATUS (R463). -/
abbrev rPwrStatus : Nat := 0x4
/-- PWR_CTL (R463). -/
abbrev rPwrCtl : Nat := 0x8
/-- PWR_CAP (R463). -/
abbrev rPwrCap : Nat := 0xC
/-- PWR_WAKE (R463). -/
abbrev rPwrWake : Nat := 0x10
/-- PWR_RESET (R463). -/
abbrev rPwrReset : Nat := 0x14
/-- PWR_WDOG (R463). -/
abbrev rPwrWdog : Nat := 0x18
/-- PWR_BOOT (R463). -/
abbrev rPwrBoot : Nat := 0x1C
/-- PWR_INPUT (R463). -/
abbrev rPwrInput : Nat := 0x20
/-- PWR_THERM (R463). -/
abbrev rPwrTherm : Nat := 0x24
/-- PWR_CAP_TIME_LO (R463). -/
abbrev rPwrCapTimeLo : Nat := 0x28
/-- PWR_CAP_TIME_HI (R463). -/
abbrev rPwrCapTimeHi : Nat := 0x2C
/-- PWR_RES_LO (R463). -/
abbrev rPwrResLo : Nat := 0x30
/-- PWR_RES_HI (R463). -/
abbrev rPwrResHi : Nat := 0x34
/-- PWR_INPUT_EXC (R463). -/
abbrev rPwrInputExc : Nat := 0x60
/-- PWR_REFUSALS (R463). -/
abbrev rPwrRefusals : Nat := 0x64
/-- PWR_CNT_SAT (R463). -/
abbrev rPwrCntSat : Nat := 0x68
/-- CLK_LIMIT (R463). -/
abbrev rClkLimit : Nat := 0x0
/-- CLK_LOCK (R463). -/
abbrev rClkLock : Nat := 0x10
/-- CLK_STATUS (R463). -/
abbrev rClkStatus : Nat := 0x14
/-- CLK_D3_TIME_LO (R463). -/
abbrev rClkD3TimeLo : Nat := 0x18
/-- CLK_D3_TIME_HI (R463). -/
abbrev rClkD3TimeHi : Nat := 0x1C
/-- SEC_POLICY (R479). -/
abbrev rSecPolicy : Nat := 0x0
/-- SEC_STATUS (R479). -/
abbrev rSecStatus : Nat := 0x4
/-- SEC_DEBUG (R479). -/
abbrev rSecDebug : Nat := 0x8
/-- SEC_DBG_FAILS (R479). -/
abbrev rSecDbgFails : Nat := 0xC
/-- SEC_FUSE (R479). -/
abbrev rSecFuse : Nat := 0x10
/-- SEC_SVN (R479). -/
abbrev rSecSvn : Nat := 0x14
/-- SEC_ALARMS (R479). -/
abbrev rSecAlarms : Nat := 0x18
/-- SEC_MB_CMD (R479). -/
abbrev rSecMbCmd : Nat := 0x20
/-- SEC_MB_STATUS (R479). -/
abbrev rSecMbStatus : Nat := 0x24
/-- SEC_MB_DATA (R479). -/
abbrev rSecMbData : Nat := 0x1000
/-- HUB_ID (R497). -/
abbrev rHubId : Nat := 0x0
/-- HUB_PART (R497). -/
abbrev rHubPart : Nat := 0x10
/-- HUB_SERIAL_LO (R497). -/
abbrev rHubSerialLo : Nat := 0x20
/-- HUB_SERIAL_HI (R497). -/
abbrev rHubSerialHi : Nat := 0x24
/-- HUB_DETMODE (R497). -/
abbrev rHubDetmode : Nat := 0x30
/-- HUB_STEP_OPEN (R497). -/
abbrev rHubStepOpen : Nat := 0x40
/-- HUB_STEP_COMMIT (R497). -/
abbrev rHubStepCommit : Nat := 0x44
/-- HUB_EPOCH (R497). -/
abbrev rHubEpoch : Nat := 0x48
/-- HUB_DRAIN_LIM (R497). -/
abbrev rHubDrainLim : Nat := 0x4C
/-- HUB_VOTE_LIM (R497). -/
abbrev rHubVoteLim : Nat := 0x50
/-- HUB_STEP_APPLY (R497). -/
abbrev rHubStepApply : Nat := 0x54
/-- HUB_STEP_STATUS (R497). -/
abbrev rHubStepStatus : Nat := 0x58
/-- HUB_STEP_ARG (R497). -/
abbrev rHubStepArg : Nat := 0x60
/-- HUB_STEP_CMD (R497). -/
abbrev rHubStepCmd : Nat := 0x64
/-- HUB_STEP_RESULT (R497). -/
abbrev rHubStepResult : Nat := 0x68
/-- REGDEC_CTL (R498). -/
abbrev rRegdecCtl : Nat := 0x0
/-- REGDEC_STATUS (R498). -/
abbrev rRegdecStatus : Nat := 0x4
/-- REGDEC_UNMAPPED (R498). -/
abbrev rRegdecUnmapped : Nat := 0x8
/-- REGDEC_UNIMPL (R498). -/
abbrev rRegdecUnimpl : Nat := 0xC
/-- REGDEC_LIVE (R498). -/
abbrev rRegdecLive : Nat := 0x10
/-- REGDEC_LOCKED (R498). -/
abbrev rRegdecLocked : Nat := 0x14
/-- REGDEC_CNT_SAT (R498). -/
abbrev rRegdecCntSat : Nat := 0x18
/-- COORD_PHYS (R499). -/
abbrev rCoordPhys : Nat := 0x0
/-- COORD_PDIM (R499). -/
abbrev rCoordPdim : Nat := 0x4
/-- COORD_LOGICAL (R499). -/
abbrev rCoordLogical : Nat := 0x8
/-- XLAT_DIM (R500). -/
abbrev rXlatDim : Nat := 0x0
/-- XLAT_IDX (R500). -/
abbrev rXlatIdx : Nat := 0x4
/-- XLAT_DATA (R500). -/
abbrev rXlatData : Nat := 0x8
/-- XLAT_CUR (R500). -/
abbrev rXlatCur : Nat := 0xC
/-- XLAT_EPOCH (R500). -/
abbrev rXlatEpoch : Nat := 0x10
/-- XLAT_APPLY (R500). -/
abbrev rXlatApply : Nat := 0x14
/-- XLAT_STATUS (R500). -/
abbrev rXlatStatus : Nat := 0x18
/-- XLAT_E2E_TMO (R500). -/
abbrev rXlatE2eTmo : Nat := 0x1C
/-- XLAT_GRP_LO (R500). -/
abbrev rXlatGrpLo : Nat := 0x20
/-- XLAT_GRP_HI (R500). -/
abbrev rXlatGrpHi : Nat := 0x24
/-- XLAT_GRP_COUNT (R500). -/
abbrev rXlatGrpCount : Nat := 0x28
/-- BCN_NOW_LO (R501). -/
abbrev rBcnNowLo : Nat := 0x0
/-- BCN_NOW_HI (R501). -/
abbrev rBcnNowHi : Nat := 0x4
/-- BCN_OVR_TOL (R501). -/
abbrev rBcnOvrTol : Nat := 0x8
/-- BCN_OVERRUN (R501). -/
abbrev rBcnOverrun : Nat := 0xC
/-- BCN_SLIP_MAX (R501). -/
abbrev rBcnSlipMax : Nat := 0x10
/-- BCN_CNT_SAT (R501). -/
abbrev rBcnCntSat : Nat := 0x14
/-- BCN_STATUS (R501). -/
abbrev rBcnStatus : Nat := 0x18
/-- BCN_SLIP_OFS (R501). -/
abbrev rBcnSlipOfs : Nat := 0x48
/-- BCN_SLIP_CTL (R501). -/
abbrev rBcnSlipCtl : Nat := 0x4C
/-- SYNC_VAL (R502). -/
abbrev rSyncVal : Nat := 0x0
/-- SYNC_ADD (R502). -/
abbrev rSyncAdd : Nat := 0x4
/-- SYNC_ARM_CTL (R502). -/
abbrev rSyncArmCtl : Nat := 0x10000
/-- SYNC_ARM_TGT (R502). -/
abbrev rSyncArmTgt : Nat := 0x10004
/-- SYNC_RSVD_WRITE (R502). -/
abbrev rSyncRsvdWrite : Nat := 0x11000
/-- SYNC_BAD_OP (R502). -/
abbrev rSyncBadOp : Nat := 0x11004
/-- SYNC_CNT_SAT (R502). -/
abbrev rSyncCntSat : Nat := 0x11008
/-- SYNC_WAITERS (R502). -/
abbrev rSyncWaiters : Nat := 0x1100C
/-- EVT_HOST_ESEQ (R503). -/
abbrev rEvtHostEseq : Nat := 0x0
/-- EVT_MGMT_ESEQ (R503). -/
abbrev rEvtMgmtEseq : Nat := 0x4
/-- EVT_FILL (R503). -/
abbrev rEvtFill : Nat := 0x8
/-- EVT_HOST_LOST (R503). -/
abbrev rEvtHostLost : Nat := 0xC
/-- EVT_MGMT_LOST (R503). -/
abbrev rEvtMgmtLost : Nat := 0x10
/-- EVT_CNT_SAT (R503). -/
abbrev rEvtCntSat : Nat := 0x14
/-- EVT_LAST (R503). -/
abbrev rEvtLast : Nat := 0x18
/-- EVT_RAISED_LO (R503). -/
abbrev rEvtRaisedLo : Nat := 0x20
/-- EVT_RAISED_HI (R503). -/
abbrev rEvtRaisedHi : Nat := 0x24
/-- EVT_SNAP_LO (R503). -/
abbrev rEvtSnapLo : Nat := 0x30
/-- EVT_SNAP_HI (R503). -/
abbrev rEvtSnapHi : Nat := 0x34
/-- EVT_CLR_BLOCK (R503). -/
abbrev rEvtClrBlock : Nat := 0x38
/-- EVT_CLR (R503). -/
abbrev rEvtClr : Nat := 0x3C
/-- HLTH_SCORE (R504). -/
abbrev rHlthScore : Nat := 0x0
/-- HLTH_P (R504). -/
abbrev rHlthP : Nat := 0x4
/-- HLTH_FLAGS (R504). -/
abbrev rHlthFlags : Nat := 0x8
/-- HLTH_PERIOD (R504). -/
abbrev rHlthPeriod : Nat := 0xC
/-- HLTH_APPLY (R504). -/
abbrev rHlthApply : Nat := 0x10
/-- HLTH_STATUS (R504). -/
abbrev rHlthStatus : Nat := 0x14
/-- HLTH_CNT_SAT (R504). -/
abbrev rHlthCntSat : Nat := 0x18
/-- HLTH_WEIGHT (R504). -/
abbrev rHlthWeight : Nat := 0x100
/-- HLTH_COUNT (R504). -/
abbrev rHlthCount : Nat := 0x200
/-- HLTH_PEN (R504). -/
abbrev rHlthPen : Nat := 0x204
/-- CHK_CRC_FAIL (R505). -/
abbrev rChkCrcFail : Nat := 0x0
/-- CHK_CRC_UNCURED (R505). -/
abbrev rChkCrcUncured : Nat := 0x4
/-- CHK_BAD_HEADER (R505). -/
abbrev rChkBadHeader : Nat := 0x8
/-- CHK_BLOCK_MISMATCH (R505). -/
abbrev rChkBlockMismatch : Nat := 0xC
/-- CHK_BAD_SCALE (R505). -/
abbrev rChkBadScale : Nat := 0x10
/-- CHK_MX_INEXACT (R505). -/
abbrev rChkMxInexact : Nat := 0x14
/-- CHK_STALE_EPOCH (R505). -/
abbrev rChkStaleEpoch : Nat := 0x18
/-- CHK_CRC_SAT (R505). -/
abbrev rChkCrcSat : Nat := 0x1C
/-- CHK_CRC_STATUS (R505). -/
abbrev rChkCrcStatus : Nat := 0x20
/-- CHK_BLOCKS_LO (R505). -/
abbrev rChkBlocksLo : Nat := 0x28
/-- CHK_BLOCKS_HI (R505). -/
abbrev rChkBlocksHi : Nat := 0x2C

/-- Offset of a block instance from 0xF000_0000_0000 (R483, Table 18.2). -/
def Blk.base : Blk → Nat
  | .sync d => d * 0x4000000 + 0x0
  | .bcn d => d * 0x4000000 + 0x100000
  | .clk d => d * 0x4000000 + 0x101000
  | .route d => d * 0x4000000 + 0x102000
  | .hc k => k / 8 * 0x4000000 + 0x200000 + k % 8 * 0x1000
  | .rgn d r => d * 0x4000000 + 0x300000 + r * 0x1000
  | .clu q => q / 64 * 0x4000000 + 0x400000 + q % 64 * 0x100
  | .unit d r u => d * 0x4000000 + 0x500000 + r * 0x8000 + u * 0x100
  | .hub => 0x10000000
  | .regdec => 0x10001000
  | .coord => 0x10002000
  | .xlat => 0x10003000
  | .evt => 0x10004000
  | .hlth => 0x10005000
  | .pwr => 0x10006000
  | .scl => 0x10007000
  | .upd => 0x10008000
  | .mig => 0x10009000
  | .chk => 0x1000A000
  | .ckpt => 0x1000B000
  | .cwt => 0x1000C000
  | .sec => 0x10010000
  | .eth p => 0x10020000 + p * 0x1000
  | .lnk l => 0x10030000 + l * 0x1000
  | .lpc k => 0x10100000 + k * 0x1000

/-- Implemented span of a block (Table 18.2). -/
def Blk.span : Blk → Nat
  | .sync _ => 0x20000
  | .bcn _ => 0x100
  | .clk _ => 0x20
  | .route _ => 0x40
  | .hc _ => 0x1000
  | .rgn _ _ => 0x400
  | .clu _ => 0x80
  | .unit _ _ _ => 0x80
  | .hub => 0x400
  | .regdec => 0x20
  | .coord => 0x10
  | .xlat => 0x40
  | .evt => 0x40
  | .hlth => 0x400
  | .pwr => 0x80
  | .scl => 0x80
  | .upd => 0x100
  | .mig => 0x40
  | .chk => 0x200
  | .ckpt => 0x80
  | .cwt => 0x40
  | .sec => 0x4000
  | .eth _ => 0x20
  | .lnk _ => 0x80
  | .lpc _ => 0x1000

/-- The instance and the offset within it that an offset of a compute die's window names (R483). -/
def locateDie (d o : Nat) : Option (Blk × Nat) :=
  if o < 0x100000 then some (.sync d, o)
  else if o < 0x101000 then some (.bcn d, o - 0x100000)
  else if o < 0x102000 then some (.clk d, o - 0x101000)
  else if o < 0x103000 then some (.route d, o - 0x102000)
  else if 0x200000 ≤ o ∧ o < 0x208000 then some (.hc (8 * d + (o - 0x200000) / 0x1000), o % 0x1000)
  else if 0x300000 ≤ o ∧ o < 0x304000 then some (.rgn d ((o - 0x300000) / 0x1000), o % 0x1000)
  else if 0x400000 ≤ o ∧ o < 0x404000 then some (.clu (64 * d + (o - 0x400000) / 0x100), o % 0x100)
  else if 0x500000 ≤ o ∧ o < 0x520000 ∧ (o - 0x500000) % 0x8000 < 0x4200 then
    some (.unit d ((o - 0x500000) / 0x8000) ((o - 0x500000) % 0x8000 / 0x100), o % 0x100)
  else none

/-- The same for the hub's window. -/
def locateHub (o : Nat) : Option (Blk × Nat) :=
  if o < 0x10000 then
    match o / 0x1000 with
    | 0 => some (.hub, o % 0x1000)
    | 1 => some (.regdec, o % 0x1000)
    | 2 => some (.coord, o % 0x1000)
    | 3 => some (.xlat, o % 0x1000)
    | 4 => some (.evt, o % 0x1000)
    | 5 => some (.hlth, o % 0x1000)
    | 6 => some (.pwr, o % 0x1000)
    | 7 => some (.scl, o % 0x1000)
    | 8 => some (.upd, o % 0x1000)
    | 9 => some (.mig, o % 0x1000)
    | 10 => some (.chk, o % 0x1000)
    | 11 => some (.ckpt, o % 0x1000)
    | 12 => some (.cwt, o % 0x1000)
    | _ => none
  else if o < 0x14000 then some (.sec, o - 0x10000)
  else if 0x20000 ≤ o ∧ o < 0x22000 then some (.eth ((o - 0x20000) / 0x1000), o % 0x1000)
  else if 0x30000 ≤ o ∧ o < 0x36000 then some (.lnk ((o - 0x30000) / 0x1000), o % 0x1000)
  else if 0x100000 ≤ o ∧ o < 0x130000 then some (.lpc ((o - 0x100000) / 0x1000), o % 0x1000)
  else none

/-- The instance and offset that an offset from 0xF000_0000_0000 names; none outside every extent (R484). -/
def locate (k : Nat) : Option (Blk × Nat) :=
  if k < 0x10000000 then locateDie (k / 0x4000000) (k % 0x4000000) else locateHub (k - 0x10000000)

/-- The SYNC register table. -/
def regsSync : List RegRow := [
  ⟨0x0, 4096, 16, [⟨31, 0, .rw, 0⟩]⟩,
  ⟨0x4, 4096, 16, [⟨31, 0, .wo, 0⟩]⟩,
  ⟨0x10000, 64, 16, [⟨31, 31, .rw, 0⟩, ⟨30, 15, .live, 0⟩, ⟨14, 12, .rw, 0⟩, ⟨11, 0, .rw, 0⟩]⟩,
  ⟨0x10004, 64, 16, [⟨31, 0, .rw, 0⟩]⟩,
  ⟨0x11000, 1, 0, [⟨31, 0, .ro, 0⟩]⟩,
  ⟨0x11004, 1, 0, [⟨31, 0, .ro, 0⟩]⟩,
  ⟨0x11008, 1, 0, [⟨31, 2, .live, 0⟩, ⟨1, 0, .ro, 0⟩]⟩,
  ⟨0x1100C, 1, 0, [⟨31, 7, .live, 0⟩, ⟨6, 0, .ro, 0⟩]⟩]

/-- The BCN register table. -/
def regsBcn : List RegRow := [
  ⟨0x0, 1, 0, [⟨31, 0, .ro, 0⟩]⟩,
  ⟨0x4, 1, 0, [⟨31, 0, .ro, 0⟩]⟩,
  ⟨0x8, 1, 0, [⟨31, 16, .live, 0⟩, ⟨15, 0, .rw, 0⟩]⟩,
  ⟨0xC, 1, 0, [⟨31, 0, .ro, 0⟩]⟩,
  ⟨0x10, 1, 0, [⟨31, 0, .ro, 0⟩]⟩,
  ⟨0x14, 1, 0, [⟨31, 1, .live, 0⟩, ⟨0, 0, .ro, 0⟩]⟩,
  ⟨0x18, 1, 0, [⟨31, 1, .live, 0⟩, ⟨0, 0, .rc, 0⟩]⟩,
  ⟨0x48, 15, 8, [⟨31, 0, .rw, 0⟩]⟩,
  ⟨0x4C, 15, 8, [⟨31, 1, .live, 0⟩, ⟨0, 0, .rw, 0⟩]⟩]

/-- The CLK register table. -/
def regsClk : List RegRow := [
  ⟨0x0, 4, 4, [⟨31, 24, .live, 0⟩, ⟨23, 16, .rwl, 0⟩, ⟨15, 11, .live, 0⟩, ⟨10, 0, .rwl, 1200⟩]⟩,
  ⟨0x10, 1, 0, [⟨31, 1, .live, 0⟩, ⟨0, 0, .rwl, 0⟩]⟩,
  ⟨0x14, 1, 0, [⟨31, 24, .ro, 0⟩, ⟨23, 19, .live, 0⟩, ⟨18, 16, .ro, 0⟩, ⟨15, 11, .live, 0⟩, ⟨10, 0, .ro, 1200⟩]⟩,
  ⟨0x18, 1, 0, [⟨31, 0, .ro, 0⟩]⟩,
  ⟨0x1C, 1, 0, [⟨31, 0, .ro, 0⟩]⟩]

/-- The ROUTE register table. -/
def regsRoute : List RegRow := [
  ⟨0x0, 1, 0, [⟨31, 6, .rw, 0⟩, ⟨5, 0, .live, 0⟩]⟩,
  ⟨0x4, 1, 0, [⟨31, 16, .live, 0⟩, ⟨15, 0, .rw, 0⟩]⟩,
  ⟨0x8, 1, 0, [⟨31, 13, .live, 0⟩, ⟨12, 0, .rw, 0⟩]⟩,
  ⟨0xC, 1, 0, [⟨31, 1, .live, 0⟩, ⟨0, 0, .wo, 0⟩]⟩,
  ⟨0x10, 1, 0, [⟨31, 0, .ro, 0⟩]⟩,
  ⟨0x14, 1, 0, [⟨31, 0, .ro, 0⟩]⟩,
  ⟨0x18, 1, 0, [⟨31, 0, .ro, 0⟩]⟩,
  ⟨0x1C, 1, 0, [⟨31, 0, .ro, 0⟩]⟩,
  ⟨0x20, 1, 0, [⟨31, 4, .live, 0⟩, ⟨3, 3, .ro, 0⟩, ⟨2, 2, .ro, 0⟩, ⟨1, 1, .ro, 0⟩, ⟨0, 0, .ro, 0⟩]⟩]

/-- The HC register table. -/
def regsHc : List RegRow := [
  ⟨0x0, 1, 0, [⟨31, 2, .live, 0⟩, ⟨1, 0, .rw, 0⟩]⟩,
  ⟨0x4, 1, 0, [⟨31, 16, .live, 0⟩, ⟨15, 8, .ro, 0⟩, ⟨7, 7, .ro, 0⟩, ⟨6, 5, .live, 0⟩, ⟨4, 4, .rc, 0⟩, ⟨3, 3, .rc, 0⟩, ⟨2, 2, .rc, 0⟩, ⟨1, 0, .ro, 0⟩]⟩,
  ⟨0x8, 1, 0, [⟨31, 8, .live, 0⟩, ⟨7, 0, .ro, 95⟩]⟩,
  ⟨0x10, 1, 0, [⟨31, 0, .ro, 0⟩]⟩,
  ⟨0x14, 1, 0, [⟨31, 0, .ro, 0⟩]⟩,
  ⟨0x18, 1, 0, [⟨31, 0, .ro, 0⟩]⟩,
  ⟨0x1C, 1, 0, [⟨31, 3, .live, 0⟩, ⟨2, 2, .ro, 0⟩, ⟨1, 1, .ro, 0⟩, ⟨0, 0, .ro, 0⟩]⟩,
  ⟨0x20, 1, 0, [⟨31, 16, .live, 0⟩, ⟨15, 0, .rw, 256⟩]⟩,
  ⟨0x24, 1, 0, [⟨31, 5, .ro, 0⟩, ⟨4, 0, .live, 0⟩]⟩,
  ⟨0x28, 1, 0, [⟨31, 16, .live, 0⟩, ⟨15, 0, .ro, 0⟩]⟩,
  ⟨0x30, 1, 0, [⟨31, 0, .ro, 0⟩]⟩,
  ⟨0x34, 1, 0, [⟨31, 0, .ro, 0⟩]⟩,
  ⟨0x38, 1, 0, [⟨31, 0, .ro, 0⟩]⟩,
  ⟨0x3C, 1, 0, [⟨31, 0, .ro, 0⟩]⟩,
  ⟨0x40, 1, 0, [⟨31, 0, .ro, 0⟩]⟩,
  ⟨0x44, 1, 0, [⟨31, 0, .ro, 0⟩]⟩]

/-- The RGN register table. -/
def regsRgn : List RegRow := [
  ⟨0x0, 1, 0, [⟨31, 16, .live, 0⟩, ⟨15, 0, .rw, 600⟩]⟩,
  ⟨0x4, 1, 0, [⟨31, 1, .live, 0⟩, ⟨0, 0, .wo, 0⟩]⟩,
  ⟨0x100, 64, 4, [⟨31, 8, .live, 0⟩, ⟨7, 7, .ro, 0⟩, ⟨6, 0, .ro, 0⟩]⟩,
  ⟨0x200, 1, 0, [⟨31, 9, .live, 0⟩, ⟨8, 8, .wo, 0⟩, ⟨7, 4, .live, 0⟩, ⟨3, 0, .rw, 8⟩]⟩,
  ⟨0x204, 1, 0, [⟨31, 18, .live, 0⟩, ⟨17, 0, .ro, 0⟩]⟩,
  ⟨0x210, 1, 0, [⟨31, 0, .ro, 0⟩]⟩,
  ⟨0x214, 1, 0, [⟨31, 0, .ro, 0⟩]⟩,
  ⟨0x218, 1, 0, [⟨31, 0, .ro, 0⟩]⟩,
  ⟨0x21C, 1, 0, [⟨31, 0, .ro, 0⟩]⟩,
  ⟨0x220, 1, 0, [⟨31, 0, .ro, 0⟩]⟩,
  ⟨0x224, 1, 0, [⟨31, 0, .ro, 0⟩]⟩,
  ⟨0x228, 1, 0, [⟨31, 2, .live, 0⟩, ⟨1, 1, .ro, 0⟩, ⟨0, 0, .ro, 0⟩]⟩]

/-- The CLU register table. -/
def regsClu : List RegRow := [
  ⟨0x0, 1, 0, [⟨31, 2, .live, 0⟩, ⟨1, 0, .rw, 0⟩]⟩,
  ⟨0x4, 1, 0, [⟨31, 1, .live, 0⟩, ⟨0, 0, .wo, 0⟩]⟩,
  ⟨0x8, 1, 0, [⟨31, 2, .live, 0⟩, ⟨1, 0, .ro, 0⟩]⟩,
  ⟨0x40, 1, 0, [⟨31, 4, .rw, 0⟩, ⟨3, 0, .live, 0⟩]⟩,
  ⟨0x44, 1, 0, [⟨31, 16, .live, 0⟩, ⟨15, 0, .rw, 0⟩]⟩,
  ⟨0x48, 1, 0, [⟨31, 2, .live, 0⟩, ⟨1, 1, .rw, 0⟩, ⟨0, 0, .rw, 0⟩]⟩,
  ⟨0x4C, 1, 0, [⟨31, 10, .live, 0⟩, ⟨9, 9, .rc, 0⟩, ⟨8, 8, .rc, 0⟩, ⟨7, 3, .live, 0⟩, ⟨2, 0, .ro, 0⟩]⟩,
  ⟨0x50, 1, 0, [⟨31, 24, .rc, 0⟩, ⟨23, 0, .rc, 0⟩]⟩,
  ⟨0x54, 1, 0, [⟨31, 20, .live, 0⟩, ⟨19, 0, .rc, 0⟩]⟩]

/-- The UNIT register table. -/
def regsUnit : List RegRow := [
  ⟨0x0, 1, 0, [⟨31, 28, .live, 0⟩, ⟨27, 24, .ro, 0⟩, ⟨23, 16, .ro, 255⟩, ⟨15, 12, .ro, 0⟩, ⟨11, 3, .live, 0⟩, ⟨2, 2, .rc, 0⟩, ⟨1, 1, .rc, 0⟩, ⟨0, 0, .rc, 0⟩]⟩,
  ⟨0x10, 1, 0, [⟨31, 0, .ro, 0⟩]⟩,
  ⟨0x14, 1, 0, [⟨31, 0, .ro, 0⟩]⟩,
  ⟨0x18, 1, 0, [⟨31, 0, .ro, 0⟩]⟩,
  ⟨0x1C, 1, 0, [⟨31, 3, .live, 0⟩, ⟨2, 2, .ro, 0⟩, ⟨1, 1, .ro, 0⟩, ⟨0, 0, .ro, 0⟩]⟩,
  ⟨0x20, 1, 0, [⟨31, 0, .ro, 0⟩]⟩,
  ⟨0x24, 1, 0, [⟨31, 0, .ro, 0⟩]⟩,
  ⟨0x28, 1, 0, [⟨31, 0, .ro, 0⟩]⟩,
  ⟨0x2C, 1, 0, [⟨31, 0, .ro, 0⟩]⟩,
  ⟨0x40, 1, 0, [⟨31, 16, .rw, 0⟩, ⟨15, 0, .live, 0⟩]⟩]

/-- The HUB register table. -/
def regsHub : List RegRow := [
  ⟨0x0, 1, 0, [⟨31, 26, .live, 0⟩, ⟨25, 20, .ro, 0⟩, ⟨19, 16, .ro, 0⟩, ⟨15, 8, .ro, 9⟩, ⟨7, 0, .ro, 0⟩]⟩,
  ⟨0x10, 4, 4, [⟨31, 0, .ro, 0⟩]⟩,
  ⟨0x20, 1, 0, [⟨31, 0, .ro, 0⟩]⟩,
  ⟨0x24, 1, 0, [⟨31, 0, .ro, 0⟩]⟩,
  ⟨0x30, 1, 0, [⟨31, 2, .live, 0⟩, ⟨1, 1, .ro, 1⟩, ⟨0, 0, .rw, 1⟩]⟩,
  ⟨0x40, 1, 0, [⟨31, 0, .rw, 0⟩]⟩,
  ⟨0x44, 1, 0, [⟨31, 0, .rw, 0⟩]⟩,
  ⟨0x48, 1, 0, [⟨31, 0, .rw, 0⟩]⟩,
  ⟨0x4C, 1, 0, [⟨31, 16, .live, 0⟩, ⟨15, 0, .rw, 500⟩]⟩,
  ⟨0x50, 1, 0, [⟨31, 16, .live, 0⟩, ⟨15, 0, .rw, 500⟩]⟩,
  ⟨0x54, 1, 0, [⟨31, 1, .live, 0⟩, ⟨0, 0, .wo, 0⟩]⟩,
  ⟨0x58, 1, 0, [⟨31, 9, .live, 0⟩, ⟨8, 8, .rc, 0⟩, ⟨7, 4, .ro, 0⟩, ⟨3, 0, .ro, 0⟩]⟩,
  ⟨0x60, 1, 0, [⟨31, 0, .rw, 0⟩]⟩,
  ⟨0x64, 1, 0, [⟨31, 2, .live, 0⟩, ⟨1, 0, .wo, 0⟩]⟩,
  ⟨0x68, 1, 0, [⟨31, 8, .live, 0⟩, ⟨7, 4, .ro, 0⟩, ⟨3, 0, .ro, 0⟩]⟩,
  ⟨0x300, 1, 0, [⟨31, 5, .live, 0⟩, ⟨4, 0, .rw, 8⟩]⟩,
  ⟨0x304, 1, 0, [⟨31, 0, .ro, 0⟩]⟩,
  ⟨0x308, 1, 0, [⟨31, 0, .rc, 0⟩]⟩,
  ⟨0x30C, 1, 0, [⟨31, 0, .ro, 0⟩]⟩,
  ⟨0x310, 1, 0, [⟨31, 0, .ro, 0⟩]⟩,
  ⟨0x314, 1, 0, [⟨31, 0, .ro, 0⟩]⟩,
  ⟨0x318, 1, 0, [⟨31, 3, .live, 0⟩, ⟨2, 2, .ro, 0⟩, ⟨1, 1, .ro, 0⟩, ⟨0, 0, .ro, 0⟩]⟩,
  ⟨0x320, 1, 0, [⟨31, 31, .rw, 0⟩, ⟨30, 18, .live, 0⟩, ⟨17, 0, .rw, 0⟩]⟩,
  ⟨0x324, 1, 0, [⟨31, 31, .rw, 0⟩, ⟨30, 18, .live, 0⟩, ⟨17, 0, .rw, 0⟩]⟩,
  ⟨0x328, 1, 0, [⟨31, 5, .live, 0⟩, ⟨4, 4, .rc, 0⟩, ⟨3, 3, .rc, 0⟩, ⟨2, 0, .ro, 0⟩]⟩,
  ⟨0x32C, 1, 0, [⟨31, 0, .ro, 0⟩]⟩,
  ⟨0x330, 1, 0, [⟨31, 0, .ro, 0⟩]⟩,
  ⟨0x334, 1, 0, [⟨31, 16, .live, 0⟩, ⟨15, 0, .rw, 1000⟩]⟩,
  ⟨0x338, 1, 0, [⟨31, 16, .rw, 60⟩, ⟨15, 10, .live, 0⟩, ⟨9, 0, .rw, 45⟩]⟩,
  ⟨0x33C, 1, 0, [⟨31, 1, .live, 0⟩, ⟨0, 0, .wo, 0⟩]⟩]

/-- The REGDEC register table. -/
def regsRegdec : List RegRow := [
  ⟨0x0, 1, 0, [⟨31, 2, .live, 0⟩, ⟨1, 1, .rwl, 0⟩, ⟨0, 0, .rwl, 0⟩]⟩,
  ⟨0x4, 1, 0, [⟨31, 2, .live, 0⟩, ⟨1, 1, .ro, 0⟩, ⟨0, 0, .ro, 0⟩]⟩,
  ⟨0x8, 1, 0, [⟨31, 0, .ro, 0⟩]⟩,
  ⟨0xC, 1, 0, [⟨31, 0, .ro, 0⟩]⟩,
  ⟨0x10, 1, 0, [⟨31, 0, .ro, 0⟩]⟩,
  ⟨0x14, 1, 0, [⟨31, 0, .ro, 0⟩]⟩,
  ⟨0x18, 1, 0, [⟨31, 4, .live, 0⟩, ⟨3, 0, .ro, 0⟩]⟩]

/-- The COORD register table. -/
def regsCoord : List RegRow := [
  ⟨0x0, 1, 0, [⟨31, 31, .rwl, 0⟩, ⟨30, 19, .live, 0⟩, ⟨18, 18, .rwl, 0⟩, ⟨17, 0, .rwl, 0⟩]⟩,
  ⟨0x4, 1, 0, [⟨31, 18, .live, 0⟩, ⟨17, 0, .rwl, 0⟩]⟩,
  ⟨0x8, 1, 0, [⟨31, 31, .rw, 0⟩, ⟨30, 18, .live, 0⟩, ⟨17, 0, .rw, 0⟩]⟩]

/-- The XLAT register table. -/
def regsXlat : List RegRow := [
  ⟨0x0, 1, 0, [⟨31, 18, .live, 0⟩, ⟨17, 0, .rw, 0⟩]⟩,
  ⟨0x4, 1, 0, [⟨31, 18, .live, 0⟩, ⟨17, 0, .rw, 0⟩]⟩,
  ⟨0x8, 1, 0, [⟨31, 0, .rw, 0⟩]⟩,
  ⟨0xC, 1, 0, [⟨31, 0, .ro, 0⟩]⟩,
  ⟨0x10, 1, 0, [⟨31, 0, .rw, 0⟩]⟩,
  ⟨0x14, 1, 0, [⟨31, 1, .live, 0⟩, ⟨0, 0, .wo, 0⟩]⟩,
  ⟨0x18, 1, 0, [⟨31, 3, .live, 0⟩, ⟨2, 2, .ro, 0⟩, ⟨1, 1, .rc, 0⟩, ⟨0, 0, .ro, 0⟩]⟩,
  ⟨0x1C, 1, 0, [⟨31, 16, .live, 0⟩, ⟨15, 0, .rw, 10⟩]⟩,
  ⟨0x20, 1, 0, [⟨31, 4, .rw, 0⟩, ⟨3, 0, .live, 0⟩]⟩,
  ⟨0x24, 1, 0, [⟨31, 16, .live, 0⟩, ⟨15, 0, .rw, 0⟩]⟩,
  ⟨0x28, 1, 0, [⟨31, 16, .live, 0⟩, ⟨15, 0, .rw, 0⟩]⟩]

/-- The EVT register table. -/
def regsEvt : List RegRow := [
  ⟨0x0, 1, 0, [⟨31, 0, .ro, 0⟩]⟩,
  ⟨0x4, 1, 0, [⟨31, 0, .ro, 0⟩]⟩,
  ⟨0x8, 1, 0, [⟨31, 29, .live, 0⟩, ⟨28, 16, .ro, 0⟩, ⟨15, 13, .live, 0⟩, ⟨12, 0, .ro, 0⟩]⟩,
  ⟨0xC, 1, 0, [⟨31, 0, .ro, 0⟩]⟩,
  ⟨0x10, 1, 0, [⟨31, 0, .ro, 0⟩]⟩,
  ⟨0x14, 1, 0, [⟨31, 2, .live, 0⟩, ⟨1, 0, .ro, 0⟩]⟩,
  ⟨0x18, 1, 0, [⟨31, 16, .live, 0⟩, ⟨15, 0, .ro, 0⟩]⟩,
  ⟨0x20, 1, 0, [⟨31, 0, .ro, 0⟩]⟩,
  ⟨0x24, 1, 0, [⟨31, 0, .ro, 0⟩]⟩,
  ⟨0x30, 1, 0, [⟨31, 6, .rw, 0⟩, ⟨5, 0, .live, 0⟩]⟩,
  ⟨0x34, 1, 0, [⟨31, 16, .live, 0⟩, ⟨15, 0, .rw, 0⟩]⟩,
  ⟨0x38, 1, 0, [⟨31, 0, .rw, 0⟩]⟩,
  ⟨0x3C, 1, 0, [⟨31, 4, .live, 0⟩, ⟨3, 3, .ro, 0⟩, ⟨2, 2, .rc, 0⟩, ⟨1, 1, .rc, 0⟩, ⟨0, 0, .wo, 0⟩]⟩]

/-- The HLTH register table. -/
def regsHlth : List RegRow := [
  ⟨0x0, 1, 0, [⟨31, 10, .live, 0⟩, ⟨9, 0, .ro, 1000⟩]⟩,
  ⟨0x4, 1, 0, [⟨31, 0, .ro, 0⟩]⟩,
  ⟨0x8, 1, 0, [⟨31, 2, .live, 0⟩, ⟨1, 1, .ro, 0⟩, ⟨0, 0, .ro, 0⟩]⟩,
  ⟨0xC, 1, 0, [⟨31, 16, .live, 0⟩, ⟨15, 0, .rw, 1000⟩]⟩,
  ⟨0x10, 1, 0, [⟨31, 1, .live, 0⟩, ⟨0, 0, .wo, 0⟩]⟩,
  ⟨0x14, 1, 0, [⟨31, 1, .live, 0⟩, ⟨0, 0, .rc, 0⟩]⟩,
  ⟨0x18, 1, 0, [⟨31, 22, .live, 0⟩, ⟨21, 0, .ro, 0⟩]⟩,
  ⟨0x100, 22, 4, [⟨31, 10, .live, 0⟩, ⟨9, 0, .rw, 0⟩]⟩,
  ⟨0x200, 22, 8, [⟨31, 0, .ro, 0⟩]⟩,
  ⟨0x204, 22, 8, [⟨31, 0, .ro, 0⟩]⟩]

/-- The PWR register table. -/
def regsPwr : List RegRow := [
  ⟨0x0, 1, 0, [⟨31, 3, .live, 0⟩, ⟨2, 0, .rw, 2⟩]⟩,
  ⟨0x4, 1, 0, [⟨31, 12, .live, 0⟩, ⟨11, 11, .ro, 0⟩, ⟨10, 10, .ro, 0⟩, ⟨9, 9, .rc, 0⟩, ⟨8, 6, .ro, 0⟩, ⟨5, 3, .ro, 2⟩, ⟨2, 0, .ro, 2⟩]⟩,
  ⟨0x8, 1, 0, [⟨31, 17, .live, 0⟩, ⟨16, 16, .rw, 1⟩, ⟨15, 0, .rw, 10⟩]⟩,
  ⟨0xC, 1, 0, [⟨31, 13, .live, 0⟩, ⟨12, 0, .rw, 6900⟩]⟩,
  ⟨0x10, 1, 0, [⟨31, 0, .rw, 0⟩]⟩,
  ⟨0x14, 1, 0, [⟨31, 6, .live, 0⟩, ⟨5, 2, .wo, 0⟩, ⟨1, 1, .wo, 0⟩, ⟨0, 0, .wo, 0⟩]⟩,
  ⟨0x18, 1, 0, [⟨31, 16, .live, 0⟩, ⟨15, 0, .rw, 0⟩]⟩,
  ⟨0x1C, 1, 0, [⟨31, 8, .live, 0⟩, ⟨7, 4, .ro, 0⟩, ⟨3, 0, .ro, 0⟩]⟩,
  ⟨0x20, 1, 0, [⟨31, 16, .ro, 0⟩, ⟨15, 0, .ro, 0⟩]⟩,
  ⟨0x24, 1, 0, [⟨31, 24, .ro, 0⟩, ⟨23, 16, .ro, 0⟩, ⟨15, 8, .ro, 0⟩, ⟨7, 0, .live, 0⟩]⟩,
  ⟨0x28, 1, 0, [⟨31, 0, .ro, 0⟩]⟩,
  ⟨0x2C, 1, 0, [⟨31, 0, .ro, 0⟩]⟩,
  ⟨0x30, 5, 8, [⟨31, 0, .ro, 0⟩]⟩,
  ⟨0x34, 5, 8, [⟨31, 0, .ro, 0⟩]⟩,
  ⟨0x60, 1, 0, [⟨31, 0, .ro, 0⟩]⟩,
  ⟨0x64, 1, 0, [⟨31, 0, .ro, 0⟩]⟩,
  ⟨0x68, 1, 0, [⟨31, 2, .live, 0⟩, ⟨1, 1, .ro, 0⟩, ⟨0, 0, .ro, 0⟩]⟩]

/-- The SCL register table. -/
def regsScl : List RegRow := [
  ⟨0x0, 1, 0, [⟨31, 6, .rw, 0⟩, ⟨5, 0, .live, 0⟩]⟩,
  ⟨0x4, 1, 0, [⟨31, 16, .live, 0⟩, ⟨15, 0, .rw, 0⟩]⟩,
  ⟨0x8, 1, 0, [⟨31, 14, .live, 0⟩, ⟨13, 0, .rw, 0⟩]⟩,
  ⟨0xC, 1, 0, [⟨31, 2, .live, 0⟩, ⟨1, 1, .wo, 0⟩, ⟨0, 0, .wo, 0⟩]⟩,
  ⟨0x10, 1, 0, [⟨31, 6, .live, 0⟩, ⟨5, 0, .rw, 16⟩]⟩,
  ⟨0x14, 1, 0, [⟨31, 16, .rw, 2000⟩, ⟨15, 14, .live, 0⟩, ⟨13, 8, .rw, 32⟩, ⟨7, 6, .live, 0⟩, ⟨5, 0, .rw, 0⟩]⟩,
  ⟨0x18, 1, 0, [⟨31, 6, .live, 0⟩, ⟨5, 0, .ro, 16⟩]⟩,
  ⟨0x1C, 1, 0, [⟨31, 11, .rw, 0⟩, ⟨10, 0, .live, 0⟩]⟩,
  ⟨0x20, 1, 0, [⟨31, 16, .live, 0⟩, ⟨15, 0, .rw, 0⟩]⟩,
  ⟨0x24, 1, 0, [⟨31, 0, .rw, 0⟩]⟩,
  ⟨0x28, 1, 0, [⟨31, 0, .rw, 0⟩]⟩,
  ⟨0x2C, 1, 0, [⟨31, 16, .live, 0⟩, ⟨15, 0, .rw, 64⟩]⟩,
  ⟨0x30, 1, 0, [⟨31, 16, .live, 0⟩, ⟨15, 0, .rw, 256⟩]⟩,
  ⟨0x34, 1, 0, [⟨31, 12, .live, 0⟩, ⟨11, 0, .rw, 0⟩]⟩,
  ⟨0x38, 1, 0, [⟨31, 0, .ro, 0⟩]⟩,
  ⟨0x3C, 1, 0, [⟨31, 0, .ro, 0⟩]⟩,
  ⟨0x40, 1, 0, [⟨31, 0, .ro, 0⟩]⟩,
  ⟨0x44, 1, 0, [⟨31, 0, .ro, 0⟩]⟩,
  ⟨0x48, 1, 0, [⟨31, 0, .ro, 0⟩]⟩,
  ⟨0x4C, 1, 0, [⟨31, 4, .live, 0⟩, ⟨3, 3, .ro, 0⟩, ⟨2, 2, .ro, 0⟩, ⟨1, 1, .ro, 0⟩, ⟨0, 0, .ro, 0⟩]⟩,
  ⟨0x50, 1, 0, [⟨31, 3, .live, 0⟩, ⟨2, 2, .rc, 0⟩, ⟨1, 1, .rc, 0⟩, ⟨0, 0, .rc, 0⟩]⟩]

/-- The UPD register table. -/
def regsUpd : List RegRow := [
  ⟨0x0, 5, 32, [⟨31, 6, .rw, 0⟩, ⟨5, 0, .live, 0⟩]⟩,
  ⟨0x4, 5, 32, [⟨31, 16, .live, 0⟩, ⟨15, 0, .rw, 0⟩]⟩,
  ⟨0x8, 5, 32, [⟨31, 18, .live, 0⟩, ⟨17, 0, .rw, 0⟩]⟩,
  ⟨0xC, 5, 32, [⟨31, 3, .rw, 0⟩, ⟨2, 0, .live, 0⟩]⟩,
  ⟨0x10, 5, 32, [⟨31, 16, .live, 0⟩, ⟨15, 0, .rw, 0⟩]⟩,
  ⟨0x14, 5, 32, [⟨31, 18, .live, 0⟩, ⟨17, 0, .rw, 0⟩]⟩,
  ⟨0x18, 5, 32, [⟨31, 18, .live, 0⟩, ⟨17, 0, .rw, 0⟩]⟩,
  ⟨0x1C, 5, 32, [⟨31, 18, .live, 0⟩, ⟨17, 0, .rw, 16⟩]⟩,
  ⟨0xA0, 1, 0, [⟨31, 5, .live, 0⟩, ⟨4, 0, .wo, 0⟩]⟩,
  ⟨0xA4, 1, 0, [⟨31, 4, .live, 0⟩, ⟨3, 3, .rc, 0⟩, ⟨2, 2, .rc, 0⟩, ⟨1, 1, .rc, 0⟩, ⟨0, 0, .ro, 0⟩]⟩,
  ⟨0xB0, 1, 0, [⟨31, 0, .ro, 0⟩]⟩,
  ⟨0xB4, 1, 0, [⟨31, 0, .ro, 0⟩]⟩,
  ⟨0xB8, 1, 0, [⟨31, 0, .ro, 0⟩]⟩,
  ⟨0xBC, 1, 0, [⟨31, 3, .live, 0⟩, ⟨2, 2, .ro, 0⟩, ⟨1, 1, .ro, 0⟩, ⟨0, 0, .ro, 0⟩]⟩,
  ⟨0xC0, 1, 0, [⟨31, 0, .ro, 0⟩]⟩,
  ⟨0xC4, 1, 0, [⟨31, 0, .ro, 0⟩]⟩]

/-- The MIG register table. -/
def regsMig : List RegRow := [
  ⟨0x0, 1, 0, [⟨31, 6, .rw, 0⟩, ⟨5, 0, .live, 0⟩]⟩,
  ⟨0x4, 1, 0, [⟨31, 16, .live, 0⟩, ⟨15, 0, .rw, 0⟩]⟩,
  ⟨0x8, 1, 0, [⟨31, 5, .live, 0⟩, ⟨4, 0, .rw, 4⟩]⟩,
  ⟨0xC, 1, 0, [⟨31, 14, .live, 0⟩, ⟨13, 12, .rw, 0⟩, ⟨11, 0, .rw, 0⟩]⟩,
  ⟨0x10, 1, 0, [⟨31, 1, .live, 0⟩, ⟨0, 0, .wo, 0⟩]⟩,
  ⟨0x14, 1, 0, [⟨31, 0, .ro, 0⟩]⟩,
  ⟨0x18, 1, 0, [⟨31, 2, .live, 0⟩, ⟨1, 1, .ro, 0⟩, ⟨0, 0, .rc, 0⟩]⟩,
  ⟨0x20, 1, 0, [⟨31, 0, .ro, 0⟩]⟩,
  ⟨0x24, 1, 0, [⟨31, 0, .ro, 0⟩]⟩]

/-- The CHK register table. -/
def regsChk : List RegRow := [
  ⟨0x0, 1, 0, [⟨31, 0, .ro, 0⟩]⟩,
  ⟨0x4, 1, 0, [⟨31, 0, .ro, 0⟩]⟩,
  ⟨0x8, 1, 0, [⟨31, 0, .ro, 0⟩]⟩,
  ⟨0xC, 1, 0, [⟨31, 0, .ro, 0⟩]⟩,
  ⟨0x10, 1, 0, [⟨31, 0, .ro, 0⟩]⟩,
  ⟨0x14, 1, 0, [⟨31, 0, .ro, 0⟩]⟩,
  ⟨0x18, 1, 0, [⟨31, 0, .ro, 0⟩]⟩,
  ⟨0x1C, 1, 0, [⟨31, 7, .live, 0⟩, ⟨6, 0, .ro, 0⟩]⟩,
  ⟨0x20, 1, 0, [⟨31, 3, .live, 0⟩, ⟨2, 2, .rc, 0⟩, ⟨1, 1, .rc, 0⟩, ⟨0, 0, .rc, 0⟩]⟩,
  ⟨0x28, 1, 0, [⟨31, 0, .ro, 0⟩]⟩,
  ⟨0x2C, 1, 0, [⟨31, 0, .ro, 0⟩]⟩,
  ⟨0x100, 1, 0, [⟨31, 1, .live, 0⟩, ⟨0, 0, .wo, 0⟩]⟩,
  ⟨0x104, 1, 0, [⟨31, 23, .live, 0⟩, ⟨22, 16, .rw, 127⟩, ⟨15, 12, .live, 0⟩, ⟨11, 4, .rw, 5⟩, ⟨3, 1, .live, 0⟩, ⟨0, 0, .rw, 1⟩]⟩,
  ⟨0x108, 1, 0, [⟨31, 0, .rw, 0⟩]⟩,
  ⟨0x10C, 1, 0, [⟨31, 0, .rw, 0⟩]⟩,
  ⟨0x110, 1, 0, [⟨31, 0, .ro, 0⟩]⟩,
  ⟨0x114, 1, 0, [⟨31, 0, .ro, 0⟩]⟩,
  ⟨0x118, 1, 0, [⟨31, 0, .ro, 0⟩]⟩,
  ⟨0x11C, 1, 0, [⟨31, 0, .ro, 0⟩]⟩,
  ⟨0x120, 1, 0, [⟨31, 0, .ro, 0⟩]⟩,
  ⟨0x124, 1, 0, [⟨31, 2, .live, 0⟩, ⟨1, 1, .ro, 0⟩, ⟨0, 0, .rw, 0⟩]⟩,
  ⟨0x128, 1, 0, [⟨31, 0, .ro, 0⟩]⟩,
  ⟨0x12C, 1, 0, [⟨31, 0, .ro, 0⟩]⟩,
  ⟨0x130, 1, 0, [⟨31, 16, .live, 0⟩, ⟨15, 0, .rw, 100⟩]⟩,
  ⟨0x134, 1, 0, [⟨31, 31, .rw, 0⟩, ⟨30, 16, .live, 0⟩, ⟨15, 0, .rw, 0⟩]⟩,
  ⟨0x138, 1, 0, [⟨31, 3, .live, 0⟩, ⟨2, 2, .wo, 0⟩, ⟨1, 1, .rc, 0⟩, ⟨0, 0, .ro, 0⟩]⟩,
  ⟨0x13C, 1, 0, [⟨31, 0, .ro, 0⟩]⟩,
  ⟨0x140, 16, 4, [⟨31, 0, .ro, 0⟩]⟩,
  ⟨0x180, 1, 0, [⟨31, 28, .live, 0⟩, ⟨27, 24, .rw, 0⟩, ⟨23, 23, .live, 0⟩, ⟨22, 16, .rw, 0⟩, ⟨15, 14, .live, 0⟩, ⟨13, 12, .rw, 0⟩, ⟨11, 10, .live, 0⟩, ⟨9, 8, .rw, 0⟩, ⟨7, 0, .live, 0⟩]⟩,
  ⟨0x184, 1, 0, [⟨31, 0, .ro, 0⟩]⟩,
  ⟨0x188, 1, 0, [⟨31, 0, .ro, 0⟩]⟩,
  ⟨0x18C, 1, 0, [⟨31, 0, .ro, 0⟩]⟩,
  ⟨0x190, 1, 0, [⟨31, 3, .live, 0⟩, ⟨2, 2, .ro, 0⟩, ⟨1, 1, .ro, 0⟩, ⟨0, 0, .ro, 0⟩]⟩,
  ⟨0x194, 1, 0, [⟨31, 5, .live, 0⟩, ⟨4, 4, .ro, 0⟩, ⟨3, 3, .ro, 0⟩, ⟨2, 2, .ro, 0⟩, ⟨1, 1, .ro, 0⟩, ⟨0, 0, .ro, 0⟩]⟩]

/-- The CKPT register table. -/
def regsCkpt : List RegRow := [
  ⟨0x0, 1, 0, [⟨31, 16, .rw, 0⟩, ⟨15, 3, .live, 0⟩, ⟨2, 2, .rw, 0⟩, ⟨1, 1, .rw, 0⟩, ⟨0, 0, .rw, 0⟩]⟩,
  ⟨0x4, 1, 0, [⟨31, 0, .wo, 0⟩]⟩,
  ⟨0x8, 1, 0, [⟨31, 0, .rw, 0⟩]⟩,
  ⟨0xC, 1, 0, [⟨31, 0, .rw, 0⟩]⟩,
  ⟨0x10, 1, 0, [⟨31, 5, .rw, 0⟩, ⟨4, 0, .live, 0⟩]⟩,
  ⟨0x14, 1, 0, [⟨31, 16, .live, 0⟩, ⟨15, 0, .rw, 0⟩]⟩,
  ⟨0x18, 1, 0, [⟨31, 4, .live, 0⟩, ⟨3, 0, .rw, 1⟩]⟩,
  ⟨0x1C, 1, 0, [⟨31, 8, .live, 0⟩, ⟨7, 0, .rw, 200⟩]⟩,
  ⟨0x20, 1, 0, [⟨31, 24, .rw, 1⟩, ⟨23, 16, .rw, 2⟩, ⟨15, 8, .rw, 1⟩, ⟨7, 0, .rw, 1⟩]⟩,
  ⟨0x24, 1, 0, [⟨31, 16, .rw, 10⟩, ⟨15, 0, .rw, 10⟩]⟩,
  ⟨0x28, 1, 0, [⟨31, 1, .live, 0⟩, ⟨0, 0, .wo, 0⟩]⟩,
  ⟨0x2C, 1, 0, [⟨31, 9, .live, 0⟩, ⟨8, 8, .ro, 0⟩, ⟨7, 7, .rc, 0⟩, ⟨6, 6, .rc, 0⟩, ⟨5, 5, .rc, 0⟩, ⟨4, 4, .rc, 0⟩, ⟨3, 2, .live, 0⟩, ⟨1, 0, .ro, 0⟩]⟩,
  ⟨0x30, 1, 0, [⟨31, 0, .ro, 0⟩]⟩,
  ⟨0x34, 1, 0, [⟨31, 19, .live, 0⟩, ⟨18, 0, .ro, 0⟩]⟩,
  ⟨0x38, 1, 0, [⟨31, 0, .ro, 0⟩]⟩,
  ⟨0x3C, 1, 0, [⟨31, 0, .ro, 0⟩]⟩,
  ⟨0x40, 1, 0, [⟨31, 0, .ro, 0⟩]⟩,
  ⟨0x44, 1, 0, [⟨31, 0, .ro, 0⟩]⟩,
  ⟨0x48, 1, 0, [⟨31, 0, .ro, 0⟩]⟩,
  ⟨0x4C, 1, 0, [⟨31, 3, .live, 0⟩, ⟨2, 2, .ro, 0⟩, ⟨1, 1, .ro, 0⟩, ⟨0, 0, .ro, 0⟩]⟩,
  ⟨0x60, 1, 0, [⟨31, 0, .rw, 0⟩]⟩,
  ⟨0x64, 1, 0, [⟨31, 3, .live, 0⟩, ⟨2, 2, .wo, 0⟩, ⟨1, 1, .rw, 0⟩, ⟨0, 0, .wo, 0⟩]⟩,
  ⟨0x68, 1, 0, [⟨31, 6, .live, 0⟩, ⟨5, 4, .ro, 0⟩, ⟨3, 3, .rc, 0⟩, ⟨2, 2, .ro, 0⟩, ⟨1, 1, .ro, 0⟩, ⟨0, 0, .ro, 0⟩]⟩,
  ⟨0x6C, 1, 0, [⟨31, 0, .ro, 0⟩]⟩,
  ⟨0x70, 1, 0, [⟨31, 0, .ro, 0⟩]⟩,
  ⟨0x74, 1, 0, [⟨31, 6, .rw, 0⟩, ⟨5, 0, .live, 0⟩]⟩,
  ⟨0x78, 1, 0, [⟨31, 16, .live, 0⟩, ⟨15, 0, .rw, 0⟩]⟩,
  ⟨0x7C, 1, 0, [⟨31, 8, .live, 0⟩, ⟨7, 0, .rw, 0⟩]⟩]

/-- The CWT register table. -/
def regsCwt : List RegRow := [
  ⟨0x0, 1, 0, [⟨31, 16, .rw, 48930⟩, ⟨15, 10, .live, 0⟩, ⟨9, 8, .rw, 1⟩, ⟨7, 0, .rw, 64⟩]⟩,
  ⟨0x4, 1, 0, [⟨31, 16, .rw, 256⟩, ⟨15, 0, .rw, 4096⟩]⟩,
  ⟨0x8, 1, 0, [⟨31, 16, .rw, 200⟩, ⟨15, 0, .rw, 2000⟩]⟩,
  ⟨0xC, 1, 0, [⟨31, 1, .live, 0⟩, ⟨0, 0, .wo, 0⟩]⟩,
  ⟨0x10, 1, 0, [⟨31, 3, .live, 0⟩, ⟨2, 2, .rc, 0⟩, ⟨1, 0, .ro, 0⟩]⟩,
  ⟨0x14, 1, 0, [⟨31, 0, .ro, 0⟩]⟩,
  ⟨0x18, 1, 0, [⟨31, 0, .ro, 0⟩]⟩,
  ⟨0x20, 1, 0, [⟨31, 0, .ro, 0⟩]⟩,
  ⟨0x24, 1, 0, [⟨31, 0, .ro, 0⟩]⟩,
  ⟨0x28, 1, 0, [⟨31, 0, .ro, 0⟩]⟩,
  ⟨0x2C, 1, 0, [⟨31, 0, .ro, 0⟩]⟩,
  ⟨0x30, 1, 0, [⟨31, 4, .live, 0⟩, ⟨3, 3, .ro, 0⟩, ⟨2, 2, .ro, 0⟩, ⟨1, 1, .ro, 0⟩, ⟨0, 0, .ro, 0⟩]⟩]

/-- The SEC register table. -/
def regsSec : List RegRow := [
  ⟨0x0, 1, 0, [⟨31, 16, .live, 0⟩, ⟨15, 15, .rwl, 0⟩, ⟨14, 0, .rwl, 4384⟩]⟩,
  ⟨0x4, 1, 0, [⟨31, 9, .live, 0⟩, ⟨8, 7, .ro, 0⟩, ⟨6, 6, .ro, 0⟩, ⟨5, 5, .ro, 0⟩, ⟨4, 0, .rc, 0⟩]⟩,
  ⟨0x8, 1, 0, [⟨31, 9, .live, 0⟩, ⟨8, 8, .rwl, 0⟩, ⟨7, 4, .rwl, 3⟩, ⟨3, 1, .live, 0⟩, ⟨0, 0, .ro, 0⟩]⟩,
  ⟨0xC, 1, 0, [⟨31, 0, .ro, 0⟩]⟩,
  ⟨0x10, 1, 0, [⟨31, 1, .live, 0⟩, ⟨0, 0, .rwl, 0⟩]⟩,
  ⟨0x14, 1, 0, [⟨31, 0, .ro, 0⟩]⟩,
  ⟨0x18, 1, 0, [⟨31, 0, .ro, 0⟩]⟩,
  ⟨0x20, 2, 8192, [⟨31, 21, .live, 0⟩, ⟨20, 8, .wo, 0⟩, ⟨7, 0, .wo, 0⟩]⟩,
  ⟨0x24, 2, 8192, [⟨31, 16, .ro, 0⟩, ⟨15, 8, .ro, 0⟩, ⟨7, 1, .live, 0⟩, ⟨0, 0, .ro, 0⟩]⟩,
  ⟨0x1000, 1024, 4, [⟨31, 0, .rw, 0⟩]⟩,
  ⟨0x3000, 1024, 4, [⟨31, 0, .rw, 0⟩]⟩]

/-- The ETH register table. -/
def regsEth : List RegRow := [
  ⟨0x0, 1, 0, [⟨31, 18, .live, 0⟩, ⟨17, 16, .rw, 0⟩, ⟨15, 1, .rw, 9000⟩, ⟨0, 0, .rw, 1⟩]⟩,
  ⟨0x4, 1, 0, [⟨31, 8, .live, 0⟩, ⟨7, 5, .rw, 6⟩, ⟨4, 2, .rw, 3⟩, ⟨1, 0, .rw, 1⟩]⟩,
  ⟨0x8, 1, 0, [⟨31, 16, .rw, 48⟩, ⟨15, 0, .rw, 32⟩]⟩,
  ⟨0xC, 1, 0, [⟨31, 3, .live, 0⟩, ⟨2, 2, .ro, 0⟩, ⟨1, 1, .rc, 0⟩, ⟨0, 0, .ro, 0⟩]⟩,
  ⟨0x10, 1, 0, [⟨31, 0, .ro, 0⟩]⟩,
  ⟨0x14, 1, 0, [⟨31, 1, .live, 0⟩, ⟨0, 0, .ro, 0⟩]⟩]

/-- The LNK register table. -/
def regsLnk : List RegRow := [
  ⟨0x0, 1, 0, [⟨31, 3, .live, 0⟩, ⟨2, 2, .wo, 0⟩, ⟨1, 1, .rw, 1⟩, ⟨0, 0, .rw, 1⟩]⟩,
  ⟨0x4, 1, 0, [⟨31, 24, .live, 0⟩, ⟨23, 16, .ro, 0⟩, ⟨15, 13, .live, 0⟩, ⟨12, 10, .ro, 0⟩, ⟨9, 9, .rc, 0⟩, ⟨8, 8, .rc, 0⟩, ⟨7, 7, .rc, 0⟩, ⟨6, 6, .ro, 0⟩, ⟨5, 3, .live, 0⟩, ⟨2, 0, .ro, 0⟩]⟩,
  ⟨0x8, 1, 0, [⟨31, 21, .live, 0⟩, ⟨20, 18, .ro, 0⟩, ⟨17, 0, .ro, 0⟩]⟩,
  ⟨0xC, 1, 0, [⟨31, 0, .ro, 0⟩]⟩,
  ⟨0x10, 1, 0, [⟨31, 0, .ro, 0⟩]⟩,
  ⟨0x14, 1, 0, [⟨31, 18, .live, 0⟩, ⟨17, 0, .rw, 0⟩]⟩,
  ⟨0x18, 1, 0, [⟨31, 0, .rw, 0⟩]⟩,
  ⟨0x1C, 1, 0, [⟨31, 0, .rw, 0⟩]⟩,
  ⟨0x20, 1, 0, [⟨31, 16, .live, 0⟩, ⟨15, 15, .rw, 0⟩, ⟨14, 12, .rw, 0⟩, ⟨11, 10, .rw, 0⟩, ⟨9, 9, .live, 0⟩, ⟨8, 0, .rw, 0⟩]⟩,
  ⟨0x24, 1, 0, [⟨31, 16, .live, 0⟩, ⟨15, 15, .rw, 0⟩, ⟨14, 12, .rw, 0⟩, ⟨11, 10, .rw, 0⟩, ⟨9, 9, .live, 0⟩, ⟨8, 0, .rw, 0⟩]⟩,
  ⟨0x28, 1, 0, [⟨31, 1, .live, 0⟩, ⟨0, 0, .wo, 0⟩]⟩,
  ⟨0x2C, 1, 0, [⟨31, 20, .live, 0⟩, ⟨19, 0, .rw, 16384⟩]⟩,
  ⟨0x30, 1, 0, [⟨31, 0, .ro, 0⟩]⟩,
  ⟨0x34, 1, 0, [⟨31, 0, .ro, 0⟩]⟩,
  ⟨0x38, 1, 0, [⟨31, 8, .live, 0⟩, ⟨7, 0, .ro, 0⟩]⟩,
  ⟨0x40, 1, 0, [⟨31, 0, .ro, 0⟩]⟩,
  ⟨0x44, 1, 0, [⟨31, 0, .ro, 0⟩]⟩,
  ⟨0x48, 1, 0, [⟨31, 0, .ro, 0⟩]⟩,
  ⟨0x4C, 1, 0, [⟨31, 0, .ro, 0⟩]⟩,
  ⟨0x50, 1, 0, [⟨31, 0, .ro, 0⟩]⟩,
  ⟨0x54, 1, 0, [⟨31, 0, .ro, 0⟩]⟩,
  ⟨0x58, 1, 0, [⟨31, 0, .ro, 0⟩]⟩,
  ⟨0x5C, 1, 0, [⟨31, 0, .ro, 0⟩]⟩,
  ⟨0x60, 1, 0, [⟨31, 6, .live, 0⟩, ⟨5, 5, .ro, 0⟩, ⟨4, 4, .ro, 0⟩, ⟨3, 3, .ro, 0⟩, ⟨2, 2, .ro, 0⟩, ⟨1, 1, .ro, 0⟩, ⟨0, 0, .ro, 0⟩]⟩,
  ⟨0x70, 1, 0, [⟨31, 0, .ro, 0⟩]⟩,
  ⟨0x74, 1, 0, [⟨31, 0, .ro, 0⟩]⟩,
  ⟨0x78, 1, 0, [⟨31, 0, .ro, 0⟩]⟩,
  ⟨0x7C, 1, 0, [⟨31, 0, .ro, 0⟩]⟩]

/-- The LPC register table. -/
def regsLpc : List RegRow := [
  ⟨0x0, 1, 0, [⟨31, 2, .live, 0⟩, ⟨1, 0, .rw, 0⟩]⟩,
  ⟨0x4, 1, 0, [⟨31, 12, .live, 0⟩, ⟨11, 8, .ro, 0⟩, ⟨7, 7, .ro, 0⟩, ⟨6, 6, .ro, 0⟩, ⟨5, 3, .live, 0⟩, ⟨2, 2, .ro, 0⟩, ⟨1, 1, .rc, 0⟩, ⟨0, 0, .live, 0⟩]⟩,
  ⟨0x10, 1, 0, [⟨31, 0, .ro, 0⟩]⟩,
  ⟨0x14, 1, 0, [⟨31, 0, .ro, 0⟩]⟩,
  ⟨0x1C, 1, 0, [⟨31, 2, .live, 0⟩, ⟨1, 1, .ro, 0⟩, ⟨0, 0, .ro, 0⟩]⟩,
  ⟨0x20, 1, 0, [⟨31, 16, .live, 0⟩, ⟨15, 0, .rw, 256⟩]⟩,
  ⟨0x30, 1, 0, [⟨31, 0, .ro, 0⟩]⟩,
  ⟨0x34, 1, 0, [⟨31, 0, .ro, 0⟩]⟩,
  ⟨0x38, 1, 0, [⟨31, 0, .ro, 0⟩]⟩,
  ⟨0x3C, 1, 0, [⟨31, 0, .ro, 0⟩]⟩]

/-- The TG register table. -/
def regsTg : List RegRow := [
  ⟨0x0, 1, 0, [⟨31, 24, .live, 0⟩, ⟨23, 16, .rw, 255⟩, ⟨15, 9, .live, 0⟩, ⟨8, 8, .rw, 0⟩, ⟨7, 4, .rw, 0⟩, ⟨3, 1, .rw, 0⟩, ⟨0, 0, .wo, 0⟩]⟩,
  ⟨0x4, 1, 0, [⟨31, 2, .live, 0⟩, ⟨1, 1, .ro, 0⟩, ⟨0, 0, .rc, 0⟩]⟩,
  ⟨0x8, 1, 0, [⟨31, 0, .rw, 0⟩]⟩,
  ⟨0xC, 1, 0, [⟨31, 0, .rw, 0⟩]⟩,
  ⟨0x10, 1, 0, [⟨31, 0, .rw, 1⟩]⟩,
  ⟨0x14, 1, 0, [⟨31, 0, .rw, 1⟩]⟩,
  ⟨0x18, 1, 0, [⟨31, 0, .ro, 0⟩]⟩,
  ⟨0x1C, 1, 0, [⟨31, 0, .ro, 0⟩]⟩,
  ⟨0x20, 1, 0, [⟨31, 0, .ro, 0⟩]⟩,
  ⟨0x24, 1, 0, [⟨31, 3, .live, 0⟩, ⟨2, 0, .ro, 0⟩]⟩,
  ⟨0x40, 8, 4, [⟨31, 0, .rw, 0⟩]⟩]

/-- The register table of a block. -/
def Blk.rows : Blk → List RegRow
  | .sync _ => regsSync
  | .bcn _ => regsBcn
  | .clk _ => regsClk
  | .route _ => regsRoute
  | .hc _ => regsHc
  | .rgn _ _ => regsRgn
  | .clu _ => regsClu
  | .unit _ _ _ => regsUnit
  | .hub => regsHub
  | .regdec => regsRegdec
  | .coord => regsCoord
  | .xlat => regsXlat
  | .evt => regsEvt
  | .hlth => regsHlth
  | .pwr => regsPwr
  | .scl => regsScl
  | .upd => regsUpd
  | .mig => regsMig
  | .chk => regsChk
  | .ckpt => regsCkpt
  | .cwt => regsCwt
  | .sec => regsSec
  | .eth _ => regsEth
  | .lnk _ => regsLnk
  | .lpc _ => regsLpc

/-- The first row that holds a register at an offset. -/
def findRow : List RegRow → Nat → Option RegRow
  | [], _ => none
  | r :: rs, o =>
    if o = r.off ∨ (r.off ≤ o ∧ 0 < r.stride ∧ (o - r.off) % r.stride = 0 ∧ (o - r.off) / r.stride < r.count) then some r
    else findRow rs o

/-- Channels of a memory controller with a traffic generator (R284). -/
def Blk.tgChannels : Blk → Nat
  | .hc _ => 16
  | .lpc _ => 4
  | _ => 0

/-- The row of the register at an offset below the span; none is a hole (R485). -/
def Blk.row (b : Blk) (o : Nat) : Option RegRow :=
  if 0x800 ≤ o ∧ 0 < b.tgChannels then
    if (o - 0x800) / 0x80 < b.tgChannels then findRow regsTg (o % 0x80) else none
  else findRow b.rows o

/-- Default weights of Table 13.4, in the order of R504. -/
def hlthWeights : List Nat :=
  [20, 100, 20, 100, 50, 500, 10, 100, 50, 100, 50, 20, 50, 50, 2, 20, 40, 30, 5, 0, 0, 0]

/-- A word made of the reset values of a register's fields. -/
def RegRow.rstWord (r : RegRow) : Word :=
  BitVec.ofNat 32 (r.fields.foldl (fun v f => v + f.rst * 2 ^ f.lo) 0)

/-- The reset value of the register at an offset of a block (R460). RGN_UNITMAP L resets to L, HLTH_WEIGHT to
Table 13.4, HC_TLIM to 95 (DESIGN CHOICE, log 12). -/
def Blk.rst (b : Blk) (o : Nat) : Word :=
  match b with
  | .rgn _ _ => if 0x100 ≤ o ∧ o < 0x200 then BitVec.ofNat 32 ((o - 0x100) / 4) else (((b.row o).map RegRow.rstWord).getD 0)
  | .hlth => if 0x100 ≤ o ∧ o < 0x158 then BitVec.ofNat 32 (hlthWeights.getD ((o - 0x100) / 4) 0) else (((b.row o).map RegRow.rstWord).getD 0)
  | _ => ((b.row o).map RegRow.rstWord).getD 0

/-- The reset value of the register at an offset from 0xF000_0000_0000. -/
def regRst (k : Nat) : Word :=
  match locate k with
  | some (b, o) => b.rst o
  | none => 0

/-- The counters of a block that stick (R493): their offsets in the order of their SAT bits, and the SAT register. -/
def Blk.satMap : Blk → List Nat × Nat
  | .unit _ _ _ => ([0x10, 0x14, 0x18], 0x1C)
  | .route _ => ([0x10, 0x14, 0x18, 0x1C], 0x20)
  | .scl => ([0x3C, 0x40, 0x44, 0x48], 0x4C)
  | .hc _ => ([0x10, 0x14, 0x18], 0x1C)
  | .lpc _ => ([0x10, 0x14], 0x1C)
  | .rgn _ _ => ([0x220, 0x224], 0x228)
  | .upd => ([0xB0, 0xB4, 0xB8], 0xBC)
  | .lnk _ => ([0x48, 0x4C, 0x50, 0x54, 0x58, 0x5C], 0x60)
  | .chk => ([0x0, 0x4, 0x8, 0xC, 0x10, 0x14, 0x18], 0x1C)
  | .hub => ([0x30C, 0x310, 0x314], 0x318)
  | .ckpt => ([0x40, 0x44, 0x48], 0x4C)
  | .eth _ => ([0x10], 0x14)
  | .cwt => ([0x20, 0x24, 0x28, 0x2C], 0x30)
  | .pwr => ([0x60, 0x64], 0x68)
  | .regdec => ([0x8, 0xC, 0x10, 0x14], 0x18)
  | .bcn _ => ([0xC], 0x14)
  | .sync _ => ([0x11000, 0x11004], 0x11008)
  | .evt => ([0xC, 0x10], 0x14)
  | .hlth => ((List.range 22).map (fun i => 0x200 + 8 * i), 0x18)
  | _ => ([], 0)

/-- The prism and dual-execute counters of the CHK block and their own SAT register, CHK_PC_SAT. -/
def chkPcMap : List Nat × Nat := ([0x118, 0x11C, 0x120, 0x128, 0x12C], 0x194)

/-- The SAT register and bit of a counter, where it has one (R493). -/
def Blk.satOf (b : Blk) (o : Nat) : Option (Nat × Nat) :=
  let m := b.satMap
  match m.1.idxOf? o with
  | some i => some (m.2, i)
  | none =>
    if b = .chk then (chkPcMap.1.idxOf? o).map (fun i => (chkPcMap.2, i)) else none

/-- LO offsets of the 64-bit counters of a block, BCN_NOW among them (R140). -/
def Blk.counters64 : Blk → List Nat
  | .unit _ _ _ => [0x20, 0x28]
  | .hc _ => [0x30, 0x38, 0x40]
  | .lpc _ => [0x30, 0x38]
  | .mig => [0x20]
  | .rgn _ _ => [0x210, 0x218]
  | .upd => [0xC0]
  | .lnk _ => [0x40, 0x70, 0x78]
  | .chk => [0x28, 0x110]
  | .ckpt => [0x38]
  | .pwr => [0x28, 0x30, 0x38, 0x40, 0x48, 0x50]
  | .clk _ => [0x18]
  | .evt => [0x20]
  | .bcn _ => [0x0]
  | _ => []

end Sys2Proof.Machine
end

