-- ==== Sys2Proof/Machine/SMap.lean ====
section
/-! DEFINITION. Sparse maps: lists of (key, value) pairs with strictly rising keys and no entry equal to
what an unlisted key reads as. Memory, registers, sync objects and the other numbered state are held so. -/
namespace Sys2Proof.Machine

/-- A sparse map from numbers to values, in one canonical form. -/
abbrev SMap (α : Type) := List (Nat × α)

/-- The value at a key; `d` is what an unlisted key reads as. -/
def smGet {α : Type} (d : Nat → α) : SMap α → Nat → α
  | [], k => d k
  | (k', v) :: r, k => if k = k' then v else if k < k' then d k else smGet d r k

/-- Remove a key (it then reads as the default). -/
def smDel {α : Type} : SMap α → Nat → SMap α
  | [], _ => []
  | (k', v') :: r, k => if k = k' then r else if k < k' then (k', v') :: r else (k', v') :: smDel r k

/-- Insert or replace a key, keeping the keys rising. -/
def smIns {α : Type} (k : Nat) (v : α) : SMap α → SMap α
  | [] => [(k, v)]
  | (k', v') :: r =>
    if k = k' then (k, v) :: r else if k < k' then (k, v) :: (k', v') :: r else (k', v') :: smIns k v r

/-- Write a key; writing the default value removes the entry. -/
def smPut {α : Type} [DecidableEq α] (d : Nat → α) (m : SMap α) (k : Nat) (v : α) : SMap α :=
  if v = d k then smDel m k else smIns k v m

/-- Read, change, write. -/
def smUpd {α : Type} [DecidableEq α] (d : Nat → α) (m : SMap α) (k : Nat) (f : α → α) : SMap α :=
  smPut d m k (f (smGet d m k))

/-- The canonical form: keys strictly rising from `lo`, no entry equal to its default. -/
def smWfFrom {α : Type} [DecidableEq α] (d : Nat → α) : Nat → SMap α → Bool
  | _, [] => true
  | lo, (k, v) :: r => decide (lo ≤ k) && !decide (v = d k) && smWfFrom d (k + 1) r

/-- The canonical form of a whole map. -/
def smWf {α : Type} [DecidableEq α] (d : Nat → α) (m : SMap α) : Bool := smWfFrom d 0 m

end Sys2Proof.Machine
end

