-- ==== Sys2Proof/Syntax.lean ====
section
/-! DEFINITION. The commands of the module: one constructor per row of the table of operations and events, and the
types of their operands. -/
namespace Sys2Proof

/-- The fields of a PTI instruction word (Table 6.9) but CLASS and OP, which the row of the command gives. -/
structure PtiWord where
  gneg : Bool
  gpred : BitVec 3
  mod : BitVec 16
  opd : BitVec 5
  opa : BitVec 5
  opb : BitVec 5
  opc : BitVec 5
  sig : BitVec 12
  sigv : Bool
  tgt : BitVec 4
  imm : BitVec 48
  deriving DecidableEq, Repr

/-- The operations a PTI word names by CLASS and OP (Tables 7.3 to 7.6, 7.8, 7.10, 7.11, 7.13 to 7.15). -/
inductive PtiOp where
  | nop | jmp | call | ret | halt | ctlStep | ctlSlipg | bwait | bread | ctrRd
  | syncAdd | syncSet | wait | waitTo | syncRd
  | li | lih | mov | add | sub | mul | andI | orI | xorI | shl | shr | sar | cmp | plog | lds | sts | dld | tagp
  | xferCopy | xferMcast | xferZero | xferPref | xferColl
  | mmaFp4 | mmaFp8 | mmaBf16 | mmaT19 | mmaF32
  | vecAdd | vecSub | vecMul | vecFma | vecMax | vecMin | vecAbs | vecNeg | vecExp | vecLog | vecRcp | vecSqrt
  | vecRsqrt | vecTanh | vecSigm | cvt | vecSum | vecRmax | vecAmax
  | gate | dispatch | combine
  | updAdam | updSgdm | updSignm
  | chkVerify | chkFold | chkCmp
  deriving DecidableEq, Repr

/-- The path a register access takes (Table 18.1). -/
inductive Path where
  /-- Control core k of a compute die. -/
  | core (die : Fin 4) (k : Fin 8)
  /-- A management core or hub firmware. -/
  | mgmt (k : Fin 4)
  /-- The management lane (REG_READ, REG_WRITE). -/
  | lane
  /-- CWT register orders (REGRD, REGWR). -/
  | cwt
  /-- The I3C target. -/
  | i3c
  deriving DecidableEq, Repr

/-- A memory error that shows in an access (R275): the environment's part of the command. -/
inductive MemErr where
  /-- A correctable error in the sector that holds the address. -/
  | ce (a : Nat)
  /-- A retried link error on the access to the address. -/
  | linkCe (a : Nat)
  /-- A sector that stays uncorrectable after its re-read. -/
  | ue (a : Nat)
  /-- A correctable error in a sector that a region's cache holds. -/
  | cacheCe (rg : Fin 16) (a : Nat)
  /-- A sector of a region's cache that stays uncorrectable after its re-read. -/
  | cacheUe (rg : Fin 16) (a : Nat)
  deriving DecidableEq, Repr


/-- A memory controller: HC0–HC31 of the fast tier, LPC0–LPC47 of the slow tier. -/
inductive MemCtrl where
  | hc (k : Fin 32)
  | lpc (k : Fin 48)
  deriving DecidableEq, Repr

/-- What the comparison of a dual execution found (R347, R348). -/
inductive DualRep where
  | agree
  /-- Two of three executions agree: island temperature (0.25 °C) and voltage (mV) at the disagreement. -/
  | cured (temp volt : Nat)
  | uncured
  deriving DecidableEq, Repr

/-- What the hardware meets while an engine instruction runs: memory errors, block checks that failed and passed on a
re-read (R155), and the comparison of a dual execution. -/
structure EngEnv where
  errs : List MemErr
  reread : Nat
  dual : DualRep
  deriving DecidableEq, Repr

/-- What a unit that computes wrongly shows a class A check (R122, R126, R128): the member of the cluster whose share it is,
the pass, the tile and the wave, the kind of check (0 the column check of row `idx`, 1 the row check of column `idx`, 2 the
two copies of a foot adder or output converter), the sum O that the unit's columns gave (an FP32 code, or 48 bits under
R85), and the island's temperature (0.25 °C) and voltage (mV). -/
structure AbftFail where
  mem : Fin 4
  pass : Nat
  tile : Nat
  wave : Nat
  kind : Nat
  idx : Nat
  obs : Nat
  temp : Nat
  volt : Nat
  deriving DecidableEq, Repr

/-- What the hardware meets while an MMA runs: memory errors, cured re-reads, and class A checks that failed, in order. -/
structure MmaEnv where
  errs : List MemErr
  reread : Nat
  fails : List AbftFail
  deriving DecidableEq, Repr

/-- What the hardware meets while an update runs: memory errors, cured re-reads, and by master block how often its two
computations disagree (R41, R301). -/
structure UpdEnv where
  errs : List MemErr
  reread : Nat
  mis : List (Nat × Nat)
  deriving DecidableEq, Repr

/-- A CWT frame (Table 15.2): its header fields and its body. MAGIC, VER, LEN and HCRC follow from the rest. -/
structure CwtFrame where
  ty : Nat
  queue : Nat
  fflags : Nat
  seq : Nat
  ack : Nat
  epoch : Nat
  step : Nat
  order : Nat
  offset : Nat
  arg : Nat
  body : List Byte
  deriving DecidableEq, Repr

/-- Who sent a CWT frame: the host at an address, or a checkpoint sink by its entry (R418, R430). -/
inductive CwtPeer where
  | host (addr : Nat)
  | sink (k : Fin 64)
  deriving DecidableEq, Repr

/-- A wake source (Table 16.4): issue to a gated engine, a CWT WORK or OPEN frame, a Taralink frame for a compute die,
PROMOTE, a PWR_REQ write, the wake timer, a management command, I3C. -/
inductive WakeSrc where
  | issue | cwt | link | promote | request | timer | management | i3c
  deriving DecidableEq, Repr

/-- How a certification run ended (R386, R387): without a mismatch; with a disagreement of a unit and its partner on burst b
in which the second spare agreed with the unit (the partner's burst kind, temperature, voltage and start); or
failed. -/
inductive CertRes where
  | pass
  | second (b kind temp volt start : Nat)
  | fail
  deriving DecidableEq, Repr

/-- What ECLIPSE and CERTIFY name: a unit (region 4 × die + region), a die, or the module. -/
inductive SvcWhat where
  | unit (rg : Fin 16) (u : Fin 66)
  | die (d : Fin 4)
  | module
  deriving DecidableEq, Repr

/-- Atomic operations of the A extension (Table 6.10). -/
inductive AmoOp where
  | swap | add | xor | and | or | min | max | minu | maxu
  deriving DecidableEq, Repr

/-- A memory access of a control or management core (R200). -/
inductive CoreAcc where
  | load
  | store (v : Nat)
  | lr
  | sc (v : Nat)
  | amo (op : AmoOp) (v : Nat)
  deriving DecidableEq, Repr


/-- Why a port discards a received frame (R414, R417): an IP fragment, IPv6 extension headers, a bad UDP checksum, or a CWT
frame whose MAGIC, VER, TYPE or HCRC is wrong. -/
inductive EthDrop where
  | fragment | extHeader | udpSum | cwtHead
  deriving DecidableEq, Repr

/-- A command: one constructor per row of the table of operations and events. -/
inductive Instr where
  /-- STEP_CMD_OPEN (R523): HUB_STEP_CMD OPEN n opens the next step, holds it while R36 forbids it, or refuses it and reports the outcome in HUB_STEP_RESULT. -/
  | stepCmdOpen (p : Path)
  /-- STEP_CMD_DECLARE (R523): HUB_STEP_CMD DECLARE n records that the last micro-batch of an OPEN step was issued and moves the step to DRAINING, or holds or refuses the request. -/
  | stepCmdDeclare (p : Path)
  /-- STEP_CMD_ABANDON (R523): HUB_STEP_CMD ABANDON n abandons step n and every later unsealed step with cause 0x06, or reports ALREADY_DONE or REFUSED. -/
  | stepCmdAbandon (p : Path)
  /-- HELD_OPEN_RELEASE (R523): A held OPEN request opens its step as soon as the limits of R36 allow, and its outcome becomes OK. -/
  | heldOpenRelease
  /-- HELD_DECLARE_RELEASE (R523): A held declaration moves its step to DRAINING as soon as R36 allows, which starts the drain limit. -/
  | heldDeclareRelease
  /-- DRAIN_COMPLETE (R35): A DRAINING step whose stamped transfers and retry buffers are all done enters VOTING and latches its vote word. -/
  | drainComplete
  /-- DRAIN_LIMIT_EXPIRE (R38): The drain limit of a DRAINING step expires, abandoning the step with cause 0x04 and raising EVT_STEP_TIMEOUT. -/
  | drainLimitExpire
  /-- VOTE_LIMIT_EXPIRE (R38): The vote limit of a VOTING step expires, abandoning the step with cause 0x04 and raising EVT_STEP_TIMEOUT. -/
  | voteLimitExpire
  /-- STEP_SEAL (R35): Once the vote has passed and every expected step digest has arrived and matched, and the fold compare allows it, the step seals and releases its afterglow inputs. -/
  | stepSeal
  /-- PAGE_SET_FLIP (R42): Once every UPD of a sealed step has completed and REFL_HAVE has arrived, one write of COMMIT_STEP flips the page set and the step commits. -/
  | pageSetFlip
  /-- SEQ_ABANDON_RESTART (R174): Once their stopped instructions have ended, the affected sequencers clear predicates and descriptors and resume at CLU_SEQ_ENTRY. -/
  | seqAbandonRestart
  /-- AGREE_NOTICE_REPEAT (R524): A non-zero rank that has abandoned repeats its phase-2 notice to rank 0 each HUB_VOTE_LIM.MS until the agreement result arrives. -/
  | agreeNoticeRepeat
  /-- AGREE_PHASE0_RESEND (R524): Rank 0 resends its phase-0 agreement frame when it has not returned within HUB_VOTE_LIM.MS. -/
  | agreePhase0Resend
  /-- REPLAY_STEP_OPEN (R46): The module opens each replayed step itself under the new epoch once R36 allows. -/
  | replayStepOpen
  /-- SEQ_RUN (R170): Setting CLU_SEQ_CTL.RUN starts the sequencer at its entry address; clearing it stops it at the next instruction boundary. -/
  | seqRun (p : Path) (q : Fin 256) (v : Word)
  /-- PTI_ILLEGAL (R198): A word with an illegal class, opcode, MOD encoding or reserved bit halts its sequencer with STATE 5 and raises EVT_PTI_ILLEGAL. -/
  | ptiIllegal (q : Fin 256)
  /-- NOP (R175): NOP performs no action. -/
  | nop (q : Fin 256) (w : PtiWord)
  /-- JMP (R208): JMP sets PC to an absolute or PC-relative target. -/
  | jmp (q : Fin 256) (w : PtiWord)
  /-- CALL (R208): CALL pushes the return address and jumps, halting on a ninth call. -/
  | call (q : Fin 256) (w : PtiWord)
  /-- RET (R208): RET pops the return address, halting on an empty stack. -/
  | ret (q : Fin 256) (w : PtiWord)
  /-- HALT (R198): HALT clears CLU_SEQ_CTL.RUN and sets STATE to stopped. -/
  | halt (q : Fin 256) (w : PtiWord)
  /-- CTL_STEP (R174): CTL.STEP sets the sequencer's STEP from a scalar or immediate. -/
  | ctlStep (q : Fin 256) (w : PtiWord)
  /-- CTL_SLIPG (R191): CTL.SLIPG places the sequencer in a slip group. -/
  | ctlSlipg (q : Fin 256) (w : PtiWord)
  /-- BWAIT (R209): BWAIT computes its effective target, refuses a far target with BCN_FAR, fires at once when late, or waits for the beacon. -/
  | bwait (q : Fin 256) (w : PtiWord)
  /-- BWAIT_FIRE (R188): A waiting BWAIT fires at the first island clock edge at which the island's beacon reaches its effective target. -/
  | bwaitFire (q : Fin 256)
  /-- BREAD (R207): BREAD moves the island beacon into a scalar and sets NDET under deterministic mode. -/
  | bread (q : Fin 256) (w : PtiWord)
  /-- CTR_RD (R210): CTR.RD reads a 64-bit counter of its die or the hub through its latch, setting NDET under deterministic mode. -/
  | ctrRd (q : Fin 256) (w : PtiWord)
  /-- LI (R11): LI loads a sign-extended immediate into a scalar. -/
  | li (q : Fin 256) (w : PtiWord)
  /-- LIH (R11): LIH writes bits [63:48] of a scalar from the immediate. -/
  | lih (q : Fin 256) (w : PtiWord)
  /-- MOV (R11): MOV copies one scalar to another. -/
  | mov (q : Fin 256) (w : PtiWord)
  /-- ADD (R11): ADD sums two scalars modulo 2^64. -/
  | add (q : Fin 256) (w : PtiWord)
  /-- SUB (R11): SUB subtracts two scalars modulo 2^64. -/
  | sub (q : Fin 256) (w : PtiWord)
  /-- MUL (R11): MUL keeps the low 64 bits of a scalar product. -/
  | mul (q : Fin 256) (w : PtiWord)
  /-- AND (R11): AND forms the bitwise AND of two scalars. -/
  | andI (q : Fin 256) (w : PtiWord)
  /-- OR (R11): OR forms the bitwise OR of two scalars. -/
  | orI (q : Fin 256) (w : PtiWord)
  /-- XOR (R11): XOR forms the bitwise XOR of two scalars. -/
  | xorI (q : Fin 256) (w : PtiWord)
  /-- SHL (R11): SHL shifts a scalar left by sB[5:0]. -/
  | shl (q : Fin 256) (w : PtiWord)
  /-- SHR (R11): SHR shifts a scalar right logically by sB[5:0]. -/
  | shr (q : Fin 256) (w : PtiWord)
  /-- SAR (R11): SAR shifts a scalar right arithmetically by sB[5:0]. -/
  | sar (q : Fin 256) (w : PtiWord)
  /-- CMP (R11): CMP writes a predicate from a signed or unsigned scalar comparison. -/
  | cmp (q : Fin 256) (w : PtiWord)
  /-- PLOG (R11): PLOG combines two predicates with and, or, xor or andn. -/
  | plog (q : Fin 256) (w : PtiWord)
  /-- LDS (R211): LDS loads 8 bytes from main memory or an SRAM window into a scalar. -/
  | lds (q : Fin 256) (w : PtiWord)
  /-- STS (R211): STS stores a scalar to 8 bytes of main memory or an SRAM window. -/
  | sts (q : Fin 256) (w : PtiWord)
  /-- DLD (R180): DLD copies a 64-byte tensor descriptor into a d register, which applies the descriptor. -/
  | dld (q : Fin 256) (w : PtiWord)
  /-- TAGP (R194): TAGP sets a predicate from the FLAGS of up to 64 block headers under an any or all test. -/
  | tagp (q : Fin 256) (w : PtiWord)
  /-- SYNC_ADD (R213): SYNC.ADD adds a count to a sync object on this die, another die or another module, or is refused with LIMIT. -/
  | syncAdd (q : Fin 256) (w : PtiWord)
  /-- SYNC_SET (R213): SYNC.SET sets a sync object of this module, refusing remote and system objects. -/
  | syncSet (q : Fin 256) (w : PtiWord)
  /-- WAIT (R182): WAIT stalls the sequencer until a local sync object reaches its target. -/
  | wait (q : Fin 256) (w : PtiWord)
  /-- WAIT_TO (R184): WAIT.to stalls until a local sync object reaches its target or a timeout in bt expires. -/
  | waitTo (q : Fin 256) (w : PtiWord)
  /-- WAIT_REACHED (R183): A stalled wait resumes when its object reaches the target and writes 1 to its predicate. -/
  | waitReached (q : Fin 256)
  /-- SYNC_TIMEOUT (R184): A WAIT.to timeout expires, writes 0 to its predicate, raises EVT_SYNC_TIMEOUT and lets the sequencer continue. -/
  | syncTimeout (q : Fin 256)
  /-- SYNC_RD (R213): SYNC.RD moves a local sync object's value into a scalar and sets NDET under deterministic mode. -/
  | syncRd (q : Fin 256) (w : PtiWord)
  /-- MMA_FP4 (R215): MMA.fp4 issues an FP4-class matrix product or semiring operation to a member or gang. -/
  | mmaFp4 (q : Fin 256) (w : PtiWord)
  /-- MMA_FP8 (R215): MMA.fp8 issues an FP8-class matrix product or semiring operation to a member or gang. -/
  | mmaFp8 (q : Fin 256) (w : PtiWord)
  /-- MMA_BF16 (R215): MMA.bf16 issues a BF16-class matrix product or semiring operation to a member or gang. -/
  | mmaBf16 (q : Fin 256) (w : PtiWord)
  /-- MMA_T19 (R215): MMA.t19 issues a T19 matrix product to a member or gang. -/
  | mmaT19 (q : Fin 256) (w : PtiWord)
  /-- MMA_F32 (R215): MMA.f32 issues an FP32 matrix product by one to three T19 passes. -/
  | mmaF32 (q : Fin 256) (w : PtiWord)
  /-- MMA_COMPLETE (R127): When every ABFT check of an MMA has passed the unit writes its outputs and signals completion, or completes with an error status. -/
  | mmaComplete (q : Fin 256) (tgt : Fin 5) (e : MmaEnv)
  /-- VEC_ADD (R218): VEC.ADD adds two tensors elementwise. -/
  | vecAdd (q : Fin 256) (w : PtiWord)
  /-- VEC_SUB (R218): VEC.SUB subtracts two tensors elementwise. -/
  | vecSub (q : Fin 256) (w : PtiWord)
  /-- VEC_MUL (R218): VEC.MUL multiplies two tensors elementwise. -/
  | vecMul (q : Fin 256) (w : PtiWord)
  /-- VEC_FMA (R218): VEC.FMA computes a fused multiply-add elementwise. -/
  | vecFma (q : Fin 256) (w : PtiWord)
  /-- VEC_MAX (R218): VEC.MAX takes the elementwise maximum. -/
  | vecMax (q : Fin 256) (w : PtiWord)
  /-- VEC_MIN (R218): VEC.MIN takes the elementwise minimum. -/
  | vecMin (q : Fin 256) (w : PtiWord)
  /-- VEC_ABS (R218): VEC.ABS takes the elementwise magnitude. -/
  | vecAbs (q : Fin 256) (w : PtiWord)
  /-- VEC_NEG (R218): VEC.NEG negates elementwise. -/
  | vecNeg (q : Fin 256) (w : PtiWord)
  /-- VEC_EXP (R218): VEC.EXP computes the correctly rounded exponential. -/
  | vecExp (q : Fin 256) (w : PtiWord)
  /-- VEC_LOG (R218): VEC.LOG computes the correctly rounded logarithm. -/
  | vecLog (q : Fin 256) (w : PtiWord)
  /-- VEC_RCP (R218): VEC.RCP computes the correctly rounded reciprocal. -/
  | vecRcp (q : Fin 256) (w : PtiWord)
  /-- VEC_SQRT (R218): VEC.SQRT computes the correctly rounded square root. -/
  | vecSqrt (q : Fin 256) (w : PtiWord)
  /-- VEC_RSQRT (R218): VEC.RSQRT computes the correctly rounded reciprocal square root. -/
  | vecRsqrt (q : Fin 256) (w : PtiWord)
  /-- VEC_TANH (R218): VEC.TANH computes the correctly rounded hyperbolic tangent. -/
  | vecTanh (q : Fin 256) (w : PtiWord)
  /-- VEC_SIGM (R218): VEC.SIGM computes the correctly rounded logistic function. -/
  | vecSigm (q : Fin 256) (w : PtiWord)
  /-- CVT (R219): CVT converts a tensor once into the destination format under Table 3.7. -/
  | cvt (q : Fin 256) (w : PtiWord)
  /-- VEC_SUM (R218): VEC.SUM reduces in 16-element groups added in ascending index. -/
  | vecSum (q : Fin 256) (w : PtiWord)
  /-- VEC_RMAX (R218): VEC.RMAX reduces to the maximum with NaN propagation. -/
  | vecRmax (q : Fin 256) (w : PtiWord)
  /-- VEC_AMAX (R219): VEC.AMAX writes the largest finite magnitude and delivers it with non-finite counts and channel ranges to the estimator slot. -/
  | vecAmax (q : Fin 256) (w : PtiWord)
  /-- VEC_COMPLETE (R173): A VEC or CHK instruction finishes, writes its results and signals its completion object. -/
  | vecComplete (q : Fin 256) (e : EngEnv)
  /-- XFER_COPY (R223): XFER.COPY copies or converts a window locally, to MX, or to a remote module. -/
  | xferCopy (q : Fin 256) (w : PtiWord)
  /-- XFER_MCAST (R224): XFER.MCAST reads each block once and writes it to many shared stores on many dies. -/
  | xferMcast (q : Fin 256) (w : PtiWord)
  /-- XFER_ZERO (R225): XFER.ZERO writes a ZERO header for every block of a tensor. -/
  | xferZero (q : Fin 256) (w : PtiWord)
  /-- XFER_PREF (R225): XFER.PREF reads a tensor into the region cache under its hint. -/
  | xferPref (q : Fin 256) (w : PtiWord)
  /-- XFER_COLL (R225): XFER.COLL hands a collective descriptor to the hub's collective engine. -/
  | xferColl (q : Fin 256) (w : PtiWord)
  /-- XFER_COMPLETE (R173): A DMA transfer finishes once its writes are visible or have landed remotely, and signals its completion object. -/
  | xferComplete (rg : Fin 16) (e : Fin 4) (errs : List MemErr) (reread : Nat)
  /-- COLL_COMPLETE (R339): A collective finishes at this module once its result blocks are written, and completes its XFER.COLL. -/
  | collComplete (k : Fin 17)
  /-- GATE (R161): GATE selects top-k experts per token, assigns capacity slots in token order and writes the index list. -/
  | gate (q : Fin 256) (w : PtiWord)
  /-- DISPATCH (R165): DISPATCH scatters token rows into every block of each owner's input region. -/
  | dispatch (q : Fin 256) (w : PtiWord)
  /-- COMBINE (R166): COMBINE gathers expert output rows and forms weighted token rows. -/
  | combine (q : Fin 256) (w : PtiWord)
  /-- ROUTE_COMPLETE (R226): A routing instruction finishes and signals its completion object. -/
  | routeComplete (d : Fin 4) (errs : List MemErr) (reread : Nat)
  /-- UPD_ADAM (R227): UPD.ADAM queues an Adam or AdamW update of a shard, held until seal. -/
  | updAdam (q : Fin 256) (w : PtiWord)
  /-- UPD_SGDM (R227): UPD.SGDM queues a momentum SGD update of a shard, held until seal. -/
  | updSgdm (q : Fin 256) (w : PtiWord)
  /-- UPD_SIGNM (R227): UPD.SIGNM queues a sign-momentum update of a shard, held until seal. -/
  | updSignm (q : Fin 256) (w : PtiWord)
  /-- UPD_START (R227): At seal a held UPD reads its recipe and operands and computes each result twice into shadow pages. -/
  | updStart (grp : Fin 5) (tgt : Fin 16) (e : UpdEnv)
  /-- UPD_FRAME_RESUME (R304): An update engine waiting on an empty free-frame stack resumes when the snapshot engine returns a frame. -/
  | updFrameResume (grp : Fin 5) (tgt : Fin 16)
  /-- UPD_COMPLETE (R227): An UPD finishes once its writes are visible in the shadow set, and signals completion. -/
  | updComplete (grp : Fin 5) (tgt : Fin 16)
  /-- CHK_VERIFY (R229): CHK.VERIFY checks block CRCs with re-reads and writes a predicate. -/
  | chkVerify (q : Fin 256) (w : PtiWord)
  /-- CHK_FOLD (R356): CHK.FOLD combines the fold of a tensor into a fold record in memory. -/
  | chkFold (q : Fin 256) (w : PtiWord)
  /-- CHK_CMP (R229): CHK.CMP writes a predicate telling whether two tensors are bit-identical apart from EPOCH, STEP and CRC. -/
  | chkCmp (q : Fin 256) (w : PtiWord)
  /-- GANG_APPLY (R106): Writing CLU_APPLY.APPLY requests the gang mode in CLU_GANG. -/
  | gangApply (p : Path) (q : Fin 256) (v : Word)
  /-- GANG_MODE_CHANGE (R106): The new gang mode takes effect at the first instruction boundary with all four members idle. -/
  | gangModeChange (q : Fin 256)
  /-- FENCE_APPLY (R136): Writing RGN_APPLY applies every UNIT_FENCE of the region, reserving a spare or refusing with EVT_FENCE_REFUSED. -/
  | fenceApply (p : Path) (rg : Fin 16) (v : Word)
  /-- ROUTE_APPLY (R163): Writing ROUTE_APPLY brings a new owner table into force at the next routing boundary. -/
  | routeApply (p : Path) (d : Fin 4) (v : Word)
  /-- SCL_APPLY_EST (R231): Writing SCL_APPLY.EST brings the estimator table into force at the next step open. -/
  | sclApplyEst (p : Path)
  /-- SCL_APPLY_LS (R245): Writing SCL_APPLY.LS sets the loss-scale exponent from SCL_LS_INIT and the change point to the next step. -/
  | sclApplyLs (p : Path)
  /-- MIG_APPLY (R285): Writing MIG_APPLY applies the ring registers and clears the order count and MIG_DONE when no order is in flight. -/
  | migApply (p : Path) (v : Word)
  /-- UPD_APPLY (R306): Writing a bit of UPD_APPLY.SET applies a page table and free-frame stack at the next step open. -/
  | updApply (p : Path) (v : Word)
  /-- LNK_APPLY (R344): Writing LNK_APPLY applies a link's expected partner, detours and spare threshold and repeats the identity check. -/
  | lnkApply (p : Path) (l : Fin 6) (v : Word)
  /-- XLAT_APPLY (R500): Writing XLAT_APPLY arms the inactive translation bank to switch at the apply epoch. -/
  | xlatApply (p : Path) (v : Word)
  /-- CHK_APPLY (R361): Writing CHK_APPLY applies prism and fold configuration at the next step open. -/
  | chkApply (p : Path) (v : Word)
  /-- CKPT_APPLY (R405): Writing CKPT_APPLY applies the sink table, job id and trust list for the next snapshot or restore. -/
  | ckptApply (p : Path) (v : Word)
  /-- HUB_RESIL_APPLY (R393): Writing HUB_RESIL_APPLY applies journal size, reflection roles and certification settings. -/
  | hubResilApply (p : Path) (v : Word)
  /-- HUB_STEP_APPLY (R497): Writing HUB_STEP_APPLY applies step numbers, epoch and limits when no step is open, or sets REFUSED. -/
  | hubStepApply (p : Path) (v : Word)
  /-- HLTH_APPLY (R504): Writing HLTH_APPLY applies health weights and the HEALTH period. -/
  | hlthApply (p : Path) (v : Word)
  /-- CWT_APPLY (R439): Writing CWT_APPLY applies ETH and CWT configuration while no job session is open, and is otherwise ignored. -/
  | cwtApply (p : Path) (v : Word)
  /-- SYNC_VAL_WRITE (R502): A write of SYNC_VAL sets a sync object, refused for system objects. -/
  | syncValWrite (p : Path) (d : Fin 4) (o : Fin 4096) (v : Word)
  /-- SYNC_ADD_WRITE (R502): A write of SYNC_ADD adds to a sync object, refused for bad counts and system objects. -/
  | syncAddWrite (p : Path) (d : Fin 4) (o : Fin 4096) (v : Word)
  /-- SYNC_ARM_WRITE (R502): A write of SYNC_ARM_CTL or SYNC_ARM_TGT arms an interrupt arm and fires it at once when already reached. -/
  | syncArmWrite (p : Path) (d : Fin 4) (a : Fin 64) (tgt : Bool) (v : Word)
  /-- BCN_SLIP_CLEAR (R501): A write of 0 to BCN_SLIP_OFS clears a slip group's offset. -/
  | bcnSlipClear (p : Path) (d : Fin 4) (g : Fin 16) (v : Word)
  /-- CACHE_DEMOTE (R260): Writing RGN_CACHE_CTL.DEMOTE turns every KEEP line of the region into a normal line. -/
  | cacheDemote (p : Path) (rg : Fin 16) (v : Word)
  /-- CORE_MEM_ACCESS (R200): A control or management core access is served by attribute or raises an access fault. -/
  | coreMemAccess (p : Path) (a : BitVec 56) (n : Fin 65) (k : CoreAcc) (errs : List MemErr)
  /-- PATROL_SCRUB (R276): Each fast-tier controller scrubs its whole stack every 24 h, rewriting corrected sectors. -/
  | patrolScrub (k : Fin 32) (errs : List MemErr)
  /-- STACK_TEMP_SAMPLE (R278): Each fast-tier controller reads its stack temperature every 1 ms and applies the stack throttle level. -/
  | stackTempSample (k : Fin 32) (temp : BitVec 8)
  /-- TEST_MODE_ENTER (R280): Writing MODE = 1 to HC_CTL or LPC_CTL asks a controller to enter TEST mode; writing 0 returns it to RUN. -/
  | testModeEnter (p : Path) (c : MemCtrl) (v : Word)
  /-- TEST_READY (R280): Once accepted requests drain, the controller enters TEST mode and sets TESTRDY. -/
  | testReady (c : MemCtrl)
  /-- TG_START (R281): Writing TG_CTL.START in TEST mode starts a traffic-generator run. -/
  | tgStart (p : Path) (c : MemCtrl) (ch : Fin 16) (v : Word)
  /-- MEM_TG_DONE (R281): A traffic-generator run ends, records its failures and raises EVT_MEM_TG_DONE. -/
  | memTgDone (c : MemCtrl) (ch : Fin 16) (flt : List (Nat × Nat))
  /-- MIG_ORDER_START (R267): MIG begins order k once its trigger object reaches k + 1, refusing it before any data moves when it breaks the limits. -/
  | migOrderStart
  /-- MIG_ORDER_COMPLETE (R268): A migration order finishes, writes STATUS, advances MIG_DONE and signals its completion object. -/
  | migOrderComplete (errs : List MemErr)
  /-- LINK_LIGHT_DETECT (R313): Light present at both ends starts link training through its phases. -/
  | linkLightDetect (l : Fin 6)
  /-- LINK_TRAIN_TIMEOUT (R313): A link not trained within 50 ms restarts at phase 1 and counts a training failure. -/
  | linkTrainTimeout (l : Fin 6)
  /-- LINK_UP (R314): At phase 6 the link chooses active and spare lanes, resets LSNs, grants credit and comes up, possibly degraded. -/
  | linkUp (l : Fin 6) (rxDone : List (Nat × Nat)) (txGood : BitVec 72)
  /-- LINK_RETRAIN (R313): Writing LNK_CTL.RETRAIN restarts training at phase 1. -/
  | linkRetrain (p : Path) (l : Fin 6) (v : Word)
  /-- FLIT_DATA_RX (R319): A DATA flit is accepted in LSN order or discarded with a NAK, and its frame bytes are delivered. -/
  | flitDataRx (l : Fin 6) (bytes rx check : List Byte)
  /-- FLIT_IDLE_RX (R318): An IDLE flit carries an acknowledgement and no body. -/
  | flitIdleRx (l : Fin 6) (bytes rx check : List Byte)
  /-- FLIT_NAK_RX (R319): A NAK makes the transmitter resend every buffered flit from the named LSN. -/
  | flitNakRx (l : Fin 6) (bytes rx check : List Byte)
  /-- CTRL_CREDIT_RX (R322): A CREDIT control flit returns virtual-channel credits. -/
  | ctrlCreditRx (l : Fin 6) (bytes rx check : List Byte)
  /-- CTRL_SWAP_RX (R323): A SWAP control flit schedules a lane move to a spare at a named LSN. -/
  | ctrlSwapRx (l : Fin 6) (bytes rx check : List Byte)
  /-- CTRL_IDENT_RX (R324): An IDENT control flit is checked against the expected partner, entering MISWIRED on a failure. -/
  | ctrlIdentRx (l : Fin 6) (bytes rx check : List Byte)
  /-- CTRL_DROP_RX (R323): A DROP control flit removes a lane from the active set at a named LSN. -/
  | ctrlDropRx (l : Fin 6) (bytes rx check : List Byte)
  /-- LANE_SWAP (R323): At the agreed LSN both ends move the lane position to the spare or drop it, raising EVT_LANE_SPARED or EVT_LINK_DEGRADED. -/
  | laneSwap (l : Fin 6) (rx : Bool)
  /-- LANE_ERROR_WINDOW (R323): Each 1 ms window judges lanes failing by corrected symbols, starting a swap or drop. -/
  | laneErrorWindow (l : Fin 6) (syms unc : List (Nat × Nat)) (dark : List Nat)
  /-- LANE_RETRAIN_TIMER (R323): Every 10 s the module retrains each failed lane, and a lane that passes becomes a spare. -/
  | laneRetrainTimer (l : Fin 6) (pass : List Nat)
  /-- IDENT_TIMER (R324): Every 1 s while up each end sends IDENT. -/
  | identTimer (l : Fin 6)
  /-- ACK_STALL_TIMEOUT (R320): When ACK makes no progress for 4 µs the transmitter replays from its oldest buffered flit. -/
  | ackStallTimeout (l : Fin 6)
  /-- LINK_LOST (R321): A link with too few lanes, lost signal or 20 µs without acknowledgement is declared lost and raises EVT_LINK_LOST. -/
  | linkLost (l : Fin 6) (dark : Bool)
  /-- LINK_DETOUR (R332): Within 50 µs the detour takes over a lost link, re-sends retry contents and raises EVT_LINK_DETOUR. -/
  | linkDetour (l : Fin 6)
  /-- LASER_CART_INSERT (R517): A cartridge's presence contact mates, the other cartridge holds full output while it stabilizes, and EVT_LASER_CART is raised. -/
  | laserCartInsert (b : Fin 2)
  /-- LASER_CART_REMOVE (R312): A cartridge is removed or fails, the other reaches full output within 1 ms, and EVT_LASER_CART is raised. -/
  | laserCartRemove (b : Fin 2) (failed : Bool)
  /-- LASER_SHARE (R517): After the stabilization wait both cartridges share the load at half output. -/
  | laserShare
  /-- BLOCK_FRAME_RX (R526): A BLOCK frame is journaled, reordered, epoch-checked and written to memory, or refused with a STATUS frame. -/
  | blockFrameRx (l : Fin 7)
  /-- SYNC_FRAME_RX (R186): A SYNC frame adds to or sets a local object, or is refused or discarded. -/
  | syncFrameRx (l : Fin 7)
  /-- READ_FRAME_RX (R526): A READ frame makes the server send one RDATA frame per block, or a STATUS LIMIT. -/
  | readFrameRx (l : Fin 7)
  /-- RDATA_FRAME_RX (R526): An RDATA frame is placed by its request tag and completes the READ when all blocks have arrived. -/
  | rdataFrameRx (l : Fin 7)
  /-- COLL_FRAME_RX (R339): A COLL frame's contribution or result is reduced in fixed order or forwarded around the ring. -/
  | collFrameRx (l : Fin 7)
  /-- ZRUN_FRAME_RX (R342): A ZRUN frame is expanded into ZERO headers with fresh CRCs. -/
  | zrunFrameRx (l : Fin 7)
  /-- VOTE_FRAME_RX (R340): A VOTE frame of the step vote, a barrier or an epoch agreement is ORed into, forwarded or applied. -/
  | voteFrameRx (l : Fin 7)
  /-- DIGEST_FRAME_RX (R40): A DIGEST frame is compared with the module's own digest, or kept by the buddy as a record. -/
  | digestFrameRx (l : Fin 7)
  /-- ACKE_FRAME_RX (R335): An ACKE acknowledges both classes of a pair and completes transfers whose last frame it passes. -/
  | ackeFrameRx (l : Fin 7)
  /-- STATUS_FRAME_RX (R527): A STATUS frame records a receiver's refusal as the status of the transfer it belongs to. -/
  | statusFrameRx (l : Fin 7)
  /-- ACKE_TIMER (R335): Every 2 µs or 64 frames with frames unacknowledged the destination sends an ACKE. -/
  | ackeTimer (lc : BitVec 18)
  /-- E2E_TIMEOUT (R336): A frame unacknowledged for XLAT_E2E_TMO fails its transfer with COLL_FAIL and may set the COLL vote bit. -/
  | e2eTimeout
  /-- HMSG_COMMAND_BLOCK (R375): A hub-addressed command block of a reflection bundle is kept by the buddy per step and epoch. -/
  | hmsgCommandBlock
  /-- HMSG_GRADIENT_BLOCK (R375): A hub-addressed gradient block of a reflection bundle is kept with its command. -/
  | hmsgGradientBlock
  /-- HMSG_SEAL_BLOCK (R375): A seal block completes a reflection bundle, after which the buddy answers REFL_HAVE and applies the bundle. -/
  | hmsgSealBlock
  /-- HMSG_REFL_FOLD_RECORD (R379): A reflection fold record is compared with the ward's, marking the reflection CURRENT or STALE or halting sealing. -/
  | hmsgReflFoldRecord
  /-- HMSG_DIGEST_REPORT (R404): A checkpoint digest report lets the ward list or omit each reflection copy in its manifest. -/
  | hmsgDigestReport
  /-- HMSG_RESYNC_DATA (R380): A resynchronization block is written into the buddy's set-4 frames. -/
  | hmsgResyncData
  /-- REFL_HAVE (R377): A REFL_HAVE acknowledgement lets the ward flip its page set for that step. -/
  | reflHave
  /-- REFL_DONE (R377): A REFL_DONE acknowledgement lets the next step commit. -/
  | reflDone
  /-- REFL_APPLY_COMPLETE (R377): The buddy's slow-tier engines finish applying a bundle, flip set 4 and send REFL_DONE. -/
  | reflApplyComplete
  /-- REFL_LATE_TIMEOUT (R378): A ward waiting more than HUB_REFL_LATE.MS for REFL_HAVE or REFL_DONE raises EVT_REFL_LATE and keeps waiting. -/
  | reflLateTimeout
  /-- RESYNC_DONE (R380): A resynchronization and its waiting bundles have been applied, and the buddy answers REFL_DONE. -/
  | resyncDone
  /-- JOURNAL_REFETCH_RX (R372): A hub-addressed READ makes the sender re-send a journaled frame from its send journal. -/
  | journalRefetchRx
  /-- JOURNAL_ADMIT (R366): A waiting step-bound record is admitted to the afterglow once a segment is free within the half-journal limit. -/
  | journalAdmit
  /-- JOURNAL_REDELIVER (R370): In a replay an RX record is re-delivered from the journal once the earlier TX records have been matched. -/
  | journalRedeliver (rcrcOk : Bool)
  /-- SEND_JOURNAL_RESEND (R373): A module serving a replay or promotion re-sends a TX record once the requester's earlier RX records have been matched. -/
  | sendJournalResend (lc : BitVec 18)
  /-- PRISM_BURST (R349): A unit or vector engine with enough prism credit runs a burst between instructions and reports its digest. -/
  | prismBurst (rg : Fin 16) (idx : Fin 82) (wrong : Option DWord) (abft : Bool) (temp volt freq : BitVec 16) (start : DWord)
  /-- BAND_TABLE_SAVE (R354): Every hour and on entry to shade the hub saves the band table to flash. -/
  | bandTableSave
  /-- FOLD_RESUME (R358): Writing CHK_FOLD_STATUS.RESUME clears HALT. -/
  | foldResume (p : Path) (v : Word)
  /-- CERT_RUN_END (R386): A certification run ends, ending the eclipse with EVT_CERT_PASS or raising EVT_CERT_FAIL. -/
  | certRunEnd (k : Nat) (res : CertRes) (bands : BitVec 16)
  /-- CERT_RETRY_TIMER (R386): After HUB_CERT_CTL.RETRY minutes a failed certification repeats. -/
  | certRetryTimer (k : Nat)
  /-- CERT_SPARE_AVAILABLE (R387): A unit waiting for a free spare on its die starts certification once one is free. -/
  | certSpareAvailable (rg : Fin 16) (u : Fin 66)
  /-- HEALTH_DECAY (R391): Every 675 s the hub multiplies the penalty and each input penalty by 2^(-1/128), raising EVT_HEALTH when the score moved by 50. -/
  | healthDecay
  /-- HEALTH_PERIOD (R438): Every HLTH period the module sends a HEALTH frame. -/
  | healthPeriod
  /-- CKPT_REQ (R394): A write of CKPT_REQ requests a snapshot at the named or next flip. -/
  | ckptReq (p : Path) (v : Word)
  /-- SNAPSHOT_RELEASE (R399): When every shard is acknowledged the snapshot engine clears HOLD bits, returns frames and adds 1 to SNAP. -/
  | snapshotRelease (refl : Bool)
  /-- REFL_REPORT_TIMEOUT (R404): 60 s after its own shards complete the ward stops waiting for reflection reports. -/
  | reflReportTimeout
  /-- MANIFEST_WRITE (R407): Once shards, reports and any fold compare are done the hub writes the signed manifest and raises EVT_CKPT_DONE. -/
  | manifestWrite
  /-- RESTORE_START (R409): Writing CKPT_RST_CTL.START while no step is open starts staging a restore. -/
  | restoreStart (p : Path) (v : Word)
  /-- RESTORE_END (R410): Staging ends with one whole candidate READY, or FAILED with EVT_RESTORE_FAIL. -/
  | restoreEnd
  /-- RESTORE_COMMIT (R411): Writing CKPT_RST_CTL.COMMIT makes staged frames current, sets step numbers and state, and regenerates working copies. -/
  | restoreCommit (p : Path) (v : Word)
  /-- CWT_OPEN (R418): An OPEN creates, takes over or resumes the job session, or is answered NOT_OWNER. -/
  | cwtOpen (port : Fin 2) (p : CwtPeer) (f : CwtFrame)
  /-- CWT_OPENED (R430): A sink's OPENED answer opens a bulk session for checkpoint traffic. -/
  | cwtOpened (port : Fin 2) (p : CwtPeer) (f : CwtFrame)
  /-- CWT_CLOSE (R418): A CLOSE ends the job session while accepted orders still complete. -/
  | cwtClose (port : Fin 2) (p : CwtPeer) (f : CwtFrame)
  /-- CWT_ACK (R421): An ACK releases acknowledged frames and resets the retransmission timer. -/
  | cwtAck (port : Fin 2) (p : CwtPeer) (f : CwtFrame)
  /-- CWT_NACK (R423): A NACK makes the module resend, back off or fail the object as its code gives. -/
  | cwtNack (port : Fin 2) (p : CwtPeer) (f : CwtFrame)
  /-- CWT_CREDIT (R422): A CREDIT frame raises the absolute frame and byte limits of a queue. -/
  | cwtCredit (port : Fin 2) (p : CwtPeer) (f : CwtFrame)
  /-- WORK_WRITE (R427): A WRITE work order writes its DATA frames into memory, block-wise when BLOCKS is set. -/
  | workWrite (port : Fin 2) (p : CwtPeer) (f : CwtFrame)
  /-- WORK_READ (R427): A READ work order sends RDATA frames of memory contents. -/
  | workRead (port : Fin 2) (p : CwtPeer) (f : CwtFrame)
  /-- WORK_SIGNAL (R427): A SIGNAL work order adds its count to a sync object after earlier orders complete. -/
  | workSignal (port : Fin 2) (p : CwtPeer) (f : CwtFrame)
  /-- WORK_REGRD (R433): A REGRD work order reads a register within CWT's reach. -/
  | workRegrd (port : Fin 2) (p : CwtPeer) (f : CwtFrame)
  /-- WORK_REGWR (R433): A REGWR work order writes a register within CWT's reach, or completes REG_DENIED. -/
  | workRegwr (port : Fin 2) (p : CwtPeer) (f : CwtFrame)
  /-- CWT_DATA (R427): A DATA frame delivers bytes of a WRITE order, block by block with CRC checks. -/
  | cwtData (port : Fin 2) (p : CwtPeer) (f : CwtFrame)
  /-- ORDER_RETIRE (R428): An order finishes and its completion record is queued in acceptance order. -/
  | orderRetire (q : Fin 256)
  /-- CWT_ABORT (R429): An ABORT stops or retires the named order, answered with ABORT_RESP. -/
  | cwtAbort (port : Fin 2) (p : CwtPeer) (f : CwtFrame)
  /-- CWT_KEEPALIVE (R421): A KEEPALIVE frame shows the peer is alive. -/
  | cwtKeepalive (port : Fin 2) (p : CwtPeer) (f : CwtFrame)
  /-- CWT_BULK_DATA (R430): A BULK_DATA frame delivers object bytes from a sink during restore. -/
  | cwtBulkData (port : Fin 2) (p : CwtPeer) (f : CwtFrame)
  /-- CWT_RTO_EXPIRE (R421): The retransmission timer expires, resending from the oldest unacknowledged frame and doubling the timer, or losing the session after 8 expiries. -/
  | cwtRtoExpire (dst : Option (Fin 64)) (q : Fin 256)
  /-- CWT_KEEPALIVE_TIMER (R421): After 100 ms without sending, the module sends KEEPALIVE. -/
  | cwtKeepaliveTimer (dst : Option (Fin 64))
  /-- CWT_SILENCE_TIMEOUT (R421): After 3 s with no frame from the host the session is LOST and EVT_CWT_SESSION_LOST is raised. -/
  | cwtSilenceTimeout
  /-- CREDIT_REPEAT_TIMER (R422): At least every 10 ms the module repeats its credit limits. -/
  | creditRepeatTimer
  /-- BULK_TIMEOUT (R430): An object with a frame unacknowledged for CWT_TMR.BULK fails, aborting its checkpoint or restore. -/
  | bulkTimeout (k : Fin 64) (q : Fin 17)
  /-- PFC_FRAME_RX (R413): A received PFC or PAUSE frame stops or restarts transmission on the named priority. -/
  | pfcFrameRx (port : Fin 2) (prio : Fin 8) (stop pause : Bool)
  /-- NEIGHBOR_DISCOVERY_RX (R413): A Neighbor Discovery or ARP request for the module's own address is answered. -/
  | neighborDiscoveryRx (port : Fin 2) (v6 : Bool) (target asker : Nat) (own : Bool)
  /-- ICMP_ECHO_RX (R413): An ICMP or ICMPv6 echo request is answered. -/
  | icmpEchoRx (port : Fin 2) (v6 : Bool) (asker : Nat) (ident seq : BitVec 16) (data : List Byte) (own : Bool)
  /-- OSFP_INSERT (R514): An OSFP plug is inserted and managed under CMIS, held in low power above 15 W. -/
  | osfpInsert (port : Fin 2) (watts : BitVec 8)
  /-- OSFP_REMOVE (R514): An OSFP plug removal takes the port down and sets ETH_STATUS.DOWN. -/
  | osfpRemove (port : Fin 2)
  /-- MGMT_RESEND_TIMER (R436): Every 10 ms unacknowledged EVENT and HEALTH frames are resent. -/
  | mgmtResendTimer
  /-- MGMT_ACK (R436): A management ACK frame releases the EVENT or HEALTH frame of its MSEQ. -/
  | mgmtAck (serial : DWord) (mseq : Word)
  /-- SET_COORD (R437): SET_COORD writes and locks the physical coordinate, PDIM and mode. -/
  | setCoord (mseq : Word) (serial : DWord) (pc pdim : BitVec 18) (mode : Bool)
  /-- SET_LOGICAL (R437): SET_LOGICAL sets the logical coordinate and clears end-to-end state. -/
  | setLogical (mseq : Word) (serial : DWord) (lc : BitVec 18) (valid : Bool)
  /-- XLAT_LOAD (R437): XLAT_LOAD writes entries into the inactive translation bank. -/
  | xlatLoad (mseq : Word) (serial : DWord) (first : BitVec 18) (l : List Word)
  /-- XLAT_ARM (R437): XLAT_ARM writes the apply epoch and arms the inactive bank. -/
  | xlatArm (mseq : Word) (serial : DWord) (e : Word)
  /-- LINK_CFG (R437): LINK_CFG writes a link's expected partner, detours and threshold and applies them. -/
  | linkCfg (mseq : Word) (serial : DWord) (l : Fin 6) (coord : BitVec 18) (sn : DWord) (det0 det1 : BitVec 16) (thresh : BitVec 20)
  /-- ECLIPSE (R437): ECLIPSE takes a unit, die or module out of service; a module stops accepting work and abandons unsealed steps. -/
  | eclipse (mseq : Word) (serial : DWord) (w : SvcWhat)
  /-- CERTIFY (R386): CERTIFY starts the certification run of an eclipsed die or module. -/
  | certify (mseq : Word) (serial : DWord) (w : SvcWhat)
  /-- PROMOTE (R383): PROMOTE makes a spare in dusk take a logical coordinate and run the promotion phases. -/
  | promote (mseq : Word) (serial : DWord) (lc : BitVec 18)
  /-- DIE_DEGRADE (R389): DIE_DEGRADE removes an eclipsed die, abandons unsealed steps and leaves the step group. -/
  | dieDegrade (mseq : Word) (serial : DWord) (d : Fin 4)
  /-- DIE_RESTORE (R389): DIE_RESTORE returns a certified die to service while no job is held. -/
  | dieRestore (mseq : Word) (serial : DWord) (d : Fin 4)
  /-- RETIRE_UNIT (R134): RETIRE_UNIT retires a unit permanently and records it in flash. -/
  | retireUnit (mseq : Word) (serial : DWord) (rg : Fin 16) (u : Fin 66)
  /-- FENCE (R139): FENCE writes a unit's fenced bands and applies them. -/
  | fence (mseq : Word) (serial : DWord) (rg : Fin 16) (u : Fin 66) (mask : BitVec 16)
  /-- CHECKED (R390): CHECKED enables dual-execute and 5% prism duty and locks both settings. -/
  | checked (mseq : Word) (serial : DWord)
  /-- UNCHECKED (R390): UNCHECKED ends degraded-but-checked mode. -/
  | unchecked (mseq : Word) (serial : DWord)
  /-- PENALIZE (R391): PENALIZE adds commanded points to the health penalty. -/
  | penalize (mseq : Word) (serial : DWord) (pts : BitVec 16)
  /-- BAND_CLEAR (R354): BAND_CLEAR clears the band table. -/
  | bandClear (mseq : Word) (serial : DWord)
  /-- REFL_BUDDY (R378): REFL_BUDDY writes HUB_REFL_BUDDY at once; VALID 0 lets a waiting ward commit unmirrored. -/
  | reflBuddy (mseq : Word) (serial : DWord) (lc : BitVec 18) (valid : Bool)
  /-- REG_READ (R437): REG_READ returns any register except SEC over the management lane. -/
  | regRead (mseq : Word) (serial : DWord) (a : BitVec 64)
  /-- REG_WRITE (R437): REG_WRITE writes any register except SEC over the management lane. -/
  | regWrite (mseq : Word) (serial : DWord) (a : BitVec 64) (v : Word)
  /-- HEALTH_GET (R438): HEALTH_GET sends a HEALTH frame. -/
  | healthGet (mseq : Word) (serial : DWord)
  /-- ATTEST (R470): ATTEST returns a signed attestation report and the identity certificate for a nonce. -/
  | attest (mseq : Word) (serial : DWord) (nonce : List Byte)
  /-- JOB_RELEASE (R437): JOB_RELEASE ends the session, abandons unsealed steps, aborts a snapshot, unsets the logical coordinate and enters dusk. -/
  | jobRelease (mseq : Word) (serial : DWord)
  /-- I3C_PWR_REQ_WRITE (R434): An I3C private write of PWR_REQ requests a power state, waking the module from shade or dark. -/
  | i3cPwrReqWrite (v : Word)
  /-- I3C_SETDASA (R434): SETDASA assigns the I3C dynamic address from the static address. -/
  | i3cSetdasa (static dyn : BitVec 7)
  /-- I3C_ENTDAA (R434): ENTDAA assigns a dynamic address using the provisioned ID. -/
  | i3cEntdaa (dyn : BitVec 7)
  /-- INPUT_EXCURSION (R440): An input voltage entering a warning range raises EVT_PWR_INPUT and counts the excursion. -/
  | inputExcursion (mv : BitVec 16)
  /-- INPUT_POWER_LOSS (R440): An input below 36 V for 50 µs or above 64 V for 10 µs turns every rail off. -/
  | inputPowerLoss
  /-- POWER_ON (R457): An input holding 40 V or more for 10 ms starts power-on at B0. -/
  | powerOn
  /-- PWR_EN_MATE (R511): PWR_EN mating lets the module charge its input capacitance and start power-on. -/
  | pwrEnMate
  /-- PWR_EN_OPEN (R511): PWR_EN opening drops the draw below 1 A within 200 µs and acts as input loss. -/
  | pwrEnOpen
  /-- RAIL_FAULT (R441): An internal regulator fault raises EVT_PWR_RAIL and powers off its die or the module. -/
  | railFault (die : Fin 5) (rail : BitVec 8)
  /-- POWER_SAMPLE (R442): Every 10 µs the module measures input power and holds issue while the 100 µs average exceeds 7,000 W. -/
  | powerSample (w1 w100 mv : BitVec 16)
  /-- POWER_CAP_STEP (R442): Every 100 µs the frequency cap moves 25 MHz down above PWR_CAP or up below 97% of it. -/
  | powerCapStep
  /-- THERMAL_SAMPLE (R446): Every 100 µs each die samples its junction temperature and applies its thermal level and unit bands. -/
  | thermalSample (d : Fin 5) (t : Int) (units : List (Fin 4 × Fin 66 × Int))
  /-- THERMAL_TRIP (R448): A junction at 110 °C for 1 ms powers off the compute dies, self-refreshes stacks and raises EVT_THERM_TRIP. -/
  | thermalTrip (d : Fin 5)
  /-- COOLANT_CHECK (R449): The 10 s inlet average or the outlet rise beyond its limit raises EVT_COOLANT. -/
  | coolantCheck (inlet outlet : Int)
  /-- PWR_REQ_WRITE (R452): A write of PWR_REQ.TARGET requests a power state, refused when R451 forbids it. -/
  | pwrReqWrite (p : Path) (v : Word)
  /-- PWR_STATE_ENTERED (R450): A state entry or exit stage completes and the module proceeds toward its target. -/
  | pwrStateEntered (train : BitVec 32)
  /-- WAKE_SOURCE (R452): A wake source of the current state returns the module to run. -/
  | wakeSource (w : WakeSrc)
  /-- WAKE_TIMER (R456): The wake timer expires PWR_WAKE.MS after entry to a low state and wakes the module. -/
  | wakeTimer
  /-- AUTODIM_IDLE (R453): After DIM_IDLE µs of idle engines the module enters dim. -/
  | autodimIdle
  /-- BOOT_PHASE_END (R457): A power-up phase ends, raising the boot-stage interrupt and starting the next phase. -/
  | bootPhaseEnd (ph : Fin 8) (imgs : List ((List Byte × List Byte) × (List Byte × List Byte))) (units : List (Fin 16 × Fin 66)) (dies : BitVec 4)
  /-- BOOT_PHASE_TIMEOUT (R457): A phase passing its bound stops the boot with FAILED and EVT_BOOT_FAIL. -/
  | bootPhaseTimeout
  /-- RESET_N (R459): RESET_N held low for 1 ms starts a module reset. -/
  | resetN
  /-- PWR_RESET_MODULE (R459): Writing PWR_RESET.MODULE starts a module reset. -/
  | pwrResetModule (p : Path)
  /-- PWR_RESET_JOB (R461): Writing PWR_RESET.JOB starts a job reset, waiting up to 1 s for a sealed step to commit. -/
  | pwrResetJob (p : Path)
  /-- PWR_RESET_DIE (R459): Writing a bit of PWR_RESET.DIE resets that compute die. -/
  | pwrResetDie (p : Path) (d : Fin 4)
  /-- JOB_RESET_FORCED (R461): A job reset that waited 1 s without commit proceeds and raises EVT_RESET_FORCED. -/
  | jobResetForced
  /-- PWR_WDOG_WRITE (R461): A write of PWR_WDOG sets the watchdog period and restarts it. -/
  | pwrWdogWrite (p : Path) (v : Word)
  /-- WATCHDOG_EXPIRE (R461): The hub watchdog expiring starts a module reset. -/
  | watchdogExpire
  /-- MB_ATTEST (R472): Mailbox ATTEST builds and signs a report for a nonce. -/
  | mbAttest (k : Fin 4) (c : Fin 2) (len : BitVec 13)
  /-- SIGN_START (R472): SIGN_START begins a manifest signing sequence on its channel. -/
  | signStart (k : Fin 4) (c : Fin 2) (len : BitVec 13)
  /-- SIGN_DATA (R472): SIGN_DATA hashes the next bytes of the manifest stream. -/
  | signData (k : Fin 4) (c : Fin 2) (len : BitVec 13)
  /-- SIGN_END (R471): SIGN_END checks the manifest header and returns the signature, or BAD_CMD or REFUSED. -/
  | signEnd (k : Fin 4) (c : Fin 2) (len : BitVec 13)
  /-- DBG_CHALLENGE (R472): DBG_CHALLENGE returns a fresh 48-byte debug challenge. -/
  | dbgChallenge (k : Fin 4) (c : Fin 2) (len : BitVec 13)
  /-- DBG_RESPONSE (R474): DBG_RESPONSE enables debug on a valid signature, or counts a failure that may raise the DEBUG alarm. -/
  | dbgResponse (k : Fin 4) (c : Fin 2) (len : BitVec 13) (temp : Int)
  /-- ADVANCE (R469): ADVANCE raises a fused rollback counter to the running image's SVN. -/
  | advance (k : Fin 4) (c : Fin 2) (len : BitVec 13)
  /-- PROVISION (R475): PROVISION generates and wraps a new identity key, or stores its certificate and sets PROVISIONED. -/
  | provision (k : Fin 4) (c : Fin 2) (len : BitVec 13) (tok : Bool)
  /-- LID_OPEN (R476): The lid switch opening raises the LID alarm with its policy response. -/
  | lidOpen (temp : Int)
  /-- VOLTAGE_GLITCH (R476): A rail leaving its window for more than 20 ns raises the VGLITCH alarm. -/
  | voltageGlitch (temp : Int)
  /-- CLOCK_GLITCH (R476): A clock departing more than 5% from its frequency raises the CGLITCH alarm. -/
  | clockGlitch (temp : Int)
  /-- REGISTER_WRITE (R481): A write to a register with no row of its own updates its RW fields under the decode, lock and LIVE rules. -/
  | registerWrite (p : Path) (off : BitVec 44) (v : Word)
  /-- REGISTER_RC_READ (R489): A read of a register with RC fields samples and clears them in one indivisible action. -/
  | registerRcRead (p : Path) (off : BitVec 44)
  /-- COUNTER_LO_READ (R140): A read of a 64-bit counter's LO word loads its high word into the path's HI latch. -/
  | counterLoRead (p : Path) (off : BitVec 44)
  /-- XLAT_DATA_ACCESS (R500): A read or write of XLAT_DATA reaches the inactive-bank entry at INDEX and advances INDEX. -/
  | xlatDataAccess (p : Path) (wr : Option Word)
  /-- SNAPSHOT_AND_CLEAR (R494): Writing EVT_CLR.GO writes a counter snapshot and clears an instance's counters, or sets BAD. -/
  | snapshotAndClear (p : Path) (v : Word)
  /-- LPDDR_MR4_CHANGE (R278): A slow-tier package reports a new refresh-rate code in MR4, and its controller enters or leaves timing derating and raises EVT_MEM_THROTTLE. -/
  | lpddrMr4Change (k : Fin 48) (code : BitVec 4) (hot : Bool)
  /-- CE_RATE_MINUTE (R277): Each minute a controller retires its oldest one-minute bucket of correctable errors and re-arms EVT_MEM_CE_RATE once the count falls below half the threshold. -/
  | ceRateMinute (c : MemCtrl)
  /-- MEM_RETRAIN_DONE (R455): Full training of a fast-tier stack after exit from dark ends about 8 s later and the stack becomes usable. -/
  | memRetrainDone (k : Fin 32)
  /-- ETH_LINK_CHANGE (R439): An Ethernet port's physical link goes down or comes up, updating ETH_STATUS.UP and setting DOWN on a loss. -/
  | ethLinkChange (port : Fin 2) (up : Bool)
  /-- ETH_FRAME_DISCARD (R414): A received IP fragment, IPv6 packet with extension headers, UDP datagram with a bad checksum, or CWT frame with a bad header is discarded and counted in ETH_RX_DROP or CWT_BAD. -/
  | ethFrameDiscard (port : Fin 2) (why : EthDrop)
  /-- DIE_RESET_DONE (R459): A die reset ends about 5 s after it starts, when the die's B5 self-test has finished, and the die returns to service or stays degraded. -/
  | dieResetDone (d : Fin 4) (ok : Bool)
  deriving DecidableEq, Repr

end Sys2Proof
end

