-- ==== Sys2Proof/Machine/PartsCore.lean ====
section
/-! DEFINITION. State of the sequencers, engines, step machine and event router, as plain data. -/
namespace Sys2Proof.Machine

/-- CLU_SEQ_STATUS.STATE (Table 6.3). -/
inductive SeqSt where
  | stopped | running | syncWait | beaconWait | queueStall | halted | restarting
  deriving DecidableEq, Repr

/-- The STATE code of Table 6.3. -/
def SeqSt.code : SeqSt → Nat
  | .stopped => 0 | .running => 1 | .syncWait => 2 | .beaconWait => 3 | .queueStall => 4 | .halted => 5
  | .restarting => 6

/-- A tensor descriptor register: the fields of Table 6.4 that DLD copies, and the address they came from (R180). -/
structure Desc where
  src : Nat
  base : Nat
  sb : Nat
  tensor : Nat
  fmt : Nat
  scaling : Bool
  axis : Bool
  hint : Nat
  zpm : Nat
  rows : Nat
  cols : Nat
  scd : Nat
  zp : Nat
  kind : Nat
  fgroup : Nat
  est : Nat
  /-- BLOCK of the first block: 0, but for an expert's region, whose owner entry names it (R165). -/
  blk0 : Nat
  /-- X as an instruction of several commands read it at its start; none: it stays live in memory (R179). -/
  xr : Option Nat := none
  deriving DecidableEq, Repr

/-- A stalled WAIT (R182, R184). -/
structure WaitInfo where
  obj : Nat
  target : Word
  pd : Nat
  /-- Beacon value at which a WAIT.to expires; none for a WAIT and for a timeout of 0. -/
  deadline : Option Nat
  timed : Bool
  deriving DecidableEq, Repr

/-- A BWAIT in progress (R188): its effective target, and its completion object. -/
structure BWaitInfo where
  eff : Nat
  sig : Option Nat
  deriving DecidableEq, Repr

/-- One cluster sequencer (Table 6.2). -/
structure Seq where
  st : SeqSt
  pc : Nat
  /-- s1–s31; s0 is hard-wired to zero by the one accessor. -/
  s : SMap DWord
  /-- p0–p7, bit n is pn; p0 is hard-wired to one by the one accessor. -/
  p : BitVec 8
  /-- Predicates that a CHK in progress will write (R229). -/
  pend : BitVec 8
  /-- Predicates whose last writer is a WAIT.to that timed out (R213). -/
  toPred : BitVec 8
  d : SMap (Option Desc)
  stack : List Nat
  step : Nat
  slipg : Nat
  ndet : Bool
  wait : Option WaitInfo
  bwait : Option BWaitInfo
  /-- An error was recorded and STOP_ON_ERR is to act at the next boundary (R173). -/
  stopAtBoundary : Bool
  deriving DecidableEq, Repr

/-- A sequencer after reset (Table 6.2). -/
def Seq.reset : Seq :=
  { st := .stopped, pc := 0, s := [], p := 1, pend := 0, toPred := 0, d := [], stack := [], step := 0, slipg := 0,
    ndet := false, wait := none, bwait := none, stopAtBoundary := false }

/-- An engine that executes queued PTI instructions (Table 6.1). -/
inductive Eng where
  /-- Member 0–3 of cluster q, or 4, its gang. -/
  | mma (q tgt : Nat)
  /-- The vector engine of cluster q. -/
  | vec (q : Nat)
  /-- DMA engine e of region r (0–15 over the module: 4 × die + region). -/
  | dma (rg e : Nat)
  /-- The routing engine of a die. -/
  | route (d : Nat)
  /-- Update engine e (15: all) of a stack group: die 0–3, or 4 for the slow tier. -/
  | upd (grp e : Nat)
  deriving DecidableEq, Repr

/-- How far an engine instruction has come. -/
inductive OpPhase where
  /-- Waiting in its queue. -/
  | queued
  /-- Its frames are sent or its requests made; it completes when the transfer ends. -/
  | sent
  /-- An UPD that has written its shadow pages (R227). -/
  | done
  deriving DecidableEq, Repr

/-- An engine instruction as issued: descriptor and scalar copies (R205), the step and the address it was issued at. -/
structure EngOp where
  no : Nat
  q : Nat
  eng : Eng
  op : PtiOp
  w : PtiWord
  step : Nat
  pc : Nat
  dd : Option Desc
  da : Option Desc
  db : Option Desc
  dc : Option Desc
  sa : DWord
  sb : DWord
  sc : DWord
  phase : OpPhase
  status : Nat
  /-- Engines of an UPD that have finished (bit e), for TGT 15. -/
  fin : Nat
  /-- The recipe block of an UPD, as its engine read it at seal (R296). -/
  recipe : Option (List Byte) := none
  deriving DecidableEq, Repr

/-- A SYNC operation that waits behind earlier transfers of its stream (R17, R186). -/
structure HeldSig where
  q : Nat
  /-- Issue number of the signal: operations with a lower number go first. -/
  no : Nat
  /-- Destination die of this module, or the logical coordinate and die of another. -/
  rem : Option Nat
  die : Nat
  obj : Nat
  isSet : Bool
  val : Word
  step : Nat
  /-- Address of the instruction. -/
  pc : Nat
  deriving DecidableEq, Repr

/-- The states of Table 2.1 that a step of the module can be in before it is final. -/
inductive StepSt where
  | open | draining | voting | sealed | abandoned
  deriving DecidableEq, Repr

/-- HUB_STEP_STATUS code of a state (Table 18.5). -/
def StepSt.code : StepSt → Nat
  | .open => 1 | .draining => 2 | .voting => 3 | .sealed => 4 | .abandoned => 5

/-- One step between OPEN and COMMITTED (Table 2.1). -/
structure StepRec where
  n : Nat
  st : StepSt
  /-- The last micro-batch was declared in this attempt (R523). -/
  declared : Bool
  /-- The running vote word of the module (Table 2.3, R291). -/
  vote : BitVec 5
  /-- The vote word latched on entry to VOTING (R291). -/
  latched : Option (BitVec 5)
  /-- The OR'd vote, once the exchange has given it (R292). -/
  ored : Option (BitVec 5)
  /-- The module's own step digest (R40). -/
  digest : Option (List Byte)
  /-- Digests received of other members of the fold group: rank and digest. -/
  peers : List (Nat × List Byte)
  /-- NDET of the step (R196). -/
  ndet : Bool
  /-- The loss scale exponent latched at open (R246). -/
  ls : Nat
  /-- Change point in force when the step opened (R246). -/
  lsJ : Option Nat
  /-- Re-opened by the module as a replay (R46). -/
  replay : Bool
  /-- Cause of abandonment (Table 2.5). -/
  cause : Nat
  /-- Command blocks of the UPD instructions that the step accepted, in issue order (R375, R402). -/
  cmds : List (List Byte)
  /-- Tensors of KIND 2 whose saturation counter rose (R39, R235). -/
  satSeen : Bool
  /-- UPD instructions of the step that have completed (R307). -/
  updDone : Nat
  /-- REFL_HAVE of this step has arrived (R377). -/
  reflHave : Bool
  /-- The step group and this module's rank, as present when the step opened (R35). -/
  members : List Nat
  rank : Nat
  /-- This rank has put its vote word into the ring of R340. -/
  voted : Bool
  deriving DecidableEq, Repr

/-- HUB_STEP_RESULT.OUTCOME (Table 18.5). -/
inductive StepOutcome where
  | ok | held | refused | alreadyDone | cancelled
  deriving DecidableEq, Repr

/-- The OUTCOME code. -/
def StepOutcome.code : StepOutcome → Nat
  | .ok => 0 | .held => 1 | .refused => 2 | .alreadyDone => 3 | .cancelled => 4

/-- One ring of the event router (R432). -/
structure EvRing where
  recs : List (List Byte)
  eseq : Nat
  /-- Records not stored since the previous record. -/
  lostSince : Nat
  /-- EVT_HOST_LOST or EVT_MGMT_LOST. -/
  lost : Nat
  sat : Bool
  deriving DecidableEq, Repr

/-- The event router (R431, R432, Table 18.11). -/
structure Evt where
  mgmt : EvRing
  host : EvRing
  raised : Nat
  last : Nat
  /-- EVSEV in force for the host ring (R432). -/
  evsev : Nat
  deriving DecidableEq, Repr

/-- An empty ring. -/
def EvRing.reset : EvRing := { recs := [], eseq := 0, lostSince := 0, lost := 0, sat := false }

/-- One entry of a parameter page table in force (Table 10.4). -/
structure PageEnt where
  home : Nat
  f0 : Nat
  f1 : Nat
  pstep : Nat
  cur : Bool
  pend : Bool
  hold0 : Bool
  hold1 : Bool
  deriving DecidableEq, Repr

/-- A page table and free-frame stack in force (R306, R309). -/
structure PageSet where
  addr : Nat
  ents : List PageEnt
  freeAddr : Nat
  freeCap : Nat
  free : List Nat
  /-- EVT_UPD_FREE_LOW was raised and the count has not been above twice the threshold since (R304). -/
  lowRaised : Bool
  deriving DecidableEq, Repr

/-- A page set with nothing registered. -/
def PageSet.empty : PageSet := { addr := 0, ents := [], freeAddr := 0, freeCap := 0, free := [], lowRaised := false }

/-- Replacement class of a cache line (Table 9.3). -/
inductive LineCls where
  | normal | keep | evictFirst
  deriving DecidableEq, Repr

/-- One line of a region cache (R257): its 128-byte line number, valid and dirty sectors, class. The list that
holds the lines of a region is in order of use, most recent first. -/
structure CLine where
  line : Nat
  valid : BitVec 4
  dirty : BitVec 4
  cls : LineCls
  deriving DecidableEq, Repr

/-- What a core's access came to: the loaded value, or an access fault (R200). -/
inductive CoreResult where
  | value (v : Nat)
  | fault
  deriving DecidableEq, Repr

end Sys2Proof.Machine
end

