-- ==== Sys2Proof/Machine/PartsMem.lean ====
section
/-! DEFINITION. State of the memory system: error buckets, flicker, throttling, migration orders (ch. 09, R396). -/
namespace Sys2Proof.Machine

/-- Beacon ticks of one minute (R188: 200 MHz). -/
def btMinute : Nat := 12000000000

/-- Correctable errors of a controller over the last hour (R277). -/
structure CeRate where
  /-- One-minute counts, newest first. -/
  buckets : List Nat
  /-- EVT_MEM_CE_RATE was raised and the count has not been below half the threshold since. -/
  quiet : Bool
  /-- Beacon at which the newest minute ends. -/
  next : Nat
  deriving DecidableEq, Repr

/-- A controller that has seen no error. -/
def CeRate.reset : CeRate := { buckets := [], quiet := false, next := btMinute }

/-- Flicker (R396, R397). -/
structure Flk where
  /-- Counted events of the window: input 0–3 and beacon. -/
  hits : List (Nat × Nat)
  /-- Flicker asks for a snapshot at the next flip. -/
  auto : Bool
  /-- Beacon at which the last automatic snapshot began. -/
  lastAuto : Option Nat
  deriving DecidableEq, Repr

/-- No flicker. -/
def Flk.reset : Flk := { hits := [], auto := false, lastAuto := none }

/-- Throttle reports of a controller or a die (R278, R279). -/
structure Thr where
  /-- Level that the last EVT_MEM_THROTTLE carried. -/
  sent : Nat
  /-- The level now. -/
  level : Nat
  /-- Beacon of that event. -/
  sentAt : Option Nat
  /-- Beacon of the next sample. -/
  next : Nat
  deriving DecidableEq, Repr

/-- Level 0, nothing raised. -/
def Thr.reset : Thr := { sent := 0, level := 0, sentAt := none, next := 0 }

/-- A migration order in flight (Table 9.5). -/
structure MigOrd where
  k : Nat
  src : Nat
  dst : Nat
  srcSb : Nat
  dstSb : Nat
  count : Nat
  raw : Bool
  msb : Nat
  sig : Nat
  /-- Status of a refused order; 0 for one that runs. -/
  status : Nat
  deriving DecidableEq, Repr

/-- The migration engine (R267–R269): its ring in force, the next order, and the orders in flight. -/
structure Mig where
  ring : Nat
  size : Nat
  die : Nat
  obj : Nat
  applied : Bool
  next : Nat
  fly : List MigOrd
  deriving DecidableEq, Repr

/-- The migration engine after reset: no ring applied. -/
def Mig.reset : Mig := { ring := 0, size := 16, die := 0, obj := 0, applied := false, next := 0, fly := [] }

/-- A fold record (R355, Table 12.3). -/
structure Fold where
  sum : Nat
  xor : Nat
  sqr : Nat
  count : Nat
  zcount : Nat
  ncount : Nat
  step : Nat
  deriving DecidableEq, Repr

/-- The fold of nothing. -/
def Fold.zero : Fold := { sum := 0, xor := 0, sqr := 0, count := 0, zcount := 0, ncount := 0, step := 0 }

/-- A reflection bundle that the buddy keeps (R375–R377): command blocks, gradient blocks, seal blocks and the digest. -/
structure Bundle where
  lc : Nat
  step : Nat
  epoch : Nat
  cmds : List (Nat × List Byte)
  /-- Command index, block index, and the block as it travelled. -/
  grads : List (Nat × Nat × List Byte)
  seals : List (Nat × List Byte)
  digest : Option (List Byte)
  /-- Complete: REFL_HAVE was sent. -/
  whole : Bool
  deriving DecidableEq, Repr

end Sys2Proof.Machine
end

