-- ==== Sys2Proof/Machine/PartsCwt.lean ====
section
/-! DEFINITION. State of the host path: CWT sessions, work orders, bulk transfers, snapshots and restores, and the
management lane (ch. 14, ch. 15). -/
namespace Sys2Proof.Machine

/-- A queue of a CWT session (R419–R422). -/
structure CwtQ where
  /-- SEQ expected of the peer, and body bytes received of the frames that credit limits. -/
  rxNext : Nat
  rxBytes : Nat
  /-- Limits granted to the peer. -/
  flim : Nat
  blim : Nat
  /-- Next SEQ to send, and body bytes sent of the frames that credit limits. -/
  txNext : Nat
  txBytes : Nat
  /-- Limits that the peer granted. -/
  pflim : Nat
  pblim : Nat
  unack : List CwtFrame
  /-- When each of the unacknowledged frames was first sent. -/
  sent : List Nat
  /-- Frames that wait for credit. -/
  wait : List CwtFrame
  /-- Deadline of the retransmission timer, and consecutive expiries (R421). -/
  rto : Option Nat
  rtoN : Nat
  /-- Beacon of the last NACK GAP (R420). -/
  gapAt : Option Nat
  /-- SEQ of the first frame of a split block whose last byte is to come: what ACK holds until then (R416). -/
  hold : Option Nat
  deriving DecidableEq, Repr

/-- A queue at OPEN. -/
def CwtQ.reset : CwtQ :=
  { rxNext := 0, rxBytes := 0, flim := 0, blim := 0, txNext := 0, txBytes := 0, pflim := 0, pblim := 0, unack := [],
    sent := [], wait := [], rto := none, rtoN := 0, gapAt := none, hold := none }

/-- The job session (R418). -/
structure Sess where
  job : Nat
  /-- Address of the host, and the port of its latest frame. -/
  addr : Nat
  port : Nat
  lost : Bool
  qs : SMap CwtQ
  /-- Beacon of the last frame received and of the last frame sent. -/
  rxAt : Nat
  txAt : Nat
  deriving DecidableEq, Repr

/-- A work order in flight or retired with its record unsent (Table 15.5, R426–R429). -/
structure Order where
  no : Nat
  queue : Nat
  order : Nat
  kind : Nat
  flags : Nat
  step : Nat
  epoch : Nat
  addr : Nat
  len : Nat
  obj : Nat
  saddr : Nat
  /-- Bytes 0x00 to 0x23 of the order (R364). -/
  ident : List Byte
  port : Nat
  /-- Bytes moved; the value of a REGRD. -/
  bytes : Nat
  /-- Bytes of the stream taken, and those of frames whose last block is not yet whole. -/
  pos : Nat
  part : List Byte
  /-- Blocks placed. -/
  blk : Nat
  /-- Its work is at an end; the record is to come. -/
  done : Bool
  /-- Stopped by an ABORT (R429). -/
  aborted : Bool
  status : Nat
  /-- Its completion record once it has retired, while the records of earlier orders are to come; else empty (R428, R429). -/
  rcd : List Byte
  deriving DecidableEq, Repr

/-- The order has not retired (R426). -/
def Order.inFlight (o : Order) : Bool := o.rcd.isEmpty

/-- A frame put on the network: port, destination (0 the host, else 1 + sink) and frame. -/
structure CwtOut where
  port : Nat
  dst : Nat
  f : CwtFrame
  deriving DecidableEq, Repr

/-- What a port sends besides CWT (R413): the answer to a Neighbor Discovery or ARP request, or to an echo request, and a
pause of one priority (PFC) or of all (PAUSE), or its end (R424). -/
inductive EthMsg where
  | neighbor (port : Nat) (v6 : Bool) (target asker mac : Nat)
  | echo (port : Nat) (v6 : Bool) (to_ ident seq : Nat) (data : List Byte)
  | pause (port : Nat) (prio : Option Nat) (stop : Bool)
  deriving DecidableEq, Repr

/-- An OSFP plug in its cage (R514): held in low power when it draws more than 15 W. -/
structure Osfp where
  lowPower : Bool
  deriving DecidableEq, Repr

/-- A sink entry (Table 14.3). -/
structure SinkEnt where
  bytes : List Byte
  eth : Nat
  deriving DecidableEq, Repr

/-- The address (::ffff:a.b.c.d, Table 14.3) is an IPv4 one. -/
def SinkEnt.v4 (e : SinkEnt) : Bool := e.bytes.take 12 == List.replicate 10 0 ++ [0xFF, 0xFF]

/-- A bulk session with a sink (R430). -/
structure Bulk where
  sink : Nat
  eth : Nat
  /-- The sink's address is an IPv4 one. -/
  v4 : Bool
  open_ : Bool
  qs : SMap CwtQ
  /-- Beacon of the last frame sent. -/
  txAt : Nat
  deriving DecidableEq, Repr

/-- An object in transfer to or from a sink (R430). Queue 0 marks one that has not begun. -/
structure BulkObj where
  /-- 0 of the module's own snapshot, 1 of its reflection copy, 2 of a restore. -/
  who : Nat
  sink : Nat
  q : Nat
  keyH : Nat
  keyL : Nat
  put : Bool
  /-- What is written, or what has been read so far. -/
  data : List Byte
  /-- Length asked of a read. -/
  len : Nat
  /-- Whole: stored at the sink, or read, or not found there. -/
  done : Bool
  found : Bool
  deriving DecidableEq, Repr

/-- A shard of a snapshot (R401, R402): its primary sink, header and body. -/
structure SnapShard where
  shard : Nat
  kind : Nat
  pages : Nat
  body : List Byte
  digest : List Byte
  deriving DecidableEq, Repr

/-- A frame that a snapshot holds: page set, HOME page and frame. -/
structure SnapFrame where
  set : Nat
  home : Nat
  frame : Nat
  deriving DecidableEq, Repr

/-- A snapshot that is held (R394–R408). -/
structure Snap where
  step : Nat
  epoch : Nat
  slot : Nat
  job : Nat
  auto : Bool
  /-- The step is a fold step, and its compare has passed. -/
  fold : Bool
  ls : Nat
  lsJ : Nat
  /-- Logical coordinate of the module whose state it holds. -/
  lc : Nat
  /-- A reflection copy, written by the buddy (R404). -/
  refl : Bool
  frames : List SnapFrame
  shards : List SnapShard
  sinks : List SinkEnt
  /-- 0 sessions and invalidation, 1 shards, 2 reports and manifest, 3 manifest on its way. -/
  phase : Nat
  /-- Reports of the buddy: shard, digest and sink entry. -/
  reports : List (Nat × List Byte × List Byte)
  /-- The reports are complete or timed out, and some are missing. -/
  reportsDone : Bool
  partRefl : Bool
  manifest : List Byte
  deriving DecidableEq, Repr

/-- What a restore reports of an entry that failed (R410): shard, step and epoch found, reason, what served. -/
structure Mixed where
  shard : Nat
  step : Nat
  epoch : Nat
  reason : Nat
  served : Nat
  deriving DecidableEq, Repr

/-- A restore (R409–R411): the step asked for, and after its end the candidate staged. -/
structure Rst where
  want : Nat
  needFold : Bool
  job : Nat
  trust : List (List Byte)
  sinks : List SinkEnt
  /-- Bodies staged: the shards of the candidate, state shard last; empty before READY. -/
  staged : List (Nat × List Byte)
  ready : Bool
  step : Nat
  deriving DecidableEq, Repr

/-- A management frame (Table 15.9). -/
structure MgmtFrame where
  mtype : Nat
  mseq : Nat
  cmd : Nat
  mstatus : Nat
  epoch : Nat
  body : List Byte
  deriving DecidableEq, Repr

/-- The management lane (R435, R436). -/
structure Mgmt where
  /-- MSEQ of the next EVENT or HEALTH frame. -/
  next : Nat
  /-- EVENT and HEALTH frames that no ACK has named, and when each was last sent. -/
  unack : List (Nat × MgmtFrame)
  /-- Responses to the last 64 MSEQ values, newest first: MSEQ and response. -/
  resp : List (Nat × MgmtFrame)
  /-- A valid command has named an address to reply to. -/
  peer : Bool
  /-- ESEQ of the next event record to send. -/
  sent : Nat
  /-- Frames put on the lane, each from the module's third MAC address. -/
  out : List MgmtFrame
  /-- Commands that answered ACCEPTED and whose final response is to come: MSEQ and command (R436). -/
  late : List (Nat × Nat)
  /-- HLTH_PERIOD in force, ms (R504). -/
  period : Nat
  deriving DecidableEq, Repr

/-- The lane after reset. -/
def Mgmt.reset : Mgmt := { next := 0, unack := [], resp := [], peer := false, sent := 0, out := [], late := [], period := 1000 }

end Sys2Proof.Machine
end

