-- ==== Sys2Proof/Machine/PartsLink.lean ====
section
/-! DEFINITION. State of the Taralinks: frames, link controllers, end-to-end sequencing, translation banks, collectives
in flight and the afterglow journal (ch. 11, ch. 13). -/
namespace Sys2Proof.Machine

/-- A frame (Table 11.4): the header fields and the body. LEN is the body's length, HCRC follows from the rest. -/
structure Frame where
  ty : Nat
  vc : Nat
  resend : Bool
  hops : Nat
  codes : Nat
  dst : Nat
  src : Nat
  step : Nat
  esn : Nat
  epoch : Nat
  arg : Nat
  body : List Byte
  deriving DecidableEq, Repr

/-- What a frame that the module emits belongs to (R336, R527). -/
inductive Owner where
  /-- The engine instruction with this issue number. -/
  | op (no : Nat)
  /-- The collective of the engine instruction with this issue number. -/
  | coll (no : Nat)
  /-- A SYNC instruction of a sequencer, which has already completed: its address and step. -/
  | sync (q pc step : Nat)
  /-- The refetch of the journal record with this JSEQ (R372). -/
  | refetch (jseq : Nat)
  /-- Work of the hub itself. -/
  | hub
  deriving DecidableEq, Repr

/-- A sequenced frame that no ACKE has passed (R335, R336). -/
structure Unack where
  lc : Nat
  cls : Nat
  esn : Nat
  deadline : Nat
  step : Nat
  collid : Nat
  owner : Owner
  /-- Status of the first STATUS frame for it, 0 for none (R527). -/
  stat : Nat
  deriving DecidableEq, Repr

/-- A READ whose RDATA frames have not all arrived (R526). -/
structure ReadReq where
  tag : Nat
  owner : Owner
  lc : Nat
  src : Nat
  count : Nat
  /-- Blocks that arrived and passed their checks: header, micro-scales and payload as one byte string. -/
  got : List (List Byte)
  /-- Journal sequence number of the record that a refetch replaces (R372). -/
  refetch : Option Nat
  deriving DecidableEq, Repr

/-- What a link has sent and may have to send again: a frame or a control body, with its first LSN and its flits. -/
structure TxEnt where
  lsn : Nat
  n : Nat
  /-- Flits put on the lanes, of which ACK has passed the first `off` (R320). -/
  sent : Nat
  off : Nat
  frame : Option Frame
  ctrl : List Byte
  deriving DecidableEq, Repr

/-- A lane move agreed for an LSN (R323): of the receive or the transmit direction, to a spare or off the link. -/
structure LaneMove where
  rx : Bool
  fail : Nat
  spare : Option Nat
  lsn : Nat
  deriving DecidableEq, Repr

/-- One link controller. Its STATE stands in LNK_STATUS. -/
structure Lnk where
  /-- LSN of the next DATA or CTRL flit, and the LSN its receiver expects (R318, R319). -/
  txNext : Nat
  rxExp : Nat
  retry : List TxEnt
  /-- Flit credits per virtual channel (R322). -/
  credit : List Nat
  /-- Frames that wait for credit, retry space or a detour. -/
  txq : List Frame
  ctrlq : List (List Byte)
  /-- Bytes of the frame being received, and the flits it still needs. -/
  rxPart : List Byte
  rxNeed : Nat
  /-- Frames received whole, oldest first. -/
  rxq : List Frame
  /-- Expected LSN and beacon of the last NAK sent (R319). -/
  nak : Option (Nat × Nat)
  /-- Beacon of the last ACK progress, and replays since (R320, R321). -/
  progAt : Nat
  replays : Nat
  /-- Beacon of the last ACK progress or stall replay. -/
  stallAt : Nat
  /-- Training failures counted (R313). -/
  trainFails : Nat
  /-- Active lanes by position and spare lanes, of the receive and the transmit direction (R314, R323). -/
  rxAct : List Nat
  rxSpare : List Nat
  txAct : List Nat
  txSpare : List Nat
  moves : List LaneMove
  /-- Training phase of Table 11.1, 0 when not training. -/
  phase : Nat
  /-- Configuration in force (R344). -/
  expCoord : Nat
  expSn : Nat
  det0 : Nat
  det1 : Nat
  thresh : Nat
  /-- Declared lost or MISWIRED and not up since (R321, R324). -/
  lost : Bool
  /-- A detour serves the link (R332). -/
  detour : Bool
  /-- Partner's IDENT mode byte, kept as received. -/
  pmode : Nat
  /-- Flits put on the lanes with the lane of each, oldest first (R317). -/
  wire : List (Nat × List Byte)
  /-- The 10 ns slot of the last flit, and the lane positions taken in it. -/
  txSlot : Nat
  txPos : Nat
  deriving DecidableEq, Repr

/-- A link after reset. -/
def Lnk.reset : Lnk :=
  { txNext := 0, rxExp := 0, retry := [], credit := [0, 0, 0, 0], txq := [], ctrlq := [], rxPart := [], rxNeed := 0,
    rxq := [], nak := none, progAt := 0, replays := 0, stallAt := 0, trainFails := 0, rxAct := [], rxSpare := [], txAct := [], txSpare := [],
    moves := [], phase := 0, expCoord := 0, expSn := 0, det0 := 0, det1 := 0, thresh := 16384, lost := false,
    detour := false, pmode := 0, wire := [], txSlot := 0, txPos := 0 }

/-- A laser cartridge bay (R312, R517). -/
structure Cart where
  /-- The presence contact is mated. -/
  fitted : Bool
  /-- It has not failed. -/
  works : Bool
  /-- Full output; half output otherwise. -/
  full : Bool
  /-- Its wavelengths have stabilized. -/
  stable : Bool
  deriving DecidableEq, Repr

/-- Frames of one source that no ACKE has acknowledged: their number and the beacon of the first (R335). -/
structure AckDue where
  n : Nat
  since : Nat
  deriving DecidableEq, Repr

/-- A frame above the ESN its pair expects (R334). -/
structure Reord where
  lc : Nat
  cls : Nat
  frame : Frame
  deriving DecidableEq, Repr

/-- End-to-end state (R528). Keys are 2 × logical coordinate + class. -/
structure E2e where
  tx : SMap Nat
  rx : SMap Nat
  store : List Reord
  due : SMap AckDue
  unack : List Unack
  deriving DecidableEq, Repr

/-- End-to-end state after a reset. -/
def E2e.reset : E2e := { tx := [], rx := [], store := [], due := [], unack := [] }

/-- The translation table (R327, R500). -/
structure Xlat where
  bank0 : SMap Word
  bank1 : SMap Word
  /-- Bank in force. -/
  bank : Bool
  /-- Apply epoch of an armed bank. -/
  armed : Option Nat
  /-- Grid in force with the bank. -/
  dim : Nat
  /-- XLAT_E2E_TMO in force, ms (R336). -/
  tmo : Nat
  /-- Group table address and count in force (R338). -/
  grp : Nat
  grpCount : Nat
  deriving DecidableEq, Repr

/-- Translation after reset. -/
def Xlat.reset : Xlat :=
  { bank0 := [], bank1 := [], bank := false, armed := none, dim := 0, tmo := 10, grp := 0, grpCount := 0 }

/-- A part of a block that has come to the owner of a collective: block index, part number, and its bytes. -/
structure CollPart where
  i : Nat
  k : Nat
  bytes : List Byte
  deriving DecidableEq, Repr

/-- A collective in flight (R337–R340). -/
structure Coll where
  no : Nat
  q : Nat
  step : Nat
  op : Nat
  red : Nat
  sparse : Bool
  satm : Bool
  rnd : Nat
  members : List Nat
  rank : Nat
  root : Nat
  collid : Nat
  first : Nat
  nblk : Nat
  sd : Desc
  dd : Desc
  /-- Block indices whose result stands here. -/
  fin : List Nat
  /-- Parts that this owner holds until a block is whole. -/
  parts : List CollPart
  /-- Parts this member has added to and sent on: block index and part. -/
  sent : List (Nat × Nat)
  /-- Passes of a barrier seen. -/
  passes : Nat
  status : Nat
  /-- A fold compare (R357): its step, and the 128 bytes of its block, replaced by the result. -/
  fold : Option (Nat × List Byte)
  deriving DecidableEq, Repr

/-- Kinds of journal records (Table 13.2). -/
inductive JKind where
  | rxLink | rxHost | txLink
  deriving DecidableEq, Repr

/-- A journal record (Table 13.2), kept in structured form. -/
structure JRec where
  kind : JKind
  step : Nat
  jseq : Nat
  peer : Nat
  /-- The frame as it was received or sent; for a host record its body is the data. -/
  frame : Frame
  /-- ORIGIN of a host record. -/
  origin : List Byte
  /-- Matched in the current attempt of its step (R370, R371). -/
  matched : Bool
  /-- Re-delivered in the current attempt of its step (R370). -/
  redone : Bool
  deriving DecidableEq, Repr

/-- A frame whose record waits to be admitted (R366): one to be delivered, or one to be sent for an owner. -/
structure JWait where
  tx : Bool
  frame : Frame
  owner : Owner
  collid : Nat
  deriving DecidableEq, Repr

/-- The afterglow journal (R362–R373). -/
structure Agl where
  recs : List JRec
  jseq : Nat
  /-- Frames that wait to be admitted, oldest first (R366). -/
  wait : List JWait
  /-- Steps whose first wait has raised EVT_AGL_FULL. -/
  fullSeen : List Nat
  /-- Steps whose RX records were released at their seal, their TX records kept as the send journal (R367). -/
  sent : Option Nat
  /-- Keys of the RX records released at the last seal, matched when their frames arrive under the current epoch (R373). -/
  served : List JRec
  deriving DecidableEq, Repr

/-- An empty journal. -/
def Agl.reset : Agl := { recs := [], jseq := 0, wait := [], fullSeen := [], sent := none, served := [] }

/-- The epoch agreement of R524. -/
structure Agree where
  /-- The epoch being agreed. -/
  epoch : Nat
  /-- An agreement is in progress. -/
  active : Bool
  /-- This module holds a cause 0x01 that no applied result has covered. -/
  flag : Bool
  /-- Lowest step abandoned under the epoch, 0xFFFF_FFFF for none. -/
  low : Nat
  /-- The phase-0 frame of the epoch has been sent or forwarded. -/
  sent0 : Bool
  deriving DecidableEq, Repr

/-- No agreement. -/
def Agree.reset : Agree := { epoch := 0, active := false, flag := false, low := u32Max, sent0 := false }

/-- Timers of the module. A timer holds the beacon value at which it expires. -/
inductive Tmr where
  | drain (n : Nat) | vote (n : Nat) | agreeNotice | agreePhase0
  | train (l : Nat) | laneWin (l : Nat) | laneRetrain (l : Nat) | ident (l : Nat) | detour (l : Nat)
  | cartStable | refl | reflReport | cert (k : Nat) | certRetry (k : Nat) | band | decay | healthSend
  | ceMinute (k : Nat) | stackTemp (k : Nat) | scrub (k : Nat) | retrain (k : Nat)
  | rto (k : Nat) | keepalive | silence | creditRep | bulk (k : Nat) | mgmtResend
  | pwrSample | capStep | thermal | wake | autodim | phase | jobReset | wdog | dieReset (d : Nat) | stage
  deriving DecidableEq, Repr

/-- An entry of the expert owner table (Table 5.8). -/
structure OwnerEnt where
  inBase : Nat
  inSb : Nat
  outBase : Nat
  outSb : Nat
  inTensor : Nat
  outTensor : Nat
  first : Nat
  lc : Nat
  die : Nat
  share : Nat
  deriving DecidableEq, Repr

/-- An entry of an index list (Table 5.7). -/
structure IdxEnt where
  token : Nat
  expert : Nat
  rank : Nat
  ovr : Bool
  nan : Bool
  weight : Nat
  slot : Nat
  deriving DecidableEq, Repr

/-- A COMBINE that has begun: the owner table and the index list it began with (R163). -/
structure Comb where
  no : Nat
  tbl : List OwnerEnt
  ents : List IdxEnt
  deriving DecidableEq, Repr

end Sys2Proof.Machine
end

