-- ==== Sys2Proof/Machine/PartsUnit.lean ====
section
/-! DEFINITION. State of the tensor units, their bands, prism references and certification (R130–R136, R349–R354,
R386, R387). -/
namespace Sys2Proof.Machine

/-- One physical unit. -/
structure UnitRec where
  eclipsed : Bool
  retired : Bool
  /-- Fenced bands in force. -/
  fence : Nat
  /-- The spare reserved for the unit's fence. -/
  rsv : Option Nat
  /-- Temperature band (R135). -/
  band : Nat
  /-- Band and beacon of the first class A mismatch of its eclipse window (R130). -/
  first : List (Nat × Nat)
  /-- The logical index the unit serves as its own; a spare has none. -/
  home : Option Nat
  /-- EVT_CERT_WAIT was raised while the unit waits for a spare (R387). -/
  certWait : Bool
  /-- Partner of a running certification. -/
  partner : Option Nat
  deriving DecidableEq, Repr

/-- Unit `k` (66 × region + number) as the map starts out. -/
def UnitRec.reset (k : Nat) : UnitRec :=
  { eclipsed := false, retired := false, fence := 0, rsv := none, band := 0, first := [],
    home := if k % 66 < 64 then some (k % 66) else none, certWait := false, partner := none }

/-- One record of the band table (R354). -/
structure BandRec where
  runs : Nat
  prism : Nat
  abft : Nat
  deriving DecidableEq, Repr

/-- An empty record. -/
def BandRec.zero : BandRec := { runs := 0, prism := 0, abft := 0 }

/-- What is being certified (R386). -/
inductive CertWhat where
  | unit (rg u : Nat)
  | die (d : Nat)
  | module
  deriving DecidableEq, Repr

/-- A certification: running, or waiting to repeat; the bands it has exercised. -/
structure Cert where
  what : CertWhat
  running : Bool
  /-- Beacon at which the run ends, or at which it repeats. -/
  at_ : Nat
  deriving DecidableEq, Repr

end Sys2Proof.Machine
end

