-- ==== Sys2Proof/Machine/PartsPwr.lean ====
section
/-! DEFINITION. State of power, boot, flash and fuses (ch. 16, ch. 17). -/
namespace Sys2Proof.Machine

/-- The power states of Table 16.4, and a module without power or in boot. -/
inductive PwrSt where
  | run | dim | dusk | shade | dark
  /-- Power-up phases B0 to B7 (Table 16.5). -/
  | boot
  /-- Every rail off. -/
  | off
  deriving DecidableEq, Repr

/-- The STATE code of a state of the ladder (Table 16.8). -/
def PwrSt.code : PwrSt → Nat
  | .run => 0 | .dim => 1 | .dusk => 2 | .shade => 3 | .dark => 4 | .boot => 2 | .off => 4

/-- A prism burst as a comparator holds it (R352): the reporter (82 × region + index), its digest, the burst's kind, and
the island's temperature (0.25 °C), voltage (mV), frequency (MHz) and the beacon at its start. -/
structure PrismRep where
  idx : Nat
  dig : Nat
  kind : Nat
  temp : Nat
  volt : Nat
  freq : Nat
  start : Nat
  deriving DecidableEq, Repr

/-- Digests of one burst number on one die, of units or of vector engines (R352). -/
structure PrismRef where
  die : Nat
  vec : Bool
  b : Nat
  got : List PrismRep
  ref : Option Nat
  /-- The burst number was discarded. -/
  gone : Bool
  deriving DecidableEq, Repr

/-- Per reporter: its next burst number, and the value of the credit clock at which its credit was 0 (R349). -/
structure PrismSt where
  b : Nat
  base : Nat
  deriving DecidableEq, Repr

/-- A reporter that has run no burst. -/
def PrismSt.reset : PrismSt := { b := 0, base := 0 }

/-- The power controller, clocks, boot and die states (ch. 16, R386–R389). -/
structure Pwr where
  /-- Target in force (PWR_STATUS.TARGET). -/
  target : Nat
  /-- A request that waits for the end of a transition (R452). -/
  req : Option Nat
  /-- A wake event stopped an entry: the stage under way ends first (R452). -/
  stop : Bool
  /-- Time spent in dark, in bt, as the wake logic counts it (R193). -/
  dark : Nat
  /-- Frequency cap of the power limit, in MHz (R442). -/
  cap : Nat
  /-- The 1 ms average exceeds PWR_CAP (R442). -/
  ovr : Bool
  /-- Beacon of the last EVT_PWR_CAP (R442). -/
  capAt : Option Nat
  /-- A coolant limit is exceeded (R449). -/
  coolant : Bool
  /-- Level of the hub's own sensors (R449). -/
  hubLevel : Nat
  /-- Level that the last EVT_THERM_LEVEL of dies 0–3 and of the hub (4) carried, and its beacon (R446). -/
  level : SMap (Nat × Option Nat)
  /-- PWR_BOOT.STAGE and ERR (R457). -/
  stage : Nat
  err : Nat
  /-- Phase B4 has ended: it runs alongside B3 (Table 16.5). -/
  b4 : Bool
  /-- Dies whose rails a fault switched off (R441). -/
  railOff : BitVec 4
  /-- Dies in eclipse (R386). -/
  dieEcl : BitVec 4
  /-- Dies in degrade (R389). -/
  degraded : BitVec 4
  /-- Dies whose reset is under way (R459). -/
  dieRst : BitVec 4
  /-- Stacks in full training after dark (R455). -/
  train : BitVec 32
  /-- A job reset waits for a sealed step; true for that of a JOB_RELEASE (R461, R452). -/
  jobWait : Option Bool
  /-- The module has left the step group of its job through die degrade (R389). -/
  left : Bool
  /-- PWR_EN is mated (R511). -/
  enabled : Bool
  /-- Straps [1:0] of the I3C static address (R434). -/
  straps : BitVec 2
  /-- The I3C target's dynamic address (R434). -/
  i3cAddr : Option Nat
  /-- Mandatory bytes of the in-band interrupts raised, oldest first (R434). -/
  ibi : List Nat
  /-- Beacon at which a unit, vector or routing engine last had work, or run began (R453). -/
  idleAt : Nat
  /-- Beacon of the entry into dusk, shade or dark (R456). -/
  lowAt : Nat
  /-- A sensor of dies 0–3 or of the hub (4) was below −20 °C at the last sample (R476). -/
  cold : BitVec 5
  deriving DecidableEq, Repr

/-- The power controller at the end of B7 (R462). -/
def Pwr.reset : Pwr :=
  { target := 2, req := none, stop := false, dark := 0, cap := 1200, ovr := false, capAt := none, coolant := false,
    hubLevel := 0, level := [], stage := 8, err := 0, b4 := true, railOff := 0, dieEcl := 0, degraded := 0, dieRst := 0,
    train := 0, jobWait := none, left := false, enabled := true, straps := 0, i3cAddr := none, ibi := [], idleAt := 0, lowAt := 0, cold := 0 }

/-- A running image: its security version and measurement (R467). -/
structure ImgRun where
  svn : Nat
  meas : List Byte
  deriving DecidableEq, Repr

/-- An alarm record in flash (R477): source (Table 17.6 order), beacon and temperature (0.25 °C). -/
structure Alarm where
  source : Nat
  beacon : Nat
  temp : Int
  deriving DecidableEq, Repr

/-- The security core: fuses, flash and RAM (ch. 17). -/
structure Sec where
  /-- ROOT0–ROOT3; all zero for an empty slot. -/
  roots : List (List Byte)
  revoke : BitVec 4
  /-- Fused counters of types 0–3. -/
  svn : List Nat
  debugKey : List Byte
  /-- LIFECYCLE: 0 MANUFACTURE, 1 PROVISIONED, 2 ERASED. -/
  life : Nat
  /-- MAC0–MAC2. -/
  macs : List Nat
  /-- The identity key is in flash, and its certificate. -/
  hasKey : Bool
  cert : List Byte
  /-- Power-on and module resets since manufacture. -/
  boots : Nat
  /-- Alarms since manufacture, and the ring of 256 records, newest first. -/
  alarms : Nat
  ring : List Alarm
  /-- Running images of types 0–3. -/
  imgs : List ImgRun
  romVer : Nat
  /-- The current debug-unlock challenge. -/
  chal : Option (List Byte)
  /-- Manifest streams of the two channels. -/
  stream : List (Option (List Byte))
  /-- Alarms that the wake logic latched in dark: source and temperature (R476). -/
  latched : List (Nat × Int)
  /-- Band table in flash (R354). -/
  bands : SMap BandRec
  deriving DecidableEq, Repr

/-- The security core at the end of B7. Fuses and flash of a part are given nowhere: none is programmed here. -/
def Sec.reset : Sec :=
  { roots := List.replicate 4 (List.replicate 32 0), revoke := 0, svn := [0, 0, 0, 0], debugKey := List.replicate 32 0,
    life := 1, macs := [0, 0, 0], hasKey := true, cert := [], boots := 1, alarms := 0, ring := [],
    imgs := List.replicate 4 { svn := 0, meas := List.replicate 32 0 }, romVer := 0, chal := none,
    stream := [none, none], latched := [], bands := [] }

end Sys2Proof.Machine
end

