-- ==== Sys2Proof/Machine/PartsScl.lean ====
section
/-! DEFINITION. State of scale management (ch. 08): estimator table in force, accumulators, loss scale, fade. -/
namespace Sys2Proof.Machine

/-- Configuration of an estimator slot in force (Table 8.1, R231). -/
structure EstCfg where
  desc : Nat
  mode : Nat
  margin : Nat
  bump : Nat
  pow2 : Bool
  alpha : Nat
  xmin : Nat
  xmax : Nat
  range : Nat
  deriving DecidableEq, Repr

/-- One accumulator of a slot (R233); `m` is an FP32 code. -/
structure EstAcc where
  m : Nat
  got : Bool
  sat : Nat
  flush : Nat
  mblocks : Nat
  nonfin : Nat
  /-- EVT_SAT_OVERFLOW of this attempt was raised (R236). -/
  raised : Bool
  deriving DecidableEq, Repr

/-- A cleared accumulator. -/
def EstAcc.zero : EstAcc := { m := 0, got := false, sat := 0, flush := 0, mblocks := 0, nonfin := 0, raised := false }

/-- One fade group (R251, R252). -/
structure Fade where
  count : Nat
  /-- Count at which EVT_FADE was last raised; 0 for none in this run. -/
  lastEvt : Nat
  uflow : Bool
  deriving DecidableEq, Repr

/-- Gradient blocks of a fade group that the update engines consumed in a step (R251). -/
structure FadeRep where
  blocks : Nat
  zeros : Nat
  uflow : Nat
  deriving DecidableEq, Repr

/-- Scale management. -/
structure Scl where
  /-- Slots in force whose MODE is 1 or 2. -/
  est : SMap (Option EstCfg)
  /-- SCL_EST_COUNT and table address in force. -/
  estCount : Nat
  estAddr : Nat
  /-- SCL_APPLY.EST waits for the next step open (R231). -/
  estPend : Bool
  /-- Accumulators, 2 × slot + parity. -/
  acc : SMap EstAcc
  /-- Loss-scale exponent e (R245). -/
  ls : Nat
  /-- Change point j, unset after reset (R245). -/
  lsJ : Option Nat
  lsMin : Nat
  lsMax : Nat
  lsWindow : Nat
  /-- Job seed in force (R250). -/
  seed : Nat
  fade : SMap Fade
  /-- Reports of the current attempt, 4,096 × parity + group. -/
  fadeRep : SMap FadeRep
  /-- Dies that raised EVT_SAT_OVERFLOW for tensors without a slot: die, step, epoch (R236). -/
  noslotSeen : List (Nat × Nat × Nat)
  deriving DecidableEq, Repr

/-- A fade group at rest. -/
def Fade.zero : Fade := { count := 0, lastEvt := 0, uflow := false }
/-- No report. -/
def FadeRep.zero : FadeRep := { blocks := 0, zeros := 0, uflow := 0 }

/-- Scale management after reset: e = 16, no change point (R245). -/
def Scl.reset : Scl :=
  { est := [], estCount := 0, estAddr := 0, estPend := false, acc := [], ls := 16, lsJ := none, lsMin := 0, lsMax := 32,
    lsWindow := 2000, seed := 0, fade := [], fadeRep := [], noslotSeen := [] }

end Sys2Proof.Machine
end

