-- ==== Sys2Proof/Machine/State.lean ====
section
/-! DEFINITION. The state of the module, the reasons a command can stop, and the state after reset. -/
namespace Sys2Proof.Machine

set_option maxRecDepth 4000

/-- Why the machine stops. -/
inductive Fault where
  /-- Raised by a command of a block in which a LIVE bit was changed: its behaviour is undefined until the next
  power-on or module reset (R488). Safe: the model stops where the module may do anything. -/
  | taintedBlock
  deriving DecidableEq, Repr

/-- Why a command is refused. -/
inductive Refusal where
  /-- Raised by a dispatch arm that has no meaning yet. Safe: nothing is claimed of it. -/
  | notModelled (mnemonic : String)
  deriving DecidableEq, Repr

/-- The state of the module. -/
structure State where
  /-- Commands that wait, first in, first out. -/
  pending : List Instr
  /-- The part: true for CLV-Z9M-A6, false for CLV-Z9M-A3 (R1). -/
  partA6 : Bool
  /-- Bit n: MDn in service (R28, HUB_ID.DIES). -/
  dies : BitVec 4
  /-- Bit n: MDn powered (R441, R484). -/
  diePower : BitVec 4
  /-- The beacon (R188). -/
  beacon : Nat
  /-- Bytes of the device address space below the registers (Table 1.6). -/
  mem : SMap Byte
  /-- Poisoned 32-byte sectors, by address / 32 (R275). -/
  poison : List Nat
  /-- Registers, by offset from 0xF000_0000_0000 (R483). -/
  regs : SMap Word
  /-- Sync objects, 4,096 × die + index (R182). -/
  objs : SMap Word
  /-- The cluster sequencers, 64 × die + 16 × region + cluster (Table 6.2). -/
  seqs : SMap Seq
  /-- Engine instructions issued and not complete, in issue order (R171). -/
  ops : List EngOp
  /-- Issue number of the next engine instruction or held signal. -/
  opNo : Nat
  /-- Sequencer last served by each shared engine (R172). -/
  rr : SMap Nat
  /-- SYNC operations held behind earlier transfers (R17, R186). -/
  sigs : List HeldSig
  /-- The event router (R431). -/
  evt : Evt
  /-- Parameter page tables in force: MD0–MD3 and the slow tier (R302). -/
  pages : List PageSet
  /-- Region caches, 4 × die + region (R257). -/
  cache : SMap (List CLine)
  /-- Afterglow journal size in force, GiB (R265, R362). -/
  aglGiB : Nat
  /-- Committed step of the slow-tier page table's reflection (R302, R377). -/
  reflN : Nat
  /-- Committed step number: the page-set selector (R31, R42). -/
  commitN : Nat
  /-- Open step number (R31). -/
  openN : Nat
  /-- Epoch (R32). -/
  epoch : Nat
  /-- Steps between OPEN and COMMITTED, in ascending order (R36). -/
  steps : List StepRec
  /-- Step attempts whose EVT_BCN_OVERRUN was raised: die, step, epoch (R190). -/
  ovrSeen : List (Nat × Nat × Nat)
  /-- HI latches (R140, R482): per path, the counter's LO offset from 0xF000_0000_0000 and the latched high word. -/
  latches : SMap (Option (Nat × Word))
  /-- The module stops issuing work after a commit failure (R41). -/
  stopIssue : Bool
  /-- Issue held by the input power limit (R442). -/
  holdIssue : Bool
  /-- Scale management (ch. 08). -/
  scl : Scl
  /-- Health weights in force (R391, R504). -/
  hlthW : List Nat
  /-- Score at the last EVT_HEALTH, and the beacon of that event (R392). -/
  hlthSent : Nat × Option Nat
  /-- Interrupts delivered to control cores: die, core, interrupt source (R185), oldest first. -/
  irqs : List (Nat × Nat × Nat)
  /-- Result of the last core memory access on each path, oldest first. -/
  coreOut : List (Path × CoreResult)
  /-- The link controllers LNK0 to LNK5 (R310–R344). -/
  links : SMap Lnk
  /-- End-to-end sequencing between modules (R528). -/
  e2e : E2e
  /-- The translation banks and the group table in force (R327, R338, R500). -/
  xlat : Xlat
  /-- First status that a receiver's STATUS frame or a timeout gave the work of an owner (R336, R527). -/
  ostat : List (Owner × Nat)
  /-- READs of this module whose blocks have not all arrived (R526). -/
  reads : List ReadReq
  /-- Tag of the next READ. -/
  readTag : Nat
  /-- Hub-addressed frames that were delivered and wait for the hub (R372, R376). -/
  hubIn : List Frame
  /-- Collectives in flight (R337–R340). -/
  colls : List Coll
  /-- Ring frames of the step vote that this rank holds until its own step is VOTING (R340). -/
  voteIn : List Frame
  /-- The afterglow journal (R362–R373). -/
  agl : Agl
  /-- The last sealed step and its digest (R47). -/
  lastSeal : Option (Nat × List Byte)
  /-- The epoch agreement (R524). -/
  agree : Agree
  /-- Armed timers: each with the beacon value at which it expires. -/
  timers : List (Tmr × Nat)
  /-- The held open request (R523). -/
  heldOpen : Option Nat
  /-- The drain limit in force, in ms (R38, HUB_STEP_APPLY). -/
  drainMs : Nat
  /-- The vote limit in force, in ms (R38, HUB_STEP_APPLY). -/
  voteMs : Nat
  /-- Load reservations of cores: path and 64-byte line (R200). -/
  resv : List (Path × Nat)
  /-- Writing instructions that have raised EVT_BAD_SCALE, by issue number + 1 (R79). -/
  badWr : List Nat
  /-- Correctable-error rates: HC k under k, LPC k under 64 + k (R277). -/
  ceRate : SMap CeRate
  /-- Flicker (R396). -/
  flk : Flk
  /-- Throttle reports: HC k under k, LPC k under 64 + k, die d under 128 + d (R279). -/
  thr : SMap Thr
  /-- The migration engine (R267). -/
  mig : Mig
  /-- Dual-execute in force (R347). -/
  dualOn : Bool
  /-- Tensor units, 66 × region + number (R132). -/
  units : SMap UnitRec
  /-- The band table (R354). -/
  bands : SMap BandRec
  /-- Clusters whose gang mode waits for idle members (R106). -/
  gangReq : List Nat
  /-- COLL and ZRUN frames of collectives that this module has not started yet (R339). -/
  collIn : List Frame
  /-- Owner tables in force, by die (R163). -/
  owners : SMap (List OwnerEnt)
  /-- COMBINE instructions that have sent their READs (R166). -/
  combs : List Comb
  /-- CHK_FOLD_CTL.K in force (R356, R361); 0 for no fold steps. -/
  foldK : Nat
  /-- CHK_FOLD_GROUP in force when VALID (R357, R361). -/
  foldGrp : Option Nat
  /-- Fold of the blocks that the update engines have written for the sealed step (R356). -/
  foldA : Fold
  /-- Fold over masters and moments alone (R379). -/
  foldB : Fold
  /-- Fold of the held reflection's writes (R356). -/
  foldR : Fold
  /-- Fold step whose compare has not passed (R357). -/
  foldBusy : Option Nat
  /-- CHK_APPLY waits for the next step open (R361). -/
  chkPend : Bool
  /-- UPD_APPLY.SET bits that wait for the next step open (R306). -/
  updPend : BitVec 5
  /-- HUB_REFL_BUDDY in force (R374, R393). -/
  buddy : Option Nat
  /-- HUB_REFL_WARD in force (R374, R393). -/
  ward : Option Nat
  /-- HUB_REFL_LATE in force (R378, R393). -/
  lateMs : Nat
  /-- HUB_CERT_CTL.SECONDS in force (R386, R393). -/
  certSec : Nat
  /-- HUB_CERT_CTL.RETRY in force (R386, R393). -/
  certRetry : Nat
  /-- UPD instructions that wait for a free frame (R304). -/
  updWait : List Nat
  /-- Steps whose first wait raised EVT_UPD_FRAME_WAIT (R304). -/
  frameWaitSeen : List Nat
  /-- Reflection bundles held for the ward (R375). -/
  bundles : List Bundle
  /-- Step of the last REFL_DONE of the buddy (R377). -/
  reflDone : Nat
  /-- Own folds over masters and moments that wait for the buddy's record (R379). -/
  reflWard : List (Nat × Fold)
  /-- Reflection fold records that came before their own fold (R379). -/
  reflGot : List (Nat × Fold)
  /-- Last fold step whose compare passed in a group of more than one member (R379). -/
  foldPassed : Option Nat
  /-- The held reflection is being rebuilt (R380). -/
  resyncing : Bool
  /-- Certifications that run or wait to repeat (R386). -/
  certs : List Cert
  /-- Prism burst numbers with reports (R352). -/
  prisms : List PrismRef
  /-- The job session (R418). -/
  sess : Option Sess
  /-- Work orders accepted and not retired, in acceptance order (R426). -/
  orders : List Order
  /-- Number of the next work order. -/
  orderNo : Nat
  /-- Completion records that wait: queue and record (R421). -/
  compl : List (Nat × List Byte)
  /-- CWT frames put on the network, oldest first. -/
  cwtOut : List CwtOut
  /-- ESEQ of the next event record for the host (R432). -/
  hostSent : Nat
  /-- Bulk sessions with sinks (R430). -/
  bulks : List Bulk
  /-- Objects in transfer (R430). -/
  objects : List BulkObj
  /-- The snapshot that is held (R395). -/
  snap : Option Snap
  /-- Held frames that found their free-frame stack full: page set and frame (R399). -/
  snapLeft : List (Nat × Nat)
  /-- The deferred snapshot is one that flicker asked for (R395, R397). -/
  deferAuto : Bool
  /-- Requested snapshot step; 0 for the next flip (R394). -/
  snapReq : Option Nat
  /-- A trigger that fell on a held snapshot: the step of its flip (R395). -/
  snapDefer : Option Nat
  /-- CKPT_JOB in force (R405). -/
  ckptJob : Nat
  /-- Sink table in force (R405). -/
  ckptSinks : List SinkEnt
  /-- Trust list in force (R410). -/
  ckptTrust : List (List Byte)
  /-- CKPT_APPLY waits for the next snapshot or restore (R405). -/
  ckptPend : Bool
  /-- The restore in progress or READY (R409). -/
  rst : Option Rst
  /-- The management lane (R435). -/
  mgmt : Mgmt
  /-- CHK_PRISM_CTL in force (R349, R361). -/
  prismCtl : Word
  /-- CHK_PRISM_SEED in force (R350, R361). -/
  prismSeed : Nat
  /-- The module is in eclipse (R386). -/
  eclipsed : Bool
  /-- The power state (R450). -/
  pwr : PwrSt
  /-- Prism reporters, 82 × region + index (R349). -/
  prismSt : SMap PrismSt
  /-- By region: prism credit that a reporter which never ran a burst would have without its cap, in 8,000ths of a clk (R349). -/
  prismClk : SMap Nat
  /-- CWT_CFG in force (R439). -/
  cwtCfg : Word
  /-- CWT_WIN in force (R439). -/
  cwtWin : Word
  /-- CWT_TMR in force (R439). -/
  cwtTmr : Word
  /-- ETH_CTL, ETH_PFC and ETH_PFC_WM of the ports in force (R439). -/
  ethCfg : List (Word × Word × Word)
  /-- The laser cartridge bays (R312, R517). -/
  carts : List Cart
  /-- Thermally tripped until a module reset (R448). -/
  tripped : Bool
  /-- Work orders of the session that have retired: queue and ORDER (R429). -/
  retired : List (Nat × Nat)
  /-- Paused priorities: port and priority (R413). -/
  pfc : List (Nat × Nat)
  /-- CWT frames that wait for a paused priority. -/
  cwtHeld : List CwtOut
  /-- Answers of the ports to neighbor and echo requests (R413). -/
  ethOut : List EthMsg
  /-- The OSFP plugs (R514). -/
  osfp : List (Option Osfp)
  /-- The snapshot of the reflection that this module holds as a buddy (R404). -/
  rsnap : Option Snap
  /-- Number of the identity key in flash (R471, R475). -/
  keyNo : Nat
  /-- This ward's reflection is being rebuilt at its buddy, and REFL_DONE is awaited (R380). -/
  resyncOut : Bool
  /-- Committed step of the ward whose resynchronization this buddy takes (R380). -/
  resyncAt : Nat
  /-- What the last reflection fold record showed of this ward's reflection: 0 nothing, 2 CURRENT, 3 STALE (R379). -/
  reflMark : Nat
  /-- The power controller, clocks and boot (ch. 16). -/
  pw : Pwr
  /-- The security core (ch. 17). -/
  sec : Sec
  /-- An abandonment was refused at the last epoch: the steps hold their state until the job restarts (R32). -/
  epochHold : Bool
  /-- Abandonments for an overflow or a NaN in the vote: the overflow counter of R45. -/
  ovfCount : Nat
  /-- Bytes in the ingress buffer of each port (R424). -/
  ethBuf : List Nat
  /-- The bundle that the reflection applied last, for a spare promoted in the ward's place (R383, P4). -/
  lastBundle : Option Bundle
  /-- A translation bank moved the ward's coordinate to a promoted spare, which waits for the reflection (R383, P4). -/
  wardNew : Bool
  /-- A translation bank moved the buddy's coordinate: the reflection is to be rebuilt there (R385). -/
  buddyNew : Bool
  /-- Blocks whose behaviour is undefined since a LIVE bit changed (R488). -/
  tainted : List Blk
  /-- The model's own counter that free values are drawn with. -/
  free : Nat
  deriving DecidableEq, Repr

/-- The machine right after reset: the end of power-up phase B7 (R462). -/
def State.reset : State :=
  { pending := [], partA6 := true, dies := 15, diePower := 15, beacon := 0, mem := [], poison := [], regs := [(0x10001000, 2)],
    objs := [], seqs := [], ops := [], opNo := 0, rr := [], sigs := [],
    evt := { mgmt := .reset, host := .reset, raised := 0, last := 0, evsev := 1 },
    pages := [], cache := [], aglGiB := 512, reflN := 0, commitN := 0, openN := 0, epoch := 0, steps := [], ovrSeen := [], latches := [], stopIssue := false,
    holdIssue := false, scl := .reset, hlthW := hlthWeights, hlthSent := (1000, none), irqs := [], coreOut := [], links := [],
    e2e := .reset,
    xlat := .reset,
    ostat := [],
    reads := [],
    readTag := 0,
    hubIn := [],
    colls := [],
    voteIn := [],
    agl := .reset,
    lastSeal := none,
    agree := .reset,
    timers := [],
    heldOpen := none,
    drainMs := 500,
    voteMs := 500,
    resv := [],
    badWr := [],
    ceRate := [],
    flk := .reset,
    thr := [],
    mig := .reset,
    dualOn := false,
    units := [],
    bands := [],
    gangReq := [],
    collIn := [],
    owners := [],
    combs := [],
    foldK := 100,
    foldGrp := none,
    foldA := .zero,
    foldB := .zero,
    foldR := .zero,
    foldBusy := none,
    chkPend := false,
    updPend := 0,
    buddy := none,
    ward := none,
    lateMs := 1000,
    certSec := 45,
    certRetry := 60,
    updWait := [],
    frameWaitSeen := [],
    bundles := [],
    reflDone := 0,
    reflWard := [],
    reflGot := [],
    foldPassed := none,
    resyncing := false,
    certs := [],
    prisms := [],
    sess := none,
    orders := [],
    orderNo := 0,
    compl := [],
    cwtOut := [],
    hostSent := 0,
    bulks := [],
    objects := [],
    snap := none,
    snapLeft := [],
    deferAuto := false,
    snapReq := none,
    snapDefer := none,
    ckptJob := 0,
    ckptSinks := [],
    ckptTrust := [],
    ckptPend := false,
    rst := none,
    mgmt := .reset,
    prismCtl := 0x7F0051,
    prismSeed := 0,
    eclipsed := false,
    pwr := .dusk,
    prismSt := [],
    prismClk := [],
    cwtCfg := 0xBF220140,
    cwtWin := 0x01001000,
    cwtTmr := 0x00C807D0,
    ethCfg := [(0x4651, 0xCD, 0x300020), (0x4651, 0xCD, 0x300020)],
    carts := List.replicate 2 { fitted := true, works := true, full := false, stable := true },
    tripped := false,
    retired := [],
    pfc := [],
    cwtHeld := [],
    ethOut := [],
    osfp := [some { lowPower := false }, some { lowPower := false }],
    rsnap := none,
    keyNo := 0,
    resyncOut := false,
    resyncAt := 0,
    reflMark := 0,
    pw := .reset,
    sec := .reset,
    epochHold := false,
    ovfCount := 0,
    ethBuf := [0, 0],
    lastBundle := none,
    wardNew := false,
    buddyNew := false,
    tainted := [], free := 0 }

end Sys2Proof.Machine
end

