-- ==== Sys2Proof/Machine/Ops.lean ====
section
/-! DEFINITION. The named operations over registers, events, counters, addresses, memory and sync objects. Every
meaning goes through these. -/
namespace Sys2Proof.Machine

/-! ## Outcomes -/

/-- The outcome of a command that acts on the given blocks: a fault when one of them is tainted (R488), else the
next state. -/
def run (bs : List Blk) (f : State → State) (s : State) : Host.Outcome State Fault Refusal :=
  if bs.any (fun b => s.tainted.contains b) then .fault .taintedBlock else .next (f s)

/-! ## Registers as stored -/

/-- The stored word of a register. -/
def regAt (s : State) (b : Blk) (o : Nat) : Word := smGet regRst s.regs (b.base + o)

/-- Store a word at a register. -/
def setReg (s : State) (b : Blk) (o : Nat) (w : Word) : State :=
  { s with regs := smPut regRst s.regs (b.base + o) w }

/-- Field [hi:lo] of a register as stored. -/
def fld (s : State) (b : Blk) (o hi lo : Nat) : Nat := bits (regAt s b o).toNat hi lo

/-- Replace field [hi:lo] of a register. -/
def setFld (s : State) (b : Blk) (o hi lo v : Nat) : State :=
  setReg s b o (BitVec.ofNat 32 (putBits (regAt s b o).toNat hi lo v))

/-- One bit of a register as stored. -/
def rbit (s : State) (b : Blk) (o n : Nat) : Bool := bitAt (regAt s b o).toNat n

/-- A 48-bit address held in a LO and a HI register. -/
def addr48 (s : State) (b : Blk) (lo hi : Nat) : Nat :=
  (regAt s b lo).toNat + fld s b hi 15 0 * 4294967296

/-! ## Events (R431, R432, R506, R507) -/

/-- The 48 bytes of an event record (Table 15.7). -/
def evRecord (code sev wh beacon epoch step eseq lost : Nat) (args : List Byte) : List Byte :=
  leBytes 2 code ++ leBytes 1 sev ++ [0] ++ leBytes 4 wh ++ leBytes 8 beacon ++ leBytes 4 epoch ++ leBytes 4 step
    ++ leBytes 4 eseq ++ leBytes 4 lost ++ padTo 16 args

/-- Store a head record and its continuations together, or count each of them as lost (R432, R507). -/
def ringPush (r : EvRing) (code sev wh beacon epoch step : Nat) (cs : List (List Byte)) : EvRing :=
  if r.recs.length + cs.length ≤ 4096 then
    let rs := (List.range cs.length).map (fun k =>
      evRecord (if k = 0 then code else 1) sev wh beacon epoch step ((r.eseq + k) % u32Mod)
        (if k = 0 then r.lostSince else 0) (cs.getD k []))
    { r with recs := r.recs ++ rs, eseq := (r.eseq + cs.length) % u32Mod, lostSince := 0 }
  else
    { r with lostSince := min u32Max (r.lostSince + cs.length), lost := min u32Max (r.lost + cs.length),
             sat := r.sat || decide (u32Max ≤ r.lost + cs.length) }

/-- Route one event to the rings (R432). -/
def evtStore (e : Evt) (beacon epoch : Nat) (ev : Ev) (wh step : Nat) (args : List EArg) : Evt :=
  let cs := argChunks (packArgs [] args)
  { e with
    mgmt := ringPush e.mgmt ev.code ev.sev wh beacon epoch step cs
    host := if e.evsev ≤ ev.sev then ringPush e.host ev.code ev.sev wh beacon epoch step cs else e.host
    raised := (e.raised + 1) % 2 ^ 64
    last := ev.code }

/-- Raise an event; a lost-record counter that sticks raises EVT_CNT_SAT in its turn (R493). -/
def evtPush (e : Evt) (beacon epoch : Nat) (ev : Ev) (wh step : Nat) (args : List EArg) : Evt :=
  let e1 := evtStore e beacon epoch ev wh step args
  let e2 := if e1.mgmt.sat && !e.mgmt.sat then
    evtStore e1 beacon epoch .cntSat whHub 0 [a64 (0xF00000000000 + Blk.evt.base + rEvtMgmtLost)] else e1
  if e1.host.sat && !e.host.sat then
    evtStore e2 beacon epoch .cntSat whHub 0 [a64 (0xF00000000000 + Blk.evt.base + rEvtHostLost)] else e2

/-- Raise an event of a step (0 for none). -/
def raise (s : State) (ev : Ev) (wh step : Nat) (args : List EArg) : State :=
  { s with evt := evtPush s.evt s.beacon s.epoch ev wh step args }

/-- Raise an event under a condition. -/
def raiseIf (c : Bool) (s : State) (ev : Ev) (wh step : Nat) (args : List EArg) : State :=
  { s with evt := if c then evtPush s.evt s.beacon s.epoch ev wh step args else s.evt }

/-! ## Counters (R493, R495) -/

/-- Add to a 32-bit counter, which sticks at all ones, sets its SAT bit and raises EVT_CNT_SAT once (R493). -/
def cntAdd (s : State) (b : Blk) (o n : Nat) : State :=
  let v := (regAt s b o).toNat
  let v' := min u32Max (v + n)
  let r1 := smPut regRst s.regs (b.base + o) (BitVec.ofNat 32 v')
  let hit := decide (v < u32Max) && decide (v' = u32Max)
  { s with
    regs := match b.satOf o with
      | some (so, i) =>
        if hit then smUpd regRst r1 (b.base + so) (fun w => BitVec.ofNat 32 (setBit w.toNat i)) else r1
      | none => r1
    evt := if hit && (b.satOf o).isSome then
        evtPush s.evt s.beacon s.epoch .cntSat whHub 0 [a64 (0xF00000000000 + b.base + o)] else s.evt }

/-- Add 1 to a 32-bit counter. -/
def cnt (s : State) (b : Blk) (o : Nat) : State := cntAdd s b o 1

/-- The value of a 64-bit counter by its LO offset. -/
def ctr64 (s : State) (b : Blk) (o : Nat) : Nat :=
  (regAt s b o).toNat + (regAt s b (o + 4)).toNat * 4294967296

/-- Add to a 64-bit counter, modulo 2^64 (R495). -/
def cnt64 (s : State) (b : Blk) (o n : Nat) : State :=
  let v := (ctr64 s b o + n) % 2 ^ 64
  setReg (setReg s b o (BitVec.ofNat 32 v)) b (o + 4) (BitVec.ofNat 32 (v / 4294967296))

/-! ## Address spaces (Table 1.6, R142, R254, R262–R266) -/

/-- What a device address names. -/
inductive Space where
  | fast (die : Nat)
  | slow
  | shared (q : Nat)
  | tile (rg l : Nat)
  | sramHole
  | regs
  | none
  deriving DecidableEq, Repr

/-- Slow-tier packages: 48 on A6, 24 on A3 (R264). -/
def npkg (s : State) : Nat := if s.partA6 then 48 else 24

/-- First address past the slow tier (R266). -/
def slowEnd (s : State) : Nat := if s.partA6 then 0x160000000000 else 0x130000000000

/-- First address past the block-addressable slow tier: its header plane (Table 5.2). -/
def slowHdr (s : State) : Nat := if s.partA6 then 0x15E800000000 else 0x12F400000000

/-- The SRAM window an offset from 0xE000_0000_0000 lies in (Table 9.2). -/
def sramSpace (o : Nat) : Space :=
  let d := o / 0x100000000
  let o1 := o % 0x100000000
  let r := o1 / 0x40000000
  let o2 := o1 % 0x40000000
  if 4 ≤ d then .none
  else if o2 < 0x2000000 then .shared (64 * d + 16 * r + o2 / 0x200000)
  else if 0x4000000 ≤ o2 ∧ o2 < 0x5000000 then .tile (4 * d + r) ((o2 - 0x4000000) / 0x40000)
  else .sramHole

/-- The space of an address (Table 1.6). -/
def spaceOf (s : State) (a : Nat) : Space :=
  if a < 0x28000000000 then .fast (a / 0xA000000000)
  else if 0x100000000000 ≤ a ∧ a < slowEnd s then .slow
  else if 0xE00000000000 ≤ a ∧ a < 0xE00400000000 then sramSpace (a - 0xE00000000000)
  else if 0xF00000000000 ≤ a ∧ a < 0x1000000000000 then .regs
  else .none

/-- Base of the SRAM window of a shared store. -/
def sharedBase (q : Nat) : Nat :=
  0xE00000000000 + q / 64 * 0x100000000 + q / 16 % 4 * 0x40000000 + q % 16 * 0x200000

/-- Base of the SRAM window of a tile store. -/
def tileBase (rg l : Nat) : Nat :=
  0xE00000000000 + rg / 4 * 0x100000000 + rg % 4 * 0x40000000 + 0x4000000 + l * 0x40000

/-- Base, block-addressable end and header plane base of a block-addressable space (Table 5.2). -/
def planeOf (s : State) (a : Nat) : Option (Nat × Nat × Nat) :=
  match spaceOf s a with
  | .fast d => some (d * 0xA000000000, d * 0xA000000000 + 0x9D80000000, d * 0xA000000000 + 0x9D80000000)
  | .slow => some (0x100000000000, slowHdr s, slowHdr s)
  | .shared q => some (sharedBase q, sharedBase q + 0x1F8000, sharedBase q + 0x1F8000)
  | .tile rg l => some (tileBase rg l, tileBase rg l + 0x3F000, tileBase rg l + 0x3F000)
  | _ => none

/-- The die that owns an address of the fast tier or of an SRAM window. -/
def dieOf (s : State) (a : Nat) : Option Nat :=
  match spaceOf s a with
  | .fast d => some d
  | .shared q => some (q / 64)
  | .tile rg _ => some (rg / 4)
  | _ => none

/-- The header address of the block at an address (R142). -/
def hdrAddr (s : State) (a : Nat) : Nat :=
  match planeOf s a with
  | some (w, _, h) => h + (a - w) / 64
  | none => a

/-- The address lies in a header plane (R142). -/
def inHdrPlane (s : State) (a : Nat) : Bool :=
  match planeOf s a with
  | some (_, e, _) => decide (e ≤ a)
  | none => false

/-- The address lies in a reserved area of the slow tier (R265). -/
def inReserved (s : State) (a : Nat) : Bool :=
  (decide (0x100000000000 ≤ a) && decide (a < 0x100100000000)) ||
  (decide (slowHdr s - s.aglGiB * 0x40000000 ≤ a) && decide (a < slowHdr s))

/-- The fast-tier controller that homes an address (R262). -/
def hcOf (a : Nat) : Nat :=
  let n := a / 0xA000000000
  let o := a % 0xA000000000
  8 * n + ((o / 4096) ^^^ (o / 2097152) ^^^ (o / 1073741824)) % 8

/-- The slow-tier controller that homes an address (R264). -/
def lpcOf (s : State) (a : Nat) : Nat := (a - 0x100000000000) / 4096 % npkg s

/-- The controller block that homes a tier address. -/
def ctrlOf (s : State) (a : Nat) : Option Blk :=
  match spaceOf s a with
  | .fast _ => some (.hc (hcOf a))
  | .slow => some (.lpc (lpcOf s a))
  | _ => none

/-- A compute die is in service. -/
def dieIn (s : State) (d : Nat) : Bool := s.dies.getLsbD d

/-! ## Parameter pages (R302, R305) -/

/-- The entry whose HOME page holds an address. -/
def findPage : List PageEnt → Nat → Option PageEnt
  | [], _ => none
  | e :: r, a => if e.home ≤ a ∧ a < e.home + 0x200000 then some e else findPage r a

/-- The first set with an entry whose HOME page holds an address, sets 0 to 3 of the compute dies before set 4 of the
reflections, and the entry (R302). -/
def findSet (a : Nat) : List PageSet → Nat → Option (Nat × PageEnt)
  | [], _ => none
  | p :: r, t =>
    match findPage p.ents a with
    | some e => some (t, e)
    | none => findSet a r (t + 1)

/-- The page entry of an address, and its set. -/
def pageOf (s : State) (a : Nat) : Option (Nat × PageEnt) := findSet a s.pages 0

/-- The page set whose HOME pages hold an address. -/
def pageSetOf (s : State) (a : Nat) : Option Nat := (pageOf s a).map (fun x => x.1)

/-- The committed step that flips a page set: COMMIT_STEP, or the reflection's step for the slow tier (R302). -/
def selStep (s : State) (t : Nat) : Nat := if t = 4 then s.reflN else s.commitN

/-- Frame 1 is current (R302). -/
def curIsF1 (s : State) (t : Nat) (e : PageEnt) : Bool :=
  if e.pend && reached (BitVec.ofNat 32 (selStep s t)) (BitVec.ofNat 32 e.pstep) then !e.cur else e.cur

/-- The current frame of a page (R302). -/
def curFrame (s : State) (t : Nat) (e : PageEnt) : Nat := if curIsF1 s t e then e.f1 else e.f0

/-- Every access to an address inside a registered HOME page is translated to its current frame (R302). -/
def xlatPage (s : State) (a : Nat) : Nat :=
  match pageOf s a with
  | some (t, e) => curFrame s t e + (a - e.home)
  | none => a

/-- The address lies inside a registered parameter page (R305). -/
def inParam (s : State) (a : Nat) : Bool := (pageOf s a).isSome

/-! ## Memory as stored -/

/-- What an unlisted byte reads as (DESIGN CHOICE, log 1). -/
def memDef : Nat → Byte := fun _ => 0

/-- The canonical form of memory: addresses strictly rising, no entry equal to what an unlisted address reads as. -/
def Memory.wf (m : SMap Byte) : Bool := smWf memDef m

/-- One byte at a physical address. -/
def memB (s : State) (a : Nat) : Byte := smGet memDef s.mem a

/-- `n` bytes from a physical address. -/
def memBytes (s : State) (a n : Nat) : List Byte := (List.range n).map (fun k => memB s (a + k))

/-- Write bytes into a memory map. -/
def memPutList : SMap Byte → Nat → List Byte → SMap Byte
  | m, _, [] => m
  | m, a, b :: r => memPutList (smPut memDef m a b) (a + 1) r

/-- Reservations that a write of `n` bytes at an address leaves: those on other 64-byte lines (log 40). -/
def keepResv (r : List (Path × Nat)) (a n : Nat) : List (Path × Nat) :=
  r.filter (fun x => decide (a + n ≤ 64 * x.2) || decide (64 * x.2 + 64 ≤ a))

/-- Write bytes at a physical address. -/
def memWr (s : State) (a : Nat) (l : List Byte) : State :=
  { s with mem := memPutList s.mem a l, resv := keepResv s.resv a l.length }

/-- Bytes as an engine or core names them: through the page table (R302). -/
def rdBytes (s : State) (a n : Nat) : List Byte := memBytes s (xlatPage s a) n

/-- A little-endian number as an engine or core names it. -/
def rdLE (s : State) (a n : Nat) : Nat := leNat (rdBytes s a n)

/-- Sectors of 32 bytes that a range touches. -/
def sectorsOf (a n : Nat) : List Nat :=
  (List.range ((a + n + 31) / 32 - a / 32)).map (fun k => a / 32 + k)

/-- A range holds a poisoned sector (R275). -/
def poisoned (s : State) (a n : Nat) : Bool := (sectorsOf a n).any (fun k => s.poison.contains k)

/-- A write of whole sectors clears their poison; a partial write keeps it (R275). -/
def unpoison (s : State) (a n : Nat) : State :=
  { s with poison := s.poison.filter (fun k => !(decide (a ≤ 32 * k) && decide (32 * k + 32 ≤ a + n))) }

/-- Write bytes as an agent of the module names them: through the page table, clearing poison of whole sectors. -/
def wrBytes (s : State) (a : Nat) (l : List Byte) : State :=
  let p := xlatPage s a
  { s with mem := memPutList s.mem p l
           resv := keepResv s.resv p l.length
           poison := s.poison.filter (fun k => !(decide (p ≤ 32 * k) && decide (32 * k + 32 ≤ p + l.length))) }

/-- Write a little-endian number. -/
def wrLE (s : State) (a n v : Nat) : State := wrBytes s a (leBytes n v)

/-! ## Access checks of engines and sequencers -/

/-- Why an engine or sequencer access does not take place. -/
inductive AccErr where
  /-- Outside every space of Table 1.6, or an unmapped SRAM offset (R254, R266). -/
  | addr
  /-- Window of an absent die (R30). -/
  | dieAbsent
  /-- A reserved area (R265). -/
  | reserved
  /-- A header plane named as a block address (R142). -/
  | blockAddr
  /-- A write to a registered parameter page (R305). -/
  | param
  /-- A controller in TEST mode (R280). -/
  | test
  /-- A misaligned address (R206, R211). -/
  | align
  deriving DecidableEq, Repr

/-- The status code of an access error (Table 7.2). -/
def AccErr.status : AccErr → Nat
  | .addr => 0x11 | .dieAbsent => 0x0B | .reserved => 0x11 | .blockAddr => 0x0A | .param => 0x11 | .test => 0x11
  | .align => 0x09

/-- The controller of a tier address is in TEST mode (R280). -/
def inTest (s : State) (a : Nat) : Bool :=
  match ctrlOf s a with
  | some (.hc k) => rbit s (.hc k) rHcStatus 7
  | some (.lpc k) => rbit s (.lpc k) rLpcStatus 7
  | _ => false

/-- The checks on one address of an engine or sequencer access to main memory or SRAM. -/
def accChk (s : State) (a : Nat) (wr : Bool) : Option AccErr :=
  match spaceOf s a with
  | .none => some .addr
  | .regs => some .addr
  | .sramHole => some .addr
  | .fast d =>
    if !dieIn s d then some .dieAbsent else if wr && inParam s a then some .param
    else if inTest s (xlatPage s a) then some .test else none
  | .slow =>
    if inReserved s a then some .reserved else if wr && inParam s a then some .param
    else if inTest s (xlatPage s a) then some .test else none
  | .shared q => if dieIn s (q / 64) then none else some .dieAbsent
  | .tile rg _ => if dieIn s (rg / 4) then none else some .dieAbsent

/-- The event an access error raises besides that of its status (R265, R280, R305). -/
def AccErr.extra : AccErr → Option Ev
  | .reserved => some .memReserved
  | .param => some .paramWrite
  | .test => some .memTestAccess
  | _ => none

/-- Raise the event an access error has of its own. -/
def raiseAcc (s : State) (e : AccErr) (wh step : Nat) : State :=
  { s with evt := match e.extra with
      | some ev => evtPush s.evt s.beacon s.epoch ev wh step []
      | none => s.evt }

/-! ## Tables that an APPLY brings into force (R525) -/

/-- First address past the area, block-addressable and not reserved, that a table at an address may lie in; none for an
address outside every such area or in an absent die's window. -/
def tblLimit (s : State) (a : Nat) : Option Nat :=
  if inHdrPlane s a || inReserved s a then none
  else
    match spaceOf s a with
    | .fast d => if dieIn s d then some (d * 0xA000000000 + 0x9D80000000) else none
    | .slow => some (slowHdr s - s.aglGiB * 0x40000000)
    | _ => none

/-- The first address of a table that fails the check; none when it passes. -/
def tblBad (s : State) (a n : Nat) : Option Nat :=
  if n = 0 then none
  else
    match tblLimit s a with
    | none => some a
    | some e => if e < a + n then some e else none

/-- The first failing address of several tables. -/
def tblsBad (s : State) (l : List (Nat × Nat)) : Option Nat := l.findSome? (fun x => tblBad s x.1 x.2)

/-- An APPLY is refused: EVT_APPLY_REFUSED with its register's address and the failing address (R525). -/
def applyRefused (s : State) (b : Blk) (o bad : Nat) : State :=
  raise s .applyRefused whHub 0 [a64 (0xF00000000000 + b.base + o), a64 bad]

/-! ## Sync objects (R182–R187) -/

/-- Key of an object. -/
def objKey (die i : Nat) : Nat := die * 4096 + i

/-- The value of a sync object. -/
def objVal (s : State) (die i : Nat) : Word := smGet (fun _ => 0) s.objs (objKey die i)

/-- System objects, 4,032 to 4,095 (R187). -/
def isSysObj (i : Nat) : Bool := decide (4032 ≤ i) && decide (i < 4096)

/-- The system objects of Table 6.7. -/
def oCommit : Nat := 4095
def oSeal : Nat := 4094
def oOpen : Nat := 4093
def oAbandon : Nat := 4092
def oEpoch : Nat := 4091
def oSnap : Nat := 4090
def oFlicker : Nat := 4089

/-- An arm is armed on the object and has reached its target (R185, R502). -/
def armDue (objs : SMap Word) (s : State) (die a : Nat) : Bool :=
  let c := regAt s (.sync die) (0x10000 + 16 * a)
  bitAt c.toNat 31 &&
    reached (smGet (fun _ => 0) objs (objKey die (bits c.toNat 11 0))) (regAt s (.sync die) (0x10004 + 16 * a))

/-- The arms of a die that fire with the objects as given (R185). -/
def armsDue (objs : SMap Word) (s : State) (die : Nat) : List Nat :=
  (List.range 64).filter (armDue objs s die)

/-- Fire arms: each interrupts its core once, as source 1 + a, and disarms (R185, R502). -/
def fireArms (s : State) (die : Nat) (arms : List Nat) : State :=
  { s with
    regs := arms.foldl (fun r a =>
      smUpd regRst r (Blk.base (.sync die) + (0x10000 + 16 * a)) (fun w => BitVec.ofNat 32 (clrBit w.toNat 31))) s.regs
    irqs := s.irqs ++ arms.map (fun a => (die, fld s (.sync die) (0x10000 + 16 * a) 14 12, 1 + a)) }

/-- Give an object a value and fire the arms of its die that this makes due (R182, R502). -/
def objPut (s : State) (die i : Nat) (v : Word) : State :=
  let objs' := smPut (fun _ => 0) s.objs (objKey die i) v
  fireArms { s with objs := objs' } die
    ((armsDue objs' s die).filter (fun a => fld s (.sync die) (0x10000 + 16 * a) 11 0 == i))

/-- ADD of Table 6.6. -/
def objAdd (s : State) (die i n : Nat) : State := objPut s die i (objVal s die i + BitVec.ofNat 32 n)

/-- An engine's signal adds to a program object of a die in service; one that names a system object changes nothing and
counts at the die it names (R187), and an absent die has no objects (R28). -/
def objSignal (s : State) (die i n : Nat) : State :=
  if !dieIn s die then s else if isSysObj i then cnt s (.sync die) rSyncRsvdWrite else objAdd s die i n

/-- The hub drives a system object identically on every die (R187). -/
def sysObj (s : State) (i v : Nat) : State :=
  (List.range 4).foldl (fun t d => objPut t d i (BitVec.ofNat 32 v)) s

/-- The hub adds 1 to a system object on every die. -/
def sysObjInc (s : State) (i : Nat) : State :=
  (List.range 4).foldl (fun t d => objAdd t d i 1) s

/-! ## The management lane (R435–R438) -/

/-- The lane carries frames: from boot phase B3 on, but not in dark (R450, R457). -/
def laneUp (s : State) : Bool :=
  !(decide (s.pwr = .off) || decide (s.pwr = .dark)) && (decide (s.pwr ≠ .boot) || decide (3 ≤ s.pw.stage))

/-- A management frame goes out. -/
def laneSend (s : State) (f : MgmtFrame) : State := { s with mgmt := { s.mgmt with out := s.mgmt.out ++ [f] } }

/-- Send an EVENT or HEALTH frame, to be resent until an ACK names its MSEQ (R436). Before a valid command has come there
is no address to send to. -/
def lanePost (s : State) (mtype : Nat) (body : List Byte) : State :=
  if s.mgmt.peer && laneUp s then
    let f : MgmtFrame := { mtype := mtype, mseq := s.mgmt.next, cmd := 0, mstatus := 0, epoch := s.epoch, body := body }
    laneSend { s with mgmt := { s.mgmt with next := (s.mgmt.next + 1) % u32Mod, unack := s.mgmt.unack ++ [(s.beacon, f)] } } f
  else s

/-- Body of a HEALTH frame: score, flags, P, and the count and penalty of each input (R438). -/
def healthBody (s : State) : List Byte :=
  leBytes 2 (fld s .hlth rHlthScore 9 0) ++ leBytes 2 (b2n (rbit s .hlth rHlthFlags 0)) ++ leBytes 4 (regAt s .hlth rHlthP).toNat
    ++ (List.range 22).flatMap (fun i =>
      leBytes 4 (regAt s .hlth (rHlthCount + 8 * i)).toNat ++ leBytes 4 (regAt s .hlth (rHlthPen + 8 * i)).toNat)

/-- Send a HEALTH frame. -/
def healthSend (s : State) : State := lanePost s 4 (healthBody s)

/-! ## Health (R391, R392) -/


/-- The score of a penalty with 16 fraction bits (R391). -/
def scoreOf (p : Nat) : Nat := 1000 - min 1000 ((p + 65535) / 65536)

/-- Give the penalty a value; raise EVT_HEALTH when the score has moved by 50 or more since the last such event, at
most once a minute (R392), and send a HEALTH frame with it (R438). -/
def setPenalty (s : State) (p : Nat) : State :=
  let sc := scoreOf p
  let old := s.hlthSent.1
  let moved := decide (50 ≤ sc - old) || decide (50 ≤ old - sc)
  let quiet := match s.hlthSent.2 with
    | some t => decide (t + btMinute ≤ s.beacon)
    | none => true
  let go := moved && quiet
  let post := fun (t : State) => if go then healthSend t else t
  let r1 := smPut regRst s.regs (Blk.base .hlth + rHlthP) (BitVec.ofNat 32 p)
  let r2 := smUpd regRst r1 (Blk.base .hlth + rHlthScore) (fun w => BitVec.ofNat 32 (putBits w.toNat 9 0 sc))
  post { s with
    regs := if go then smUpd regRst r2 (Blk.base .hlth + rHlthStatus) (fun w => BitVec.ofNat 32 (setBit w.toNat 0)) else r2
    hlthSent := if go then (sc, some s.beacon) else s.hlthSent
    evt := if go then evtPush s.evt s.beacon s.epoch .health whHub 0 [] else s.evt }

/-- Points of a health input: its weight in force, above 1,000 as 1,000 (R504), or the commanded points. -/
def healthPts (s : State) (i pts : Nat) : State :=
  let s1 := cnt s .hlth (0x200 + 8 * i)
  let pen := (regAt s1 .hlth (0x204 + 8 * i)).toNat
  let s2 := setReg s1 .hlth (0x204 + 8 * i) (BitVec.ofNat 32 (min u32Max (pen + pts * 65536)))
  setPenalty s2 (min u32Max ((regAt s2 .hlth rHlthP).toNat + pts * 65536))

/-- An event of Table 13.4: input i adds its weight (R391). -/
def health (s : State) (i : Nat) : State := healthPts s i (min 1000 (s.hlthW.getD i 0))

/-! ## Sequencers -/

/-- The sequencer of a cluster. -/
def seqAt (s : State) (q : Nat) : Seq := smGet (fun _ => Seq.reset) s.seqs q

/-- Replace a sequencer. -/
def setSeq (s : State) (q : Nat) (x : Seq) : State := { s with seqs := smPut (fun _ => Seq.reset) s.seqs q x }

/-- Scalar register n: s0 reads zero (Table 6.2). -/
def sreg (x : Seq) (n : Nat) : DWord := if n = 0 then 0 else smGet (fun _ => 0) x.s n

/-- Write a scalar register: a write of s0 is ignored (Table 6.2). -/
def putS (x : Seq) (n : Nat) (v : DWord) : Seq :=
  { x with s := if n = 0 then x.s else smPut (fun _ => 0) x.s n v }

/-- Predicate register n: p0 reads one (Table 6.2). -/
def preg (x : Seq) (n : Nat) : Bool := decide (n = 0) || x.p.getLsbD n

/-- Write a predicate register: a write of p0 is ignored (Table 6.2). -/
def putP (x : Seq) (n : Nat) (v : Bool) : Seq :=
  { x with p := if n = 0 then x.p else BitVec.ofNat 8 (putBits x.p.toNat n n (b2n v))
           toPred := BitVec.ofNat 8 (clrBit x.toPred.toNat n) }

/-- Descriptor register n; none when invalid. -/
def dreg (x : Seq) (n : Nat) : Option Desc := smGet (fun _ => none) x.d n

/-- Write a descriptor register. -/
def putD (x : Seq) (n : Nat) (v : Option Desc) : Seq := { x with d := smPut (fun _ => none) x.d n v }

/-- Next address, modulo 2^48. -/
def pcNext (pc : Nat) : Nat := (pc + 16) % 2 ^ 48

/-- The event of a completion status (Table 7.2). EVT_COLL_FAIL was raised when the failure showed (R336). -/
def statusEv : Nat → Option Ev
  | 0x01 => some .descInvalid | 0x02 => some .blockMismatch | 0x03 => some .blockCrcUncured
  | 0x04 => some .abftUncured | 0x05 => some .gangMode | 0x06 => some .clusterNoUnit | 0x07 => some .convUnsupported
  | 0x08 => some .insnLimit | 0x09 => some .insnAlign | 0x0A => some .blockAddr | 0x0B => some .dieAbsentAccess
  | 0x0C => some .bcnFar | 0x0D => some .detRefused | 0x0E => some .routeAxis | 0x0F => some .fmtClass
  | 0x10 => some .remoteRefused | 0x11 => some .insnAddr | 0x13 => some .updStep
  | 0x14 => some .commitFail | _ => none

/-- Record a status in CLU_SEQ_ERR when no earlier error is pending there, set ERR, and stop the sequencer at its
next boundary under STOP_ON_ERR (R173, R207, Table 6.3). -/
def recErr (s : State) (q status pc : Nat) : State :=
  let pending := decide (fld s (.clu q) rCluSeqErr 31 24 ≠ 0)
  let w := if pending then regAt s (.clu q) rCluSeqErr
    else BitVec.ofNat 32 (status % 256 * 16777216 + pc / 16 % 16777216)
  let h := if pending then regAt s (.clu q) rCluSeqErrpcHi else BitVec.ofNat 32 (pc / 268435456 % 1048576)
  let r1 := smPut regRst s.regs (Blk.base (.clu q) + rCluSeqErr) w
  let r2 := smPut regRst r1 (Blk.base (.clu q) + rCluSeqErrpcHi) h
  { s with
    regs := smUpd regRst r2 (Blk.base (.clu q) + rCluSeqStatus) (fun v => BitVec.ofNat 32 (setBit v.toNat 9))
    seqs := smUpd (fun _ => Seq.reset) s.seqs q
      (fun x => { x with stopAtBoundary := x.stopAtBoundary || rbit s (.clu q) rCluSeqCtl 1 }) }

/-- Complete with an error status: record it and raise the event the table names, at `wh` (R173, R207). -/
def failStatusAt (s : State) (q wh status pc step : Nat) (args : List EArg) : State :=
  if status = 0 then s
  else
    let s1 := recErr s q status pc
    { s1 with evt := match statusEv status with
        | some ev => evtPush s1.evt s.beacon s.epoch ev wh step args
        | none => s1.evt }

/-- Complete with an error status whose event names the cluster. -/
def failStatus (s : State) (q status pc step : Nat) (args : List EArg) : State := failStatusAt s q (whClu q) status pc step args

end Sys2Proof.Machine
end

