-- ==== Sys2Proof/Machine/Cache.lean ====
section
/-! DEFINITION. Region caches and controller traffic (R257–R261): which lines a region holds, in which class, and the
byte counts of the controllers. Values are coherent for every agent (R258), so they stay in the one memory; a cache
changes no value (R261). -/
namespace Sys2Proof.Machine

/-- Set of a line (R257; the index function is PRESUMED, log 30). -/
def lineSet (line : Nat) : Nat := line % 8192

/-- KEEP lines allowed in a set; 15 acts as 14 (Table 9.15). -/
def keepW (s : State) (rg : Nat) : Nat := min 14 (fld s (.rgn (rg / 4) (rg % 4)) rRgnCacheCtl 3 0)

/-- Lines of one set, most recent first. -/
def setLines (ls : List CLine) (line : Nat) : List CLine := ls.filter (fun l => lineSet l.line == lineSet line)

/-- The line of a list that its last element of a class is; none when there is none. -/
def lastOf (ls : List CLine) (c : LineCls) : Option Nat := ((ls.filter (fun l => l.cls == c)).getLast?).map (·.line)

/-- The victim of an allocation into a set (R260): a KEEP allocation into a set with its full number of KEEP lines
replaces the least recently used of them; otherwise evict-first lines go first, then the least recently used normal. -/
def victim (ls : List CLine) (line kw : Nat) (cls : LineCls) : Option Nat :=
  let t := setLines ls line
  let keeps := (t.filter (fun l => l.cls == .keep)).length
  if cls = .keep ∧ kw ≤ keeps then lastOf t .keep
  else if t.length < 16 then none
  else match lastOf t .evictFirst with
    | some v => some v
    | none => lastOf t .normal

/-- Remove a line. -/
def dropLine (ls : List CLine) (line : Nat) : List CLine := ls.filter (fun l => l.line != line)

/-- At most `kw` lines of class KEEP in the set of a line: the least recently used beyond them turn normal (R260). -/
def capKeep (ls : List CLine) (line kw : Nat) : List CLine :=
  let keeps := ((setLines ls line).filter (fun l => l.cls == .keep)).map (·.line)
  let ovr := keeps.drop kw
  ls.map (fun l => if ovr.contains l.line then { l with cls := .normal } else l)

/-- What an access to sectors of one line does to a region's lines (Table 9.3). Gives the lines, the sectors hit and
the dirty sectors of a victim. -/
def lineAcc (ls : List CLine) (kw hint line : Nat) (mask : BitVec 4) (wr : Bool) : List CLine × BitVec 4 × Option CLine :=
  let cls : LineCls := if hint = 2 ∧ kw ≠ 0 then .keep else .normal
  match ls.find? (fun l => l.line == line) with
  | some l =>
    let hit := l.valid &&& mask
    let l' := { l with valid := if wr || hint = 0 || hint = 2 then l.valid ||| mask else l.valid
                       dirty := if wr then l.dirty ||| mask else l.dirty }
    let out := if hint = 1 then ls.map (fun x => if x.line == line then l' else x)
      else if hint = 3 then ls.map (fun x => if x.line == line then { l' with cls := .evictFirst } else x)
      else { l' with cls := cls } :: dropLine ls line
    (if hint = 2 then capKeep out line kw else out, hit, none)
  | none =>
    if hint = 1 ∨ hint = 3 then (ls, 0, none)
    else
      let v := victim ls line kw cls
      let vl := v.bind (fun n => ls.find? (fun l => l.line == n))
      let ls' := match v with | some n => dropLine ls n | none => ls
      ({ line := line, valid := mask, dirty := if wr then mask else 0, cls := cls } :: ls', 0, vl)

/-- Sector mask of the part of a line that a range touches. -/
def secMask (line a n : Nat) : BitVec 4 :=
  BitVec.ofNat 4 ((List.range 4).foldl (fun v k =>
    let lo := line * 128 + 32 * k
    if lo < a + n ∧ a < lo + 32 then v + 2 ^ k else v) 0)

/-- Lines that a range touches. -/
def linesOf (a n : Nat) : List Nat := (List.range ((a + n + 127) / 128 - a / 128)).map (fun k => a / 128 + k)

/-- Count bytes at the controller that homes an address (Tables 9.11, 9.12). -/
def ctrlBytes (s : State) (a n : Nat) (wr : Bool) : State :=
  match ctrlOf s a with
  | some b => cnt64 s b (if wr then rHcWrBytesLo else rHcRdBytesLo) n
  | none => s

/-- Lines of a region's cache. -/
def cacheOf (s : State) (rg : Nat) : List CLine := smGet (fun _ => []) s.cache rg

/-- One line of a cached access: lines, hit and miss counts, and the traffic of the misses and of a dirty victim. -/
def cacheLine (rg hint a n : Nat) (wr : Bool) (s : State) (line : Nat) : State :=
  let mask := secMask line a n
  let (ls, hit, vl) := lineAcc (cacheOf s rg) (keepW s rg) hint line mask wr
  let b : Blk := .rgn (rg / 4) (rg % 4)
  let nh := popCount 4 hit.toNat
  let nm := popCount 4 mask.toNat - nh
  let s1 := { s with cache := smPut (fun _ => []) s.cache rg ls }
  let s2 := cnt64 (cnt64 s1 b rRgnCacheHitLo nh) b rRgnCacheMissLo nm
  let thru := wr && (hint = 1 || hint = 3) && !((cacheOf s rg).any (fun l => l.line == line))
  let s3 := if thru then ctrlBytes s2 (line * 128) (32 * nm) true
    else if wr then s2 else ctrlBytes s2 (line * 128) (32 * nm) false
  match vl with
  | some v => ctrlBytes s3 (v.line * 128) (32 * popCount 4 v.dirty.toNat) true
  | none => s3

/-- Dirty sectors of a line go back to their controller. -/
def writeBack (s : State) (l : CLine) (mask : BitVec 4) : State :=
  ctrlBytes s (l.line * 128) (32 * popCount 4 (l.dirty &&& mask).toNat) true

/-- A region's cache writes back every dirty line and then holds none (R256). -/
def flushCache (s : State) (rg : Nat) : State :=
  let s1 := (cacheOf s rg).foldl (fun t l => writeBack t l 15) s
  { s1 with cache := smPut (fun _ => []) s1.cache rg [] }

/-- A region's copies of the lines of a range go; dirty sectors that the range does not cover are written back (R258). -/
def invalidateRgn (a n : Nat) (s : State) (rg : Nat) : State :=
  let ls := linesOf a n
  let hit := (cacheOf s rg).filter (fun x => ls.contains x.line)
  if hit.isEmpty then s
  else
    let s1 := hit.foldl (fun t l => writeBack t l (~~~ secMask l.line a n)) s
    { s1 with cache := smUpd (fun _ => []) s1.cache rg (fun l => l.filter (fun x => !ls.contains x.line)) }

/-- A write by any agent invalidates every other copy (R258). -/
def invalidate (s : State) (keep : Option Nat) (a n : Nat) : State :=
  ((List.range 16).filter (fun r => decide (keep ≠ some r))).foldl (invalidateRgn a n) s

/-- An access to a range of the tiers: through region `rg`'s cache under a hint, or past every cache (R257, R259).
SRAM windows are not cached. -/
def traffic (s : State) (rg : Option Nat) (hint a n : Nat) (wr : Bool) : State :=
  match ctrlOf s a with
  | none => s
  | some _ =>
    let s1 := if wr then invalidate s rg a n else s
    match rg with
    | some r => (linesOf a n).foldl (cacheLine r hint a n wr) s1
    | none => ctrlBytes s1 a n wr

/-- CACHE_DEMOTE: every KEEP line of a region turns normal (R260). -/
def demote (s : State) (rg : Nat) : State :=
  { s with
    cache := smUpd (fun _ => []) s.cache rg
      (fun l => l.map (fun x => if x.cls = .keep then { x with cls := .normal } else x)) }

end Sys2Proof.Machine
end

