-- ==== Sys2Proof/Machine/Crypto.lean ====
section
/-! DEFINITION. Checksums, hashes and generators: CRC-32C (R154), CRC-64/XZ (R355), the flit CRC-16 (R316), the
lanes' Reed-Solomon code (R315), SHA-256 (R40) and Philox4x32-10 (R249). -/
namespace Sys2Proof.Machine

/-- `n` steps of a reflected CRC register. -/
def crcShift (poly : Nat) : Nat → Nat → Nat
  | 0, c => c
  | n + 1, c => crcShift poly n (if c % 2 = 1 then (c / 2) ^^^ poly else c / 2)

/-- A reflected CRC register after some bytes. -/
def crcRun (poly : Nat) (c : Nat) (l : List Byte) : Nat :=
  l.foldl (fun c b => crcShift poly 8 (c ^^^ b.toNat)) c

/-- CRC-32C: reflected polynomial 0x82F6_3B78, initial value and final XOR 0xFFFF_FFFF (R154). -/
def crc32c (l : List Byte) : Nat := crcRun 0x82F63B78 0xFFFFFFFF l ^^^ 0xFFFFFFFF

/-- The change of a CRC-32C when a prefix changes by `delta` (XOR of old and new bytes) and `tail` bytes that do not
change follow it: CRC linearity (R156). -/
def crcDelta (delta : List Byte) (tail : Nat) : Nat :=
  crcShift 0x82F63B78 (8 * tail) (crcRun 0x82F63B78 0 delta)

/-- CRC-64/XZ (R355). -/
def crc64xz (l : List Byte) : Nat := crcRun 0xC96C5795D7870F42 0xFFFFFFFFFFFFFFFF l ^^^ 0xFFFFFFFFFFFFFFFF

/-- `n` steps of the flit CRC register, most significant bit first. -/
def crc16Shift : Nat → Nat → Nat
  | 0, c => c
  | n + 1, c => crc16Shift n (if 0x8000 ≤ c then (2 * c % 65536) ^^^ 0x1021 else 2 * c)

/-- CRC-16 with polynomial 0x1021, initial value 0xFFFF, no reflection (R316). -/
def crc16 (l : List Byte) : Nat := l.foldl (fun c b => crc16Shift 8 (c ^^^ (b.toNat * 256))) 0xFFFF

/-! ## Reed-Solomon RS(280,256) over GF(2^8) (R315) -/

/-- A field element times α: shift, reduced by x^8 + x^4 + x^3 + x^2 + 1. -/
def gfDouble (x : Nat) : Nat := if 128 ≤ x then (2 * x) ^^^ 0x11D else 2 * x

/-- Product of two field elements, over the low bits of the first. -/
def gfMulGo : Nat → Nat → Nat → Nat
  | 0, _, _ => 0
  | n + 1, a, b => (if a % 2 = 1 then b else 0) ^^^ gfMulGo n (a / 2) (gfDouble b)

/-- Product of two field elements. -/
def gfMul (a b : Nat) : Nat := gfMulGo 8 a b

/-- A monic polynomial, without its leading 1 and highest power first, times x + r. -/
def polyRoot (p : List Nat) (r : Nat) : List Nat :=
  List.zipWith (fun a b => a ^^^ gfMul r b) (p ++ [0]) (1 :: p)

/-- Generator polynomial with the roots α^0 to α^23, without its leading 1. -/
def rsGen : List Nat := ((List.range 24).foldl (fun (x : List Nat × Nat) _ => (polyRoot x.1 x.2, gfDouble x.2)) ([], 1)).1

/-- The remainder after one more symbol. -/
def rsStep (g reg : List Nat) (d : Byte) : List Nat :=
  let k := d.toNat ^^^ reg.headD 0
  List.zipWith (fun a b => a ^^^ gfMul k b) (reg.drop 1 ++ [0]) g

/-- The 24 check symbols of a codeword's data, of which byte 0 is the highest power. -/
def rsParity (l : List Byte) : List Byte :=
  (l.foldl (rsStep rsGen) (List.replicate 24 0)).map (fun x => BitVec.ofNat 8 x)

/-- Positions at which two words differ. -/
def symErrs (a b : List Byte) : Nat := (List.zipWith (fun x y => if x = y then 0 else 1) a b).foldl (· + ·) 0

/-- Symbols that the decoder corrects when it reads a received codeword as these data bytes; none when they lie more than
12 symbols away, and the codeword does not decode. -/
def fecErrs (data rx : List Byte) : Option Nat :=
  let n := symErrs rx (data ++ rsParity data)
  if data.length = 256 ∧ rx.length = 280 ∧ n ≤ 12 then some n else none

/-! ## SHA-256 -/

/-- The largest number below r + 2^b whose k-th power is at most n. -/
def rootGo (k n : Nat) : Nat → Nat → Nat
  | 0, r => r
  | b + 1, r => rootGo k n b (if (r + 2 ^ b) ^ k ≤ n then r + 2 ^ b else r)

/-- First 32 fraction bits of the k-th root of p. -/
def rootFrac (k p : Nat) : Nat := rootGo k (p * 2 ^ (32 * k)) 37 0 % u32Mod

/-- The primes below a bound, in ascending order. -/
def primesTo (n : Nat) : List Nat :=
  (List.range n).foldl (fun l k => if 2 ≤ k ∧ l.all (fun p => decide (k % p ≠ 0)) then l ++ [k] else l) []

/-- Round constants: from the cube roots of the first 64 primes. -/
def shaK : List Nat := (primesTo 312).map (rootFrac 3)

/-- Rotate a 32-bit number right. -/
def ror32 (x n : Nat) : Nat := (x / 2 ^ n) ||| (x % 2 ^ n * 2 ^ (32 - n))

/-- The working variables of SHA-256. -/
structure Sha8 where
  a : Nat
  b : Nat
  c : Nat
  d : Nat
  e : Nat
  f : Nat
  g : Nat
  h : Nat
  deriving DecidableEq, Repr

/-- Initial hash value: from the square roots of the first eight primes. -/
def shaInit : Sha8 :=
  let h := (primesTo 20).map (rootFrac 2)
  { a := h.getD 0 0, b := h.getD 1 0, c := h.getD 2 0, d := h.getD 3 0, e := h.getD 4 0, f := h.getD 5 0, g := h.getD 6 0,
    h := h.getD 7 0 }

/-- One round with its constant and message word. -/
def shaRound (v : Sha8) (k w : Nat) : Sha8 :=
  let s1 := ror32 v.e 6 ^^^ ror32 v.e 11 ^^^ ror32 v.e 25
  let ch := (v.e &&& v.f) ^^^ ((v.e ^^^ 0xFFFFFFFF) &&& v.g)
  let t1 := v.h + s1 + ch + k + w
  let s0 := ror32 v.a 2 ^^^ ror32 v.a 13 ^^^ ror32 v.a 22
  let mj := (v.a &&& v.b) ^^^ (v.a &&& v.c) ^^^ (v.b &&& v.c)
  ⟨(t1 + s0 + mj) % u32Mod, v.a, v.b, v.c, (v.d + t1) % u32Mod, v.e, v.f, v.g⟩

/-- Run the rounds: the window holds the next 16 message words. -/
def shaRounds : List Nat → List Nat → Sha8 → Sha8
  | [], _, v => v
  | k :: ks, win, v =>
    let w0 := win.getD 0 0
    let w1 := win.getD 1 0
    let w9 := win.getD 9 0
    let w14 := win.getD 14 0
    let s0 := ror32 w1 7 ^^^ ror32 w1 18 ^^^ (w1 / 8)
    let s1 := ror32 w14 17 ^^^ ror32 w14 19 ^^^ (w14 / 1024)
    shaRounds ks (win.drop 1 ++ [(w0 + s0 + w9 + s1) % u32Mod]) (shaRound v k w0)

/-- Compress one 64-byte block. -/
def shaBlock (v : Sha8) (blk : List Byte) : Sha8 :=
  let win := (List.range 16).map (fun i => beNat (slice blk (4 * i) 4))
  let r := shaRounds shaK win v
  ⟨(v.a + r.a) % u32Mod, (v.b + r.b) % u32Mod, (v.c + r.c) % u32Mod, (v.d + r.d) % u32Mod,
   (v.e + r.e) % u32Mod, (v.f + r.f) % u32Mod, (v.g + r.g) % u32Mod, (v.h + r.h) % u32Mod⟩

/-- Compress `n` blocks. -/
def shaBlocks : Nat → Sha8 → List Byte → Sha8
  | 0, v, _ => v
  | n + 1, v, l => shaBlocks n (shaBlock v (l.take 64)) (l.drop 64)

/-- SHA-256 of a byte string. -/
def sha256 (l : List Byte) : List Byte :=
  let n := l.length
  let z := (64 - (n + 9) % 64) % 64
  let m := l ++ [0x80] ++ List.replicate z 0 ++ beBytes 8 (8 * n)
  let v := shaBlocks (m.length / 64) shaInit m
  beBytes 4 v.a ++ beBytes 4 v.b ++ beBytes 4 v.c ++ beBytes 4 v.d ++ beBytes 4 v.e ++ beBytes 4 v.f ++ beBytes 4 v.g
    ++ beBytes 4 v.h

/-! ## Philox4x32-10 (R249) -/

/-- Rounds of the generator on four counter words. -/
def philoxGo : Nat → Nat → Nat → Nat → Nat → Nat → Nat → List Nat
  | 0, _, _, c0, c1, c2, c3 => [c0, c1, c2, c3]
  | n + 1, k0, k1, c0, c1, c2, c3 =>
    let p0 := 0xD2511F53 * c0
    let p1 := 0xCD9E8D57 * c2
    philoxGo n ((k0 + 0x9E3779B9) % u32Mod) ((k1 + 0xBB67AE85) % u32Mod)
      ((p1 / u32Mod) ^^^ c1 ^^^ k0) (p1 % u32Mod) ((p0 / u32Mod) ^^^ c3 ^^^ k1) (p0 % u32Mod)

/-- The four output words for a group of eight elements. -/
def philox (seed step shard purpose i : Nat) : List Nat :=
  philoxGo 10 (seed % u32Mod) (seed / u32Mod % u32Mod) (i / 8 % u32Mod)
    ((i / 2 ^ 35 % u32Mod) ||| (purpose * 65536)) (step % u32Mod) (shard % u32Mod)

/-- The u16 that element i draws (R249). -/
def srDraw (seed step shard purpose i : Nat) : Nat :=
  (philox seed step shard purpose i).getD (i % 8 / 2) 0 / 2 ^ (16 * (i % 2)) % 65536

end Sys2Proof.Machine
end

