-- ==== Sys2Proof/Machine/Fp.lean ====
section
/-! DEFINITION. Number formats and rounding: element codes (R59–R69), rounding and overflow (R70–R73), conversions
(R74), S8 micro-scales (R77) and exact arithmetic on the values. -/
namespace Sys2Proof.Machine

/-- An exact value: NaN, an infinity, or (−1)^neg × m × 2^e; m = 0 is a signed zero. -/
inductive EV where
  | nan
  | inf (neg : Bool)
  | fin (neg : Bool) (m : Nat) (e : Int)
  deriving DecidableEq, Repr

/-- +0. -/
def evZero : EV := .fin false 0 0

/-- An integer as an exact value. -/
def evInt (i : Int) : EV := .fin (decide (i < 0)) i.natAbs 0

/-- A power of two. -/
def evPow2 (e : Int) : EV := .fin false 1 e

/-- The value is NaN. -/
def EV.isNan : EV → Bool
  | .nan => true
  | _ => false

/-- The value is an infinity. -/
def EV.isInf : EV → Bool
  | .inf _ => true
  | _ => false

/-- The value is a zero of either sign. -/
def EV.isZero : EV → Bool
  | .fin _ m _ => decide (m = 0)
  | _ => false

/-- The value is finite. -/
def EV.isFin : EV → Bool
  | .fin _ _ _ => true
  | _ => false

/-- The sign of a value. -/
def EV.neg? : EV → Bool
  | .nan => false
  | .inf n => n
  | .fin n _ _ => n

/-- Negation. -/
def evNeg : EV → EV
  | .nan => .nan
  | .inf n => .inf (!n)
  | .fin n m e => .fin (!n) m e

/-- Magnitude. -/
def evAbs : EV → EV
  | .nan => .nan
  | .inf _ => .inf false
  | .fin _ m e => .fin false m e

/-- Shift a magnitude left by an integer amount known to be non-negative. -/
def shl (m : Nat) (k : Int) : Nat := m * 2 ^ k.toNat

/-- Exact sum under the zero rule of R68 and IEEE 754 special values (R82). -/
def evAdd : EV → EV → EV
  | .nan, _ => .nan
  | _, .nan => .nan
  | .inf a, .inf b => if a = b then .inf a else .nan
  | .inf a, _ => .inf a
  | _, .inf b => .inf b
  | .fin n1 m1 e1, .fin n2 m2 e2 =>
    if m1 = 0 then (if m2 = 0 then .fin (n1 && n2) 0 0 else .fin n2 m2 e2)
    else if m2 = 0 then .fin n1 m1 e1
    else
      let e := min e1 e2
      let a := shl m1 (e1 - e)
      let b := shl m2 (e2 - e)
      if n1 = n2 then .fin n1 (a + b) e
      else if a = b then .fin false 0 0
      else if b < a then .fin n1 (a - b) e else .fin n2 (b - a) e

/-- Exact product with IEEE 754 special values. -/
def evMul : EV → EV → EV
  | .nan, _ => .nan
  | _, .nan => .nan
  | .inf a, .inf b => .inf (a != b)
  | .inf a, .fin n m _ => if m = 0 then .nan else .inf (a != n)
  | .fin n m _, .inf b => if m = 0 then .nan else .inf (n != b)
  | .fin n1 m1 e1, .fin n2 m2 e2 => .fin (n1 != n2) (m1 * m2) (e1 + e2)

/-- Difference. -/
def evSub (a b : EV) : EV := evAdd a (evNeg b)

/-- Order of two values neither of which is NaN; −0 is below +0 (Table 7.10). -/
def evLt : EV → EV → Bool
  | .nan, _ => false
  | _, .nan => false
  | .inf a, .inf b => a && !b
  | .inf a, .fin _ _ _ => a
  | .fin _ _ _, .inf b => !b
  | .fin n1 m1 e1, .fin n2 m2 e2 =>
    let e := min e1 e2
    let a := shl m1 (e1 - e)
    let b := shl m2 (e2 - e)
    match n1, n2 with
    | false, false => decide (a < b)
    | true, true => decide (b < a)
    | true, false => true
    | false, true => false

/-- Equality of values, +0 equal to −0. -/
def evEqv (a b : EV) : Bool :=
  if a.isZero && b.isZero then true else !a.isNan && !b.isNan && !evLt a b && !evLt b a

/-- Magnitude order. -/
def evAbsLe (a b : EV) : Bool := !evLt (evAbs b) (evAbs a)

/-! ## Formats -/

/-- The element formats (Table 5.4). -/
inductive Fmt where
  | fp4 | int4 | q4 | fp6e3 | fp6e2 | e4m3 | e5m2 | int8 | q8 | bf16 | fp16 | t19 | fp32 | idx
  deriving DecidableEq, Repr

/-- The format of a code (Table 5.4). -/
def fmtOf : Nat → Option Fmt
  | 0x01 => some .fp4 | 0x02 => some .int4 | 0x03 => some .q4 | 0x08 => some .fp6e3 | 0x09 => some .fp6e2
  | 0x0A => some .e4m3 | 0x0B => some .e5m2 | 0x0C => some .int8 | 0x0D => some .q8 | 0x10 => some .bf16
  | 0x11 => some .fp16 | 0x18 => some .t19 | 0x19 => some .fp32 | 0x20 => some .idx | _ => none

/-- The code of a format. -/
def Fmt.code : Fmt → Nat
  | .fp4 => 0x01 | .int4 => 0x02 | .q4 => 0x03 | .fp6e3 => 0x08 | .fp6e2 => 0x09 | .e4m3 => 0x0A | .e5m2 => 0x0B
  | .int8 => 0x0C | .q8 => 0x0D | .bf16 => 0x10 | .fp16 => 0x11 | .t19 => 0x18 | .fp32 => 0x19 | .idx => 0x20

/-- Tile rows and columns (Table 5.1). -/
def Fmt.tile : Fmt → Nat × Nat
  | .fp4 | .int4 | .q4 => (64, 64)
  | .fp6e3 | .fp6e2 | .e4m3 | .e5m2 | .int8 | .q8 => (32, 64)
  | .bf16 | .fp16 => (32, 32)
  | .t19 | .fp32 => (16, 32)
  | .idx => (128, 1)

/-- Container bits of an element (R60, Table 5.1). -/
def Fmt.ebits : Fmt → Nat
  | .fp4 | .int4 | .q4 => 4
  | .fp6e3 | .fp6e2 | .e4m3 | .e5m2 | .int8 | .q8 => 8
  | .bf16 | .fp16 => 16
  | .t19 | .fp32 => 32
  | .idx => 128

/-- Width of the format in bits for the pair rules of Table 3.9. -/
def Fmt.width : Fmt → Nat
  | .fp4 | .int4 | .q4 => 4
  | .fp6e3 | .fp6e2 => 6
  | .e4m3 | .e5m2 | .int8 | .q8 => 8
  | .bf16 | .fp16 => 16
  | .t19 => 19
  | .fp32 => 32
  | .idx => 128

/-- Formats that select TENSOR or BLOCK scaling (R76). -/
def Fmt.scaled : Fmt → Bool
  | .fp4 | .int4 | .fp6e3 | .fp6e2 | .e4m3 | .e5m2 | .int8 => true
  | _ => false

/-- Offset-code formats (R64). -/
def Fmt.isQ : Fmt → Bool
  | .q4 | .q8 => true
  | _ => false

/-- Symmetric integer formats. -/
def Fmt.isInt : Fmt → Bool
  | .int4 | .int8 => true
  | _ => false

/-- Integer or offset-code formats, which reach the INT32 accumulator (R85). -/
def Fmt.integral (f : Fmt) : Bool := f.isQ || f.isInt

/-- Mantissa bits, bias and the code of the largest finite magnitude of a floating-point format (Table 3.1); T19 in
its 19 bits. -/
def Fmt.flt : Fmt → Option (Nat × Int × Nat)
  | .fp4 => some (1, 1, 0x7)
  | .fp6e3 => some (2, 3, 0x1F)
  | .fp6e2 => some (3, 1, 0x1F)
  | .e4m3 => some (3, 7, 0x7E)
  | .e5m2 => some (2, 15, 0x7B)
  | .bf16 => some (7, 127, 0x7F7F)
  | .fp16 => some (10, 15, 0x7BFF)
  | .t19 => some (10, 127, 0x3FBFF)
  | .fp32 => some (23, 127, 0x7F7FFFFF)
  | _ => none

/-- Value bits of the format's code, without the container's ignored bits. -/
def Fmt.cbits : Fmt → Nat
  | .fp4 | .int4 | .q4 => 4
  | .fp6e3 | .fp6e2 => 6
  | .e4m3 | .e5m2 | .int8 | .q8 => 8
  | .bf16 | .fp16 => 16
  | .t19 => 19
  | .fp32 => 32
  | .idx => 128

/-- The format has infinities (Table 3.1). -/
def Fmt.hasInf : Fmt → Bool
  | .e5m2 | .bf16 | .fp16 | .t19 | .fp32 => true
  | _ => false

/-- The canonical NaN code of a format that has one (Table 3.4); T19 in its 19 bits. -/
def Fmt.nanCode : Fmt → Option Nat
  | .fp32 => some 0x7FC00000 | .t19 => some 0x3FE00 | .bf16 => some 0x7FC0 | .fp16 => some 0x7E00 | .e5m2 => some 0x7E
  | .e4m3 => some 0x7F | _ => none

/-- The exact value of a magnitude code: mantissa bits `mb`, bias `b` (R61). -/
def magVal (mb : Nat) (b : Int) (c : Nat) : Nat × Int :=
  let e := c / 2 ^ mb
  let m := c % 2 ^ mb
  if e = 0 then (m, 1 - b - mb) else (m + 2 ^ mb, (e : Int) - b - mb)

/-- The exact value of a floating-point code of `cb` value bits (R61, Table 3.1). -/
def fltVal (f : Fmt) (mb : Nat) (b : Int) (maxc cb c : Nat) : EV :=
  let mag := c % 2 ^ (cb - 1)
  let neg := decide (2 ^ (cb - 1) ≤ c)
  if mag ≤ maxc then
    let v := magVal mb b mag
    .fin neg v.1 v.2
  else if f.hasInf && decide (mag = maxc + 1) then .inf neg
  else if (f.nanCode).isSome then .nan
  else let v := magVal mb b mag; .fin neg v.1 v.2

/-- The exact value of an element container (R60, R61, R63, R65); offset codes give q (R64). -/
def codeVal (f : Fmt) (container : Nat) : EV :=
  match f with
  | .int4 => evInt (sextI 4 container)
  | .int8 => evInt (sextI 8 container)
  | .q4 => .fin false (container % 16) 0
  | .q8 => .fin false (container % 256) 0
  | .idx => evZero
  | .t19 => fltVal .t19 10 127 0x3FBFF 19 (container / 8192 % 2 ^ 19)
  | f =>
    match f.flt with
    | some (mb, b, maxc) => fltVal f mb b maxc f.cbits (container % 2 ^ f.cbits)
    | none => evZero

/-- The exact value of an FP32 code. -/
def f32Val (c : Nat) : EV := codeVal .fp32 c

/-! ## Rounding -/

/-- Rounding modes (Table 3.5); SR carries the draw r of R71. -/
inductive Rnd where
  | rne
  | rtz
  | sr (r : Nat)
  deriving DecidableEq, Repr

/-- The bits of a number: 0 for 0. -/
def bitLen (n : Nat) : Nat := if n = 0 then 0 else Nat.log2 n + 1

/-- floor(log2(num / den × 2^e)) for num, den > 0. -/
def log2Ratio (num den : Nat) (e : Int) : Int :=
  let k : Int := (bitLen num : Int) - (bitLen den : Int)
  -- num / den lies in [2^(k-1), 2^(k+1)).
  let ge := if 0 ≤ k then decide (den * 2 ^ k.toNat ≤ num) else decide (den ≤ num * 2 ^ (-k).toNat)
  (if ge then k else k - 1) + e

/-- Quotient and remainder state of num / den × 2^(e − u): floor, and whether the rest is above, at or below a half. -/
def divAt (num den : Nat) (d : Int) : Nat × Nat × Nat :=
  let n := if 0 ≤ d then num * 2 ^ d.toNat else num
  let m := if 0 ≤ d then den else den * 2 ^ (-d).toNat
  (n / m, n % m, m)

/-- Round a quotient with its remainder to an integer (Table 3.5). -/
def rndInt (r : Rnd) (q rem m : Nat) : Nat :=
  match r with
  | .rne => if m < 2 * rem ∨ (2 * rem = m ∧ q % 2 = 1) then q + 1 else q
  | .rtz => q
  | .sr d => if m * 65536 ≤ rem * 65536 + d * m then q + 1 else q

/-- What a conversion of one element gives. -/
structure Cvt where
  /-- The code in its container. -/
  code : Nat
  /-- The element saturated or overflowed (R72, R73). -/
  cnt : Bool
  /-- The element is NaN; where the format has no NaN code it is marked and the code is zero (R73). -/
  nan : Bool
  /-- The element is an infinity. -/
  inf : Bool
  deriving DecidableEq, Repr

/-- Container of a code: T19 lies at [31:13] (Table 3.2). -/
def contain (f : Fmt) (c : Nat) : Nat := if f = .t19 then c * 8192 else c

/-- Overflow result of a finite value (Table 3.6). -/
def ovfRes (f : Fmt) (ovf neg : Bool) (maxc : Nat) : Cvt :=
  let sgn := if neg then 2 ^ (f.cbits - 1) else 0
  if ovf && f.hasInf then { code := contain f (sgn + maxc + 1), cnt := true, nan := false, inf := true }
  else if ovf && decide (f = .e4m3) then { code := 0x7F, cnt := true, nan := true, inf := false }
  else { code := contain f (sgn + maxc), cnt := true, nan := false, inf := false }

/-- Round a positive exact value num / den × 2^e into a floating-point format (R70–R72). -/
def rndFlt (f : Fmt) (mb : Nat) (b : Int) (maxc : Nat) (r : Rnd) (ovf neg : Bool) (num den : Nat) (e : Int) : Cvt :=
  let sgn := if neg then 2 ^ (f.cbits - 1) else 0
  let emin : Int := 1 - b - mb
  let u := max (log2Ratio num den e - mb) emin
  let (q, rem, m) := divAt num den (e - u)
  let q' := rndInt r q rem m
  -- The largest finite magnitude, and its unit in the last place.
  let mx := magVal mb b maxc
  let lim : Nat × Int := match r with
    | .rne => (2 * mx.1 + 1, mx.2 - 1)
    | _ => (mx.1 + 1, mx.2)
  -- The value reaches the threshold (RNE, RTZ), or y exceeds the largest finite value (SR).
  let ovr := match r with
    | .sr _ =>
      let x := min u mx.2
      decide (shl mx.1 (mx.2 - x) < shl q' (u - x))
    | _ =>
      let d := e - lim.2
      if 0 ≤ d then decide (lim.1 * den ≤ num * 2 ^ d.toNat) else decide (lim.1 * den * 2 ^ (-d).toNat ≤ num)
  if ovr then ovfRes f ovf neg maxc
  else
    let c := min maxc (((u - emin).toNat) * 2 ^ mb + q')
    { code := contain f (sgn + c), cnt := false, nan := false, inf := false }

/-- The exact value y = ±num / den × 2^e + z as a signed numerator over a positive denominator. -/
def offsetRatio (neg : Bool) (num den : Nat) (e z : Int) : Int × Nat :=
  let n : Int := (shl num (max e 0) : Nat)
  let d := shl den (max (-e) 0)
  ((if neg then -n else n) + z * (d : Nat), d)

/-- Round the exact value y = ±num / den × 2^e + z, its zero point included, into an integer range [lo, hi], once (R63,
R64, R74). It saturates where it reaches the end of the range plus a half under RNE, plus one otherwise (Table 3.6). -/
def rndRange (r : Rnd) (neg : Bool) (num den : Nat) (e : Int) (z lo hi : Int) : Int × Bool :=
  let (y, d) := offsetRatio neg num den e z
  let t : Int := if r = .rne then 1 else 2
  if (2 * hi + t) * (d : Nat) ≤ 2 * y then (hi, true)
  else if 2 * y ≤ (2 * lo - t) * (d : Nat) then (lo, true)
  else
    let q : Int := (rndInt r (y.natAbs / d) (y.natAbs % d) d : Nat)
    (max lo (min hi (if y < 0 then -q else q)), false)

/-- Two's-complement container of an integer. -/
def intCode (w : Nat) (i : Int) : Nat := if i < 0 then ((2 ^ w : Nat) : Int).toNat - i.natAbs else i.toNat

/-- Integer formats: bits, range. -/
def Fmt.irange : Fmt → Int × Int
  | .int4 => (-7, 7)
  | .int8 => (-127, 127)
  | .q4 => (0, 15)
  | .q8 => (0, 255)
  | _ => (0, 0)

/-- Convert the exact value x / s, where s = sn × 2^se > 0 is the scale of the target, into a format, once
(R64, R72–R74). `z` is the zero point of an offset code. -/
def cvtScaled (f : Fmt) (r : Rnd) (ovf : Bool) (z : Int) (x : EV) (sn : Nat) (se : Int) : Cvt :=
  match x with
  | .nan => { code := contain f ((f.nanCode).getD 0), cnt := false, nan := true, inf := false }
  | .inf neg =>
    match f.flt with
    | some (_, _, maxc) =>
      let sgn := if neg then 2 ^ (f.cbits - 1) else 0
      if !ovf then { code := contain f (sgn + maxc), cnt := true, nan := false, inf := false }
      else if f.hasInf then { code := contain f (sgn + maxc + 1), cnt := false, nan := false, inf := true }
      else { code := (f.nanCode).getD 0, cnt := true, nan := true, inf := false }
    | none =>
      if ovf then { code := 0, cnt := true, nan := true, inf := false }
      else
        let lim := f.irange
        { code := intCode f.cbits (if neg then lim.1 else lim.2), cnt := true, nan := false, inf := false }
  | .fin neg m e =>
    match f.flt with
    | some (mb, b, maxc) =>
      if m = 0 then { code := contain f (if neg then 2 ^ (f.cbits - 1) else 0), cnt := false, nan := false, inf := false }
      else rndFlt f mb b maxc r ovf neg m sn (e - se)
    | none =>
      let lim := f.irange
      let (v, sat) := rndRange r neg m sn (e - se) z lim.1 lim.2
      { code := intCode f.cbits v, cnt := sat, nan := false, inf := false }

/-- Convert the exact value x / X into an offset code with zero point z, X being any value that stands in a scale
descriptor (R64): a sign carries over, and the quotients by zero and by a non-finite X are those of IEEE 754. -/
def cvtBy (f : Fmt) (r : Rnd) (ovf : Bool) (z : Int) (x X : EV) : Cvt :=
  match X with
  | .nan => cvtScaled f r ovf z .nan 1 0
  | .inf _ => cvtScaled f r ovf z (if x.isFin then evZero else .nan) 1 0
  | .fin n m e =>
    if m = 0 then cvtScaled f r ovf z (if x.isNan || x.isZero then .nan else .inf (n != x.neg?)) 1 0
    else cvtScaled f r ovf z (if n then evNeg x else x) m e

/-- Convert an exact value into an unscaled format. -/
def cvt (f : Fmt) (r : Rnd) (ovf : Bool) (x : EV) : Cvt := cvtScaled f r ovf 0 x 1 0

/-- The FP32 code of an exact value, rounded once with RNE, overflow to infinity, as IEEE 754 gives. -/
def f32Of (x : EV) : Nat := (cvt .fp32 .rne true x).code

/-- The exact value rounded once to FP32 (RNE). -/
def rne (x : EV) : EV := f32Val (f32Of x)

/-- FP32 of a ratio of integers times a power of two, rounded once (for quotients); zero denominators are excluded by
the callers. -/
def rneRatio (neg : Bool) (num den : Nat) (e : Int) : EV :=
  if num = 0 then .fin neg 0 0 else f32Val (rndFlt .fp32 23 127 0x7F7FFFFF .rne true neg num den e).code

/-- Correctly rounded quotient (R298, IEEE 754 special cases). -/
def evDiv (a b : EV) : EV :=
  match a, b with
  | .nan, _ => .nan
  | _, .nan => .nan
  | .inf _, .inf _ => .nan
  | .inf n, .fin n2 _ _ => .inf (n != n2)
  | .fin n _ _, .inf n2 => .fin (n != n2) 0 0
  | .fin n1 m1 e1, .fin n2 m2 e2 =>
    if m2 = 0 then (if m1 = 0 then .nan else .inf (n1 != n2))
    else rneRatio (n1 != n2) m1 m2 (e1 - e2)

/-- Newton iteration for the integer square root, from above. -/
def isqrtGo : Nat → Nat → Nat → Nat
  | 0, _, x => x
  | k + 1, n, x =>
    let y := (x + n / x) / 2
    if y < x then isqrtGo k n y else x

/-- Integer square root. -/
def isqrt (n : Nat) : Nat := if n = 0 then 0 else isqrtGo (bitLen n + 8) n (2 ^ ((bitLen n + 1) / 2))

/-- Correctly rounded square root of m × 2^e: 160 bits of root and a sticky bit. -/
def sqrtPos (m : Nat) (e : Int) : EV :=
  let sh : Int := 320 + (if (e % 2 = 0) then 0 else 1)
  let n := m * 2 ^ sh.toNat
  let q := isqrt n
  let q2 := 2 * q + (if q * q = n then 0 else 1)
  rneRatio false q2 1 ((e - sh) / 2 - 1)

/-- Correctly rounded square root (IEEE 754 special cases). -/
def evSqrt : EV → EV
  | .nan => .nan
  | .inf n => if n then .nan else .inf false
  | .fin n m e => if m = 0 then .fin n 0 0 else if n then .nan else sqrtPos m e

/-- Correctly rounded reciprocal square root: 1 / sqrt(±0) = ±∞. -/
def evRsqrt : EV → EV
  | .nan => .nan
  | .inf n => if n then .nan else evZero
  | .fin n m e =>
    if m = 0 then .inf n
    else if n then .nan
    else
      let m2 := if e % 2 = 0 then m else 2 * m
      let e2 : Int := if e % 2 = 0 then e else e - 1
      -- 1 / sqrt(m2 × 2^e2) = sqrt(2^(2t) / m2) × 2^(−t − e2/2)
      let t := bitLen m2 + 160
      let n := 2 ^ (2 * t) / m2
      let q := isqrt n
      let q2 := 2 * q + (if q * q * m2 = 2 ^ (2 * t) then 0 else 1)
      rneRatio false q2 1 (-(t : Int) - e2 / 2 - 1)

/-- Fused multiply-add, rounded once to FP32. -/
def evFma (a b c : EV) : EV := rne (evAdd (evMul a b) c)

/-! ## S8 micro-scales (R77) -/

/-- Numerator and exponent of an S8 code other than 0x00 and 0xFF. -/
def s8Val (c : Nat) : Nat × Int :=
  let e := c / 8
  let m := c % 8
  if e = 0 then (m, -17) else (8 + m, (e : Int) - 18)

/-- The smallest S8 code v in 0x01 to 0xFE with a ≤ v × x × fmax, else 0xFE (R80). a, x, fmax exact positive. -/
def smallestS8 (am : Nat) (ae : Int) (xm : Nat) (xe : Int) (fm : Nat) (fe : Int) : Nat :=
  let fits := fun c =>
    let v := s8Val c
    let l := v.1 * xm * fm
    let le := v.2 + xe + fe
    let e := min ae le
    decide (shl am (ae - e) ≤ shl l (le - e))
  -- Binary search over the monotone codes 1..254.
  let go := [128, 64, 32, 16, 8, 4, 2, 1].foldl (fun lo step => if lo + step ≤ 254 ∧ !fits (lo + step) then lo + step else lo) 0
  min 254 (go + 1)

end Sys2Proof.Machine
end

