-- ==== Sys2Proof/Config.lean ====
section
/-! DEFINITION. Values that the spec leaves open, as constants without a body: nothing in Lean can evaluate them. Those
that an event draws afresh take the model's counter `State.free` as their argument. -/
namespace Sys2Proof.Config

/-- State in which the PRBS31 of pattern 0 starts for a sector: R281 keys it by SEED and address and gives no key (log 41). -/
opaque tgKey (seed sector : Nat) : Nat

/-- Word w of the address pattern of a sector: R281 does not say how the address fills its 32 bytes (log 41). -/
opaque tgAddress (sector w : Nat) : BitVec 32

/-- Place of the walking bit in a sector, modulo its 256 bits: R281 does not say how it walks (log 41). -/
opaque tgWalk (sector : Nat) : Nat

/-- Sector that a PRBS31 state of the random address order stands for (R281, log 41). -/
opaque tgRandom (state : Nat) : Nat

/-- Fetch k is served by the sequencer's own instruction cache, whose size R201 does not give (log 32). -/
opaque fetchHit (k : Nat) : Bool

/-- Element code t of a group of a converted MX tensor that holds a NaN, by its format and its values as FP32 codes: R92
gives its scale byte only (log 43). -/
opaque mxNanCode (fmt : Nat) (vals : List Nat) (t : Nat) : Nat

/-- Second-level scale that a slot's commit gives, before its bounds, where ALPHA or the history is NaN: R237 states none
(log 222). -/
opaque estNan (alpha h m : Nat) : BitVec 32

/-- INT32 accumulator that an FP32 c0 starts, by its code and the code of the output scale, where the two do not give an
integer: R85 and R215 state no value (log 44). -/
opaque intC0 (c0 scale : Nat) : BitVec 32

/-- Private identity key number k of the module, before its reduction into range (R471, R475): no reader outside the
module learns it. -/
opaque identityKey (k : Nat) : Nat

/-- Nonce of an ECDSA signature, drawn afresh. -/
opaque ecdsaNonce (k : Nat) : Nat

/-- The 32-byte nonce of a debug challenge (R472). -/
opaque debugNonce (k : Nat) : Nat

/-- The certificate signing request that PROVISION returns for an identity key: its bytes are given nowhere (R475). -/
opaque certRequest (k : Nat) : List (BitVec 8)

/-- Bytes that a port's ingress buffer passes on in the tick at a beacon count: R425 gives its destinations' rate no value
(log 119). -/
opaque portDrain (port beacon : Nat) : Nat

/-- How often the slow-tier engines' two computations disagree over a master block of a bundle's command: a fault of the
hardware that no row's operand brings (R301, R378; log 79). -/
opaque slowMiss (k cmd block : Nat) : Nat

/-- Whether the decay of a penalty rounds up: R391 gives no rounding. -/
opaque decayUp (k p : Nat) : Bool

end Sys2Proof.Config
end

