-- ==== Sys2Proof/Decode.lean ====
section
/-! DEFINITION. Decoding. No row of the table of operations gives bits, so `decodeTableWord` answers none. The 128-bit
PTI word that the sequencers fetch (R197) has its decoder, its legality rules (R198, R204, R216, R222) and its encoder
here. -/
namespace Sys2Proof

/-- The command a word spells by the table's bits: no row gives bits. -/
def decodeTableWord (_nbits _w : Nat) : Option Instr := none

/-- CLASS and OP of an operation (Tables 6.9, 7.3 to 7.6, 7.8, 7.10, 7.11, 7.13 to 7.15). -/
def ptiCode : PtiOp → BitVec 4 × BitVec 8
  | .nop => (0, 0x00) | .jmp => (0, 0x01) | .call => (0, 0x02) | .ret => (0, 0x03) | .halt => (0, 0x04)
  | .ctlStep => (0, 0x08) | .ctlSlipg => (0, 0x09) | .bwait => (0, 0x0A) | .bread => (0, 0x0B) | .ctrRd => (0, 0x0C)
  | .syncAdd => (1, 0x00) | .syncSet => (1, 0x01) | .wait => (1, 0x02) | .waitTo => (1, 0x03) | .syncRd => (1, 0x04)
  | .li => (2, 0x00) | .lih => (2, 0x01) | .mov => (2, 0x02) | .add => (2, 0x03) | .sub => (2, 0x04)
  | .mul => (2, 0x05) | .andI => (2, 0x06) | .orI => (2, 0x07) | .xorI => (2, 0x08) | .shl => (2, 0x09)
  | .shr => (2, 0x0A) | .sar => (2, 0x0B) | .cmp => (2, 0x10) | .plog => (2, 0x11) | .lds => (2, 0x18)
  | .sts => (2, 0x19) | .dld => (2, 0x1C) | .tagp => (2, 0x1D)
  | .xferCopy => (3, 0x00) | .xferMcast => (3, 0x01) | .xferZero => (3, 0x02) | .xferPref => (3, 0x03)
  | .xferColl => (3, 0x04)
  | .mmaFp4 => (4, 0x00) | .mmaFp8 => (4, 0x01) | .mmaBf16 => (4, 0x02) | .mmaT19 => (4, 0x03) | .mmaF32 => (4, 0x04)
  | .vecAdd => (5, 0x00) | .vecSub => (5, 0x01) | .vecMul => (5, 0x02) | .vecFma => (5, 0x03) | .vecMax => (5, 0x04)
  | .vecMin => (5, 0x05) | .vecAbs => (5, 0x06) | .vecNeg => (5, 0x07) | .vecExp => (5, 0x08) | .vecLog => (5, 0x09)
  | .vecRcp => (5, 0x0A) | .vecSqrt => (5, 0x0B) | .vecRsqrt => (5, 0x0C) | .vecTanh => (5, 0x0D)
  | .vecSigm => (5, 0x0E) | .cvt => (5, 0x10) | .vecSum => (5, 0x18) | .vecRmax => (5, 0x19) | .vecAmax => (5, 0x1A)
  | .gate => (6, 0x00) | .dispatch => (6, 0x01) | .combine => (6, 0x02)
  | .updAdam => (7, 0x00) | .updSgdm => (7, 0x01) | .updSignm => (7, 0x02)
  | .chkVerify => (8, 0x00) | .chkFold => (8, 0x01) | .chkCmp => (8, 0x02)

/-- The operation of an OP within a CLASS; none is an unassigned OP or an illegal CLASS (R198). -/
def ptiOpOf (cls op : Nat) : Option PtiOp :=
  match cls with
  | 0 => match op with
    | 0x00 => some .nop | 0x01 => some .jmp | 0x02 => some .call | 0x03 => some .ret | 0x04 => some .halt
    | 0x08 => some .ctlStep | 0x09 => some .ctlSlipg | 0x0A => some .bwait | 0x0B => some .bread
    | 0x0C => some .ctrRd | _ => none
  | 1 => match op with
    | 0x00 => some .syncAdd | 0x01 => some .syncSet | 0x02 => some .wait | 0x03 => some .waitTo
    | 0x04 => some .syncRd | _ => none
  | 2 => match op with
    | 0x00 => some .li | 0x01 => some .lih | 0x02 => some .mov | 0x03 => some .add | 0x04 => some .sub
    | 0x05 => some .mul | 0x06 => some .andI | 0x07 => some .orI | 0x08 => some .xorI | 0x09 => some .shl
    | 0x0A => some .shr | 0x0B => some .sar | 0x10 => some .cmp | 0x11 => some .plog | 0x18 => some .lds
    | 0x19 => some .sts | 0x1C => some .dld | 0x1D => some .tagp | _ => none
  | 3 => match op with
    | 0x00 => some .xferCopy | 0x01 => some .xferMcast | 0x02 => some .xferZero | 0x03 => some .xferPref
    | 0x04 => some .xferColl | _ => none
  | 4 => match op with
    | 0x00 => some .mmaFp4 | 0x01 => some .mmaFp8 | 0x02 => some .mmaBf16 | 0x03 => some .mmaT19
    | 0x04 => some .mmaF32 | _ => none
  | 5 => match op with
    | 0x00 => some .vecAdd | 0x01 => some .vecSub | 0x02 => some .vecMul | 0x03 => some .vecFma
    | 0x04 => some .vecMax | 0x05 => some .vecMin | 0x06 => some .vecAbs | 0x07 => some .vecNeg
    | 0x08 => some .vecExp | 0x09 => some .vecLog | 0x0A => some .vecRcp | 0x0B => some .vecSqrt
    | 0x0C => some .vecRsqrt | 0x0D => some .vecTanh | 0x0E => some .vecSigm | 0x10 => some .cvt
    | 0x18 => some .vecSum | 0x19 => some .vecRmax | 0x1A => some .vecAmax | _ => none
  | 6 => match op with
    | 0x00 => some .gate | 0x01 => some .dispatch | 0x02 => some .combine | _ => none
  | 7 => match op with
    | 0x00 => some .updAdam | 0x01 => some .updSgdm | 0x02 => some .updSignm | _ => none
  | 8 => match op with
    | 0x00 => some .chkVerify | 0x01 => some .chkFold | 0x02 => some .chkCmp | _ => none
  | _ => none

/-- Why a word is illegal (R198, R204). -/
inductive PtiReject where
  | illegalClass
  | unassignedOp
  | modEncoding
  | operandIndex
  | nonzeroReserved
  deriving DecidableEq, Repr

/-- What an operand field indexes (R204). -/
inductive OpKind where
  | none | scalar | pred | desc
  deriving DecidableEq, Repr

/-- The operand fields of an operation, in the order OPD, OPA, OPB, OPC. -/
def ptiKinds : PtiOp → OpKind × OpKind × OpKind × OpKind
  | .nop | .jmp | .call | .ret | .halt | .ctlSlipg => (.none, .none, .none, .none)
  | .ctlStep | .bwait | .syncAdd | .syncSet | .xferColl => (.none, .scalar, .none, .none)
  | .bread | .ctrRd | .syncRd | .li | .lih => (.scalar, .none, .none, .none)
  | .wait => (.pred, .scalar, .none, .none)
  | .waitTo | .cmp => (.pred, .scalar, .scalar, .none)
  | .mov | .lds => (.scalar, .scalar, .none, .none)
  | .add | .sub | .mul | .andI | .orI | .xorI | .shl | .shr | .sar => (.scalar, .scalar, .scalar, .none)
  | .plog => (.pred, .pred, .pred, .none)
  | .sts => (.none, .scalar, .scalar, .none)
  | .dld => (.desc, .scalar, .none, .none)
  | .tagp | .chkVerify => (.pred, .desc, .scalar, .none)
  | .xferCopy | .xferMcast => (.desc, .desc, .scalar, .scalar)
  | .xferZero => (.desc, .none, .none, .none)
  | .xferPref | .chkFold => (.none, .desc, .none, .none)
  | .mmaFp4 | .mmaFp8 | .mmaBf16 | .mmaT19 | .mmaF32 => (.desc, .desc, .desc, .scalar)
  | .vecAdd | .vecSub | .vecMul | .vecMax | .vecMin => (.desc, .desc, .desc, .none)
  | .vecFma => (.desc, .desc, .desc, .desc)
  | .vecAbs | .vecNeg | .vecExp | .vecLog | .vecRcp | .vecSqrt | .vecRsqrt | .vecTanh | .vecSigm | .cvt | .vecSum
  | .vecRmax | .vecAmax => (.desc, .desc, .none, .none)
  | .gate | .combine => (.desc, .desc, .none, .none)
  | .dispatch => (.none, .desc, .desc, .none)
  | .updAdam => (.desc, .desc, .desc, .desc)
  | .updSgdm | .updSignm => (.desc, .desc, .desc, .none)
  | .chkCmp => (.pred, .desc, .desc, .none)

/-- The MOD bits an operation uses (R204); RND at [1:0], SATM at [2], PASS at [4:3] (Table 6.9). -/
def ptiModMask : PtiOp → BitVec 16
  | .jmp | .call => 0x0001
  | .ctlStep | .syncAdd | .wait | .waitTo => 0x8000
  | .add | .sub | .mul | .andI | .orI | .xorI | .shl | .shr | .sar => 0x8000
  | .cmp => 0x800E
  | .plog => 0x0006
  | .tagp => 0x0002
  | .xferCopy => 0x0207
  | .mmaFp4 | .mmaFp8 | .mmaBf16 | .mmaT19 | .mmaF32 => 0x07FF
  | .vecAdd | .vecSub | .vecMul | .vecFma | .vecMax | .vecMin => 0x8207
  | .vecAbs | .vecNeg | .vecExp | .vecLog | .vecRcp | .vecSqrt | .vecRsqrt | .vecTanh | .vecSigm | .cvt => 0x0207
  | .vecSum | .vecRmax | .vecAmax => 0x0E07
  | .gate => 0x0020
  | .dispatch => 0x0040
  | .combine => 0x0087
  | .updAdam | .updSgdm | .updSignm => 0x0007
  | _ => 0x0000

/-- RND of a word. -/
def wRnd (w : PtiWord) : Nat := w.mod.toNat % 4

/-- SATM of a word: true is OVF. -/
def wOvf (w : PtiWord) : Bool := w.mod.getLsbD 2

/-- PASS of a word. -/
def wPass (w : PtiWord) : Nat := w.mod.toNat / 8 % 4

/-- SEMI of an MMA word (Table 7.8). -/
def wSemi (w : PtiWord) : Nat := w.mod.toNat / 32 % 8

/-- IMMF of a word. -/
def wImmf (w : PtiWord) : Bool := w.mod.getLsbD 15

/-- The RND field of an operation is illegal: 3 everywhere, SR outside UPD (R204, R222, Table 7.14). -/
def ptiRndBad (op : PtiOp) (w : PtiWord) : Bool :=
  match op with
  | .updAdam | .updSgdm | .updSignm => decide (wRnd w = 3)
  | .xferCopy | .mmaFp4 | .mmaFp8 | .mmaBf16 | .mmaT19 | .mmaF32 | .vecAdd | .vecSub | .vecMul | .vecFma | .vecMax
  | .vecMin | .vecAbs | .vecNeg | .vecExp | .vecLog | .vecRcp | .vecSqrt | .vecRsqrt | .vecTanh | .vecSigm | .cvt
  | .vecSum | .vecRmax | .vecAmax | .combine => decide (2 ≤ wRnd w)
  | _ => false

/-- A MOD field other than RND holds an illegal encoding: CMP condition 6 or 7 (Table 7.4), SEMI 6 or 7, PASS against
the class (R216). -/
def ptiModBad (op : PtiOp) (w : PtiWord) : Bool :=
  match op with
  | .cmp => decide (6 ≤ w.mod.toNat / 2 % 8)
  | .mmaF32 => decide (6 ≤ wSemi w) || decide (wPass w = 0)
  | .mmaFp4 | .mmaFp8 | .mmaBf16 | .mmaT19 => decide (6 ≤ wSemi w) || decide (2 ≤ wPass w)
  | _ => false

/-- An operand field exceeds what it indexes: p0–p7, d0–d15 (R204). -/
def kindBad (k : OpKind) (f : BitVec 5) : Bool :=
  match k with
  | .pred => decide (8 ≤ f.toNat)
  | .desc => decide (16 ≤ f.toNat)
  | _ => false

/-- dB is replaced by a constant under IMMF, so its field is not used (Table 7.9). -/
def ptiOpbKind (op : PtiOp) (w : PtiWord) : OpKind :=
  if wImmf w && (ptiCode op).1 == 5 then .none else (ptiKinds op).2.2.1

/-- The legality of a word whose class, operation and reserved bits are good. -/
def ptiLegal (op : PtiOp) (w : PtiWord) : Option PtiReject :=
  if w.mod &&& ~~~(ptiModMask op) ≠ 0 then some .modEncoding
  else if ptiRndBad op w || ptiModBad op w then some .modEncoding
  else if kindBad (ptiKinds op).1 w.opd || kindBad (ptiKinds op).2.1 w.opa || kindBad (ptiOpbKind op w) w.opb
      || kindBad (ptiKinds op).2.2.2 w.opc then some .operandIndex
  else none

/-- One bit. -/
def bit1 (b : Bool) : BitVec 1 := if b then 1 else 0

/-- The 128-bit word of an instruction (Table 6.9). -/
def ptiEncode (op : PtiOp) (w : PtiWord) : BitVec 128 :=
  (ptiCode op).1 ++ (ptiCode op).2 ++ bit1 w.gneg ++ w.gpred ++ w.mod ++ w.opd ++ w.opa ++ w.opb ++ w.opc ++ w.sig
    ++ bit1 w.sigv ++ w.tgt ++ (0 : BitVec 11) ++ w.imm

/-- The fields of a 128-bit word (Table 6.9). -/
def ptiFields (v : BitVec 128) : PtiWord :=
  { gneg := v.getLsbD 115, gpred := v.extractLsb' 112 3, mod := v.extractLsb' 96 16, opd := v.extractLsb' 91 5,
    opa := v.extractLsb' 86 5, opb := v.extractLsb' 81 5, opc := v.extractLsb' 76 5, sig := v.extractLsb' 64 12,
    sigv := v.getLsbD 63, tgt := v.extractLsb' 59 4, imm := v.extractLsb' 0 48 }

/-- Decode a fetched word, refusing an illegal one by name (R198). -/
def ptiDecode (v : BitVec 128) : Except PtiReject (PtiOp × PtiWord) :=
  let cls := (v.extractLsb' 124 4).toNat
  if 9 ≤ cls then .error .illegalClass
  else
    match ptiOpOf cls (v.extractLsb' 116 8).toNat with
    | none => .error .unassignedOp
    | some op =>
      if v.extractLsb' 48 11 ≠ 0 then .error .nonzeroReserved
      else
        match ptiLegal op (ptiFields v) with
        | some r => .error r
        | none => .ok (op, ptiFields v)

end Sys2Proof
end

