-- ==== Sys2Proof/Machine/Operands.lean ====
section
/-! DEFINITION. The operand forms of PTI instructions: fetch, guard, readiness, scalar and immediate operands, the end
of an instruction, and completion signals (R171–R176, R197–R198, R204, R207). -/
namespace Sys2Proof.Machine

/-- The module issues work: no commit failure (R41), no power hold (R442). -/
def issueOk (s : State) : Bool := !s.stopIssue && !s.holdIssue

/-- The 128-bit word at an address (R197); none where a sequencer's access cannot reach (R211, R254, R265, R275). -/
def ptiFetch (s : State) (pc : Nat) : Option (BitVec 128) :=
  if (accChk s pc false).isSome || poisoned s (xlatPage s pc) 16 then none
  else some (BitVec.ofNat 128 (rdLE s pc 16))

/-- The fetch of the word at a sequencer's PC as the region cache sees it, under NORMAL (R257, R259): whether the
sequencer's own instruction cache (R201) serves it is open. A queue stall keeps the word it has. -/
def fetched (s : State) (q : Nat) : State :=
  let x := seqAt s q
  if decide (x.st = .queueStall) then s
  else
    let s1 := { s with free := s.free + 1 }
    if Config.fetchHit s.free then s1 else traffic s1 (some (q / 16)) 0 (xlatPage s x.pc) 16 false

/-- The module is in run or dim, where sequencers run (Table 16.4). -/
def awake (s : State) : Bool := decide (s.pwr = .run) || decide (s.pwr = .dim)

/-- Issue of a die is stopped at D3 (R446, R447). -/
def dieHot (s : State) (d : Nat) : Bool := decide (3 ≤ fld s (.clk d) rClkStatus 18 16)

/-- The sequencer is at an instruction boundary and runs: STATE running, or queue stall, which tries again (R171). -/
def seqLive (s : State) (q : Nat) : Bool :=
  let st := (seqAt s q).st
  awake s && !dieHot s (q / 64) &&
  (decide (st = .running) || decide (st = .queueStall)) && issueOk s && dieIn s (q / 64)

/-- An operand field that names a pending predicate stalls the instruction (R229). -/
def pendHit (x : Seq) (k : OpKind) (f : BitVec 5) : Bool := decide (k = .pred) && x.pend.getLsbD f.toNat

/-- The instruction reads or writes a pending predicate (R229). -/
def pendStall (x : Seq) (op : PtiOp) (w : PtiWord) : Bool :=
  x.pend.getLsbD w.gpred.toNat || pendHit x (ptiKinds op).1 w.opd || pendHit x (ptiKinds op).2.1 w.opa
    || pendHit x (ptiKinds op).2.2.1 w.opb

/-- The word at the sequencer's PC is this legal instruction, and nothing stalls it. -/
def seqReady (s : State) (q : Nat) (op : PtiOp) (w : PtiWord) : Bool :=
  seqLive s q && !pendStall (seqAt s q) op w &&
    match ptiFetch s (seqAt s q).pc with
    | some v => decide (v = ptiEncode op w) && decide (ptiLegal op w = none)
    | none => false

/-- Deterministic mode in force (R195). -/
def detNow (s : State) : Bool := rbit s .hub rHubDetmode 1

/-- Change the record of a step. -/
def updStep (s : State) (n : Nat) (f : StepRec → StepRec) : State :=
  { s with steps := s.steps.map (fun r => if r.n = n then f r else r) }

/-- Set NDET of a sequencer and of the step in its STEP, under DET = 1 (R195, R196, R213). -/
def setNdet (s : State) (q : Nat) : State :=
  if detNow s then
    { s with
      seqs := smUpd (fun _ => Seq.reset) s.seqs q (fun x => { x with ndet := true })
      regs := smUpd regRst s.regs (Blk.base (.clu q) + rCluSeqStatus) (fun v => BitVec.ofNat 32 (setBit v.toNat 8))
      steps := s.steps.map (fun r => if r.n = (seqAt s q).step then { r with ndet := true } else r) }
  else s

/-- Reading a predicate that a timed-out WAIT.to wrote sets NDET (R213). -/
def readP (s : State) (q n : Nat) : State :=
  if (seqAt s q).toPred.getLsbD n then setNdet s q else s

/-- The state in which an instruction acts: its word fetched and its guard read. -/
def taken (s : State) (q : Nat) (w : PtiWord) : State := readP (fetched s q) q w.gpred.toNat

/-- The guard of a word holds (Table 6.9). -/
def guardTrue (x : Seq) (w : PtiWord) : Bool := preg x w.gpred.toNat != w.gneg

/-- The last scalar source under IMMF (R203, Table 7.4). -/
def lastSrc (x : Seq) (f : BitVec 5) (w : PtiWord) : DWord :=
  if wImmf w then sext48 w.imm.toNat else sreg x f.toNat

/-- RUN of CLU_SEQ_CTL. -/
def seqRunBit (s : State) (q : Nat) : Bool := rbit s (.clu q) rCluSeqCtl 0

/-- The STATE at an instruction boundary: stopped when RUN is clear or an error is to stop it (R170, R173). -/
def boundarySt (s : State) (q : Nat) (x : Seq) : SeqSt :=
  if seqRunBit s q && !x.stopAtBoundary then .running else .stopped

/-- End an instruction at an address: the sequencer is at its next boundary. -/
def seqEnd (s : State) (q pc : Nat) : State :=
  let x := seqAt s q
  setSeq s q { x with pc := pc, st := boundarySt s q x, stopAtBoundary := false }

/-- End an instruction at the next word. -/
def seqNext (s : State) (q : Nat) : State := seqEnd s q (pcNext (seqAt s q).pc)

/-- The completion object of an instruction receives its 1 (R173, R175). -/
def signal (s : State) (q : Nat) (w : PtiWord) : State :=
  if w.sigv then objSignal s (q / 64) w.sig.toNat 1 else s

/-- Issue an instruction that the sequencer executes itself: `act` is its action, the program counter included. A
false guard performs no action; the completion object of a class other than SYNC still receives its 1 (R175). -/
def ptiSelf (op : PtiOp) (q : Nat) (w : PtiWord) (act : State → State) (s : State) : State :=
  if seqReady s q op w then
    let s0 := taken s q w
    if guardTrue (seqAt s q) w then act s0
    else seqNext (if (ptiCode op).1 == 1 then s0 else signal s0 q w) q
  else s

/-- Complete an instruction of the sequencer: signal, then the next word. -/
def selfDone (s : State) (q : Nat) (w : PtiWord) : State := seqNext (signal s q w) q

/-- Change the sequencer and complete. -/
def selfSet (q : Nat) (w : PtiWord) (f : Seq → Seq) (s : State) : State :=
  selfDone (setSeq s q (f (seqAt s q))) q w

/-- An instruction of the sequencer fails: its destination predicate is written 0, a DLD marks its register invalid,
the status is recorded and raised, and the sequencer goes on (R207). -/
def selfFail (op : PtiOp) (q : Nat) (w : PtiWord) (status : Nat) (s : State) : State :=
  let x := seqAt s q
  let x1 := if (ptiKinds op).1 = .pred then putP x w.opd.toNat false else x
  let x2 := if op = .dld then putD x1 w.opd.toNat none else x1
  let s1 := failStatus (setSeq s q x2) q status x.pc x.step []
  seqNext (if (ptiCode op).1 == 1 then s1 else signal s1 q w) q

/-- Halt at an illegal word: STATE 5 and EVT_PTI_ILLEGAL with the address and the word (R198, R208). -/
def haltIllegal (s : State) (q : Nat) (v : BitVec 128) : State :=
  let x := seqAt s q
  let s1 := setSeq s q { x with st := .halted }
  raise s1 .ptiIllegal (whClu q) x.step [a64 x.pc, a64 (v.toNat % 2 ^ 64), a64 (v.toNat / 2 ^ 64)]

end Sys2Proof.Machine
end

