-- ==== Sys2Proof/Machine/Flags.lean ====
section
/-! DEFINITION. Flags of the module: the FLAGS of a block header (Table 5.5), the vote word of a step (Table 2.3), and
the rules that set them. -/
namespace Sys2Proof.Machine

/-- FLAGS bits (Table 5.5). -/
def flZero : Nat := 0
def flNan : Nat := 1
def flSparse : Nat := 2
def flPat48 : Nat := 3
def flConst : Nat := 4
def flLen : Nat := 5
def flCut : Nat := 6
def flUflow : Nat := 7
def flSat : Nat := 8

/-- A FLAGS word of named bits. -/
def mkFlags (zero nan const_ len cut uflow sat : Bool) : Nat :=
  b2n zero + 2 * b2n nan + 16 * b2n const_ + 32 * b2n len + 64 * b2n cut + 128 * b2n uflow + 256 * b2n sat

/-- Vote word bits (Table 2.3). -/
def vOvf : BitVec 5 := 1
def vNan : BitVec 5 := 2
def vAbft : BitVec 5 := 4
def vCrc : BitVec 5 := 8
def vColl : BitVec 5 := 16

/-- A step is unsealed: OPEN, DRAINING or VOTING (Table 2.1). -/
def unsealed (r : StepRec) : Bool := decide (r.st = .open) || decide (r.st = .draining) || decide (r.st = .voting)

/-- The record of a step. -/
def stepRec (s : State) (n : Nat) : Option StepRec := s.steps.find? (fun r => r.n == n)

/-- The step is unsealed. -/
def stepUnsealed (s : State) (n : Nat) : Bool :=
  match stepRec s n with
  | some r => unsealed r
  | none => false

/-- Set bits of the running vote word of a step (R291). A step that is not unsealed keeps its word. -/
def voteSet (s : State) (n : Nat) (b : BitVec 5) : State :=
  { s with steps := s.steps.map (fun r => if r.n = n ∧ unsealed r then { r with vote := r.vote ||| b } else r) }

/-- The module refuses new work: in eclipse, or under an alarm LOCK response (R428, R437, R478). -/
def worksNot (s : State) : Bool := s.eclipsed || rbit s .sec rSecStatus 6

/-- A wake source leads to run (R452): an exit begins, or an entry stops at its next stage boundary. -/
def wake (s : State) : State :=
  if s.tripped || decide (s.pwr = .off) || decide (s.pwr = .boot) then s
  else { s with pw := { s.pw with target := 0, stop := s.pw.stop || decide (s.pwr.code < s.pw.target) } }

end Sys2Proof.Machine
end

