-- ==== Sys2Proof/Machine/Blocks.lean ====
section
/-! DEFINITION. Tensor blocks (ch. 05): headers, checksums, the checks of a consumer, element values, the encoding of a
writer, and what writers deliver to the scale estimator and the vote. -/
namespace Sys2Proof.Machine

/-- A block header (Table 5.3). -/
structure Hdr where
  fmt : Nat
  layout : Nat
  flags : Nat
  vrows : Nat
  vcols : Nat
  cut : Nat
  /-- Byte 0x07, written as zero. -/
  rsv : Nat := 0
  x : Nat
  tensor : Nat
  block : Nat
  step : Nat
  epoch : Nat
  crc : Nat
  deriving DecidableEq, Repr

/-- Read a header from its 32 bytes. -/
def parseHdr (l : List Byte) : Hdr :=
  { fmt := leAt l 0 1, layout := leAt l 1 1, flags := leAt l 2 2, vrows := leAt l 4 1, vcols := leAt l 5 1,
    cut := leAt l 6 1, rsv := leAt l 7 1, x := leAt l 8 4, tensor := leAt l 12 4, block := leAt l 16 4, step := leAt l 20 4,
    epoch := leAt l 24 4, crc := leAt l 28 4 }

/-- Header bytes 0x00 to 0x1B. -/
def hdrBody (h : Hdr) : List Byte :=
  leBytes 1 h.fmt ++ leBytes 1 h.layout ++ leBytes 2 h.flags ++ leBytes 1 h.vrows ++ leBytes 1 h.vcols
    ++ leBytes 1 h.cut ++ leBytes 1 h.rsv ++ leBytes 4 h.x ++ leBytes 4 h.tensor ++ leBytes 4 h.block ++ leBytes 4 h.step
    ++ leBytes 4 h.epoch

/-- The 32 bytes of a header. -/
def hdrBytes (h : Hdr) : List Byte := hdrBody h ++ leBytes 4 h.crc

/-- ZERO of a header, when NAN is not set too (R152). -/
def Hdr.isZero (h : Hdr) : Bool := bitAt h.flags flZero && !bitAt h.flags flNan
/-- NAN of a header. -/
def Hdr.isNan (h : Hdr) : Bool := bitAt h.flags flNan
/-- The block is its header alone: ZERO or NAN (R154). -/
def Hdr.headOnly (h : Hdr) : Bool := bitAt h.flags flZero || bitAt h.flags flNan
/-- SCALING of a header. -/
def Hdr.scaling (h : Hdr) : Bool := h.layout % 2 == 1
/-- AXIS of a header. -/
def Hdr.axis (h : Hdr) : Bool := h.layout / 2 % 2 == 1

/-- LAYOUT of a descriptor. -/
def Desc.layout (d : Desc) : Nat := b2n d.scaling + 2 * b2n d.axis

/-- Read the fields of a tensor descriptor (Table 6.4). -/
def parseDesc (src : Nat) (l : List Byte) : Desc :=
  { src := src, base := leAt l 0 8, sb := leAt l 8 8, tensor := leAt l 0x10 4, fmt := leAt l 0x14 1,
    scaling := leAt l 0x15 1 % 2 == 1, axis := leAt l 0x15 1 / 2 % 2 == 1, hint := leAt l 0x16 1 % 4,
    zpm := leAt l 0x17 1, rows := leAt l 0x18 4, cols := leAt l 0x1C 4, scd := leAt l 0x28 8, zp := leAt l 0x30 1,
    kind := leAt l 0x31 1, fgroup := leAt l 0x32 2, est := leAt l 0x34 2, blk0 := 0 }

/-- Dense elements of a tile. -/
def Fmt.dense (f : Fmt) : Nat := f.tile.1 * f.tile.2

/-- Micro-scale bytes of a BLOCK block (Table 5.1). -/
def Fmt.msBytes (f : Fmt) : Nat := f.dense / 16

/-- Tile rows and columns of a format code; 1 × 1 for a code outside Table 5.4. -/
def tileOf (fmt : Nat) : Nat × Nat := ((fmtOf fmt).map Fmt.tile).getD (1, 1)

/-- Blocks of a tensor along its rows and columns of tiles (R178). -/
def gridOf (d : Desc) : Nat × Nat := (ceilDiv d.rows (tileOf d.fmt).1, ceilDiv d.cols (tileOf d.fmt).2)

/-- Blocks of a tensor. -/
def nBlocks (d : Desc) : Nat := (gridOf d).1 * (gridOf d).2

/-- Micro-scale bytes of a descriptor's blocks. -/
def descMs (d : Desc) : Nat := if d.scaling then ((fmtOf d.fmt).map Fmt.msBytes).getD 0 else 0

/-- Address of block i (R178). -/
def blkAddr (d : Desc) (i : Nat) : Nat := d.base + 2048 * i

/-- Address of the micro-scales of block i (R143). -/
def msAddr (d : Desc) (i : Nat) : Nat := d.sb + i * descMs d

/-- Formats that a SPARSE block may have (Table 4.4). -/
def sparseFmt : Option Fmt → Bool
  | some f => f.scaled || decide (f = .bf16) || decide (f = .fp16)
  | none => false

/-- A header that is bad after its checksum passed (R152). -/
def badHdr (h : Hdr) : Bool :=
  if bitAt h.flags flZero && bitAt h.flags flNan then false
  else match fmtOf h.fmt with
  | none => true
  | some f =>
    decide (h.vrows = 0) || decide (f.tile.1 < h.vrows) || decide (h.vcols = 0) || decide (f.tile.2 < h.vcols)
      || (bitAt h.flags flCut && decide (h.vrows ≤ h.cut)) || (bitAt h.flags flSparse && !sparseFmt (some f))
      || (h.scaling && !f.scaled)

/-- X is a positive normal FP32 value (R79). -/
def goodX (x : Nat) : Bool := decide (0x00800000 ≤ x) && decide (x ≤ 0x7F7FFFFF)

/-- The checksum of a header with its payload and micro-scales (R154). -/
def blkCrc (h : Hdr) (payload scales : List Byte) : Nat :=
  if h.headOnly then crc32c (hdrBody h)
  else crc32c (hdrBody h ++ payload ++ (if h.scaling then scales else []))

/-- The checksum after a change of header bytes, from the stored one by linearity (R156). `tail` is the payload and
micro-scale bytes that the checksum covers. -/
def recrc (old new : Hdr) (tail : Nat) : Nat :=
  old.crc ^^^ crcDelta (List.zipWith (fun a b => a ^^^ b) (hdrBody old) (hdrBody new)) tail

/-- Payload and micro-scale bytes that a header's checksum covers. -/
def crcTail (h : Hdr) : Nat :=
  if h.headOnly then 0 else 2048 + (if h.scaling then ((fmtOf h.fmt).map Fmt.msBytes).getD 0 else 0)

/-- Who reads or writes blocks: WHERE of its events, the step of its instruction (0 for none), its die, and the region
cache it goes through. -/
structure Cx where
  wh : Nat
  step : Nat
  die : Nat
  rg : Option Nat
  /-- The instruction, by its issue number + 1; 0 for work that is no instruction. -/
  ins : Nat := 0
  deriving DecidableEq, Repr

/-- Header, payload and micro-scales as they lie in memory. -/
structure RawBlk where
  h : Hdr
  payload : List Byte
  scales : List Byte
  deriving DecidableEq, Repr

/-- Read a block as stored: payload and micro-scales only when the header needs them (R145, R157). -/
def rawBlk (s : State) (a ms msLen : Nat) : RawBlk :=
  let p := xlatPage s a
  let h := parseHdr (memBytes s (hdrAddr s p) 32)
  if h.headOnly then { h := h, payload := [], scales := [] }
  else { h := h, payload := memBytes s p 2048, scales := if h.scaling then rdBytes s ms msLen else [] }

/-- The first part of a block, header, payload, micro-scales, that holds a poisoned sector a read of the block takes
(R275): its physical address. -/
def blkPoison (s : State) (a ms msLen : Nat) (h : Hdr) : Option Nat :=
  let p := xlatPage s a
  if poisoned s (hdrAddr s p) 32 then some (hdrAddr s p)
  else if h.headOnly then none
  else if poisoned s p 2048 then some p
  else if h.scaling && poisoned s (xlatPage s ms) msLen then some (xlatPage s ms)
  else none

/-- A read of a poisoned sector counts, sets POISON and raises EVT_MEM_POISON (R275, Table 9.11). -/
def poisonRead (s : State) (a wh step : Nat) : State :=
  match ctrlOf s a with
  | some (.hc k) =>
    raise (setFld (cnt s (.hc k) rHcPoisonRd) (.hc k) rHcStatus 4 4 1) .memPoison wh step []
  | _ => raise s .memPoison wh step []

/-- One failed block check: EVT_BLOCK_CRC and CHK_CRC_FAIL (R155). -/
def crcFail (s : State) (cx : Cx) : State :=
  raise (setFld (cnt s .chk rChkCrcFail) .chk rChkCrcStatus 0 0 1) .blockCrc cx.wh cx.step []

/-- A block that no re-read cures: the counters, the health input and the CRC bit of the vote (R155). The event is that
of status CRC_UNCURED. -/
def crcUncured (s : State) (cx : Cx) : State :=
  voteSet (health (setFld (cnt s .chk rChkCrcUncured) .chk rChkCrcStatus 1 1 1) 12) cx.step vCrc

/-- A block that a consumer has checked. -/
structure BlkVal where
  h : Hdr
  /-- Read as a NAN block: NAN, a bad header or a bad X (R146, R152, R79). -/
  nan : Bool
  payload : List Byte
  scales : List Byte
  deriving DecidableEq, Repr

/-- A block of no data. -/
def BlkVal.none : BlkVal := { h := parseHdr [], nan := false, payload := [], scales := [] }

/-- What a checked read gives: the state with its counts and events, a completion status (0 for OK) and the block. -/
structure RdRes where
  st : State
  status : Nat
  blk : BlkVal
  deriving DecidableEq, Repr

/-- The address checks of one block of a descriptor, header plane and micro-scales included (R142, R143, R206). -/
def blkChk (s : State) (d : Desc) (i : Nat) (wr : Bool) : Option AccErr :=
  let a := blkAddr d i
  if a % 2048 ≠ 0 ∨ (descMs d ≠ 0 ∧ d.sb % 64 ≠ 0) then some .align
  else match accChk s a wr with
    | some e => some e
    | none =>
      if inHdrPlane s a then some .blockAddr
      else if inTest s (hdrAddr s (xlatPage s a)) then some .test
      else if descMs d = 0 then none
      else match accChk s (msAddr d i) wr with
        | some e => some e
        | none => if inHdrPlane s (msAddr d i) then some .blockAddr else none

/-- A reader of values meets a block with a bad X: CHK_BAD_SCALE and EVT_BAD_SCALE (R79). -/
def badScale (s : State) (cx : Cx) (d : Desc) (i : Nat) : State :=
  raise (cnt s .chk rChkBadScale) .badScale cx.wh cx.step [a32 d.tensor, a32 i]

/-- A list of instructions with one more; 0 stands for work that is no instruction. -/
def noteBad (l : List Nat) (i : Nat) : List Nat := if i = 0 ∨ l.contains i then l else i :: l

/-- A writer forms a NAN block for a bad X: CHK_BAD_SCALE, and EVT_BAD_SCALE for the first of its instruction (R79). -/
def badWrite (s : State) (cx : Cx) (d : Desc) (i : Nat) : State :=
  raiseIf (decide (cx.ins = 0) || !s.badWr.contains cx.ins) { cnt s .chk rChkBadScale with badWr := noteBad s.badWr cx.ins }
    .badScale cx.wh cx.step [a32 d.tensor, a32 i]

/-- A consumer meets a header of no legal form (R152): EVT_BAD_HEADER, and its counts. -/
def badHeader (s : State) (cx : Cx) (d : Desc) (i : Nat) : State :=
  raise (setFld (cnt s .chk rChkBadHeader) .chk rChkCrcStatus 2 2 1) .badHeader cx.wh cx.step [a32 d.tensor, a32 i]

/-- The checks after the checksum: a bad header reads as NAN (R152), a header that differs from the descriptor is
BLOCK_MISMATCH (R153), a bad X reads as NAN for a reader of values (R79). -/
def hdrChecks (s : State) (cx : Cx) (d : Desc) (i : Nat) (vals : Bool) (r : RawBlk) : RdRes :=
  if badHdr r.h then
    { st := badHeader s cx d i
      status := 0, blk := { h := r.h, nan := true, payload := [], scales := [] } }
  else if r.h.fmt ≠ d.fmt ∨ r.h.layout ≠ d.layout ∨ r.h.tensor ≠ d.tensor ∨ r.h.block ≠ d.blk0 + i then
    { st := cnt s .chk rChkBlockMismatch, status := 0x02, blk := .none }
  else if vals && !r.h.headOnly && ((fmtOf r.h.fmt).map Fmt.scaled).getD false && !goodX r.h.x then
    { st := badScale s cx d i
      status := 0, blk := { h := r.h, nan := true, payload := [], scales := [] } }
  else { st := s, status := 0, blk := { h := r.h, nan := r.h.isNan, payload := r.payload, scales := r.scales } }

/-- The traffic of a block: header, and unless it is its header alone, payload and micro-scales, each at the controller
that homes it (R257, R282, R283). -/
def blkTraffic (s : State) (rg : Option Nat) (hint a ms msLen : Nat) (h : Hdr) (wr : Bool) : State :=
  let p := xlatPage s a
  let s1 := traffic s rg hint (hdrAddr s p) 32 wr
  if h.headOnly then s1
  else
    let s2 := traffic s1 rg hint p 2048 wr
    if h.scaling && decide (msLen ≠ 0) then traffic s2 rg hint (xlatPage s ms) msLen wr else s2

/-- The header's own format and LAYOUT give the block other micro-scale bytes than the descriptor names: its checksum
cannot be formed, and the block is not the one expected (R153, R154). -/
def scalesElse (d : Desc) (h : Hdr) : Bool :=
  !h.headOnly && h.scaling && ((fmtOf h.fmt).map (fun f => f.scaled && decide (f.msBytes ≠ descMs d))).getD false

/-- Read block i of a tensor as a consumer does (R142, R152–R155, R79). -/
def readBlk (s : State) (cx : Cx) (d : Desc) (i : Nat) (vals : Bool) : RdRes :=
  match blkChk s d i false with
  | some e => { st := raiseAcc s e cx.wh cx.step, status := e.status, blk := .none }
  | none =>
    let a := blkAddr d i
    let r := rawBlk s a (msAddr d i) (descMs d)
    let s2 := cnt64 (blkTraffic s cx.rg d.hint a (msAddr d i) (descMs d) r.h false) .chk rChkBlocksLo 1
    match blkPoison s a (msAddr d i) (descMs d) r.h with
    | some pa => { st := crcUncured (crcFail (poisonRead s2 pa cx.wh cx.step) cx) cx, status := 0x03, blk := .none }
    | none =>
    if scalesElse d r.h then { st := cnt s2 .chk rChkBlockMismatch, status := 0x02, blk := .none }
    else if r.h.crc ≠ blkCrc r.h r.payload r.scales then
      { st := crcUncured (crcFail s2 cx) cx, status := 0x03, blk := .none }
    else hdrChecks s2 cx d i vals r

/-! ## Element values (R78, R110, R146, R147, R181) -/

/-- Unpack containers of 4, 8, 16 or 32 bits (R60). -/
def unpack (eb : Nat) (l : List Byte) : List Nat :=
  if eb = 4 then l.flatMap (fun b => [b.toNat % 16, b.toNat / 16])
  else if eb = 8 then l.map BitVec.toNat
  else (List.range (l.length / (eb / 8))).map (fun k => leNat ((l.drop (k * (eb / 8))).take (eb / 8)))

/-- Pack containers into bytes (R60). -/
def pack (eb : Nat) (l : List Nat) : List Byte :=
  if eb = 4 then (List.range (l.length / 2)).map (fun k => BitVec.ofNat 8 (l.getD (2 * k) 0 % 16 + l.getD (2 * k + 1) 0 % 16 * 16))
  else l.flatMap (fun v => leBytes (eb / 8) v)

/-- Index of kept element i of a SPARSE payload: its row within the group (R110). -/
def sparseIdx (payload : List Byte) (b i : Nat) : Nat :=
  (leNat ((payload.drop (1024 + b * i / 8)).take 2)) / 2 ^ (b * i % 8) % 2 ^ b

/-- Kept slots per group, rows per group and index bits of a pattern (R110). -/
def sparsePat (pat48 : Bool) : Nat × Nat × Nat := if pat48 then (4, 8, 3) else (2, 4, 2)

/-- The indices of every group rise strictly (R111). -/
def sparseOk (f : Fmt) (pat48 : Bool) (payload : List Byte) : Bool :=
  let (k, g, b) := sparsePat pat48
  let cols := f.tile.2
  (List.range (f.tile.1 / g)).all (fun gi => (List.range cols).all (fun c =>
    (List.range (k - 1)).all (fun t =>
      decide (sparseIdx payload b ((k * gi + t) * cols + c) < sparseIdx payload b ((k * gi + t + 1) * cols + c)))))

/-- Expand a SPARSE payload to the dense containers, zero elsewhere (R110, R112). -/
def sparseDense (f : Fmt) (pat48 : Bool) (payload : List Byte) : List Nat :=
  let (k, g, b) := sparsePat pat48
  let cols := f.tile.2
  let kept := unpack f.ebits (payload.take 1024)
  (List.range f.dense).map (fun i =>
    let r := i / cols
    let c := i % cols
    match (List.range k).find? (fun t => sparseIdx payload b ((k * (r / g) + t) * cols + c) == r % g) with
    | some t => kept.getD ((k * (r / g) + t) * cols + c) 0
    | none => 0)

/-- Micro-block number of element (r, c) (R143). -/
def mbIdx (f : Fmt) (axis : Bool) (r c : Nat) : Nat :=
  if axis then r / 16 * f.tile.2 + c else r * (f.tile.2 / 16) + c / 16

/-- A scale descriptor (Table 6.5). -/
structure ScaleDesc where
  count : Nat
  rowAxis : Bool
  sc : Nat
  zp : Nat
  constMap : Nat
  deriving DecidableEq, Repr

/-- Read a scale descriptor, with the set of a step parity (R181, R240). -/
def scaleDesc (s : State) (a par : Nat) : ScaleDesc :=
  let l := rdBytes s a 64
  let n := leAt l 0 4
  { count := n, rowAxis := leAt l 4 1 == 1, sc := leAt l (if par = 0 then 0x08 else 0x18) 8,
    zp := leAt l (if par = 0 then 0x10 else 0x20) 8,
    constMap := leAt l 0x28 8 + (if par = 0 then 0 else 8 * ceilDiv n 64) }

/-- Channel of an element of the tensor (R181). -/
def chanOf (sd : ScaleDesc) (row col : Nat) : Nat := if sd.rowAxis then row else col

/-- FP32 scale code and zero point of an element of an offset-code tensor (R64, R181). -/
def qScale (s : State) (d : Desc) (x : Nat) (sd : ScaleDesc) (row col : Nat) : Nat × Nat :=
  if d.zpm = 2 then
    let ch := chanOf sd row col
    let z := rdLE s (sd.zp + ch) 1
    (rdLE s (sd.sc + 4 * ch) 4, if d.fmt = 0x03 then z % 16 else z)
  else (x, if d.zpm = 1 then (if d.fmt = 0x03 then d.zp % 16 else d.zp) else 0)

/-- A checked block reads as NaN in every element: it is NAN, or its SPARSE indices do not rise (R111, R146). -/
def readsNan (f : Fmt) (b : BlkVal) : Bool :=
  b.nan || (!b.h.headOnly && bitAt b.h.flags flSparse && !sparseOk f (bitAt b.h.flags flPat48) b.payload)

/-- The exact values of every element of a checked block, dense row-major (R78, R145–R147). -/
def tileVals (s : State) (d : Desc) (f : Fmt) (i : Nat) (b : BlkVal) : List EV :=
  let n := f.dense
  let cols := f.tile.2
  if b.nan then List.replicate n .nan
  else if b.h.isZero then List.replicate n evZero
  else
    let sparse := bitAt b.h.flags flSparse
    let pat := bitAt b.h.flags flPat48
    if sparse && !sparseOk f pat b.payload then List.replicate n .nan
    else
      let codes := if sparse then sparseDense f pat b.payload else unpack f.ebits b.payload
      let sd := if f.isQ && decide (d.zpm = 2) then scaleDesc s d.scd (b.h.step % 2) else ⟨0, false, 0, 0, 0⟩
      let ncol := (gridOf d).2
      let row0 := if ncol = 0 then 0 else i / ncol * f.tile.1
      let col0 := if ncol = 0 then 0 else i % ncol * cols
      (List.range n).map (fun k =>
        let r := k / cols
        let c := k % cols
        if b.h.vrows ≤ r ∨ b.h.vcols ≤ c then evZero
        else
          let v := codeVal f (codes.getD k 0)
          if f.isQ then
            let (x, z) := qScale s d b.h.x sd (row0 + r) (col0 + c)
            evMul (evSub v (.fin false z 0)) (f32Val x)
          else if !f.scaled then v
          else if b.h.scaling then
            let sc := (b.scales.getD (mbIdx f b.h.axis r c) 0).toNat
            if sc = 0 then evZero
            else if sc = 255 then .nan
            else evMul (evMul v (.fin false (s8Val sc).1 (s8Val sc).2)) (f32Val b.h.x)
          else evMul v (f32Val b.h.x))

/-- A SPARSE block whose indices do not rise: EVT_SPARSE_META (R111). -/
def sparseMeta (s : State) (cx : Cx) (d : Desc) (i : Nat) (b : BlkVal) : State :=
  match fmtOf d.fmt with
  | some f =>
    { s with
      evt := if !b.nan && !b.h.headOnly && bitAt b.h.flags flSparse && !sparseOk f (bitAt b.h.flags flPat48) b.payload then
        evtPush s.evt s.beacon s.epoch .sparseMeta cx.wh cx.step [a32 d.tensor, a32 i] else s.evt }
  | none => s

/-- A tensor as a reader of values holds it: its blocks' values and valid regions. -/
structure TensorVal where
  d : Desc
  f : Fmt
  blks : List (BlkVal × List EV)
  deriving DecidableEq, Repr

/-- Checked reads of blocks `is` of a tensor in order, stopping at the first status. -/
def readBlks (cx : Cx) (d : Desc) (vals : Bool) : List Nat → State → List BlkVal → State × Nat × List BlkVal
  | [], s, acc => (s, 0, acc.reverse)
  | i :: r, s, acc =>
    let x := readBlk s cx d i vals
    if x.status ≠ 0 then (x.st, x.status, []) else readBlks cx d vals r (sparseMeta x.st cx d i x.blk) (x.blk :: acc)

/-- Read a whole tensor for its values. -/
def readTensor (s : State) (cx : Cx) (d : Desc) : State × Nat × TensorVal :=
  match fmtOf d.fmt with
  | none => (s, 0x0F, { d := d, f := .fp32, blks := [] })
  | some f =>
    let (s', st, bs) := readBlks cx d true (List.range (nBlocks d)) s []
    (s', st, { d := d, f := f, blks := bs.mapIdx (fun i b => (b, tileVals s d f i b)) })

/-- Block i of a tensor has an element in a window of rows from r0 and columns from c0. -/
def blkInWin (d : Desc) (r0 c0 nr nc i : Nat) : Bool :=
  let t := tileOf d.fmt
  let ncol := (gridOf d).2
  let r := if ncol = 0 then 0 else i / ncol * t.1
  let c := if ncol = 0 then 0 else i % ncol * t.2
  decide (r < r0 + nr) && decide (r0 < r + t.1) && decide (c < c0 + nc) && decide (c0 < c + t.2)

/-- Checked reads of the blocks of a window, in ascending index; a block outside it is not read. -/
def readWinGo (cx : Cx) (d : Desc) (r0 c0 nr nc : Nat) : List Nat → State → List BlkVal → State × Nat × List BlkVal
  | [], s, acc => (s, 0, acc.reverse)
  | i :: l, s, acc =>
    if blkInWin d r0 c0 nr nc i then
      let x := readBlk s cx d i true
      if x.status ≠ 0 then (x.st, x.status, []) else readWinGo cx d r0 c0 nr nc l (sparseMeta x.st cx d i x.blk) (x.blk :: acc)
    else readWinGo cx d r0 c0 nr nc l s (.none :: acc)

/-- Read the blocks of a window for their values. -/
def readWin (s : State) (cx : Cx) (d : Desc) (r0 c0 nr nc : Nat) : State × Nat × TensorVal :=
  match fmtOf d.fmt with
  | none => (s, 0x0F, { d := d, f := .fp32, blks := [] })
  | some f =>
    let (s', st, bs) := readWinGo cx d r0 c0 nr nc (List.range (nBlocks d)) s []
    (s', st, { d := d, f := f, blks := bs.mapIdx (fun i b => (b, tileVals s d f i b)) })

/-- The block that holds element (r, c) of a tensor, and the place within it. -/
def elemPos (d : Desc) (f : Fmt) (r c : Nat) : Nat × Nat :=
  (r / f.tile.1 * (gridOf d).2 + c / f.tile.2, r % f.tile.1 * f.tile.2 + c % f.tile.2)

/-- The value of element (r, c) of a tensor; +0 outside it (R82: padding). -/
def tvAt (t : TensorVal) (r c : Nat) : EV :=
  if t.d.rows ≤ r ∨ t.d.cols ≤ c then evZero
  else
    let (b, k) := elemPos t.d t.f r c
    match t.blks[b]? with
    | some (_, vs) => vs.getD k evZero
    | none => evZero

/-- Element (r, c) is a valid element: inside the tensor and inside its block's valid region (R147). -/
def tvValid (t : TensorVal) (r c : Nat) : Bool :=
  if t.d.rows ≤ r ∨ t.d.cols ≤ c then false
  else
    let (b, k) := elemPos t.d t.f r c
    match t.blks[b]? with
    | some (bv, _) => (bv.nan && badHdr bv.h) || (decide (k / t.f.tile.2 < bv.h.vrows) && decide (k % t.f.tile.2 < bv.h.vcols))
    | none => false

/-! ## Encoding (R79, R80, R145–R147, R243) -/

/-- A tile as a writer encodes it. -/
structure Enc where
  codes : List Nat
  scales : List Nat
  /-- Elements that saturated or overflowed. -/
  sat : Nat
  nan : Bool
  inf : Bool
  /-- Micro-blocks counted under R243. -/
  flush : Nat
  /-- Micro-blocks with a scale from 0x01 to 0xFE (R244). -/
  mblocks : Nat
  deriving DecidableEq, Repr

/-- Largest finite value of a format as an exact magnitude; 127 and 7 for the integers (R80). -/
def Fmt.fmaxVal (f : Fmt) : Nat × Int :=
  match f.flt with
  | some (mb, b, maxc) => magVal mb b maxc
  | none => (f.irange.2.toNat, 0)

/-- Largest magnitude among the finite values of a list. -/
def maxAbsFin (l : List EV) : EV :=
  l.foldl (fun a v => if v.isFin && evLt a (evAbs v) then evAbs v else a) evZero

/-- Encode one micro-block of 16 values, value t rounded by r t (R80): scale code, element conversions, and the
infinities that a NaN micro-block takes up, which count as overflow (R73). -/
def encMicro (f : Fmt) (r : Nat → Rnd) (ovf : Bool) (xm : Nat) (xe : Int) (l : List EV) : Nat × List Cvt × Nat :=
  let infs := (l.filter EV.isInf).length
  if l.any EV.isNan || (ovf && decide (0 < infs) && !f.hasInf) then
    (255, l.map (fun _ => { code := 0, cnt := false, nan := true, inf := false }), infs)
  else
    match maxAbsFin l with
    | .fin _ am ae =>
      if am = 0 ∧ infs = 0 then (0, l.map (fun _ => { code := 0, cnt := false, nan := false, inf := false }), 0)
      else
        let c := if am = 0 then 0x78 else smallestS8 am ae xm xe f.fmaxVal.1 f.fmaxVal.2
        let v := s8Val c
        (c, l.mapIdx (fun t x => cvtScaled f (r t) ovf 0 x (v.1 * xm) (v.2 + xe)), 0)
    | _ => (0, [], 0)

/-- A code is zero of either sign. -/
def codeZero (f : Fmt) (c : Nat) : Bool :=
  match codeVal f c with
  | .fin _ m _ => decide (m = 0)
  | _ => false

/-- Element indices of micro-block j in order (R143). -/
def mbElems (f : Fmt) (axis : Bool) (j : Nat) : List Nat :=
  let cols := f.tile.2
  if axis then (List.range 16).map (fun t => (j / cols * 16 + t) * cols + j % cols)
  else (List.range 16).map (fun t => j / (cols / 16) * cols + j % (cols / 16) * 16 + t)

/-- Encode a BLOCK tile (R80). -/
def encBlock (f : Fmt) (axis : Bool) (r : Nat → Rnd) (ovf : Bool) (xm : Nat) (xe : Int) (vals : List EV) : Enc :=
  let mbs := (List.range f.msBytes).map (fun j =>
    let idx := mbElems f axis j
    let l := idx.map (fun k => vals.getD k evZero)
    let e := encMicro f (fun t => r (idx.getD t 0)) ovf xm xe l
    (idx, l, e))
  let pairs := mbs.flatMap (fun m => List.zip m.1 m.2.2.2.1)
  let codes := (List.range f.dense).map (fun k => ((pairs.find? (fun p => p.1 == k)).map (fun p => p.2.code)).getD 0)
  { codes := codes
    scales := mbs.map (fun m => m.2.2.1)
    sat := mbs.foldl (fun n m => n + m.2.2.2.2 + (m.2.2.2.1.filter (fun c => c.cnt)).length) 0
    nan := mbs.any (fun m => m.2.2.1 == 255) || mbs.any (fun m => m.2.2.2.1.any (fun c => c.nan))
    inf := mbs.any (fun m => m.2.2.2.1.any (fun c => c.inf))
    flush := (mbs.filter (fun m => decide (0 < m.2.2.1) && decide (m.2.2.1 < 255) &&
      decide ((m.2.2.2.1.filter (fun c => !codeZero f c.code)).length = 1) &&
      decide (2 ≤ (m.2.1.filter (fun v => v.isFin && !v.isZero)).length + (m.2.1.filter EV.isInf).length) &&
      (m.2.1.zip m.2.2.2.1).any (fun p => codeZero f p.2.code && p.1.isFin && !p.1.isZero))).length
    mblocks := (mbs.filter (fun m => decide (0 < m.2.2.1) && decide (m.2.2.1 < 255))).length }

/-- Encode a tile without micro-scales: element k with its own scale and zero point (R64, R74). -/
def encPlain (f : Fmt) (r : Nat → Rnd) (ovf : Bool) (sc : Nat → EV × Int) (vals : List EV) : Enc :=
  let cs := vals.mapIdx (fun k v => cvtBy f (r k) ovf (sc k).2 v (sc k).1)
  { codes := cs.map (fun c => c.code), scales := [], sat := (cs.filter (fun c => c.cnt)).length,
    nan := cs.any (fun c => c.nan), inf := cs.any (fun c => c.inf), flush := 0, mblocks := 0 }

/-- The slot a tensor takes part with; none without one (R234). -/
def slotOf (s : State) (d : Desc) : Option Nat :=
  if d.est < s.scl.estCount ∧ (smGet (fun _ => none) s.scl.est d.est).isSome then some d.est else none

/-- Accumulator key of a slot and step parity. -/
def accKey (slot step : Nat) : Nat := 2 * slot + step % 2

/-- Change an accumulator. -/
def updAcc (s : State) (k : Nat) (f : EstAcc → EstAcc) : State :=
  { s with scl := { s.scl with acc := smUpd (fun _ => EstAcc.zero) s.scl.acc k f } }

/-- Saturations of one written block (R235, R236): into the slot's accumulator or SCL_SAT_NOSLOT, the first of the step
attempt raising EVT_SAT_OVERFLOW. -/
def deliverSat (s : State) (cx : Cx) (d : Desc) (i n : Nat) : State :=
  if n = 0 then s
  else
    match slotOf s d with
    | some slot =>
      if !stepUnsealed s cx.step then cnt s .scl rSclDrop
      else
        let k := accKey slot cx.step
        let first := !(smGet (fun _ => EstAcc.zero) s.scl.acc k).raised
        let s1 := updAcc s k (fun a => { a with sat := a.sat + n, got := true, raised := true })
        if first then
          raise (setFld s1 .scl rSclStatus 0 0 1) .satOverflow cx.wh cx.step [a16 slot, a32 d.tensor, a32 i]
        else s1
    | none =>
      let s1 := cntAdd s .scl rSclSatNoslot n
      if s1.scl.noslotSeen.contains (cx.die, cx.step, s.epoch) then s1
      else
        let s2 := { s1 with scl := { s1.scl with noslotSeen := (cx.die, cx.step, s.epoch) :: s1.scl.noslotSeen } }
        raise (setFld s2 .scl rSclStatus 0 0 1) .satOverflow cx.wh cx.step [a16 0xFFFF, a32 d.tensor, a32 i]

/-- FLUSH16 micro-blocks and micro-blocks written by one block (R243, R244), one delivery to the slot; for a step that is
not unsealed it is discarded and counted (R234, log 219). -/
def deliverFlush (s : State) (cx : Cx) (d : Desc) (flush mblocks : Nat) : State :=
  let s1 := if flush = 0 then s else cntAdd s .scl rSclFlush16 flush
  match slotOf s d with
  | some slot =>
    if flush + mblocks = 0 then s1
    else if stepUnsealed s cx.step then
      updAcc s1 (accKey slot cx.step) (fun a => { a with flush := a.flush + flush, mblocks := a.mblocks + mblocks, got := true })
    else cnt s1 .scl rSclDrop
  | none => s1

/-- What a write of a KIND 2 tensor gives the vote (Table 10.2). -/
def voteWrite (s : State) (cx : Cx) (d : Desc) (sat nan inf : Bool) : State :=
  if d.kind = 2 then
    voteSet s cx.step ((if sat || inf then vOvf else 0) ||| (if nan then vNan else 0))
  else s

/-- The second-level scale field of a descriptor for a step: the value that the instruction took at its start, or the
field in memory (R179). -/
def xField (s : State) (d : Desc) (step : Nat) : Nat :=
  match d.xr with
  | some x => x
  | none => rdLE s (d.src + 0x20 + 4 * (step % 2)) 4

/-- A descriptor with its second-level scale field read, for an instruction that takes several commands (R179). -/
def Desc.readX (d : Desc) (s : State) (step : Nat) : Desc := { d with xr := some (xField s d step) }

/-- 1.0 in FP32. -/
def f32One : Nat := 0x3F800000

/-- What a writer gives a block besides its values. -/
structure WrSpec where
  /-- Rounding of element k of the tile (SR draws per element). -/
  rnd : Nat → Rnd
  ovf : Bool
  vrows : Nat
  vcols : Nat
  /-- First row of a new sequence, when CUT is set. -/
  cut : Option Nat

/-- Store payload, micro-scales and header of block i (R151), through the page table. -/
def storeBlk (s : State) (cx : Cx) (d : Desc) (i : Nat) (h : Hdr) (payload scales : List Byte) : State :=
  let a := blkAddr d i
  let p := xlatPage s a
  let s1 := if payload = [] then s else wrBytes (traffic s cx.rg d.hint p 2048 true) a payload
  let s2 := if scales = [] then s1 else
    wrBytes (traffic s1 cx.rg d.hint (xlatPage s (msAddr d i)) scales.length true) (msAddr d i) scales
  memWr (unpoison (traffic s2 cx.rg d.hint (hdrAddr s p) 32 true) (hdrAddr s p) 32) (hdrAddr s p)
    (hdrBytes { h with crc := blkCrc h payload scales })

/-- A header that a writer forms for block i (R150). -/
def newHdr (s : State) (cx : Cx) (d : Desc) (i x vrows vcols cut flags : Nat) : Hdr :=
  { fmt := d.fmt, layout := d.layout, flags := flags, vrows := vrows, vcols := vcols, cut := cut, x := x,
    tensor := d.tensor, block := d.blk0 + i, step := cx.step, epoch := s.epoch, crc := 0 }

/-- A block as a writer forms it, and what it counts. -/
structure Formed where
  h : Hdr
  payload : List Byte
  scales : List Byte
  /-- A bad X made it a NAN block (R79). -/
  bad : Bool
  sat : Nat
  nan : Bool
  inf : Bool
  flush : Nat
  mblocks : Nat
  deriving DecidableEq, Repr

/-- Form block i of a tensor from the exact values of its tile (R72–R74, R79, R80, R145–R150, R156). -/
def formBlk (s : State) (cx : Cx) (d : Desc) (f : Fmt) (i : Nat) (w : WrSpec) (vals0 : List EV) : Formed :=
  let cols := f.tile.2
  -- Code zero outside the valid region (R147).
  let vals := vals0.mapIdx (fun k v => if k / cols < w.vrows ∧ k % cols < w.vcols then v else evZero)
  let valid := fun k => decide (k / cols < w.vrows) && decide (k % cols < w.vcols)
  let x := if f.scaled || f.isQ then xField s d cx.step else f32One
  let chans := f.isQ && decide (d.zpm = 2)
  let len := decide (w.vrows < f.tile.1) || decide (w.vcols < cols)
  let cut := w.cut.getD 0
  if (f.scaled || (f.isQ && !chans)) && !goodX x then
    { h := newHdr s cx d i x w.vrows w.vcols cut (mkFlags false true false len w.cut.isSome false false)
      payload := [], scales := [], bad := true, sat := 0, nan := true, inf := false, flush := 0, mblocks := 0 }
  else
    let sd := if chans then scaleDesc s d.scd (cx.step % 2) else ⟨0, false, 0, 0, 0⟩
    let ncol := (gridOf d).2
    let row0 := if ncol = 0 then 0 else i / ncol * f.tile.1
    let col0 := if ncol = 0 then 0 else i % ncol * cols
    let xv := match f32Val x with | .fin _ m e => (m, e) | _ => (1, 0)
    let sc : Nat → EV × Int := fun k =>
      if f.isQ then
        let q := qScale s d x sd (row0 + k / cols) (col0 + k % cols)
        (f32Val q.1, (q.2 : Int))
      else if f.scaled then (f32Val x, 0) else (.fin false 1 0, 0)
    let zeroOf : Nat → Nat → Bool := fun k c =>
      if f.isQ then decide ((c : Int) = (sc k).2) else codeZero f c
    let e := if d.scaling then encBlock f d.axis w.rnd w.ovf xv.1 xv.2 vals else encPlain f w.rnd w.ovf sc vals
    -- Codes of invalid elements of an offset-code tile are zero too.
    let codes := e.codes.mapIdx (fun k c => if valid k then c else 0)
    let zero := !e.nan && (codes.mapIdx (fun k c => !valid k || zeroOf k c || (d.scaling &&
      decide (e.scales.getD (mbIdx f d.axis (k / cols) (k % cols)) 0 = 0)))).all id
    let uflow := zero && (vals.any (fun v => v.isFin && !v.isZero))
    let const_ := chans && (List.range f.dense).any (fun k => valid k &&
      bitAt (rdLE s (sd.constMap + chanOf sd (row0 + k / cols) (col0 + k % cols) / 8) 1)
        (chanOf sd (row0 + k / cols) (col0 + k % cols) % 8))
    { h := newHdr s cx d i x w.vrows w.vcols cut
        (mkFlags zero e.nan const_ len w.cut.isSome uflow (decide (0 < e.sat)))
      payload := if zero then [] else pack f.ebits codes
      scales := if zero || !d.scaling then [] else e.scales.map (fun c => BitVec.ofNat 8 c)
      bad := false, sat := e.sat, nan := e.nan, inf := e.inf
      flush := e.flush, mblocks := if zero || e.nan then 0 else e.mblocks }

/-- What a writer counts for a block it formed: a bad X, or saturations and FLUSH16 micro-blocks; then the vote (R79,
R235, R236, R243, R291). -/
def formCounts (s : State) (cx : Cx) (d : Desc) (i : Nat) (b : Formed) : State :=
  let s1 := deliverSat s cx d i b.sat
  if b.bad then voteWrite (badWrite s1 cx d i) cx d (decide (0 < b.sat)) true false
  else
    voteWrite (deliverFlush s1 cx d b.flush b.mblocks) cx d (decide (0 < b.sat)) b.nan b.inf

/-- Form, store and count block i of a tensor. -/
def writeBlk (s : State) (cx : Cx) (d : Desc) (f : Fmt) (i : Nat) (w : WrSpec) (vals : List EV) : State :=
  let b := formBlk s cx d f i w vals
  formCounts (storeBlk s cx d i b.h b.payload b.scales) cx d i b

/-- Write a ZERO header for block i (R145, R225). -/
def writeZero (s : State) (cx : Cx) (d : Desc) (i vrows vcols : Nat) : State :=
  let len := decide (vrows < (tileOf d.fmt).1) || decide (vcols < (tileOf d.fmt).2)
  let x := if ((fmtOf d.fmt).map (fun f => f.scaled || f.isQ)).getD false then xField s d cx.step else f32One
  storeBlk s cx d i (newHdr s cx d i x vrows vcols 0 (mkFlags true false false len false false false)) [] []

/-- Valid rows and columns of block i of a tensor that is written whole (R147, R178). -/
def tileValid (d : Desc) (i : Nat) : Nat × Nat :=
  let t := tileOf d.fmt
  let ncol := (gridOf d).2
  let r0 := if ncol = 0 then 0 else i / ncol * t.1
  let c0 := if ncol = 0 then 0 else i % ncol * t.2
  (min t.1 (d.rows - r0), min t.2 (d.cols - c0))

end Sys2Proof.Machine
end

