-- ==== Sys2Proof/Machine/Frames.lean ====
section
/-! DEFINITION. Frames and flits as bytes (Tables 11.2 to 11.5): writing, reading, and the length each type requires. -/
namespace Sys2Proof.Machine

/-- Frame types (Table 11.5). -/
def tyBlock : Nat := 1
def tySync : Nat := 2
def tyRead : Nat := 3
def tyRdata : Nat := 4
def tyColl : Nat := 5
def tyZrun : Nat := 6
def tyVote : Nat := 7
def tyDigest : Nat := 8
def tyAcke : Nat := 9
def tyStatus : Nat := 10

/-- Class of a frame type (Table 11.5). -/
def tyClass (ty : Nat) : Nat := if ty = 4 ∨ ty = 9 ∨ ty = 10 then 1 else 0

/-- ACKE and STATUS frames are not sequenced (R334). -/
def sequenced (f : Frame) : Bool := decide (f.ty ≠ 9) && decide (f.ty ≠ 10)

/-- Logical coordinate, die and HUB of a DST or SRC word (Table 11.4). -/
def adLc (a : Nat) : Nat := a % 2 ^ 18
def adDie (a : Nat) : Nat := bits a 19 18
def adHub (a : Nat) : Bool := bitAt a 20

/-- A DST or SRC word. -/
def adOf (lc die : Nat) (hub : Bool) : Nat := lc % 2 ^ 18 + die % 4 * 2 ^ 18 + b2n hub * 2 ^ 20

/-- CTLW of a frame (Table 11.4). -/
def ctlw (f : Frame) : Nat :=
  f.ty % 16 * 2 ^ 28 + f.vc % 4 * 2 ^ 26 + b2n f.resend * 2 ^ 25 + f.body.length % 4096 * 2 ^ 12 + f.hops % 4 * 2 ^ 10
    + f.codes % 512

/-- Header bytes 0x00 to 0x1B. -/
def frameHead (f : Frame) : List Byte :=
  leBytes 4 (ctlw f) ++ leBytes 4 f.dst ++ leBytes 4 f.src ++ leBytes 4 f.step ++ leBytes 4 f.esn
    ++ leBytes 4 f.epoch ++ leBytes 4 f.arg

/-- A frame as bytes. -/
def frameBytes (f : Frame) : List Byte := frameHead f ++ leBytes 4 (crc32c (frameHead f)) ++ f.body

/-- Flits that a frame of a LEN occupies (R329). -/
def flitsOf (len : Nat) : Nat := (32 + len + 249) / 250

/-- LEN of a header. -/
def hdrLen (l : List Byte) : Nat := bits (leAt l 0 4) 23 12

/-- The HCRC of a header passes. -/
def hcrcOk (l : List Byte) : Bool := leAt l 0x1C 4 == crc32c (slice l 0 0x1C)

/-- Read a frame from its bytes. -/
def parseFrame (l : List Byte) : Frame :=
  let c := leAt l 0 4
  { ty := bits c 31 28, vc := bits c 27 26, resend := bitAt c 25, hops := bits c 11 10, codes := bits c 8 0,
    dst := leAt l 4 4, src := leAt l 8 4, step := leAt l 0x0C 4, esn := leAt l 0x10 4, epoch := leAt l 0x14 4,
    arg := leAt l 0x18 4, body := slice l 32 (bits c 23 12) }

/-- Bytes of a block as it travels: header, then micro-scales and payload unless ZERO or NAN. -/
def blkLen (h : Hdr) : Nat := 32 + crcTail h

/-- LEN that a frame's type requires (Tables 11.5, R329). -/
def needLen (f : Frame) : Nat :=
  if f.ty = tyBlock ∨ f.ty = tyRdata ∨ f.ty = tyColl then 8 + blkLen (parseHdr (slice f.body 8 32))
  else if f.ty = tySync then 8
  else if f.ty = tyRead then 24
  else if f.ty = tyZrun then 44
  else if f.ty = tyVote then 12
  else if f.ty = tyDigest then 36
  else if f.ty = tyAcke then 0
  else 8

/-- A frame of a known type and the length its type requires (R329). -/
def frameOk (f : Frame) : Bool := decide (1 ≤ f.ty) && decide (f.ty ≤ 10) && decide (f.body.length = needLen f)

/-- Flit types (Table 11.2). -/
def ftIdle : Nat := 0
def ftData : Nat := 1
def ftCtrl : Nat := 2
def ftNak : Nat := 3

/-- A flit as 256 bytes. -/
def flitBytes (ft lsn ack : Nat) (body : List Byte) : List Byte :=
  let b := leBytes 4 (ft % 16 * 2 ^ 28 + lsn % 16384 * 2 ^ 14 + ack % 16384) ++ padTo 250 body
  b ++ leBytes 2 (crc16 b)

/-- FTYPE, LSN and ACK of a flit. -/
def flitTy (l : List Byte) : Nat := bits (leAt l 0 4) 31 28
def flitLsn (l : List Byte) : Nat := bits (leAt l 0 4) 27 14
def flitAck (l : List Byte) : Nat := bits (leAt l 0 4) 13 0

/-- The FCRC passes and the FTYPE is valid (R319). -/
def flitOk (l : List Byte) : Bool :=
  decide (l.length = 256) && (leAt l 254 2 == crc16 (slice l 0 254)) && decide (flitTy l ≤ 3)

/-- `a` comes before `b` in the serial order of 14-bit sequence numbers (R318). -/
def lsnLt (a b : Nat) : Bool := decide (a ≠ b) && decide ((b + 16384 - a) % 16384 < 8192)

/-- The bytes of a block as it travels between modules (Table 11.5): header, micro-scales, payload. -/
def wireBlk (h : Hdr) (scales payload : List Byte) : List Byte :=
  hdrBytes h ++ (if h.headOnly then [] else scales ++ payload)

/-- Read a block from its travelling bytes. -/
def unwireBlk (l : List Byte) : RawBlk :=
  let h := parseHdr l
  if h.headOnly then { h := h, payload := [], scales := [] }
  else
    let m := if h.scaling then ((fmtOf h.fmt).map Fmt.msBytes).getD 0 else 0
    { h := h, payload := slice l (32 + m) 2048, scales := slice l 32 m }

end Sys2Proof.Machine
end

