-- ==== Sys2Proof/Machine/Links.lean ====
section
/-! DEFINITION. Sending: timers, the transmit side of a link (R317–R322), routing and detours (R326–R333), and the
end-to-end emission of frames with their journal records (R334, R363–R366, R371). -/
namespace Sys2Proof.Machine

/-! ## Timers -/

/-- Beacon ticks of a millisecond and of a microsecond (R188: 200 MHz). -/
def btMs : Nat := 200000
def btUs : Nat := 200

/-- Arm or re-arm a timer `d` ticks from now. -/
def tmArm (s : State) (t : Tmr) (d : Nat) : State :=
  { s with timers := (t, s.beacon + d) :: s.timers.filter (fun x => x.1 != t) }

/-- Disarm a timer. -/
def tmOff (s : State) (t : Tmr) : State := { s with timers := s.timers.filter (fun x => x.1 != t) }

/-- The deadline of an armed timer. -/
def tmAt (s : State) (t : Tmr) : Option Nat := (s.timers.find? (fun x => x.1 == t)).map (·.2)

/-- The timer is armed and has expired. -/
def tmDue (s : State) (t : Tmr) : Bool :=
  match tmAt s t with
  | some d => decide (d ≤ s.beacon)
  | none => false

/-- A limit in ms from a register field: 0 acts as 1, above `hi` as `hi`. -/
def msLim (v hi : Nat) : Nat := min hi (max 1 v) * btMs

/-! ## Own coordinate and translation (R326–R328, R499, R500) -/

/-- Own logical coordinate; none when not VALID. -/
def ownLc (s : State) : Option Nat :=
  if rbit s .coord rCoordLogical 31 then some (fld s .coord rCoordLogical 17 0) else none

/-- One axis of a coordinate: 6 bits. -/
def axisOf (c k : Nat) : Nat := c / 2 ^ (6 * k) % 64

/-- Own physical coordinate on an axis, and PDIM of the axis. -/
def mePhys (s : State) (k : Nat) : Nat := axisOf (fld s .coord rCoordPhys 17 0) k
def pdim (s : State) (k : Nat) : Nat := axisOf (fld s .coord rCoordPdim 17 0) k + 1

/-- Logical index of a logical coordinate in the grid in force; none outside it (R327). -/
def lIndex (s : State) (lc : Nat) : Option Nat :=
  let dx := axisOf s.xlat.dim 0 + 1
  let dy := axisOf s.xlat.dim 1 + 1
  let dz := axisOf s.xlat.dim 2 + 1
  if dx ≤ axisOf lc 0 ∨ dy ≤ axisOf lc 1 ∨ dz ≤ axisOf lc 2 then none
  else some (axisOf lc 0 + dx * (axisOf lc 1 + dy * axisOf lc 2))

/-- The bank in force. -/
def bankNow (x : Xlat) : SMap Word := if x.bank then x.bank1 else x.bank0

/-- Physical coordinate of a logical one; none without a VALID entry (R327, R328). -/
def xlatLc (s : State) (lc : Nat) : Option Nat :=
  match lIndex s lc with
  | some i =>
    let e := (smGet (fun _ => 0) (bankNow s.xlat) i).toNat
    if bitAt e 31 then some (e % 2 ^ 18) else none
  | none => none

/-- EVT_XLAT_INVALID: the destination coordinate and its index, all ones outside the grid (R328). -/
def xlatInvalid (s : State) (lc wh step : Nat) : State :=
  raise s .xlatInvalid wh step [a32 lc, a32 ((lIndex s lc).getD u32Max)]

/-- Frames may be sent to a logical coordinate: own coordinate and its entry are VALID (R328, R529). -/
def canSend (s : State) (lc : Nat) : Bool := (ownLc s).isSome && (xlatLc s lc).isSome

/-! ## The transmit side of a link -/

/-- Number of the loopback path, on which a frame to the module itself waits for its row. -/
def loopLink : Nat := 6

/-- A link. -/
def linkOf (s : State) (l : Nat) : Lnk := smGet (fun _ => Lnk.reset) s.links l

/-- Replace a link. -/
def setLink (s : State) (l : Nat) (x : Lnk) : State := { s with links := smPut (fun _ => Lnk.reset) s.links l x }

/-- LNK_STATUS.STATE (Table 11.7). -/
def linkSt (s : State) (l : Nat) : Nat := fld s (.lnk l) rLnkStatus 2 0
def lsDown : Nat := 0
def lsTraining : Nat := 1
def lsUp : Nat := 2
def lsMiswired : Nat := 3
def lsLost : Nat := 4
def lsDisabled : Nat := 5

/-- Set LNK_STATUS.STATE. -/
def setLinkSt (s : State) (l st : Nat) : State := setFld s (.lnk l) rLnkStatus 2 0 st

/-- Flits in the retry buffer. -/
def retryFlits (x : Lnk) : Nat := x.retry.foldl (fun n e => n + (e.sent - e.off)) 0

/-- The retry buffer holds 8,192 flits (R320). -/
def retryMax : Nat := 8192

/-- The 250-byte bodies of a byte string. -/
def flitBodies (n : Nat) (l : List Byte) : List (List Byte) := (List.range n).map (fun k => slice l (250 * k) 250)

/-- Flits of a retry entry as they went on the lanes, those that ACK has passed left out. -/
def entFlits (e : TxEnt) (ack : Nat) : List (List Byte) :=
  (match e.frame with
   | some f => ((flitBodies e.n (frameBytes f)).mapIdx (fun k b => flitBytes ftData (e.lsn + k) ack b)).take e.sent
   | none => [flitBytes ftCtrl e.lsn ack e.ctrl]).drop e.off

/-- Lane of the k-th flit of a slot: the active lanes in their order, all 72 before the link is up (R317). -/
def laneAt (x : Lnk) (k : Nat) : Nat :=
  let act := if x.txAct.isEmpty then List.range 72 else x.txAct
  act.getD (k % act.length) 0

/-- Put flits on the lanes: ascending LSN on ascending lanes, a new 10 ns slot from the first lane on (R317). -/
def putLanes (s : State) (l : Nat) (fl : List (List Byte)) : State :=
  let x := linkOf s l
  let p := if x.txSlot = s.beacon / 2 then x.txPos else 0
  setLink s l { x with
    wire := x.wire ++ fl.mapIdx (fun k b => (laneAt x (p + k), b)), txSlot := s.beacon / 2, txPos := p + fl.length }

/-- Put on the lanes as many flits of the last entry as the retry buffer has room for: consecutive LSNs, LNK_TX_FLITS
(R318, R320). -/
def putEnt (s : State) (l : Nat) (e : TxEnt) : State :=
  let x := linkOf s l
  let m := min (e.n - e.sent) (retryMax - retryFlits x)
  let e1 := { e with sent := e.sent + m }
  let s1 := setLink s l { x with txNext := (x.txNext + m) % 16384, retry := x.retry.dropLast ++ [e1] }
  cnt64 (putLanes s1 l (entFlits { e1 with off := e.sent } x.rxExp)) (.lnk l) rLnkTxFlitsLo m

/-- A new entry of `n` flits at the end of the retry buffer. -/
def startEnt (s : State) (l n : Nat) (frame : Option Frame) (ctrl : List Byte) : State :=
  let x := linkOf s l
  let e : TxEnt := { lsn := x.txNext, n := n, sent := 0, off := 0, frame := frame, ctrl := ctrl }
  let x1 := { x with
    retry := x.retry ++ [e]
    progAt := if x.retry.isEmpty then s.beacon else x.progAt
    stallAt := if x.retry.isEmpty then s.beacon else x.stallAt }
  putEnt (setLink s l x1) l e

/-- Flits of a frame. -/
def frameFlits (f : Frame) : Nat := flitsOf f.body.length

/-- Credit of a virtual channel. -/
def vcCredit (x : Lnk) (vc : Nat) : Nat := x.credit.getD vc 0

/-- The first waiting frame whose virtual channel has credit for all its flits and holds no earlier frame back (R322). -/
def txPick (x : Lnk) : List Frame → List Nat → Option (Frame × List Frame)
  | [], _ => none
  | f :: r, held =>
    if held.contains f.vc ∨ vcCredit x f.vc < frameFlits f then (txPick x r (f.vc :: held)).map (fun y => (y.1, f :: y.2))
    else some (f, r)

/-- Start the next control body or frame that may go (R322, R324); none when nothing may. -/
def txNew (s : State) (l : Nat) : Option State :=
  let x := linkOf s l
  let st := linkSt s l
  match x.ctrlq, txPick x x.txq [] with
  | c :: r, _ =>
    if decide (st = lsUp) || decide (st = lsMiswired) || decide (5 ≤ x.phase) then
      some (startEnt (setLink s l { x with ctrlq := r }) l 1 none c)
    else none
  | [], some (f, r) =>
    if st = lsUp then
      let n := frameFlits f
      some (startEnt (setLink s l { x with txq := r, credit := x.credit.set f.vc (vcCredit x f.vc - n) }) l n (some f) [])
    else none
  | [], none => none

/-- Send the next flits that may go: those of a frame in progress, whose LSNs are consecutive, else a new entry. A full
retry buffer sends none (R320). -/
def txOne (s : State) (l : Nat) : Option State :=
  let x := linkOf s l
  if retryMax ≤ retryFlits x then none
  else
    match x.retry.getLast? with
    | some e => if e.sent < e.n then (if linkSt s l = lsUp then some (putEnt s l e) else none) else txNew s l
    | none => txNew s l

/-- Send while anything may go. -/
def pumpGo : Nat → Nat → State → State
  | 0, _, s => s
  | k + 1, l, s =>
    match txOne s l with
    | some s' => pumpGo k l s'
    | none => s

/-- Send what a link holds, as far as credit and retry space allow. -/
def pump (s : State) (l : Nat) : State :=
  pumpGo ((linkOf s l).ctrlq.length + (linkOf s l).txq.length + 1) l s

/-- Queue a control body. -/
def sendCtrl (s : State) (l : Nat) (c : List Byte) : State :=
  let x := linkOf s l
  pump (setLink s l { x with ctrlq := x.ctrlq ++ [c] }) l

/-- An IDLE or NAK flit takes no LSN and is not stored (R318). -/
def sendBare (s : State) (l ft : Nat) : State :=
  let x := linkOf s l
  putLanes s l [flitBytes ft x.txNext x.rxExp []]

/-- Queue a frame on a link. -/
def enqueue (s : State) (l : Nat) (f : Frame) : State :=
  let x := linkOf s l
  pump (setLink s l { x with txq := x.txq ++ [f] }) l

/-- Count a discarded frame at the link it came in by (R328–R332); the loopback path has no counter. -/
def dropAt (s : State) (l : Nat) : State := if l < 6 then cnt s (.lnk l) rLnkDrop else s

/-! ## Routing (R330–R332) -/

/-- A detour entry in use whose first hop is a link that is up (R330, R332). -/
def detourOk (s : State) (e : Nat) : Bool :=
  bitAt e 15 && decide (bits e 14 12 ≤ 5) && decide (linkSt s (bits e 14 12) = lsUp)

/-- The detour entry that serves link d: the primary, else the secondary. -/
def pickDetour (s : State) (d : Nat) : Option Nat :=
  let x := linkOf s d
  if detourOk s x.det0 then some x.det0 else if detourOk s x.det1 then some x.det1 else none

/-- Send a frame whose next hop is d: on the link, by its detour, or held until the detour serves (R332). -/
def sendHop (s : State) (d : Nat) (f : Frame) : State :=
  let x := linkOf s d
  if x.lost && x.detour then
    match pickDetour s d with
    | some e => enqueue s (bits e 14 12) { f with hops := bits e 11 10, codes := bits e 8 0 }
    | none => dropAt s d
  else enqueue s d f

/-- The link of dimension order towards a physical coordinate; none when it is this module (R330). -/
def dimLink (s : State) (p : Nat) : Option Nat :=
  ([0, 1, 2].filterMap (fun k =>
    let n := pdim s k
    let up := (axisOf p k + n - mePhys s k % n) % n
    if up = 0 then none else some (if up ≤ n - up then 2 * k else 2 * k + 1))).head?

/-- The hop by which a frame came in crossed the dateline of its dimension (R331). -/
def crossedDateline (s : State) (l : Nat) : Bool :=
  let k := l / 2
  if l % 2 = 0 then decide (mePhys s k = pdim s k - 1) else decide (mePhys s k = 0)

/-- Virtual channel of a frame for its next hop (R331). -/
def hopVc (s : State) (f : Frame) (ingress : Option Nat) (d : Nat) : Nat :=
  let low := 2 * tyClass f.ty
  match ingress with
  | none => low
  | some l => if l < 6 ∧ l / 2 = d / 2 then (if crossedDateline s l then low + 1 else f.vc) else low

/-- Where a frame goes (R330). -/
inductive Route where
  | here
  | hop (d : Nat) (f : Frame)
  | invalid
  deriving DecidableEq, Repr

/-- Route a frame at this module (R330). -/
def routeOf (s : State) (f : Frame) (ingress : Option Nat) : Route :=
  if 0 < f.hops then
    let d := f.codes % 8
    if 6 ≤ d then .invalid else .hop d { f with hops := f.hops - 1, codes := f.codes / 8 }
  else
    match xlatLc s (adLc f.dst) with
    | none => .invalid
    | some p =>
      match dimLink s p with
      | none => .here
      | some d => .hop d { f with vc := hopVc s f ingress d }

/-- Send on a frame of this module: to a link, or to the loopback path. -/
def launch (s : State) (f : Frame) : State :=
  match routeOf s f none with
  | .here => let x := linkOf s loopLink; setLink s loopLink { x with rxq := x.rxq ++ [f] }
  | .hop d g => sendHop s d g
  | .invalid => s

/-! ## The journal (R362–R366, R369, R371) -/

/-- Bytes of a record: header, body, padding (R364). -/
def recBytes (body : Nat) : Nat := 64 + (body + 63) / 64 * 64

/-- A record belongs to the RX segments. -/
def JKind.isRx : JKind → Bool
  | .rxLink => true
  | .rxHost => true
  | .txLink => false

/-- Journal bytes of a step and direction. -/
def aglBytes (a : Agl) (step : Nat) (rx : Bool) : Nat :=
  a.recs.foldl (fun n r => if r.step = step ∧ r.kind.isRx = rx then n + recBytes r.frame.body.length else n) 0

/-- Segments of 64 MiB that some bytes take (R366). -/
def segsOf (n : Nat) : Nat := (n + 67108863) / 67108864

/-- Steps that the journal holds records of. -/
def aglSteps (a : Agl) : List Nat := (a.recs.map (fun r => r.step)).eraseDups

/-- Segments of a step. -/
def stepSegs (a : Agl) (step : Nat) : Nat := segsOf (aglBytes a step true) + segsOf (aglBytes a step false)

/-- Segments in use. -/
def usedSegs (a : Agl) : Nat := (aglSteps a).foldl (fun n st => n + stepSegs a st) 0

/-- Segments of the journal: 16 per GiB. -/
def aglCap (s : State) : Nat := s.aglGiB * 16

/-- The oldest unsealed step. -/
def oldestUnsealed (s : State) : Option Nat := (s.steps.find? unsealed).map (fun r => r.n)

/-- A record of a step and direction is admitted (R366). -/
def admits (s : State) (step : Nat) (rx : Bool) (body : Nat) : Bool :=
  let b := aglBytes s.agl step rx
  let more := segsOf (b + recBytes body) - segsOf b
  decide (more = 0) ||
    (decide (usedSegs s.agl + more ≤ aglCap s) &&
      (decide (oldestUnsealed s = some step) || decide (2 * (stepSegs s.agl step + more) ≤ aglCap s)))

/-- Show the journal's use in HUB_AGL_USED and HUB_AGL_HWM (Table 13.5). -/
def showAgl (s : State) : State :=
  let u := usedSegs s.agl * 64
  setReg (setReg s .hub rHubAglUsed (BitVec.ofNat 32 u)) .hub rHubAglHwm
    (BitVec.ofNat 32 (max (regAt s .hub rHubAglHwm).toNat u))

/-- Append a record with the next JSEQ (R364). -/
def addRec (s : State) (kind : JKind) (step peer : Nat) (f : Frame) (origin : List Byte) : State :=
  showAgl { s with agl := { s.agl with
    recs := s.agl.recs ++ [{ kind := kind, step := step, jseq := s.agl.jseq, peer := peer, frame := f, origin := origin,
                             matched := true, redone := true }]
    jseq := s.agl.jseq + 1 } }

/-- A frame waits for admission: HUB_AGL_WAITS, and EVT_AGL_FULL for the first wait of its step (R366). -/
def aglWait (s : State) (w : JWait) : State :=
  let s1 := cnt { s with agl := { s.agl with wait := s.agl.wait ++ [w] } } .hub rHubAglWaits
  if s1.agl.fullSeen.contains w.frame.step then s1
  else raise { s1 with agl := { s1.agl with fullSeen := w.frame.step :: s1.agl.fullSeen } } .aglFull whHub
    w.frame.step [a32 (usedSegs s1.agl * 64)]

/-- Key of a journaled frame (R369): type group, destination address, or object and die; a collective contribution goes
by its collective and block. -/
def jKey (f : Frame) : Nat × Nat × Nat :=
  if f.ty = tySync then (1, adDie f.dst, f.arg % 4096)
  else if f.ty = tyColl then (2, f.arg, leAt f.body (8 + 0x10) 4)
  else (0, leAt f.body 0 8 % 2 ^ 48, 0)

/-- The first unmatched record of a kind with a frame's key: that of the same occurrence (R369). -/
def findRec (a : Agl) (kind : JKind) (peer : Nat) (f : Frame) : Option JRec :=
  a.recs.find? (fun r => r.kind == kind && r.step == f.step && !r.matched && r.peer == peer && jKey r.frame == jKey f)

/-- A body for the comparison of R371: bytes 0x18 to 0x1F of a carried block header replaced by the block CRC taken as if
EPOCH were zero. -/
def jBody (f : Frame) : List Byte :=
  if f.ty = tySync then f.body
  else
    let h := parseHdr (slice f.body 8 32)
    let z := { h with epoch := 0 }
    splice f.body (8 + 0x18) (leBytes 8 (recrc h z (crcTail h)))

/-- A frame that the module emits is journaled (Table 13.1): it leaves the module, is step-bound and is a BLOCK or SYNC
frame to memory or objects, or its own contribution. -/
def txJournaled (s : State) (f : Frame) : Bool :=
  decide (f.step ≠ 0) && !adHub f.dst && decide (some (adLc f.dst) ≠ ownLc s) &&
    (decide (f.ty = tyBlock) || decide (f.ty = tySync) || (decide (f.ty = tyColl) && decide (leAt f.body 4 1 = 0)))

/-- EVT_REPLAY_DIVERGE: the key and the epoch of the record (R371). -/
def diverge (s : State) (old new : Frame) : State :=
  let ndet := ((stepRec s new.step).map (fun r => r.ndet)).getD false
  if jBody old = jBody new ∨ ndet then s
  else raise (cnt s .hub rHubAglDiverge) .replayDiverge whHub new.step
    ([a32 (adLc new.src)] ++ (if new.ty = tySync then [a32 (new.arg % 4096)] else [a64 (jKey new).2.1]) ++ [a32 old.epoch])

/-- Record an emission: it replaces the TX record it matches, or becomes a new one (R371). -/
def recordTx (s : State) (f : Frame) : State :=
  match findRec s.agl .txLink (adLc f.dst) f with
  | some r =>
    let s1 := diverge s r.frame f
    { s1 with agl := { s1.agl with recs := s1.agl.recs.map (fun x =>
        if x.jseq = r.jseq then { x with frame := f, matched := true } else x) } }
  | none => addRec s .txLink f.step (adLc f.dst) f []

/-! ## End-to-end emission (R334–R336) -/

/-- Key of a pair and class. -/
def pairKey (lc cls : Nat) : Nat := 2 * lc + cls

/-- End-to-end timeout (R336). -/
def e2eTmo (s : State) : Nat := msLim s.xlat.tmo 1000

/-- Note the first status that an owner's work receives (R527). -/
def noteStat (s : State) (o : Owner) (st : Nat) : State :=
  if s.ostat.any (fun x => x.1 == o) then s else { s with ostat := s.ostat ++ [(o, st)] }

/-- A frame that may no longer leave, its destination or this module's own coordinate not being VALID: its work ends with
ADDR and the event, raised once (R328). -/
def unsent (s : State) (f : Frame) (o : Owner) : State :=
  if s.ostat.any (fun x => x.1 == o) then s
  else
    let s1 := xlatInvalid s (adLc f.dst) whHub f.step
    match o with
    | .op _ => noteStat s1 o 0x11
    | .coll _ => noteStat s1 o 0x11
    | _ => s1

/-- Assign the ESN of the pair, note the frame as unacknowledged, and launch it (R334, R335). -/
def sendSeq (s : State) (f : Frame) (o : Owner) (collid : Nat) : State :=
  if !sequenced f then launch s f
  else if !canSend s (adLc f.dst) then unsent s f o
  else
    let lc := adLc f.dst
    let k := pairKey lc (tyClass f.ty)
    let esn := smGet (fun _ => 0) s.e2e.tx k
    let u : Unack := { lc := lc, cls := tyClass f.ty, esn := esn, deadline := s.beacon + e2eTmo s, step := f.step,
                       collid := collid, owner := o, stat := 0 }
    launch { s with e2e := { s.e2e with
      tx := smPut (fun _ => 0) s.e2e.tx k ((esn + 1) % u32Mod), unack := s.e2e.unack ++ [u] } } { f with esn := esn }

/-- Emit a frame of this module: journaled when Table 13.1 says so, waiting when its record is not admitted. -/
def emit (s : State) (f : Frame) (o : Owner) (collid : Nat) : State :=
  if !canSend s (adLc f.dst) then unsent s f o
  else if txJournaled s f then
    let hasMatch := (findRec s.agl .txLink (adLc f.dst) f).isSome
    if hasMatch || (admits s f.step false f.body.length && !s.agl.wait.any (fun w => w.tx && w.frame.step == f.step)) then
      sendSeq (recordTx s f) f o collid
    else aglWait s { tx := true, frame := f, owner := o, collid := collid }
  else sendSeq s f o collid

/-- A frame with empty link fields. -/
def mkFrame (s : State) (ty lc die : Nat) (hub : Bool) (srcDie : Nat) (srcHub : Bool) (step epoch arg : Nat)
    (body : List Byte) : Frame :=
  { ty := ty, vc := 2 * tyClass ty, resend := false, hops := 0, codes := 0, dst := adOf lc die hub,
    src := adOf ((ownLc s).getD 0) srcDie srcHub, step := step, esn := 0, epoch := epoch, arg := arg, body := body }

/-- A frame that the hub originates (R529): die 0, HUB 1 in SRC. A module without a logical coordinate sends none. -/
def hubSend (s : State) (f : Frame) (o : Owner) (collid : Nat) : State :=
  if canSend s (adLc f.dst) then emit s f o collid else s

/-- The noted status of an owner, 0 for none. -/
def statOf (s : State) (o : Owner) : Nat := ((s.ostat.find? (fun x => x.1 == o)).map (·.2)).getD 0

/-- Work of an owner that is still on its way: unacknowledged frames, waiting records, and the blocks of its READs
unless a receiver refused it (R527). -/
def outstanding (s : State) (o : Owner) : Bool :=
  s.e2e.unack.any (fun u => u.owner == o) || s.agl.wait.any (fun w => w.tx && w.owner == o)
    || (decide (statOf s o = 0) && s.reads.any (fun r => r.owner == o && decide (r.got.length < r.count)))

/-- Forget an owner's status. -/
def clearStat (s : State) (o : Owner) : State := { s with ostat := s.ostat.filter (fun x => x.1 != o) }

end Sys2Proof.Machine
end

