-- ==== Sys2Proof/Machine/Scale.lean ====
section
/-! DEFINITION. Scale management at step open and at commit, and the global loss scale (ch. 08). -/
namespace Sys2Proof.Machine

/-- The smallest FP32 value at or above num / den × 2^e (round_f32_up, R237). -/
def f32Up (num den : Nat) (e : Int) : EV :=
  if num = 0 then evZero
  else
    let c := (rndFlt .fp32 23 127 0x7F7FFFFF .rtz false false num den e).code
    match f32Val c with
    | .fin _ m e2 =>
      let lo := min e e2
      if m * 2 ^ (e2 - lo).toNat * den < num * 2 ^ (e - lo).toNat then f32Val (min 0x7F7FFFFF (c + 1)) else f32Val c
    | v => v

/-- The smallest power of two at or above num / den × 2^e (pow2_ceil, R237); 0 for 0. -/
def pow2Up (num den : Nat) (e : Int) : EV :=
  if num = 0 then evZero
  else
    let k := log2Ratio num den e
    let d := k - e
    let exact := if 0 ≤ d then num = den * 2 ^ d.toNat else num * 2 ^ (-d).toNat = den
    evPow2 (if exact then k else k + 1)

/-- The larger and the smaller of two values. -/
def evMaxV (a b : EV) : EV := if evLt a b then b else a
def evMinV (a b : EV) : EV := if evLt b a then b else a

/-- clamp of R237. -/
def evClamp (x lo hi : EV) : EV := evMinV (evMaxV x lo) hi

/-- The bounds of a positive normal FP32 value. -/
def f32MinN : EV := .fin false 1 (-126)
def f32MaxN : EV := .fin false 16777215 104

/-- fmax of a format code for the estimator; none for IDX, Q4, Q8 and undefined codes (R237). -/
def estFmax (fmt : Nat) : Option (Nat × Int) :=
  match fmtOf fmt with
  | some f => if f.scaled then some f.fmaxVal else if f.isQ || decide (f = .idx) then none else some (1, 0)
  | none => none

/-- Where the hub can reach `n` bytes of the tiers or an SRAM window for a write; else why not: a registered parameter page
is not the estimator's to write (R305). -/
def hubReach (s : State) (a n : Nat) : Option AccErr :=
  match accChk s a true with
  | some e => some e
  | none => accChk s (a + n - 1) true

/-- Address of an entry of the estimator table in force. -/
def estEnt (s : State) (slot : Nat) : Nat := s.scl.estAddr + 64 * slot

/-- Add to one of the three counters of an entry: it sticks, sets its bit and raises EVT_CNT_SAT once (R232). -/
def estCount (s : State) (slot off bit n : Nat) : State :=
  let a := estEnt s slot + off
  let v := rdLE s a 4
  let v' := min u32Max (v + n)
  if n = 0 then s
  else
    let s1 := wrLE s a 4 v'
    if v < u32Max ∧ v' = u32Max then
      raise (wrLE s1 (estEnt s slot + 0x38) 4 (setBit (rdLE s1 (estEnt s slot + 0x38) 4) bit)) .cntSat whHub 0 [a64 a]
    else s1

/-- The accumulator's counts go to the slot's words (R233). -/
def estCounts (s : State) (slot : Nat) (a : EstAcc) : State :=
  estCount (estCount (estCount s slot 0x28 0 a.sat) slot 0x2C 1 a.flush) slot 0x30 2 a.nonfin

/-- Set bits [5:3] of CFLAGS. -/
def estFlags (s : State) (slot : Nat) (empty corr nox : Bool) : State :=
  let a := estEnt s slot + 0x38
  wrLE s a 4 (rdLE s a 4 % 8 + 8 * b2n empty + 16 * b2n corr + 32 * b2n nox)

/-- What an access of the hub's scale management that is refused raises (R237, R265, R305). -/
def hubRefused (s : State) (e : AccErr) (n : Nat) : State :=
  raiseIf (decide (e = .dieAbsent)) (raiseAcc s e whHub n) .dieAbsentAccess whHub n []

/-- A commit that writes no X: STEP and NOX (R237). -/
def estNox (s : State) (slot n : Nat) (e : Option AccErr) : State :=
  let s1 := estFlags (wrLE s (estEnt s slot + 0x34) 4 n) slot false false true
  match e with
  | some x => hubRefused s1 x n
  | none => s1

/-- The new history, scale and correction of a TENSOR slot (R237). -/
def estNew (c : EstCfg) (h m : EV) (sat : Nat) (xused : EV) (fm : Nat × Int) : EV × EV × Bool :=
  let h1 := evMaxV (rne (evMul (f32Val c.alpha) h)) m
  let x := match h1 with
    | .fin _ hm he => if c.pow2 then pow2Up hm fm.1 (he + c.margin - fm.2) else f32Up hm fm.1 (he + c.margin - fm.2)
    | .inf _ => .inf false
    | .nan => f32Val (Config.estNan c.alpha (f32Of h) (f32Of m)).toNat
  let xb := evMul xused (evPow2 c.bump)
  if sat > 0 ∧ evLt x xb then
    (rne (evMul xb (.fin false fm.1 (fm.2 - c.margin))), xb, true)
  else (h1, x, false)

/-- The commit of step n in a TENSOR slot (R233, R237). -/
def estTensor (s : State) (n slot : Nat) (c : EstCfg) : State :=
  let a := smGet (fun _ => EstAcc.zero) s.scl.acc (accKey slot n)
  if !a.got then s
  else
    let s1 := estCounts s slot a
    match hubReach s1 c.desc 64 with
    | some e => estNox s1 slot n (some e)
    | none =>
      match estFmax (rdLE s1 (c.desc + 0x14) 1) with
      | none => estNox s1 slot n none
      | some fm =>
        let ent := estEnt s1 slot
        if (f32Val a.m).isZero ∧ a.sat = 0 then estFlags s1 slot true false (bitAt (rdLE s1 (ent + 0x38) 4) 5)
        else
          let xa := c.desc + 0x20 + 4 * (n % 2)
          let (h, x, corr) := estNew c (f32Val (rdLE s1 (ent + 0x20) 4)) (f32Val a.m) a.sat (f32Val (rdLE s1 xa 4)) fm
          let x1 := f32Of (evClamp (evClamp x (f32Val c.xmin) (f32Val c.xmax)) f32MinN f32MaxN)
          let s2 := wrLE s1 xa 4 x1
          let s3 := wrLE (wrLE (wrLE s2 (ent + 0x20) 4 (f32Of h)) (ent + 0x24) 4 x1) (ent + 0x34) 4 n
          estFlags s3 slot false corr false

/-- Scale and zero point of a channel from its range and the slot's bounds (R237, R240, Table 8.2); true marks a constant
channel, one of −0 and +0 among them. -/
def chanScale (w : Nat) (xmin xmax lo hi : EV) : EV × Nat × Bool :=
  let top : Int := 2 ^ w - 1
  if evLt lo hi && !evEqv lo hi then
    let d := evSub hi lo
    let x := match d with
      | .fin _ m e => evClamp (evClamp (f32Up m (2 ^ w - 1) e) xmin xmax) f32MinN f32MaxN
      | _ => f32MaxN
    match lo, x with
    | .fin neg m e, .fin _ xm xe => (x, (rndRange .rne (!neg) m xm (e - xe) 0 0 top).1.toNat, false)
    | _, _ => (x, 0, false)
  else
    let half := 2 ^ (w - 1)
    match lo with
    | .fin neg m e =>
      if m = 0 then (evPow2 0, half, true)
      else
        let q := half / 2
        let x := f32Up m q e
        (evMaxV x f32MinN, if neg then half + q else half - q, true)
    | _ => (evPow2 0, half, true)

/-- One channel of a CHANNEL slot at commit: its scale, zero point and CONST bit; counts the channels written and the
constant ones among them. -/
def chanCommit (sd : ScaleDesc) (w : Nat) (c : EstCfg) (par : Nat) (x : State × Nat × Nat) (ch : Nat) : State × Nat × Nat :=
  let s := x.1
  let rng := c.range
  let pa := rng + 8 * (par * sd.count + ch)
  let lo := f32Val (rdLE s pa 4)
  let hi := f32Val (rdLE s (pa + 4) 4)
  if lo = .inf false then x
  else
    let (xv, z, k) := chanScale w (f32Val c.xmin) (f32Val c.xmax) lo hi
    let s1 := wrLE (wrLE s (sd.sc + 4 * ch) 4 (f32Of xv)) (sd.zp + ch) 1 z
    let ma := sd.constMap + ch / 8
    let b := rdLE s1 ma 1
    (wrLE s1 ma 1 (if k then setBit b (ch % 8) else clrBit b (ch % 8)), x.2.1 + 1, x.2.2 + b2n k)

/-- The commit of step n in a CHANNEL slot (R233, R240, R241). -/
def estChannel (s : State) (n slot : Nat) (c : EstCfg) : State :=
  let a := smGet (fun _ => EstAcc.zero) s.scl.acc (accKey slot n)
  let s1 := if a.got then estCounts s slot a else s
  match hubReach s1 c.desc 64 with
  | some e => estNox s1 slot n (some e)
  | none =>
    let fmt := rdLE s1 (c.desc + 0x14) 1
    let scd := rdLE s1 (c.desc + 0x28) 8
    match hubReach s1 scd 64 with
    | some e => estNox s1 slot n (some e)
    | none =>
      let sd := scaleDesc s1 scd (n % 2)
      match [(c.range + 8 * (n % 2 * sd.count), 8 * max 1 sd.count), (sd.sc, 4 * max 1 sd.count), (sd.zp, max 1 sd.count),
          (sd.constMap, 8 * max 1 (ceilDiv sd.count 64))].findSome? (fun x => hubReach s1 x.1 x.2) with
      | some e => estNox s1 slot n (some e)
      | none =>
        let r := (List.range sd.count).foldl (chanCommit sd (if fmt = 0x03 then 4 else 8) c (n % 2)) (s1, 0, 0)
        -- NOX clears at a commit that writes an X (R237).
        let nox := decide (r.2.1 = 0) && bitAt (rdLE s1 (estEnt s1 slot + 0x38) 4) 5
        let s2 := estFlags (wrLE r.1 (estEnt s1 slot + 0x34) 4 n) slot false false nox
        if r.2.2 = 0 then s2
        else raise (setFld (cntAdd s2 .scl rSclConst r.2.2) .scl rSclStatus 1 1 1) .constChannel whHub n
          [a16 slot, a32 (rdLE s1 (c.desc + 0x10) 4), a32 r.2.2]

/-- EVT_FLUSH_MICROBLOCK of a slot at commit (R244). -/
def flushCheck (s : State) (n slot : Nat) (c : EstCfg) : State :=
  let a := smGet (fun _ => EstAcc.zero) s.scl.acc (accKey slot n)
  let rate := fld s .scl rSclFlushRate 15 0
  raiseIf (decide (rate ≠ 0) && decide (1 ≤ a.flush) && decide (rate * a.mblocks ≤ a.flush * 65536)) s
    .flushMicroblock whHub n [a16 slot, a32 (rdLE s (c.desc + 0x10) 4), a32 a.flush, a32 a.mblocks]

/-- One slot at the commit of step n. -/
def estCommit (n : Nat) (s : State) (slot : Nat) : State :=
  match smGet (fun _ => none) s.scl.est slot with
  | some c => flushCheck (if c.mode = 1 then estTensor s n slot c else estChannel s n slot c) n slot c
  | none => s

/-- Change a fade group. -/
def setFade (s : State) (g : Nat) (f : Fade) : State :=
  { s with scl := { s.scl with fade := smPut (fun _ => Fade.zero) s.scl.fade g f } }

/-- One fade group at the commit of a step (R251, R252). -/
def fadeCommit (n : Nat) (s : State) (g : Nat) : State :=
  let r := smGet (fun _ => FadeRep.zero) s.scl.fadeRep (4096 * (n % 2) + g)
  let f := smGet (fun _ => Fade.zero) s.scl.fade g
  let thr := fld s .scl rSclFadeThresh 15 0
  if r.blocks = 0 then s
  else if r.zeros = r.blocks then
    let c := min u32Max (f.count + 1)
    let u := f.uflow || decide (0 < r.uflow)
    let due := decide (thr ≠ 0) && (if f.lastEvt = 0 then decide (c = thr) else decide (c = 2 * f.lastEvt))
    let s1 := setFade s g { count := c, lastEvt := if due then c else f.lastEvt, uflow := u }
    if due then raise (setFld s1 .scl rSclStatus 2 2 1) .fade whHub n [a16 g, a32 c, a8 (b2n u)] else s1
  else
    raiseIf (decide (thr ≠ 0) && decide (thr ≤ f.count)) (setFade s g Fade.zero) .fadeClear whHub n [a16 g, a32 f.count]

/-- Fade groups that have reports of a step's parity. -/
def fadeGroups (s : State) (n : Nat) : List Nat :=
  (s.scl.fadeRep.filter (fun e => decide (e.1 / 4096 = n % 2))).map (fun e => e.1 % 4096)

/-- Everything scale management does at the commit of step n (R233–R252): slots in ascending index, then fade groups. -/
def sclCommit (s : State) (n : Nat) : State :=
  (fadeGroups s n).foldl (fadeCommit n) ((s.scl.est.map (·.1)).foldl (estCommit n) s)

/-! ## The loss scale -/

/-- Set e and show it in SCL_LS_NOW. -/
def setLs (s : State) (e : Nat) : State :=
  setFld { s with scl := { s.scl with ls := e } } .scl rSclLsNow 5 0 e

/-- Halve the loss scale once, with the change point (R247). -/
def lsHalve (s : State) (low : Nat) : State :=
  let floor := decide (s.scl.ls ≤ s.scl.lsMin)
  let s1 := setLs s (max (s.scl.ls - 1) s.scl.lsMin)
  let s2 := { s1 with scl := { s1.scl with lsJ := some low } }
  raiseIf floor s2 .lossScaleFloor whHub low [a8 s.scl.lsMin]

/-- The doubling rule at the open of step m (R246). -/
def lsDouble (s : State) (m : Nat) : State :=
  match s.scl.lsJ with
  | some j =>
    if s.scl.lsWindow + j + 1 ≤ m ∧ s.scl.ls < s.scl.lsMax then
      let s1 := setLs s (s.scl.ls + 1)
      { s1 with scl := { s1.scl with lsJ := some m } }
    else s
  | none => s

/-- Address of the loss-scale tensor. -/
def lsBase (s : State) : Nat := addr48 s .scl rSclLsBaseLo rSclLsBaseHi / 2048 * 2048

/-- The hub can write a block at an address of the tiers. -/
def lsBlkOk (s : State) (a : Nat) : Bool :=
  (accChk s a true).isNone && !inHdrPlane s a && (ctrlOf s a).isSome

/-- FP32 code of 2^e. -/
def f32Pow2 (e : Int) : Nat := ((e + 127) * 8388608).toNat

/-- Write the loss-scale tensor of step n (R248). -/
def lsWrite (s : State) (n : Nat) : State :=
  let base := lsBase s
  if lsBlkOk s base && lsBlkOk s (base + 2048) then
    let b := n % 2
    let payload := padTo 2048 (leBytes 4 (f32Pow2 s.scl.ls) ++ leBytes 4 (f32Pow2 (-(s.scl.ls : Int))))
    let h : Hdr := { fmt := 0x19, layout := 0, flags := 2 ^ flLen, vrows := 1, vcols := 2, cut := 0, x := f32One,
                     tensor := 0xFFFFFF00, block := b, step := n, epoch := s.epoch, crc := 0 }
    let a := base + 2048 * b
    let s1 := wrBytes (traffic s none 0 a 2048 true) a payload
    let ha := hdrAddr s a
    memWr (unpoison (traffic s1 none 0 ha 32 true) ha 32) ha (hdrBytes { h with crc := blkCrc h payload [] })
  else raise s .lsTensorAddr whHub n [a64 base]

/-! ## Step open -/

/-- The configuration in an estimator entry; none for a MODE other than 1 and 2 (Table 8.1, R230). -/
def parseEst (l : List Byte) : Option EstCfg :=
  let m := leAt l 8 1
  if m = 1 ∨ m = 2 then
    some { desc := leAt l 0 8, mode := m, margin := leAt l 9 1 % 16, bump := leAt l 0x0A 1 % 8, pow2 := leAt l 0x0B 1 % 2 == 1,
           alpha := leAt l 0x0C 4, xmin := leAt l 0x10 4, xmax := leAt l 0x14 4, range := leAt l 0x18 8 }
  else none

/-- Tables that an entry of the estimator table names (R525). -/
def estRanges (s : State) (x : Nat × Option EstCfg) : List (Nat × Nat) :=
  match x.2 with
  | some c =>
    (c.desc, 64) :: (if c.mode = 2 then
      [(rdLE s (c.desc + 0x28) 8, 64), (c.range, 16 * rdLE s (rdLE s (c.desc + 0x28) 8) 4)] else [])
  | none => []

/-- Bring the estimator table into force, when SCL_APPLY.EST asked for it (R231, R491). -/
def estSample (s : State) : State :=
  if !s.scl.estPend then s
  else
    let a := addr48 s .scl rSclEstLo rSclEstHi / 64 * 64
    let n := min 8192 (fld s .scl rSclEstCount 13 0)
    let s0 := { s with scl := { s.scl with estPend := false } }
    match tblBad s a (64 * n) with
    | some b => applyRefused s0 .scl rSclApply b
    | none =>
      let tbl := (List.range n).foldl (fun m k => smPut (fun _ => none) m k (parseEst (rdBytes s (a + 64 * k) 64))) []
      match tblsBad s (tbl.flatMap (estRanges s)) with
      | some b => applyRefused s0 .scl rSclApply b
      | none => { s0 with scl := { s0.scl with est := tbl, estCount := n, estAddr := a } }

/-- FP32 codes of the infinities. -/
def f32Inf : Nat := 0x7F800000
def f32NegInf : Nat := 0xFF800000

/-- Reset the range pairs of a CHANNEL slot for a parity (R239). -/
def rangeReset (n : Nat) (s : State) (slot : Nat) : State :=
  match smGet (fun _ => none) s.scl.est slot with
  | some c =>
    if c.mode = 2 ∧ (hubReach s c.desc 64).isNone ∧ (hubReach s (rdLE s (c.desc + 0x28) 8) 64).isNone then
      let sd := scaleDesc s (rdLE s (c.desc + 0x28) 8) (n % 2)
      let a := c.range + 8 * (n % 2 * sd.count)
      match hubReach s a (8 * max 1 sd.count) with
      | none => wrBytes s a ((List.replicate sd.count (leBytes 4 f32Inf ++ leBytes 4 f32NegInf)).flatten)
      | some e => hubRefused s e n
    else s
  | none => s

/-- Everything scale management does at the open of step n (R231, R233, R239, R246, R248, R250): the loss-scale tensor is
written before OPEN is signalled. -/
def sclOpen (s : State) (n : Nat) : State :=
  let s1 := estSample s
  let s2 := { s1 with scl := { s1.scl with
    acc := s1.scl.acc.filter (fun e => decide (e.1 % 2 ≠ n % 2))
    fadeRep := s1.scl.fadeRep.filter (fun e => decide (e.1 / 4096 ≠ n % 2))
    seed := (regAt s1 .scl rSclSeedLo).toNat + (regAt s1 .scl rSclSeedHi).toNat * u32Mod } }
  lsWrite (lsDouble ((s2.scl.est.map (·.1)).foldl (rangeReset n) s2) n) n

end Sys2Proof.Machine
end

