-- ==== Sys2Proof/Machine/Abandon.lean ====
section
/-! DEFINITION. Groups (R338), abandonment of steps (R44, R45, R174), epochs (R32), the switch of the translation bank
(R327, R528) and the epoch agreement (R524). -/
namespace Sys2Proof.Machine

/-! ## Groups (R338) -/

/-- `n` bytes of main memory are readable by the hub. -/
def hubReadable (s : State) (a n : Nat) : Bool :=
  (accChk s a false).isNone && (accChk s (a + n - 1) false).isNone && (ctrlOf s a).isSome && !poisoned s (xlatPage s a) n

/-- COUNT of a group entry. -/
def grpEntCount (s : State) (g : Nat) : Nat := rdLE s (s.xlat.grp + 16 * g + 8) 4

/-- Member list of a group, in rank order; none for an invalid entry (R338). -/
def grpMembers (s : State) (g : Nat) : Option (List Nat) :=
  let a := s.xlat.grp + 16 * g
  let n := grpEntCount s g
  let m := rdLE s a 8
  if g < s.xlat.grpCount && hubReadable s a 16 && decide (1 ≤ n) && decide (n ≤ 65536) && hubReadable s m (4 * n) then
    some ((List.range n).map (fun k => rdLE s (m + 4 * k) 4 % 2 ^ 18))
  else none

/-- Rank of this module in a member list. -/
def rankIn (s : State) (ms : List Nat) : Option Nat := (ownLc s).bind (fun c => ms.findIdx? (fun x => x == c))

/-- The step group and this module's rank in it; none when group 0 does not hold the module (R35). -/
def stepGroup (s : State) : Option (List Nat × Nat) :=
  (grpMembers s 0).bind (fun ms => (rankIn s ms).map (fun r => (ms, r)))

/-! ## VOTE frames (R340, R524) -/

/-- Body of a VOTE frame (Table 11.5). -/
def voteBody (a b phase kind : Nat) : List Byte :=
  leBytes 4 a ++ leBytes 4 b ++ leBytes 1 phase ++ leBytes 1 kind ++ [0, 0]

/-- Send a VOTE frame from hub to hub. -/
def sendVote (s : State) (lc step epoch arg a b phase kind : Nat) (o : Owner) : State :=
  hubSend s (mkFrame s tyVote lc 0 true 0 true step epoch arg (voteBody a b phase kind)) o arg

/-- Next rank of a ring. -/
def nextRank (ms : List Nat) (r : Nat) : Nat := (r + 1) % ms.length

/-- The vote limit (R38). -/
def voteLim (s : State) : Nat := msLim s.voteMs 60000
/-- The drain limit (R38). -/
def drainLim (s : State) : Nat := msLim s.drainMs 60000

/-! ## The agreement (R524) -/

/-- Apply the result of an agreement: the loss scale, the flag, and the replay may begin (R247, R524 step 4). -/
def agreeApply (s : State) (flag : Bool) (low : Nat) : State :=
  let s1 := if flag then lsHalve s low else s
  tmOff (tmOff { s1 with agree := { s1.agree with active := false, flag := false } } .agreeNotice) .agreePhase0

/-- A notice to rank 0, repeated each vote limit (R524 step 1). -/
def agreeNotice (s : State) : State :=
  match stepGroup s with
  | some (ms, _) =>
    tmArm (sendVote s (ms.headD 0) 0 s.agree.epoch 0 s.agree.low (b2n s.agree.flag) 2 2 .hub) .agreeNotice (voteLim s)
  | none => s

/-- The phase-0 frame of rank 0 (R524 step 2). -/
def agreePhase0 (s : State) : State :=
  match stepGroup s with
  | some (ms, _) =>
    tmArm (sendVote s (ms.getD 1 0) 0 s.agree.epoch 0 s.agree.low (b2n s.agree.flag) 0 2 .hub) .agreePhase0 (voteLim s)
  | none => s

/-- Begin the agreement of the epoch just adopted (R524). -/
def agreeBegin (s : State) (cause1 : Bool) (low : Nat) : State :=
  let s1 := { s with agree := { epoch := s.epoch, active := true, flag := s.agree.flag || cause1, low := low, sent0 := false } }
  match stepGroup s1 with
  | none => s1
  | some (ms, r) =>
    if ms.length = 1 then agreeApply s1 s1.agree.flag low
    else if r = 0 then agreePhase0 s1
    else if low = u32Max then s1
    else agreeNotice s1

/-! ## Translation bank (R327, R500, R528) -/

/-- Clear the end-to-end state of some logical coordinates. Frames sent before cannot be acknowledged any more. -/
def e2eClear (e : E2e) (p : Nat → Bool) : E2e :=
  { tx := e.tx.filter (fun x => !p (x.1 / 2)), rx := e.rx.filter (fun x => !p (x.1 / 2)),
    store := e.store.filter (fun r => !p r.lc), due := e.due.filter (fun x => !p x.1),
    unack := e.unack.map (fun u => if p u.lc then { u with cls := u.cls % 2 + 2 } else u) }

/-- The armed bank comes into force once the epoch has reached its apply epoch. The switch samples XLAT_DIM, the group
table registers and XLAT_E2E_TMO (R491, Table 18.3). A spare in the place of the ward or the buddy is served next (R383,
R385). -/
def xlatSwitch (s : State) : State :=
  match s.xlat.armed with
  | some e =>
    if s.epoch < e then s
    else
      let x : Xlat :=
        { s.xlat with
          bank := !s.xlat.bank
          armed := none
          dim := fld s .xlat rXlatDim 17 0
          grp := addr48 s .xlat rXlatGrpLo rXlatGrpHi / 16 * 16
          grpCount := fld s .xlat rXlatGrpCount 15 0
          tmo := fld s .xlat rXlatE2eTmo 15 0 }
      let s1 := { s with xlat := x }
      let moved := fun lc => decide (xlatLc s1 lc ≠ xlatLc s lc)
      let bud := s.buddy.any moved
      let s2 := { s1 with
        e2e := e2eClear s1.e2e moved
        wardNew := s.wardNew || s.ward.any (fun lc => (xlatLc s lc).isSome && moved lc)
        buddyNew := s.buddyNew || bud
        resyncOut := s.resyncOut || bud }
      setFld (setFld (setFld s2 .xlat rXlatStatus 2 2 0) .xlat rXlatStatus 1 1 1) .xlat rXlatStatus 0 0 (b2n s2.xlat.bank)
  | none => s

/-! ## Abandonment (R44, R45, R174) -/

/-- A sequencer of an abandoned step stops, to restart at its entry, whatever its state was (R174). -/
def abandonSeq (ns : List Nat) (x : Seq) : Seq :=
  if x.step ≠ 0 ∧ ns.contains x.step then { x with st := .restarting, pend := 0 } else x

/-- Sequencers, queued and running instructions, held signals and transfers of abandoned steps end, and send no
completion signal. -/
def abandonWork (s : State) (ns : List Nat) : State :=
  let gone := fun (st : Nat) => decide (st ≠ 0) && ns.contains st
  let nos := (s.ops.filter (fun o => gone o.step)).map (fun o => o.no)
  let owned := fun (o : Owner) => match o with
    | .op n => nos.contains n
    | .coll n => nos.contains n
    | .refetch _ => !ns.isEmpty
    | _ => false
  { s with
    seqs := s.seqs.foldl (fun m e => smUpd (fun _ => Seq.reset) m e.1 (abandonSeq ns)) s.seqs
    ops := s.ops.filter (fun o => !gone o.step)
    sigs := s.sigs.filter (fun g => !gone g.step)
    colls := s.colls.filter (fun c => !gone c.step)
    reads := s.reads.filter (fun r => !owned r.owner)
    voteIn := s.voteIn.filter (fun f => !gone f.step)
    collIn := s.collIn.filter (fun f => !gone f.step)
    combs := s.combs.filter (fun c => !nos.contains c.no)
    ostat := s.ostat.filter (fun x => !owned x.1)
    e2e := { s.e2e with unack := s.e2e.unack.map (fun u => if owned u.owner then { u with owner := .hub } else u) }
    agl := { s.agl with
      wait := s.agl.wait.filter (fun w => !(w.tx && gone w.frame.step))
      recs := s.agl.recs.map (fun r => if gone r.step then { r with matched := false, redone := false } else r) }
    timers := s.timers.filter (fun t => match t.1 with
      | .drain n => !gone n
      | .vote n => !gone n
      | _ => true) }

/-- EVT_STEP_ABANDONED of one step: the object ABANDON and the event with its cause (R44, Table 6.7). -/
def abandonEvent (cause : Nat) (s : State) (n : Nat) : State :=
  raise (sysObjInc s oAbandon) .stepAbandoned whHub n [a8 cause]

/-- The result register shows the outcome of the latest command; a held one is cancelled (R523). -/
def cancelHeld (s : State) : State :=
  let s1 := { s with heldOpen := none }
  if fld s .hub rHubStepResult 3 0 = StepOutcome.held.code then setFld s1 .hub rHubStepResult 3 0 StepOutcome.cancelled.code
  else s1

/-- Enter an epoch: the object EPOCH, and an armed translation bank (R187, R327). -/
def setEpoch (s : State) (e : Nat) : State :=
  let served := s.agl.served.map (fun r => { r with matched := false })
  xlatSwitch (sysObj { s with epoch := e, agl := { s.agl with served := served } } oEpoch e)

/-- Abandon every unsealed step from `low` on, under epoch `e`, count an overflow (R45, log 63), and begin the
agreement. -/
def abandonUnder (s : State) (low cause e : Nat) : State :=
  let ns := (s.steps.filter (fun r => unsealed r && decide (low ≤ r.n))).map (fun r => r.n)
  let s1 := setEpoch s e
  match ns with
  | [] => agreeBegin s1 false u32Max
  | l :: _ =>
    let s2 := { s1 with steps := s1.steps.map (fun r => if ns.contains r.n then
        { r with st := .abandoned, cause := cause, declared := false, vote := 0, latched := none, ored := none,
                 digest := none, peers := [], ndet := false, satSeen := false, updDone := 0, voted := false, cmds := [] } else r) }
    let s3 := ns.foldl (abandonEvent cause) (abandonWork s2 ns)
    let s4 := sysObj { s3 with openN := l, ovfCount := if cause = 1 then s3.ovfCount + 1 else s3.ovfCount } oOpen l
    agreeBegin (cancelHeld s4) (decide (cause = 1)) l

/-- Abandon step `n` and every later unsealed step for a cause of this module; refused at the last epoch, where the steps
then hold their state (R32, R44). -/
def abandon (s : State) (n cause : Nat) : State :=
  if s.epoch = u32Max then raise { s with epochHold := true } .epochLimit whHub n []
  else abandonUnder s n cause (s.epoch + 1)

/-- Adopt a higher epoch: unsealed steps are abandoned with cause 0x05, or 0x07 when the epoch brings an armed
translation bank into force, as a promotion does (R32, R383). -/
def adoptEpoch (s : State) (e : Nat) : State :=
  if e ≤ s.epoch then s
  else
    let promo := match s.xlat.armed with
      | some a => decide (a ≤ e)
      | none => false
    abandonUnder s 0 (if promo then 7 else 5) e

end Sys2Proof.Machine
end

