-- ==== Sys2Proof/Machine/Convert.lean ====
section
/-! DEFINITION. Conversions between formats (R74, R75), OCP MX interchange (R90–R92), the writing of a computed tensor
(R147, R148) and fold records (R355). -/
namespace Sys2Proof.Machine

/-! ## Which conversions exist (Table 3.7) -/

/-- A floating-point format of 4 to 8 bits. -/
def Fmt.small (f : Fmt) : Bool := f.scaled && !f.isInt

/-- A source of the conversions to narrow formats. -/
def convSrc (f : Fmt) : Bool := f.scaled || decide (f = .bf16) || decide (f = .fp16) || decide (f = .fp32)

/-- Table 3.7 has a row for the pair. -/
def convOk (src dst : Fmt) : Bool :=
  if src = .idx ∨ dst = .idx then false
  else if dst = .fp32 then true
  else if dst = .t19 then decide (src = .fp32)
  else if dst = .bf16 ∨ dst = .fp16 then decide (src = .fp32) || decide (src = .bf16) || decide (src = .fp16)
  else convSrc src

/-! ## Writing a computed tensor -/

/-- First row and column of block i of a tensor. -/
def tileOrg (d : Desc) (f : Fmt) (i : Nat) : Nat × Nat :=
  let ncol := (gridOf d).2
  if ncol = 0 then (0, 0) else (i / ncol * f.tile.1, i % ncol * f.tile.2)

/-- Valid rows and columns of an output block: one more than the last that holds a valid element (R148). -/
def validExt (d : Desc) (f : Fmt) (i : Nat) (valid : Nat → Nat → Bool) : Nat × Nat :=
  let o := tileOrg d f i
  (List.range f.dense).foldl (fun m k =>
    let r := k / f.tile.2
    let c := k % f.tile.2
    if decide (o.1 + r < d.rows) && decide (o.2 + c < d.cols) && valid (o.1 + r) (o.2 + c) then
      (max m.1 (r + 1), max m.2 (c + 1)) else m) (0, 0)

/-- Form block i from the values of its elements; a block with no valid element is ZERO (R148). -/
def formTile (s : State) (cx : Cx) (d : Desc) (f : Fmt) (rnd : Rnd) (ovf : Bool) (valid : Nat → Nat → Bool)
    (val : Nat → Nat → EV) (cut : Nat → Option Nat) (i : Nat) : Formed :=
  let e := validExt d f i valid
  let o := tileOrg d f i
  let vals := (List.range f.dense).map (fun k =>
    let r := o.1 + k / f.tile.2
    let c := o.2 + k % f.tile.2
    if valid r c then val r c else evZero)
  if e.1 = 0 then formBlk s cx d f i { rnd := fun _ => rnd, ovf := ovf, vrows := 1, vcols := 1, cut := none } []
  else formBlk s cx d f i { rnd := fun _ => rnd, ovf := ovf, vrows := e.1, vcols := e.2, cut := cut i } vals

/-- A formed block with n more overflows or saturations, met before its values were converted (R72, R85). -/
def Formed.addSat (b : Formed) (n : Nat) : Formed :=
  if n = 0 then b else { b with sat := b.sat + n, h := { b.h with flags := b.h.flags ||| 2 ^ flSat } }

/-- Write block i from the values of its elements (R148); `pre i` overflows or saturations came before. -/
def writeTileSat (cx : Cx) (d : Desc) (f : Fmt) (rnd : Rnd) (ovf : Bool) (valid : Nat → Nat → Bool) (val : Nat → Nat → EV)
    (pre : Nat → Nat) (s : State) (i : Nat) : State :=
  if (validExt d f i valid).1 = 0 then writeZero s cx d i 1 1
  else
    let b := (formTile s cx d f rnd ovf valid val (fun _ => none) i).addSat (pre i)
    formCounts (storeBlk s cx d i b.h b.payload b.scales) cx d i b

/-- Write block i from the values of its elements (R148). -/
def writeTile (cx : Cx) (d : Desc) (f : Fmt) (rnd : Rnd) (ovf : Bool) (valid : Nat → Nat → Bool) (val : Nat → Nat → EV)
    (s : State) (i : Nat) : State := writeTileSat cx d f rnd ovf valid val (fun _ => 0) s i

/-- Write every block of a tensor in ascending index. -/
def writeTensor (s : State) (cx : Cx) (d : Desc) (f : Fmt) (rnd : Rnd) (ovf : Bool) (valid : Nat → Nat → Bool)
    (val : Nat → Nat → EV) : State :=
  (List.range (nBlocks d)).foldl (writeTile cx d f rnd ovf valid val) s

/-- The rounding of an RND field: RNE or RTZ. -/
def rndOf (n : Nat) : Rnd := if n = 1 then .rtz else .rne

/-- The rounding of a conversion into a format: what is scaled becomes FP32 under RNE whatever RND says (R74, Table 3.7),
and an accumulating write rounds with RNE (R220). -/
def rndInto (f : Fmt) (acc : Bool) (n : Nat) : Rnd := if acc || decide (f = .fp32) then .rne else rndOf n

/-- Every block of a tensor can be written; else the first error. -/
def wrChk (s : State) (d : Desc) : List Nat → Option AccErr
  | [] => none
  | i :: r => match blkChk s d i true with
    | some e => some e
    | none => wrChk s d r

/-! ## OCP MX (R90–R92) -/

/-- The Pyrlas format whose codes an MX kind carries (Table 7.12). -/
def mxFmt : Nat → Option Fmt
  | 1 => some .e4m3 | 2 => some .e5m2 | 3 => some .fp6e3 | 4 => some .fp6e2 | 5 => some .fp4 | 6 => some .int8
  | _ => none

/-- Element bits of an MX kind, packed without gaps (R90). -/
def mxBits (f : Fmt) : Nat := f.cbits

/-- Exponent of the element format's largest normal value (R92). -/
def mxEmax : Fmt → Int
  | .e4m3 => 8 | .e5m2 => 15 | .fp6e3 => 4 | .fp6e2 => 2 | .fp4 => 2 | _ => 0

/-- Power of two that an element code is multiplied by: 2^-6 for MXINT8. -/
def mxUnit (f : Fmt) : Int := if f = .int8 then -6 else 0

/-- Scale index of element (r, c) of an MX tensor of a shape. -/
def mxBlk (cols : Nat) (axis : Bool) (r c : Nat) : Nat :=
  if axis then r / 32 * cols + c else r * ceilDiv cols 32 + c / 32

/-- Bytes of an MX tensor's elements and of its scales. -/
def mxElemBytes (f : Fmt) (rows cols : Nat) : Nat := ceilDiv (rows * cols * mxBits f) 8
def mxScaleBytes (rows cols : Nat) (axis : Bool) : Nat :=
  if axis then ceilDiv rows 32 * cols else rows * ceilDiv cols 32

/-- The code at an element index of packed bytes. -/
def mxCode (s : State) (base : Nat) (f : Fmt) (k : Nat) : Nat :=
  let b := k * mxBits f
  rdLE s (base + b / 8) 2 / 2 ^ (b % 8) % 2 ^ mxBits f

/-- Store a code at an element index of packed bytes. -/
def mxPut (s : State) (base : Nat) (f : Fmt) (k v : Nat) : State :=
  let b := k * mxBits f
  let n := ceilDiv (b % 8 + mxBits f) 8
  wrLE s (base + b / 8) n (putBits (rdLE s (base + b / 8) n) (b % 8 + mxBits f - 1) (b % 8) v)

/-- An MX tensor as its elements and scales lie in memory. -/
structure MxSrc where
  f : Fmt
  base : Nat
  sb : Nat
  rows : Nat
  cols : Nat
  axis : Bool
  deriving DecidableEq, Repr

/-- Micro-scale code of 2^k for −17 ≤ k ≤ 16 (R91). -/
def mxMicro (k : Int) : Nat := if -14 ≤ k then (8 * (k + 15)).toNat else 2 ^ (k + 17).toNat

/-- What the conversion of one tile from MX gives. -/
structure MxTile where
  x : Nat
  codes : List Nat
  scales : List Nat
  inexact : Nat
  deriving DecidableEq, Repr

/-- MX scale byte of micro-block j of a tile whose first element is (r0, c0). -/
def mxScaleOf (s : State) (m : MxSrc) (f : Fmt) (r0 c0 j : Nat) : Nat :=
  let k := (mbElems f m.axis j).headD 0
  let r := r0 + k / f.tile.2
  let c := c0 + k % f.tile.2
  if m.rows ≤ r ∨ m.cols ≤ c then 0 else rdLE s (m.sb + mxBlk m.cols m.axis r c) 1

/-- Convert one tile of an MX tensor (R91). `dx` is the X a tile gets whose MX blocks are all NaN. -/
def mxTile (s : State) (m : MxSrc) (f : Fmt) (r0 c0 dx : Nat) : MxTile :=
  let code := fun k =>
    let r := r0 + k / f.tile.2
    let c := c0 + k % f.tile.2
    if m.rows ≤ r ∨ m.cols ≤ c then 0 else mxCode s m.base m.f (r * m.cols + c)
  let js := List.range f.msBytes
  let inside := fun j => let k := (mbElems f m.axis j).headD 0
    decide (r0 + k / f.tile.2 < m.rows) && decide (c0 + k % f.tile.2 < m.cols)
  let es : List Int := js.filterMap (fun j =>
    let b := mxScaleOf s m f r0 c0 j
    if inside j && decide (b ≠ 255) then some ((b : Int) - 127) else none)
  match es with
  | [] => { x := dx, codes := (List.range f.dense).map (fun _ => 0), scales := js.map (fun j => if inside j then 255 else 0), inexact := 0 }
  | e0 :: er =>
    let emax := er.foldl max e0
    let parts := js.map (fun j =>
      let idx := mbElems f m.axis j
      let cs := idx.map code
      let b := mxScaleOf s m f r0 c0 j
      if !inside j then (0, List.zip idx (cs.map (fun _ => 0)), 0)
      else if b = 255 then (255, List.zip idx (cs.map (fun _ => 0)), 0)
      else if cs.all (fun c => codeZero f c) then (0, List.zip idx cs, 0)
      else
        let k := (b : Int) - 127 - emax + 16
        if -17 ≤ k then (mxMicro k, List.zip idx cs, 0)
        else (1, List.zip idx (cs.map (fun c => (cvtScaled f .rne true 0 (codeVal f c) 1 (-17 - k)).code)), 1))
    let pairs := parts.flatMap (fun p => p.2.1)
    { x := f32Of (evPow2 (emax - 16 + mxUnit f))
      codes := (List.range f.dense).map (fun k => ((pairs.find? (fun p => p.1 == k)).map (·.2)).getD 0)
      scales := parts.map (fun p => p.1), inexact := parts.foldl (fun n p => n + p.2.2) 0 }

/-- EVT_MX_INEXACT once per tensor and transfer, and the count of re-rounded micro-blocks (R91, R92). -/
def mxReport (s : State) (cx : Cx) (n : Nat) : State :=
  if n = 0 then s else raise (cntAdd s .chk rChkMxInexact n) .mxInexact cx.wh cx.step []

/-- Where a window lies: its origin in the source and in the destination, and its extent. -/
structure Win where
  sr : Nat
  sc : Nat
  dr : Nat
  dc : Nat
  nr : Nat
  nc : Nat
  deriving DecidableEq, Repr

/-- The block of a BLOCK tensor that an MX tile gives, and the micro-blocks re-rounded (R91, R145, R146, R150). -/
def mxForm (s : State) (cx : Cx) (m : MxSrc) (d : Desc) (f : Fmt) (w : Win) (i : Nat) : Formed × Nat :=
  let o := tileOrg d f i
  let r0 := o.1 - w.dr + w.sr
  let c0 := o.2 - w.dc + w.sc
  let t := mxTile s m f r0 c0 (xField s d cx.step)
  let vr := min f.tile.1 (d.rows - o.1)
  let vc := min f.tile.2 (d.cols - o.2)
  let len := decide (vr < f.tile.1) || decide (vc < f.tile.2)
  let scale := fun k => t.scales.getD (mbIdx f m.axis (k / f.tile.2) (k % f.tile.2)) 0
  let nan := t.scales.contains 255 || t.codes.any (fun c => (codeVal f c).isNan)
  let zero := !nan && (t.codes.mapIdx (fun k c => decide (scale k = 0) || codeZero f c)).all id
  -- A source element that is not zero, of a block that rounded to zeros.
  let some_ := (List.range f.dense).any (fun k =>
    let r := r0 + k / f.tile.2
    let c := c0 + k % f.tile.2
    decide (r < m.rows) && decide (c < m.cols) && !codeZero m.f (mxCode s m.base m.f (r * m.cols + c)))
  ({ h := newHdr s cx d i t.x vr vc 0 (mkFlags zero nan false len false (zero && some_) false)
     payload := if zero then [] else pack f.ebits t.codes, scales := if zero then [] else t.scales.map (BitVec.ofNat 8)
     bad := false, sat := 0, nan := nan, inf := !nan && t.codes.any (fun c => (codeVal f c).isInf), flush := 0
     mblocks := if zero || nan then 0 else (t.scales.filter (fun c => decide (0 < c))).length }, t.inexact)

/-- Store formed blocks of a tensor and count them. -/
def storeForms (cx : Cx) (d : Desc) (bs : List (Nat × Formed)) (s : State) : State :=
  bs.foldl (fun t x => formCounts (storeBlk t cx d x.1 x.2.h x.2.payload x.2.scales) cx d x.1 x.2) s

/-- The exact value of element (r, c) of an MX tensor (R90). -/
def mxVal (s : State) (m : MxSrc) (r c : Nat) : EV :=
  let b := rdLE s (m.sb + mxBlk m.cols m.axis r c) 1
  if b = 255 then .nan
  else evMul (codeVal m.f (mxCode s m.base m.f (r * m.cols + c))) (evPow2 ((b : Int) - 127 + mxUnit m.f))

/-- What a group of values becomes in MX. -/
structure MxGrp where
  /-- The scale byte. -/
  scale : Nat
  codes : List Nat
  /-- For each element, whether its value changed. -/
  lost : List Bool
  /-- Elements that saturated. -/
  sat : Nat
  deriving DecidableEq, Repr

/-- Convert one group of values to MX (R92). The codes of a group that holds a NaN are open, as a function of its values
(log 43); a group that holds an infinity and no NaN takes the largest exponent (log 218). -/
def mxGroup (f : Fmt) (l : List EV) : MxGrp :=
  if l.any EV.isNan then
    { scale := 255, codes := (List.range l.length).map (fun t => Config.mxNanCode f.code (l.map f32Of) t % 2 ^ mxBits f)
      lost := l.map (fun _ => false), sat := 0 }
  else
    let e : Int :=
      if l.any EV.isInf then 127
      else match maxAbsFin l with
        | .fin _ m e => if m = 0 then -127 else max (-127) (min 127 (log2Ratio m 1 e - mxEmax f))
        | _ => -127
    let u := e + mxUnit f
    let cs := l.map (fun v => cvtScaled f .rne false 0 v 1 u)
    { scale := (e + 127).toNat, codes := cs.map (fun c => c.code)
      lost := (l.zip cs).map (fun p => !evEqv p.1 (evMul (codeVal f p.2.code) (evPow2 u)))
      sat := (cs.filter (fun c => c.cnt)).length }

/-- Elements of an MX scale block by its index. -/
def mxBlkElems (m : MxSrc) (j : Nat) : List (Nat × Nat) :=
  let w := if m.axis then m.cols else ceilDiv m.cols 32
  let a := j / max 1 w
  let b := j % max 1 w
  ((List.range 32).map (fun t => if m.axis then (a * 32 + t, b) else (a, b * 32 + t))).filter
    (fun p => decide (p.1 < m.rows) && decide (p.2 < m.cols))

/-- What a transfer to MX counts: micro-blocks of 16 in which a value changed, and saturations. -/
structure MxCnt where
  inexact : Nat
  sat : Nat
  deriving DecidableEq, Repr

/-- Write one MX scale block: its elements inside a window. -/
def writeMxBlk (m : MxSrc) (inw : Nat → Nat → Bool) (val : Nat → Nat → EV) (x : State × MxCnt) (j : Nat) : State × MxCnt :=
  let es := (mxBlkElems m j).filter (fun p => inw p.1 p.2)
  if es.isEmpty then x else
  let g := mxGroup m.f (es.map (fun p => val p.1 p.2))
  let s1 := (es.zip g.codes).foldl (fun t p => mxPut t m.base m.f (p.1.1 * m.cols + p.1.2) p.2) x.1
  let half := fun (p : Nat × Nat) => (if m.axis then p.1 else p.2) / 16 % 2
  let n := ((List.range 2).filter (fun h => (es.zip g.lost).any (fun p => decide (half p.1 = h) && p.2))).length
  (wrLE s1 (m.sb + j) 1 g.scale, { inexact := x.2.inexact + n, sat := x.2.sat + g.sat })

/-- Write a window of values to MX memory under a descriptor, and count what was lost and what saturated (R72, R92). -/
def writeMx (s : State) (cx : Cx) (d : Desc) (m : MxSrc) (inw : Nat → Nat → Bool) (val : Nat → Nat → EV) : State :=
  let x := (List.range (mxScaleBytes m.rows m.cols m.axis)).foldl (writeMxBlk m inw val) (s, { inexact := 0, sat := 0 })
  mxReport (deliverSat x.1 cx d 0 x.2.sat) cx x.2.inexact

/-! ## Fold records (R355, Table 12.3) -/

/-- The hash of a block: CRC-64/XZ over header bytes 0x00 to 0x13 and what lies behind a full header (R355). -/
def foldHash (r : RawBlk) : Nat :=
  crc64xz ((hdrBody r.h).take 0x14 ++ (if r.h.headOnly then [] else r.payload ++ (if r.h.scaling then r.scales else [])))

/-- Fold one more block. -/
def Fold.add (f : Fold) (r : RawBlk) : Fold :=
  let h := foldHash r
  { f with sum := (f.sum + h) % 2 ^ 64, xor := f.xor ^^^ h, sqr := (f.sqr + h * h) % 2 ^ 64,
           count := (f.count + 1) % 2 ^ 64, zcount := (f.zcount + b2n r.h.isZero) % 2 ^ 64,
           ncount := (f.ncount + b2n r.h.isNan) % 2 ^ 64 }

/-- Combine two folds. -/
def Fold.merge (a b : Fold) : Fold :=
  { sum := (a.sum + b.sum) % 2 ^ 64, xor := a.xor ^^^ b.xor, sqr := (a.sqr + b.sqr) % 2 ^ 64,
    count := (a.count + b.count) % 2 ^ 64, zcount := (a.zcount + b.zcount) % 2 ^ 64,
    ncount := (a.ncount + b.ncount) % 2 ^ 64, step := a.step }

/-- A record as its 64 bytes. -/
def Fold.bytes (f : Fold) : List Byte :=
  leBytes 8 f.sum ++ leBytes 8 f.xor ++ leBytes 8 f.sqr ++ leBytes 8 f.count ++ leBytes 8 f.zcount ++ leBytes 8 f.ncount
    ++ leBytes 4 f.step ++ List.replicate 12 0

/-- Read a record. -/
def parseFold (l : List Byte) : Fold :=
  { sum := leAt l 0 8, xor := leAt l 8 8, sqr := leAt l 16 8, count := leAt l 24 8, zcount := leAt l 32 8,
    ncount := leAt l 40 8, step := leAt l 48 4 }

end Sys2Proof.Machine
end

