-- ==== Sys2Proof/Machine/MmaEval.lean ====
section
/-! DEFINITION. The arithmetic of matrix products: the reference evaluation (R82–R88), the semiring modes (R107, R108),
zero skipping (R114) and the class A checks (R122–R125). -/
namespace Sys2Proof.Machine

/-- The operands of one matrix product as its evaluation sees them: element functions, zero beyond K, and the places whose
micro-scale is 0x00 or whose block is ZERO. -/
structure MmaIn where
  a : Nat → Nat → EV
  b : Nat → Nat → EV
  za : Nat → Nat → Bool
  zb : Nat → Nat → Bool
  m : Nat
  n : Nat
  k : Nat
  semi : Nat
  passes : Nat
  f32 : Bool
  rnd : Rnd
  ovf : Bool
  /-- INT32 accumulator of integer operands (R85). -/
  int : Bool

/-- The T19 parts of an FP32 value (R87). -/
def t19Hi (r : Rnd) (ovf : Bool) (x : EV) : EV := if x.isFin then codeVal .t19 (cvt .t19 r ovf x).code else x
def t19Lo (r : Rnd) (ovf : Bool) (x : EV) : EV :=
  if x.isFin then codeVal .t19 (cvt .t19 .rne false (evSub x (t19Hi r ovf x))).code else evZero

/-- A product of a low part: +0 when the low part is zero and the other factor is infinite or NaN (R87). -/
def lowMul (lo x : EV) : EV := if lo.isZero && !x.isFin then evZero else evMul lo x

/-- The product of a pass at K position k (R87, R88). -/
def MmaIn.prod (x : MmaIn) (p m n k : Nat) : EV :=
  let a := x.a m k
  let b := x.b k n
  if !x.f32 then evMul a b
  else if p = 0 then evMul (t19Hi x.rnd x.ovf a) (t19Hi x.rnd x.ovf b)
  else if p = 1 then lowMul (t19Lo x.rnd x.ovf a) (t19Hi x.rnd x.ovf b)
  else lowMul (t19Lo x.rnd x.ovf b) (t19Hi x.rnd x.ovf a)

/-- Positions of group g; K is padded to a multiple of 16 with zero elements (R82). -/
def groupKs (g : Nat) : List Nat := (List.range 16).map (16 * g + ·)

/-- Sum, minimum and maximum of exact values; NaN and opposite infinities give NaN (R108). -/
def evSum (l : List EV) : EV :=
  match l with
  | [] => evZero
  | v :: r => r.foldl evAdd v
def evMinL (l : List EV) : EV :=
  match l with
  | [] => evZero
  | v :: r => r.foldl (fun a b => if a.isNan || b.isNan then .nan else if evLt b a then b else a) v
def evMaxL (l : List EV) : EV :=
  match l with
  | [] => evZero
  | v :: r => r.foldl (fun a b => if a.isNan || b.isNan then .nan else if evLt a b then b else a) v

/-- The exact group value (R82, Table 4.3). -/
def MmaIn.group (x : MmaIn) (p g m n : Nat) : EV :=
  let ks := groupKs g
  match x.semi with
  | 0 => evSum (ks.map (x.prod p m n))
  | 1 => evSum (ks.map (fun k => evAbs (evSub (x.a m k) (x.b k n))))
  | 2 => evSum (ks.map (fun k => let d := evSub (x.a m k) (x.b k n); evMul d d))
  | 3 => evMinL (ks.map (fun k => evAdd (x.a m k) (x.b k n)))
  | 4 => evMaxL (ks.map (fun k => evAdd (x.a m k) (x.b k n)))
  | _ => .fin false (ks.filter (fun k => evEqv (x.a m k) (x.b k n))).length 0

/-- Round to FP32 with RNE; a finite value that overflows follows SATM (R84). The flag tells that it overflowed. -/
def roundAcc (ovf : Bool) (v : EV) : EV × Bool :=
  if v.isFin then
    let c := cvt .fp32 .rne ovf v
    (f32Val c.code, c.cnt)
  else (v, false)

/-- Flush a subnormal FP32 value to a zero of its sign (R83). The flag tells that it flushed. -/
def flushAcc (v : EV) : EV × Bool :=
  match v with
  | .fin neg m e => if m ≠ 0 ∧ (bitLen m : Int) + e ≤ -126 then (.fin neg 0 0, true) else (v, false)
  | v => (v, false)

/-- What one element's evaluation has come to: the accumulator, the groups whose value was flushed at the foot of their
segment, the flushes of the foot adder (R83, R97), its overflows and saturations (R72, R84, R85), and the groups at which an
INT32 accumulator saturated (R124). -/
structure MmaAcc where
  v : EV
  gflush : List Nat
  flush : Nat
  sat : Nat
  satAt : List Nat
  deriving DecidableEq, Repr

/-- An accumulator as it starts. -/
def MmaAcc.start (v : EV) : MmaAcc := { v := v, gflush := [], flush := 0, sat := 0, satAt := [] }

/-- Saturate to the INT32 accumulator's range (R85). -/
def satInt (v : EV) : EV × Bool :=
  match v with
  | .fin neg m e => if 2147483647 < shl m e then (.fin neg 2147483647 0, true) else (v, false)
  | v => (v, false)

/-- The accumulator of the operation is INT32 (R85, Table 4.3). -/
def MmaIn.isInt (x : MmaIn) : Bool := x.semi == 5 || (x.semi == 0 && x.int)

/-- Add the value of group g to the accumulator (R82–R85, Table 4.3). -/
def MmaIn.step (x : MmaIn) (acc : MmaAcc) (g : Nat) (v : EV) : MmaAcc :=
  if x.isInt then
    let t := satInt (evAdd acc.v v)
    { acc with v := t.1, sat := acc.sat + b2n t.2, satAt := if t.2 then g :: acc.satAt else acc.satAt }
  else
    let r := roundAcc x.ovf v
    let f := flushAcc r.1
    let acc1 := { acc with sat := acc.sat + b2n r.2, gflush := if f.2 then g :: acc.gflush else acc.gflush }
    if x.semi = 3 then { acc1 with v := evMinL [acc.v, f.1] }
    else if x.semi = 4 then { acc1 with v := evMaxL [acc.v, f.1] }
    else
      let r2 := roundAcc x.ovf (evAdd acc.v f.1)
      let f2 := flushAcc r2.1
      { acc1 with v := f2.1, flush := acc.flush + b2n f2.2, sat := acc1.sat + b2n r2.2 }

/-- Groups of K. -/
def MmaIn.groups (x : MmaIn) : Nat := ceilDiv x.k 16

/-! ## Shares of the members (R102, R103) -/

/-- A stationary tile of a member: its K positions and its columns. -/
structure MmaTile where
  k0 : Nat
  k1 : Nat
  n0 : Nat
  n1 : Nat
  deriving DecidableEq, Repr

/-- Tiles of member j: `tgt` 0–3 one member, 4 a gang in its mode; `kt` the dense K of a tile (Table 4.1). -/
def memTiles (tgt mode j kt k n : Nat) : List MmaTile :=
  if tgt < 4 then
    if j = tgt then (List.range (ceilDiv k kt)).map (fun t => ⟨t * kt, min k (t * kt + kt), 0, n⟩) else []
  else if mode = 1 then
    let n0 := 64 * (j % 2)
    if n ≤ n0 then []
    else (List.range (ceilDiv k (2 * kt))).filterMap (fun t =>
      let k0 := (2 * t + j / 2) * kt
      if k ≤ k0 then none else some ⟨k0, min k (k0 + kt), n0, min n (n0 + 64)⟩)
  else
    if n ≤ 64 * j then []
    else (List.range (ceilDiv k kt)).map (fun t => ⟨t * kt, min k (t * kt + kt), 64 * j, min n (64 * j + 64)⟩)

/-- The member that holds the accumulator of column n (R103). -/
def accMember (tgt mode n : Nat) : Nat := if tgt < 4 then tgt else if mode = 1 then 2 + n / 64 else n / 64

/-- Waves of at most 64 rows. -/
def wavesOf (m : Nat) : List (Nat × Nat) := (List.range (ceilDiv m 64)).map (fun w => (64 * w, min m (64 * w + 64)))

/-- Groups of a tile. -/
def tileGroups (t : MmaTile) : List Nat := (List.range (ceilDiv t.k1 16)).filter (fun g => decide (t.k0 / 16 ≤ g))

/-- Numbers from lo to hi − 1. -/
def span (lo hi : Nat) : List Nat := (List.range (hi - lo)).map (lo + ·)

/-- A skipped group of a wave (R114). -/
def MmaIn.skips (x : MmaIn) (t : MmaTile) (w : Nat × Nat) (g : Nat) : Bool :=
  let ks := (groupKs g).filter (fun k => decide (k < x.k))
  let ms := span w.1 w.2
  let ns := span t.n0 t.n1
  let zA := ms.all (fun m => ks.all (x.za m))
  let zB := ns.all (fun n => ks.all (fun k => x.zb k n))
  let finA := ms.all (fun m => ks.all (fun k => (x.a m k).isFin))
  let finB := ns.all (fun n => ks.all (fun k => (x.b k n).isFin))
  (zA && finB) || (zB && finA)

/-- Skipped group-waves of some tiles: multiply-add only. -/
def MmaIn.zskips (x : MmaIn) (ts : List MmaTile) : Nat :=
  if x.semi ≠ 0 then 0
  else x.passes * (ts.flatMap (fun t => (wavesOf x.m).flatMap (fun w => (tileGroups t).filter (x.skips t w)))).length

/-- The group of an element is skipped for its wave: the foot adds an exact +0 in its place (R114). -/
def MmaIn.skipAt (x : MmaIn) (ts : List MmaTile) (g m n : Nat) : Bool :=
  decide (x.semi = 0) && ts.any (fun t => decide (t.n0 ≤ n) && decide (n < t.n1) && (tileGroups t).contains g &&
    x.skips t (m / 64 * 64, min x.m (m / 64 * 64 + 64)) g)

/-- The group value that joins the accumulator. Only a sum of −0 differs from the +0 of a skipped group. -/
def MmaIn.groupAdd (x : MmaIn) (ts : List MmaTile) (p g m n : Nat) : EV :=
  match x.group p g m n with
  | .fin true 0 e => if x.skipAt ts g m n then evZero else .fin true 0 e
  | v => v

/-- The reference evaluation of one output element over the tiles of the members (R82, R88, R114). -/
def MmaIn.elem (x : MmaIn) (ts : List MmaTile) (c0 : EV) (m n : Nat) : MmaAcc :=
  (List.range x.passes).foldl (fun acc p =>
    (List.range x.groups).foldl (fun a g => x.step a g (x.groupAdd ts p g m n)) acc) (.start c0)

/-- Operand splits that overflow (R72, R87): those of A's row m, counted with column 0 of the output, and those of B's
column n, counted with its row 0. -/
def MmaIn.splitSat (x : MmaIn) (m n : Nat) : Nat :=
  if !x.f32 then 0
  else
    let big := fun (v : EV) => v.isFin && (cvt .t19 x.rnd x.ovf v).cnt
    (if n = 0 then ((List.range x.k).filter (fun k => big (x.a m k))).length else 0) +
      (if m = 0 then ((List.range x.k).filter (fun k => big (x.b k n))).length else 0)

/-! ## Class A checks (R122–R125) -/

/-- A pass's factors as the checks see them. -/
def MmaIn.pa (x : MmaIn) (p m k : Nat) : EV :=
  if !x.f32 then x.a m k else if p = 1 then t19Lo x.rnd x.ovf (x.a m k) else t19Hi x.rnd x.ovf (x.a m k)
def MmaIn.pb (x : MmaIn) (p k n : Nat) : EV :=
  if !x.f32 then x.b k n else if p = 2 then t19Lo x.rnd x.ovf (x.b k n) else t19Hi x.rnd x.ovf (x.b k n)

/-- Sum in order with one RNE rounding per add. -/
def rneSum (l : List EV) : EV :=
  match l with
  | [] => evZero
  | v :: r => r.foldl (fun a b => rne (evAdd a b)) (rne v)

/-- A sum as the lanes form it: exact under R85 (R124), else in FP32. -/
def MmaIn.laneSum (x : MmaIn) (l : List EV) : EV := if x.int then evSum l else rneSum l

/-- One rounding to FP32, but none under R85. -/
def MmaIn.laneRnd (x : MmaIn) (v : EV) : EV := if x.int then v else rne v

/-- A check of one pass, tile and wave (R122): the column check of row `i`, or the row check of column `i`. -/
structure MmaChk where
  p : Nat
  t : MmaTile
  w : Nat × Nat
  row : Bool
  i : Nat
  deriving DecidableEq, Repr

/-- Rows and columns of the output that a check covers. -/
def MmaChk.ms (c : MmaChk) : List Nat := if c.row then span c.w.1 c.w.2 else [c.i]
def MmaChk.ns (c : MmaChk) : List Nat := if c.row then [c.i] else span c.t.n0 c.t.n1

/-- The group values that a check covers, element by element: those of one element in ascending K. -/
def MmaIn.chkGroups (x : MmaIn) (c : MmaChk) : List (List (EV × Bool)) :=
  c.ms.flatMap (fun m => c.ns.map (fun n => (tileGroups c.t).map (fun g =>
    if x.int then (x.group c.p g m n, false) else roundAcc x.ovf (x.group c.p g m n))))

/-- The observed value O of a unit without a fault (R122). -/
def MmaIn.chkSeen (x : MmaIn) (c : MmaChk) : EV :=
  x.laneSum ((x.chkGroups c).map (fun gs => x.laneSum (gs.map (fun g => if x.int then g.1 else (flushAcc g.1).1))))

/-- The predicted value P (R122): products with w(k) or v(k), groups of 16 rounded once, added in ascending K. -/
def MmaIn.chkPred (x : MmaIn) (c : MmaChk) : EV :=
  let sum := fun (l : List EV) => x.laneRnd (evSum l)
  let f := fun (k : Nat) =>
    if c.row then evMul (sum (c.ms.map (fun m => x.pa c.p m k))) (x.pb c.p k c.i)
    else evMul (x.pa c.p c.i k) (sum (c.ns.map (fun n => x.pb c.p k n)))
  x.laneSum ((tileGroups c.t).map (fun g => x.laneRnd (evSum (((groupKs g).filter (fun k => decide (k < c.t.k1))).map f))))

/-- A magnitude rounded to FP32 toward +∞ (R123, log 220). -/
def upFp32 (v : EV) : EV :=
  let c := (cvt .fp32 .rtz true v).code
  if evLt (f32Val c) v then f32Val (c + 1) else f32Val c

/-- The magnitude bound S (R123). -/
def MmaIn.chkBound (x : MmaIn) (c : MmaChk) : EV :=
  upFp32 (evSum ((span c.t.k0 c.t.k1).map (fun k =>
    evMul (evSum (c.ms.map (fun m => evAbs (x.pa c.p m k)))) (evSum (c.ns.map (fun n => evAbs (x.pb c.p k n)))))))

/-- The check covers a product that a NaN short-circuits (R115, R125). -/
def MmaIn.chkNan (x : MmaIn) (c : MmaChk) : Bool :=
  (span c.t.k0 c.t.k1).any (fun k => c.ms.any (fun m => (x.a m k).isNan) || c.ns.any (fun n => (x.b k n).isNan))

/-- A check that sees O is skipped (R125). -/
def MmaIn.chkSkip (x : MmaIn) (c : MmaChk) (o : EV) : Bool :=
  x.chkNan c ||
    (!x.int && (!o.isFin || !(x.chkPred c).isFin || !(x.chkBound c).isFin || (x.chkGroups c).any (fun gs => gs.any (·.2))))

/-- A saturated accumulator takes the check's row or column out (R124). -/
def MmaIn.chkOut (x : MmaIn) (c : MmaChk) (satAt : Nat → Nat → List Nat) : Bool :=
  x.int && c.ms.any (fun m => c.ns.any (fun n => (satAt m n).any (fun g => (tileGroups c.t).contains g)))

/-- 100 τ for a tile of K `kt` (R123, Table 4.8: G groups, c = 4G + 64); 0 for integers. -/
def MmaIn.tau100 (x : MmaIn) (kt : Nat) (c : MmaChk) : EV :=
  if x.int then evZero
  else
    let k := 4 * (kt / 16) + 64
    evAdd (evMul (.fin false (101 * k) (-24)) (x.chkBound c)) (.fin false (100 * k) (-120))

/-- |O − P|. -/
def MmaIn.chkDiff (x : MmaIn) (c : MmaChk) (o : EV) : EV := evAbs (evSub o (x.chkPred c))

/-- A check that sees O fails (R123, R124). -/
def MmaIn.chkFails (x : MmaIn) (kt : Nat) (c : MmaChk) (o : EV) : Bool :=
  !x.chkSkip c o && evLt (x.tau100 kt c) (evMul (.fin false 100 0) (x.chkDiff c o))

/-- The checks of some tiles (R122), those that saturation takes out left out. -/
def MmaIn.chkList (x : MmaIn) (ts : List MmaTile) (satAt : Nat → Nat → List Nat) : List MmaChk :=
  if x.semi ≠ 0 then []
  else ((List.range x.passes).flatMap (fun p => ts.flatMap (fun t => (wavesOf x.m).flatMap (fun w =>
    (span w.1 w.2).map (fun m => ⟨p, t, w, false, m⟩) ++ (span t.n0 t.n1).map (fun n => ⟨p, t, w, true, n⟩))))).filter
      (fun c => !x.chkOut c satAt)

/-- Checks performed and skipped over some tiles. -/
def MmaIn.checks (x : MmaIn) (ts : List MmaTile) (satAt : Nat → Nat → List Nat) : Nat × Nat :=
  let sk := (x.chkList ts satAt).map (fun c => x.chkSkip c (x.chkSeen c))
  ((sk.filter (!·)).length, (sk.filter id).length)

end Sys2Proof.Machine
end

