-- ==== Sys2Proof/Machine/Move.lean ====
section
/-! DEFINITION. MOVE instructions: scalars, predicates, loads and stores, descriptors and tags (Tables 7.4, R194,
R211, R212). -/
namespace Sys2Proof.Machine

/-- LI: sD = sext(IMM) (Table 7.4). -/
def execLi (q : Fin 256) (w : PtiWord) (s : State) : Host.Outcome State Fault Refusal :=
  run [.clu q] (ptiSelf .li q w (selfSet q w (fun x => putS x w.opd.toNat (sext48 w.imm.toNat)))) s

/-- LIH: sD[63:48] = IMM[15:0] (Table 7.4). -/
def lihVal (v : DWord) (imm : BitVec 48) : DWord := imm.extractLsb' 0 16 ++ v.extractLsb' 0 48

/-- LIH (Table 7.4). -/
def execLih (q : Fin 256) (w : PtiWord) (s : State) : Host.Outcome State Fault Refusal :=
  run [.clu q] (ptiSelf .lih q w (selfSet q w (fun x => putS x w.opd.toNat (lihVal (sreg x w.opd.toNat) w.imm)))) s

/-- MOV: sD = sA (Table 7.4). -/
def execMov (q : Fin 256) (w : PtiWord) (s : State) : Host.Outcome State Fault Refusal :=
  run [.clu q] (ptiSelf .mov q w (selfSet q w (fun x => putS x w.opd.toNat (sreg x w.opa.toNat)))) s

/-- A two-source scalar operation: sD = f sA (sB or imm) (R203, Table 7.4). -/
def scal2 (f : DWord → DWord → DWord) (q : Nat) (w : PtiWord) : State → State :=
  selfSet q w (fun x => putS x w.opd.toNat (f (sreg x w.opa.toNat) (lastSrc x w.opb w)))

/-- The shift count sB[5:0] (Table 7.4). -/
def shCount (b : DWord) : Nat := b.toNat % 64

/-- ADD (Table 7.4, R11). -/
def execAdd (q : Fin 256) (w : PtiWord) (s : State) : Host.Outcome State Fault Refusal :=
  run [.clu q] (ptiSelf .add q w (scal2 (· + ·) q w)) s

/-- SUB (Table 7.4, R11). -/
def execSub (q : Fin 256) (w : PtiWord) (s : State) : Host.Outcome State Fault Refusal :=
  run [.clu q] (ptiSelf .sub q w (scal2 (· - ·) q w)) s

/-- MUL keeps the low 64 bits (Table 7.4). -/
def execMul (q : Fin 256) (w : PtiWord) (s : State) : Host.Outcome State Fault Refusal :=
  run [.clu q] (ptiSelf .mul q w (scal2 (· * ·) q w)) s

/-- AND (Table 7.4). -/
def execAndI (q : Fin 256) (w : PtiWord) (s : State) : Host.Outcome State Fault Refusal :=
  run [.clu q] (ptiSelf .andI q w (scal2 (· &&& ·) q w)) s

/-- OR (Table 7.4). -/
def execOrI (q : Fin 256) (w : PtiWord) (s : State) : Host.Outcome State Fault Refusal :=
  run [.clu q] (ptiSelf .orI q w (scal2 (· ||| ·) q w)) s

/-- XOR (Table 7.4). -/
def execXorI (q : Fin 256) (w : PtiWord) (s : State) : Host.Outcome State Fault Refusal :=
  run [.clu q] (ptiSelf .xorI q w (scal2 (· ^^^ ·) q w)) s

/-- SHL by sB[5:0] (Table 7.4). -/
def execShl (q : Fin 256) (w : PtiWord) (s : State) : Host.Outcome State Fault Refusal :=
  run [.clu q] (ptiSelf .shl q w (scal2 (fun a b => a <<< shCount b) q w)) s

/-- SHR by sB[5:0], logical (Table 7.4). -/
def execShr (q : Fin 256) (w : PtiWord) (s : State) : Host.Outcome State Fault Refusal :=
  run [.clu q] (ptiSelf .shr q w (scal2 (fun a b => a >>> shCount b) q w)) s

/-- SAR by sB[5:0], arithmetic (Table 7.4). -/
def execSar (q : Fin 256) (w : PtiWord) (s : State) : Host.Outcome State Fault Refusal :=
  run [.clu q] (ptiSelf .sar q w (scal2 (fun a b => a.sshiftRight (shCount b)) q w)) s

/-- The comparison of CMP: 0 eq, 1 ne, 2 lt, 3 ge, 4 ltu, 5 geu (Table 7.4). -/
def cmpVal (cc : Nat) (a b : DWord) : Bool :=
  match cc with
  | 0 => a == b
  | 1 => a != b
  | 2 => BitVec.slt a b
  | 3 => !BitVec.slt a b
  | 4 => BitVec.ult a b
  | _ => !BitVec.ult a b

/-- CMP writes pD (Table 7.4). -/
def execCmp (q : Fin 256) (w : PtiWord) (s : State) : Host.Outcome State Fault Refusal :=
  run [.clu q] (ptiSelf .cmp q w (selfSet q w (fun x =>
    putP x w.opd.toNat (cmpVal (w.mod.toNat / 2 % 8) (sreg x w.opa.toNat) (lastSrc x w.opb w))))) s

/-- The operation of PLOG: 0 and, 1 or, 2 xor, 3 andn (Table 7.4). -/
def plogVal (op : Nat) (a b : Bool) : Bool :=
  match op with
  | 0 => a && b
  | 1 => a || b
  | 2 => a != b
  | _ => a && !b

/-- PLOG: pD = pA op pB; reading a timed-out predicate sets NDET (R213). -/
def opPlog (q : Nat) (w : PtiWord) (s : State) : State :=
  selfSet q w (fun x => putP x w.opd.toNat
    (plogVal (w.mod.toNat / 2 % 4) (preg x w.opa.toNat) (preg x w.opb.toNat)))
    (readP (readP s q w.opa.toNat) q w.opb.toNat)

/-- PLOG (Table 7.4). -/
def execPlog (q : Fin 256) (w : PtiWord) (s : State) : Host.Outcome State Fault Refusal :=
  run [.clu q] (ptiSelf .plog q w (opPlog q w)) s

/-- Who a sequencer's access to memory is: its WHERE, its STEP, its die, its region cache. -/
def seqCx (s : State) (q : Nat) : Cx := { wh := whClu q, step := (seqAt s q).step, die := q / 64, rg := some (q / 16) }

/-- The checks of a sequencer access of `n` bytes: alignment (R211), then the address. -/
def seqAccChk (s : State) (a n : Nat) (wr : Bool) : Option AccErr :=
  if a % n ≠ 0 then some .align else accChk s a wr

/-- A sequencer access that does not take place: its event and status (R207, R211). -/
def seqAccFail (op : PtiOp) (q : Nat) (w : PtiWord) (e : AccErr) (s : State) : State :=
  selfFail op q w e.status (raiseAcc s e (whClu q) (seqAt s q).step)

/-- LDS: sD = 8 bytes at sA + sext(IMM) (R211); a poisoned sector gives status ADDR and EVT_MEM_POISON (R275). -/
def opLds (q : Nat) (w : PtiWord) (s : State) : State :=
  let a := addSext48 (sreg (seqAt s q) w.opa.toNat) w.imm.toNat
  match seqAccChk s a 8 false with
  | some e => seqAccFail .lds q w e s
  | none =>
    if poisoned s (xlatPage s a) 8 then
      selfFail .lds q w 0x11 (poisonRead s (xlatPage s a) (whClu q) (seqAt s q).step)
    else
      selfSet q w (fun x => putS x w.opd.toNat (BitVec.ofNat 64 (rdLE s a 8)))
        (traffic s (some (q / 16)) 0 (xlatPage s a) 8 false)

/-- LDS (R211). -/
def execLds (q : Fin 256) (w : PtiWord) (s : State) : Host.Outcome State Fault Refusal :=
  run [.clu q] (ptiSelf .lds q w (opLds q w)) s

/-- STS: 8 bytes at sA + sext(IMM) = sB (R211). -/
def opSts (q : Nat) (w : PtiWord) (s : State) : State :=
  let x := seqAt s q
  let a := addSext48 (sreg x w.opa.toNat) w.imm.toNat
  match seqAccChk s a 8 true with
  | some e => seqAccFail .sts q w e s
  | none =>
    selfDone (wrLE (traffic s (some (q / 16)) 0 (xlatPage s a) 8 true) a 8 (sreg x w.opb.toNat).toNat) q w

/-- STS (R211). -/
def execSts (q : Fin 256) (w : PtiWord) (s : State) : Host.Outcome State Fault Refusal :=
  run [.clu q] (ptiSelf .sts q w (opSts q w)) s

/-- DLD: a descriptor register is loaded with the fields and the address of a descriptor (R180, R211). -/
def opDld (q : Nat) (w : PtiWord) (s : State) : State :=
  let a := addSext48 (sreg (seqAt s q) w.opa.toNat) w.imm.toNat
  match seqAccChk s a 64 false with
  | some e => seqAccFail .dld q w e s
  | none =>
    if poisoned s (xlatPage s a) 64 then
      selfFail .dld q w 0x11 (poisonRead s (xlatPage s a) (whClu q) (seqAt s q).step)
    else
      selfSet q w (fun x => putD x w.opd.toNat (some (parseDesc a (rdBytes s a 64))))
        (traffic s (some (q / 16)) 0 (xlatPage s a) 64 false)

/-- DLD (R180). -/
def execDld (q : Fin 256) (w : PtiWord) (s : State) : Host.Outcome State Fault Refusal :=
  run [.clu q] (ptiSelf .dld q w (opDld q w)) s

/-- Read the header of block i for TAGP: its flags, or a status (R194). -/
def tagHdr (s : State) (cx : Cx) (d : Desc) (i : Nat) : State × Nat × Nat :=
  match blkChk s d i false with
  | some e => (raiseAcc s e cx.wh cx.step, e.status, 0)
  | none =>
    let p := hdrAddr s (xlatPage s (blkAddr d i))
    let h := parseHdr (memBytes s p 32)
    let s1 := traffic s cx.rg d.hint p 32 false
    if poisoned s p 32 then (crcUncured (crcFail (poisonRead s1 p cx.wh cx.step) cx) cx, 0x03, 0)
    else if h.headOnly then
      (if h.crc = crc32c (hdrBody h) then (cnt64 s1 .chk rChkBlocksLo 1, 0, h.flags)
        else (crcUncured (crcFail (cnt64 s1 .chk rChkBlocksLo 1) cx) cx, 0x03, 0))
    else (s1, 0, h.flags)

/-- Headers in order, stopping at the first status. -/
def tagHdrs (cx : Cx) (d : Desc) : List Nat → State → List Nat → State × Nat × List Nat
  | [], s, acc => (s, 0, acc)
  | i :: r, s, acc =>
    match tagHdr s cx d i with
    | (s', 0, f) => tagHdrs cx d r s' (f :: acc)
    | (s', st, _) => (s', st, [])

/-- TAGP: pD from the FLAGS of blocks sB to sB + n − 1 against a mask, .any or .all (R194, R212). -/
def opTagp (q : Nat) (w : PtiWord) (s : State) : State :=
  let x := seqAt s q
  let n := w.imm.toNat % 128
  let mask := w.imm.toNat / 65536 % 65536
  let first := (sreg x w.opb.toNat).toNat
  match dreg x w.opa.toNat with
  | none => selfFail .tagp q w 0x01 s
  | some d =>
    if n = 0 ∨ 64 < n ∨ nBlocks d < first + n then selfFail .tagp q w 0x08 s
    else
      match tagHdrs (seqCx s q) d ((List.range n).map (first + ·)) s [] with
      | (s', 0, fl) =>
        selfSet q w (fun x => putP x w.opd.toNat
          (if w.mod.getLsbD 1 then fl.all (fun f => decide (f &&& mask ≠ 0)) else fl.any (fun f => decide (f &&& mask ≠ 0)))) s'
      | (s', st, _) => selfFail .tagp q w st s'

/-- TAGP (R194). -/
def execTagp (q : Fin 256) (w : PtiWord) (s : State) : Host.Outcome State Fault Refusal :=
  run [.clu q] (ptiSelf .tagp q w (opTagp q w)) s

end Sys2Proof.Machine
end

