-- ==== Sys2Proof/Machine/RegView.lean ====
section
/-! DEFINITION. What a register reads as: the stored word, or the piece of state a status register shows. -/
namespace Sys2Proof.Machine

/-- Low word of a number. -/
def w32 (v : Nat) : Word := BitVec.ofNat 32 v

/-- The sequencers of a die that wait (SYNC_WAITERS, Table 18.10). -/
def waiters (s : State) (die : Nat) : Nat :=
  ((List.range 64).filter (fun c => decide ((seqAt s (64 * die + c)).st = .syncWait))).length

/-- Status registers of the BCN and SYNC blocks and of a sequencer that show other state. -/
def viewDie (s : State) (b : Blk) (o : Nat) : Option Word :=
  match b with
  | .bcn _ =>
    if o = rBcnNowLo then some (w32 s.beacon) else if o = rBcnNowHi then some (w32 (s.beacon / 4294967296)) else none
  | .sync d =>
    if o < 0x10000 then (if o % 16 = 0 then some (objVal s d (o / 16)) else none)
    else if o = rSyncWaiters then some (w32 (waiters s d)) else none
  | .clu q =>
    if o = rCluSeqStatus then some (w32 (putBits (regAt s b o).toNat 2 0 (seqAt s q).st.code)) else none
  | _ => none

/-- State of the oldest (k = 0) or the younger (k = 1) unsealed step (HUB_STEP_STATUS). -/
def stepStCode (s : State) (k : Nat) : Nat := ((s.steps[k]?).map (fun r => r.st.code)).getD 0

/-- The part number in ASCII, zero-padded to 16 bytes (R2, Table 0.1): CLV-Z9M-A6 or CLV-Z9M-A3. -/
def partName (s : State) : List Byte :=
  padTo 16 [0x43, 0x4C, 0x56, 0x2D, 0x5A, 0x39, 0x4D, 0x2D, 0x41, if s.partA6 then 0x36 else 0x33]

/-- Status registers of the hub blocks that show other state. -/
def viewHub (s : State) (b : Blk) (o : Nat) : Option Word :=
  match b with
  | .hub =>
    if o = rHubId then
      some (w32 (npkg s * 2 ^ 20 + s.dies.toNat * 2 ^ 16 + (regAt s b o).toNat % 2 ^ 16 + (regAt s b o).toNat / 2 ^ 26 * 2 ^ 26))
    else if rHubPart ≤ o ∧ o < rHubPart + 16 then some (w32 (leAt (partName s) (o - rHubPart) 4))
    else if o = rHubStepStatus then
      some (w32 (putBits (putBits (regAt s b o).toNat 7 4 (stepStCode s 1)) 3 0 (stepStCode s 0)))
    else none
  | .evt =>
    if o = rEvtHostEseq then some (w32 s.evt.host.eseq)
    else if o = rEvtMgmtEseq then some (w32 s.evt.mgmt.eseq)
    else if o = rEvtFill then
      some (w32 (putBits (putBits (regAt s b o).toNat 28 16 s.evt.mgmt.recs.length) 12 0 s.evt.host.recs.length))
    else if o = rEvtHostLost then some (w32 s.evt.host.lost)
    else if o = rEvtMgmtLost then some (w32 s.evt.mgmt.lost)
    else if o = rEvtCntSat then some (w32 (putBits (regAt s b o).toNat 1 0 (b2n s.evt.host.sat + 2 * b2n s.evt.mgmt.sat)))
    else if o = rEvtLast then some (w32 (putBits (regAt s b o).toNat 15 0 s.evt.last))
    else if o = rEvtRaisedLo then some (w32 s.evt.raised)
    else if o = rEvtRaisedHi then some (w32 (s.evt.raised / 4294967296))
    else none
  | _ => none

/-- The word a register reads as, before its RC fields clear. -/
def regView (s : State) (b : Blk) (o : Nat) : Word :=
  match viewDie s b o with
  | some w => w
  | none => (viewHub s b o).getD (regAt s b o)

/-- The offset names the LO word of a 64-bit counter (R140). -/
def isCtrLo (b : Blk) (o : Nat) : Bool := b.counters64.contains o

/-- The high word of the 64-bit counter whose LO word lies at an offset. -/
def ctrHi (s : State) (b : Blk) (o : Nat) : Word := regView s b (o + 4)

/-- The latch key of a sequencer's path (R482). -/
def seqPath (q : Nat) : Nat := 1000 + q

/-- The HI latch of a path. -/
def latchAt (s : State) (p : Nat) : Option (Nat × Word) := smGet (fun _ => none) s.latches p

/-- A LO read loads the counter's high word and identity into the path's latch (R140). -/
def setLatch (s : State) (p : Nat) (b : Blk) (o : Nat) : State :=
  { s with latches := smPut (fun _ => none) s.latches p (some (b.base + o, ctrHi s b o)) }

/-- A HI read returns the latched word when the latch holds the same counter, else the live one (R140). -/
def readHi (s : State) (p : Nat) (b : Blk) (lo : Nat) : Word :=
  match latchAt s p with
  | some (k, w) => if k = b.base + lo then w else ctrHi s b lo
  | none => ctrHi s b lo

end Sys2Proof.Machine
end

