-- ==== Sys2Proof/Machine/Sync.lean ====
section
/-! DEFINITION. SYNC instructions, the end of a wait, and signals held behind earlier transfers of their stream
(Tables 7.5, 7.6, R17, R182–R187, R213, R214). -/
namespace Sys2Proof.Machine

/-- Fields of the SYNC immediate (Table 7.5). -/
def syObj (w : PtiWord) : Nat := bits w.imm.toNat 11 0
def syXd (w : PtiWord) : Bool := w.imm.getLsbD 12
def syDie (w : PtiWord) : Nat := bits w.imm.toNat 14 13
def syRem (w : PtiWord) : Bool := w.imm.getLsbD 15
def syLc (w : PtiWord) : Nat := bits w.imm.toNat 33 16
def syN (w : PtiWord) : Nat := bits w.imm.toNat 47 34
def syTarget (w : PtiWord) : Nat := bits w.imm.toNat 43 12

/-- The die an instruction of sequencer q names. -/
def syDieOf (q : Nat) (w : PtiWord) : Nat := if syXd w then syDie w else q / 64

/-- The instruction names another die or module. -/
def syAway (q : Nat) (w : PtiWord) : Bool := syRem w || decide (syDieOf q w ≠ q / 64)

/-- n bytes at a device address meet the fast-tier or the SRAM window of a die (Table 1.6). -/
def rangeOnDie (a n die : Nat) : Bool :=
  let hit := fun (b w : Nat) => decide (a < b + w) && decide (b < a + n)
  hit (die * 0xA000000000) 0xA000000000 || hit (0xE00000000000 + die * 0x100000000) 0x100000000

/-- A tensor has blocks or micro-scales on a die; `ms` is what its micro-scales take. -/
def descOnDie (d : Desc) (ms die : Nat) : Bool :=
  rangeOnDie d.base (2048 * nBlocks d) die || rangeOnDie d.sb ms die

/-- Where an XFER.COLL writes: the destination of its running collective, or what its descriptor names so far. -/
def collDest (s : State) (o : EngOp) : Desc :=
  match s.colls.find? (fun c => decide (c.no = o.no)) with
  | some c => c.dd
  | none => let a := rdLE s (o.sa.toNat + 0x10) 8; parseDesc a (rdBytes s a 64)

/-- Where an XFER or ROUTE instruction writes or reads in its stream: the module at a logical coordinate, or a die of this
module. -/
def opTargets (s : State) (o : EngOp) (rem : Option Nat) (die : Nat) : Bool :=
  match o.op, rem with
  | .xferCopy, some lc => o.w.imm.getLsbD 24 && decide (lc = bits o.w.imm.toNat 42 25)
  | .xferCopy, none => !o.w.imm.getLsbD 24 &&
      -- OCP MX output lays a scale byte per 32 elements at SB (R90).
      (o.dd.map (fun d => descOnDie d (max (descMs d * nBlocks d) (if o.w.imm.getLsbD 46 then d.rows * d.cols else 0)) die)).getD false
  | .xferMcast, none => o.w.imm.getLsbD die
  | .xferZero, none => (o.dd.map (fun d => descOnDie d (descMs d * nBlocks d) die)).getD false
  | .xferColl, none => descOnDie (collDest s o) (descMs (collDest s o) * nBlocks (collDest s o)) die
  | .dispatch, _ => true
  | .combine, some _ => true
  | .combine, none => (o.dd.map (fun d => descOnDie d (descMs d * nBlocks d) die)).getD false
  | _, _ => false

/-- An earlier transfer of the signal's sequencer to the same place is not far enough: not complete for another die,
not all sent for another module (R17, R186). -/
def sigBlocked (s : State) (g : HeldSig) : Bool :=
  s.ops.any (fun o => decide (o.q = g.q) && decide (o.no < g.no) && opTargets s o g.rem g.die &&
    (if g.rem.isSome then decide (o.phase = .queued) || s.agl.wait.any (fun x => x.tx && x.owner == .op o.no) else true))

/-- A signal takes effect at its object, or leaves as a SYNC frame (R186, R529). -/
def deliverSig (s : State) (g : HeldSig) : State :=
  match g.rem with
  | none => if g.isSet then (if dieIn s g.die then objPut s g.die g.obj g.val else s) else objSignal s g.die g.obj g.val.toNat
  | some lc =>
    emit s (mkFrame s tySync lc g.die false (g.q / 64) false g.step s.epoch g.obj
      (leBytes 1 (b2n g.isSet) ++ [0, 0, 0] ++ leBytes 4 g.val.toNat)) (.sync g.q g.pc g.step) 0

/-- Two signals of one sequencer to one place. -/
def sameStream (a b : HeldSig) : Bool := decide (a.q = b.q) && decide (a.rem = b.rem) && decide (a.die = b.die)

/-- Deliver in order every held signal that nothing holds back any more. -/
def releaseGo : List HeldSig → List HeldSig → State → State
  | [], kept, s => { s with sigs := kept.reverse }
  | g :: r, kept, s =>
    if sigBlocked s g || kept.any (sameStream g) then releaseGo r (g :: kept) s
    else releaseGo r kept (deliverSig s g)

/-- Deliver what has become free. -/
def releaseSigs (s : State) : State := releaseGo s.sigs [] s

/-- Send a signal behind the earlier transfers of its stream (R17, R214). -/
def sendSig (s : State) (g : HeldSig) : State :=
  releaseSigs { s with sigs := s.sigs ++ [g], opNo := s.opNo + 1 }

/-- A signal to an object of the issuing die at once, to another die or module in its stream. -/
def sySend (q : Nat) (w : PtiWord) (isSet : Bool) (v : Word) (s : State) : State :=
  let die := syDieOf q w
  if !syRem w && decide (die = q / 64) then
    if isSet then objPut s die (syObj w) v else objAdd s die (syObj w) v.toNat
  else
    sendSig s { q := q, no := s.opNo, rem := if syRem w then some (syLc w) else none, die := die, obj := syObj w,
                isSet := isSet, val := v, step := (seqAt s q).step, pc := (seqAt s q).pc }

/-- A SYNC.ADD or SYNC.SET of a system object is refused and counted at the issuing die (R187, R213). -/
def syReserved (op : PtiOp) (q : Nat) (w : PtiWord) (s : State) : State :=
  selfFail op q w 0x08 (cnt s (.sync (q / 64)) rSyncRsvdWrite)

/-- A signal whose checks have passed: to a module without a VALID entry it is refused with ADDR (R328), to an absent
die with DIE_ABSENT (R30). -/
def syGo (op : PtiOp) (q : Nat) (w : PtiWord) (isSet : Bool) (v : Word) (s : State) : State :=
  if syRem w && !canSend s (syLc w) then
    selfFail op q w 0x11 (xlatInvalid s (syLc w) (whClu q) (seqAt s q).step)
  else if !syRem w && !dieIn s (syDieOf q w) then selfFail op q w 0x0B s
  else seqNext (sySend q w isSet v s) q

/-- SYNC.ADD (R213). -/
def opSyncAdd (q : Nat) (w : PtiWord) (s : State) : State :=
  let n := if wImmf w then syN w else (sreg (seqAt s q) w.opa.toNat).toNat % 2147483648
  if isSysObj (syObj w) then syReserved .syncAdd q w s
  else if n = 0 then selfFail .syncAdd q w 0x08 (cnt s (.sync (q / 64)) rSyncBadOp)
  else syGo .syncAdd q w false (w32 n) s

/-- SYNC.ADD adds to an object of this die, another die or another module (R213). -/
def execSyncAdd (q : Fin 256) (w : PtiWord) (s : State) : Host.Outcome State Fault Refusal :=
  run [.clu q] (ptiSelf .syncAdd q w (opSyncAdd q w)) s

/-- SYNC.SET (R213). -/
def opSyncSet (q : Nat) (w : PtiWord) (s : State) : State :=
  if isSysObj (syObj w) then syReserved .syncSet q w s
  else if syRem w then selfFail .syncSet q w 0x10 s
  else syGo .syncSet q w true (w32 (sreg (seqAt s q) w.opa.toNat).toNat) s

/-- SYNC.SET sets an object of this module (R213). -/
def execSyncSet (q : Fin 256) (w : PtiWord) (s : State) : Host.Outcome State Fault Refusal :=
  run [.clu q] (ptiSelf .syncSet q w (opSyncSet q w)) s

/-- A wait that its object has reached writes 1 and goes on (R184). -/
def waitDone (q pd : Nat) (s : State) : State :=
  seqNext (setSeq s q { putP (seqAt s q) pd true with wait := none }) q

/-- WAIT and WAIT.to: the outcome at once, or a stall (R182–R184). -/
def waitGo (q : Nat) (w : PtiWord) (timed : Bool) (tmo : Nat) (s : State) : State :=
  let x := seqAt s q
  let t := if wImmf w then w32 (syTarget w) else w32 (sreg x w.opa.toNat).toNat
  if reached (objVal s (q / 64) (syObj w)) t then waitDone q w.opd.toNat s
  else setSeq s q { x with
    st := .syncWait
    wait := some { obj := syObj w, target := t, pd := w.opd.toNat, timed := timed,
                   deadline := if timed && decide (tmo ≠ 0) then some (s.beacon + tmo) else none } }

/-- WAIT: another die or module gives REMOTE (R213). -/
def opWait (q : Nat) (w : PtiWord) (s : State) : State :=
  if !wImmf w && syAway q w then selfFail .wait q w 0x10 s else waitGo q w false 0 s

/-- WAIT (R182). -/
def execWait (q : Fin 256) (w : PtiWord) (s : State) : Host.Outcome State Fault Refusal :=
  run [.clu q] (ptiSelf .wait q w (opWait q w)) s

/-- WAIT.to: a timeout above 2^34 bt gives LIMIT (R213). -/
def opWaitTo (q : Nat) (w : PtiWord) (s : State) : State :=
  let tmo := (sreg (seqAt s q) w.opb.toNat).toNat
  if !wImmf w && syAway q w then selfFail .waitTo q w 0x10 s
  else if 2 ^ 34 < tmo then selfFail .waitTo q w 0x08 s
  else waitGo q w true tmo s

/-- WAIT.to (R184). -/
def execWaitTo (q : Fin 256) (w : PtiWord) (s : State) : Host.Outcome State Fault Refusal :=
  run [.clu q] (ptiSelf .waitTo q w (opWaitTo q w)) s

/-- WAIT_REACHED: a stalled wait resumes once its object has reached the target (R183, R184). -/
def opWaitReached (q : Nat) (s : State) : State :=
  let x := seqAt s q
  match x.wait with
  | some i => if x.st = .syncWait ∧ dieIn s (q / 64) ∧ reached (objVal s (q / 64) i.obj) i.target then waitDone q i.pd s else s
  | none => s

/-- WAIT_REACHED (R183). -/
def execWaitReached (q : Fin 256) (s : State) : Host.Outcome State Fault Refusal :=
  run [.clu q] (opWaitReached q) s

/-- A WAIT.to times out: 0 to its predicate, EVT_SYNC_TIMEOUT, and on (R184); the predicate is remembered (R213). -/
def waitExpire (q : Nat) (i : WaitInfo) (s : State) : State :=
  let x := seqAt s q
  let x1 := { putP x i.pd false with wait := none }
  let x2 := if i.pd = 0 then x1 else { x1 with toPred := BitVec.ofNat 8 (setBit x1.toPred.toNat i.pd) }
  seqNext (raise (setSeq s q x2) .syncTimeout (whClu q) x.step
    [a32 i.obj, a32 i.target.toNat, a32 (objVal s (q / 64) i.obj).toNat, a64 x.pc]) q

/-- SYNC_TIMEOUT: the timeout of a stalled WAIT.to expires (R184). -/
def opSyncTimeout (q : Nat) (s : State) : State :=
  let x := seqAt s q
  match x.wait with
  | some i =>
    match i.deadline with
    | some d =>
      if x.st = .syncWait ∧ dieIn s (q / 64) ∧ d ≤ s.beacon ∧ !reached (objVal s (q / 64) i.obj) i.target then waitExpire q i s else s
    | none => s
  | none => s

/-- SYNC_TIMEOUT (R184). -/
def execSyncTimeout (q : Fin 256) (s : State) : Host.Outcome State Fault Refusal :=
  run [.clu q] (opSyncTimeout q) s

/-- SYNC.RD: sD = the value of an object of this die; sets NDET under DET = 1 (R213). -/
def opSyncRd (q : Nat) (w : PtiWord) (s : State) : State :=
  if syAway q w then selfFail .syncRd q w 0x10 s
  else
    let v := (objVal s (q / 64) (syObj w)).toNat
    let s1 := setNdet s q
    seqNext (setSeq s1 q (putS (seqAt s1 q) w.opd.toNat (BitVec.ofNat 64 v))) q

/-- SYNC.RD (R213). -/
def execSyncRd (q : Fin 256) (w : PtiWord) (s : State) : Host.Outcome State Fault Refusal :=
  run [.clu q] (ptiSelf .syncRd q w (opSyncRd q w)) s

end Sys2Proof.Machine
end

