-- ==== Sys2Proof/Machine/Engine.lean ====
section
/-! DEFINITION. Engine queues: issue, the choice of the next instruction, completion (R171–R173, R175, R205, R207). -/
namespace Sys2Proof.Machine

/-- Queue depth per sequencer of an engine (Table 6.1). -/
def engDepth : Eng → Nat
  | .mma _ _ => 4
  | .vec _ => 8
  | .dma _ _ => 4
  | .route _ => 2
  | .upd _ _ => 2

/-- Instructions of a sequencer in an engine's queue, in issue order. -/
def engQueue (s : State) (e : Eng) (q : Nat) : List EngOp := s.ops.filter (fun o => o.eng == e && o.q == q)

/-- A descriptor operand as the engine receives it (R205). -/
def opDesc (x : Seq) (k : OpKind) (f : BitVec 5) : Option Desc := if k = .desc then dreg x f.toNat else none

/-- The instruction as handed to its engine (R205). -/
def mkOp (s : State) (q : Nat) (e : Eng) (op : PtiOp) (w : PtiWord) : EngOp :=
  let x := seqAt s q
  let k := ptiKinds op
  { no := s.opNo, q := q, eng := e, op := op, w := w, step := x.step, pc := x.pc, dd := opDesc x k.1 w.opd,
    da := opDesc x k.2.1 w.opa, db := opDesc x k.2.2.1 w.opb, dc := opDesc x k.2.2.2 w.opc,
    sa := sreg x w.opa.toNat, sb := sreg x w.opb.toNat, sc := sreg x w.opc.toNat, phase := .queued, status := 0, fin := 0 }

/-- A descriptor operand of the instruction is invalid (R176). -/
def opDescBad (o : EngOp) : Bool :=
  let k := ptiKinds o.op
  (decide (k.1 = .desc) && o.dd.isNone) || (decide (k.2.1 = .desc) && o.da.isNone)
    || (decide (ptiOpbKind o.op o.w = .desc) && o.db.isNone) || (decide (k.2.2.2 = .desc) && o.dc.isNone)

/-- An engine whose clock dim gates (Table 16.4). -/
def gatedEng : Eng → Bool
  | .mma _ _ => true
  | .vec _ => true
  | .route _ => true
  | _ => false

/-- Every unit, vector engine and routing engine is idle. -/
def enginesIdle (s : State) : Bool := !s.ops.any (fun o => gatedEng o.eng)

/-- Put an instruction in its engine's queue, or stall while the queue is full (R171). -/
def enqueueOp (q : Nat) (e : Eng) (op : PtiOp) (w : PtiWord) (s : State) : State :=
  if engDepth e ≤ (engQueue s e q).length then setSeq s q { seqAt s q with st := .queueStall }
  else
    let o := mkOp s q e op w
    let s1 := { s with
      ops := s.ops ++ [o], opNo := s.opNo + 1, pw := if gatedEng e then { s.pw with idleAt := s.beacon } else s.pw }
    seqNext (if gatedEng e && decide (s.pwr = .dim) then wake s1 else s1) q

/-- Clear the pending mark of a predicate and give it its value (R229). -/
def pendDone (s : State) (q p : Nat) (v : Bool) : State :=
  let x := putP (seqAt s q) p v
  setSeq s q { x with pend := BitVec.ofNat 8 (clrBit x.pend.toNat p) }

/-- A held signal in its place by issue. -/
def sigInsert (g : HeldSig) : List HeldSig → List HeldSig
  | [] => [g]
  | h :: r => if g.no < h.no then g :: h :: r else h :: sigInsert g r

/-- The signal that an MCAST owes to another die, in its stream (R17, R224). -/
def mcastSignal (o : EngOp) (s : State) (d : Nat) : State :=
  if d = o.q / 64 then objSignal s d o.w.sig.toNat 1
  else
    { s with
      sigs := sigInsert { q := o.q, no := o.no, rem := none, die := d, obj := o.w.sig.toNat, isSet := false, val := 1,
                          step := o.step, pc := o.pc } s.sigs }

/-- Completion signals of an instruction (R173, R224): MCAST signals on each destination die. -/
def opSignal (s : State) (o : EngOp) : State :=
  if o.w.sigv then
    if o.op = .xferMcast then
      releaseSigs (((List.range 4).filter (fun d => o.w.imm.getLsbD d)).foldl (mcastSignal o) s)
    else objSignal s (o.q / 64) o.w.sig.toNat 1
  else s

/-- Replace an instruction in its queue. -/
def setOp (s : State) (o : EngOp) : State := { s with ops := s.ops.map (fun x => if x.no = o.no then o else x) }

/-- Remove an instruction from its queue. -/
def dropOp (s : State) (no : Nat) : State := { s with ops := s.ops.filter (fun x => x.no != no) }

/-- Key of an engine in the round-robin map. -/
def engKey : Eng → Nat
  | .mma q t => 8 * q + t
  | .vec q => 4096 + q
  | .dma rg e => 8192 + 4 * rg + e
  | .route d => 12288 + d
  | .upd g e => 16384 + 16 * g + e

/-- An engine turns to a sequencer's instruction: the next turn is that of a later sequencer (R172). -/
def turnTo (s : State) (o : EngOp) : State := { s with rr := smPut (fun _ => 0) s.rr (engKey o.eng) o.q }

/-- Complete an instruction with a status (R173, R207): it leaves its queue, the error is recorded and raised, its object
receives its 1, and signals held behind it go. One that began on its own took its turn then. The event of the status
names `wh`. -/
def completeOpAt (s : State) (o : EngOp) (status wh : Nat) : State :=
  let s1 := dropOp (if o.phase = .sent then s else turnTo s o) o.no
  let s2 := failStatusAt s1 o.q wh status o.pc o.step []
  releaseSigs (opSignal (clearStat s2 (.op o.no)) o)

/-- Complete an instruction whose status's event names the cluster. -/
def completeOp (s : State) (o : EngOp) (status : Nat) : State := completeOpAt s o status (whClu o.q)

/-- The first instruction of each sequencer's queue of an engine. -/
def engHeads (s : State) (e : Eng) : List EngOp :=
  s.ops.filter (fun o => o.eng == e && !s.ops.any (fun p => p.eng == e && p.q == o.q && decide (p.no < o.no)))

/-- Round robin: among candidates, the sequencer next after the one last served (R172). -/
def rrPick (last : Nat) (os : List EngOp) : Option EngOp :=
  os.foldl (fun b o => match b with
    | none => some o
    | some p => if (o.q + 256 - (last + 1)) % 256 < (p.q + 256 - (last + 1)) % 256 then some o else some p) none

/-- The die that an engine lies on; none for the slow tier's update engines. -/
def engDie : Eng → Option Nat
  | .mma q _ => some (q / 64)
  | .vec q => some (q / 64)
  | .dma rg _ => some (rg / 4)
  | .route d => some d
  | .upd g _ => if g < 4 then some g else none

/-- The engine is in service: its die is (R28, R441, R448, log 162). -/
def engUp (s : State) (e : Eng) : Bool :=
  match engDie e with
  | some d => dieIn s d
  | none => true

/-- The instruction an engine serves next among candidates. -/
def engPick (s : State) (e : Eng) (ok : EngOp → Bool) : Option EngOp :=
  if !engUp s e then none
  else rrPick (smGet (fun _ => 0) s.rr (engKey e)) ((engHeads s e).filter ok)

/-- An earlier instruction of the same sequencer has yet to write to another die of this module that this one writes to:
the package fabric keeps the order of their stream (R19, R50). What a collective moves is the hub's stream. -/
def streamFree (s : State) (o : EngOp) : Bool :=
  !(List.range 4).any (fun d => decide (d ≠ o.q / 64) && opTargets s o none d &&
    s.ops.any (fun p => decide (p.q = o.q) && decide (p.no < o.no) && (decide (p.phase = .queued) || decide (p.op = .combine)) &&
      decide (p.op ≠ .xferColl) && opTargets s p none d))

/-- An instruction that fails as it issues: its status, its object, and on (R173, R207). -/
def issueFail (q : Nat) (e : Eng) (op : PtiOp) (w : PtiWord) (status : Nat) (s : State) : State :=
  let o := mkOp s q e op w
  let s1 := failStatus s q status o.pc o.step []
  seqNext (opSignal s1 o) q

/-- Issue to an engine. A false guard performs nothing; MCAST then signals on every die of its mask (R175, R224). -/
def ptiIssue (op : PtiOp) (q : Nat) (w : PtiWord) (act : State → State) (s : State) : State :=
  if seqReady s q op w then
    let s0 := taken s q w
    if guardTrue (seqAt s q) w then act s0 else seqNext (opSignal s0 (mkOp s0 q (.vec q) op w)) q
  else s

/-- Who an engine's accesses are: WHERE, step, die, and the region cache it goes through, if any. -/
def opCx (o : EngOp) (cached : Bool) : Cx :=
  { wh := whClu o.q, step := o.step, die := o.q / 64, rg := if cached then some (o.q / 16) else none, ins := o.no + 1 }

end Sys2Proof.Machine
end

