-- ==== Sys2Proof/Machine/Faults.lean ====
section
/-! DEFINITION. Memory errors (R274, R275, R277) and flicker (R396, R397). -/
namespace Sys2Proof.Machine

/-- Flicker inputs (Table 14.1). -/
def fkCe : Nat := 0
def fkLane : Nat := 1
def fkTherm : Nat := 2
def fkPrism : Nat := 3

/-- Threshold of a flicker input; 0 removes it. -/
def flkThr (s : State) (i : Nat) : Nat := fld s .ckpt rCkptFlkThr (31 - 8 * i) (24 - 8 * i)

/-- The flicker window in bt (R396). -/
def flkWin (s : State) : Nat := max 1 (fld s .ckpt rCkptFlkTime 31 16) * btMinute

/-- Hits still in the window. -/
def flkLive (s : State) : List (Nat × Nat) := s.flk.hits.filter (fun h => decide (s.beacon < h.2 + flkWin s))

/-- Count of an input in a list of hits. -/
def flkCount (l : List (Nat × Nat)) (i : Nat) : Nat := (l.filter (fun h => h.1 == i)).length

/-- An automatic snapshot is wanted (R397). -/
def flkAuto (s : State) : Bool :=
  rbit s .ckpt rCkptCtl 1 && match s.flk.lastAuto with
    | some t => decide (t + fld s .ckpt rCkptFlkTime 15 0 * btMinute ≤ s.beacon)
    | none => true

/-- A flicker input is counted; at its threshold the hub raises EVT_FLICKER with the input and every count, adds 1 to the
FLICKER object, counts it and restarts every count (R396, R397). -/
def flicker (s : State) (i : Nat) : State :=
  let l := (i, s.beacon) :: flkLive s
  let n := flkCount l i
  if flkThr s i ≠ 0 ∧ flkThr s i ≤ n then
    let s1 := { s with flk := { s.flk with hits := [], auto := s.flk.auto || flkAuto s } }
    let s2 := setFld (cnt (sysObjInc s1 oFlicker) .ckpt rCkptFlickers) .ckpt rCkptStatus 7 7 1
    raise s2 .flicker whHub 0 ([a8 i] ++ (List.range 4).map (fun j => a32 (flkCount l j)))
  else { s with flk := { s.flk with hits := l } }

/-- Key of a controller in the error and throttle maps. -/
def ctrlKey : Blk → Nat
  | .hc k => k
  | .lpc k => 64 + k
  | _ => 0

/-- WHERE of a controller. -/
def whCtrl : Blk → Nat
  | .hc k => whHc k
  | .lpc k => whLpc k
  | _ => whHub

/-- THRESH of HC_CE_RATE or LPC_CE_RATE: both registers lie at one offset. -/
def ceThresh (s : State) (b : Blk) : Nat := fld s b rHcCeRate 15 0

/-- Errors of the last hour. -/
def ceSum (c : CeRate) : Nat := c.buckets.foldl (· + ·) 0

/-- One more error in the newest bucket. -/
def ceBump : List Nat → List Nat
  | [] => [1]
  | n :: r => (n + 1) :: r

/-- Replace a controller's error rate. -/
def setCe (s : State) (b : Blk) (c : CeRate) : State :=
  { s with ceRate := smPut (fun _ => CeRate.reset) s.ceRate (ctrlKey b) c }

/-- Above the threshold a controller's rate raises EVT_MEM_CE_RATE, with the health score and flicker, once until the
count has been below half the threshold (R277, R391, Table 14.1). -/
def ceCheck (s : State) (b : Blk) : State :=
  let c := smGet (fun _ => CeRate.reset) s.ceRate (ctrlKey b)
  if !c.quiet && decide (ceThresh s b < ceSum c) then
    flicker (health (raise (setCe s b { c with quiet := true }) .memCeRate (whCtrl b) 0 []) 11) fkCe
  else if 2 * ceSum c < ceThresh s b then setCe s b { c with quiet := false }
  else s

/-- A correctable error enters a controller's rate (R277). -/
def ceAdd (s : State) (b : Blk) : State :=
  let c := smGet (fun _ => CeRate.reset) s.ceRate (ctrlKey b)
  ceCheck (setCe s b { c with buckets := ceBump c.buckets }) b

/-- The oldest bucket retires; the event is armed again below half the threshold (R277). -/
def ceMinute (s : State) (b : Blk) : State :=
  let c := smGet (fun _ => CeRate.reset) s.ceRate (ctrlKey b)
  if s.beacon < c.next then s
  else
    ceCheck (setCe s b { c with buckets := (0 :: c.buckets).take 60, next := c.next + btMinute }) b

/-- The region of a die-local SRAM address. -/
def sramRgn : Space → Option Blk
  | .shared q => some (.rgn (q / 64) (q / 16 % 4))
  | .tile rg _ => some (.rgn (rg / 4) (rg % 4))
  | _ => none

/-- Poison the sector of an address: EVT_MEM_UE and the health score (R275, R391). -/
def poisonSec (s : State) (wh a : Nat) : State :=
  health (raise { s with poison := if s.poison.contains (a / 32) then s.poison else a / 32 :: s.poison } .memUe wh 0 []) 10

/-- A region's cache holds the sector of an address. -/
def cacheHas (s : State) (rg a : Nat) : Bool :=
  (cacheOf s rg).any (fun l => decide (l.line = a / 128) && l.valid.getLsbD (a / 32 % 4))

/-- What a memory error does (Table 9.10): counts, and poison for a sector that stays uncorrectable. The slow tier detects
no uncorrectable error (R274). -/
def memErr (s : State) (e : MemErr) : State :=
  match e with
  | .ce a =>
    match ctrlOf s a with
    | some (.hc k) => ceAdd (setFld (cnt s (.hc k) rHcEccCe) (.hc k) rHcStatus 2 2 1) (.hc k)
    | some (.lpc k) => ceAdd (setFld (cnt s (.lpc k) rLpcEcsCe) (.lpc k) rLpcStatus 1 1 1) (.lpc k)
    | _ => match sramRgn (spaceOf s a) with
      | some b => cnt s b rRgnSramCe
      | none => s
  | .linkCe a =>
    match ctrlOf s a with
    | some (.hc k) => ceAdd (setFld (cnt s (.hc k) rHcEccCe) (.hc k) rHcStatus 2 2 1) (.hc k)
    | some (.lpc k) => ceAdd (setFld (cnt s (.lpc k) rLpcLinkCe) (.lpc k) rLpcStatus 1 1 1) (.lpc k)
    | _ => s
  | .ue a =>
    match ctrlOf s a with
    | some (.hc k) =>
      let s1 := setFld (cnt s (.hc k) rHcEccUe) (.hc k) rHcStatus 3 3 1
      let s2 := setReg s1 (.hc k) rHcUeAddrLo (BitVec.ofNat 32 (a / 32 * 32))
      poisonSec (setFld s2 (.hc k) rHcUeAddrHi 15 0 (a / 2 ^ 32)) (whHc k) a
    | some _ => s
    | none => match sramRgn (spaceOf s a) with
      | some b => poisonSec (cnt s b rRgnSramUe) (match b with | .rgn d r => whereWord d r 0 0 | _ => whHub) a
      | none => s
  | .cacheCe rg a =>
    if cacheHas s rg.val a then cnt s (.rgn (rg.val / 4) (rg.val % 4)) rRgnSramCe else s
  | .cacheUe rg a =>
    if cacheHas s rg.val a then
      poisonSec (cnt s (.rgn (rg.val / 4) (rg.val % 4)) rRgnSramUe) (whereWord (rg.val / 4) (rg.val % 4) 0 0) a
    else s

/-- The memory errors that show while a command runs. -/
def memErrs (s : State) (l : List MemErr) : State := l.foldl memErr s

end Sys2Proof.Machine
end

