-- ==== Sys2Proof/Machine/Trans.lean ====
section
/-! DEFINITION. The vector engine's functions of one argument: the exact value rounded once with RNE, with the IEEE 754
special cases (Table 7.10). Each is evaluated with 320 bits after the binary point; no value of these functions at a
nonzero argument is a rounding boundary, so a last bit set stands for the digits beyond. -/
namespace Sys2Proof.Machine

/-- Bits after the point. -/
def fxBits : Nat := 320

/-- 1 in fixed point. -/
def fxOne : Nat := 2 ^ fxBits

/-- Product in fixed point. -/
def fxMul (a b : Nat) : Nat := a * b / fxOne

/-- m × 2^e in fixed point. -/
def fxOf (m : Nat) (e : Int) : Nat :=
  let k := e + fxBits
  if 0 ≤ k then m * 2 ^ k.toNat else m / 2 ^ (-k).toNat

/-- A fixed-point value rounded to FP32, its lost digits kept as a last bit. -/
def fxRne (neg : Bool) (v : Nat) : EV := rneRatio neg (2 * v + 1) 1 (-(fxBits : Int) - 1)

/-- Taylor sum of e^r: `t` is the last term, `k` its order. -/
def expSum : Nat → Nat → Nat → Nat → Nat → Nat
  | 0, _, _, _, acc => acc
  | n + 1, r, k, t, acc =>
    let t' := fxMul t r / (k + 1)
    expSum n r (k + 1) t' (acc + t')

/-- Square `n` times. -/
def fxSquare : Nat → Nat → Nat
  | 0, v => v
  | n + 1, v => fxSquare n (fxMul v v)

/-- e^x for 0 ≤ x < 128 in fixed point. -/
def fxExp (x : Nat) : Nat := fxSquare 16 (expSum 40 (x / 65536) 0 fxOne fxOne)

/-- |m × 2^e| is at least 2^k. -/
def atLeast (m : Nat) (e k : Int) : Bool := decide (m ≠ 0) && decide (k + 1 ≤ (bitLen m : Int) + e)

/-- e^a (Table 7.10). -/
def evExp : EV → EV
  | .nan => .nan
  | .inf n => if n then evZero else .inf false
  | .fin n m e =>
    if m = 0 then evPow2 0
    else if atLeast m e 7 then (if n then evZero else .inf false)
    else
      let v := fxExp (fxOf m e)
      if n then fxRne false (fxOne * fxOne / v) else fxRne false v

/-- Series of atanh z: sum of z^(2j+1) / (2j+1). -/
def atanhSum : Nat → Nat → Nat → Nat → Nat → Nat
  | 0, _, _, _, acc => acc
  | n + 1, z2, k, t, acc => atanhSum n z2 (k + 2) (fxMul t z2) (acc + t / k)

/-- ln(num / den) for 1 ≤ num / den < 2 in fixed point. -/
def fxLn (num den : Nat) : Nat :=
  let z := (num - den) * fxOne / (num + den)
  2 * atanhSum 110 (fxMul z z) 1 z 0

/-- ln 2. -/
def fxLn2 : Nat := fxLn 2 1

/-- ln a (Table 7.10). -/
def evLog : EV → EV
  | .nan => .nan
  | .inf n => if n then .nan else .inf false
  | .fin n m e =>
    if m = 0 then .inf true
    else if n then .nan
    else
      -- a = m / 2^b × 2^k with m / 2^b in [1, 2); above 3/2 the reciprocal of the fraction is taken.
      let b := bitLen m - 1
      let k := e + b
      if m = 2 ^ b ∧ k = 0 then evZero
      else
        let hi := decide (3 * 2 ^ b ≤ 2 * m)
        let v : Int := if hi then (k + 1) * fxLn2 - (fxLn (2 * 2 ^ b) m : Nat) else k * fxLn2 + (fxLn m (2 ^ b) : Nat)
        fxRne (decide (v < 0)) v.natAbs

/-- Hyperbolic tangent (Table 7.10). -/
def evTanh : EV → EV
  | .nan => .nan
  | .inf n => .fin n 1 0
  | .fin n m e =>
    if m = 0 then .fin n 0 0
    else if !atLeast m e (-40) then rneRatio n (m * 2 ^ 200 - 1) 1 (e - 200)
    else if atLeast m e 5 then .fin n 1 0
    else
      let v := fxExp (fxOf (2 * m) e)
      fxRne n ((v - fxOne) * fxOne / (v + fxOne))

/-- 1 / (1 + e^−a) (Table 7.10). -/
def evSigm : EV → EV
  | .nan => .nan
  | .inf n => if n then evZero else evPow2 0
  | .fin n m e =>
    if m = 0 then evPow2 (-1)
    else if atLeast m e 7 then (if n then evZero else evPow2 0)
    else
      let v := fxExp (fxOf m e)
      if n then fxRne false (fxOne * fxOne / (fxOne + v)) else fxRne false (v * fxOne / (fxOne + v))

end Sys2Proof.Machine
end

