-- ==== Sys2Proof/Machine/Vec.lean ====
section
/-! DEFINITION. The vector engine: VEC, CVT and CHK instructions (R218–R221, R229, R347, R348). -/
namespace Sys2Proof.Machine

/-- What the hardware meets while an instruction runs: memory errors, and re-reads that cured a failed check (R155, R274). -/
def memEnv (s : State) (cx : Cx) (errs : List MemErr) (reread : Nat) : State :=
  (List.range reread).foldl (fun t _ => crcFail t cx) (memErrs s errs)

/-! ## Operands -/

/-- Issue to the cluster's vector engine. -/
def vecIssue (op : PtiOp) (q : Nat) (w : PtiWord) (s : State) : State :=
  ptiIssue op q w (enqueueOp q (.vec q) op w) s

/-- How an operand of a shape stands against shape `(r, c)` of dA: 0 same, 1 a row, 2 a column (R218). -/
def bcastOf (d a : Desc) : Option Nat :=
  if d.rows = a.rows ∧ d.cols = a.cols then some 0
  else if d.rows = 1 ∧ d.cols = a.cols then some 1
  else if d.cols = 1 ∧ d.rows = a.rows then some 2
  else none

/-- The element an operand gives for element (r, c) of dA. -/
def bcastAt (t : TensorVal) (k r c : Nat) : EV :=
  if k = 1 then tvAt t 0 c else if k = 2 then tvAt t r 0 else tvAt t r c

/-- Number of sources of an operation. -/
def vecArity : PtiOp → Nat
  | .vecAdd | .vecSub | .vecMul | .vecMax | .vecMin => 2
  | .vecFma => 3
  | _ => 1

/-- The larger or the smaller of two values, NaN if either is (Table 7.10). -/
def vMax (a b : EV) : EV := if a.isNan || b.isNan then .nan else if evLt a b then b else a
def vMin (a b : EV) : EV := if a.isNan || b.isNan then .nan else if evLt b a then b else a

/-- The FP32 result of an elementwise operation (Table 7.10); CVT keeps the exact source value (R219). -/
def vecFn (op : PtiOp) (a b c : EV) : EV :=
  match op with
  | .vecAdd => rne (evAdd a b)
  | .vecSub => rne (evSub a b)
  | .vecMul => rne (evMul a b)
  | .vecFma => evFma a b c
  | .vecMax => rne (vMax a b)
  | .vecMin => rne (vMin a b)
  | .vecAbs => rne (evAbs a)
  | .vecNeg => rne (evNeg a)
  | .vecExp => evExp a
  | .vecLog => evLog a
  | .vecRcp => evDiv (evPow2 0) a
  | .vecSqrt => evSqrt a
  | .vecRsqrt => evRsqrt a
  | .vecTanh => evTanh a
  | .vecSigm => evSigm a
  | _ => a

/-- ACC of a word (Table 7.9). -/
def wAcc (w : PtiWord) : Bool := w.mod.getLsbD 9

/-- A second or third source: an FP32 constant, or a tensor with its broadcast. -/
inductive VSrc where
  | const (v : EV)
  | tensor (t : TensorVal) (k : Nat)
  deriving DecidableEq, Repr

/-- Element of a source. -/
def VSrc.elem (x : VSrc) (r c : Nat) : EV :=
  match x with
  | .const v => v
  | .tensor t k => bcastAt t k r c

/-- Read a second or third source: its status is LIMIT for a shape that R218 does not allow. -/
def vecSrc (s : State) (cx : Cx) (a : Desc) (od : Option Desc) : State × Nat × VSrc :=
  match od with
  | none => (s, 0, .const evZero)
  | some d =>
    match bcastOf d a with
    | none => (s, 0x08, .const evZero)
    | some k =>
      let (s1, st, t) := readTensor s cx d
      (s1, st, .tensor t k)

/-- What an element gets under ACC: the exact sum of its old value and the result, which the write rounds once with RNE
into dD's format (R220). -/
def accAdd (old : Option TensorVal) (r c : Nat) (v : EV) : EV :=
  match old with
  | some t => evAdd (tvAt t r c) v
  | none => v

/-- Read dD under ACC. -/
def readAcc (s : State) (cx : Cx) (w : PtiWord) (d : Desc) : State × Nat × Option TensorVal :=
  if wAcc w then
    let (s1, st, t) := readTensor s cx d
    (s1, st, some t)
  else (s, 0, none)

/-- Check that every block of dD can be written, then write it. -/
def vecWrite (s : State) (cx : Cx) (d : Desc) (f : Fmt) (w : PtiWord) (old : Option TensorVal)
    (valid : Nat → Nat → Bool) (val : Nat → Nat → EV) : State × Nat :=
  match wrChk s d (List.range (nBlocks d)) with
  | some e => (raiseAcc s e cx.wh cx.step, e.status)
  | none => (writeTensor s cx d f (rndInto f (wAcc w) (wRnd w)) (wOvf w) valid (fun r c => accAdd old r c (val r c)), 0)

/-- The sources of an operation have been read: form and write every element (R218). -/
def vecElems (s : State) (cx : Cx) (o : EngOp) (dd : Desc) (f : Fmt) (ta : TensorVal) (b c : VSrc) : State × Nat :=
  let (s1, st, old) := readAcc s cx o.w dd
  if st ≠ 0 then (s1, st)
  else vecWrite s1 cx dd f o.w old (tvValid ta) (fun r k => vecFn o.op (tvAt ta r k) (b.elem r k) (c.elem r k))

/-- An elementwise operation: shapes and conversions, reads, writes. Gives the completion status. -/
def vecMap (s : State) (cx : Cx) (o : EngOp) (dd da : Desc) : State × Nat :=
  match fmtOf dd.fmt, fmtOf da.fmt with
  | some f, some fa =>
    let conv := if o.op = .cvt then convOk fa f else convOk fa .fp32 && convOk .fp32 f
    if !conv then (s, 0x07)
    else if dd.rows ≠ da.rows ∨ dd.cols ≠ da.cols then (s, 0x08)
    else
      let (s1, st1, ta) := readTensor s cx da
      if st1 ≠ 0 then (s1, st1)
      else
        let rb := if vecArity o.op < 2 then (s1, 0, VSrc.const evZero)
          else if wImmf o.w then (s1, 0, VSrc.const (f32Val (o.w.imm.toNat % u32Mod))) else vecSrc s1 cx da o.db
        if rb.2.1 ≠ 0 then (rb.1, rb.2.1)
        else
          let rc := if vecArity o.op < 3 then (rb.1, 0, VSrc.const evZero) else vecSrc rb.1 cx da o.dc
          if rc.2.1 ≠ 0 then (rc.1, rc.2.1) else vecElems rc.1 cx o dd f ta rb.2.2 rc.2.2
  | _, _ => (s, 0x0F)

/-! ## CVT (R219, R90–R92) -/

/-- Fields of the CVT immediate (Table 7.9). -/
def cvSfmt (w : PtiWord) : Nat := bits w.imm.toNat 7 0
def cvTfmt (w : PtiWord) : Nat := bits w.imm.toNat 15 8
def cvMx (w : PtiWord) : Nat := bits w.imm.toNat 18 16
def cvMxOut (w : PtiWord) : Bool := w.imm.getLsbD 19

/-- Why an MX side's raw memory cannot be reached: the first and last byte of its elements and of its scales. -/
def mxAcc (s : State) (m : MxSrc) (wr : Bool) : Option AccErr :=
  [m.base, m.base + mxElemBytes m.f m.rows m.cols - 1, m.sb, m.sb + mxScaleBytes m.rows m.cols m.axis - 1].findSome?
    (fun a => accChk s a wr)

/-- A tensor that a descriptor names as MX memory. -/
def mxSrcOf (d : Desc) (f : Fmt) : MxSrc :=
  { f := f, base := d.base, sb := d.sb, rows := d.rows, cols := d.cols, axis := d.axis }

/-- MX to a BLOCK tensor of the same element codes (R91); under ACC its exact values are added to those of dD, with one
rounding (R220). -/
def mxToTensor (s : State) (cx : Cx) (w : PtiWord) (m : MxSrc) (dd : Desc) : State × Nat :=
  if fmtOf dd.fmt ≠ some m.f ∨ dd.scaling = false ∨ dd.axis ≠ m.axis then (s, 0x07)
  else if dd.rows ≠ m.rows ∨ dd.cols ≠ m.cols then (s, 0x08)
  else
    match mxAcc s m false, wrChk s dd (List.range (nBlocks dd)) with
    | some e, _ => (raiseAcc s e cx.wh cx.step, e.status)
    | none, some e => (raiseAcc s e cx.wh cx.step, e.status)
    | none, none =>
      let (s1, st, old) := readAcc s cx w dd
      if st ≠ 0 then (s1, st)
      else match old with
        | some _ => vecWrite s1 cx dd m.f w old (fun _ _ => true) (mxVal s m)
        | none =>
          let bs := (List.range (nBlocks dd)).map (fun i => (i, mxForm s1 cx m dd m.f ⟨0, 0, 0, 0, 0, 0⟩ i))
          (mxReport (storeForms cx dd (bs.map (fun b => (b.1, b.2.1))) s1) cx (bs.foldl (fun n b => n + b.2.2) 0), 0)

/-- A tensor's values to MX (R92); under ACC they are added to the values that the MX memory holds (R220). -/
def tensorToMx (s : State) (cx : Cx) (acc : Bool) (t : TensorVal) (dd : Desc) (m : MxSrc) : State × Nat :=
  match mxAcc s m true with
  | some e => (raiseAcc s e cx.wh cx.step, e.status)
  | none =>
    (writeMx s cx dd m (fun _ _ => true) (fun r c => if acc then evAdd (mxVal s m r c) (tvAt t r c) else tvAt t r c), 0)

/-- CVT: format fields against the descriptors, then one conversion (R219). -/
def cvtExec (s : State) (cx : Cx) (o : EngOp) (dd da : Desc) : State × Nat :=
  let mx := mxFmt (cvMx o.w)
  let sBad := decide (cvSfmt o.w ≠ 0) && decide (cvSfmt o.w ≠ da.fmt) && !(mx.isSome && !cvMxOut o.w)
  let tBad := decide (cvTfmt o.w ≠ 0) && decide (cvTfmt o.w ≠ dd.fmt) && !(mx.isSome && cvMxOut o.w)
  if sBad || tBad then (s, 0x0F)
  else if cvMx o.w = 7 then (s, 0x07)
  else
    match mx with
    | none => vecMap s cx o dd da
    | some f =>
      if cvMxOut o.w then
        if dd.rows ≠ da.rows ∨ dd.cols ≠ da.cols then (s, 0x08)
        else if !((fmtOf da.fmt).map (fun g => g.scaled)).getD false then (s, 0x07)
        else
          let (s1, st, t) := readTensor s cx da
          if st ≠ 0 then (s1, st) else tensorToMx s1 cx (wAcc o.w) t dd (mxSrcOf dd f)
      else mxToTensor s cx o.w (mxSrcOf da f) dd

/-! ## Reductions (Table 7.10) -/

/-- AXIS and SEQ of a word (Table 7.9). -/
def wCol (w : PtiWord) : Bool := w.mod.getLsbD 11
def wSeq (w : PtiWord) : Bool := w.mod.getLsbD 10

/-- Sum in 16-element groups by position: each group exact and rounded once, groups added in ascending index. -/
def sumGroups (l : List (Nat × EV)) : EV :=
  let n := l.foldl (fun m p => max m (p.1 / 16 + 1)) 0
  let gs := (List.range n).filterMap (fun g =>
    let es := l.filter (fun p => p.1 / 16 == g)
    match es with
    | [] => none
    | p :: r => some (rne (r.foldl (fun a q => evAdd a q.2) p.2)))
  match gs with
  | [] => evZero
  | g :: r => r.foldl (fun a v => rne (evAdd a v)) g

/-- Maximum, NaN propagating. -/
def maxLine (l : List (Nat × EV)) : EV :=
  match l with
  | [] => evZero
  | p :: r => rne (r.foldl (fun a q => vMax a q.2) p.2)

/-- Rows at which a new sequence starts, above row 0 (R149): the CUT of the blocks of the first tile column. A NAN block
with a good header acts on its CUT too; a bad header has none (R152, Table 5.6). -/
def seqStarts (t : TensorVal) : List Nat :=
  (List.range (gridOf t.d).1).filterMap (fun i =>
    match t.blks[i * (gridOf t.d).2]? with
    | some (b, _) =>
      let r := i * t.f.tile.1 + b.h.cut
      if bitAt b.h.flags flCut && !badHdr b.h && decide (0 < r) then some r else none
    | none => none)

/-- First and past-last row of each sequence. -/
def seqSpans (rows : Nat) (starts : List Nat) : List (Nat × Nat) := List.zip (0 :: starts) (starts ++ [rows])

/-- The lines of a reduction: for result element (i, j), the places of its sources. -/
def redLine (t : TensorVal) (col : Bool) (spans : List (Nat × Nat)) (i j : Nat) : List (Nat × EV) :=
  if col then
    let sp := spans.getD i (0, 0)
    (List.range (sp.2 - sp.1)).filterMap (fun k => if tvValid t (sp.1 + k) j then some (k, tvAt t (sp.1 + k) j) else none)
  else (List.range t.d.cols).filterMap (fun k => if tvValid t i k then some (k, tvAt t i k) else none)

/-- SUM and RMAX (R218, R219). -/
def vecReduce (s : State) (cx : Cx) (o : EngOp) (dd da : Desc) : State × Nat :=
  match fmtOf dd.fmt, fmtOf da.fmt with
  | some f, some fa =>
    if !(convOk fa .fp32 && convOk .fp32 f) then (s, 0x07)
    else
      let (s1, st, t) := readTensor s cx da
      if st ≠ 0 then (s1, st)
      else
        let spans := if wSeq o.w then seqSpans da.rows (seqStarts t) else [(0, da.rows)]
        let shape := if wCol o.w then (spans.length, da.cols) else (da.rows, 1)
        if dd.rows ≠ shape.1 ∨ dd.cols ≠ shape.2 then (s1, 0x08)
        else
          let (s2, st2, old) := readAcc s1 cx o.w dd
          if st2 ≠ 0 then (s2, st2)
          else
            let line := redLine t (wCol o.w) spans
            vecWrite s2 cx dd f o.w old (fun r c => !(line r c).isEmpty)
              (fun r c => if o.op = .vecSum then sumGroups (line r c) else maxLine (line r c))
  | _, _ => (s, 0x0F)

/-! ## AMAX and its delivery (R219, R234, R239) -/

/-- Every valid element of a tensor. -/
def validElems (t : TensorVal) : List (Nat × Nat × EV) :=
  (List.range (t.d.rows * t.d.cols)).filterMap (fun k =>
    let r := k / t.d.cols
    let c := k % t.d.cols
    if tvValid t r c then some (r, c, tvAt t r c) else none)

/-- Fold the finite elements of a channel into its pair (R239). -/
def chanFold (s : State) (a : Nat) (l : List EV) : State :=
  match l.filter EV.isFin with
  | [] => s
  | v :: r =>
    let lo := r.foldl (fun x y => if evLt y x then y else x) v
    let hi := r.foldl (fun x y => if evLt x y then y else x) v
    let lo0 := f32Val (rdLE s a 4)
    let hi0 := f32Val (rdLE s (a + 4) 4)
    wrLE (wrLE s a 4 (f32Of (if evLt (rne lo) lo0 then rne lo else lo0))) (a + 4) 4 (f32Of (if evLt hi0 (rne hi) then rne hi else hi0))

/-- The per-channel part of a delivery to a CHANNEL slot (R239). -/
def rangeDeliver (s : State) (c : EstCfg) (step : Nat) (es : List (Nat × Nat × EV)) : State :=
  let scd := rdLE s (c.desc + 0x28) 8
  if (hubReach s c.desc 64).isSome ∨ (hubReach s scd 64).isSome then s
  else
    let sd := scaleDesc s scd (step % 2)
    (List.range sd.count).foldl (fun t ch =>
      let a := c.range + 8 * (step % 2 * sd.count + ch)
      if (hubReach t a 8).isSome then t
      else chanFold t a ((es.filter (fun e => chanOf sd e.1 e.2.1 == ch)).map (fun e => e.2.2))) s

/-- Deliver a maximum with the count of non-finite elements to the slot that dA names (R219, R233, R234). -/
def amaxDeliver (s : State) (cx : Cx) (da : Desc) (m : EV) (nonfin : Nat) (es : List (Nat × Nat × EV)) : State :=
  if da.est = 0xFFFF then s
  else
    match slotOf s da with
    | none => cnt s .scl rSclDrop
    | some slot =>
      if !stepUnsealed s cx.step then cnt s .scl rSclDrop
      else
        let s1 := updAcc s (accKey slot cx.step) (fun a =>
          { a with m := if evLt (f32Val a.m) m then f32Of m else a.m, nonfin := a.nonfin + nonfin, got := true })
        match smGet (fun _ => none) s1.scl.est slot with
        | some c => if c.mode = 2 then rangeDeliver s1 c cx.step es else s1
        | none => s1

/-- VEC.AMAX (Table 7.10, R219). -/
def vecAmaxExec (s : State) (cx : Cx) (o : EngOp) (dd da : Desc) : State × Nat :=
  match fmtOf dd.fmt, fmtOf da.fmt with
  | some f, some fa =>
    if !(convOk fa .fp32 && convOk .fp32 f) then (s, 0x07)
    else if f ≠ .fp32 then (s, 0x0F)
    else if dd.rows ≠ 1 ∨ dd.cols ≠ 1 then (s, 0x08)
    else
      let (s1, st, t) := readTensor s cx da
      if st ≠ 0 then (s1, st)
      else
        let (s2, st2, old) := readAcc s1 cx o.w dd
        if st2 ≠ 0 then (s2, st2)
        else
          let es := validElems t
          let m := rne (maxAbsFin (es.map (fun e => e.2.2)))
          let x := vecWrite s2 cx dd f o.w old (fun _ _ => true) (fun _ _ => m)
          if x.2 ≠ 0 then x
          else (amaxDeliver x.1 cx da m (es.filter (fun e => !e.2.2.isFin)).length es, 0)
  | _, _ => (s, 0x0F)

/-! ## CHK (R229) -/

/-- Check the CRC of one block as CHK.VERIFY does. -/
def verifyBlk (s : State) (cx : Cx) (d : Desc) (i : Nat) : State × Nat :=
  match blkChk s d i false with
  | some e => (raiseAcc s e cx.wh cx.step, e.status)
  | none =>
    let a := blkAddr d i
    let r := rawBlk s a (msAddr d i) (descMs d)
    let s1 := cnt64 (blkTraffic s cx.rg d.hint a (msAddr d i) (descMs d) r.h false) .chk rChkBlocksLo 1
    match blkPoison s a (msAddr d i) (descMs d) r.h with
    | some pa => (crcUncured (crcFail (poisonRead s1 pa cx.wh cx.step) cx) cx, 0x03)
    | none =>
    if scalesElse d r.h then (cnt s1 .chk rChkBlockMismatch, 0x02)
    else if r.h.crc ≠ blkCrc r.h r.payload r.scales then (crcUncured (crcFail s1 cx) cx, 0x03)
    else (s1, 0)

/-- Blocks in order, stopping at the first status. -/
def verifyGo (cx : Cx) (d : Desc) : List Nat → State → State × Nat
  | [], s => (s, 0)
  | i :: r, s => let x := verifyBlk s cx d i; if x.2 = 0 then verifyGo cx d r x.1 else x

/-- CHK.VERIFY: n of 1 to 65,535 within the tensor, or LIMIT (Table 7.15). -/
def chkVerifyExec (s : State) (cx : Cx) (o : EngOp) (da : Desc) : State × Nat :=
  let n := o.w.imm.toNat % 65536
  let first := o.sb.toNat
  if n = 0 ∨ nBlocks da < first + n then (s, 0x08)
  else verifyGo cx da ((List.range n).map (first + ·)) s

/-- The two blocks are equal apart from EPOCH, STEP and CRC (Table 7.15). -/
def blkSame (a b : BlkVal) (ra rb : RawBlk) : Bool :=
  decide ({ ra.h with epoch := 0, step := 0, crc := 0 } = { rb.h with epoch := 0, step := 0, crc := 0 }) &&
    decide (a.payload = b.payload) && decide (a.scales = b.scales)

/-- CHK.CMP: whether two tensors are equal bit for bit (Table 7.15). -/
def chkCmpGo (cx : Cx) (da db : Desc) : List Nat → State → Bool → State × Nat × Bool
  | [], s, r => (s, 0, r)
  | i :: l, s, r =>
    let x := readBlk s cx da i false
    if x.status ≠ 0 then (x.st, x.status, false)
    else
      let y := readBlk x.st cx db i false
      if y.status ≠ 0 then (y.st, y.status, false)
      else
        let ra := rawBlk y.st (blkAddr da i) (msAddr da i) (descMs da)
        let rb := rawBlk y.st (blkAddr db i) (msAddr db i) (descMs db)
        chkCmpGo cx da db l y.st (r && blkSame x.blk y.blk ra rb)

/-- CHK.CMP of tensors with different numbers of blocks finds them unequal. -/
def chkCmpExec (s : State) (cx : Cx) (da db : Desc) : State × Nat × Bool :=
  if nBlocks da ≠ nBlocks db then (s, 0, false) else chkCmpGo cx da db (List.range (nBlocks da)) s true

/-- Fold every block of a tensor. -/
def chkFoldGo (cx : Cx) (d : Desc) : List Nat → State → Fold → State × Nat × Fold
  | [], s, f => (s, 0, f)
  | i :: l, s, f =>
    let x := readBlk s cx d i false
    if x.status ≠ 0 then (x.st, x.status, f)
    else chkFoldGo cx d l x.st (f.add (rawBlk x.st (blkAddr d i) (msAddr d i) (descMs d)))

/-- CHK.FOLD combines the fold of dA into the record at IMM and writes STEP (R356). -/
def chkFoldExec (s : State) (cx : Cx) (o : EngOp) (da : Desc) : State × Nat :=
  let a := o.w.imm.toNat
  if a % 8 ≠ 0 then (s, 0x09)
  else
    match accChk s a true, accChk s (a + 63) true with
    | some e, _ => (raiseAcc s e cx.wh cx.step, e.status)
    | none, some e => (raiseAcc s e cx.wh cx.step, e.status)
    | none, none =>
      let (s1, st, f) := chkFoldGo cx da (List.range (nBlocks da)) s Fold.zero
      if st ≠ 0 then (s1, st)
      else
        let old := parseFold (rdBytes s1 a 64)
        (wrBytes (traffic s1 cx.rg 0 (xlatPage s1 a) 64 true) a ({ old.merge f with step := o.step }).bytes, 0)

/-! ## Completion (R173, R347, R348) -/

/-- What a VEC or CHK instruction does: state, status and, for a CHK that writes one, its predicate. -/
def vecRun (s : State) (o : EngOp) : State × Nat × Bool :=
  let cx := opCx o true
  let two := fun (x : State × Nat) => (x.1, x.2, decide (x.2 = 0))
  if opDescBad o then (s, 0x01, false)
  else if wAcc o.w && (ptiCode o.op).1 == 5 && detNow s then (s, 0x0D, false)
  else
    match o.op, o.dd, o.da, o.db with
    | .chkVerify, _, some da, _ => two (chkVerifyExec s cx o da)
    | .chkFold, _, some da, _ => two (chkFoldExec s cx o da)
    | .chkCmp, _, some da, some db => chkCmpExec s cx da db
    | .cvt, some dd, some da, _ => two (cvtExec s cx o dd da)
    | .vecAmax, some dd, some da, _ => two (vecAmaxExec s cx o dd da)
    | .vecSum, some dd, some da, _ => two (vecReduce s cx o dd da)
    | .vecRmax, some dd, some da, _ => two (vecReduce s cx o dd da)
    | _, some dd, some da, _ => two (vecMap s cx o dd da)
    | _, _, _, _ => (s, 0x01, false)

/-- A disagreement that a third execution settled (R348). -/
def dualMismatch (s : State) (o : EngOp) (temp volt : Nat) : State :=
  health (raise (cnt s .chk rChkDualMismatch) .vecDualMismatch (whClu o.q) o.step [a64 o.pc, a16 temp, a16 volt]) 2

/-- A disagreement that none settled: the instruction writes nothing (R348). -/
def dualUncured (s : State) (o : EngOp) : State :=
  voteSet (health (raise (cnt s .chk rChkDualUncured) .vecDualUncured (whClu o.q) o.step []) 3) o.step vAbft

/-- The effect of the instruction under the comparison's outcome; it counts only while dual-execute is on. -/
def vecDual (s : State) (o : EngOp) (e : EngEnv) : State × Nat × Bool :=
  if !s.dualOn then vecRun s o
  else
    match e.dual with
    | .agree => vecRun s o
    | .cured t v => vecRun (dualMismatch s o t v) o
    | .uncured => (dualUncured s o, 0x04, false)

/-- A predicate that the instruction writes gets its value (R229). -/
def vecPred (s : State) (o : EngOp) (v : Bool) : State :=
  if o.op = .chkVerify ∨ o.op = .chkCmp then pendDone s o.q o.w.opd.toNat v else s

/-- VEC_COMPLETE: the vector engine of a cluster finishes its oldest instruction. -/
def opVecComplete (q : Nat) (e : EngEnv) (s : State) : State :=
  match engPick s (.vec q) (fun _ => true) with
  | none => s
  | some o =>
    let x := vecDual (memEnv s (opCx o true) e.errs e.reread) o e
    completeOp (vecPred x.1 o x.2.2) o x.2.1

/-- VEC_COMPLETE (R173). -/
def execVecComplete (q : Fin 256) (e : EngEnv) (s : State) : Host.Outcome State Fault Refusal :=
  run [.clu q] (opVecComplete q e) s

/-- VEC.ADD goes to the cluster's vector engine (R171, R218). -/
def execVecAdd (q : Fin 256) (w : PtiWord) (s : State) : Host.Outcome State Fault Refusal :=
  run [.clu q] (vecIssue .vecAdd q w) s

/-- VEC.SUB goes to the cluster's vector engine (R171, R218). -/
def execVecSub (q : Fin 256) (w : PtiWord) (s : State) : Host.Outcome State Fault Refusal :=
  run [.clu q] (vecIssue .vecSub q w) s

/-- VEC.MUL goes to the cluster's vector engine (R171, R218). -/
def execVecMul (q : Fin 256) (w : PtiWord) (s : State) : Host.Outcome State Fault Refusal :=
  run [.clu q] (vecIssue .vecMul q w) s

/-- VEC.FMA goes to the cluster's vector engine (R171, R218). -/
def execVecFma (q : Fin 256) (w : PtiWord) (s : State) : Host.Outcome State Fault Refusal :=
  run [.clu q] (vecIssue .vecFma q w) s

/-- VEC.MAX goes to the cluster's vector engine (R171, R218). -/
def execVecMax (q : Fin 256) (w : PtiWord) (s : State) : Host.Outcome State Fault Refusal :=
  run [.clu q] (vecIssue .vecMax q w) s

/-- VEC.MIN goes to the cluster's vector engine (R171, R218). -/
def execVecMin (q : Fin 256) (w : PtiWord) (s : State) : Host.Outcome State Fault Refusal :=
  run [.clu q] (vecIssue .vecMin q w) s

/-- VEC.ABS goes to the cluster's vector engine (R171, R218). -/
def execVecAbs (q : Fin 256) (w : PtiWord) (s : State) : Host.Outcome State Fault Refusal :=
  run [.clu q] (vecIssue .vecAbs q w) s

/-- VEC.NEG goes to the cluster's vector engine (R171, R218). -/
def execVecNeg (q : Fin 256) (w : PtiWord) (s : State) : Host.Outcome State Fault Refusal :=
  run [.clu q] (vecIssue .vecNeg q w) s

/-- VEC.EXP goes to the cluster's vector engine (R171, R218). -/
def execVecExp (q : Fin 256) (w : PtiWord) (s : State) : Host.Outcome State Fault Refusal :=
  run [.clu q] (vecIssue .vecExp q w) s

/-- VEC.LOG goes to the cluster's vector engine (R171, R218). -/
def execVecLog (q : Fin 256) (w : PtiWord) (s : State) : Host.Outcome State Fault Refusal :=
  run [.clu q] (vecIssue .vecLog q w) s

/-- VEC.RCP goes to the cluster's vector engine (R171, R218). -/
def execVecRcp (q : Fin 256) (w : PtiWord) (s : State) : Host.Outcome State Fault Refusal :=
  run [.clu q] (vecIssue .vecRcp q w) s

/-- VEC.SQRT goes to the cluster's vector engine (R171, R218). -/
def execVecSqrt (q : Fin 256) (w : PtiWord) (s : State) : Host.Outcome State Fault Refusal :=
  run [.clu q] (vecIssue .vecSqrt q w) s

/-- VEC.RSQRT goes to the cluster's vector engine (R171, R218). -/
def execVecRsqrt (q : Fin 256) (w : PtiWord) (s : State) : Host.Outcome State Fault Refusal :=
  run [.clu q] (vecIssue .vecRsqrt q w) s

/-- VEC.TANH goes to the cluster's vector engine (R171, R218). -/
def execVecTanh (q : Fin 256) (w : PtiWord) (s : State) : Host.Outcome State Fault Refusal :=
  run [.clu q] (vecIssue .vecTanh q w) s

/-- VEC.SIGM goes to the cluster's vector engine (R171, R218). -/
def execVecSigm (q : Fin 256) (w : PtiWord) (s : State) : Host.Outcome State Fault Refusal :=
  run [.clu q] (vecIssue .vecSigm q w) s

/-- CVT goes to the cluster's vector engine (R171, R218). -/
def execCvt (q : Fin 256) (w : PtiWord) (s : State) : Host.Outcome State Fault Refusal :=
  run [.clu q] (vecIssue .cvt q w) s

/-- VEC.SUM goes to the cluster's vector engine (R171, R218). -/
def execVecSum (q : Fin 256) (w : PtiWord) (s : State) : Host.Outcome State Fault Refusal :=
  run [.clu q] (vecIssue .vecSum q w) s

/-- VEC.RMAX goes to the cluster's vector engine (R171, R218). -/
def execVecRmax (q : Fin 256) (w : PtiWord) (s : State) : Host.Outcome State Fault Refusal :=
  run [.clu q] (vecIssue .vecRmax q w) s

/-- VEC.AMAX goes to the cluster's vector engine (R171, R218). -/
def execVecAmax (q : Fin 256) (w : PtiWord) (s : State) : Host.Outcome State Fault Refusal :=
  run [.clu q] (vecIssue .vecAmax q w) s

/-- CHK.FOLD goes to the cluster's vector engine (R171, R218). -/
def execChkFold (q : Fin 256) (w : PtiWord) (s : State) : Host.Outcome State Fault Refusal :=
  run [.clu q] (vecIssue .chkFold q w) s

/-- A CHK that writes a predicate marks it pending as it issues (R229). -/
def chkPredIssue (op : PtiOp) (q : Nat) (w : PtiWord) (s : State) : State :=
  ptiIssue op q w (fun t =>
    let n := (engQueue t (.vec q) q).length
    let t1 := enqueueOp q (.vec q) op w t
    if engDepth (.vec q) ≤ n ∨ w.opd.toNat = 0 then t1
    else setSeq t1 q { seqAt t1 q with pend := BitVec.ofNat 8 (setBit (seqAt t1 q).pend.toNat w.opd.toNat) }) s

/-- CHK.VERIFY (R229). -/
def execChkVerify (q : Fin 256) (w : PtiWord) (s : State) : Host.Outcome State Fault Refusal :=
  run [.clu q] (chkPredIssue .chkVerify q w) s

/-- CHK.CMP (R229). -/
def execChkCmp (q : Fin 256) (w : PtiWord) (s : State) : Host.Outcome State Fault Refusal :=
  run [.clu q] (chkPredIssue .chkCmp q w) s

end Sys2Proof.Machine
end

