-- ==== Sys2Proof/Machine/Xfer.lean ====
section
/-! DEFINITION. The DMA engines: XFER.COPY, MCAST, ZERO and PREF (R206, R222–R225, R526, R529). -/
namespace Sys2Proof.Machine

/-- Fields of the XFER.COPY immediate (Table 7.12). -/
def xfRows (w : PtiWord) : Nat := bits w.imm.toNat 11 0
def xfCols (w : PtiWord) : Nat := bits w.imm.toNat 23 12
def xfRem (w : PtiWord) : Bool := w.imm.getLsbD 24
def xfLc (w : PtiWord) : Nat := bits w.imm.toNat 42 25
def xfMx (w : PtiWord) : Nat := bits w.imm.toNat 45 43
def xfMxOut (w : PtiWord) : Bool := w.imm.getLsbD 46

/-- The origin of a window word in elements (Table 7.1). -/
def winOrg (v : DWord) : Nat × Nat := (16 * bits v.toNat 19 0, 16 * bits v.toNat 39 20)

/-- Place a window of `rows` × `cols` destination tiles (both 0: all of the destination from the origin) and check it
(R206): status 0 with the window, else ALIGN or LIMIT. -/
def placeWin (dr dc sr sc : Nat) (td ts : Nat × Nat) (sv sw : DWord) (rows cols : Nat) : Nat × Win :=
  let o := winOrg sv
  let p := winOrg sw
  let w : Win :=
    { sr := p.1, sc := p.2, dr := o.1, dc := o.2
      nr := if rows = 0 ∧ cols = 0 then dr - o.1 else min (rows * td.1) (dr - o.1)
      nc := if rows = 0 ∧ cols = 0 then dc - o.2 else min (cols * td.2) (dc - o.2) }
  if o.1 % td.1 ≠ 0 ∨ o.2 % td.2 ≠ 0 ∨ p.1 % ts.1 ≠ 0 ∨ p.2 % ts.2 ≠ 0 then (0x09, w)
  else if decide (rows = 0) != decide (cols = 0) then (0x08, w)
  else if dr < o.1 + (rows - 1) * td.1 + 1 ∨ dc < o.2 + (cols - 1) * td.2 + 1 then (0x08, w)
  else if w.nr = 0 ∨ w.nc = 0 ∨ sr < p.1 + w.nr ∨ sc < p.2 + w.nc then (0x08, w)
  else (0, w)

/-- The blocks of a destination inside a window, in ascending index. -/
def winBlks (d : Desc) (w : Win) : List Nat := (List.range (nBlocks d)).filter (blkInWin d w.dr w.dc w.nr w.nc)

/-- The source block that an unchanged copy takes for destination block i. -/
def srcIdx (d a : Desc) (w : Win) (i : Nat) : Nat :=
  let t := tileOf d.fmt
  let nd := (gridOf d).2
  (i / nd - w.dr / t.1 + w.sr / t.1) * (gridOf a).2 + (i % nd - w.dc / t.2 + w.sc / t.2)

/-- A block as an unchanged copy writes it (R150, R156): TENSOR and BLOCK of the destination, EPOCH restamped, all else
kept; a block that reads as NAN for a bad header is written as NAN. -/
def copyForm (s : State) (cx : Cx) (d : Desc) (i : Nat) (b : BlkVal) : Formed :=
  let e := tileValid d i
  let h := if b.nan && !b.h.isNan then
      newHdr s cx d i (xField s d cx.step) e.1 e.2 0 (mkFlags false true false
        (decide (e.1 < (tileOf d.fmt).1) || decide (e.2 < (tileOf d.fmt).2)) false false false)
    else { b.h with tensor := d.tensor, block := d.blk0 + i, epoch := s.epoch }
  let inf := decide (d.kind = 2) && !b.nan && match fmtOf d.fmt with
    | some f => (tileVals s d f i b).any EV.isInf
    | none => false
  { h := h, payload := if b.nan then [] else b.payload, scales := if b.nan then [] else b.scales, bad := false, sat := 0,
    nan := b.nan || (b.scales.any (fun c => c == 255)), inf := inf, flush := 0, mblocks := 0 }

/-- Checked reads of source blocks in order, as blocks for their destinations; stops at the first status (R155). -/
def copyReads (cx : Cx) (d a : Desc) (w : Win) : List Nat → State → List (Nat × Formed) → State × Nat × List (Nat × Formed)
  | [], s, acc => (s, 0, acc.reverse)
  | i :: r, s, acc =>
    let x := readBlk s cx a (srcIdx d a w i) false
    if x.status ≠ 0 then (x.st, x.status, []) else copyReads cx d a w r x.st ((i, copyForm x.st cx d i x.blk) :: acc)

/-- CUT that a converting copy carries: the first sequence start of the source within the tile's rows (Table 5.6). -/
def cutOf (d : Desc) (t : TensorVal) (w : Win) (f : Fmt) (i : Nat) : Option Nat :=
  let o := tileOrg d f i
  ((seqStarts t).find? (fun r => decide (o.1 - w.dr + w.sr ≤ r) && decide (r < o.1 - w.dr + w.sr + f.tile.1))).map
    (fun r => r - (o.1 - w.dr + w.sr))

/-- The blocks a converting copy writes (R74, R223): each element converted once; with ACC, the FP32 result added to the
old element with one rounding (R220). -/
def convForms (s : State) (cx : Cx) (o : EngOp) (dd : Desc) (f : Fmt) (w : Win) (ta : TensorVal) (old : Option TensorVal) :
    List (Nat × Formed) :=
  let inw := fun r c => decide (w.dr ≤ r) && decide (w.dc ≤ c) && decide (r < w.dr + w.nr) && decide (c < w.dc + w.nc)
  let valid := fun r c => inw r c && tvValid ta (r - w.dr + w.sr) (c - w.dc + w.sc)
  let val := fun r c =>
    let v := tvAt ta (r - w.dr + w.sr) (c - w.dc + w.sc)
    match old with
    | some t => rne (evAdd (tvAt t r c) (rne v))
    | none => v
  (winBlks dd w).map (fun i =>
    (i, formTile s cx dd f (rndInto f old.isSome (wRnd o.w)) (wOvf o.w) valid val (cutOf dd ta w f) i))

/-- The two formats need no conversion: FMT, LAYOUT and scale axis are equal and nothing accumulates (R223). -/
def copySame (o : EngOp) (dd da : Desc) : Bool :=
  decide (dd.fmt = da.fmt) && decide (dd.layout = da.layout) && !wAcc o.w && (fmtOf dd.fmt).isSome

/-- What a COPY writes, block by block, after every check and every read; else its status. -/
def copyForms (s : State) (cx : Cx) (o : EngOp) (dd da : Desc) : State × Nat × List (Nat × Formed) :=
  match fmtOf dd.fmt, fmtOf da.fmt with
  | some f, some fa =>
    if wAcc o.w && decide (f ≠ .fp32) then (s, 0x0F, [])
    else if !copySame o dd da && !convOk fa f then (s, 0x07, [])
    else
      let p := placeWin dd.rows dd.cols da.rows da.cols f.tile fa.tile o.sc o.sb (xfRows o.w) (xfCols o.w)
      if p.1 ≠ 0 then (s, p.1, [])
      else if copySame o dd da then copyReads cx dd da p.2 (winBlks dd p.2) s []
      else
        let (s1, st, ta) := readWin s cx da p.2.sr p.2.sc p.2.nr p.2.nc
        if st ≠ 0 then (s1, st, [])
        else if wAcc o.w then
          let (s2, st2, old) := readWin s1 cx dd p.2.dr p.2.dc p.2.nr p.2.nc
          if st2 ≠ 0 then (s2, st2, []) else (s2, 0, convForms s2 cx o dd f p.2 ta (some old))
        else (s1, 0, convForms s1 cx o dd f p.2 ta none)
  | _, _ => (s, 0x0F, [])

/-- What a COPY from MX memory writes, block by block, and the micro-blocks re-rounded; else its status (R91, R223). -/
def copyMxIn (s : State) (cx : Cx) (o : EngOp) (dd da : Desc) (f : Fmt) : State × Nat × List (Nat × Formed) × Nat :=
  let m := mxSrcOf da f
  if wAcc o.w ∨ fmtOf dd.fmt ≠ some f ∨ dd.scaling = false ∨ dd.axis ≠ m.axis then (s, 0x07, [], 0)
  else
    let p := placeWin dd.rows dd.cols da.rows da.cols f.tile (16, 16) o.sc o.sb (xfRows o.w) (xfCols o.w)
    if p.1 ≠ 0 then (s, p.1, [], 0)
    else
      match mxAcc s m false with
      | some e => (raiseAcc s e cx.wh cx.step, e.status, [], 0)
      | none =>
        let bs := (winBlks dd p.2).map (fun i => (i, mxForm s cx m dd f p.2 i))
        (s, 0, bs.map (fun b => (b.1, b.2.1)), bs.foldl (fun n b => n + b.2.2) 0)

/-- What a COPY writes as blocks, from a tensor or from MX memory: its status, the blocks, the micro-blocks re-rounded. -/
def copyBlks (s : State) (cx : Cx) (o : EngOp) (dd da : Desc) : State × Nat × List (Nat × Formed) × Nat :=
  match mxFmt (xfMx o.w) with
  | some f => copyMxIn s cx o dd da f
  | none =>
    let (s1, st, bs) := copyForms s cx o dd da
    (s1, st, bs, 0)

/-- A COPY to MX memory (R92, R223). -/
def copyMxOut (s : State) (cx : Cx) (o : EngOp) (dd da : Desc) (f : Fmt) : State × Nat :=
  let m := mxSrcOf dd f
  match fmtOf da.fmt with
  | some fa =>
    if wAcc o.w || !fa.scaled then (s, 0x07)
    else
      let p := placeWin dd.rows dd.cols da.rows da.cols f.tile fa.tile o.sc o.sb (xfRows o.w) (xfCols o.w)
      if p.1 ≠ 0 then (s, p.1)
      else
        let w := p.2
        let (s1, st, ta) := readWin s cx da w.sr w.sc w.nr w.nc
        if st ≠ 0 then (s1, st)
        else match mxAcc s1 m true with
          | some e => (raiseAcc s1 e cx.wh cx.step, e.status)
          | none =>
            let inw := fun r c => decide (w.dr ≤ r) && decide (w.dc ≤ c) && decide (r < w.dr + w.nr) && decide (c < w.dc + w.nc)
            (writeMx s1 cx dd m inw (fun r c => tvAt ta (r - w.dr + w.sr) (c - w.dc + w.sc)), 0)
  | none => (s, 0x0F)

/-- A COPY within the module (R223). -/
def copyLocal (s : State) (cx : Cx) (o : EngOp) (dd da : Desc) : State × Nat :=
  if xfMx o.w = 7 then (s, 0x07)
  else
    match mxFmt (xfMx o.w), xfMxOut o.w with
    | some f, true => copyMxOut s cx o dd da f
    | _, _ =>
      let (s1, st, bs, n) := copyBlks s cx o dd da
      if st ≠ 0 then (s1, st)
      else match wrChk s1 dd (bs.map (·.1)) with
        | some e => (raiseAcc s1 e cx.wh cx.step, e.status)
        | none => (mxReport (storeForms cx dd bs s1) cx n, 0)

/-- A BLOCK frame of a block for an address in another module (Table 11.5, R526, R529). -/
def blockFrame (s : State) (q step lc die addr ms : Nat) (h : Hdr) (payload scales : List Byte) : Frame :=
  let h1 := { h with crc := blkCrc h payload scales }
  let m := if h.headOnly ∨ !h.scaling then 0 else ms
  mkFrame s tyBlock lc die false (q / 64) false step s.epoch (m % u32Mod)
    (leBytes 8 (addr % 2 ^ 48 + m / u32Mod % 65536 * 2 ^ 48) ++ wireBlk h1 scales payload)

/-- The die that a destination address in another module lies at: that of its window, else 0. -/
def wireDie (s : State) (a : Nat) : Nat := (dieOf s a).getD 0

/-- A COPY to another module sends its blocks in the sequencer's stream (R223, R526); it completes when they have landed.
Gives its status so far. -/
def copyRemote (s : State) (cx : Cx) (o : EngOp) (dd da : Desc) : State × Nat :=
  if wAcc o.w then (s, 0x10)
  else if xfMx o.w = 7 ∨ (xfMx o.w ≠ 0 ∧ xfMxOut o.w) then (s, 0x07)
  else if !canSend s (xfLc o.w) then (xlatInvalid s (xfLc o.w) cx.wh cx.step, 0x11)
  else
    let (s1, st, bs, n) := copyBlks s cx o dd da
    if st ≠ 0 then (s1, st)
    else (bs.foldl (fun t x => emit (formCounts t cx dd x.1 x.2)
      (blockFrame t o.q o.step (xfLc o.w) (wireDie t (blkAddr dd x.1)) (blkAddr dd x.1) (msAddr dd x.1) x.2.h x.2.payload
        x.2.scales) (.op o.no) 0) (mxReport s1 cx n), 0)

/-- The checks of an XFER that come first: descriptors (R176), accumulation under DET = 1 (R220). -/
def xferPre (s : State) (o : EngOp) : Nat :=
  if opDescBad o then 0x01 else if o.op = .xferCopy ∧ wAcc o.w ∧ detNow s then 0x0D else 0

/-- Start a COPY to another module: the instruction waits, sent, with its status so far. -/
def copyStart (s : State) (o : EngOp) : State :=
  let x := match o.dd, o.da with
    | some dd, some da => if xferPre s o ≠ 0 then (s, xferPre s o) else copyRemote s (opCx o true) o dd da
    | _, _ => (s, 0x01)
  setOp x.1 { o with phase := .sent, status := x.2 }

/-- The shared stores that an MCAST writes: dies of IMM, clusters of sM. -/
def mcastQs (o : EngOp) : List Nat :=
  (List.range 256).filter (fun q => o.w.imm.getLsbD (q / 64) && o.sc.getLsbD (q % 64))

/-- dD of an MCAST as a tensor of one shared store: BASE and SB are offsets within the store. -/
def mcastDesc (d : Desc) (q : Nat) : Desc := { d with base := sharedBase q + d.base, sb := sharedBase q + d.sb }

/-- First byte past the block-addressable part of a shared store: 63Z/64 with Z = 2 MiB (Table 5.2). -/
def sharedEnd : Nat := 0x1F8000

/-- MCAST: each block read once and written to every named store (R224). -/
def mcastExec (s : State) (cx : Cx) (o : EngOp) (dd da : Desc) : State × Nat :=
  match fmtOf dd.fmt, fmtOf da.fmt with
  | some f, some fa =>
    if f ≠ fa ∨ dd.layout ≠ da.layout then (s, 0x07)
    else if dd.base % 2048 ≠ 0 ∨ (descMs dd ≠ 0 ∧ dd.sb % 64 ≠ 0) then (s, 0x09)
    else if sharedEnd < dd.base + 2048 * nBlocks dd ∨ (descMs dd ≠ 0 ∧ sharedEnd < dd.sb + descMs dd * nBlocks dd) then (s, 0x0A)
    else if (setBits 4 o.w.imm.toNat).any (fun d => !dieIn s d) then (s, 0x0B)
    else
      let p := placeWin dd.rows dd.cols da.rows da.cols f.tile fa.tile 0 o.sb 0 0
      if p.1 ≠ 0 then (s, p.1)
      else
        let (s1, st, bs) := copyReads cx dd da p.2 (winBlks dd p.2) s []
        if st ≠ 0 then (s1, st)
        else ((mcastQs o).foldl (fun t q => storeForms cx (mcastDesc dd q) bs t) s1, 0)
  | _, _ => (s, 0x0F)

/-- ZERO: a ZERO header for every block (R225). -/
def zeroExec (s : State) (cx : Cx) (dd : Desc) : State × Nat :=
  if (fmtOf dd.fmt).isNone then (s, 0x0F)
  else match wrChk s dd (List.range (nBlocks dd)) with
    | some e => (raiseAcc s e cx.wh cx.step, e.status)
    | none => ((List.range (nBlocks dd)).foldl (fun t i => writeZero t cx dd i (tileValid dd i).1 (tileValid dd i).2) s, 0)

/-- Read one block into the region cache: header, payload and micro-scales (R225, R259). -/
def prefBlk (cx : Cx) (d : Desc) (s : State) (i : Nat) : State :=
  let a := blkAddr d i
  let s1 := traffic s cx.rg d.hint (hdrAddr s (xlatPage s a)) 32 false
  if (parseHdr (memBytes s (hdrAddr s (xlatPage s a)) 32)).headOnly then s1
  else
    let s2 := traffic s1 cx.rg d.hint (xlatPage s a) 2048 false
    if descMs d = 0 then s2 else traffic s2 cx.rg d.hint (xlatPage s (msAddr d i)) (descMs d) false

/-- PREF: reads through the region cache; nothing is consumed, so no block is checked (Table 7.11, R225, R259). -/
def prefExec (s : State) (cx : Cx) (da : Desc) : State × Nat :=
  match (List.range (nBlocks da)).findSome? (fun i => blkChk s da i false) with
  | some e => (raiseAcc s e cx.wh cx.step, e.status)
  | none => ((List.range (nBlocks da)).foldl (prefBlk cx da) s, 0)

/-- A transfer within the module, with its completion status. -/
def xferRun (s : State) (o : EngOp) : State × Nat :=
  let cx := opCx o true
  if xferPre s o ≠ 0 then (s, xferPre s o)
  else
    match o.op, o.dd, o.da with
    | .xferCopy, some dd, some da => copyLocal s cx o dd da
    | .xferMcast, some dd, some da => mcastExec s cx o dd da
    | .xferZero, some dd, _ => zeroExec s cx dd
    | .xferPref, _, some da => prefExec s cx da
    | _, _, _ => (s, 0x01)

/-- An instruction whose frames have been sent has ended: nothing of it is outstanding, or it has failed. -/
def sentDone (s : State) (o : EngOp) : Bool :=
  decide (o.phase = .sent) && (!outstanding s (.op o.no) || decide (o.status ≠ 0) || decide (statOf s (.op o.no) = 0x12))

/-- Status of an instruction whose frames have been sent: its own, else what receivers or a timeout gave (R336, R527). -/
def sentStat (s : State) (o : EngOp) : Nat := if o.status ≠ 0 then o.status else statOf s (.op o.no)

/-- The transfer runs within the module. -/
def xferLocal (o : EngOp) : Bool := decide (o.op ≠ .xferColl) && !(decide (o.op = .xferCopy) && xfRem o.w)

/-- An engine may finish this instruction: a transfer within the module whose stream is free, or one that has landed. -/
def xferMay (s : State) (o : EngOp) : Bool := decide (o.op ≠ .xferColl) && (xferLocal o && streamFree s o || sentDone s o)

/-- Issue to a DMA engine of the region: a TGT above 3 gives LIMIT (Table 7.2). -/
def xferIssue (op : PtiOp) (q : Nat) (w : PtiWord) (s : State) : State :=
  let e := Eng.dma (q / 16) w.tgt.toNat
  if 3 < w.tgt.toNat then issueFail q e op w 0x08 s else enqueueOp q e op w s

end Sys2Proof.Machine
end

