-- ==== Sys2Proof/Machine/Coll.lean ====
section
/-! DEFINITION. The collective engine of the hub (R225, R337–R343) and the fold compare that it runs (R357). -/
namespace Sys2Proof.Machine

/-! ## Geometry -/

/-- Rank that owns block index i (R339): the floor formula, or ROOT. -/
def Coll.owner (c : Coll) (i : Nat) : Nat :=
  if c.op = 3 ∨ c.op = 4 then c.root else i * c.members.length / c.nblk

/-- The collective reduces: ALLREDUCE, REDUCE_SCATTER, REDUCE. -/
def Coll.reduces (c : Coll) : Bool := decide (c.op = 0) || decide (c.op = 1) || decide (c.op = 4)

/-- The owner's result travels to every member: ALLREDUCE, ALLGATHER, BROADCAST. -/
def Coll.gathers (c : Coll) : Bool := decide (c.op = 0) || decide (c.op = 2) || decide (c.op = 3)

/-- Next rank on the ring of block index i: ascending for even i, descending for odd (R339). -/
def Coll.next (c : Coll) (i r : Nat) : Nat :=
  let n := c.members.length
  if i % 2 = 0 then (r + 1) % n else (r + n - 1) % n

/-- The rank before on that ring. -/
def Coll.prev (c : Coll) (i r : Nat) : Nat :=
  let n := c.members.length
  if i % 2 = 0 then (r + n - 1) % n else (r + 1) % n

/-- The rank whose contribution comes first: the one after the owner (R339). -/
def Coll.starter (c : Coll) (i : Nat) : Nat := c.next i (c.owner i)

/-- Frames that a partial sum of one destination block takes: FP32 parts of 512 elements; one for OR (log 46). -/
def Coll.subs (c : Coll) : Nat := if c.red = 3 then 1 else max 1 (((fmtOf c.dd.fmt).map Fmt.dense).getD 512 / 512)

/-- FP32 blocks that carry parts of a sum. -/
def Coll.partDesc (c : Coll) : Desc :=
  { c.sd with fmt := 0x19, scaling := false, axis := false, zpm := 0, kind := 0, est := 0xFFFF, rows := 16, cols := 32 }

/-- Who the engine's accesses are. -/
def Coll.cx (c : Coll) : Cx := { wh := whHub, step := c.step, die := c.q / 64 % 4, rg := none, ins := c.no + 1 }

/-! ## Contributions -/

/-- Values of this module's contribution to destination block index i, rounded once to FP32 (R339). -/
def contribVals (s : State) (c : Coll) (i : Nat) : State × Nat × List EV :=
  match fmtOf c.dd.fmt with
  | none => (s, 0x0F, [])
  | some f =>
    let o := tileOrg c.dd f (c.first + i)
    let (s1, st, t) := readWin s c.cx c.sd o.1 o.2 f.tile.1 f.tile.2
    (s1, st, (List.range f.dense).map (fun k => rne (tvAt t (o.1 + k / f.tile.2) (o.2 + k % f.tile.2))))

/-- Part k of a list of values. -/
def partVals (l : List EV) (k : Nat) : List EV := (List.range 512).map (fun j => l.getD (512 * k + j) evZero)

/-- A part of a sum as an FP32 block (log 46): BLOCK is block × parts + part. -/
def partForm (s : State) (c : Coll) (i k : Nat) (l : List EV) : Formed :=
  formBlk s c.cx c.partDesc .fp32 ((c.first + i) * c.subs + k)
    { rnd := fun _ => .rne, ovf := true, vrows := 16, vcols := 32, cut := none } l

/-- The 2,048 payload bytes of an OR contribution; none for a NAN block. -/
def orPayload (s : State) (c : Coll) (i : Nat) : State × Nat × Option (List Byte) :=
  match c.fold with
  | some (_, l) => (s, 0, some (padTo 2048 l))
  | none =>
    let x := readBlk s c.cx c.sd (c.first + i) true
    (x.st, x.status, if x.blk.nan then none else some (padTo 2048 x.blk.payload))

/-- An INT8 or INT4 block of an OR: ZERO when every code is zero, NAN when a contribution was. -/
def orForm (s : State) (c : Coll) (d : Desc) (i : Nat) (p : Option (List Byte)) : Formed :=
  let v := match c.fold with
    | some _ => (2, 64)
    | none => tileValid d (c.first + i)
  let zero := p == some (List.replicate 2048 0)
  let len := decide (v.1 < (tileOf d.fmt).1) || decide (v.2 < (tileOf d.fmt).2)
  let x := if c.fold.isSome then f32One else xField s d c.step
  { h := newHdr s c.cx d (c.first + i) x v.1 v.2 0 (mkFlags zero p.isNone false len false false false)
    payload := if zero then [] else p.getD [], scales := [], bad := false, sat := 0, nan := p.isNone, inf := false, flush := 0, mblocks := 0 }

/-- The bitwise OR of two payloads; a NAN makes NAN. -/
def orBytes (a b : Option (List Byte)) : Option (List Byte) :=
  match a, b with
  | some x, some y => some (List.zipWith (· ||| ·) x y)
  | _, _ => none

/-- One more contribution to a partial sum (R339, R84). -/
def redAdd (c : Coll) (acc own : EV) : EV :=
  match c.red with
  | 1 => vMax acc own
  | 2 => vMin acc own
  | _ => (roundAcc c.satm (evAdd acc own)).1

/-! ## Frames -/

/-- Body of a COLL frame (Table 11.5). -/
def collBody (rank phase : Nat) (blk : List Byte) : List Byte := leBytes 4 rank ++ leBytes 1 phase ++ [0, 0, 0] ++ blk

/-- A formed block as it travels. -/
def Formed.wire (b : Formed) : List Byte := wireBlk { b.h with crc := blkCrc b.h b.payload b.scales } b.scales b.payload

/-- Epoch of a collective's frames: 0 for one of no step (R33). -/
def Coll.epochOf (c : Coll) (s : State) : Nat := if c.step = 0 then 0 else s.epoch

/-- Send a block of a collective to the next rank of its ring. A ZERO block of a sparse collective travels as a ZRUN frame
(R342), whose address field holds the phase (log 46). This module's own contribution is journaled, a partial sum or a
result is not (Table 13.1). -/
def collSend (s : State) (c : Coll) (i phase : Nat) (own : Bool) (blk : List Byte) : State :=
  let lc := c.members.getD (c.next i c.rank) 0
  let h := parseHdr blk
  let f := if c.sparse && h.isZero then
      mkFrame s tyZrun lc 0 false 0 true c.step (c.epochOf s) c.collid (leBytes 8 phase ++ blk.take 32 ++ leBytes 4 1)
    else mkFrame s tyColl lc 0 false 0 true c.step (c.epochOf s) c.collid (collBody c.rank phase blk)
  if own then emit s f (.coll c.no) c.collid else sendSeq s f (.coll c.no) c.collid

/-! ## Progress of one collective. The record is threaded beside the state and put back at the end -/

/-- A member whose read or write failed ends its part with a status. -/
def collFail (x : State × Coll) (st : Nat) : State × Coll :=
  (x.1, { x.2 with status := if x.2.status = 0 then st else x.2.status })

/-- Write a result block into DST, and count its NAN or infinity for the vote (R291). -/
def collStore (x : State × Coll) (i : Nat) (b : Formed) : State × Coll :=
  let s := x.1
  let c := x.2
  match c.fold with
  | some (m, _) => (s, { c with fin := i :: c.fin, fold := some (m, (padTo 2048 b.payload).take 128) })
  | none =>
    match blkChk s c.dd (c.first + i) true with
    | some e => collFail (raiseAcc s e whHub c.step, c) e.status
    | none =>
      (formCounts (storeBlk s c.cx c.dd (c.first + i) b.h b.payload b.scales) c.cx c.dd (c.first + i) b,
       { c with fin := i :: c.fin })

/-- The owner's result stands: write it, and send it on when every member takes it. -/
def collResult (x : State × Coll) (i : Nat) (b : Formed) : State × Coll :=
  let y := collStore x i b
  if x.2.gathers && decide (1 < x.2.members.length) then (collSend y.1 y.2 i 1 false b.wire, y.2) else y

/-- The result block from the reduced values (R339): one conversion under RND and SATM. -/
def resultForm (s : State) (c : Coll) (i : Nat) (l : List EV) : Formed :=
  match fmtOf c.dd.fmt with
  | some f =>
    let v := tileValid c.dd (c.first + i)
    formBlk s c.cx c.dd f (c.first + i)
      { rnd := fun _ => rndOf c.rnd, ovf := c.satm, vrows := v.1, vcols := v.2, cut := none } l
  | none => orForm s c c.dd i none

/-- The part of block index i that this member contributes first, or the owner's whole block where nothing is reduced. -/
def collBegin (x : State × Coll) (i : Nat) : State × Coll :=
  let s := x.1
  let c := x.2
  let n := c.members.length
  if c.status ≠ 0 then x
  else if (!c.reduces || decide (n = 1)) && decide (c.owner i = c.rank) then
    if c.red = 3 && c.reduces then
      let (s1, st, p) := orPayload s c i
      if st ≠ 0 then collFail (s1, c) st else collResult (s1, c) i (orForm s1 c c.dd i p)
    else
      let (s1, st, l) := contribVals s c i
      if st ≠ 0 then collFail (s1, c) st else collResult (s1, c) i (resultForm s1 c i l)
  else if c.reduces && decide (1 < n) && decide (c.starter i = c.rank) then
    if c.red = 3 then
      let (s1, st, p) := orPayload s c i
      if st ≠ 0 then collFail (s1, c) st
      else (collSend s1 c i 0 true (orForm s1 c c.sd i p).wire, { c with sent := (i, 0) :: c.sent })
    else
      let (s1, st, l) := contribVals s c i
      if st ≠ 0 then collFail (s1, c) st
      else
        ((List.range c.subs).foldl (fun t k => collSend t c i 0 true (partForm t c i k (partVals l k)).wire) s1,
         { c with sent := (List.range c.subs).map (fun k => (i, k)) ++ c.sent })
  else x

/-- A received block as its consumer holds it: a bad header reads as NAN (R152). -/
def wireVal (blk : List Byte) : BlkVal :=
  let r := unwireBlk blk
  if badHdr r.h then { h := r.h, nan := true, payload := [], scales := [] }
  else { h := r.h, nan := r.h.isNan, payload := r.payload, scales := r.scales }

/-- What the header of a received block i raises (R152). -/
def wireChk (s : State) (c : Coll) (i : Nat) (blk : List Byte) : State :=
  if badHdr (unwireBlk blk).h then badHeader s c.cx c.dd (c.first + i) else s

/-- The values of a received FP32 part. -/
def partOf (s : State) (c : Coll) (blk : List Byte) : List EV := tileVals s c.partDesc .fp32 0 (wireVal blk)

/-- The payload of a received OR block. -/
def orOf (blk : List Byte) : Option (List Byte) :=
  let b := wireVal blk
  if b.nan then none else some (padTo 2048 b.payload)

/-- Part k of block index i has come to its owner: once the block is whole the owner adds its own word last and forms the
result (R339). -/
def collOwn (x : State × Coll) (i k : Nat) (blk : List Byte) : State × Coll :=
  let s := x.1
  let c := x.2
  if c.red = 3 then
    let (s1, st, p) := orPayload s c i
    if st ≠ 0 then collFail (s1, c) st else collResult (s1, c) i (orForm s1 c c.dd i (orBytes (orOf blk) p))
  else
    let ps := { i := i, k := k, bytes := blk } :: c.parts.filter (fun p => !(decide (p.i = i) && decide (p.k = k)))
    let mine := ps.filter (fun p => decide (p.i = i))
    if mine.length < c.subs then (s, { c with parts := ps })
    else
      let (s1, st, l) := contribVals s c i
      if st ≠ 0 then collFail (s1, c) st
      else
        let acc := (List.range c.subs).flatMap (fun j =>
          match mine.find? (fun p => decide (p.k = j)) with
          | some p => partOf s1 c p.bytes
          | none => [])
        let c1 := { c with parts := ps.filter (fun p => !decide (p.i = i)) }
        collResult (s1, c1) i (resultForm s1 c1 i (List.zipWith (redAdd c) acc l))

/-- Part k of block index i passes this member, which adds its own contribution and sends it on. -/
def collPass (x : State × Coll) (i k : Nat) (blk : List Byte) : State × Coll :=
  let s := x.1
  let c := x.2
  if c.red = 3 then
    let (s1, st, p) := orPayload s c i
    if st ≠ 0 then collFail (s1, c) st
    else (collSend s1 c i 0 false (orForm s1 c c.sd i (orBytes (orOf blk) p)).wire, { c with sent := (i, k) :: c.sent })
  else
    let (s1, st, l) := contribVals s c i
    if st ≠ 0 then collFail (s1, c) st
    else
      (collSend s1 c i 0 false (partForm s1 c i k (List.zipWith (redAdd c) (partOf s1 c blk) (partVals l k))).wire,
       { c with sent := (i, k) :: c.sent })

/-- A result block comes by: this member writes the same bits and sends them on, until they are back before the owner. -/
def collGather (x : State × Coll) (i : Nat) (blk : List Byte) : State × Coll :=
  let c := x.2
  let b := wireVal blk
  let f := copyForm x.1 c.cx c.dd (c.first + i) b
  let y := collStore x i { f with h := b.h }
  if c.next i c.rank = c.owner i then y else (collSend y.1 y.2 i 1 false blk, y.2)

/-- One block of a COLL or ZRUN frame from rank `rank`: not from the ring's predecessor, outside the collective or seen
before, it is discarded; the Bool tells that it was taken. -/
def collBlk (x : State × Coll) (rank phase : Nat) (blk : List Byte) : State × Coll × Bool :=
  let c := x.2
  let b := (parseHdr blk).block
  let k := if phase = 0 then b % c.subs else 0
  let n := if phase = 0 then b / c.subs else b
  let i := n - c.first
  let x1 := (wireChk x.1 c i blk, c)
  if n < c.first ∨ c.nblk ≤ i ∨ rank ≠ c.prev i c.rank then (x.1, x.2, false)
  else if c.status ≠ 0 then (x.1, x.2, true)
  else if phase = 0 then
    if !c.reduces || c.starter i = c.rank || c.sent.contains (i, k) || c.fin.contains i then (x.1, x.2, false)
    else
      let y := if c.owner i = c.rank then collOwn x1 i k blk else collPass x1 i k blk
      (y.1, y.2, true)
  else if !c.gathers || c.owner i = c.rank || c.fin.contains i then (x.1, x.2, false)
  else
    let y := collGather x1 i blk
    (y.1, y.2, true)

/-- The blocks a ZRUN frame stands for: ZERO headers with rising BLOCK (R342). -/
def zrunBlks (h : Hdr) (n : Nat) : List (List Byte) :=
  (List.range n).map (fun t =>
    let g := { h with block := (h.block + t) % u32Mod }
    hdrBytes { g with crc := crc32c (hdrBody g) })

/-- Put a collective's record back. -/
def setColl (s : State) (c : Coll) : State := { s with colls := s.colls.map (fun x => if x.no = c.no then c else x) }

/-- The blocks of a COLL or ZRUN frame, with phase and sender rank. -/
def collItems (c : Coll) (f : Frame) : Nat × Nat × List (List Byte) :=
  if f.ty = tyColl then (leAt f.body 0 4, leAt f.body 4 1, [f.body.drop 8])
  else
    ((c.members.findIdx? (fun m => m == adLc f.src)).getD c.members.length, leAt f.body 0 8,
     zrunBlks (parseHdr (slice f.body 8 32)) (min 65536 (leAt f.body 40 4)))

/-- A frame of a collective in flight; a frame none of whose blocks is taken counts in LNK_DROP of link `l`. -/
def collTake (s : State) (l : Nat) (c : Coll) (f : Frame) : State :=
  let it := collItems c f
  let y := it.2.2.foldl (fun (x : State × Coll × Bool) b =>
    let z := collBlk (x.1, x.2.1) it.1 it.2.1 b
    (z.1, z.2.1, x.2.2 || z.2.2)) (s, c, false)
  let s1 := setColl y.1 y.2.1
  if y.2.2 then s1 else dropAt s1 l

/-- The collective that a frame belongs to. -/
def collFind (s : State) (f : Frame) : Option Coll :=
  s.colls.find? (fun c => decide (c.collid = f.arg) && decide (c.step = f.step) && decide (c.op ≠ 5))

/-- Frames that came before the collective started here are taken now, in their order. -/
def collCatchUp (s : State) (c : Coll) : State :=
  let mine := fun (f : Frame) => decide (f.ty ≠ tyVote) && decide (f.arg = c.collid) && decide (f.step = c.step)
  let fs := s.collIn.filter mine
  fs.foldl (fun t f => match collFind t f with
    | some d => collTake t 6 d f
    | none => t) { s with collIn := s.collIn.filter (fun f => !mine f) }

/-! ## Start -/

/-- Send a barrier's VOTE frame to the next rank (R340). -/
def barrierSend (s : State) (c : Coll) : State :=
  hubSend s (mkFrame s tyVote (c.members.getD (nextRank c.members c.rank) 0) 0 true 0 true c.step (c.epochOf s) c.collid
    (voteBody c.step 0 0 1)) (.coll c.no) c.collid

/-- A barrier's frame reaches this member: one more pass, sent on unless it is rank 0's second (R340). A frame that is not
from the ring's predecessor counts in LNK_DROP. -/
def barrierTake (s : State) (l : Nat) (c : Coll) (f : Frame) : State :=
  let n := c.members.length
  if adLc f.src ≠ c.members.getD ((c.rank + n - 1) % n) 0 ∨ 2 ≤ c.passes then dropAt s l
  else
    let c1 := { c with passes := c.passes + 1 }
    let s1 := setColl s c1
    if c.rank ≠ 0 ∨ c1.passes < 2 then barrierSend s1 c1 else s1

/-- The barrier in flight that a VOTE frame of kind 1 belongs to. -/
def barrierFind (s : State) (f : Frame) : Option Coll :=
  s.colls.find? (fun c => decide (c.collid = f.arg) && decide (c.step = f.step) && decide (c.op = 5))

/-- Barrier frames that came before the barrier started here. -/
def barrierCatchUp (s : State) (c : Coll) : State :=
  let mine := fun (f : Frame) => decide (f.ty = tyVote) && decide (f.arg = c.collid) && decide (f.step = c.step)
  (s.collIn.filter mine).foldl (fun t f => match barrierFind t f with
    | some d => barrierTake t 6 d f
    | none => t) { s with collIn := s.collIn.filter (fun f => !mine f) }

/-- Start a collective: its record, the frames that are this member's to start, and what waited for it. -/
def collBeginAll (s : State) (c : Coll) : State :=
  let n := c.members.length
  let s1 := { s with colls := s.colls ++ [c] }
  if c.op = 5 then
    if n = 1 then setColl s1 { c with passes := 2 }
    else
      barrierCatchUp (if c.rank = 0 then barrierSend s1 c else s1) c
  else
    let y := (List.range c.nblk).foldl collBegin (s1, c)
    collCatchUp (setColl y.1 y.2) y.2

/-- A collective descriptor as its 64 bytes (Table 11.6), with the two tensor descriptors it names and their X as of its
start (R179). -/
def parseColl (s : State) (o : EngOp) (l : List Byte) (ms : List Nat) (rank : Nat) : Coll :=
  { no := o.no, q := o.q, step := o.step, op := leAt l 0 1, red := leAt l 1 1, sparse := bitAt (leAt l 2 1) 0,
    satm := bitAt (leAt l 2 1) 1, rnd := bits (leAt l 2 1) 3 2, members := ms, rank := rank, root := leAt l 0x18 4,
    collid := leAt l 0x1C 4, first := leAt l 0x20 4, nblk := leAt l 0x24 4,
    sd := (parseDesc (leAt l 8 8) (rdBytes s (leAt l 8 8) 64)).readX s o.step
    dd := (parseDesc (leAt l 0x10 8) (rdBytes s (leAt l 0x10 8) 64)).readX s o.step
    fin := [], parts := [], sent := [], passes := 0, status := 0, fold := none }

/-- The limits and formats of a collective (R337, R338). -/
def collChk (c : Coll) : Nat :=
  if 5 < c.op ∨ (c.op ≠ 5 ∧ 3 < c.red) ∨ 1 < c.rnd then 0x08
  else if c.op = 5 then 0
  else if c.sd.rows ≠ c.dd.rows ∨ c.sd.cols ≠ c.dd.cols then 0x08
  else if c.nblk = 0 ∨ 2 ^ 24 < c.nblk ∨ nBlocks c.dd < c.first + c.nblk then 0x08
  else if (c.op = 3 ∨ c.op = 4) ∧ c.members.length ≤ c.root then 0x08
  else
    match fmtOf c.sd.fmt, fmtOf c.dd.fmt with
    | some a, some b =>
      if c.reduces && decide (c.red = 3) then
        if a ≠ b ∨ !a.isInt ∨ c.sd.scaling ∨ c.dd.scaling then 0x0F else 0
      else if !convOk a .fp32 || !convOk .fp32 b then 0x07 else 0
    | _, _ => 0x0F

/-- The ring neighbours that a collective sends to (R339, R340). -/
def collPeers (c : Coll) : List Nat :=
  let n := c.members.length
  if n ≤ 1 then []
  else if c.op = 5 then [c.members.getD (nextRank c.members c.rank) 0]
  else [c.members.getD (c.next 0 c.rank) 0, c.members.getD (c.next 1 c.rank) 0]

/-- Start XFER.COLL at the hub: the descriptor at sA, its group, its checks (R225, R337, R338). Gives a status. -/
def collOpen (s : State) (o : EngOp) : State × Nat :=
  let a := o.sa.toNat
  match accChk s a false, accChk s (a + 63) false with
  | some e, _ => (raiseAcc s e (whClu o.q) o.step, e.status)
  | none, some e => (raiseAcc s e (whClu o.q) o.step, e.status)
  | none, none =>
    let l := rdBytes s a 64
    match grpMembers s (leAt l 4 4) with
    | none => (s, 0x08)
    | some ms =>
      match rankIn s ms with
      | none => (s, 0x08)
      | some r =>
        let ref := if leAt l 0 1 = 5 then none else
          [leAt l 8 8, leAt l 8 8 + 63, leAt l 0x10 8, leAt l 0x10 8 + 63].findSome? (fun b => accChk s b false)
        match ref with
        | some e => (raiseAcc s e (whClu o.q) o.step, e.status)
        | none =>
          let c := parseColl s o l ms r
          if collChk c ≠ 0 then (s, collChk c)
          else match collPeers c |>.find? (fun lc => !canSend s lc) with
            | some lc => (xlatInvalid s lc (whClu o.q) o.step, 0x11)
            | none => (collBeginAll s c, 0)

/-- Collectives at once (R340). -/
def collMax : Nat := 16

/-- Start an XFER.COLL: it waits, sent, with its status so far. -/
def collStart (s : State) (o : EngOp) : State :=
  let x := collOpen s o
  setOp x.1 { o with phase := .sent, status := x.2 }

/-! ## Completion -/

/-- Every block that this member writes or sends on is done (R225, R339). -/
def collDone (c : Coll) : Bool :=
  if c.op = 5 then decide (2 ≤ c.passes)
  else
    (List.range c.nblk).all (fun i =>
      let own := decide (c.owner i = c.rank)
      (if c.gathers || own then c.fin.contains i else true) &&
        (if c.reduces && !own && decide (1 < c.members.length) then (List.range c.subs).all (fun k => c.sent.contains (i, k)) else true))

/-- The collective has ended here: done with nothing of it on its way, or failed. -/
def collEnded (s : State) (c : Coll) : Bool :=
  decide (c.status ≠ 0) || decide (statOf s (.coll c.no) ≠ 0) || (collDone c && !outstanding s (.coll c.no))

/-- Completion status of a collective: a link failure is COLL_FAIL (R336, R343). -/
def collStat (s : State) (c : Coll) : Nat := if c.status ≠ 0 then c.status else statOf s (.coll c.no)

/-- Remove a collective. -/
def dropColl (s : State) (c : Coll) : State := clearStat { s with colls := s.colls.filter (fun x => x.no != c.no) } (.coll c.no)

end Sys2Proof.Machine
end

