-- ==== Sys2Proof/Machine/Route.lean ====
section
/-! DEFINITION. The routing engine: GATE, DISPATCH and COMBINE (R159–R167, R226). -/
namespace Sys2Proof.Machine

/-- The owner table in force on a die. -/
def ownersOf (s : State) (d : Nat) : List OwnerEnt := smGet (fun _ => []) s.owners d

/-- Read an owner entry (Table 5.8). -/
def parseOwner (l : List Byte) : OwnerEnt :=
  { inBase := leAt l 0 8, inSb := leAt l 8 8, outBase := leAt l 0x10 8, outSb := leAt l 0x18 8, inTensor := leAt l 0x20 4,
    outTensor := leAt l 0x24 4, first := leAt l 0x28 4, lc := leAt l 0x2C 4 % 2 ^ 18, die := bits (leAt l 0x2C 4) 19 18,
    share := leAt l 0x30 4 }

/-- SLOT of an entry without one. -/
def noSlot : Nat := u32Max

/-- An index-list entry as its 16 bytes (Table 5.7). -/
def idxBytes (e : IdxEnt) : List Byte :=
  leBytes 4 e.token ++ leBytes 2 e.expert ++ leBytes 1 e.rank ++ leBytes 1 (b2n e.ovr + 2 * b2n e.nan) ++ leBytes 4 e.weight
    ++ leBytes 4 e.slot

/-- Read an index-list entry. -/
def parseIdx (l : List Byte) : IdxEnt :=
  { token := leAt l 0 4, expert := leAt l 4 2, rank := leAt l 6 1, ovr := bitAt (leAt l 7 1) 0, nan := bitAt (leAt l 7 1) 1,
    weight := leAt l 8 4, slot := leAt l 12 4 }

/-! ## GATE -/

/-- `a` is chosen before `b` at the same rank: larger; ties, with +0 equal to −0, go to the lower index (R160). -/
def gateBefore (a b : Nat × EV) : Bool := (evLt b.2 a.2 && !evEqv a.2 b.2) || (evEqv a.2 b.2 && decide (a.1 < b.1))

/-- The first of a list under that order. -/
def gateBest (l : List (Nat × EV)) : Option (Nat × EV) :=
  l.foldl (fun b x => match b with
    | none => some x
    | some y => if gateBefore x y then some x else some y) none

/-- The k largest, in descending order (R160). -/
def gateTop : Nat → List (Nat × EV) → List (Nat × EV)
  | 0, _ => []
  | k + 1, l => match gateBest l with
    | some x => x :: gateTop k (l.filter (fun y => y.1 != x.1))
    | none => []

/-- Choices of a token: none for a NaN token, else experts and weights in rank order (R160). -/
def gateTok (row : List EV) (k : Nat) (soft : Bool) : Option (List (Nat × EV)) :=
  if row.any EV.isNan then none
  else
    let top := gateTop k (row.mapIdx (fun e v => (e, v)))
    if !soft then some top
    else
      match top with
      | [] => some []
      | g0 :: _ =>
        if g0.2.isInf then none
        else
          let es := top.map (fun g => (g.1, evExp (rne (evSub g.2 g0.2))))
          let sum := match es.map (·.2) with
            | [] => evZero
            | a :: r => r.foldl (fun x y => rne (evAdd x y)) a
          some (es.map (fun g => (g.1, evDiv g.2 sum)))

/-- Emission of one token at one rank (R161). -/
def gateEmit (share : Nat → Nat) (toks : List (Option (List (Nat × EV)))) (r : Nat) (x : SMap Nat × List IdxEnt) (t : Nat) :
    SMap Nat × List IdxEnt :=
  match toks.getD t none with
  | none =>
    if r = 0 then (x.1, { token := t, expert := 0xFFFF, rank := 0, ovr := false, nan := true, weight := f32Of .nan, slot := noSlot } :: x.2)
    else x
  | some cs =>
    match cs[r]? with
    | none => x
    | some (e, w) =>
      let n := smGet (fun _ => 0) x.1 e
      if n < share e then
        (smPut (fun _ => 0) x.1 e (n + 1),
         { token := t, expert := e, rank := r, ovr := false, nan := false, weight := f32Of w, slot := n } :: x.2)
      else (x.1, { token := t, expert := e, rank := r, ovr := true, nan := false, weight := f32Of w, slot := noSlot } :: x.2)

/-- The index list, in emission order. -/
def gateList (share : Nat → Nat) (toks : List (Option (List (Nat × EV)))) (k : Nat) : List IdxEnt :=
  let x := (List.range k).foldl (fun y r => (List.range toks.length).foldl (gateEmit share toks r) y) ([], [])
  x.2.reverse

/-- Block i of the index list (R162). -/
def writeIdx (cx : Cx) (d : Desc) (l : List IdxEnt) (s : State) (i : Nat) : State :=
  let es := (l.drop (128 * i)).take 128
  let h := newHdr s cx d i f32One es.length 1 0 (mkFlags false false false (decide (es.length < 128)) false false false)
  storeBlk s cx d i h (padTo 2048 (es.flatMap idxBytes)) []

/-- k of a GATE. -/
def gateK (w : PtiWord) : Nat := w.imm.toNat % 16

/-- GATE (R159–R162, R164, R167). -/
def gateExec (s : State) (cx : Cx) (o : EngOp) (dI dG : Desc) : State × Nat :=
  let own := ownersOf s cx.die
  let k := gateK o.w
  if k = 0 ∨ 8 < k ∨ 65536 < dG.rows ∨ 4096 < dG.cols ∨ own.length < dG.cols then (s, 0x08)
  else if fmtOf dI.fmt ≠ some .idx ∨ (fmtOf dG.fmt ≠ some .fp32 ∧ fmtOf dG.fmt ≠ some .bf16) then (s, 0x0F)
  else
    let (s1, st, tg) := readTensor s cx dG
    if st ≠ 0 then (s1, st)
    else
      let toks := (List.range dG.rows).map (fun t =>
        gateTok ((List.range dG.cols).map (fun e => tvAt tg t e)) k (o.w.mod.getLsbD 5))
      let l := gateList (fun e => ((own[e]?).map OwnerEnt.share).getD 0) toks k
      if dI.rows < l.length then (s1, 0x08)
      else
        let blks := List.range (ceilDiv l.length 128)
        match wrChk s1 dI blks with
        | some e => (raiseAcc s1 e cx.wh cx.step, e.status)
        | none =>
          let s2 := blks.foldl (writeIdx cx dI l) s1
          let ovr := (l.filter (fun e => e.ovr)).length
          let nan := (toks.filter (fun t => t.isNone)).length
          let resid := ((List.range toks.length).filter (fun t =>
            !(l.any (fun e => decide (e.token = t) && decide (e.slot ≠ noSlot))))).length
          let b := Blk.route cx.die
          let s3 := cntAdd (cntAdd (cntAdd s2 b rRouteOverflow ovr) b rRouteResidual resid) b rRouteNantok nan
          let s4 := raiseIf (decide (0 < ovr)) s3 .routeOverflow cx.wh cx.step [a32 ovr, a32 resid]
          (raiseIf (decide (0 < nan)) s4 .routeNan cx.wh cx.step [], 0)

/-! ## The index list as DISPATCH and COMBINE read it -/

/-- Entries of checked IDX blocks, in order. -/
def idxOf (bs : List BlkVal) : List IdxEnt :=
  bs.flatMap (fun b =>
    if b.nan || b.h.isZero then []
    else (List.range b.h.vrows).map (fun r => parseIdx (slice b.payload (16 * r) 16)))

/-- Read an index list; its entries at or above the owner count are counted and treated as overflowed (R164). -/
def readIdx (s : State) (cx : Cx) (d : Desc) (n : Nat) : State × Nat × List IdxEnt :=
  if fmtOf d.fmt ≠ some .idx then (s, 0x0F, [])
  else
    let (s1, st, bs) := readBlks cx d false (List.range (nBlocks d)) s []
    if st ≠ 0 then (s1, st, [])
    else
      let l := idxOf bs
      let far := fun (e : IdxEnt) => decide (n ≤ e.expert) && decide (e.expert ≠ 0xFFFF) && decide (e.slot ≠ noSlot)
      let k := (l.filter (fun e => decide (n ≤ e.expert) && decide (e.expert ≠ 0xFFFF))).length
      let s2 := cntAdd s1 (.route cx.die) rRouteOverflow k
      (raiseIf (decide (0 < k)) s2 .routeOverflow cx.wh cx.step [a32 k, a32 0], 0,
       l.map (fun e => if far e then { e with ovr := true, slot := noSlot } else e))

/-- Experts that a routing instruction accepts (R159). -/
def expertMax : Nat := 4096

/-- A token tensor that routing accepts (R159): status of one it does not. -/
def tokChk (d : Desc) : Nat :=
  if (fmtOf d.fmt).isNone ∨ fmtOf d.fmt = some .idx then 0x0F
  else if d.scaling ∧ d.axis then 0x0E else if 65536 < d.rows then 0x08 else 0

/-! ## DISPATCH -/

/-- The input region of an expert as a tensor of the token format (R165). -/
def inDesc (d : Desc) (e : OwnerEnt) : Desc :=
  { d with base := e.inBase, sb := e.inSb, tensor := e.inTensor, rows := e.share, kind := 0, est := 0xFFFF, blk0 := e.first }

/-- Source of a slot: token row and weight. -/
def slotTok (l : List IdxEnt) (e slot : Nat) : Option IdxEnt :=
  l.find? (fun x => decide (x.expert = e) && decide (x.slot = slot) && !x.ovr && !x.nan)

/-- Container codes of a checked block, dense, of zero point z: NaN as R73 writes it, by its micro-scale in a BLOCK tile, and zero as z. -/
def denseCodes (f : Fmt) (block : Bool) (z : Nat) (b : BlkVal) : List Nat :=
  if readsNan f b then List.replicate f.dense (if block then 0 else (cvt f .rne false .nan).code)
  else if b.h.isZero then List.replicate f.dense z
  else if bitAt b.h.flags flSparse then sparseDense f (bitAt b.h.flags flPat48) b.payload
  else unpack f.ebits b.payload

/-- Micro-scale codes of a checked block. -/
def scaleCodes (f : Fmt) (b : BlkVal) : List Nat :=
  if readsNan f b then List.replicate f.msBytes 255 else if b.h.isZero then List.replicate f.msBytes 0 else b.scales.map BitVec.toNat

/-- Rows of one destination block: row in the block and the entry whose token fills it. -/
def grpRows (l : List IdxEnt) (e g tr : Nat) : List (Nat × IdxEnt) :=
  (List.range tr).filterMap (fun r => (slotTok l e (g * tr + r)).map (fun x => (r, x)))

/-- Block j = g × HB + h of an expert's region (R165, R226): the block, and the rows re-encoded for another X. -/
def dispBlk (s : State) (cx : Cx) (o : EngOp) (d : Desc) (f : Fmt) (tx : TensorVal) (l : List IdxEnt) (e : Nat)
    (ent : OwnerEnt) (hb j : Nat) : Formed × Nat :=
  let rd := inDesc d ent
  let tr := f.tile.1
  let tc := f.tile.2
  let g := j / hb
  let h := j % hb
  let rows := grpRows l e g tr
  let vc := min tc (d.cols - h * tc)
  let src := fun (t : Nat) => ((tx.blks[t / tr * hb + h]?).map (·.1)).getD .none
  let x0 := (rows.head?.map (fun p => (src p.2.token).h.x)).getD f32One
  let vr := rows.foldl (fun n p => max n (p.1 + 1)) 0
  let wt := o.w.mod.getLsbD 6
  let useX := f.scaled || (f.isQ && decide (d.zpm ≠ 2))
  let re := fun (p : Nat × IdxEnt) => wt || (useX && decide ((src p.2.token).h.x ≠ x0))
  let requant := if wt then 0 else (rows.filter re).length
  let rowOf := fun (r : Nat) => rows.find? (fun p => decide (p.1 = r))
  let vals := (List.range f.dense).map (fun k =>
    match rowOf (k / tc) with
    | some p => if re p then
        let v := tvAt tx p.2.token (h * tc + k % tc)
        if wt then rne (evMul (f32Val p.2.weight) v) else v
      else evZero
    | none => evZero)
  let xv := match f32Val x0 with | .fin _ m ex => (m, ex) | _ => (1, 0)
  let z : Int := if f.isQ && decide (d.zpm = 1) then (if d.fmt = 0x03 then d.zp % 16 else d.zp) else 0
  let sd := if f.isQ && decide (d.zpm = 2) then scaleDesc s d.scd (cx.step % 2) else ⟨0, false, 0, 0, 0⟩
  let scq : Nat → EV × Int := fun k =>
    if f.isQ && decide (d.zpm = 2) then
      let q := qScale s d x0 sd 0 (h * tc + k % tc)
      (f32Val q.1, (q.2 : Int))
    else if useX then (f32Val x0, z) else (.fin false 1 0, 0)
  let enc := if d.scaling then encBlock f false (fun _ => .rne) false xv.1 xv.2 vals else encPlain f (fun _ => .rne) false scq vals
  let codes : List Nat := (List.range f.dense).map (fun k =>
    match rowOf (k / tc) with
    | some p => if vc ≤ k % tc then 0 else if re p then enc.codes.getD k 0
        else (denseCodes f d.scaling (scq k).2.toNat (src p.2.token)).getD (p.2.token % tr * tc + k % tc) 0
    | none => 0)
  let per := tc / 16
  let scales : List Nat := if !d.scaling then [] else (List.range f.msBytes).map (fun m =>
    match rowOf (m / per) with
    | some p => if re p then enc.scales.getD m 0 else (scaleCodes f (src p.2.token)).getD (p.2.token % tr * per + m % per) 0
    | none => 0)
  let bad := useX && rows.any re && !goodX x0
  let nan := bad || enc.nan || rows.any (fun p => readsNan f (src p.2.token)) || scales.any (· == 255)
  let zero := !nan && (rows.isEmpty || (codes.mapIdx (fun k (c : Nat) => decide (vr ≤ k / tc) || decide (vc ≤ k % tc) ||
    (if f.isQ then decide ((c : Int) = (scq k).2) else codeZero f c) ||
    (d.scaling && decide (scales.getD (mbIdx f false (k / tc) (k % tc)) 0 = 0)))).all id)
  let vr1 := if rows.isEmpty then tr else vr
  let len := decide (vr1 < tr) || decide (vc < tc)
  let uflow := zero && vals.any (fun v => v.isFin && !v.isZero)
  let bare := zero || bad
  ({ h := newHdr s cx rd j (if rows.isEmpty && useX then f32One else x0) vr1 vc 0
       (mkFlags zero nan false len false uflow (!bad && decide (0 < enc.sat)))
     payload := if bare then [] else pack f.ebits codes
     scales := if bare then [] else scales.map (fun c => BitVec.ofNat 8 c)
     bad := bad, sat := if bad then 0 else enc.sat, nan := nan, inf := enc.inf, flush := if bad then 0 else enc.flush
     mblocks := if zero || nan then 0 else enc.mblocks }, requant)

/-- The expert's region lies in this module. -/
def ownerHere (s : State) (e : OwnerEnt) : Bool := decide (ownLc s = some e.lc)

/-- Blocks of an expert's region. -/
def regionBlks (f : Fmt) (e : OwnerEnt) (hb : Nat) : Nat := e.share / f.tile.1 * hb

/-- Why a region cannot be written or read: no VALID entry for its owner, or an address of this module (R328). -/
def regionChk (s : State) (cx : Cx) (wr : Bool) (d : Desc) (n : Nat) (e : OwnerEnt) : State × Nat :=
  if n = 0 then (s, 0)
  else if ownerHere s e then
    match (List.range n).findSome? (fun j => blkChk s d j wr) with
    | some x => (raiseAcc s x cx.wh cx.step, x.status)
    | none => (s, 0)
  else if canSend s e.lc then (s, 0)
  else (xlatInvalid s e.lc cx.wh cx.step, 0x11)

/-- Send or store every block of one expert's region; what a row's new encoding saturates, flushes or meets in X counts as
for any writer (R79, R235, R236, R243). -/
def dispExpert (cx : Cx) (o : EngOp) (d : Desc) (f : Fmt) (tx : TensorVal) (l : List IdxEnt) (hb : Nat) (s : State)
    (p : Nat × OwnerEnt) : State :=
  let rd := inDesc d p.2
  (List.range (regionBlks f p.2 hb)).foldl (fun t j =>
    let x := dispBlk t cx o d f tx l p.1 p.2 hb j
    let t1 := formCounts (cntAdd t (.route cx.die) rRouteRequant x.2) cx rd j x.1
    if ownerHere t p.2 then storeBlk t1 cx rd j x.1.h x.1.payload x.1.scales
    else emit t1 (blockFrame t1 o.q o.step p.2.lc p.2.die (blkAddr rd j) (msAddr rd j) x.1.h x.1.payload x.1.scales) (.op o.no) 0) s

/-- The checks of every region in turn, stopping at the first status. -/
def regionChks (cx : Cx) (wr : Bool) (mk : OwnerEnt → Desc × Nat) : List OwnerEnt → State → State × Nat
  | [], s => (s, 0)
  | e :: r, s =>
    let x := regionChk s cx wr (mk e).1 (mk e).2 e
    if x.2 ≠ 0 then x else regionChks cx wr mk r x.1

/-- DISPATCH: every block of every owner's region (R165, R226). -/
def dispExec (s : State) (cx : Cx) (o : EngOp) (dI dX : Desc) : State × Nat :=
  if tokChk dX ≠ 0 then (s, tokChk dX)
  else if expertMax < (ownersOf s cx.die).length then (s, 0x08)
  else
    match fmtOf dX.fmt with
    | none => (s, 0x0F)
    | some f =>
      let own := ownersOf s cx.die
      let hb := ceilDiv dX.cols f.tile.2
      let (s1, st, l) := readIdx s cx dI own.length
      if st ≠ 0 then (s1, st)
      else
        let (s2, st2, tx) := readTensor s1 cx dX
        if st2 ≠ 0 then (s2, st2)
        else
          let y := regionChks cx true (fun e => (inDesc dX e, regionBlks f e hb)) own s2
          if y.2 ≠ 0 then y
          else ((own.mapIdx (fun i e => (i, e))).foldl (dispExpert cx o dX f tx l hb) y.1, 0)

/-- Start a DISPATCH: it writes and sends, and waits until every block has landed. -/
def dispStart (s : State) (o : EngOp) : State :=
  let x := match o.da, o.db with
    | some dI, some dX => dispExec s (opCx o false) o dI dX
    | _, _ => (s, 0x01)
  setOp x.1 { o with phase := .sent, status := x.2 }

/-! ## COMBINE -/

/-- The output region of an expert as a tensor of the result's format (R166, log 47). -/
def outDesc (d : Desc) (e : OwnerEnt) : Desc :=
  { d with base := e.outBase, sb := e.outSb, tensor := e.outTensor, rows := e.share, kind := 0, est := 0xFFFF, blk0 := e.first }

/-- Row groups of an expert that hold a filled slot: one past the last. -/
def grpEnd (l : List IdxEnt) (e tr : Nat) : Nat :=
  l.foldl (fun n x => if x.expert = e ∧ x.slot ≠ noSlot ∧ !x.ovr ∧ !x.nan then max n (x.slot / tr + 1) else n) 0

/-- Blocks that a COMBINE reads of a region. -/
def combBlks (l : List IdxEnt) (f : Fmt) (e : Nat) (ent : OwnerEnt) (hb : Nat) : Nat :=
  min (grpEnd l e f.tile.1) (ent.share / f.tile.1) * hb

/-- Send one READ (R526). -/
def sendRead (s : State) (o : EngOp) (ent : OwnerEnt) (src ms count : Nat) : State :=
  let tag := s.readTag
  let s1 := { s with
    readTag := (tag + 1) % u32Mod
    reads := s.reads ++ [{ tag := tag, owner := .op o.no, lc := ent.lc, src := src, count := count, got := [], refetch := none }] }
  emit s1 (mkFrame s1 tyRead ent.lc ent.die false (o.q / 64) false o.step s1.epoch tag
    (leBytes 8 src ++ leBytes 4 count ++ leBytes 4 0 ++ leBytes 8 ms)) (.op o.no) 0

/-- READs for n blocks from block j0, at most 65,536 each. -/
def sendReads : Nat → State → EngOp → Desc → OwnerEnt → Nat → Nat → State
  | 0, s, _, _, _, _, _ => s
  | k + 1, s, o, d, ent, j0, n =>
    if n = 0 then s
    else
      let m := min n 65536
      sendReads k (sendRead s o ent (blkAddr d j0) (if descMs d = 0 then 0 else msAddr d j0) m) o d ent (j0 + m) (n - m)

/-- Start a COMBINE: its index list, its checks, and the READs of regions that lie in other modules. -/
def combStartX (s : State) (cx : Cx) (o : EngOp) (dY dI : Desc) : State × Nat :=
  if tokChk dY ≠ 0 then (s, tokChk dY)
  else if expertMax < (ownersOf s cx.die).length then (s, 0x08)
  else
    match fmtOf dY.fmt with
    | none => (s, 0x0F)
    | some f =>
      let own := ownersOf s cx.die
      let hb := ceilDiv dY.cols f.tile.2
      let (s1, st, l) := readIdx s cx dI own.length
      if st ≠ 0 then (s1, st)
      else
        let ps := own.mapIdx (fun i e => (i, e, combBlks l f i e hb))
        let y := ps.foldl (fun (x : State × Nat) p =>
          if x.2 ≠ 0 then x else regionChk x.1 cx false (outDesc dY p.2.1) p.2.2 p.2.1) (s1, 0)
        if y.2 ≠ 0 then y
        else
          let s2 := ps.foldl (fun t p =>
            if ownerHere t p.2.1 then t else sendReads (p.2.2 / 65536 + 1) t o (outDesc dY p.2.1) p.2.1 0 p.2.2) y.1
          ({ s2 with combs := s2.combs ++ [{ no := o.no, tbl := own, ents := l }] }, 0)

/-- Start a COMBINE: it waits, sent, for its reads; it has read the X of its result (R179). -/
def combStart (s : State) (o : EngOp) : State :=
  let x := match o.dd, o.da with
    | some dY, some dI => combStartX s (opCx o false) o dY dI
    | _, _ => (s, 0x01)
  setOp x.1 { o with phase := .sent, status := x.2, dd := o.dd.map (fun d => d.readX s o.step) }

/-- Block j of an expert's region that READs brought. -/
def readGot (s : State) (o : EngOp) (ent : OwnerEnt) (addr : Nat) : Option BlkVal :=
  (s.reads.find? (fun r => r.owner == .op o.no && decide (r.lc = ent.lc) && decide (r.src ≤ addr) &&
    decide (addr < r.src + 2048 * r.count))).bind (fun r =>
      (r.got[(addr - r.src) / 2048]?).map (fun l =>
        let b := unwireBlk l
        { h := b.h, nan := b.h.isNan, payload := b.payload, scales := b.scales }))

/-- Blocks of a region that READs brought, checked as a consumer checks them, stopping at the first status. -/
def combGot (cx : Cx) (o : EngOp) (d : Desc) (ent : OwnerEnt) : List Nat → State → List BlkVal → State × Nat × List BlkVal
  | [], s, acc => (s, 0, acc.reverse)
  | j :: r, s, acc =>
    match readGot s o ent (blkAddr d j) with
    | some b =>
      let x := hdrChecks s cx d j true { h := b.h, payload := b.payload, scales := b.scales }
      if x.status ≠ 0 then (x.st, x.status, []) else combGot cx o d ent r (sparseMeta x.st cx d j x.blk) (x.blk :: acc)
    | none => (s, 0x12, [])

/-- The values of one expert's region: local reads, or the blocks that arrived. -/
def combVals (s : State) (cx : Cx) (o : EngOp) (dY : Desc) (f : Fmt) (ent : OwnerEnt) (n : Nat) : State × Nat × List (BlkVal × List EV) :=
  let d := outDesc dY ent
  let x := if ownerHere s ent then readBlks cx d true (List.range n) s [] else combGot cx o d ent (List.range n) s []
  (x.1, x.2.1, x.2.2.mapIdx (fun i b => (b, tileVals x.1 d f i b)))

/-- Regions read in turn, stopping at the first status. -/
def combAll (cx : Cx) (o : EngOp) (dY : Desc) (f : Fmt) (l : List IdxEnt) (hb : Nat) :
    List (Nat × OwnerEnt) → State → List (List (BlkVal × List EV)) → State × Nat × List (List (BlkVal × List EV))
  | [], s, acc => (s, 0, acc.reverse)
  | p :: r, s, acc =>
    let x := combVals s cx o dY f p.2 (combBlks l f p.1 p.2 hb)
    if x.2.1 ≠ 0 then (x.1, x.2.1, []) else combAll cx o dY f l hb r x.1 (x.2.2 :: acc)

/-- Element (t, c) of the result: the weighted rows added in ascending rank (R166). -/
def combElem (f : Fmt) (hb : Nat) (unw : Bool) (ents : List IdxEnt) (regs : List (List (BlkVal × List EV))) (t c : Nat) : EV :=
  let mine := ents.filter (fun e => decide (e.token = t))
  if mine.any (fun e => e.nan) then .nan
  else
    ((List.range 8).filterMap (fun r => mine.find? (fun e => decide (e.rank = r) && decide (e.slot ≠ noSlot) && !e.ovr))).foldl
      (fun y e =>
        let z := match (regs.getD e.expert [])[e.slot / f.tile.1 * hb + c / f.tile.2]? with
          | some b => b.2.getD (e.slot % f.tile.1 * f.tile.2 + c % f.tile.2) evZero
          | none => evZero
        rne (evAdd y (rne (evMul (if unw then evPow2 0 else f32Val e.weight) z)))) evZero

/-- Finish a COMBINE: form and write every token row. -/
def combFinish (s : State) (cx : Cx) (o : EngOp) (dY : Desc) (c : Comb) : State × Nat :=
  match fmtOf dY.fmt with
  | none => (s, 0x0F)
  | some f =>
    let hb := ceilDiv dY.cols f.tile.2
    let (s1, st, regs) := combAll cx o dY f c.ents hb (c.tbl.mapIdx (fun i e => (i, e))) s []
    if st ≠ 0 then (s1, st)
    else match wrChk s1 dY (List.range (nBlocks dY)) with
      | some e => (raiseAcc s1 e cx.wh cx.step, e.status)
      | none =>
        (writeTensor s1 cx dY f (rndOf (wRnd o.w)) (wOvf o.w) (fun _ _ => true)
          (combElem f hb (o.w.mod.getLsbD 7) c.ents regs), 0)

/-- A routing instruction whose turn has come, with its status: GATE runs whole, the others end what they started. -/
def routeRun (s : State) (o : EngOp) : State × Nat :=
  let cx := opCx o false
  if opDescBad o then (s, 0x01)
  else if o.phase = .sent ∧ sentStat s o ≠ 0 then (s, sentStat s o)
  else
    match o.op, o.dd, o.da with
    | .gate, some dI, some dG => gateExec s cx o dI dG
    | .combine, some dY, _ =>
      match s.combs.find? (fun c => decide (c.no = o.no)) with
      | some c => combFinish s cx o dY c
      | none => (s, 0x12)
    | _, _, _ => (s, 0)

/-- The routing engine may finish this instruction. -/
def routeMay (s : State) (o : EngOp) : Bool := decide (o.op = .gate) || (sentDone s o && streamFree s o)

/-- Forget what a routing instruction held. -/
def routeForget (s : State) (o : EngOp) : State :=
  { s with reads := s.reads.filter (fun r => !(r.owner == .op o.no)), combs := s.combs.filter (fun c => !decide (c.no = o.no)) }

end Sys2Proof.Machine
end

