-- ==== Sys2Proof/Machine/Kick.lean ====
section
/-! DEFINITION. Transfers that begin on their own when they reach the head of their queue, and the issue and completion
of XFER and ROUTE instructions (R171–R173, R223–R226, R340). -/
namespace Sys2Proof.Machine

/-- What an instruction sends in its sequencer's streams to other modules: nothing, frames to one logical coordinate, or
frames to any (R50, R186). -/
inductive Away where
  | none
  | one (lc : Nat)
  | any
  deriving DecidableEq, Repr

/-- Where an instruction sends frames. -/
def awayOf (o : EngOp) : Away :=
  match o.op with
  | .xferCopy => if xfRem o.w then .one (xfLc o.w) else .none
  | .dispatch => .any
  | .combine => .any
  | _ => .none

/-- Two instructions may send to the same module. -/
def awayMeet : Away → Away → Bool
  | .none, _ => false
  | _, .none => false
  | .one a, .one b => decide (a = b)
  | _, _ => true

/-- Earlier traffic of one of the instruction's streams has yet to leave: a transfer that has not begun, or a signal that
is held (R50, R186). -/
def streamBehind (s : State) (o : EngOp) : Bool :=
  s.ops.any (fun p => decide (p.q = o.q) && decide (p.no < o.no) && decide (p.phase = .queued) && awayMeet (awayOf p) (awayOf o)) ||
    s.sigs.any (fun g => decide (g.q = o.q) && decide (g.no < o.no) &&
      awayMeet (match g.rem with | some lc => .one lc | none => .none) (awayOf o))

/-- The instruction begins on its own when its turn comes: it works beyond its engine, by frames, a collective or
reads. -/
def selfStart (o : EngOp) : Bool := decide (awayOf o ≠ .none) || decide (o.op = .xferColl)

/-- Nothing but its engine's turn keeps the instruction from beginning. -/
def mayStart (s : State) (o : EngOp) : Bool :=
  decide (o.phase = .queued) && engUp s o.eng && !streamBehind s o && streamFree s o &&
    (decide (o.op ≠ .xferColl) || decide (s.colls.length < collMax))

/-- The engine's turn is this instruction's: round robin over the sequencers that have one ready (R172). -/
def engTurn (s : State) (o : EngOp) : Bool :=
  (rrPick (smGet (fun _ => 0) s.rr (engKey o.eng)) ((engHeads s o.eng).filter (mayStart s))).any (fun p => decide (p.no = o.no))

/-- Begin an instruction. -/
def startOp (s : State) (o : EngOp) : State :=
  match o.op with
  | .xferCopy => copyStart (turnTo s o) o
  | .xferColl => collStart (turnTo s o) o
  | .dispatch => dispStart (turnTo s o) o
  | .combine => combStart (turnTo s o) o
  | _ => s

/-- Begin the first instruction whose turn has come. -/
def kickOne (s : State) : State :=
  match s.ops.find? (fun o => selfStart o && mayStart s o && engTurn s o) with
  | none => s
  | some o => startOp s o

/-- Begin every instruction whose turn has come. -/
def kick (s : State) : State := releaseSigs ((List.range s.ops.length).foldl (fun t _ => kickOne t) s)

/-- XFER.COPY (R223). -/
def execXferCopy (q : Fin 256) (w : PtiWord) (s : State) : Host.Outcome State Fault Refusal :=
  run [.clu q] (ptiIssue .xferCopy q w (fun t => kick (xferIssue .xferCopy q w t))) s

/-- XFER.MCAST (R224). -/
def execXferMcast (q : Fin 256) (w : PtiWord) (s : State) : Host.Outcome State Fault Refusal :=
  run [.clu q] (ptiIssue .xferMcast q w (xferIssue .xferMcast q w)) s

/-- XFER.ZERO (R225). -/
def execXferZero (q : Fin 256) (w : PtiWord) (s : State) : Host.Outcome State Fault Refusal :=
  run [.clu q] (ptiIssue .xferZero q w (xferIssue .xferZero q w)) s

/-- XFER.PREF (R225). -/
def execXferPref (q : Fin 256) (w : PtiWord) (s : State) : Host.Outcome State Fault Refusal :=
  run [.clu q] (ptiIssue .xferPref q w (xferIssue .xferPref q w)) s

/-- XFER.COLL (R225, R337). -/
def execXferColl (q : Fin 256) (w : PtiWord) (s : State) : Host.Outcome State Fault Refusal :=
  run [.clu q] (ptiIssue .xferColl q w (fun t => kick (xferIssue .xferColl q w t))) s

/-- XFER_COMPLETE: a DMA engine ends the transfer whose turn it is. -/
def opXferComplete (rg e : Nat) (errs : List MemErr) (reread : Nat) (s : State) : State :=
  match engPick s (.dma rg e) (xferMay s) with
  | none => s
  | some o =>
    let s0 := memEnv s (opCx o true) errs reread
    let x := if o.phase = .sent then (s0, sentStat s0 o) else xferRun s0 o
    kick (completeOp x.1 o x.2)

/-- XFER_COMPLETE (R172, R173). -/
def execXferComplete (rg : Fin 16) (e : Fin 4) (errs : List MemErr) (reread : Nat) (s : State) :
    Host.Outcome State Fault Refusal :=
  run [] (opXferComplete rg e errs reread) s

/-- Issue to the die's routing engine. -/
def routeIssue (op : PtiOp) (q : Nat) (w : PtiWord) (s : State) : State :=
  ptiIssue op q w (fun t => kick (enqueueOp q (.route (q / 64)) op w t)) s

/-- GATE (R160–R162). -/
def execGate (q : Fin 256) (w : PtiWord) (s : State) : Host.Outcome State Fault Refusal :=
  run [.clu q] (routeIssue .gate q w) s

/-- DISPATCH (R165). -/
def execDispatch (q : Fin 256) (w : PtiWord) (s : State) : Host.Outcome State Fault Refusal :=
  run [.clu q] (routeIssue .dispatch q w) s

/-- COMBINE (R166). -/
def execCombine (q : Fin 256) (w : PtiWord) (s : State) : Host.Outcome State Fault Refusal :=
  run [.clu q] (routeIssue .combine q w) s

/-- ROUTE_COMPLETE: the routing engine of a die ends the instruction whose turn it is. -/
def opRouteComplete (d : Nat) (errs : List MemErr) (reread : Nat) (s : State) : State :=
  match engPick s (.route d) (routeMay s) with
  | none => s
  | some o =>
    let x := routeRun (memEnv s (opCx o false) errs reread) o
    kick (completeOp (routeForget x.1 o) o x.2)

/-- ROUTE_COMPLETE (R226). -/
def execRouteComplete (d : Fin 4) (errs : List MemErr) (reread : Nat) (s : State) : Host.Outcome State Fault Refusal :=
  run [.route d] (opRouteComplete d errs reread) s

end Sys2Proof.Machine
end

