-- ==== Sys2Proof/Machine/Upd.lean ====
section
/-! DEFINITION. The update engines (R227, R294–R309): issue with the reflection's commands, shadow pages, the arithmetic,
the two computations, fold records, and completion. -/
namespace Sys2Proof.Machine

/-! ## Groups and queues (R294, Table 7.14) -/

/-- Stack group of an address: the die of the fast tier, or 4 for the slow tier. -/
def updGrp (s : State) (a : Nat) : Option Nat :=
  match spaceOf s a with
  | .fast d => some d
  | .slow => some 4
  | _ => none

/-- TGT names engines of the group. -/
def updTgtOk (grp tgt : Nat) : Bool := decide (tgt = 15) || (if grp = 4 then decide (tgt ≤ 3) else decide (tgt ≤ 7))

/-- Two TGT values of a group name a common engine. -/
def tgtMeet (a b : Nat) : Bool := decide (a = 15) || decide (b = 15) || decide (a = b)

/-- Instructions of a sequencer that an engine of a group holds, in issue order. -/
def updHeld (s : State) (q grp e : Nat) : List EngOp :=
  s.ops.filter (fun o => o.q == q && match o.eng with
    | .upd g t => g == grp && tgtMeet t e
    | _ => false)

/-- An engine that the instruction names holds two instructions of the sequencer (Table 6.1, R307). -/
def updFull (s : State) (q grp tgt : Nat) : Bool :=
  if tgt = 15 then (List.range 8).any (fun e => decide (2 ≤ (updHeld s q grp e).length))
  else decide (2 ≤ (updHeld s q grp tgt).length)

/-- Gradient operand of an UPD instruction. -/
def updDg (o : EngOp) : Option Desc := if o.op = .updAdam then o.dc else o.db
/-- Second moment operand: ADAM alone. -/
def updDv (o : EngOp) : Option Desc := if o.op = .updAdam then o.db else none
/-- Address of the recipe block. -/
def updRecipe (o : EngOp) : Nat := o.w.imm.toNat

/-- A gradient FMT (R227). -/
def gradFmt (f : Nat) : Bool := f == Fmt.code .fp32 || f == Fmt.code .bf16 || f == Fmt.code .fp16
/-- A moment FMT (R299). -/
def momFmt (f : Nat) : Bool := f == Fmt.code .fp32 || f == Fmt.code .bf16

/-- The status an UPD instruction gives as it issues; 0 when it is accepted (R227, R294, R299). -/
def updIssueStat (s : State) (o : EngOp) : Nat :=
  if opDescBad o then 0x01
  else
    match o.dd, o.da, updDg o with
    | some dp, some dm, some dg =>
      if o.step = 0 ∨ !stepUnsealed s o.step then 0x13
      else
        match updGrp s dp.base with
        | none => 0x11
        | some g =>
          if !updTgtOk g o.w.tgt.toNat then 0x08
          else if updRecipe o % 64 ≠ 0 then 0x09
          else if dp.fmt ≠ Fmt.code .fp32 ∨ !gradFmt dg.fmt then 0x0F
          else if !momFmt dm.fmt || !((updDv o).all (fun d => momFmt d.fmt)) then 0x07
          else 0
    | _, _, _ => 0x01

/-! ## The reflection's commands (R375, R376, Tables 13.6, 13.7) -/

/-- Header of a hub message block: INT8, 32 × 64, X = 1.0. -/
def hmsgHdr (s : State) (step tensor block : Nat) : Hdr :=
  { fmt := Fmt.code .int8, layout := 0, flags := 0, vrows := 32, vcols := 64, cut := 0, x := f32One, tensor := tensor,
    block := block, step := step, epoch := s.epoch, crc := 0 }

/-- A BLOCK frame to the hub of a module (R376): its address field holds HMSG and the message's own field. -/
def hubBlock (s : State) (lc step epoch hmsg field : Nat) (blk : List Byte) : State :=
  hubSend s (mkFrame s tyBlock lc 0 true 0 true step epoch 0 (leBytes 8 (hmsg * 2 ^ 56 + field % 2 ^ 56) ++ blk)) .hub 0

/-- A hub message of 2,048 bytes. -/
def hubMsg (s : State) (lc step epoch hmsg field tensor block : Nat) (l : List Byte) : State :=
  let h := { hmsgHdr s step tensor block with epoch := epoch }
  let p := padTo 2048 l
  hubBlock s lc step epoch hmsg field (wireBlk { h with crc := blkCrc h p [] } [] p)

/-- A descriptor as its 64 bytes, with X0 and X1 as memory holds them (Table 6.4). -/
def descBytes (s : State) (d : Desc) : List Byte :=
  leBytes 8 d.base ++ leBytes 8 d.sb ++ leBytes 4 d.tensor ++ leBytes 1 d.fmt ++ leBytes 1 d.layout ++ leBytes 1 d.hint
    ++ leBytes 1 d.zpm ++ leBytes 4 d.rows ++ leBytes 4 d.cols ++ rdBytes s (d.src + 0x20) 8 ++ leBytes 8 d.scd
    ++ leBytes 1 d.zp ++ leBytes 1 d.kind ++ leBytes 2 d.fgroup ++ leBytes 2 d.est ++ List.replicate 10 0

/-- Bytes of an optional descriptor. -/
def descBytesO (s : State) (d : Option Desc) : List Byte := (d.map (descBytes s)).getD (List.replicate 64 0)

/-- A command block (Table 13.6). -/
def cmdBytes (s : State) (o : EngOp) : List Byte :=
  leBytes 16 (ptiEncode o.op o.w).toNat ++ List.replicate 48 0 ++ descBytesO s o.dd ++ descBytesO s o.da
    ++ descBytesO s (updDv o) ++ descBytesO s (updDg o) ++ rdBytes s (updRecipe o) 64

/-- Send every block of a tensor to a hub, as it lies in memory. -/
def sendTensor (s : State) (lc step hmsg field : Nat) (d : Desc) : State :=
  (List.range (nBlocks d)).foldl (fun t i =>
    let r := rawBlk t (blkAddr d i) (msAddr d i) (descMs d)
    hubBlock t lc step t.epoch hmsg field (wireBlk r.h r.scales r.payload)) s

/-- At issue the step keeps the command, and the ward sends its buddy the command and its gradient blocks (R375, R402). -/
def updMirror (s : State) (o : EngOp) : State :=
  let k := ((stepRec s o.step).map (fun r => r.cmds.length)).getD 0
  let s0 := updStep s o.step (fun r => { r with cmds := r.cmds ++ [cmdBytes s o] })
  match s.buddy with
  | some lc =>
    let s1 := hubMsg s0 lc o.step s.epoch 1 k 0xFFFFFF01 k (cmdBytes s o)
    match updDg o with
    | some dg => sendTensor s1 lc o.step 2 k dg
    | none => s1
  | none => s0

/-- Issue an UPD instruction: a status at once, a stall on a full queue, or its place in the queue (R171, R227, R307). -/
def updIssue (op : PtiOp) (q : Nat) (w : PtiWord) (s : State) : State :=
  let o := mkOp s q (.upd 0 0) op w
  let st := updIssueStat s o
  let grp := ((o.dd.bind (fun d => updGrp s d.base))).getD 0
  let e : Eng := .upd grp w.tgt.toNat
  if st ≠ 0 then issueFail q e op w st s
  else if updFull s q grp w.tgt.toNat then setSeq s q { seqAt s q with st := .queueStall }
  else enqueueOp q e op w (updMirror s o)

/-- UPD.ADAM (R227, R298). -/
def execUpdAdam (q : Fin 256) (w : PtiWord) (s : State) : Host.Outcome State Fault Refusal :=
  run [.clu q] (ptiIssue .updAdam q w (updIssue .updAdam q w)) s

/-- UPD.SGDM (R227, R298). -/
def execUpdSgdm (q : Fin 256) (w : PtiWord) (s : State) : Host.Outcome State Fault Refusal :=
  run [.clu q] (ptiIssue .updSgdm q w (updIssue .updSgdm q w)) s

/-- UPD.SIGNM (R227, R298). -/
def execUpdSignm (q : Fin 256) (w : PtiWord) (s : State) : Host.Outcome State Fault Refusal :=
  run [.clu q] (ptiIssue .updSignm q w (updIssue .updSignm q w)) s

/-! ## Page sets (R302–R306) -/

/-- A page set, empty when never applied. -/
def pageSet (s : State) (t : Nat) : PageSet := (s.pages[t]?).getD .empty

/-- Replace a page set. -/
def setPageSet (s : State) (t : Nat) (p : PageSet) : State :=
  { s with pages := ((List.range 5).map (fun k => if k = t then p else pageSet s k)) }

/-- Place of the entry whose HOME page holds an address. -/
def pageIdx (p : PageSet) (a : Nat) : Option Nat :=
  p.ents.findIdx? (fun e => decide (e.home ≤ a) && decide (a < e.home + 0x200000))

/-- PCTL of an entry (Table 10.4). -/
def pctl (e : PageEnt) : Nat := b2n e.cur + 2 * b2n e.pend + 4 * b2n e.hold0 + 8 * b2n e.hold1

/-- An entry as its 32 bytes. -/
def pageBytes (e : PageEnt) : List Byte :=
  leBytes 8 e.home ++ leBytes 8 e.f0 ++ leBytes 8 e.f1 ++ leBytes 4 e.pstep ++ leBytes 4 (pctl e)

/-- Read an entry (Table 10.4). -/
def parsePage (l : List Byte) : PageEnt :=
  { home := leAt l 0 8, f0 := leAt l 8 8, f1 := leAt l 16 8, pstep := leAt l 24 4, cur := bitAt (leAt l 28 4) 0,
    pend := bitAt (leAt l 28 4) 1, hold0 := bitAt (leAt l 28 4) 2, hold1 := bitAt (leAt l 28 4) 3 }

/-- Change entry i of a set, in force and in its table. -/
def putPage (s : State) (t i : Nat) (e : PageEnt) : State :=
  let p := pageSet s t
  memWr (setPageSet s t { p with ents := p.ents.set i e }) (p.addr + 32 * i) (pageBytes e)

/-- Show the entries that a free-frame stack holds, and its low mark (R304). -/
def freeShow (s : State) (t : Nat) : State :=
  let p := pageSet s t
  let n := p.free.length
  let s1 := setFld s .upd (rUpdFreeCount + 0x20 * t) 17 0 n
  let thr := fld s .upd (rUpdFreeLow + 0x20 * t) 17 0
  if n < thr ∧ !p.lowRaised then raise (setPageSet s1 t { p with lowRaised := true }) .updFreeLow whHub 0 []
  else if 2 * thr < n ∧ p.lowRaised then setPageSet s1 t { p with lowRaised := false }
  else s1

/-- Take the frame on top of a free-frame stack. -/
def popFrame (s : State) (t : Nat) : Option (State × Nat) :=
  let p := pageSet s t
  match p.free.getLast? with
  | some f =>
    let back := s.snapLeft.find? (fun x => x.1 == t)
    let free := p.free.dropLast ++ (back.map (fun x => [x.2])).getD []
    let s1 := { s with snapLeft := match back with
      | some x => s.snapLeft.erase x
      | none => s.snapLeft }
    let s2 := match back with
      | some x => memWr s1 (p.freeAddr + 8 * p.free.dropLast.length) (leBytes 8 x.2)
      | none => s1
    some (freeShow (setPageSet s2 t { p with free := free }) t, f)
  | none => none

/-- Before the first write of a step to a page: PEND and PSTEP, and a fresh frame in place of a held one (R303). False
when no frame is free (R304). -/
def prepEnt (n t i : Nat) (e : PageEnt) (s : State) : State × Bool :=
  if e.pend ∧ e.pstep = n then (s, true)
  else
    let cur := curIsF1 s t e
    let e1 := { e with cur := cur, pend := true, pstep := n }
    if !(if cur then e.hold0 else e.hold1) then (putPage s t i e1, true)
    else
      match popFrame s t with
      | none => (s, false)
      | some (s1, f) =>
        (cnt (putPage s1 t i (if cur then { e1 with f0 := f, hold0 := false } else { e1 with f1 := f, hold1 := false }))
          .upd rUpdFresh, true)

/-- The page set of an address: that which registers it, or set 4 for a reflection (R302, R378). -/
def setFor (s : State) (refl : Bool) (a : Nat) : Option Nat := if refl then some 4 else pageSetOf s a

/-- Prepare the page of an address. -/
def prepAddr (refl : Bool) (n : Nat) (x : State × Bool) (a : Nat) : State × Bool :=
  if !x.2 then x
  else
    match setFor x.1 refl a with
    | none => x
    | some t =>
      match pageIdx (pageSet x.1 t) a with
      | none => x
      | some i =>
        match (pageSet x.1 t).ents[i]? with
        | some e => prepEnt n t i e x.1
        | none => x

/-- Where an update engine reads an address: the current frame; none for a reflection's address outside set 4. -/
def updRd (s : State) (refl : Bool) (a : Nat) : Option Nat :=
  match setFor s refl a with
  | none => some a
  | some t =>
    match findPage (pageSet s t).ents a with
    | some e => some (curFrame s t e + (a - e.home))
    | none => if refl then none else some a

/-- Where an update engine writes an address: the frame that is not current, or the address of a page that is not
registered. -/
def updWr (s : State) (refl : Bool) (a : Nat) : Option Nat :=
  match setFor s refl a with
  | none => some a
  | some t =>
    match findPage (pageSet s t).ents a with
    | some e => some ((if curIsF1 s t e then e.f0 else e.f1) + (a - e.home))
    | none => if refl then none else some a

/-! ## Reading operands -/

/-- A checked block at a physical address, past every region cache (R257). -/
def physBlk (s : State) (cx : Cx) (d : Desc) (i p : Nat) : RdRes :=
  let h := parseHdr (memBytes s (hdrAddr s p) 32)
  let r : RawBlk := { h := h, payload := if h.headOnly then [] else memBytes s p 2048, scales := [] }
  let s1 := traffic s none 0 (hdrAddr s p) 32 false
  let s2 := cnt64 (if h.headOnly then s1 else traffic s1 none 0 p 2048 false) .chk rChkBlocksLo 1
  let bad := fun (t : State) => ({ st := crcUncured (crcFail t cx) cx, status := 0x03, blk := .none } : RdRes)
  if poisoned s (hdrAddr s p) 32 then bad (poisonRead s2 (hdrAddr s p) cx.wh cx.step)
  else if !h.headOnly && poisoned s p 2048 then bad (poisonRead s2 p cx.wh cx.step)
  else if scalesElse d h then { st := cnt s2 .chk rChkBlockMismatch, status := 0x02, blk := .none }
  else if h.crc ≠ blkCrc h r.payload r.scales then bad s2
  else hdrChecks s2 cx d i true r

/-- Blocks of an operand, in order, stopping at the first status. A SPARSE block is a mismatch (Table 5.6). -/
def updBlks (cx : Cx) (refl : Bool) (d : Desc) : List Nat → State → List BlkVal → State × Nat × List BlkVal
  | [], s, acc => (s, 0, acc.reverse)
  | i :: r, s, acc =>
    match (if refl then none else blkChk s d i false) with
    | some e => (raiseAcc s e cx.wh cx.step, e.status, [])
    | none =>
      match updRd s refl (blkAddr d i) with
      | none => (s, 0x11, [])
      | some p =>
        let x := physBlk s cx d i p
        if x.status ≠ 0 then (x.st, x.status, [])
        else if bitAt x.blk.h.flags flSparse && !x.blk.h.headOnly then (cnt x.st .chk rChkBlockMismatch, 0x02, [])
        else updBlks cx refl d r x.st (x.blk :: acc)

/-- An operand as values. -/
def updTensor (s : State) (cx : Cx) (refl : Bool) (d : Desc) : State × Nat × TensorVal :=
  match fmtOf d.fmt with
  | none => (s, 0x0F, { d := d, f := .fp32, blks := [] })
  | some f =>
    let (s1, st, bs) := updBlks cx refl d (List.range (nBlocks d)) s []
    (s1, st, { d := d, f := f, blks := bs.mapIdx (fun i b => (b, tileVals s d f i b)) })

/-! ## The recipes (R296–R300) -/

/-- A recipe block (Table 10.3). -/
structure Recipe where
  shard : Nat
  decay : Bool
  nesterov : Bool
  msr : Bool
  lr : EV
  b1 : EV
  b2 : EV
  eps : EV
  wd : EV
  gscale : EV
  bc1 : EV
  bc2 : EV
  wcd : Nat
  deriving DecidableEq, Repr

/-- Read a recipe block. -/
def parseRecipe (l : List Byte) : Recipe :=
  { shard := leAt l 0 4, decay := bitAt (leAt l 4 4) 0, nesterov := bitAt (leAt l 4 4) 1, msr := bitAt (leAt l 4 4) 2,
    lr := f32Val (leAt l 0x08 4), b1 := f32Val (leAt l 0x0C 4), b2 := f32Val (leAt l 0x10 4),
    eps := f32Val (leAt l 0x14 4), wd := f32Val (leAt l 0x18 4), gscale := f32Val (leAt l 0x1C 4),
    bc1 := f32Val (leAt l 0x20 4), bc2 := f32Val (leAt l 0x24 4), wcd := leAt l 0x28 8 }

/-- The values an engine computes once per instruction: s, c1 and c2 (R297). -/
structure UpdK where
  s : EV
  c1 : EV
  c2 : EV
  deriving DecidableEq, Repr

/-- s, c1 and c2 of a recipe under a loss scale 2^e. -/
def updK (r : Recipe) (e : Nat) : UpdK :=
  { s := rne (evMul r.gscale (evPow2 (-(e : Int)))), c1 := rne (evSub (evInt 1) r.b1), c2 := rne (evSub (evInt 1) r.b2) }

/-- The sign of SIGNM: +0 and −0 give 0, and so does a NaN, which is neither above nor below 0. -/
def signOf (c : EV) : EV :=
  if c.isNan || c.isZero then evZero else if c.neg? then evInt (-1) else evInt 1

/-- One element: the new p, m and v (R298). -/
def updElem (op : PtiOp) (r : Recipe) (k : UpdK) (p m v gq : EV) : EV × EV × EV :=
  let g0 := rne (evMul gq k.s)
  let g := if r.decay then g0 else evFma r.wd p g0
  let (u, m', v') := match op with
    | .updAdam =>
      let m1 := evFma r.b1 m (rne (evMul k.c1 g))
      let v1 := evFma r.b2 v (rne (evMul k.c2 (rne (evMul g g))))
      let den := rne (evAdd (rne (evSqrt (rne (evMul v1 r.bc2)))) r.eps)
      (rne (evDiv (rne (evMul m1 r.bc1)) den), m1, v1)
    | .updSgdm =>
      let m1 := evFma r.b1 m g
      (if r.nesterov then evFma r.b1 m1 g else m1, m1, v)
    | _ =>
      let c := evFma r.b1 m (rne (evMul k.c1 g))
      (signOf c, evFma r.b2 m (rne (evMul k.c2 g)), v)
  let u' := if r.decay then evFma r.wd p u else u
  (evFma (evNeg r.lr) u' p, m', v')

/-! ## One instruction -/

/-- What an update works on. The reflection's copy takes its gradients from the bundle (R378). -/
structure UpdJob where
  n : Nat
  cx : Cx
  op : PtiOp
  dp : Desc
  dm : Desc
  dv : Option Desc
  dg : Desc
  rc : Recipe
  rnd : Nat
  satm : Bool
  /-- Loss-scale exponent of the step. -/
  e : Nat
  refl : Bool
  deriving DecidableEq, Repr

/-- Index of element (r, c) for the generator: BLOCK × 512 + its index in the FP32 master block (R250). -/
def drawIdx (d : Desc) (r c : Nat) : Nat :=
  let x := elemPos d .fp32 r c
  (d.blk0 + x.1) * 512 + x.2

/-- Rounding of element (r, c) into an operand of a purpose. -/
def updRnd (s : State) (j : UpdJob) (sr : Bool) (dflt : Rnd) (purpose r c : Nat) : Rnd :=
  if sr then .sr (srDraw s.scl.seed j.n j.rc.shard purpose (drawIdx j.dp r c)) else dflt

/-- Rounding of a moment: exact for FP32, else RNE, or SR under MSR (R299). -/
def momRnd (s : State) (j : UpdJob) (purpose : Nat) : Nat → Nat → Rnd := updRnd s j j.rc.msr .rne purpose

/-- Rounding of the working copy (R299). -/
def wcRnd (s : State) (j : UpdJob) : Nat → Nat → Rnd := updRnd s j (decide (j.rnd = 2)) (rndOf j.rnd) 0

/-- The value of an element as its operand stores it. -/
def stored (d : Desc) (rnd : Rnd) (satm : Bool) (v : EV) : EV :=
  match fmtOf d.fmt with
  | some f => codeVal f (contain f (cvt f rnd satm v).code)
  | none => v

/-- Element (r, c) is valid in every operand that an update reads: the update acts on valid elements only (Table 5.6). -/
def updValid (j : UpdJob) (tp tm tv tg : TensorVal) (r c : Nat) : Bool :=
  tvValid tp r c && tvValid tm r c && (j.dv.isNone || tvValid tv r c) && tvValid tg r c

/-- New elements of one master block, element by element; none marks one that keeps its old values (R300), as one that is
not valid in some operand does uncounted. -/
def updTile (s : State) (j : UpdJob) (k : UpdK) (tp tm tv tg : TensorVal) (b : Nat) : List (Option (EV × EV × EV)) :=
  let o := tileOrg j.dp .fp32 b
  (List.range 512).map (fun i =>
    let r := o.1 + i / 32
    let c := o.2 + i % 32
    if !updValid j tp tm tv tg r c then some (tvAt tp r c, tvAt tm r c, tvAt tv r c)
    else
      let x := updElem j.op j.rc k (tvAt tp r c) (tvAt tm r c) (tvAt tv r c) (tvAt tg r c)
      let m' := stored j.dm (momRnd s j 1 r c) j.satm x.2.1
      let v' := match j.dv with
        | some d => stored d (momRnd s j 2 r c) j.satm x.2.2
        | none => x.2.2
      if x.1.isFin && x.2.1.isFin && x.2.2.isFin && m'.isFin && v'.isFin then some x else none)

/-- The new value of an element (r, c): the first, second or third of its triple, or its old value. -/
def newVal (tiles : List (List (Option (EV × EV × EV)))) (dp : Desc) (told : TensorVal) (sel : EV × EV × EV → EV)
    (r c : Nat) : EV :=
  let x := elemPos dp .fp32 r c
  match ((tiles.getD x.1 []).getD x.2 none) with
  | some t => sel t
  | none => tvAt told r c

/-- Valid rows and columns of block i of an operand: those of the master elements that it holds (R147, Table 5.6). -/
def updRegion (d : Desc) (f : Fmt) (told : TensorVal) (i : Nat) : Nat × Nat :=
  let o := tileOrg d f i
  let t := tileValid d i
  (max 1 ((List.range t.1).filter (fun r => tvValid told (o.1 + r) o.2)).length,
   max 1 ((List.range t.2).filter (fun c => tvValid told o.1 (o.2 + c))).length)

/-- Form block i of an operand, with the valid region `v`. -/
def updForm (s : State) (j : UpdJob) (d : Desc) (f : Fmt) (rnd : Nat → Nat → Rnd) (val : Nat → Nat → EV) (v : Nat × Nat) (i : Nat) :
    Formed :=
  let o := tileOrg d f i
  formBlk s j.cx d f i
    { rnd := fun k => rnd (o.1 + k / f.tile.2) (o.2 + k % f.tile.2), ovf := j.satm, vrows := v.1, vcols := v.2, cut := none }
    ((List.range f.dense).map (fun k => val (o.1 + k / f.tile.2) (o.2 + k % f.tile.2)))

/-- Write bytes at a physical address, past every region cache. -/
def physWr (s : State) (p : Nat) (l : List Byte) : State :=
  if l = [] then s else memWr (unpoison (traffic s none 0 p l.length true) p l.length) p l

/-- Add a written block to the folds of a fold step (R356, R379). -/
def updFold (s : State) (j : UpdJob) (mm : Bool) (r : RawBlk) : State :=
  if s.foldK = 0 ∨ j.n = 0 ∨ j.n % s.foldK ≠ 0 then s
  else if j.refl then { s with foldR := s.foldR.add r }
  else { s with foldA := s.foldA.add r, foldB := if mm then s.foldB.add r else s.foldB }

/-- Store a formed block in its shadow frame, with its fold and counts (R303). -/
def updStore (s : State) (j : UpdJob) (d : Desc) (mm : Bool) (i : Nat) (b : Formed) : State :=
  match updWr s j.refl (blkAddr d i) with
  | none => s
  | some p =>
    let h := { b.h with crc := blkCrc b.h b.payload b.scales }
    let s1 := physWr s p b.payload
    let s2 := match updWr s j.refl (msAddr d i) with
      | some m => physWr s1 m b.scales
      | none => s1
    let s3 := physWr s2 (hdrAddr s p) (hdrBytes h)
    updFold (formCounts s3 j.cx d i b) j mm { h := h, payload := b.payload, scales := b.scales }

/-- Write every block of an operand; `told` holds the elements that are valid. -/
def updWrite (j : UpdJob) (d : Desc) (mm : Bool) (rnd : Nat → Nat → Rnd) (told : TensorVal) (val : Nat → Nat → EV) (s : State) :
    State :=
  match fmtOf d.fmt with
  | none => s
  | some f => (List.range (nBlocks d)).foldl (fun t i =>
      updStore t j d mm i (updForm s j d f rnd val (updRegion d f told i) i)) s

/-- The working-copy descriptor, when WCD names one (R299): a status, or the descriptor. -/
def updWc (s : State) (j : UpdJob) : Nat × Option Desc :=
  if j.refl ∨ j.rc.wcd = 0 then (0, none)
  else if j.rc.wcd % 64 ≠ 0 then (0x09, none)
  else
    match accChk s j.rc.wcd false with
    | some e => (e.status, none)
    | none =>
      let d := (parseDesc j.rc.wcd (rdBytes s j.rc.wcd 64)).readX s j.n
      match fmtOf d.fmt with
      | none => (0x07, none)
      | some f =>
        if !convOk .fp32 f then (0x07, none)
        else
          match ((List.range (nBlocks d)).filterMap (fun i => blkChk s d i false)).head? with
          | some e => (e.status, none)
          | none => (0, some d)

/-- Addresses that an update writes: the blocks of its operands and the working copy's micro-scales. -/
def updAddrs (j : UpdJob) (wc : Option Desc) : List Nat :=
  let of := fun (d : Desc) => (List.range (nBlocks d)).map (blkAddr d)
  of j.dp ++ of j.dm ++ ((j.dv.map of).getD []) ++
    ((wc.map (fun d => of d ++ (if descMs d = 0 then [] else (List.range (nBlocks d)).map (msAddr d)))).getD [])

/-- Count the elements that keep their values; EVT_UPD_NONFINITE once, with the tensor and the first block (R300). -/
def nonfin (s : State) (j : UpdJob) (tiles : List (List (Option (EV × EV × EV)))) : State :=
  let bad := fun (l : List (Option (EV × EV × EV))) => (l.filter (fun x => x.isNone)).length
  let n := tiles.foldl (fun a l => a + bad l) 0
  if n = 0 then s
  else
    let b := (tiles.findIdx? (fun l => decide (bad l ≠ 0))).getD 0
    raise (setFld (cntAdd s .upd rUpdNonfin n) .upd rUpdStatus 2 2 1) .updNonfinite whHub j.n [a32 j.dp.tensor, a32 b]

/-- Fade reports of the gradient blocks consumed (R251). -/
def fadeReport (s : State) (j : UpdJob) (tg : TensorVal) : State :=
  if j.dg.fgroup = 0 ∨ 4096 ≤ j.dg.fgroup then s
  else
    let z := fun (u : Bool) => (tg.blks.filter (fun b => b.1.h.isZero && (!u || bitAt b.1.h.flags flUflow))).length
    let add := fun (f : FadeRep) =>
      ({ blocks := f.blocks + tg.blks.length, zeros := f.zeros + z false, uflow := f.uflow + z true } : FadeRep)
    { s with scl := { s.scl with
        fadeRep := smUpd (fun _ => FadeRep.zero) s.scl.fadeRep (4096 * (j.n % 2) + j.dg.fgroup) add } }

/-- Compute and write everything once its pages are prepared. -/
def updBody (s : State) (j : UpdJob) (wc : Option Desc) (tp tm tv tg : TensorVal) : State :=
  let k := updK j.rc j.e
  let tiles := (List.range (nBlocks j.dp)).map (updTile s j k tp tm tv tg)
  let s1 := updWrite j j.dp true (fun _ _ => .rne) tp (newVal tiles j.dp tp (fun t => t.1)) s
  let s2 := updWrite j j.dm true (momRnd s j 1) tm (newVal tiles j.dp tm (fun t => t.2.1)) s1
  let s3 := match j.dv with
    | some d => updWrite j d true (momRnd s j 2) tv (newVal tiles j.dp tv (fun t => t.2.2)) s2
    | none => s2
  let s4 := nonfin (match wc with
    | some d => updWrite j d false (wcRnd s j) tp (newVal tiles j.dp tp (fun t => t.1)) s3
    | none => s3) j tiles
  if j.refl then s4
  else cnt64 (fadeReport s4 j tg) .upd rUpdParamsLo (j.dp.rows * j.dp.cols)

/-- What an attempt to execute an update comes to. -/
inductive UpdRes where
  /-- A status, 0 for OK. -/
  | ended (st : Nat)
  /-- No free frame (R304). -/
  | noFrame
  deriving DecidableEq, Repr

/-- A block that an update writes lies, or has its header, in a controller in TEST mode (R280). -/
def updInTest (s : State) (refl : Bool) (a : Nat) : Bool :=
  match updWr s refl a with
  | some p => inTest s p || inTest s (hdrAddr s p)
  | none => false

/-- Execute an update. `grads` holds a bundle's gradient; none reads it from memory. -/
def updExec (s : State) (j : UpdJob) (grads : Option TensorVal) : State × UpdRes :=
  let (s1, e1, tp) := updTensor s j.cx j.refl j.dp
  if e1 ≠ 0 then (s1, .ended e1)
  else
    let (s2, e2, tm) := updTensor s1 j.cx j.refl j.dm
    if e2 ≠ 0 then (s2, .ended e2)
    else
      let (s3, e3, tv) := match j.dv with
        | some d => updTensor s2 j.cx j.refl d
        | none => (s2, 0, { d := j.dp, f := .fp32, blks := [] })
      if e3 ≠ 0 then (s3, .ended e3)
      else
        let (s4, e4, tg) := match grads with
          | some t => (s3, 0, t)
          | none => updTensor s3 j.cx false j.dg
        if e4 ≠ 0 then (s4, .ended e4)
        else
          let wc := updWc s4 j
          if wc.1 ≠ 0 then (s4, .ended wc.1)
          else if (updAddrs j wc.2).any (updInTest s4 j.refl) then (raiseAcc s4 .test j.cx.wh j.cx.step, .ended 0x11)
          else
            let x := (updAddrs j wc.2).foldl (prepAddr j.refl j.n) (s4, true)
            if x.2 then (updBody x.1 j wc.2 tp tm tv tg, .ended 0) else (x.1, .noFrame)

/-- The engine reads the recipe block, once, at seal (R296), and the second-level scales of what it writes (R179): a status,
and the instruction that holds them. -/
def updFetch (s : State) (o : EngOp) : State × Nat × EngOp :=
  let a := updRecipe o
  match accChk s a false with
  | some e => (raiseAcc s e (whClu o.q) o.step, e.status, o)
  | none =>
    let s1 := traffic s none 0 (xlatPage s a) 64 false
    if poisoned s (xlatPage s a) 64 then (poisonRead s1 (xlatPage s a) (whClu o.q) o.step, 0x03, o)
    else
      let rx := fun (d : Option Desc) => d.map (fun y => y.readX s o.step)
      let x := { o with recipe := some (rdBytes s a 64), dd := rx o.dd, da := rx o.da, db := rx o.db }
      (setOp s1 x, 0, x)

/-- The work of an UPD instruction that holds its recipe. -/
def updJob (s : State) (o : EngOp) : Nat × Option UpdJob :=
  match o.dd, o.da, updDg o with
  | some dp, some dm, some dg =>
    (0, some { n := o.step, cx := opCx o false, op := o.op, dp := dp, dm := dm, dv := updDv o, dg := dg,
               rc := parseRecipe (o.recipe.getD []), rnd := wRnd o.w, satm := wOvf o.w,
               e := ((stepRec s o.step).map (fun r => r.ls)).getD 0, refl := false })
  | _, _, _ => (0x01, none)

/-- The engine waits for a frame: FRAME_WAIT, and EVT_UPD_FRAME_WAIT for the first wait of the step (R304). -/
def frameWait (s : State) (o : EngOp) : State :=
  let s1 := setFld { s with updWait := if s.updWait.contains o.no then s.updWait else (s.updWait ++ [o.no]) } .upd rUpdStatus 3 3 1
  if s1.frameWaitSeen.contains o.step then s1
  else raise { s1 with frameWaitSeen := o.step :: s1.frameWaitSeen } Ev.updFrameWait whHub o.step []

/-- Run an instruction whose two computations agree: done in its shadow pages, waiting, or complete with a status. -/
def updRun (s : State) (o : EngOp) : State :=
  let s0 := { s with updWait := s.updWait.filter (fun n => n != o.no) }
  match updJob s0 o with
  | (st, none) => kick (completeOp s0 o st)
  | (_, some j) =>
    match updExec s0 j none with
    | (s1, .noFrame) => frameWait s1 o
    | (s1, .ended 0) => setOp s1 { o with phase := .done }
    | (s1, .ended st) => kick (completeOp s1 o st)

/-! ## The rows -/

/-- The step of an instruction is sealed (R227). -/
def stepSealed (s : State) (n : Nat) : Bool := (stepRec s n).any (fun r => decide (r.st = .sealed))

/-- An earlier instruction of the sequencer still occupies an engine that the instruction needs. -/
def updBehind (s : State) (o : EngOp) : Bool :=
  match o.eng with
  | .upd g t => (updHeld s o.q g t).any (fun p => decide (p.no < o.no))
  | _ => false

/-- Disagreements of the two computations over one block: each is counted, raised and weighed (R301, R391). -/
def dualMiss (step : Nat) (s : State) (n : Nat) : State :=
  (List.range n).foldl (fun t _ =>
    health (raise (setFld (cnt t .upd rUpdDualMismatch) .upd rUpdStatus 1 1 1) .updMismatch whHub step []) 4) s

/-- The disagreements met, block by block, each block computed at most three times (R41, R301). -/
def dualMisses (step : Nat) (mis : List (Nat × Nat)) (s : State) : State :=
  mis.foldl (fun t x => dualMiss step t (min 3 x.2)) s

/-- No pair of computations of some block agrees (R41). -/
def dualFails (mis : List (Nat × Nat)) : Bool := mis.any (fun x => decide (3 ≤ x.2))

/-- Shadow pages that step n has written in the page sets of the dies are freed: nothing refers to them any more (R42). -/
def freeShadow (s : State) (n : Nat) : State :=
  (List.range 4).foldl (fun t k =>
    ((pageSet t k).ents.mapIdx (fun i e => (i, e))).foldl (fun u x =>
      if x.2.pend && decide (x.2.pstep = n) && decide (n ≠ u.commitN) then putPage u k x.1 { x.2 with pend := false } else u) t) s

/-- What ends a sealed step as a commit failure besides its event: its shadow pages are freed, no work is issued, and the
module asks for its eclipse (R41, R42). -/
def commitFailed (s : State) (n : Nat) : State := health { freeShadow s n with stopIssue := true } 5

/-- UPD_START: at seal a held instruction runs; three disagreements on one block are a commit failure (R41). -/
def opUpdStart (grp tgt : Nat) (e : UpdEnv) (s : State) : State :=
  match engPick s (.upd grp tgt) (fun o => decide (o.phase = .queued) && stepSealed s o.step && !updBehind s o
      && !s.updWait.contains o.no) with
  | none => s
  | some o =>
    let s1 := dualMisses o.step e.mis (memEnv s (opCx o false) e.errs e.reread)
    if dualFails e.mis then kick (completeOp (commitFailed s1 o.step) o 0x14)
    else
      let x := updFetch s1 o
      if x.2.1 ≠ 0 then kick (completeOp x.1 o x.2.1) else updRun x.1 x.2.2

/-- UPD_START (R227). -/
def execUpdStart (grp : Fin 5) (tgt : Fin 16) (e : UpdEnv) (s : State) : Host.Outcome State Fault Refusal :=
  run [.upd] (opUpdStart grp tgt e) s

/-- UPD_FRAME_RESUME: an instruction that waits for a frame goes on (R304). -/
def opUpdFrameResume (grp tgt : Nat) (s : State) : State :=
  match engPick s (.upd grp tgt) (fun o => decide (o.phase = .queued) && s.updWait.contains o.no) with
  | none => s
  | some o => updRun s o

/-- UPD_FRAME_RESUME (R304). -/
def execUpdFrameResume (grp : Fin 5) (tgt : Fin 16) (s : State) : Host.Outcome State Fault Refusal :=
  run [.upd] (opUpdFrameResume grp tgt) s

/-- UPD_COMPLETE: the writes are visible in the shadow set (R227). -/
def opUpdComplete (grp tgt : Nat) (s : State) : State :=
  match engPick s (.upd grp tgt) (fun o => decide (o.phase = .done)) with
  | none => s
  | some o => kick (completeOp (updStep s o.step (fun r => { r with updDone := r.updDone + 1 })) o 0)

/-- UPD_COMPLETE (R227). -/
def execUpdComplete (grp : Fin 5) (tgt : Fin 16) (s : State) : Host.Outcome State Fault Refusal :=
  run [.upd] (opUpdComplete grp tgt) s

end Sys2Proof.Machine
end

