-- ==== Sys2Proof/Machine/Steps.lean ====
section
/-! DEFINITION. The step machine of the hub (ch. 02, R523, R524): opening, declaring and abandoning steps, the drain, the
vote, the digest and the seal, with what a step open brings into force and what a seal sends the buddy. -/
namespace Sys2Proof.Machine

/-! ## Opening -/

/-- Entries of a page table and free-frame stack sampled at a step open (R306, R525). -/
def updSample (s : State) (t : Nat) : State :=
  if !s.updPend.getLsbD t then s
  else
    let o := 0x20 * t
    let a := addr48 s .upd (rUpdPptLo + o) (rUpdPptHi + o) / 64 * 64
    let n := min 131072 (fld s .upd (rUpdPptCount + o) 17 0)
    let fa := addr48 s .upd (rUpdFreeLo + o) (rUpdFreeHi + o) / 8 * 8
    let cap := fld s .upd (rUpdFreeCap + o) 17 0
    let m := fld s .upd (rUpdFreeCount + o) 17 0
    let s1 := { s with updPend := BitVec.ofNat 5 (clrBit s.updPend.toNat t) }
    match tblsBad s [(a, 32 * n), (fa, 8 * cap)] with
    | some b => applyRefused s1 .upd rUpdApply b
    | none =>
      setPageSet s1 t
        { addr := a, ents := (List.range n).map (fun k => parsePage (rdBytes s (a + 32 * k) 32)), freeAddr := fa,
          freeCap := cap, free := (List.range m).map (fun k => rdLE s (fa + 8 * k) 8), lowRaised := false }

/-- Prism and fold configuration sampled at a step open (R361). -/
def chkSample (s : State) : State :=
  if !s.chkPend then s
  else
    { s with
      chkPend := false
      foldK := fld s .chk rChkFoldCtl 15 0
      foldGrp := if rbit s .chk rChkFoldGroup 31 then some (fld s .chk rChkFoldGroup 15 0) else none
      prismCtl := regAt s .chk rChkPrismCtl
      prismSeed := (regAt s .chk rChkPrismSeedLo).toNat + (regAt s .chk rChkPrismSeedHi).toNat * u32Mod }

/-- What comes into force at the open of step n (R195, R231, R306, R347, R361). -/
def openSample (s : State) (n : Nat) : State :=
  let s0 := chkSample ((List.range 5).foldl updSample s)
  let s1 := if rbit s0 .hlth rHlthFlags 0 then { s0 with prismCtl := w32 (putBits s0.prismCtl.toNat 11 4 50) } else s0
  let s2 := { s1 with dualOn := rbit s1 .chk rChkDual 0 }
  sclOpen (setFld s2 .hub rHubDetmode 1 1 (b2n (rbit s2 .hub rHubDetmode 0))) n

/-- A step as it opens: NDET of the sequencers whose STEP names it already (R196). -/
def newStep (s : State) (n : Nat) (g : List Nat × Nat) (replay : Bool) : StepRec :=
  { n := n, st := .open, declared := false, vote := 0, latched := none, ored := none, digest := none, peers := [],
    ndet := s.seqs.any (fun e => decide (e.2.step = n) && e.2.ndet), ls := s.scl.ls, lsJ := s.scl.lsJ, replay := replay, cause := 0, cmds := [], satSeen := false,
    updDone := 0, reflHave := false, members := g.1, rank := g.2, voted := false }

/-- Put the record of a step in its place. -/
def putStep (l : List StepRec) (r : StepRec) : List StepRec :=
  (l.filter (fun x => decide (x.n < r.n))) ++ [r] ++ l.filter (fun x => decide (r.n < x.n))

/-- The limits of R36 allow step n to open: the step before it has left OPEN, the one before that is committed. Nothing
opens while the steps hold their state (R32). -/
def canOpen (s : State) (n : Nat) : Bool :=
  !s.epochHold && decide (n ≤ s.commitN + 2) &&
    (decide (n = s.commitN + 1) ||
      (stepRec s (n - 1)).any (fun r => decide (r.st = .draining) || decide (r.st = .voting) || decide (r.st = .sealed)))

/-- The outcome of the latest command (R523). -/
def stepResult (s : State) (cmd : Nat) (o : StepOutcome) : State :=
  setFld (setFld s .hub rHubStepResult 7 4 cmd) .hub rHubStepResult 3 0 o.code

/-- A held outcome of a command changes, while the register still shows it. -/
def heldResult (s : State) (cmd : Nat) (o : StepOutcome) : State :=
  if fld s .hub rHubStepResult 7 4 = cmd ∧ fld s .hub rHubStepResult 3 0 = StepOutcome.held.code then
    setFld s .hub rHubStepResult 3 0 o.code
  else s

/-- COUNT of the entry of group 0, for EVT_STEP_GROUP. -/
def grp0Count (s : State) : Nat := if 0 < s.xlat.grpCount then grpEntCount s 0 else 0

/-- Step n is ABANDONED: it opens again by replay only (R35). -/
def stepLeft (s : State) (n : Nat) : Bool := (stepRec s n).any (fun r => decide (r.st = .abandoned))

/-- Open step n, unless group 0 refuses it; tells whether it opened (R35, R46). -/
def openStep (s : State) (n : Nat) (replay : Bool) : State × Bool :=
  match stepGroup s with
  | none => (raise s .stepGroup whHub n [a32 n, a32 (grp0Count s)], false)
  | some g =>
    let s1 := openSample s n
    let s2 := { s1 with steps := putStep s1.steps (newStep s1 n g replay), openN := n }
    (sysObj s2 oOpen n, true)

/-- Open number of the last step that may open (R31). -/
def stepLast : Nat := 0xFFFFFFFE

/-- STEP_CMD_OPEN: OPEN n (R523). A step that is ABANDONED is not the controller's to open: replays open themselves
(R35, R46). -/
def opStepOpen (n : Nat) (s : State) : State :=
  if n ≠ s.openN + 1 ∨ worksNot s ∨ s.pw.left ∨ s.epochHold ∨ stepLeft s n then stepResult s 1 .refused
  else if stepLast < n then stepResult (raise s .stepLimit whHub n []) 1 .refused
  else if !canOpen s n then stepResult { s with heldOpen := some n } 1 .held
  else
    match openStep s n false with
    | (s1, true) => stepResult { s1 with heldOpen := none } 1 .ok
    | (s1, false) => stepResult s1 1 .refused

/-- HELD_OPEN_RELEASE: a held request opens its step (R523). -/
def opHeldOpenRelease (s : State) : State :=
  match s.heldOpen with
  | some n =>
    if n = s.openN + 1 ∧ canOpen s n ∧ !stepLeft s n then
      match openStep { s with heldOpen := none } n false with
      | (s1, true) => heldResult s1 1 .ok
      | (s1, false) => heldResult s1 1 .refused
    else s
  | none => s

/-- HELD_OPEN_RELEASE (R523). -/
def execHeldOpenRelease (s : State) : Host.Outcome State Fault Refusal := run [.hub] opHeldOpenRelease s

/-- The lowest abandoned step. -/
def lowestAbandoned (s : State) : Option Nat := (s.steps.find? (fun r => decide (r.st = .abandoned))).map (fun r => r.n)

/-- REPLAY_STEP_OPEN: the module opens the next replayed step (R46). -/
def opReplayStepOpen (s : State) : State :=
  match lowestAbandoned s with
  | some n =>
    if !s.agree.active && canOpen s n && !worksNot s && !s.pw.left then
      match openStep s n true with
      | (s1, true) => s1
      | (s1, false) => s1
    else s
  | none => s

/-- REPLAY_STEP_OPEN (R46). -/
def execReplayStepOpen (s : State) : Host.Outcome State Fault Refusal := run [.hub] opReplayStepOpen s

/-! ## Declaring and draining -/

/-- A declared step may leave OPEN: the step before it is committed (R36). -/
def canDrain (s : State) (n : Nat) : Bool := !s.epochHold && decide (n ≤ s.commitN + 1)

/-- Enter DRAINING: the drain limit starts (R38). -/
def enterDraining (s : State) (n : Nat) : State :=
  tmArm (updStep s n (fun r => { r with st := .draining, declared := true })) (.drain n) (drainLim s)

/-- STEP_CMD_DECLARE: DECLARE n (R523). -/
def opStepDeclare (n : Nat) (s : State) : State :=
  match stepRec s n with
  | some r =>
    if r.st ≠ .open ∨ r.declared ∨ s.epochHold then stepResult s 2 .refused
    else if canDrain s n then stepResult (enterDraining s n) 2 .ok
    else stepResult (updStep s n (fun r => { r with declared := true })) 2 .held
  | none => stepResult s 2 .refused

/-- HELD_DECLARE_RELEASE: a held declaration takes effect (R523). -/
def opHeldDeclareRelease (s : State) : State :=
  match s.steps.find? (fun r => decide (r.st = .open) && r.declared) with
  | some r => if canDrain s r.n then heldResult (enterDraining s r.n) 2 .ok else s
  | none => s

/-- HELD_DECLARE_RELEASE (R523). -/
def execHeldDeclareRelease (s : State) : Host.Outcome State Fault Refusal := run [.hub] opHeldDeclareRelease s

/-- STEP_CMD_ABANDON: ABANDON n (R293, R523, R48). -/
def opStepAbandon (n : Nat) (s : State) : State :=
  match stepRec s n with
  | some r =>
    if r.st = .sealed then stepResult s 3 .alreadyDone
    else if r.st = .abandoned then stepResult s 3 .ok
    else if s.epoch = u32Max then stepResult (abandon s n 6) 3 .refused
    else stepResult (abandon s n (if (r.vote &&& (vOvf ||| vNan)) = 0 then 6 else 1)) 3 .ok
  | none => stepResult s 3 (if n ≤ s.commitN then .alreadyDone else .refused)

/-- A transfer of step n is not complete (Table 2.2, R365). -/
def transferring (s : State) (n : Nat) : Bool :=
  s.ops.any (fun o => decide (o.step = n) && match o.eng with
    | .dma _ _ => true
    | .route _ => true
    | _ => false)
  || s.sigs.any (fun g => decide (g.step = n) && g.rem.isSome)
  || s.colls.any (fun c => decide (c.step = n))
  || s.e2e.unack.any (fun u => decide (u.step = n)) || s.e2e.store.any (fun r => decide (r.frame.step = n))
  || s.agl.wait.any (fun w => decide (w.frame.step = n))
  || s.orders.any (fun o => decide (o.step = n) && o.inFlight)
  || s.links.any (fun l => l.2.txq.any (fun f => decide (f.step = n)) || l.2.rxq.any (fun f => decide (f.step = n))
      || l.2.retry.any (fun e => (e.frame.map (fun f => decide (f.step = n))).getD false))

/-! ## The digest (R40) -/

/-- Gradient tensors of the UPD instructions of a step that are queued. -/
def stepGrads (s : State) (n : Nat) : List Desc :=
  (s.ops.filter (fun o => decide (o.step = n) && match o.eng with
    | .upd _ _ => true
    | _ => false)).filterMap updDg

/-- Insert a gradient block in ascending tensor id and block index; a block named twice is taken once. -/
def gradIns (x : Nat × Nat × Nat) : List (Nat × Nat × Nat) → List (Nat × Nat × Nat)
  | [] => [x]
  | y :: r =>
    if x.1 = y.1 ∧ x.2.1 = y.2.1 then y :: r
    else if x.1 < y.1 ∨ (x.1 = y.1 ∧ x.2.1 < y.2.1) then x :: y :: r
    else y :: gradIns x r

/-- Tensor, block and CRC with EPOCH zero of the gradient blocks; none when a header cannot be read. -/
def gradCrcs (s : State) (ds : List Desc) : Option (List (Nat × Nat × Nat)) :=
  (ds.flatMap (fun d => (List.range (nBlocks d)).map (fun i => (d, i)))).foldl (fun acc x =>
    acc.bind (fun l =>
      let p := xlatPage s (blkAddr x.1 x.2)
      if (accChk s (blkAddr x.1 x.2) false).isSome || poisoned s (hdrAddr s p) 32 then none
      else
        let h := parseHdr (memBytes s (hdrAddr s p) 32)
        some (gradIns (x.1.tensor, x.1.blk0 + x.2, recrc h { h with epoch := 0 } (crcTail h)) l))) (some [])

/-- The step digest (R40). -/
def stepDigest (s : State) (r : StepRec) (w : BitVec 5) : Option (List Byte) :=
  (gradCrcs s (stepGrads s r.n)).map (fun l =>
    sha256 (leBytes 4 r.n ++ leBytes 4 (f32Pow2 r.ls) ++ leBytes 4 w.toNat ++ l.flatMap (fun x => leBytes 4 x.2.2)))

/-- Members of the fold group other than this module, and none without a VALID group (R40, R357). -/
def foldPeers (s : State) : List Nat :=
  match s.foldGrp with
  | some g => ((grpMembers s g).getD []).filter (fun c => decide (some c ≠ ownLc s))
  | none => []

/-- Send a digest to the fold group and the buddy (R40). -/
def sendDigest (s : State) (n : Nat) (d : List Byte) (lc : Nat) : State :=
  hubSend s (mkFrame s tyDigest lc 0 true 0 true n s.epoch 0 (leBytes 4 n ++ d)) .hub 0

/-- A digest of a peer differs from the module's own (R40). -/
def sealMismatch (s : State) (n : Nat) : State := abandon (raise s .sealMismatch whHub n []) n 3

/-- The own digest is known, and a peer's differs. -/
def digestDiffers (r : StepRec) : Bool :=
  match r.digest with
  | some d => r.peers.any (fun p => p.2 != d)
  | none => false

/-- Compare the digests that are here. -/
def digestCheck (s : State) (n : Nat) : State :=
  match stepRec s n with
  | some r => if digestDiffers r then sealMismatch s n else s
  | none => s

/-! ## The vote (R39, R292, R340) -/

/-- The vote is known: it abandons the step, or the digest is formed, sent and compared (R39, R40). -/
def voteResult (s : State) (n : Nat) (w : BitVec 5) : State :=
  match stepRec s n with
  | none => s
  | some r =>
    let s1 := updStep s n (fun r => { r with ored := some w })
    if w ≠ 0 then abandon s1 n (if (w &&& (vOvf ||| vNan)) = 0 then 2 else 1)
    else
      match stepDigest s1 r w with
      | none => abandon (raise s1 .blockCrcUncured whHub n []) n 2
      | some d =>
        let s2 := updStep s1 n (fun r => { r with digest := some d })
        let to_ := foldPeers s2 ++ (match s2.buddy with
          | some b => if (foldPeers s2).contains b then [] else [b]
          | none => [])
        digestCheck (to_.foldl (fun t lc => sendDigest t n d lc) s2) n

/-- Send a vote word around the ring (R340). -/
def voteSend (s : State) (ms : List Nat) (rank n phase : Nat) (w : BitVec 5) : State :=
  sendVote s (ms.getD (nextRank ms rank) 0) n s.epoch 0 n w.toNat phase 0 .hub

/-- The word this member adds to the vote of a step: its own while VOTING, zero for the step it has sealed (R47). -/
def voteWord (s : State) (n : Nat) : Option (BitVec 5) :=
  match stepRec s n with
  | some r => if r.st = .voting then r.latched else if r.st = .sealed then some 0 else none
  | none => match s.lastSeal with
    | some (m, _) => if m = n then some 0 else none
    | none => none

/-- The ring that a vote of a step goes round: the step's, or for a step that is committed the group's. -/
def voteRing (s : State) (n : Nat) : Option (List Nat × Nat) :=
  match stepRec s n with
  | some r => some (r.members, r.rank)
  | none => stepGroup s

/-- The result of a vote, for a step that is VOTING here. -/
def voteMine (s : State) (n : Nat) (w : BitVec 5) : State :=
  if (stepRec s n).any (fun r => decide (r.st = .voting) && r.ored.isNone) then voteResult s n w else s

/-- Take a VOTE frame of kind 0 with the ring of its step. A frame for a step still OPEN or DRAINING is held; one that is
not from the ring's predecessor or names no step voted on counts in LNK_DROP. -/
def voteTake (l : Nat) (f : Frame) (s : State) : State :=
  match voteRing s f.step with
  | none => dropAt s l
  | some (ms, r) =>
    let n := ms.length
    let w := BitVec.ofNat 5 (leAt f.body 4 4)
    let phase := leAt f.body 8 1
    if f.epoch ≠ s.epoch ∨ adLc f.src ≠ ms.getD ((r + n - 1) % n) 0 ∨ 1 < phase ∨ (phase = 0 ∧ r = 1) ∨ (phase = 1 ∧ r = 0) then
      dropAt s l
    else
      match voteWord s f.step with
      | some own =>
        if phase = 0 then
          if r = 0 then voteMine (voteSend s ms r f.step 1 (w ||| own)) f.step (w ||| own)
          else voteSend s ms r f.step 0 (w ||| own)
        else
          voteMine (if r = n - 1 then s else voteSend s ms r f.step 1 w) f.step w
      | none =>
        if (stepRec s f.step).any (fun r => decide (r.st = .open) || decide (r.st = .draining)) then
          { s with voteIn := s.voteIn ++ [f] }
        else dropAt s l

/-- Frames held for a step that is now VOTING. -/
def voteHeld (s : State) (n : Nat) : State :=
  let fs := s.voteIn.filter (fun f => decide (f.step = n))
  fs.foldl (fun t f => voteTake 6 f t) { s with voteIn := s.voteIn.filter (fun f => !decide (f.step = n)) }

/-- Enter VOTING: the word is latched, the vote limit starts, and this rank begins its part (R38, R291, R340). -/
def enterVoting (s : State) (r : StepRec) : State :=
  let s1 := updStep (tmOff s (.drain r.n)) r.n (fun x => { x with st := .voting, latched := some x.vote, voted := true })
  let s2 := tmArm s1 (.vote r.n) (voteLim s)
  if r.members.length = 1 then voteResult s2 r.n r.vote
  else if r.rank = 1 then voteHeld (voteSend s2 r.members 1 r.n 0 r.vote) r.n
  else voteHeld s2 r.n

/-- DRAIN_COMPLETE: a DRAINING step with nothing on its way enters VOTING (Table 2.2). -/
def opDrainComplete (s : State) : State :=
  match s.steps.find? (fun r => decide (r.st = .draining)) with
  | some r => if transferring s r.n || s.epochHold then s else enterVoting s r
  | none => s

/-- DRAIN_COMPLETE (R35). -/
def execDrainComplete (s : State) : Host.Outcome State Fault Refusal := run [.hub] opDrainComplete s

/-- A limit of a step expires: EVT_STEP_TIMEOUT and cause 0x04 (R38). -/
def stepExpire (st : StepSt) (t : Nat → Tmr) (s : State) : State :=
  match s.steps.find? (fun r => decide (r.st = st)) with
  | some r => if tmDue s (t r.n) then abandon (raise (tmOff s (t r.n)) .stepTimeout whHub r.n []) r.n 4 else s
  | none => s

/-- DRAIN_LIMIT_EXPIRE (R38). -/
def execDrainLimitExpire (s : State) : Host.Outcome State Fault Refusal := run [.hub] (stepExpire .draining .drain) s

/-- VOTE_LIMIT_EXPIRE (R38). -/
def execVoteLimitExpire (s : State) : Host.Outcome State Fault Refusal := run [.hub] (stepExpire .voting .vote) s

/-! ## The seal (R35, R47, R357, R358, R367, R375) -/

/-- The journal at the seal of step n (R367). -/
def aglSeal (s : State) (n : Nat) : State :=
  showAgl { s with agl := { s.agl with
    recs := s.agl.recs.filter (fun r => !(r.kind.isRx && decide (r.step = n)) && !(!r.kind.isRx && decide (r.step < n)))
    fullSeen := s.agl.fullSeen.filter (fun x => decide (x ≠ n))
    served := (s.agl.recs.filter (fun r => r.kind == .rxLink && decide (r.step = n))).map (fun r =>
      { r with frame := { r.frame with body := r.frame.body.take 8 }, matched := false })
    sent := some n } }

/-- Slot record of an estimator slot as the commit leaves it (R402 item 2). -/
def slotRec (t : State) (slot : Nat) (c : EstCfg) : List Byte :=
  leBytes 4 slot ++ [0, 0, 0, 0] ++ leBytes 8 c.desc ++ rdBytes t (c.desc + 0x20) 8 ++ List.replicate 8 0
    ++ rdBytes t (estEnt t slot + 0x20) 32

/-- Records of the active slots, computed from the step's final accumulators as its commit will write them (R375). -/
def slotRecs (s : State) (n : Nat) : List (List Byte) :=
  let t := sclCommit s n
  s.scl.est.filterMap (fun e => e.2.map (fun c => slotRec t e.1 c))

/-- A snapshot is taken at the flip of step n (R394, R395, R397). -/
def snapDue (s : State) (n : Nat) : Bool :=
  rbit s .ckpt rCkptCtl 0 &&
    ((decide (fld s .ckpt rCkptCtl 31 16 ≠ 0) && decide (n % fld s .ckpt rCkptCtl 31 16 = 0))
      || (match s.snapReq with
        | some m => decide (m = n) || decide (m ≤ s.commitN)
        | none => false)
      || s.flk.auto || s.snapDefer.isSome)

/-- The seal blocks of a bundle: the preamble of Table 13.8 and the slot records, 31 in block 0 and 32 in each later. -/
def sealBlocks (s : State) (r : StepRec) : List (List Byte) :=
  let recs := slotRecs s r.n
  let m := recs.length
  let nseal := 1 + ceilDiv (m - 31) 32
  let snapNow := snapDue s r.n && s.snap.isNone
  let pre := leBytes 4 r.n ++ leBytes 4 s.epoch ++ leBytes 4 r.cmds.length ++ leBytes 4 m ++ leBytes 4 nseal
    ++ leBytes 4 (r.ls % 64) ++ leBytes 4 (r.lsJ.getD 0)
    ++ leBytes 4 (b2n snapNow + 2 * b2n (snapNow && rbit s .ckpt rCkptCtl 2))
    ++ leBytes 4 (regAt s .ckpt rCkptJobLo).toNat ++ leBytes 4 (regAt s .ckpt rCkptJobHi).toNat ++ List.replicate 24 0
  (pre ++ (recs.take 31).flatten) ::
    (List.range (nseal - 1)).map (fun k => ((recs.drop (31 + 32 * k)).take 32).flatten)

/-- The ward waits for its buddy: the time to EVT_REFL_LATE starts (R378). -/
def reflWait (s : State) : State := tmArm s .refl (max 1 s.lateMs * btMs)

/-- Send the seal blocks to the buddy. -/
def sendSeal (s : State) (r : StepRec) : State :=
  match s.buddy with
  | some lc =>
    reflWait ((sealBlocks s r).mapIdx (fun k b => (k, b)) |>.foldl (fun t x =>
      hubMsg t lc r.n t.epoch 3 x.1 0xFFFFFF02 x.1 x.2) s)
  | none => s

/-- Every digest that the module expects has come and matches its own. -/
def digestsIn (s : State) (r : StepRec) : Bool :=
  match r.digest with
  | some d => (foldPeers s).all (fun lc => r.peers.any (fun p => p.1 == lc && p.2 == d))
  | none => false

/-- The fold compare allows a seal (R357, R358). -/
def foldAllows (s : State) : Bool := s.foldBusy.isNone && !rbit s .chk rChkFoldStatus 0

/-- STEP_SEAL: the vote has passed, every digest matches, and the fold compare allows it (R35). -/
def opStepSeal (s : State) : State :=
  match s.steps.find? (fun r => decide (r.st = .voting)) with
  | some r =>
    if r.ored = some 0 ∧ digestsIn s r ∧ foldAllows s ∧ !s.epochHold then
      let s1 := updStep (tmOff s (.vote r.n)) r.n (fun r => { r with st := .sealed })
      let s2 := aglSeal { s1 with lastSeal := some (r.n, r.digest.getD []), foldA := .zero, foldB := .zero } r.n
      sendSeal (sysObj s2 oSeal r.n) r
    else s
  | none => s

/-- STEP_SEAL (R35). -/
def execStepSeal (s : State) : Host.Outcome State Fault Refusal := run [.hub] opStepSeal s

/-! ## The agreement's timers (R524) -/

/-- AGREE_NOTICE_REPEAT (R524 step 1). -/
def opAgreeNoticeRepeat (s : State) : State :=
  if s.agree.active && tmDue s .agreeNotice then agreeNotice s else s

/-- AGREE_NOTICE_REPEAT (R524). -/
def execAgreeNoticeRepeat (s : State) : Host.Outcome State Fault Refusal := run [.hub] opAgreeNoticeRepeat s

/-- AGREE_PHASE0_RESEND: rank 0 sends its frame again (R524). -/
def opAgreePhase0Resend (s : State) : State :=
  if s.agree.active && tmDue s .agreePhase0 then agreePhase0 s else s

/-- AGREE_PHASE0_RESEND (R524). -/
def execAgreePhase0Resend (s : State) : Host.Outcome State Fault Refusal := run [.hub] opAgreePhase0Resend s

/-- The vote of a step that this member has sealed and others replay begins anew under the new epoch (R47). -/
def serveVote (s : State) (low : Nat) : State :=
  match s.lastSeal with
  | some (n, _) =>
    if low ≤ n then
      match voteRing s n with
      | some (ms, r) => if r = 1 ∧ 1 < ms.length then voteSend s ms 1 n 0 0 else s
      | none => s
    else s
  | none => s

/-- The result of an agreement, and what it lets begin here (R46, R47, R524). -/
def agreeResult (s : State) (flag : Bool) (low : Nat) : State :=
  if s.agree.active then serveVote (agreeApply s flag low) low else s

/-- A VOTE frame of kind 2 (R524). -/
def agreeTake (l : Nat) (f : Frame) (s0 : State) : State :=
  let s := adoptEpoch s0 f.epoch
  match stepGroup s with
  | none => dropAt s l
  | some (ms, r) =>
    let n := ms.length
    let phase := leAt f.body 8 1
    let low := leAt f.body 0 4
    let flag := leAt f.body 4 4 % 2 == 1
    let pred := decide (adLc f.src = ms.getD ((r + n - 1) % n) 0)
    if f.epoch ≠ s.epoch then dropAt s l
    else if phase = 2 then
      if r ≠ 0 then dropAt s l
      else if s.agree.active then s
      else if s.agree.epoch = s.epoch then
        -- The result of this epoch has passed: the sender has not had it yet.
        s
      else agreeBegin s false u32Max
    else if !pred then dropAt s l
    else if phase = 0 then
      if r = 0 then
        if s.agree.active then
          let s1 := sendVote s (ms.getD 1 0) 0 s.epoch 0 (min low s.agree.low) (b2n (flag || s.agree.flag)) 1 2 .hub
          agreeResult s1 (flag || s.agree.flag) (min low s.agree.low)
        else s
      else
        let s1 := if s.agree.epoch = s.epoch then s else { s with agree := { s.agree with epoch := s.epoch, active := true, low := u32Max } }
        sendVote { s1 with agree := { s1.agree with sent0 := true } } (ms.getD (nextRank ms r) 0) 0 s.epoch 0
          (min low s1.agree.low) (b2n (flag || s1.agree.flag)) 0 2 .hub
    else if phase = 1 then
      if r = 0 then dropAt s l
      else
        let s1 := if r = n - 1 then s else sendVote s (ms.getD (nextRank ms r) 0) 0 s.epoch 0 low (b2n flag) 1 2 .hub
        agreeResult s1 flag low
    else dropAt s l

/-! ## DIGEST frames (R40, R47) -/

/-- The bundle that a frame of the ward belongs to, begun if it is the first (R375). -/
def bundleOf (s : State) (f : Frame) : Bundle :=
  (s.bundles.find? (fun b => decide (b.lc = adLc f.src) && decide (b.step = f.step) && decide (b.epoch = f.epoch))).getD
    { lc := adLc f.src, step := f.step, epoch := f.epoch, cmds := [], grads := [], seals := [], digest := none, whole := false }

/-- Put a bundle back, bundles in ascending step. -/
def putBundle (s : State) (b : Bundle) : State :=
  let l := s.bundles.filter (fun x => !(decide (x.lc = b.lc) && decide (x.step = b.step) && decide (x.epoch = b.epoch)))
  { s with bundles := l.filter (fun x => decide (x.step < b.step)) ++ [b] ++ l.filter (fun x => decide (b.step ≤ x.step)) }

/-- The digest of a ward goes with its bundle, which may only now begin (R40); one of a step that the reflection holds
already has none. -/
def digestKeep (s : State) (f : Frame) : State :=
  if f.step ≤ s.reflN then s else putBundle s { bundleOf s f with digest := some (slice f.body 4 32) }

/-- A DIGEST frame: of the ward it is kept with the bundle; of a peer of the fold group it is compared or kept, and for a
step sealed here it is answered with the stored digest. -/
def digestTake (l : Nat) (f : Frame) (s0 : State) : State :=
  let lc := adLc f.src
  let s := if s0.ward = some lc then digestKeep s0 f else s0
  let d := slice f.body 4 32
  if (foldPeers s).contains lc then
    match stepRec s f.step with
    | some r =>
      if r.st = .sealed then sendDigest s f.step (r.digest.getD []) lc
      else if unsealed r && decide (f.epoch = s.epoch) then
        digestCheck (updStep s f.step (fun r => { r with peers := (lc, d) :: r.peers.filter (fun p => p.1 != lc) })) f.step
      else dropAt s l
    | none =>
      match s.lastSeal with
      | some (n, own) => if n = f.step then sendDigest s n own lc else dropAt s l
      | none => dropAt s l
  else if s.ward = some lc then s
  else dropAt s l

end Sys2Proof.Machine
end

