-- ==== Sys2Proof/Machine/Cwt.lean ====
section
/-! DEFINITION. Cloevo Work Transport (R417–R425, R430): frames, sequence numbers, acknowledgement, credit, timers, and
the delivery of event records to the host. -/
namespace Sys2Proof.Machine

/-! ## Frames -/

/-- Frame types (Table 15.3). -/
def cOpen : Nat := 0x01
def cOpened : Nat := 0x02
def cClose : Nat := 0x03
def cAck : Nat := 0x04
def cNack : Nat := 0x05
def cCredit : Nat := 0x06
def cWork : Nat := 0x07
def cData : Nat := 0x08
def cRdata : Nat := 0x09
def cCompl : Nat := 0x0A
def cEvent : Nat := 0x0B
def cAbort : Nat := 0x0C
def cAbortResp : Nat := 0x0D
def cKeepalive : Nat := 0x0E
def cBulkPut : Nat := 0x10
def cBulkGet : Nat := 0x11
def cBulkData : Nat := 0x12
def cBulkDone : Nat := 0x13

/-- The type takes a SEQ (Table 15.3). -/
def takesSeq (ty : Nat) : Bool := !(ty = cAck || ty = cNack || ty = cCredit || ty = cKeepalive)

/-- The type is limited by credit (R422). -/
def limited (ty : Nat) : Bool := ty = cWork || ty = cData || ty = cBulkPut || ty = cBulkData

/-- Header bytes 0x00 to 0x2B (Table 15.2). -/
def cwtHead (f : CwtFrame) : List Byte :=
  leBytes 2 0x5743 ++ [1] ++ leBytes 1 f.ty ++ leBytes 2 f.queue ++ leBytes 2 f.fflags ++ leBytes 4 f.seq ++ leBytes 4 f.ack
    ++ leBytes 4 f.epoch ++ leBytes 4 f.step ++ leBytes 8 f.order ++ leBytes 8 f.offset ++ leBytes 2 f.body.length
    ++ leBytes 2 f.arg

/-- A frame as its UDP payload (R417). -/
def cwtBytes (f : CwtFrame) : List Byte := cwtHead f ++ leBytes 4 (crc32c (cwtHead f ++ f.body)) ++ f.body

/-- A frame of a type with everything else zero. -/
def cwtFrame (ty queue : Nat) (body : List Byte) : CwtFrame :=
  { ty := ty, queue := queue, fflags := 0, seq := 0, ack := 0, epoch := 0, step := 0, order := 0, offset := 0, arg := 0,
    body := body }

/-- `a` comes before `b` as R183 compares sequence numbers. -/
def seqLt (a b : Nat) : Bool := a % u32Mod ≠ b % u32Mod && reached (BitVec.ofNat 32 b) (BitVec.ofNat 32 a)

/-- MTU of a port in force (Table 15.12): between 1,500 and 9,000. -/
def mtuOf (s : State) (port : Nat) : Nat :=
  min 9000 (max 1500 (bits ((s.ethCfg.getD port (0, 0, 0)).1.toNat) 15 1))

/-- Body bytes that fit a frame behind IP, UDP and CWT headers: 76 bytes of them over IPv4, else 96 (R416). -/
def bodyMax (s : State) (port : Nat) (v4 : Bool) : Nat := mtuOf s port - (if v4 then 76 else 96)

/-- The host of the session has an IPv4 address. -/
def hostV4 (s : State) : Bool := s.sess.any (fun c => decide (c.addr / 2 ^ 32 = 0xFFFF))

/-- Work queues in force: 0 acts as 1. -/
def cwtQueues (s : State) : Nat := max 1 (s.cwtCfg.toNat % 256)

/-- The retransmission timer in force (R421). -/
def rtoOf (s : State) : Nat := max 1 (s.cwtTmr.toNat / 65536) * btUs

/-- The longest retransmission timer: 12.8 ms. -/
def rtoMax : Nat := 12800 * btUs

/-- The bulk timer in force (R430). -/
def bulkTmo (s : State) : Nat := max 1 (s.cwtTmr.toNat % 65536) * btMs

/-- A port is up and enabled. -/
def portUp (s : State) (p : Nat) : Bool :=
  rbit s (.eth p) rEthStatus 0 && bitAt ((s.ethCfg.getD p (0, 0, 0)).1.toNat) 0

/-! ## The ingress buffer (R424) -/

/-- Flow control in force at a port (ETH_PFC.MODE). -/
def flowMode (s : State) (port : Nat) : Nat := bits ((s.ethCfg.getD port (0, 0, 0)).2.1).toNat 1 0

/-- Watermarks in force, in bytes: XOFF at most 56 MiB, XON below XOFF (Table 15.12). -/
def bufXoff (s : State) (port : Nat) : Nat := min 56 (bits ((s.ethCfg.getD port (0, 0, 0)).2.2).toNat 31 16) * 2 ^ 20
def bufXon (s : State) (port : Nat) : Nat :=
  min (bits ((s.ethCfg.getD port (0, 0, 0)).2.2).toNat 15 0 * 2 ^ 20) (bufXoff s port - 2 ^ 20)

/-- Bytes in a port's ingress buffer. -/
def bufOf (s : State) (port : Nat) : Nat := s.ethBuf.getD port 0

/-- Send a pause, or its end: PFC on BULKPRI, or PAUSE when PFC is off (R413, R415). -/
def pauseSend (s : State) (port : Nat) (stop : Bool) : State :=
  let prio := if flowMode s port = 2 then none else some (bits ((s.ethCfg.getD port (0, 0, 0)).2.1).toNat 4 2)
  if portUp s port && decide (flowMode s port ≠ 0) then { s with ethOut := s.ethOut ++ [.pause port prio stop] } else s

/-- The buffer takes bytes in; above XOFF the port asserts its pause and ETH_STATUS.PFC (R424). -/
def bufIn (s : State) (port n : Nat) : State :=
  let s1 := { s with ethBuf := s.ethBuf.set port (bufOf s port + n) }
  if bufXoff s1 port < bufOf s1 port ∧ flowMode s1 port ≠ 0 ∧ !rbit s1 (.eth port) rEthStatus 2 then
    pauseSend (setFld s1 (.eth port) rEthStatus 2 2 1) port true
  else s1

/-- Beacon ticks from one refresh of a pause to the next: 20 µs, within the longest pause of IEEE 802.1Qbb (log 119). -/
def pauseEvery : Nat := 20 * btUs

/-- One tick of a port's buffer: it drains; an asserted pause is refreshed until the buffer falls below XON (R424). -/
def bufTick (s : State) (port : Nat) : State :=
  let s1 := if bufOf s port = 0 then s else { s with ethBuf := s.ethBuf.set port (bufOf s port - Config.portDrain port s.beacon) }
  if !rbit s1 (.eth port) rEthStatus 2 then s1
  else if bufOf s1 port < bufXon s1 port then pauseSend (setFld s1 (.eth port) rEthStatus 2 2 0) port false
  else if s1.beacon % pauseEvery = 0 then pauseSend s1 port true
  else s1

/-! ## Queues -/

/-- A queue of a session. -/
def cwtQ (qs : SMap CwtQ) (q : Nat) : CwtQ := smGet (fun _ => CwtQ.reset) qs q

/-- Change a queue. -/
def updQ (qs : SMap CwtQ) (q : Nat) (f : CwtQ → CwtQ) : SMap CwtQ := smUpd (fun _ => CwtQ.reset) qs q f

/-- PCP of a frame (R415): CTLPRI for control frames, BULKPRI for the others. -/
def pcpOf (s : State) (port : Nat) (f : CwtFrame) : Nat :=
  let w := ((s.ethCfg.getD port (0, 0, 0)).2.1).toNat
  if [cAck, cNack, cCredit, cCompl, cEvent, cAbortResp, cKeepalive].contains f.ty then bits w 7 5 else bits w 4 2

/-- Put a frame on the network (R417); one of a paused priority waits (R413), and one for a port that is down is lost. -/
def netOut (s : State) (port dst : Nat) (f : CwtFrame) : State :=
  let o : CwtOut := { port := port, dst := dst, f := f }
  if !portUp s port then s
  else if s.pfc.contains (port, pcpOf s port f) then { s with cwtHeld := s.cwtHeld ++ [o] } else { s with cwtOut := s.cwtOut ++ [o] }

/-- A queue sends a frame: its SEQ and ACK, and the copy kept until it is acknowledged (R420, R421). -/
def qSend (s : State) (x : CwtQ) (f : CwtFrame) : CwtQ × CwtFrame :=
  let g := { f with seq := x.txNext, ack := x.hold.getD x.rxNext }
  if takesSeq f.ty then
    ({ x with txNext := (x.txNext + 1) % u32Mod, unack := x.unack ++ [g], sent := x.sent ++ [s.beacon]
              txBytes := if limited f.ty then x.txBytes + f.body.length else x.txBytes
              rto := if x.unack.isEmpty then some (s.beacon + rtoOf s) else x.rto }, g)
  else (x, g)

/-- Send a frame to the host on a queue of the session. A LOST session sends nothing. -/
def hostSend (s : State) (f : CwtFrame) : State :=
  match s.sess with
  | some c =>
    let y := qSend s (cwtQ c.qs f.queue) f
    let s1 := { s with sess := some { c with qs := updQ c.qs f.queue (fun _ => y.1), txAt := s.beacon } }
    if c.lost then s1 else netOut s1 c.port 0 y.2
  | none => s

/-- A bare ACK. -/
def hostAck (s : State) (q : Nat) : State := hostSend s (cwtFrame cAck q [])

/-- A NACK with its code and OFFSET (Table 15.4). -/
def hostNack (s : State) (q code offset : Nat) : State := hostSend s { cwtFrame cNack q [] with arg := code, offset := offset }

/-- A NACK to a sender that has no session (R418). -/
def strayNack (s : State) (port q code : Nat) : State := netOut s port 0 { cwtFrame cNack q [] with arg := code }

/-- Retransmission after the ACK advanced: the timer returns to RTO (R421). -/
def qAck (s : State) (x : CwtQ) (ack : Nat) : CwtQ :=
  let left := x.unack.filter (fun f => !seqLt f.seq ack)
  if left.length = x.unack.length then x
  else { x with unack := left, sent := x.sent.drop (x.unack.length - left.length), rtoN := 0, rto := if left.isEmpty then none else some (s.beacon + rtoOf s) }

/-- Frames that an ACK value releases. -/
def qAcked (x : CwtQ) (ack : Nat) : List CwtFrame := x.unack.filter (fun f => seqLt f.seq ack)

/-! ## Credit to the host (R422) -/

/-- Byte window of a work queue: CWT_WIN, within an equal share of 48 of the port's 56 MiB (R422). -/
def winBytes (s : State) : Nat := min (s.cwtWin.toNat % 65536 * 1024) (50331648 / cwtQueues s)

/-- Byte window that a sink has: CWT_WIN, within a 48th of the other 8 MiB (R422). -/
def sinkWin (s : State) : Nat := min (s.cwtWin.toNat % 65536 * 1024) (8388608 / 48)

/-- Limits of a queue raised to a window of CWT_WIN frames and `w` bytes; they never decrease (R422). -/
def raiseLimits (s : State) (w : Nat) (x : CwtQ) : CwtQ :=
  let f := (x.rxNext + s.cwtWin.toNat / 65536) % u32Mod
  { x with flim := if seqLt x.flim f then f else x.flim, blim := max x.blim (x.rxBytes + w) }

/-- The CREDIT frame of a queue's limits. -/
def creditFrame (q : Nat) (x : CwtQ) : CwtFrame :=
  cwtFrame cCredit q (leBytes 4 (x.flim % u32Mod) ++ [0, 0, 0, 0] ++ leBytes 8 x.blim)

/-- Records that wait on a queue: unacknowledged COMPL records and waiting ones (R421). -/
def complWait (s : State) (c : Sess) (q : Nat) : Nat :=
  ((cwtQ c.qs q).unack.filter (fun f => f.ty = cCompl)).foldl (fun n f => n + f.body.length / 40) 0
    + (s.compl.filter (fun x => x.1 == q)).length

/-- Beacon ticks from one repetition of the credit limits to the next: 10 ms (R422). -/
def creditEvery : Nat := 10 * btMs

/-- Raise the limits of a queue as far as its window and its records allow, and send CREDIT. -/
def giveCredit (s : State) (q : Nat) : State :=
  match s.sess with
  | some c =>
    let x := cwtQ c.qs q
    if q = 0 ∨ 65536 ≤ complWait s c q then s
    else
      let y := raiseLimits s (winBytes s) x
      hostSend { s with sess := some { c with qs := updQ c.qs q (fun _ => y) } } (creditFrame q y)
  | none => s

/-- Repeat the limits of a queue. -/
def repeatCredit (s : State) (q : Nat) : State :=
  match s.sess with
  | some c => hostSend s (creditFrame q (cwtQ c.qs q))
  | none => s

/-! ## Event records to the host (R432) -/

/-- Step concerned and code of a stored record. -/
def recStep (r : List Byte) : Nat := leAt r 0x14 4
def recCode (r : List Byte) : Nat := leAt r 0 2
def recEseq (r : List Byte) : Nat := leAt r 0x18 4

/-- A step event waits while completion records of its step are to come (R54). -/
def evHeld (s : State) (r : List Byte) : Bool :=
  decide (recCode r / 256 = 1) && decide (recStep r ≠ 0) &&
    (s.orders.any (fun o => o.step == recStep r) || s.compl.any (fun x => leAt x.2 0x10 4 == recStep r))

/-- Records of a ring from an ESEQ on. -/
def ringFrom (r : EvRing) (eseq : Nat) : List (List Byte) := r.recs.filter (fun x => !seqLt (recEseq x) eseq)

/-- Send what the host ring holds and has not sent, 32 records to a frame. -/
def pushGo : Nat → State → State
  | 0, s => s
  | k + 1, s =>
    let l := ((ringFrom s.evt.host s.hostSent).take 32).takeWhile (fun r => !evHeld s r)
    if l.isEmpty then s
    else pushGo k (hostSend { s with hostSent := (s.hostSent + l.length) % u32Mod } (cwtFrame cEvent 0 l.flatten))

/-- Deliver event records to an open session. -/
def pushEvents (s : State) : State :=
  match s.sess with
  | some c => if c.lost then s else pushGo 128 s
  | none => s

/-- Acknowledged event records leave the ring. -/
def eventsAcked (s : State) (fs : List CwtFrame) : State :=
  let n := fs.foldl (fun n f => if f.ty = cEvent then n + f.body.length / 48 else n) 0
  { s with evt := { s.evt with host := { s.evt.host with recs := s.evt.host.recs.drop n } } }

/-! ## Completion records (R428) -/

/-- Send the completion records that wait, in order. -/
def pushCompl (s : State) : State :=
  match s.sess with
  | some c =>
    if c.lost then s
    else s.compl.foldl (fun t x => hostSend t (cwtFrame cCompl x.1 x.2)) { s with compl := [] }
  | none => s

/-! ## Reception from the host -/

/-- Everything a frame of the host brings before its own effect: the port and time, and the ACK field (R420, R421). -/
def hostSeen (s : State) (port : Nat) (f : CwtFrame) : State :=
  match s.sess with
  | some c =>
    let x := cwtQ c.qs f.queue
    eventsAcked { s with sess := some { c with port := port, rxAt := s.beacon, qs := updQ c.qs f.queue (fun _ => qAck s x f.ack) } }
      (qAcked x f.ack)
  | none => s

/-- What a frame meets before it is accepted. -/
inductive RxVerdict where
  | accept
  | drop (s : State)
  deriving DecidableEq, Repr

/-- Sequence and queue checks (R419, R420); NACK GAP at most once per queue in 10 µs. -/
def seqCheck (s : State) (f : CwtFrame) : RxVerdict :=
  match s.sess with
  | none => .drop s
  | some c =>
    let x := cwtQ c.qs f.queue
    if cwtQueues s < f.queue || (decide (f.queue = 0) && (decide (f.ty = cWork) || decide (f.ty = cData))) then
      .drop (hostNack s f.queue 7 0)
    else if !takesSeq f.ty || f.seq = x.rxNext then .accept
    else if seqLt f.seq x.rxNext then .drop (hostAck (cnt s .cwt rCwtDup) f.queue)
    else if x.gapAt.any (fun t => decide (s.beacon < t + 10 * btUs)) then .drop s
    else
      .drop (hostNack { s with sess := some { c with qs := updQ c.qs f.queue (fun y => { y with gapAt := some s.beacon }) } }
        f.queue 2 0)

/-- The epoch of a step-bound frame (R52, R427): STALE_EPOCH or BAD_EPOCH. -/
def epochCheck (s : State) (f : CwtFrame) : RxVerdict :=
  if f.epoch = 0 ∨ f.epoch = s.epoch then .accept
  else .drop (hostNack (cnt s .cwt rCwtStale) f.queue (if f.epoch < s.epoch then 4 else 5) s.epoch)

/-- The retry-after at a port in µs: the bytes queued ahead by the drain rate, rounded up, at least 1 (R423). -/
def retryAfter (s : State) (port : Nat) : Nat :=
  let rate := Config.portDrain port s.beacon * btUs
  max 1 ((bufOf s port + rate - 1) / rate)

/-- A frame beyond its credit: NACK BUSY (R423). -/
def hostBusy (s : State) (q : Nat) : State :=
  hostNack (cnt s .cwt rCwtBusy) q 1 (retryAfter s ((s.sess.map (fun c => c.port)).getD 0))

/-- The credit of a limited frame (R422, R423). -/
def creditCheck (s : State) (f : CwtFrame) : RxVerdict :=
  match s.sess with
  | none => .drop s
  | some c =>
    let x := cwtQ c.qs f.queue
    if limited f.ty && (!seqLt f.seq x.flim || decide (x.blim < x.rxBytes + f.body.length)) then .drop (hostBusy s f.queue)
    else .accept

/-- Take a frame's SEQ and bytes, which pass through the port's buffer. -/
def hostTake (s0 : State) (f : CwtFrame) : State :=
  match s0.sess with
  | some c =>
    let s := bufIn s0 c.port (48 + f.body.length)
    { s with sess := some { c with qs := updQ c.qs f.queue (fun x =>
      { x with rxNext := if takesSeq f.ty then (x.rxNext + 1) % u32Mod else x.rxNext
               rxBytes := if limited f.ty then x.rxBytes + f.body.length else x.rxBytes }) } }
  | none => s0

/-- Receive a frame of the host's session: the checks in order, then `act` on an accepted frame, its acknowledgement and
new credit. `act` gives none when it answers with a NACK of its own and the frame is not accepted. -/
def hostRx (ty : Nat) (port : Nat) (p : CwtPeer) (f : CwtFrame) (act : State → State × Bool) (s : State) : State :=
  if f.ty ≠ ty ∨ !portUp s port then s
  else
    match p with
    | .sink _ => s
    | .host addr =>
      match s.sess with
      | none => strayNack s port f.queue 7
      | some c =>
        if c.addr ≠ addr then strayNack s port f.queue 6
        else if c.lost then strayNack s port f.queue 7
        else
          let s1 := hostSeen s port f
          match seqCheck s1 f with
          | .drop t => t
          | .accept =>
            match epochCheck s1 f with
            | .drop t => t
            | .accept =>
              match creditCheck s1 f with
              | .drop t => t
              | .accept =>
                let y := act s1
                if y.2 then
                  let s2 := hostTake y.1 f
                  let s3 := if takesSeq ty then hostAck s2 f.queue else s2
                  pushEvents (pushCompl (if limited ty then giveCredit s3 f.queue else s3))
                else y.1

/-- Number added to the queue of an order whose session has ended: it completes without a record. -/
def noQueue : Nat := 65536

/-- The session ends (R418): its orders still complete, but for a WRITE whose data cannot come any more. -/
def sessEnd (s : State) : State :=
  let s1 := { s with
    sess := none, compl := [], retired := [], hostSent := (s.evt.host.recs.head?.map (fun r => recEseq r)).getD s.evt.host.eseq
    orders := (s.orders.filter (fun o => o.inFlight && (o.done || decide (o.kind ≠ 1)))).map (fun o =>
      if o.queue < noQueue then { o with queue := o.queue + noQueue } else o) }
  setReg (setReg (setFld s1 .cwt rCwtStatus 1 0 0) .cwt rCwtJobLo 0) .cwt rCwtJobHi 0

/-! ## Sessions with sinks (R430) -/

/-- The session with a sink. -/
def bulkOf (s : State) (k : Nat) : Option Bulk := s.bulks.find? (fun b => b.sink == k)

/-- Replace the session with a sink. -/
def setBulk (s : State) (b : Bulk) : State := { s with bulks := s.bulks.map (fun x => if x.sink = b.sink then b else x) }

/-- Port that a sink is reached by: ETH0, ETH1, or either, the first that is up. -/
def sinkPort (s : State) (eth : Nat) : Nat := if eth = 0 then 0 else if eth = 1 then 1 else if portUp s 0 then 0 else 1

/-- Send a frame to a sink; CKPT_BYTES counts the object bytes (Table 14.6). -/
def sinkSend (s : State) (k : Nat) (f : CwtFrame) : State :=
  match bulkOf s k with
  | some b =>
    let y := qSend s (cwtQ b.qs f.queue) f
    let s1 := netOut (setBulk s { b with qs := updQ b.qs f.queue (fun _ => y.1), txAt := s.beacon }) (sinkPort s b.eth) (1 + k) y.2
    if f.ty = cBulkPut then cnt64 s1 .ckpt rCkptBytesLo (f.body.length - 16) else s1
  | none => s

/-- A limited frame is within the sink's credit. -/
def within (x : CwtQ) (f : CwtFrame) : Bool :=
  !limited f.ty || (seqLt x.txNext x.pflim && decide (x.txBytes + f.body.length ≤ x.pblim))

/-- Send the frames that wait on a queue of a sink, while credit allows. -/
def bulkPump : Nat → Nat → Nat → State → State
  | 0, _, _, s => s
  | n + 1, k, q, s =>
    match bulkOf s k with
    | none => s
    | some b =>
      match (cwtQ b.qs q).wait with
      | [] => s
      | f :: r =>
        if within (cwtQ b.qs q) f then
          bulkPump n k q (sinkSend (setBulk s { b with qs := updQ b.qs q (fun x => { x with wait := r }) }) k f)
        else s

/-- Put frames behind those that wait on a queue of a sink, and send what may go. -/
def bulkQueue (s : State) (k q : Nat) (fs : List CwtFrame) : State :=
  match bulkOf s k with
  | none => s
  | some b =>
    let n := (cwtQ b.qs q).wait.length + fs.length
    bulkPump n k q (setBulk s { b with qs := updQ b.qs q (fun x => { x with wait := x.wait ++ fs }) })

/-- The 16 bytes of a KEY. -/
def keyBytes (o : BulkObj) : List Byte := leBytes 8 o.keyH ++ leBytes 8 o.keyL

/-- Cut bytes into pieces of at most n. -/
def pieces (n : Nat) : Nat → List Byte → List (List Byte)
  | 0, _ => []
  | k + 1, l => if l.length ≤ n then [l] else l.take n :: pieces n k (l.drop n)

/-- Frames of an object: the parts of a write and its end, or the request of a read. -/
def objFrames (s : State) (o : BulkObj) (b : Bulk) : List CwtFrame :=
  if o.put then
    let m := bodyMax s (sinkPort s b.eth) b.v4 - 16
    (pieces m (o.data.length + 1) o.data).mapIdx (fun i d =>
      { cwtFrame cBulkPut o.q (keyBytes o ++ d) with offset := i * m })
      ++ [cwtFrame cBulkDone o.q (keyBytes o ++ leBytes 8 o.data.length)]
  else [cwtFrame cBulkGet o.q (keyBytes o ++ leBytes 8 o.len)]

/-- A queue 1–16 of a sink that no object uses. -/
def freeQueue (s : State) (k : Nat) : Option Nat :=
  ((List.range 16).map (· + 1)).find? (fun q => !s.objects.any (fun o => o.sink == k && o.q == q && !o.done))

/-- Grant a sink the window of a queue for BULK_DATA (R422). -/
def sinkCredit (s : State) (k q : Nat) : State :=
  match bulkOf s k with
  | some b =>
    let y := raiseLimits s (sinkWin s) (cwtQ b.qs q)
    sinkSend (setBulk s { b with qs := updQ b.qs q (fun _ => y) }) k (creditFrame q y)
  | none => s

/-- Begin one object of an open session. -/
def objBegin (s : State) (i : Nat) : State :=
  match s.objects[i]? with
  | none => s
  | some o =>
    match bulkOf s o.sink with
    | none => s
    | some b =>
      if o.q ≠ 0 ∨ !b.open_ then s
      else
        match freeQueue s o.sink with
        | none => s
        | some q =>
          let o1 := { o with q := q }
          let s1 := bulkQueue { s with objects := s.objects.set i o1 } o.sink q (objFrames s o1 b)
          if o.put then s1 else sinkCredit s1 o.sink q

/-- Begin every object that can begin. -/
def objsBegin (s : State) : State := (List.range s.objects.length).foldl objBegin s

/-- Add objects. -/
def addObjs (s : State) (l : List BulkObj) : State := objsBegin { s with objects := s.objects ++ l }

/-- Open a session with a sink (R430): OPEN with BULK on queue 0. -/
def bulkOpen (s : State) (job k : Nat) (e : SinkEnt) : State :=
  match bulkOf s k with
  | some _ => s
  | none =>
    sinkSend { s with bulks := s.bulks ++ [{ sink := k, eth := e.eth, v4 := e.v4, open_ := false, qs := [], txAt := s.beacon }] } k
      { cwtFrame cOpen 0 (leBytes 8 job ++ List.replicate 8 0) with fflags := 2 }

/-- End every bulk session and transfer. -/
def bulkEnd (s : State) : State := { s with bulks := [], objects := [] }

/-- Objects of a sink whose BULK_DONE an ACK releases are stored there. -/
def objsAcked (s : State) (k : Nat) (fs : List CwtFrame) : State :=
  { s with objects := s.objects.map (fun o =>
      if o.sink = k ∧ !o.done ∧ fs.any (fun f => f.queue = o.q) then
        { o with done := o.put && fs.any (fun f => f.queue = o.q && f.ty = cBulkDone) }
      else o) }

/-- Everything a frame of a sink brings before its own effect. -/
def sinkSeen (s : State) (k : Nat) (f : CwtFrame) : State :=
  match bulkOf s k with
  | some b =>
    let x := cwtQ b.qs f.queue
    objsAcked (setBulk s { b with qs := updQ b.qs f.queue (fun _ => qAck s x f.ack) }) k (qAcked x f.ack)
  | none => s

/-- Receive a frame of a sink: sequence checks as for the host, then `act`, and the acknowledgement. -/
def sinkRx (ty port : Nat) (p : CwtPeer) (f : CwtFrame) (act : Nat → State → State) (s : State) : State :=
  if f.ty ≠ ty ∨ !portUp s port then s
  else
    match p with
    | .host _ => s
    | .sink k =>
      match bulkOf s k.val with
      | none => s
      | some _ =>
        let s1 := sinkSeen s k.val f
        match bulkOf s1 k.val with
        | none => s1
        | some b =>
          let x := cwtQ b.qs f.queue
          if !takesSeq ty then act k.val s1
          else if f.seq = x.rxNext then
            if limited ty && (!seqLt f.seq x.flim || decide (x.blim < x.rxBytes + f.body.length)) then
              sinkSend (cnt s1 .cwt rCwtBusy) k.val { cwtFrame cNack f.queue [] with arg := 1, offset := retryAfter s1 port }
            else
            let n := if limited ty then f.body.length else 0
            let s2 := setBulk (bufIn s1 port (48 + f.body.length)) { b with qs := updQ b.qs f.queue (fun y =>
              { y with rxNext := (y.rxNext + 1) % u32Mod, rxBytes := y.rxBytes + n }) }
            sinkSend (act k.val s2) k.val (cwtFrame cAck f.queue [])
          else if seqLt f.seq x.rxNext then sinkSend (cnt s1 .cwt rCwtDup) k.val (cwtFrame cAck f.queue [])
          else if x.gapAt.any (fun t => decide (s.beacon < t + 10 * btUs)) then s1
          else
            sinkSend (setBulk s1 { b with qs := updQ b.qs f.queue (fun y => { y with gapAt := some s.beacon }) }) k.val
              { cwtFrame cNack f.queue [] with arg := 2 }

/-! ## Resending (R421, R423) -/

/-- Frames of a queue go again, from a SEQ on. -/
def resendHost (s : State) (q from_ : Nat) : State :=
  match s.sess with
  | some c => ((cwtQ c.qs q).unack.filter (fun f => !seqLt f.seq from_)).foldl (fun t f =>
      netOut t c.port 0 { f with ack := ((cwtQ c.qs q).hold).getD (cwtQ c.qs q).rxNext }) s
  | none => s

/-- Frames of a queue of a sink go again, from a SEQ on. -/
def resendSink (s : State) (k q from_ : Nat) : State :=
  match bulkOf s k with
  | some b => ((cwtQ b.qs q).unack.filter (fun f => !seqLt f.seq from_)).foldl (fun t f =>
      netOut t (sinkPort s b.eth) (1 + k) { f with ack := (cwtQ b.qs q).rxNext }) s
  | none => s

/-- SEQ of the oldest unacknowledged frame. -/
def oldestSeq (x : CwtQ) : Nat := (x.unack.head?.map (fun f => f.seq)).getD x.txNext

/-- The next deadline: the timer doubles with each consecutive expiry (R421). -/
def nextRto (s : State) (n : Nat) : Nat := s.beacon + min rtoMax (rtoOf s * 2 ^ n)

/-- The session is LOST: EVT_CWT_SESSION_LOST with the job, the port and the cause (R421). -/
def sessLost (s : State) (cause : Nat) : State :=
  match s.sess with
  | some c =>
    if c.lost then s
    else
      let s1 := setFld (setFld { s with sess := some { c with lost := true } } .cwt rCwtStatus 1 0 2) .cwt rCwtStatus 2 2 1
      raise s1 .cwtSessionLost whHub 0 [a64 c.job, a8 c.port, a8 cause]
  | none => s

end Sys2Proof.Machine
end

