-- ==== Sys2Proof/Machine/Units.lean ====
section
/-! DEFINITION. Tensor units: the unit map, substitution and doubling, eclipse, retirement, bands and fences
(R130–R139). A region is 4 × die + region; unit numbers run from 0 to 65. -/
namespace Sys2Proof.Machine

/-- Key of a unit. -/
def unitKey (rg u : Nat) : Nat := 66 * rg + u

/-- A unit. -/
def unitAt (s : State) (rg u : Nat) : UnitRec := smGet UnitRec.reset s.units (unitKey rg u)

/-- Replace a unit. -/
def setUnit (s : State) (rg u : Nat) (r : UnitRec) : State := { s with units := smPut UnitRec.reset s.units (unitKey rg u) r }

/-- The register blocks of a region and of a unit. -/
def rgnBlk (rg : Nat) : Blk := .rgn (rg / 4) (rg % 4)
def unitBlk (rg u : Nat) : Blk := .unit (rg / 4) (rg % 4) u

/-- WHERE of a unit. -/
def whU (rg u : Nat) : Nat := whUnit (rg / 4) (rg % 4) u

/-- The physical unit that serves a logical index; 0x7F for none (Table 4.10). -/
def mapOf (s : State) (rg l : Nat) : Nat := fld s (rgnBlk rg) (rRgnUnitmap + 4 * l) 6 0

/-- Logical indices that a unit serves. -/
def serves (s : State) (rg u : Nat) : List Nat := (List.range 64).filter (fun l => mapOf s rg l == u)

/-- The unit can compute. -/
def unitUp (s : State) (rg u : Nat) : Bool := !(unitAt s rg u).eclipsed && !(unitAt s rg u).retired

/-- A spare that some unit's fence holds. -/
def isReserved (s : State) (rg u : Nat) : Bool := (List.range 66).any (fun x => (unitAt s rg x).rsv == some u)

/-- The unit's present band is fenced (R136). -/
def fencedNow (s : State) (rg u : Nat) : Bool :=
  let x := unitAt s rg u
  x.rsv.isSome && bitAt x.fence x.band

/-- Free spares of a region, lowest number first (R132). -/
def freeSpares (s : State) (rg : Nat) : List Nat :=
  (List.range 66).filter (fun u => unitUp s rg u && (serves s rg u).isEmpty && !isReserved s rg u && (unitAt s rg u).rsv.isNone)

/-- STATE of UNIT_STATUS (Table 4.11). -/
def unitState (s : State) (rg u : Nat) : Nat :=
  let x := unitAt s rg u
  let sv := serves s rg u
  if x.retired then 6
  else if x.eclipsed then 5
  else if 2 ≤ sv.length then 7
  else match sv with
    | l :: _ => if x.home = some l then 0 else 3
    | [] => if fencedNow s rg u then 4 else if isReserved s rg u then 2 else 1

/-- UNIT_STATUS as it reads: the stored RC bits with BAND, LOGICAL and STATE. -/
def unitStatus (s : State) (rg u : Nat) : Word :=
  let v := (regAt s (unitBlk rg u) rUnitStatus).toNat
  w32 (putBits (putBits (putBits v 27 24 (unitAt s rg u).band) 23 16 ((serves s rg u).headD 0xFF)) 15 12 (unitState s rg u))

/-- Write one entry of the unit map, and DOUBLED of every entry by what it serves. -/
def setMap (s : State) (rg l phys : Nat) : State :=
  let s1 := setFld s (rgnBlk rg) (rRgnUnitmap + 4 * l) 6 0 phys
  (List.range 64).foldl (fun t k =>
    setFld t (rgnBlk rg) (rRgnUnitmap + 4 * k) 7 7 (b2n (decide (mapOf s1 rg k ≠ 0x7F) && decide (2 ≤ (serves s1 rg (mapOf s1 rg k)).length)))) s1

/-- A host for a doubled index: the lowest-numbered enabled member of the cluster that does not already serve two
indices (R133). -/
def doubleHost (s : State) (rg l not_ : Nat) : Option Nat :=
  ((List.range 4).map (fun j => mapOf s rg (l / 4 * 4 + j))).find? (fun u =>
    decide (u ≠ not_) && decide (u < 66) && unitUp s rg u && decide ((serves s rg u).length < 2))

/-- Give a logical index another unit than `u`: a free spare, else a doubled member, else none (R133). -/
def rehome (rg u : Nat) (s : State) (l : Nat) : State :=
  match freeSpares s rg with
  | p :: _ => setMap s rg l p
  | [] =>
    match doubleHost s rg l u with
    | some p => raise (setMap s rg l p) .unitDoubled (whU rg p) 0 []
    | none => setMap s rg l 0x7F

/-- A unit that left service gives up what it served and held for others. -/
def unserve (s : State) (rg u : Nat) : State :=
  let s1 := (List.range 66).foldl (fun t x =>
    if (unitAt t rg x).rsv = some u then setUnit t rg x { unitAt t rg x with rsv := none, fence := 0 } else t) s
  (serves s1 rg u).foldl (rehome rg u) s1

/-- Free spares of a die, by unit key. -/
def dieSpares (s : State) (d : Nat) : List Nat :=
  (List.range 4).flatMap (fun r => (freeSpares s (4 * d + r)).map (unitKey (4 * d + r)))

/-- Partners of the certifications that run. -/
def certPartners (s : State) : List Nat := s.units.filterMap (fun e => e.2.partner)

/-- A unit in eclipse starts its certification against a free spare of its die, or waits for one: EVT_CERT_WAIT once
(R386, R387). -/
def unitCertGo (s : State) (rg u : Nat) : State :=
  let x := unitAt s rg u
  if !x.eclipsed || s.certs.any (fun c => decide (c.what = .unit rg u)) then s
  else
    match (dieSpares s (rg / 4)).filter (fun k => !(certPartners s).contains k) with
    | p :: _ =>
      let s1 := setUnit s rg u { x with certWait := false, partner := some p }
      { s1 with certs := s1.certs ++ [{ what := .unit rg u, running := true, at_ := s1.beacon + s1.certSec * 200000000 }] }
    | [] => if x.certWait then s else raise (setUnit s rg u { x with certWait := true }) .certWait (whU rg u) 0 []

/-- A unit enters eclipse (R130, R386): EVT_UNIT_ECLIPSE, the health score, substitution,
and its certification. -/
def eclipseUnit (s : State) (rg u : Nat) : State :=
  if unitUp s rg u then
    let s1 := setUnit s rg u { unitAt s rg u with eclipsed := true, first := [] }
    unitCertGo (unserve (health (raise s1 .unitEclipse (whU rg u) 0 []) 8) rg u) rg u
  else s

/-- A unit is retired for good (R134). -/
def retireUnitSt (s : State) (rg u : Nat) : State :=
  if (unitAt s rg u).retired then s
  else
    let s0 := { s with certs := s.certs.filter (fun c => !decide (c.what = .unit rg u)) }
    let s1 := setUnit s0 rg u { unitAt s rg u with retired := true, eclipsed := false, home := none, partner := none, certWait := false }
    unserve s1 rg u

/-- A unit ends its eclipse and becomes a free spare; its substitute keeps the logical index as its own (R387). -/
def uneclipse (s : State) (rg u : Nat) : State :=
  let x := unitAt s rg u
  let s1 := match x.home with
    | some l =>
      let p := mapOf s rg l
      if p < 66 ∧ (serves s rg p).length = 1 ∧ (unitAt s rg p).home = none then setUnit s rg p { unitAt s rg p with home := some l } else s
    | none => s
  setUnit s1 rg u { x with eclipsed := false, home := none, certWait := false, partner := none, first := [] }

/-! ## Bands and fences (R135, R136) -/

/-- The band of a temperature in units of 0.25 °C. -/
def bandOf (t : Nat) : Nat := if t < 120 then 0 else min 15 ((t - 120) / 20)

/-- The band that follows from the present one: left only 2 °C beyond its edge. -/
def nextBand (old t : Nat) : Nat :=
  let lo := 120 + 20 * old
  let hi := 140 + 20 * old
  if (old ≠ 0 ∧ t + 8 < lo) ∨ (old ≠ 15 ∧ hi + 8 ≤ t) then bandOf t else old

/-- What unit p serves goes to unit u, EVT_UNIT_FENCED naming the fenced unit and its band (R136). -/
def fenceMove (s : State) (rg u p q : Nat) : State :=
  match serves s rg p with
  | [] => s
  | ls => raise (ls.foldl (fun t l => setMap t rg l q) s) .unitFenced (whU rg u) 0 [a8 (unitAt s rg u).band]

/-- A fenced unit serves its index again; its spare served no other (R136). -/
def fenceBack (s : State) (rg u p : Nat) : State := if unitUp s rg u then fenceMove s rg u p u else s

/-- Put a fenced unit's logical index on its reserved spare or back on the unit, by its band: EVT_UNIT_FENCED with the
band at each switch (R136). -/
def fenceSwitch (s : State) (rg u : Nat) : State :=
  match (unitAt s rg u).rsv with
  | none => s
  | some p => if fencedNow s rg u then fenceMove s rg u u p else fenceBack s rg u p

/-- A unit's temperature is sampled. -/
def unitTemp (s : State) (rg u t : Nat) : State :=
  fenceSwitch (setUnit s rg u { unitAt s rg u with band := nextBand (unitAt s rg u).band t }) rg u

/-- Apply UNIT_FENCE of one unit: a new fence reserves a free spare or is refused; a cleared fence releases it (R136). -/
def applyFence (rg : Nat) (s : State) (u : Nat) : State :=
  let x := unitAt s rg u
  let f := fld s (unitBlk rg u) 0x40 31 16
  if f = 0 then
    match x.rsv with
    | none => s
    | some p =>
      setUnit (fenceBack s rg u p) rg u { x with fence := 0, rsv := none }
  else if x.rsv.isSome then fenceSwitch (setUnit s rg u { x with fence := f }) rg u
  else
    match (freeSpares s rg).filter (fun p => p != u) with
    | p :: _ => fenceSwitch (setUnit s rg u { x with fence := f, rsv := some p }) rg u
    | [] => raise s .fenceRefused (whU rg u) 0 []

/-- RGN_APPLY applies the fences of every unit of the region (R136, Table 4.10). -/
def fenceApplyWrite (s : State) (rg : Nat) : State := (List.range 66).foldl (applyFence rg) s

/-! ## Band table (R354) -/

/-- Key of a record: region, index (a unit, or 66 + cluster for a vector engine), band. -/
def bandKey (rg idx b : Nat) : Nat := (82 * rg + idx) * 16 + b

/-- A record of the band table. -/
def bandAt (s : State) (rg idx b : Nat) : BandRec := smGet (fun _ => BandRec.zero) s.bands (bandKey rg idx b)

/-- Change a record; its counters stick at all ones. -/
def updBand (s : State) (rg idx b : Nat) (f : BandRec → BandRec) : State :=
  { s with bands := smUpd (fun _ => BandRec.zero) s.bands (bandKey rg idx b) f }

/-- Count up to all ones. -/
def stick (n : Nat) : Nat := min u32Max (n + 1)

/-! ## Clocks (R444, R445) -/

/-- FMAX of a region in force: whole 25 MHz from 400 to 1,200 (R445). -/
def fmaxOf (s : State) (rg : Nat) : Nat := min 1200 (max 400 (fld s (.clk (rg / 4)) (rClkLimit + 4 * (rg % 4)) 10 0 / 25 * 25))

/-- Frequency of the islands of a region in MHz: the lower of FMAX and of the die's cap (R444). -/
def islandFreq (s : State) (rg : Nat) : Nat := min (fmaxOf s rg) (fld s (.clk (rg / 4)) rClkStatus 10 0)

/-! ## Class A mismatches (R128–R130) -/

/-- EVT_ABFT_MISMATCH and the counts of a physical unit, with |O − P| and τ in FP32 (R128, R354). -/
def abftMismatch (s : State) (rg u pc step : Nat) (f : AbftFail) (diff tau : Nat) : State :=
  let b := (unitAt s rg u).band
  let s1 := setFld (cnt s (unitBlk rg u) rUnitAbftMismatch) (unitBlk rg u) rUnitStatus 2 2 1
  let s2 := updBand s1 rg u b (fun r => { r with abft := stick r.abft })
  raise s2 .abftMismatch (whU rg u) step
    [a64 pc, a32 f.tile, a32 f.wave, a8 f.kind, a32 diff, a32 tau, a16 f.temp, a16 f.volt, a8 b, a16 (islandFreq s rg)]

/-- The eclipse window (R130): a second mismatch in the band within it sends the unit into eclipse. -/
def eclipseWindow (s : State) (rg u : Nat) : State :=
  let x := unitAt s rg u
  let win := max 1 (fld s (rgnBlk rg) rRgnEclipseWin 15 0) * 200000000
  match x.first.find? (fun p => p.1 == x.band) with
  | some p =>
    if s.beacon ≤ p.2 + win then eclipseUnit s rg u
    else setUnit s rg u { x with first := (x.band, s.beacon) :: x.first.filter (fun y => y.1 != x.band) }
  | none => setUnit s rg u { x with first := (x.band, s.beacon) :: x.first }

/-- The physical units that run a member's share: the serving unit, then its re-run units (R128). -/
def rerunUnits (s : State) (rg c j : Nat) : List Nat :=
  let m := fun k => mapOf s rg (4 * c + k % 4)
  let sp := freeSpares s rg
  [m j, (sp[0]?).getD (m (j + 1)), (sp[1]?).getD (m (j + 2))]

end Sys2Proof.Machine
end

