-- ==== Sys2Proof/Machine/Prism.lean ====
section
/-! DEFINITION. Prism tests (R349–R354). -/
namespace Sys2Proof.Machine

/-- Length in clk of a burst kind (Table 12.2). -/
def burstLen : Nat → Nat
  | 0 => 524 | 1 => 524 | 2 => 780 | 3 => 780 | 4 => 1036 | 5 => 524 | _ => 120

/-- The credit cap in clk (R349). -/
def creditCap : Nat := 8192

/-- A reporter: 0–65 a unit, 66 + cluster a vector engine. -/
def isVec (idx : Nat) : Bool := decide (66 ≤ idx)

/-- Burst state of a reporter. -/
def prismOf (s : State) (rg idx : Nat) : PrismSt := smGet (fun _ => PrismSt.reset) s.prismSt (82 * rg + idx)

/-- Replace the burst state of a reporter. -/
def setPrism (s : State) (rg idx : Nat) (p : PrismSt) : State :=
  { s with prismSt := smPut (fun _ => PrismSt.reset) s.prismSt (82 * rg + idx) p }

/-- The region's running credit (R349). -/
def prismClkOf (s : State) (rg : Nat) : Nat := smGet (fun _ => 0) s.prismClk rg

/-- Credit of a reporter of a region in 8,000ths of a clk (R349). -/
def creditOf (s : State) (rg : Nat) (p : PrismSt) : Nat := min (creditCap * 8000) (prismClkOf s rg - p.base)

/-- Kind of the next burst of a reporter: the enabled kinds 0 to 5 in rotation, or 6 (R350). -/
def burstKind (s : State) (idx b : Nat) : Option Nat :=
  let k := bits s.prismCtl.toNat 22 16
  if isVec idx then (if bitAt k 6 then some 6 else none)
  else
    let l := setBits 6 k
    l[b % l.length]?

/-- Work waits for a reporter: an instruction of the clusters it serves. -/
def reporterBusy (s : State) (rg idx : Nat) : Bool :=
  s.ops.any (fun o => match o.eng with
    | .vec q => isVec idx && decide (q = 16 * rg + (idx - 66))
    | .mma q t => !isVec idx && decide (q / 16 = rg) &&
        (List.range 4).any (fun j => (decide (t = 4) || decide (t = j)) && decide (mapOf s rg (4 * (q % 16) + j) = idx))
    | _ => false)

/-- A reporter runs bursts in service: not in eclipse, retired or fenced in its band (R349). -/
def reporterUp (s : State) (rg idx : Nat) : Bool :=
  dieIn s (rg / 4) && (isVec idx || (unitUp s rg idx && !fencedNow s rg idx))

/-- WHERE of a reporter. -/
def whRep (rg idx : Nat) : Nat := if isVec idx then whClu (16 * rg + (idx - 66)) else whU rg idx

/-- Temperature band of a report: the unit's, or that of a vector engine's island. -/
def repBand (s : State) (rg idx temp : Nat) : Nat := if isVec idx then bandOf temp else (unitAt s rg idx).band

/-- One prism mismatch: its event with the fields of R354, the counts, the health input and flicker (R352–R354). -/
def prismMismatch (s : State) (r : PrismRep) (b : Nat) : State :=
  let rg := r.idx / 82
  let idx := r.idx % 82
  let bd := repBand s rg idx r.temp
  let s1 := updBand (cnt s .chk rChkPrismMismatch) rg idx bd (fun x => { x with prism := stick x.prism })
  flicker (health (raise s1 .prismMismatch (whRep rg idx) 0
    [a32 b, a8 r.kind, a16 r.temp, a8 bd, a16 r.volt, a16 r.freq, a64 r.start]) 6) fkPrism

/-- Reports of a burst number that agree with a digest. -/
def agreeing (l : List PrismRep) (dig : Nat) : Nat := (l.filter (fun r => r.dig == dig)).length

/-- The comparator's record of a burst number (R352). -/
def prismFind (s : State) (d : Nat) (vec : Bool) (b : Nat) : PrismRef :=
  (s.prisms.find? (fun p => p.die == d && p.vec == vec && p.b == b)).getD
    { die := d, vec := vec, b := b, got := [], ref := none, gone := false }

/-- Put a record back; a comparator keeps the last 4,096 burst numbers. -/
def prismKeep (s : State) (p : PrismRef) : State :=
  { s with prisms := p :: s.prisms.filter (fun x =>
      !(x.die == p.die && x.vec == p.vec && (x.b == p.b || decide (x.b + 4096 ≤ p.b)))) }

/-- Newest burst number that a comparator has seen. -/
def prismNewest (s : State) (d : Nat) (vec : Bool) : Nat :=
  s.prisms.foldl (fun m p => if p.die = d ∧ p.vec = vec then max m p.b else m) 0

/-- The hub compares the references of the four dies once all are known: a die that differs from the three others
(R352). -/
def dieCompare (s : State) (vec : Bool) (b : Nat) : State :=
  let refs := (List.range 4).map (fun d => (prismFind s d vec b).ref)
  if refs.all Option.isSome then
    (List.range 4).foldl (fun t d =>
      if (List.range 4).all (fun e => e == d || refs.getD e none != refs.getD d none) then
        flicker (health (raise (cnt t .chk rChkPrismDie) .prismDie (whDie d) 0 []) 7) fkPrism
      else t) s
  else s

/-- A digest reaches its die's comparator (R352). -/
def prismReport (s : State) (d : Nat) (r : PrismRep) (b : Nat) : State :=
  let vec := isVec (r.idx % 82)
  if b + 4096 ≤ prismNewest s d vec then cnt s .chk rChkPrismNoquorum
  else
    let p := prismFind s d vec b
    if p.gone then s
    else
      match p.ref with
      | some v => if r.dig = v then s else prismMismatch s r b
      | none =>
        let got := p.got ++ [r]
        if 8 ≤ agreeing got r.dig then
          let s1 := prismKeep s { p with got := [], ref := some r.dig }
          dieCompare ((got.filter (fun x => x.dig != r.dig)).foldl (fun t x => prismMismatch t x b) s1) vec b
        else if 16 ≤ got.length then
          raise (cnt (prismKeep s { p with got := [], gone := true }) .chk rChkPrismNoquorum) .prismNoquorum (whDie d) 0 []
        else prismKeep s { p with got := got }

/-! ## What a burst computes (R350, R351) -/

/-- Operand element i of burst b: the low bits of its draw as the code; an infinity or NaN becomes +0. FP32 takes two draws,
the low half first, and a T19 code has no more than its draw's 16 bits (log 228). -/
def prismVal (seed b : Nat) (f : Fmt) (i : Nat) : EV :=
  let dr := srDraw seed b 0xFFFFFFFF 3
  let v := codeVal f (contain f (if f = .fp32 then dr (2 * i) + dr (2 * i + 1) * 65536 else dr i % 2 ^ f.cbits))
  if v.isFin then v else evZero

/-- Format, semiring and K of a unit's burst kind (Table 12.2); its FP8 is E4M3 (log 228). -/
def prismShape : Nat → Fmt × Nat × Nat
  | 0 => (.e4m3, 0, 256)
  | 1 => (.fp4, 0, 512)
  | 2 => (.bf16, 0, 256)
  | 3 => (.t19, 0, 128)
  | 4 => (.fp32, 0, 64)
  | _ => (.e4m3, 3, 256)

/-- The product of a unit's burst: M and N of 64, X 1.0, no micro-scales; the elements of A, then those of B. -/
def prismIn (seed b kind : Nat) : MmaIn :=
  let (f, semi, k) := prismShape kind
  let v := prismVal seed b f
  { a := fun i j => if j < k then v (k * i + j) else evZero
    b := fun j i => if j < k then v (64 * k + 64 * j + i) else evZero
    za := fun _ _ => false, zb := fun _ _ => false
    m := 64, n := 64, k := k, semi := semi, passes := if kind = 4 then 3 else 1, f32 := decide (kind = 4)
    rnd := .rne, ovf := false, int := false }

/-- The FP32 output of a burst, in row-major order: a product from a zero accumulator, or the exponentials of 4,096 fused
multiply-adds, whose third operand follows the second (log 228). -/
def prismOut (seed b kind : Nat) : List EV :=
  if kind = 6 then
    let v := prismVal seed b .fp32
    (List.range 4096).map (fun i => evExp (evFma (v i) (v (4096 + i)) (v (8192 + i))))
  else
    let x := prismIn seed b kind
    (List.range 64).flatMap (fun m => (List.range 64).map (fun n => (x.elem [] evZero m n).v))

/-- The digest of a burst that is computed rightly (R351). -/
def prismDigest (seed b kind : Nat) : Nat :=
  crc64xz ((prismOut seed b kind).flatMap (fun v => leBytes 4 (f32Of v)))

/-- PRISM_BURST: a reporter with credit runs its next burst. `wrong` is the digest of one that computes differently from its
peers; `abft` tells of a class A mismatch in it (R351). -/
def opPrismBurst (rg idx : Nat) (wrong : Option DWord) (abft : Bool) (temp volt start : Nat) (s : State) : State :=
  let p := prismOf s rg idx
  match burstKind s idx p.b with
  | none => s
  | some k =>
    let c := creditOf s rg p
    if s.pwr = .run ∧ bitAt s.prismCtl.toNat 0 ∧ reporterUp s rg idx ∧ burstLen k * 8000 ≤ c ∧
        (!reporterBusy s rg idx ∨ c = creditCap * 8000) then
      let dig := match wrong with | some d => d.toNat | none => prismDigest s.prismSeed p.b k
      let r : PrismRep := { idx := 82 * rg + idx, dig := dig, kind := k, temp := temp, volt := volt, freq := islandFreq s rg, start := start }
      let s1 := setPrism s rg idx { b := (p.b + 1) % u32Mod, base := prismClkOf s rg - (c - burstLen k * 8000) }
      let s2 := updBand (cnt64 s1 .chk rChkPrismRunsLo 1) rg idx (repBand s rg idx temp) (fun x => { x with runs := stick x.runs })
      prismReport (if abft then prismMismatch s2 r p.b else s2) (rg / 4) r p.b
    else s

/-- PRISM_BURST (R349). The frequency that the sender read is not used: R444 gives it. -/
def execPrismBurst (rg : Fin 16) (idx : Fin 82) (wrong : Option DWord) (abft : Bool) (temp volt _freq : BitVec 16) (start : DWord)
    (s : State) : Host.Outcome State Fault Refusal :=
  run [.chk] (opPrismBurst rg idx wrong abft temp.toNat volt.toNat start.toNat) s

/-- FOLD_RESUME: a write of CHK_FOLD_STATUS with RESUME set clears HALT (R358). -/
def foldResume (s : State) : State := setFld s .chk rChkFoldStatus 0 0 0

end Sys2Proof.Machine
end

