-- ==== Sys2Proof/Machine/LinkRx.lean ====
section
/-! DEFINITION. The link layer of a Taralink (ch. 11): lasers and training, reception of flits, acknowledgement and
replay, lane sparing, partner identity, loss of a link and its detour. -/
namespace Sys2Proof.Machine

/-! ## Light (R312, R517) -/

/-- A cartridge is in its bay and works. -/
def cartOk (s : State) (b : Nat) : Bool := ((s.carts[b]?).map (fun c => c.fitted && c.works)).getD false

/-- Lasers are on: in run, dim and dusk, with a working cartridge, and not after a thermal trip (R312, R448). -/
def lasersOn (s : State) : Bool :=
  (awake s || decide (s.pwr = .dusk) || (decide (s.pwr = .boot) && decide (3 ≤ s.pw.stage) && decide (s.pw.stage < 8))) && !s.tripped && (cartOk s 0 || cartOk s 1)

/-- The axis of a link has no neighbour (R325). -/
def linkUnused (s : State) (l : Nat) : Bool := decide (pdim s (l / 2) = 1)

/-! ## Lanes -/

/-- LNK_LANE_BAD register of a lane. -/
def rLaneBad (lane : Nat) : Nat := rLnkLaneBad0 + 4 * (lane / 32)

/-- Mark a receive lane failed or good. -/
def setBadLane (s : State) (l lane : Nat) (bad : Bool) : State :=
  setFld s (.lnk l) (rLaneBad lane) (lane % 32) (lane % 32) (b2n bad)

/-- A receive lane is marked failed. -/
def laneBad (s : State) (l lane : Nat) : Bool := rbit s (.lnk l) (rLaneBad lane) (lane % 32)

/-- Show the active transmit lanes and the spares of the receive direction. -/
def showLanes (s : State) (l : Nat) : State :=
  let x := linkOf s l
  setFld (setFld s (.lnk l) rLnkStatus 23 16 x.txAct.length) (.lnk l) rLnkStatus 12 10 (min 4 x.rxSpare.length)

/-- Rate of a direction with A active lanes, in GB/s (R317). -/
def laneRate (a : Nat) : Nat := 25 * a

/-- EVT_LINK_DEGRADED with the new rate, its RC bit and the health input (R314, R323). -/
def linkDegraded (s : State) (l a : Nat) : State :=
  health (raise (setFld s (.lnk l) rLnkStatus 8 8 1) .linkDegraded (whLink l) 0 [a32 (laneRate a)]) 15

/-! ## Partner identity (R324, R325) -/

/-- IDENT body of this module on a link (Table 11.3). -/
def identBody (s : State) (l : Nat) : List Byte :=
  [3] ++ leBytes 4 (fld s .coord rCoordPhys 17 0) ++ leBytes 1 l ++ leBytes 1 (fld s .coord rCoordPhys 18 18)
    ++ leBytes 4 (regAt s .hub rHubSerialLo).toNat ++ leBytes 4 (regAt s .hub rHubSerialHi).toNat

/-- The coordinate one step from this module in the direction of a link, modulo PDIM. -/
def neighbor (s : State) (l : Nat) : Nat :=
  let k := l / 2
  let p := fld s .coord rCoordPhys 17 0
  let n := pdim s k
  putBits p (6 * k + 5) (6 * k) (if l % 2 = 0 then (mePhys s k + 1) % n else (mePhys s k + n - 1) % n)

/-- Expected coordinate and serial of a link's partner; serial 0 accepts any (R325). -/
def identExpect (s : State) (l : Nat) : Nat × Nat :=
  if rbit s .coord rCoordPhys 18 then ((linkOf s l).expCoord, (linkOf s l).expSn) else (neighbor s l, 0)

/-- What the partner reported last: link index, coordinate, serial. -/
def identGot (s : State) (l : Nat) : Nat × Nat × Nat :=
  (fld s (.lnk l) rLnkPartner 20 18, fld s (.lnk l) rLnkPartner 17 0,
   (regAt s (.lnk l) rLnkPartnerSnLo).toNat + (regAt s (.lnk l) rLnkPartnerSnHi).toNat * u32Mod)

/-- The partner is the expected one. -/
def identOk (s : State) (l : Nat) : Bool :=
  let e := identExpect s l
  let g := identGot s l
  decide (g.1 = l ^^^ 1) && decide (g.2.1 = e.1) && (decide (e.2 = 0) || decide (g.2.2 = e.2))

/-- The identity check: MISWIRED on a failure, with the expected and the reported values; on a pass a link in training
may come up, and a MISWIRED one serves again (R324). Every failing check raises the event (log 224). -/
def identCheck (s : State) (l : Nat) : State :=
  let x := linkOf s l
  let g := identGot s l
  let e := identExpect s l
  if identOk s l then
    if linkSt s l = lsMiswired then
      if x.phase = 0 then
        pump (setFld (setLinkSt (setLink s l { x with lost := false, detour := false }) l lsUp) (.lnk l) rLnkStatus 6 6 0) l
      else setLinkSt (setLink s l { x with phase := 6 }) l lsTraining
    else if x.phase = 5 then setLink s l { x with phase := 6 }
    else s
  else
    raise (setFld (setLinkSt (setLink s l { x with lost := true, phase := min x.phase 5 }) l lsMiswired) (.lnk l) rLnkStatus 9 9 1)
      .linkMiswire (whLink l) 0 [a32 (l ^^^ 1), a32 e.1, a64 e.2, a32 g.1, a32 g.2.1, a64 g.2.2]

/-! ## Training (R313, R314) -/

/-- Frames that the retry buffer of a link still holds, marked as re-sent, in their order (R333). -/
def rebuilt (x : Lnk) : List Frame := (x.retry.filterMap (fun e => e.frame)).map (fun f => { f with resend := true })

/-- The timers of a link stop. -/
def linkTmOff (s : State) (l : Nat) : State :=
  tmOff (tmOff (tmOff (tmOff s (.train l)) (.ident l)) (.laneWin l)) (.laneRetrain l)

/-- Training starts over: LSNs restart, and what the retry buffer holds waits to go again. -/
def trainReset (s : State) (l phase : Nat) : State :=
  let x := linkOf s l
  setLinkSt (linkTmOff (setLink s l { x with
    txNext := 0, rxExp := 0, txq := rebuilt x ++ x.txq, retry := [], ctrlq := [], rxPart := [], rxNeed := 0, nak := none,
    moves := [], phase := phase, replays := 0, txAct := [], rxAct := [] }) l) l lsTraining

/-- Light stands at both ends: phases 1 to 4 act on the lanes, whose outcome comes with LINK_UP, and phase 5 exchanges
identities; 50 ms are allowed (R313, log 225). -/
def trainStart (s : State) (l : Nat) : State :=
  sendCtrl (tmArm (trainReset s l 5) (.train l) (50 * btMs)) l (identBody s l)

/-- LINK_LIGHT_DETECT: training runs on a link with light at both ends (R313). -/
def opLinkLightDetect (l : Nat) (s : State) : State :=
  if lasersOn s && rbit s (.lnk l) rLnkCtl 0 && !linkUnused s l && (decide (linkSt s l = lsDown) || decide (linkSt s l = lsLost) ||
      (decide (linkSt s l = lsTraining) && decide ((linkOf s l).phase = 1))) then
    trainStart s l
  else s

/-- LINK_LIGHT_DETECT (R313). -/
def execLinkLightDetect (l : Fin 6) (s : State) : Host.Outcome State Fault Refusal :=
  run [.lnk l] (opLinkLightDetect l) s

/-- LINK_TRAIN_TIMEOUT: 50 ms without coming up restart training at phase 1, which waits for light, and count a failure
(R313). -/
def opLinkTrainTimeout (l : Nat) (s : State) : State :=
  if tmDue s (.train l) then
    let s1 := trainReset s l 1
    let x := linkOf s1 l
    setLink s1 l { x with trainFails := x.trainFails + 1 }
  else s

/-- LINK_TRAIN_TIMEOUT (R313). -/
def execLinkTrainTimeout (l : Fin 6) (s : State) : Host.Outcome State Fault Refusal :=
  run [.lnk l] (opLinkTrainTimeout l) s

/-- A link whose lasers come on waits in TRAINING for its partner's light (R454, Table 11.1). -/
def linkWaitLight (s : State) (l : Nat) : State :=
  if rbit s (.lnk l) rLnkCtl 0 && !linkUnused s l then setLinkSt (setLink s l { linkOf s l with phase := 1 }) l lsTraining else s

/-- The lasers go off: the link is DOWN (R454). -/
def linkDark (s : State) (l : Nat) : State :=
  let s1 := setLink s l { linkOf s l with detour := false, phase := 0, rxPart := [], rxNeed := 0, moves := [], ctrlq := [] }
  setLinkSt (linkTmOff s1 l) l lsDown

/-- LNK_CTL.RETRAIN restarts training at phase 1 (R313, Table 11.7). -/
def linkRetrain (s : State) (l : Nat) : State :=
  if lasersOn s && rbit s (.lnk l) rLnkCtl 0 && !linkUnused s l then trainReset s l 1 else s

/-- The frames that a link can hold of one virtual channel, in flits (R322). -/
def vcDepth : Nat := 2048

/-- Lanes of the receive direction that are good: those that completed phases 1 to 4 and corrected fewer symbols than the
sparing threshold (R314). -/
def goodLanes (x : Lnk) (done : List (Nat × Nat)) : List Nat :=
  (List.range 72).filter (fun k => done.any (fun p => decide (p.1 = k)) && done.all (fun p => decide (p.1 ≠ k) || decide (p.2 < x.thresh)))

/-- LINK_UP: phase 6. `rxDone` are the receive lanes that completed phases 1 to 4, each with the symbols it corrected,
`txGood` the lanes that the partner finds good (R314). -/
def opLinkUp (l : Nat) (rxDone : List (Nat × Nat)) (txGood : Nat) (s : State) : State :=
  let x := linkOf s l
  let rx := goodLanes x rxDone
  let tx := setBits 72 txGood
  if !lasersOn s ∨ linkSt s l ≠ lsTraining ∨ x.phase ≠ 6 ∨ rx.length < 34 ∨ tx.length < 34 then s
  else
    let s1 := setLink s l { x with
      txNext := 0, rxExp := 0, txq := rebuilt x ++ x.txq, retry := [], ctrlq := [], rxPart := [], rxNeed := 0, nak := none,
      credit := List.replicate 4 vcDepth, rxAct := rx.take 68, rxSpare := rx.drop 68, txAct := tx.take 68, txSpare := tx.drop 68,
      moves := [], phase := 0, lost := false, detour := false, progAt := s.beacon, stallAt := s.beacon, replays := 0 }
    let s2 := (List.range 72).foldl (fun t k => setBadLane t l k (!rx.contains k)) (tmOff s1 (.train l))
    let s3 := setFld (setLinkSt (showLanes s2 l) l lsUp) (.lnk l) rLnkStatus 6 6 0
    let s4 := tmArm (tmArm (tmArm s3 (.ident l) (1000 * btMs)) (.laneWin l) btMs) (.laneRetrain l) (10000 * btMs)
    let n := min rx.length tx.length
    pump (if n < 68 then linkDegraded s4 l n else s4) l

/-- LINK_UP (R314). -/
def execLinkUp (l : Fin 6) (rxDone : List (Nat × Nat)) (txGood : BitVec 72) (s : State) : Host.Outcome State Fault Refusal :=
  run [.lnk l] (opLinkUp l rxDone txGood.toNat) s

/-! ## Loss and detour (R321, R332, R333) -/

/-- Declare a link lost: EVT_LINK_LOST, and what it held only in part is discarded. -/
def linkLose (s : State) (l : Nat) : State :=
  let x := linkOf s l
  let s1 := setLink s l { x with lost := true, detour := false, phase := 0, rxPart := [], rxNeed := 0, moves := [], ctrlq := [] }
  let s3 := setFld (setFld (setLinkSt (linkTmOff s1 l) l lsLost) (.lnk l) rLnkStatus 7 7 1) (.lnk l) rLnkStatus 6 6 0
  health (raise s3 .linkLost (whLink l) 0 []) 16

/-- A link that carries traffic or control flits. -/
def linkLive (s : State) (l : Nat) : Bool := decide (linkSt s l = lsUp) || decide (linkSt s l = lsMiswired)

/-- ACK has stood still for 20 µs over at least four replays (R321). -/
def ackDead (s : State) (l : Nat) : Bool :=
  let x := linkOf s l
  !x.retry.isEmpty && decide (x.progAt + 20 * btUs ≤ s.beacon) && decide (4 ≤ x.replays)

/-- Active lanes of a direction that are still usable: not marked failed here, nor named as failing by the partner. -/
def usableRx (s : State) (l : Nat) : Nat := ((linkOf s l).rxAct.filter (fun k => !laneBad s l k)).length
def usableTx (s : State) (l : Nat) : Nat :=
  let x := linkOf s l
  (x.txAct.filter (fun k => !x.moves.any (fun m => !m.rx && decide (m.fail = k)))).length

/-- LINK_LOST: fewer than 34 usable lanes, no light on any lane, or no acknowledgement (R321). -/
def opLinkLost (l : Nat) (dark : Bool) (s : State) : State :=
  let few := decide ((linkOf s l).phase = 0) && (decide (usableRx s l < 34) || decide (usableTx s l < 34))
  if linkLive s l && (dark || few || ackDead s l) then linkLose s l else s

/-- LINK_LOST (R321). -/
def execLinkLost (l : Fin 6) (dark : Bool) (s : State) : Host.Outcome State Fault Refusal :=
  run [.lnk l] (opLinkLost l dark) s

/-- A detour begins to serve a link: EVT_LINK_DETOUR (R332). -/
def detourServes (s : State) (l : Nat) : State :=
  if (pickDetour s l).isSome then raise (setFld s (.lnk l) rLnkStatus 6 6 1) .linkDetour (whLink l) 0 [] else s

/-- LINK_DETOUR: the detour takes over a lost link. The frames of its retry buffer go first, marked RESEND, then those that
waited; with no usable entry they are discarded (R332, R333). -/
def opLinkDetour (l : Nat) (s : State) : State :=
  let x := linkOf s l
  if x.lost && !x.detour then
    (rebuilt x ++ x.txq).foldl (fun t f => sendHop t l f)
      (detourServes (setLink s l { x with detour := true, retry := [], txq := [] }) l)
  else s

/-- LINK_DETOUR (R332). -/
def execLinkDetour (l : Fin 6) (s : State) : Host.Outcome State Fault Refusal := run [.lnk l] (opLinkDetour l) s

/-! ## Laser cartridges (R312, R517) -/

/-- Change a bay. -/
def setCart (s : State) (b : Nat) (c : Cart) : State := { s with carts := s.carts.set b c }

/-- The other cartridge goes to full output. -/
def cartFull (s : State) (b : Nat) : State :=
  { s with carts := s.carts.mapIdx (fun k c => if k = 1 - b ∧ c.works then { c with full := true } else c) }

/-- EVT_LASER_CART. -/
def cartEvent (s : State) : State := raise s .laserCart whHub 0 []

/-- LASER_CART_INSERT: the presence contact mates; the new cartridge stabilizes while the other holds full output. -/
def opLaserCartInsert (b : Nat) (s : State) : State :=
  if ((s.carts[b]?).map (fun c => c.fitted)).getD false then s
  else
    let alone := !cartOk s (1 - b)
    cartEvent (setCart (cartFull s b) b { fitted := true, works := true, full := alone, stable := false })

/-- LASER_CART_INSERT (R517). -/
def execLaserCartInsert (b : Fin 2) (s : State) : Host.Outcome State Fault Refusal := run [] (opLaserCartInsert b) s

/-- LASER_CART_REMOVE: a cartridge is withdrawn, or fails in its bay; without a working one every link is lost. -/
def opLaserCartRemove (b : Nat) (failed : Bool) (s : State) : State :=
  match s.carts[b]? with
  | none => s
  | some c =>
    if !c.fitted || (failed && !c.works) then s
    else
      let c1 := { c with fitted := failed, works := false, full := false, stable := false }
      let s1 := cartEvent (setCart (if c.works then cartFull s b else s) b c1)
      let s2 := if failed then health s1 17 else s1
      if cartOk s2 0 || cartOk s2 1 then s2
      else (List.range 6).foldl (fun t l => if linkLive t l || decide (linkSt t l = lsTraining) then linkLose t l else t) s2

/-- LASER_CART_REMOVE (R312). -/
def execLaserCartRemove (b : Fin 2) (failed : Bool) (s : State) : Host.Outcome State Fault Refusal :=
  run [] (opLaserCartRemove b failed) s

/-- LASER_SHARE: a cartridge has stabilized, and both share the load at half output. -/
def opLaserShare (s : State) : State :=
  if cartOk s 0 && cartOk s 1 then { s with carts := s.carts.map (fun c => { c with full := false, stable := true }) } else s

/-- LASER_SHARE (R517). -/
def execLaserShare (s : State) : Host.Outcome State Fault Refusal := run [] opLaserShare s

/-! ## Reception of flits (R318, R319) -/

/-- `a` comes before or at `b`. -/
def lsnLe (a b : Nat) : Bool := decide (a = b) || lsnLt a b

/-- Flits of an entry that an ACK value passes. -/
def ackedOf (e : TxEnt) (ack : Nat) : Nat :=
  if lsnLe ((e.lsn + e.sent) % 16384) ack then e.sent
  else if lsnLt e.lsn ack then (ack + 16384 - e.lsn) % 16384
  else 0

/-- Release what an ACK passes (R320). An ACK beyond what was sent releases nothing. -/
def ackFree (s : State) (l ack : Nat) : State :=
  let x := linkOf s l
  if !lsnLe ack x.txNext then s
  else
    let r := (x.retry.map (fun e => { e with off := max e.off (ackedOf e ack) })).filter (fun e => decide (e.off < e.n))
    if retryFlits { x with retry := r } = retryFlits x then s
    else setLink s l { x with retry := r, progAt := s.beacon, stallAt := s.beacon, replays := 0 }

/-- Release what an ACK passes, and send what has become free to go. -/
def ackTake (s : State) (l ack : Nat) : State := pump (ackFree s l ack) l

/-- Send a NAK, at most one per expected LSN per 1 µs (R319). -/
def sendNak (s : State) (l : Nat) : State :=
  let x := linkOf s l
  match x.nak with
  | some (e, t) =>
    if e = x.rxExp ∧ s.beacon < t + btUs then s
    else sendBare (setLink s l { x with nak := some (x.rxExp, s.beacon) }) l ftNak
  | none => sendBare (setLink s l { x with nak := some (x.rxExp, s.beacon) }) l ftNak

/-- Return the credits of a frame whose space is free, on a link that carries control flits (R322). -/
def giveBack (s : State) (l : Nat) (f : Frame) : State :=
  if l < 6 ∧ linkLive s l then
    sendCtrl s l ([1] ++ (List.range 4).flatMap (fun v => leBytes 2 (if v = f.vc then frameFlits f else 0)))
  else s

/-- A frame has come in whole: checked, then it waits for its row (R329). -/
def frameIn (s : State) (l : Nat) (bytes : List Byte) : State :=
  let f := parseFrame bytes
  let x := linkOf s l
  let s1 := setLink s l { x with rxPart := [], rxNeed := 0 }
  if hcrcOk bytes && frameOk f then setLink s1 l { linkOf s1 l with rxq := x.rxq ++ [f] }
  else giveBack (dropAt s1 l) l f

/-- A DATA body continues the frame in progress, or starts one (R329). LEN tells the flits of a frame whose HCRC fails
too, so that all of it is discarded (log 68). -/
def dataBody (s : State) (l : Nat) (body : List Byte) : State :=
  let x := linkOf s l
  if x.rxNeed = 0 then
    if flitsOf (hdrLen body) = 1 then frameIn s l body
    else setLink s l { x with rxPart := body, rxNeed := flitsOf (hdrLen body) - 1 }
  else if x.rxNeed = 1 then frameIn s l (x.rxPart ++ body)
  else setLink s l { x with rxPart := x.rxPart ++ body, rxNeed := x.rxNeed - 1 }

/-- Go back: every buffered flit from an LSN is sent again, and one replay is counted (R319). A link that is not up sends
control flits only (R324). -/
def goBack (s : State) (l from_ : Nat) : State :=
  let x := linkOf s l
  let es := if linkSt s l = lsUp then x.retry else x.retry.filter (fun e => e.frame.isNone)
  let fl := (es.flatMap (fun e => entFlits e x.rxExp)).filter (fun b => lsnLe from_ (flitLsn b))
  if fl.isEmpty then s
  else cnt (putLanes (setLink s l { x with replays := x.replays + 1 }) l fl) (.lnk l) rLnkReplay

/-- A CREDIT body (Table 11.3). -/
def takeCredit (s : State) (l : Nat) (b : List Byte) : State :=
  let x := linkOf s l
  pump (setLink s l { x with credit := (List.range 4).map (fun v => vcCredit x v + leAt b (1 + 2 * v) 2) }) l

/-- A SWAP or DROP body: the transmit lane moves at its LSN (Table 11.3, R323). -/
def takeMove (s : State) (l : Nat) (b : List Byte) : State :=
  let x := linkOf s l
  let m : LaneMove := if leAt b 0 1 = 2 then
      { rx := false, fail := leAt b 1 1, spare := some (leAt b 2 1), lsn := leAt b 3 4 % 16384 }
    else { rx := false, fail := leAt b 1 1, spare := none, lsn := leAt b 2 4 % 16384 }
  setLink s l { x with moves := x.moves ++ [m] }

/-- An IDENT body is kept and checked (R324). -/
def takeIdent (s : State) (l : Nat) (b : List Byte) : State :=
  let s1 := setFld (setFld s (.lnk l) rLnkPartner 20 18 (leAt b 5 1)) (.lnk l) rLnkPartner 17 0 (leAt b 1 4)
  let s2 := setReg (setReg s1 (.lnk l) rLnkPartnerSnLo (BitVec.ofNat 32 (leAt b 7 4))) (.lnk l) rLnkPartnerSnHi
    (BitVec.ofNat 32 (leAt b 11 4))
  identCheck (setLink s2 l { linkOf s2 l with pmode := leAt b 6 1 }) l

/-- The effect of an accepted CTRL body by its CTYPE; another CTYPE has none. -/
def ctrlBody (s : State) (l : Nat) (b : List Byte) : State :=
  let t := leAt b 0 1
  if t = 1 then takeCredit s l b
  else if t = 3 then takeIdent s l b
  else if t = 2 ∨ t = 4 then takeMove s l b
  else s

/-- The link takes flits: up, or control flits alone while MISWIRED or in the identity exchange. -/
def flitTakes (s : State) (l : Nat) (isData : Bool) : Bool :=
  decide (linkSt s l = lsUp) ||
    (!isData && (decide (linkSt s l = lsMiswired) || (decide (linkSt s l = lsTraining) && decide (5 ≤ (linkOf s l).phase))))

/-- An accepted flit: its acknowledgement, then what it carries. What a NAK asks for goes before any new flit (R319). -/
def flitTake (s : State) (l : Nat) (b : List Byte) : State :=
  let s0 := cnt64 s (.lnk l) rLnkRxFlitsLo 1
  let ty := flitTy b
  let body := slice b 4 250
  if ty = ftNak then pump (goBack (ackFree s0 l (flitAck b)) l (flitAck b)) l
  else
    let s1 := ackTake s0 l (flitAck b)
    if ty = ftIdle then s1
    else
      let x := linkOf s1 l
      let s2 := setLink s1 l { x with rxExp := (x.rxExp + 1) % 16384 }
      if ty = ftData then dataBody s2 l body else ctrlBody s2 l body

/-- Reception of a flit: `b` are the data bytes that the decoder reads from the received symbols `rx`, within the reach of
the code (R315, log 67). A flit that is not accepted is discarded, and a NAK names the expected LSN (R319). -/
def flitRx (s : State) (l : Nat) (b rx : List Byte) : State :=
  match fecErrs b rx with
  | none => sendNak (cnt s (.lnk l) rLnkFecUncorr) l
  | some n =>
    let s1 := if 0 < n then cnt64 s (.lnk l) rLnkFecCorrLo 1 else s
    if !flitOk b then sendNak (cnt s1 (.lnk l) rLnkFlitCrc) l
    else if flitLsn b ≠ (linkOf s1 l).rxExp then sendNak s1 l
    else flitTake s1 l b

/-- A row takes the flits of its type; one that does not decode or fails its checks shows no type. -/
def flitRow (l : Nat) (b rx : List Byte) (mine : Nat → Nat → Bool) (s : State) : State :=
  if flitTakes s l (decide (flitTy b = ftData)) && ((fecErrs b rx).isNone || !flitOk b || mine (flitTy b) (leAt b 4 1)) then
    flitRx s l b rx
  else s

/-- FLIT_DATA_RX (R319). -/
def execFlitDataRx (l : Fin 6) (bytes rx check : List Byte) (s : State) : Host.Outcome State Fault Refusal :=
  run [.lnk l] (flitRow l bytes (rx ++ check) (fun t _ => t = ftData)) s

/-- FLIT_IDLE_RX (R318). -/
def execFlitIdleRx (l : Fin 6) (bytes rx check : List Byte) (s : State) : Host.Outcome State Fault Refusal :=
  run [.lnk l] (flitRow l bytes (rx ++ check) (fun t _ => t = ftIdle)) s

/-- FLIT_NAK_RX (R319). -/
def execFlitNakRx (l : Fin 6) (bytes rx check : List Byte) (s : State) : Host.Outcome State Fault Refusal :=
  run [.lnk l] (flitRow l bytes (rx ++ check) (fun t _ => t = ftNak)) s

/-- CTRL_CREDIT_RX (R322): a CREDIT flit, or one of a CTYPE outside Table 11.3, which is accepted and has no effect. -/
def execCtrlCreditRx (l : Fin 6) (bytes rx check : List Byte) (s : State) : Host.Outcome State Fault Refusal :=
  run [.lnk l] (flitRow l bytes (rx ++ check) (fun t c => t = ftCtrl && !(c = 2 || c = 3 || c = 4))) s

/-- CTRL_SWAP_RX (R323). -/
def execCtrlSwapRx (l : Fin 6) (bytes rx check : List Byte) (s : State) : Host.Outcome State Fault Refusal :=
  run [.lnk l] (flitRow l bytes (rx ++ check) (fun t c => t = ftCtrl && c = 2)) s

/-- CTRL_IDENT_RX (R324). -/
def execCtrlIdentRx (l : Fin 6) (bytes rx check : List Byte) (s : State) : Host.Outcome State Fault Refusal :=
  run [.lnk l] (flitRow l bytes (rx ++ check) (fun t c => t = ftCtrl && c = 3)) s

/-- CTRL_DROP_RX (R323). -/
def execCtrlDropRx (l : Fin 6) (bytes rx check : List Byte) (s : State) : Host.Outcome State Fault Refusal :=
  run [.lnk l] (flitRow l bytes (rx ++ check) (fun t c => t = ftCtrl && c = 4)) s

/-! ## Lane sparing (R323) -/

/-- The LSN of a direction has reached a move's. -/
def moveDue (x : Lnk) (m : LaneMove) : Bool := lsnLe m.lsn (if m.rx then x.rxExp else x.txNext)

/-- Put a spare in the place of a lane, or take the lane out. -/
def moveLane (act : List Nat) (m : LaneMove) : List Nat :=
  match m.spare with
  | some k => act.map (fun a => if a = m.fail then k else a)
  | none => act.filter (fun a => a != m.fail)

/-- A lane moved: counts, flicker, the health input, and the event of a swap or of a drop (R323). -/
def laneMoved (s : State) (l : Nat) (m : LaneMove) (rate : Nat) : State :=
  let s1 := flicker (cnt s (.lnk l) rLnkSwaps) fkLane
  match m.spare with
  | some _ => health (raise s1 .laneSpared (whLink l) 0 []) 14
  | none => linkDegraded s1 l rate

/-- LANE_SWAP: at the agreed LSN a lane position moves to the spare or leaves the active set. -/
def opLaneSwap (l : Nat) (rx : Bool) (s : State) : State :=
  let x := linkOf s l
  match x.moves.find? (fun m => m.rx == rx) with
  | some m =>
    if linkLive s l && moveDue x m then
      let gone := fun (k : Nat) => some k == m.spare
      let x1 := { x with moves := x.moves.erase m }
      let x2 := if rx then { x1 with rxAct := moveLane x.rxAct m, rxSpare := x.rxSpare.filter (fun k => !gone k) }
        else { x1 with txAct := moveLane x.txAct m, txSpare := x.txSpare.filter (fun k => !gone k) }
      laneMoved (showLanes (setLink s l x2) l) l m (if rx then x2.rxAct.length else x2.txAct.length)
    else s
  | none => s

/-- LANE_SWAP (R323). -/
def execLaneSwap (l : Fin 6) (rx : Bool) (s : State) : Host.Outcome State Fault Refusal := run [.lnk l] (opLaneSwap l rx) s

/-- A SWAP body: failing lane, spare and LSN. -/
def swapBody (fail spare lsn : Nat) : List Byte := [2] ++ leBytes 1 fail ++ leBytes 1 spare ++ leBytes 4 lsn
/-- A DROP body. -/
def dropBody (fail lsn : Nat) : List Byte := [4] ++ leBytes 1 fail ++ leBytes 4 lsn

/-- A receive lane is failing: the receiving end names a spare, or drops it when none is left. -/
def laneFail (l : Nat) (s : State) (lane : Nat) : State :=
  let x := linkOf s l
  let s1 := setBadLane s l lane true
  if x.moves.any (fun m => m.rx && decide (m.fail = lane)) then s
  else if x.rxSpare.contains lane then showLanes (setLink s1 l { x with rxSpare := x.rxSpare.filter (fun k => k != lane) }) l
  else if !x.rxAct.contains lane then s1
  else
    let lsn := (x.rxExp + 1024) % 16384
    let busy := fun (k : Nat) => x.moves.any (fun m => m.rx && m.spare == some k)
    match x.rxSpare.find? (fun k => !busy k) with
    | some k =>
      if rbit s (.lnk l) rLnkCtl 1 then
        let m : LaneMove := { rx := true, fail := lane, spare := some k, lsn := lsn }
        sendCtrl (setLink s1 l { x with moves := x.moves ++ [m] }) l (swapBody lane k lsn)
      else s1
    | none =>
      let m : LaneMove := { rx := true, fail := lane, spare := none, lsn := lsn }
      sendCtrl (setLink s1 l { x with moves := x.moves ++ [m] }) l (dropBody lane lsn)

/-- LANE_ERROR_WINDOW: lanes above LNK_SPARE_THRESH in the window, with more than 4 uncorrectable codewords in 1 s, or
without signal are failing (R323). -/
def opLaneErrorWindow (l : Nat) (syms : List (Nat × Nat)) (unc : List (Nat × Nat)) (dark : List Nat) (s : State) : State :=
  if tmDue s (.laneWin l) && linkLive s l then
    let bad := (syms.filter (fun p => decide ((linkOf s l).thresh < p.2))).map (fun p => p.1)
      ++ (unc.filter (fun p => decide (4 < p.2))).map (fun p => p.1) ++ dark
    bad.eraseDups.foldl (laneFail l) (tmArm s (.laneWin l) btMs)
  else s

/-- LANE_ERROR_WINDOW (R323). -/
def execLaneErrorWindow (l : Fin 6) (syms unc : List (Nat × Nat)) (dark : List Nat) (s : State) :
    Host.Outcome State Fault Refusal :=
  run [.lnk l] (opLaneErrorWindow l (syms.filter (fun p => decide (p.1 < 72))) (unc.filter (fun p => decide (p.1 < 72)))
    (dark.filter (fun k => decide (k < 72)))) s

/-- LANE_RETRAIN_TIMER: every 10 s each failed lane is trained again, and one that passes becomes a spare (R323). -/
def opLaneRetrainTimer (l : Nat) (pass : List Nat) (s : State) : State :=
  if tmDue s (.laneRetrain l) && linkLive s l then
    let s1 := tmArm s (.laneRetrain l) (10000 * btMs)
    pass.foldl (fun t lane =>
      let x := linkOf t l
      if laneBad t l lane && !x.rxAct.contains lane && !x.rxSpare.contains lane then
        showLanes (setLink (setBadLane t l lane false) l
          { x with rxSpare := x.rxSpare.filter (fun k => decide (k < lane)) ++ [lane] ++ x.rxSpare.filter (fun k => decide (lane < k)) }) l
      else t) s1
  else s

/-- LANE_RETRAIN_TIMER (R323). -/
def execLaneRetrainTimer (l : Fin 6) (pass : List Nat) (s : State) : Host.Outcome State Fault Refusal :=
  run [.lnk l] (opLaneRetrainTimer l (pass.filter (fun k => decide (k < 72)))) s

/-! ## Timers -/

/-- IDENT_TIMER: each end sends IDENT every 1 s (R324). -/
def opIdentTimer (l : Nat) (s : State) : State :=
  if tmDue s (.ident l) && linkLive s l then sendCtrl (tmArm s (.ident l) (1000 * btMs)) l (identBody s l) else s

/-- IDENT_TIMER (R324). -/
def execIdentTimer (l : Fin 6) (s : State) : Host.Outcome State Fault Refusal := run [.lnk l] (opIdentTimer l) s

/-- ACK_STALL_TIMEOUT: 4 µs without ACK progress make the transmitter replay from its oldest buffered flit (R320). -/
def opAckStallTimeout (l : Nat) (s : State) : State :=
  let x := linkOf s l
  if linkLive s l && decide (x.stallAt + 4 * btUs ≤ s.beacon) then
    match x.retry with
    | [] => s
    | e :: _ => goBack (setLink s l { x with stallAt := s.beacon }) l ((e.lsn + e.off) % 16384)
  else s

/-- ACK_STALL_TIMEOUT (R320). -/
def execAckStallTimeout (l : Fin 6) (s : State) : Host.Outcome State Fault Refusal := run [.lnk l] (opAckStallTimeout l) s

/-! ## LNK_APPLY (R344) -/

/-- LNK_APPLY brings the expected partner, the detours and the threshold into force and repeats the identity check; a lost
link may gain its detour (R324, R332). -/
def lnkApplyWrite (s : State) (l : Nat) : State :=
  let x := linkOf s l
  let r := fun o => (regAt s (.lnk l) o).toNat
  let s1 := setLink s l { x with
    expCoord := fld s (.lnk l) rLnkExpect 17 0, expSn := r rLnkExpectSnLo + r rLnkExpectSnHi * u32Mod,
    det0 := r rLnkDetour0, det1 := r rLnkDetour1, thresh := fld s (.lnk l) rLnkSpareThresh 19 0 }
  let s2 := if x.lost && x.detour && !rbit s1 (.lnk l) rLnkStatus 6 then detourServes s1 l else s1
  if linkLive s2 l || (decide (linkSt s2 l = lsTraining) && decide (x.phase = 6)) then identCheck s2 l else s2

/-- LNK_CTL.ENABLE: 0 turns the lasers of the link off, and its state is DISABLED; 1 lets it train again (Table 11.7). -/
def lnkEnableWrite (s : State) (l : Nat) : State :=
  if rbit s (.lnk l) rLnkCtl 0 then
    if linkSt s l = lsDisabled then setLinkSt s l lsDown else s
  else if linkSt s l = lsDisabled then s
  else
    let x := linkOf s l
    let s1 := setLink s l { x with lost := true, detour := false, phase := 0, rxPart := [], rxNeed := 0, moves := [], ctrlq := [] }
    setLinkSt (linkTmOff s1 l) l lsDisabled

end Sys2Proof.Machine
end

