-- ==== Sys2Proof/Machine/Mem.lean ====
section
/-! DEFINITION. The memory controllers, their throttling and test mode, the traffic generators and the migration engine
(R255–R286). -/
namespace Sys2Proof.Machine

/-! ## Scrub, error rate, temperature (R276–R279) -/

/-- The block of a controller operand. -/
def ctrlBlk : MemCtrl → Blk
  | .hc k => .hc k.val
  | .lpc k => .lpc k.val

/-- The controller exists on this part (R283) and its die, if it lies on one, is in service (R28). -/
def ctrlFitted (s : State) : Blk → Bool
  | .lpc k => decide (k < npkg s)
  | .hc k => dieIn s (k / 8)
  | _ => true

/-- PATROL_SCRUB: the errors a fast-tier controller's patrol finds in its stack (R276). -/
def opPatrolScrub (k : Nat) (errs : List MemErr) (s : State) : State :=
  if !ctrlFitted s (.hc k) then s
  else memErrs s (errs.filter (fun e => match e with
    | .ce a => decide (ctrlOf s a = some (.hc k))
    | .ue a => decide (ctrlOf s a = some (.hc k))
    | .linkCe a => decide (ctrlOf s a = some (.hc k))
    | .cacheCe _ _ => false
    | .cacheUe _ _ => false))

/-- PATROL_SCRUB (R276). -/
def execPatrolScrub (k : Fin 32) (errs : List MemErr) (s : State) : Host.Outcome State Fault Refusal :=
  run [.hc k] (opPatrolScrub k errs) s

/-- CE_RATE_MINUTE (R277). -/
def opCeRateMinute (c : MemCtrl) (s : State) : State := if ctrlFitted s (ctrlBlk c) then ceMinute s (ctrlBlk c) else s

/-- CE_RATE_MINUTE: a controller's oldest minute retires (R277). -/
def execCeRateMinute (c : MemCtrl) (s : State) : Host.Outcome State Fault Refusal :=
  run [ctrlBlk c] (opCeRateMinute c) s

/-- Beacon ticks of a second. -/
def btSec : Nat := 200000000

/-- WHERE of a throttle report: a stack's controller, a package's, or a die (R279). -/
def thrWhere (key : Nat) : Nat :=
  if key < 64 then whHc key else if key < 128 then whLpc (key - 64) else whDie (key - 128)

/-- A level that differs from the one last reported raises EVT_MEM_THROTTLE, at most once a second and key (R279). -/
def thrSend (s : State) (key : Nat) : State :=
  let t := smGet (fun _ => Thr.reset) s.thr key
  let free := match t.sentAt with
    | some b => decide (b + btSec ≤ s.beacon)
    | none => true
  if t.level ≠ t.sent && free then
    raise { s with thr := smPut (fun _ => Thr.reset) s.thr key { t with sent := t.level, sentAt := some s.beacon } }
      .memThrottle (thrWhere key) 0 [a8 t.level]
  else s

/-- A level is entered; its report goes out, or waits for its second (R279). -/
def thrReport (s : State) (key level : Nat) : State :=
  thrSend { s with thr := smUpd (fun _ => Thr.reset) s.thr key (fun t => { t with level := level }) } key

/-- Reports held back go out when their second has passed (R279). -/
def thrHeld (s : State) : State := (s.thr.map (fun e => e.1)).foldl thrSend s

/-- The stack level at a temperature, from the present level (Table 9.9). -/
def stackLevel (tlim old t : Nat) : Nat :=
  let up := if tlim + 5 ≤ t then 3 else if tlim ≤ t then 2 else if 85 ≤ t then 1 else 0
  let stay := if tlim + 2 ≤ t then 3 else if tlim ≤ t + 3 then 2 else if 82 ≤ t then 1 else 0
  max up (min old stay)

/-- STACK_TEMP_SAMPLE: the stack temperature, its throttle level and its event; entry to level 3 is a flicker input
(R278, R279, Table 14.1). -/
def opStackTempSample (k : Nat) (temp : Nat) (s : State) : State :=
  let t := smGet (fun _ => Thr.reset) s.thr k
  if s.beacon < t.next ∨ !ctrlFitted s (.hc k) then s
  else
    let old := fld s (.hc k) rHcStatus 1 0
    let lv := stackLevel (fld s (.hc k) rHcTlim 7 0) old temp
    let s1 := { s with thr := smPut (fun _ => Thr.reset) s.thr k { t with next := s.beacon + btMs } }
    let s2 := setFld (setFld s1 (.hc k) rHcStatus 15 8 temp) (.hc k) rHcStatus 1 0 lv
    let s3 := if lv = 3 ∧ old ≠ 3 then flicker s2 fkTherm else s2
    thrReport s3 k lv

/-- STACK_TEMP_SAMPLE (R278). -/
def execStackTempSample (k : Fin 32) (temp : BitVec 8) (s : State) : Host.Outcome State Fault Refusal :=
  run [.hc k] (opStackTempSample k temp.toNat) s

/-- LPDDR_MR4_CHANGE: the refresh-rate code of a package, and timing derating at or above 4× refresh (R278, R279). -/
def opLpddrMr4Change (k : Nat) (code : Nat) (hot : Bool) (s : State) : State :=
  if npkg s ≤ k then s
  else
    let s1 := setFld (setFld s (.lpc k) rLpcStatus 11 8 code) (.lpc k) rLpcStatus 2 2 (b2n hot)
    thrReport s1 (64 + k) (b2n hot)

/-- LPDDR_MR4_CHANGE (R278). -/
def execLpddrMr4Change (k : Fin 48) (code : BitVec 4) (hot : Bool) (s : State) : Host.Outcome State Fault Refusal :=
  run [.lpc k] (opLpddrMr4Change k code.toNat hot) s

/-- Bits of time at level 2 or above of every stack, by one tick of the beacon (R279, Table 9.11). -/
def thrTick (s : State) : State :=
  (List.range 32).foldl (fun t k => if 2 ≤ fld t (.hc k) rHcStatus 1 0 then cnt64 t (.hc k) rHcThrTimeLo 1 else t) s

/-! ## Test mode and traffic generators (R280, R281, R284) -/

/-- Offset of a traffic generator's registers (Tables 9.11, 9.12). -/
def tgBase (ch : Nat) : Nat := 0x800 + 0x80 * ch

/-- What a write of HC_CTL or LPC_CTL does: MODE other than 1 leaves TEST mode at once, and no generator runs on (R280).
Both STATUS registers hold TESTRDY in bit 7. -/
def testModeWrite (s : State) (b : Blk) : State :=
  if fld s b rHcCtl 1 0 = 1 then s
  else (List.range b.tgChannels).foldl (fun t ch => setFld t b (tgBase ch + rTgStatus) 1 1 0) (setFld s b rHcStatus 7 7 0)

/-- TEST_READY: a controller asked into TEST mode has drained (R280). -/
def opTestReady (c : MemCtrl) (s : State) : State :=
  if ctrlFitted s (ctrlBlk c) && decide (fld s (ctrlBlk c) rHcCtl 1 0 = 1) then setFld s (ctrlBlk c) rHcStatus 7 7 1 else s

/-- TEST_READY (R280). -/
def execTestReady (c : MemCtrl) (s : State) : Host.Outcome State Fault Refusal := run [ctrlBlk c] (opTestReady c) s

/-- START of a traffic generator: ignored outside TEST mode (R281, Table 9.13). -/
def tgStartWrite (s : State) (b : Blk) (ch : Nat) : State :=
  if rbit s b rHcStatus 7 then
    setFld (setReg s b (tgBase ch + rTgErrcnt) 0) b (tgBase ch + rTgStatus) 1 1 1
  else s

/-- Sectors of a channel (R281). -/
def tgSectors : Blk → Nat
  | .hc _ => 167772160
  | _ => 1073741824

/-- Device address of a channel-local sector: the inverse of R262, pseudo-channels alternating sector by sector, or of
R264 (DEDUCED, log 41). -/
def tgAddr (s : State) (b : Blk) (ch x : Nat) : Nat :=
  match b with
  | .hc k =>
    let i := x / 2
    let sa := (i / 4 * 32 + (2 * ch + x % 2)) * 128 + i % 4 * 32
    let hi := sa / 4096 * 32768
    let st := (k % 8) ^^^ (hi / 2097152 % 8) ^^^ (hi / 1073741824 % 8)
    k / 8 * 0xA000000000 + hi + st * 4096 + sa % 4096
  | .lpc k => 0x100000000000 + (x / 32 * npkg s + k) * 4096 + ch * 1024 + x % 32 * 32
  | _ => 0

/-- One bit of PRBS31: the polynomial x^31 + x^28 + 1 (PRESUMED, log 41). -/
def prbsStep (x : Nat) : Nat := x * 2 % 2 ^ 31 + (x / 2 ^ 30 + x / 2 ^ 27) % 2

/-- PRBS31 n bits on. -/
def prbsGo : Nat → Nat → Nat
  | 0, x => x
  | n + 1, x => prbsGo n (prbsStep x)

/-- The next n bits of PRBS31, as a number whose bit 0 comes first. -/
def prbsBits : Nat → Nat → Nat
  | 0, _ => 0
  | n + 1, x => x / 2 ^ 30 % 2 + 2 * prbsBits n (prbsStep x)

/-- SEED of a generator; 0 acts as 1 (Table 9.13). -/
def tgSeed (s : State) (b : Blk) (ch : Nat) : Nat := max 1 (regAt s b (tgBase ch + rTgSeed)).toNat

/-- Sector of operation i (R281). -/
def tgSector (s : State) (b : Blk) (ch i : Nat) : Nat :=
  let o := tgBase ch
  let stride := (regAt s b (o + rTgStride)).toNat
  (if stride = 0 then Config.tgRandom (prbsGo (31 * i) (tgSeed s b ch % 2 ^ 31))
    else (regAt s b (o + rTgBase)).toNat + i * stride) % tgSectors b

/-- The 32 bytes of a pattern at a sector, as a number (R281, Table 9.13). -/
def tgNum (s : State) (b : Blk) (ch x : Nat) : Nat :=
  let o := tgBase ch
  match fld s b (o + rTgCtl) 7 4 with
  | 1 => leNat ((List.range 8).flatMap (fun w => leBytes 4 (Config.tgAddress x w).toNat))
  | 2 => 2 ^ (Config.tgWalk x % 256)
  | 3 => 2 ^ 256 - 1 - 2 ^ (Config.tgWalk x % 256)
  | 4 => leNat ((List.range 8).flatMap (fun w => leBytes 4 (regAt s b (o + rTgUser + 4 * w)).toNat))
  | _ => prbsBits 256 (Config.tgKey (tgSeed s b ch) x % 2 ^ 31)

/-- The bytes of a pattern at a sector. -/
def tgData (s : State) (b : Blk) (ch x : Nat) : List Byte := leBytes 32 (tgNum s b ch x)

/-- Symbols of 8 bits in which an error pattern is not zero (R274). -/
def errSyms (err : Nat) : Nat := ((List.range 32).filter (fun k => decide (err / 256 ^ k % 256 ≠ 0))).length

/-- What a checker sees of the raw bit errors of a sector, and the memory error that shows (R274, R275, R281): the fast
tier's code corrects one symbol and detects two, unless ECCOFF asks for the raw data; the slow tier's controller corrects
nothing. -/
def tgSeen (b : Blk) (off : Bool) (err a : Nat) : Nat × List MemErr :=
  match b with
  | .hc _ =>
    if off || decide (err = 0) then (err, [])
    else if errSyms err = 1 then (0, [.ce a])
    else if errSyms err = 2 then (err, [.ue a])
    else (err, [])
  | _ => (err, [])

/-- One operation of a run: its write, then its check against what the sector gives with the observed bit errors. -/
def tgOp (b : Blk) (ch : Nat) (wr : Bool) (flt : List (Nat × Nat)) (s : State) (i : Nat) : State :=
  let x := tgSector s b ch i
  let a := tgAddr s b ch x
  let o := tgBase ch
  let want := tgData s b ch x
  if wr then unpoison (memWr (traffic s none 0 a 32 true) a want) a 32
  else
    let err := ((flt.find? (fun e => e.1 == x)).map (·.2)).getD 0 % 2 ^ 256
    let seen := tgSeen b (rbit s b (o + rTgCtl) 8) err a
    let s := memErrs (traffic s none 0 a 32 false) seen.2
    let got := leNat (memBytes s a 32) ^^^ seen.1
    let diff := got ^^^ leNat want
    if diff = 0 then s
    else
      let w := ((List.range 8).find? (fun w => bits diff (32 * w + 31) (32 * w) ≠ 0)).getD 0
      let n := (regAt s b (o + rTgErrcnt)).toNat
      let s1 := setReg s b (o + rTgErrcnt) (BitVec.ofNat 32 (min u32Max (n + 1)))
      if n ≠ 0 then s1
      else
        let s2 := setReg s1 b (o + rTgFailaddr) (BitVec.ofNat 32 x)
        let s3 := setReg s2 b (o + rTgFailxor) (BitVec.ofNat 32 (bits diff (32 * w + 31) (32 * w)))
        setFld s3 b (o + rTgFailword) 2 0 w

/-- MEM_TG_DONE: a run writes, then reads and checks, as its MODE says, and raises EVT_MEM_TG_DONE (R281). -/
def opMemTgDone (c : MemCtrl) (ch : Nat) (flt : List (Nat × Nat)) (s : State) : State :=
  let b := ctrlBlk c
  let o := tgBase ch
  if b.tgChannels ≤ ch ∨ !rbit s b (o + rTgStatus) 1 ∨ !rbit s b rHcStatus 7 ∨ !ctrlFitted s b then s
  else
    let m := fld s b (o + rTgCtl) 3 1
    let ops := List.range (regAt s b (o + rTgCount)).toNat
    let s1 := if m = 1 ∨ m = 3 then s else ops.foldl (tgOp b ch true flt) s
    let s2 := if m = 1 ∨ m = 2 then ops.foldl (tgOp b ch false flt) s1 else s1
    raise (setFld (setFld s2 b (o + rTgStatus) 1 1 0) b (o + rTgStatus) 0 0 1) .memTgDone (whCtrl b) 0 []

/-- MEM_TG_DONE (R281). -/
def execMemTgDone (c : MemCtrl) (ch : Fin 16) (flt : List (Nat × Nat)) (s : State) : Host.Outcome State Fault Refusal :=
  run [ctrlBlk c] (opMemTgDone c ch.val flt) s

/-! ## Migration (R267–R270, R285) -/

/-- MIG_APPLY: the ring in force, while no order is in flight (R285). -/
def migApplyWrite (s : State) : State :=
  if !s.mig.fly.isEmpty then s
  else
    let n := min 16 (max 4 (fld s .mig rMigRingSize 4 0))
    match tblBad s (addr48 s .mig rMigRingLo rMigRingHi / 64 * 64) (64 * 2 ^ n) with
    | some b => applyRefused s .mig rMigApply b
    | none =>
    setReg { s with mig := { ring := addr48 s .mig rMigRingLo rMigRingHi / 64 * 64, size := 2 ^ n,
                             die := fld s .mig rMigTrig 13 12, obj := fld s .mig rMigTrig 11 0, applied := true,
                             next := 0, fly := [] } } .mig rMigDone 0

/-- Read an order (Table 9.5). -/
def parseMig (k : Nat) (l : List Byte) : MigOrd :=
  { k := k, src := leAt l 0 8, dst := leAt l 8 8, srcSb := leAt l 0x10 8, dstSb := leAt l 0x18 8, count := leAt l 0x20 4,
    raw := leAt l 0x24 1 % 2 == 1, msb := leAt l 0x25 1, sig := leAt l 0x26 2, status := 0 }

/-- Bytes of one unit of an order. -/
def migUnit (o : MigOrd) : Nat := if o.raw then 4096 else 2048

/-- The address lies in a tier. -/
def inTier (s : State) (a : Nat) : Bool := (ctrlOf s a).isSome

/-- Two ranges overlap. -/
def rangesMeet (a n b m : Nat) : Bool := decide (a < b + m) && decide (b < a + n) && decide (0 < n) && decide (0 < m)

/-- First and last byte of a range lie in a tier, within one space. -/
def rangeIn (s : State) (a n : Nat) : Bool :=
  inTier s a && inTier s (a + n - 1) && ((spaceOf s a == spaceOf s (a + n - 1)) || (decide (a + n ≤ 0x28000000000)))

/-- A range touches an absent die's window. -/
def rangeAbsent (s : State) (a n : Nat) : Bool :=
  (List.range 4).any (fun d => rangesMeet a n (d * 0xA000000000) 0xA000000000 && !dieIn s d)

/-- A range touches a header plane (R142). -/
def rangeHdr (s : State) (a n : Nat) : Bool :=
  (List.range 4).any (fun d => rangesMeet a n (d * 0xA000000000 + 0x9D80000000) 0x280000000) ||
    rangesMeet a n (slowHdr s) (slowEnd s - slowHdr s)

/-- A range touches a registered page (R305). -/
def rangeParam (s : State) (a n : Nat) : Bool :=
  (List.range 5).any (fun t => match s.pages[t]? with
    | some p => p.ents.any (fun e => rangesMeet a n e.home 0x200000)
    | none => false)

/-- Why MIG refuses an order: its status, 0 for none (R269). -/
def migRefuse (s : State) (o : MigOrd) : Nat :=
  let u := migUnit o
  let n := o.count * u
  let ms := o.count * o.msb
  if o.count = 0 ∨ 1048576 < o.count ∨ ¬(o.msb = 0 ∨ o.msb = 128 ∨ o.msb = 256) ∨ rangesMeet o.src n o.dst n then 0x08
  else if o.src % u ≠ 0 ∨ o.dst % u ≠ 0 ∨ (o.msb ≠ 0 ∧ (o.srcSb % 64 ≠ 0 ∨ o.dstSb % 64 ≠ 0)) then 0x09
  else if !o.raw && (rangeHdr s o.src n || rangeHdr s o.dst n) then 0x0A
  else if !(rangeIn s o.src n && rangeIn s o.dst n &&
      (o.msb = 0 || o.raw || (rangeIn s o.srcSb ms && rangeIn s o.dstSb ms))) then 0x11
  else if rangeAbsent s o.src n || rangeAbsent s o.dst n || (o.msb ≠ 0 && !o.raw && (rangeAbsent s o.srcSb ms || rangeAbsent s o.dstSb ms))
    then 0x0B
  else 0

/-- Who MIG is: the hub, no step, no region cache. -/
def hubCx : Cx := { wh := whHub, step := 0, die := 4, rg := none }

/-- End an order: STATUS, MIG_DONE, ERR, and its completion object (R268). -/
def migDone (s : State) (o : MigOrd) (status : Nat) : State :=
  let slot := s.mig.ring + 64 * (o.k % s.mig.size)
  let s1 := { s with mig := { s.mig with fly := s.mig.fly.filter (fun x => x.k != o.k) } }
  let s2 := wrLE (traffic s1 none 0 (slot + 0x2C) 4 true) (slot + 0x2C) 4 status
  let s3 := setReg s2 .mig rMigDone (regAt s2 .mig rMigDone + 1)
  let s4 := if status = 0 then s3 else setFld s3 .mig rMigStatus 0 0 1
  let s5 := setFld s4 .mig rMigStatus 1 1 (b2n (!s4.mig.fly.isEmpty))
  if bitAt o.sig 15 then objSignal s5 (bits o.sig 13 12) (bits o.sig 11 0) 1 else s5

/-- Refused orders complete as soon as every earlier order has (R268). -/
def migDrain : Nat → State → State
  | 0, s => s
  | n + 1, s =>
    match s.mig.fly with
    | o :: _ => if o.status = 0 then s else migDrain n (migDone s o o.status)
    | [] => s

/-- MIG_ORDER_START: the next order begins once its trigger object has reached it (R267). -/
def opMigOrderStart (s : State) : State :=
  let m := s.mig
  if m.applied && decide (m.fly.length < 4) && reached (objVal s m.die m.obj) (BitVec.ofNat 32 (m.next + 1)) then
    let o := parseMig m.next (rdBytes s (m.ring + 64 * (m.next % m.size)) 64)
    let o1 := { o with status := migRefuse s o }
    let s := raiseIf (decide (o1.status = 0x0B)) s .dieAbsentAccess whHub 0 []
    migDrain 4 (setFld { s with mig := { m with next := m.next + 1, fly := m.fly ++ [o1] } } .mig rMigStatus 1 1 1)
  else s

/-- MIG_ORDER_START (R267). -/
def execMigOrderStart (s : State) : Host.Outcome State Fault Refusal := run [.mig] opMigOrderStart s

/-- A range of MIG's: an absent die's window (R30), a registered page (R305), a controller in TEST mode (R280). -/
def migAcc (s : State) (a n : Nat) (wr : Bool) : Option AccErr :=
  if n = 0 then none
  else if rangeAbsent s a n then some .dieAbsent
  else if wr && rangeParam s a n then some .param
  else if inTest s (xlatPage s a) then some .test else none

/-- Why MIG cannot reach unit i of an order: the unit, its header unless RAW, its micro-scales (R142, R143). -/
def migUnitAcc (s : State) (o : MigOrd) (i : Nat) : Option AccErr :=
  let u := migUnit o
  let ms := if o.raw then 0 else o.msb
  let hd := if o.raw then 0 else 32
  ([migAcc s (o.src + u * i) u false, migAcc s (o.dst + u * i) u true,
    migAcc s (hdrAddr s (xlatPage s (o.src + u * i))) hd false, migAcc s (hdrAddr s (xlatPage s (o.dst + u * i))) hd false,
    migAcc s (o.srcSb + ms * i) ms false, migAcc s (o.dstSb + ms * i) ms true].filterMap id).head?

/-- Copy one raw page; a poisoned sector stays poisoned (R268, log 42). -/
def migPage (s : State) (src dst : Nat) : State :=
  let p := xlatPage s src
  let bad := (sectorsOf p 4096).filter (fun k => s.poison.contains k)
  let s1 := if bad.isEmpty then s else poisonRead s p whHub 0
  let s2 := wrBytes (traffic (traffic s1 none 0 p 4096 false) none 0 dst 4096 true) dst (memBytes s p 4096)
  { s2 with poison := bad.map (fun k => dst / 32 + (k - p / 32)) ++ s2.poison }

/-- Copy one block: CRC checked, EPOCH restamped, scales and payload before the header (R268, R156). Gives its status. -/
def migBlock (s : State) (o : MigOrd) (i : Nat) : State × Nat :=
  let a := o.src + 2048 * i
  let da := o.dst + 2048 * i
  let r := rawBlk s a (o.srcSb + o.msb * i) o.msb
  let ms := if r.h.headOnly then 0 else o.msb
  let scales := if ms = 0 then [] else rdBytes s (o.srcSb + o.msb * i) o.msb
  let s0 := cnt64 (blkTraffic s none 0 a (o.srcSb + o.msb * i) o.msb r.h false) .chk rChkBlocksLo 1
  let bad := blkPoison s a (o.srcSb + o.msb * i) o.msb r.h
  let s1 := match bad with
    | some p => poisonRead s0 p whHub 0
    | none => s0
  if bad.isSome ∨ r.h.crc ≠ blkCrc r.h r.payload scales then
    (raise (crcUncured (crcFail s1 hubCx) hubCx) .blockCrcUncured whHub 0 [], 0x03)
  else
    let h1 := { r.h with epoch := s.epoch }
    let h2 := { h1 with crc := recrc r.h h1 (crcTail r.h) }
    let s2 := if r.h.headOnly then s1 else
      wrBytes (if ms = 0 then s1 else wrBytes s1 (o.dstSb + o.msb * i) scales) da r.payload
    let ha := hdrAddr s2 (xlatPage s2 da)
    (cnt64 (memWr (unpoison (blkTraffic s2 none 0 da (o.dstSb + o.msb * i) ms h2 true) ha 32) ha (hdrBytes h2))
      .mig rMigBytesLo (if r.h.headOnly then 32 else 2080 + ms), 0)

/-- Move the units of an order, stopping at the first status. -/
def migMove (o : MigOrd) : List Nat → State → State × Nat
  | [], s => (s, 0)
  | i :: r, s =>
    let u := migUnit o
    match migUnitAcc s o i with
    | some e => (raiseIf (decide (e = .dieAbsent)) (raiseAcc s e whHub 0) .dieAbsentAccess whHub 0 [], e.status)
    | none =>
      if o.raw then migMove o r (cnt64 (migPage s (o.src + u * i) (o.dst + u * i)) .mig rMigBytesLo 4096)
      else
        let x := migBlock s o i
        if x.2 = 0 then migMove o r x.1 else x

/-- MIG_ORDER_COMPLETE: the oldest order in flight moves its data and completes (R268). -/
def opMigOrderComplete (errs : List MemErr) (s : State) : State :=
  match s.mig.fly with
  | o :: _ =>
    if o.status ≠ 0 then s
    else
      let x := migMove o (List.range o.count) (memErrs s errs)
      migDrain 4 (migDone x.1 o x.2)
  | [] => s

/-- MIG_ORDER_COMPLETE (R268). -/
def execMigOrderComplete (errs : List MemErr) (s : State) : Host.Outcome State Fault Refusal :=
  run [.mig] (opMigOrderComplete errs) s

end Sys2Proof.Machine
end

