-- ==== Sys2Proof/Machine/Deliver.lean ====
section
/-! DEFINITION. Frames that a link or the loopback path brought whole: forwarding, end-to-end order (R334, R335), the epoch
rule (R52), the journal (R363–R373) and the effect of each frame type (Table 11.5, R186, R526, R527). -/
namespace Sys2Proof.Machine

/-! ## Answers -/

/-- A STATUS frame names the refused frame and a status code (R527). -/
def sendStatus (s : State) (f : Frame) (code : Nat) : State :=
  hubSend s (mkFrame s tyStatus (adLc f.src) 0 true 0 true 0 0 0
    (leBytes 4 f.esn ++ leBytes 1 (tyClass f.ty) ++ leBytes 1 code ++ [0, 0])) .hub 0

/-- A receiver refuses a frame: its event, and a STATUS frame to the sender (R527, Table 11.8). -/
def refuseFrame (s : State) (f : Frame) (code : Nat) (ev : Ev) : State := sendStatus (raise s ev whHub f.step []) f code

/-- Why an address of a frame is refused (Table 11.8): status and event. -/
def accRefusal (e : AccErr) : Nat × Ev :=
  match e with
  | .addr => (0x11, .insnAddr)
  | .dieAbsent => (0x0B, .dieAbsentAccess)
  | .reserved => (0x11, .memReserved)
  | .blockAddr => (0x0A, .blockAddr)
  | .param => (0x11, .paramWrite)
  | .test => (0x11, .memTestAccess)
  | .align => (0x09, .insnAlign)

/-- The checks of one block address of a frame: alignment, space, header plane, and for a write the parameter pages. -/
def frameAddrChk (s : State) (a ms : Nat) (msUsed wr : Bool) : Option AccErr :=
  if a % 2048 ≠ 0 || (msUsed && decide (ms % 64 ≠ 0)) then some .align
  else
    match accChk s a wr with
    | some e => some e
    | none =>
      if inHdrPlane s a then some .blockAddr
      else if inTest s (hdrAddr s (xlatPage s a)) then some .test
      else if !msUsed then none
      else match accChk s ms wr with
        | some e => some e
        | none => if inHdrPlane s ms then some .blockAddr else none

/-! ## Writing and reading blocks for other modules (R526) -/

/-- Write a block as it travelled: micro-scales, payload, then the header (R142, R151). -/
def putWire (s : State) (a ms : Nat) (r : RawBlk) : State :=
  let p := xlatPage s a
  let s1 := if r.payload = [] then s else wrBytes (traffic s none 0 p 2048 true) a r.payload
  let s2 := if r.scales = [] then s1 else wrBytes (traffic s1 none 0 (xlatPage s ms) r.scales.length true) ms r.scales
  memWr (unpoison (traffic s2 none 0 (hdrAddr s p) 32 true) (hdrAddr s p) 32) (hdrAddr s p) (hdrBytes r.h)

/-- A BLOCK frame to memory (R526, R527). -/
def blockTake (s : State) (f : Frame) : State :=
  let r := unwireBlk (f.body.drop 8)
  let field := leAt f.body 0 8
  let a := field % 2 ^ 48
  let ms := field / 2 ^ 48 * 2 ^ 32 + f.arg
  match frameAddrChk s a ms (!r.scales.isEmpty) true with
  | some e => refuseFrame s f (accRefusal e).1 (accRefusal e).2
  | none => putWire s a ms r

/-- A SYNC frame to an object (R186, R187, R527). -/
def syncTake (s : State) (l : Nat) (f : Frame) : State :=
  let die := adDie f.dst
  let op := leAt f.body 0 1
  let v := leAt f.body 4 4
  let i := f.arg % 4096
  if 1 < op then dropAt s l
  else if !dieIn s die then refuseFrame s f 0x0B .dieAbsentAccess
  else if isSysObj i then sendStatus (cnt s (.sync die) rSyncRsvdWrite) f 0x08
  else if op = 1 then objPut s die i (BitVec.ofNat 32 v)
  else if v = 0 ∨ 2147483648 ≤ v then sendStatus (cnt s (.sync die) rSyncBadOp) f 0x08
  else objAdd s die i v

/-- Micro-scale bytes of a block as stored. -/
def hdrMs (h : Hdr) : Nat := if h.scaling && !h.headOnly then ((fmtOf h.fmt).map Fmt.msBytes).getD 0 else 0

/-- Serve block k of a READ: its RDATA frame, or the first refusal (R526). -/
def serveBlk (f : Frame) (src ms : Nat) (x : State × Bool) (k : Nat) : State × Bool :=
  if !x.2 then x
  else
    let s := x.1
    let a := src + 2048 * k
    match frameAddrChk s a 0 false false with
    | some e => (refuseFrame s f (accRefusal e).1 (accRefusal e).2, false)
    | none =>
      let p := xlatPage s a
      let h := parseHdr (memBytes s (hdrAddr s p) 32)
      let e := hdrMs h
      let m := ms + k * e
      match (if e = 0 then none else frameAddrChk s a m true false) with
      | some e => (refuseFrame s f (accRefusal e).1 (accRefusal e).2, false)
      | none =>
        match blkPoison s a m e h with
        | some pa => (sendStatus (poisonRead s pa whHub f.step) f 0x03, false)
        | none =>
          let r := rawBlk s a m e
          let s1 := blkTraffic s none 0 a m e h false
          let g := mkFrame s tyRdata (adLc f.src) (adDie f.src) (adHub f.src) 0 true f.step f.epoch f.arg
            (leBytes 8 a ++ wireBlk r.h r.scales r.payload)
          (hubSend s1 g .hub 0, true)

/-- A READ frame to memory (R526). -/
def readTake (s : State) (f : Frame) : State :=
  let n := leAt f.body 8 4
  if n = 0 ∨ 65536 < n then refuseFrame s f 0x08 .insnLimit
  else ((List.range n).foldl (serveBlk f (leAt f.body 0 8) (leAt f.body 16 8)) (s, true)).1

/-- Take a block for a READ: the block check of a consumer, and the block kept (R155, R526). -/
def readPlace (s : State) (r : ReadReq) (blk : List Byte) : State :=
  let b := unwireBlk blk
  let s1 := cnt64 s .chk rChkBlocksLo 1
  let s2 := if b.h.crc = blkCrc b.h b.payload b.scales then s1
    else noteStat (crcUncured (crcFail s1 hubCx) hubCx) r.owner 0x03
  { s2 with reads := s2.reads.map (fun x => if x.tag = r.tag then { x with got := x.got ++ [blk] } else x) }

/-- A journal record gets the frame that its sender re-sent (R372). -/
def refetched (s : State) (j : Nat) (f : Frame) : State :=
  { s with
    agl := { s.agl with recs := s.agl.recs.map (fun x => if x.jseq = j then { x with frame := f } else x) }
    reads := s.reads.filter (fun r => r.refetch != some j) }

/-- An RDATA frame, placed by its tag (R526). -/
def rdataTake (s : State) (l : Nat) (f : Frame) : State :=
  match s.reads.find? (fun r => decide (r.tag = f.arg) && decide (r.lc = adLc f.src) && decide (r.got.length < r.count)) with
  | some r =>
    match r.refetch with
    | some j => refetched s j f
    | none => readPlace s r (f.body.drop 8)
  | none => dropAt s l

/-- A ZRUN frame with collective id 0 that no collective takes: ZERO headers in memory, each with its CRC (R342). -/
def zrunMem (s : State) (f : Frame) : State :=
  let a := leAt f.body 0 8 % 2 ^ 48
  let h := parseHdr (slice f.body 8 32)
  let n := min 65536 (leAt f.body 40 4)
  match (List.range n).findSome? (fun k => frameAddrChk s (a + 2048 * k) 0 false true) with
  | some e => refuseFrame s f (accRefusal e).1 (accRefusal e).2
  | none => ((zrunBlks h n).mapIdx (fun k b => (k, b))).foldl (fun t x => putWire t (a + 2048 * x.1) 0 (unwireBlk x.2)) s

/-- A COLL or ZRUN frame: of a collective in flight, or kept until the module starts it. -/
def collRx (s : State) (l : Nat) (f : Frame) : State :=
  match collFind s f with
  | some c => collTake s l c f
  | none =>
    if f.ty = tyZrun ∧ f.arg = 0 then zrunMem s f
    else if f.step ≠ 0 ∧ f.step ≤ s.commitN then dropAt s l
    else { s with collIn := s.collIn ++ [f] }

/-- A VOTE frame by its kind (Table 11.5). -/
def voteRx (s : State) (l : Nat) (f : Frame) : State :=
  let kind := leAt f.body 9 1
  if kind = 0 then voteTake l f s
  else if kind = 1 then
    match barrierFind s f with
    | some c => barrierTake s l c f
    | none => { s with collIn := s.collIn ++ [f] }
  else if kind = 2 then agreeTake l f s
  else dropAt s l

/-- A hub-addressed BLOCK, SYNC or READ waits for the hub; one of an unknown message is discarded (R376). -/
def hubTake (s : State) (l : Nat) (f : Frame) : State :=
  let m := leAt f.body 7 1
  let op := leAt f.body 0 1
  let known := if f.ty = tyBlock then decide (1 ≤ m) && decide (m ≤ 6)
    else if f.ty = tySync then decide (op = 0x10) || decide (op = 0x11) else true
  if known then { s with hubIn := s.hubIn ++ [f] } else dropAt s l

/-- The effect of a frame in its place of the order. -/
def frameFx (s : State) (l : Nat) (f : Frame) : State :=
  if f.ty = tyColl ∨ f.ty = tyZrun then collRx s l f
  else if f.ty = tyVote then voteRx s l f
  else if f.ty = tyDigest then digestTake l f s
  else if f.ty = tyRdata then rdataTake s l f
  else if adHub f.dst then hubTake s l f
  else if f.ty = tyBlock then blockTake s f
  else if f.ty = tySync then syncTake s l f
  else readTake s f

/-! ## The journal of received frames (R363–R370) -/

/-- A received frame is journaled (Table 13.1). -/
def rxJournaled (f : Frame) : Bool :=
  decide (f.step ≠ 0) && decide (f.epoch ≠ 0) && !adHub f.dst &&
    (decide (f.ty = tyBlock) || decide (f.ty = tyRdata) || decide (f.ty = tySync))

/-- The step of a frame has sealed or committed here. -/
def stepPast (s : State) (n : Nat) : Bool :=
  decide (n ≤ s.commitN) || (stepRec s n).any (fun r => decide (r.st = .sealed))

/-- The pending refetch that a re-sent frame answers (R372). -/
def refetchFor (s : State) (f : Frame) : Option Nat :=
  if !f.resend then none
  else
    s.reads.findSome? (fun r => r.refetch.bind (fun j =>
      (s.agl.recs.find? (fun x => decide (x.jseq = j) && decide (x.step = f.step) && decide (x.peer = adLc f.src)
        && decide (jKey x.frame = jKey f))).map (fun x => x.jseq)))

/-- A waiting frame of the same step and direction comes before. -/
def rxWaits (s : State) (n : Nat) : Bool := s.agl.wait.any (fun w => !w.tx && decide (w.frame.step = n))

/-- An arrival for the last sealed step matches the first record of its key that was released at the seal (R373). -/
def servedMatch (s : State) (f : Frame) : State :=
  match s.agl.served.find? (fun r => decide (r.step = f.step) && !r.matched && decide (r.peer = adLc f.src)
      && decide (jKey r.frame = jKey f)) with
  | some r =>
    { s with agl := { s.agl with served := s.agl.served.map (fun x => if x.jseq = r.jseq then { x with matched := true } else x) } }
  | none => s

/-- Journal a frame and let it take effect: a match of an RX record is discarded, another is new input (R365, R370). -/
def journalRx (s : State) (l : Nat) (f : Frame) : State :=
  match refetchFor s f with
  | some j => refetched s j f
  | none =>
    if stepPast s f.step then cnt (servedMatch s f) .hub rHubAglMatched
    else
      match findRec s.agl .rxLink (adLc f.src) f with
      | some r =>
        cnt { s with agl := { s.agl with recs := s.agl.recs.map (fun x =>
          if x.jseq = r.jseq then { x with matched := true } else x) } } .hub rHubAglMatched
      | none =>
        if !rxWaits s f.step && admits s f.step true f.body.length then
          frameFx (addRec s .rxLink f.step (adLc f.src) f []) l f
        else aglWait s { tx := false, frame := f, owner := .hub, collid := l }

/-- Deliver a frame of its pair and class in order: the epoch rule, then the journal or the effect (R52). -/
def deliver (s : State) (l : Nat) (f : Frame) : State :=
  if f.epoch ≠ 0 ∧ f.epoch < s.epoch then cnt s .chk rChkStaleEpoch
  else
    let s1 := adoptEpoch s f.epoch
    if rxJournaled f then journalRx s1 l f else frameFx s1 l f

/-! ## End-to-end order (R334, R335) -/

/-- The reorder store holds 16 MiB. -/
def storeMax : Nat := 16777216

/-- Bytes in the reorder store. -/
def storeBytes (e : E2e) : Nat := e.store.foldl (fun n r => n + 32 + r.frame.body.length) 0

/-- One more frame of a source is to be acknowledged. -/
def noteDue (s : State) (lc : Nat) : State :=
  { s with e2e := { s.e2e with due := smUpd (fun _ => ({ n := 0, since := 0 } : AckDue)) s.e2e.due lc (fun d =>
      if d.n = 0 then { n := 1, since := s.beacon + 1 } else { d with n := d.n + 1 }) } }

/-- The ESN that a pair and class expects. -/
def rxExp (s : State) (lc cls : Nat) : Nat := smGet (fun _ => 0) s.e2e.rx (pairKey lc cls)

/-- Deliver a frame, then every stored one that follows it. -/
def deliverGo : Nat → State → Nat → Frame → State
  | 0, s, _, _ => s
  | k + 1, s, l, f =>
    let lc := adLc f.src
    let c := tyClass f.ty
    let key := pairKey lc c
    let s1 := { s with e2e := { s.e2e with rx := smPut (fun _ => 0) s.e2e.rx key ((f.esn + 1) % u32Mod) } }
    let s2 := deliver s1 l f
    match s2.e2e.store.find? (fun r => decide (r.lc = lc) && decide (r.cls = c) && decide (r.frame.esn = rxExp s2 lc c)) with
    | some r => deliverGo k { s2 with e2e := { s2.e2e with store := s2.e2e.store.erase r } } l r.frame
    | none => s2

/-- Take a sequenced frame for this module: in order, a duplicate, or ahead of its turn (R334). -/
def orderTake (s : State) (l : Nat) (f : Frame) : State :=
  let lc := adLc f.src
  let c := tyClass f.ty
  let e := rxExp s lc c
  if f.esn = e then deliverGo (s.e2e.store.length + 1) (noteDue s lc) l f
  else if reached (BitVec.ofNat 32 e) (BitVec.ofNat 32 f.esn) then
    noteDue (if l < 6 then cnt s (.lnk l) rLnkE2eDup else s) lc
  else if s.e2e.store.any (fun r => decide (r.lc = lc) && decide (r.cls = c) && decide (r.frame.esn = f.esn)) then
    if l < 6 then cnt s (.lnk l) rLnkE2eDup else s
  else if storeMax < storeBytes s.e2e + 32 + f.body.length then raise s .linkReorderFull (whLink l) f.step []
  else { s with e2e := { s.e2e with store := s.e2e.store ++ [{ lc := lc, cls := c, frame := f }] } }

/-- The journal cannot give a record: the step is abandoned with cause 0x02, and the next attempt takes the frame as new
input (R372). -/
def aglLose (s : State) (j : Nat) : State :=
  match s.agl.recs.find? (fun x => decide (x.jseq = j)) with
  | some r =>
    let s1 := { s with
      agl := { s.agl with recs := s.agl.recs.filter (fun x => x.jseq != j) }
      reads := s.reads.filter (fun x => x.refetch != some j) }
    abandon (raise (showAgl s1) .aglLost whHub r.step []) r.step 2
  | none => s

/-- A status reaches the work that a frame belonged to (R336, R527). -/
def ownerStat (s : State) (o : Owner) (code : Nat) : State :=
  match o with
  | .sync q pc step => failStatus s q code pc step []
  | .refetch j => aglLose s j
  | .hub => s
  | .op _ => noteStat s o code
  | .coll _ => noteStat s o code

/-- A STATUS frame: the status of the refused frame's transfer. Work that has no other frames completes with it once an
ACKE has passed the frame (R527). -/
def statusTake (s : State) (l : Nat) (f : Frame) : State :=
  let esn := leAt f.body 0 4
  let cls := leAt f.body 4 1
  let is := fun (u : Unack) => decide (u.lc = adLc f.src) && decide (u.cls = cls) && decide (u.esn = esn)
  match s.e2e.unack.find? is with
  | some u =>
    match u.owner with
    | .op _ => ownerStat s u.owner (leAt f.body 5 1)
    | .coll _ => ownerStat s u.owner (leAt f.body 5 1)
    | _ =>
      if u.stat ≠ 0 then s
      else { s with e2e := { s.e2e with unack := s.e2e.unack.map (fun v => if is v then { v with stat := leAt f.body 5 1 } else v) } }
  | none => dropAt s l

/-- An ACKE has passed a frame: its status takes effect (R527). -/
def ackedStat (s : State) (u : Unack) : State := if u.stat = 0 then s else ownerStat s u.owner u.stat

/-- An ACKE: the frames it passes are acknowledged, both classes (R335). -/
def ackeTake (s : State) (f : Frame) : State :=
  let lc := adLc f.src
  let passed := fun (u : Unack) =>
    decide (u.lc = lc) && decide (u.cls < 2) && decide (u.esn ≠ (if u.cls = 0 then f.arg else f.esn)) &&
      reached (BitVec.ofNat 32 (if u.cls = 0 then f.arg else f.esn)) (BitVec.ofNat 32 u.esn)
  (s.e2e.unack.filter passed).foldl ackedStat { s with e2e := { s.e2e with unack := s.e2e.unack.filter (fun u => !passed u) } }

/-- The block that a frame carries fails its CRC (R155). -/
def frameCrcBad (f : Frame) : Bool :=
  if f.ty = tyBlock ∨ f.ty = tyRdata ∨ f.ty = tyColl then
    let b := unwireBlk (f.body.drop 8)
    decide (b.h.crc ≠ blkCrc b.h b.payload b.scales)
  else false

/-- A frame for this module. One whose block fails its CRC is discarded, to be re-sent (R155). -/
def frameHere (s : State) (l : Nat) (f : Frame) : State :=
  if f.ty = tyAcke then ackeTake s f
  else if f.ty = tyStatus then statusTake s l f
  else if frameCrcBad f then crcFail s { hubCx with step := f.step }
  else orderTake s l f

/-- A frame for a compute die wakes the module from dusk and waits until then (Table 16.4). -/
def frameAsleep (s : State) (f : Frame) : Bool := decide (s.pwr = .dusk) && !adHub f.dst

/-- Receive the oldest whole frame of a link: forwarded, discarded, or taken here (R328, R330). -/
def frameRx (l : Nat) (ty : Nat) (s : State) : State :=
  let x := linkOf s l
  match x.rxq with
  | [] => s
  | f :: r =>
    if f.ty ≠ ty then s
    else
      match routeOf s f (if l < 6 then some l else none) with
      | .hop d g => sendHop (giveBack (setLink s l { x with rxq := r }) l f) d g
      | .invalid => giveBack (dropAt (setLink s l { x with rxq := r }) l) l f
      | .here =>
        if frameAsleep s f then wake s
        else kick (frameHere (giveBack (setLink s l { x with rxq := r }) l f) l f)

/-- BLOCK_FRAME_RX (R526). -/
def execBlockFrameRx (l : Fin 7) (s : State) : Host.Outcome State Fault Refusal := run [.xlat] (frameRx l tyBlock) s

/-- SYNC_FRAME_RX (R186). -/
def execSyncFrameRx (l : Fin 7) (s : State) : Host.Outcome State Fault Refusal := run [.xlat] (frameRx l tySync) s

/-- READ_FRAME_RX (R526). -/
def execReadFrameRx (l : Fin 7) (s : State) : Host.Outcome State Fault Refusal := run [.xlat] (frameRx l tyRead) s

/-- RDATA_FRAME_RX (R526). -/
def execRdataFrameRx (l : Fin 7) (s : State) : Host.Outcome State Fault Refusal := run [.xlat] (frameRx l tyRdata) s

/-- COLL_FRAME_RX (R339). -/
def execCollFrameRx (l : Fin 7) (s : State) : Host.Outcome State Fault Refusal := run [.xlat] (frameRx l tyColl) s

/-- ZRUN_FRAME_RX (R342). -/
def execZrunFrameRx (l : Fin 7) (s : State) : Host.Outcome State Fault Refusal := run [.xlat] (frameRx l tyZrun) s

/-- VOTE_FRAME_RX (R340). -/
def execVoteFrameRx (l : Fin 7) (s : State) : Host.Outcome State Fault Refusal := run [.xlat] (frameRx l tyVote) s

/-- DIGEST_FRAME_RX (R40). -/
def execDigestFrameRx (l : Fin 7) (s : State) : Host.Outcome State Fault Refusal := run [.xlat] (frameRx l tyDigest) s

/-- ACKE_FRAME_RX (R335). -/
def execAckeFrameRx (l : Fin 7) (s : State) : Host.Outcome State Fault Refusal := run [.xlat] (frameRx l tyAcke) s

/-- STATUS_FRAME_RX (R527). -/
def execStatusFrameRx (l : Fin 7) (s : State) : Host.Outcome State Fault Refusal := run [.xlat] (frameRx l tyStatus) s

/-! ## Timers of the end-to-end layer -/

/-- ACKE_TIMER: an ACKE to a source with frames to acknowledge, every 2 µs or 64 frames (R335). -/
def opAckeTimer (lc : Nat) (s : State) : State :=
  let d := smGet (fun _ => ({ n := 0, since := 0 } : AckDue)) s.e2e.due lc
  if d.n ≠ 0 ∧ (64 ≤ d.n ∨ d.since + 2 * btUs ≤ s.beacon + 1) then
    let f := mkFrame s tyAcke lc 0 true 0 true 0 0 (rxExp s lc 0) []
    hubSend { s with e2e := { s.e2e with due := smDel s.e2e.due lc } } { f with esn := rxExp s lc 1 } .hub 0
  else s

/-- ACKE_TIMER (R335). -/
def execAckeTimer (lc : BitVec 18) (s : State) : Host.Outcome State Fault Refusal := run [.xlat] (opAckeTimer lc.toNat) s

/-- E2E_TIMEOUT: the oldest frame past its timeout fails its transfer: EVT_COLL_FAIL with the destination, the ESN, the
collective id and the class, and the COLL bit of its step's vote (R336). -/
def opE2eTimeout (s : State) : State :=
  match s.e2e.unack.find? (fun u => decide (u.deadline ≤ s.beacon)) with
  | some u =>
    let s1 := { s with e2e := { s.e2e with unack := s.e2e.unack.erase u } }
    let s2 := raise s1 .collFail whHub u.step [a32 u.lc, a32 u.esn, a32 u.collid, a8 (u.cls % 2)]
    kick (ownerStat (if u.step = 0 then s2 else voteSet s2 u.step vColl) u.owner (if u.stat = 0 then 0x12 else u.stat))
  | none => s

/-- E2E_TIMEOUT (R336). -/
def execE2eTimeout (s : State) : Host.Outcome State Fault Refusal := run [.xlat] opE2eTimeout s

/-! ## The journal's own work (R366, R370, R372, R373) -/

/-- A waiting record may be admitted: nothing of its step and direction waits before it. -/
def waitMay (s : State) (w : JWait) : Bool :=
  admits s w.frame.step (!w.tx) w.frame.body.length &&
    (s.agl.wait.find? (fun v => v.tx == w.tx && decide (v.frame.step = w.frame.step))) == some w

/-- JOURNAL_ADMIT: the first waiting record that has space is admitted (R366). -/
def opJournalAdmit (s : State) : State :=
  match s.agl.wait.find? (waitMay s) with
  | some w =>
    let s1 := { s with agl := { s.agl with wait := s.agl.wait.erase w } }
    if w.tx then
      kick (if canSend s1 (adLc w.frame.dst) then sendSeq (recordTx s1 w.frame) w.frame w.owner w.collid
            else unsent s1 w.frame w.owner)
    else if w.frame.epoch < s.epoch then cnt s1 .chk rChkStaleEpoch
    else kick (journalRx s1 w.collid w.frame)
  | none => s

/-- JOURNAL_ADMIT (R366). -/
def execJournalAdmit (s : State) : Host.Outcome State Fault Refusal := run [.hub] opJournalAdmit s

/-- Number of earlier records of a kind with the key of a record (R369). -/
def occurrence (a : Agl) (r : JRec) : Nat :=
  (a.recs.filter (fun x => x.kind == r.kind && decide (x.step = r.step) && decide (x.peer = r.peer)
    && decide (jKey x.frame = jKey r.frame) && decide (x.jseq < r.jseq))).length

/-- A record whose RCRC fails is fetched again from its sender (R372). -/
def sendRefetch (s : State) (r : JRec) : State :=
  if s.reads.any (fun x => x.refetch == some r.jseq) then s
  else if r.kind = .rxHost ∨ !canSend s r.peer then aglLose s r.jseq
  else
    let tag := s.readTag
    let key := if r.frame.ty = tySync then 2 ^ 63 + adDie r.frame.dst * 4096 + r.frame.arg % 4096
      else leAt r.frame.body 0 8 % 2 ^ 48
    let s1 := { s with
      readTag := (tag + 1) % u32Mod
      reads := s.reads ++ [{ tag := tag, owner := .refetch r.jseq, lc := r.peer, src := key, count := 1, got := [],
                             refetch := some r.jseq }] }
    emit s1 (mkFrame s1 tyRead r.peer 0 true 0 true r.step s.epoch tag
      (leBytes 8 key ++ leBytes 4 (occurrence s.agl r) ++ leBytes 4 0 ++ leBytes 8 0)) (.refetch r.jseq) 0

/-- The RX record to re-deliver next: the first of a replayed step that is not re-delivered, once every TX record of the
step with a lower JSEQ has been matched (R370). -/
def nextRedeliver (s : State) : Option JRec :=
  s.steps.findSome? (fun st =>
    if !(st.replay && unsealed st) then none
    else
      (s.agl.recs.find? (fun r => decide (r.step = st.n) && r.kind.isRx && !r.redone)).bind (fun r =>
        if s.agl.recs.any (fun t => decide (t.step = st.n) && t.kind == .txLink && !t.matched && decide (t.jseq < r.jseq)) then none
        else some r))

/-- An RDATA record waits for the READ that asks for its block. -/
def readWanting (s : State) (f : Frame) : Option ReadReq :=
  s.reads.find? (fun r => decide (r.lc = adLc f.src) && r.refetch.isNone && decide (r.got.length < r.count)
    && decide (r.src + 2048 * r.got.length = leAt f.body 0 8))

/-- The record is re-delivered. -/
def redone (s : State) (r : JRec) : State :=
  { s with agl := { s.agl with recs := s.agl.recs.map (fun x => if x.jseq = r.jseq then { x with redone := true } else x) } }

/-- The data of a host record goes to its address again: the address, that of its micro-scales and whether it is a block
stand in ESN, ARG and RESEND of the record's frame. -/
def hostRecFx (s : State) (f : Frame) : State :=
  if f.resend then putWire s f.esn f.arg (unwireBlk f.body) else wrBytes s f.esn f.body

/-- JOURNAL_REDELIVER: the next RX record of a replay takes effect again; `rcrcOk` tells whether its RCRC passes. -/
def opJournalRedeliver (rcrcOk : Bool) (s : State) : State :=
  match nextRedeliver s with
  | none => s
  | some r =>
    if !rcrcOk then sendRefetch s r
    else if r.kind = .rxHost then hostRecFx (redone s r) r.frame
    else if r.frame.ty = tyRdata then
      match readWanting s r.frame with
      | some q => kick (readPlace (redone s r) q (r.frame.body.drop 8))
      | none => s
    else kick (frameFx (redone s r) loopLink r.frame)

/-- JOURNAL_REDELIVER (R370). -/
def execJournalRedeliver (rcrcOk : Bool) (s : State) : Host.Outcome State Fault Refusal := run [.hub] (opJournalRedeliver rcrcOk) s

/-- Re-send a journaled frame with RESEND set and the current epoch (R373, R529). -/
def resendRec (s : State) (r : JRec) : State :=
  let f := { r.frame with resend := true, epoch := s.epoch, esn := 0, hops := 0, codes := 0 }
  let s1 := { s with agl := { s.agl with recs := s.agl.recs.map (fun x => if x.jseq = r.jseq then { x with frame := f } else x) } }
  if canSend s r.peer then sendSeq s1 f .hub 0 else s1

/-- SEND_JOURNAL_RESEND: the next TX record of the last sealed step for a member that replays it, once every RX record of
that member with a lower JSEQ has been matched by an arrival in the new epoch (R47, R373). -/
def opSendJournalResend (lc : Nat) (s : State) : State :=
  match s.lastSeal with
  | none => s
  | some (n, _) =>
    match s.agl.recs.find? (fun r => decide (r.step = n) && r.kind == .txLink && decide (r.peer = lc) && decide (r.frame.epoch < s.epoch)) with
    | some r =>
      if s.agree.active ∨ s.agl.served.any (fun t => decide (t.step = n) && decide (t.peer = lc) && decide (t.jseq < r.jseq)
          && !t.matched) then s
      else resendRec s r
    | none => s

/-- SEND_JOURNAL_RESEND (R373). -/
def execSendJournalResend (lc : BitVec 18) (s : State) : Host.Outcome State Fault Refusal :=
  run [.hub] (opSendJournalResend lc.toNat) s

/-- The TX record that a refetch names: step, requester, key and occurrence (R372). -/
def refetchRec (s : State) (f : Frame) : Option JRec :=
  let key := leAt f.body 0 8
  let mine := fun (r : JRec) => decide (r.step = f.step) && r.kind == .txLink && decide (r.peer = adLc f.src) &&
    (if bitAt key 63 then decide (r.frame.ty = tySync) && decide (r.frame.arg % 4096 = key % 4096) && decide (adDie r.frame.dst = bits key 13 12)
     else decide (r.frame.ty = tyBlock) && decide (leAt r.frame.body 0 8 % 2 ^ 48 = key % 2 ^ 48))
  (s.agl.recs.filter mine)[leAt f.body 8 4]?

/-- JOURNAL_REFETCH_RX: the hub re-sends the frame that a refetch names, or refuses it with LIMIT (R372). -/
def opJournalRefetchRx (s : State) : State :=
  match s.hubIn with
  | f :: r =>
    if f.ty ≠ tyRead then s
    else
      let s1 := { s with hubIn := r }
      match refetchRec s1 f with
      | some x => resendRec s1 x
      | none => sendStatus s1 f 0x08
  | [] => s

/-- JOURNAL_REFETCH_RX (R372). -/
def execJournalRefetchRx (s : State) : Host.Outcome State Fault Refusal := run [.hub] opJournalRefetchRx s

end Sys2Proof.Machine
end

