-- ==== Sys2Proof/Machine/Orders.lean ====
section
/-! DEFINITION. Work orders of the host (R426–R429): acceptance, the data of a WRITE, the blocks of a READ, completion
records and ABORT. -/
namespace Sys2Proof.Machine

/-! ## Orders (Table 15.5) -/

/-- Most orders in flight on a queue (R426). -/
def orderMax : Nat := 1024

/-- BLOCKS, STEPB and SIGV of an order. -/
def Order.blocks (o : Order) : Bool := bitAt o.flags 0
def Order.stepb (o : Order) : Bool := bitAt o.flags 1
def Order.sigv (o : Order) : Bool := bitAt o.flags 2

/-- Read an order from a WORK frame. -/
def parseOrder (s : State) (port : Nat) (f : CwtFrame) : Order :=
  let b := f.body
  { no := s.orderNo, queue := leAt b 8 2, order := leAt b 0 8, kind := leAt b 0x0A 1, flags := leAt b 0x0B 1,
    step := leAt b 0x0C 4, epoch := leAt b 0x10 4, addr := leAt b 0x14 8, len := leAt b 0x1C 8, obj := leAt b 0x24 4,
    saddr := leAt b 0x28 8, ident := slice b 0 0x24, port := port, bytes := 0, pos := 0, part := [], blk := 0,
    done := false, aborted := false, status := 0, rcd := [] }

/-- An order of a queue that has not retired. -/
def orderFind (s : State) (q ord : Nat) : Option Order := 
  s.orders.find? (fun o => decide (o.queue = q) && decide (o.order = ord) && o.inFlight)

/-- Replace an order. -/
def setOrder (s : State) (o : Order) : State := { s with orders := s.orders.map (fun x => if x.no = o.no then o else x) }

/-- STEP names an unsealed step or the next to open (R427). -/
def stepNamed (s : State) (n : Nat) : Bool :=
  decide (n = s.openN + 1) || (stepRec s n).any (fun r => unsealed r || decide (r.st = .abandoned))

/-- The order is well formed (Table 15.5, R426, R427). -/
def orderOk (s : State) (f : CwtFrame) (o : Order) : Bool :=
  decide (f.body.length = 64) && decide (o.order ≠ 0) && decide (o.order = f.order) && decide (o.queue = f.queue) &&
    decide (f.queue ≠ 0) && decide (o.flags < 8) && decide (o.obj < 16384) && decide (leAt f.body 0x30 8 = 0) &&
    decide (leAt f.body 0x38 8 = 0) && decide (1 ≤ o.kind) && decide (o.kind ≤ 5) && (orderFind s o.queue o.order).isNone &&
    (decide (2 < o.kind) || (decide (1 ≤ o.len) && decide (o.len ≤ 2 ^ 40))) &&
    (if o.stepb then stepNamed s o.step else decide (o.step = 0) && decide (o.epoch = 0) && decide (f.epoch = 0))

/-! ## Ranges of bytes -/

/-- A range touches a reserved area of the slow tier (R265). -/
def rangeRsvd (s : State) (a n : Nat) : Bool :=
  rangesMeet a n 0x100000000000 0x100000000 || rangesMeet a n (slowHdr s - s.aglGiB * 0x40000000) (s.aglGiB * 0x40000000)

/-- A range of an SRAM window reaches its header plane. -/
def sramHdr (s : State) (a n : Nat) : Bool :=
  match spaceOf s a, planeOf s a with
  | .shared _, some (_, e, _) => decide (e < a + n)
  | .tile _ _, some (_, e, _) => decide (e < a + n)
  | _, _ => false

/-- First and last address lie in memory. -/
def rangeMapped (s : State) (a n : Nat) : Bool :=
  (planeOf s a).isSome && (planeOf s (a + n - 1)).isSome &&
    (decide (0x28000000000 ≤ a) || decide (a + n ≤ 0x28000000000)) && (decide (0xE00000000000 ≤ a) || decide (a + n ≤ slowEnd s))

/-- Status and event of an access that does not take place. -/
def errStat (e : AccErr) : Nat × Option Ev := ((accRefusal e).1, some (accRefusal e).2)

/-- Why an order without BLOCKS is refused: status and event (R427). -/
def rangeStat (s : State) (a n : Nat) (wr : Bool) : Nat × Option Ev :=
  if wr && (rangeHdr s a n || sramHdr s a n) then (0x0A, some .blockAddr)
  else if !rangeMapped s a n then (0x11, some .insnAddr)
  else if rangeAbsent s a n then (0x0B, some .dieAbsentAccess)
  else if rangeRsvd s a n then (0x11, some .memReserved)
  else if wr && rangeParam s a n then (0x11, some .paramWrite)
  else match accChk s a wr, accChk s (a + n - 1) wr with
    | some e, _ => errStat e
    | none, some e => errStat e
    | none, none => (0, none)

/-- Give an order a status, with its event. -/
def orderStat (s : State) (o : Order) (x : Nat × Option Ev) : State × Order :=
  ({ s with evt := match x.2 with
      | some ev => evtPush s.evt s.beacon s.epoch ev whHub o.step []
      | none => s.evt }, { o with status := x.1, done := o.done || decide (x.1 ≠ 0) })

/-! ## Acceptance -/

/-- The status an order has as it is accepted. -/
def orderStart (s : State) (o : Order) : State × Order :=
  if worksNot s then (raise s .cwtRefused whHub o.step [], { o with status := 0x16, done := true })
  else if o.kind = 1 && !o.blocks then orderStat s o (rangeStat s o.addr o.len true)
  else (s, o)

/-- Accept a WORK frame of a kind; `act` begins the order (R426). -/
def workTake (kind port : Nat) (f : CwtFrame) (act : Order → State → State × Order) (s : State) : State × Bool :=
  let o := parseOrder s port f
  if !orderOk s f o then (hostNack s f.queue 8 0, false)
  else if o.stepb && decide (o.epoch ≠ s.epoch) then
    (hostNack (cnt s .cwt rCwtStale) f.queue (if o.epoch < s.epoch then 4 else 5) s.epoch, false)
  else if orderMax ≤ (s.orders.filter (fun x => x.queue == o.queue && x.inFlight)).length then (hostBusy s f.queue, false)
  else
    let (s1, o1) := orderStart { s with orderNo := s.orderNo + 1 } o
    let (s2, o2) := if o1.status = 0 ∧ o1.kind = kind then act o1 s1 else (s1, o1)
    ({ s2 with orders := s2.orders ++ [o2] }, true)

/-- The kind that a WORK frame names, a malformed one counted as WRITE. -/
def workKind (f : CwtFrame) : Nat :=
  let k := leAt f.body 0x0A 1
  if 1 ≤ k ∧ k ≤ 5 then k else 1

/-- Receive a WORK frame of a kind. -/
def workRx (kind port : Nat) (p : CwtPeer) (f : CwtFrame) (act : Order → State → State × Order) (s : State) : State :=
  if workKind f ≠ kind then s else hostRx cWork port p f (workTake kind port f act) s

/-! ## DATA of a WRITE (R416, R427) -/

/-- Cut the front of a stream into whole blocks; gives the blocks and what is left. -/
def cutBlks : Nat → List Byte → List (List Byte) × List Byte
  | 0, l => ([], l)
  | k + 1, l =>
    if l.length < 32 then ([], l)
    else
      let n := blkLen (parseHdr l)
      if l.length < n then ([], l)
      else
        let r := cutBlks k (l.drop n)
        (l.take n :: r.1, r.2)

/-- Journal a piece of a step-bound WRITE: its address, that of its micro-scales and whether it is a block stand in ESN, ARG
and RESEND of the record's frame (R364). -/
def hostRec (s : State) (o : Order) (a ms : Nat) (isBlk : Bool) (d : List Byte) : State :=
  addRec s .rxHost o.step (o.port + 65536 * o.queue)
    { ty := 0, vc := 0, resend := isBlk, hops := 0, codes := 0, dst := 0, src := 0, step := o.step, esn := a,
      epoch := s.epoch, arg := ms, body := d } o.ident

/-- Place a block of a WRITE, or give the order its status (R427). -/
def placeBlk (x : State × Order) (b : List Byte) : State × Order :=
  let s := x.1
  let o := x.2
  if o.status ≠ 0 then x
  else
    let r := unwireBlk b
    let a := o.addr + 2048 * o.blk
    let e := r.scales.length
    let ms := o.saddr + o.blk * e
    if e ≠ 0 ∧ o.saddr = 0 then (s, { o with status := 0x11, done := true })
    else
      match frameAddrChk s a ms (e ≠ 0) true with
      | some er => orderStat s o (errStat er)
      | none =>
        let s1 := if o.stepb then hostRec s o a ms true b else s
        (putWire (cnt64 s1 .chk rChkBlocksLo 1) a ms r, { o with blk := o.blk + 1, bytes := o.bytes + b.length })

/-- The journal admits the pieces of a frame one after the other (R366). -/
def admitsAll (s : State) (o : Order) (l : List (List Byte)) : Bool :=
  !o.stepb || (!rxWaits s o.step && admits s o.step true (l.foldl (fun n b => n + recBytes b.length) 0))

/-- Note that a queue holds back its acknowledgement, or no longer (R416). -/
def setHold (s : State) (q : Nat) (h : Option Nat) : State :=
  match s.sess with
  | some c => { s with sess := some { c with qs := updQ c.qs q (fun x => { x with hold := h }) } }
  | none => s

/-- The queue's expected SEQ goes back to the first frame of a split block; its bytes count again when they come again. -/
def backTo (s : State) (q first n : Nat) : State :=
  match s.sess with
  | some c => { s with sess := some { c with qs := updQ c.qs q (fun x =>
      { x with rxNext := first, rxBytes := x.rxBytes - n, hold := none }) } }
  | none => s

/-- First SEQ of the frames that a queue holds unacknowledged. -/
def heldFrom (s : State) (q : Nat) : Option Nat := s.sess.bind (fun c => (cwtQ c.qs q).hold)

/-- DATA of a WRITE with BLOCKS: whole blocks are placed once all that came pass their CRC (R155, R416). -/
def dataBlocks (s : State) (o : Order) (f : CwtFrame) : State × Bool :=
  let l := o.part ++ f.body
  let (bs, rest) := cutBlks (l.length + 1) l
  let last := decide (o.pos + l.length = o.len)
  if f.offset ≠ o.pos + o.part.length then (hostNack s f.queue 8 0, false)
  else if bs.any (fun b => let r := unwireBlk b; r.h.crc != blkCrc r.h r.payload r.scales) then
    match heldFrom s f.queue with
    | some first =>
      (hostNack (backTo (setOrder (crcFail s hubCx) { o with part := [] }) f.queue first o.part.length) f.queue 3 first, false)
    | none => (hostNack (crcFail s hubCx) f.queue 3 f.seq, false)
  else if !rest.isEmpty && !last then
    (setOrder (setHold s f.queue (some ((heldFrom s f.queue).getD f.seq))) { o with part := l }, true)
  else if !admitsAll s o bs then (hostBusy s f.queue, false)
  else
    let (s1, o1) := bs.foldl placeBlk (s, o)
    let o2 := { o1 with pos := o.pos + l.length, part := [], done := last || o1.done,
                        status := if o1.status = 0 ∧ !rest.isEmpty then 0x08 else o1.status }
    (setOrder (setHold s1 f.queue none) o2, true)

/-- DATA of a WRITE without BLOCKS. -/
def dataPlain (s : State) (o : Order) (f : CwtFrame) : State × Bool :=
  let a := o.addr + f.offset
  let n := f.body.length
  let o1 := { o with pos := o.pos + n, done := decide (o.len ≤ o.pos + n) }
  if n = 0 then (s, true)
  else
    match accChk s a true, accChk s (a + n - 1) true with
    | none, none =>
      if !admitsAll s o [f.body] then (hostBusy s f.queue, false)
      else
        let s1 := if o.stepb then hostRec s o a 0 false f.body else s
        (setOrder (wrBytes (traffic s1 none 0 (xlatPage s1 a) n true) a f.body) { o1 with bytes := o.bytes + n }, true)
    | e1, e2 =>
      let e := (e1.orElse (fun _ => e2)).getD .addr
      let x := orderStat s o1 (errStat e)
      (setOrder x.1 x.2, true)

/-- A DATA frame (R427). For an order whose work is at an end there is nothing to take. -/
def dataTake (f : CwtFrame) (s : State) : State × Bool :=
  match orderFind s f.queue f.order with
  | none => (hostNack s f.queue 8 0, false)
  | some o =>
    if o.done ∨ o.kind ≠ 1 ∨ o.len < f.offset + f.body.length then (hostNack s f.queue 8 0, false)
    else if o.stepb && decide (f.epoch ≠ s.epoch) then
      (hostNack (cnt s .cwt rCwtStale) f.queue (if f.epoch < s.epoch then 4 else 5) s.epoch, false)
    else if o.blocks then dataBlocks s o f
    else dataPlain s o f

/-! ## READ (R416, R427) -/

/-- An RDATA frame of an order. -/
def rdataFrame (s : State) (o : Order) (off : Nat) (d : List Byte) : CwtFrame :=
  { cwtFrame cRdata o.queue d with order := o.order, offset := off, step := o.step, epoch := if o.stepb then s.epoch else 0 }

/-- Send a byte string as RDATA frames from an offset of the stream. -/
def sendPieces (s : State) (o : Order) (off : Nat) (l : List Byte) : State :=
  let m := bodyMax s o.port (hostV4 s)
  ((pieces m (l.length + 1) l).mapIdx (fun i d => (i, d))).foldl (fun t x => hostSend t (rdataFrame t o (off + m * x.1) x.2)) s

/-- A READ without BLOCKS. -/
def readPlain (o : Order) (s : State) : State × Order :=
  let x := rangeStat s o.addr o.len false
  if x.1 ≠ 0 then
    let y := orderStat s o x
    (y.1, { y.2 with done := true })
  else if poisoned s (xlatPage s o.addr) o.len then
    (poisonRead s (xlatPage s o.addr) whHub o.step, { o with status := 0x03, done := true })
  else
    let s1 := traffic s none 0 (xlatPage s o.addr) o.len false
    (sendPieces s1 o 0 (rdBytes s o.addr o.len), { o with bytes := o.len, done := true })

/-- Blocks that a READ sends: from block k on, while the stream has room; the status that ends it, and the blocks. -/
def readBlksGo (o : Order) : Nat → Nat → Nat → State → State × Nat × Option Ev × List (List Byte)
  | 0, _, _, s => (s, 0, none, [])
  | n + 1, k, pos, s =>
    if o.len ≤ pos then (s, 0, none, [])
    else
      let a := o.addr + 2048 * k
      match frameAddrChk s a 0 false false with
      | some e => (s, (errStat e).1, (errStat e).2, [])
      | none =>
        let h := parseHdr (memBytes s (hdrAddr s (xlatPage s a)) 32)
        let e := hdrMs h
        let m := o.saddr + k * e
        if e ≠ 0 ∧ o.saddr = 0 then (s, 0x11, none, [])
        else
          match (if e = 0 then none else frameAddrChk s a m true false) with
          | some er => (s, (errStat er).1, (errStat er).2, [])
          | none =>
            match blkPoison s a m e h with
            | some pa => (poisonRead s pa whHub o.step, 0x03, none, [])
            | none =>
              let r := rawBlk s a m e
              let w := wireBlk r.h r.scales r.payload
              if o.len < pos + w.length then (s, 0, none, [])
              else
                let y := readBlksGo o n (k + 1) (pos + w.length) (blkTraffic s none 0 a m e h false)
                (y.1, y.2.1, y.2.2.1, w :: y.2.2.2)

/-- Pack whole blocks into frames; one that fits no empty frame is split (R416). -/
def packBlks (m : Nat) : List (List Byte) → List Byte → List (List Byte)
  | [], acc => if acc.isEmpty then [] else [acc]
  | b :: r, acc =>
    if acc.length + b.length ≤ m then packBlks m r (acc ++ b)
    else
      let pre := if acc.isEmpty then [] else [acc]
      if b.length ≤ m then pre ++ packBlks m r b else pre ++ pieces m (b.length + 1) b ++ packBlks m r []

/-- Send bodies one behind the other. -/
def sendBodies (o : Order) : List (List Byte) → Nat → State → State
  | [], _, s => s
  | d :: r, off, s => sendBodies o r (off + d.length) (hostSend s (rdataFrame s o off d))

/-- A READ with BLOCKS. -/
def readBlocks (o : Order) (s : State) : State × Order :=
  let (s1, st, ev, bs) := readBlksGo o (o.len / 32) 0 0 s
  let x := orderStat (sendBodies o (packBlks (bodyMax s o.port (hostV4 s)) bs []) 0 s1) o (st, ev)
  (x.1, { x.2 with bytes := bs.foldl (fun n b => n + b.length) 0, done := true })

/-- A READ order (R427). -/
def readOrder (o : Order) (s : State) : State × Order := if o.blocks then readBlocks o s else readPlain o s

/-! ## SIGNAL, completion and ABORT (R427–R429) -/

/-- A signal of an order to an object of the module (R427): its status. -/
def signalTo (s : State) (die i n : Nat) : State × Nat :=
  if !dieIn s die then (s, 0x0B)
  else if isSysObj i then (cnt s (.sync die) rSyncRsvdWrite, 0x08)
  else if n = 0 then (cnt s (.sync die) rSyncBadOp, 0x08)
  else (objAdd s die i n, 0)

/-- NDET of a step (R196). -/
def ndetOf (s : State) (n : Nat) : Bool := (stepRec s n).any (fun r => r.ndet)

/-- The completion record of an order (Table 15.6). -/
def complRec (s : State) (o : Order) : List Byte :=
  leBytes 8 o.order ++ leBytes 2 o.queue ++ leBytes 1 (b2n o.aborted) ++ leBytes 1 o.status ++ leBytes 4 s.epoch
    ++ leBytes 4 o.step ++ leBytes 4 (b2n (ndetOf s o.step)) ++ leBytes 8 o.bytes ++ leBytes 8 s.beacon

/-- Records of a queue that are next in the order of acceptance, and the orders left (R428). -/
def rcdFlush (q : Nat) : List Order → List (Nat × List Byte) × List Order
  | [] => ([], [])
  | o :: r =>
    if o.queue = q then
      if o.inFlight then ([], o :: r) else ((q, o.rcd) :: (rcdFlush q r).1, (rcdFlush q r).2)
    else ((rcdFlush q r).1, o :: (rcdFlush q r).2)

/-- Retire an order: its record, which waits for those of earlier orders, and its object when it has completed (R428,
R429). -/
def retire (s : State) (o : Order) : State :=
  let s1 :=
    if o.queue < noQueue then
      let f := rcdFlush o.queue (s.orders.map (fun x => if x.no = o.no then { o with rcd := complRec s o } else x))
      { s with orders := f.2, compl := s.compl ++ f.1, retired := (o.queue, o.order) :: s.retired }
    else { s with orders := s.orders.filter (fun x => x.no != o.no) }
  let s2 := if o.sigv && !o.aborted then (signalTo s1 (bits o.obj 13 12) (bits o.obj 11 0) 1).1 else s1
  pushEvents (pushCompl s2)

/-- The next order of a queue to retire: the oldest whose work is at an end, else the oldest (R427, R429). -/
def orderNext (s : State) (q : Nat) : Option Order :=
  let l := s.orders.filter (fun o => o.queue % noQueue == q && o.inFlight)
  (l.find? (fun o => o.done)).orElse (fun _ => l.head?)

/-- A step-bound WRITE that is wholly journaled has retired (R429). -/
def Order.journaled (o : Order) : Bool := o.done && o.stepb && !o.aborted && decide (o.kind = 1) && decide (o.pos = o.len)

/-- ABORT (R429): an order that has not retired is aborted, also one whose record is still to come. -/
def abortTake (f : CwtFrame) (s : State) : State × Bool :=
  let resp := fun (t : State) (a : Nat) => hostSend t { cwtFrame cAbortResp f.queue [] with order := f.order, arg := a }
  match orderFind s f.queue f.order with
  | some o =>
    if o.journaled then (resp s 1, true)
    else (resp (setHold (setOrder s { o with done := true, aborted := true, part := [] }) f.queue none) 0, true)
  | none => (resp s (if s.retired.contains (f.queue, f.order) then 1 else 2), true)

end Sys2Proof.Machine
end

