-- ==== Sys2Proof/Machine/Ecdsa.lean ====
section
/-! DEFINITION. ECDSA on P-256: verification, and signatures with the module's identity key (R408, R410, R471). -/
namespace Sys2Proof.Machine

/-- The field prime, the group order, b and the base point of P-256. -/
def ecP : Nat := 0xFFFFFFFF00000001000000000000000000000000FFFFFFFFFFFFFFFFFFFFFFFF
def ecN : Nat := 0xFFFFFFFF00000000FFFFFFFFFFFFFFFFBCE6FAADA7179E84F3B9CAC2FC632551
def ecB : Nat := 0x5AC635D8AA3A93E7B3EBBD55769886BC651D06B0CC53B0F63BCE3C3E27D2604B
def ecGx : Nat := 0x6B17D1F2E12C4247F8BCE6E563A440F277037D812DEB33A0F4A13945D898C296
def ecGy : Nat := 0x4FE342E2FE1A7F9B8EE7EB4A7C0F9E162BCE33576B315ECECBB6406837BF51F5

/-- `b ^ e` modulo m, for an exponent of `k` bits. -/
def powMod (m : Nat) : Nat → Nat → Nat → Nat
  | 0, _, _ => 1 % m
  | k + 1, b, e => if e % 2 = 1 then b * powMod m k (b * b % m) (e / 2) % m else powMod m k (b * b % m) (e / 2)

/-- Inverse modulo a prime of 256 bits. -/
def invMod (m a : Nat) : Nat := powMod m 256 (a % m) (m - 2)

/-- An affine point; none is the point at infinity. -/
abbrev EcPoint := Option (Nat × Nat)

/-- The sum of two points. -/
def ecAdd : EcPoint → EcPoint → EcPoint
  | none, q => q
  | some p, none => some p
  | some (x1, y1), some (x2, y2) =>
    if x1 = x2 ∧ (y1 + y2) % ecP = 0 then none
    else
      let l := if x1 = x2 then (3 * x1 * x1 + ecP - 3) * invMod ecP (2 * y1) % ecP
        else (y2 + ecP - y1) * invMod ecP (x2 + ecP - x1) % ecP
      let x3 := (l * l + 2 * ecP - x1 - x2) % ecP
      some (x3, (l * (x1 + ecP - x3) + ecP - y1) % ecP)

/-- A multiple of a point, for a factor of `k` bits. -/
def ecMulGo : Nat → EcPoint → Nat → EcPoint
  | 0, _, _ => none
  | k + 1, p, e => if e % 2 = 1 then ecAdd p (ecMulGo k (ecAdd p p) (e / 2)) else ecMulGo k (ecAdd p p) (e / 2)

/-- A multiple of a point. -/
def ecMul (e : Nat) (p : EcPoint) : EcPoint := ecMulGo 256 p e

/-- The base point. -/
def ecG : EcPoint := some (ecGx, ecGy)

/-- The point lies on the curve. -/
def onCurve (x y : Nat) : Bool :=
  decide (x < ecP) && decide (y < ecP) && decide ((y * y + 3 * x) % ecP = (x * x * x + ecB) % ecP)

/-- A public key as a raw 64-byte point, big-endian. -/
def pointBytes : EcPoint → List Byte
  | some (x, y) => beBytes 32 x ++ beBytes 32 y
  | none => List.replicate 64 0

/-- A signature over a message verifies against a raw 64-byte public key. -/
def ecdsaOk (pub msg sig : List Byte) : Bool :=
  let x := beNat (slice pub 0 32)
  let y := beNat (slice pub 32 32)
  let r := beNat (slice sig 0 32)
  let t := beNat (slice sig 32 32)
  if pub.length = 64 ∧ sig.length = 64 ∧ onCurve x y ∧ 1 ≤ r ∧ r < ecN ∧ 1 ≤ t ∧ t < ecN then
    let w := invMod ecN t
    let z := beNat (sha256 msg)
    match ecAdd (ecMul (z * w % ecN) ecG) (ecMul (r * w % ecN) (some (x, y))) with
    | some (x1, _) => decide (x1 % ecN = r)
    | none => false
  else false

/-- A number of a private key or nonce, brought into 1 to n − 1. -/
def ecScalar (v : Nat) : Nat := 1 + v % (ecN - 1)

/-- r and s of a signature, each 32 bytes big-endian. -/
def ecdsaSig (d k : Nat) (msg : List Byte) : List Byte :=
  let r := match ecMul k ecG with
    | some (x, _) => x % ecN
    | none => 0
  beBytes 32 r ++ beBytes 32 (invMod ecN k * (beNat (sha256 msg) + r * d) % ecN)

/-- The identity key in force. -/
def idKey (s : State) : Nat := ecScalar (Config.identityKey s.keyNo)

/-- Its public key. -/
def idPub (s : State) : List Byte := pointBytes (ecMul (idKey s) ecG)

/-- The security core can sign: an identity key is provisioned (R471, R478). -/
def canSign (s : State) : Bool := decide (s.sec.life = 1) && s.sec.hasKey

/-- Sign with the identity key under a fresh nonce. -/
def signMsg (s : State) (msg : List Byte) : State × List Byte :=
  ({ s with free := s.free + 1 }, ecdsaSig (idKey s) (ecScalar (Config.ecdsaNonce s.free)) msg)

/-! ## Mailbox results (R472) -/

/-- Status codes. -/
def mbOk : Nat := 0
def mbBadCmd : Nat := 1
def mbRefused : Nat := 2
def mbBadSig : Nat := 3
def mbLocked : Nat := 4
def mbSeq : Nat := 5

/-- A channel's result: bytes into the window, LEN and CODE. -/
def mbDone (s : State) (c code : Nat) (out : List Byte) : State :=
  let s1 := (List.range ((out.length + 3) / 4)).foldl (fun t k =>
    setReg t .sec (rSecMbData + 0x2000 * c + 4 * k) (BitVec.ofNat 32 (leAt out (4 * k) 4))) s
  setReg s1 .sec (rSecMbStatus + 0x2000 * c) (BitVec.ofNat 32 (out.length * 65536 + code * 256))

/-- The manifest stream of a channel. -/
def setStream (s : State) (c : Nat) (v : Option (List Byte)) : State := { s with sec := { s.sec with stream := s.sec.stream.set c v } }

/-- A signature for a hub engine, through SIGN_START, SIGN_DATA and SIGN_END on channel 1: the sequence is over and the
signature stands in the window; none when the lifecycle refuses it (R471, R472). -/
def signEngine (s : State) (msg : List Byte) : State × Option (List Byte) :=
  let s1 := setStream s 1 none
  if canSign s1 then
    let x := signMsg s1 msg
    (mbDone x.1 1 mbOk x.2, some x.2)
  else (mbDone s1 1 mbRefused [], none)

end Sys2Proof.Machine
end

