-- ==== Sys2Proof/Machine/Ckpt.lean ====
section
/-! DEFINITION. Snapshots (R394–R408): the frames held at a flip, shards, reflection copies, sinks, the manifest, release
and abort. -/
namespace Sys2Proof.Machine

/-- The module's serial. -/
def serialOf (s : State) : Nat := (regAt s .hub rHubSerialLo).toNat + (regAt s .hub rHubSerialHi).toNat * u32Mod

/-! ## Configuration (R405) -/

/-- Read a sink entry (Table 14.3). -/
def parseSink (l : List Byte) : SinkEnt := { bytes := padTo 32 l, eth := leAt l 0x12 1 }

/-- CKPT_APPLY's values come into force for a snapshot or restore that starts (R405, R525). -/
def ckptSample (s : State) : State :=
  if !s.ckptPend then s
  else
    let a := addr48 s .ckpt rCkptSinkLo rCkptSinkHi / 32 * 32
    let n := min 8 (max 1 (fld s .ckpt rCkptSinkCount 3 0))
    let ta := addr48 s .ckpt rCkptTrustLo rCkptTrustHi / 64 * 64
    let tn := fld s .ckpt rCkptTrustCount 7 0
    let s1 := { s with ckptPend := false }
    match tblsBad s [(a, 32 * n), (ta, 64 * tn)] with
    | some b => applyRefused s1 .ckpt rCkptApply b
    | none =>
      { s1 with
        ckptSinks := (List.range n).map (fun k => parseSink (rdBytes s (a + 32 * k) 32))
        ckptTrust := (List.range tn).map (fun k => rdBytes s (ta + 64 * k) 64)
        ckptJob := (regAt s .ckpt rCkptJobLo).toNat + (regAt s .ckpt rCkptJobHi).toNat * u32Mod }

/-! ## What is held (R398) -/

/-- Working-copy tensors that the recipes of a step name (R299). -/
def wcTensors (s : State) (cmds : List (List Byte)) : List Desc :=
  cmds.filterMap (fun c =>
    let a := leAt c 0x168 8
    if a = 0 then none else some (parseDesc a (rdBytes s a 64)))

/-- The page holds blocks of a working copy. -/
def pageOfWc (wcs : List Desc) (home : Nat) : Bool :=
  wcs.any (fun d => decide (d.base < home + 0x200000) && decide (home < d.base + 2048 * nBlocks d))

/-- Pages of a set that a snapshot covers, with their current frames. -/
def snapSet (s : State) (t : Nat) (wcs : List Desc) : List SnapFrame :=
  ((pageSet s t).ents.filter (fun e => !pageOfWc wcs e.home)).map (fun e => { set := t, home := e.home, frame := curFrame s t e })

/-- Most frames of the list (R398). -/
def snapMax : Nat := 262144

/-- Set or clear the HOLD bit of the slot that a frame stands in. -/
def holdEnt (e : PageEnt) (frame : Nat) (v : Bool) : PageEnt :=
  if e.f0 = frame then { e with hold0 := v } else if e.f1 = frame then { e with hold1 := v } else e

/-- Set or clear the HOLD bit of a held frame, where the table still names it. -/
def holdFrame (v : Bool) (s : State) (x : SnapFrame) : State :=
  match (pageSet s x.set).ents.findIdx? (fun e => decide (e.home = x.home) && (decide (e.f0 = x.frame) || decide (e.f1 = x.frame))) with
  | some i =>
    match (pageSet s x.set).ents[i]? with
    | some e => putPage s x.set i (holdEnt e x.frame v)
    | none => s
  | none => s

/-- Frames that are held or wait for room on their stack (CKPT_HELD). -/
def heldCount (s : State) : Nat :=
  ((s.snap.map (fun n => n.frames.length)).getD 0) + ((s.rsnap.map (fun n => n.frames.length)).getD 0) + s.snapLeft.length

/-- CKPT_STATUS.STATE: restoring, streaming, awaiting the manifest, or idle. -/
def ckptState (s : State) : Nat :=
  if s.rst.any (fun r => !r.ready) then 3
  else match s.snap with
    | some n => if n.phase ≤ 1 then 1 else 2
    | none => if s.rsnap.isSome then 1 else 0

/-- Show the snapshot engine's state in its registers. -/
def ckptShow (s : State) : State :=
  setFld (setFld s .ckpt rCkptHeld 18 0 (heldCount s)) .ckpt rCkptStatus 1 0 (ckptState s)

/-- Return a frame to its stack when no table entry names it any longer; a full stack leaves it on the list (R399). -/
def frameBack (s : State) (x : SnapFrame) : State :=
  let p := pageSet s x.set
  if p.ents.any (fun e => decide (e.f0 = x.frame) || decide (e.f1 = x.frame)) then s
  else if p.freeCap ≤ p.free.length then { s with snapLeft := s.snapLeft ++ [(x.set, x.frame)] }
  else
    freeShow (memWr (setPageSet s x.set { p with free := p.free ++ [x.frame] }) (p.freeAddr + 8 * p.free.length) (leBytes 8 x.frame)) x.set

/-- Release held frames (R399): the HOLD bits, then the frames. A snapshot releases its frames once, so that the event of a full
stack comes once per snapshot. -/
def releaseFrames (s : State) (l : List SnapFrame) : State :=
  let s1 := l.foldl frameBack (l.foldl (holdFrame false) s)
  if s.snapLeft.length < s1.snapLeft.length then raise s1 .updFreeFull whHub 0 [] else s1

/-! ## Shards (R401, R402) -/

/-- Blocks of a page. -/
def pageBlks : Nat := 1024

/-- A header of zeros stands where no block was ever written. -/
def noBlk (l : List Byte) : Bool := l.all (fun b => b == 0)

/-- Block k of a frame, as its header bytes and payload. -/
def frameBlk (s : State) (f k : Nat) : List Byte × List Byte :=
  let h := memBytes s (hdrAddr s (f + 2048 * k)) 32
  (h, if (parseHdr h).headOnly then [] else memBytes s (f + 2048 * k) 2048)

/-- A page's block passes its check (R155). A page and a shard's body hold no micro-scales (R401), so a block that has some
and carries its payload never passes (log 223). -/
def pageBlkOk (b : List Byte × List Byte) : Bool :=
  let h := parseHdr b.1
  noBlk b.1 || (decide (h.crc = blkCrc h b.2 []) && (h.headOnly || !h.scaling))

/-- Block k of a frame fails its CRC or is poisoned. -/
def frameBlkBad (s : State) (f k : Nat) : Bool :=
  let b := frameBlk s f k
  poisoned s (hdrAddr s (f + 2048 * k)) 32 || (decide (b.2 ≠ []) && poisoned s (f + 2048 * k) 2048) || !pageBlkOk b

/-- A snapshot or restore engine meets a block that nothing cures (R155). -/
def pageUncured (s : State) : State := raise (crcUncured (crcFail s hubCx) hubCx) .blockCrcUncured whHub 0 []

/-- A page as a shard's body holds it. -/
def pageBody (s : State) (x : SnapFrame) : List Byte :=
  let bs := (List.range pageBlks).map (frameBlk s x.frame)
  leBytes 8 x.home ++ List.replicate 8 0 ++ bs.flatMap (fun b => b.1) ++ bs.flatMap (fun b => b.2)

/-- Insert a frame by its HOME. -/
def homeIns (x : SnapFrame) : List SnapFrame → List SnapFrame
  | [] => [x]
  | y :: r => if x.home < y.home then x :: y :: r else y :: homeIns x r

/-- A shard from its kind, number, pages and body. -/
def mkShard (kind shard pages : Nat) (body : List Byte) : SnapShard :=
  { shard := shard, kind := kind, pages := pages, body := body, digest := sha256 body }

/-- The shards of the held pages in ascending order. -/
def pageShards (s : State) (kind : Nat) (fs : List SnapFrame) : List SnapShard :=
  let l := fs.foldl (fun a x => homeIns x a) []
  ((l.map (fun x => x.home / 2 ^ 30)).eraseDups).map (fun k =>
    let ps := l.filter (fun x => decide (x.home / 2 ^ 30 = k))
    mkShard kind k ps.length (ps.flatMap (pageBody s)))

/-- Number of the state shard. -/
def stateShard : Nat := 0x3FFFF

/-- Insert a command by dP.BASE, then by instruction word (R402). -/
def cmdIns (c : List Byte) : List (List Byte) → List (List Byte)
  | [] => [c]
  | y :: r =>
    if leAt c 0x40 8 < leAt y 0x40 8 ∨ (leAt c 0x40 8 = leAt y 0x40 8 ∧ leAt c 0 16 < leAt y 0 16) then c :: y :: r
    else y :: cmdIns c r

/-- The body of the state shard (R402). -/
def stateBody (step epoch ls lsJ seed : Nat) (slots cmds : List (List Byte)) : List Byte :=
  leBytes 4 step ++ leBytes 4 epoch ++ leBytes 4 ls ++ leBytes 4 lsJ ++ leBytes 8 seed ++ leBytes 4 slots.length
    ++ leBytes 4 cmds.length ++ List.replicate 32 0 ++ slots.flatten ++ (cmds.foldl (fun a c => cmdIns (padTo 384 c) a) []).flatten

/-- The 128-byte header of a shard (Table 14.2). -/
def shardHdr (s : State) (n : Snap) (h : SnapShard) : List Byte :=
  let b := leBytes 4 0x31534D43 ++ leBytes 2 1 ++ leBytes 1 h.kind ++ [0] ++ leBytes 8 n.job ++ leBytes 4 n.lc ++ leBytes 4 n.step
    ++ leBytes 4 n.epoch ++ leBytes 4 h.shard ++ leBytes 8 (serialOf s) ++ leBytes 4 h.pages ++ [0, 0, 0, 0]
    ++ leBytes 8 h.body.length ++ List.replicate 8 0 ++ h.digest ++ List.replicate 28 0
  b ++ leBytes 4 (crc32c b)

/-- KEYL of an object (R405). -/
def keyLow (lc slot kind shard : Nat) : Nat := lc * 2 ^ 46 + slot * 2 ^ 45 + kind * 2 ^ 43 + shard * 2 ^ 25

/-- An object to be written to a sink. -/
def putObj (n : Snap) (who sink kind shard : Nat) (data : List Byte) : BulkObj :=
  { who := who, sink := sink, q := 0, keyH := n.job, keyL := keyLow n.lc n.slot kind shard, put := true, data := data,
    len := data.length, done := false, found := true }

/-- The objects of a snapshot's shards: shard s to sink s mod COUNT, a reflection copy to (s + 1) mod COUNT (R405). -/
def shardObjs (s : State) (n : Snap) (who : Nat) : List BulkObj :=
  n.shards.map (fun h => putObj n who ((h.shard + who) % n.sinks.length) h.kind h.shard (shardHdr s n h ++ h.body))

/-! ## The manifest (R406, R408) -/

/-- The manifest header (Table 14.4). -/
def manHdr (s : State) (n : Snap) (state flags nsink nshard : Nat) : List Byte :=
  leBytes 4 0x31464D43 ++ leBytes 2 1 ++ leBytes 1 state ++ leBytes 1 flags ++ leBytes 8 n.job ++ leBytes 4 n.lc ++ leBytes 4 n.step
    ++ leBytes 4 n.epoch ++ leBytes 4 n.slot ++ leBytes 8 (serialOf s) ++ leBytes 4 nsink ++ leBytes 4 nshard ++ leBytes 4 (n.ls % 64)
    ++ leBytes 4 n.lsJ ++ leBytes 8 s.beacon ++ List.replicate 64 0

/-- The report that lists a copy of a shard: the entry of its sink. -/
def copyOf (n : Snap) (shard : Nat) : Option (List Byte) :=
  (n.reports.find? (fun r => decide (r.1 = shard) && decide (r.2.2 ≠ []))).map (fun r => r.2.2)

/-- Sink entries of the manifest: the table, then those of the copies. -/
def manSinks (n : Snap) : List (List Byte) :=
  (n.shards.filterMap (fun h => copyOf n h.shard)).foldl (fun a b => if a.contains b ∨ 16 ≤ a.length then a else a ++ [b])
    (n.sinks.map (fun k => k.bytes))

/-- Index of a copy's sink in the manifest; 0xFF for none. -/
def copyIdx (n : Snap) (shard : Nat) : Nat :=
  ((copyOf n shard).bind (fun b => (manSinks n).findIdx? (fun x => x == b))).getD 0xFF

/-- A shard entry of the manifest (Table 14.5). -/
def manEnt (n : Snap) (h : SnapShard) : List Byte :=
  let r := copyIdx n h.shard
  leBytes 4 h.shard ++ leBytes 1 h.kind ++ leBytes 1 (b2n (r ≠ 0xFF)) ++ leBytes 1 (h.shard % n.sinks.length) ++ leBytes 1 r
    ++ leBytes 4 h.pages ++ [0, 0, 0, 0] ++ leBytes 8 h.body.length ++ List.replicate 8 0 ++ h.digest

/-- A copy is missing from the manifest. -/
def copyMissing (n : Snap) : Bool := n.shards.any (fun h => decide (copyIdx n h.shard = 0xFF))

/-- A complete manifest up to its signature. -/
def manBody (s : State) (n : Snap) : List Byte :=
  manHdr s n 1 (b2n n.fold + 2 * b2n n.auto + 4 * b2n (copyMissing n)) (manSinks n).length n.shards.length
    ++ (manSinks n).flatten ++ (n.shards.map (manEnt n)).flatten

/-- A manifest to every sink. -/
def manObjs (n : Snap) (l : List Byte) : List BulkObj :=
  (List.range n.sinks.length).map (fun k => putObj n 0 k 3 0 l)

/-! ## Streaming -/

/-- Open the sessions with a list of sinks. -/
def openSinks (s : State) (job : Nat) (l : List SinkEnt) : State :=
  (l.mapIdx (fun k e => (k, e))).foldl (fun t x => bulkOpen t job x.1 x.2) s

/-- Every session with these sinks is open. -/
def sinksOpen (s : State) (n : Nat) : Bool := (List.range n).all (fun k => (bulkOf s k).any (fun b => b.open_))

/-- Every object of a transfer is at its end. -/
def objsDone (s : State) (who : Nat) : Bool := s.objects.all (fun o => decide (o.who ≠ who) || o.done)

/-- Drop the objects of a transfer; sessions end when nothing is left to move. -/
def dropObjs (s : State) (who : Nat) : State :=
  let l := s.objects.filter (fun o => decide (o.who ≠ who))
  { s with objects := l, bulks := if l.isEmpty then [] else s.bulks }

/-- A snapshot's engine may go on: from invalidation to shards, and from the manifest to its end (R406, R407). -/
def snapAdvance (s : State) : State :=
  match s.snap with
  | none => s
  | some n =>
    if n.phase = 0 ∧ objsDone s 0 ∧ sinksOpen s n.sinks.length then
      ckptShow (addObjs { s with snap := some { n with phase := 1 }, objects := s.objects.filter (fun o => decide (o.who ≠ 0)) }
        (shardObjs s n 0))
    else if n.phase = 3 ∧ objsDone s 0 then
      let s1 := setReg (dropObjs { s with snap := none } 0) .ckpt rCkptLast (BitVec.ofNat 32 n.step)
      let s2 := setFld (setFld s1 .ckpt rCkptStatus 8 8 n.slot) .ckpt rCkptStatus 5 5 1
      ckptShow (raise s2 .ckptDone whHub n.step [])
    else s

/-- Begin the snapshot of step n at its flip: hold the frames, form the shards, and invalidate the slot (R394, R398, R406).
A block that fails its CRC aborts it (R407). -/
def snapStart (s0 : State) (r : StepRec) (fold auto : Bool) : State :=
  let s := ckptSample s0
  let fs := ((List.range 4).flatMap (fun t => snapSet s t (wcTensors s r.cmds))).take snapMax
  let slots := s.scl.est.filterMap (fun e => e.2.map (fun c => slotRec s e.1 c))
  let body := stateBody r.n s.epoch r.ls (r.lsJ.getD 0) s.scl.seed slots r.cmds
  let n : Snap :=
    { step := r.n, epoch := s.epoch, slot := fld s .ckpt rCkptCtl 2 2, job := s.ckptJob, auto := auto, fold := fold,
      ls := r.ls, lsJ := r.lsJ.getD 0, lc := (ownLc s).getD 0, refl := false, frames := fs,
      shards := pageShards s 0 fs ++ [mkShard 2 stateShard 0 body], sinks := s.ckptSinks, phase := 0, reports := [],
      reportsDone := false, partRefl := false, manifest := [] }
  let s1 := fs.foldl (holdFrame true) { s with snap := some n }
  ckptShow (addObjs (openSinks s1 n.job n.sinks) (manObjs n (manHdr s1 n 0 0 0 0)))

/-- The causes of EVT_CKPT_ABORT, in the order of R407. -/
def abSink : Nat := 1
def abCrc : Nat := 2
def abFold : Nat := 3
def abService : Nat := 4
/-- The security core refused to sign the manifest (R478): R407 gives it no place. -/
def abSign : Nat := 5

/-- Abort the snapshot (R407). -/
def snapAbort (s : State) (cause : Nat) : State :=
  match s.snap with
  | none => s
  | some n =>
    let held := if n.phase ≤ 1 then n.frames else []
    let s1 := releaseFrames (dropObjs (tmOff { s with snap := none } .reflReport) 0) held
    ckptShow (raise (setFld (cnt s1 .ckpt rCkptAborts) .ckpt rCkptStatus 6 6 1) .ckptAbort whHub n.step [a8 cause])

/-- A held frame fails the check of one of its blocks. -/
def snapBad (s : State) (n : Snap) : Bool :=
  n.frames.any (fun x => (List.range pageBlks).any (frameBlkBad s x.frame))

/-- Take the snapshot of step n, aborted at once when one of its blocks fails or no sink was ever applied (R155, R407). -/
def snapTake (s : State) (r : StepRec) (fold auto : Bool) : State :=
  let s1 := snapStart s r fold auto
  if s1.ckptSinks.isEmpty then snapAbort s1 abSink
  else if s1.snap.any (snapBad s1) then snapAbort (pageUncured s1) abCrc else s1

/-- A new trigger of R394 falls on the flip of step n; tells whether flicker asks. -/
def snapTrig (s : State) (n : Nat) : Bool × Bool :=
  let per := decide (fld s .ckpt rCkptCtl 31 16 ≠ 0) && decide (n % fld s .ckpt rCkptCtl 31 16 = 0)
  let req := match s.snapReq with
    | some m => decide (m = n) || decide (m < n)
    | none => false
  (rbit s .ckpt rCkptCtl 0 && (per || req || s.flk.auto), s.flk.auto)

/-- What the flip of step n does about snapshots (R394, R395, R397). -/
def snapAtFlip (s : State) (r : StepRec) (fold : Bool) : State :=
  let t := snapTrig s r.n
  let clear := fun (x : State) =>
    { x with snapReq := (match x.snapReq with
               | some m => if m ≤ r.n then none else some m
               | none => none), flk := { x.flk with auto := false } }
  match s.snap with
  | some n =>
    if t.1 then
      let s1 := setFld (cnt { clear s with snapDefer := some r.n, deferAuto := s.deferAuto || t.2 } .ckpt rCkptDefers) .ckpt rCkptStatus 4 4 1
      raise s1 .ckptDeferred whHub r.n [a32 n.step]
    else s
  | none =>
    if t.1 || (rbit s .ckpt rCkptCtl 0 && s.snapDefer.isSome) then
      let auto := t.2 || s.deferAuto
      let s1 := { clear s with snapDefer := none, deferAuto := false }
      let s2 := if auto then { s1 with flk := { s1.flk with lastAuto := some s1.beacon } } else s1
      snapTake s2 r fold auto
    else s

/-! ## Release, reports and the manifest's row -/

/-- Wait for the reflection's reports: 60 s (R404). -/
def reportWait : Nat := 60000 * btMs

/-- Shards that one report block lists (Table 13.9). -/
def reportMax : Nat := 25

/-- Cut a list into pieces of at most n. -/
def chunksOf {α : Type} (n : Nat) : Nat → List α → List (List α)
  | 0, _ => []
  | k + 1, l => if l.isEmpty then [] else l.take n :: chunksOf n k (l.drop n)

/-- Report the copies, acknowledged by their sinks, to the ward (R404, Table 13.9). -/
def sendReports (s : State) (n : Snap) : State :=
  let recs := n.shards.map (fun h =>
    leBytes 4 h.shard ++ [1] ++ List.replicate 11 0 ++ h.digest
      ++ ((n.sinks[(h.shard + 1) % n.sinks.length]?).map (fun k => k.bytes)).getD (List.replicate 32 0))
  ((chunksOf reportMax recs.length recs).mapIdx (fun i l => (i, l))).foldl (fun t x =>
    hubMsg t n.lc n.step 0 5 x.1 0xFFFFFF04 x.1
      (leBytes 4 x.2.length ++ leBytes 4 n.step ++ List.replicate 8 0 ++ x.2.flatten)) s

/-- SNAPSHOT_RELEASE: every shard of a snapshot is acknowledged (R399); the buddy then reports its copies (R404). -/
def opSnapshotRelease (refl : Bool) (s : State) : State :=
  if refl then
    match s.rsnap with
    | some n =>
      if n.phase = 1 ∧ objsDone s 1 then
        sendReports (ckptShow (sysObjInc (releaseFrames (dropObjs { s with rsnap := none } 1) n.frames) oSnap)) n
      else s
    | none => s
  else
    match s.snap with
    | some n =>
      if n.phase = 1 ∧ objsDone s 0 then
        let s1 := releaseFrames { s with snap := some { n with phase := 2, frames := [] } } n.frames
        ckptShow (tmArm (sysObjInc s1 oSnap) .reflReport reportWait)
      else s
    | none => s

/-- SNAPSHOT_RELEASE (R399). -/
def execSnapshotRelease (refl : Bool) (s : State) : Host.Outcome State Fault Refusal := run [.ckpt] (opSnapshotRelease refl) s

/-- Every shard has its report (R404). -/
def reportsIn (s : State) (n : Snap) : Bool :=
  s.buddy.isNone || n.reportsDone || n.shards.all (fun h => n.reports.any (fun r => r.1 == h.shard))

/-- REFL_REPORT_TIMEOUT: the ward stops waiting for reports (R404). -/
def opReflReportTimeout (s : State) : State :=
  match s.snap with
  | some n =>
    if n.phase = 2 ∧ tmDue s .reflReport ∧ !reportsIn s n then
      { tmOff s .reflReport with snap := some { n with reportsDone := true, partRefl := true } }
    else s
  | none => s

/-- REFL_REPORT_TIMEOUT (R404). -/
def execReflReportTimeout (s : State) : Host.Outcome State Fault Refusal := run [.ckpt] opReflReportTimeout s

/-- MANIFEST_WRITE: shards, reports and any fold compare are done; the hub writes the signed manifest (R407). -/
def opManifestWrite (s : State) : State :=
  match s.snap with
  | some n =>
    if n.phase = 2 ∧ reportsIn s n ∧ s.foldBusy ≠ some n.step then
      match signEngine s (manBody s n) with
      | (t, none) => snapAbort t abSign
      | (t, some sig) =>
        let m := manBody s n ++ sig
        let s1 := { tmOff t .reflReport with
          snap := some { n with phase := 3, manifest := m }, objects := t.objects.filter (fun o => decide (o.who ≠ 0)) }
        ckptShow (addObjs s1 (manObjs n m))
    else s
  | none => s

/-- MANIFEST_WRITE (R407). -/
def execManifestWrite (s : State) : Host.Outcome State Fault Refusal := run [.ckpt] opManifestWrite s

/-- CKPT_REQ: a snapshot at the named or the next flip (R394). -/
def ckptReqWrite (s : State) (v : Nat) : State := { s with snapReq := some v }

/-- A report of the buddy on one copy (R404). -/
def takeReport (s : State) (shard : Nat) (digest sink : List Byte) : State :=
  match s.snap with
  | some n =>
    match n.shards.find? (fun h => decide (h.shard = shard)) with
    | some h =>
      if n.reports.any (fun r => r.1 == shard) then s
      else if h.digest = digest then { s with snap := some { n with reports := n.reports ++ [(shard, digest, sink)] } }
      else raise { s with snap := some { n with reports := n.reports ++ [(shard, digest, [])] } } .ckptReflDigest whHub n.step []
    | none => s
  | none => s

/-- The buddy's snapshot ends without its copies. -/
def rsnapAbort (s : State) : State :=
  match s.rsnap with
  | some n => ckptShow (releaseFrames (dropObjs { s with rsnap := none } 1) n.frames)
  | none => s

/-- The buddy's snapshot of its reflection at step n (R404): the frames of set 4 held, copies streamed to its own sinks.
A frame that fails the check of a block ends it (R155, R407). -/
def rsnapStart (s0 : State) (lc step epoch slot job ls lsJ : Nat) (slots cmds : List (List Byte)) : State :=
  if s0.rsnap.isSome then s0
  else
    let s := ckptSample s0
    let fs := (snapSet s 4 []).take snapMax
    let body := stateBody step epoch ls lsJ s.scl.seed slots cmds
    let n : Snap :=
      { step := step, epoch := epoch, slot := slot, job := job, auto := false, fold := false, ls := ls, lsJ := lsJ, lc := lc,
        refl := true, frames := fs, shards := pageShards s 1 fs ++ [mkShard 1 stateShard 0 body], sinks := s.ckptSinks,
        phase := 1, reports := [], reportsDone := false, partRefl := false, manifest := [] }
    let s1 := fs.foldl (holdFrame true) { s with rsnap := some n }
    if snapBad s n then rsnapAbort (pageUncured s1)
    else ckptShow (addObjs (openSinks s1 n.job n.sinks) (shardObjs s n 1))

end Sys2Proof.Machine
end

