-- ==== Sys2Proof/Machine/Restore.lean ====
section
/-! DEFINITION. The restore engine (R409–R411): the plan over the objects fetched so far, staging, the result, and the
commit of a restore. -/
namespace Sys2Proof.Machine

/-! ## Manifests as read -/

/-- NSINK and NSHARD of a manifest. -/
def manNsink (m : List Byte) : Nat := leAt m 0x28 4
def manNshard (m : List Byte) : Nat := leAt m 0x2C 4

/-- A complete manifest of STATE 1: its header, its length (R408). -/
def manComplete (m : List Byte) : Bool :=
  decide (leAt m 0 4 = 0x31464D43) && decide (leAt m 4 2 = 1) && decide (leAt m 6 1 = 1) &&
    decide (m.length = 128 + 32 * manNsink m + 64 * manNshard m + 64)

/-- STEP, SLOT and sink k of a manifest. -/
def manStep (m : List Byte) : Nat := leAt m 0x14 4
def manSlot (m : List Byte) : Nat := leAt m 0x1C 4 % 2
def manSink (m : List Byte) (k : Nat) : SinkEnt := parseSink (slice m (128 + 32 * k) 32)

/-- Entry j of a manifest, 64 bytes. -/
def manEntry (m : List Byte) (j : Nat) : List Byte := slice m (128 + 32 * manNsink m + 64 * j) 64

/-- The manifest is a candidate (R410). -/
def manCand (s : State) (r : Rst) (m : List Byte) : Bool :=
  decide (leAt m 8 8 = r.job) && decide (leAt m 0x10 4 = (ownLc s).getD 0) &&
    r.trust.any (fun k => ecdsaOk k (m.take (m.length - 64)) (m.drop (m.length - 64))) &&
    (!r.needFold || bitAt (leAt m 7 1) 0) && (decide (r.want = 0) || decide (r.want = manStep m))

/-- Longest object asked for as a manifest. -/
def manMax : Nat := 0x2000000

/-! ## Shards as read -/

/-- Why a shard is not good: header, digest, block CRC, absent (R410). -/
def whyHeader : Nat := 0
def whyDigest : Nat := 1
def whyCrc : Nat := 2
def whyAbsent : Nat := 3

/-- Blocks of a page of a body: headers, then the payloads of those that carry one. -/
def takeBlks : List (List Byte) → List Byte → List (List Byte × List Byte) × List Byte
  | [], l => ([], l)
  | h :: r, l =>
    let n := if (parseHdr h).headOnly then 0 else 2048
    let y := takeBlks r (l.drop n)
    ((h, l.take n) :: y.1, y.2)

/-- A page staged: its HOME and blocks. -/
abbrev StPage := Nat × List (List Byte × List Byte)

/-- The pages of a body (R401). -/
def bodyPages : Nat → List Byte → List StPage
  | 0, _ => []
  | k + 1, l =>
    let hs := (List.range pageBlks).map (fun j => slice l (16 + 32 * j) 32)
    let y := takeBlks hs (l.drop (16 + 32 * pageBlks))
    (leAt l 0 8, y.1) :: bodyPages k y.2

/-- Every block of a page passes its CRC. -/
def pageOk (p : StPage) : Bool :=
  p.2.all pageBlkOk

/-- Why a shard read for an entry is not good; none when it is (R410). -/
def shardBad (s : State) (m e : List Byte) (o : Option (List Byte)) (copy : Bool) : Option Nat :=
  match o with
  | none => some whyAbsent
  | some d =>
    let h := d.take 128
    let body := d.drop 128
    let kind := if copy then 1 else leAt e 4 1
    if leAt h 0 4 ≠ 0x31534D43 ∨ leAt h 4 2 ≠ 1 ∨ leAt h 6 1 ≠ kind ∨ leAt h 0x7C 4 ≠ crc32c (slice h 0 0x7C) ∨
        leAt h 8 8 ≠ leAt m 8 8 ∨ leAt h 0x10 4 ≠ (ownLc s).getD 0 ∨ leAt h 0x1C 4 ≠ leAt e 0 4 ∨ leAt h 0x14 4 ≠ manStep m ∨
        leAt h 0x18 4 ≠ leAt m 0x18 4 ∨ leAt h 0x30 8 ≠ body.length then some whyHeader
    else if sha256 body ≠ slice e 0x20 32 ∨ slice h 0x40 32 ≠ slice e 0x20 32 then some whyDigest
    else if leAt e 4 1 = 0 && !((bodyPages (leAt e 8 4) body).all pageOk) then some whyCrc
    else none

/-- The page set and index of a HOME page in the tables in force. -/
def homeAt (s : State) (home : Nat) : Option (Nat × Nat) :=
  (List.range 4).findSome? (fun t => ((pageSet s t).ents.findIdx? (fun e => decide (e.home = home))).map (fun i => (t, i)))

/-- Every page of a body has an entry. -/
def pagesKnown (s : State) (e body : List Byte) : Bool :=
  decide (leAt e 4 1 ≠ 0) || (bodyPages (leAt e 8 4) body).all (fun p => (homeAt s p.1).isSome)

/-! ## The plan -/

/-- A READ of the engine: which sink, which key, how long. -/
structure RstNeed where
  sink : SinkEnt
  keyH : Nat
  keyL : Nat
  len : Nat
  deriving DecidableEq, Repr

/-- What the engine does next. -/
inductive RstPlan where
  /-- An object is still to be read. -/
  | need (n : RstNeed)
  /-- A candidate is whole: its manifest and the bodies of its entries; whether an older one served; shards from copies. -/
  | ready (m : List Byte) (bodies : List (List Byte × List Byte)) (older : Bool) (copies : Nat) (mixed : List Mixed)
      (before : List (List Byte × List Byte))
  /-- No candidate is whole; what the failed ones staged before they failed. -/
  | failed (mixed : List Mixed) (before : List (List Byte × List Byte))
  deriving DecidableEq, Repr

/-- Index of a sink among those that the engine talks to. -/
def rstSink (r : Rst) (k : SinkEnt) : Option Nat := r.sinks.findIdx? (fun x => x == k)

/-- Number that a session of the restore engine has for a sink: those of the snapshot come before. -/
def rstPort (k : Nat) : Nat := 16 + k

/-- What the engine knows of an object: none before it is read, then its bytes, or none when the sink has it not. -/
def rstGot (s : State) (r : Rst) (n : RstNeed) : Option (Option (List Byte)) :=
  (rstSink r n.sink).bind (fun k =>
    (s.objects.find? (fun o => decide (o.who = 2) && decide (o.sink = rstPort k) && decide (o.keyL = n.keyL) && o.done)).map
      (fun o => if o.found then some o.data else none))

/-- Own logical coordinate for keys. -/
def rstLc (s : State) : Nat := (ownLc s).getD 0

/-- The manifest of a slot: the first complete one in table order, or the read that it still needs. -/
def slotMan (s : State) (r : Rst) (slot : Nat) : List SinkEnt → RstNeed ⊕ Option (List Byte)
  | [] => .inr none
  | k :: l =>
    let n : RstNeed := { sink := k, keyH := r.job, keyL := keyLow (rstLc s) slot 3 0, len := manMax }
    match rstGot s r n with
    | none => .inl n
    | some (some m) => if manComplete m then .inr (some m) else slotMan s r slot l
    | some none => slotMan s r slot l

/-- What an entry comes to: a read, its body with whether a copy served, or a failure; with what was mixed. -/
inductive EntRes where
  | need (n : RstNeed)
  | body (b : List Byte) (copy : Bool) (mixed : List Mixed)
  | bad (mixed : List Mixed)
  deriving DecidableEq, Repr

/-- The report of an entry whose object is not good. -/
def mixedOf (e : List Byte) (o : Option (List Byte)) (why served : Nat) : Mixed :=
  { shard := leAt e 0 4, step := leAt (o.getD []) 0x14 4, epoch := leAt (o.getD []) 0x18 4, reason := why, served := served }

/-- One entry of a candidate (R410). -/
def entPlan (s : State) (r : Rst) (m e : List Byte) : EntRes :=
  let refl := bitAt (leAt e 5 1) 0
  let len := 128 + leAt e 0x10 8
  let n : RstNeed := { sink := manSink m (leAt e 6 1), keyH := r.job, keyL := keyLow (rstLc s) (manSlot m) (leAt e 4 1) (leAt e 0 4), len := len }
  match rstGot s r n with
  | none => .need n
  | some o =>
    match shardBad s m e o false with
    | none =>
      let b := (o.getD []).drop 128
      if pagesKnown s e b then .body b false [] else .bad []
    | some why =>
      let mx := mixedOf e o why (if refl then 0 else 1)
      if !refl then .bad [mx]
      else
        let n2 : RstNeed := { sink := manSink m (leAt e 7 1), keyH := r.job, keyL := keyLow (rstLc s) (manSlot m) 1 (leAt e 0 4), len := len }
        match rstGot s r n2 with
        | none => .need n2
        | some o2 =>
          match shardBad s m e o2 true with
          | none =>
            let b := (o2.getD []).drop 128
            if pagesKnown s e b then .body b true [mx] else .bad [mx]
          | some _ => .bad [mx]

/-- What the entries of a candidate come to. -/
structure EntsRes where
  /-- Every entry is good. -/
  whole : Bool
  /-- Entries and bodies that are staged, in order. -/
  bodies : List (List Byte × List Byte)
  /-- Shards from reflection copies. -/
  copies : Nat
  mixed : List Mixed
  deriving DecidableEq, Repr

/-- The entries of a candidate in order, up to the first that fails: a read that is still to be made, or what they come to. -/
def entsPlan (s : State) (r : Rst) (m : List Byte) : List (List Byte) → RstNeed ⊕ EntsRes
  | [] => .inr { whole := true, bodies := [], copies := 0, mixed := [] }
  | e :: l =>
    match entPlan s r m e with
    | .need n => .inl n
    | .bad mx => .inr { whole := false, bodies := [], copies := 0, mixed := mx }
    | .body b c mx =>
      match entsPlan s r m l with
      | .inl n => .inl n
      | .inr x => .inr { x with bodies := (e, b) :: x.bodies, copies := x.copies + b2n c, mixed := mx ++ x.mixed }

/-- Candidates in turn, the next one only when no step is asked for; each stages over those before it (R410). -/
def candPlan (s : State) (r : Rst) : List (List Byte) → Bool → List Mixed → List (List Byte × List Byte) → RstPlan
  | [], _, mx, pre => .failed mx pre
  | m :: l, older, mx, pre =>
    match entsPlan s r m ((List.range (manNshard m)).map (manEntry m)) with
    | .inl n => .need n
    | .inr x =>
      if x.whole then .ready m x.bodies older x.copies (mx ++ x.mixed) pre
      else if r.want = 0 then candPlan s r l true (mx ++ x.mixed) (pre ++ x.bodies)
      else .failed (mx ++ x.mixed) (pre ++ x.bodies)

/-- The candidates, newest first. -/
def rstCands (s : State) (r : Rst) (a b : Option (List Byte)) : List (List Byte) :=
  match a.filter (manCand s r), b.filter (manCand s r) with
  | some x, some y => if manStep x < manStep y then [y, x] else [x, y]
  | some x, none => [x]
  | none, some y => [y]
  | none, none => []

/-- What the engine does next (R409, R410). -/
def rstPlan (s : State) (r : Rst) : RstPlan :=
  match slotMan s r 0 s.ckptSinks with
  | .inl n => .need n
  | .inr a =>
    match slotMan s r 1 s.ckptSinks with
    | .inl n => .need n
    | .inr b => candPlan s r (rstCands s r a b) false [] []

/-- Ask for the object that the plan needs, when nothing is being read. -/
def rstAdvance (s : State) : State :=
  match s.rst with
  | none => s
  | some r =>
    if r.ready ∨ s.objects.any (fun o => decide (o.who = 2) && !o.done) then s
    else
      match rstPlan s r with
      | .need n =>
        let r1 := if (rstSink r n.sink).isSome then r else { r with sinks := r.sinks ++ [n.sink] }
        let k := (rstSink r1 n.sink).getD 0
        addObjs (bulkOpen { s with rst := some r1 } r.job (rstPort k) n.sink)
          [{ who := 2, sink := rstPort k, q := 0, keyH := n.keyH, keyL := n.keyL, put := false, data := [], len := n.len,
             done := false, found := true }]
      | _ => s

/-! ## Start and end -/

/-- RESTORE_START: a restore begins while no step is open (R409). -/
def restoreStart (s0 : State) : State :=
  if s0.openN ≠ s0.commitN then s0
  else
    let s := ckptSample s0
    let r : Rst := { want := (regAt s .ckpt rCkptRstStep).toNat, needFold := rbit s .ckpt rCkptRstCtl 1, job := s.ckptJob,
                     trust := s.ckptTrust, sinks := s.ckptSinks, staged := [], ready := false, step := 0 }
    let s1 := dropObjs { s with rst := some r } 2
    let s2 := setFld (setFld s1 .ckpt rCkptRstStatus 5 4 0) .ckpt rCkptRstStatus 0 0 1
    rstAdvance (ckptShow (setReg s2 .ckpt rCkptRstRefl 0))

/-- EVT_RESTORE_MIXED: shard, step and epoch found, reason, what served (R410), after the events of a failed block (R155). -/
def raiseMixed (s0 : State) (x : Mixed) : State :=
  let s := if x.reason = whyCrc then pageUncured s0 else s0
  raise (setFld s .ckpt rCkptRstStatus 3 3 1) .restoreMixed whHub 0 [a32 x.shard, a32 x.step, a32 x.epoch, a8 x.reason, a8 x.served]

/-- Stage a page into its non-current frame. -/
def stagePage (s : State) (p : StPage) : State :=
  match homeAt s p.1 with
  | none => s
  | some (t, i) =>
    match (pageSet s t).ents[i]? with
    | none => s
    | some e =>
      let f := if curIsF1 s t e then e.f0 else e.f1
      (p.2.mapIdx (fun k b => (k, b))).foldl (fun x y =>
        physWr (physWr x (f + 2048 * y.1) y.2.2) (hdrAddr x (f + 2048 * y.1)) y.2.1) s

/-- Stage the pages of bodies, in order (R410). -/
def stageBodies (s : State) (bs : List (List Byte × List Byte)) : State :=
  bs.foldl (fun t x => if leAt x.1 4 1 = 0 then (bodyPages (leAt x.1 8 4) x.2).foldl stagePage t else t) s

/-- The restore ends without a result (R410). -/
def restoreFail (s : State) : State :=
  let s1 := dropObjs { s with rst := none } 2
  let s2 := setFld (setFld s1 .ckpt rCkptRstStatus 5 4 2) .ckpt rCkptRstStatus 0 0 0
  ckptShow (raise s2 .restoreFail whHub 0 [])

/-- RESTORE_END: the plan has come to its end: READY with one candidate whole, or FAILED (R410, R411). -/
def opRestoreEnd (s : State) : State :=
  match s.rst with
  | none => s
  | some r =>
    if r.ready then s
    else
      match rstPlan s r with
      | .need _ => s
      | .failed mx pre => restoreFail (stageBodies (mx.foldl raiseMixed s) pre)
      | .ready m bs older copies mx pre =>
        let s1 := stageBodies (mx.foldl raiseMixed s) (pre ++ bs)
        let r1 := { r with staged := bs.map (fun x => (leAt x.1 0 4, if leAt x.1 4 1 = 0 then
            ((bodyPages (leAt x.1 8 4) x.2).flatMap (fun p => leBytes 8 p.1)) else x.2)), ready := true, step := manStep m }
        let s2 := setReg (dropObjs { s1 with rst := some r1 } 2) .ckpt rCkptRstResult (BitVec.ofNat 32 (manStep m))
        let s3 := setFld (setFld (setFld (setFld s2 .ckpt rCkptRstStatus 5 4 1) .ckpt rCkptRstStatus 2 2 (b2n older))
          .ckpt rCkptRstStatus 1 1 (manSlot m)) .ckpt rCkptRstStatus 0 0 0
        ckptShow (setReg s3 .ckpt rCkptRstRefl (BitVec.ofNat 32 copies))

/-- RESTORE_END (R410). -/
def execRestoreEnd (s : State) : Host.Outcome State Fault Refusal := run [.ckpt] opRestoreEnd s

/-! ## Commit (R411) -/

/-- Make a staged page current. -/
def commitPage (s : State) (home : Nat) : State :=
  match homeAt s home with
  | none => s
  | some (t, i) =>
    match (pageSet s t).ents[i]? with
    | some e => putPage s t i { e with cur := !curIsF1 s t e, pend := false }
    | none => s

/-- Write a slot's X fields and state words from its record (R402, R411). -/
def commitSlot (s : State) (r : List Byte) : State :=
  let d := leAt r 8 8
  let s1 := if (hubReach s d 64).isNone then wrBytes s (d + 0x20) (slice r 0x10 8) else s
  let e := estEnt s1 (leAt r 0 4)
  if (hubReach s1 e 64).isNone then wrBytes s1 (e + 0x20) (slice r 0x20 32) else s1

/-- Slot records and command blocks of a state body. -/
def bodySlots (b : List Byte) : List (List Byte) := (List.range (leAt b 0x18 4)).map (fun k => slice b (64 + 64 * k) 64)
def bodyCmds (b : List Byte) : List (List Byte) :=
  (List.range (leAt b 0x1C 4)).map (fun k => slice b (64 + 64 * leAt b 0x18 4 + 384 * k) 384)

/-- The instruction word of a command block. -/
def cmdWord (c : List Byte) : Option (PtiOp × PtiWord) :=
  match ptiDecode (BitVec.ofNat 128 (leAt c 0 16)) with
  | .ok x => some x
  | .error _ => none

/-- The work of a command block under a loss-scale exponent. -/
def cmdJob (c : List Byte) (n e : Nat) (refl : Bool) : Option UpdJob :=
  (cmdWord c).map (fun x =>
    { n := n, cx := { hubCx with step := n }, op := x.1, dp := parseDesc 0 (slice c 0x40 64), dm := parseDesc 0 (slice c 0x80 64),
      dv := if x.1 = .updAdam then some (parseDesc 0 (slice c 0xC0 64)) else none, dg := parseDesc 0 (slice c 0x100 64),
      rc := parseRecipe (slice c 0x140 64), rnd := wRnd x.2, satm := wOvf x.2, e := e, refl := refl })

/-- Regenerate the working copy of a command: the master converted with its RND and SATM, into the page's current frame
(R383, R411). -/
def regenWc (n : Nat) (s : State) (c : List Byte) : State :=
  match cmdJob c n 0 false with
  | none => s
  | some j =>
    match updWc s j with
    | (0, some d) =>
      let (s1, st, tp) := updTensor s j.cx false j.dp
      if st ≠ 0 then s1
      else
        match fmtOf d.fmt with
        | none => s1
        | some f =>
          (List.range (nBlocks d)).foldl (fun t i =>
            let b := updForm t j d f (wcRnd t j) (fun a k => tvAt tp a k) (updRegion d f tp i) i
            let h := { b.h with crc := blkCrc b.h b.payload b.scales }
            let p := xlatPage t (blkAddr d i)
            physWr (physWr (physWr t p b.payload) (xlatPage t (msAddr d i)) b.scales) (hdrAddr t p) (hdrBytes h)) s1
    | _ => s

/-- State words of a seal or a state shard come into force: slots, SCL_LS_INIT and j, and for a promotion e itself (R383,
R411). -/
def takeState (s : State) (slots : List (List Byte)) (e j : Nat) (now : Bool) : State :=
  let s1 := setFld (slots.foldl commitSlot s) .scl rSclLsInit 5 0 e
  let s2 := if now then setLs s1 e else s1
  { s2 with scl := { s2.scl with lsJ := if j = 0 then none else some j } }

/-- Set the committed and open step numbers, and the system objects that follow them (R187). -/
def setSteps (s : State) (commit open_ : Nat) : State :=
  sysObj (sysObj (sysObj (sysObj { s with commitN := commit, openN := open_, epochHold := false } oCommit commit) oSeal commit) oOpen open_) oEpoch s.epoch

/-- RESTORE_COMMIT: a READY restore becomes the module's state (R411). -/
def restoreCommit (s : State) : State :=
  match s.rst with
  | none => s
  | some r =>
    if !r.ready then s
    else
      let homes := (r.staged.filter (fun x => decide (x.1 ≠ stateShard))).flatMap (fun x =>
        (List.range (x.2.length / 8)).map (fun k => leAt x.2 (8 * k) 8))
      let body := ((r.staged.find? (fun x => decide (x.1 = stateShard))).map (fun x => x.2)).getD []
      let s1 := homes.foldl commitPage { s with rst := none }
      let s2 := takeState s1 (bodySlots body) (leAt body 8 4) (leAt body 12 4) false
      let s3 := (bodyCmds body).foldl (regenWc r.step) (setSteps s2 r.step r.step)
      raise (setFld s3 .ckpt rCkptRstStatus 5 4 3) .restoreDone whHub r.step []

end Sys2Proof.Machine
end

