-- ==== Sys2Proof/Machine/Refl.lean ====
section
/-! DEFINITION. Reflections (R374–R380): what the buddy keeps and applies, and what its ward does with the answers. -/
namespace Sys2Proof.Machine

/-! ## Hub messages that wait -/

/-- HMSG of a hub-addressed block, and the rest of its address field. -/
def hmsgOf (f : Frame) : Nat := leAt f.body 7 1
def hmsgField (f : Frame) : Nat := leAt f.body 0 7

/-- The block that a hub message carries, as it travelled. -/
def hmsgBlk (f : Frame) : List Byte := f.body.drop 8

/-- Its payload. -/
def hmsgData (f : Frame) : List Byte := padTo 2048 (unwireBlk (hmsgBlk f)).payload

/-- Handle the message at the front of the hub's queue when it is a block of a given HMSG. -/
def hmsgRow (m : Nat) (act : Frame → State → State) (s : State) : State :=
  match s.hubIn with
  | f :: r => if f.ty = tyBlock ∧ hmsgOf f = m then act f { s with hubIn := r } else s
  | [] => s

/-- REFL_HAVE and REFL_DONE (R377). -/
def opReflHaveCode : Nat := 0x10
def opReflDoneCode : Nat := 0x11

/-- Send REFL_HAVE or REFL_DONE for a step to the ward's hub, stamped with the step and the current epoch (R33). -/
def reflAnswer (s : State) (lc code n : Nat) : State :=
  hubSend s (mkFrame s tySync lc 0 true 0 true n s.epoch 0 (leBytes 1 code ++ [0, 0, 0] ++ leBytes 4 n)) .hub 0

/-- Handle the SYNC message at the front of the hub's queue. -/
def reflRow (code : Nat) (act : Nat → Nat → State → State) (s : State) : State :=
  match s.hubIn with
  | f :: r => if f.ty = tySync ∧ leAt f.body 0 1 = code then act (adLc f.src) (leAt f.body 4 4) { s with hubIn := r } else s
  | [] => s

/-! ## Bundles (R375) -/

/-- Command blocks of a bundle in index order. -/
def bundleCmds (b : Bundle) : List (List Byte) :=
  (List.range b.cmds.length).filterMap (fun k => (b.cmds.find? (fun x => decide (x.1 = k))).map (fun x => x.2.take 384))

/-- Block 0 of the seal: the preamble of Table 13.8. -/
def bundlePre (b : Bundle) : Option (List Byte) := (b.seals.find? (fun x => decide (x.1 = 0))).map (fun x => x.2)

/-- Slot records of a bundle: 31 in block 0, 32 in each later block. -/
def bundleSlots (b : Bundle) : List (List Byte) :=
  let pre := (bundlePre b).getD []
  let m := leAt pre 0x0C 4
  let all := slice pre 64 (31 * 64) ++ ((List.range (b.seals.length - 1)).map (fun k =>
    ((b.seals.find? (fun x => decide (x.1 = k + 1))).map (fun x => slice x.2 0 2048)).getD [])).flatten
  (List.range m).map (fun k => slice all (64 * k) 64)

/-- Gradient descriptor of a command. -/
def cmdDg (c : List Byte) : Desc := parseDesc 0 (slice c 0x100 64)

/-- Everything that the seal announces has come (R375). -/
def bundleWhole (b : Bundle) : Bool :=
  match bundlePre b with
  | none => false
  | some pre =>
    decide ((bundleCmds b).length = leAt pre 8 4) && decide (b.seals.length = leAt pre 0x10 4) &&
      ((bundleCmds b).mapIdx (fun k c => (k, c))).all (fun x =>
        (List.range (nBlocks (cmdDg x.2))).all (fun i => b.grads.any (fun g => decide (g.1 = x.1) && decide (g.2.1 = i))))

/-- A whole bundle is answered with REFL_HAVE (R377); bundles of lower epochs go, but for whole ones of earlier steps, whose
seal blocks carried that epoch (R375, log 226). -/
def bundleDone (s : State) (b : Bundle) : State :=
  if bundleWhole b && !b.whole then
    let s1 := putBundle s { b with whole := true }
    reflAnswer { s1 with bundles := s1.bundles.filter (fun x =>
      !(decide (x.lc = b.lc) && decide (x.epoch < b.epoch) && (decide (x.step = b.step) || !x.whole))) } b.lc
      opReflHaveCode b.step
  else putBundle s b

/-- The sender is the ward in force. -/
def fromWard (s : State) (f : Frame) : Bool := decide (s.ward = some (adLc f.src))

/-- The sender is the buddy in force, which serves this module when it is a promoted spare (R383, P4). -/
def fromBuddy (s : State) (f : Frame) : Bool := decide (s.buddy = some (adLc f.src))

/-- A command block (R375); those of a spare's buddy tell which working copies to regenerate (R383, P5). -/
def cmdTake (f : Frame) (s : State) : State :=
  if !fromWard s f && !fromBuddy s f then s
  else
    let b := bundleOf s f
    let k := hmsgField f % u32Mod
    bundleDone s { b with cmds := (k, hmsgData f) :: b.cmds.filter (fun x => x.1 != k) }

/-- HMSG_COMMAND_BLOCK (R375). -/
def execHmsgCommandBlock (s : State) : Host.Outcome State Fault Refusal := run [.hub] (hmsgRow 1 cmdTake) s

/-- A gradient block (R375): kept by command and place in its tensor. -/
def gradTake (f : Frame) (s : State) : State :=
  if !fromWard s f then s
  else
    let b := bundleOf s f
    let k := hmsgField f % u32Mod
    let i := (parseHdr (hmsgBlk f)).block
    bundleDone s { b with grads := (k, i, hmsgBlk f) :: b.grads.filter (fun x => !(x.1 == k && x.2.1 == i)) }

/-- HMSG_GRADIENT_BLOCK (R375). -/
def execHmsgGradientBlock (s : State) : Host.Outcome State Fault Refusal := run [.hub] (hmsgRow 2 gradTake) s

/-- The last seal block that a spare's buddy sends it: state words, e and j come into force, and each working copy is
regenerated from the commands kept (R383, P5). -/
def sealForSpare (f : Frame) (s : State) : State :=
  let b := bundleOf s f
  let b1 := { b with seals := (hmsgField f % u32Mod, hmsgData f) :: b.seals.filter (fun x => x.1 != hmsgField f % u32Mod) }
  match bundlePre b1 with
  | some pre =>
    if b1.seals.length = leAt pre 0x10 4 then
      let s1 := takeState s (bundleSlots b1) (leAt pre 0x14 4) (leAt pre 0x18 4) true
      { (bundleCmds b1).foldl (regenWc (leAt pre 0 4)) s1 with bundles := s.bundles.filter (fun x => x.lc != b1.lc) }
    else putBundle s b1
  | none => putBundle s b1

/-- A seal block: of the ward it goes into its bundle; of this module's buddy it restores a promoted spare. -/
def sealTake (f : Frame) (s : State) : State :=
  if fromWard s f then
    let b := bundleOf s f
    let k := hmsgField f % u32Mod
    bundleDone s { b with seals := (k, hmsgData f) :: b.seals.filter (fun x => x.1 != k) }
  else if fromBuddy s f then sealForSpare f s
  else s

/-- HMSG_SEAL_BLOCK (R375). -/
def execHmsgSealBlock (s : State) : Host.Outcome State Fault Refusal := run [.hub] (hmsgRow 3 sealTake) s

/-! ## Applying a bundle (R377, R378) -/

/-- The gradient of a command from its bundle. -/
def bundleGrad (s : State) (b : Bundle) (k : Nat) (j : UpdJob) : TensorVal :=
  let d := j.dg
  match fmtOf d.fmt with
  | none => { d := d, f := .fp32, blks := [] }
  | some f =>
    { d := d, f := f, blks := (List.range (nBlocks d)).map (fun i =>
        let raw := ((b.grads.find? (fun g => decide (g.1 = k) && decide (g.2.1 = i))).map (fun g => g.2.2)).getD []
        let v := (hdrChecks s j.cx d i true (unwireBlk raw)).blk
        (v, tileVals s d f i v)) }

/-- Apply the commands of a bundle in order; none when a frame is missing on the way (R304, R378). -/
def applyCmds (b : Bundle) (e : Nat) : List (Nat × List Byte) → State → Option State
  | [], s => some s
  | (k, c) :: r, s =>
    match cmdJob c b.step e true with
    | none => applyCmds b e r s
    | some j =>
      match updExec s j (some (bundleGrad s b k j)) with
      | (_, .noFrame) => none
      | (s1, .ended st) => applyCmds b e r (if st = 0x03 then raise s1 .blockCrcUncured whHub b.step [] else s1)

/-- Step n is a fold step (R356). -/
def isFoldStep (s : State) (n : Nat) : Bool := decide (s.foldK ≠ 0) && decide (n ≠ 0) && decide (n % s.foldK = 0)

/-- The reflection has applied a bundle: set 4 flips, the fold record and any snapshot's copies go out (R377, R379, R404). -/
def bundleApplied (s : State) (b : Bundle) : State :=
  let pre := (bundlePre b).getD []
  let s1 := setReg { s with reflN := b.step, lastBundle := some b, bundles := s.bundles.filter (fun x => decide (b.step < x.step)) } .hub rHubReflStep
    (BitVec.ofNat 32 b.step)
  let s2 := if isFoldStep s b.step then
      hubMsg s1 b.lc b.step s1.epoch 4 b.step 0xFFFFFF03 0 ({ s.foldR with step := b.step } : Fold).bytes else s1
  let snap := leAt pre 0x1C 4
  if bitAt snap 0 then
    rsnapStart s2 b.lc b.step b.epoch (snap / 2 % 2) (leAt pre 0x20 8) (leAt pre 0x14 4 % 64) (leAt pre 0x18 4) (bundleSlots b)
      (bundleCmds b)
  else s2

/-- Apply a whole bundle; none when it cannot run yet. -/
def applyBundle (s : State) (b : Bundle) : Option State :=
  let cs := (bundleCmds b).mapIdx (fun k c => (k, c))
  (applyCmds b (leAt ((bundlePre b).getD []) 0x14 4 % 64) cs { s with foldR := .zero }).map (fun t => bundleApplied t b)

/-- The whole bundle that comes next. -/
def nextBundle (s : State) : Option Bundle :=
  s.bundles.find? (fun b => b.whole && decide (s.ward = some b.lc) && decide (b.step = s.reflN + 1))

/-- A slow-tier engine waits for a frame of set 4: FRAME_WAIT, and EVT_UPD_FRAME_WAIT for the first wait of the step
(R304). -/
def reflFrameWait (s : State) (n : Nat) : State :=
  let s1 := setFld s .upd rUpdStatus 3 3 1
  if s1.frameWaitSeen.contains (u32Mod + n) then s1
  else raise { s1 with frameWaitSeen := (u32Mod + n) :: s1.frameWaitSeen } Ev.updFrameWait whHub n []

/-- The disagreements that the slow-tier engines meet over a bundle, by master block (R301; a free value, log 79). -/
def bundleMis (s : State) (b : Bundle) : List (Nat × Nat) :=
  ((bundleCmds b).mapIdx (fun k c => (k, c))).flatMap (fun x =>
    match cmdJob x.2 b.step (leAt ((bundlePre b).getD []) 0x14 4 % 64) true with
    | some j => (List.range (nBlocks j.dp)).map (fun i => (i, Config.slowMiss s.free x.1 i))
    | none => [])

/-- The slow-tier engines run over a bundle, and whether they have applied it. Three disagreements on one block are a
commit failure, and the reflection stays (R41, R301); without a free frame the engines wait (R304). -/
def slowRun (s : State) (b : Bundle) : State × Bool :=
  let s1 := dualMisses b.step (bundleMis s b) { s with free := s.free + 1 }
  if dualFails (bundleMis s b) then (raise (commitFailed s1 b.step) .commitFail whHub b.step [], false)
  else
    match applyBundle s1 b with
    | some t => (t, true)
    | none => (reflFrameWait s b.step, false)

/-- REFL_APPLY_COMPLETE: the slow-tier engines have applied the next bundle and flipped set 4; REFL_DONE (R377). -/
def opReflApplyComplete (s : State) : State :=
  if s.resyncing then s
  else
    match nextBundle s with
    | none => s
    | some b =>
      let x := slowRun s b
      if x.2 then reflAnswer x.1 b.lc opReflDoneCode b.step else x.1

/-- REFL_APPLY_COMPLETE (R377). -/
def execReflApplyComplete (s : State) : Host.Outcome State Fault Refusal := run [.hub] opReflApplyComplete s

/-! ## Resynchronization (R380) -/

/-- HUB_REFL_STATUS.STATE: OFF, SYNCING, CURRENT, STALE. -/
def setReflState (s : State) (v : Nat) : State := setFld s .hub rHubReflStatus 2 0 v

/-- Stream one page: every block of its current frame that was ever written. -/
def resyncPage (lc n : Nat) (s : State) (x : SnapFrame) : State :=
  (List.range pageBlks).foldl (fun t k =>
    let b := frameBlk t x.frame k
    if noBlk b.1 then t else hubBlock t lc n 0 6 (x.home + 2048 * k) (b.1 ++ b.2)) s

/-- The ward streams its current frames to its buddy and waits for REFL_DONE. -/
def resyncSend (s : State) : State :=
  match s.buddy with
  | some lc =>
    let fs := (List.range 4).flatMap (fun t => snapSet s t [])
    reflWait (fs.foldl (resyncPage lc s.commitN) { s with resyncOut := true })
  | none => s

/-- Store a block of a stream in its page's current frame. -/
def resyncStore (s : State) (p : Nat) (f : Frame) : State :=
  let r := unwireBlk (hmsgBlk f)
  physWr (physWr s p r.payload) (hdrAddr s p) (hdrBytes r.h)

/-- The current frame's address for a HOME address of a set. -/
def resyncAddr (s : State) (t a : Nat) : Option Nat :=
  (findPage (pageSet s t).ents a).map (fun e => curFrame s t e + (a - e.home))

/-- A block of the ward's resynchronization lands in set 4 (R380); one that the buddy sends to a promoted spare lands in the
set that registers its page (R383, P4). -/
def resyncTake (f : Frame) (s : State) : State :=
  let a := hmsgField f % 2 ^ 48
  if fromWard s f then
    let s1 := setReflState { s with resyncing := true, resyncAt := f.step } 1
    match resyncAddr s 4 a with
    | some p => resyncStore s1 p f
    | none => s1
  else if fromBuddy s f then
    match (pageSetOf s a).bind (fun t => resyncAddr s t a) with
    | some p => resyncStore s p f
    | none => s
  else s

/-- HMSG_RESYNC_DATA (R380). -/
def execHmsgResyncData (s : State) : Host.Outcome State Fault Refusal := run [.hub] (hmsgRow 6 resyncTake) s

/-- Apply every whole bundle that waited, in order. -/
def applyWaiting : Nat → State → State
  | 0, s => s
  | k + 1, s =>
    match nextBundle s with
    | none => s
    | some b =>
      let x := slowRun s b
      if x.2 then applyWaiting k x.1 else x.1

/-- The buddy's part of a promotion (R383, P4): it applies the bundle it still holds, streams its reflection to the spare
that took the ward's place, and sends the last bundle's command and seal blocks (log 227). -/
def wardServe (s : State) : State :=
  match s.ward with
  | none => s
  | some lc =>
    if s.resyncing then s
    else
      let s1 := applyWaiting s.bundles.length s
      let s2 := (snapSet s1 4 []).foldl (resyncPage lc s1.reflN) s1
      match s2.lastBundle with
      | none => s2
      | some b =>
        let s3 := ((bundleCmds b).mapIdx (fun k c => (k, c))).foldl (fun t x =>
          hubMsg t lc b.step t.epoch 1 x.1 0xFFFFFF01 x.1 x.2) s2
        b.seals.foldl (fun t x => hubMsg t lc b.step t.epoch 3 x.1 0xFFFFFF02 x.1 x.2) s3

/-- What a bank switch left to serve: the spare in the ward's place, and the rebuild at the one in the buddy's (R383,
R385). -/
def promoTick (s : State) : State :=
  let s1 := if s.wardNew then wardServe { s with wardNew := false } else s
  if s1.buddyNew then resyncSend { s1 with buddyNew := false } else s1

/-- RESYNC_DONE: the stream has ended, waiting bundles are applied, and the buddy answers REFL_DONE (R380). -/
def opResyncDone (s : State) : State :=
  match s.ward with
  | some lc =>
    if s.resyncing then
      let s1 := { s with resyncing := false, reflN := s.resyncAt, bundles := s.bundles.filter (fun b => decide (s.resyncAt < b.step)) }
      let s2 := applyWaiting s1.bundles.length (setReg s1 .hub rHubReflStep (BitVec.ofNat 32 s.resyncAt))
      reflAnswer (setReflState s2 2) lc opReflDoneCode s2.reflN
    else s
  | none => s

/-- RESYNC_DONE (R380). -/
def execResyncDone (s : State) : Host.Outcome State Fault Refusal := run [.hub] opResyncDone s

/-! ## The ward (R377–R379) -/

/-- REFL_HAVE lets the ward flip its page set for the step (R377). -/
def haveTake (lc n : Nat) (s : State) : State :=
  if s.buddy = some lc then tmOff (updStep s n (fun r => { r with reflHave := true })) .refl else s

/-- REFL_HAVE (R377). -/
def execReflHave (s : State) : Host.Outcome State Fault Refusal := run [.hub] (reflRow opReflHaveCode haveTake) s

/-- REFL_DONE lets the next step commit (R377, R43). -/
def doneTake (lc n : Nat) (s : State) : State :=
  if s.buddy = some lc then
    let s1 := tmOff { s with reflDone := n, resyncOut := false } .refl
    setReg s1 .hub rHubReflAcked (BitVec.ofNat 32 (max (regAt s1 .hub rHubReflAcked).toNat n))
  else s

/-- REFL_DONE (R377). -/
def execReflDone (s : State) : Host.Outcome State Fault Refusal := run [.hub] (reflRow opReflDoneCode doneTake) s

/-- EVT_REFL_LATE (R378). -/
def reflLate (s : State) (n : Nat) : State := raise (setFld s .hub rHubReflStatus 4 4 1) .reflLate whHub n []

/-- REFL_LATE_TIMEOUT: the wait has lasted longer than HUB_REFL_LATE; the ward keeps waiting (R378). -/
def opReflLateTimeout (s : State) : State :=
  if tmDue s .refl then reflLate (tmOff s .refl) (s.commitN + 1) else s

/-- REFL_LATE_TIMEOUT (R378). -/
def execReflLateTimeout (s : State) : Host.Outcome State Fault Refusal := run [.hub] opReflLateTimeout s

/-- The ward and its buddy hold different folds of fold step m (R379). -/
def reflMismatch (s : State) (m : Nat) : State :=
  let s1 := health (raise (setFld s .hub rHubReflStatus 3 3 1) .reflMismatch whHub m []) 13
  if s.foldPassed = some m then resyncSend { s1 with reflMark := 3 } else setFld s1 .chk rChkFoldStatus 0 0 1

/-- Compare the two records of fold step m once both are here (R379). -/
def reflCompare (s : State) (m : Nat) : State :=
  match s.reflWard.find? (fun x => decide (x.1 = m)), s.reflGot.find? (fun x => decide (x.1 = m)) with
  | some a, some b =>
    if s.foldBusy = some m then s
    else
      let s1 := { s with reflWard := s.reflWard.filter (fun x => x.1 != m), reflGot := s.reflGot.filter (fun x => x.1 != m) }
      if { a.2 with step := m } = { b.2 with step := m } then { s1 with reflMark := 2 } else reflMismatch s1 m
  | _, _ => s

/-- A reflection fold record of the buddy (R379). -/
def foldRecTake (f : Frame) (s : State) : State :=
  if s.buddy ≠ some (adLc f.src) then s
  else
    let m := hmsgField f % u32Mod
    let s1 := if m + 1 < s.commitN then reflLate s m else s
    reflCompare { s1 with reflGot := s1.reflGot ++ [(m, parseFold (slice (hmsgData f) 0 64))] } m

/-- HMSG_REFL_FOLD_RECORD (R379). -/
def execHmsgReflFoldRecord (s : State) : Host.Outcome State Fault Refusal := run [.hub] (hmsgRow 4 foldRecTake) s

/-- A checkpoint digest report of the buddy (R404). -/
def reportTake (f : Frame) (s : State) : State :=
  let d := hmsgData f
  if s.buddy ≠ some (adLc f.src) ∨ !s.snap.any (fun n => decide (n.step = leAt d 4 4)) then s
  else (List.range (min reportMax (leAt d 0 4))).foldl (fun t r =>
    takeReport t (leAt d (0x10 + 80 * r) 4) (slice d (0x20 + 80 * r) 32) (slice d (0x40 + 80 * r) 32)) s

/-- HMSG_DIGEST_REPORT (R404). -/
def execHmsgDigestReport (s : State) : Host.Outcome State Fault Refusal := run [.hub] (hmsgRow 5 reportTake) s

end Sys2Proof.Machine
end

