-- ==== Sys2Proof/Machine/Reset.lean ====
section
/-! DEFINITION. Requests for power states (R450–R452), and what each reset kind clears and keeps (R459–R462). -/
namespace Sys2Proof.Machine

/-- Raise the I3C in-band interrupt with its mandatory byte: 1 thermal, 2 power, 3 security alarm, 4 boot stage (R434). -/
def ibi (s : State) (b : Nat) : State := { s with pw := { s.pw with ibi := s.pw.ibi ++ [b] } }

/-- Rails are up and the boot is over: one of the states of Table 16.4. -/
def ladder (s : State) : Bool := !(decide (s.pwr = .off) || decide (s.pwr = .boot))

/-- The unsealed steps of the module, oldest first. -/
def unsealedSteps (s : State) : List Nat := (s.steps.filter unsealed).map (fun r => r.n)

/-- Abandon every unsealed step. -/
def abandonAll (s : State) (cause : Nat) : State :=
  match unsealedSteps s with
  | n :: _ => abandon s n cause
  | [] => s

/-! ## Requests for a power state (R451, R452) -/

/-- A memory controller is in TEST mode or asked for it. -/
def anyTest (s : State) : Bool :=
  (List.range 32).any (fun k => rbit s (.hc k) rHcStatus 7 || fld s (.hc k) rHcCtl 1 0 == 1) ||
  (List.range 48).any (fun k => rbit s (.lpc k) rLpcStatus 7 || fld s (.lpc k) rLpcCtl 1 0 == 1)

/-- Why a state of at least `t` may not be entered: the REASON code of R451, 0 for none. -/
def pwrRefuse (s : State) (t : Nat) : Nat :=
  if t < 2 then 0
  else if s.openN ≠ s.commitN then 1
  else if s.snap.isSome || s.rsnap.isSome || s.rst.any (fun r => !r.ready) then 2
  else if s.orders.any (fun o => o.inFlight) || !s.mig.fly.isEmpty then 3
  else if anyTest s || s.certs.any (fun c => c.running) then 4
  else if decide (3 ≤ t) && (s.sess.isSome || rbit s .coord rCoordLogical 31) then 5
  else if !s.bundles.isEmpty || s.resyncing || s.resyncOut then 6
  else 0

/-- A refused request: REFUSED, REASON, the count and the event (R451). -/
def pwrRefused (s : State) (why : Nat) : State :=
  raise (cnt (setFld (setFld s .pwr rPwrStatus 9 9 1) .pwr rPwrStatus 8 6 why) .pwr rPwrRefusals) .pwrRefused whHub 0 []

/-- TARGET 5 to 7 act as 0 (Table 16.8). -/
def pwrTarget (v : Nat) : Nat := if 5 ≤ v then 0 else v

/-- A request takes effect while no transition is in progress. -/
def pwrTake (s : State) (t : Nat) : State :=
  if s.pwr.code < t ∧ pwrRefuse s t ≠ 0 then pwrRefused s (pwrRefuse s t)
  else { s with pw := { s.pw with target := t } }

/-- A request (R452): during a transition it waits, and only the latest counts. TRIP, boot and power loss take none. -/
def pwrRequest (s : State) (v : Nat) : State :=
  if s.tripped || !ladder s then s
  else if s.pwr.code ≠ s.pw.target ∨ s.pw.stop then { s with pw := { s.pw with req := some (pwrTarget v) } }
  else pwrTake s (pwrTarget v)

/-! ## Die (R459, R460) -/

/-- Registers return to their reset values where `p` holds of the offset. -/
def dropRegs (s : State) (p : Nat → Bool) : State := { s with regs := s.regs.filter (fun e => !p e.1) }

/-- Engine instructions vanish, with what they have begun; they send no signal. -/
def dropOps (s : State) (p : EngOp → Bool) : State :=
  let nos := (s.ops.filter p).map (fun o => o.no)
  let owned := fun (o : Owner) => match o with
    | .op n => nos.contains n
    | .coll n => nos.contains n
    | _ => false
  { s with
    ops := s.ops.filter (fun o => !p o)
    colls := s.colls.filter (fun c => !nos.contains c.no)
    reads := s.reads.filter (fun r => !owned r.owner)
    combs := s.combs.filter (fun c => !nos.contains c.no)
    updWait := s.updWait.filter (fun n => !nos.contains n)
    ostat := s.ostat.filter (fun x => !owned x.1)
    e2e := { s.e2e with unack := s.e2e.unack.map (fun u => if owned u.owner then { u with owner := .hub } else u) } }

/-- Offsets of a die's window that a die reset keeps: CLK_LIMIT and CLK_LOCK, and the unit maps (Table 16.7). -/
def dieKeeps (k : Nat) : Bool :=
  let o := k % 0x4000000
  (decide (0x101000 ≤ o) && decide (o < 0x101014)) ||
  (decide (0x300000 ≤ o) && decide (o < 0x304000) && decide (0x100 ≤ o % 0x1000) && decide (o % 0x1000 < 0x200))

/-- The offset lies in the window of die d. -/
def inDieWin (d k : Nat) : Bool := decide (k < 0x10000000) && decide (k / 0x4000000 = d)

/-- The address lies in the SRAM windows of die d (Table 9.2). -/
def inSramOf (d a : Nat) : Bool := decide (0xE00000000000 + d * 0x100000000 ≤ a) && decide (a < 0xE00000000000 + (d + 1) * 0x100000000)

/-- What a die loses with its logic: stores, caches, sequencers, engines, register instances but for the limits, locks and
unit maps; fences end (Table 16.7). System objects are the hub's and stay (R187). -/
def dieLose (s : State) (d : Nat) : State :=
  let s1 := dropRegs s (fun k => inDieWin d k && !dieKeeps k)
  let s2 := { s1 with
    mem := s1.mem.filter (fun e => !inSramOf d e.1)
    poison := s1.poison.filter (fun k => !inSramOf d (32 * k))
    objs := s1.objs.filter (fun e => !(decide (e.1 / 4096 = d) && !isSysObj (e.1 % 4096)))
    seqs := s1.seqs.filter (fun e => !decide (e.1 / 64 = d))
    sigs := s1.sigs.filter (fun g => !decide (g.q / 64 = d))
    cache := s1.cache.filter (fun e => !decide (e.1 / 4 = d))
    owners := s1.owners.filter (fun e => !decide (e.1 = d))
    gangReq := s1.gangReq.filter (fun q => !decide (q / 64 = d))
    irqs := s1.irqs.filter (fun x => !decide (x.1 = d))
    prismSt := s1.prismSt.filter (fun e => !decide (e.1 / 328 = d))
    ceRate := s1.ceRate.filter (fun e => !(decide (e.1 < 64) && decide (e.1 / 8 = d))) }
  let s3 := (List.range 4).foldl (fun t r => fenceApplyWrite t (4 * d + r)) s2
  -- BAND is at its reset value until the next sample (Table 16.7).
  let us := s3.units.map (fun e => if e.1 / 264 = d then (e.1, { e.2 with band := 0 }) else e)
  { s3 with units := us.filter (fun e => decide (e.2 ≠ UnitRec.reset e.1)) }

/-- A die is lost while a step is SEALED: its engines cannot finish the step, and a commit failure names the die (R41). -/
def sealedLost (s : State) (d : Nat) : State :=
  match s.steps.find? (fun r => decide (r.st = .sealed)) with
  | some r => raise (commitFailed s r.n) .commitFail (whDie d) r.n []
  | none => s

/-- The same with its caches written back first (R256, Table 16.7), and with the instructions of its engines and
sequencers. -/
def dieClear (s : State) (d : Nat) : State :=
  let s1 := (List.range 4).foldl (fun t r => flushCache t (4 * d + r)) (sealedLost s d)
  dieLose (dropOps s1 (fun o => decide (engDie o.eng = some d) || decide (o.q / 64 = d))) d

/-- Put the dies in service: powered, not in eclipse, degrade or reset. -/
def showDies (s : State) : State :=
  { s with dies := s.diePower &&& ~~~(s.pw.dieEcl ||| s.pw.degraded ||| s.pw.dieRst) }

/-- One die as a mask. -/
def dieBit (d : Nat) : BitVec 4 := BitVec.ofNat 4 (2 ^ d)

/-- A die reset aborts a snapshot that is streaming (R407, R461); one whose shards have all arrived is kept (Table 16.7). -/
def streamAbort (s : State) : State :=
  let s1 := if s.snap.any (fun n => decide (n.phase ≤ 1)) then snapAbort s abService else s
  if s1.rsnap.any (fun n => decide (n.phase ≤ 1)) then rsnapAbort s1 else s1

/-- A die reset starts: for a die in degrade, or any die while no job session is open (R459). A die whose rails are off
has nothing to reset. -/
def dieResetStart (s : State) (d : Nat) : State :=
  if (s.pw.degraded.getLsbD d || s.sess.isNone) && ladder s && !s.tripped && s.diePower.getLsbD d && !s.pw.dieRst.getLsbD d then
    let s1 := streamAbort (dieClear s d)
    tmArm (showDies { s1 with pw := { s1.pw with dieRst := s1.pw.dieRst ||| dieBit d } }) (.dieReset d) (5000 * btMs)
  else s

/-! ## Job (R460, R461) -/

/-- Offsets of the job blocks: SYNC, ROUTE and CLU of the dies, SCL, UPD, MIG and CKPT of the hub. -/
def inJobBlock (k : Nat) : Bool :=
  if k < 0x10000000 then
    let o := k % 0x4000000
    decide (o < 0x100000) || (decide (0x102000 ≤ o) && decide (o < 0x103000)) || (decide (0x400000 ≤ o) && decide (o < 0x404000))
  else
    (decide (0x10007000 ≤ k) && decide (k < 0x1000A000)) || (decide (0x1000B000 ≤ k) && decide (k < 0x1000C000))

/-- Timers that belong to a job. -/
def jobTimer : Tmr → Bool
  | .drain _ => true
  | .vote _ => true
  | .agreeNotice => true
  | .agreePhase0 => true
  | .refl => true
  | .reflReport => true
  | .creditRep => true
  | .jobReset => true
  | _ => false

/-- What a job reset clears (Table 16.7). -/
def jobClear (s0 : State) : State :=
  let s1 := (List.range 16).foldl flushCache (sessEnd (bulkEnd (rsnapAbort (snapAbort s0 abService))))
  let s2 := dropRegs s1 inJobBlock
  let s3 := setFld (setFld s2 .xlat rXlatStatus 2 2 0) .xlat rXlatStatus 0 0 0
  let s4 := setReg (setReg (setReg (setFld s3 .hub rHubReflStatus 2 0 0) .hub rHubReflStep 0) .hub rHubReflAcked 0) .hub rHubAglUsed 0
  { s4 with
    objs := [], seqs := [], ops := [], rr := [], sigs := [], pages := [], cache := [], reflN := 0, commitN := 0, openN := 0,
    epoch := 0, steps := [], ovrSeen := [], scl := .reset, e2e := .reset, xlat := .reset, ostat := [], reads := [], hubIn := [],
    colls := [], voteIn := [], agl := .reset, lastSeal := none, agree := .reset, heldOpen := none, badWr := [], flk := .reset,
    mig := .reset, gangReq := [], collIn := [], owners := [], combs := [], foldA := .zero, foldB := .zero, foldR := .zero,
    foldBusy := none, updPend := 0, updWait := [], frameWaitSeen := [], bundles := [], lastBundle := none,
    wardNew := false, buddyNew := false, reflDone := 0, reflWard := [],
    reflGot := [], foldPassed := none, resyncing := false, sess := none, orders := [], compl := [], retired := [],
    snapLeft := [], deferAuto := false, snapReq := none, snapDefer := none, ckptJob := 0, ckptSinks := [], ckptTrust := [],
    ckptPend := false, rst := none, resyncOut := false, resyncAt := 0, reflMark := 0, epochHold := false, ovfCount := 0,
    pw := { s4.pw with jobWait := none, left := false }, timers := s4.timers.filter (fun t => !jobTimer t.1) }

/-- The logical coordinate is unset. -/
def unsetLogical (s : State) : State := setReg s .coord rCoordLogical 0

/-- A response is stored with the last 64 and sent (R436). -/
def laneResp (s : State) (mseq cmd status : Nat) (body : List Byte) : State :=
  let f : MgmtFrame := { mtype := 2, mseq := mseq, cmd := cmd, mstatus := status, epoch := s.epoch, body := body }
  laneSend { s with mgmt := { s.mgmt with resp := ((mseq, f) :: s.mgmt.resp.filter (fun x => x.1 != mseq)).take 64 } } f

/-- Commands that answered ACCEPTED have completed (R436). -/
def laneLate (s : State) : State :=
  s.mgmt.late.foldl (fun t x => laneResp t x.1 x.2 0 []) { s with mgmt := { s.mgmt with late := [] } }

/-- A job reset proceeds; that of a JOB_RELEASE unsets the logical coordinate and requests dusk (R452, R460). -/
def jobResetGo (s : State) (release : Bool) : State :=
  if release then laneLate (pwrRequest (unsetLogical (jobClear s)) 2) else jobClear s

/-- A job reset starts: it waits up to 1 s for a sealed step to commit (R461). -/
def jobResetStart (s : State) (release : Bool) : State :=
  if !ladder s then s
  else if s.steps.any (fun r => decide (r.st = .sealed)) then
    let w := release || s.pw.jobWait.getD false
    tmArm { s with pw := { s.pw with jobWait := some w } } .jobReset (1000 * btMs)
  else jobResetGo s release

/-- A waiting job reset whose sealed step has committed proceeds. -/
def jobResetCommitted (s : State) : State :=
  match s.pw.jobWait with
  | some r => if s.steps.any (fun x => decide (x.st = .sealed)) then s else jobResetGo s r
  | none => s

/-! ## Module and power-on (R457, R460, R462) -/

/-- Offsets that keep their values through a module reset: fused identity, the unit maps, the health record (Table 16.7). -/
def moduleKeeps (k : Nat) : Bool :=
  if k < 0x10000000 then
    let o := k % 0x4000000
    decide (0x300000 ≤ o) && decide (o < 0x304000) && decide (0x100 ≤ o % 0x1000) && decide (o % 0x1000 < 0x200)
  else
    decide (k < 0x10000028) || decide (k = 0x10005000) || decide (k = 0x10005004) ||
    (decide (0x10005200 ≤ k) && decide (k < 0x100052B0) && decide (k % 8 = 4))

/-- Fences end: every fenced index is back on its own unit. -/
def fencesOff (s : State) : State := (List.range 16).foldl fenceApplyWrite s

/-- The state that a boot begins in, over what of the registers and units lasts. -/
def bootOver (s : State) (stage : Nat) : State :=
  let units := s.units.map (fun e => (e.1, { e.2 with fence := 0, rsv := none, band := 0, first := [], certWait := false, partner := none }))
  let ecl := if s.eclipsed then [(0x10005008, (2 : Word))] else []
  { State.reset with
    pending := s.pending, partA6 := s.partA6, free := s.free, carts := s.carts,  osfp := s.osfp, keyNo := s.keyNo,
    regs := ecl.foldl (fun m e => smPut regRst m e.1 e.2) s.regs
    units := units.filter (fun e => decide (e.2 ≠ UnitRec.reset e.1)), bands := s.sec.bands, eclipsed := s.eclipsed
    hlthSent := (fld s .hlth rHlthScore 9 0, none)
    dies := 0, diePower := 0, pwr := .boot
    pw := { Pwr.reset with stage := stage, b4 := false, dieEcl := s.pw.dieEcl, degraded := s.pw.degraded, enabled := s.pw.enabled, straps := s.pw.straps,
                           i3cAddr := if stage = 0 then none else s.pw.i3cAddr, ibi := s.pw.ibi }
    sec := { s.sec with boots := s.sec.boots + 1, chal := none, stream := [none, none] } }

/-- The module at the start of boot phase `stage`: everything at reset, but for fuses, flash, what flash restores, and what
stands outside the package. Memory contents are undefined and read as unlisted bytes (R460, R462). -/
def bootFrom (s0 : State) (stage : Nat) : State := bootOver (fencesOff (dropRegs s0 (fun k => !moduleKeeps k))) stage

/-- Bounds of the phases B0 to B7 from the start of boot, in ms (Table 16.5). -/
def phaseBound (p : Nat) : Nat := [30, 100, 200, 10000, 3000, 15000, 28000, 30000].getD p 30000

/-- A reset that restarts the boot: from B0 at power-on, from B1 for a module reset (Table 16.6). -/
def bootStart (s : State) (stage : Nat) : State :=
  let s1 := bootFrom s stage
  ibi { s1 with timers := [(.phase, phaseBound stage * btMs)] } 4

/-- A module reset starts (R459). -/
def moduleReset (s : State) : State := if decide (s.pwr = .off) then s else bootStart s 1

/-- Every rail off: all contents but flash are lost (Table 16.1). -/
def powerOff (s : State) : State :=
  let s1 := bootFrom s 0
  { s1 with pwr := .off, timers := [], pw := { s1.pw with stage := 0 }, sec := { s1.sec with boots := s.sec.boots } }

end Sys2Proof.Machine
end

