-- ==== Sys2Proof/Machine/Sec.lean ====
section
/-! DEFINITION. The security core (ch. 17): image acceptance, alarms and their responses, attestation and the mailboxes. -/
namespace Sys2Proof.Machine

/-! ## Images (R466, R467) -/

/-- Byte of a running image's security version. -/
def imgSvn (s : State) (k : Nat) : Nat := ((s.sec.imgs[k]?).map (fun i => i.svn)).getD 0

/-- The root slot that a header names holds its key and is not revoked. -/
def rootOk (s : State) (hdr : List Byte) : Bool :=
  let k := leAt hdr 6 1
  let r := s.sec.roots.getD k []
  decide (k < 4) && decide (sha256 (slice hdr 0x40 64) = r) && decide (r ≠ List.replicate 32 0) && !s.sec.revoke.getLsbD k

/-- The security core accepts an image (R467). -/
def imgOk (s : State) (ty : Nat) (hdr body : List Byte) : Bool :=
  decide (hdr.length = 192) && decide (leAt hdr 0 4 = 0x47494D43) && decide (leAt hdr 4 1 = ty) && rootOk s hdr &&
    ecdsaOk (slice hdr 0x40 64) (slice hdr 0 128) (slice hdr 0x80 64) && decide (s.sec.svn.getD ty 0 ≤ leAt hdr 5 1) &&
    decide (slice hdr 0x20 32 = sha256 body)

/-- The copy that is loaded: of the accepted ones that with the higher SVN, A when they are equal (R467). -/
def imgPick (s : State) (ty : Nat) (a b : List Byte × List Byte) : Option ImgRun :=
  let run := fun (x : List Byte × List Byte) => ({ svn := leAt x.1 5 1, meas := sha256 x.1 } : ImgRun)
  match imgOk s ty a.1 a.2, imgOk s ty b.1 b.2 with
  | true, true => if leAt a.1 5 1 < leAt b.1 5 1 then some (run b) else some (run a)
  | true, false => some (run a)
  | false, true => some (run b)
  | false, false => none

/-- Load the images of two types; none when one has no accepted copy. -/
def imgLoad (s : State) (ty : Nat) (imgs : List ((List Byte × List Byte) × (List Byte × List Byte))) : Option State :=
  match imgPick s ty (imgs.getD 0 (([], []), ([], []))).1 (imgs.getD 0 (([], []), ([], []))).2,
    imgPick s (ty + 1) (imgs.getD 1 (([], []), ([], []))).1 (imgs.getD 1 (([], []), ([], []))).2 with
  | some x, some y => some { s with sec := { s.sec with imgs := (s.sec.imgs.set ty x).set (ty + 1) y } }
  | _, _ => none

/-! ## Alarms (R476–R478) -/

/-- Alarm sources, in the order of Table 17.6. -/
def alLid : Nat := 0
def alVglitch : Nat := 1
def alCglitch : Nat := 2
def alTemp : Nat := 3
def alDebug : Nat := 4

/-- Log one alarm: flash record, count, event and in-band interrupt (R477). -/
def alarmLog (s : State) (x : Nat × Int) : State :=
  let s1 := setFld s .sec rSecStatus x.1 x.1 1
  let sec := { s1.sec with alarms := min u32Max (s1.sec.alarms + 1)
                           ring := ({ source := x.1, beacon := s1.beacon, temp := x.2 } :: s1.sec.ring).take 256 }
  ibi (raise { s1 with sec := sec } .secAlarm whHub 0 []) 3

/-- ERASE: the identity key and certificate are gone, the lifecycle is ERASED (R478). -/
def eraseKeys (s : State) : State :=
  raise { s with sec := { s.sec with hasKey := false, cert := [], life := 2, chal := none } } .secErased whHub 0 []

/-- LOCK: no new work until a power-on or module reset; unsealed steps are abandoned (R478). -/
def lockModule (s : State) : State :=
  if rbit s .sec rSecStatus 6 then s else abandonAll (setFld s .sec rSecStatus 6 6 1) 6

/-- Union of the responses that the policy selects for some sources (R477). -/
def alarmResp (s : State) (l : List (Nat × Int)) : Nat :=
  l.foldl (fun r x => r ||| fld s .sec rSecPolicy (3 * x.1 + 2) (3 * x.1)) 0

/-- Alarms that fall together: each is logged, then the union of their responses, ERASE, LOCK, RESET (R477, R478). -/
def alarms (s : State) (l : List (Nat × Int)) : State :=
  if l.isEmpty then s
  else
    let r := alarmResp s l
    let s1 := l.foldl alarmLog s
    let s2 := if bitAt r 1 then eraseKeys s1 else s1
    let s3 := if bitAt r 0 then lockModule s2 else s2
    if bitAt r 2 then moduleReset s3 else s3

/-- An alarm: in dark the wake logic latches it (R476). Without power nothing is detected. -/
def alarm (s : State) (source : Nat) (temp : Int) : State :=
  match s.pwr with
  | .off => s
  | .dark => { s with sec := { s.sec with latched := s.sec.latched ++ [(source, temp)] } }
  | _ => alarms s [(source, temp)]

/-- At the exit from dark the latched alarms are applied (R476). -/
def alarmsLatched (s : State) : State := alarms { s with sec := { s.sec with latched := [] } } s.sec.latched

/-- LID_OPEN (R476). -/
def execLidOpen (temp : Int) (s : State) : Host.Outcome State Fault Refusal := run [] (fun t => alarm t alLid temp) s

/-- VOLTAGE_GLITCH (R476). -/
def execVoltageGlitch (temp : Int) (s : State) : Host.Outcome State Fault Refusal := run [] (fun t => alarm t alVglitch temp) s

/-- CLOCK_GLITCH (R476). -/
def execClockGlitch (temp : Int) (s : State) : Host.Outcome State Fault Refusal := run [] (fun t => alarm t alCglitch temp) s

/-! ## Attestation (R470) -/

/-- Bits of words, lowest first. -/
def bitWord (l : List Bool) : Nat := l.foldr (fun b n => b2n b + 2 * n) 0

/-- STATE, LOCKS and ROOTS of a report (Table 17.4). -/
def attState (s : State) : Nat :=
  bitWord [rbit s .sec rSecDebug 0, rbit s .sec rSecStatus 6, rbit s .hlth rHlthFlags 0] + 8 * s.pw.degraded.toNat
def attLocks (s : State) : Nat :=
  bitWord ([rbit s .sec rSecPolicy 15, rbit s .coord rCoordPhys 31] ++ (List.range 4).map (fun d => rbit s (.clk d) rClkLock 0) ++
    [rbit s .sec rSecFuse 0, rbit s .sec rSecDebug 8, rbit s .regdec rRegdecCtl 1])
def attRoots (s : State) : Nat :=
  bitWord (s.sec.roots.map (fun r => decide (r ≠ List.replicate 32 0))) + 16 * s.sec.revoke.toNat

/-- Physical coordinate and mode, and logical coordinate, as a report holds them. -/
def attCoord (s : State) : Nat := fld s .coord rCoordPhys 18 0
def attLogical (s : State) : Nat := fld s .coord rCoordLogical 17 0 + 2147483648 * b2n (rbit s .coord rCoordLogical 31)

/-- Bytes 0x000 to 0x0FF of a report (Table 17.4). -/
def report (s : State) (nonce : List Byte) : List Byte :=
  leBytes 4 0x54414D43 ++ leBytes 2 1 ++ leBytes 2 320 ++ leBytes 8 (serialOf s)
    ++ partName s ++ padTo 32 nonce ++ leBytes 8 s.beacon
    ++ leBytes 4 s.sec.boots ++ leBytes 4 (attState s) ++ leBytes 4 (attLocks s) ++ leBytes 4 (attCoord s)
    ++ leBytes 4 (fld s .coord rCoordPdim 17 0) ++ leBytes 4 (attLogical s) ++ leBytes 4 (attRoots s) ++ leBytes 4 s.sec.romVer
    ++ padTo 4 (s.sec.svn.map (BitVec.ofNat 8)) ++ padTo 4 (s.sec.imgs.map (fun i => BitVec.ofNat 8 i.svn))
    ++ leBytes 4 (regAt s .sec rSecPolicy).toNat ++ leBytes 4 s.sec.alarms ++ List.replicate 8 0
    ++ padTo 128 (s.sec.imgs.flatMap (fun i => padTo 32 i.meas))

/-- ATTEST: the signed report and the certificate; none when the lifecycle does not allow it (R470, R478). -/
def attest (s : State) (nonce : List Byte) : Option (State × List Byte) :=
  if canSign s then
    let b := report s nonce
    let x := signMsg s b
    some (x.1, b ++ x.2 ++ s.sec.cert)
  else none

/-! ## Mailboxes (R472) -/

/-- The first n bytes of a channel's data window. -/
def mbIn (s : State) (c n : Nat) : List Byte :=
  ((List.range ((n + 3) / 4)).flatMap (fun k => leBytes 4 (regAt s .sec (rSecMbData + 0x2000 * c + 4 * k)).toNat)).take n

/-- ATTEST. -/
def mbAttest (s : State) (c len : Nat) : State :=
  if len ≠ 32 then mbDone s c mbBadCmd []
  else
    match attest s (mbIn s c 32) with
    | some x => mbDone x.1 c mbOk x.2
    | none => mbDone s c mbRefused []

/-- SIGN_START restarts any unfinished sequence. -/
def mbSignStart (s : State) (c : Nat) : State := mbDone (setStream s c (some [])) c mbOk []

/-- SIGN_DATA. -/
def mbSignData (s : State) (c len : Nat) : State :=
  match (s.sec.stream[c]?).getD none with
  | none => mbDone s c mbSeq []
  | some l => if 4096 < len then mbDone s c mbBadCmd [] else mbDone (setStream s c (some (l ++ mbIn s c len))) c mbOk []

/-- The stream begins with a complete manifest header of this module (R471). -/
def streamOk (s : State) (l : List Byte) : Bool :=
  decide (128 ≤ l.length) && decide (leAt l 0 4 = 0x31464D43) && decide (leAt l 6 1 = 1) && decide (leAt l 0x20 8 = serialOf s)

/-- SIGN_END. -/
def mbSignEnd (s : State) (c : Nat) : State :=
  match (s.sec.stream[c]?).getD none with
  | none => mbDone s c mbSeq []
  | some l =>
    let s1 := setStream s c none
    if !canSign s1 then mbDone s1 c mbRefused []
    else if !streamOk s1 l then mbDone s1 c mbBadCmd []
    else
      let x := signMsg s1 l
      mbDone x.1 c mbOk x.2

/-- DBG_CHALLENGE. -/
def mbChallenge (s : State) (c : Nat) : State :=
  let l := leBytes 8 (serialOf s) ++ leBytes 4 s.sec.boots ++ [0, 0, 0, 0] ++ leBytes 32 (Config.debugNonce s.free)
  mbDone { s with free := s.free + 1, sec := { s.sec with chal := some l } } c mbOk l

/-- A failed response counts; at the limit the DEBUG alarm is raised (R474). -/
def dbgFail (s : State) (c : Nat) (temp : Int) : State :=
  let n := min u32Max ((regAt s .sec rSecDbgFails).toNat + 1)
  let s1 := mbDone (setReg s .sec rSecDbgFails (BitVec.ofNat 32 n)) c mbBadSig []
  if n = max 1 (fld s .sec rSecDebug 7 4) then alarm s1 alDebug temp else s1

/-- DBG_RESPONSE (R474). -/
def mbResponse (s : State) (c len : Nat) (temp : Int) : State :=
  if rbit s .sec rSecDebug 8 then mbDone s c mbLocked []
  else
    let l := mbIn s c 128
    let s1 := { s with sec := { s.sec with chal := none } }
    match s.sec.chal with
    | none => dbgFail s1 c temp
    | some ch =>
      if decide (len = 128) && decide (sha256 (slice l 0 64) = s.sec.debugKey) && ecdsaOk (slice l 0 64) ch (slice l 64 64) then
        mbDone (setFld s1 .sec rSecDebug 0 0 1) c mbOk []
      else dbgFail s1 c temp

/-- ADVANCE (R469). -/
def mbAdvance (s : State) (c : Nat) : State :=
  let ty := (mbIn s c 1).foldl (fun _ b => b.toNat) 0
  if rbit s .sec rSecFuse 0 then mbDone s c mbLocked []
  else if 3 < ty then mbDone s c mbBadCmd []
  else mbDone { s with sec := { s.sec with svn := s.sec.svn.set ty (max (s.sec.svn.getD ty 0) (min 64 (imgSvn s ty))) } } c mbOk []

/-- PROVISION (R475): with a valid token a new key and its signing request, and then the certificate. -/
def mbProvision (s : State) (c len : Nat) (tok : Bool) : State :=
  if rbit s .sec rSecFuse 0 then mbDone s c mbLocked []
  else if s.sec.life = 1 then mbDone s c mbRefused []
  else if !tok then mbDone s c mbBadSig []
  else if s.sec.hasKey then
    if 1024 < len then mbDone s c mbBadCmd []
    else mbDone { s with sec := { s.sec with cert := mbIn s c len, life := 1 } } c mbOk []
  else
    mbDone { s with keyNo := s.free + 1, free := s.free + 1, sec := { s.sec with hasKey := true } } c mbOk ((Config.certRequest s.free).take 4096)

end Sys2Proof.Machine
end

