-- ==== Sys2Proof/Machine/Power.lean ====
section
/-! DEFINITION. Input power, thermal levels, the power ladder, power-up and resets as commands (ch. 16). -/
namespace Sys2Proof.Machine

/-! ## Dies losing power (R41, R441, R448) -/

/-- A compute die powers off. Its instructions stay unfinished: steps that depend on them end under their limits, and a
sealed step ends as a commit failure (R41, R441). -/
def dieOff (s : State) (d : Nat) : State :=
  let s2 := dieLose (sealedLost s d) d
  showDies { s2 with diePower := s2.diePower &&& ~~~(dieBit d) }

/-- RAIL_FAULT: of a compute die, which is then in eclipse, or of the hub (4), which powers the module off (R441, R386). -/
def opRailFault (die rail : Nat) (s : State) : State :=
  if s.pwr = .off then s
  else
    let s1 := ibi (raise s .pwrRail (if die < 4 then whDie die else whHub) 0 [a8 rail]) 2
    if die < 4 then
      dieOff { s1 with pw := { s1.pw with railOff := s1.pw.railOff ||| dieBit die, dieEcl := s1.pw.dieEcl ||| dieBit die } } die
    else powerOff s1

/-- RAIL_FAULT (R441). -/
def execRailFault (die : Fin 5) (rail : BitVec 8) (s : State) : Host.Outcome State Fault Refusal :=
  run [] (opRailFault die rail.toNat) s

/-! ## Input power (R440, R442, R511) -/

/-- INPUT_EXCURSION into a warning range, with the lowest or highest voltage seen, in mV (R440). -/
def opInputExcursion (mv : Nat) (s : State) : State :=
  if s.pwr ≠ .off ∧ ((36000 ≤ mv ∧ mv < 40000) ∨ (60000 < mv ∧ mv ≤ 64000)) then
    ibi (raise (cnt s .pwr rPwrInputExc) .pwrInput whHub 0 [a16 mv]) 2
  else s

/-- INPUT_EXCURSION (R440). -/
def execInputExcursion (mv : BitVec 16) (s : State) : Host.Outcome State Fault Refusal := run [] (opInputExcursion mv.toNat) s

/-- INPUT_POWER_LOSS (R440). -/
def opInputPowerLoss (s : State) : State := if s.pwr = .off then s else powerOff s

/-- INPUT_POWER_LOSS (R440). -/
def execInputPowerLoss (s : State) : Host.Outcome State Fault Refusal := run [] opInputPowerLoss s

/-- POWER_ON: power-on begins at B0, once PWR_EN has mated (R457, R511). -/
def opPowerOn (s : State) : State := if s.pwr = .off ∧ s.pw.enabled then bootStart s 0 else s

/-- POWER_ON (R457). -/
def execPowerOn (s : State) : Host.Outcome State Fault Refusal := run [] opPowerOn s

/-- PWR_EN_MATE (R511). -/
def execPwrEnMate (s : State) : Host.Outcome State Fault Refusal :=
  run [] (fun t => { t with pw := { t.pw with enabled := true } }) s

/-- PWR_EN_OPEN: as if the input had fallen below 36 V (R511). -/
def opPwrEnOpen (s : State) : State := opInputPowerLoss { s with pw := { s.pw with enabled := false } }

/-- PWR_EN_OPEN (R511). -/
def execPwrEnOpen (s : State) : Host.Outcome State Fault Refusal := run [] opPwrEnOpen s

/-- PWR_CAP.WATTS in force: above 6,900 acts as 6,900, below 1,000 as 1,000. -/
def wattCap (s : State) : Nat := min 6900 (max 1000 (fld s .pwr rPwrCap 12 0))

/-- The sustained limit holds (R442). -/
def sustained (s : State) : Bool := s.pw.ovr

/-- POWER_SAMPLE: the 1 ms and the 100 µs average in W, and the input voltage in mV (R442). -/
def opPowerSample (w1 w100 mv : Nat) (s : State) : State :=
  if s.pwr = .off then s
  else
    let ovr := decide (wattCap s < w1)
    let hold := decide (7000 < w100) || (s.holdIssue && decide (w100 = 7000))
    let enter := (ovr && !s.pw.ovr) || (hold && !s.holdIssue)
    let quiet := match s.pw.capAt with
      | some t => decide (s.beacon < t + btSec)
      | none => false
    let s1 := setReg { s with holdIssue := hold, pw := { s.pw with ovr := ovr } } .pwr rPwrInput (w32 (mv * 65536 + min 65535 w1))
    if enter && !quiet then ibi (raise { s1 with pw := { s1.pw with capAt := some s1.beacon } } .pwrCap whHub 0 []) 2 else s1

/-- POWER_SAMPLE (R442). -/
def execPowerSample (w1 w100 mv : BitVec 16) (s : State) : Host.Outcome State Fault Refusal :=
  run [] (opPowerSample w1.toNat w100.toNat mv.toNat) s

/-! ## Clocks (R443–R446) -/

/-- Cap of a thermal level, in MHz (Table 16.3). -/
def levelCap (l : Nat) : Nat := if l = 0 then 1200 else if l = 1 then 1000 else 800

/-- CLK_STATUS.FCAP of every die: the lower of its thermal cap and the power cap (R444). -/
def showCaps (s : State) : State :=
  (List.range 4).foldl (fun t d => setFld t (.clk d) rClkStatus 10 0 (min (levelCap (fld t (.clk d) rClkStatus 18 16)) t.pw.cap)) s

/-- POWER_CAP_STEP: every 100 µs the cap falls above the limit and rises below 97% of it (R442). -/
def opPowerCapStep (s : State) : State :=
  if (tmAt s .capStep).getD (100 * btUs) ≤ s.beacon then
    let w := fld s .pwr rPwrInput 15 0
    let c := if sustained s then max 400 (s.pw.cap - 25) else if w * 100 < 97 * wattCap s then min 1200 (s.pw.cap + 25) else s.pw.cap
    tmArm (showCaps { s with pw := { s.pw with cap := c } }) .capStep (100 * btUs)
  else s

/-- POWER_CAP_STEP (R442). -/
def execPowerCapStep (s : State) : Host.Outcome State Fault Refusal := run [] opPowerCapStep s

/-! ## Thermal levels (R446–R449) -/

/-- Level of Table 16.3 at a temperature (0.25 °C), from the present level. -/
def thermLevel (old : Nat) (t : Int) : Nat :=
  let up := if 420 ≤ t then 3 else if 400 ≤ t then 2 else if 380 ≤ t then 1 else 0
  let stay := if 408 ≤ t then 3 else if 388 ≤ t then 2 else if 368 ≤ t then 1 else 0
  max up (min old stay)

/-- A temperature in whole °C as an 8-bit register field. -/
def tempField (t : Int) : Nat := (t / 4 % 256).toNat

/-- A register field as a temperature in °C. -/
def fieldTemp (v : Nat) : Int := sextI 8 v

/-- EVT_THERM_LEVEL with the level, at most once a second per die, with the latest level (R446). -/
def levelReport (s : State) (d level : Nat) : State :=
  let x := smGet (fun _ => (0, none)) s.pw.level d
  let free := match x.2 with
    | some b => decide (b + btSec ≤ s.beacon)
    | none => true
  if level ≠ x.1 && free then
    ibi (raise { s with pw := { s.pw with level := smPut (fun _ => (0, none)) s.pw.level d (level, some s.beacon) } } .thermLevel
      (if d < 4 then whDie d else whHub) 0 [a8 level]) 1
  else s

/-- What the entry to a level of a die brings: the health score and flicker at D2, EVT_THERM_CRIT at D3 (R391, R396, R447). -/
def levelEnter (s : State) (d old new : Nat) : State :=
  let s1 := if old < 2 ∧ 2 ≤ new then flicker (health s 18) fkTherm else s
  if old < 3 ∧ 3 ≤ new then ibi (raise s1 .thermCrit (whDie d) 0 []) 1 else s1

/-- The coldest reading of a sample (0.25 °C). -/
def coldest (t : Int) (us : List Int) : Int := us.foldl min t

/-- The alarm of a sensor below −20 °C of die `d` or of the hub (4), whose coldest reads `t`, as it falls below (R476). -/
def coldAlarm (s : State) (d : Nat) (t : Int) : State :=
  let b : BitVec 5 := BitVec.ofNat 5 (2 ^ d)
  if t < -80 then
    let s1 := { s with pw := { s.pw with cold := s.pw.cold ||| b } }
    if s.pw.cold.getLsbD d then s1 else alarm s1 alTemp t
  else { s with pw := { s.pw with cold := s.pw.cold &&& ~~~b } }

/-- THERMAL_SAMPLE of die `d` (4: the hub's own sensors) at its junction temperature, with the temperatures of its units
(region, unit, 0.25 °C) (R135, R446, R449). -/
def opThermalSample (d : Nat) (t : Int) (units : List (Nat × Nat × Int)) (s : State) : State :=
  if s.pwr = .off ∨ s.tripped ∨ (d < 4 ∧ !s.diePower.getLsbD d) then s
  else if d < 4 then
    let old := fld s (.clk d) rClkStatus 18 16
    let new := thermLevel old t
    let s1 := setFld (setFld s (.clk d) rClkStatus 31 24 (tempField t)) (.clk d) rClkStatus 18 16 new
    let s2 := thrReport (levelReport (levelEnter s1 d old new) d new) (128 + d) (min 2 new)
    let s3 := units.foldl (fun x u => unitTemp x (4 * d + u.1) u.2.1 u.2.2.toNat) (showCaps s2)
    coldAlarm s3 d (coldest t (units.map (fun u => u.2.2)))
  else
    let new := thermLevel s.pw.hubLevel t
    let s1 := setFld { s with pw := { s.pw with hubLevel := new } } .pwr rPwrTherm 31 24 (tempField t)
    coldAlarm (levelReport s1 4 new) 4 t

/-- THERMAL_SAMPLE (R446). -/
def execThermalSample (d : Fin 5) (t : Int) (units : List (Fin 4 × Fin 66 × Int)) (s : State) : Host.Outcome State Fault Refusal :=
  run [] (opThermalSample d t (units.map (fun u => (u.1.val, u.2.1.val, u.2.2)))) s

/-- The sensors of a die, or the hub's, last read 110 °C or more. -/
def atTrip (s : State) (d : Nat) : Bool :=
  decide ((110 : Int) ≤ fieldTemp (if d < 4 then fld s (.clk d) rClkStatus 31 24 else fld s .pwr rPwrTherm 31 24))

/-- THERMAL_TRIP: 110 °C for 1 ms power off every compute die and the lasers, whatever the policy for TEMP selects; the
alarm follows (R448, R476). -/
def opThermalTrip (d : Nat) (s : State) : State :=
  if s.pwr = .off ∨ s.tripped ∨ !atTrip s d then s
  else
    let t := fieldTemp (if d < 4 then fld s (.clk d) rClkStatus 31 24 else fld s .pwr rPwrTherm 31 24)
    let s1 := (List.range 4).foldl (fun x k => if x.diePower.getLsbD k then dieOff x k else x) s
    let s2 := (List.range 4).foldl (fun x k => setFld x (.clk k) rClkStatus 18 16 4) s1
    let s3 := { s2 with tripped := true, pw := { s2.pw with target := s2.pwr.code, req := none, stop := false } }
    let s4 := (List.range 6).foldl linkDark s3
    alarm (ibi (raise s4 .thermTrip (if d < 4 then whDie d else whHub) 0 []) 1) alTemp (4 * t)

/-- THERMAL_TRIP (R448). -/
def execThermalTrip (d : Fin 5) (s : State) : Host.Outcome State Fault Refusal := run [] (opThermalTrip d) s

/-- COOLANT_CHECK: inlet and outlet averages in 0.25 °C (R449). -/
def opCoolantCheck (inlet outlet : Int) (s : State) : State :=
  if s.pwr = .off then s
  else
    let hot := decide (160 < inlet) || decide (inlet + 40 < outlet)
    let s1 := setFld (setFld s .pwr rPwrTherm 23 16 (tempField inlet)) .pwr rPwrTherm 15 8 (tempField outlet)
    raiseIf (hot && !s.pw.coolant) { s1 with pw := { s1.pw with coolant := hot } } .coolant whHub 0 []

/-- COOLANT_CHECK (R449). -/
def execCoolantCheck (inlet outlet : Int) (s : State) : Host.Outcome State Fault Refusal := run [] (opCoolantCheck inlet outlet) s

/-! ## The ladder (R450–R456) -/

/-- The state of a code of Table 16.8. -/
def pwrOf (c : Nat) : PwrSt := match c with
  | 0 => .run
  | 1 => .dim
  | 2 => .dusk
  | 3 => .shade
  | _ => .dark

/-- The wake timer as PWR_WAKE has it, from the entry into the low state (R456, R463). -/
def wakeArm (s : State) : State :=
  let ms := (regAt s .pwr rPwrWake).toNat
  let s1 := tmOff s .wake
  if ms = 0 then s1 else { s1 with timers := (.wake, s.pw.lowAt + ms * btMs) :: s1.timers }

/-- A low state is entered: its wake timer starts (R456). -/
def lowEnter (s : State) : State := wakeArm { s with pw := { s.pw with lowAt := s.beacon } }

/-- The Ethernet ports go down; a port that was up shows DOWN. -/
def portDown (s : State) (p : Nat) : State :=
  if rbit s (.eth p) rEthStatus 0 then setFld (setFld s (.eth p) rEthStatus 0 0 0) (.eth p) rEthStatus 1 1 1 else s

/-- Save the band table to flash (R354). -/
def bandSave (s : State) : State := { s with sec := { s.sec with bands := s.bands } }

/-- Entry to shade: dies off, links and ports down, the band table saved (R354, R450, R454). -/
def enterShade (s : State) : State :=
  let s1 := (List.range 4).foldl dieClear (bandSave s)
  portDown (portDown ((List.range 6).foldl linkDark (showDies { s1 with pwr := .shade, diePower := 0 })) 0) 1

/-- The fast tier loses its contents (R455). -/
def fastLost (s : State) : State :=
  { s with mem := s.mem.filter (fun e => decide (0x28000000000 ≤ e.1)), poison := s.poison.filter (fun k => decide (0x28000000000 ≤ 32 * k)) }

/-- Reach a deeper state. -/
def enterState (s : State) (c : Nat) : State :=
  match c with
  | 1 => { s with pwr := .dim }
  | 2 => lowEnter { s with pwr := .dusk }
  | 3 => lowEnter (enterShade s)
  | _ => lowEnter (fastLost { s with pwr := .dark, pw := { s.pw with dark := 0 } })

/-- Leaving dark: the beacon takes up the time spent there, latched alarms are applied before any hub core resumes, and
stacks in full training raise EVT_MEM_RETRAIN (R193, R455, R476). -/
def leaveDark (s : State) (train : BitVec 32) : State :=
  let s1 := { s with pwr := .shade, beacon := s.beacon + s.pw.dark, pw := { s.pw with dark := 0, train := train } }
  alarmsLatched ((setBits 32 train.toNat).foldl (fun t k => raise t .memRetrain (whHc k) 0 []) s1)

/-- Leaving shade for dusk or above: the dies have power, the lasers are on (R454). -/
def leaveShade (s : State) (c : Nat) : State :=
  (List.range 6).foldl linkWaitLight (showDies { s with pwr := pwrOf c, diePower := ~~~s.pw.railOff })

/-- Reach a shallower state at once. -/
def exitState (s : State) (c : Nat) (train : BitVec 32) : State :=
  let s1 := if s.pwr = .dark then leaveDark s train else s
  if !ladder s1 then s1
  else
    let s2 := if s1.pwr = .shade ∧ c < 3 then leaveShade s1 c else { s1 with pwr := pwrOf c }
    let s3 := if c = 0 then { s2 with pw := { s2.pw with idleAt := s2.beacon } } else s2
    if c < 2 then tmOff s3 .wake else s3

/-- The transition is at its end: a request that waits takes effect (R452). -/
def pwrSettle (s : State) : State :=
  if s.pwr.code = s.pw.target ∧ !s.pw.stop ∧ ladder s then
    match s.pw.req with
    | some t => pwrTake { s with pw := { s.pw with req := none } } t
    | none => s
  else s

/-- PWR_STATE_ENTERED: a stage of an entry ends one state deeper, or an exit ends at its target. `train` names the stacks
that leave dark to be trained in full. -/
def opPwrStateEntered (train : BitVec 32) (s : State) : State :=
  if s.tripped ∨ !ladder s then s
  else
    let c := s.pwr.code
    let t := s.pw.target
    if s.pw.stop ∧ c < 4 ∧ pwrRefuse s (c + 1) = 0 then
      pwrSettle (enterState { s with pw := { s.pw with stop := false } } (c + 1))
    else
      let s1 := { s with pw := { s.pw with stop := false } }
      if c < t then
        if pwrRefuse s1 (c + 1) = 0 then pwrSettle (enterState s1 (c + 1))
        else pwrSettle (pwrRefused { s1 with pw := { s1.pw with target := 0 } } (pwrRefuse s1 (c + 1)))
      else if t < c then pwrSettle (exitState s1 t train)
      else s1

/-- PWR_STATE_ENTERED (R450). -/
def execPwrStateEntered (train : BitVec 32) (s : State) : Host.Outcome State Fault Refusal := run [] (opPwrStateEntered train) s

/-- A wake source of the present state (Table 16.4). -/
def wakes (s : State) (w : WakeSrc) : Bool :=
  match s.pwr with
  | .dim => decide (w ≠ .management)
  | .dusk => decide (w ≠ .issue) && decide (w ≠ .management)
  | .shade => decide (w = .management) || decide (w = .i3c) || decide (w = .timer)
  | .dark => decide (w = .i3c) || decide (w = .timer)
  | _ => false

/-- WAKE_SOURCE: a wake source of the present state, or one that stops an entry (R452). -/
def opWakeSource (w : WakeSrc) (s : State) : State := if wakes s w then wake s else s

/-- WAKE_SOURCE (R452). -/
def execWakeSource (w : WakeSrc) (s : State) : Host.Outcome State Fault Refusal := run [] (opWakeSource w) s

/-- The wake timer is due; in dark the wake logic counts its time. -/
def wakeDue (s : State) : Bool :=
  match tmAt s .wake with
  | some d => decide (d ≤ s.beacon + s.pw.dark)
  | none => false

/-- WAKE_TIMER (R456). -/
def opWakeTimer (s : State) : State := if wakeDue s then wake (tmOff s .wake) else s

/-- WAKE_TIMER (R456). -/
def execWakeTimer (s : State) : Host.Outcome State Fault Refusal := run [] opWakeTimer s


/-- The engines have been idle for DIM_IDLE µs, where 0 acts as 1 (R453, Table 16.8). -/
def dimDue (s : State) : Bool :=
  enginesIdle s && decide (s.pw.idleAt + max 1 (fld s .pwr rPwrCtl 15 0) * btUs ≤ s.beacon)

/-- AUTODIM_IDLE: DIM_IDLE µs of idle engines have passed (R453). -/
def opAutodimIdle (s : State) : State :=
  if decide (s.pwr = .run) && decide (s.pw.target = 0) && !s.tripped && rbit s .pwr rPwrCtl 16 && dimDue s then
    { s with pw := { s.pw with target := 1 } }
  else s

/-- AUTODIM_IDLE (R453). -/
def execAutodimIdle (s : State) : Host.Outcome State Fault Refusal := run [] opAutodimIdle s

/-- MEM_RETRAIN_DONE: a stack's full training after dark has ended (R455). -/
def opMemRetrainDone (k : Nat) (s : State) : State :=
  { s with pw := { s.pw with train := s.pw.train &&& ~~~(BitVec.ofNat 32 (2 ^ k)) } }

/-- MEM_RETRAIN_DONE (R455). -/
def execMemRetrainDone (k : Fin 32) (s : State) : Host.Outcome State Fault Refusal := run [.hc k] (opMemRetrainDone k) s

/-- BAND_TABLE_SAVE: every hour (R354). -/
def opBandTableSave (s : State) : State :=
  if (tmAt s .band).getD (60 * btMinute) ≤ s.beacon then tmArm (bandSave s) .band (60 * btMinute) else s

/-- BAND_TABLE_SAVE (R354). -/
def execBandTableSave (s : State) : Host.Outcome State Fault Refusal := run [] opBandTableSave s

/-! ## Die degrade (R389) -/

/-- A die enters (0) or leaves (1) degrade: EVT_DIE_DEGRADE with the direction (R389). -/
def degradeEvent (s : State) (d dir : Nat) : State := raise s .dieDegrade (whDie d) 0 [a8 dir]

/-- A die enters degrade: the module's unsealed steps are abandoned and it leaves its step group (R389). -/
def dieDegradeGo (s : State) (d : Nat) : State :=
  if s.pw.degraded.getLsbD d then s
  else
    let s1 := abandonAll s 6
    let s2 := { s1 with pw := { s1.pw with degraded := s1.pw.degraded ||| dieBit d, left := s1.sess.isSome || rbit s1 .coord rCoordLogical 31 } }
    degradeEvent (showDies s2) d 0

/-- A die leaves degrade. -/
def dieRestoreGo (s : State) (d : Nat) : State :=
  if s.pw.degraded.getLsbD d then degradeEvent (showDies { s with pw := { s.pw with degraded := s.pw.degraded &&& ~~~(dieBit d) } }) d 1
  else s

/-- DIE_RESET_DONE: the die's self-test has ended, and it returns to service or stays degraded (R459). -/
def opDieResetDone (d : Nat) (ok : Bool) (s : State) : State :=
  if s.pw.dieRst.getLsbD d ∧ tmDue s (.dieReset d) then
    let s1 := tmOff { s with pw := { s.pw with dieRst := s.pw.dieRst &&& ~~~(dieBit d) } } (.dieReset d)
    if ok then showDies s1 else dieDegradeGo (showDies s1) d
  else s

/-- DIE_RESET_DONE (R459). -/
def execDieResetDone (d : Fin 4) (ok : Bool) (s : State) : Host.Outcome State Fault Refusal := run [] (opDieResetDone d ok) s

/-! ## Power-up (R457, R458) -/

/-- The boot stops: FAILED with its cause (R457). -/
def bootFail (s : State) (err : Nat) : State :=
  let s1 := tmOff (tmOff { s with pw := { s.pw with stage := 15, err := err } } .phase) .stage
  ibi (raise s1 .bootFail whHub 0 []) 4

/-- The next phase starts, with its bound from the start of boot (Table 16.5). -/
def bootNext (s : State) (p : Nat) : State :=
  let s1 := { s with pw := { s.pw with stage := p }, timers := (.phase, phaseBound p * btMs) :: s.timers.filter (fun x => x.1 != .phase) }
  ibi s1 4

/-- End of B5: dies powered and tested, failed units in eclipse, failed dies in degrade (R458, R389). -/
def bootDies (s : State) (units : List (Nat × Nat)) (dies : BitVec 4) : State :=
  let s1 := { s with diePower := ~~~s.pw.railOff }
  let s2 := (List.range 4).foldl (fun t d => if dies.getLsbD d then dieDegradeGo t d else dieRestoreGo t d) s1
  units.foldl (fun t u => eclipseUnit t u.1 u.2) (showDies s2)

/-- End of B7: the module is in dusk and READY, with the decode mode locked (R457, R462, R486). -/
def bootReady (s : State) : State :=
  let s1 := setFld s .regdec rRegdecCtl 1 1 1
  let s2 := tmOff { s1 with pwr := .dusk, pw := { s1.pw with stage := 8, target := 2 } } .phase
  lowEnter (ibi (raise s2 .bootReady whHub 0 []) 4)

/-- BOOT_PHASE_END: phase `ph` ends. B1 and B6 read the copies A and B of two image types from flash; B5 has found units
and dies that failed their self-test (R457, R467, R468). -/
def opBootPhaseEnd (ph : Nat) (imgs : List ((List Byte × List Byte) × (List Byte × List Byte))) (units : List (Nat × Nat)) (dies : BitVec 4)
    (s : State) : State :=
  if s.pwr ≠ .boot then s
  else if ph = 4 then
    if 3 ≤ s.pw.stage ∧ s.pw.stage < 8 ∧ !s.pw.b4 then tmOff { s with pw := { s.pw with b4 := true } } .stage else s
  else if ph ≠ s.pw.stage then s
  else match ph with
  | 0 => bootNext s 1
  | 1 => match imgLoad s 0 imgs with
    | some t => bootNext t 2
    | none => bootFail s 1
  | 2 => bootNext { s with timers := (.stage, phaseBound 4 * btMs) :: s.timers } 3
  | 3 => bootNext s 5
  | 5 => bootNext (bootDies s units dies) 6
  | 6 => match imgLoad s 2 imgs with
    | some t => bootNext t 7
    | none => bootFail s 1
  | 7 => if s.pw.b4 then bootReady s else s
  | _ => s

/-- BOOT_PHASE_END (R457). -/
def execBootPhaseEnd (ph : Fin 8) (imgs : List ((List Byte × List Byte) × (List Byte × List Byte))) (units : List (Fin 16 × Fin 66))
    (dies : BitVec 4) (s : State) : Host.Outcome State Fault Refusal :=
  run [] (opBootPhaseEnd ph imgs (units.map (fun u => (u.1.val, u.2.val))) dies) s

/-- BOOT_PHASE_TIMEOUT: a phase passed its bound: in training of memory (ERR 2), in the self-test (3), or otherwise (4). -/
def opBootPhaseTimeout (s : State) : State :=
  if s.pwr = .boot ∧ (tmDue s .phase ∨ tmDue s .stage) then
    bootFail s (if tmDue s .stage then 4 else if s.pw.stage = 3 then 2 else if s.pw.stage = 5 then 3 else 4)
  else s

/-- BOOT_PHASE_TIMEOUT (R457). -/
def execBootPhaseTimeout (s : State) : Host.Outcome State Fault Refusal := run [] opBootPhaseTimeout s

/-! ## Resets (R459, R461) -/

/-- RESET_N held low for 1 ms (R459). -/
def execResetN (s : State) : Host.Outcome State Fault Refusal := run [] moduleReset s

/-- JOB_RESET_FORCED: 1 s has passed without a commit (R461). -/
def opJobResetForced (s : State) : State :=
  match s.pw.jobWait with
  | some r =>
    if tmDue s .jobReset then
      let n := ((s.steps.find? (fun x => decide (x.st = .sealed))).map (fun x => x.n)).getD 0
      jobResetGo (raise s .resetForced whHub n []) r
    else s
  | none => s

/-- JOB_RESET_FORCED (R461). -/
def execJobResetForced (s : State) : Host.Outcome State Fault Refusal := run [] opJobResetForced s

/-- The watchdog restarts with every write of PWR_WDOG (R461). -/
def wdogArm (s : State) : State :=
  let ms := fld s .pwr rPwrWdog 15 0
  if ms = 0 then tmOff s .wdog else tmArm s .wdog (ms * btMs)

/-- WATCHDOG_EXPIRE (R461). -/
def opWatchdogExpire (s : State) : State := if tmDue s .wdog then moduleReset s else s

/-- WATCHDOG_EXPIRE (R461). -/
def execWatchdogExpire (s : State) : Host.Outcome State Fault Refusal := run [] opWatchdogExpire s

/-- The bits of PWR_RESET as written: a module reset takes precedence over a job or die reset (R461, Table 16.8). -/
def pwrResetWrite (s : State) (v : Nat) : State :=
  if bitAt v 0 then moduleReset s
  else
    let s1 := if bitAt v 1 then jobResetStart s false else s
    (List.range 4).foldl (fun t d => if bitAt v (2 + d) then dieResetStart t d else t) s1

end Sys2Proof.Machine
end

