-- ==== Sys2Proof/Machine/Commit.lean ====
section
/-! DEFINITION. The page-set flip and commit of a sealed step (R42, R302, R307, R377), the fold record and its compare
(R355–R358), and the end of a collective (R339). -/
namespace Sys2Proof.Machine

/-! ## Folds (R356–R358) -/

/-- Step number and group of a fold compare. -/
def foldGroupNo (s : State) : Nat := s.foldGrp.getD 0

/-- The compare of fold step m has passed (R357); a group of more than one member also vouches for the reflection's
comparison (R379). -/
def foldPass (s : State) (m : Nat) (group : Bool) : State :=
  let s1 := setReg { s with foldBusy := none, foldPassed := if group then some m else s.foldPassed } .chk rChkFoldLast (BitVec.ofNat 32 m)
  let s2 := { s1 with snap := s1.snap.map (fun n => if n.step = m then { n with fold := true } else n) }
  reflCompare s2 m

/-- The block of a compare: row 0 the record, row 1 its complement (R357). -/
def foldRows (f : Fold) : List Byte := f.bytes ++ f.bytes.map (fun b => ~~~b)

/-- The module's record as CHK_FOLD_REC holds it. -/
def foldRecShown (s : State) : List Byte := (List.range 16).flatMap (fun w => leBytes 4 (regAt s .chk (rChkFoldRec + 4 * w)).toNat)

/-- The OR ALLREDUCE over the fold group: an INT8 block of 2 rows by 64 columns of no step, collective id
0x8000_0000 + m. -/
def foldColl (s : State) (m : Nat) (ms : List Nat) (r : Nat) (rows : List Byte) : Coll :=
  let d : Desc := { src := 0, base := 0, sb := 0, tensor := 0, fmt := Fmt.code .int8, scaling := false, axis := false, hint := 0, zpm := 0,
                    rows := 2, cols := 64, scd := 0, zp := 0, kind := 0, fgroup := 0, est := 0xFFFF, blk0 := 0 }
  { no := s.opNo, q := 0, step := 0, op := 0, red := 3, sparse := false, satm := false, rnd := 0, members := ms, rank := r, root := 0,
    collid := 0x80000000 + m % 0x80000000, first := 0, nblk := 1, sd := d, dd := d, fin := [], parts := [], sent := [], passes := 0,
    status := 0, fold := some (m, rows) }

/-- Start the compare of step m, or let it pass at once: a group of one, or none VALID. A VALID group that does not hold
this module cannot compare, and sealing waits (R338, R357). -/
def foldStart (s : State) (m : Nat) (rows : List Byte) : State :=
  match s.foldGrp with
  | none => foldPass s m false
  | some g =>
    match grpMembers s g with
    | none => { s with foldBusy := some m }
    | some ms =>
      match rankIn s ms with
      | none => { s with foldBusy := some m }
      | some r =>
        if ms.length = 1 then foldPass s m false
        else collBeginAll { s with foldBusy := some m, opNo := s.opNo + 1 } (foldColl s m ms r rows)

/-- The flip of a fold step: the record is shown, kept for the buddy's, and compared (R356, R357, R379). -/
def foldFlip (s : State) (n : Nat) : State :=
  if !isFoldStep s n then s
  else
    let f : Fold := { s.foldA with step := n }
    let s1 := (List.range 16).foldl (fun t w => setReg t .chk (rChkFoldRec + 4 * w) (BitVec.ofNat 32 (leAt f.bytes (4 * w) 4))) s
    let s2 := if s1.buddy.isSome then { s1 with reflWard := s1.reflWard ++ [(n, { s.foldB with step := n })] } else s1
    foldStart s2 n (foldRows f)

/-- Every byte of row 0 XOR row 1 is 0xFF. -/
def rowsPass (l : List Byte) : Bool := (List.range 64).all (fun k => (l.getD k 0) ^^^ (l.getD (64 + k) 0) == 0xFF)

/-- A failed compare: EVT_FOLD_MISMATCH with the group and the own record, HALT, and a snapshot of the step aborts
(R358, R407). -/
def foldMiss (s : State) (m : Nat) : State :=
  let rec_ := foldRecShown s
  let s1 := setFld (setFld { s with foldBusy := none } .chk rChkFoldStatus 1 1 1) .chk rChkFoldStatus 0 0 1
  let s2 := raise s1 .foldMismatch whHub m (a16 (foldGroupNo s) :: (List.range 8).map (fun k => a64 (leAt rec_ (8 * k) 8)))
  if s2.snap.any (fun n => decide (n.step = m)) then snapAbort s2 abFold else s2

/-- The fold's collective has ended: it passed, failed, or starts again (R357, R358). -/
def foldEnd (s : State) (c : Coll) (m : Nat) (rows : List Byte) : State :=
  let st := collStat s c
  let s1 := dropColl s c
  if s1.foldBusy ≠ some m then s1
  else if st ≠ 0 then foldStart s1 m (foldRecShown s1 ++ (foldRecShown s1).map (fun b => ~~~b))
  else if rowsPass rows then foldPass s1 m true
  else foldMiss s1 m

/-! ## The end of a collective (R339) -/

/-- An XFER.COLL that its descriptor, group or limits refused: no collective runs for it. -/
def collRefused (s : State) : Option EngOp :=
  s.ops.find? (fun o => decide (o.op = .xferColl) && decide (o.phase = .sent) && decide (o.status ≠ 0))

/-- COLL_COMPLETE: collective k of those in flight ends here; 16 names an XFER.COLL that was refused as it started. -/
def opCollComplete (k : Nat) (s : State) : State :=
  if k = 16 then
    match collRefused s with
    | some o => kick (completeOp s o o.status)
    | none => s
  else
    match s.colls[k]? with
    | none => s
    | some c =>
      if !collEnded s c then s
      else
        match c.fold with
        | some (m, rows) => foldEnd s c m rows
        | none =>
          match s.ops.find? (fun o => decide (o.no = c.no)) with
          | some o => kick (completeOp (dropColl s c) o (collStat s c))
          | none => kick (dropColl s c)

/-- COLL_COMPLETE (R339). -/
def execCollComplete (k : Fin 17) (s : State) : Host.Outcome State Fault Refusal := run [.xlat] (opCollComplete k) s

/-! ## The flip (R42, R307, R377) -/

/-- Every UPD of the step has completed (R307). -/
def updsDone (s : State) (n : Nat) : Bool :=
  !s.ops.any (fun o => decide (o.step = n) && match o.eng with
    | .upd _ _ => true
    | _ => false)

/-- The buddy lets the ward flip (R43, R377): REFL_HAVE of this step, REFL_DONE of the step before, no resynchronization
under way. A ward without a buddy commits unmirrored. -/
def buddyAllows (s : State) (r : StepRec) : Bool :=
  s.buddy.isNone || (r.reflHave && decide (r.n ≤ s.reflDone + 1) && !s.resyncOut)

/-- The sealed step may flip. -/
def canFlip (s : State) (r : StepRec) : Bool :=
  decide (r.st = .sealed) && decide (r.n = s.commitN + 1) && updsDone s r.n && !s.stopIssue && !s.epochHold && buddyAllows s r

/-- The commit of step r: scale state, the page-set selector, the object COMMIT, EVT_STEP_COMMIT with NDET, the fold, a
snapshot that is due, and the wait for the buddy's REFL_DONE (R42, R196, R233, R356, R377, R394). -/
def commitStep (s : State) (r : StepRec) : State :=
  let s1 := sclCommit s r.n
  let s2 := { s1 with commitN := r.n, steps := s1.steps.filter (fun x => !decide (x.n = r.n)) }
  let s3 := raise (sysObj s2 oCommit r.n) .stepCommit whHub r.n [a8 (b2n r.ndet)]
  let s4 := foldFlip s3 r.n
  let s5 := snapAtFlip s4 r (isFoldStep s4 r.n && s4.foldBusy.isNone && !rbit s4 .chk rChkFoldStatus 0)
  let s6 := if s5.buddy.isSome then reflWait s5 else s5
  jobResetCommitted (kick s6)

/-- PAGE_SET_FLIP (R42). -/
def opPageSetFlip (s : State) : State :=
  match s.steps.find? (fun r => decide (r.st = .sealed)) with
  | some r => if canFlip s r then commitStep s r else s
  | none => s

/-- PAGE_SET_FLIP (R42). -/
def execPageSetFlip (s : State) : Host.Outcome State Fault Refusal := run [.hub, .upd] opPageSetFlip s

end Sys2Proof.Machine
end

