-- ==== Sys2Proof/Machine/Cert.lean ====
section
/-! DEFINITION. Certification runs (R386–R388) and the decay of the health score (R391). -/
namespace Sys2Proof.Machine

/-- WHERE of what is certified. -/
def whCert : CertWhat → Nat
  | .unit rg u => whU rg u
  | .die d => whDie d
  | .module => whHub

/-- Start the certification of a die or of the module (R386, R388). -/
def certStart (s : State) (w : CertWhat) : State :=
  { s with certs := s.certs.filter (fun c => !decide (c.what = w)) ++ [{ what := w, running := true, at_ := s.beacon + s.certSec * btSec }] }

/-- The eclipse ends: a unit becomes a free spare, a die returns to service, the module to dusk (R386–R388). -/
def certOut (s : State) (w : CertWhat) : State :=
  match w with
  | .unit rg u => uneclipse s rg u
  | .die d => showDies { s with pw := { s.pw with dieEcl := s.pw.dieEcl &&& ~~~(dieBit d) } }
  | .module => pwrRequest (setFld { s with eclipsed := false, stopIssue := false } .hlth rHlthFlags 1 1 0) 2

/-- A run passes: EVT_CERT_PASS with the bands it exercised, and the eclipse ends (R386). -/
def certPass (s : State) (w : CertWhat) (bands : Nat) : State :=
  certOut (raise { s with certs := s.certs.filter (fun c => !decide (c.what = w)) } .certPass (whCert w) 0 [a16 bands]) w

/-- The partner of a unit's run is free again (R387). -/
def partnerFree (s : State) : CertWhat → State
  | .unit rg u => setUnit s rg u { unitAt s rg u with partner := none }
  | _ => s

/-- A run fails: EVT_CERT_FAIL, the health score, and a repetition after RETRY minutes, for which a unit finds a partner
anew (R386, R387, R391). -/
def certFail (s : State) (c : Cert) : State :=
  let c1 := { c with running := false, at_ := s.beacon + s.certRetry * btMinute }
  let s1 := partnerFree { s with certs := s.certs.map (fun x => if x.what = c.what then c1 else x) } c.what
  health (raise s1 .certFail (whCert c.what) 0 []) 9

/-- A second free spare of the die, besides the partner (R387). -/
def secondSpare (s : State) (rg u : Nat) : Bool :=
  (dieSpares s (rg / 4)).any (fun k => decide (some k ≠ (unitAt s rg u).partner))

/-- CERT_RUN_END: certification k has run its SECONDS; `bands` are the temperature bands it exercised. A disagreement in
which the second spare agreed with the unit charges the partner with a prism mismatch (R387). -/
def opCertRunEnd (k : Nat) (res : CertRes) (bands : Nat) (s : State) : State :=
  match s.certs[k]? with
  | none => s
  | some c =>
    if !c.running ∨ s.beacon < c.at_ then s
    else
      match res with
      | .pass => certPass s c.what bands
      | .fail => certFail s c
      | .second b kind temp volt start =>
        match c.what with
        | .unit rg u =>
          if secondSpare s rg u then
            let p := (unitAt s rg u).partner.getD 0
            let rep : PrismRep := { idx := 82 * (p / 66) + p % 66, dig := 0, kind := kind, temp := temp, volt := volt, freq := islandFreq s (p / 66), start := start }
            certPass (prismMismatch s rep b) c.what bands
          else certFail s c
        | _ => s

/-- CERT_RUN_END (R386). -/
def execCertRunEnd (k : Nat) (res : CertRes) (bands : BitVec 16) (s : State) : Host.Outcome State Fault Refusal :=
  run [] (opCertRunEnd k res bands.toNat) s

/-- A failed certification repeats (R386); that of a unit starts as a first one does, or waits for a free spare (R387). -/
def certAgain (s : State) (c : Cert) : State :=
  match c.what with
  | .unit rg u => unitCertGo { s with certs := s.certs.filter (fun x => decide (x.what ≠ c.what)) } rg u
  | w => certStart s w

/-- CERT_RETRY_TIMER: a failed certification repeats (R386). -/
def opCertRetryTimer (k : Nat) (s : State) : State :=
  match s.certs[k]? with
  | none => s
  | some c =>
    if c.running ∨ s.beacon < c.at_ then s
    else certAgain s c

/-- CERT_RETRY_TIMER (R386). -/
def execCertRetryTimer (k : Nat) (s : State) : Host.Outcome State Fault Refusal := run [] (opCertRetryTimer k) s

/-- CERT_SPARE_AVAILABLE: a unit that waits for a free spare of its die starts its certification (R387). -/
def execCertSpareAvailable (rg : Fin 16) (u : Fin 66) (s : State) : Host.Outcome State Fault Refusal :=
  run [] (fun t => unitCertGo t rg u) s

/-! ## Decay (R391) -/

/-- 2^(−1/128) with 128 fraction bits. -/
def decayConst : Nat := 0xFE9E115C7B8F884BADD25995E79D2F09

/-- One decay of a penalty with 16 fraction bits. The rule gives no rounding of the product: which of its two neighbours is
kept is a free value. -/
def decay (k p : Nat) : Nat := if p = 0 then 0 else p * decayConst / 2 ^ 128 + b2n (Config.decayUp k p)

/-- HEALTH_DECAY: every 675 s (R391, R392). -/
def opHealthDecay (s : State) : State :=
  if (tmAt s .decay).getD (675 * btSec) ≤ s.beacon then
    let s1 := (List.range 22).foldl (fun t i =>
      setReg t .hlth (0x204 + 8 * i) (BitVec.ofNat 32 (decay s.free (regAt t .hlth (0x204 + 8 * i)).toNat))) s
    tmArm (setPenalty { s1 with free := s1.free + 1 } (decay s.free (regAt s .hlth rHlthP).toNat)) .decay (675 * btSec)
  else s

/-- HEALTH_DECAY (R391). -/
def execHealthDecay (s : State) : Host.Outcome State Fault Refusal := run [.hlth] opHealthDecay s

end Sys2Proof.Machine
end

