-- ==== Sys2Proof/Machine/Ctl.lean ====
section
/-! DEFINITION. CTL instructions: flow, step, slip group, beacon launch and counters (Table 7.3, R188–R192, R208–R210),
illegal words (R198) and the restart after abandonment (R174). -/
namespace Sys2Proof.Machine

/-- Entry address of a sequencer (Table 6.3). -/
def seqEntry (s : State) (q : Nat) : Nat := addr48 s (.clu q) rCluSeqEntryLo rCluSeqEntryHi / 16 * 16

/-- PTI_ILLEGAL: the sequencer halts at a word that does not decode, or that it cannot fetch (R198; log 24). -/
def opPtiIllegal (q : Nat) (s : State) : State :=
  if seqLive s q then
    match ptiFetch s (seqAt s q).pc with
    | some v =>
      match ptiDecode v with
      | .error _ => haltIllegal (fetched s q) q v
      | .ok _ => s
    | none =>
      haltIllegal (raiseIf (decide (accChk s (seqAt s q).pc false = some .dieAbsent)) s .dieAbsentAccess (whClu q)
        (seqAt s q).step []) q 0
  else s

/-- PTI_ILLEGAL (R198). -/
def execPtiIllegal (q : Fin 256) (s : State) : Host.Outcome State Fault Refusal :=
  run [.clu q] (opPtiIllegal q) s

/-- NOP performs no action (Table 7.3). -/
def execNop (q : Fin 256) (w : PtiWord) (s : State) : Host.Outcome State Fault Refusal :=
  run [.clu q] (ptiSelf .nop q w (fun t => selfDone t q w)) s

/-- Target of JMP and CALL: absolute, or PC-relative under MOD[0] (R208). -/
def jumpTarget (pc : Nat) (w : PtiWord) : Nat :=
  if w.mod.getLsbD 0 then (BitVec.ofNat 48 pc + w.imm).toNat else w.imm.toNat

/-- JMP: PC = target; a misaligned target halts (R208). -/
def opJmp (q : Nat) (w : PtiWord) (s : State) : State :=
  let t := jumpTarget (seqAt s q).pc w
  if t % 16 ≠ 0 then haltIllegal s q (ptiEncode .jmp w) else seqEnd (signal s q w) q t

/-- JMP (R208). -/
def execJmp (q : Fin 256) (w : PtiWord) (s : State) : Host.Outcome State Fault Refusal :=
  run [.clu q] (ptiSelf .jmp q w (opJmp q w)) s

/-- CALL: push PC + 16 and jump; a ninth CALL or a misaligned target halts (R208). -/
def opCall (q : Nat) (w : PtiWord) (s : State) : State :=
  let x := seqAt s q
  let t := jumpTarget x.pc w
  if t % 16 ≠ 0 ∨ 8 ≤ x.stack.length then haltIllegal s q (ptiEncode .call w)
  else seqEnd (signal (setSeq s q { x with stack := pcNext x.pc :: x.stack }) q w) q t

/-- CALL (R208). -/
def execCall (q : Fin 256) (w : PtiWord) (s : State) : Host.Outcome State Fault Refusal :=
  run [.clu q] (ptiSelf .call q w (opCall q w)) s

/-- RET: PC = pop; an empty stack halts (R208). -/
def opRet (q : Nat) (w : PtiWord) (s : State) : State :=
  let x := seqAt s q
  match x.stack with
  | [] => haltIllegal s q (ptiEncode .ret w)
  | t :: r => seqEnd (signal (setSeq s q { x with stack := r }) q w) q t

/-- RET (R208). -/
def execRet (q : Fin 256) (w : PtiWord) (s : State) : Host.Outcome State Fault Refusal :=
  run [.clu q] (ptiSelf .ret q w (opRet q w)) s

/-- HALT clears CLU_SEQ_CTL.RUN, and STATE becomes 0 (Table 7.3). -/
def opHalt (q : Nat) (w : PtiWord) (s : State) : State :=
  seqNext (setFld (signal s q w) (.clu q) rCluSeqCtl 0 0 0) q

/-- HALT (Table 7.3). -/
def execHalt (q : Fin 256) (w : PtiWord) (s : State) : Host.Outcome State Fault Refusal :=
  run [.clu q] (ptiSelf .halt q w (opHalt q w)) s

/-- CTL.STEP: STEP = sA[31:0] or IMM[31:0]; a sticky NDET is ORed into the new step too (R196; log 25). -/
def opCtlStep (q : Nat) (w : PtiWord) (s : State) : State :=
  let x := seqAt s q
  let n := (if wImmf w then w.imm.toNat else (sreg x w.opa.toNat).toNat) % u32Mod
  let s1 := setSeq s q { x with step := n }
  selfDone { s1 with steps := s.steps.map (fun r => if r.n = n then { r with ndet := r.ndet || x.ndet } else r) } q w

/-- CTL.STEP (Table 7.3). -/
def execCtlStep (q : Fin 256) (w : PtiWord) (s : State) : Host.Outcome State Fault Refusal :=
  run [.clu q] (ptiSelf .ctlStep q w (opCtlStep q w)) s

/-- CTL.SLIPG: SLIPG = IMM[3:0] (Table 7.3). -/
def execCtlSlipg (q : Fin 256) (w : PtiWord) (s : State) : Host.Outcome State Fault Refusal :=
  run [.clu q] (ptiSelf .ctlSlipg q w (selfSet q w (fun x => { x with slipg := w.imm.toNat % 16 }))) s

/-- Offset of a slip group; that of group 0 is always 0 (R188, R191). -/
def slipOfs (s : State) (die g : Nat) : Nat := if g = 0 then 0 else (regAt s (.bcn die) (0x40 + 8 * g)).toNat

/-- Slip is enabled for a group (R191). -/
def slipEn (s : State) (die g : Nat) : Bool := decide (g ≠ 0) && rbit s (.bcn die) (0x44 + 8 * g) 0

/-- A late BWAIT beyond BCN_OVR_TOL: the overrun counter, BCN_SLIP_MAX, the first event of the step attempt on the die
(R190), and the offset of a slip-enabled group (R191). `late` is L, `ahead` the arrival beacon less the target. -/
def overrun (s : State) (q late ahead : Nat) : State :=
  let die := q / 64
  let x := seqAt s q
  if late ≤ fld s (.bcn die) rBcnOvrTol 15 0 then s
  else
    let s1 := cnt s (.bcn die) rBcnOverrun
    let s2 := setReg s1 (.bcn die) rBcnSlipMax (w32 (max (regAt s1 (.bcn die) rBcnSlipMax).toNat (min u32Max late)))
    let s3 := setFld s2 (.bcn die) rBcnStatus 0 0 1
    let s4 := if slipEn s3 die x.slipg then
        setReg s3 (.bcn die) (0x40 + 8 * x.slipg) (w32 (max (slipOfs s3 die x.slipg) (min u32Max ahead))) else s3
    if s4.ovrSeen.contains (die, x.step, s.epoch) then s4
    else raise { s4 with ovrSeen := (die, x.step, s.epoch) :: s4.ovrSeen } .bcnOverrun (whClu q) x.step
      [a32 (min u32Max late)]

/-- BWAIT (R209): far targets are refused, late ones fire at once, others wait. -/
def opBwait (q : Nat) (w : PtiWord) (s : State) : State :=
  let x := seqAt s q
  let v := addSext48 (sreg x w.opa.toNat) w.imm.toNat
  let eff := (v + slipOfs s (q / 64) x.slipg) % 2 ^ 64
  if s.beacon < eff ∧ 2 ^ 34 < eff - s.beacon then selfFail .bwait q w 0x0C s
  else if eff ≤ s.beacon then
    selfDone (overrun s q (s.beacon - eff) ((s.beacon + 2 ^ 64 - v) % 2 ^ 64)) q w
  else setSeq s q { x with st := .beaconWait, bwait := some ⟨eff, if w.sigv then some w.sig.toNat else none⟩ }

/-- BWAIT (R209). -/
def execBwait (q : Fin 256) (w : PtiWord) (s : State) : Host.Outcome State Fault Refusal :=
  run [.clu q, .bcn (q.val / 64)] (ptiSelf .bwait q w (opBwait q w)) s

/-- BWAIT_FIRE: a waiting BWAIT fires once the beacon has reached its effective target (R188). -/
def opBwaitFire (q : Nat) (s : State) : State :=
  let x := seqAt s q
  match x.bwait with
  | some b =>
    if x.st = .beaconWait ∧ b.eff ≤ s.beacon ∧ dieIn s (q / 64) then
      let s1 := setSeq s q { x with bwait := none }
      seqNext (match b.sig with | some o => objSignal s1 (q / 64) o 1 | none => s1) q
    else s
  | none => s

/-- BWAIT_FIRE (R188). -/
def execBwaitFire (q : Fin 256) (s : State) : Host.Outcome State Fault Refusal :=
  run [.clu q] (opBwaitFire q) s

/-- BREAD: sD = the island's beacon value; sets NDET under DET = 1 (Table 7.3). -/
def opBread (q : Nat) (w : PtiWord) (s : State) : State :=
  selfSet q w (fun x => putS x w.opd.toNat (BitVec.ofNat 64 s.beacon)) (setNdet s q)

/-- BREAD (Table 7.3). -/
def execBread (q : Fin 256) (w : PtiWord) (s : State) : Host.Outcome State Fault Refusal :=
  run [.clu q] (ptiSelf .bread q w (opBread q w)) s

/-- The 64-bit counter a CTR.RD offset names, within the sequencer's reach: its own die and the hub (R210). -/
def ctrTarget (q off : Nat) : Option (Blk × Nat) :=
  match locate off with
  | some (b, o) =>
    if isCtrLo b o && (decide (0x10000000 ≤ off) || decide (off / 0x4000000 = q / 64)) then some (b, o) else none
  | none => none

/-- CTR.RD: LO then HI through the sequencer's latch; another offset gives status ADDR (R210, R482). -/
def opCtrRd (q : Nat) (w : PtiWord) (s : State) : State :=
  match ctrTarget q w.imm.toNat with
  | none => selfFail .ctrRd q w 0x11 s
  | some (b, o) =>
    let lo := regView s b o
    let s1 := setLatch s (seqPath q) b o
    let v := lo.toNat + (readHi s1 (seqPath q) b o).toNat * 4294967296
    selfSet q w (fun x => putS x w.opd.toNat (BitVec.ofNat 64 v)) (setNdet s1 q)

/-- CTR.RD (R210). -/
def execCtrRd (q : Fin 256) (w : PtiWord) (s : State) : Host.Outcome State Fault Refusal :=
  run [.clu q] (ptiSelf .ctrRd q w (opCtrRd q w)) s

/-- A sequencer that resumes after abandonment: predicates, descriptors and call stack cleared, scalars kept (R174). -/
def restartSeq (s : State) (q : Nat) (x : Seq) : Seq :=
  { x with p := 1, toPred := 0, pend := 0, d := [], stack := [], wait := none, bwait := none, pc := seqEntry s q,
           st := if seqRunBit s q then .running else .stopped, stopAtBoundary := false }

/-- SEQ_ABANDON_RESTART: every sequencer that restarts clears its state and resumes at its entry (R174). -/
def opSeqAbandonRestart (s : State) : State :=
  { s with seqs := (List.range 256).foldl (fun m q =>
      smUpd (fun _ => Seq.reset) m q (fun x => if x.st = .restarting then restartSeq s q x else x)) s.seqs }

/-- SEQ_ABANDON_RESTART (R174). -/
def execSeqAbandonRestart (s : State) : Host.Outcome State Fault Refusal := run [] opSeqAbandonRestart s

end Sys2Proof.Machine
end

