-- ==== Sys2Proof/Machine/Mma.lean ====
section
/-! DEFINITION. MMA instructions: issue, checks, windows, completion with class A handling, and gang modes (R102–R106,
R119, R127–R130, R147, R148, R215, R216). -/
namespace Sys2Proof.Machine

/-! ## Issue and gang modes -/

/-- Gang mode in force; 3 acts as APART (R102). -/
def gangNow (s : State) (q : Nat) : Nat := let m := fld s (.clu q) rCluGangNow 1 0; if m = 3 then 0 else m

/-- No MMA of the cluster is queued or runs. -/
def mmaIdle (s : State) (q : Nat) : Bool := !s.ops.any (fun o => match o.eng with | .mma c _ => c == q | _ => false)

/-- Issue an MMA to a member or the gang: TGT above 4 is a LIMIT (R216); none issues while a gang mode waits (R106). -/
def mmaIssue (op : PtiOp) (q : Nat) (w : PtiWord) (s : State) : State :=
  ptiIssue op q w (fun t =>
    if 4 < w.tgt.toNat then issueFail q (.mma q 0) op w 0x08 t
    else if t.gangReq.contains q then setSeq t q { seqAt t q with st := .queueStall }
    else enqueueOp q (.mma q w.tgt.toNat) op w t) s

/-- MMA.fp4 (R215). -/
def execMmaFp4 (q : Fin 256) (w : PtiWord) (s : State) : Host.Outcome State Fault Refusal :=
  run [.clu q] (mmaIssue .mmaFp4 q w) s
/-- MMA.fp8 (R215). -/
def execMmaFp8 (q : Fin 256) (w : PtiWord) (s : State) : Host.Outcome State Fault Refusal :=
  run [.clu q] (mmaIssue .mmaFp8 q w) s
/-- MMA.bf16 (R215). -/
def execMmaBf16 (q : Fin 256) (w : PtiWord) (s : State) : Host.Outcome State Fault Refusal :=
  run [.clu q] (mmaIssue .mmaBf16 q w) s
/-- MMA.t19 (R215). -/
def execMmaT19 (q : Fin 256) (w : PtiWord) (s : State) : Host.Outcome State Fault Refusal :=
  run [.clu q] (mmaIssue .mmaT19 q w) s
/-- MMA.f32 (R215). -/
def execMmaF32 (q : Fin 256) (w : PtiWord) (s : State) : Host.Outcome State Fault Refusal :=
  run [.clu q] (mmaIssue .mmaF32 q w) s

/-- CLU_APPLY asks for the mode in CLU_GANG (R106). -/
def gangApplyWrite (s : State) (q : Nat) : State :=
  { s with gangReq := if s.gangReq.contains q then s.gangReq else q :: s.gangReq }

/-- GANG_MODE_CHANGE: with all four members idle the mode in CLU_GANG comes into force (R106). -/
def opGangModeChange (q : Nat) (s : State) : State :=
  if s.gangReq.contains q && mmaIdle s q then
    setFld { s with gangReq := s.gangReq.filter (· != q) } (.clu q) rCluGangNow 1 0 (fld s (.clu q) rCluGang 1 0)
  else s

/-- GANG_MODE_CHANGE (R106). -/
def execGangModeChange (q : Fin 256) (s : State) : Host.Outcome State Fault Refusal :=
  run [.clu q] (opGangModeChange q) s

/-! ## Checks (R206, R216) -/

/-- Window origins in elements (Table 7.1). -/
def winRow (v : DWord) : Nat := 16 * bits v.toNat 19 0
def winCol (v : DWord) : Nat := 16 * bits v.toNat 39 20
def winK (v : DWord) : Nat := 16 * bits v.toNat 59 40

/-- Fields of the MMA word (Table 7.8). -/
def wTr (w : PtiWord) : Bool := w.mod.getLsbD 8
def wZc (w : PtiWord) : Bool := w.mod.getLsbD 9
def wI32 (w : PtiWord) : Bool := w.mod.getLsbD 10

/-- M, N and K: a field of 0 takes what is left of the tensor. -/
def mmaDims (w : PtiWord) (win : DWord) (dc da : Desc) : Nat × Nat × Nat :=
  let i := w.imm.toNat
  (if bits i 9 0 = 0 then dc.rows - winRow win else bits i 9 0,
   if bits i 18 10 = 0 then dc.cols - winCol win else bits i 18 10,
   if bits i 35 19 = 0 then da.cols - winK win else bits i 35 19)

/-- The formats form a row of Table 3.9 of the instruction's class (R86). -/
def mmaPair (op : PtiOp) (fa fb : Fmt) : Bool :=
  let nar := fun (f : Fmt) => f.scaled || f.isQ
  match op with
  | .mmaFp4 => nar fa && nar fb && decide (fa.width = 4) && decide (fb.width = 4)
  | .mmaFp8 => nar fa && nar fb && (decide (4 < fa.width) || decide (4 < fb.width))
  | .mmaBf16 => (decide (fa = .bf16) || decide (fa = .fp16)) && (decide (fb = .bf16) || decide (fb = .fp16) || nar fb)
  | .mmaT19 => decide (fa = .t19) && decide (fb = .t19)
  | .mmaF32 => decide (fa = .fp32) && decide (fb = .fp32)
  | _ => false

/-- Array output targets of Table 3.7. -/
def mmaOut (f : Fmt) : Bool := f.scaled || f.isQ || decide (f = .bf16) || decide (f = .fp16) || decide (f = .fp32)

/-- The INT32 rule of R85: integer operands without micro-scales. -/
def mmaInt (da db : Desc) (fa fb : Fmt) : Bool := fa.integral && fb.integral && !da.scaling && !db.scaling

/-- Widest N of the target (R119). -/
def mmaWidth (tgt mode : Nat) : Nat := if tgt < 4 then 64 else if mode = 1 then 128 else 256

/-- Units of the target: its cluster has one for each index (R133). -/
def mmaUnits (s : State) (q tgt : Nat) : Bool :=
  let ok := fun j => decide (mapOf s (q / 16) (4 * (q % 16) + j) < 66)
  if tgt < 4 then ok tgt else (List.range 4).all ok

/-- The status that refuses an MMA before it moves data, 0 for none (R105, R133, R206, R216). -/
def mmaRefuse (s : State) (o : EngOp) (tgt : Nat) (dc da db : Desc) (fc fa fb : Fmt) : Nat :=
  let (m, n, k) := mmaDims o.w o.sc dc da
  let tr := wTr o.w
  let bt := if tr then (fb.tile.2, fb.tile.1) else fb.tile
  let bdim := if tr then (db.cols, db.rows) else (db.rows, db.cols)
  let r := winRow o.sc
  let c := winCol o.sc
  let k0 := winK o.sc
  if tgt = 4 ∧ gangNow s o.q = 0 then 0x05
  else if !mmaUnits s o.q tgt then 0x06
  else if m = 0 ∨ 512 < m ∨ n = 0 ∨ mmaWidth tgt (gangNow s o.q) < n ∨ k = 0 ∨ 65536 < k then 0x08
  else if !mmaPair o.op fa fb || !mmaOut fc || (wSemi o.w ≠ 0 && (decide (o.op = .mmaT19) || decide (o.op = .mmaF32)))
      || (wI32 o.w && (!mmaInt da db fa fb || !(wSemi o.w == 0 || wSemi o.w == 5) || decide (fc ≠ .fp32))) then 0x0F
  else if r % fa.tile.1 ≠ 0 ∨ r % fc.tile.1 ≠ 0 ∨ c % bt.2 ≠ 0 ∨ c % fc.tile.2 ≠ 0 ∨ k0 % fa.tile.2 ≠ 0 ∨ k0 % bt.1 ≠ 0 then 0x09
  else if dc.rows < r + m ∨ dc.cols < c + n ∨ da.rows < r + m ∨ da.cols < k0 + k ∨ bdim.1 < k0 + k ∨ bdim.2 < c + n then 0x08
  else 0

/-! ## Operand values -/

/-- Integer codes of a block of an integer or offset-code tensor, zero points taken off, scales left out (R85). -/
def tileInts (s : State) (d : Desc) (f : Fmt) (i : Nat) (b : BlkVal) : List EV :=
  let o := tileOrg d f i
  if readsNan f b then List.replicate f.dense .nan
  else if b.h.isZero then List.replicate f.dense evZero
  else
    let sp := bitAt b.h.flags flSparse
    let codes := if sp then sparseDense f (bitAt b.h.flags flPat48) b.payload else unpack f.ebits b.payload
    let sd := if f.isQ && decide (d.zpm = 2) then scaleDesc s d.scd (b.h.step % 2) else ⟨0, false, 0, 0, 0⟩
    (List.range f.dense).map (fun k =>
      let r := k / f.tile.2
      let c := k % f.tile.2
      if b.h.vrows ≤ r ∨ b.h.vcols ≤ c then evZero
      else
        let v := codeVal f (codes.getD k 0)
        if f.isQ then evSub v (.fin false (qScale s d b.h.x sd (o.1 + r) (o.2 + c)).2 0) else v)

/-- A tensor with integer codes in place of values. -/
def intTensor (s : State) (t : TensorVal) : TensorVal :=
  { t with blks := t.blks.mapIdx (fun i b => (b.1, tileInts s t.d t.f i b.1)) }

/-- FP32 code of the scale of an integer operand along its K positions: that of the first whose block is neither ZERO nor
NAN, whose X is never consulted (R79, R85; log 44). -/
def intScale (s : State) (t : TensorVal) (ps : List (Nat × Nat)) : Nat :=
  (ps.findSome? (fun p =>
    match t.blks[(elemPos t.d t.f p.1 p.2).1]? with
    | some (b, _) =>
      if b.nan || b.h.headOnly then none
      else if t.f.isQ && decide (t.d.zpm = 2) then some (qScale s t.d b.h.x (scaleDesc s t.d.scd (b.h.step % 2)) p.1 p.2).1
      else some b.h.x
    | none => none)).getD f32One

/-- The element's micro-scale is 0x00 or its block is ZERO (R113, R114). -/
def zeroAt (t : TensorVal) (r c : Nat) : Bool :=
  if t.d.rows ≤ r ∨ t.d.cols ≤ c then true
  else
    let p := elemPos t.d t.f r c
    match t.blks[p.1]? with
    | some (b, _) =>
      !b.nan && (b.h.isZero ||
        (b.h.scaling && decide ((b.scales.getD (mbIdx t.f b.h.axis (p.2 / t.f.tile.2) (p.2 % t.f.tile.2)) 0) = 0)))
    | none => true

/-- B(k, n) of the operation in the stored tensor, by the window and the transposed read (R100, R215). -/
def bPos (o : EngOp) (k n : Nat) : Nat × Nat :=
  if wTr o.w then (winCol o.sc + n, winK o.sc + k) else (winK o.sc + k, winCol o.sc + n)

/-- The evaluation's view of the operands. -/
def mmaIn (s : State) (o : EngOp) (ta0 tb0 : TensorVal) (int : Bool) (m n k : Nat) : MmaIn :=
  let ta := if int then intTensor s ta0 else ta0
  let tb := if int then intTensor s tb0 else tb0
  { a := fun i j => if j < k then tvAt ta (winRow o.sc + i) (winK o.sc + j) else evZero
    b := fun j i => if j < k then tvAt tb (bPos o j i).1 (bPos o j i).2 else evZero
    za := fun i j => zeroAt ta0 (winRow o.sc + i) (winK o.sc + j)
    zb := fun j i => zeroAt tb0 (bPos o j i).1 (bPos o j i).2
    m := m, n := n, k := k, semi := wSemi o.w, passes := if o.op = .mmaF32 then wPass o.w else 1,
    f32 := decide (o.op = .mmaF32), rnd := rndOf (wRnd o.w), ovf := wOvf o.w, int := int }

/-- Dense K of a stationary tile (Table 4.1): twice as much when the stationary blocks are sparse. -/
def mmaKt (op : PtiOp) (tb : TensorVal) (tr : Bool) : Nat :=
  let sparse := !tr && tb.blks.any (fun b => !b.1.nan && !b.1.h.headOnly && bitAt b.1.h.flags flSparse)
  let base := if op = .mmaFp4 then 128 else 64
  if sparse && op != .mmaT19 && op != .mmaF32 then 2 * base else base

/-! ## Accumulators in and out (R85, R215) -/

/-- The raw code of an element of a checked FP32 block: 0 in a ZERO block; none in a NAN block. -/
def rawCode (t : TensorVal) (r c : Nat) : Option Nat :=
  let p := elemPos t.d t.f r c
  match t.blks[p.1]? with
  | some (b, _) => if b.nan then none else if b.h.isZero then some 0 else some (leAt b.payload (4 * p.2) 4)
  | none => some 0

/-- An exact integer quotient c / s, where it is one within the INT32 accumulator's range. -/
def exactQuot (c s : EV) : Option EV :=
  match c, s with
  | .fin n1 m1 e1, .fin n2 m2 e2 =>
    let num := shl m1 (max 0 (e1 - e2))
    let den := shl m2 (max 0 (e2 - e1))
    if den ≠ 0 ∧ num % den = 0 ∧ num / den ≤ 2147483647 then some (.fin (n1 != n2) (num / den) 0) else none
  | _, _ => none

/-- c0 of an element (R215). In an INT32 accumulator an FP32 c0 is the integer that the output scale gives it; where it is
none, the spec states no value (log 44). -/
def mmaC0 (o : EngOp) (tc : TensorVal) (isInt : Bool) (sc : EV) (m n : Nat) : EV :=
  let r := winRow o.sc + m
  let c := winCol o.sc + n
  if wZc o.w then evZero
  else if wI32 o.w then
    match rawCode tc r c with
    | some v => evInt (sextI 32 v)
    | none => .nan
  else
    let v := rne (tvAt tc r c)
    if !isInt || v.isNan then v
    else match exactQuot v sc with
      | some i => i
      | none => evInt ((Config.intC0 (f32Of v) (f32Of sc)).toInt)

/-- The output value of an accumulator (R74, R85). -/
def mmaOutVal (isInt : Bool) (sc acc : EV) : EV := if isInt then evMul acc sc else acc

/-- Write block i of C with raw INT32 accumulators, `sat` of them saturated (R85, R215). -/
def writeI32 (cx : Cx) (d : Desc) (valid : Nat → Nat → Bool) (val : Nat → Nat → EV) (sat : Nat) (s : State) (i : Nat) : State :=
  let e := validExt d .fp32 i valid
  let o := tileOrg d .fp32 i
  if e.1 = 0 then writeZero s cx d i 1 1
  else
    let vs := (List.range 512).map (fun k =>
      if k / 32 < e.1 ∧ k % 32 < e.2 ∧ valid (o.1 + k / 32) (o.2 + k % 32) then val (o.1 + k / 32) (o.2 + k % 32) else evZero)
    let nan := vs.any EV.isNan
    let zero := !nan && vs.all EV.isZero
    let code := fun (v : EV) => match v with | .fin neg m ex => intCode 32 (if neg then -(shl m ex : Int) else (shl m ex : Int)) | _ => 0
    let len := decide (e.1 < 16) || decide (e.2 < 32)
    let h := newHdr s cx d i f32One e.1 e.2 0 (mkFlags zero nan false len false false (decide (0 < sat)))
    let s1 := storeBlk s cx d i h (if zero then [] else vs.flatMap (fun v => leBytes 4 (code v))) []
    voteWrite (deliverSat s1 cx d i sat) cx d (decide (0 < sat)) nan false

/-- Output element (m, n) is valid (R148): its streaming row and its stationary column lie in the valid regions. -/
def mmaValid (o : EngOp) (ta tb : TensorVal) (m n : Nat) : Bool :=
  let b := bPos o 0 n
  let rowOk := fun (t : TensorVal) (r c : Nat) =>
    match t.blks[(elemPos t.d t.f r c).1]? with
    | some (x, _) => (x.nan && badHdr x.h) || decide (r % t.f.tile.1 < x.h.vrows)
    | none => false
  let colOk := fun (t : TensorVal) (r c : Nat) =>
    match t.blks[(elemPos t.d t.f r c).1]? with
    | some (x, _) => (x.nan && badHdr x.h) || decide (c % t.f.tile.2 < x.h.vcols)
    | none => false
  rowOk ta (winRow o.sc + m) (winK o.sc) && (if wTr o.w then rowOk tb b.1 b.2 else colOk tb b.1 b.2)

/-! ## The product -/

/-- What an MMA computed. -/
structure MmaOut where
  x : MmaIn
  fc : Fmt
  tc : TensorVal
  ta : TensorVal
  tb : TensorVal
  kt : Nat

/-- Scale of the output of an INT32 accumulator: that of A's row and of B's column (log 44). -/
def mmaScale (s : State) (o : EngOp) (r : MmaOut) (m n : Nat) : EV :=
  if r.x.semi = 5 then evPow2 0
  else evMul (f32Val (intScale s r.ta ((List.range r.x.k).map (fun k => (winRow o.sc + m, winK o.sc + k)))))
    (f32Val (intScale s r.tb ((List.range r.x.k).map (fun k => bPos o k n))))

/-- Members that take part in a target. -/
def mmaMembers (tgt : Nat) : List Nat := if tgt < 4 then [tgt] else [0, 1, 2, 3]

/-- The tiles of a member's share. -/
def mmaTiles (tgt mode : Nat) (r : MmaOut) (j : Nat) : List MmaTile := memTiles tgt mode j r.kt r.x.k r.x.n

/-- The accumulator of an output element over the tiles of the members, with the overflows of the operands' splits. -/
def mmaElem (s : State) (o : EngOp) (r : MmaOut) (ts : List MmaTile) (m n : Nat) : MmaAcc :=
  let a := r.x.elem ts (mmaC0 o r.tc r.x.isInt (if r.x.isInt then mmaScale s o r m n else evPow2 0) m n) m n
  { a with sat := a.sat + r.x.splitSat m n }

/-- Add up over the elements of the product. -/
def mmaSum (r : MmaOut) (f : Nat → Nat → Nat) : Nat :=
  (span 0 r.x.m).foldl (fun a m => (span 0 r.x.n).foldl (fun b n => b + f m n) a) 0

/-- Accumulator flushes of member j: group values at the feet of its own segments, and the adds of the columns whose
accumulators it holds (R83, R97, R103). -/
def mmaFlushes (tgt mode : Nat) (r : MmaOut) (acc : Nat → Nat → MmaAcc) (j : Nat) : Nat :=
  let ts := mmaTiles tgt mode r j
  mmaSum r (fun m n =>
    ((acc m n).gflush.filter (fun g => ts.any (fun t => decide (t.n0 ≤ n) && decide (n < t.n1) && (tileGroups t).contains g))).length
      + (if accMember tgt mode n = j then (acc m n).flush else 0))

/-- Count what a unit did in one run of a share: flushes, skipped checks, checks, skipped groups (R83, R114, R125). -/
def unitRun (rg fl : Nat) (ck : Nat × Nat) (zs : Nat) (s : State) (u : Nat) : State :=
  if u < 66 then
    let b := unitBlk rg u
    let t1 := if fl = 0 then s else setFld (cntAdd s b rUnitAccFlush fl) b rUnitStatus 0 0 1
    let t2 := if ck.2 = 0 then t1 else cntAdd t1 b rUnitAbftSkip ck.2
    cnt64 (cnt64 t2 b rUnitChecksLo ck.1) b rUnitZskipLo zs
  else s

/-- Count what the units of each member's share did: the serving unit, and each unit that ran it again (R128). `runs j` is
how often the share of member j ran. -/
def mmaCounts (s : State) (o : EngOp) (tgt mode : Nat) (r : MmaOut) (acc : Nat → Nat → MmaAcc) (runs : Nat → Nat) : State :=
  (mmaMembers tgt).foldl (fun t j =>
    let ts := mmaTiles tgt mode r j
    let fl := mmaFlushes tgt mode r acc j
    if ts = [] ∧ fl = 0 then t
    else
      ((rerunUnits s (o.q / 16) (o.q % 16) j).take (runs j)).foldl
        (unitRun (o.q / 16) fl (r.x.checks ts (fun m n => (acc m n).satAt)) (r.x.zskips ts)) t) s

/-- Blocks of C that the window touches. -/
def winBlocks (d : Desc) (r0 c0 nr nc : Nat) : List Nat := (List.range (nBlocks d)).filter (blkInWin d r0 c0 nr nc)

/-- Element of a block of C that was read, and was valid there (R147). -/
def oldValid (t : TensorVal) (r c : Nat) : Bool :=
  decide (r < t.d.rows) && decide (c < t.d.cols) &&
    match t.blks[(elemPos t.d t.f r c).1]? with
    | some (x, _) => (x.nan && badHdr x.h) || (decide (r % t.f.tile.1 < x.h.vrows) && decide (c % t.f.tile.2 < x.h.vcols))
    | none => false

/-- The raw accumulator of an element of C that stays. -/
def oldRaw (t : TensorVal) (r c : Nat) : EV :=
  match rawCode t r c with
  | some v => evInt (sextI 32 v)
  | none => .nan

/-- Write the output blocks: the elements of the window, and those outside it that C held (R215); under ZC, which does not
read C, nothing lies outside (log 64). Overflows and saturations of the accumulators count with the block they fall in, and
set its FLAGS.SAT (R72, R84, R85, R127). -/
def mmaWrite (s : State) (cx : Cx) (o : EngOp) (r : MmaOut) (acc : Nat → Nat → MmaAcc) : State :=
  let d := r.tc.d
  let r0 := winRow o.sc
  let c0 := winCol o.sc
  let inWin := fun row col => decide (r0 ≤ row) && decide (row < r0 + r.x.m) && decide (c0 ≤ col) && decide (col < c0 + r.x.n)
  let valid := fun row col => if inWin row col then mmaValid o r.ta r.tb (row - r0) (col - c0) else !wZc o.w && oldValid r.tc row col
  let sat := fun i =>
    let og := tileOrg d r.fc i
    (List.range r.fc.dense).foldl (fun n k =>
      let row := og.1 + k / r.fc.tile.2
      let col := og.2 + k % r.fc.tile.2
      if inWin row col && valid row col then n + (acc (row - r0) (col - c0)).sat else n) 0
  let raw := fun row col => if inWin row col then (acc (row - r0) (col - c0)).v else oldRaw r.tc row col
  let val := fun row col =>
    if inWin row col then mmaOutVal r.x.isInt (if r.x.isInt then mmaScale s o r (row - r0) (col - c0) else evPow2 0)
      (acc (row - r0) (col - c0)).v
    else tvAt r.tc row col
  (winBlocks d r0 c0 r.x.m r.x.n).foldl (fun t i =>
    if wI32 o.w then writeI32 cx d valid raw (sat i) t i
    else writeTileSat cx d r.fc (rndInto r.fc false (wRnd o.w)) (wOvf o.w) valid val sat t i) s

/-- The accumulators as a table, each element evaluated once. -/
def mmaTable (s : State) (o : EngOp) (r : MmaOut) (ts : List MmaTile) : List (List MmaAcc) :=
  (List.range r.x.m).map (fun m => (List.range r.x.n).map (mmaElem s o r ts m))

/-- Look up the table. -/
def tblAt (t : List (List MmaAcc)) (m n : Nat) : MmaAcc := (t.getD m []).getD n (.start evZero)

/-- A SPARSE block whose indices do not rise also shows at every member's unit that loads it (R111). -/
def sparseShow (s : State) (o : EngOp) (tgt n k : Nat) (tb : TensorVal) : State :=
  let bad := fun (i : Nat) => match tb.blks[i]? with
    | some (b, _) => !b.nan && readsNan tb.f b
    | none => false
  let meets := fun (t : MmaTile) (i : Nat) =>
    let p := bPos o t.k0 t.n0
    if wTr o.w then blkInWin tb.d p.1 p.2 (t.n1 - t.n0) (t.k1 - t.k0) i else blkInWin tb.d p.1 p.2 (t.k1 - t.k0) (t.n1 - t.n0) i
  (mmaMembers tgt).foldl (fun t j =>
    let u := mapOf s (o.q / 16) (4 * (o.q % 16) + j)
    let ts := memTiles tgt (gangNow s o.q) j (mmaKt o.op tb (wTr o.w)) k n
    if u < 66 ∧ (List.range tb.blks.length).any (fun i => bad i && ts.any (fun x => meets x i)) then
      setFld t (unitBlk (o.q / 16) u) rUnitStatus 1 1 1
    else t) s

/-- Read the operands of an MMA whose checks have passed. -/
def mmaRead (s : State) (cx : Cx) (o : EngOp) (tgt : Nat) (dc da db : Desc) (fc fa fb : Fmt) : State × Nat × Option MmaOut :=
  let (m, n, k) := mmaDims o.w o.sc dc da
  let (s1, st1, ta) := readWin s cx da (winRow o.sc) (winK o.sc) m k
  if st1 ≠ 0 then (s1, st1, none)
  else
    let p := bPos o 0 0
    let (s2', st2, tb) := if wTr o.w then readWin s1 cx db p.1 p.2 n k else readWin s1 cx db p.1 p.2 k n
    if st2 ≠ 0 then (s2', st2, none)
    else
      let s2 := sparseShow s2' o tgt n k tb
      let (s3, st3, tc) := if wZc o.w then (s2, 0, ({ d := dc, f := fc, blks := [] } : TensorVal))
        else readWin s2 cx dc (winRow o.sc) (winCol o.sc) m n
      if st3 ≠ 0 then (s3, st3, none)
      else
        match wrChk s3 dc (winBlocks dc (winRow o.sc) (winCol o.sc) m n) with
        | some e => (raiseAcc s3 e cx.wh cx.step, e.status, none)
        | none =>
          (s3, 0, some { x := mmaIn s3 o ta tb (mmaInt da db fa fb && wSemi o.w == 0) m n k, fc := fc, tc := tc, ta := ta,
                                             tb := tb, kt := mmaKt o.op tb (wTr o.w) })

/-! ## Completion with class A handling (R127–R130) -/

/-- The check that a unit's wrong sum meets: a place in the member's tiles and the waves. -/
def mmaChkOf (r : MmaOut) (ts : List MmaTile) (f : AbftFail) : Option MmaChk :=
  match ts[f.tile]?, (wavesOf r.x.m)[f.wave]? with
  | some t, some w =>
    let lo := if f.kind = 1 then t.n0 else w.1
    let hi := if f.kind = 1 then t.n1 else w.2
    if r.x.passes ≤ f.pass ∨ 2 < f.kind ∨ (f.kind < 2 ∧ (f.idx < lo ∨ hi ≤ f.idx)) then none
    else some { p := f.pass, t := t, w := w, row := decide (f.kind = 1), i := f.idx }
  | _, _ => none

/-- The sum O that a unit's columns gave. -/
def mmaObs (r : MmaOut) (f : AbftFail) : EV := if r.x.int then evInt (sextI 48 (f.obs % 2 ^ 48)) else f32Val (f.obs % u32Mod)

/-- A class A check fails: |O − P| exceeds τ, an integer sum differs, or the two copies of an adder or converter disagree
(R123, R124, R126). -/
def mmaBad (r : MmaOut) (ts : List MmaTile) (satAt : Nat → Nat → List Nat) (f : AbftFail) : Bool :=
  match mmaChkOf r ts f with
  | some c => decide (f.kind = 2) || (!r.x.chkOut c satAt && r.x.chkFails r.kt c (mmaObs r f))
  | none => false

/-- |O − P| and τ of a failed check as FP32 codes; 0 for copies that disagree. -/
def mmaGap (r : MmaOut) (ts : List MmaTile) (f : AbftFail) : Nat × Nat :=
  match mmaChkOf r ts f with
  | some c =>
    if f.kind = 2 then (0, 0)
    else (f32Of (r.x.chkDiff c (mmaObs r f)), match r.x.tau100 r.kt c with
      | .fin _ m e => f32Of (rneRatio false m 100 e)
      | _ => 0)
  | none => (0, 0)

/-- Failed checks of one member's share, at most three: the first of each run of it. -/
def memFails (l : List AbftFail) (j : Nat) : List AbftFail := (l.filter (fun f => f.mem.val == j)).take 3

/-- The failed checks of a share at its units, in order. -/
def mmaMismatches (o : EngOp) (tgt mode : Nat) (r : MmaOut) (l : List AbftFail) (s : State) (j : Nat) : State :=
  let us := rerunUnits s (o.q / 16) (o.q % 16) j
  ((memFails l j).zip us).foldl (fun t p =>
    let g := mmaGap r (mmaTiles tgt mode r j) p.1
    if p.2 < 66 then abftMismatch t (o.q / 16) p.2 o.pc o.step p.1 g.1 g.2 else t) s

/-- Units whose mismatches count towards their eclipse window, in order. -/
def mmaBlamed (o : EngOp) (l : List AbftFail) (s : State) (js : List Nat) : List Nat :=
  js.flatMap (fun j => ((memFails l j).zip (rerunUnits s (o.q / 16) (o.q % 16) j)).map (·.2))

/-- Semiring modes have no class A checks (R108). -/
def mmaFails (o : EngOp) (tgt : Nat) (e : MmaEnv) : List AbftFail :=
  if wSemi o.w = 0 then e.fails.filter (fun f => (mmaMembers tgt).contains f.mem.val) else []

/-- The member whose share failed three times (R129). -/
def mmaUncured (tgt : Nat) (l : List AbftFail) : Option Nat := (mmaMembers tgt).find? (fun j => decide (3 ≤ (memFails l j).length))

/-- Run an MMA whose operands have been read: mismatches, then outputs, or nothing when a share stays uncured. Gives the
status, and the WHERE of its event: the unit on which the last run failed. -/
def mmaFinish (s : State) (cx : Cx) (o : EngOp) (tgt : Nat) (l0 : List AbftFail) (r : MmaOut) : State × Nat × Nat :=
  let js := mmaMembers tgt
  let mode := gangNow s o.q
  let acc := tblAt (mmaTable s o r (js.flatMap (mmaTiles tgt mode r)))
  let l := l0.filter (fun f => mmaBad r (mmaTiles tgt mode r f.mem.val) (fun m n => (acc m n).satAt) f)
  let s1 := mmaCounts s o tgt mode r acc (fun j => (memFails l j).length + 1)
  let s2 := js.foldl (mmaMismatches o tgt mode r l) s1
  let s3 := if (mmaUncured tgt l).isSome then voteSet (health s2 1) o.step vAbft
    else mmaWrite (l.foldl (fun t _ => health t 0) s2) cx o r acc
  let s4 := (mmaBlamed o l s1 js).foldl (fun t u => if u < 66 then eclipseWindow t (o.q / 16) u else t) s3
  match mmaUncured tgt l with
  | some j => (s4, 0x04, whU (o.q / 16) ((rerunUnits s1 (o.q / 16) (o.q % 16) j).getD 2 0))
  | none => (s4, 0, whClu o.q)

/-- The effect of an MMA on its target, its status, and the WHERE of the status's event. -/
def mmaRun (s : State) (o : EngOp) (tgt : Nat) (e : MmaEnv) : State × Nat × Nat :=
  let cx := opCx o true
  if opDescBad o then (s, 0x01, whClu o.q)
  else
    match o.dd, o.da, o.db with
    | some dc, some da, some db =>
      match fmtOf dc.fmt, fmtOf da.fmt, fmtOf db.fmt with
      | some fc, some fa, some fb =>
        let st := mmaRefuse s o tgt dc da db fc fa fb
        if st ≠ 0 then (s, st, whClu o.q)
        else
          let r := mmaRead s cx o tgt dc da db fc fa fb
          match r.2.2 with
          | some x => mmaFinish r.1 cx o tgt (mmaFails o tgt e) x
          | none => (r.1, r.2.1, whClu o.q)
      | _, _, _ => (s, 0x0F, whClu o.q)
    | _, _, _ => (s, 0x01, whClu o.q)

/-- A re-run on a cluster member waits for what was issued to that member before (R128, log 221). -/
def rerunWaits (s : State) (o : EngOp) (tgt : Nat) (l : List AbftFail) : Bool :=
  let busy := fun (j : Nat) => s.ops.any (fun p => p.eng == .mma o.q (j % 4) && decide (p.no < o.no))
  let sp := (freeSpares s (o.q / 16)).length
  (mmaMembers tgt).any (fun j =>
    let n := (memFails l j).length
    (decide (1 ≤ n) && decide (sp < 1) && busy (j + 1)) || (decide (2 ≤ n) && decide (sp < 2) && busy (j + 2)))

/-- A doubled member runs the instructions of its two indices in issue order (R133). -/
def mmaMay (s : State) (q tgt : Nat) (o : EngOp) : Bool :=
  let u := fun (j : Nat) => mapOf s (q / 16) (4 * (q % 16) + j)
  !s.ops.any (fun p => match p.eng with
    | .mma c j => decide (c = q) && decide (p.no < o.no) && decide (j ≠ tgt) && decide (j < 4) && decide (tgt < 4) &&
        decide (u j = u tgt) && decide (u j < 66)
    | _ => false)

/-- MMA_COMPLETE: a member or the gang of a cluster finishes its oldest instruction (R127, R173). -/
def opMmaComplete (q : Nat) (tgt : Nat) (e : MmaEnv) (s : State) : State :=
  match engPick s (.mma q tgt) (mmaMay s q tgt) with
  | none => s
  | some o =>
    if rerunWaits s o tgt (mmaFails o tgt e) then s
    else
      let s0 := memEnv s (opCx o true) e.errs e.reread
      let x := mmaRun s0 o tgt e
      completeOpAt x.1 o x.2.1 x.2.2

/-- MMA_COMPLETE (R127). -/
def execMmaComplete (q : Fin 256) (tgt : Fin 5) (e : MmaEnv) (s : State) : Host.Outcome State Fault Refusal :=
  run [.clu q] (opMmaComplete q tgt.val e) s

end Sys2Proof.Machine
end

