-- ==== Sys2Proof/Machine/RegShow.lean ====
section
/-! DEFINITION. What every register reads as (ch. 18), decoding of accesses to the register space (R484, R485), and
reads: RC fields, the HI latches and the translation entries (R140, R482, R489, R500). -/
namespace Sys2Proof.Machine

/-! ## Registers that show other state -/

/-- Lines that a region holds as KEEP (Table 9.15). -/
def keepLines (s : State) (rg : Nat) : Nat := ((cacheOf s rg).filter (fun l => decide (l.cls = .keep))).length

/-- The entry of the band table that CHK_BAND_SEL selects (R354). -/
def bandSel (s : State) : BandRec :=
  bandAt s (4 * fld s .chk rChkBandSel 9 8 + fld s .chk rChkBandSel 13 12) (fld s .chk rChkBandSel 22 16) (fld s .chk rChkBandSel 27 24)

/-- The bank that is not in force (R500). -/
def bankIdle (x : Xlat) : SMap Word := if x.bank then x.bank0 else x.bank1

/-- INDEX of XLAT_IDX. -/
def xlatIdx (s : State) : Nat := fld s .xlat rXlatIdx 17 0

/-- An entry of a bank. -/
def xlatEnt (m : SMap Word) (i : Nat) : Word := smGet (fun _ => 0) m i

/-- Every enabled link is UP or MISWIRED (R454); the links of an unused axis do not count (R325). -/
def linksReady (s : State) : Bool :=
  (List.range 6).all (fun l => linkUnused s l || !rbit s (.lnk l) rLnkCtl 0 || decide (linkSt s l = lsUp) || decide (linkSt s l = lsMiswired))

/-- Blocks of the compute dies: UNIT_STATUS, the KEEP lines and the state of BCN, SYNC and the sequencers. -/
def showDie (s : State) (b : Blk) (o : Nat) : Option Word :=
  match b with
  | .unit d r u => if o = rUnitStatus then some (unitStatus s (4 * d + r) u) else none
  | .rgn d r => if o = rRgnCacheKeep then some (w32 (keepLines s (4 * d + r))) else none
  | .lpc k => if o = rLpcStatus then some (w32 (putBits (regAt s b o).toNat 6 6 (b2n (decide (k < npkg s))))) else none
  | _ => none

/-- Blocks of the hub: power, security, translation, band table, fade count. -/
def showHub (s : State) (b : Blk) (o : Nat) : Option Word :=
  match b with
  | .xlat =>
    if o = rXlatData then some (xlatEnt (bankIdle s.xlat) (xlatIdx s))
    else if o = rXlatCur then some (xlatEnt (bankNow s.xlat) (xlatIdx s)) else none
  | .scl =>
    if o = rSclFadeCount then some (w32 (smGet (fun _ => Fade.zero) s.scl.fade (fld s .scl rSclFadeSel 11 0)).count) else none
  | .upd =>
    if o = rUpdStatus then some (w32 (putBits (regAt s b o).toNat 0 0 (b2n (s.ops.any (fun x => decide (x.phase ≠ .queued) && match x.eng with
      | .upd _ _ => true
      | _ => false))))) else none
  | .chk =>
    if o = rChkDual then some (w32 (putBits (regAt s b o).toNat 1 1 (b2n s.dualOn)))
    else if o = rChkBandRuns then some (w32 (bandSel s).runs)
    else if o = rChkBandPrism then some (w32 (bandSel s).prism)
    else if o = rChkBandAbft then some (w32 (bandSel s).abft)
    else if o = rChkBandSat then
      some (w32 (bitWord [decide ((bandSel s).runs = u32Max), decide ((bandSel s).prism = u32Max), decide ((bandSel s).abft = u32Max)]))
    else none
  | .pwr =>
    if o = rPwrStatus then
      some (w32 (putBits (putBits (putBits (putBits (regAt s b o).toNat 11 11 (b2n (linksReady s))) 10 10 (b2n s.tripped)) 5 3 s.pw.target) 2 0 s.pwr.code))
    else if o = rPwrBoot then some (w32 (putBits (putBits (regAt s b o).toNat 7 4 s.pw.err) 3 0 s.pw.stage))
    else none
  | .sec =>
    if o = rSecStatus then some (w32 (putBits (putBits (regAt s b o).toNat 8 7 s.sec.life) 5 5 (b2n (rbit s .sec rSecDebug 0))))
    else if o = rSecSvn then some (w32 (leNat (s.sec.svn.map (fun v => BitVec.ofNat 8 v))))
    else if o = rSecAlarms then some (w32 (min u32Max s.sec.alarms))
    else none
  | .regdec => if o = rRegdecStatus then some (w32 (putBits (regAt s b o).toNat 0 0 (fld s .regdec rRegdecCtl 0 0))) else none
  | _ => none

/-- What a register reads as, before its RC fields clear. -/
def regShow (s : State) (b : Blk) (o : Nat) : Word :=
  match showDie s b o with
  | some w => w
  | none => (showHub s b o).getD (regView s b o)

/-! ## Decoding (R484, R485) -/

/-- The register that an access reaches, with what it counts: outside every extent and in the window of a die that is
powered off, past the span, or a hole. The LPC instances of absent packages read zero (R283). -/
def regHit (s : State) (off : Nat) : State × Option (Blk × Nat) :=
  if decide (off < 0x10000000) && !s.diePower.getLsbD (off / 0x4000000) then
    (raise (cnt s .regdec rRegdecUnmapped) .dieAbsentAccess (whDie (off / 0x4000000)) 0 [], none)
  else
    match locate off with
    | none => (cnt s .regdec rRegdecUnmapped, none)
    | some (b, o) =>
      let s1 := if b.span ≤ o then cnt s .regdec rRegdecUnimpl else s
      if (b.span ≤ o ∧ fld s .regdec rRegdecCtl 0 0 = 1) ∨ !ctrlFitted s b then (s1, none)
      else (s1, (b.row (o % b.span)).map (fun _ => (b, o % b.span)))

/-- The block that an access reaches: none where it reads zero and ignores writes. -/
def regBlk (s : State) (off : Nat) : List Blk :=
  match (regHit s off).2 with
  | some (b, _) => [b]
  | none => []

/-! ## Reads -/

/-- Key of a path's HI latch (R482). -/
def pathKey : Path → Nat
  | .core d k => 8 * d.val + k.val
  | .mgmt k => 32 + k.val
  | .lane => 40
  | .cwt => 41
  | .i3c => 42

/-- The word without its WO fields, which read zero. -/
def hideWo (fs : List RegField) (w : Nat) : Nat :=
  fs.foldl (fun v f => if f.acc = .wo then putBits v f.hi f.lo 0 else v) w

/-- The word with its RC fields at their reset values (R489). -/
def clearRc (fs : List RegField) (w : Nat) : Nat :=
  fs.foldl (fun v f => if f.acc = .rc then putBits v f.hi f.lo f.rst else v) w

/-- A read takes the RC fields: a high-water mark takes its tracked value, any other field its reset value (R489). -/
def rcTake (s : State) (b : Blk) (o : Nat) : State :=
  if b = .hub ∧ o = rHubAglHwm then setReg s .hub rHubAglHwm (regAt s .hub rHubAglUsed)
  else
    match b.row o with
    | some r => if r.fields.any (fun f => decide (f.acc = .rc)) then setReg s b o (w32 (clearRc r.fields (regAt s b o).toNat)) else s
    | none => s

/-- A register is read on a path: its word, and what the read changes. -/
def readAt (p : Path) (b : Blk) (o : Nat) (s : State) : State × Word :=
  if b = .xlat ∧ o = rXlatData then (setFld s .xlat rXlatIdx 17 0 (xlatIdx s + 1), regShow s b o)
  else if isCtrLo b o then (setLatch s (pathKey p) b o, regShow s b o)
  else if 4 ≤ o ∧ isCtrLo b (o - 4) then (s, readHi s (pathKey p) b (o - 4))
  else (rcTake s b o, w32 (hideWo (((b.row o).map (fun r => r.fields)).getD []) (regShow s b o).toNat))

/-- A read of the register space at an offset from 0xF000_0000_0000. -/
def regRead (p : Path) (off : Nat) (s : State) : State × Word :=
  match regHit s off with
  | (s1, some (b, o)) => readAt p b o s1
  | (s1, none) => (s1, 0)

/-! ## Paths (R480, Table 18.1, Table 15.8) -/

/-- The path can carry an access now: control cores run in run and dim, the hub's cores while hub firmware runs, the lane
and CWT from phase B3 on, I3C whenever there is power. -/
def pathUp (s : State) (p : Path) : Bool :=
  match p with
  | .core d _ => (decide (s.pwr = .run) || decide (s.pwr = .dim)) && dieIn s d.val && !s.tripped
  | .mgmt _ => !(decide (s.pwr = .off) || decide (s.pwr = .dark)) && (decide (s.pwr ≠ .boot) || decide (2 ≤ s.pw.stage))
  | .lane => laneUp s
  | .cwt => s.sess.isSome
  | .i3c => decide (s.pwr ≠ .off)

/-- The offset lies in the SEC block, which only management cores and hub firmware reach (R473). -/
def inSec (off : Nat) : Bool := decide (0x10010000 ≤ off) && decide (off < 0x10014000)

/-- Registers that I3C reads: HUB identification, PWR and CLK telemetry, PWR_BOOT (R434). -/
def i3cReads (off : Nat) : Bool :=
  decide (0x10000000 ≤ off) && decide (off < 0x10000028) ||
  decide (0x10006004 ≤ off) && decide (off < 0x10006008) ||
  decide (0x1000601C ≤ off) && decide (off < 0x1000606C) ||
  decide (off < 0x10000000) && decide (0x101014 ≤ off % 0x4000000) && decide (off % 0x4000000 < 0x101020) ||
  decide (off = 0x10006000)

/-- Blocks that CWT writes (Table 15.8). -/
def cwtWrites : Blk → Bool
  | .hub => true
  | .bcn _ => true
  | .sync _ => true
  | .xlat => true
  | .clu _ => true
  | .rgn _ _ => true
  | .route _ => true
  | .scl => true
  | .mig => true
  | .upd => true
  | .chk => true
  | .ckpt => true
  | _ => false

/-- CHK_DUAL and CHK_PRISM_CTL, which a CHECKED module holds (R390). -/
def isChecked (s : State) (b : Blk) (o : Nat) : Bool :=
  rbit s .hlth rHlthFlags 0 && decide (b = .chk) && (decide (o % 0x200 = rChkDual) || decide (o % 0x200 = rChkPrismCtl))

/-- A path reaches an offset for reading. -/
def mayRead (p : Path) (off : Nat) : Bool :=
  match p with
  | .mgmt _ => true
  | .i3c => i3cReads off
  | .cwt => (locate off).isSome && !inSec off
  | _ => !inSec off

/-- A path reaches an offset for writing. -/
def mayWrite (s : State) (p : Path) (off : Nat) : Bool :=
  match p with
  | .mgmt _ => true
  | .i3c => decide (off = 0x10006000)
  | .cwt =>
    match locate off with
    | some (b, o) => cwtWrites b && !isChecked s b o
    | none => false
  | _ => !inSec off

end Sys2Proof.Machine
end

