-- ==== Sys2Proof/Machine/RegWrite.lean ====
section
/-! DEFINITION. Writes of registers: the LOCK rules (R490), LIVE bits (R488), what an APPLY or an action bit does (Table
18.3), and snapshot-and-clear (R494). -/
namespace Sys2Proof.Machine

/-! ## Configuration that comes into force at the write (R491) -/

/-- ROUTE_APPLY: the table in force from the next instruction on; an instruction in progress keeps the table it started
with (R163). -/
def routeApplyWrite (s : State) (d : Nat) : State :=
  let a := addr48 s (.route d) rRouteOwnerLo rRouteOwnerHi / 64 * 64
  let n := fld s (.route d) rRouteOwnerCount 12 0
  match tblBad s a (64 * n) with
  | some e => applyRefused s (.route d) rRouteApply e
  | none =>
    { s with owners := smPut (fun _ => []) s.owners d ((List.range n).map (fun k => parseOwner (rdBytes s (a + 64 * k) 64))) }

/-- SCL_APPLY.LS: e from SCL_LS_INIT within the bounds, and the change point (R245). -/
def lsApplyWrite (s : State) : State :=
  let lo := fld s .scl rSclLsCtl 5 0
  let hi := max lo (fld s .scl rSclLsCtl 13 8)
  let x : Scl :=
    { s.scl with
      lsMin := lo
      lsMax := hi
      lsWindow := fld s .scl rSclLsCtl 31 16
      lsJ := some ((s.openN + 1) % u32Mod) }
  setLs { s with scl := x } (min hi (max lo (fld s .scl rSclLsInit 5 0)))

/-- SCL_APPLY (Table 8.4). -/
def sclApplyWrite (s : State) (v : Nat) : State :=
  let s1 := if bitAt v 0 then { s with scl := { s.scl with estPend := true } } else s
  if bitAt v 1 then lsApplyWrite s1 else s1

/-- Member lists that the group table names, for the check of R525. -/
def grpLists (s : State) (a n : Nat) : List (Nat × Nat) :=
  (List.range n).map (fun g =>
    let c := rdLE s (a + 16 * g + 8) 4
    (rdLE s (a + 16 * g) 8, if c ≤ 65536 then 4 * c else 0))

/-- XLAT_APPLY arms the inactive bank, which switches at once when the epoch has reached XLAT_EPOCH (R500). A group table
or member list that fails its check arms nothing (R525). -/
def xlatApplyWrite (s : State) : State :=
  let a := addr48 s .xlat rXlatGrpLo rXlatGrpHi / 16 * 16
  let n := fld s .xlat rXlatGrpCount 15 0
  match (tblBad s a (16 * n)).orElse (fun _ => tblsBad s (grpLists s a n)) with
  | some e => applyRefused s .xlat rXlatApply e
  | none => xlatSwitch (setFld { s with xlat := { s.xlat with armed := some (regAt s .xlat rXlatEpoch).toNat } } .xlat rXlatStatus 2 2 1)

/-- The ward still waits for its buddy (R378). -/
def reflWaiting (s : State) : Bool :=
  s.buddy.isSome && (s.resyncOut || decide (s.reflDone < s.commitN) || s.steps.any (fun r => decide (r.st = .sealed) && !r.reflHave))

/-- HUB_REFL_BUDDY comes into force: VALID 0 ends a wait with EVT_REFL_OFF; a new buddy is resynchronized (R378, R380). -/
def buddySet (s : State) : State :=
  let new := if rbit s .hub rHubReflBuddy 31 then some (fld s .hub rHubReflBuddy 17 0) else none
  if new = s.buddy then s
  else
    match new with
    | none =>
      let s1 := if reflWaiting s then raise s .reflOff whHub ((s.commitN + 1) % u32Mod) [] else s
      tmOff { s1 with buddy := none, resyncOut := false } .refl
    | some lc => resyncSend { s with buddy := some lc }

/-- HUB_REFL_WARD comes into force: a module that loses its ward holds no reflection any more. -/
def wardSet (s : State) : State :=
  let new := if rbit s .hub rHubReflWard 31 then some (fld s .hub rHubReflWard 17 0) else none
  if new = s.ward then s
  else setReflState { s with ward := new, bundles := [], resyncing := false, lastBundle := none, wardNew := false } 0

/-- No step is open (R522). -/
def noStepOpen (s : State) : Bool := decide (s.openN = s.commitN)

/-- HUB_RESIL_APPLY: values out of range act as Table 13.5 gives; the journal size only while no step is open. -/
def resilApplyWrite (s : State) : State :=
  let u := min 16 (max 1 (fld s .hub rHubAglSize 4 0))
  let s1 := { s with
    aglGiB := if noStepOpen s then 64 * u else s.aglGiB
    lateMs := max 1 (fld s .hub rHubReflLate 15 0)
    certSec := min 600 (max 1 (fld s .hub rHubCertCtl 9 0))
    certRetry := max 1 (fld s .hub rHubCertCtl 31 16) }
  buddySet (wardSet s1)

/-- A limit in ms: 0 acts as 1, above 60,000 as 60,000 (Table 18.5). -/
def limMs (v : Nat) : Nat := min 60000 (max 1 v)

/-- HUB_STEP_APPLY: step numbers, epoch and limits when no step is open, else REFUSED (Table 18.5, R187). -/
def stepApplyWrite (s : State) : State :=
  if !noStepOpen s then setFld s .hub rHubStepStatus 8 8 1
  else
    let s1 := { s with
      drainMs := limMs (fld s .hub rHubDrainLim 15 0)
      voteMs := limMs (fld s .hub rHubVoteLim 15 0)
      epoch := (regAt s .hub rHubEpoch).toNat }
    xlatSwitch (setSteps s1 (regAt s .hub rHubStepCommit).toNat (regAt s .hub rHubStepOpen).toNat)

/-- HUB_STEP_CMD: OPEN, DECLARE and ABANDON of the step in HUB_STEP_ARG (R523). -/
def stepCmdWrite (s : State) (v : Nat) : State :=
  let n := (regAt s .hub rHubStepArg).toNat
  match bits v 1 0 with
  | 1 => opStepOpen n s
  | 2 => opStepDeclare n s
  | 3 => opStepAbandon n s
  | _ => s

/-- HLTH_PERIOD: below 100 ms acts as 100 (Table 18.12). -/
def periodMs (v : Nat) : Nat := max 100 v

/-- HLTH_APPLY: weights and period; weights above 1,000 act as 1,000, and those of inputs 19 to 21 are zero (R504). -/
def hlthApplyWrite (s : State) : State :=
  let ws := (List.range 22).map (fun i => if 19 ≤ i then 0 else min 1000 (fld s .hlth (rHlthWeight + 4 * i) 9 0))
  { s with hlthW := ws, mgmt := { s.mgmt with period := periodMs (fld s .hlth rHlthPeriod 15 0) } }

/-- CWT_APPLY: the ETH and CWT configuration while no job session is open; otherwise ignored (R439). -/
def cwtApplyWrite (s : State) : State :=
  if s.sess.isSome then s
  else
    { s with
      cwtCfg := regAt s .cwt rCwtCfg, cwtWin := regAt s .cwt rCwtWin, cwtTmr := regAt s .cwt rCwtTmr
      ethCfg := (List.range 2).map (fun p => (regAt s (.eth p) rEthCtl, regAt s (.eth p) rEthPfc, regAt s (.eth p) rEthPfcWm))
      evt := { s.evt with evsev := fld s .cwt rCwtCfg 9 8 } }

/-- CLU_SEQ_CTL.RUN as written: 1 starts a stopped sequencer at its entry address, and one halted on an illegal word once RUN
was cleared (R170, R198); 0 stops it at its next boundary, a halted one at once. -/
def seqRunWrite (s : State) (q : Nat) (was : Bool) : State :=
  let x := seqAt s q
  let now := seqRunBit s q
  if now && !was then
    if x.st = .stopped ∨ x.st = .halted then setSeq s q { x with st := .running, pc := seqEntry s q, stopAtBoundary := false }
    else s
  else if !now && was && (decide (x.st = .running) || decide (x.st = .halted)) then setSeq s q { x with st := .stopped }
  else s

/-! ## Sync objects as registers (R502) -/

/-- A write of SYNC_VAL: SET, refused for a system object. -/
def syncValPut (s : State) (d i v : Nat) : State :=
  if isSysObj i then cnt s (.sync d) rSyncRsvdWrite else objPut s d i (BitVec.ofNat 32 v)

/-- A write of SYNC_ADD: ADD of 1 to 2^31 − 1, refused otherwise and for a system object. -/
def syncAddPut (s : State) (d i v : Nat) : State :=
  if isSysObj i then cnt s (.sync d) rSyncRsvdWrite
  else if v = 0 ∨ 2147483648 ≤ v then cnt s (.sync d) rSyncBadOp
  else objAdd s d i v

/-- An arm was written: armed and already reached, it fires at once. -/
def armWritten (s : State) (d a : Nat) : State := fireArms s d ((armsDue s.objs s d).filter (· == a))

/-! ## Snapshot-and-clear (R494) -/

/-- RO COUNT fields that are no error or event counters of a SAT register: CKPT_RST_REFL and the band table's view. -/
def loneCounters : Blk → List Nat
  | .ckpt => [rCkptRstRefl]
  | .chk => [rChkBandRuns, rChkBandPrism, rChkBandAbft]
  | _ => []

/-- SAT registers of a block. -/
def satRegs : Blk → List Nat
  | .chk => [0x1C, 0x190, 0x194]
  | b => if b.satMap.1.isEmpty then [] else [b.satMap.2]

/-- Insert in ascending order. -/
def insNat (n : Nat) : List Nat → List Nat
  | [] => [n]
  | m :: r => if n ≤ m then n :: m :: r else m :: insNat n r

/-- Offsets of the counters and SAT registers of an instance, ascending. -/
def snapOffs (b : Blk) : List Nat :=
  (b.satMap.1 ++ (if b = .chk then chkPcMap.1 else []) ++ loneCounters b ++ satRegs b).foldl (fun l n => insNat n l) []

/-- The band table keeps its counts (R494). -/
def snapKeeps (b : Blk) (o : Nat) : Bool := decide (b = .chk) && decide (0x184 ≤ o) && decide (o ≤ 0x190)

/-- Zero the counters and SAT registers of an instance; BCN_SLIP_MAX goes with the counters (R501). -/
def snapClear (s : State) (b : Blk) : State :=
  let s1 := (snapOffs b).foldl (fun t o => if snapKeeps b o then t else setReg t b o 0) s
  match b with
  | .evt =>
    let h := { s1.evt.host with lost := 0, sat := false }
    let m := { s1.evt.mgmt with lost := 0, sat := false }
    { s1 with evt := { s1.evt with host := h, mgmt := m } }
  | .bcn _ => setReg s1 b rBcnSlipMax 0
  | _ => s1

/-- The snapshot of an instance. -/
def snapBytes (s : State) (b : Blk) : List Byte :=
  leBytes 8 b.base ++ leBytes 8 s.beacon ++ (snapOffs b).flatMap (fun o => leBytes 4 o ++ leBytes 4 (regShow s b o).toNat)

/-- The buffer lies in one block-addressable area, outside reserved areas, parameter pages and absent dies' windows. -/
def snapBufOk (s : State) (a n : Nat) : Bool :=
  (tblBad s a n).isNone && !rangeParam s a n && (decide (rangeAbsent s a n = false)) && !rangeRsvd s a n

/-- EVT_CLR.GO (R494). -/
def snapGo (s : State) : State :=
  let off := (regAt s .evt rEvtClrBlock).toNat
  let a := addr48 s .evt rEvtSnapLo rEvtSnapHi / 64 * 64
  match locate off with
  | some (b, 0) =>
    let l := snapBytes s b
    if snapBufOk s a l.length then
      setFld (snapClear (wrBytes (traffic s none 0 a l.length true) a l) b) .evt rEvtClr 1 1 1
    else setFld s .evt rEvtClr 2 2 1
  | _ => setFld s .evt rEvtClr 2 2 1

/-! ## Mailbox (R472, Table 17.5) -/

/-- SEC_MB_CMD of a channel. `temp` is the temperature that an alarm would record, `tok` whether a provisioning token in
the window is Cloevo's: both are the environment's. -/
def mbWrite (s : State) (c v : Nat) (temp : Int) (tok : Bool) : State :=
  let len := bits v 20 8
  match v % 256 with
  | 0x01 => mbAttest s c len
  | 0x02 => mbSignStart s c
  | 0x03 => mbSignData s c len
  | 0x04 => mbSignEnd s c
  | 0x10 => mbChallenge s c
  | 0x11 => mbResponse s c len temp
  | 0x20 => mbAdvance s c
  | 0x30 => mbProvision s c len tok
  | _ => mbDone s c mbBadCmd []

/-! ## What a write sets off -/

/-- The effect of a register write besides its stored fields; `old` is the word before. -/
def regEffect (b : Blk) (o v old : Nat) (temp : Int) (tok : Bool) (s : State) : State :=
  match b with
  | .sync d => if 0x10000 ≤ o ∧ o < 0x10400 then armWritten s d ((o - 0x10000) / 16) else s
  | .route d => if o = rRouteApply ∧ bitAt v 0 then routeApplyWrite s d else s
  | .hc k =>
    if o = rHcCtl then testModeWrite s (.hc k)
    else if o = rHcCeRate then ceCheck s (.hc k)
    else if 0x800 ≤ o ∧ o % 0x80 = rTgCtl ∧ bitAt v 0 then tgStartWrite s (.hc k) ((o - 0x800) / 0x80) else s
  | .lpc k =>
    if o = rLpcCtl then testModeWrite s (.lpc k)
    else if o = rLpcCeRate then ceCheck s (.lpc k)
    else if 0x800 ≤ o ∧ o % 0x80 = rTgCtl ∧ bitAt v 0 then tgStartWrite s (.lpc k) ((o - 0x800) / 0x80) else s
  | .rgn d r =>
    if o = rRgnApply ∧ bitAt v 0 then fenceApplyWrite s (4 * d + r)
    else if o = rRgnCacheCtl ∧ bitAt v 8 then demote s (4 * d + r) else s
  | .clu q =>
    if o = rCluApply ∧ bitAt v 0 then gangApplyWrite s q
    else if o = rCluSeqCtl then seqRunWrite s q (bitAt old 0) else s
  | .hub =>
    if o = rHubStepApply ∧ bitAt v 0 then stepApplyWrite s
    else if o = rHubStepCmd then stepCmdWrite s v
    else if o = rHubResilApply ∧ bitAt v 0 then resilApplyWrite s else s
  | .xlat => if o = rXlatApply ∧ bitAt v 0 then xlatApplyWrite s else s
  | .evt => if o = rEvtClr ∧ bitAt v 0 then snapGo s else s
  | .hlth => if o = rHlthApply ∧ bitAt v 0 then hlthApplyWrite s else s
  | .pwr =>
    if o = rPwrReq then pwrRequest s (bits v 2 0)
    else if o = rPwrReset then pwrResetWrite s v
    else if o = rPwrWdog then wdogArm s
    else if o = rPwrWake ∧ (s.pwr = .dusk ∨ s.pwr = .shade) then wakeArm s else s
  | .scl => if o = rSclApply then sclApplyWrite s v else s
  | .upd => if o = rUpdApply then { s with updPend := s.updPend ||| BitVec.ofNat 5 (bits v 4 0) } else s
  | .mig => if o = rMigApply ∧ bitAt v 0 then migApplyWrite s else s
  | .chk =>
    if o = rChkApply ∧ bitAt v 0 then { s with chkPend := true }
    else if o = rChkFoldStatus ∧ bitAt v 2 then foldResume s else s
  | .ckpt =>
    if o = rCkptReq then ckptReqWrite s v
    else if o = rCkptApply ∧ bitAt v 0 then { s with ckptPend := true }
    else if o = rCkptRstCtl then
      let s1 := if bitAt v 0 then restoreStart s else s
      if bitAt v 2 then restoreCommit s1 else s1
    else s
  | .cwt => if o = rCwtApply ∧ bitAt v 0 then cwtApplyWrite s else s
  | .sec => if o = rSecMbCmd ∨ o = rSecMbCmd + 0x2000 then mbWrite s ((o - rSecMbCmd) / 0x2000) v temp tok else s
  | .lnk l =>
    if o = rLnkApply ∧ bitAt v 0 then lnkApplyWrite s l
    else if o = rLnkCtl then
      let s1 := lnkEnableWrite s l
      if bitAt v 2 then linkRetrain s1 l else s1
    else s
  | _ => s

/-! ## Fields, locks and LIVE bits -/

/-- The lock of a register's RWL fields is set (R490). -/
def lockSet (s : State) (b : Blk) (o : Nat) : Bool :=
  match b with
  | .sec =>
    if o = rSecPolicy then rbit s .sec rSecPolicy 15
    else if o = rSecDebug then rbit s .sec rSecDebug 8
    else if o = rSecFuse then rbit s .sec rSecFuse 0 else false
  | .coord => rbit s .coord rCoordPhys 31
  | .clk d => rbit s (.clk d) rClkLock 0
  | .regdec => rbit s .regdec rRegdecCtl 1
  | _ => false

/-- Management cores, hub firmware and the management lane write REGDEC_CTL (R486). -/
def writesRegdec : Path → Bool
  | .mgmt _ => true
  | .lane => true
  | _ => false

/-- A value would change a field of an access code. -/
def changes (fs : List RegField) (a : Acc) (old v : Nat) : Bool :=
  fs.any (fun f => decide (f.acc = a) && decide (bits old f.hi f.lo ≠ bits v f.hi f.lo))

/-- The fields that a write takes: RW and LIVE, and RWL unless locked. RO and RC fields are ignored (R481). -/
def takeFields (fs : List RegField) (locked : Bool) (old v : Nat) : Nat :=
  fs.foldl (fun w f =>
    if f.acc = .rw ∨ f.acc = .live ∨ (f.acc = .rwl ∧ !locked) then putBits w f.hi f.lo (bits v f.hi f.lo) else w) old

/-- EVT_REG_LOCKED and its count, when the write would change an RWL field (R490). -/
def lockedNote (s : State) (b : Blk) (fs : List RegField) (old v : Nat) : State :=
  if changes fs .rwl old v then
    raise (cnt s .regdec rRegdecLocked) .regLocked (match b with | .clk d => whDie d | _ => whHub) 0 []
  else s

/-- EVT_REG_LIVE with the address, the old word and the word written; REGDEC_LIVE, TAINT, and the block's behaviour is
undefined from then on (R488). -/
def liveNote (s : State) (b : Blk) (o : Nat) (fs : List RegField) (old v : Nat) : State :=
  if changes fs .live old v then
    let s1 := setFld (cnt s .regdec rRegdecLive) .regdec rRegdecStatus 1 1 1
    let s2 := raise s1 .regLive whHub 0 [a64 (0xF00000000000 + b.base + o), a32 old, a32 v]
    { s2 with tainted := if s2.tainted.contains b then s2.tainted else b :: s2.tainted }
  else s

/-- A CHECKED module keeps CHK_DUAL.ENABLE and CHK_PRISM_CTL.DUTY (R390). -/
def checkedKeep (s : State) (b : Blk) (o old v : Nat) : Nat :=
  if isChecked s b o then
    if o = rChkDual then putBits v 0 0 (bits old 0 0) else putBits v 11 4 (bits old 11 4)
  else v

/-- Writes that are ignored whole: COORD_LOGICAL while a job session is open (R499), a slip offset other than 0 (R501),
weights 19 to 21 (R504). -/
def writeIgnored (s : State) (b : Blk) (o v : Nat) : Bool :=
  match b with
  | .coord => decide (o = rCoordLogical) && s.sess.isSome
  | .bcn _ => decide (0x48 ≤ o) && decide (o < 0xC0) && decide (o % 8 = 0) && decide (v ≠ 0)
  | .hlth => decide (0x14C ≤ o) && decide (o < 0x158)
  | _ => false

/-- Registers that no word stands for: SYNC_VAL, SYNC_ADD and XLAT_DATA (R500, R502). -/
def directWrite (b : Blk) (o v : Nat) (s : State) : Option State :=
  match b with
  | .sync d =>
    if o < 0x10000 then some (if o % 16 = 0 then syncValPut s d (o / 16) v else syncAddPut s d (o / 16) v) else none
  | .xlat =>
    if o = rXlatData then
      let m := smPut (fun _ => 0) (bankIdle s.xlat) (xlatIdx s) (BitVec.ofNat 32 v)
      let x := if s.xlat.bank then { s.xlat with bank0 := m } else { s.xlat with bank1 := m }
      some (setFld { s with xlat := x } .xlat rXlatIdx 17 0 (xlatIdx s + 1))
    else none
  | _ => none

/-- A write reaches a register: locks, LIVE bits, its fields, and what it sets off. -/
def writeFields (p : Path) (b : Blk) (o v0 : Nat) (temp : Int) (tok : Bool) (s : State) : State :=
  let fs := ((b.row o).map (fun r => r.fields)).getD []
  let old := (regShow s b o).toNat
  if writeIgnored s b o v0 then s
  else if b = .regdec ∧ o = rRegdecCtl ∧ !writesRegdec p then lockedNote s b fs old v0
  else
    let v := checkedKeep s b o old v0
    let lk := lockSet s b o
    let s1 := if lk then lockedNote s b fs old v else s
    let s2 := liveNote s1 b o fs old v
    regEffect b o v old temp tok (setReg s2 b o (w32 (takeFields fs lk (regAt s2 b o).toNat v)))

/-- A write reaches a register. -/
def writeAt (p : Path) (b : Blk) (o v : Nat) (temp : Int) (tok : Bool) (s : State) : State :=
  (directWrite b o v s).getD (writeFields p b o v temp tok s)

/-- A write of the register space at an offset from 0xF000_0000_0000 on a path that reaches it. -/
def regWrite (p : Path) (off v : Nat) (temp : Int) (tok : Bool) (s : State) : State :=
  match regHit s off with
  | (s1, some (b, o)) => writeAt p b o v temp tok s1
  | (s1, none) => s1

/-- A write changes a LIVE bit: what R488 says of it holds of a tainted block too. -/
def livePoke (s : State) (off v : Nat) : Bool :=
  match (regHit s off).2 with
  | some (b, o) => changes (((b.row o).map (fun r => r.fields)).getD []) .live (regShow s b o).toNat v
  | none => false

/-- The blocks whose behaviour a write calls on. -/
def writeBlks (s : State) (off v : Nat) : List Blk := if livePoke s off v then [] else regBlk s off

/-- A write on a path, when the path can carry one and reaches the register. -/
def pathWrite (p : Path) (off v : Nat) (temp : Int) (tok : Bool) (s : State) : State :=
  if pathUp s p && decide (off % 4 = 0) && mayWrite s p off then regWrite p off v temp tok s else s

/-- A register write as a command. -/
def runWrite (p : Path) (off v : Nat) (temp : Int) (tok : Bool) (s : State) : Host.Outcome State Fault Refusal :=
  run (writeBlks s off v) (pathWrite p off v temp tok) s

/-- Offset of a register of a block. -/
def offOf (b : Blk) (o : Nat) : Nat := b.base + o

end Sys2Proof.Machine
end

