-- ==== Sys2Proof/Machine/RegRows.lean ====
section
/-! DEFINITION. The commands that are register accesses, and memory accesses of the cores (R199–R201, R280, R481–R505). -/
namespace Sys2Proof.Machine

/-! ## Reads -/

/-- What an access of a path came to, as its agent sees it. -/
def corePut (s : State) (p : Path) (r : CoreResult) : State :=
  { s with coreOut := s.coreOut.filter (fun x => x.1 != p) ++ [(p, r)] }

/-- A read on a path. Offsets that I3C does not reach read zero (R434); an access of a control core to SEC is an access
fault (R473; log 60). -/
def pathRead (p : Path) (off : Nat) (s : State) : State :=
  if pathUp s p && decide (off % 4 = 0) then
    if mayRead p off then
      let x := regRead p off s
      corePut x.1 p (.value x.2.toNat)
    else
      match p with
      | .i3c => corePut s p (.value 0)
      | .core _ _ => corePut s p .fault
      | _ => s
  else s

/-- A register read as a command. -/
def runRead (p : Path) (off : Nat) (s : State) : Host.Outcome State Fault Refusal := run (regBlk s off) (pathRead p off) s

/-- REGISTER_RC_READ (R489). -/
def execRegisterRcRead (p : Path) (off : BitVec 44) (s : State) : Host.Outcome State Fault Refusal := runRead p off.toNat s

/-- COUNTER_LO_READ (R140, R482). -/
def execCounterLoRead (p : Path) (off : BitVec 44) (s : State) : Host.Outcome State Fault Refusal := runRead p off.toNat s

/-! ## Writes -/

/-- The write is a mailbox command with a row of its own. -/
def mbRowed (off v : Nat) : Bool :=
  (decide (off = offOf .sec rSecMbCmd) || decide (off = offOf .sec (rSecMbCmd + 0x2000))) &&
    [0x01, 0x02, 0x03, 0x04, 0x10, 0x11, 0x20, 0x30].contains (v % 256)

/-- REGISTER_WRITE (R481, R484–R490). -/
def execRegisterWrite (p : Path) (off : BitVec 44) (v : Word) (s : State) : Host.Outcome State Fault Refusal :=
  if mbRowed off.toNat v.toNat then .next s else runWrite p off.toNat v.toNat 0 false s

/-- A write of a register whose effect takes nothing from outside. -/
def runReg (p : Path) (b : Blk) (o : Nat) (v : Word) (s : State) : Host.Outcome State Fault Refusal :=
  runWrite p (offOf b o) v.toNat 0 false s

/-- XLAT_DATA_ACCESS: a write with a word, else a read (R500). -/
def execXlatDataAccess (p : Path) (wr : Option Word) (s : State) : Host.Outcome State Fault Refusal :=
  match wr with
  | some v => runReg p .xlat rXlatData v s
  | none => runRead p (offOf .xlat rXlatData) s

/-- SNAPSHOT_AND_CLEAR (R494). -/
def execSnapshotAndClear (p : Path) (v : Word) (s : State) : Host.Outcome State Fault Refusal := runReg p .evt rEvtClr v s

/-- STEP_CMD_OPEN (R523). -/
def execStepCmdOpen (p : Path) (s : State) : Host.Outcome State Fault Refusal := runReg p .hub rHubStepCmd 1 s

/-- STEP_CMD_DECLARE (R523). -/
def execStepCmdDeclare (p : Path) (s : State) : Host.Outcome State Fault Refusal := runReg p .hub rHubStepCmd 2 s

/-- STEP_CMD_ABANDON (R523). -/
def execStepCmdAbandon (p : Path) (s : State) : Host.Outcome State Fault Refusal := runReg p .hub rHubStepCmd 3 s

/-- SEQ_RUN (R170). -/
def execSeqRun (p : Path) (q : Fin 256) (v : Word) (s : State) : Host.Outcome State Fault Refusal := runReg p (.clu q) rCluSeqCtl v s

/-- GANG_APPLY (R106). -/
def execGangApply (p : Path) (q : Fin 256) (v : Word) (s : State) : Host.Outcome State Fault Refusal := runReg p (.clu q) rCluApply v s

/-- FENCE_APPLY (R136). -/
def execFenceApply (p : Path) (rg : Fin 16) (v : Word) (s : State) : Host.Outcome State Fault Refusal :=
  runReg p (rgnBlk rg) rRgnApply v s

/-- ROUTE_APPLY (R163). -/
def execRouteApply (p : Path) (d : Fin 4) (v : Word) (s : State) : Host.Outcome State Fault Refusal := runReg p (.route d) rRouteApply v s

/-- SCL_APPLY.EST (R231). -/
def execSclApplyEst (p : Path) (s : State) : Host.Outcome State Fault Refusal := runReg p .scl rSclApply 1 s

/-- SCL_APPLY.LS (R245). -/
def execSclApplyLs (p : Path) (s : State) : Host.Outcome State Fault Refusal := runReg p .scl rSclApply 2 s

/-- MIG_APPLY (R285). -/
def execMigApply (p : Path) (v : Word) (s : State) : Host.Outcome State Fault Refusal := runReg p .mig rMigApply v s

/-- UPD_APPLY (R306). -/
def execUpdApply (p : Path) (v : Word) (s : State) : Host.Outcome State Fault Refusal := runReg p .upd rUpdApply v s

/-- LNK_APPLY (R344). -/
def execLnkApply (p : Path) (l : Fin 6) (v : Word) (s : State) : Host.Outcome State Fault Refusal := runReg p (.lnk l) rLnkApply v s

/-- XLAT_APPLY (R500). -/
def execXlatApply (p : Path) (v : Word) (s : State) : Host.Outcome State Fault Refusal := runReg p .xlat rXlatApply v s

/-- CHK_APPLY (R361). -/
def execChkApply (p : Path) (v : Word) (s : State) : Host.Outcome State Fault Refusal := runReg p .chk rChkApply v s

/-- CKPT_APPLY (R405). -/
def execCkptApply (p : Path) (v : Word) (s : State) : Host.Outcome State Fault Refusal := runReg p .ckpt rCkptApply v s

/-- HUB_RESIL_APPLY (R393). -/
def execHubResilApply (p : Path) (v : Word) (s : State) : Host.Outcome State Fault Refusal := runReg p .hub rHubResilApply v s

/-- HUB_STEP_APPLY (R497). -/
def execHubStepApply (p : Path) (v : Word) (s : State) : Host.Outcome State Fault Refusal := runReg p .hub rHubStepApply v s

/-- HLTH_APPLY (R504). -/
def execHlthApply (p : Path) (v : Word) (s : State) : Host.Outcome State Fault Refusal := runReg p .hlth rHlthApply v s

/-- CWT_APPLY (R439). -/
def execCwtApply (p : Path) (v : Word) (s : State) : Host.Outcome State Fault Refusal := runReg p .cwt rCwtApply v s

/-- SYNC_VAL_WRITE (R502). -/
def execSyncValWrite (p : Path) (d : Fin 4) (o : Fin 4096) (v : Word) (s : State) : Host.Outcome State Fault Refusal :=
  runReg p (.sync d) (16 * o) v s

/-- SYNC_ADD_WRITE (R502). -/
def execSyncAddWrite (p : Path) (d : Fin 4) (o : Fin 4096) (v : Word) (s : State) : Host.Outcome State Fault Refusal :=
  runReg p (.sync d) (16 * o + 4) v s

/-- SYNC_ARM_WRITE: SYNC_ARM_TGT or SYNC_ARM_CTL (R502). -/
def execSyncArmWrite (p : Path) (d : Fin 4) (a : Fin 64) (tgt : Bool) (v : Word) (s : State) : Host.Outcome State Fault Refusal :=
  runReg p (.sync d) ((if tgt then rSyncArmTgt else rSyncArmCtl) + 16 * a) v s

/-- BCN_SLIP_CLEAR (R191, R501). -/
def execBcnSlipClear (p : Path) (d : Fin 4) (g : Fin 16) (v : Word) (s : State) : Host.Outcome State Fault Refusal :=
  runReg p (.bcn d) (0x40 + 8 * g) v s

/-- CACHE_DEMOTE (R260). -/
def execCacheDemote (p : Path) (rg : Fin 16) (v : Word) (s : State) : Host.Outcome State Fault Refusal :=
  runReg p (rgnBlk rg) rRgnCacheCtl v s

/-- TEST_MODE_ENTER (R280). -/
def execTestModeEnter (p : Path) (c : MemCtrl) (v : Word) (s : State) : Host.Outcome State Fault Refusal := runReg p (ctrlBlk c) rHcCtl v s

/-- TG_START (R281). -/
def execTgStart (p : Path) (c : MemCtrl) (ch : Fin 16) (v : Word) (s : State) : Host.Outcome State Fault Refusal :=
  runReg p (ctrlBlk c) (tgBase ch + rTgCtl) v s

/-- LINK_RETRAIN (R313). -/
def execLinkRetrain (p : Path) (l : Fin 6) (v : Word) (s : State) : Host.Outcome State Fault Refusal := runReg p (.lnk l) rLnkCtl v s

/-- FOLD_RESUME (R358). -/
def execFoldResume (p : Path) (v : Word) (s : State) : Host.Outcome State Fault Refusal := runReg p .chk rChkFoldStatus v s

/-- CKPT_REQ (R394). -/
def execCkptReq (p : Path) (v : Word) (s : State) : Host.Outcome State Fault Refusal := runReg p .ckpt rCkptReq v s

/-- RESTORE_START (R409). -/
def execRestoreStart (p : Path) (v : Word) (s : State) : Host.Outcome State Fault Refusal := runReg p .ckpt rCkptRstCtl v s

/-- RESTORE_COMMIT (R411). -/
def execRestoreCommit (p : Path) (v : Word) (s : State) : Host.Outcome State Fault Refusal := runReg p .ckpt rCkptRstCtl v s

/-- PWR_REQ_WRITE (R452). -/
def execPwrReqWrite (p : Path) (v : Word) (s : State) : Host.Outcome State Fault Refusal := runReg p .pwr rPwrReq v s

/-- PWR_RESET_MODULE (R459). -/
def execPwrResetModule (p : Path) (s : State) : Host.Outcome State Fault Refusal := runReg p .pwr rPwrReset 1 s

/-- PWR_RESET_JOB (R461). -/
def execPwrResetJob (p : Path) (s : State) : Host.Outcome State Fault Refusal := runReg p .pwr rPwrReset 2 s

/-- PWR_RESET_DIE (R459). -/
def execPwrResetDie (p : Path) (d : Fin 4) (s : State) : Host.Outcome State Fault Refusal :=
  runReg p .pwr rPwrReset (BitVec.ofNat 32 (2 ^ (2 + d.val))) s

/-- PWR_WDOG_WRITE (R461). -/
def execPwrWdogWrite (p : Path) (v : Word) (s : State) : Host.Outcome State Fault Refusal := runReg p .pwr rPwrWdog v s

/-! ## Mailbox (R472–R475) -/

/-- A write of SEC_MB_CMD of channel c by a management core or hub firmware. -/
def runMb (k : Fin 4) (c : Fin 2) (cmd : Nat) (len : BitVec 13) (temp : Int) (tok : Bool) (s : State) : Host.Outcome State Fault Refusal :=
  runWrite (.mgmt k) (offOf .sec (rSecMbCmd + 0x2000 * c)) (cmd + 256 * len.toNat) temp tok s

/-- Mailbox ATTEST (R470, R472). -/
def execMbAttest (k : Fin 4) (c : Fin 2) (len : BitVec 13) (s : State) : Host.Outcome State Fault Refusal := runMb k c 0x01 len 0 false s

/-- SIGN_START (R472). -/
def execSignStart (k : Fin 4) (c : Fin 2) (len : BitVec 13) (s : State) : Host.Outcome State Fault Refusal := runMb k c 0x02 len 0 false s

/-- SIGN_DATA (R472). -/
def execSignData (k : Fin 4) (c : Fin 2) (len : BitVec 13) (s : State) : Host.Outcome State Fault Refusal := runMb k c 0x03 len 0 false s

/-- SIGN_END (R471, R472). -/
def execSignEnd (k : Fin 4) (c : Fin 2) (len : BitVec 13) (s : State) : Host.Outcome State Fault Refusal := runMb k c 0x04 len 0 false s

/-- DBG_CHALLENGE (R472). -/
def execDbgChallenge (k : Fin 4) (c : Fin 2) (len : BitVec 13) (s : State) : Host.Outcome State Fault Refusal := runMb k c 0x10 len 0 false s

/-- DBG_RESPONSE; `temp` is what an alarm would record (R474, R477). -/
def execDbgResponse (k : Fin 4) (c : Fin 2) (len : BitVec 13) (temp : Int) (s : State) : Host.Outcome State Fault Refusal :=
  runMb k c 0x11 len temp false s

/-- ADVANCE (R469). -/
def execAdvance (k : Fin 4) (c : Fin 2) (len : BitVec 13) (s : State) : Host.Outcome State Fault Refusal := runMb k c 0x20 len 0 false s

/-- PROVISION; `tok`: the token in the window is Cloevo's (R475). -/
def execProvision (k : Fin 4) (c : Fin 2) (len : BitVec 13) (tok : Bool) (s : State) : Host.Outcome State Fault Refusal :=
  runMb k c 0x30 len 0 tok s

/-! ## Core memory accesses (R200, Table 6.11) -/

/-- The access writes. -/
def accWrites : CoreAcc → Bool
  | .load => false
  | .lr => false
  | _ => true

/-- Atomic: LR, SC or an AMO. -/
def accAtomic : CoreAcc → Bool
  | .load => false
  | .store _ => false
  | _ => true

/-- A management core or hub firmware. -/
def isMgmt : Path → Bool
  | .mgmt _ => true
  | _ => false

/-- The check of one address: only hub firmware reaches the reserved areas (R265). -/
def coreChk (s : State) (p : Path) (a : Nat) (wr : Bool) : Option AccErr :=
  match accChk s a wr with
  | some .reserved => if isMgmt p then (if inTest s a then some .test else none) else some .reserved
  | e => e

/-- SRAM windows take naturally aligned accesses of 1, 2, 4 and 8 bytes, and no atomics; atomics elsewhere are naturally
aligned, of 4 or 8 bytes (log 61). -/
def coreShape (s : State) (a n : Nat) (k : CoreAcc) : Bool :=
  let nat := decide (a % n = 0)
  match spaceOf s a with
  | .shared _ => [1, 2, 4, 8].contains n && nat && !accAtomic k
  | .tile _ _ => [1, 2, 4, 8].contains n && nat && !accAtomic k
  | _ => !accAtomic k || ([4, 8].contains n && nat)

/-- Why an access to memory faults. -/
def coreErr (s : State) (p : Path) (a n : Nat) (k : CoreAcc) : Option AccErr :=
  match coreChk s p a (accWrites k), coreChk s p (a + n - 1) (accWrites k) with
  | some e, _ => some e
  | none, some e => some e
  | none, none => if coreShape s a n k then none else some .align

/-- WHERE of a core. -/
def whPath : Path → Nat
  | .core d _ => whDie d.val
  | _ => whHub

/-- An access fault, with the event its reason has (R200, R265, R280, R305). -/
def coreFault (s : State) (p : Path) (e : AccErr) : State :=
  let s1 := raiseAcc s e (whPath p) 0
  corePut (if e = .dieAbsent then raise s1 .dieAbsentAccess (whPath p) 0 [] else s1) p .fault

/-- The value an atomic operation stores. -/
def amoVal (op : AmoOp) (n old v : Nat) : Nat :=
  let w := 8 * n
  let x := v % 2 ^ w
  match op with
  | .swap => x
  | .add => (old + x) % 2 ^ w
  | .xor => old ^^^ x
  | .and => old &&& x
  | .or => old ||| x
  | .min => if sextI w x < sextI w old then x else old
  | .max => if sextI w old < sextI w x then x else old
  | .minu => min old x
  | .maxu => max old x

/-- The bytes of an access as a number, each through the page table (R302). -/
def coreRd (s : State) (a n : Nat) : Nat := leNat ((List.range n).map (fun k => memB s (xlatPage s (a + k))))

/-- Store bytes of a core. -/
def coreWr (s : State) (a n v : Nat) : State := wrBytes (traffic s none 0 a n true) a (leBytes n v)

/-- Drop the reservation of a path. -/
def dropResv (s : State) (p : Path) : State := { s with resv := s.resv.filter (fun x => x.1 != p) }

/-- An access to memory that passed its checks. -/
def coreMem (s : State) (p : Path) (a n : Nat) (k : CoreAcc) : State :=
  let pa := xlatPage s a
  let old := coreRd s a n
  match k with
  | .load => corePut (traffic s none 0 pa n false) p (.value old)
  | .store v => corePut (coreWr s a n v) p (.value 0)
  | .lr =>
    let s1 := dropResv (traffic s none 0 pa n false) p
    corePut { s1 with resv := s1.resv ++ [(p, pa / 64)] } p (.value old)
  | .sc v =>
    if s.resv.contains (p, pa / 64) then corePut (dropResv (coreWr s a n v) p) p (.value 0) else corePut (dropResv s p) p (.value 1)
  | .amo op v => corePut (coreWr (traffic s none 0 pa n false) a n (amoVal op n old v)) p (.value old)

/-- A poisoned sector lies in what the access loads (R275). -/
def corePoison (s : State) (a n : Nat) (k : CoreAcc) : Bool :=
  match k with
  | .store _ => false
  | .sc _ => false
  | _ => poisoned s (xlatPage s a) n

/-- An access to the register space: 32-bit aligned loads and stores only (Table 6.11). A mailbox command comes by its own
row. -/
def coreReg (s : State) (p : Path) (off n : Nat) (k : CoreAcc) : State :=
  if n ≠ 4 ∨ off % 4 ≠ 0 then corePut s p .fault
  else
    match k with
    | .load => pathRead p off s
    | .store v =>
      if mbRowed off v then corePut s p (.value 0)
      else if mayWrite s p off then corePut (pathWrite p off (v % u32Mod) 0 false s) p (.value 0) else corePut s p .fault
    | _ => corePut s p .fault

/-- What the time CSR of a control core reads: the beacon (R193, Table 6.10). -/
def coreTime (s : State) : Nat := s.beacon

/-- CORE_MEM_ACCESS: an access of n bytes by a core (R200) at the physical address that its page-table entry names. Such an
entry can name 56 bits; an address above bit 47 is in no space and faults. -/
def opCoreMemAccess (p : Path) (a n : Nat) (k : CoreAcc) (errs : List MemErr) (s : State) : State :=
  match p with
  | .lane => s
  | .cwt => s
  | .i3c => s
  | _ =>
    if !pathUp s p ∨ n = 0 then s
    else if 0xF00000000000 ≤ a ∧ a < 0x1000000000000 then coreReg s p (a - 0xF00000000000) n k
    else
      match coreErr s p a n k with
      | some e => coreFault s p e
      | none =>
        let s1 := memErrs s errs
        if corePoison s1 a n k then corePut (poisonRead s1 (xlatPage s1 a) (whPath p) 0) p .fault else coreMem s1 p a n k

/-- Blocks that a core access calls on. -/
def coreBlks (s : State) (a : Nat) (k : CoreAcc) : List Blk :=
  if 0xF00000000000 ≤ a ∧ a < 0x1000000000000 then
    match k with
    | .store v => writeBlks s (a - 0xF00000000000) (v % u32Mod)
    | _ => regBlk s (a - 0xF00000000000)
  else
    match ctrlOf s a with
    | some b => [b]
    | none => []

/-- CORE_MEM_ACCESS (R200). -/
def execCoreMemAccess (p : Path) (a : BitVec 56) (n : Fin 65) (k : CoreAcc) (errs : List MemErr) (s : State) :
    Host.Outcome State Fault Refusal :=
  run (coreBlks s a.toNat k) (opCoreMemAccess p a.toNat n k errs) s

end Sys2Proof.Machine
end

