-- ==== Sys2Proof/Machine/CwtRows.lean ====
section
/-! DEFINITION. The commands of the host path: CWT frames and timers (R413–R430), and the Ethernet ports (R413, R414,
R439, R514). -/
namespace Sys2Proof.Machine

/-! ## Session control (R418, R419, R421) -/

/-- A NACK to a frame of the session that its address may not send on yet: the session's expected SEQ stands in ACK. -/
def openNack (s : State) (c : Sess) (port code : Nat) : State :=
  netOut s port 0 { cwtFrame cNack 0 [] with arg := code, ack := (cwtQ c.qs 0).rxNext }

/-- The session is open: OPENED, the frames still owed, and the limits of every queue (R418, R422). -/
def openedSend (s : State) (old : List CwtFrame) : State :=
  let b := leBytes 8 (serialOf s) ++ leBytes 4 s.epoch ++ leBytes 2 (cwtQueues s) ++ [0, 0]
  let s1 := old.foldl hostSend (hostSend (setFld s .cwt rCwtStatus 1 0 1) (cwtFrame cOpened 0 b))
  let s2 := (List.range (cwtQueues s)).foldl (fun t q => giveCredit t (q + 1)) s1
  pushEvents (pushCompl (tmArm s2 .creditRep creditEvery))

/-- A session at its start: every SEQ 0, and the OPEN taken as frame 0 of queue 0 (R419). -/
def sessNew (s : State) (job addr port : Nat) : State :=
  let c : Sess := { job := job, addr := addr, port := port, lost := false, rxAt := s.beacon, txAt := s.beacon,
                    qs := updQ [] 0 (fun x => { x with rxNext := 1 }) }
  let head := (s.evt.host.recs.head?.map (fun r => recEseq r)).getD s.evt.host.eseq
  setReg (setReg { s with sess := some c, hostSent := head } .cwt rCwtJobLo (BitVec.ofNat 32 job))
    .cwt rCwtJobHi (BitVec.ofNat 32 (job / u32Mod))

/-- Frames that the session still owes the host, oldest first on each queue: they go again under new SEQs. Event records
go again from the ring. -/
def owed (c : Sess) : List CwtFrame :=
  c.qs.flatMap (fun e => e.2.unack.filter (fun f => !(decide (f.ty = cOpened) || decide (f.ty = cEvent))))

/-- OPEN without RESUME: a session with every SEQ 0. -/
def openFresh (s : State) (job addr port : Nat) (f : CwtFrame) (old : List CwtFrame) : State :=
  if f.seq ≠ 0 then strayNack s port 0 2 else openedSend (sessNew s job addr port) old

/-- OPEN with RESUME: every SEQ is kept, every unacknowledged frame goes again (R419), and its timer starts anew. -/
def openResume (s : State) (c : Sess) (addr port : Nat) (f : CwtFrame) : State :=
  let x := cwtQ c.qs 0
  if f.seq = x.rxNext then
    let s1 := hostSeen { s with sess := some { c with addr := addr, port := port, lost := false, qs := c.qs.map (fun e =>
      (e.1, { e.2 with rtoN := 0, rto := e.2.rto.map (fun _ => s.beacon + rtoOf s) })) } } port f
    let s2 := hostTake s1 f
    openedSend (c.qs.foldl (fun t e => resendHost t e.1 (oldestSeq ((t.sess.map (fun d => cwtQ d.qs e.1)).getD e.2))) s2) []
  else if seqLt f.seq x.rxNext then netOut (cnt s .cwt rCwtDup) port 0 { cwtFrame cAck 0 [] with ack := x.rxNext }
  else openNack s c port 2

/-- A CWT OPEN or WORK frame is a wake source of dim and dusk (Table 16.4). -/
def cwtWake (s : State) : State := if wakes s .cwt then wake s else s

/-- CWT_OPEN (R418, R419). -/
def opCwtOpen (port : Nat) (p : CwtPeer) (f : CwtFrame) (s : State) : State :=
  if f.ty ≠ cOpen ∨ !portUp s port then s
  else
    match p with
    | .sink _ => s
    | .host addr =>
      let s1 := cwtWake s
      let job := leAt f.body 0 8
      if f.queue ≠ 0 then strayNack s1 port f.queue 7
      else if job = 0 then strayNack s1 port 0 6
      else
        match s1.sess with
        | none => openFresh s1 job addr port f []
        | some c =>
          if c.job ≠ job then strayNack s1 port 0 6
          else if bitAt f.fflags 0 then openResume s1 c addr port f
          else openFresh s1 job addr port f (owed c)

/-- CWT_OPEN (R418). -/
def execCwtOpen (port : Fin 2) (p : CwtPeer) (f : CwtFrame) (s : State) : Host.Outcome State Fault Refusal :=
  run [.cwt] (opCwtOpen port p f) s

/-- CWT_CLOSE: the acknowledgement, and the session's end (R418). -/
def closeTake (f : CwtFrame) (s : State) : State × Bool :=
  if s.sess.any (fun c => decide (c.job = leAt f.body 0 8)) then (sessEnd (hostAck (hostTake s f) f.queue), false)
  else (hostNack s f.queue 6 0, false)

/-- CWT_CLOSE (R418). -/
def execCwtClose (port : Fin 2) (p : CwtPeer) (f : CwtFrame) (s : State) : Host.Outcome State Fault Refusal :=
  run [.cwt] (hostRx cClose port p f (closeTake f)) s

/-! ## Sinks (R430) -/

/-- What a frame of a sink lets go on. -/
def sinkNext (s : State) : State := rstAdvance (snapAdvance (objsBegin s))

/-- CWT_OPENED: a bulk session is open (R430). -/
def openedTake (k : Nat) (s : State) : State :=
  match bulkOf s k with
  | some b => sinkNext (setBulk s { b with open_ := true })
  | none => s

/-- CWT_OPENED (R430). -/
def execCwtOpened (port : Fin 2) (p : CwtPeer) (f : CwtFrame) (s : State) : Host.Outcome State Fault Refusal :=
  run [.cwt] (sinkRx cOpened port p f openedTake) s

/-- The transfer that an object belongs to ends (R407, R410, R430). -/
def transferFail (s : State) (who : Nat) : State :=
  match who with
  | 0 => snapAbort s abSink
  | 1 => rsnapAbort s
  | _ => restoreFail s

/-- Objects fail: each transfer that has one ends. -/
def objsFail (s : State) (l : List BulkObj) : State :=
  ((List.range 3).filter (fun w => l.any (fun o => decide (o.who = w)))).foldl transferFail s

/-- Objects of a sink on a queue, or on any when the frame names queue 0. -/
def objsOn (s : State) (k q : Nat) : List BulkObj :=
  s.objects.filter (fun o => decide (o.sink = k) && !o.done && (decide (q = 0) || decide (o.q = q)))

/-- BULK_DATA: the object's bytes in order; an empty body ends an object that is shorter than asked. -/
def bulkDataTake (f : CwtFrame) (k : Nat) (s : State) : State :=
  let s1 := { s with objects := s.objects.map (fun o =>
    if decide (o.sink = k) && decide (o.q = f.queue) && !o.put && !o.done && decide (f.offset = o.data.length) then
      let d := (o.data ++ f.body).take o.len
      { o with data := d, done := f.body.isEmpty || decide (o.len ≤ d.length) }
    else o) }
  sinkNext (sinkCredit s1 k f.queue)

/-- CWT_BULK_DATA (R430). -/
def execCwtBulkData (port : Fin 2) (p : CwtPeer) (f : CwtFrame) (s : State) : Host.Outcome State Fault Refusal :=
  run [.cwt] (sinkRx cBulkData port p f (bulkDataTake f)) s

/-! ## ACK, NACK, CREDIT, KEEPALIVE (R420–R423) -/

/-- A frame of the host or of a sink. -/
def anyRx (ty port : Nat) (p : CwtPeer) (f : CwtFrame) (host : State → State) (sink : Nat → State → State) (s : State) : State :=
  match p with
  | .host _ => hostRx ty port p f (fun t => (host t, true)) s
  | .sink _ => sinkRx ty port p f (fun k t => sinkNext (sink k t)) s

/-- CWT_ACK (R421). -/
def execCwtAck (port : Fin 2) (p : CwtPeer) (f : CwtFrame) (s : State) : Host.Outcome State Fault Refusal :=
  run [.cwt] (anyRx cAck port p f id (fun _ t => t)) s

/-- CWT_KEEPALIVE (R421). -/
def execCwtKeepalive (port : Fin 2) (p : CwtPeer) (f : CwtFrame) (s : State) : Host.Outcome State Fault Refusal :=
  run [.cwt] (anyRx cKeepalive port p f id (fun _ t => t)) s

/-- Set the retransmission timer of a queue of the session. -/
def hostRto (s : State) (q : Nat) (d : Option Nat) (n : Nat) : State :=
  match s.sess with
  | some c => { s with sess := some { c with qs := updQ c.qs q (fun x => { x with rto := d, rtoN := n }) } }
  | none => s

/-- Set the retransmission timer of a queue of a sink. -/
def sinkRto (s : State) (k q : Nat) (d : Option Nat) (n : Nat) : State :=
  match bulkOf s k with
  | some b => setBulk s { b with qs := updQ b.qs q (fun x => { x with rto := d, rtoN := n }) }
  | none => s

/-- Unacknowledged frames of a queue of the session, or of a sink. -/
def hostUnack (s : State) (q : Nat) : List CwtFrame := (s.sess.map (fun c => (cwtQ c.qs q).unack)).getD []
def sinkUnack (s : State) (k q : Nat) : List CwtFrame := ((bulkOf s k).map (fun b => (cwtQ b.qs q).unack)).getD []

/-- NACK of the host (Table 15.4): resend after the retry-after, from the expected SEQ, or from the SEQ named. -/
def hostNackTake (f : CwtFrame) (s : State) : State :=
  match f.arg with
  | 1 => if (hostUnack s f.queue).isEmpty then s else hostRto s f.queue (some (s.beacon + f.offset * btUs)) 0
  | 2 => resendHost s f.queue f.ack
  | 3 => resendHost s f.queue f.offset
  | _ => s

/-- NACK of a sink: the same, an object that is not there, or one that the sink refuses. -/
def sinkNackTake (f : CwtFrame) (k : Nat) (s : State) : State :=
  match f.arg with
  | 1 => if (sinkUnack s k f.queue).isEmpty then s else sinkRto s k f.queue (some (s.beacon + f.offset * btUs)) 0
  | 2 => resendSink s k f.queue f.ack
  | 3 => resendSink s k f.queue f.offset
  | 9 => { s with objects := s.objects.map (fun o =>
      if decide (o.sink = k) && decide (o.q = f.queue) && !o.put && !o.done then { o with done := true, found := false, data := [] } else o) }
  | 6 => objsFail s (objsOn s k f.queue)
  | 7 => objsFail s (objsOn s k f.queue)
  | 8 => objsFail s (objsOn s k f.queue)
  | _ => s

/-- CWT_NACK (R423, Table 15.4). -/
def execCwtNack (port : Fin 2) (p : CwtPeer) (f : CwtFrame) (s : State) : Host.Outcome State Fault Refusal :=
  run [.cwt] (anyRx cNack port p f (hostNackTake f) (sinkNackTake f)) s

/-- Absolute limits of a peer; they never decrease (R422). -/
def takeLimits (f : CwtFrame) (x : CwtQ) : CwtQ :=
  let flim := leAt f.body 0 4
  { x with pflim := if seqLt x.pflim flim then flim else x.pflim, pblim := max x.pblim (leAt f.body 8 8) }

/-- CREDIT of the host. -/
def hostCreditTake (f : CwtFrame) (s : State) : State :=
  match s.sess with
  | some c => { s with sess := some { c with qs := updQ c.qs f.queue (takeLimits f) } }
  | none => s

/-- CREDIT of a sink: frames that waited go out. -/
def sinkCreditTake (f : CwtFrame) (k : Nat) (s : State) : State :=
  match bulkOf s k with
  | some b => bulkQueue (setBulk s { b with qs := updQ b.qs f.queue (takeLimits f) }) k f.queue []
  | none => s

/-- CWT_CREDIT (R422). -/
def execCwtCredit (port : Fin 2) (p : CwtPeer) (f : CwtFrame) (s : State) : Host.Outcome State Fault Refusal :=
  run [.cwt] (anyRx cCredit port p f (hostCreditTake f) (sinkCreditTake f)) s

/-! ## Work orders (R426–R429, R433) -/

/-- A WORK frame of a kind on a port that is up wakes the module, then is received. -/
def opWork (kind port : Nat) (p : CwtPeer) (f : CwtFrame) (act : Order → State → State × Order) (s : State) : State :=
  if f.ty = cWork ∧ workKind f = kind ∧ portUp s port then workRx kind port p f act (cwtWake s) else s

/-- WORK_WRITE: the order waits for its DATA (R427). -/
def execWorkWrite (port : Fin 2) (p : CwtPeer) (f : CwtFrame) (s : State) : Host.Outcome State Fault Refusal :=
  run [.cwt] (opWork 1 port p f (fun o t => (t, o))) s

/-- WORK_READ: RDATA frames of the contents (R427). -/
def execWorkRead (port : Fin 2) (p : CwtPeer) (f : CwtFrame) (s : State) : Host.Outcome State Fault Refusal :=
  run [.cwt] (opWork 2 port p f readOrder) s

/-- WORK_SIGNAL: it begins after the earlier orders of its queue (R427). -/
def execWorkSignal (port : Fin 2) (p : CwtPeer) (f : CwtFrame) (s : State) : Host.Outcome State Fault Refusal :=
  run [.cwt] (opWork 3 port p f (fun o t => (t, o))) s

/-- WORK_REGRD: as WORK_SIGNAL (R427). -/
def execWorkRegrd (port : Fin 2) (p : CwtPeer) (f : CwtFrame) (s : State) : Host.Outcome State Fault Refusal :=
  run [.cwt] (opWork 4 port p f (fun o t => (t, o))) s

/-- WORK_REGWR: as WORK_SIGNAL (R427). -/
def execWorkRegwr (port : Fin 2) (p : CwtPeer) (f : CwtFrame) (s : State) : Host.Outcome State Fault Refusal :=
  run [.cwt] (opWork 5 port p f (fun o t => (t, o))) s

/-- CWT_DATA (R416, R427). -/
def execCwtData (port : Fin 2) (p : CwtPeer) (f : CwtFrame) (s : State) : Host.Outcome State Fault Refusal :=
  run [.cwt] (hostRx cData port p f (dataTake f)) s

/-- CWT_ABORT (R429). -/
def execCwtAbort (port : Fin 2) (p : CwtPeer) (f : CwtFrame) (s : State) : Host.Outcome State Fault Refusal :=
  run [.cwt] (hostRx cAbort port p f (abortTake f)) s

/-- Register offset of an order's address: inside the register space and 32-bit aligned. -/
def orderOff (o : Order) : Option Nat :=
  if 0xF00000000000 ≤ o.addr ∧ o.addr < 0x1000000000000 ∧ o.addr % 4 = 0 then some (o.addr - 0xF00000000000) else none

/-- A register access outside Table 15.8: REG_DENIED and EVT_CWT_REG_DENIED (R428, R433). -/
def regDenied (s : State) (o : Order) : State × Order := (raise s .cwtRegDenied whHub 0 [], { o with status := 0x15 })

/-- What a SIGNAL, REGRD or REGWR does when every earlier order of its queue has completed (R427, R433). -/
def orderAct (o : Order) (s : State) : State × Order :=
  match o.kind with
  | 3 =>
    let x := signalTo s (bits o.addr 13 12) (bits o.addr 11 0) (bits o.len 30 0)
    (x.1, { o with status := x.2 })
  | 4 =>
    match orderOff o with
    | some off =>
      if mayRead .cwt off then
        let x := regRead .cwt off s
        (x.1, { o with bytes := x.2.toNat })
      else regDenied s o
    | none => regDenied s o
  | 5 =>
    match orderOff o with
    | some off => if mayWrite s .cwt off then (regWrite .cwt off (o.len % u32Mod) 0 false s, { o with bytes := 4 }) else regDenied s o
    | none => regDenied s o
  | _ => (s, o)

/-- The order can retire now: its work is at an end, or it is done in one piece at its turn. -/
def canRetire (o : Order) : Bool := o.done || decide (3 ≤ o.kind)

/-- ORDER_RETIRE: an order of a queue (R427, R429). -/
def opOrderRetire (q : Nat) (s : State) : State :=
  match orderNext s q with
  | some o =>
    if !canRetire o then s
    else if o.done ∨ o.status ≠ 0 then retire s o
    else
      let x := orderAct o s
      retire x.1 x.2
  | none => s

/-- Blocks that the oldest order of a queue calls on. -/
def orderBlks (s : State) (q : Nat) : List Blk :=
  match orderNext s q with
  | some o =>
    if o.done ∨ o.status ≠ 0 then [.cwt]
    else
      match o.kind, orderOff o with
      | 4, some off => .cwt :: regBlk s off
      | 5, some off => .cwt :: writeBlks s off (o.len % u32Mod)
      | _, _ => [.cwt]
  | none => [.cwt]

/-- ORDER_RETIRE (R428). -/
def execOrderRetire (q : Fin 256) (s : State) : Host.Outcome State Fault Refusal := run (orderBlks s q) (opOrderRetire q) s

/-! ## Timers (R421, R422, R430) -/

/-- The retransmission timer of a queue has expired. -/
def rtoDue (s : State) (x : CwtQ) : Bool := !x.unack.isEmpty && x.rto.any (fun d => decide (d ≤ s.beacon))

/-- CWT_RTO_EXPIRE: resend from the oldest frame and double the timer; the session is LOST at the 8th expiry (R421). -/
def opRtoExpire (dst : Option (Fin 64)) (q : Nat) (s : State) : State :=
  match dst with
  | none =>
    match s.sess with
    | some c =>
      let x := cwtQ c.qs q
      if c.lost ∨ !rtoDue s x then s
      else if 8 ≤ x.rtoN + 1 then sessLost s 0
      else
        let s1 := hostRto s q (some (nextRto s (x.rtoN + 1))) (x.rtoN + 1)
        resendHost { s1 with sess := s1.sess.map (fun d => { d with txAt := s.beacon }) } q (oldestSeq x)
    | none => s
  | some k =>
    match bulkOf s k with
    | some b =>
      let x := cwtQ b.qs q
      if !rtoDue s x then s
      else resendSink (sinkRto (setBulk s { b with txAt := s.beacon }) k q (some (nextRto s (x.rtoN + 1))) (x.rtoN + 1)) k q (oldestSeq x)
    | none => s

/-- CWT_RTO_EXPIRE (R421). -/
def execCwtRtoExpire (dst : Option (Fin 64)) (q : Fin 256) (s : State) : Host.Outcome State Fault Refusal :=
  run [.cwt] (opRtoExpire dst q) s

/-- Longest silence of the module: 100 ms (R421). -/
def keepEvery : Nat := 100 * btMs

/-- CWT_KEEPALIVE_TIMER (R421). -/
def opKeepalive (dst : Option (Fin 64)) (s : State) : State :=
  match dst with
  | none =>
    match s.sess with
    | some c => if !c.lost && decide (c.txAt + keepEvery ≤ s.beacon) then hostSend s (cwtFrame cKeepalive 0 []) else s
    | none => s
  | some k =>
    match bulkOf s k with
    | some b => if b.txAt + keepEvery ≤ s.beacon then sinkSend s k (cwtFrame cKeepalive 0 []) else s
    | none => s

/-- CWT_KEEPALIVE_TIMER (R421). -/
def execCwtKeepaliveTimer (dst : Option (Fin 64)) (s : State) : Host.Outcome State Fault Refusal := run [.cwt] (opKeepalive dst) s

/-- CWT_SILENCE_TIMEOUT: 3 s without a frame of the host (R421). -/
def opSilence (s : State) : State := if s.sess.any (fun c => decide (c.rxAt + 3000 * btMs ≤ s.beacon)) then sessLost s 1 else s

/-- CWT_SILENCE_TIMEOUT (R421). -/
def execCwtSilenceTimeout (s : State) : Host.Outcome State Fault Refusal := run [.cwt] opSilence s

/-- Reads of a sink in progress. -/
def getsOf (s : State) : List (Nat × Nat) := (s.objects.filter (fun o => !o.put && !o.done && decide (o.q ≠ 0))).map (fun o => (o.sink, o.q))

/-- CREDIT_REPEAT_TIMER: the limits of every queue again, every 10 ms (R422). -/
def opCreditRepeat (s : State) : State :=
  if (s.sess.isNone ∧ getsOf s = []) ∨ s.beacon < (tmAt s .creditRep).getD 0 then s
  else
    let s1 := if s.sess.isSome then (List.range (cwtQueues s)).foldl (fun t q => repeatCredit t (q + 1)) s else s
    tmArm ((getsOf s).foldl (fun t x => sinkCredit t x.1 x.2) s1) .creditRep creditEvery

/-- CREDIT_REPEAT_TIMER (R422). -/
def execCreditRepeatTimer (s : State) : Host.Outcome State Fault Refusal := run [.cwt] opCreditRepeat s

/-- A queue of a sink has a frame that was sent CWT_TMR.BULK ago and is not acknowledged (R430). -/
def bulkLate (s : State) (k q : Nat) : Bool :=
  (bulkOf s k).any (fun b => (cwtQ b.qs q).sent.head?.any (fun t => decide (t + bulkTmo s ≤ s.beacon)))

/-- BULK_TIMEOUT: the object on that queue fails, and its checkpoint or restore aborts (R407, R430). -/
def opBulkTimeout (k q : Nat) (s : State) : State := if bulkLate s k q then objsFail s (objsOn s k q) else s

/-- BULK_TIMEOUT (R430). -/
def execBulkTimeout (k : Fin 64) (q : Fin 17) (s : State) : Host.Outcome State Fault Refusal := run [.cwt] (opBulkTimeout k q) s

/-! ## Ports (R413, R414, R439, R514) -/

/-- Stop a priority of a port. -/
def pauseOn (port : Nat) (s : State) (prio : Nat) : State :=
  if s.pfc.contains (port, prio) then s else { s with pfc := s.pfc ++ [(port, prio)] }

/-- Restart a priority of a port: the frames that waited for it go out in order. -/
def pauseOff (port : Nat) (s : State) (prio : Nat) : State :=
  let mine := fun (o : CwtOut) => decide (o.port = port) && decide (pcpOf s port o.f = prio)
  let go := s.cwtHeld.filter mine
  go.foldl (fun t o => netOut t o.port o.dst o.f)
    { s with pfc := s.pfc.filter (fun x => x != (port, prio)), cwtHeld := s.cwtHeld.filter (fun o => !mine o) }

/-- PFC_FRAME_RX: a PFC frame names a priority; a PAUSE frame all of them. The module honors the kind in use (R413). -/
def opPfcFrameRx (port prio : Nat) (stop pause : Bool) (s : State) : State :=
  let m := flowMode s port
  if !portUp s port then s
  else if pause then
    if m = 2 then (List.range 8).foldl (if stop then pauseOn port else pauseOff port) s else s
  else if m = 1 ∨ m = 3 then (if stop then pauseOn port s prio else pauseOff port s prio)
  else s

/-- PFC_FRAME_RX (R413). -/
def execPfcFrameRx (port : Fin 2) (prio : Fin 8) (stop pause : Bool) (s : State) : Host.Outcome State Fault Refusal :=
  run [.eth port] (opPfcFrameRx port prio stop pause) s

/-- A port answers a request for one of its own addresses (R413). -/
def ethAnswer (port : Nat) (own : Bool) (m : EthMsg) (s : State) : State :=
  if portUp s port && own then { s with ethOut := s.ethOut ++ [m] } else s

/-- NEIGHBOR_DISCOVERY_RX (R413). -/
def execNeighborDiscoveryRx (port : Fin 2) (v6 : Bool) (target asker : Nat) (own : Bool) (s : State) : Host.Outcome State Fault Refusal :=
  run [.eth port] (ethAnswer port own (.neighbor port v6 target asker (s.sec.macs.getD port 0))) s

/-- ICMP_ECHO_RX (R413). -/
def execIcmpEchoRx (port : Fin 2) (v6 : Bool) (asker : Nat) (ident seq : BitVec 16) (data : List Byte) (own : Bool) (s : State) :
    Host.Outcome State Fault Refusal :=
  run [.eth port] (ethAnswer port own (.echo port v6 asker ident.toNat seq.toNat data)) s

/-- The port can have a link: a plug in full power, the port enabled, and the hub powered above shade. -/
def ethCan (s : State) (port : Nat) : Bool :=
  (s.osfp.getD port none).any (fun p => !p.lowPower) && bitAt (s.ethCfg.getD port (0, 0, 0)).1.toNat 0 && ladder s &&
    decide (s.pwr.code ≤ 2)

/-- ETH_LINK_CHANGE (R439). -/
def opEthLinkChange (port : Nat) (up : Bool) (s : State) : State :=
  if up then (if ethCan s port then setFld s (.eth port) rEthStatus 0 0 1 else s) else portDown s port

/-- ETH_LINK_CHANGE (R439). -/
def execEthLinkChange (port : Fin 2) (up : Bool) (s : State) : Host.Outcome State Fault Refusal :=
  run [.eth port] (opEthLinkChange port up) s

/-- ETH_FRAME_DISCARD: fragments, extension headers and bad UDP checksums count in ETH_RX_DROP (R414), a bad CWT header in
CWT_BAD (R417). -/
def opEthFrameDiscard (port : Nat) (why : EthDrop) (s : State) : State :=
  if !portUp s port then s
  else if why = .cwtHead then cnt s .cwt rCwtBad else cnt s (.eth port) rEthRxDrop

/-- ETH_FRAME_DISCARD (R414). -/
def execEthFrameDiscard (port : Fin 2) (why : EthDrop) (s : State) : Host.Outcome State Fault Refusal :=
  run [.eth port] (opEthFrameDiscard port why) s

/-- OSFP_INSERT: a plug that draws more than 15 W is held in low power, and its port stays down (R514). -/
def opOsfpInsert (port watts : Nat) (s : State) : State :=
  if (s.osfp.getD port none).isSome then s else { s with osfp := s.osfp.set port (some { lowPower := decide (15 < watts) }) }

/-- OSFP_INSERT (R514). -/
def execOsfpInsert (port : Fin 2) (watts : BitVec 8) (s : State) : Host.Outcome State Fault Refusal :=
  run [.eth port] (opOsfpInsert port watts.toNat) s

/-- OSFP_REMOVE: the port goes down and shows DOWN (R514). -/
def opOsfpRemove (port : Nat) (s : State) : State :=
  if (s.osfp.getD port none).isNone then s
  else setFld (setFld { s with osfp := s.osfp.set port none } (.eth port) rEthStatus 0 0 0) (.eth port) rEthStatus 1 1 1

/-- OSFP_REMOVE (R514). -/
def execOsfpRemove (port : Fin 2) (s : State) : Host.Outcome State Fault Refusal := run [.eth port] (opOsfpRemove port) s

end Sys2Proof.Machine
end

