-- ==== Sys2Proof/Machine/Mgmt.lean ====
section
/-! DEFINITION. The fault manager: the management lane and its commands (R435–R438, Table 15.10), and the I3C port (R434). -/
namespace Sys2Proof.Machine

/-! ## Frames of the lane -/

/-- MSTATUS values (Table 15.9). -/
def msOk : Nat := 0
def msAccepted : Nat := 1
def msBadArg : Nat := 2
def msLocked : Nat := 3
def msState : Nat := 4

/-- Send what the management ring holds and has not sent, 30 records to a frame (R432, R436). -/
def lanePushGo : Nat → State → State
  | 0, s => s
  | k + 1, s =>
    let l := (ringFrom s.evt.mgmt s.mgmt.sent).take 30
    if l.isEmpty then s
    else
      let n := ((l.getLast?.map recEseq).getD 0 + 1) % u32Mod
      lanePushGo k (lanePost { s with mgmt := { s.mgmt with sent := n } } 3 l.flatten)

/-- Deliver event records to the fault manager once a command has named an address to reply to. -/
def lanePush (s : State) : State := if s.mgmt.peer && laneUp s then lanePushGo 137 s else s

/-- The answer of a command: its effect, MSTATUS and the body of the RESP. -/
structure Answer where
  st : State
  status : Nat
  body : List Byte

/-- An answer without a body. -/
def ans (s : State) (status : Nat) : Answer := { st := s, status := status, body := [] }

/-- OK when `c` holds, and then the effect; otherwise a status and no change (R437). -/
def ansIf (c : Bool) (bad : Nat) (f : State → State) (s : State) : Answer := if c then ans (f s) msOk else ans s bad

/-- Receive a CMD: one for this module or any; a repeated MSEQ is answered from the store and not executed (R435, R436).
It is the wake source of shade (Table 16.4). -/
def cmdRx (mseq : Word) (serial : DWord) (cmd : Nat) (act : State → Answer) (s : State) : State :=
  if !laneUp s || !(decide (serial = 0) || decide (serial.toNat = serialOf s)) then s
  else
    let s0 := { s with mgmt := { s.mgmt with peer := true } }
    let s1 := if wakes s0 .management then wake s0 else s0
    match s1.mgmt.resp.find? (fun x => x.1 == mseq.toNat) with
    | some x => laneSend s1 x.2
    | none =>
      let a := act s1
      if laneUp a.st then lanePush (laneResp a.st mseq.toNat cmd a.status a.body) else a.st

/-! ## Coordinates and translation -/

/-- SET_COORD: physical coordinate, PDIM and mode, and the lock; LOCKED once locked (R437, R499). -/
def doSetCoord (pc : BitVec 18) (pdim : BitVec 18) (mode : Bool) (s : State) : Answer :=
  ansIf (!rbit s .coord rCoordPhys 31) msLocked (fun t =>
    let t1 := setFld (setFld t .coord rCoordPhys 17 0 pc.toNat) .coord rCoordPhys 18 18 (b2n mode)
    setFld (setFld t1 .coord rCoordPdim 17 0 pdim.toNat) .coord rCoordPhys 31 31 1) s

/-- SET_COORD. -/
def execSetCoord (mseq : Word) (serial : DWord) (pc pdim : BitVec 18) (mode : Bool) (s : State) : Host.Outcome State Fault Refusal :=
  run [.coord] (cmdRx mseq serial 0x01 (doSetCoord pc pdim mode)) s

/-- The logical coordinate, with the end-to-end state cleared (R528). -/
def takeLogical (lc : BitVec 18) (valid : Bool) (s : State) : State :=
  let s1 := setFld (setFld s .coord rCoordLogical 17 0 lc.toNat) .coord rCoordLogical 31 31 (b2n valid)
  { s1 with e2e := e2eClear s1.e2e (fun _ => true) }

/-- SET_LOGICAL: STATE while a job session is open (R437). -/
def doSetLogical (lc : BitVec 18) (valid : Bool) (s : State) : Answer := ansIf s.sess.isNone msState (takeLogical lc valid) s

/-- SET_LOGICAL. -/
def execSetLogical (mseq : Word) (serial : DWord) (lc : BitVec 18) (valid : Bool) (s : State) : Host.Outcome State Fault Refusal :=
  run [.coord] (cmdRx mseq serial 0x02 (doSetLogical lc valid)) s

/-- Entries of the inactive bank, from an index on (R327). -/
def putEntries (first : Nat) (l : List Word) (s : State) : State :=
  let m := (l.mapIdx (fun i w => (first + i, w))).foldl (fun m x => smPut (fun _ => 0) m x.1 x.2) (bankIdle s.xlat)
  let x := if s.xlat.bank then { s.xlat with bank0 := m } else { s.xlat with bank1 := m }
  { s with xlat := x }

/-- XLAT_LOAD: up to 360 entries (R437). -/
def doXlatLoad (first : BitVec 18) (l : List Word) (s : State) : Answer :=
  ansIf (decide (l.length ≤ 360) && decide (first.toNat + l.length ≤ 2 ^ 18)) msBadArg (putEntries first.toNat l) s

/-- XLAT_LOAD. -/
def execXlatLoad (mseq : Word) (serial : DWord) (first : BitVec 18) (l : List Word) (s : State) : Host.Outcome State Fault Refusal :=
  run [.xlat] (cmdRx mseq serial 0x03 (doXlatLoad first l)) s

/-- XLAT_ARM: the apply epoch and XLAT_APPLY (R327, R500). -/
def doXlatArm (e : Word) (s : State) : Answer := ans (xlatApplyWrite (setReg s .xlat rXlatEpoch e)) msOk

/-- XLAT_ARM. -/
def execXlatArm (mseq : Word) (serial : DWord) (e : Word) (s : State) : Host.Outcome State Fault Refusal :=
  run [.xlat] (cmdRx mseq serial 0x04 (doXlatArm e)) s

/-- LINK_CFG: expected coordinate and serial, detours and threshold of a link, applied (R437). -/
def doLinkCfg (l : Fin 6) (coord : BitVec 18) (sn : DWord) (det0 det1 : BitVec 16) (thresh : BitVec 20) (s : State) : Answer :=
  let b := Blk.lnk l.val
  let s1 := setFld s b rLnkExpect 17 0 coord.toNat
  let s2 := setReg (setReg s1 b rLnkExpectSnLo (sn.setWidth 32)) b rLnkExpectSnHi ((sn >>> 32).setWidth 32)
  let s3 := setFld (setFld s2 b rLnkDetour0 15 0 det0.toNat) b rLnkDetour1 15 0 det1.toNat
  ans (lnkApplyWrite (setFld s3 b rLnkSpareThresh 19 0 thresh.toNat) l.val) msOk

/-- LINK_CFG. -/
def execLinkCfg (mseq : Word) (serial : DWord) (l : Fin 6) (coord : BitVec 18) (sn : DWord) (det0 det1 : BitVec 16)
    (thresh : BitVec 20) (s : State) : Host.Outcome State Fault Refusal :=
  run [.lnk l] (cmdRx mseq serial 0x05 (doLinkCfg l coord sn det0 det1 thresh)) s

/-! ## Eclipse, certification, degrade, retirement -/

/-- The module enters eclipse: it stops accepting work, unsealed steps are abandoned with cause 0x06, a snapshot aborts
(R386, R437). -/
def eclipseModule (s : State) : State :=
  snapAbort (abandonAll (setFld { s with eclipsed := true } .hlth rHlthFlags 1 1 1) 6) abService

/-- ECLIPSE of a unit, die or module that is in service (R386, R437). -/
def doEclipse (w : SvcWhat) (s : State) : Answer :=
  match w with
  | .unit rg u => ansIf (unitUp s rg u) msState (fun t => eclipseUnit t rg u) s
  | .die d => ansIf (!s.pw.dieEcl.getLsbD d) msState (fun t => showDies { t with pw := { t.pw with dieEcl := t.pw.dieEcl ||| dieBit d } }) s
  | .module => ansIf (!s.eclipsed) msState eclipseModule s

/-- ECLIPSE. -/
def execEclipse (mseq : Word) (serial : DWord) (w : SvcWhat) (s : State) : Host.Outcome State Fault Refusal :=
  run [] (cmdRx mseq serial 0x06 (doEclipse w)) s

/-- What is certified is in eclipse, and no run of it is under way; an alarm LOCK response refuses it. -/
def canCertify (s : State) (w : CertWhat) : Bool :=
  !rbit s .sec rSecStatus 6 && !s.certs.any (fun c => decide (c.what = w) && c.running) &&
    match w with
    | .die d => s.pw.dieEcl.getLsbD d
    | _ => s.eclipsed

/-- CERTIFY a die or the module (R386, R437). -/
def doCertify (w : SvcWhat) (s : State) : Answer :=
  match w with
  | .unit _ _ => ans s msBadArg
  | .die d => ansIf (canCertify s (.die d)) msState (fun t => certStart t (.die d)) s
  | .module => ansIf (canCertify s .module) msState (fun t => certStart t .module) s

/-- CERTIFY. -/
def execCertify (mseq : Word) (serial : DWord) (w : SvcWhat) (s : State) : Host.Outcome State Fault Refusal :=
  run [] (cmdRx mseq serial 0x07 (doCertify w)) s

/-- A spare in dusk (R382). -/
def isSpare (s : State) : Bool :=
  decide (s.pwr = .dusk) && !rbit s .coord rCoordLogical 31 && s.sess.isNone && !worksNot s && !s.tripped

/-- PROMOTE: the logical coordinate, and the exit to run (R382, R383). -/
def doPromote (lc : BitVec 18) (s : State) : Answer := ansIf (isSpare s) msState (fun t => wake (takeLogical lc true t)) s

/-- PROMOTE. -/
def execPromote (mseq : Word) (serial : DWord) (lc : BitVec 18) (s : State) : Host.Outcome State Fault Refusal :=
  run [.coord] (cmdRx mseq serial 0x08 (doPromote lc)) s

/-- DIE_DEGRADE of a die in eclipse (R389). -/
def doDieDegrade (d : Fin 4) (s : State) : Answer :=
  ansIf (s.pw.dieEcl.getLsbD d && !s.pw.degraded.getLsbD d) msState (fun t => dieDegradeGo t d) s

/-- DIE_DEGRADE. -/
def execDieDegrade (mseq : Word) (serial : DWord) (d : Fin 4) (s : State) : Host.Outcome State Fault Refusal :=
  run [] (cmdRx mseq serial 0x09 (doDieDegrade d)) s

/-- The module holds a job: a session, or a logical coordinate. -/
def holdsJob (s : State) : Bool := s.sess.isSome || rbit s .coord rCoordLogical 31

/-- DIE_RESTORE of a certified die in degrade, while no job is held (R389). -/
def doDieRestore (d : Fin 4) (s : State) : Answer :=
  ansIf (!holdsJob s && s.pw.degraded.getLsbD d && !s.pw.dieEcl.getLsbD d) msState (fun t => dieRestoreGo t d) s

/-- DIE_RESTORE. -/
def execDieRestore (mseq : Word) (serial : DWord) (d : Fin 4) (s : State) : Host.Outcome State Fault Refusal :=
  run [] (cmdRx mseq serial 0x0A (doDieRestore d)) s

/-- RETIRE_UNIT (R134). -/
def doRetireUnit (rg : Fin 16) (u : Fin 66) (s : State) : Answer :=
  ansIf (!(unitAt s rg u).retired) msState (fun t => retireUnitSt t rg u) s

/-- RETIRE_UNIT. -/
def execRetireUnit (mseq : Word) (serial : DWord) (rg : Fin 16) (u : Fin 66) (s : State) : Host.Outcome State Fault Refusal :=
  run [] (cmdRx mseq serial 0x0B (doRetireUnit rg u)) s

/-- FENCE: UNIT_FENCE and RGN_APPLY (R139, R437). -/
def doFence (rg : Fin 16) (u : Fin 66) (mask : BitVec 16) (s : State) : Answer :=
  ans (fenceApplyWrite (setFld s (unitBlk rg u) rUnitFence 31 16 mask.toNat) rg) msOk

/-- FENCE. -/
def execFence (mseq : Word) (serial : DWord) (rg : Fin 16) (u : Fin 66) (mask : BitVec 16) (s : State) : Host.Outcome State Fault Refusal :=
  run [rgnBlk rg, unitBlk rg u] (cmdRx mseq serial 0x0C (doFence rg u mask)) s

/-! ## Modes, health, bands, reflection -/

/-- CHECKED: dual execution and 5% prism duty from the next step open, and the flag that holds both (R390). -/
def doChecked (s : State) : Answer :=
  ans (setFld (setFld (setFld s .chk rChkDual 0 0 1) .chk rChkPrismCtl 11 4 50) .hlth rHlthFlags 0 0 1) msOk

/-- CHECKED. -/
def execChecked (mseq : Word) (serial : DWord) (s : State) : Host.Outcome State Fault Refusal :=
  run [.chk, .hlth] (cmdRx mseq serial 0x0D doChecked) s

/-- UNCHECKED ends the mode (R390). -/
def doUnchecked (s : State) : Answer := ans (setFld s .hlth rHlthFlags 0 0 0) msOk

/-- UNCHECKED. -/
def execUnchecked (mseq : Word) (serial : DWord) (s : State) : Host.Outcome State Fault Refusal :=
  run [.hlth] (cmdRx mseq serial 0x0E doUnchecked) s

/-- PENALIZE: 0 to 1,000 points (R391). -/
def doPenalize (pts : Nat) (s : State) : Answer := ansIf (decide (pts ≤ 1000)) msBadArg (fun t => healthPts t 19 pts) s

/-- PENALIZE. -/
def execPenalize (mseq : Word) (serial : DWord) (pts : BitVec 16) (s : State) : Host.Outcome State Fault Refusal :=
  run [.hlth] (cmdRx mseq serial 0x0F (doPenalize pts.toNat)) s

/-- BAND_CLEAR (R354). -/
def doBandClear (s : State) : Answer := ans { s with bands := [] } msOk

/-- BAND_CLEAR. -/
def execBandClear (mseq : Word) (serial : DWord) (s : State) : Host.Outcome State Fault Refusal :=
  run [] (cmdRx mseq serial 0x10 doBandClear) s

/-- REFL_BUDDY: HUB_REFL_BUDDY, in force at once (R378). -/
def doReflBuddy (lc : BitVec 18) (valid : Bool) (s : State) : Answer :=
  ans (buddySet (setFld (setFld s .hub rHubReflBuddy 17 0 lc.toNat) .hub rHubReflBuddy 31 31 (b2n valid))) msOk

/-- REFL_BUDDY. -/
def execReflBuddy (mseq : Word) (serial : DWord) (lc : BitVec 18) (valid : Bool) (s : State) : Host.Outcome State Fault Refusal :=
  run [.hub] (cmdRx mseq serial 0x11 (doReflBuddy lc valid)) s

/-- HEALTH_GET (R438). -/
def doHealthGet (s : State) : Answer := ans (healthSend s) msOk

/-- HEALTH_GET. -/
def execHealthGet (mseq : Word) (serial : DWord) (s : State) : Host.Outcome State Fault Refusal :=
  run [.hlth] (cmdRx mseq serial 0x14 doHealthGet) s

/-! ## Registers, attestation, job release -/

/-- The register offset of an address that the lane reaches: aligned, in the register space, outside SEC (R437). -/
def laneOff (a : Nat) : Option Nat :=
  if 0xF00000000000 ≤ a ∧ a < 0x1000000000000 ∧ a % 4 = 0 ∧ !inSec (a - 0xF00000000000) then some (a - 0xF00000000000) else none

/-- REG_READ: the word read. -/
def doRegRead (a : Nat) (s : State) : Answer :=
  match laneOff a with
  | some off =>
    let x := regRead .lane off s
    { st := x.1, status := msOk, body := leBytes 4 x.2.toNat }
  | none => ans s msBadArg

/-- REG_READ. -/
def execRegRead (mseq : Word) (serial : DWord) (a : BitVec 64) (s : State) : Host.Outcome State Fault Refusal :=
  run (((laneOff a.toNat).map (regBlk s)).getD []) (cmdRx mseq serial 0x12 (doRegRead a.toNat)) s

/-- REG_WRITE. -/
def doRegWrite (a v : Nat) (s : State) : Answer :=
  match laneOff a with
  | some off => ans (regWrite .lane off v 0 false s) msOk
  | none => ans s msBadArg

/-- REG_WRITE. -/
def execRegWrite (mseq : Word) (serial : DWord) (a : BitVec 64) (v : Word) (s : State) : Host.Outcome State Fault Refusal :=
  run (((laneOff a.toNat).map (fun o => writeBlks s o v.toNat)).getD []) (cmdRx mseq serial 0x13 (doRegWrite a.toNat v.toNat)) s

/-- ATTEST: a signed report and the certificate; STATE when the lifecycle allows no signature (R470, R478). -/
def doAttest (nonce : List Byte) (s : State) : Answer :=
  if nonce.length ≠ 32 then ans s msBadArg
  else
    match attest s nonce with
    | some x => { st := x.1, status := msOk, body := x.2 }
    | none => ans s msState

/-- ATTEST. -/
def execAttest (mseq : Word) (serial : DWord) (nonce : List Byte) (s : State) : Host.Outcome State Fault Refusal :=
  run [.sec] (cmdRx mseq serial 0x15 (doAttest nonce)) s

/-- An accepted order runs to its end (R418). -/
def orderEnd (s : State) (o : Order) : State :=
  if o.done ∨ o.status ≠ 0 then retire s o
  else
    let x := orderAct o s
    retire x.1 x.2

/-- The session ends, and its accepted orders complete (R418). -/
def sessFinish (s : State) : State :=
  let s1 := sessEnd s
  s1.orders.foldl orderEnd s1

/-- JOB_RELEASE: the session ends, unsealed steps are abandoned with cause 0x06, a snapshot aborts; the job reset unsets the
logical coordinate and requests dusk (R437, R452). ACCEPTED while the reset waits for a sealed step (R461). -/
def doJobRelease (mseq : Nat) (s : State) : Answer :=
  if !ladder s then ans s msState
  else
    let s1 := jobResetStart (snapAbort (abandonAll (sessFinish s) 6) abService) true
    if s1.pw.jobWait.isSome then ans { s1 with mgmt := { s1.mgmt with late := s1.mgmt.late ++ [(mseq, 0x16)] } } msAccepted
    else ans s1 msOk

/-- Blocks that the accepted orders call on. -/
def ordersBlks (s : State) : List Blk := s.orders.flatMap (fun o =>
  match o.kind, orderOff o with
  | 4, some off => if o.done then [] else regBlk s off
  | 5, some off => if o.done then [] else writeBlks s off (o.len % u32Mod)
  | _, _ => [])

/-- JOB_RELEASE. -/
def execJobRelease (mseq : Word) (serial : DWord) (s : State) : Host.Outcome State Fault Refusal :=
  run (ordersBlks s) (cmdRx mseq serial 0x16 (doJobRelease mseq.toNat)) s

/-! ## EVENT and HEALTH frames (R436, R438) -/

/-- Resend period of EVENT and HEALTH frames: 10 ms. -/
def laneEvery : Nat := 10 * btMs

/-- MGMT_RESEND_TIMER: frames sent 10 ms ago or earlier and not acknowledged go again (R436). -/
def opMgmtResend (s : State) : State :=
  if !laneUp s then s
  else
    let due := fun (x : Nat × MgmtFrame) => decide (x.1 + laneEvery ≤ s.beacon)
    let s1 := { s with mgmt := { s.mgmt with unack := s.mgmt.unack.map (fun x => if due x then (s.beacon, x.2) else x) } }
    (s.mgmt.unack.filter due).foldl (fun t x => laneSend t x.2) s1

/-- MGMT_RESEND_TIMER. -/
def execMgmtResendTimer (s : State) : Host.Outcome State Fault Refusal := run [] opMgmtResend s

/-- Sequence numbers of the records of an EVENT frame. -/
def frameEseqs (f : MgmtFrame) : List Nat :=
  if f.mtype = 3 then (List.range (f.body.length / 48)).map (fun k => recEseq (slice f.body (48 * k) 48)) else []

/-- MGMT_ACK: the frame of that MSEQ is delivered, and its records leave the ring (R432, R436). -/
def opMgmtAck (serial : DWord) (mseq : Nat) (s : State) : State :=
  if !laneUp s || decide (serial.toNat ≠ serialOf s) then s
  else
    let hit := fun (x : Nat × MgmtFrame) => x.2.mseq == mseq
    let gone := (s.mgmt.unack.filter hit).flatMap (fun x => frameEseqs x.2)
    let ring := { s.evt.mgmt with recs := s.evt.mgmt.recs.filter (fun r => !gone.contains (recEseq r)) }
    lanePush { s with mgmt := { s.mgmt with unack := s.mgmt.unack.filter (fun x => !hit x) }, evt := { s.evt with mgmt := ring } }

/-- MGMT_ACK. -/
def execMgmtAck (serial : DWord) (mseq : Word) (s : State) : Host.Outcome State Fault Refusal := run [] (opMgmtAck serial mseq.toNat) s

/-- HEALTH_PERIOD: a HEALTH frame every HLTH period (R438). -/
def opHealthPeriod (s : State) : State :=
  let p := s.mgmt.period * btMs
  if laneUp s && decide ((tmAt s .healthSend).getD p ≤ s.beacon) then tmArm (healthSend s) .healthSend p else s

/-- HEALTH_PERIOD. -/
def execHealthPeriod (s : State) : Host.Outcome State Fault Refusal := run [.hlth] opHealthPeriod s

/-! ## I3C (R434) -/

/-- I3C_PWR_REQ_WRITE: the only register that the port writes (R434, R452). -/
def execI3cPwrReqWrite (v : Word) (s : State) : Host.Outcome State Fault Refusal := runReg .i3c .pwr rPwrReq v s

/-- A dynamic address, for a target that holds none. -/
def i3cAssign (dyn : Nat) (s : State) : State :=
  if decide (s.pwr = .off) || s.pw.i3cAddr.isSome then s else { s with pw := { s.pw with i3cAddr := some dyn } }

/-- I3C_SETDASA: the static address is 0x30 plus straps [1:0] (R434). -/
def opI3cSetdasa (static dyn : Nat) (s : State) : State := if static = 0x30 + s.pw.straps.toNat then i3cAssign dyn s else s

/-- I3C_SETDASA. -/
def execI3cSetdasa (static dyn : BitVec 7) (s : State) : Host.Outcome State Fault Refusal :=
  run [] (opI3cSetdasa static.toNat dyn.toNat) s

/-- I3C_ENTDAA (R434). -/
def execI3cEntdaa (dyn : BitVec 7) (s : State) : Host.Outcome State Fault Refusal := run [] (i3cAssign dyn.toNat) s

end Sys2Proof.Machine
end

