-- ==== Sys2Proof/Machine/Dispatch.lean ====
section
/-! DEFINITION. One arm per command: its meaning, or a rejection by name. -/
namespace Sys2Proof.Machine

/-- The effect of a command on everything but the queue. -/
def exec (i : Instr) (s : State) : Host.Outcome State Fault Refusal :=
  match i with
  | .stepCmdOpen p => Sys2Proof.Machine.execStepCmdOpen p s
  | .stepCmdDeclare p => Sys2Proof.Machine.execStepCmdDeclare p s
  | .stepCmdAbandon p => Sys2Proof.Machine.execStepCmdAbandon p s
  | .heldOpenRelease => Sys2Proof.Machine.execHeldOpenRelease s
  | .heldDeclareRelease => Sys2Proof.Machine.execHeldDeclareRelease s
  | .drainComplete => Sys2Proof.Machine.execDrainComplete s
  | .drainLimitExpire => Sys2Proof.Machine.execDrainLimitExpire s
  | .voteLimitExpire => Sys2Proof.Machine.execVoteLimitExpire s
  | .stepSeal => Sys2Proof.Machine.execStepSeal s
  | .pageSetFlip => Sys2Proof.Machine.execPageSetFlip s
  | .seqAbandonRestart => Sys2Proof.Machine.execSeqAbandonRestart s
  | .agreeNoticeRepeat => Sys2Proof.Machine.execAgreeNoticeRepeat s
  | .agreePhase0Resend => Sys2Proof.Machine.execAgreePhase0Resend s
  | .replayStepOpen => Sys2Proof.Machine.execReplayStepOpen s
  | .seqRun p q v => Sys2Proof.Machine.execSeqRun p q v s
  | .ptiIllegal q => Sys2Proof.Machine.execPtiIllegal q s
  | .nop q w => Sys2Proof.Machine.execNop q w s
  | .jmp q w => Sys2Proof.Machine.execJmp q w s
  | .call q w => Sys2Proof.Machine.execCall q w s
  | .ret q w => Sys2Proof.Machine.execRet q w s
  | .halt q w => Sys2Proof.Machine.execHalt q w s
  | .ctlStep q w => Sys2Proof.Machine.execCtlStep q w s
  | .ctlSlipg q w => Sys2Proof.Machine.execCtlSlipg q w s
  | .bwait q w => Sys2Proof.Machine.execBwait q w s
  | .bwaitFire q => Sys2Proof.Machine.execBwaitFire q s
  | .bread q w => Sys2Proof.Machine.execBread q w s
  | .ctrRd q w => Sys2Proof.Machine.execCtrRd q w s
  | .li q w => Sys2Proof.Machine.execLi q w s
  | .lih q w => Sys2Proof.Machine.execLih q w s
  | .mov q w => Sys2Proof.Machine.execMov q w s
  | .add q w => Sys2Proof.Machine.execAdd q w s
  | .sub q w => Sys2Proof.Machine.execSub q w s
  | .mul q w => Sys2Proof.Machine.execMul q w s
  | .andI q w => Sys2Proof.Machine.execAndI q w s
  | .orI q w => Sys2Proof.Machine.execOrI q w s
  | .xorI q w => Sys2Proof.Machine.execXorI q w s
  | .shl q w => Sys2Proof.Machine.execShl q w s
  | .shr q w => Sys2Proof.Machine.execShr q w s
  | .sar q w => Sys2Proof.Machine.execSar q w s
  | .cmp q w => Sys2Proof.Machine.execCmp q w s
  | .plog q w => Sys2Proof.Machine.execPlog q w s
  | .lds q w => Sys2Proof.Machine.execLds q w s
  | .sts q w => Sys2Proof.Machine.execSts q w s
  | .dld q w => Sys2Proof.Machine.execDld q w s
  | .tagp q w => Sys2Proof.Machine.execTagp q w s
  | .syncAdd q w => Sys2Proof.Machine.execSyncAdd q w s
  | .syncSet q w => Sys2Proof.Machine.execSyncSet q w s
  | .wait q w => Sys2Proof.Machine.execWait q w s
  | .waitTo q w => Sys2Proof.Machine.execWaitTo q w s
  | .waitReached q => Sys2Proof.Machine.execWaitReached q s
  | .syncTimeout q => Sys2Proof.Machine.execSyncTimeout q s
  | .syncRd q w => Sys2Proof.Machine.execSyncRd q w s
  | .mmaFp4 q w => Sys2Proof.Machine.execMmaFp4 q w s
  | .mmaFp8 q w => Sys2Proof.Machine.execMmaFp8 q w s
  | .mmaBf16 q w => Sys2Proof.Machine.execMmaBf16 q w s
  | .mmaT19 q w => Sys2Proof.Machine.execMmaT19 q w s
  | .mmaF32 q w => Sys2Proof.Machine.execMmaF32 q w s
  | .mmaComplete q tgt e => Sys2Proof.Machine.execMmaComplete q tgt e s
  | .vecAdd q w => Sys2Proof.Machine.execVecAdd q w s
  | .vecSub q w => Sys2Proof.Machine.execVecSub q w s
  | .vecMul q w => Sys2Proof.Machine.execVecMul q w s
  | .vecFma q w => Sys2Proof.Machine.execVecFma q w s
  | .vecMax q w => Sys2Proof.Machine.execVecMax q w s
  | .vecMin q w => Sys2Proof.Machine.execVecMin q w s
  | .vecAbs q w => Sys2Proof.Machine.execVecAbs q w s
  | .vecNeg q w => Sys2Proof.Machine.execVecNeg q w s
  | .vecExp q w => Sys2Proof.Machine.execVecExp q w s
  | .vecLog q w => Sys2Proof.Machine.execVecLog q w s
  | .vecRcp q w => Sys2Proof.Machine.execVecRcp q w s
  | .vecSqrt q w => Sys2Proof.Machine.execVecSqrt q w s
  | .vecRsqrt q w => Sys2Proof.Machine.execVecRsqrt q w s
  | .vecTanh q w => Sys2Proof.Machine.execVecTanh q w s
  | .vecSigm q w => Sys2Proof.Machine.execVecSigm q w s
  | .cvt q w => Sys2Proof.Machine.execCvt q w s
  | .vecSum q w => Sys2Proof.Machine.execVecSum q w s
  | .vecRmax q w => Sys2Proof.Machine.execVecRmax q w s
  | .vecAmax q w => Sys2Proof.Machine.execVecAmax q w s
  | .vecComplete q e => Sys2Proof.Machine.execVecComplete q e s
  | .xferCopy q w => Sys2Proof.Machine.execXferCopy q w s
  | .xferMcast q w => Sys2Proof.Machine.execXferMcast q w s
  | .xferZero q w => Sys2Proof.Machine.execXferZero q w s
  | .xferPref q w => Sys2Proof.Machine.execXferPref q w s
  | .xferColl q w => Sys2Proof.Machine.execXferColl q w s
  | .xferComplete rg e errs reread => Sys2Proof.Machine.execXferComplete rg e errs reread s
  | .collComplete k => Sys2Proof.Machine.execCollComplete k s
  | .gate q w => Sys2Proof.Machine.execGate q w s
  | .dispatch q w => Sys2Proof.Machine.execDispatch q w s
  | .combine q w => Sys2Proof.Machine.execCombine q w s
  | .routeComplete d errs reread => Sys2Proof.Machine.execRouteComplete d errs reread s
  | .updAdam q w => Sys2Proof.Machine.execUpdAdam q w s
  | .updSgdm q w => Sys2Proof.Machine.execUpdSgdm q w s
  | .updSignm q w => Sys2Proof.Machine.execUpdSignm q w s
  | .updStart grp tgt e => Sys2Proof.Machine.execUpdStart grp tgt e s
  | .updFrameResume grp tgt => Sys2Proof.Machine.execUpdFrameResume grp tgt s
  | .updComplete grp tgt => Sys2Proof.Machine.execUpdComplete grp tgt s
  | .chkVerify q w => Sys2Proof.Machine.execChkVerify q w s
  | .chkFold q w => Sys2Proof.Machine.execChkFold q w s
  | .chkCmp q w => Sys2Proof.Machine.execChkCmp q w s
  | .gangApply p q v => Sys2Proof.Machine.execGangApply p q v s
  | .gangModeChange q => Sys2Proof.Machine.execGangModeChange q s
  | .fenceApply p rg v => Sys2Proof.Machine.execFenceApply p rg v s
  | .routeApply p d v => Sys2Proof.Machine.execRouteApply p d v s
  | .sclApplyEst p => Sys2Proof.Machine.execSclApplyEst p s
  | .sclApplyLs p => Sys2Proof.Machine.execSclApplyLs p s
  | .migApply p v => Sys2Proof.Machine.execMigApply p v s
  | .updApply p v => Sys2Proof.Machine.execUpdApply p v s
  | .lnkApply p l v => Sys2Proof.Machine.execLnkApply p l v s
  | .xlatApply p v => Sys2Proof.Machine.execXlatApply p v s
  | .chkApply p v => Sys2Proof.Machine.execChkApply p v s
  | .ckptApply p v => Sys2Proof.Machine.execCkptApply p v s
  | .hubResilApply p v => Sys2Proof.Machine.execHubResilApply p v s
  | .hubStepApply p v => Sys2Proof.Machine.execHubStepApply p v s
  | .hlthApply p v => Sys2Proof.Machine.execHlthApply p v s
  | .cwtApply p v => Sys2Proof.Machine.execCwtApply p v s
  | .syncValWrite p d o v => Sys2Proof.Machine.execSyncValWrite p d o v s
  | .syncAddWrite p d o v => Sys2Proof.Machine.execSyncAddWrite p d o v s
  | .syncArmWrite p d a tgt v => Sys2Proof.Machine.execSyncArmWrite p d a tgt v s
  | .bcnSlipClear p d g v => Sys2Proof.Machine.execBcnSlipClear p d g v s
  | .cacheDemote p rg v => Sys2Proof.Machine.execCacheDemote p rg v s
  | .coreMemAccess p a n k errs => Sys2Proof.Machine.execCoreMemAccess p a n k errs s
  | .patrolScrub k errs => Sys2Proof.Machine.execPatrolScrub k errs s
  | .stackTempSample k temp => Sys2Proof.Machine.execStackTempSample k temp s
  | .testModeEnter p c v => Sys2Proof.Machine.execTestModeEnter p c v s
  | .testReady c => Sys2Proof.Machine.execTestReady c s
  | .tgStart p c ch v => Sys2Proof.Machine.execTgStart p c ch v s
  | .memTgDone c ch flt => Sys2Proof.Machine.execMemTgDone c ch flt s
  | .migOrderStart => Sys2Proof.Machine.execMigOrderStart s
  | .migOrderComplete errs => Sys2Proof.Machine.execMigOrderComplete errs s
  | .linkLightDetect l => Sys2Proof.Machine.execLinkLightDetect l s
  | .linkTrainTimeout l => Sys2Proof.Machine.execLinkTrainTimeout l s
  | .linkUp l rxDone txGood => Sys2Proof.Machine.execLinkUp l rxDone txGood s
  | .linkRetrain p l v => Sys2Proof.Machine.execLinkRetrain p l v s
  | .flitDataRx l bytes rx check => Sys2Proof.Machine.execFlitDataRx l bytes rx check s
  | .flitIdleRx l bytes rx check => Sys2Proof.Machine.execFlitIdleRx l bytes rx check s
  | .flitNakRx l bytes rx check => Sys2Proof.Machine.execFlitNakRx l bytes rx check s
  | .ctrlCreditRx l bytes rx check => Sys2Proof.Machine.execCtrlCreditRx l bytes rx check s
  | .ctrlSwapRx l bytes rx check => Sys2Proof.Machine.execCtrlSwapRx l bytes rx check s
  | .ctrlIdentRx l bytes rx check => Sys2Proof.Machine.execCtrlIdentRx l bytes rx check s
  | .ctrlDropRx l bytes rx check => Sys2Proof.Machine.execCtrlDropRx l bytes rx check s
  | .laneSwap l rx => Sys2Proof.Machine.execLaneSwap l rx s
  | .laneErrorWindow l syms unc dark => Sys2Proof.Machine.execLaneErrorWindow l syms unc dark s
  | .laneRetrainTimer l pass => Sys2Proof.Machine.execLaneRetrainTimer l pass s
  | .identTimer l => Sys2Proof.Machine.execIdentTimer l s
  | .ackStallTimeout l => Sys2Proof.Machine.execAckStallTimeout l s
  | .linkLost l dark => Sys2Proof.Machine.execLinkLost l dark s
  | .linkDetour l => Sys2Proof.Machine.execLinkDetour l s
  | .laserCartInsert b => Sys2Proof.Machine.execLaserCartInsert b s
  | .laserCartRemove b failed => Sys2Proof.Machine.execLaserCartRemove b failed s
  | .laserShare => Sys2Proof.Machine.execLaserShare s
  | .blockFrameRx l => Sys2Proof.Machine.execBlockFrameRx l s
  | .syncFrameRx l => Sys2Proof.Machine.execSyncFrameRx l s
  | .readFrameRx l => Sys2Proof.Machine.execReadFrameRx l s
  | .rdataFrameRx l => Sys2Proof.Machine.execRdataFrameRx l s
  | .collFrameRx l => Sys2Proof.Machine.execCollFrameRx l s
  | .zrunFrameRx l => Sys2Proof.Machine.execZrunFrameRx l s
  | .voteFrameRx l => Sys2Proof.Machine.execVoteFrameRx l s
  | .digestFrameRx l => Sys2Proof.Machine.execDigestFrameRx l s
  | .ackeFrameRx l => Sys2Proof.Machine.execAckeFrameRx l s
  | .statusFrameRx l => Sys2Proof.Machine.execStatusFrameRx l s
  | .ackeTimer lc => Sys2Proof.Machine.execAckeTimer lc s
  | .e2eTimeout => Sys2Proof.Machine.execE2eTimeout s
  | .hmsgCommandBlock => Sys2Proof.Machine.execHmsgCommandBlock s
  | .hmsgGradientBlock => Sys2Proof.Machine.execHmsgGradientBlock s
  | .hmsgSealBlock => Sys2Proof.Machine.execHmsgSealBlock s
  | .hmsgReflFoldRecord => Sys2Proof.Machine.execHmsgReflFoldRecord s
  | .hmsgDigestReport => Sys2Proof.Machine.execHmsgDigestReport s
  | .hmsgResyncData => Sys2Proof.Machine.execHmsgResyncData s
  | .reflHave => Sys2Proof.Machine.execReflHave s
  | .reflDone => Sys2Proof.Machine.execReflDone s
  | .reflApplyComplete => Sys2Proof.Machine.execReflApplyComplete s
  | .reflLateTimeout => Sys2Proof.Machine.execReflLateTimeout s
  | .resyncDone => Sys2Proof.Machine.execResyncDone s
  | .journalRefetchRx => Sys2Proof.Machine.execJournalRefetchRx s
  | .journalAdmit => Sys2Proof.Machine.execJournalAdmit s
  | .journalRedeliver rcrcOk => Sys2Proof.Machine.execJournalRedeliver rcrcOk s
  | .sendJournalResend lc => Sys2Proof.Machine.execSendJournalResend lc s
  | .prismBurst rg idx wrong abft temp volt freq start => Sys2Proof.Machine.execPrismBurst rg idx wrong abft temp volt freq start s
  | .bandTableSave => Sys2Proof.Machine.execBandTableSave s
  | .foldResume p v => Sys2Proof.Machine.execFoldResume p v s
  | .certRunEnd k res bands => Sys2Proof.Machine.execCertRunEnd k res bands s
  | .certRetryTimer k => Sys2Proof.Machine.execCertRetryTimer k s
  | .certSpareAvailable rg u => Sys2Proof.Machine.execCertSpareAvailable rg u s
  | .healthDecay => Sys2Proof.Machine.execHealthDecay s
  | .healthPeriod => Sys2Proof.Machine.execHealthPeriod s
  | .ckptReq p v => Sys2Proof.Machine.execCkptReq p v s
  | .snapshotRelease refl => Sys2Proof.Machine.execSnapshotRelease refl s
  | .reflReportTimeout => Sys2Proof.Machine.execReflReportTimeout s
  | .manifestWrite => Sys2Proof.Machine.execManifestWrite s
  | .restoreStart p v => Sys2Proof.Machine.execRestoreStart p v s
  | .restoreEnd => Sys2Proof.Machine.execRestoreEnd s
  | .restoreCommit p v => Sys2Proof.Machine.execRestoreCommit p v s
  | .cwtOpen port p f => Sys2Proof.Machine.execCwtOpen port p f s
  | .cwtOpened port p f => Sys2Proof.Machine.execCwtOpened port p f s
  | .cwtClose port p f => Sys2Proof.Machine.execCwtClose port p f s
  | .cwtAck port p f => Sys2Proof.Machine.execCwtAck port p f s
  | .cwtNack port p f => Sys2Proof.Machine.execCwtNack port p f s
  | .cwtCredit port p f => Sys2Proof.Machine.execCwtCredit port p f s
  | .workWrite port p f => Sys2Proof.Machine.execWorkWrite port p f s
  | .workRead port p f => Sys2Proof.Machine.execWorkRead port p f s
  | .workSignal port p f => Sys2Proof.Machine.execWorkSignal port p f s
  | .workRegrd port p f => Sys2Proof.Machine.execWorkRegrd port p f s
  | .workRegwr port p f => Sys2Proof.Machine.execWorkRegwr port p f s
  | .cwtData port p f => Sys2Proof.Machine.execCwtData port p f s
  | .orderRetire q => Sys2Proof.Machine.execOrderRetire q s
  | .cwtAbort port p f => Sys2Proof.Machine.execCwtAbort port p f s
  | .cwtKeepalive port p f => Sys2Proof.Machine.execCwtKeepalive port p f s
  | .cwtBulkData port p f => Sys2Proof.Machine.execCwtBulkData port p f s
  | .cwtRtoExpire dst q => Sys2Proof.Machine.execCwtRtoExpire dst q s
  | .cwtKeepaliveTimer dst => Sys2Proof.Machine.execCwtKeepaliveTimer dst s
  | .cwtSilenceTimeout => Sys2Proof.Machine.execCwtSilenceTimeout s
  | .creditRepeatTimer => Sys2Proof.Machine.execCreditRepeatTimer s
  | .bulkTimeout k q => Sys2Proof.Machine.execBulkTimeout k q s
  | .pfcFrameRx port prio stop pause => Sys2Proof.Machine.execPfcFrameRx port prio stop pause s
  | .neighborDiscoveryRx port v6 target asker own => Sys2Proof.Machine.execNeighborDiscoveryRx port v6 target asker own s
  | .icmpEchoRx port v6 asker ident seq data own => Sys2Proof.Machine.execIcmpEchoRx port v6 asker ident seq data own s
  | .osfpInsert port watts => Sys2Proof.Machine.execOsfpInsert port watts s
  | .osfpRemove port => Sys2Proof.Machine.execOsfpRemove port s
  | .mgmtResendTimer => Sys2Proof.Machine.execMgmtResendTimer s
  | .mgmtAck serial mseq => Sys2Proof.Machine.execMgmtAck serial mseq s
  | .setCoord mseq serial pc pdim mode => Sys2Proof.Machine.execSetCoord mseq serial pc pdim mode s
  | .setLogical mseq serial lc valid => Sys2Proof.Machine.execSetLogical mseq serial lc valid s
  | .xlatLoad mseq serial first l => Sys2Proof.Machine.execXlatLoad mseq serial first l s
  | .xlatArm mseq serial e => Sys2Proof.Machine.execXlatArm mseq serial e s
  | .linkCfg mseq serial l coord sn det0 det1 thresh => Sys2Proof.Machine.execLinkCfg mseq serial l coord sn det0 det1 thresh s
  | .eclipse mseq serial w => Sys2Proof.Machine.execEclipse mseq serial w s
  | .certify mseq serial w => Sys2Proof.Machine.execCertify mseq serial w s
  | .promote mseq serial lc => Sys2Proof.Machine.execPromote mseq serial lc s
  | .dieDegrade mseq serial d => Sys2Proof.Machine.execDieDegrade mseq serial d s
  | .dieRestore mseq serial d => Sys2Proof.Machine.execDieRestore mseq serial d s
  | .retireUnit mseq serial rg u => Sys2Proof.Machine.execRetireUnit mseq serial rg u s
  | .fence mseq serial rg u mask => Sys2Proof.Machine.execFence mseq serial rg u mask s
  | .checked mseq serial => Sys2Proof.Machine.execChecked mseq serial s
  | .unchecked mseq serial => Sys2Proof.Machine.execUnchecked mseq serial s
  | .penalize mseq serial pts => Sys2Proof.Machine.execPenalize mseq serial pts s
  | .bandClear mseq serial => Sys2Proof.Machine.execBandClear mseq serial s
  | .reflBuddy mseq serial lc valid => Sys2Proof.Machine.execReflBuddy mseq serial lc valid s
  | .regRead mseq serial a => Sys2Proof.Machine.execRegRead mseq serial a s
  | .regWrite mseq serial a v => Sys2Proof.Machine.execRegWrite mseq serial a v s
  | .healthGet mseq serial => Sys2Proof.Machine.execHealthGet mseq serial s
  | .attest mseq serial nonce => Sys2Proof.Machine.execAttest mseq serial nonce s
  | .jobRelease mseq serial => Sys2Proof.Machine.execJobRelease mseq serial s
  | .i3cPwrReqWrite v => Sys2Proof.Machine.execI3cPwrReqWrite v s
  | .i3cSetdasa static dyn => Sys2Proof.Machine.execI3cSetdasa static dyn s
  | .i3cEntdaa dyn => Sys2Proof.Machine.execI3cEntdaa dyn s
  | .inputExcursion mv => Sys2Proof.Machine.execInputExcursion mv s
  | .inputPowerLoss => Sys2Proof.Machine.execInputPowerLoss s
  | .powerOn => Sys2Proof.Machine.execPowerOn s
  | .pwrEnMate => Sys2Proof.Machine.execPwrEnMate s
  | .pwrEnOpen => Sys2Proof.Machine.execPwrEnOpen s
  | .railFault die rail => Sys2Proof.Machine.execRailFault die rail s
  | .powerSample w1 w100 mv => Sys2Proof.Machine.execPowerSample w1 w100 mv s
  | .powerCapStep => Sys2Proof.Machine.execPowerCapStep s
  | .thermalSample d t units => Sys2Proof.Machine.execThermalSample d t units s
  | .thermalTrip d => Sys2Proof.Machine.execThermalTrip d s
  | .coolantCheck inlet outlet => Sys2Proof.Machine.execCoolantCheck inlet outlet s
  | .pwrReqWrite p v => Sys2Proof.Machine.execPwrReqWrite p v s
  | .pwrStateEntered train => Sys2Proof.Machine.execPwrStateEntered train s
  | .wakeSource w => Sys2Proof.Machine.execWakeSource w s
  | .wakeTimer => Sys2Proof.Machine.execWakeTimer s
  | .autodimIdle => Sys2Proof.Machine.execAutodimIdle s
  | .bootPhaseEnd ph imgs units dies => Sys2Proof.Machine.execBootPhaseEnd ph imgs units dies s
  | .bootPhaseTimeout => Sys2Proof.Machine.execBootPhaseTimeout s
  | .resetN => Sys2Proof.Machine.execResetN s
  | .pwrResetModule p => Sys2Proof.Machine.execPwrResetModule p s
  | .pwrResetJob p => Sys2Proof.Machine.execPwrResetJob p s
  | .pwrResetDie p d => Sys2Proof.Machine.execPwrResetDie p d s
  | .jobResetForced => Sys2Proof.Machine.execJobResetForced s
  | .pwrWdogWrite p v => Sys2Proof.Machine.execPwrWdogWrite p v s
  | .watchdogExpire => Sys2Proof.Machine.execWatchdogExpire s
  | .mbAttest k c len => Sys2Proof.Machine.execMbAttest k c len s
  | .signStart k c len => Sys2Proof.Machine.execSignStart k c len s
  | .signData k c len => Sys2Proof.Machine.execSignData k c len s
  | .signEnd k c len => Sys2Proof.Machine.execSignEnd k c len s
  | .dbgChallenge k c len => Sys2Proof.Machine.execDbgChallenge k c len s
  | .dbgResponse k c len temp => Sys2Proof.Machine.execDbgResponse k c len temp s
  | .advance k c len => Sys2Proof.Machine.execAdvance k c len s
  | .provision k c len tok => Sys2Proof.Machine.execProvision k c len tok s
  | .lidOpen temp => Sys2Proof.Machine.execLidOpen temp s
  | .voltageGlitch temp => Sys2Proof.Machine.execVoltageGlitch temp s
  | .clockGlitch temp => Sys2Proof.Machine.execClockGlitch temp s
  | .registerWrite p off v => Sys2Proof.Machine.execRegisterWrite p off v s
  | .registerRcRead p off => Sys2Proof.Machine.execRegisterRcRead p off s
  | .counterLoRead p off => Sys2Proof.Machine.execCounterLoRead p off s
  | .xlatDataAccess p wr => Sys2Proof.Machine.execXlatDataAccess p wr s
  | .snapshotAndClear p v => Sys2Proof.Machine.execSnapshotAndClear p v s
  | .lpddrMr4Change k code hot => Sys2Proof.Machine.execLpddrMr4Change k code hot s
  | .ceRateMinute c => Sys2Proof.Machine.execCeRateMinute c s
  | .memRetrainDone k => Sys2Proof.Machine.execMemRetrainDone k s
  | .ethLinkChange port up => Sys2Proof.Machine.execEthLinkChange port up s
  | .ethFrameDiscard port why => Sys2Proof.Machine.execEthFrameDiscard port why s
  | .dieResetDone d ok => Sys2Proof.Machine.execDieResetDone d ok s

end Sys2Proof.Machine
end

