-- ==== Sys2Proof/Machine/Tick.lean ====
section
/-! DEFINITION. One tick of the beacon, 5 ns: what time alone does (R188, R193, R279, R349, R442, R447, R456). -/
namespace Sys2Proof.Machine

/-- Time under the sustained or the peak limit, in bt (R442). -/
def capTick (s : State) : State := if s.pw.ovr || s.holdIssue then cnt64 s .pwr rPwrCapTimeLo 1 else s

/-- Time at D3 of each die, in bt (R447). -/
def d3Tick (s : State) : State :=
  (List.range 4).foldl (fun t d => if fld t (.clk d) rClkStatus 18 16 = 3 then cnt64 t (.clk d) rClkD3TimeLo 1 else t) s

/-- Time in the power state of the ladder, in bt (R456). -/
def resTick (s : State) : State := if ladder s then cnt64 s .pwr (rPwrResLo + 8 * s.pwr.code) 1 else s

/-- Prism credit of one bt in run, at the frequency of each region and the duty in force, at most 50 thousandths; at D3 a
die's islands have no clock (R349, R444, Table 16.3). -/
def prismTick (s : State) : State :=
  if decide (s.pwr = .run) && bitAt s.prismCtl.toNat 0 then
    { s with prismClk := (List.range 16).foldl (fun m rg =>
        if dieHot s (rg / 4) then m
        else smUpd (fun _ => 0) m rg (fun n => n + islandFreq s rg / 25 * min 50 (bits s.prismCtl.toNat 11 4))) s.prismClk }
  else s

/-- While an engine has work the module is not idle (R453). -/
def idleTick (s : State) : State := if enginesIdle s then s else { s with pw := { s.pw with idleAt := s.beacon } }

/-- The ingress buffers of both ports (R424). -/
def ethTick (s : State) : State := bufTick (bufTick s 0) 1

/-- Records that wait go to the host and to the fault manager (R421, R432, R436). -/
def pushAll (s : State) : State := lanePush (pushEvents (pushCompl s))

/-- One tick. Without power nothing counts, and in dark the wake logic alone does (R193). -/
def tick (s : State) : State :=
  match s.pwr with
  | .off => s
  | .dark => resTick { s with pw := { s.pw with dark := s.pw.dark + 1 } }
  | _ => pushAll (promoTick (ethTick (prismTick (resTick (d3Tick (capTick (idleTick (thrTick (thrHeld { s with beacon := s.beacon + 1 })))))))))

end Sys2Proof.Machine
end

