-- ==== Sys2Proof/Safety.lean ====
section
/-! DEFINITION. What the statements speak in: safe states, canonical states, and the conditions under which a command runs. -/
namespace Sys2Proof.Machine

/-- The step answers a next state. -/
def steps (s : State) : Prop := ∃ t, step s = .next t

/-- No block is tainted (R488). -/
def untainted (s : State) : Bool := s.tainted.isEmpty

/-- A safe state: untainted, with a memory in canonical form. -/
def Safe (s : State) : Prop := untainted s = true ∧ Memory.wf s.mem

/-- The canonical forms of a state: memory, registers, sync objects and sequencers list nothing twice, nothing out of order,
and nothing that equals what an unlisted key reads as. -/
def Canon (s : State) : Prop :=
  smWf memDef s.mem = true ∧ smWf regRst s.regs = true ∧ smWf (fun _ => (0 : Word)) s.objs = true ∧
    smWf (fun _ => Seq.reset) s.seqs = true

/-- Sequencer q is at this instruction, nothing stalls it, its guard is true and no block is tainted (R171, R175, R488). -/
def issues (s : State) (q : Fin 256) (op : PtiOp) (w : PtiWord) : Prop :=
  s.tainted = [] ∧ seqReady s q.val op w = true ∧ guardTrue (seqAt s q.val) w = true

/-- Sequencer q is at this instruction, nothing stalls it, and its guard is false (R175). -/
def skips (s : State) (q : Fin 256) (op : PtiOp) (w : PtiWord) : Prop :=
  s.tainted = [] ∧ seqReady s q.val op w = true ∧ guardTrue (seqAt s q.val) w = false

/-- The state in which an instruction acts: its guard has been read (R213). -/
def atIssue (s : State) (q : Fin 256) (w : PtiWord) : State := taken s q.val w

/-- The registers that a sequencer's fetch counts in: the hits and misses of its region's cache, and the bytes of the memory
controllers (R257, R282, R283, R286). -/
def fetchCounter (q k : Nat) : Prop :=
  (∃ o ∈ [rRgnCacheHitLo, rRgnCacheHitHi, rRgnCacheMissLo, rRgnCacheMissHi],
    k = Blk.base (.rgn (q / 64) (q / 16 % 4)) + o) ∨
  ∃ c < 64, ∃ o ∈ [rHcRdBytesLo, rHcRdBytesHi, rHcWrBytesLo, rHcWrBytesHi],
    k = Blk.base (.hc c) + o ∨ k = Blk.base (.lpc c) + o

/-- The last scalar source: sB, or the immediate under IMMF (R203, Table 7.4). -/
def srcB (s : State) (q : Fin 256) (w : PtiWord) : DWord :=
  if wImmf w then sext48 w.imm.toNat else sreg (seqAt s q.val) w.opb.toNat

/-- An instruction handed to its engine with copies of its operands, at the end of the engine's queue (R171, R205). -/
def queuedAt (s : State) (q : Fin 256) (e : Eng) (op : PtiOp) (w : PtiWord) : State :=
  { s with ops := s.ops ++ [mkOp s q e op w], opNo := s.opNo + 1 }

/-- A full queue or a mode change that waits: the sequencer stalls at the instruction with STATE 4 (R171). -/
def stalled (s : State) (q : Fin 256) : State := setSeq s q { seqAt s q with st := .queueStall }

/-- The CTL instructions (Table 7.3). -/
def ctlRows : List ((Fin 256 → PtiWord → Instr) × PtiOp) :=
  [(.nop, .nop), (.jmp, .jmp), (.call, .call), (.ret, .ret), (.halt, .halt), (.ctlStep, .ctlStep), (.ctlSlipg, .ctlSlipg),
   (.bwait, .bwait), (.bread, .bread), (.ctrRd, .ctrRd)]

/-- The MOVE instructions (Table 7.4). -/
def moveRows : List ((Fin 256 → PtiWord → Instr) × PtiOp) :=
  [(.li, .li), (.lih, .lih), (.mov, .mov), (.add, .add), (.sub, .sub), (.mul, .mul), (.andI, .andI), (.orI, .orI),
   (.xorI, .xorI), (.shl, .shl), (.shr, .shr), (.sar, .sar), (.cmp, .cmp), (.plog, .plog), (.lds, .lds), (.sts, .sts),
   (.dld, .dld), (.tagp, .tagp)]

/-- The SYNC instructions (Table 7.6). -/
def syncRows : List ((Fin 256 → PtiWord → Instr) × PtiOp) :=
  [(.syncAdd, .syncAdd), (.syncSet, .syncSet), (.wait, .wait), (.waitTo, .waitTo), (.syncRd, .syncRd)]

/-- The MMA instructions (Table 7.8). -/
def mmaRows : List ((Fin 256 → PtiWord → Instr) × PtiOp) :=
  [(.mmaFp4, .mmaFp4), (.mmaFp8, .mmaFp8), (.mmaBf16, .mmaBf16), (.mmaT19, .mmaT19), (.mmaF32, .mmaF32)]

/-- The VEC instructions (Table 7.10). -/
def vecRows : List ((Fin 256 → PtiWord → Instr) × PtiOp) :=
  [(.vecAdd, .vecAdd), (.vecSub, .vecSub), (.vecMul, .vecMul), (.vecFma, .vecFma), (.vecMax, .vecMax), (.vecMin, .vecMin),
   (.vecAbs, .vecAbs), (.vecNeg, .vecNeg), (.vecExp, .vecExp), (.vecLog, .vecLog), (.vecRcp, .vecRcp),
   (.vecSqrt, .vecSqrt), (.vecRsqrt, .vecRsqrt), (.vecTanh, .vecTanh), (.vecSigm, .vecSigm), (.cvt, .cvt),
   (.vecSum, .vecSum), (.vecRmax, .vecRmax), (.vecAmax, .vecAmax)]

/-- The XFER instructions (Table 7.11). -/
def xferRows : List ((Fin 256 → PtiWord → Instr) × PtiOp) :=
  [(.xferCopy, .xferCopy), (.xferMcast, .xferMcast), (.xferZero, .xferZero), (.xferPref, .xferPref), (.xferColl, .xferColl)]

/-- The ROUTE instructions (Table 7.13). -/
def routeRows : List ((Fin 256 → PtiWord → Instr) × PtiOp) :=
  [(.gate, .gate), (.dispatch, .dispatch), (.combine, .combine)]

/-- The UPD instructions (Table 7.14). -/
def updRows : List ((Fin 256 → PtiWord → Instr) × PtiOp) :=
  [(.updAdam, .updAdam), (.updSgdm, .updSgdm), (.updSignm, .updSignm)]

/-- The CHK instructions (Table 7.15). -/
def chkRows : List ((Fin 256 → PtiWord → Instr) × PtiOp) :=
  [(.chkVerify, .chkVerify), (.chkFold, .chkFold), (.chkCmp, .chkCmp)]

/-- The fields of a register (chapter 18). -/
def fieldsAt (b : Blk) (o : Nat) : List RegField := ((b.row o).map (fun r => r.fields)).getD []

/-- A word may be written without touching a LIVE bit or a locked field: those bits of it are as the register shows them
(R488, R490). -/
def quiet (s : State) (b : Blk) (o v : Nat) : Bool :=
  !changes (fieldsAt b o) .live (regShow s b o).toNat v &&
    !(lockSet s b o && changes (fieldsAt b o) .rwl (regShow s b o).toNat v)

/-- A path that is up and may write there writes a word to an existing register, quietly, and no block is tainted. -/
def writes (s : State) (p : Path) (b : Blk) (o v : Nat) : Prop :=
  s.tainted = [] ∧ pathUp s p = true ∧ (b.base + o) % 4 = 0 ∧ mayWrite s p (b.base + o) = true ∧
    regHit s (b.base + o) = (s, some (b, o)) ∧ quiet s b o v = true

/-- A register after a word has been written to its RW fields, and to its RWL fields when unlocked (R481). -/
def wroteReg (s : State) (b : Blk) (o v : Nat) : State :=
  setReg s b o (BitVec.ofNat 32 (takeFields (fieldsAt b o) (lockSet s b o) (regAt s b o).toNat v))

/-- A CWT frame of the host that the session takes: the port is up, the frame comes from the session's address, and its sequence
number, epoch and credit are as they must be (R417–R420); `s` is the state in which the frame has been seen. -/
def hostTakes (s : State) (port : Fin 2) (addr : Nat) (f : CwtFrame) : Prop :=
  portUp s port = true ∧ (∃ c, s.sess = some c ∧ c.addr = addr ∧ c.lost = false) ∧
    (let t := hostSeen s port f
     seqCheck t f = .accept ∧ epochCheck t f = .accept ∧ creditCheck t f = .accept)

/-- What follows a frame of the host that was taken: its place in the sequence, its acknowledgement, new credit, and the records
and events that are due (R417–R421). -/
def hostTaken (f : CwtFrame) (s : State) : State :=
  let s2 := hostTake s f
  let s3 := if takesSeq f.ty then hostAck s2 f.queue else s2
  pushEvents (pushCompl (if limited f.ty then giveCredit s3 f.queue else s3))

/-- A CWT frame of a sink that its connection takes next in sequence, within its credit (R400). -/
def sinkTakes (s : State) (port : Fin 2) (k : Nat) (f : CwtFrame) (b : Bulk) : Prop :=
  portUp s port = true ∧ (bulkOf s k).isSome = true ∧ bulkOf (sinkSeen s k f) k = some b ∧
    f.seq = (cwtQ b.qs f.queue).rxNext ∧
    (limited f.ty = true → seqLt f.seq (cwtQ b.qs f.queue).flim = true ∧
      (cwtQ b.qs f.queue).rxBytes + f.body.length ≤ (cwtQ b.qs f.queue).blim)

/-- A management command that reaches the module (R435–R437): the lane is up and the frame names it, or all. -/
def laneHears (s : State) (serial : DWord) : Prop := s.tainted = [] ∧ laneUp s = true ∧ (serial = 0 ∨ serial.toNat = serialOf s)

/-- The module when it runs a management command: the sender is known, and a module that such a command wakes is waking. -/
def laneHeard (s : State) : State :=
  let s0 := { s with mgmt := { s.mgmt with peer := true } }
  if wakes s0 .management then wake s0 else s0

end Sys2Proof.Machine
end

