-- ==== Sys2Proof/WellFormed.lean ====
section
/-! DEFINITION. Well-formed commands: a PTI row carries a legal word, a CWT row a frame whose fields fit their widths, and
a core store a value of its size. A command that is not well formed spells nothing the module could meet. -/
namespace Sys2Proof

/-- The PTI operation of a row, with its word. -/
def ptiRow : Instr → Option (PtiOp × PtiWord)
  | .nop _ w => some (.nop, w)
  | .jmp _ w => some (.jmp, w)
  | .call _ w => some (.call, w)
  | .ret _ w => some (.ret, w)
  | .halt _ w => some (.halt, w)
  | .ctlStep _ w => some (.ctlStep, w)
  | .ctlSlipg _ w => some (.ctlSlipg, w)
  | .bwait _ w => some (.bwait, w)
  | .bread _ w => some (.bread, w)
  | .ctrRd _ w => some (.ctrRd, w)
  | .li _ w => some (.li, w)
  | .lih _ w => some (.lih, w)
  | .mov _ w => some (.mov, w)
  | .add _ w => some (.add, w)
  | .sub _ w => some (.sub, w)
  | .mul _ w => some (.mul, w)
  | .andI _ w => some (.andI, w)
  | .orI _ w => some (.orI, w)
  | .xorI _ w => some (.xorI, w)
  | .shl _ w => some (.shl, w)
  | .shr _ w => some (.shr, w)
  | .sar _ w => some (.sar, w)
  | .cmp _ w => some (.cmp, w)
  | .plog _ w => some (.plog, w)
  | .lds _ w => some (.lds, w)
  | .sts _ w => some (.sts, w)
  | .dld _ w => some (.dld, w)
  | .tagp _ w => some (.tagp, w)
  | .syncAdd _ w => some (.syncAdd, w)
  | .syncSet _ w => some (.syncSet, w)
  | .wait _ w => some (.wait, w)
  | .waitTo _ w => some (.waitTo, w)
  | .syncRd _ w => some (.syncRd, w)
  | .mmaFp4 _ w => some (.mmaFp4, w)
  | .mmaFp8 _ w => some (.mmaFp8, w)
  | .mmaBf16 _ w => some (.mmaBf16, w)
  | .mmaT19 _ w => some (.mmaT19, w)
  | .mmaF32 _ w => some (.mmaF32, w)
  | .vecAdd _ w => some (.vecAdd, w)
  | .vecSub _ w => some (.vecSub, w)
  | .vecMul _ w => some (.vecMul, w)
  | .vecFma _ w => some (.vecFma, w)
  | .vecMax _ w => some (.vecMax, w)
  | .vecMin _ w => some (.vecMin, w)
  | .vecAbs _ w => some (.vecAbs, w)
  | .vecNeg _ w => some (.vecNeg, w)
  | .vecExp _ w => some (.vecExp, w)
  | .vecLog _ w => some (.vecLog, w)
  | .vecRcp _ w => some (.vecRcp, w)
  | .vecSqrt _ w => some (.vecSqrt, w)
  | .vecRsqrt _ w => some (.vecRsqrt, w)
  | .vecTanh _ w => some (.vecTanh, w)
  | .vecSigm _ w => some (.vecSigm, w)
  | .cvt _ w => some (.cvt, w)
  | .vecSum _ w => some (.vecSum, w)
  | .vecRmax _ w => some (.vecRmax, w)
  | .vecAmax _ w => some (.vecAmax, w)
  | .xferCopy _ w => some (.xferCopy, w)
  | .xferMcast _ w => some (.xferMcast, w)
  | .xferZero _ w => some (.xferZero, w)
  | .xferPref _ w => some (.xferPref, w)
  | .xferColl _ w => some (.xferColl, w)
  | .gate _ w => some (.gate, w)
  | .dispatch _ w => some (.dispatch, w)
  | .combine _ w => some (.combine, w)
  | .updAdam _ w => some (.updAdam, w)
  | .updSgdm _ w => some (.updSgdm, w)
  | .updSignm _ w => some (.updSignm, w)
  | .chkVerify _ w => some (.chkVerify, w)
  | .chkFold _ w => some (.chkFold, w)
  | .chkCmp _ w => some (.chkCmp, w)
  | .stepCmdOpen _ | .stepCmdDeclare _ | .stepCmdAbandon _ | .heldOpenRelease | .heldDeclareRelease | .drainComplete
  | .drainLimitExpire | .voteLimitExpire | .stepSeal | .pageSetFlip | .seqAbandonRestart | .agreeNoticeRepeat
  | .agreePhase0Resend | .replayStepOpen | .seqRun _ _ _ | .ptiIllegal _ | .bwaitFire _ | .waitReached _
  | .syncTimeout _ | .mmaComplete _ _ _ | .vecComplete _ _ | .xferComplete _ _ _ _ | .collComplete _
  | .routeComplete _ _ _ | .updStart _ _ _ | .updFrameResume _ _ | .updComplete _ _ | .gangApply _ _ _
  | .gangModeChange _ | .fenceApply _ _ _ | .routeApply _ _ _ | .sclApplyEst _ | .sclApplyLs _ | .migApply _ _
  | .updApply _ _ | .lnkApply _ _ _ | .xlatApply _ _ | .chkApply _ _ | .ckptApply _ _ | .hubResilApply _ _
  | .hubStepApply _ _ | .hlthApply _ _ | .cwtApply _ _ | .syncValWrite _ _ _ _ | .syncAddWrite _ _ _ _
  | .syncArmWrite _ _ _ _ _ | .bcnSlipClear _ _ _ _ | .cacheDemote _ _ _ | .coreMemAccess _ _ _ _ _
  | .patrolScrub _ _ | .stackTempSample _ _ | .testModeEnter _ _ _ | .testReady _ | .tgStart _ _ _ _
  | .memTgDone _ _ _ | .migOrderStart | .migOrderComplete _ | .linkLightDetect _ | .linkTrainTimeout _
  | .linkUp _ _ _ | .linkRetrain _ _ _ | .flitDataRx _ _ _ _ | .flitIdleRx _ _ _ _ | .flitNakRx _ _ _ _
  | .ctrlCreditRx _ _ _ _ | .ctrlSwapRx _ _ _ _ | .ctrlIdentRx _ _ _ _ | .ctrlDropRx _ _ _ _ | .laneSwap _ _
  | .laneErrorWindow _ _ _ _ | .laneRetrainTimer _ _ | .identTimer _ | .ackStallTimeout _ | .linkLost _ _
  | .linkDetour _ | .laserCartInsert _ | .laserCartRemove _ _ | .laserShare | .blockFrameRx _ | .syncFrameRx _
  | .readFrameRx _ | .rdataFrameRx _ | .collFrameRx _ | .zrunFrameRx _ | .voteFrameRx _ | .digestFrameRx _
  | .ackeFrameRx _ | .statusFrameRx _ | .ackeTimer _ | .e2eTimeout | .hmsgCommandBlock | .hmsgGradientBlock
  | .hmsgSealBlock | .hmsgReflFoldRecord | .hmsgDigestReport | .hmsgResyncData | .reflHave | .reflDone
  | .reflApplyComplete | .reflLateTimeout | .resyncDone | .journalRefetchRx | .journalAdmit | .journalRedeliver _
  | .sendJournalResend _ | .prismBurst _ _ _ _ _ _ _ _ | .bandTableSave | .foldResume _ _ | .certRunEnd _ _ _
  | .certRetryTimer _ | .certSpareAvailable _ _ | .healthDecay | .healthPeriod | .ckptReq _ _ | .snapshotRelease _
  | .reflReportTimeout | .manifestWrite | .restoreStart _ _ | .restoreEnd | .restoreCommit _ _ | .cwtOpen _ _ _
  | .cwtOpened _ _ _ | .cwtClose _ _ _ | .cwtAck _ _ _ | .cwtNack _ _ _ | .cwtCredit _ _ _ | .workWrite _ _ _
  | .workRead _ _ _ | .workSignal _ _ _ | .workRegrd _ _ _ | .workRegwr _ _ _ | .cwtData _ _ _ | .orderRetire _
  | .cwtAbort _ _ _ | .cwtKeepalive _ _ _ | .cwtBulkData _ _ _ | .cwtRtoExpire _ _ | .cwtKeepaliveTimer _
  | .cwtSilenceTimeout | .creditRepeatTimer | .bulkTimeout _ _ | .pfcFrameRx _ _ _ _ | .neighborDiscoveryRx _ _ _ _ _
  | .icmpEchoRx _ _ _ _ _ _ _ | .osfpInsert _ _ | .osfpRemove _ | .mgmtResendTimer | .mgmtAck _ _
  | .setCoord _ _ _ _ _ | .setLogical _ _ _ _ | .xlatLoad _ _ _ _ | .xlatArm _ _ _ | .linkCfg _ _ _ _ _ _ _ _
  | .eclipse _ _ _ | .certify _ _ _ | .promote _ _ _ | .dieDegrade _ _ _ | .dieRestore _ _ _ | .retireUnit _ _ _ _
  | .fence _ _ _ _ _ | .checked _ _ | .unchecked _ _ | .penalize _ _ _ | .bandClear _ _ | .reflBuddy _ _ _ _
  | .regRead _ _ _ | .regWrite _ _ _ _ | .healthGet _ _ | .attest _ _ _ | .jobRelease _ _ | .i3cPwrReqWrite _
  | .i3cSetdasa _ _ | .i3cEntdaa _ | .inputExcursion _ | .inputPowerLoss | .powerOn | .pwrEnMate | .pwrEnOpen
  | .railFault _ _ | .powerSample _ _ _ | .powerCapStep | .thermalSample _ _ _ | .thermalTrip _ | .coolantCheck _ _
  | .pwrReqWrite _ _ | .pwrStateEntered _ | .wakeSource _ | .wakeTimer | .autodimIdle | .bootPhaseEnd _ _ _ _
  | .bootPhaseTimeout | .resetN | .pwrResetModule _ | .pwrResetJob _ | .pwrResetDie _ _ | .jobResetForced
  | .pwrWdogWrite _ _ | .watchdogExpire | .mbAttest _ _ _ | .signStart _ _ _ | .signData _ _ _ | .signEnd _ _ _
  | .dbgChallenge _ _ _ | .dbgResponse _ _ _ _ | .advance _ _ _ | .provision _ _ _ _ | .lidOpen _ | .voltageGlitch _
  | .clockGlitch _ | .registerWrite _ _ _ | .registerRcRead _ _ | .counterLoRead _ _ | .xlatDataAccess _ _
  | .snapshotAndClear _ _ | .lpddrMr4Change _ _ _ | .ceRateMinute _ | .memRetrainDone _ | .ethLinkChange _ _
  | .ethFrameDiscard _ _ | .dieResetDone _ _ => none

/-- The fields of a CWT frame fit Table 15.2. -/
def cwtFrameOk (f : CwtFrame) : Bool :=
  decide (f.ty < 2 ^ 8) && decide (f.queue < 2 ^ 16) && decide (f.fflags < 4) && decide (f.seq < 2 ^ 32) &&
    decide (f.ack < 2 ^ 32) && decide (f.epoch < 2 ^ 32) && decide (f.step < 2 ^ 32) && decide (f.order < 2 ^ 64) &&
    decide (f.offset < 2 ^ 64) && decide (f.arg < 2 ^ 16) && decide (f.body.length < 2 ^ 16)

/-- The value of a core access fits its n bytes. -/
def accOk (n : Nat) : CoreAcc → Bool
  | .load => true
  | .lr => true
  | .store v => decide (v < 2 ^ (8 * n))
  | .sc v => decide (v < 2 ^ (8 * n))
  | .amo _ v => decide (v < 2 ^ (8 * n))

/-- The CWT frame of a row. -/
def cwtRow : Instr → Option CwtFrame
  | .cwtOpen _ _ f => some f
  | .cwtOpened _ _ f => some f
  | .cwtClose _ _ f => some f
  | .cwtAck _ _ f => some f
  | .cwtNack _ _ f => some f
  | .cwtCredit _ _ f => some f
  | .workWrite _ _ f => some f
  | .workRead _ _ f => some f
  | .workSignal _ _ f => some f
  | .workRegrd _ _ f => some f
  | .workRegwr _ _ f => some f
  | .cwtData _ _ f => some f
  | .cwtAbort _ _ f => some f
  | .cwtKeepalive _ _ f => some f
  | .cwtBulkData _ _ f => some f
  | .stepCmdOpen _ | .stepCmdDeclare _ | .stepCmdAbandon _ | .heldOpenRelease | .heldDeclareRelease | .drainComplete
  | .drainLimitExpire | .voteLimitExpire | .stepSeal | .pageSetFlip | .seqAbandonRestart | .agreeNoticeRepeat
  | .agreePhase0Resend | .replayStepOpen | .seqRun _ _ _ | .ptiIllegal _ | .nop _ _ | .jmp _ _ | .call _ _ | .ret _ _
  | .halt _ _ | .ctlStep _ _ | .ctlSlipg _ _ | .bwait _ _ | .bwaitFire _ | .bread _ _ | .ctrRd _ _ | .li _ _
  | .lih _ _ | .mov _ _ | .add _ _ | .sub _ _ | .mul _ _ | .andI _ _ | .orI _ _ | .xorI _ _ | .shl _ _ | .shr _ _
  | .sar _ _ | .cmp _ _ | .plog _ _ | .lds _ _ | .sts _ _ | .dld _ _ | .tagp _ _ | .syncAdd _ _ | .syncSet _ _
  | .wait _ _ | .waitTo _ _ | .waitReached _ | .syncTimeout _ | .syncRd _ _ | .mmaFp4 _ _ | .mmaFp8 _ _
  | .mmaBf16 _ _ | .mmaT19 _ _ | .mmaF32 _ _ | .mmaComplete _ _ _ | .vecAdd _ _ | .vecSub _ _ | .vecMul _ _
  | .vecFma _ _ | .vecMax _ _ | .vecMin _ _ | .vecAbs _ _ | .vecNeg _ _ | .vecExp _ _ | .vecLog _ _ | .vecRcp _ _
  | .vecSqrt _ _ | .vecRsqrt _ _ | .vecTanh _ _ | .vecSigm _ _ | .cvt _ _ | .vecSum _ _ | .vecRmax _ _ | .vecAmax _ _
  | .vecComplete _ _ | .xferCopy _ _ | .xferMcast _ _ | .xferZero _ _ | .xferPref _ _ | .xferColl _ _
  | .xferComplete _ _ _ _ | .collComplete _ | .gate _ _ | .dispatch _ _ | .combine _ _ | .routeComplete _ _ _
  | .updAdam _ _ | .updSgdm _ _ | .updSignm _ _ | .updStart _ _ _ | .updFrameResume _ _ | .updComplete _ _
  | .chkVerify _ _ | .chkFold _ _ | .chkCmp _ _ | .gangApply _ _ _ | .gangModeChange _ | .fenceApply _ _ _
  | .routeApply _ _ _ | .sclApplyEst _ | .sclApplyLs _ | .migApply _ _ | .updApply _ _ | .lnkApply _ _ _
  | .xlatApply _ _ | .chkApply _ _ | .ckptApply _ _ | .hubResilApply _ _ | .hubStepApply _ _ | .hlthApply _ _
  | .cwtApply _ _ | .syncValWrite _ _ _ _ | .syncAddWrite _ _ _ _ | .syncArmWrite _ _ _ _ _ | .bcnSlipClear _ _ _ _
  | .cacheDemote _ _ _ | .coreMemAccess _ _ _ _ _ | .patrolScrub _ _ | .stackTempSample _ _ | .testModeEnter _ _ _
  | .testReady _ | .tgStart _ _ _ _ | .memTgDone _ _ _ | .migOrderStart | .migOrderComplete _ | .linkLightDetect _
  | .linkTrainTimeout _ | .linkUp _ _ _ | .linkRetrain _ _ _ | .flitDataRx _ _ _ _ | .flitIdleRx _ _ _ _
  | .flitNakRx _ _ _ _ | .ctrlCreditRx _ _ _ _ | .ctrlSwapRx _ _ _ _ | .ctrlIdentRx _ _ _ _ | .ctrlDropRx _ _ _ _
  | .laneSwap _ _ | .laneErrorWindow _ _ _ _ | .laneRetrainTimer _ _ | .identTimer _ | .ackStallTimeout _
  | .linkLost _ _ | .linkDetour _ | .laserCartInsert _ | .laserCartRemove _ _ | .laserShare | .blockFrameRx _
  | .syncFrameRx _ | .readFrameRx _ | .rdataFrameRx _ | .collFrameRx _ | .zrunFrameRx _ | .voteFrameRx _
  | .digestFrameRx _ | .ackeFrameRx _ | .statusFrameRx _ | .ackeTimer _ | .e2eTimeout | .hmsgCommandBlock
  | .hmsgGradientBlock | .hmsgSealBlock | .hmsgReflFoldRecord | .hmsgDigestReport | .hmsgResyncData | .reflHave
  | .reflDone | .reflApplyComplete | .reflLateTimeout | .resyncDone | .journalRefetchRx | .journalAdmit
  | .journalRedeliver _ | .sendJournalResend _ | .prismBurst _ _ _ _ _ _ _ _ | .bandTableSave | .foldResume _ _
  | .certRunEnd _ _ _ | .certRetryTimer _ | .certSpareAvailable _ _ | .healthDecay | .healthPeriod | .ckptReq _ _
  | .snapshotRelease _ | .reflReportTimeout | .manifestWrite | .restoreStart _ _ | .restoreEnd | .restoreCommit _ _
  | .orderRetire _ | .cwtRtoExpire _ _ | .cwtKeepaliveTimer _ | .cwtSilenceTimeout | .creditRepeatTimer
  | .bulkTimeout _ _ | .pfcFrameRx _ _ _ _ | .neighborDiscoveryRx _ _ _ _ _ | .icmpEchoRx _ _ _ _ _ _ _
  | .osfpInsert _ _ | .osfpRemove _ | .mgmtResendTimer | .mgmtAck _ _ | .setCoord _ _ _ _ _ | .setLogical _ _ _ _
  | .xlatLoad _ _ _ _ | .xlatArm _ _ _ | .linkCfg _ _ _ _ _ _ _ _ | .eclipse _ _ _ | .certify _ _ _ | .promote _ _ _
  | .dieDegrade _ _ _ | .dieRestore _ _ _ | .retireUnit _ _ _ _ | .fence _ _ _ _ _ | .checked _ _ | .unchecked _ _
  | .penalize _ _ _ | .bandClear _ _ | .reflBuddy _ _ _ _ | .regRead _ _ _ | .regWrite _ _ _ _ | .healthGet _ _
  | .attest _ _ _ | .jobRelease _ _ | .i3cPwrReqWrite _ | .i3cSetdasa _ _ | .i3cEntdaa _ | .inputExcursion _
  | .inputPowerLoss | .powerOn | .pwrEnMate | .pwrEnOpen | .railFault _ _ | .powerSample _ _ _ | .powerCapStep
  | .thermalSample _ _ _ | .thermalTrip _ | .coolantCheck _ _ | .pwrReqWrite _ _ | .pwrStateEntered _ | .wakeSource _
  | .wakeTimer | .autodimIdle | .bootPhaseEnd _ _ _ _ | .bootPhaseTimeout | .resetN | .pwrResetModule _
  | .pwrResetJob _ | .pwrResetDie _ _ | .jobResetForced | .pwrWdogWrite _ _ | .watchdogExpire | .mbAttest _ _ _
  | .signStart _ _ _ | .signData _ _ _ | .signEnd _ _ _ | .dbgChallenge _ _ _ | .dbgResponse _ _ _ _ | .advance _ _ _
  | .provision _ _ _ _ | .lidOpen _ | .voltageGlitch _ | .clockGlitch _ | .registerWrite _ _ _ | .registerRcRead _ _
  | .counterLoRead _ _ | .xlatDataAccess _ _ | .snapshotAndClear _ _ | .lpddrMr4Change _ _ _ | .ceRateMinute _
  | .memRetrainDone _ | .ethLinkChange _ _ | .ethFrameDiscard _ _ | .dieResetDone _ _ => none

/-- A PTI row carries a legal word (R198). -/
def ptiRowOk (i : Instr) : Bool := (ptiRow i).all (fun x => decide (ptiLegal x.1 x.2 = none))

/-- A CWT row carries a frame of Table 15.2. -/
def cwtRowOk (i : Instr) : Bool := (cwtRow i).all cwtFrameOk

/-- A core store carries a value of its size. -/
def coreRowOk (i : Instr) : Bool :=
  match i with
  | .coreMemAccess _ _ n k _ => accOk n.val k
  | _ => true

/-- A management command carries at most the 360 entries of XLAT_LOAD, and a nonce of 32 bytes (Table 15.10). -/
def laneRowOk (i : Instr) : Bool :=
  match i with
  | .xlatLoad _ _ _ l => decide (l.length ≤ 360)
  | .attest _ _ n => decide (n.length = 32)
  | _ => true

/-- The command is well formed. -/
def Instr.wf (i : Instr) : Bool := ptiRowOk i && cwtRowOk i && coreRowOk i && laneRowOk i

end Sys2Proof
end

