-- ==== Sys2Proof/Certificates/Slice0/Obligations.lean ====
section
/-! DEFINITION. The statements for the provers. -/

section
open Sys2Proof Sys2Proof.Machine

/-! ## The queue, time and the whole machine -/

/-- Step on a waiting command: the command at the front of the queue is executed with the queue's rest.

Step on an empty queue: time passes by one beacon tick, outside shade and dark (the model's choice, log 3). -/
def Obligations.StepFront : Prop :=
  -- Step front
  (
    ∀ (c : Instr) (s : State), step { s with pending := c :: s.pending } = exec c s
  ) ∧
  -- Step idle
  (
    ∀ s : State, s.pending = [] → step s = .next (tick s)
  )

/-- R462, but for the contents of memory, which the manual leaves undefined: the module ends B7 in dusk, every register at the
reset value of its table except REGDEC_CTL, whose LOCK reads 1; no logical coordinate, no job session, the physical coordinate
unlocked; deterministic mode on, prism at 0.5% duty, dual-execute off, loss-scale exponent 16, K 100, a journal of 512 GiB,
checkpoints disabled, a power cap of 6,900 W. No command waits and nothing is in progress. -/
def Obligations.ResetState : Prop :=
  let s := State.reset
  s.pwr = .dusk ∧ (∀ (b : Blk) (o : Nat), b.base + o ≠ Blk.regdec.base → regAt s b o = regRst (b.base + o)) ∧
  regAt s .regdec 0 = 2 ∧ rbit s .coord rCoordLogical 31 = false ∧ s.sess = none ∧ rbit s .coord rCoordPhys 31 = false ∧
  detNow s = true ∧ s.prismCtl = 0x007F0051 ∧ s.dualOn = false ∧ s.scl.ls = 16 ∧ s.foldK = 100 ∧ s.aglGiB = 512 ∧
  rbit s .ckpt rCkptCtl 0 = false ∧ (regAt s .pwr rPwrCap).toNat = 6900 ∧
  s.pending = [] ∧ s.ops = [] ∧ s.steps = [] ∧ s.commitN = 0 ∧ s.epoch = 0 ∧ s.orders = [] ∧ s.tainted = [] ∧
  (∀ q, seqAt s q = Seq.reset) ∧ (∀ d i, objVal s d i = 0)

/-- The state after reset is canonical. -/
def Obligations.ResetCanon : Prop := Canon State.reset

/-- Every step keeps the canonical forms of memory, registers, sync objects and sequencers, from any canonical state. -/
def Obligations.StepKeepsCanon : Prop :=
  ∀ s t : State, Canon s → step s = .next t → Canon t

/-- No command but the queue's own step touches the queue, and no step changes the part number (R1, R2). -/
def Obligations.ExecKeepsQueue : Prop :=
  ∀ (c : Instr) (s t : State), exec c s = .next t → t.pending = s.pending ∧ t.partA6 = s.partA6

/-- The decode of an encoded PTI word is the word: every legal word of Table 6.9 with every operand (R197, R198).

The other way round: a word that decodes is the encoding of what it decodes to, so no bit of a legal word is dropped. -/
def Obligations.PtiRoundTrip : Prop :=
  -- Pti round trip
  (
    ∀ (op : PtiOp) (w : PtiWord), ptiLegal op w = none → ptiDecode (ptiEncode op w) = .ok (op, w)
  ) ∧
  -- Pti word of decode
  (
    ∀ (v : BitVec 128) (op : PtiOp) (w : PtiWord), ptiDecode v = .ok (op, w) → ptiEncode op w = v
  )

/-! ## PTI: words -/

/-- Words written out field by field from Table 6.9 decode to the instructions they stand for: one word a class.

R198: an illegal CLASS, an unassigned OP, a nonzero reserved bit and an illegal MOD encoding do not decode. -/
def Obligations.PtiWords : Prop :=
  -- Pti words
  (
    let z : PtiWord := { gneg := false, gpred := 0, mod := 0, opd := 0, opa := 0, opb := 0, opc := 0, sig := 0, sigv := false,
                         tgt := 0, imm := 0 }
    -- CTL.JMP, PC-relative, +32 bytes
    ptiDecode 0x0010_0001_0000_0000_0000_0000_0000_0020 = .ok (.jmp, { z with mod := 1, imm := 0x20 }) ∧
    -- SYNC.ADD, object 5 of this die, n = 1 by immediate, guard !p1
    ptiDecode 0x1009_8000_0000_0000_0000_0004_0000_0005#128 =
      .ok (.syncAdd, { z with gneg := true, gpred := 1, mod := 0x8000, imm := 0x000400000005 }) ∧
    -- MOVE.ADD s3, s1, s2, signalling object 7
    ptiDecode 0x2030_0000_1844_0007_8000_0000_0000_0000#128 =
      .ok (.add, { z with opd := 3, opa := 1, opb := 2, sig := 7, sigv := true }) ∧
    -- XFER.ZERO d4 on DMA engine 2
    ptiDecode 0x3020_0000_2000_0000_1000_0000_0000_0000#128 = .ok (.xferZero, { z with opd := 4, tgt := 2 }) ∧
    -- MMA.BF16 d1, d2, d3 on the gang
    ptiDecode 0x4020_0000_0886_0000_2000_0000_0000_0000#128 = .ok (.mmaBf16, { z with opd := 1, opa := 2, opb := 3, tgt := 4 }) ∧
    -- VEC.ADD d1, d2, d3
    ptiDecode 0x5000_0000_0886_0000_0000_0000_0000_0000#128 = .ok (.vecAdd, { z with opd := 1, opa := 2, opb := 3 }) ∧
    -- ROUTE.DISPATCH d2, d3
    ptiDecode 0x6010_0000_0086_0000_0000_0000_0000_0000#128 = .ok (.dispatch, { z with opa := 2, opb := 3 }) ∧
    -- UPD.ADAM d0, d1, d2, d3 with stochastic rounding
    ptiDecode 0x7000_0002_0044_3000_0000_0000_0000_0000#128 =
      .ok (.updAdam, { z with mod := 2, opa := 1, opb := 2, opc := 3 }) ∧
    -- CHK.FOLD d6
    ptiDecode 0x8010_0000_0180_0000_0000_0000_0000_0000#128 = .ok (.chkFold, { z with opa := 6 })
  ) ∧
  -- Pti illegal words
  (
    (∀ v : BitVec 128, 9 ≤ (v.extractLsb' 124 4).toNat → ptiDecode v = .error .illegalClass) ∧
    (∀ v : BitVec 128, (v.extractLsb' 124 4).toNat < 9 → ptiOpOf (v.extractLsb' 124 4).toNat (v.extractLsb' 116 8).toNat = none →
      ptiDecode v = .error .unassignedOp) ∧
    (∀ (v : BitVec 128) (op : PtiOp), (v.extractLsb' 124 4).toNat < 9 →
      ptiOpOf (v.extractLsb' 124 4).toNat (v.extractLsb' 116 8).toNat = some op →
      (v.extractLsb' 48 11 ≠ 0 → ptiDecode v = .error .nonzeroReserved) ∧
      (v.extractLsb' 48 11 = 0 → v.extractLsb' 96 16 &&& ~~~(ptiModMask op) ≠ 0 → ptiDecode v = .error .modEncoding))
  )

/-- PTI_ILLEGAL (R198): a live sequencer at a word that does not decode halts there with STATE 5 and raises EVT_PTI_ILLEGAL
with the address and the word. Besides the fetch of the word through the region cache (R257) nothing else changes: no object, no
byte of memory, no other sequencer. A word at an absent die is not fetched: EVT_DIE_ABSENT_ACCESS comes first (R30). -/
def Obligations.PtiIllegalHalts : Prop :=
  (∀ (q : Fin 256) (s : State), s.tainted = [] → seqLive s q = true → accChk s (seqAt s q).pc false = some .dieAbsent →
    exec (.ptiIllegal q) s = .next (haltIllegal (raise s .dieAbsentAccess (whClu q) (seqAt s q).step []) q 0)) ∧
  ∀ (q : Fin 256) (s : State) (v : BitVec 128) (r : PtiReject), s.tainted = [] → seqLive s q = true →
    ptiFetch s (seqAt s q).pc = some v → ptiDecode v = .error r →
    (let b := fetched s q
     exec (.ptiIllegal q) s = .next { b with
       seqs := smPut (fun _ => Seq.reset) s.seqs q { seqAt s q with st := .halted }
       evt := evtPush s.evt s.beacon s.epoch .ptiIllegal (whClu q) (seqAt s q).step
         [a64 (seqAt s q).pc, a64 (v.toNat % 2 ^ 64), a64 (v.toNat / 2 ^ 64)] } ∧
     b.mem = s.mem ∧ b.objs = s.objs ∧ b.seqs = s.seqs ∧ b.evt = s.evt)

/-! ## PTI: instructions of the sequencer itself -/

/-- Two-source scalar operations (Table 7.4, R203): sD = f sA sB (or the immediate), then the completion object and the next
word. Wrapping arithmetic; a shift counts by the low six bits.

Moves into a scalar register (Table 7.4): LI, LIH and MOV; BREAD (Table 7.3) reads the beacon and marks NDET under DET.

Predicates (Table 7.4): CMP by its condition, PLOG by its operation. p0 is never written, and reading a predicate that a
timed-out WAIT.to wrote marks NDET (R213). -/
def Obligations.ScalarInstructions : Prop :=
  -- Scalar ops
  (
    ∀ x ∈ ([(Instr.add, .add, fun a b => a + b), (Instr.sub, .sub, fun a b => a - b), (Instr.mul, .mul, fun a b => a * b),
        (Instr.andI, .andI, fun a b => a &&& b), (Instr.orI, .orI, fun a b => a ||| b), (Instr.xorI, .xorI, fun a b => a ^^^ b),
        (Instr.shl, .shl, fun a b => a <<< (b.toNat % 64)), (Instr.shr, .shr, fun a b => a >>> (b.toNat % 64)),
        (Instr.sar, .sar, fun a b => a.sshiftRight (b.toNat % 64))] :
          List ((Fin 256 → PtiWord → Instr) × PtiOp × (DWord → DWord → DWord))),
    ∀ (q : Fin 256) (w : PtiWord) (s : State), issues s q x.2.1 w →
      let b := atIssue s q w
      exec (x.1 q w) s =
        .next (selfDone (setSeq b q (putS (seqAt b q) w.opd.toNat (x.2.2 (sreg (seqAt b q) w.opa.toNat) (srcB b q w)))) q w)
  ) ∧
  -- Scalar moves
  (
    ∀ (q : Fin 256) (w : PtiWord) (s : State),
      let b := atIssue s q w
      let put := fun (t : State) (v : DWord) => selfDone (setSeq t q (putS (seqAt t q) w.opd.toNat v)) q w
      (issues s q .li w → exec (.li q w) s = .next (put b (w.imm.signExtend 64))) ∧
      (issues s q .lih w → exec (.lih q w) s =
        .next (put b (w.imm.extractLsb' 0 16 ++ (sreg (seqAt b q) w.opd.toNat).extractLsb' 0 48))) ∧
      (issues s q .mov w → exec (.mov q w) s = .next (put b (sreg (seqAt b q) w.opa.toNat))) ∧
      (issues s q .bread w → exec (.bread q w) s = .next (put (setNdet b q) (BitVec.ofNat 64 s.beacon)))
  ) ∧
  -- Predicate ops
  (
    ∀ (q : Fin 256) (w : PtiWord) (s : State),
      let b := atIssue s q w
      let u := readP (readP b q w.opa.toNat) q w.opb.toNat
      let y := sreg (seqAt b q) w.opa.toNat
      let z := srcB b q w
      let m := preg (seqAt u q) w.opa.toNat
      let n := preg (seqAt u q) w.opb.toNat
      (issues s q .cmp w → exec (.cmp q w) s = .next (selfDone (setSeq b q (putP (seqAt b q) w.opd.toNat
        (match w.mod.toNat / 2 % 8 with
         | 0 => decide (y = z) | 1 => decide (y ≠ z) | 2 => decide (y.toInt < z.toInt) | 3 => decide (z.toInt ≤ y.toInt)
         | 4 => decide (y.toNat < z.toNat) | _ => decide (z.toNat ≤ y.toNat)))) q w)) ∧
      (issues s q .plog w → exec (.plog q w) s = .next (selfDone (setSeq u q (putP (seqAt u q) w.opd.toNat
        (match w.mod.toNat / 2 % 4 with
         | 0 => m && n | 1 => m || n | 2 => xor m n | _ => m && !n))) q w))
  )

/-- s0 and p0 are hard-wired (Table 6.2): they read 0 and 1, and a write of either changes nothing; a write of any other
register reads back, and no other register changes. -/
def Obligations.ZeroRegisters : Prop :=
  ∀ (x : Seq) (n m : Nat) (v : DWord) (b : Bool), smWf (fun _ => (0 : DWord)) x.s = true → n < 32 → m < 8 →
    sreg x 0 = 0 ∧ preg x 0 = true ∧ (putS x 0 v).s = x.s ∧ (putP x 0 b).p = x.p ∧
    (n ≠ 0 → sreg (putS x n v) n = v) ∧ (∀ k, k ≠ n → sreg (putS x n v) k = sreg x k) ∧
    (m ≠ 0 → preg (putP x m b) m = b) ∧ (∀ k < 8, k ≠ m → preg (putP x m b) k = preg x k)

/-- Completing an instruction of the sequencer (R171, R173): its completion object receives 1 on the sequencer's die, the
sequencer is at the next word, running while RUN is set; every other object, sequencer and byte is as before. A signal to a
system object changes none and counts in SYNC_RSVD_WRITE (R187). -/
def Obligations.SelfDoneEffect : Prop :=
  ∀ (s : State) (q : Fin 256) (w : PtiWord) (x : Seq), Canon s →
    let t := selfDone (setSeq s q x) q w
    seqAt t q = { x with pc := (x.pc + 16) % 2 ^ 48, st := if seqRunBit t q && !x.stopAtBoundary then .running else .stopped,
                         stopAtBoundary := false } ∧
    (∀ p, p ≠ q.val → seqAt t p = seqAt s p) ∧ (∀ a, memB t a = memB s a) ∧
    (w.sigv = true → dieIn s (q / 64) = true → w.sig.toNat < 4032 →
      objVal t (q / 64) w.sig.toNat = objVal s (q / 64) w.sig.toNat + 1) ∧
    (w.sigv = true → dieIn s (q / 64) = true → 4032 ≤ w.sig.toNat → t.objs = s.objs ∧
      t = seqNext (cnt (setSeq s q x) (.sync (q / 64)) rSyncRsvdWrite) q) ∧
    (∀ d i, i < 4096 → w.sigv = false ∨ d ≠ q.val / 64 ∨ i ≠ w.sig.toNat → objVal t d i = objVal s d i)

/-- R175: an instruction issued with a false guard performs no action: the sequencer goes to the next word, and the completion
object, when the SIG field names one, receives its 1 (for XFER.MCAST on each die of its mask, to another die behind the
sequencer's earlier transfers, R17, R224); an instruction of the SYNC class sends nothing. -/
def Obligations.FalseGuard : Prop :=
  ∀ (q : Fin 256) (w : PtiWord) (s : State),
    let b := atIssue s q w
    (∀ x ∈ syncRows, skips s q x.2 w → exec (x.1 q w) s = .next (seqNext b q)) ∧
    (∀ x ∈ ctlRows ++ moveRows ++ mmaRows ++ vecRows ++ routeRows ++ updRows ++ chkRows, skips s q x.2 w →
      exec (x.1 q w) s = .next (selfDone b q w)) ∧
    (∀ x ∈ xferRows, skips s q x.2 w → exec (x.1 q w) s =
      .next (if x.2 = .xferMcast ∧ w.sigv = true then
          seqNext (releaseSigs (((List.range 4).filter (fun d => w.imm.getLsbD d)).foldl
            (fun t d => if d = q.val / 64 then objSignal t d w.sig.toNat 1 else
              { t with sigs := sigInsert { q := q, no := b.opNo, rem := none, die := d, obj := w.sig.toNat, isSet := false,
                                           val := 1, step := (seqAt b q).step, pc := (seqAt b q).pc } t.sigs }) b)) q
        else selfDone b q w))

/-- Control flow (R208): NOP; JMP, CALL and RET on aligned targets, within the eight levels of the stack.

HALT clears RUN, so the sequencer stops at the next word (Table 7.3); CTL.SLIPG takes the slip group; CTL.STEP takes the
step number, from sA or the immediate, and a sticky NDET is ORed into the step it names (R196; log 25). -/
def Obligations.ControlFlow : Prop :=
  -- Control flow
  (
    ∀ (q : Fin 256) (w : PtiWord) (s : State),
      let b := atIssue s q w
      let x := seqAt b q
      let dst := if w.mod.getLsbD 0 then (BitVec.ofNat 48 x.pc + w.imm).toNat else w.imm.toNat
      (issues s q .nop w → exec (.nop q w) s = .next (selfDone b q w)) ∧
      (issues s q .jmp w → dst % 16 = 0 → exec (.jmp q w) s = .next (seqEnd (signal b q w) q dst)) ∧
      (issues s q .call w → dst % 16 = 0 → x.stack.length < 8 →
        exec (.call q w) s = .next (seqEnd (signal (setSeq b q { x with stack := (x.pc + 16) % 2 ^ 48 :: x.stack }) q w) q dst)) ∧
      (∀ a r, issues s q .ret w → x.stack = a :: r →
        exec (.ret q w) s = .next (seqEnd (signal (setSeq b q { x with stack := r }) q w) q a))
  ) ∧
  -- Halt step slip
  (
    ∀ (q : Fin 256) (w : PtiWord) (s : State),
      let b := atIssue s q w
      let x := seqAt b q
      let n := (if wImmf w then w.imm.toNat else (sreg x w.opa.toNat).toNat) % 2 ^ 32
      (issues s q .halt w → exec (.halt q w) s = .next (seqNext (setFld (signal b q w) (.clu q) rCluSeqCtl 0 0 0) q)) ∧
      (issues s q .ctlSlipg w → exec (.ctlSlipg q w) s = .next (selfDone (setSeq b q { x with slipg := w.imm.toNat % 16 }) q w)) ∧
      (issues s q .ctlStep w → exec (.ctlStep q w) s = .next (selfDone
        { b with seqs := smPut (fun _ => Seq.reset) b.seqs q { x with step := n }
                 steps := b.steps.map (fun r => if r.n = n then { r with ndet := r.ndet || x.ndet } else r) } q w))
  )

/-- Halts of control flow (R208): a misaligned target, a ninth CALL and a RET on an empty stack halt with STATE 5 and raise
EVT_PTI_ILLEGAL; the completion object is not signalled.

Loads, stores and DLD that do not take place (R206, R207, R211): a misaligned address gives status ALIGN, one out of reach
the status of its check; the instruction fails, raising the event of its status, and the sequencer goes on.

Signals refused (R187, R213, R30, R328): a system object gives LIMIT and counts in SYNC_RSVD_WRITE, n = 0 gives LIMIT and
counts in SYNC_BAD_OP, SYNC.SET of another module gives REMOTE, an absent die DIE_ABSENT, a module without a VALID entry ADDR
with EVT_XLAT_INVALID.

Issue refused (Table 7.2): an MMA target above 4 or a DMA engine above 3 completes at once with LIMIT and signals its object;
an MMA of a cluster whose gang mode is to change stalls (R106).

What an MMA refuses before it moves data, in the order of R216 (R105, R133, R206): a gang in mode 0, a cluster without a
unit, an M, N or K out of range, a window that leaves its tensor; it then changes nothing but its completion. -/
def Obligations.PtiRefusals : Prop :=
  -- Control flow halts
  (
    ∀ (q : Fin 256) (w : PtiWord) (s : State),
      let b := atIssue s q w
      let x := seqAt b q
      let dst := if w.mod.getLsbD 0 then (BitVec.ofNat 48 x.pc + w.imm).toNat else w.imm.toNat
      (issues s q .jmp w → dst % 16 ≠ 0 → exec (.jmp q w) s = .next (haltIllegal b q (ptiEncode .jmp w))) ∧
      (issues s q .call w → dst % 16 ≠ 0 ∨ 8 ≤ x.stack.length →
        exec (.call q w) s = .next (haltIllegal b q (ptiEncode .call w))) ∧
      (issues s q .ret w → x.stack = [] → exec (.ret q w) s = .next (haltIllegal b q (ptiEncode .ret w)))
  ) ∧
  -- Access fails
  (
    ∀ (q : Fin 256) (w : PtiWord) (s : State) (e : AccErr),
      let b := atIssue s q w
      let a := (sreg (seqAt b q) w.opa.toNat + w.imm.signExtend 64).toNat
      ∀ x ∈ ([(Instr.lds, .lds, 8, false), (Instr.sts, .sts, 8, true), (Instr.dld, .dld, 64, false)] :
          List ((Fin 256 → PtiWord → Instr) × PtiOp × Nat × Bool)),
        issues s q x.2.1 w → (a % x.2.2.1 ≠ 0 ∧ e = .align ∨ a % x.2.2.1 = 0 ∧ accChk b a x.2.2.2 = some e) →
        exec (x.1 q w) s = .next (selfFail x.2.1 q w e.status (raiseAcc b e (whClu q) (seqAt b q).step))
  ) ∧
  -- Signals refused
  (
    ∀ (q : Fin 256) (w : PtiWord) (s : State),
      let b := atIssue s q w
      let n := if wImmf w then w.imm.toNat / 2 ^ 34 else (sreg (seqAt b q) w.opa.toNat).toNat % 2 ^ 31
      let die := if w.imm.getLsbD 12 then w.imm.toNat / 2 ^ 13 % 4 else q.val / 64
      let lc := w.imm.toNat / 2 ^ 16 % 2 ^ 18
      (issues s q .syncAdd w → 4032 ≤ syObj w →
        exec (.syncAdd q w) s = .next (selfFail .syncAdd q w 0x08 (cnt b (.sync (q / 64)) rSyncRsvdWrite))) ∧
      (issues s q .syncSet w → 4032 ≤ syObj w →
        exec (.syncSet q w) s = .next (selfFail .syncSet q w 0x08 (cnt b (.sync (q / 64)) rSyncRsvdWrite))) ∧
      (issues s q .syncAdd w → syObj w < 4032 → n = 0 →
        exec (.syncAdd q w) s = .next (selfFail .syncAdd q w 0x08 (cnt b (.sync (q / 64)) rSyncBadOp))) ∧
      (issues s q .syncSet w → syObj w < 4032 → w.imm.getLsbD 15 = true →
        exec (.syncSet q w) s = .next (selfFail .syncSet q w 0x10 b)) ∧
      (issues s q .syncAdd w → syObj w < 4032 → n ≠ 0 → w.imm.getLsbD 15 = true → canSend b lc = false →
        exec (.syncAdd q w) s = .next (selfFail .syncAdd q w 0x11 (xlatInvalid b lc (whClu q) (seqAt b q).step))) ∧
      (issues s q .syncAdd w → syObj w < 4032 → n ≠ 0 → w.imm.getLsbD 15 = false → dieIn b die = false →
        exec (.syncAdd q w) s = .next (selfFail .syncAdd q w 0x0B b)) ∧
      (issues s q .syncSet w → syObj w < 4032 → w.imm.getLsbD 15 = false → dieIn b die = false →
        exec (.syncSet q w) s = .next (selfFail .syncSet q w 0x0B b))
  ) ∧
  -- Issue refused
  (
    ∀ (q : Fin 256) (w : PtiWord) (s : State),
      let b := atIssue s q w
      (∀ x ∈ mmaRows, issues s q x.2 w →
        (4 < w.tgt.toNat → exec (x.1 q w) s = .next (issueFail q (.mma q 0) x.2 w 0x08 b)) ∧
        (w.tgt.toNat ≤ 4 → s.gangReq.contains q.val = true → exec (x.1 q w) s = .next (stalled b q))) ∧
      (∀ x ∈ ([(.xferMcast, .xferMcast), (.xferZero, .xferZero), (.xferPref, .xferPref)] :
          List ((Fin 256 → PtiWord → Instr) × PtiOp)), issues s q x.2 w → 3 < w.tgt.toNat →
        exec (x.1 q w) s = .next (issueFail q (.dma (q / 16) w.tgt.toNat) x.2 w 0x08 b))
  ) ∧
  -- Mma refuses
  (
    ∀ (s : State) (o : EngOp) (g : Nat) (e : MmaEnv) (dc da db : Desc) (fc fa fb : Fmt),
      opDescBad o = false → o.dd = some dc → o.da = some da → o.db = some db →
      fmtOf dc.fmt = some fc → fmtOf da.fmt = some fa → fmtOf db.fmt = some fb →
      let d := mmaDims o.w o.sc dc da
      (g = 4 → gangNow s o.q = 0 → mmaRun s o g e = (s, 0x05, whClu o.q)) ∧
      ((g ≠ 4 ∨ gangNow s o.q ≠ 0) → mmaUnits s o.q g = false → mmaRun s o g e = (s, 0x06, whClu o.q)) ∧
      ((g ≠ 4 ∨ gangNow s o.q ≠ 0) → mmaUnits s o.q g = true →
        (d.1 = 0 ∨ 512 < d.1 ∨ d.2.1 = 0 ∨ mmaWidth g (gangNow s o.q) < d.2.1 ∨ d.2.2 = 0 ∨ 65536 < d.2.2) →
        mmaRun s o g e = (s, 0x08, whClu o.q))
  )

/-- BWAIT (R188, R190, R192, R209): with the target v = sA + sext(IMM) and the slip group's offset, a target reached already
fires at once, and counts as an overrun only beyond the tolerance; a target more than 2^34 bt ahead gives BCN_FAR; any
other makes the sequencer wait with STATE 3. BWAIT_FIRE ends the wait once the beacon has reached it. -/
def Obligations.BeaconLaunch : Prop :=
  ∀ (q : Fin 256) (w : PtiWord) (s : State),
    let b := atIssue s q w
    let x := seqAt b q
    let v := (sreg x w.opa.toNat + w.imm.signExtend 64).toNat
    let eff := (v + slipOfs b (q / 64) x.slipg) % 2 ^ 64
    (issues s q .bwait w → eff ≤ s.beacon → exec (.bwait q w) s =
      .next (selfDone (overrun b q (s.beacon - eff) ((s.beacon + 2 ^ 64 - v) % 2 ^ 64)) q w)) ∧
    (s.beacon - eff ≤ fld b (.bcn (q / 64)) rBcnOvrTol 15 0 → ∀ a, overrun b q (s.beacon - eff) a = b) ∧
    (issues s q .bwait w → s.beacon < eff → eff - s.beacon ≤ 2 ^ 34 → exec (.bwait q w) s = .next (setSeq b q { x with
      st := .beaconWait, bwait := some ⟨eff, if w.sigv then some w.sig.toNat else none⟩ })) ∧
    (issues s q .bwait w → 2 ^ 34 < eff - s.beacon → exec (.bwait q w) s = .next (selfFail .bwait q w 0x0C b)) ∧
    (∀ i, s.tainted = [] → (seqAt s q).st = .beaconWait → (seqAt s q).bwait = some i → i.eff ≤ s.beacon →
      dieIn s (q / 64) = true → exec (.bwaitFire q) s = .next (seqNext
        ((fun (t : State) => match i.sig with | some o => objSignal t (q / 64) o 1 | none => t)
          (setSeq s q { seqAt s q with bwait := none })) q))

/-! ## PTI: loads, stores, descriptors, tags, counters -/

/-- Loads (R180, R211): an aligned LDS within reach gives sD the 8 bytes at sA + sext(IMM), little-endian; DLD gives dD the
64-byte descriptor there with its address. Besides the caches' counts (R257) nothing else changes than SelfDoneEffect says.

TAGP (R194, R212): with a valid descriptor, 1 ≤ n ≤ 64 and the tested blocks inside the tensor, pD is whether any (or all,
under MOD[1]) of the FLAGS read meet the mask; n out of range or a block past the tensor gives LIMIT, an invalid descriptor
DESC.

CTR.RD (R140, R210): an offset that names the LO word of a 64-bit counter of the sequencer's die or of the hub gives sD the
whole counter, and marks NDET under DET; any other offset gives status ADDR. -/
def Obligations.MemoryReadingInstructions : Prop :=
  -- Loads
  (
    ∀ (q : Fin 256) (w : PtiWord) (s : State),
      let b := atIssue s q w
      let a := (sreg (seqAt b q) w.opa.toNat + w.imm.signExtend 64).toNat
      (issues s q .lds w → a % 8 = 0 → accChk b a false = none → poisoned b (xlatPage b a) 8 = false →
        exec (.lds q w) s = .next (let c := traffic b (some (q / 16)) 0 (xlatPage b a) 8 false
          selfDone (setSeq c q (putS (seqAt c q) w.opd.toNat (BitVec.ofNat 64 (rdLE b a 8)))) q w)) ∧
      (issues s q .dld w → a % 64 = 0 → accChk b a false = none → poisoned b (xlatPage b a) 64 = false →
        exec (.dld q w) s = .next (let c := traffic b (some (q / 16)) 0 (xlatPage b a) 64 false
          selfDone (setSeq c q (putD (seqAt c q) w.opd.toNat (some (parseDesc a (rdBytes b a 64))))) q w))
  ) ∧
  -- Tag predicate
  (
    ∀ (q : Fin 256) (w : PtiWord) (s : State), issues s q .tagp w →
      let b := atIssue s q w
      let n := w.imm.toNat % 128
      let mask := w.imm.toNat / 65536 % 65536
      let f := (sreg (seqAt b q) w.opb.toNat).toNat
      (dreg (seqAt b q) w.opa.toNat = none → exec (.tagp q w) s = .next (selfFail .tagp q w 0x01 b)) ∧
      (∀ d, dreg (seqAt b q) w.opa.toNat = some d → n = 0 ∨ 64 < n ∨ nBlocks d < f + n →
        exec (.tagp q w) s = .next (selfFail .tagp q w 0x08 b)) ∧
      (∀ d c fl, dreg (seqAt b q) w.opa.toNat = some d → 1 ≤ n → n ≤ 64 → f + n ≤ nBlocks d →
        tagHdrs (seqCx b q) d ((List.range n).map (f + ·)) b [] = (c, 0, fl) →
        exec (.tagp q w) s = .next (selfDone (setSeq c q (putP (seqAt c q) w.opd.toNat
          (if w.mod.getLsbD 1 then fl.all (fun g => decide (g &&& mask ≠ 0)) else fl.any (fun g => decide (g &&& mask ≠ 0))))) q w))
  ) ∧
  -- Counter read
  (
    ∀ (q : Fin 256) (w : PtiWord) (s : State), issues s q .ctrRd w →
      let b := atIssue s q w
      (ctrTarget q w.imm.toNat = none → exec (.ctrRd q w) s = .next (selfFail .ctrRd q w 0x11 b)) ∧
      (∀ k o, ctrTarget q w.imm.toNat = some (k, o) → exec (.ctrRd q w) s = .next
        (let c := setNdet (setLatch b (seqPath q) k o) q;
          selfDone (setSeq c q (putS (seqAt c q) w.opd.toNat
            (BitVec.ofNat 64 ((regView b k o).toNat + (regView b k (o + 4)).toNat * 2 ^ 32)))) q w))
  )

/-- STS (R211): an aligned store within reach writes the 8 bytes of sB, little-endian, at sA + sext(IMM). Its frame: those eight
bytes, where the page table puts them, are the only bytes of memory that change, and no other sequencer does. -/
def Obligations.Store : Prop :=
  ∀ (q : Fin 256) (w : PtiWord) (s : State), Canon s → issues s q .sts w →
    let b := atIssue s q w
    let a := (sreg (seqAt b q) w.opa.toNat + w.imm.signExtend 64).toNat
    a % 8 = 0 → accChk b a true = none → ∃ t, exec (.sts q w) s = .next t ∧
      (∀ k < 8, memB t (xlatPage b a + k) = (sreg (seqAt b q) w.opb.toNat).extractLsb' (8 * k) 8) ∧
      (∀ x, x < xlatPage b a ∨ xlatPage b a + 8 ≤ x → memB t x = memB s x) ∧
      (seqAt t q).pc = ((seqAt s q).pc + 16) % 2 ^ 48 ∧ (∀ p, p ≠ q.val → seqAt t p = seqAt s p)

/-- The frame of the register-only instructions: no byte of memory, no other sequencer, no engine queue, no step's state and
no page set changes; where their completion object is no system object, no event, and of the registers only CLU_SEQ_STATUS of
the sequencer, where NDET stands, the counters that its fetch moves, and the arms of its die, which its completion object may
fire. LDS, DLD, TAGP and CTR.RD store nothing: every byte of memory and every other sequencer is as before. -/
def Obligations.PtiFrame : Prop :=
  -- Scalar frame
  (
    ∀ (q : Fin 256) (w : PtiWord) (s t : State), Canon s →
      ∀ x ∈ ([(.nop, .nop), (.ctlSlipg, .ctlSlipg), (.bread, .bread)] ++ moveRows.take 14 :
          List ((Fin 256 → PtiWord → Instr) × PtiOp)),
        exec (x.1 q w) s = .next t →
        (∀ a, memB t a = memB s a) ∧ (∀ p, p ≠ q.val → seqAt t p = seqAt s p) ∧ t.ops = s.ops ∧
        t.poison = s.poison ∧ t.pages = s.pages ∧ t.steps.map (fun r => (r.n, r.st)) = s.steps.map (fun r => (r.n, r.st)) ∧
        ((w.sigv = true → w.sig.toNat < 4032) → t.evt = s.evt ∧
          (∀ k, k ≠ Blk.base (.clu q) + rCluSeqStatus → (∀ a < 64, k ≠ Blk.base (.sync (q / 64)) + (0x10000 + 16 * a)) →
            ¬ fetchCounter q k → smGet regRst t.regs k = smGet regRst s.regs k))
  ) ∧
  -- Load frame
  (
    ∀ (q : Fin 256) (w : PtiWord) (s t : State), Canon s →
      ∀ x ∈ ([(.lds, .lds), (.dld, .dld), (.tagp, .tagp), (.ctrRd, .ctrRd)] : List ((Fin 256 → PtiWord → Instr) × PtiOp)),
        exec (x.1 q w) s = .next t → (∀ a, memB t a = memB s a) ∧ (∀ p, p ≠ q.val → seqAt t p = seqAt s p)
  )

/-! ## Sync objects -/

/-- R183: reached(v, t) is the serial-number comparison. -/
def Obligations.ReachedRule : Prop :=
  (∀ v t : Word, reached v t = true ↔ (v.toNat + 2 ^ 32 - t.toNat) % 2 ^ 32 < 2 ^ 31) ∧
  (∀ (t : Word) (d : Nat), d < 2 ^ 31 → reached (t + BitVec.ofNat 32 d) t = true) ∧
  (∀ (v : Word) (d : Nat), 0 < d → d ≤ 2 ^ 31 → reached v (v + BitVec.ofNat 32 d) = false) ∧
  reached 6 0xFFFFFFF0 = true ∧ reached 0xFFFFFFF0 5 = false

/-- A change of an object (R182, R185, R502): it takes the value, no other object changes, and every armed arm of its die on it
whose target it reaches interrupts its core once, as source 1 + a, and disarms. -/
def Obligations.ObjectPut : Prop :=
  ∀ (s : State) (d i : Nat) (v : Word), Canon s → i < 4096 →
    let t := objPut s d i v
    let hit := fun a => a < 64 ∧ rbit s (.sync d) (0x10000 + 16 * a) 31 = true ∧ fld s (.sync d) (0x10000 + 16 * a) 11 0 = i ∧
      reached v (regAt s (.sync d) (0x10004 + 16 * a)) = true
    objVal t d i = v ∧ (∀ e j, j < 4096 → (e ≠ d ∨ j ≠ i) → objVal t e j = objVal s e j) ∧
    (∀ a, hit a → rbit t (.sync d) (0x10000 + 16 * a) 31 = false ∧
      (d, fld s (.sync d) (0x10000 + 16 * a) 14 12, 1 + a) ∈ t.irqs) ∧
    (∀ a < 64, ¬ hit a → regAt t (.sync d) (0x10000 + 16 * a) = regAt s (.sync d) (0x10000 + 16 * a)) ∧
    ((∀ a, ¬ hit a) → t.irqs = s.irqs) ∧ (∀ a, memB t a = memB s a) ∧ t.seqs = s.seqs

/-- SYNC.ADD and SYNC.SET of a program object of the own die (R186, R213): the object takes its new value at once, and the
sequencer goes on. To another die in service, or another module with a VALID entry, the signal leaves behind the sequencer's
earlier transfers (R17). -/
def Obligations.Signals : Prop :=
  ∀ (q : Fin 256) (w : PtiWord) (s : State),
    let b := atIssue s q w
    let o := syObj w
    let n := if wImmf w then w.imm.toNat / 2 ^ 34 else (sreg (seqAt b q) w.opa.toNat).toNat % 2 ^ 31
    let v := (sreg (seqAt b q) w.opa.toNat).setWidth 32
    let die := if w.imm.getLsbD 12 then w.imm.toNat / 2 ^ 13 % 4 else q.val / 64
    let held := fun (rem : Option Nat) (st : Bool) (x : Word) =>
      ({ q := q, no := b.opNo, rem := rem, die := die, obj := o, isSet := st, val := x, step := (seqAt b q).step,
         pc := (seqAt b q).pc } : HeldSig)
    (issues s q .syncAdd w → o < 4032 → n ≠ 0 → w.imm.getLsbD 15 = false → die = q / 64 → dieIn b die = true →
      exec (.syncAdd q w) s = .next (seqNext (objPut b die o (objVal b die o + BitVec.ofNat 32 n)) q)) ∧
    (issues s q .syncSet w → o < 4032 → w.imm.getLsbD 15 = false → die = q / 64 → dieIn b die = true →
      exec (.syncSet q w) s = .next (seqNext (objPut b die o v) q)) ∧
    (issues s q .syncAdd w → o < 4032 → n ≠ 0 → w.imm.getLsbD 15 = false → die ≠ q / 64 → dieIn b die = true →
      exec (.syncAdd q w) s = .next (seqNext (sendSig b (held none false (BitVec.ofNat 32 n))) q)) ∧
    (issues s q .syncSet w → o < 4032 → w.imm.getLsbD 15 = false → die ≠ q / 64 → dieIn b die = true →
      exec (.syncSet q w) s = .next (seqNext (sendSig b (held none true v)) q)) ∧
    (issues s q .syncAdd w → o < 4032 → n ≠ 0 → w.imm.getLsbD 15 = true → canSend b (w.imm.toNat / 2 ^ 16 % 2 ^ 18) = true →
      exec (.syncAdd q w) s =
        .next (seqNext (sendSig b (held (some (w.imm.toNat / 2 ^ 16 % 2 ^ 18)) false (BitVec.ofNat 32 n))) q))

/-- WAIT, WAIT.to and SYNC.RD on an object of the own die (R182–R184, R213): a wait whose target is reached writes 1 to pD and
goes on; another stalls with STATE 2, its deadline timeout bt from now (none for 0); SYNC.RD reads the object and marks NDET.

The end of a stalled wait (R183, R184): WAIT_REACHED once the object has reached the target writes 1 and goes on;
SYNC_TIMEOUT once the deadline has passed writes 0, raises EVT_SYNC_TIMEOUT with object, target, value and pc, and goes on. -/
def Obligations.WaitsAndTheirEnds : Prop :=
  -- Waits
  (
    ∀ (q : Fin 256) (w : PtiWord) (s : State),
      let b := atIssue s q w
      let x := seqAt b q
      let o := syObj w
      let t : Word := if wImmf w then w.imm.extractLsb' 12 32 else (sreg x w.opa.toNat).setWidth 32
      let tmo := (sreg x w.opb.toNat).toNat
      let here : Prop := wImmf w = true ∨ w.imm.getLsbD 15 = false ∧ (w.imm.getLsbD 12 = false ∨ w.imm.toNat / 2 ^ 13 % 4 = q / 64)
      let ends := seqNext (setSeq b q { putP x w.opd.toNat true with wait := none }) q
      let stalls := fun (d : Option Nat) (timed : Bool) => setSeq b q { x with
        st := .syncWait, wait := some { obj := o, target := t, pd := w.opd.toNat, deadline := d, timed := timed } }
      (issues s q .wait w → here → reached (objVal b (q / 64) o) t = true → exec (.wait q w) s = .next ends) ∧
      (issues s q .wait w → here → reached (objVal b (q / 64) o) t = false → exec (.wait q w) s = .next (stalls none false)) ∧
      (issues s q .waitTo w → here → tmo ≤ 2 ^ 34 → reached (objVal b (q / 64) o) t = true → exec (.waitTo q w) s = .next ends) ∧
      (issues s q .waitTo w → here → tmo ≤ 2 ^ 34 → reached (objVal b (q / 64) o) t = false → exec (.waitTo q w) s =
        .next (stalls (if tmo = 0 then none else some (s.beacon + tmo)) true)) ∧
      (issues s q .waitTo w → here → 2 ^ 34 < tmo → exec (.waitTo q w) s = .next (selfFail .waitTo q w 0x08 b)) ∧
      (issues s q .syncRd w → w.imm.getLsbD 15 = false → (w.imm.getLsbD 12 = false ∨ w.imm.toNat / 2 ^ 13 % 4 = q / 64) →
        exec (.syncRd q w) s = .next (let c := setNdet b q
          seqNext (setSeq c q (putS (seqAt c q) w.opd.toNat ((objVal b (q / 64) o).setWidth 64))) q))
  ) ∧
  -- Wait ends
  (
    ∀ (q : Fin 256) (s : State) (i : WaitInfo), s.tainted = [] → dieIn s (q / 64) = true → (seqAt s q).st = .syncWait →
      (seqAt s q).wait = some i →
      (reached (objVal s (q / 64) i.obj) i.target = true → exec (.waitReached q) s =
        .next (seqNext (setSeq s q { putP (seqAt s q) i.pd true with wait := none }) q)) ∧
      (∀ d, i.deadline = some d → d ≤ s.beacon → reached (objVal s (q / 64) i.obj) i.target = false → i.pd ≠ 0 →
        exec (.syncTimeout q) s = .next (seqNext (raise (setSeq s q
          { putP (seqAt s q) i.pd false with
            wait := none
            toPred := BitVec.ofNat 8 (setBit (putP (seqAt s q) i.pd false).toPred.toNat i.pd) }) .syncTimeout (whClu q) (seqAt s q).step
            [a32 i.obj, a32 i.target.toNat, a32 (objVal s (q / 64) i.obj).toNat, a64 (seqAt s q).pc]) q))
  )

/-! ## PTI: engine instructions -/

/-- Issue to the engines that lie with the sequencer (R171, R205, Table 6.1): while the queue has room the instruction enters
it with copies of its descriptors and scalars and the sequencer goes on at the next word; a full queue stalls it. MMA, VEC and
CHK.FOLD, and the transfers that a DMA engine runs alone. In dim, an issue to a gated engine wakes the module (R453).

Issue where the engine starts on its own (R171, R223, R226, R340): XFER.COPY and XFER.COLL to their DMA engine, GATE,
DISPATCH and COMBINE to the die's routing engine of depth 2. The instruction enters its queue, and every transfer whose turn has
come starts. -/
def Obligations.TransferIssue : Prop :=
  -- Engine issue
  (
    ∀ (q : Fin 256) (w : PtiWord) (s : State),
      let b := atIssue s q w
      let go := fun (e : Eng) (op : PtiOp) =>
        let c := queuedAt b q e op w
        seqNext (if gatedEng e && decide (s.pwr = .dim) then wake c else c) q
      (∀ x ∈ mmaRows, issues s q x.2 w → w.tgt.toNat ≤ 4 → s.gangReq.contains q.val = false →
        ((engQueue b (.mma q w.tgt.toNat) q).length < 4 → exec (x.1 q w) s = .next (go (.mma q w.tgt.toNat) x.2)) ∧
        (4 ≤ (engQueue b (.mma q w.tgt.toNat) q).length → exec (x.1 q w) s = .next (stalled b q))) ∧
      (∀ x ∈ vecRows ++ [(.chkFold, .chkFold)], issues s q x.2 w →
        ((engQueue b (.vec q) q).length < 8 → exec (x.1 q w) s = .next (go (.vec q) x.2)) ∧
        (8 ≤ (engQueue b (.vec q) q).length → exec (x.1 q w) s = .next (stalled b q))) ∧
      (∀ x ∈ ([(.xferMcast, .xferMcast), (.xferZero, .xferZero), (.xferPref, .xferPref)] :
          List ((Fin 256 → PtiWord → Instr) × PtiOp)), issues s q x.2 w → w.tgt.toNat ≤ 3 →
        ((engQueue b (.dma (q / 16) w.tgt.toNat) q).length < 4 → exec (x.1 q w) s = .next (go (.dma (q / 16) w.tgt.toNat) x.2)) ∧
        (4 ≤ (engQueue b (.dma (q / 16) w.tgt.toNat) q).length → exec (x.1 q w) s = .next (stalled b q)))
  ) ∧
  -- Transfer issue
  (
    ∀ (q : Fin 256) (w : PtiWord) (s : State),
      let b := atIssue s q w
      (∀ x ∈ ([(.xferCopy, .xferCopy), (.xferColl, .xferColl)] : List ((Fin 256 → PtiWord → Instr) × PtiOp)), issues s q x.2 w →
        w.tgt.toNat ≤ 3 → (engQueue b (.dma (q / 16) w.tgt.toNat) q).length < 4 →
        exec (x.1 q w) s = .next (kick (seqNext (queuedAt b q (.dma (q / 16) w.tgt.toNat) x.2 w) q))) ∧
      (∀ x ∈ routeRows, issues s q x.2 w → (engQueue b (.route (q / 64)) q).length < 2 →
        exec (x.1 q w) s = .next (let c := queuedAt b q (.route (q / 64)) x.2 w
          kick (seqNext (if s.pwr = .dim then wake c else c) q)))
  )

/-- Issue of CHK.VERIFY and CHK.CMP (R229): the instruction enters the vector engine's queue and pD is pending from then on, so
that an instruction that names it stalls; p0 is never pending.

Issue of UPD (R227, R294, R307): a command that its checks accept and for which every named engine has room is entered in
its stack group's queue, its command block mirrored to the buddy; one that they refuse completes at once with its status and
signals its object. -/
def Obligations.CheckAndUpdateIssue : Prop :=
  -- Check issue
  (
    ∀ (q : Fin 256) (w : PtiWord) (s : State), Canon s →
      let b := atIssue s q w
      ∀ x ∈ ([(.chkVerify, .chkVerify), (.chkCmp, .chkCmp)] : List ((Fin 256 → PtiWord → Instr) × PtiOp)), issues s q x.2 w →
        (engQueue b (.vec q) q).length < 8 → ∃ t, exec (x.1 q w) s = .next t ∧ t.ops = s.ops ++ [mkOp b q (.vec q) x.2 w] ∧
          (seqAt t q).pc = ((seqAt s q).pc + 16) % 2 ^ 48 ∧ (∀ p, p ≠ q.val → seqAt t p = seqAt s p) ∧
          (∀ n < 8, (seqAt t q).pend.getLsbD n = ((seqAt s q).pend.getLsbD n || (decide (n = w.opd.toNat) && decide (n ≠ 0))))
  ) ∧
  -- Update issue
  (
    ∀ (q : Fin 256) (w : PtiWord) (s : State),
      let b := atIssue s q w
      ∀ x ∈ updRows, issues s q x.2 w →
        let o := mkOp b q (.upd 0 0) x.2 w
        let g := ((o.dd.bind (fun d => updGrp b d.base))).getD 0
        (updIssueStat b o ≠ 0 → exec (x.1 q w) s = .next (issueFail q (.upd g w.tgt.toNat) x.2 w (updIssueStat b o) b)) ∧
        (updIssueStat b o = 0 → updFull b q g w.tgt.toNat = false → exec (x.1 q w) s =
          .next (enqueueOp q (.upd g w.tgt.toNat) x.2 w (updMirror b o))) ∧
        (updIssueStat b o = 0 → updFull b q g w.tgt.toNat = true → exec (x.1 q w) s = .next (stalled b q))
  )

/-- The end of an engine instruction (R173, R207): it leaves its queue; its object receives 1 on the sequencer's die
(XFER.MCAST: on each die of its mask, to another die behind the sequencer's earlier transfers), and a signal to a system
object changes none; with an error status the first one is recorded in CLU_SEQ_ERR with the instruction's address, ERR is set
and the event of the status raised; memory stays as the run left it. -/
def Obligations.CompletionEffect : Prop :=
  ∀ (s : State) (o : EngOp) (st : Nat), Canon s → s.sigs = [] → st < 256 →
    let t := completeOp s o st
    t.ops = s.ops.filter (fun x => x.no != o.no) ∧ (∀ a, memB t a = memB s a) ∧
    (o.w.sigv = true → o.w.sig.toNat < 4032 → o.op ≠ .xferMcast → dieIn s (o.q / 64) = true →
      objVal t (o.q / 64) o.w.sig.toNat = objVal s (o.q / 64) o.w.sig.toNat + 1) ∧
    (o.w.sigv = true → o.w.sig.toNat < 4032 → o.op = .xferMcast → (∀ p ∈ s.ops, p.q = o.q → o.no ≤ p.no) →
      ∀ d < 4, objVal t d o.w.sig.toNat =
        if o.w.imm.getLsbD d && dieIn s d then objVal s d o.w.sig.toNat + 1 else objVal s d o.w.sig.toNat) ∧
    (o.w.sigv = false ∨ 4032 ≤ o.w.sig.toNat → t.objs = s.objs) ∧
    (st = 0 → o.w.sigv = false ∨ o.w.sig.toNat < 4032 → t.evt = s.evt ∧ t.seqs = s.seqs) ∧
    (st ≠ 0 → o.q < 256 → fld s (.clu o.q) rCluSeqErr 31 24 = 0 →
      fld t (.clu o.q) rCluSeqErr 31 24 = st ∧ fld t (.clu o.q) rCluSeqErr 23 0 = o.pc / 16 % 2 ^ 24 ∧
      rbit t (.clu o.q) rCluSeqStatus 9 = true) ∧
    (∀ ev, st ≠ 0 → statusEv st = some ev → o.w.sigv = false ∨ o.w.sig.toNat < 4032 → t.evt = evtPush s.evt s.beacon s.epoch ev (whClu o.q) o.step [])

/-- The engines complete the instruction whose turn it is (R172, R173): the vector engine after running it as dual execution
settles (R348), a cluster's member or gang after its product and its class A checks (R127), a DMA engine after its transfer or
once one that went out has landed (R223, R527), the routing engine of a die (R226); each gives its status to the completion. A
re-run of a share on a member with earlier instructions waits for them (R128; log 221). -/
def Obligations.EngineCompletes : Prop :=
  ∀ (s : State) (o : EngOp), s.tainted = [] →
    (∀ (q : Fin 256) (e : EngEnv), engPick s (.vec q) (fun _ => true) = some o → exec (.vecComplete q e) s =
      .next (let x := vecDual (memEnv s (opCx o true) e.errs e.reread) o e
        completeOp (vecPred x.1 o x.2.2) o x.2.1)) ∧
    (∀ (q : Fin 256) (g : Fin 5) (e : MmaEnv), engPick s (.mma q g) (mmaMay s q g) = some o →
      (rerunWaits s o g (mmaFails o g e) = false → exec (.mmaComplete q g e) s =
        .next (let x := mmaRun (memEnv s (opCx o true) e.errs e.reread) o g e
          completeOpAt x.1 o x.2.1 x.2.2)) ∧
      (rerunWaits s o g (mmaFails o g e) = true → exec (.mmaComplete q g e) s = .next s) ∧
      (e.fails = [] → rerunWaits s o g (mmaFails o g e) = false)) ∧
    (∀ (r : Fin 16) (d : Fin 4) (m : List MemErr) (k : Nat), engPick s (.dma r d) (xferMay s) = some o →
      exec (.xferComplete r d m k) s =
      .next (let c := memEnv s (opCx o true) m k
        let x := if o.phase = .sent then (c, sentStat c o) else xferRun c o
        kick (completeOp x.1 o x.2))) ∧
    (∀ (d : Fin 4) (m : List MemErr) (k : Nat), engPick s (.route d) (routeMay s) = some o → exec (.routeComplete d m k) s =
      .next (let x := routeRun (memEnv s (opCx o false) m k) o
        kick (completeOp (routeForget x.1 o) o x.2)))

/-- The gang mode (R102, R106): an APPLY asks for the mode in CLU_GANG, and GANG_MODE_CHANGE brings it into force once all
members of the cluster are idle. The update engines (R41, R42, R227, R296, R304, R307): after the seal a held command reads
its recipe and starts; disagreements of the two computations are settled by a third until three on one block make a commit
failure, which frees the step's shadow pages and stops issue; a command that waited for a frame goes on; a command whose pages
are written completes and counts for the step's flip. COLL_COMPLETE (R336, R339): a collective that has ended with its own
record gives its instruction its status and frees its place; a refused one completes with the status it was given. -/
def Obligations.GangUpdateCollective : Prop :=
  -- Gang mode
  (
    ∀ (q : Fin 256) (s : State), s.tainted = [] → s.gangReq.contains q.val = true → mmaIdle s q = true →
      exec (.gangModeChange q) s = .next (setFld { s with gangReq := s.gangReq.filter (· != q.val) } (.clu q) rCluGangNow 1 0
        (fld s (.clu q) rCluGang 1 0))
  ) ∧
  -- Update runs
  (
    ∀ (g : Fin 5) (e : Fin 16) (v : UpdEnv) (s : State) (o : EngOp), s.tainted = [] →
      let may := fun (p : EngOp) => decide (p.phase = .queued) && stepSealed s p.step && !updBehind s p && !s.updWait.contains p.no
      let c := v.mis.foldl (fun t x => dualMiss o.step t (min 3 x.2)) (memEnv s (opCx o false) v.errs v.reread)
      let a := o.w.imm.toNat
      let rx := fun (d : Option Desc) => d.map (fun y => y.readX c o.step)
      let x := { o with recipe := some (rdBytes c a 64), dd := rx o.dd, da := rx o.da, db := rx o.db }
      (engPick s (.upd g e) may = some o → (∀ y ∈ v.mis, y.2 < 3) →
        (accChk c a false = none → poisoned c (xlatPage c a) 64 = false → exec (.updStart g e v) s =
          .next (updRun (setOp (traffic c none 0 (xlatPage c a) 64 false) x) x)) ∧
        (∀ k, accChk c a false = some k → exec (.updStart g e v) s =
          .next (kick (completeOp (raiseAcc c k (whClu o.q) o.step) o k.status)))) ∧
      (engPick s (.upd g e) may = some o → (∃ x ∈ v.mis, 3 ≤ x.2) → exec (.updStart g e v) s =
        .next (kick (completeOp (commitFailed c o.step) o 0x14))) ∧
      (engPick s (.upd g e) (fun p => decide (p.phase = .queued) && s.updWait.contains p.no) = some o →
        exec (.updFrameResume g e) s = .next (updRun s o)) ∧
      (engPick s (.upd g e) (fun p => decide (p.phase = .done)) = some o → exec (.updComplete g e) s =
        .next (kick (completeOp (updStep s o.step (fun r => { r with updDone := r.updDone + 1 })) o 0)))
  ) ∧
  -- Collective ends
  (
    ∀ (k : Fin 17) (s : State), s.tainted = [] →
      (∀ o, k.val = 16 → collRefused s = some o → exec (.collComplete k) s = .next (kick (completeOp s o o.status))) ∧
      (∀ c o, k.val < 16 → s.colls[k.val]? = some c → collEnded s c = true → c.fold = none →
        s.ops.find? (fun p => decide (p.no = c.no)) = some o →
        exec (.collComplete k) s = .next (kick (completeOp (dropColl s c) o (collStat s c))))
  )

/-- R172: an engine shared by sequencers serves them round robin: of the instructions at the head of their queues it takes that
of the sequencer next after the one last served. -/
def Obligations.RoundRobin : Prop :=
  ∀ (s : State) (e : Eng) (ok : EngOp → Bool) (o : EngOp), engPick s e ok = some o →
    o ∈ s.ops ∧ o.eng = e ∧ ok o = true ∧ engUp s e = true ∧
    (∀ p ∈ s.ops, p.eng = e → p.q = o.q → o.no ≤ p.no) ∧
    (∀ p ∈ engHeads s e, ok p = true →
      (o.q + 255 - smGet (fun _ => 0) s.rr (engKey e)) % 256 ≤ (p.q + 255 - smGet (fun _ => 0) s.rr (engKey e)) % 256)

/-! ## Registers -/

/-- R481, R488, R490: a quiet write takes the register's RW fields, and its RWL fields when unlocked, and nothing else of it,
then does what the register's action bits say. -/
def Obligations.RegisterWrite : Prop :=
  ∀ (s : State) (p : Path) (a : BitVec 44) (v : Word) (b : Blk) (o : Nat), a.toNat = b.base + o → writes s p b o v.toNat →
    mbRowed a.toNat v.toNat = false → directWrite b o v.toNat s = none → writeIgnored s b o v.toNat = false → b ≠ .regdec →
    isChecked s b o = false →
    exec (.registerWrite p a v) s =
      .next (regEffect b o v.toNat (regShow s b o).toNat 0 false (wroteReg s b o v.toNat))

/-- The fields a write takes: a bit in an RW field, or in an RWL field that is not locked, has the written value afterwards,
every other bit its old one (R481, R490); no other register and no byte of memory changes.

R490: a write that would change a locked field leaves it, raises EVT_REG_LOCKED and counts in REGDEC_LOCKED. -/
def Obligations.RegisterFields : Prop :=
  -- Register fields
  (
    ∀ (s : State) (b : Blk) (o v : Nat), Canon s → (∀ f ∈ fieldsAt b o, f.lo ≤ f.hi ∧ f.hi < 32) → quiet s b o v = true →
      let t := wroteReg s b o v
      (∀ i < 32, (∃ f ∈ fieldsAt b o, (f.acc = .rw ∨ f.acc = .rwl ∧ lockSet s b o = false) ∧ f.lo ≤ i ∧ i ≤ f.hi) →
        (∀ f ∈ fieldsAt b o, f.lo ≤ i → i ≤ f.hi → f.acc = .rw ∨ f.acc = .rwl ∧ lockSet s b o = false) →
        (regAt t b o).getLsbD i = v.testBit i) ∧
      (∀ i < 32, (∀ f ∈ fieldsAt b o, f.lo ≤ i → i ≤ f.hi → f.acc = .ro ∨ f.acc = .rc ∨ f.acc = .wo) →
        (regAt t b o).getLsbD i = (regAt s b o).getLsbD i) ∧
      (∀ c r, c.base + r ≠ b.base + o → regAt t c r = regAt s c r) ∧ (∀ a, memB t a = memB s a) ∧ t.evt = s.evt
  ) ∧
  -- Locked fields
  (
    ∀ (s : State) (b : Blk) (fs : List RegField) (old v : Nat), changes fs .rwl old v = true →
      let t := lockedNote s b fs old v
      let wh := match b with
        | .clk d => whDie d
        | _ => whHub
      t = raise (cnt s .regdec rRegdecLocked) .regLocked wh 0 [] ∧
      (∀ f ∈ fs, (∀ g ∈ fs, g.lo ≤ g.hi ∧ (g.acc = .rw ∨ g.acc = .live → g.hi < f.lo ∨ f.hi < g.lo)) → f.acc = .rwl →
        bits (takeFields fs true old v) f.hi f.lo = bits old f.hi f.lo)
  )

/-- R488: a write that changes a LIVE bit is taken with EVT_REG_LIVE, and the block is TAINTED; from then on a command that
calls on a tainted block's behaviour, which R488 leaves undefined, is a fault. -/
def Obligations.TaintedBlocks : Prop :=
  (∀ (s : State) (b : Blk) (o v : Nat) (fs : List RegField) (old : Nat), changes fs .live old v = true →
    b ∈ (liveNote s b o fs old v).tainted ∧
    (liveNote s b o fs old v).evt = (raise (cnt s .regdec rRegdecLive) .regLive whHub 0
      [a64 (0xF00000000000 + b.base + o), a32 old, a32 v]).evt) ∧
  (∀ (s : State) (p : Path) (a : BitVec 44) (v : Word) (b : Blk), mbRowed a.toNat v.toNat = false →
    writeBlks s a.toNat v.toNat = [b] → b ∈ s.tainted → exec (.registerWrite p a v) s = .fault .taintedBlock) ∧
  (∀ (s : State) (q : Fin 256) (w : PtiWord), Blk.clu q ∈ s.tainted → exec (.nop q w) s = .fault .taintedBlock)

/-- The APPLY registers (R106, R136, R163, R231, R245, R285, R344, R361, R405, R491): a write with the APPLY bit brings the
staged configuration into force at the point its rule names.

The hub's APPLY registers (R187, R245, R378, R393, R439, R497, R500, R504): XLAT_APPLY arms the inactive bank, which switches
once the epoch has come; HUB_STEP_APPLY takes step numbers, epoch and limits while no step is open and is REFUSED otherwise;
CWT_APPLY acts only outside a job session. -/
def Obligations.ApplyRegisters : Prop :=
  -- Register apply
  (
    ∀ (p : Path) (v : Word) (s : State), bitAt v.toNat 0 = true →
      (∀ q : Fin 256, writes s p (.clu q) rCluApply v.toNat → exec (.gangApply p q v) s =
        .next (let t := wroteReg s (.clu q) rCluApply v.toNat
          { t with gangReq := if s.gangReq.contains q.val then s.gangReq else q :: s.gangReq })) ∧
      (∀ d r : Fin 4, writes s p (.rgn d r) rRgnApply v.toNat →
        exec (.fenceApply p ⟨4 * d + r, by omega⟩ v) s = .next (fenceApplyWrite (wroteReg s (.rgn d r) rRgnApply v.toNat) (4 * d + r))) ∧
      (∀ d : Fin 4, writes s p (.route d) rRouteApply v.toNat →
        let t := wroteReg s (.route d) rRouteApply v.toNat
        let a := addr48 t (.route d) rRouteOwnerLo rRouteOwnerHi / 64 * 64
        let n := fld t (.route d) rRouteOwnerCount 12 0
        tblBad t a (64 * n) = none → exec (.routeApply p d v) s = .next
          { t with owners := smPut (fun _ => []) t.owners d ((List.range n).map (fun k => parseOwner (rdBytes t (a + 64 * k) 64))) }) ∧
      (writes s p .mig rMigApply v.toNat →
        let t := wroteReg s .mig rMigApply v.toNat
        let n := min 16 (max 4 (fld t .mig rMigRingSize 4 0))
        let a := addr48 t .mig rMigRingLo rMigRingHi / 64 * 64
        s.mig.fly = [] → tblBad t a (64 * 2 ^ n) = none → exec (.migApply p v) s = .next
          (setReg { t with mig := { ring := a, size := 2 ^ n, die := fld t .mig rMigTrig 13 12, obj := fld t .mig rMigTrig 11 0,
                                    applied := true, next := 0, fly := [] } } .mig rMigDone 0)) ∧
      (∀ l : Fin 6, writes s p (.lnk l) rLnkApply v.toNat →
        exec (.lnkApply p l v) s = .next (lnkApplyWrite (wroteReg s (.lnk l) rLnkApply v.toNat) l)) ∧
      (writes s p .chk rChkApply v.toNat → exec (.chkApply p v) s =
        .next { wroteReg s .chk rChkApply v.toNat with chkPend := true }) ∧
      (writes s p .ckpt rCkptApply v.toNat → exec (.ckptApply p v) s =
        .next { wroteReg s .ckpt rCkptApply v.toNat with ckptPend := true }) ∧
      (writes s p .scl rSclApply 1 → exec (.sclApplyEst p) s =
        .next (let t := wroteReg s .scl rSclApply 1
          { t with scl := { t.scl with estPend := true } })) ∧
      (writes s p .scl rSclApply 2 → exec (.sclApplyLs p) s =
        .next (let t := wroteReg s .scl rSclApply 2
          let lo := fld t .scl rSclLsCtl 5 0
          let hi := max lo (fld t .scl rSclLsCtl 13 8)
          setLs { t with scl := { t.scl with lsMin := lo, lsMax := hi, lsWindow := fld t .scl rSclLsCtl 31 16,
                                             lsJ := some ((s.openN + 1) % u32Mod) } }
            (min hi (max lo (fld t .scl rSclLsInit 5 0)))))
  ) ∧
  -- Hub apply
  (
    ∀ (p : Path) (v : Word) (s : State), bitAt v.toNat 0 = true →
      (writes s p .xlat rXlatApply v.toNat →
        let t := wroteReg s .xlat rXlatApply v.toNat
        let a := addr48 t .xlat rXlatGrpLo rXlatGrpHi / 16 * 16
        let n := fld t .xlat rXlatGrpCount 15 0
        tblBad t a (16 * n) = none → tblsBad t (grpLists t a n) = none → exec (.xlatApply p v) s = .next (xlatSwitch (setFld
          { t with xlat := { t.xlat with armed := some (regAt t .xlat rXlatEpoch).toNat } } .xlat rXlatStatus 2 2 1))) ∧
      (writes s p .hub rHubResilApply v.toNat → exec (.hubResilApply p v) s =
        .next (let t := wroteReg s .hub rHubResilApply v.toNat
          buddySet (wardSet { t with
            aglGiB := if s.openN = s.commitN then 64 * min 16 (max 1 (fld t .hub rHubAglSize 4 0)) else s.aglGiB
            lateMs := max 1 (fld t .hub rHubReflLate 15 0)
            certSec := min 600 (max 1 (fld t .hub rHubCertCtl 9 0))
            certRetry := max 1 (fld t .hub rHubCertCtl 31 16) }))) ∧
      (writes s p .hub rHubStepApply v.toNat →
        let t := wroteReg s .hub rHubStepApply v.toNat
        (s.openN = s.commitN → exec (.hubStepApply p v) s = .next (xlatSwitch (setSteps
          { t with drainMs := min 60000 (max 1 (fld t .hub rHubDrainLim 15 0))
                   voteMs := min 60000 (max 1 (fld t .hub rHubVoteLim 15 0))
                   epoch := (regAt t .hub rHubEpoch).toNat }
          (regAt t .hub rHubStepCommit).toNat (regAt t .hub rHubStepOpen).toNat))) ∧
        (s.openN ≠ s.commitN → exec (.hubStepApply p v) s = .next (setFld t .hub rHubStepStatus 8 8 1))) ∧
      (writes s p .hlth rHlthApply v.toNat → exec (.hlthApply p v) s =
        .next (let t := wroteReg s .hlth rHlthApply v.toNat
          { t with hlthW := (List.range 22).map (fun i => if 19 ≤ i then 0 else min 1000 (fld t .hlth (rHlthWeight + 4 * i) 9 0))
                   mgmt := { s.mgmt with period := max 100 (fld t .hlth rHlthPeriod 15 0) } })) ∧
      (writes s p .cwt rCwtApply v.toNat →
        let t := wroteReg s .cwt rCwtApply v.toNat
        (s.sess = none → exec (.cwtApply p v) s = .next { t with
          cwtCfg := regAt t .cwt rCwtCfg, cwtWin := regAt t .cwt rCwtWin, cwtTmr := regAt t .cwt rCwtTmr
          ethCfg := (List.range 2).map (fun i => (regAt t (.eth i) rEthCtl, regAt t (.eth i) rEthPfc, regAt t (.eth i) rEthPfcWm))
          evt := { t.evt with evsev := fld t .cwt rCwtCfg 9 8 } }) ∧
        (s.sess.isSome = true → exec (.cwtApply p v) s = .next t))
  )

/-- Register writes that act at once (R170, R260, R280, R281, R306, R313, R358, R394, R409, R411, R494, R500, R501). -/
def Obligations.RegisterActions : Prop :=
  ∀ (p : Path) (v : Word) (s : State),
    (∀ q : Fin 256, writes s p (.clu q) rCluSeqCtl v.toNat →
      let t := wroteReg s (.clu q) rCluSeqCtl v.toNat
      let x := seqAt s q
      (rbit t (.clu q) rCluSeqCtl 0 = true → bitAt (regShow s (.clu q) rCluSeqCtl).toNat 0 = false →
        x.st = .stopped ∨ x.st = .halted → exec (.seqRun p q v) s =
          .next (setSeq t q { x with st := .running, pc := seqEntry t q, stopAtBoundary := false })) ∧
      (rbit t (.clu q) rCluSeqCtl 0 = false → bitAt (regShow s (.clu q) rCluSeqCtl).toNat 0 = true →
        x.st = .running ∨ x.st = .halted → exec (.seqRun p q v) s = .next (setSeq t q { x with st := .stopped })) ∧
      (rbit t (.clu q) rCluSeqCtl 0 = bitAt (regShow s (.clu q) rCluSeqCtl).toNat 0 → exec (.seqRun p q v) s = .next t)) ∧
    (writes s p .upd rUpdApply v.toNat → exec (.updApply p v) s =
      .next { wroteReg s .upd rUpdApply v.toNat with updPend := s.updPend ||| BitVec.ofNat 5 (v.toNat % 32) }) ∧
    (∀ d r : Fin 4, writes s p (.rgn d r) rRgnCacheCtl v.toNat → bitAt v.toNat 8 = true →
      exec (.cacheDemote p ⟨4 * d + r, by omega⟩ v) s = .next (demote (wroteReg s (.rgn d r) rRgnCacheCtl v.toNat) (4 * d + r))) ∧
    (∀ c : MemCtrl, writes s p (ctrlBlk c) rHcCtl v.toNat → exec (.testModeEnter p c v) s =
      .next (let t := wroteReg s (ctrlBlk c) rHcCtl v.toNat
        if fld t (ctrlBlk c) rHcCtl 1 0 = 1 then t
        else (List.range (ctrlBlk c).tgChannels).foldl (fun u ch => setFld u (ctrlBlk c) (tgBase ch + rTgStatus) 1 1 0)
          (setFld t (ctrlBlk c) rHcStatus 7 7 0))) ∧
    (∀ (c : MemCtrl) (ch : Fin 16), writes s p (ctrlBlk c) (tgBase ch + rTgCtl) v.toNat → bitAt v.toNat 0 = true →
      let t := wroteReg s (ctrlBlk c) (tgBase ch + rTgCtl) v.toNat
      exec (.tgStart p c ch v) s = .next (if rbit t (ctrlBlk c) rHcStatus 7 = true then
        setFld (setReg t (ctrlBlk c) (tgBase ch + rTgErrcnt) 0) (ctrlBlk c) (tgBase ch + rTgStatus) 1 1 1 else t)) ∧
    (∀ l : Fin 6, writes s p (.lnk l) rLnkCtl v.toNat → exec (.linkRetrain p l v) s =
      .next (let t := lnkEnableWrite (wroteReg s (.lnk l) rLnkCtl v.toNat) l
        if bitAt v.toNat 2 = true ∧ lasersOn t = true ∧ rbit t (.lnk l) rLnkCtl 0 = true ∧ linkUnused t l = false
        then trainReset t l 1 else t)) ∧
    (writes s p .chk rChkFoldStatus v.toNat → bitAt v.toNat 2 = true → exec (.foldResume p v) s =
      .next (setFld (wroteReg s .chk rChkFoldStatus v.toNat) .chk rChkFoldStatus 0 0 0)) ∧
    (writes s p .ckpt rCkptReq v.toNat → exec (.ckptReq p v) s =
      .next { wroteReg s .ckpt rCkptReq v.toNat with snapReq := some v.toNat }) ∧
    (writes s p .ckpt rCkptRstCtl v.toNat → bitAt v.toNat 0 = true → bitAt v.toNat 2 = false → s.steps = [] →
      exec (.restoreStart p v) s = .next (restoreStart (wroteReg s .ckpt rCkptRstCtl v.toNat))) ∧
    (writes s p .ckpt rCkptRstCtl v.toNat → bitAt v.toNat 0 = false → bitAt v.toNat 2 = true →
      (∃ r, s.rst = some r ∧ r.ready = true) →
      exec (.restoreCommit p v) s = .next (restoreCommit (wroteReg s .ckpt rCkptRstCtl v.toNat))) ∧
    (∀ b, writes s p .evt rEvtClr v.toNat → bitAt v.toNat 0 = true →
      let t := wroteReg s .evt rEvtClr v.toNat
      let a := addr48 t .evt rEvtSnapLo rEvtSnapHi / 64 * 64
      locate (regAt t .evt rEvtClrBlock).toNat = some (b, 0) → snapBufOk t a (snapBytes t b).length = true →
      exec (.snapshotAndClear p v) s = .next (setFld (snapClear
        (wrBytes (traffic t none 0 a (snapBytes t b).length true) a (snapBytes t b)) b) .evt rEvtClr 1 1 1)) ∧
    (∀ (d : Fin 4) (g : Fin 16), writes s p (.bcn d) (0x40 + 8 * g) v.toNat → v = 0 →
      exec (.bcnSlipClear p d g v) s = .next (wroteReg s (.bcn d) (0x40 + 8 * g) 0)) ∧
    (∀ (d : Fin 4) (g : Fin 16), writes s p (.bcn d) (0x40 + 8 * g) v.toNat → v ≠ 0 → exec (.bcnSlipClear p d g v) s = .next s) ∧
    (writes s p .xlat rXlatData v.toNat → exec (.xlatDataAccess p (some v)) s =
      .next (let m := smPut (fun _ => 0) (bankIdle s.xlat) (fld s .xlat rXlatIdx 17 0) v
        setFld { s with xlat := if s.xlat.bank then { s.xlat with bank0 := m } else { s.xlat with bank1 := m } }
          .xlat rXlatIdx 17 0 (fld s .xlat rXlatIdx 17 0 + 1)))

/-- Sync objects as registers (R186, R187, R502): SYNC_VAL sets, SYNC_ADD adds 1 to 2^31 - 1; a system object and a bad count
are refused and counted; an arm written over a target already reached interrupts at once and disarms. -/
def Obligations.SyncRegisters : Prop :=
  ∀ (p : Path) (d : Fin 4) (o : Fin 4096) (v : Word) (s : State),
    (writes s p (.sync d) (16 * o) v.toNat → o.val < 4032 → exec (.syncValWrite p d o v) s = .next (objPut s d o v)) ∧
    (writes s p (.sync d) (16 * o) v.toNat → 4032 ≤ o.val →
      exec (.syncValWrite p d o v) s = .next (cnt s (.sync d) rSyncRsvdWrite)) ∧
    (writes s p (.sync d) (16 * o + 4) v.toNat → o.val < 4032 → v ≠ 0 → v.toNat < 2 ^ 31 →
      exec (.syncAddWrite p d o v) s = .next (objPut s d o (objVal s d o + v))) ∧
    (writes s p (.sync d) (16 * o + 4) v.toNat → o.val < 4032 → (v = 0 ∨ 2 ^ 31 ≤ v.toNat) →
      exec (.syncAddWrite p d o v) s = .next (cnt s (.sync d) rSyncBadOp)) ∧
    (writes s p (.sync d) (16 * o + 4) v.toNat → 4032 ≤ o.val →
      exec (.syncAddWrite p d o v) s = .next (cnt s (.sync d) rSyncRsvdWrite)) ∧
    (∀ (a : Fin 64) (tgt : Bool),
      let r := (if tgt then rSyncArmTgt else rSyncArmCtl) + 16 * a.val
      let t := wroteReg s (.sync d) r v.toNat
      let hit := rbit t (.sync d) (0x10000 + 16 * a) 31 &&
        reached (objVal s d (fld t (.sync d) (0x10000 + 16 * a) 11 0)) (regAt t (.sync d) (0x10004 + 16 * a))
      writes s p (.sync d) r v.toNat → exec (.syncArmWrite p d a tgt v) s = .next (if hit then fireArms t d [a.val] else t))

/-- Register reads (R140, R473, R482, R489, R500): a read shows the register; a read of an RC register clears what it read; a
read of a counter's LO word latches its HI word; XLAT_DATA steps its index; an access of a control core to SEC faults.
Accesses of the cores to memory (R200, R302, Table 6.11): loads, stores and the RISC-V atomics, each through the page table,
with the reservation of R200; an access that its check refuses is an access fault. -/
def Obligations.RegisterReads : Prop :=
  -- Register reads
  (
    ∀ (p : Path) (a : BitVec 44) (s : State) (b : Blk) (o : Nat), s.tainted = [] → pathUp s p = true → a.toNat % 4 = 0 →
      (mayRead p a.toNat = true → regHit s a.toNat = (s, some (b, o)) → isCtrLo b o = true → ¬ (b = .xlat ∧ o = rXlatData) →
        exec (.counterLoRead p a) s = .next (corePut (setLatch s (pathKey p) b o) p (.value (regShow s b o).toNat))) ∧
      (mayRead p a.toNat = true → regHit s a.toNat = (s, some (b, o)) → isCtrLo b o = false → ¬ (b = .xlat ∧ o = rXlatData) →
        (o < 4 ∨ isCtrLo b (o - 4) = false) → exec (.registerRcRead p a) s = .next (corePut (rcTake s b o) p
          (.value ((w32 (hideWo (fieldsAt b o) (regShow s b o).toNat)).toNat)))) ∧
      (mayRead p (Blk.xlat.base + rXlatData) = true → regHit s (Blk.xlat.base + rXlatData) = (s, some (.xlat, rXlatData)) →
        exec (.xlatDataAccess p none) s = .next (corePut (setFld s .xlat rXlatIdx 17 0 (fld s .xlat rXlatIdx 17 0 + 1)) p
          (.value (regShow s .xlat rXlatData).toNat))) ∧
      (∀ d k, p = .core d k → mayRead p a.toNat = false → exec (.registerRcRead p a) s = .next (corePut s p .fault))
  ) ∧
  -- Core access
  (
    ∀ (d : Fin 4) (k : Fin 8) (a : BitVec 56) (n : Fin 65) (s : State) (v : Nat),
      let p := Path.core d k
      let pa := xlatPage s a.toNat
      let old := coreRd s a.toNat n
      let ok := fun (c : CoreAcc) => s.tainted = [] ∧ pathUp s p = true ∧ n.val ≠ 0 ∧ a.toNat < 0xF00000000000 ∧
        coreErr s p a.toNat n c = none ∧ corePoison s a.toNat n c = false
      (ok .load → exec (.coreMemAccess p a n .load []) s = .next (corePut (traffic s none 0 pa n false) p (.value old))) ∧
      (ok (.store v) → exec (.coreMemAccess p a n (.store v) []) s = .next (corePut (coreWr s a.toNat n v) p (.value 0))) ∧
      (ok .lr → exec (.coreMemAccess p a n .lr []) s = .next (let t := dropResv (traffic s none 0 pa n false) p
        corePut { t with resv := t.resv ++ [(p, pa / 64)] } p (.value old))) ∧
      (ok (.sc v) → (p, pa / 64) ∈ s.resv → exec (.coreMemAccess p a n (.sc v) []) s =
        .next (corePut (dropResv (coreWr s a.toNat n v) p) p (.value 0))) ∧
      (ok (.sc v) → (p, pa / 64) ∉ s.resv → exec (.coreMemAccess p a n (.sc v) []) s = .next (corePut (dropResv s p) p (.value 1))) ∧
      (∀ op, ok (.amo op v) → exec (.coreMemAccess p a n (.amo op v) []) s =
        .next (corePut (coreWr (traffic s none 0 pa n false) a.toNat n (amoVal op n old v)) p (.value old))) ∧
      (∀ c e, s.tainted = [] → pathUp s p = true → n.val ≠ 0 → a.toNat < 0xF00000000000 → coreErr s p a.toNat n c = some e →
        exec (.coreMemAccess p a n c []) s = .next (coreFault s p e))
  )

/-! ## Memory controllers, traffic generators, migration -/

/-- Memory upkeep (R274–R279, R283, R455): the patrol scrub of a stack finds corrected and uncorrectable errors in it, the
latter poisoning their sectors; a minute retires of a controller's error rate, and a rate above the threshold is reported once
until it has been below half of it; samples of the stacks and packages set their throttle level (Table 9.9) and code, a level
that differs from the one last reported raises EVT_MEM_THROTTLE, at most once a second; a package that the part does not have
reports nothing. The throttle levels (Table 9.9): entered at 85 °C, at the limit and 5 °C above it, left 3 °C below, 3 °C
below the limit and 3 °C below the entry of level 3; never a level that the temperature does not reach. -/
def Obligations.MemoryUpkeep : Prop :=
  -- Memory upkeep
  (
    ∀ (s : State), s.tainted = [] →
      (∀ (k : Fin 32) (a : Nat), ctrlOf s a = some (.hc k) → ctrlFitted s (.hc k) = true →
        exec (.patrolScrub k [.ue a]) s = .next (poisonSec (setFld (setReg
          (setFld (cnt s (.hc k) rHcEccUe) (.hc k) rHcStatus 3 3 1) (.hc k) rHcUeAddrLo (BitVec.ofNat 32 (a / 32 * 32)))
          (.hc k) rHcUeAddrHi 15 0 (a / 2 ^ 32)) (whHc k) a) ∧
        exec (.patrolScrub k [.ce a]) s =
          .next (ceAdd (setFld (cnt s (.hc k) rHcEccCe) (.hc k) rHcStatus 2 2 1) (.hc k))) ∧
      (∀ c : MemCtrl, ctrlFitted s (ctrlBlk c) = true →
        let r := smGet (fun _ => CeRate.reset) s.ceRate (ctrlKey (ctrlBlk c))
        let r1 := { r with buckets := (0 :: r.buckets).take 60, next := r.next + btMinute }
        r.next ≤ s.beacon → exec (.ceRateMinute c) s = .next (ceCheck (setCe s (ctrlBlk c) r1) (ctrlBlk c))) ∧
      (∀ b : Blk,
        let r := smGet (fun _ => CeRate.reset) s.ceRate (ctrlKey b)
        (r.quiet = false → ceThresh s b < ceSum r → ceCheck s b =
          flicker (health (raise (setCe s b { r with quiet := true }) .memCeRate (whCtrl b) 0 []) 11) fkCe) ∧
        (r.quiet = true ∨ ceSum r ≤ ceThresh s b →
          ceCheck s b = if 2 * ceSum r < ceThresh s b then setCe s b { r with quiet := false } else s)) ∧
      (∀ (k : Fin 32) (temp : BitVec 8),
        let x := smGet (fun _ => Thr.reset) s.thr k
        let old := fld s (.hc k) rHcStatus 1 0
        let lv := stackLevel (fld s (.hc k) rHcTlim 7 0) old temp.toNat
        let t := setFld (setFld ({ s with thr := smPut (fun _ => Thr.reset) s.thr k { x with next := s.beacon + btMs } } : State)
          (.hc k) rHcStatus 15 8 temp.toNat) (.hc k) rHcStatus 1 0 lv
        x.next ≤ s.beacon → ctrlFitted s (.hc k) = true → exec (.stackTempSample k temp) s =
          .next (thrReport (if lv = 3 ∧ old ≠ 3 then flicker t fkTherm else t) k lv)) ∧
      (∀ (k : Fin 48) (code : BitVec 4) (hot : Bool), k.val < npkg s → exec (.lpddrMr4Change k code hot) s =
        .next (thrReport (setFld (setFld s (.lpc k) rLpcStatus 11 8 code.toNat) (.lpc k) rLpcStatus 2 2 (b2n hot))
          (64 + k) (b2n hot))) ∧
      (∀ key lv : Nat,
        let x := smGet (fun _ => Thr.reset) s.thr key
        (x.level = x.sent → thrSend s key = s) ∧
        (∀ b, x.sentAt = some b → s.beacon < b + btSec → thrSend s key = s) ∧
        (x.level ≠ x.sent → (∀ b, x.sentAt = some b → b + btSec ≤ s.beacon) → thrSend s key = raise
          { s with thr := smPut (fun _ => Thr.reset) s.thr key { x with sent := x.level, sentAt := some s.beacon } }
          .memThrottle (thrWhere key) 0 [a8 x.level]) ∧
        thrReport s key lv =
          thrSend { s with thr := smUpd (fun _ => Thr.reset) s.thr key (fun y => { y with level := lv }) } key) ∧
      (∀ k : Fin 32, exec (.memRetrainDone k) s =
        .next { s with pw := { s.pw with train := s.pw.train &&& ~~~(BitVec.ofNat 32 (2 ^ k.val)) } })
  ) ∧
  -- Throttle levels
  (
    ∀ (lim old t : Nat), 85 < lim → old ≤ 3 →
      (lim + 5 ≤ t → stackLevel lim old t = 3) ∧
      (lim ≤ t → t < lim + 5 → old ≤ 2 → stackLevel lim old t = 2) ∧
      (85 ≤ t → t < lim → old ≤ 1 → stackLevel lim old t = 1) ∧
      (t < 85 → old = 0 → stackLevel lim old t = 0) ∧
      (t < 82 → stackLevel lim old t = 0) ∧
      (stackLevel lim old t > old → stackLevel lim 0 t = stackLevel lim old t)
  )

/-- Test mode, traffic generators and migration (R267, R268, R280, R281, R285): a controller that drained is ready; a run of a
generator that is busy writes and checks as its MODE says, ends with DONE and EVT_MEM_TG_DONE; MIG takes up to four orders as
their object counts them, one that names an absent die's window with EVT_DIE_ABSENT_ACCESS (R30), and completes the oldest
with its status, in the ring and at MIG_DONE. -/
def Obligations.TestAndMigration : Prop :=
  ∀ (s : State), s.tainted = [] →
    (∀ c : MemCtrl, ctrlFitted s (ctrlBlk c) = true → fld s (ctrlBlk c) rHcCtl 1 0 = 1 →
      exec (.testReady c) s = .next (setFld s (ctrlBlk c) rHcStatus 7 7 1)) ∧
    (∀ (c : MemCtrl) (ch : Fin 16) (flt : List (Nat × Nat)),
      let b := ctrlBlk c
      let o := tgBase ch
      let m := fld s b (o + rTgCtl) 3 1
      let l := List.range (regAt s b (o + rTgCount)).toNat
      let wr := l.foldl (tgOp b ch true flt) s
      let fin := fun t => raise (setFld (setFld t b (o + rTgStatus) 1 1 0) b (o + rTgStatus) 0 0 1) .memTgDone (whCtrl b) 0 []
      ch.val < b.tgChannels → rbit s b (o + rTgStatus) 1 = true → rbit s b rHcStatus 7 = true → ctrlFitted s b = true →
      exec (.memTgDone c ch flt) s = .next (fin (match m with
        | 1 => l.foldl (tgOp b ch false flt) s
        | 2 => l.foldl (tgOp b ch false flt) wr
        | 3 => s
        | _ => wr))) ∧
    (let o := parseMig s.mig.next (rdBytes s (s.mig.ring + 64 * (s.mig.next % s.mig.size)) 64);
      s.mig.applied = true → s.mig.fly.length < 4 →
      reached (objVal s s.mig.die s.mig.obj) (BitVec.ofNat 32 (s.mig.next + 1)) = true →
      exec .migOrderStart s = .next (
        let m := { s.mig with next := s.mig.next + 1, fly := s.mig.fly ++ [{ o with status := migRefuse s o }] }
        let t := if migRefuse s o = 0x0B then raise s .dieAbsentAccess whHub 0 [] else s
        migDrain 4 (setFld { t with mig := m } .mig rMigStatus 1 1 1))) ∧
    (∀ (errs : List MemErr) (o : MigOrd) (l : List MigOrd), s.mig.fly = o :: l → o.status = 0 →
      exec (.migOrderComplete errs) s = .next (let x := migMove o (List.range o.count) (memErrs s errs)
        migDrain 4 (migDone x.1 o x.2)))

/-! ## Steps -/

/-- HUB_STEP_CMD (R32, R35, R36, R46, R48, R523): OPEN of the next step that the limits allow opens it, of one they do not yet
allow is held, and of one that is ABANDONED, or while the steps hold their state after the last epoch, is refused; DECLARE of
an open step lets it drain, or is held; ABANDON of an unsealed step abandons it, of a sealed or committed one is ALREADY_DONE. -/
def Obligations.StepCommands : Prop :=
  ∀ (p : Path) (s : State),
    let n := (regAt s .hub rHubStepArg).toNat
    let b := fun (c : Nat) => wroteReg s .hub rHubStepCmd c
    (∀ t, writes s p .hub rHubStepCmd 1 → n = s.openN + 1 → worksNot s = false → s.pw.left = false → n ≤ stepLast →
      stepLeft s n = false → canOpen s n = true → openStep (b 1) n false = (t, true) →
      exec (.stepCmdOpen p) s = .next (stepResult { t with heldOpen := none } 1 .ok)) ∧
    (writes s p .hub rHubStepCmd 1 → n = s.openN + 1 → worksNot s = false → s.pw.left = false → n ≤ stepLast →
      s.epochHold = false → stepLeft s n = false → canOpen s n = false → exec (.stepCmdOpen p) s = .next (stepResult { b 1 with heldOpen := some n } 1 .held)) ∧
    (writes s p .hub rHubStepCmd 1 → n ≠ s.openN + 1 ∨ s.epochHold = true ∨ stepLeft s n = true →
      exec (.stepCmdOpen p) s = .next (stepResult (b 1) 1 .refused)) ∧
    (∀ r, writes s p .hub rHubStepCmd 2 → stepRec s n = some r → r.st = .open → r.declared = false → s.epochHold = false →
      exec (.stepCmdDeclare p) s = .next (if n ≤ s.commitN + 1 then stepResult (enterDraining (b 2) n) 2 .ok
        else stepResult (updStep (b 2) n (fun x => { x with declared := true })) 2 .held)) ∧
    (∀ r, writes s p .hub rHubStepCmd 3 → stepRec s n = some r →
      (r.st = .sealed → exec (.stepCmdAbandon p) s = .next (stepResult (b 3) 3 .alreadyDone)) ∧
      (r.st ≠ .sealed → r.st ≠ .abandoned → s.epoch ≠ u32Max → exec (.stepCmdAbandon p) s =
        .next (stepResult (abandon (b 3) n (if r.vote &&& (vOvf ||| vNan) = 0 then 6 else 1)) 3 .ok))) ∧
    (writes s p .hub rHubStepCmd 3 → stepRec s n = none → n ≤ s.commitN →
      exec (.stepCmdAbandon p) s = .next (stepResult (b 3) 3 .alreadyDone))

/-- What opening a step leaves (R35, R187, R196): the step is OPEN with an empty vote word and the NDET of the sequencers
whose STEP names it already, it is the last one opened, and system object OPEN shows its number on every die; without the
module in group 0 nothing opens and EVT_STEP_GROUP tells so. -/
def Obligations.StepOpens : Prop :=
  ∀ (s : State) (n : Nat), Canon s →
    let t := (openStep s n false).1
    (∀ g, stepGroup s = some g → (openStep s n false).2 = true ∧ t.openN = n ∧ t.commitN = s.commitN ∧
      (∃ r, stepRec t n = some r ∧ r.st = .open ∧ r.declared = false ∧ r.vote = 0 ∧ r.members = g.1 ∧ r.rank = g.2 ∧
        (r.ndet = true ↔ ∃ q, (seqAt s q).step = n ∧ (seqAt s q).ndet = true)) ∧
      (∀ m, m ≠ n → stepRec t m = stepRec s m) ∧ (∀ d < 4, objVal t d oOpen = BitVec.ofNat 32 n) ∧
      (∀ a, memB t a = memB s a)) ∧
    (stepGroup s = none → openStep s n false = (raise s .stepGroup whHub n [a32 n, a32 (grp0Count s)], false))

/-- Steps on their way (R32, R35–R41, R46, R174, R523, R524): held commands take effect once the limits allow; a step that has
drained votes; a limit that expires abandons it with cause 4 and EVT_STEP_TIMEOUT; a vote of zero, matching digests and a
passed fold compare seal it; the sealed step flips its page sets and commits; nothing moves while the steps hold their state
after the last epoch; an abandoned one is replayed once the agreement is over. -/
def Obligations.StepProgress : Prop :=
  ∀ (s : State), s.tainted = [] →
    (∀ n t, s.heldOpen = some n → n = s.openN + 1 → canOpen s n = true → stepLeft s n = false → openStep { s with heldOpen := none } n false = (t, true) →
      exec .heldOpenRelease s = .next (heldResult t 1 .ok)) ∧
    (∀ r, s.steps.find? (fun x => decide (x.st = .open) && x.declared) = some r → r.n ≤ s.commitN + 1 →
      s.epochHold = false →
      exec .heldDeclareRelease s = .next (heldResult (enterDraining s r.n) 2 .ok)) ∧
    (∀ r, s.steps.find? (fun x => decide (x.st = .draining)) = some r → transferring s r.n = false → s.epochHold = false →
      exec .drainComplete s = .next (enterVoting s r)) ∧
    (∀ r, s.steps.find? (fun x => decide (x.st = .draining)) = some r → tmDue s (.drain r.n) = true →
      exec .drainLimitExpire s = .next (abandon (raise (tmOff s (.drain r.n)) .stepTimeout whHub r.n []) r.n 4)) ∧
    (∀ r, s.steps.find? (fun x => decide (x.st = .voting)) = some r → tmDue s (.vote r.n) = true →
      exec .voteLimitExpire s = .next (abandon (raise (tmOff s (.vote r.n)) .stepTimeout whHub r.n []) r.n 4)) ∧
    (∀ r, s.steps.find? (fun x => decide (x.st = .voting)) = some r → r.ored = some 0 → digestsIn s r = true →
      s.foldBusy = none → rbit s .chk rChkFoldStatus 0 = false → s.epochHold = false → exec .stepSeal s =
        .next (let u := updStep (tmOff s (.vote r.n)) r.n (fun x => { x with st := .sealed })
          sendSeal (sysObj (aglSeal { u with lastSeal := some (r.n, r.digest.getD []), foldA := .zero, foldB := .zero } r.n)
            oSeal r.n) r)) ∧
    (∀ r, s.steps.find? (fun x => decide (x.st = .sealed)) = some r → r.n = s.commitN + 1 → updsDone s r.n = true →
      s.stopIssue = false → s.epochHold = false → buddyAllows s r = true → exec .pageSetFlip s = .next (commitStep s r)) ∧
    (s.epochHold = true → exec .heldOpenRelease s = .next s ∧ exec .heldDeclareRelease s = .next s ∧
      exec .drainComplete s = .next s ∧ exec .stepSeal s = .next s ∧ exec .pageSetFlip s = .next s ∧
      exec .replayStepOpen s = .next s) ∧
    (s.agree.active = true → tmDue s .agreeNotice = true → exec .agreeNoticeRepeat s = .next (agreeNotice s)) ∧
    (s.agree.active = true → tmDue s .agreePhase0 = true → exec .agreePhase0Resend s = .next (agreePhase0 s)) ∧
    (∀ r t, s.steps.find? (fun x => decide (x.st = .abandoned)) = some r → s.agree.active = false → canOpen s r.n = true →
      worksNot s = false → s.pw.left = false → openStep s r.n true = (t, true) → exec .replayStepOpen s = .next t)

/-- R174: after the agreement a sequencer that restarts clears its state, its predicates but p0, its descriptors and its
stack, and resumes at its entry address if RUN is set; no other sequencer changes. -/
def Obligations.RestartEffect : Prop :=
  ∀ (s : State), s.tainted = [] → Canon s → ∃ t, exec .seqAbandonRestart s = .next t ∧
    (∀ q < 256, (seqAt s q).st ≠ .restarting → seqAt t q = seqAt s q) ∧
    (∀ q < 256, (seqAt s q).st = .restarting →
      (seqAt t q).pc = seqEntry s q ∧ (seqAt t q).st = (if seqRunBit s q then .running else .stopped) ∧ (seqAt t q).p = 1 ∧
      (seqAt t q).d = [] ∧ (seqAt t q).stack = [] ∧ (seqAt t q).wait = none ∧ (seqAt t q).s = (seqAt s q).s) ∧
    t.mem = s.mem ∧ t.regs = s.regs ∧ t.objs = s.objs ∧ t.steps = s.steps ∧ t.evt = s.evt

/-! ## Taralink -/

/-- Link training (R311–R314, R321, R323, R344): light trains a link that is enabled and not of an unused axis; a training
that takes too long goes back to phase 1, to wait for light, and counts; with 34 or more good lanes each way at phase 6 the
link is UP, a receive lane being good that completed the lane phases with fewer corrected symbols than the threshold, its
sequence numbers at zero, its credits full, the frames that were waiting sent first; a link that has lost its light or its
lanes is LOST, and then detours. Lanes, timers and lasers (R319, R323–R327, R344): a due swap moves its lane; a millisecond's
window takes lanes over the threshold out; every 10 s a bad lane that passes becomes a spare again; every second the link
sends its identity; 4 µs without an acknowledgement go back to the oldest flit; a laser cartridge carries the light alone,
with the other, or loses the links. -/
def Obligations.LinkTraining : Prop :=
  -- Link training
  (
    ∀ (l : Fin 6) (s : State), s.tainted = [] →
      let x := linkOf s l
      (lasersOn s = true → rbit s (.lnk l) rLnkCtl 0 = true → linkUnused s l = false →
        (linkSt s l = lsDown ∨ linkSt s l = lsLost ∨ linkSt s l = lsTraining ∧ x.phase = 1) →
        exec (.linkLightDetect l) s = .next (trainStart s l)) ∧
      (tmDue s (.train l) = true → exec (.linkTrainTimeout l) s = .next
        (let t := trainReset s l 1;
          setLink t l { linkOf t l with trainFails := (linkOf t l).trainFails + 1 })) ∧
      (linkLive s l = true → exec (.linkLost l true) s = .next (linkLose s l)) ∧
      (linkLive s l = true →
        x.phase = 0 ∧ ((x.rxAct.filter (fun k => !laneBad s l k)).length < 34 ∨
          (x.txAct.filter (fun k => !x.moves.any (fun m => !m.rx && decide (m.fail = k)))).length < 34) ∨ ackDead s l = true →
        exec (.linkLost l false) s = .next (linkLose s l)) ∧
      (x.lost = true → x.detour = false → exec (.linkDetour l) s = .next
        (let t := setLink s l { x with detour := true, retry := [], txq := [] };
          (rebuilt x ++ x.txq).foldl (fun u f => sendHop u l f)
            (if (pickDetour t l).isSome then raise (setFld t (.lnk l) rLnkStatus 6 6 1) .linkDetour (whLink l) 0 [] else t))) ∧
      (∀ (rd : List (Nat × Nat)) (tg : BitVec 72),
        let rx := (List.range 72).filter (fun k => rd.any (fun p => decide (p.1 = k)) && rd.all (fun p => decide (p.1 ≠ k) || decide (p.2 < x.thresh)))
        let tx := setBits 72 tg.toNat
        let y := { x with
          txNext := 0, rxExp := 0, txq := rebuilt x ++ x.txq, retry := [], ctrlq := [], rxPart := [], rxNeed := 0, nak := none,
          credit := List.replicate 4 vcDepth, rxAct := rx.take 68, rxSpare := rx.drop 68, txAct := tx.take 68,
          txSpare := tx.drop 68, moves := [], phase := 0, lost := false, detour := false, progAt := s.beacon, stallAt := s.beacon,
          replays := 0 }
        let b := (List.range 72).foldl (fun t k => setBadLane t l k (!rx.contains k)) (tmOff (setLink s l y) (.train l))
        let c := setFld (setLinkSt (showLanes b l) l lsUp) (.lnk l) rLnkStatus 6 6 0
        let d := tmArm (tmArm (tmArm c (.ident l) (1000 * btMs)) (.laneWin l) btMs) (.laneRetrain l) (10000 * btMs)
        lasersOn s = true → linkSt s l = lsTraining → x.phase = 6 → 34 ≤ rx.length → 34 ≤ tx.length → exec (.linkUp l rd tg) s =
          .next (pump (if min rx.length tx.length < 68 then linkDegraded d l (min rx.length tx.length) else d) l))
  ) ∧
  -- Link upkeep
  (
    ∀ (l : Fin 6) (s : State), s.tainted = [] →
      let x := linkOf s l
      (∀ (rx : Bool) (m : LaneMove), x.moves.find? (fun k => k.rx == rx) = some m → linkLive s l = true → moveDue x m = true →
        exec (.laneSwap l rx) s = .next
          (let act := moveLane (if rx then x.rxAct else x.txAct) m;
            let spare := (if rx then x.rxSpare else x.txSpare).filter (fun k => !(some k == m.spare))
            let y := { x with moves := x.moves.erase m }
            laneMoved (showLanes (setLink s l (if rx then { y with rxAct := act, rxSpare := spare }
              else { y with txAct := act, txSpare := spare })) l) l m act.length)) ∧
      (∀ syms unc : List (Nat × Nat), ∀ dark : List Nat, tmDue s (.laneWin l) = true → linkLive s l = true →
        (∀ p ∈ syms, p.1 < 72) → (∀ p ∈ unc, p.1 < 72) → (∀ k ∈ dark, k < 72) →
        exec (.laneErrorWindow l syms unc dark) s = .next (((syms.filter (fun p => decide (x.thresh < p.2))).map (fun p => p.1)
          ++ (unc.filter (fun p => decide (4 < p.2))).map (fun p => p.1) ++ dark).eraseDups.foldl (laneFail l)
            (tmArm s (.laneWin l) btMs))) ∧
      (∀ k < 72, tmDue s (.laneRetrain l) = true → linkLive s l = true → laneBad s l k = true → k ∉ x.rxAct → k ∉ x.rxSpare →
        exec (.laneRetrainTimer l [k]) s = .next (let t := tmArm s (.laneRetrain l) (10000 * btMs);
          let sp := x.rxSpare.filter (fun j => decide (j < k)) ++ [k] ++ x.rxSpare.filter (fun j => decide (k < j))
          showLanes (setLink (setBadLane t l k false) l { x with rxSpare := sp }) l)) ∧
      (tmDue s (.ident l) = true → linkLive s l = true →
        exec (.identTimer l) s = .next (sendCtrl (tmArm s (.ident l) (1000 * btMs)) l (identBody s l))) ∧
      (∀ e r, linkLive s l = true → x.stallAt + 4 * btUs ≤ s.beacon → x.retry = e :: r →
        exec (.ackStallTimeout l) s = .next (goBack (setLink s l { x with stallAt := s.beacon }) l ((e.lsn + e.off) % 16384))) ∧
      (∀ b : Fin 2, (∀ c, s.carts[b.val]? = some c → c.fitted = false) → exec (.laserCartInsert b) s =
        .next (cartEvent (setCart (cartFull s b) b
          { fitted := true, works := true, full := !cartOk s (1 - b.val), stable := false }))) ∧
      (∀ (b : Fin 2) (failed : Bool) (c : Cart), s.carts[b.val]? = some c → c.fitted = true → (failed = true → c.works = true) →
        exec (.laserCartRemove b failed) s = .next
          (let t := cartEvent (setCart (if c.works then cartFull s b else s) b
              { fitted := failed, works := false, full := false, stable := false });
            let u := if failed then health t 17 else t
            if cartOk u 0 || cartOk u 1 then u
            else (List.range 6).foldl (fun w k =>
              if linkLive w k || decide (linkSt w k = lsTraining) then linkLose w k else w) u)) ∧
      (cartOk s 0 = true → cartOk s 1 = true →
        exec .laserShare s = .next { s with carts := s.carts.map (fun c => { c with full := false, stable := true }) })
  )

/-- Flits (R315–R319, R322, R323, R325): one whose symbols are not within the code's reach of a codeword, or whose check
fails, or whose LSN is not the expected one, is discarded with a NAK, the first two counted; an accepted one first
acknowledges, then a DATA flit's body joins the frame it carries, a NAK goes back to the flit it names before anything new is
sent, a CTRL flit acts by its type, an IDLE flit does no more. -/
def Obligations.Flits : Prop :=
  ∀ (l : Fin 6) (b rx ck : List Byte) (s : State), s.tainted = [] → flitTakes s l (decide (flitTy b = ftData)) = true →
    let ct := leAt b 4 1
    let rows : List ((Fin 6 → List Byte → List Byte → List Byte → Instr) × Prop) :=
      [(.flitDataRx, flitTy b = ftData), (.flitIdleRx, flitTy b = ftIdle), (.flitNakRx, flitTy b = ftNak),
       (.ctrlCreditRx, flitTy b = ftCtrl ∧ ct ≠ 2 ∧ ct ≠ 3 ∧ ct ≠ 4), (.ctrlSwapRx, flitTy b = ftCtrl ∧ ct = 2),
       (.ctrlIdentRx, flitTy b = ftCtrl ∧ ct = 3), (.ctrlDropRx, flitTy b = ftCtrl ∧ ct = 4)]
    (fecErrs b (rx ++ ck) = none → ∀ r ∈ rows, exec (r.1 l b rx ck) s = .next (sendNak (cnt s (.lnk l) rLnkFecUncorr) l)) ∧
    (∀ k, fecErrs b (rx ++ ck) = some k →
      let c := if 0 < k then cnt64 s (.lnk l) rLnkFecCorrLo 1 else s
      let d := cnt64 c (.lnk l) rLnkRxFlitsLo 1
      let a := ackTake d l (flitAck b)
      let n := setLink a l { linkOf a l with rxExp := ((linkOf a l).rxExp + 1) % 16384 }
      (∀ r ∈ rows,
        (flitOk b = false → exec (r.1 l b rx ck) s = .next (sendNak (cnt c (.lnk l) rLnkFlitCrc) l)) ∧
        (flitOk b = true → r.2 → flitLsn b ≠ (linkOf s l).rxExp → exec (r.1 l b rx ck) s = .next (sendNak c l)) ∧
        (flitOk b = true → r.2 → flitLsn b = (linkOf s l).rxExp → flitTy b = ftCtrl →
          exec (r.1 l b rx ck) s = .next (ctrlBody n l (slice b 4 250)))) ∧
      (flitOk b = true → flitLsn b = (linkOf s l).rxExp →
        (flitTy b = ftData → exec (.flitDataRx l b rx ck) s = .next (dataBody n l (slice b 4 250))) ∧
        (flitTy b = ftIdle → exec (.flitIdleRx l b rx ck) s = .next a) ∧
        (flitTy b = ftNak → exec (.flitNakRx l b rx ck) s =
          .next (pump (goBack (ackFree d l (flitAck b)) l (flitAck b)) l))))

/-- A whole frame at the head of a link's receive queue (R328–R330, Table 16.4): it goes on where the route leads, is dropped
and counted where there is none, and is taken here otherwise; its credit goes back to the sender in each case. A frame for a
compute die wakes a module in dusk and waits. -/
def Obligations.FrameArrival : Prop :=
  ∀ (l : Fin 7) (s : State) (f : Frame) (r : List Frame), s.tainted = [] → (linkOf s l).rxq = f :: r →
    let c := setLink s l { linkOf s l with rxq := r }
    let from_ := if l.val < 6 then some l.val else none
    ∀ x ∈ ([(.blockFrameRx, tyBlock), (.syncFrameRx, tySync), (.readFrameRx, tyRead), (.rdataFrameRx, tyRdata), (.collFrameRx, tyColl),
        (.zrunFrameRx, tyZrun), (.voteFrameRx, tyVote), (.digestFrameRx, tyDigest), (.ackeFrameRx, tyAcke),
        (.statusFrameRx, tyStatus)] : List ((Fin 7 → Instr) × Nat)), f.ty = x.2 →
      (routeOf s f from_ = .here → frameAsleep s f = false → exec (x.1 l) s = .next (kick (frameHere (giveBack c l f) l f))) ∧
      (∀ d g, routeOf s f from_ = .hop d g → exec (x.1 l) s = .next (sendHop (giveBack c l f) d g)) ∧
      (routeOf s f from_ = .invalid → exec (x.1 l) s = .next (giveBack (dropAt c l) l f)) ∧
      (routeOf s f from_ = .here → frameAsleep s f = true → exec (x.1 l) s = .next (wake s))

/-- What a frame taken here does (R52, R155, R186, R334, R335, R342, R526, R527): ACKE and STATUS act at once; a block that
fails its CRC is discarded and counted; the others take effect in the order of their ESN, a duplicate counts, one ahead of its
turn is kept; in its turn, a frame of an epoch that has passed is discarded, and a BLOCK is written, a SYNC moves its object,
a READ is served. -/
def Obligations.FrameEffects : Prop :=
  ∀ (l : Nat) (s : State) (f : Frame),
    let e := rxExp s (adLc f.src) (tyClass f.ty)
    (f.ty = tyAcke → frameHere s l f = ackeTake s f) ∧ (f.ty = tyStatus → frameHere s l f = statusTake s l f) ∧
    (f.ty ≠ tyAcke → f.ty ≠ tyStatus → frameCrcBad f = true → frameHere s l f = crcFail s { hubCx with step := f.step }) ∧
    (f.ty ≠ tyAcke → f.ty ≠ tyStatus → frameCrcBad f = false → f.esn ≠ e →
      (reached (BitVec.ofNat 32 e) (BitVec.ofNat 32 f.esn) = true →
        frameHere s l f = noteDue (if l < 6 then cnt s (.lnk l) rLnkE2eDup else s) (adLc f.src)) ∧
      (reached (BitVec.ofNat 32 e) (BitVec.ofNat 32 f.esn) = false → s.e2e.store = [] → f.body.length ≤ 4096 →
        frameHere s l f = { s with e2e := { s.e2e with store := [{ lc := adLc f.src, cls := tyClass f.ty, frame := f }] } })) ∧
    (f.epoch ≠ 0 → f.epoch < s.epoch → deliver s l f = cnt s .chk rChkStaleEpoch) ∧
    (f.epoch = 0 → rxJournaled f = false → deliver s l f = frameFx (adoptEpoch s 0) l f) ∧
    (f.ty = tyBlock → adHub f.dst = false → frameAddrChk s (leAt f.body 0 8 % 2 ^ 48) (leAt f.body 0 8 / 2 ^ 48 * 2 ^ 32 + f.arg)
        (!(unwireBlk (f.body.drop 8)).scales.isEmpty) true = none →
      frameFx s l f = putWire s (leAt f.body 0 8 % 2 ^ 48) (leAt f.body 0 8 / 2 ^ 48 * 2 ^ 32 + f.arg) (unwireBlk (f.body.drop 8))) ∧
    (f.ty = tySync → adHub f.dst = false → dieIn s (adDie f.dst) = true → f.arg % 4096 < 4032 → leAt f.body 0 1 = 1 →
      frameFx s l f = objPut s (adDie f.dst) (f.arg % 4096) (BitVec.ofNat 32 (leAt f.body 4 4))) ∧
    (f.ty = tySync → adHub f.dst = false → dieIn s (adDie f.dst) = true → f.arg % 4096 < 4032 → leAt f.body 0 1 = 0 →
      0 < leAt f.body 4 4 → leAt f.body 4 4 < 2 ^ 31 →
      frameFx s l f = objAdd s (adDie f.dst) (f.arg % 4096) (leAt f.body 4 4)) ∧
    (f.ty = tyRead → adHub f.dst = false → 0 < leAt f.body 8 4 → leAt f.body 8 4 ≤ 65536 →
      frameFx s l f = ((List.range (leAt f.body 8 4)).foldl (serveBlk f (leAt f.body 0 8) (leAt f.body 16 8)) (s, true)).1)

/-- End-to-end timers and the journal (R335, R336, R363–R373): frames of a source are acknowledged every 2 µs or 64 of them; a
frame past its timeout fails its transfer with EVT_COLL_FAIL and the COLL vote; a record that waited enters the journal; a
replayed step's records are delivered anew, or fetched again; a sealed step's records are re-sent to the member that replays. -/
def Obligations.EndToEndAndJournal : Prop :=
  ∀ (s : State), s.tainted = [] →
    (∀ lc : BitVec 18,
      let d := smGet (fun _ => ({ n := 0, since := 0 } : AckDue)) s.e2e.due lc.toNat
      d.n ≠ 0 → (64 ≤ d.n ∨ d.since + 2 * btUs ≤ s.beacon + 1) → exec (.ackeTimer lc) s =
        .next (let t := { s with e2e := { s.e2e with due := smDel s.e2e.due lc.toNat } };
          hubSend t { mkFrame s tyAcke lc.toNat 0 true 0 true 0 0 (rxExp s lc.toNat 0) [] with esn := rxExp s lc.toNat 1 } .hub 0)) ∧
    (∀ u, s.e2e.unack.find? (fun x => decide (x.deadline ≤ s.beacon)) = some u → exec .e2eTimeout s = .next
      (let t := raise { s with e2e := { s.e2e with unack := s.e2e.unack.erase u } } .collFail whHub u.step
          [a32 u.lc, a32 u.esn, a32 u.collid, a8 (u.cls % 2)];
        kick (ownerStat (if u.step = 0 then t else voteSet t u.step vColl) u.owner (if u.stat = 0 then 0x12 else u.stat)))) ∧
    (∀ w, s.agl.wait.find? (waitMay s) = some w → exec .journalAdmit s = .next
      (let t := { s with agl := { s.agl with wait := s.agl.wait.erase w } };
        if w.tx then kick (if canSend t (adLc w.frame.dst) then sendSeq (recordTx t w.frame) w.frame w.owner w.collid
          else unsent t w.frame w.owner)
        else if w.frame.epoch < s.epoch then cnt t .chk rChkStaleEpoch
        else kick (journalRx t w.collid w.frame))) ∧
    (∀ r, nextRedeliver s = some r → exec (.journalRedeliver false) s = .next (sendRefetch s r) ∧
      (r.kind = .rxHost → exec (.journalRedeliver true) s = .next (hostRecFx (redone s r) r.frame)) ∧
      (r.kind ≠ .rxHost → r.frame.ty ≠ tyRdata →
        exec (.journalRedeliver true) s = .next (kick (frameFx (redone s r) loopLink r.frame)))) ∧
    (∀ (lc : BitVec 18) n d r, s.lastSeal = some (n, d) →
      s.agl.recs.find? (fun x => decide (x.step = n) && x.kind == .txLink && decide (x.peer = lc.toNat) &&
        decide (x.frame.epoch < s.epoch)) = some r → s.agree.active = false →
      (∀ x ∈ s.agl.served, x.step = n → x.peer = lc.toNat → x.jseq < r.jseq → x.matched = true) →
      exec (.sendJournalResend lc) s = .next (resendRec s r)) ∧
    (∀ f l, s.hubIn = f :: l → f.ty = tyRead → exec .journalRefetchRx s = .next
      (match refetchRec { s with hubIn := l } f with
        | some x => resendRec { s with hubIn := l } x
        | none => sendStatus { s with hubIn := l } f 0x08))

/-! ## Reflection -/

/-- Hub messages (R375–R381, R358, R404): the block at the front of the hub's queue leaves it and acts as its HMSG says;
REFL_HAVE and REFL_DONE, which come as SYNC frames, act for the buddy alone: the first ends the wait of its step, the second
that of every step up to its own. What the ward's messages do (R375, R376, R381): a message of a module that is neither ward
nor buddy changes nothing; a command, gradient or seal block of the ward joins the bundle of its step, in the place of one
with the same key, and the buddy's command blocks do so at a promoted spare (R383); the module is resynchronizing from the
ward's first resynchronization data on; the buddy's are stored where the spare's page set keeps their address. Reflection
(R376–R381): the next complete bundle is applied and answered with REFL_DONE; it waits where a frame is missing (R304), and
three disagreements on one block are a commit failure (R301, R41); a resynchronization that has ended applies the bundles that
waited; the late limit raises EVT_REFL_LATE. -/
def Obligations.HubMessages : Prop :=
  -- Hub messages
  (
    ∀ (s : State) (f : Frame) (r : List Frame), s.tainted = [] → s.hubIn = f :: r →
      let t := { s with hubIn := r }
      (∀ x ∈ ([(.hmsgCommandBlock, 1, cmdTake), (.hmsgGradientBlock, 2, gradTake), (.hmsgSealBlock, 3, sealTake),
          (.hmsgReflFoldRecord, 4, foldRecTake), (.hmsgDigestReport, 5, reportTake), (.hmsgResyncData, 6, resyncTake)] :
            List (Instr × Nat × (Frame → State → State))),
        f.ty = tyBlock → hmsgOf f = x.2.1 → exec x.1 s = .next (x.2.2 f t)) ∧
      (f.ty = tySync → leAt f.body 0 1 = 0x10 → s.buddy = some (adLc f.src) → exec .reflHave s =
        .next (tmOff (updStep t (leAt f.body 4 4) (fun x => { x with reflHave := true })) .refl)) ∧
      (f.ty = tySync → leAt f.body 0 1 = 0x11 → s.buddy = some (adLc f.src) → exec .reflDone s =
        .next (let n := leAt f.body 4 4;
          let u := tmOff { t with reflDone := n, resyncOut := false } .refl
          setReg u .hub rHubReflAcked (BitVec.ofNat 32 (max (regAt u .hub rHubReflAcked).toNat n))))
  ) ∧
  -- Ward messages
  (
    ∀ (s : State) (f : Frame),
      let b := bundleOf s f
      let k := hmsgField f % u32Mod
      let i := (parseHdr (hmsgBlk f)).block
      (fromWard s f = false → gradTake f s = s ∧
        (fromBuddy s f = false → cmdTake f s = s ∧ resyncTake f s = s ∧ sealTake f s = s)) ∧
      (fromWard s f = true ∨ fromBuddy s f = true →
        cmdTake f s = bundleDone s { b with cmds := (k, hmsgData f) :: b.cmds.filter (fun x => x.1 != k) }) ∧
      (fromWard s f = true →
        gradTake f s = bundleDone s { b with grads := (k, i, hmsgBlk f) :: b.grads.filter (fun x => !(x.1 == k && x.2.1 == i)) } ∧
        sealTake f s = bundleDone s { b with seals := (k, hmsgData f) :: b.seals.filter (fun x => x.1 != k) } ∧
        (resyncTake f s).resyncing = true ∧ (resyncTake f s).resyncAt = f.step) ∧
      (fromWard s f = false → fromBuddy s f = true → ∀ n, pageSetOf s (hmsgField f % 2 ^ 48) = some n →
        ∀ p, resyncAddr s n (hmsgField f % 2 ^ 48) = some p → resyncTake f s = resyncStore s p f)
  ) ∧
  -- Reflection runs
  (
    ∀ (s : State), s.tainted = [] →
      (∀ b, s.resyncing = false → nextBundle s = some b →
        let m := bundleMis s b
        let u := m.foldl (fun t x => dualMiss b.step t (min 3 x.2)) { s with free := s.free + 1 }
        exec .reflApplyComplete s = .next
          (if ∃ x ∈ m, 3 ≤ x.2 then raise (commitFailed u b.step) .commitFail whHub b.step []
          else match applyBundle u b with
            | some t => reflAnswer t b.lc 0x11 b.step
            | none => reflFrameWait s b.step)) ∧
      (∀ lc, s.ward = some lc → s.resyncing = true → exec .resyncDone s =
        .next (let t := { s with resyncing := false, reflN := s.resyncAt,
                                 bundles := s.bundles.filter (fun b => decide (s.resyncAt < b.step)) }
          let u := applyWaiting t.bundles.length (setReg t .hub rHubReflStep (BitVec.ofNat 32 s.resyncAt))
          reflAnswer (setFld u .hub rHubReflStatus 2 0 2) lc 0x11 u.reflN)) ∧
      (tmDue s .refl = true → exec .reflLateTimeout s =
        .next (raise (setFld (tmOff s .refl) .hub rHubReflStatus 4 4 1) .reflLate whHub (s.commitN + 1) []))
  )

/-! ## Prism, certification, health -/

/-- Prism bursts, certification and the health score (R345–R354, R382–R391, R438): a burst of a reporter that is up and has
the credit for it spends it, counts in its band and reports the digest of its kind, or the one it computed wrongly; a
certification that passes ends, one that fails waits to run again, one that showed a disagreement of its second run is decided
by the spare; the decay and the health message fall due in their time, and a decay, however it rounds (a free value), takes at
most one part in a hundred and a point, and adds none. -/
def Obligations.PrismAndHealth : Prop :=
  ∀ (s : State), s.tainted = [] →
    (∀ (rg : Fin 16) (idx : Fin 82) (wrong : Option DWord) (start : DWord) (abft : Bool) (temp volt freq : BitVec 16) (k : Nat),
      let p := prismOf s rg idx
      let c := creditOf s rg p
      burstKind s idx p.b = some k → s.pwr = .run → bitAt s.prismCtl.toNat 0 = true → reporterUp s rg idx = true →
      burstLen k * 8000 ≤ c → (reporterBusy s rg idx = false ∨ c = creditCap * 8000) →
      exec (.prismBurst rg idx wrong abft temp volt freq start) s = .next
        (let dig := (wrong.map (fun d => d.toNat)).getD (prismDigest s.prismSeed p.b k);
          let r : PrismRep := { idx := 82 * rg + idx, dig := dig, kind := k, temp := temp.toNat, volt := volt.toNat,
                                 freq := islandFreq s rg, start := start.toNat }
          let t := setPrism s rg idx { b := (p.b + 1) % u32Mod, base := prismClkOf s rg - (c - burstLen k * 8000) }
          let u := updBand (cnt64 t .chk rChkPrismRunsLo 1) rg idx (repBand s rg idx temp.toNat)
            (fun x => { x with runs := stick x.runs })
          prismReport (if abft then prismMismatch u r p.b else u) (rg / 4) r p.b)) ∧
    ((tmAt s .band).getD (60 * btMinute) ≤ s.beacon → exec .bandTableSave s =
      .next (tmArm { s with sec := { s.sec with bands := s.bands } } .band (60 * btMinute))) ∧
    (∀ (k : Nat) (c : Cert) (bands : BitVec 16), s.certs[k]? = some c → c.running = true → c.at_ ≤ s.beacon →
      exec (.certRunEnd k .pass bands) s = .next (certPass s c.what bands.toNat) ∧
      exec (.certRunEnd k .fail bands) s = .next (certFail s c) ∧
      (∀ rg u b kind temp volt start, c.what = .unit rg u → secondSpare s rg u = true →
        exec (.certRunEnd k (.second b kind temp volt start) bands) s = .next
          (let p := (unitAt s rg u).partner.getD 0;
            certPass (prismMismatch s { idx := 82 * (p / 66) + p % 66, dig := 0, kind := kind, temp := temp, volt := volt,
                                        freq := islandFreq s (p / 66), start := start } b) c.what bands.toNat))) ∧
    (∀ (k : Nat) (c : Cert), s.certs[k]? = some c → c.running = false → c.at_ ≤ s.beacon → exec (.certRetryTimer k) s =
      .next (certAgain s c)) ∧
    (∀ (rg : Fin 16) (u : Fin 66) (p : Nat) (l : List Nat), (unitAt s rg u).eclipsed = true →
      s.certs.any (fun c => decide (c.what = .unit rg.val u.val)) = false →
      (dieSpares s (rg / 4)).filter (fun k => !(certPartners s).contains k) = p :: l →
      exec (.certSpareAvailable rg u) s = .next
        (let t := setUnit s rg u { unitAt s rg u with certWait := false, partner := some p };
          { t with certs := t.certs ++ [{ what := .unit rg u, running := true, at_ := t.beacon + t.certSec * 200000000 }] })) ∧
    ((tmAt s .decay).getD (675 * btSec) ≤ s.beacon → exec .healthDecay s = .next
      (let t := (List.range 22).foldl (fun x i => setReg x .hlth (0x204 + 8 * i)
          (BitVec.ofNat 32 (decay s.free (regAt x .hlth (0x204 + 8 * i)).toNat))) s;
        tmArm (setPenalty { t with free := t.free + 1 } (decay s.free (regAt s .hlth rHlthP).toNat)) .decay (675 * btSec))) ∧
    (laneUp s = true → (tmAt s .healthSend).getD (s.mgmt.period * btMs) ≤ s.beacon →
      exec .healthPeriod s = .next (tmArm (healthSend s) .healthSend (s.mgmt.period * btMs))) ∧
    (∀ k p : Nat, decay k 0 = 0 ∧ decay k p ≤ p ∧ (p ≤ 1000 → p * 99 ≤ 100 * decay k p + 100))

/-! ## Checkpoints -/

/-- Checkpoints and restores (R394–R413): the release of a snapshot whose objects are written frees its frames and moves the
system object SNAP; reports that do not come in time leave it partial; the manifest is signed and sent, or the snapshot aborts
where nothing may be signed; a restore with all it needs stages its pages and is ready. -/
def Obligations.Checkpoints : Prop :=
  ∀ (s : State), s.tainted = [] →
    (∀ n, s.snap = some n → n.phase = 1 → objsDone s 0 = true → exec (.snapshotRelease false) s = .next
      (let t := releaseFrames { s with snap := some { n with phase := 2, frames := [] } } n.frames;
        ckptShow (tmArm (sysObjInc t oSnap) .reflReport reportWait))) ∧
    (∀ n, s.rsnap = some n → n.phase = 1 → objsDone s 1 = true → exec (.snapshotRelease true) s =
      .next (sendReports (ckptShow (sysObjInc (releaseFrames (dropObjs { s with rsnap := none } 1) n.frames) oSnap)) n)) ∧
    (∀ n, s.snap = some n → n.phase = 2 → tmDue s .reflReport = true → reportsIn s n = false → exec .reflReportTimeout s =
      .next { tmOff s .reflReport with snap := some { n with reportsDone := true, partRefl := true } }) ∧
    (∀ n, s.snap = some n → n.phase = 2 → reportsIn s n = true → s.foldBusy ≠ some n.step →
      (canSign s = false → exec .manifestWrite s = .next (snapAbort (mbDone (setStream s 1 none) 1 mbRefused []) abSign)) ∧
      (canSign s = true → exec .manifestWrite s = .next
        (let x := signMsg (setStream s 1 none) (manBody s n);
          let u := tmOff (mbDone x.1 1 mbOk x.2) .reflReport
          let m := manBody s n ++ x.2
          let t := { u with snap := some { n with phase := 3, manifest := m },
                            objects := u.objects.filter (fun o => decide (o.who ≠ 0)) }
          ckptShow (addObjs t (manObjs n m))))) ∧
    (∀ r mx pre, s.rst = some r → r.ready = false → rstPlan s r = .failed mx pre →
      exec .restoreEnd s = .next (restoreFail (stageBodies (mx.foldl raiseMixed s) pre))) ∧
    (∀ r m bs older copies mx pre, s.rst = some r → r.ready = false → rstPlan s r = .ready m bs older copies mx pre →
      ∃ t, exec .restoreEnd s = .next t ∧ ∃ q, t.rst = some q ∧ q.ready = true ∧ q.step = manStep m)

/-! ## CWT and Ethernet -/

/-- The session (R417–R421): OPEN of a job on queue 0 with sequence number 0 starts it, and the module answers OPENED; a frame
of the host that is taken acts by its type and is acknowledged: CLOSE of the job ends the session, ACK and KEEPALIVE only
acknowledge, NACK resends from where it names, CREDIT gives new limits, ABORT of an order that has not retired ends it. -/
def Obligations.CwtSession : Prop :=
  ∀ (port : Fin 2) (addr : Nat) (f : CwtFrame) (s : State), s.tainted = [] →
    let t := hostSeen s port f
    (f.ty = cOpen → portUp s port = true → f.queue = 0 → f.seq = 0 → leAt f.body 0 8 ≠ 0 → (cwtWake s).sess = none →
      exec (.cwtOpen port (.host addr) f) s = .next (openedSend (sessNew (cwtWake s) (leAt f.body 0 8) addr port) [])) ∧
    (f.ty = cClose → hostTakes s port addr f → t.sess.any (fun c => decide (c.job = leAt f.body 0 8)) = true →
      exec (.cwtClose port (.host addr) f) s = .next (sessEnd (hostAck (hostTake t f) f.queue))) ∧
    (f.ty = cAck → hostTakes s port addr f → exec (.cwtAck port (.host addr) f) s = .next (hostTaken f t)) ∧
    (f.ty = cKeepalive → hostTakes s port addr f → exec (.cwtKeepalive port (.host addr) f) s = .next (hostTaken f t)) ∧
    (f.ty = cNack → hostTakes s port addr f → exec (.cwtNack port (.host addr) f) s = .next (hostTaken f (hostNackTake f t))) ∧
    (f.ty = cCredit → hostTakes s port addr f →
      exec (.cwtCredit port (.host addr) f) s = .next (hostTaken f (hostCreditTake f t))) ∧
    (∀ o, f.ty = cAbort → hostTakes s port addr f → orderFind t f.queue f.order = some o → o.journaled = false →
      exec (.cwtAbort port (.host addr) f) s = .next (hostTaken f (hostSend
        (setHold (setOrder t { o with done := true, aborted := true, part := [] }) f.queue none)
        { cwtFrame cAbortResp f.queue [] with order := f.order, arg := 0 })))

/-- Orders (R422–R427): a WORK frame of an order that can be run starts it and takes it into its queue; DATA go to their
order; the order whose turn it is retires, a SIGNAL, REGRD and REGWR after acting. -/
def Obligations.CwtOrders : Prop :=
  ∀ (port : Fin 2) (addr : Nat) (f : CwtFrame) (s : State), s.tainted = [] →
    (∀ x ∈ ([(.workWrite, 1, fun o t => (t, o)), (.workRead, 2, readOrder), (.workSignal, 3, fun o t => (t, o)),
        (.workRegrd, 4, fun o t => (t, o)), (.workRegwr, 5, fun o t => (t, o))] :
          List ((Fin 2 → CwtPeer → CwtFrame → Instr) × Nat × (Order → State → State × Order))),
      let t := hostSeen (cwtWake s) port f
      let o := parseOrder t port f
      f.ty = cWork → workKind f = x.2.1 → portUp s port = true → hostTakes (cwtWake s) port addr f → orderOk t f o = true →
      (o.stepb = true → o.epoch = t.epoch) →
      (t.orders.filter (fun y => y.queue == o.queue && y.inFlight)).length < orderMax →
      exec (x.1 port (.host addr) f) s = .next (let a := orderStart { t with orderNo := t.orderNo + 1 } o;
        let b := if a.2.status = 0 ∧ a.2.kind = x.2.1 then x.2.2 a.2 a.1 else a
        hostTaken f { b.1 with orders := b.1.orders ++ [b.2] })) ∧
    (let t := hostSeen s port f;
      f.ty = cData → hostTakes s port addr f → (dataTake f t).2 = true →
      exec (.cwtData port (.host addr) f) s = .next (hostTaken f (dataTake f t).1)) ∧
    (∀ (q : Fin 256) (o : Order), orderNext s q = some o →
      (o.done = true → exec (.orderRetire q) s = .next (retire s o)) ∧
      (o.done = false → 3 ≤ o.kind → o.status ≠ 0 → exec (.orderRetire q) s = .next (retire s o)) ∧
      (o.done = false → 3 ≤ o.kind → o.status = 0 → exec (.orderRetire q) s = .next (retire (orderAct o s).1 (orderAct o s).2)))

/-- Sinks and timers (R400, R405, R419–R421): OPENED opens a sink's connection, BULK_DATA joins its object; a queue whose
retransmission time has passed resends, the eighth time in a row the session is lost; KEEPALIVE every second of silence, a
lost session after three; credit is repeated; objects of a connection that does not answer fail. -/
def Obligations.CwtSinksAndTimers : Prop :=
  ∀ (s : State), s.tainted = [] →
    (∀ (port : Fin 2) (k : Fin 64) (f : CwtFrame) (b : Bulk), sinkTakes s port k f b →
      let n := if limited f.ty then f.body.length else 0
      let t := setBulk (bufIn (sinkSeen s k f) port (48 + f.body.length)) { b with qs := updQ b.qs f.queue (fun y =>
        { y with rxNext := (y.rxNext + 1) % u32Mod, rxBytes := y.rxBytes + n }) }
      (f.ty = cOpened → exec (.cwtOpened port (.sink k) f) s =
        .next (sinkSend (openedTake k t) k (cwtFrame cAck f.queue []))) ∧
      (f.ty = cBulkData → exec (.cwtBulkData port (.sink k) f) s =
        .next (sinkSend (bulkDataTake f k t) k (cwtFrame cAck f.queue [])))) ∧
    (∀ (port : Fin 2) (k : Fin 64) (f : CwtFrame), portUp s port = true → (bulkOf s k).isSome = true →
      (bulkOf (sinkSeen s k f) k).isSome = true →
      (f.ty = cAck → exec (.cwtAck port (.sink k) f) s = .next (sinkNext (sinkSeen s k f))) ∧
      (f.ty = cKeepalive → exec (.cwtKeepalive port (.sink k) f) s = .next (sinkNext (sinkSeen s k f))) ∧
      (f.ty = cNack → exec (.cwtNack port (.sink k) f) s = .next (sinkNext (sinkNackTake f k (sinkSeen s k f)))) ∧
      (f.ty = cCredit → exec (.cwtCredit port (.sink k) f) s = .next (sinkNext (sinkCreditTake f k (sinkSeen s k f))))) ∧
    (∀ (k : Fin 64) (q : Fin 256) (b : Bulk), bulkOf s k = some b → rtoDue s (cwtQ b.qs q) = true →
      exec (.cwtRtoExpire (some k) q) s = .next (let n := (cwtQ b.qs q).rtoN + 1
        resendSink (sinkRto (setBulk s { b with txAt := s.beacon }) k q (some (nextRto s n)) n) k q (oldestSeq (cwtQ b.qs q)))) ∧
    (∀ (k : Fin 64) (b : Bulk), bulkOf s k = some b → b.txAt + keepEvery ≤ s.beacon →
      exec (.cwtKeepaliveTimer (some k)) s = .next (sinkSend s k (cwtFrame cKeepalive 0 []))) ∧
    (∀ (q : Fin 256) (c : Sess), s.sess = some c → c.lost = false → rtoDue s (cwtQ c.qs q) = true →
      (7 ≤ (cwtQ c.qs q).rtoN → exec (.cwtRtoExpire none q) s = .next (sessLost s 0)) ∧
      ((cwtQ c.qs q).rtoN < 7 → exec (.cwtRtoExpire none q) s = .next
        (let n := (cwtQ c.qs q).rtoN + 1;
          let t := hostRto s q (some (nextRto s n)) n
          resendHost { t with sess := t.sess.map (fun d => { d with txAt := s.beacon }) } q (oldestSeq (cwtQ c.qs q))))) ∧
    (∀ c, s.sess = some c → c.lost = false → c.txAt + keepEvery ≤ s.beacon →
      exec (.cwtKeepaliveTimer none) s = .next (hostSend s (cwtFrame cKeepalive 0 []))) ∧
    (∀ c, s.sess = some c → c.rxAt + 3000 * btMs ≤ s.beacon → exec .cwtSilenceTimeout s = .next (sessLost s 1)) ∧
    (∀ c, s.sess = some c → (tmAt s .creditRep).getD 0 ≤ s.beacon → getsOf s = [] → exec .creditRepeatTimer s = .next
      (let t := (List.range (cwtQueues s)).foldl (fun u q => repeatCredit u (q + 1)) s;
        tmArm t .creditRep creditEvery)) ∧
    (∀ (k : Fin 64) (q : Fin 17), bulkLate s k q = true →
      exec (.bulkTimeout k q) s = .next (objsFail s (objsOn s k q)))

/-- The Ethernet side (R414, R415, R430, R431): PAUSE in mode 2 and PFC in modes 1 and 3 stop and release priorities of a port
that is up; the module answers neighbor discovery and echo for its own address; a plug needs full power for its port; a
discarded frame counts. -/
def Obligations.Ethernet : Prop :=
  ∀ (port : Fin 2) (s : State), s.tainted = [] →
    (∀ prio : Fin 8, portUp s port = true → (flowMode s port = 1 ∨ flowMode s port = 3) →
      exec (.pfcFrameRx port prio true false) s = .next (pauseOn port s prio) ∧
      exec (.pfcFrameRx port prio false false) s = .next (pauseOff port s prio)) ∧
    (∀ prio : Fin 8, portUp s port = true → flowMode s port = 2 →
      exec (.pfcFrameRx port prio true true) s = .next ((List.range 8).foldl (pauseOn port) s) ∧
      exec (.pfcFrameRx port prio false true) s = .next ((List.range 8).foldl (pauseOff port) s)) ∧
    (∀ v6 target asker, portUp s port = true → exec (.neighborDiscoveryRx port v6 target asker true) s =
      .next { s with ethOut := s.ethOut ++ [.neighbor port v6 target asker (s.sec.macs.getD port 0)] }) ∧
    (∀ v6 asker (ident seq : BitVec 16) data, portUp s port = true → exec (.icmpEchoRx port v6 asker ident seq data true) s =
      .next { s with ethOut := s.ethOut ++ [.echo port v6 asker ident.toNat seq.toNat data] }) ∧
    (∀ watts : BitVec 8, (s.osfp.getD port none).isSome = false → exec (.osfpInsert port watts) s =
      .next { s with osfp := s.osfp.set port (some { lowPower := decide (15 < watts.toNat) }) }) ∧
    ((s.osfp.getD port none).isSome = true → exec (.osfpRemove port) s =
      .next (setFld (setFld { s with osfp := s.osfp.set port none } (.eth port) rEthStatus 0 0 0) (.eth port) rEthStatus 1 1 1)) ∧
    (ethCan s port = true → exec (.ethLinkChange port true) s = .next (setFld s (.eth port) rEthStatus 0 0 1)) ∧
    (rbit s (.eth port) rEthStatus 0 = true → exec (.ethLinkChange port false) s =
      .next (setFld (setFld s (.eth port) rEthStatus 0 0 0) (.eth port) rEthStatus 1 1 1)) ∧
    (∀ why, portUp s port = true → exec (.ethFrameDiscard port why) s =
      .next (if why = .cwtHead then cnt s .cwt rCwtBad else cnt s (.eth port) rEthRxDrop))

/-! ## The management lane and I3C -/

/-- Management commands (R435–R437, Table 15.10): a command that names the module, or all, and whose MSEQ has no stored
response is executed once and answered with its MSTATUS and body; one with a stored response is answered from the store and
not executed again. What the management commands do (R383, R389–R391, R437, R499): a command whose conditions hold has its
effect and answers OK; one whose conditions fail changes nothing and answers LOCKED, STATE or BAD_ARG. -/
def Obligations.MgmtCommands : Prop :=
  -- Mgmt commands
  (
    ∀ (m : Word) (n : DWord) (s : State), laneHears s n →
      let h := laneHeard s
      ∀ (x : Instr × Nat × (State → Answer)),
        ((∃ pc pdim mode, x = (.setCoord m n pc pdim mode, 0x01, doSetCoord pc pdim mode)) ∨
         (∃ lc valid, x = (.setLogical m n lc valid, 0x02, doSetLogical lc valid)) ∨
         (∃ first l, x = (.xlatLoad m n first l, 0x03, doXlatLoad first l)) ∨ (∃ e, x = (.xlatArm m n e, 0x04, doXlatArm e)) ∨
         (∃ l c sn d0 d1 th, x = (.linkCfg m n l c sn d0 d1 th, 0x05, doLinkCfg l c sn d0 d1 th)) ∨
         (∃ w, x = (.eclipse m n w, 0x06, doEclipse w)) ∨ (∃ w, x = (.certify m n w, 0x07, doCertify w)) ∨
         (∃ lc, x = (.promote m n lc, 0x08, doPromote lc)) ∨ (∃ d, x = (.dieDegrade m n d, 0x09, doDieDegrade d)) ∨
         (∃ d, x = (.dieRestore m n d, 0x0A, doDieRestore d)) ∨ (∃ rg u, x = (.retireUnit m n rg u, 0x0B, doRetireUnit rg u)) ∨
         (∃ rg u k, x = (.fence m n rg u k, 0x0C, doFence rg u k)) ∨ x = (.checked m n, 0x0D, doChecked) ∨
         x = (.unchecked m n, 0x0E, doUnchecked) ∨ (∃ pts : BitVec 16, x = (.penalize m n pts, 0x0F, doPenalize pts.toNat)) ∨
         x = (.bandClear m n, 0x10, doBandClear) ∨ (∃ lc valid, x = (.reflBuddy m n lc valid, 0x11, doReflBuddy lc valid)) ∨
         (∃ a : BitVec 64, x = (.regRead m n a, 0x12, doRegRead a.toNat)) ∨
         (∃ (a : BitVec 64) (v : Word), x = (.regWrite m n a v, 0x13, doRegWrite a.toNat v.toNat)) ∨
         x = (.healthGet m n, 0x14, doHealthGet) ∨ (∃ nonce, x = (.attest m n nonce, 0x15, doAttest nonce)) ∨
         x = (.jobRelease m n, 0x16, doJobRelease m.toNat)) →
        (h.mgmt.resp.find? (fun r => r.1 == m.toNat) = none →
          (laneUp (x.2.2 h).st = true → exec x.1 s =
            .next (lanePush (laneResp (x.2.2 h).st m.toNat x.2.1 (x.2.2 h).status (x.2.2 h).body))) ∧
          (laneUp (x.2.2 h).st = false → exec x.1 s = .next (x.2.2 h).st)) ∧
        (∀ r, h.mgmt.resp.find? (fun y => y.1 == m.toNat) = some r → exec x.1 s = .next (laneSend h r.2))
  ) ∧
  -- Mgmt effects
  (
    ∀ (s : State),
      (∀ pc pdim mode, rbit s .coord rCoordPhys 31 = true → doSetCoord pc pdim mode s = ans s msLocked) ∧
      (∀ (pc pdim : BitVec 18) mode, rbit s .coord rCoordPhys 31 = false → doSetCoord pc pdim mode s = ans
        (setFld (setFld (setFld (setFld s .coord rCoordPhys 17 0 pc.toNat) .coord rCoordPhys 18 18 (b2n mode))
          .coord rCoordPdim 17 0 pdim.toNat) .coord rCoordPhys 31 31 1) msOk) ∧
      (∀ lc valid, doSetLogical lc valid s = if s.sess = none then ans (takeLogical lc valid s) msOk else ans s msState) ∧
      (∀ (first : BitVec 18) l, doXlatLoad first l s = if l.length ≤ 360 ∧ first.toNat + l.length ≤ 2 ^ 18
        then ans (putEntries first.toNat l s) msOk else ans s msBadArg) ∧
      (∀ rg u, doEclipse (.unit rg u) s = if unitUp s rg u then ans (eclipseUnit s rg u) msOk else ans s msState) ∧
      (doEclipse .module s = if s.eclipsed then ans s msState else ans (eclipseModule s) msOk) ∧
      (∀ rg u, doCertify (.unit rg u) s = ans s msBadArg) ∧
      (∀ lc, doPromote lc s = if isSpare s then ans (wake (takeLogical lc true s)) msOk else ans s msState) ∧
      (∀ d, doDieDegrade d s = if s.pw.dieEcl.getLsbD d.val && !s.pw.degraded.getLsbD d.val then ans (dieDegradeGo s d) msOk
        else ans s msState) ∧
      (∀ d, doDieRestore d s = if !holdsJob s && s.pw.degraded.getLsbD d.val && !s.pw.dieEcl.getLsbD d.val
        then ans (dieRestoreGo s d) msOk else ans s msState) ∧
      (∀ pts, doPenalize pts s = if pts ≤ 1000 then ans (healthPts s 19 pts) msOk else ans s msBadArg) ∧
      (∀ a, laneOff a = none → doRegRead a s = ans s msBadArg ∧ ∀ v, doRegWrite a v s = ans s msBadArg) ∧
      (∀ nonce, nonce.length ≠ 32 → doAttest nonce s = ans s msBadArg)
  )

/-- The rest of the lane and the I3C port (R434, R436): unanswered frames go out again in their time; an ACK ends that and
frees the events its frame carried; the port takes a dynamic address once, by its static one or in its turn, and its only
register write is PWR_REQ. -/
def Obligations.LaneAndI3c : Prop :=
  ∀ (s : State), s.tainted = [] →
    (laneUp s = true → exec .mgmtResendTimer s = .next
      (let due := fun (x : Nat × MgmtFrame) => decide (x.1 + laneEvery ≤ s.beacon);
        let m := { s.mgmt with unack := s.mgmt.unack.map (fun x => if due x then (s.beacon, x.2) else x) }
        (s.mgmt.unack.filter due).foldl (fun t x => laneSend t x.2) { s with mgmt := m })) ∧
    (∀ (n : DWord) (k : Word), laneUp s = true → n.toNat = serialOf s → exec (.mgmtAck n k) s = .next
      (let hit := fun (x : Nat × MgmtFrame) => x.2.mseq == k.toNat;
        let gone := (s.mgmt.unack.filter hit).flatMap (fun x => frameEseqs x.2)
        let ring := { s.evt.mgmt with recs := s.evt.mgmt.recs.filter (fun r => !gone.contains (recEseq r)) }
        lanePush { s with mgmt := { s.mgmt with unack := s.mgmt.unack.filter (fun x => !hit x) },
                          evt := { s.evt with mgmt := ring } })) ∧
    (∀ static dyn : BitVec 7, static.toNat = 0x30 + s.pw.straps.toNat → s.pwr ≠ .off → s.pw.i3cAddr = none →
      exec (.i3cSetdasa static dyn) s = .next { s with pw := { s.pw with i3cAddr := some dyn.toNat } }) ∧
    (∀ dyn : BitVec 7, s.pwr ≠ .off → s.pw.i3cAddr = none →
      exec (.i3cEntdaa dyn) s = .next { s with pw := { s.pw with i3cAddr := some dyn.toNat } }) ∧
    (∀ v : Word, writes s .i3c .pwr rPwrReq v.toNat →
      exec (.i3cPwrReqWrite v) s = .next (pwrRequest (wroteReg s .pwr rPwrReq v.toNat) (v.toNat % 8)))

/-! ## Power, boot and reset -/

/-- Input, rails and power (R443–R448): an input outside its band but within the limits counts and is reported; a loss of
input, an open PWR_EN, or a fault of a module rail powers the module off; a fault of a die's rail powers the die off; samples
set the issue hold and report the cap; the cap regulates the clock. Temperatures (R444–R448, Table 16.2): the hub's sample
sets its level; a die's sample its level, its events and its units' scores; a sample at 110 °C or above trips: the dies lose
power, the links go dark, the module stays TRIPPED until it is powered anew; coolant out of its range is reported once. -/
def Obligations.PowerAndTemperature : Prop :=
  -- Power input
  (
    ∀ (s : State), s.tainted = [] →
      (∀ mv : BitVec 16, s.pwr ≠ .off → (36000 ≤ mv.toNat ∧ mv.toNat < 40000 ∨ 60000 < mv.toNat ∧ mv.toNat ≤ 64000) →
        exec (.inputExcursion mv) s = .next (ibi (raise (cnt s .pwr rPwrInputExc) .pwrInput whHub 0 [a16 mv.toNat]) 2)) ∧
      (s.pwr ≠ .off → exec .inputPowerLoss s = .next (powerOff s)) ∧
      (s.pwr = .off → s.pw.enabled = true → exec .powerOn s = .next (bootStart s 0)) ∧
      (exec .pwrEnMate s = .next { s with pw := { s.pw with enabled := true } }) ∧
      (s.pwr ≠ .off → exec .pwrEnOpen s = .next (powerOff { s with pw := { s.pw with enabled := false } })) ∧
      (∀ (d : Fin 5) (r : BitVec 8), s.pwr ≠ .off →
        let t := ibi (raise s .pwrRail (if d.val < 4 then whDie d else whHub) 0 [a8 r.toNat]) 2
        exec (.railFault d r) s = .next (if d.val < 4 then
          dieOff { t with pw := { t.pw with railOff := t.pw.railOff ||| dieBit d, dieEcl := t.pw.dieEcl ||| dieBit d } } d
          else powerOff t)) ∧
      (∀ w1 w100 mv : BitVec 16, s.pwr ≠ .off →
        let ovr := decide (wattCap s < w1.toNat)
        let hold := decide (7000 < w100.toNat) || (s.holdIssue && decide (w100.toNat = 7000))
        let t := setReg { s with holdIssue := hold, pw := { s.pw with ovr := ovr } } .pwr rPwrInput
          (w32 (mv.toNat * 65536 + min 65535 w1.toNat))
        ((ovr && !s.pw.ovr) || (hold && !s.holdIssue)) = true → s.pw.capAt = none → exec (.powerSample w1 w100 mv) s =
          .next (ibi (raise { t with pw := { t.pw with capAt := some s.beacon } } .pwrCap whHub 0 []) 2)) ∧
      (∀ w1 w100 mv : BitVec 16, s.pwr ≠ .off → w1.toNat ≤ wattCap s → w100.toNat < 7000 → exec (.powerSample w1 w100 mv) s =
        .next (setReg { s with holdIssue := false, pw := { s.pw with ovr := false } } .pwr rPwrInput
          (w32 (mv.toNat * 65536 + min 65535 w1.toNat)))) ∧
      ((tmAt s .capStep).getD (100 * btUs) ≤ s.beacon → exec .powerCapStep s = .next
        (let w := fld s .pwr rPwrInput 15 0;
          let c := if sustained s then max 400 (s.pw.cap - 25) else if w * 100 < 97 * wattCap s then min 1200 (s.pw.cap + 25)
            else s.pw.cap
          tmArm (showCaps { s with pw := { s.pw with cap := c } }) .capStep (100 * btUs)))
  ) ∧
  -- Temperatures
  (
    ∀ (s : State), s.tainted = [] →
      (∀ t : Int, s.pwr ≠ .off → s.tripped = false → exec (.thermalSample 4 t []) s = .next
        (let new := thermLevel s.pw.hubLevel t;
          let u := setFld { s with pw := { s.pw with hubLevel := new } } .pwr rPwrTherm 31 24 (tempField t)
          coldAlarm (levelReport u 4 new) 4 t)) ∧
      (∀ (d : Fin 4) (t : Int), s.pwr ≠ .off → s.tripped = false → s.diePower.getLsbD d.val = true →
        exec (.thermalSample ⟨d.val, by omega⟩ t []) s = .next
        (let old := fld s (.clk d) rClkStatus 18 16;
          let new := thermLevel old t
          let u := setFld (setFld s (.clk d) rClkStatus 31 24 (tempField t)) (.clk d) rClkStatus 18 16 new
          coldAlarm (showCaps (thrReport (levelReport (levelEnter u d old new) d new) (128 + d) (min 2 new))) d t)) ∧
      (∀ d : Fin 5, s.pwr ≠ .off → s.tripped = false → atTrip s d = true → exec (.thermalTrip d) s = .next
        (let t := fieldTemp (if d.val < 4 then fld s (.clk d) rClkStatus 31 24 else fld s .pwr rPwrTherm 31 24);
          let a := (List.range 4).foldl (fun x k => if x.diePower.getLsbD k then dieOff x k else x) s
          let b := (List.range 4).foldl (fun x k => setFld x (.clk k) rClkStatus 18 16 4) a
          let c := { b with tripped := true, pw := { b.pw with target := b.pwr.code, req := none, stop := false } }
          alarm (ibi (raise ((List.range 6).foldl linkDark c) .thermTrip (if d.val < 4 then whDie d else whHub) 0 []) 1) alTemp
            (4 * t))) ∧
      (∀ i o : Int, s.pwr ≠ .off → exec (.coolantCheck i o) s = .next
        (let hot := decide (160 < i) || decide (i + 40 < o);
          let t := setFld (setFld s .pwr rPwrTherm 23 16 (tempField i)) .pwr rPwrTherm 15 8 (tempField o)
          raiseIf (hot && !s.pw.coolant) { t with pw := { t.pw with coolant := hot } } .coolant whHub 0 []))
  )

/-- The power states (R450–R455): a request takes effect between changes, an entry goes one state deeper at a time where
nothing refuses it, with EVT_PWR_REFUSED and a return to run where something does, an exit goes up to its target; a wake
source sends the module to run, as does its timer; idle engines dim it under AUTODIM. -/
def Obligations.PowerStates : Prop :=
  ∀ (s : State), s.tainted = [] →
    (∀ (p : Path) (v : Word), writes s p .pwr rPwrReq v.toNat →
      exec (.pwrReqWrite p v) s = .next (pwrRequest (wroteReg s .pwr rPwrReq v.toNat) (v.toNat % 8))) ∧
    (∀ tr : BitVec 32, s.tripped = false → ladder s = true → s.pw.stop = false →
      let c := s.pwr.code
      (c < s.pw.target → pwrRefuse s (c + 1) = 0 → exec (.pwrStateEntered tr) s = .next (pwrSettle (enterState s (c + 1)))) ∧
      (c < s.pw.target → pwrRefuse s (c + 1) ≠ 0 → exec (.pwrStateEntered tr) s =
        .next (pwrSettle (pwrRefused { s with pw := { s.pw with target := 0 } } (pwrRefuse s (c + 1))))) ∧
      (s.pw.target < c → exec (.pwrStateEntered tr) s = .next (pwrSettle (exitState s s.pw.target tr)))) ∧
    (∀ w, wakes s w = true → exec (.wakeSource w) s = .next (wake s)) ∧
    (wakeDue s = true → exec .wakeTimer s = .next (wake (tmOff s .wake))) ∧
    (s.pwr = .run → s.pw.target = 0 → s.tripped = false → rbit s .pwr rPwrCtl 16 = true → dimDue s = true →
      exec .autodimIdle s = .next { s with pw := { s.pw with target := 1 } })

/-- Boot (R456–R458, R465, R467): a phase that ends begins the next, B4 beside the others; images that do not verify, and a
phase that outlasts its bound, fail the boot with their code; the last phase, with B4 passed, leaves the module in dusk with
REGDEC_CTL locked. -/
def Obligations.Boot : Prop :=
  ∀ (imgs : List ((List Byte × List Byte) × (List Byte × List Byte))) (us : List (Fin 16 × Fin 66)) (d : BitVec 4) (s : State),
    s.tainted = [] → s.pwr = .boot →
    let go := fun (ph : Fin 8) => exec (.bootPhaseEnd ph imgs us d) s
    (s.pw.stage = 0 → go 0 = .next (bootNext s 1)) ∧
    (s.pw.stage = 1 → go 1 = .next (match imgLoad s 0 imgs with
      | some t => bootNext t 2
      | none => bootFail s 1)) ∧
    (s.pw.stage = 2 → go 2 = .next (bootNext { s with timers := (.stage, phaseBound 4 * btMs) :: s.timers } 3)) ∧
    (s.pw.stage = 3 → go 3 = .next (bootNext s 5)) ∧
    (3 ≤ s.pw.stage → s.pw.stage < 8 → s.pw.b4 = false →
      go 4 = .next (tmOff { s with pw := { s.pw with b4 := true } } .stage)) ∧
    (s.pw.stage = 5 → go 5 = .next (bootNext (bootDies s (us.map (fun u => (u.1.val, u.2.val))) d) 6)) ∧
    (s.pw.stage = 6 → go 6 = .next (match imgLoad s 2 imgs with
      | some t => bootNext t 7
      | none => bootFail s 1)) ∧
    (s.pw.stage = 7 → s.pw.b4 = true → go 7 = .next (bootReady s)) ∧
    (tmDue s .stage = true → exec .bootPhaseTimeout s = .next (bootFail s 4)) ∧
    (tmDue s .stage = false → tmDue s .phase = true → exec .bootPhaseTimeout s =
      .next (bootFail s (if s.pw.stage = 3 then 2 else if s.pw.stage = 5 then 3 else 4)))

/-- Resets (R459–R461): RESET#, PWR_RESET.MODULE and the watchdog start the boot at B1; PWR_RESET.JOB waits for a sealed step,
at most its limit; PWR_RESET.DIE of a die in degrade, or without a session, clears its registers and engines, and the die
comes back or degrades; PWR_WDOG arms or stops the watchdog. -/
def Obligations.Resets : Prop :=
  ∀ (p : Path) (s : State), s.tainted = [] →
    (s.pwr ≠ .off → exec .resetN s = .next (bootStart s 1)) ∧
    (s.pwr ≠ .off → writes s p .pwr rPwrReset 1 →
      exec (.pwrResetModule p) s = .next (bootStart (wroteReg s .pwr rPwrReset 1) 1)) ∧
    (s.pwr ≠ .off → tmDue s .wdog = true → exec .watchdogExpire s = .next (bootStart s 1)) ∧
    (writes s p .pwr rPwrReset 2 → exec (.pwrResetJob p) s = .next (jobResetStart (wroteReg s .pwr rPwrReset 2) false)) ∧
    (∀ r, s.pw.jobWait = some r → tmDue s .jobReset = true → exec .jobResetForced s = .next (jobResetGo (raise s .resetForced whHub
      (((s.steps.find? (fun x => decide (x.st = .sealed))).map (fun x => x.n)).getD 0) []) r)) ∧
    (∀ d : Fin 4, writes s p .pwr rPwrReset (2 ^ (2 + d.val)) →
      exec (.pwrResetDie p d) s = .next (dieResetStart (wroteReg s .pwr rPwrReset (2 ^ (2 + d.val))) d)) ∧
    (∀ (d : Fin 4) (ok : Bool), s.pw.dieRst.getLsbD d.val = true → tmDue s (.dieReset d) = true →
      let t := showDies (tmOff { s with pw := { s.pw with dieRst := s.pw.dieRst &&& ~~~(dieBit d) } } (.dieReset d))
      exec (.dieResetDone d ok) s = .next (if ok then t else dieDegradeGo t d)) ∧
    (∀ v : Word, writes s p .pwr rPwrWdog v.toNat → exec (.pwrWdogWrite p v) s = .next
      (let t := wroteReg s .pwr rPwrWdog v.toNat;
        let ms := fld t .pwr rPwrWdog 15 0
        if ms = 0 then tmOff t .wdog else tmArm t .wdog (ms * btMs)))

/-! ## Security -/

/-- The mailbox and the alarms (R469–R478): each command answers with its code and bytes, as its rule says; BAD_CMD, REFUSED,
BAD_SIG, LOCKED and SEQ where it may not; the sensors of the lid and of the glitches raise their alarms while there is power.
What the mailbox refuses (R469, R472, R474, R475): ATTEST of another length than 32, SIGN_DATA and SIGN_END without a start, a
response on a locked debug port, ADVANCE and PROVISION on locked fuses, PROVISION in the wrong lifecycle or with a token that
is not Cloevo's. -/
def Obligations.Security : Prop :=
  -- Security
  (
    ∀ (k : Fin 4) (c : Fin 2) (len : BitVec 13) (s : State), s.tainted = [] →
      let w := fun (cmd : Nat) => cmd + 256 * len.toNat
      let ok := fun (cmd : Nat) => writes s (.mgmt k) .sec (rSecMbCmd + 0x2000 * c) (w cmd)
      let t := fun (cmd : Nat) => wroteReg s .sec (rSecMbCmd + 0x2000 * c) (w cmd)
      (ok 0x01 → exec (.mbAttest k c len) s = .next (mbAttest (t 0x01) c len.toNat)) ∧
      (ok 0x02 → exec (.signStart k c len) s = .next (mbDone (setStream (t 0x02) c (some [])) c mbOk [])) ∧
      (ok 0x03 → exec (.signData k c len) s = .next (mbSignData (t 0x03) c len.toNat)) ∧
      (ok 0x04 → exec (.signEnd k c len) s = .next (mbSignEnd (t 0x04) c)) ∧
      (ok 0x10 → exec (.dbgChallenge k c len) s = .next
        (let l := leBytes 8 (serialOf (t 0x10)) ++ leBytes 4 s.sec.boots ++ [0, 0, 0, 0] ++ leBytes 32 (Config.debugNonce s.free);
          mbDone { t 0x10 with free := s.free + 1, sec := { s.sec with chal := some l } } c mbOk l)) ∧
      (∀ temp : Int, ok 0x11 → exec (.dbgResponse k c len temp) s = .next (mbResponse (t 0x11) c len.toNat temp)) ∧
      (ok 0x20 → exec (.advance k c len) s = .next (mbAdvance (t 0x20) c)) ∧
      (∀ tok : Bool, ok 0x30 → exec (.provision k c len tok) s = .next (mbProvision (t 0x30) c len.toNat tok)) ∧
      (∀ temp : Int, exec (.lidOpen temp) s = .next (alarm s alLid temp) ∧
        exec (.voltageGlitch temp) s = .next (alarm s alVglitch temp) ∧ exec (.clockGlitch temp) s = .next (alarm s alCglitch temp))
  ) ∧
  -- Mailbox refusals
  (
    ∀ (s : State) (c len : Nat) (temp : Int) (tok : Bool),
      (len ≠ 32 → mbAttest s c len = mbDone s c mbBadCmd []) ∧
      ((s.sec.stream[c]?).getD none = none → mbSignData s c len = mbDone s c mbSeq [] ∧ mbSignEnd s c = mbDone s c mbSeq []) ∧
      (rbit s .sec rSecDebug 8 = true → mbResponse s c len temp = mbDone s c mbLocked []) ∧
      (rbit s .sec rSecFuse 0 = true → mbAdvance s c = mbDone s c mbLocked [] ∧ mbProvision s c len tok = mbDone s c mbLocked []) ∧
      (rbit s .sec rSecFuse 0 = false → s.sec.life = 1 → mbProvision s c len tok = mbDone s c mbRefused []) ∧
      (rbit s .sec rSecFuse 0 = false → s.sec.life ≠ 1 → mbProvision s c len false = mbDone s c mbBadSig [])
  )

end
end

