-- ==== Sys2Proof/Laws/SMap.lean ====
section
/-! SUPPORT. Laws of sparse maps: a read after a write, and that every operation keeps the canonical form. -/
namespace Sys2Proof.Machine

variable {α : Type}

theorem smGet_smIns_self (d : Nat → α) (k : Nat) (v : α) (m : SMap α) : smGet d (smIns k v m) k = v := by
  induction m with
  | nil => simp [smIns, smGet]
  | cons h r ih =>
    obtain ⟨k', v'⟩ := h
    by_cases h1 : k = k'
    · simp [smIns, smGet, h1]
    · by_cases h2 : k < k' <;> simp [smIns, smGet, h1, h2, ih]

theorem smGet_smIns_ne (d : Nat → α) (k j : Nat) (v : α) (m : SMap α) (h : j ≠ k) :
    smGet d (smIns k v m) j = smGet d m j := by
  induction m with
  | nil => by_cases hj : j < k <;> simp [smIns, smGet, h, hj]
  | cons x r ih =>
    obtain ⟨k', v'⟩ := x
    by_cases h1 : k = k'
    · subst h1; simp [smIns, smGet, h]
    · by_cases h2 : k < k'
      · by_cases h3 : j < k
        · have : j ≠ k' := by omega
          have : j < k' := by omega
          simp [smIns, smGet, h1, h2, *]
        · simp [smIns, smGet, h1, h2, h3, h]
      · simp [smIns, smGet, h1, h2, ih]

section
variable [DecidableEq α]

theorem smWfFrom_mono {d : Nat → α} {lo lo' : Nat} (h : lo' ≤ lo) :
    ∀ {m : SMap α}, smWfFrom d lo m = true → smWfFrom d lo' m = true
  | [], _ => rfl
  | (k, v) :: r, hw => by
    simp only [smWfFrom, Bool.and_eq_true, decide_eq_true_eq] at hw ⊢
    exact ⟨⟨Nat.le_trans h hw.1.1, hw.1.2⟩, hw.2⟩

/-- A key below the bound of a canonical map is not listed. -/
theorem smGet_below {d : Nat → α} {lo k : Nat} : ∀ {m : SMap α}, smWfFrom d lo m = true → k < lo → smGet d m k = d k
  | [], _, _ => rfl
  | (k', v') :: r, hw, hk => by
    simp only [smWfFrom, Bool.and_eq_true, decide_eq_true_eq] at hw
    have h1 : k ≠ k' := by omega
    have h2 : k < k' := by omega
    simp [smGet, h1, h2]

theorem smWfFrom_smIns {d : Nat → α} {k : Nat} {v : α} (hv : v ≠ d k) :
    ∀ {m : SMap α} {lo : Nat}, smWfFrom d lo m = true → lo ≤ k → smWfFrom d lo (smIns k v m) = true
  | [], lo, _, hk => by simp [smIns, smWfFrom, hk, hv]
  | (k', v') :: r, lo, hw, hk => by
    simp only [smWfFrom, Bool.and_eq_true, decide_eq_true_eq, Bool.not_eq_true', decide_eq_false_iff_not] at hw
    by_cases h1 : k = k'
    · subst h1; simp [smIns, smWfFrom, hk, hv, hw.2]
    · by_cases h2 : k < k'
      · have : k + 1 ≤ k' := h2
        simp [smIns, smWfFrom, h1, h2, hk, hv, hw, this]
      · have : k' + 1 ≤ k := by omega
        simp [smIns, smWfFrom, h1, h2, hw, smWfFrom_smIns hv hw.2 this]

theorem smWfFrom_smDel {d : Nat → α} {k : Nat} :
    ∀ {m : SMap α} {lo : Nat}, smWfFrom d lo m = true → smWfFrom d lo (smDel m k) = true
  | [], _, _ => rfl
  | (k', v') :: r, lo, hw => by
    simp only [smWfFrom, Bool.and_eq_true, decide_eq_true_eq, Bool.not_eq_true', decide_eq_false_iff_not] at hw
    by_cases h1 : k = k'
    · subst h1
      simp only [smDel, if_true]
      exact smWfFrom_mono (by omega) hw.2
    · by_cases h2 : k < k'
      · simp [smDel, h1, h2, smWfFrom, hw]
      · simp [smDel, h1, h2, smWfFrom, hw, smWfFrom_smDel hw.2]

/-- A write keeps the canonical form. -/
theorem smWf_smPut {d : Nat → α} {m : SMap α} (k : Nat) (v : α) (h : smWf d m = true) : smWf d (smPut d m k v) = true := by
  unfold smPut
  split
  · exact smWfFrom_smDel h
  · exact smWfFrom_smIns ‹_› h (Nat.zero_le _)

theorem smWf_smUpd {d : Nat → α} {m : SMap α} (k : Nat) (f : α → α) (h : smWf d m = true) :
    smWf d (smUpd d m k f) = true := smWf_smPut _ _ h

theorem smWf_smDel {d : Nat → α} {m : SMap α} (k : Nat) (h : smWf d m = true) : smWf d (smDel m k) = true :=
  smWfFrom_smDel h

theorem smWfFrom_filter {d : Nat → α} (p : Nat × α → Bool) :
    ∀ {m : SMap α} {lo : Nat}, smWfFrom d lo m = true → smWfFrom d lo (m.filter p) = true
  | [], _, _ => rfl
  | (k, v) :: r, lo, hw => by
    simp only [smWfFrom, Bool.and_eq_true, decide_eq_true_eq, Bool.not_eq_true', decide_eq_false_iff_not] at hw
    have ih := smWfFrom_filter p hw.2
    by_cases h1 : p (k, v) = true
    · simp [List.filter_cons_of_pos h1, smWfFrom, hw.1.1, hw.1.2, ih]
    · rw [List.filter_cons_of_neg h1]
      exact smWfFrom_mono (by omega) ih

theorem smWf_filter {d : Nat → α} (p : Nat × α → Bool) {m : SMap α} (h : smWf d m = true) : smWf d (m.filter p) = true :=
  smWfFrom_filter p h

theorem smGet_smDel_self {d : Nat → α} {k : Nat} :
    ∀ {m : SMap α} {lo : Nat}, smWfFrom d lo m = true → smGet d (smDel m k) k = d k
  | [], _, _ => rfl
  | (k', v') :: r, lo, hw => by
    simp only [smWfFrom, Bool.and_eq_true, decide_eq_true_eq, Bool.not_eq_true', decide_eq_false_iff_not] at hw
    by_cases h1 : k = k'
    · subst h1
      simp only [smDel, if_true]
      exact smGet_below hw.2 (Nat.lt_succ_self _)
    · by_cases h2 : k < k'
      · simp [smDel, smGet, h1, h2]
      · simp [smDel, smGet, h1, h2, smGet_smDel_self hw.2]

theorem smGet_smDel_ne {d : Nat → α} {k j : Nat} (h : j ≠ k) :
    ∀ {m : SMap α} {lo : Nat}, smWfFrom d lo m = true → smGet d (smDel m k) j = smGet d m j
  | [], _, _ => rfl
  | (k', v') :: r, lo, hw => by
    simp only [smWfFrom, Bool.and_eq_true, decide_eq_true_eq, Bool.not_eq_true', decide_eq_false_iff_not] at hw
    by_cases h1 : k = k'
    · subst h1
      simp only [smDel, if_true, smGet, if_neg h]
      split
      · exact smGet_below hw.2 (by omega)
      · rfl
    · by_cases h2 : k < k'
      · simp [smDel, h1, h2]
      · simp [smDel, smGet, h1, h2, smGet_smDel_ne h hw.2]

/-- A read after a write of the same key gives the value written. -/
theorem smGet_smPut_self {d : Nat → α} {m : SMap α} (k : Nat) (v : α) (h : smWf d m = true) :
    smGet d (smPut d m k v) k = v := by
  unfold smPut
  split
  · rename_i e; rw [e]; exact smGet_smDel_self h
  · exact smGet_smIns_self d k v m

/-- A write leaves every other key alone. -/
theorem smGet_smPut_ne {d : Nat → α} {m : SMap α} {k j : Nat} (v : α) (hj : j ≠ k) (h : smWf d m = true) :
    smGet d (smPut d m k v) j = smGet d m j := by
  unfold smPut
  split
  · exact smGet_smDel_ne hj h
  · exact smGet_smIns_ne d k j v m hj

end

end Sys2Proof.Machine
end

