-- ==== Sys2Proof/Laws/State.lean ====
section
/-! SUPPORT. One lemma for each field that an update of the state leaves, true by unfolding: a proof reads a field through an
update without unfolding it. -/
namespace Sys2Proof.Machine

@[simp] theorem setReg_pending (s : State) (b : Blk) (o : Nat) (w : Word) : (setReg s b o w).pending = s.pending := rfl
@[simp] theorem setReg_partA6 (s : State) (b : Blk) (o : Nat) (w : Word) : (setReg s b o w).partA6 = s.partA6 := rfl
@[simp] theorem setReg_tainted (s : State) (b : Blk) (o : Nat) (w : Word) : (setReg s b o w).tainted = s.tainted := rfl
@[simp] theorem setReg_beacon (s : State) (b : Blk) (o : Nat) (w : Word) : (setReg s b o w).beacon = s.beacon := rfl
@[simp] theorem setReg_epoch (s : State) (b : Blk) (o : Nat) (w : Word) : (setReg s b o w).epoch = s.epoch := rfl
@[simp] theorem setReg_pwr (s : State) (b : Blk) (o : Nat) (w : Word) : (setReg s b o w).pwr = s.pwr := rfl
@[simp] theorem setReg_mem (s : State) (b : Blk) (o : Nat) (w : Word) : (setReg s b o w).mem = s.mem := rfl
@[simp] theorem setReg_objs (s : State) (b : Blk) (o : Nat) (w : Word) : (setReg s b o w).objs = s.objs := rfl
@[simp] theorem setReg_seqs (s : State) (b : Blk) (o : Nat) (w : Word) : (setReg s b o w).seqs = s.seqs := rfl
@[simp] theorem setReg_ops (s : State) (b : Blk) (o : Nat) (w : Word) : (setReg s b o w).ops = s.ops := rfl
@[simp] theorem setReg_evt (s : State) (b : Blk) (o : Nat) (w : Word) : (setReg s b o w).evt = s.evt := rfl
@[simp] theorem setReg_steps (s : State) (b : Blk) (o : Nat) (w : Word) : (setReg s b o w).steps = s.steps := rfl
@[simp] theorem setReg_commitN (s : State) (b : Blk) (o : Nat) (w : Word) : (setReg s b o w).commitN = s.commitN := rfl
@[simp] theorem setReg_openN (s : State) (b : Blk) (o : Nat) (w : Word) : (setReg s b o w).openN = s.openN := rfl
@[simp] theorem setReg_timers (s : State) (b : Blk) (o : Nat) (w : Word) : (setReg s b o w).timers = s.timers := rfl
@[simp] theorem setReg_links (s : State) (b : Blk) (o : Nat) (w : Word) : (setReg s b o w).links = s.links := rfl
@[simp] theorem setReg_units (s : State) (b : Blk) (o : Nat) (w : Word) : (setReg s b o w).units = s.units := rfl
@[simp] theorem setReg_orders (s : State) (b : Blk) (o : Nat) (w : Word) : (setReg s b o w).orders = s.orders := rfl
@[simp] theorem setReg_sess (s : State) (b : Blk) (o : Nat) (w : Word) : (setReg s b o w).sess = s.sess := rfl
@[simp] theorem setReg_irqs (s : State) (b : Blk) (o : Nat) (w : Word) : (setReg s b o w).irqs = s.irqs := rfl
@[simp] theorem setReg_free (s : State) (b : Blk) (o : Nat) (w : Word) : (setReg s b o w).free = s.free := rfl
@[simp] theorem setFld_pending (s : State) (b : Blk) (o hi lo v : Nat) : (setFld s b o hi lo v).pending = s.pending := rfl
@[simp] theorem setFld_partA6 (s : State) (b : Blk) (o hi lo v : Nat) : (setFld s b o hi lo v).partA6 = s.partA6 := rfl
@[simp] theorem setFld_tainted (s : State) (b : Blk) (o hi lo v : Nat) : (setFld s b o hi lo v).tainted = s.tainted := rfl
@[simp] theorem setFld_beacon (s : State) (b : Blk) (o hi lo v : Nat) : (setFld s b o hi lo v).beacon = s.beacon := rfl
@[simp] theorem setFld_epoch (s : State) (b : Blk) (o hi lo v : Nat) : (setFld s b o hi lo v).epoch = s.epoch := rfl
@[simp] theorem setFld_pwr (s : State) (b : Blk) (o hi lo v : Nat) : (setFld s b o hi lo v).pwr = s.pwr := rfl
@[simp] theorem setFld_mem (s : State) (b : Blk) (o hi lo v : Nat) : (setFld s b o hi lo v).mem = s.mem := rfl
@[simp] theorem setFld_objs (s : State) (b : Blk) (o hi lo v : Nat) : (setFld s b o hi lo v).objs = s.objs := rfl
@[simp] theorem setFld_seqs (s : State) (b : Blk) (o hi lo v : Nat) : (setFld s b o hi lo v).seqs = s.seqs := rfl
@[simp] theorem setFld_ops (s : State) (b : Blk) (o hi lo v : Nat) : (setFld s b o hi lo v).ops = s.ops := rfl
@[simp] theorem setFld_evt (s : State) (b : Blk) (o hi lo v : Nat) : (setFld s b o hi lo v).evt = s.evt := rfl
@[simp] theorem setFld_steps (s : State) (b : Blk) (o hi lo v : Nat) : (setFld s b o hi lo v).steps = s.steps := rfl
@[simp] theorem setFld_commitN (s : State) (b : Blk) (o hi lo v : Nat) : (setFld s b o hi lo v).commitN = s.commitN := rfl
@[simp] theorem setFld_openN (s : State) (b : Blk) (o hi lo v : Nat) : (setFld s b o hi lo v).openN = s.openN := rfl
@[simp] theorem setFld_timers (s : State) (b : Blk) (o hi lo v : Nat) : (setFld s b o hi lo v).timers = s.timers := rfl
@[simp] theorem setFld_links (s : State) (b : Blk) (o hi lo v : Nat) : (setFld s b o hi lo v).links = s.links := rfl
@[simp] theorem setFld_units (s : State) (b : Blk) (o hi lo v : Nat) : (setFld s b o hi lo v).units = s.units := rfl
@[simp] theorem setFld_orders (s : State) (b : Blk) (o hi lo v : Nat) : (setFld s b o hi lo v).orders = s.orders := rfl
@[simp] theorem setFld_sess (s : State) (b : Blk) (o hi lo v : Nat) : (setFld s b o hi lo v).sess = s.sess := rfl
@[simp] theorem setFld_irqs (s : State) (b : Blk) (o hi lo v : Nat) : (setFld s b o hi lo v).irqs = s.irqs := rfl
@[simp] theorem setFld_free (s : State) (b : Blk) (o hi lo v : Nat) : (setFld s b o hi lo v).free = s.free := rfl
@[simp] theorem raise_pending (s : State) (ev : Ev) (wh st : Nat) (l : List EArg) : (raise s ev wh st l).pending = s.pending := rfl
@[simp] theorem raise_partA6 (s : State) (ev : Ev) (wh st : Nat) (l : List EArg) : (raise s ev wh st l).partA6 = s.partA6 := rfl
@[simp] theorem raise_tainted (s : State) (ev : Ev) (wh st : Nat) (l : List EArg) : (raise s ev wh st l).tainted = s.tainted := rfl
@[simp] theorem raise_beacon (s : State) (ev : Ev) (wh st : Nat) (l : List EArg) : (raise s ev wh st l).beacon = s.beacon := rfl
@[simp] theorem raise_epoch (s : State) (ev : Ev) (wh st : Nat) (l : List EArg) : (raise s ev wh st l).epoch = s.epoch := rfl
@[simp] theorem raise_pwr (s : State) (ev : Ev) (wh st : Nat) (l : List EArg) : (raise s ev wh st l).pwr = s.pwr := rfl
@[simp] theorem raise_mem (s : State) (ev : Ev) (wh st : Nat) (l : List EArg) : (raise s ev wh st l).mem = s.mem := rfl
@[simp] theorem raise_regs (s : State) (ev : Ev) (wh st : Nat) (l : List EArg) : (raise s ev wh st l).regs = s.regs := rfl
@[simp] theorem raise_objs (s : State) (ev : Ev) (wh st : Nat) (l : List EArg) : (raise s ev wh st l).objs = s.objs := rfl
@[simp] theorem raise_seqs (s : State) (ev : Ev) (wh st : Nat) (l : List EArg) : (raise s ev wh st l).seqs = s.seqs := rfl
@[simp] theorem raise_ops (s : State) (ev : Ev) (wh st : Nat) (l : List EArg) : (raise s ev wh st l).ops = s.ops := rfl
@[simp] theorem raise_steps (s : State) (ev : Ev) (wh st : Nat) (l : List EArg) : (raise s ev wh st l).steps = s.steps := rfl
@[simp] theorem raise_commitN (s : State) (ev : Ev) (wh st : Nat) (l : List EArg) : (raise s ev wh st l).commitN = s.commitN := rfl
@[simp] theorem raise_openN (s : State) (ev : Ev) (wh st : Nat) (l : List EArg) : (raise s ev wh st l).openN = s.openN := rfl
@[simp] theorem raise_timers (s : State) (ev : Ev) (wh st : Nat) (l : List EArg) : (raise s ev wh st l).timers = s.timers := rfl
@[simp] theorem raise_links (s : State) (ev : Ev) (wh st : Nat) (l : List EArg) : (raise s ev wh st l).links = s.links := rfl
@[simp] theorem raise_units (s : State) (ev : Ev) (wh st : Nat) (l : List EArg) : (raise s ev wh st l).units = s.units := rfl
@[simp] theorem raise_orders (s : State) (ev : Ev) (wh st : Nat) (l : List EArg) : (raise s ev wh st l).orders = s.orders := rfl
@[simp] theorem raise_sess (s : State) (ev : Ev) (wh st : Nat) (l : List EArg) : (raise s ev wh st l).sess = s.sess := rfl
@[simp] theorem raise_irqs (s : State) (ev : Ev) (wh st : Nat) (l : List EArg) : (raise s ev wh st l).irqs = s.irqs := rfl
@[simp] theorem raise_free (s : State) (ev : Ev) (wh st : Nat) (l : List EArg) : (raise s ev wh st l).free = s.free := rfl
@[simp] theorem raiseIf_pending (c : Bool) (s : State) (ev : Ev) (wh st : Nat) (l : List EArg) : (raiseIf c s ev wh st l).pending = s.pending := rfl
@[simp] theorem raiseIf_partA6 (c : Bool) (s : State) (ev : Ev) (wh st : Nat) (l : List EArg) : (raiseIf c s ev wh st l).partA6 = s.partA6 := rfl
@[simp] theorem raiseIf_tainted (c : Bool) (s : State) (ev : Ev) (wh st : Nat) (l : List EArg) : (raiseIf c s ev wh st l).tainted = s.tainted := rfl
@[simp] theorem raiseIf_beacon (c : Bool) (s : State) (ev : Ev) (wh st : Nat) (l : List EArg) : (raiseIf c s ev wh st l).beacon = s.beacon := rfl
@[simp] theorem raiseIf_epoch (c : Bool) (s : State) (ev : Ev) (wh st : Nat) (l : List EArg) : (raiseIf c s ev wh st l).epoch = s.epoch := rfl
@[simp] theorem raiseIf_pwr (c : Bool) (s : State) (ev : Ev) (wh st : Nat) (l : List EArg) : (raiseIf c s ev wh st l).pwr = s.pwr := rfl
@[simp] theorem raiseIf_mem (c : Bool) (s : State) (ev : Ev) (wh st : Nat) (l : List EArg) : (raiseIf c s ev wh st l).mem = s.mem := rfl
@[simp] theorem raiseIf_regs (c : Bool) (s : State) (ev : Ev) (wh st : Nat) (l : List EArg) : (raiseIf c s ev wh st l).regs = s.regs := rfl
@[simp] theorem raiseIf_objs (c : Bool) (s : State) (ev : Ev) (wh st : Nat) (l : List EArg) : (raiseIf c s ev wh st l).objs = s.objs := rfl
@[simp] theorem raiseIf_seqs (c : Bool) (s : State) (ev : Ev) (wh st : Nat) (l : List EArg) : (raiseIf c s ev wh st l).seqs = s.seqs := rfl
@[simp] theorem raiseIf_ops (c : Bool) (s : State) (ev : Ev) (wh st : Nat) (l : List EArg) : (raiseIf c s ev wh st l).ops = s.ops := rfl
@[simp] theorem raiseIf_steps (c : Bool) (s : State) (ev : Ev) (wh st : Nat) (l : List EArg) : (raiseIf c s ev wh st l).steps = s.steps := rfl
@[simp] theorem raiseIf_commitN (c : Bool) (s : State) (ev : Ev) (wh st : Nat) (l : List EArg) : (raiseIf c s ev wh st l).commitN = s.commitN := rfl
@[simp] theorem raiseIf_openN (c : Bool) (s : State) (ev : Ev) (wh st : Nat) (l : List EArg) : (raiseIf c s ev wh st l).openN = s.openN := rfl
@[simp] theorem raiseIf_timers (c : Bool) (s : State) (ev : Ev) (wh st : Nat) (l : List EArg) : (raiseIf c s ev wh st l).timers = s.timers := rfl
@[simp] theorem raiseIf_links (c : Bool) (s : State) (ev : Ev) (wh st : Nat) (l : List EArg) : (raiseIf c s ev wh st l).links = s.links := rfl
@[simp] theorem raiseIf_units (c : Bool) (s : State) (ev : Ev) (wh st : Nat) (l : List EArg) : (raiseIf c s ev wh st l).units = s.units := rfl
@[simp] theorem raiseIf_orders (c : Bool) (s : State) (ev : Ev) (wh st : Nat) (l : List EArg) : (raiseIf c s ev wh st l).orders = s.orders := rfl
@[simp] theorem raiseIf_sess (c : Bool) (s : State) (ev : Ev) (wh st : Nat) (l : List EArg) : (raiseIf c s ev wh st l).sess = s.sess := rfl
@[simp] theorem raiseIf_irqs (c : Bool) (s : State) (ev : Ev) (wh st : Nat) (l : List EArg) : (raiseIf c s ev wh st l).irqs = s.irqs := rfl
@[simp] theorem raiseIf_free (c : Bool) (s : State) (ev : Ev) (wh st : Nat) (l : List EArg) : (raiseIf c s ev wh st l).free = s.free := rfl
@[simp] theorem raiseAcc_pending (s : State) (e : AccErr) (wh st : Nat) : (raiseAcc s e wh st).pending = s.pending := rfl
@[simp] theorem raiseAcc_partA6 (s : State) (e : AccErr) (wh st : Nat) : (raiseAcc s e wh st).partA6 = s.partA6 := rfl
@[simp] theorem raiseAcc_tainted (s : State) (e : AccErr) (wh st : Nat) : (raiseAcc s e wh st).tainted = s.tainted := rfl
@[simp] theorem raiseAcc_beacon (s : State) (e : AccErr) (wh st : Nat) : (raiseAcc s e wh st).beacon = s.beacon := rfl
@[simp] theorem raiseAcc_epoch (s : State) (e : AccErr) (wh st : Nat) : (raiseAcc s e wh st).epoch = s.epoch := rfl
@[simp] theorem raiseAcc_pwr (s : State) (e : AccErr) (wh st : Nat) : (raiseAcc s e wh st).pwr = s.pwr := rfl
@[simp] theorem raiseAcc_mem (s : State) (e : AccErr) (wh st : Nat) : (raiseAcc s e wh st).mem = s.mem := rfl
@[simp] theorem raiseAcc_regs (s : State) (e : AccErr) (wh st : Nat) : (raiseAcc s e wh st).regs = s.regs := rfl
@[simp] theorem raiseAcc_objs (s : State) (e : AccErr) (wh st : Nat) : (raiseAcc s e wh st).objs = s.objs := rfl
@[simp] theorem raiseAcc_seqs (s : State) (e : AccErr) (wh st : Nat) : (raiseAcc s e wh st).seqs = s.seqs := rfl
@[simp] theorem raiseAcc_ops (s : State) (e : AccErr) (wh st : Nat) : (raiseAcc s e wh st).ops = s.ops := rfl
@[simp] theorem raiseAcc_steps (s : State) (e : AccErr) (wh st : Nat) : (raiseAcc s e wh st).steps = s.steps := rfl
@[simp] theorem raiseAcc_commitN (s : State) (e : AccErr) (wh st : Nat) : (raiseAcc s e wh st).commitN = s.commitN := rfl
@[simp] theorem raiseAcc_openN (s : State) (e : AccErr) (wh st : Nat) : (raiseAcc s e wh st).openN = s.openN := rfl
@[simp] theorem raiseAcc_timers (s : State) (e : AccErr) (wh st : Nat) : (raiseAcc s e wh st).timers = s.timers := rfl
@[simp] theorem raiseAcc_links (s : State) (e : AccErr) (wh st : Nat) : (raiseAcc s e wh st).links = s.links := rfl
@[simp] theorem raiseAcc_units (s : State) (e : AccErr) (wh st : Nat) : (raiseAcc s e wh st).units = s.units := rfl
@[simp] theorem raiseAcc_orders (s : State) (e : AccErr) (wh st : Nat) : (raiseAcc s e wh st).orders = s.orders := rfl
@[simp] theorem raiseAcc_sess (s : State) (e : AccErr) (wh st : Nat) : (raiseAcc s e wh st).sess = s.sess := rfl
@[simp] theorem raiseAcc_irqs (s : State) (e : AccErr) (wh st : Nat) : (raiseAcc s e wh st).irqs = s.irqs := rfl
@[simp] theorem raiseAcc_free (s : State) (e : AccErr) (wh st : Nat) : (raiseAcc s e wh st).free = s.free := rfl
@[simp] theorem applyRefused_pending (s : State) (b : Blk) (o bad : Nat) : (applyRefused s b o bad).pending = s.pending := rfl
@[simp] theorem applyRefused_partA6 (s : State) (b : Blk) (o bad : Nat) : (applyRefused s b o bad).partA6 = s.partA6 := rfl
@[simp] theorem applyRefused_tainted (s : State) (b : Blk) (o bad : Nat) : (applyRefused s b o bad).tainted = s.tainted := rfl
@[simp] theorem applyRefused_beacon (s : State) (b : Blk) (o bad : Nat) : (applyRefused s b o bad).beacon = s.beacon := rfl
@[simp] theorem applyRefused_epoch (s : State) (b : Blk) (o bad : Nat) : (applyRefused s b o bad).epoch = s.epoch := rfl
@[simp] theorem applyRefused_pwr (s : State) (b : Blk) (o bad : Nat) : (applyRefused s b o bad).pwr = s.pwr := rfl
@[simp] theorem applyRefused_mem (s : State) (b : Blk) (o bad : Nat) : (applyRefused s b o bad).mem = s.mem := rfl
@[simp] theorem applyRefused_regs (s : State) (b : Blk) (o bad : Nat) : (applyRefused s b o bad).regs = s.regs := rfl
@[simp] theorem applyRefused_objs (s : State) (b : Blk) (o bad : Nat) : (applyRefused s b o bad).objs = s.objs := rfl
@[simp] theorem applyRefused_seqs (s : State) (b : Blk) (o bad : Nat) : (applyRefused s b o bad).seqs = s.seqs := rfl
@[simp] theorem applyRefused_ops (s : State) (b : Blk) (o bad : Nat) : (applyRefused s b o bad).ops = s.ops := rfl
@[simp] theorem applyRefused_steps (s : State) (b : Blk) (o bad : Nat) : (applyRefused s b o bad).steps = s.steps := rfl
@[simp] theorem applyRefused_commitN (s : State) (b : Blk) (o bad : Nat) : (applyRefused s b o bad).commitN = s.commitN := rfl
@[simp] theorem applyRefused_openN (s : State) (b : Blk) (o bad : Nat) : (applyRefused s b o bad).openN = s.openN := rfl
@[simp] theorem applyRefused_timers (s : State) (b : Blk) (o bad : Nat) : (applyRefused s b o bad).timers = s.timers := rfl
@[simp] theorem applyRefused_links (s : State) (b : Blk) (o bad : Nat) : (applyRefused s b o bad).links = s.links := rfl
@[simp] theorem applyRefused_units (s : State) (b : Blk) (o bad : Nat) : (applyRefused s b o bad).units = s.units := rfl
@[simp] theorem applyRefused_orders (s : State) (b : Blk) (o bad : Nat) : (applyRefused s b o bad).orders = s.orders := rfl
@[simp] theorem applyRefused_sess (s : State) (b : Blk) (o bad : Nat) : (applyRefused s b o bad).sess = s.sess := rfl
@[simp] theorem applyRefused_irqs (s : State) (b : Blk) (o bad : Nat) : (applyRefused s b o bad).irqs = s.irqs := rfl
@[simp] theorem applyRefused_free (s : State) (b : Blk) (o bad : Nat) : (applyRefused s b o bad).free = s.free := rfl
@[simp] theorem cntAdd_pending (s : State) (b : Blk) (o n : Nat) : (cntAdd s b o n).pending = s.pending := rfl
@[simp] theorem cntAdd_partA6 (s : State) (b : Blk) (o n : Nat) : (cntAdd s b o n).partA6 = s.partA6 := rfl
@[simp] theorem cntAdd_tainted (s : State) (b : Blk) (o n : Nat) : (cntAdd s b o n).tainted = s.tainted := rfl
@[simp] theorem cntAdd_beacon (s : State) (b : Blk) (o n : Nat) : (cntAdd s b o n).beacon = s.beacon := rfl
@[simp] theorem cntAdd_epoch (s : State) (b : Blk) (o n : Nat) : (cntAdd s b o n).epoch = s.epoch := rfl
@[simp] theorem cntAdd_pwr (s : State) (b : Blk) (o n : Nat) : (cntAdd s b o n).pwr = s.pwr := rfl
@[simp] theorem cntAdd_mem (s : State) (b : Blk) (o n : Nat) : (cntAdd s b o n).mem = s.mem := rfl
@[simp] theorem cntAdd_objs (s : State) (b : Blk) (o n : Nat) : (cntAdd s b o n).objs = s.objs := rfl
@[simp] theorem cntAdd_seqs (s : State) (b : Blk) (o n : Nat) : (cntAdd s b o n).seqs = s.seqs := rfl
@[simp] theorem cntAdd_ops (s : State) (b : Blk) (o n : Nat) : (cntAdd s b o n).ops = s.ops := rfl
@[simp] theorem cntAdd_steps (s : State) (b : Blk) (o n : Nat) : (cntAdd s b o n).steps = s.steps := rfl
@[simp] theorem cntAdd_commitN (s : State) (b : Blk) (o n : Nat) : (cntAdd s b o n).commitN = s.commitN := rfl
@[simp] theorem cntAdd_openN (s : State) (b : Blk) (o n : Nat) : (cntAdd s b o n).openN = s.openN := rfl
@[simp] theorem cntAdd_timers (s : State) (b : Blk) (o n : Nat) : (cntAdd s b o n).timers = s.timers := rfl
@[simp] theorem cntAdd_links (s : State) (b : Blk) (o n : Nat) : (cntAdd s b o n).links = s.links := rfl
@[simp] theorem cntAdd_units (s : State) (b : Blk) (o n : Nat) : (cntAdd s b o n).units = s.units := rfl
@[simp] theorem cntAdd_orders (s : State) (b : Blk) (o n : Nat) : (cntAdd s b o n).orders = s.orders := rfl
@[simp] theorem cntAdd_sess (s : State) (b : Blk) (o n : Nat) : (cntAdd s b o n).sess = s.sess := rfl
@[simp] theorem cntAdd_irqs (s : State) (b : Blk) (o n : Nat) : (cntAdd s b o n).irqs = s.irqs := rfl
@[simp] theorem cntAdd_free (s : State) (b : Blk) (o n : Nat) : (cntAdd s b o n).free = s.free := rfl
@[simp] theorem cnt_pending (s : State) (b : Blk) (o : Nat) : (cnt s b o).pending = s.pending := rfl
@[simp] theorem cnt_partA6 (s : State) (b : Blk) (o : Nat) : (cnt s b o).partA6 = s.partA6 := rfl
@[simp] theorem cnt_tainted (s : State) (b : Blk) (o : Nat) : (cnt s b o).tainted = s.tainted := rfl
@[simp] theorem cnt_beacon (s : State) (b : Blk) (o : Nat) : (cnt s b o).beacon = s.beacon := rfl
@[simp] theorem cnt_epoch (s : State) (b : Blk) (o : Nat) : (cnt s b o).epoch = s.epoch := rfl
@[simp] theorem cnt_pwr (s : State) (b : Blk) (o : Nat) : (cnt s b o).pwr = s.pwr := rfl
@[simp] theorem cnt_mem (s : State) (b : Blk) (o : Nat) : (cnt s b o).mem = s.mem := rfl
@[simp] theorem cnt_objs (s : State) (b : Blk) (o : Nat) : (cnt s b o).objs = s.objs := rfl
@[simp] theorem cnt_seqs (s : State) (b : Blk) (o : Nat) : (cnt s b o).seqs = s.seqs := rfl
@[simp] theorem cnt_ops (s : State) (b : Blk) (o : Nat) : (cnt s b o).ops = s.ops := rfl
@[simp] theorem cnt_steps (s : State) (b : Blk) (o : Nat) : (cnt s b o).steps = s.steps := rfl
@[simp] theorem cnt_commitN (s : State) (b : Blk) (o : Nat) : (cnt s b o).commitN = s.commitN := rfl
@[simp] theorem cnt_openN (s : State) (b : Blk) (o : Nat) : (cnt s b o).openN = s.openN := rfl
@[simp] theorem cnt_timers (s : State) (b : Blk) (o : Nat) : (cnt s b o).timers = s.timers := rfl
@[simp] theorem cnt_links (s : State) (b : Blk) (o : Nat) : (cnt s b o).links = s.links := rfl
@[simp] theorem cnt_units (s : State) (b : Blk) (o : Nat) : (cnt s b o).units = s.units := rfl
@[simp] theorem cnt_orders (s : State) (b : Blk) (o : Nat) : (cnt s b o).orders = s.orders := rfl
@[simp] theorem cnt_sess (s : State) (b : Blk) (o : Nat) : (cnt s b o).sess = s.sess := rfl
@[simp] theorem cnt_irqs (s : State) (b : Blk) (o : Nat) : (cnt s b o).irqs = s.irqs := rfl
@[simp] theorem cnt_free (s : State) (b : Blk) (o : Nat) : (cnt s b o).free = s.free := rfl
@[simp] theorem setSeq_pending (s : State) (q : Nat) (x : Seq) : (setSeq s q x).pending = s.pending := rfl
@[simp] theorem setSeq_partA6 (s : State) (q : Nat) (x : Seq) : (setSeq s q x).partA6 = s.partA6 := rfl
@[simp] theorem setSeq_tainted (s : State) (q : Nat) (x : Seq) : (setSeq s q x).tainted = s.tainted := rfl
@[simp] theorem setSeq_beacon (s : State) (q : Nat) (x : Seq) : (setSeq s q x).beacon = s.beacon := rfl
@[simp] theorem setSeq_epoch (s : State) (q : Nat) (x : Seq) : (setSeq s q x).epoch = s.epoch := rfl
@[simp] theorem setSeq_pwr (s : State) (q : Nat) (x : Seq) : (setSeq s q x).pwr = s.pwr := rfl
@[simp] theorem setSeq_mem (s : State) (q : Nat) (x : Seq) : (setSeq s q x).mem = s.mem := rfl
@[simp] theorem setSeq_regs (s : State) (q : Nat) (x : Seq) : (setSeq s q x).regs = s.regs := rfl
@[simp] theorem setSeq_objs (s : State) (q : Nat) (x : Seq) : (setSeq s q x).objs = s.objs := rfl
@[simp] theorem setSeq_ops (s : State) (q : Nat) (x : Seq) : (setSeq s q x).ops = s.ops := rfl
@[simp] theorem setSeq_evt (s : State) (q : Nat) (x : Seq) : (setSeq s q x).evt = s.evt := rfl
@[simp] theorem setSeq_steps (s : State) (q : Nat) (x : Seq) : (setSeq s q x).steps = s.steps := rfl
@[simp] theorem setSeq_commitN (s : State) (q : Nat) (x : Seq) : (setSeq s q x).commitN = s.commitN := rfl
@[simp] theorem setSeq_openN (s : State) (q : Nat) (x : Seq) : (setSeq s q x).openN = s.openN := rfl
@[simp] theorem setSeq_timers (s : State) (q : Nat) (x : Seq) : (setSeq s q x).timers = s.timers := rfl
@[simp] theorem setSeq_links (s : State) (q : Nat) (x : Seq) : (setSeq s q x).links = s.links := rfl
@[simp] theorem setSeq_units (s : State) (q : Nat) (x : Seq) : (setSeq s q x).units = s.units := rfl
@[simp] theorem setSeq_orders (s : State) (q : Nat) (x : Seq) : (setSeq s q x).orders = s.orders := rfl
@[simp] theorem setSeq_sess (s : State) (q : Nat) (x : Seq) : (setSeq s q x).sess = s.sess := rfl
@[simp] theorem setSeq_irqs (s : State) (q : Nat) (x : Seq) : (setSeq s q x).irqs = s.irqs := rfl
@[simp] theorem setSeq_free (s : State) (q : Nat) (x : Seq) : (setSeq s q x).free = s.free := rfl
@[simp] theorem seqEnd_pending (s : State) (q pc : Nat) : (seqEnd s q pc).pending = s.pending := rfl
@[simp] theorem seqEnd_partA6 (s : State) (q pc : Nat) : (seqEnd s q pc).partA6 = s.partA6 := rfl
@[simp] theorem seqEnd_tainted (s : State) (q pc : Nat) : (seqEnd s q pc).tainted = s.tainted := rfl
@[simp] theorem seqEnd_beacon (s : State) (q pc : Nat) : (seqEnd s q pc).beacon = s.beacon := rfl
@[simp] theorem seqEnd_epoch (s : State) (q pc : Nat) : (seqEnd s q pc).epoch = s.epoch := rfl
@[simp] theorem seqEnd_pwr (s : State) (q pc : Nat) : (seqEnd s q pc).pwr = s.pwr := rfl
@[simp] theorem seqEnd_mem (s : State) (q pc : Nat) : (seqEnd s q pc).mem = s.mem := rfl
@[simp] theorem seqEnd_regs (s : State) (q pc : Nat) : (seqEnd s q pc).regs = s.regs := rfl
@[simp] theorem seqEnd_objs (s : State) (q pc : Nat) : (seqEnd s q pc).objs = s.objs := rfl
@[simp] theorem seqEnd_ops (s : State) (q pc : Nat) : (seqEnd s q pc).ops = s.ops := rfl
@[simp] theorem seqEnd_evt (s : State) (q pc : Nat) : (seqEnd s q pc).evt = s.evt := rfl
@[simp] theorem seqEnd_steps (s : State) (q pc : Nat) : (seqEnd s q pc).steps = s.steps := rfl
@[simp] theorem seqEnd_commitN (s : State) (q pc : Nat) : (seqEnd s q pc).commitN = s.commitN := rfl
@[simp] theorem seqEnd_openN (s : State) (q pc : Nat) : (seqEnd s q pc).openN = s.openN := rfl
@[simp] theorem seqEnd_timers (s : State) (q pc : Nat) : (seqEnd s q pc).timers = s.timers := rfl
@[simp] theorem seqEnd_links (s : State) (q pc : Nat) : (seqEnd s q pc).links = s.links := rfl
@[simp] theorem seqEnd_units (s : State) (q pc : Nat) : (seqEnd s q pc).units = s.units := rfl
@[simp] theorem seqEnd_orders (s : State) (q pc : Nat) : (seqEnd s q pc).orders = s.orders := rfl
@[simp] theorem seqEnd_sess (s : State) (q pc : Nat) : (seqEnd s q pc).sess = s.sess := rfl
@[simp] theorem seqEnd_irqs (s : State) (q pc : Nat) : (seqEnd s q pc).irqs = s.irqs := rfl
@[simp] theorem seqEnd_free (s : State) (q pc : Nat) : (seqEnd s q pc).free = s.free := rfl
@[simp] theorem seqNext_pending (s : State) (q : Nat) : (seqNext s q).pending = s.pending := rfl
@[simp] theorem seqNext_partA6 (s : State) (q : Nat) : (seqNext s q).partA6 = s.partA6 := rfl
@[simp] theorem seqNext_tainted (s : State) (q : Nat) : (seqNext s q).tainted = s.tainted := rfl
@[simp] theorem seqNext_beacon (s : State) (q : Nat) : (seqNext s q).beacon = s.beacon := rfl
@[simp] theorem seqNext_epoch (s : State) (q : Nat) : (seqNext s q).epoch = s.epoch := rfl
@[simp] theorem seqNext_pwr (s : State) (q : Nat) : (seqNext s q).pwr = s.pwr := rfl
@[simp] theorem seqNext_mem (s : State) (q : Nat) : (seqNext s q).mem = s.mem := rfl
@[simp] theorem seqNext_regs (s : State) (q : Nat) : (seqNext s q).regs = s.regs := rfl
@[simp] theorem seqNext_objs (s : State) (q : Nat) : (seqNext s q).objs = s.objs := rfl
@[simp] theorem seqNext_ops (s : State) (q : Nat) : (seqNext s q).ops = s.ops := rfl
@[simp] theorem seqNext_evt (s : State) (q : Nat) : (seqNext s q).evt = s.evt := rfl
@[simp] theorem seqNext_steps (s : State) (q : Nat) : (seqNext s q).steps = s.steps := rfl
@[simp] theorem seqNext_commitN (s : State) (q : Nat) : (seqNext s q).commitN = s.commitN := rfl
@[simp] theorem seqNext_openN (s : State) (q : Nat) : (seqNext s q).openN = s.openN := rfl
@[simp] theorem seqNext_timers (s : State) (q : Nat) : (seqNext s q).timers = s.timers := rfl
@[simp] theorem seqNext_links (s : State) (q : Nat) : (seqNext s q).links = s.links := rfl
@[simp] theorem seqNext_units (s : State) (q : Nat) : (seqNext s q).units = s.units := rfl
@[simp] theorem seqNext_orders (s : State) (q : Nat) : (seqNext s q).orders = s.orders := rfl
@[simp] theorem seqNext_sess (s : State) (q : Nat) : (seqNext s q).sess = s.sess := rfl
@[simp] theorem seqNext_irqs (s : State) (q : Nat) : (seqNext s q).irqs = s.irqs := rfl
@[simp] theorem seqNext_free (s : State) (q : Nat) : (seqNext s q).free = s.free := rfl
@[simp] theorem fireArms_pending (s : State) (d : Nat) (l : List Nat) : (fireArms s d l).pending = s.pending := rfl
@[simp] theorem fireArms_partA6 (s : State) (d : Nat) (l : List Nat) : (fireArms s d l).partA6 = s.partA6 := rfl
@[simp] theorem fireArms_tainted (s : State) (d : Nat) (l : List Nat) : (fireArms s d l).tainted = s.tainted := rfl
@[simp] theorem fireArms_beacon (s : State) (d : Nat) (l : List Nat) : (fireArms s d l).beacon = s.beacon := rfl
@[simp] theorem fireArms_epoch (s : State) (d : Nat) (l : List Nat) : (fireArms s d l).epoch = s.epoch := rfl
@[simp] theorem fireArms_pwr (s : State) (d : Nat) (l : List Nat) : (fireArms s d l).pwr = s.pwr := rfl
@[simp] theorem fireArms_mem (s : State) (d : Nat) (l : List Nat) : (fireArms s d l).mem = s.mem := rfl
@[simp] theorem fireArms_objs (s : State) (d : Nat) (l : List Nat) : (fireArms s d l).objs = s.objs := rfl
@[simp] theorem fireArms_seqs (s : State) (d : Nat) (l : List Nat) : (fireArms s d l).seqs = s.seqs := rfl
@[simp] theorem fireArms_ops (s : State) (d : Nat) (l : List Nat) : (fireArms s d l).ops = s.ops := rfl
@[simp] theorem fireArms_evt (s : State) (d : Nat) (l : List Nat) : (fireArms s d l).evt = s.evt := rfl
@[simp] theorem fireArms_steps (s : State) (d : Nat) (l : List Nat) : (fireArms s d l).steps = s.steps := rfl
@[simp] theorem fireArms_commitN (s : State) (d : Nat) (l : List Nat) : (fireArms s d l).commitN = s.commitN := rfl
@[simp] theorem fireArms_openN (s : State) (d : Nat) (l : List Nat) : (fireArms s d l).openN = s.openN := rfl
@[simp] theorem fireArms_timers (s : State) (d : Nat) (l : List Nat) : (fireArms s d l).timers = s.timers := rfl
@[simp] theorem fireArms_links (s : State) (d : Nat) (l : List Nat) : (fireArms s d l).links = s.links := rfl
@[simp] theorem fireArms_units (s : State) (d : Nat) (l : List Nat) : (fireArms s d l).units = s.units := rfl
@[simp] theorem fireArms_orders (s : State) (d : Nat) (l : List Nat) : (fireArms s d l).orders = s.orders := rfl
@[simp] theorem fireArms_sess (s : State) (d : Nat) (l : List Nat) : (fireArms s d l).sess = s.sess := rfl
@[simp] theorem fireArms_free (s : State) (d : Nat) (l : List Nat) : (fireArms s d l).free = s.free := rfl
@[simp] theorem objPut_pending (s : State) (d i : Nat) (v : Word) : (objPut s d i v).pending = s.pending := rfl
@[simp] theorem objPut_partA6 (s : State) (d i : Nat) (v : Word) : (objPut s d i v).partA6 = s.partA6 := rfl
@[simp] theorem objPut_tainted (s : State) (d i : Nat) (v : Word) : (objPut s d i v).tainted = s.tainted := rfl
@[simp] theorem objPut_beacon (s : State) (d i : Nat) (v : Word) : (objPut s d i v).beacon = s.beacon := rfl
@[simp] theorem objPut_epoch (s : State) (d i : Nat) (v : Word) : (objPut s d i v).epoch = s.epoch := rfl
@[simp] theorem objPut_pwr (s : State) (d i : Nat) (v : Word) : (objPut s d i v).pwr = s.pwr := rfl
@[simp] theorem objPut_mem (s : State) (d i : Nat) (v : Word) : (objPut s d i v).mem = s.mem := rfl
@[simp] theorem objPut_seqs (s : State) (d i : Nat) (v : Word) : (objPut s d i v).seqs = s.seqs := rfl
@[simp] theorem objPut_ops (s : State) (d i : Nat) (v : Word) : (objPut s d i v).ops = s.ops := rfl
@[simp] theorem objPut_evt (s : State) (d i : Nat) (v : Word) : (objPut s d i v).evt = s.evt := rfl
@[simp] theorem objPut_steps (s : State) (d i : Nat) (v : Word) : (objPut s d i v).steps = s.steps := rfl
@[simp] theorem objPut_commitN (s : State) (d i : Nat) (v : Word) : (objPut s d i v).commitN = s.commitN := rfl
@[simp] theorem objPut_openN (s : State) (d i : Nat) (v : Word) : (objPut s d i v).openN = s.openN := rfl
@[simp] theorem objPut_timers (s : State) (d i : Nat) (v : Word) : (objPut s d i v).timers = s.timers := rfl
@[simp] theorem objPut_links (s : State) (d i : Nat) (v : Word) : (objPut s d i v).links = s.links := rfl
@[simp] theorem objPut_units (s : State) (d i : Nat) (v : Word) : (objPut s d i v).units = s.units := rfl
@[simp] theorem objPut_orders (s : State) (d i : Nat) (v : Word) : (objPut s d i v).orders = s.orders := rfl
@[simp] theorem objPut_sess (s : State) (d i : Nat) (v : Word) : (objPut s d i v).sess = s.sess := rfl
@[simp] theorem objPut_free (s : State) (d i : Nat) (v : Word) : (objPut s d i v).free = s.free := rfl
@[simp] theorem objAdd_pending (s : State) (d i n : Nat) : (objAdd s d i n).pending = s.pending := rfl
@[simp] theorem objAdd_partA6 (s : State) (d i n : Nat) : (objAdd s d i n).partA6 = s.partA6 := rfl
@[simp] theorem objAdd_tainted (s : State) (d i n : Nat) : (objAdd s d i n).tainted = s.tainted := rfl
@[simp] theorem objAdd_beacon (s : State) (d i n : Nat) : (objAdd s d i n).beacon = s.beacon := rfl
@[simp] theorem objAdd_epoch (s : State) (d i n : Nat) : (objAdd s d i n).epoch = s.epoch := rfl
@[simp] theorem objAdd_pwr (s : State) (d i n : Nat) : (objAdd s d i n).pwr = s.pwr := rfl
@[simp] theorem objAdd_mem (s : State) (d i n : Nat) : (objAdd s d i n).mem = s.mem := rfl
@[simp] theorem objAdd_seqs (s : State) (d i n : Nat) : (objAdd s d i n).seqs = s.seqs := rfl
@[simp] theorem objAdd_ops (s : State) (d i n : Nat) : (objAdd s d i n).ops = s.ops := rfl
@[simp] theorem objAdd_evt (s : State) (d i n : Nat) : (objAdd s d i n).evt = s.evt := rfl
@[simp] theorem objAdd_steps (s : State) (d i n : Nat) : (objAdd s d i n).steps = s.steps := rfl
@[simp] theorem objAdd_commitN (s : State) (d i n : Nat) : (objAdd s d i n).commitN = s.commitN := rfl
@[simp] theorem objAdd_openN (s : State) (d i n : Nat) : (objAdd s d i n).openN = s.openN := rfl
@[simp] theorem objAdd_timers (s : State) (d i n : Nat) : (objAdd s d i n).timers = s.timers := rfl
@[simp] theorem objAdd_links (s : State) (d i n : Nat) : (objAdd s d i n).links = s.links := rfl
@[simp] theorem objAdd_units (s : State) (d i n : Nat) : (objAdd s d i n).units = s.units := rfl
@[simp] theorem objAdd_orders (s : State) (d i n : Nat) : (objAdd s d i n).orders = s.orders := rfl
@[simp] theorem objAdd_sess (s : State) (d i n : Nat) : (objAdd s d i n).sess = s.sess := rfl
@[simp] theorem objAdd_free (s : State) (d i n : Nat) : (objAdd s d i n).free = s.free := rfl
@[simp] theorem wrBytes_pending (s : State) (a : Nat) (l : List Byte) : (wrBytes s a l).pending = s.pending := rfl
@[simp] theorem wrBytes_partA6 (s : State) (a : Nat) (l : List Byte) : (wrBytes s a l).partA6 = s.partA6 := rfl
@[simp] theorem wrBytes_tainted (s : State) (a : Nat) (l : List Byte) : (wrBytes s a l).tainted = s.tainted := rfl
@[simp] theorem wrBytes_beacon (s : State) (a : Nat) (l : List Byte) : (wrBytes s a l).beacon = s.beacon := rfl
@[simp] theorem wrBytes_epoch (s : State) (a : Nat) (l : List Byte) : (wrBytes s a l).epoch = s.epoch := rfl
@[simp] theorem wrBytes_pwr (s : State) (a : Nat) (l : List Byte) : (wrBytes s a l).pwr = s.pwr := rfl
@[simp] theorem wrBytes_regs (s : State) (a : Nat) (l : List Byte) : (wrBytes s a l).regs = s.regs := rfl
@[simp] theorem wrBytes_objs (s : State) (a : Nat) (l : List Byte) : (wrBytes s a l).objs = s.objs := rfl
@[simp] theorem wrBytes_seqs (s : State) (a : Nat) (l : List Byte) : (wrBytes s a l).seqs = s.seqs := rfl
@[simp] theorem wrBytes_ops (s : State) (a : Nat) (l : List Byte) : (wrBytes s a l).ops = s.ops := rfl
@[simp] theorem wrBytes_evt (s : State) (a : Nat) (l : List Byte) : (wrBytes s a l).evt = s.evt := rfl
@[simp] theorem wrBytes_steps (s : State) (a : Nat) (l : List Byte) : (wrBytes s a l).steps = s.steps := rfl
@[simp] theorem wrBytes_commitN (s : State) (a : Nat) (l : List Byte) : (wrBytes s a l).commitN = s.commitN := rfl
@[simp] theorem wrBytes_openN (s : State) (a : Nat) (l : List Byte) : (wrBytes s a l).openN = s.openN := rfl
@[simp] theorem wrBytes_timers (s : State) (a : Nat) (l : List Byte) : (wrBytes s a l).timers = s.timers := rfl
@[simp] theorem wrBytes_links (s : State) (a : Nat) (l : List Byte) : (wrBytes s a l).links = s.links := rfl
@[simp] theorem wrBytes_units (s : State) (a : Nat) (l : List Byte) : (wrBytes s a l).units = s.units := rfl
@[simp] theorem wrBytes_orders (s : State) (a : Nat) (l : List Byte) : (wrBytes s a l).orders = s.orders := rfl
@[simp] theorem wrBytes_sess (s : State) (a : Nat) (l : List Byte) : (wrBytes s a l).sess = s.sess := rfl
@[simp] theorem wrBytes_irqs (s : State) (a : Nat) (l : List Byte) : (wrBytes s a l).irqs = s.irqs := rfl
@[simp] theorem wrBytes_free (s : State) (a : Nat) (l : List Byte) : (wrBytes s a l).free = s.free := rfl
@[simp] theorem wrLE_pending (s : State) (a n v : Nat) : (wrLE s a n v).pending = s.pending := rfl
@[simp] theorem wrLE_partA6 (s : State) (a n v : Nat) : (wrLE s a n v).partA6 = s.partA6 := rfl
@[simp] theorem wrLE_tainted (s : State) (a n v : Nat) : (wrLE s a n v).tainted = s.tainted := rfl
@[simp] theorem wrLE_beacon (s : State) (a n v : Nat) : (wrLE s a n v).beacon = s.beacon := rfl
@[simp] theorem wrLE_epoch (s : State) (a n v : Nat) : (wrLE s a n v).epoch = s.epoch := rfl
@[simp] theorem wrLE_pwr (s : State) (a n v : Nat) : (wrLE s a n v).pwr = s.pwr := rfl
@[simp] theorem wrLE_regs (s : State) (a n v : Nat) : (wrLE s a n v).regs = s.regs := rfl
@[simp] theorem wrLE_objs (s : State) (a n v : Nat) : (wrLE s a n v).objs = s.objs := rfl
@[simp] theorem wrLE_seqs (s : State) (a n v : Nat) : (wrLE s a n v).seqs = s.seqs := rfl
@[simp] theorem wrLE_ops (s : State) (a n v : Nat) : (wrLE s a n v).ops = s.ops := rfl
@[simp] theorem wrLE_evt (s : State) (a n v : Nat) : (wrLE s a n v).evt = s.evt := rfl
@[simp] theorem wrLE_steps (s : State) (a n v : Nat) : (wrLE s a n v).steps = s.steps := rfl
@[simp] theorem wrLE_commitN (s : State) (a n v : Nat) : (wrLE s a n v).commitN = s.commitN := rfl
@[simp] theorem wrLE_openN (s : State) (a n v : Nat) : (wrLE s a n v).openN = s.openN := rfl
@[simp] theorem wrLE_timers (s : State) (a n v : Nat) : (wrLE s a n v).timers = s.timers := rfl
@[simp] theorem wrLE_links (s : State) (a n v : Nat) : (wrLE s a n v).links = s.links := rfl
@[simp] theorem wrLE_units (s : State) (a n v : Nat) : (wrLE s a n v).units = s.units := rfl
@[simp] theorem wrLE_orders (s : State) (a n v : Nat) : (wrLE s a n v).orders = s.orders := rfl
@[simp] theorem wrLE_sess (s : State) (a n v : Nat) : (wrLE s a n v).sess = s.sess := rfl
@[simp] theorem wrLE_irqs (s : State) (a n v : Nat) : (wrLE s a n v).irqs = s.irqs := rfl
@[simp] theorem wrLE_free (s : State) (a n v : Nat) : (wrLE s a n v).free = s.free := rfl
@[simp] theorem memWr_pending (s : State) (a : Nat) (l : List Byte) : (memWr s a l).pending = s.pending := rfl
@[simp] theorem memWr_partA6 (s : State) (a : Nat) (l : List Byte) : (memWr s a l).partA6 = s.partA6 := rfl
@[simp] theorem memWr_tainted (s : State) (a : Nat) (l : List Byte) : (memWr s a l).tainted = s.tainted := rfl
@[simp] theorem memWr_beacon (s : State) (a : Nat) (l : List Byte) : (memWr s a l).beacon = s.beacon := rfl
@[simp] theorem memWr_epoch (s : State) (a : Nat) (l : List Byte) : (memWr s a l).epoch = s.epoch := rfl
@[simp] theorem memWr_pwr (s : State) (a : Nat) (l : List Byte) : (memWr s a l).pwr = s.pwr := rfl
@[simp] theorem memWr_regs (s : State) (a : Nat) (l : List Byte) : (memWr s a l).regs = s.regs := rfl
@[simp] theorem memWr_objs (s : State) (a : Nat) (l : List Byte) : (memWr s a l).objs = s.objs := rfl
@[simp] theorem memWr_seqs (s : State) (a : Nat) (l : List Byte) : (memWr s a l).seqs = s.seqs := rfl
@[simp] theorem memWr_ops (s : State) (a : Nat) (l : List Byte) : (memWr s a l).ops = s.ops := rfl
@[simp] theorem memWr_evt (s : State) (a : Nat) (l : List Byte) : (memWr s a l).evt = s.evt := rfl
@[simp] theorem memWr_steps (s : State) (a : Nat) (l : List Byte) : (memWr s a l).steps = s.steps := rfl
@[simp] theorem memWr_commitN (s : State) (a : Nat) (l : List Byte) : (memWr s a l).commitN = s.commitN := rfl
@[simp] theorem memWr_openN (s : State) (a : Nat) (l : List Byte) : (memWr s a l).openN = s.openN := rfl
@[simp] theorem memWr_timers (s : State) (a : Nat) (l : List Byte) : (memWr s a l).timers = s.timers := rfl
@[simp] theorem memWr_links (s : State) (a : Nat) (l : List Byte) : (memWr s a l).links = s.links := rfl
@[simp] theorem memWr_units (s : State) (a : Nat) (l : List Byte) : (memWr s a l).units = s.units := rfl
@[simp] theorem memWr_orders (s : State) (a : Nat) (l : List Byte) : (memWr s a l).orders = s.orders := rfl
@[simp] theorem memWr_sess (s : State) (a : Nat) (l : List Byte) : (memWr s a l).sess = s.sess := rfl
@[simp] theorem memWr_irqs (s : State) (a : Nat) (l : List Byte) : (memWr s a l).irqs = s.irqs := rfl
@[simp] theorem memWr_free (s : State) (a : Nat) (l : List Byte) : (memWr s a l).free = s.free := rfl
@[simp] theorem unpoison_pending (s : State) (a n : Nat) : (unpoison s a n).pending = s.pending := rfl
@[simp] theorem unpoison_partA6 (s : State) (a n : Nat) : (unpoison s a n).partA6 = s.partA6 := rfl
@[simp] theorem unpoison_tainted (s : State) (a n : Nat) : (unpoison s a n).tainted = s.tainted := rfl
@[simp] theorem unpoison_beacon (s : State) (a n : Nat) : (unpoison s a n).beacon = s.beacon := rfl
@[simp] theorem unpoison_epoch (s : State) (a n : Nat) : (unpoison s a n).epoch = s.epoch := rfl
@[simp] theorem unpoison_pwr (s : State) (a n : Nat) : (unpoison s a n).pwr = s.pwr := rfl
@[simp] theorem unpoison_mem (s : State) (a n : Nat) : (unpoison s a n).mem = s.mem := rfl
@[simp] theorem unpoison_regs (s : State) (a n : Nat) : (unpoison s a n).regs = s.regs := rfl
@[simp] theorem unpoison_objs (s : State) (a n : Nat) : (unpoison s a n).objs = s.objs := rfl
@[simp] theorem unpoison_seqs (s : State) (a n : Nat) : (unpoison s a n).seqs = s.seqs := rfl
@[simp] theorem unpoison_ops (s : State) (a n : Nat) : (unpoison s a n).ops = s.ops := rfl
@[simp] theorem unpoison_evt (s : State) (a n : Nat) : (unpoison s a n).evt = s.evt := rfl
@[simp] theorem unpoison_steps (s : State) (a n : Nat) : (unpoison s a n).steps = s.steps := rfl
@[simp] theorem unpoison_commitN (s : State) (a n : Nat) : (unpoison s a n).commitN = s.commitN := rfl
@[simp] theorem unpoison_openN (s : State) (a n : Nat) : (unpoison s a n).openN = s.openN := rfl
@[simp] theorem unpoison_timers (s : State) (a n : Nat) : (unpoison s a n).timers = s.timers := rfl
@[simp] theorem unpoison_links (s : State) (a n : Nat) : (unpoison s a n).links = s.links := rfl
@[simp] theorem unpoison_units (s : State) (a n : Nat) : (unpoison s a n).units = s.units := rfl
@[simp] theorem unpoison_orders (s : State) (a n : Nat) : (unpoison s a n).orders = s.orders := rfl
@[simp] theorem unpoison_sess (s : State) (a n : Nat) : (unpoison s a n).sess = s.sess := rfl
@[simp] theorem unpoison_irqs (s : State) (a n : Nat) : (unpoison s a n).irqs = s.irqs := rfl
@[simp] theorem unpoison_free (s : State) (a n : Nat) : (unpoison s a n).free = s.free := rfl
@[simp] theorem setLink_pending (s : State) (l : Nat) (x : Lnk) : (setLink s l x).pending = s.pending := rfl
@[simp] theorem setLink_partA6 (s : State) (l : Nat) (x : Lnk) : (setLink s l x).partA6 = s.partA6 := rfl
@[simp] theorem setLink_tainted (s : State) (l : Nat) (x : Lnk) : (setLink s l x).tainted = s.tainted := rfl
@[simp] theorem setLink_beacon (s : State) (l : Nat) (x : Lnk) : (setLink s l x).beacon = s.beacon := rfl
@[simp] theorem setLink_epoch (s : State) (l : Nat) (x : Lnk) : (setLink s l x).epoch = s.epoch := rfl
@[simp] theorem setLink_pwr (s : State) (l : Nat) (x : Lnk) : (setLink s l x).pwr = s.pwr := rfl
@[simp] theorem setLink_mem (s : State) (l : Nat) (x : Lnk) : (setLink s l x).mem = s.mem := rfl
@[simp] theorem setLink_regs (s : State) (l : Nat) (x : Lnk) : (setLink s l x).regs = s.regs := rfl
@[simp] theorem setLink_objs (s : State) (l : Nat) (x : Lnk) : (setLink s l x).objs = s.objs := rfl
@[simp] theorem setLink_seqs (s : State) (l : Nat) (x : Lnk) : (setLink s l x).seqs = s.seqs := rfl
@[simp] theorem setLink_ops (s : State) (l : Nat) (x : Lnk) : (setLink s l x).ops = s.ops := rfl
@[simp] theorem setLink_evt (s : State) (l : Nat) (x : Lnk) : (setLink s l x).evt = s.evt := rfl
@[simp] theorem setLink_steps (s : State) (l : Nat) (x : Lnk) : (setLink s l x).steps = s.steps := rfl
@[simp] theorem setLink_commitN (s : State) (l : Nat) (x : Lnk) : (setLink s l x).commitN = s.commitN := rfl
@[simp] theorem setLink_openN (s : State) (l : Nat) (x : Lnk) : (setLink s l x).openN = s.openN := rfl
@[simp] theorem setLink_timers (s : State) (l : Nat) (x : Lnk) : (setLink s l x).timers = s.timers := rfl
@[simp] theorem setLink_units (s : State) (l : Nat) (x : Lnk) : (setLink s l x).units = s.units := rfl
@[simp] theorem setLink_orders (s : State) (l : Nat) (x : Lnk) : (setLink s l x).orders = s.orders := rfl
@[simp] theorem setLink_sess (s : State) (l : Nat) (x : Lnk) : (setLink s l x).sess = s.sess := rfl
@[simp] theorem setLink_irqs (s : State) (l : Nat) (x : Lnk) : (setLink s l x).irqs = s.irqs := rfl
@[simp] theorem setLink_free (s : State) (l : Nat) (x : Lnk) : (setLink s l x).free = s.free := rfl
@[simp] theorem tmArm_pending (s : State) (t : Tmr) (d : Nat) : (tmArm s t d).pending = s.pending := rfl
@[simp] theorem tmArm_partA6 (s : State) (t : Tmr) (d : Nat) : (tmArm s t d).partA6 = s.partA6 := rfl
@[simp] theorem tmArm_tainted (s : State) (t : Tmr) (d : Nat) : (tmArm s t d).tainted = s.tainted := rfl
@[simp] theorem tmArm_beacon (s : State) (t : Tmr) (d : Nat) : (tmArm s t d).beacon = s.beacon := rfl
@[simp] theorem tmArm_epoch (s : State) (t : Tmr) (d : Nat) : (tmArm s t d).epoch = s.epoch := rfl
@[simp] theorem tmArm_pwr (s : State) (t : Tmr) (d : Nat) : (tmArm s t d).pwr = s.pwr := rfl
@[simp] theorem tmArm_mem (s : State) (t : Tmr) (d : Nat) : (tmArm s t d).mem = s.mem := rfl
@[simp] theorem tmArm_regs (s : State) (t : Tmr) (d : Nat) : (tmArm s t d).regs = s.regs := rfl
@[simp] theorem tmArm_objs (s : State) (t : Tmr) (d : Nat) : (tmArm s t d).objs = s.objs := rfl
@[simp] theorem tmArm_seqs (s : State) (t : Tmr) (d : Nat) : (tmArm s t d).seqs = s.seqs := rfl
@[simp] theorem tmArm_ops (s : State) (t : Tmr) (d : Nat) : (tmArm s t d).ops = s.ops := rfl
@[simp] theorem tmArm_evt (s : State) (t : Tmr) (d : Nat) : (tmArm s t d).evt = s.evt := rfl
@[simp] theorem tmArm_steps (s : State) (t : Tmr) (d : Nat) : (tmArm s t d).steps = s.steps := rfl
@[simp] theorem tmArm_commitN (s : State) (t : Tmr) (d : Nat) : (tmArm s t d).commitN = s.commitN := rfl
@[simp] theorem tmArm_openN (s : State) (t : Tmr) (d : Nat) : (tmArm s t d).openN = s.openN := rfl
@[simp] theorem tmArm_links (s : State) (t : Tmr) (d : Nat) : (tmArm s t d).links = s.links := rfl
@[simp] theorem tmArm_units (s : State) (t : Tmr) (d : Nat) : (tmArm s t d).units = s.units := rfl
@[simp] theorem tmArm_orders (s : State) (t : Tmr) (d : Nat) : (tmArm s t d).orders = s.orders := rfl
@[simp] theorem tmArm_sess (s : State) (t : Tmr) (d : Nat) : (tmArm s t d).sess = s.sess := rfl
@[simp] theorem tmArm_irqs (s : State) (t : Tmr) (d : Nat) : (tmArm s t d).irqs = s.irqs := rfl
@[simp] theorem tmArm_free (s : State) (t : Tmr) (d : Nat) : (tmArm s t d).free = s.free := rfl
@[simp] theorem tmOff_pending (s : State) (t : Tmr) : (tmOff s t).pending = s.pending := rfl
@[simp] theorem tmOff_partA6 (s : State) (t : Tmr) : (tmOff s t).partA6 = s.partA6 := rfl
@[simp] theorem tmOff_tainted (s : State) (t : Tmr) : (tmOff s t).tainted = s.tainted := rfl
@[simp] theorem tmOff_beacon (s : State) (t : Tmr) : (tmOff s t).beacon = s.beacon := rfl
@[simp] theorem tmOff_epoch (s : State) (t : Tmr) : (tmOff s t).epoch = s.epoch := rfl
@[simp] theorem tmOff_pwr (s : State) (t : Tmr) : (tmOff s t).pwr = s.pwr := rfl
@[simp] theorem tmOff_mem (s : State) (t : Tmr) : (tmOff s t).mem = s.mem := rfl
@[simp] theorem tmOff_regs (s : State) (t : Tmr) : (tmOff s t).regs = s.regs := rfl
@[simp] theorem tmOff_objs (s : State) (t : Tmr) : (tmOff s t).objs = s.objs := rfl
@[simp] theorem tmOff_seqs (s : State) (t : Tmr) : (tmOff s t).seqs = s.seqs := rfl
@[simp] theorem tmOff_ops (s : State) (t : Tmr) : (tmOff s t).ops = s.ops := rfl
@[simp] theorem tmOff_evt (s : State) (t : Tmr) : (tmOff s t).evt = s.evt := rfl
@[simp] theorem tmOff_steps (s : State) (t : Tmr) : (tmOff s t).steps = s.steps := rfl
@[simp] theorem tmOff_commitN (s : State) (t : Tmr) : (tmOff s t).commitN = s.commitN := rfl
@[simp] theorem tmOff_openN (s : State) (t : Tmr) : (tmOff s t).openN = s.openN := rfl
@[simp] theorem tmOff_links (s : State) (t : Tmr) : (tmOff s t).links = s.links := rfl
@[simp] theorem tmOff_units (s : State) (t : Tmr) : (tmOff s t).units = s.units := rfl
@[simp] theorem tmOff_orders (s : State) (t : Tmr) : (tmOff s t).orders = s.orders := rfl
@[simp] theorem tmOff_sess (s : State) (t : Tmr) : (tmOff s t).sess = s.sess := rfl
@[simp] theorem tmOff_irqs (s : State) (t : Tmr) : (tmOff s t).irqs = s.irqs := rfl
@[simp] theorem tmOff_free (s : State) (t : Tmr) : (tmOff s t).free = s.free := rfl
@[simp] theorem setUnit_pending (s : State) (rg u : Nat) (r : UnitRec) : (setUnit s rg u r).pending = s.pending := rfl
@[simp] theorem setUnit_partA6 (s : State) (rg u : Nat) (r : UnitRec) : (setUnit s rg u r).partA6 = s.partA6 := rfl
@[simp] theorem setUnit_tainted (s : State) (rg u : Nat) (r : UnitRec) : (setUnit s rg u r).tainted = s.tainted := rfl
@[simp] theorem setUnit_beacon (s : State) (rg u : Nat) (r : UnitRec) : (setUnit s rg u r).beacon = s.beacon := rfl
@[simp] theorem setUnit_epoch (s : State) (rg u : Nat) (r : UnitRec) : (setUnit s rg u r).epoch = s.epoch := rfl
@[simp] theorem setUnit_pwr (s : State) (rg u : Nat) (r : UnitRec) : (setUnit s rg u r).pwr = s.pwr := rfl
@[simp] theorem setUnit_mem (s : State) (rg u : Nat) (r : UnitRec) : (setUnit s rg u r).mem = s.mem := rfl
@[simp] theorem setUnit_regs (s : State) (rg u : Nat) (r : UnitRec) : (setUnit s rg u r).regs = s.regs := rfl
@[simp] theorem setUnit_objs (s : State) (rg u : Nat) (r : UnitRec) : (setUnit s rg u r).objs = s.objs := rfl
@[simp] theorem setUnit_seqs (s : State) (rg u : Nat) (r : UnitRec) : (setUnit s rg u r).seqs = s.seqs := rfl
@[simp] theorem setUnit_ops (s : State) (rg u : Nat) (r : UnitRec) : (setUnit s rg u r).ops = s.ops := rfl
@[simp] theorem setUnit_evt (s : State) (rg u : Nat) (r : UnitRec) : (setUnit s rg u r).evt = s.evt := rfl
@[simp] theorem setUnit_steps (s : State) (rg u : Nat) (r : UnitRec) : (setUnit s rg u r).steps = s.steps := rfl
@[simp] theorem setUnit_commitN (s : State) (rg u : Nat) (r : UnitRec) : (setUnit s rg u r).commitN = s.commitN := rfl
@[simp] theorem setUnit_openN (s : State) (rg u : Nat) (r : UnitRec) : (setUnit s rg u r).openN = s.openN := rfl
@[simp] theorem setUnit_timers (s : State) (rg u : Nat) (r : UnitRec) : (setUnit s rg u r).timers = s.timers := rfl
@[simp] theorem setUnit_links (s : State) (rg u : Nat) (r : UnitRec) : (setUnit s rg u r).links = s.links := rfl
@[simp] theorem setUnit_orders (s : State) (rg u : Nat) (r : UnitRec) : (setUnit s rg u r).orders = s.orders := rfl
@[simp] theorem setUnit_sess (s : State) (rg u : Nat) (r : UnitRec) : (setUnit s rg u r).sess = s.sess := rfl
@[simp] theorem setUnit_irqs (s : State) (rg u : Nat) (r : UnitRec) : (setUnit s rg u r).irqs = s.irqs := rfl
@[simp] theorem setUnit_free (s : State) (rg u : Nat) (r : UnitRec) : (setUnit s rg u r).free = s.free := rfl
@[simp] theorem setOp_pending (s : State) (o : EngOp) : (setOp s o).pending = s.pending := rfl
@[simp] theorem setOp_partA6 (s : State) (o : EngOp) : (setOp s o).partA6 = s.partA6 := rfl
@[simp] theorem setOp_tainted (s : State) (o : EngOp) : (setOp s o).tainted = s.tainted := rfl
@[simp] theorem setOp_beacon (s : State) (o : EngOp) : (setOp s o).beacon = s.beacon := rfl
@[simp] theorem setOp_epoch (s : State) (o : EngOp) : (setOp s o).epoch = s.epoch := rfl
@[simp] theorem setOp_pwr (s : State) (o : EngOp) : (setOp s o).pwr = s.pwr := rfl
@[simp] theorem setOp_mem (s : State) (o : EngOp) : (setOp s o).mem = s.mem := rfl
@[simp] theorem setOp_regs (s : State) (o : EngOp) : (setOp s o).regs = s.regs := rfl
@[simp] theorem setOp_objs (s : State) (o : EngOp) : (setOp s o).objs = s.objs := rfl
@[simp] theorem setOp_seqs (s : State) (o : EngOp) : (setOp s o).seqs = s.seqs := rfl
@[simp] theorem setOp_evt (s : State) (o : EngOp) : (setOp s o).evt = s.evt := rfl
@[simp] theorem setOp_steps (s : State) (o : EngOp) : (setOp s o).steps = s.steps := rfl
@[simp] theorem setOp_commitN (s : State) (o : EngOp) : (setOp s o).commitN = s.commitN := rfl
@[simp] theorem setOp_openN (s : State) (o : EngOp) : (setOp s o).openN = s.openN := rfl
@[simp] theorem setOp_timers (s : State) (o : EngOp) : (setOp s o).timers = s.timers := rfl
@[simp] theorem setOp_links (s : State) (o : EngOp) : (setOp s o).links = s.links := rfl
@[simp] theorem setOp_units (s : State) (o : EngOp) : (setOp s o).units = s.units := rfl
@[simp] theorem setOp_orders (s : State) (o : EngOp) : (setOp s o).orders = s.orders := rfl
@[simp] theorem setOp_sess (s : State) (o : EngOp) : (setOp s o).sess = s.sess := rfl
@[simp] theorem setOp_irqs (s : State) (o : EngOp) : (setOp s o).irqs = s.irqs := rfl
@[simp] theorem setOp_free (s : State) (o : EngOp) : (setOp s o).free = s.free := rfl
@[simp] theorem dropOp_pending (s : State) (n : Nat) : (dropOp s n).pending = s.pending := rfl
@[simp] theorem dropOp_partA6 (s : State) (n : Nat) : (dropOp s n).partA6 = s.partA6 := rfl
@[simp] theorem dropOp_tainted (s : State) (n : Nat) : (dropOp s n).tainted = s.tainted := rfl
@[simp] theorem dropOp_beacon (s : State) (n : Nat) : (dropOp s n).beacon = s.beacon := rfl
@[simp] theorem dropOp_epoch (s : State) (n : Nat) : (dropOp s n).epoch = s.epoch := rfl
@[simp] theorem dropOp_pwr (s : State) (n : Nat) : (dropOp s n).pwr = s.pwr := rfl
@[simp] theorem dropOp_mem (s : State) (n : Nat) : (dropOp s n).mem = s.mem := rfl
@[simp] theorem dropOp_regs (s : State) (n : Nat) : (dropOp s n).regs = s.regs := rfl
@[simp] theorem dropOp_objs (s : State) (n : Nat) : (dropOp s n).objs = s.objs := rfl
@[simp] theorem dropOp_seqs (s : State) (n : Nat) : (dropOp s n).seqs = s.seqs := rfl
@[simp] theorem dropOp_evt (s : State) (n : Nat) : (dropOp s n).evt = s.evt := rfl
@[simp] theorem dropOp_steps (s : State) (n : Nat) : (dropOp s n).steps = s.steps := rfl
@[simp] theorem dropOp_commitN (s : State) (n : Nat) : (dropOp s n).commitN = s.commitN := rfl
@[simp] theorem dropOp_openN (s : State) (n : Nat) : (dropOp s n).openN = s.openN := rfl
@[simp] theorem dropOp_timers (s : State) (n : Nat) : (dropOp s n).timers = s.timers := rfl
@[simp] theorem dropOp_links (s : State) (n : Nat) : (dropOp s n).links = s.links := rfl
@[simp] theorem dropOp_units (s : State) (n : Nat) : (dropOp s n).units = s.units := rfl
@[simp] theorem dropOp_orders (s : State) (n : Nat) : (dropOp s n).orders = s.orders := rfl
@[simp] theorem dropOp_sess (s : State) (n : Nat) : (dropOp s n).sess = s.sess := rfl
@[simp] theorem dropOp_irqs (s : State) (n : Nat) : (dropOp s n).irqs = s.irqs := rfl
@[simp] theorem dropOp_free (s : State) (n : Nat) : (dropOp s n).free = s.free := rfl
@[simp] theorem updStep_pending (s : State) (n : Nat) (f : StepRec → StepRec) : (updStep s n f).pending = s.pending := rfl
@[simp] theorem updStep_partA6 (s : State) (n : Nat) (f : StepRec → StepRec) : (updStep s n f).partA6 = s.partA6 := rfl
@[simp] theorem updStep_tainted (s : State) (n : Nat) (f : StepRec → StepRec) : (updStep s n f).tainted = s.tainted := rfl
@[simp] theorem updStep_beacon (s : State) (n : Nat) (f : StepRec → StepRec) : (updStep s n f).beacon = s.beacon := rfl
@[simp] theorem updStep_epoch (s : State) (n : Nat) (f : StepRec → StepRec) : (updStep s n f).epoch = s.epoch := rfl
@[simp] theorem updStep_pwr (s : State) (n : Nat) (f : StepRec → StepRec) : (updStep s n f).pwr = s.pwr := rfl
@[simp] theorem updStep_mem (s : State) (n : Nat) (f : StepRec → StepRec) : (updStep s n f).mem = s.mem := rfl
@[simp] theorem updStep_regs (s : State) (n : Nat) (f : StepRec → StepRec) : (updStep s n f).regs = s.regs := rfl
@[simp] theorem updStep_objs (s : State) (n : Nat) (f : StepRec → StepRec) : (updStep s n f).objs = s.objs := rfl
@[simp] theorem updStep_seqs (s : State) (n : Nat) (f : StepRec → StepRec) : (updStep s n f).seqs = s.seqs := rfl
@[simp] theorem updStep_ops (s : State) (n : Nat) (f : StepRec → StepRec) : (updStep s n f).ops = s.ops := rfl
@[simp] theorem updStep_evt (s : State) (n : Nat) (f : StepRec → StepRec) : (updStep s n f).evt = s.evt := rfl
@[simp] theorem updStep_commitN (s : State) (n : Nat) (f : StepRec → StepRec) : (updStep s n f).commitN = s.commitN := rfl
@[simp] theorem updStep_openN (s : State) (n : Nat) (f : StepRec → StepRec) : (updStep s n f).openN = s.openN := rfl
@[simp] theorem updStep_timers (s : State) (n : Nat) (f : StepRec → StepRec) : (updStep s n f).timers = s.timers := rfl
@[simp] theorem updStep_links (s : State) (n : Nat) (f : StepRec → StepRec) : (updStep s n f).links = s.links := rfl
@[simp] theorem updStep_units (s : State) (n : Nat) (f : StepRec → StepRec) : (updStep s n f).units = s.units := rfl
@[simp] theorem updStep_orders (s : State) (n : Nat) (f : StepRec → StepRec) : (updStep s n f).orders = s.orders := rfl
@[simp] theorem updStep_sess (s : State) (n : Nat) (f : StepRec → StepRec) : (updStep s n f).sess = s.sess := rfl
@[simp] theorem updStep_irqs (s : State) (n : Nat) (f : StepRec → StepRec) : (updStep s n f).irqs = s.irqs := rfl
@[simp] theorem updStep_free (s : State) (n : Nat) (f : StepRec → StepRec) : (updStep s n f).free = s.free := rfl
@[simp] theorem setOrder_pending (s : State) (o : Order) : (setOrder s o).pending = s.pending := rfl
@[simp] theorem setOrder_partA6 (s : State) (o : Order) : (setOrder s o).partA6 = s.partA6 := rfl
@[simp] theorem setOrder_tainted (s : State) (o : Order) : (setOrder s o).tainted = s.tainted := rfl
@[simp] theorem setOrder_beacon (s : State) (o : Order) : (setOrder s o).beacon = s.beacon := rfl
@[simp] theorem setOrder_epoch (s : State) (o : Order) : (setOrder s o).epoch = s.epoch := rfl
@[simp] theorem setOrder_pwr (s : State) (o : Order) : (setOrder s o).pwr = s.pwr := rfl
@[simp] theorem setOrder_mem (s : State) (o : Order) : (setOrder s o).mem = s.mem := rfl
@[simp] theorem setOrder_regs (s : State) (o : Order) : (setOrder s o).regs = s.regs := rfl
@[simp] theorem setOrder_objs (s : State) (o : Order) : (setOrder s o).objs = s.objs := rfl
@[simp] theorem setOrder_seqs (s : State) (o : Order) : (setOrder s o).seqs = s.seqs := rfl
@[simp] theorem setOrder_ops (s : State) (o : Order) : (setOrder s o).ops = s.ops := rfl
@[simp] theorem setOrder_evt (s : State) (o : Order) : (setOrder s o).evt = s.evt := rfl
@[simp] theorem setOrder_steps (s : State) (o : Order) : (setOrder s o).steps = s.steps := rfl
@[simp] theorem setOrder_commitN (s : State) (o : Order) : (setOrder s o).commitN = s.commitN := rfl
@[simp] theorem setOrder_openN (s : State) (o : Order) : (setOrder s o).openN = s.openN := rfl
@[simp] theorem setOrder_timers (s : State) (o : Order) : (setOrder s o).timers = s.timers := rfl
@[simp] theorem setOrder_links (s : State) (o : Order) : (setOrder s o).links = s.links := rfl
@[simp] theorem setOrder_units (s : State) (o : Order) : (setOrder s o).units = s.units := rfl
@[simp] theorem setOrder_sess (s : State) (o : Order) : (setOrder s o).sess = s.sess := rfl
@[simp] theorem setOrder_irqs (s : State) (o : Order) : (setOrder s o).irqs = s.irqs := rfl
@[simp] theorem setOrder_free (s : State) (o : Order) : (setOrder s o).free = s.free := rfl
@[simp] theorem setBulk_pending (s : State) (b : Bulk) : (setBulk s b).pending = s.pending := rfl
@[simp] theorem setBulk_partA6 (s : State) (b : Bulk) : (setBulk s b).partA6 = s.partA6 := rfl
@[simp] theorem setBulk_tainted (s : State) (b : Bulk) : (setBulk s b).tainted = s.tainted := rfl
@[simp] theorem setBulk_beacon (s : State) (b : Bulk) : (setBulk s b).beacon = s.beacon := rfl
@[simp] theorem setBulk_epoch (s : State) (b : Bulk) : (setBulk s b).epoch = s.epoch := rfl
@[simp] theorem setBulk_pwr (s : State) (b : Bulk) : (setBulk s b).pwr = s.pwr := rfl
@[simp] theorem setBulk_mem (s : State) (b : Bulk) : (setBulk s b).mem = s.mem := rfl
@[simp] theorem setBulk_regs (s : State) (b : Bulk) : (setBulk s b).regs = s.regs := rfl
@[simp] theorem setBulk_objs (s : State) (b : Bulk) : (setBulk s b).objs = s.objs := rfl
@[simp] theorem setBulk_seqs (s : State) (b : Bulk) : (setBulk s b).seqs = s.seqs := rfl
@[simp] theorem setBulk_ops (s : State) (b : Bulk) : (setBulk s b).ops = s.ops := rfl
@[simp] theorem setBulk_evt (s : State) (b : Bulk) : (setBulk s b).evt = s.evt := rfl
@[simp] theorem setBulk_steps (s : State) (b : Bulk) : (setBulk s b).steps = s.steps := rfl
@[simp] theorem setBulk_commitN (s : State) (b : Bulk) : (setBulk s b).commitN = s.commitN := rfl
@[simp] theorem setBulk_openN (s : State) (b : Bulk) : (setBulk s b).openN = s.openN := rfl
@[simp] theorem setBulk_timers (s : State) (b : Bulk) : (setBulk s b).timers = s.timers := rfl
@[simp] theorem setBulk_links (s : State) (b : Bulk) : (setBulk s b).links = s.links := rfl
@[simp] theorem setBulk_units (s : State) (b : Bulk) : (setBulk s b).units = s.units := rfl
@[simp] theorem setBulk_orders (s : State) (b : Bulk) : (setBulk s b).orders = s.orders := rfl
@[simp] theorem setBulk_sess (s : State) (b : Bulk) : (setBulk s b).sess = s.sess := rfl
@[simp] theorem setBulk_irqs (s : State) (b : Bulk) : (setBulk s b).irqs = s.irqs := rfl
@[simp] theorem setBulk_free (s : State) (b : Bulk) : (setBulk s b).free = s.free := rfl
@[simp] theorem setPageSet_pending (s : State) (t : Nat) (p : PageSet) : (setPageSet s t p).pending = s.pending := rfl
@[simp] theorem setPageSet_partA6 (s : State) (t : Nat) (p : PageSet) : (setPageSet s t p).partA6 = s.partA6 := rfl
@[simp] theorem setPageSet_tainted (s : State) (t : Nat) (p : PageSet) : (setPageSet s t p).tainted = s.tainted := rfl
@[simp] theorem setPageSet_beacon (s : State) (t : Nat) (p : PageSet) : (setPageSet s t p).beacon = s.beacon := rfl
@[simp] theorem setPageSet_epoch (s : State) (t : Nat) (p : PageSet) : (setPageSet s t p).epoch = s.epoch := rfl
@[simp] theorem setPageSet_pwr (s : State) (t : Nat) (p : PageSet) : (setPageSet s t p).pwr = s.pwr := rfl
@[simp] theorem setPageSet_mem (s : State) (t : Nat) (p : PageSet) : (setPageSet s t p).mem = s.mem := rfl
@[simp] theorem setPageSet_regs (s : State) (t : Nat) (p : PageSet) : (setPageSet s t p).regs = s.regs := rfl
@[simp] theorem setPageSet_objs (s : State) (t : Nat) (p : PageSet) : (setPageSet s t p).objs = s.objs := rfl
@[simp] theorem setPageSet_seqs (s : State) (t : Nat) (p : PageSet) : (setPageSet s t p).seqs = s.seqs := rfl
@[simp] theorem setPageSet_ops (s : State) (t : Nat) (p : PageSet) : (setPageSet s t p).ops = s.ops := rfl
@[simp] theorem setPageSet_evt (s : State) (t : Nat) (p : PageSet) : (setPageSet s t p).evt = s.evt := rfl
@[simp] theorem setPageSet_steps (s : State) (t : Nat) (p : PageSet) : (setPageSet s t p).steps = s.steps := rfl
@[simp] theorem setPageSet_commitN (s : State) (t : Nat) (p : PageSet) : (setPageSet s t p).commitN = s.commitN := rfl
@[simp] theorem setPageSet_openN (s : State) (t : Nat) (p : PageSet) : (setPageSet s t p).openN = s.openN := rfl
@[simp] theorem setPageSet_timers (s : State) (t : Nat) (p : PageSet) : (setPageSet s t p).timers = s.timers := rfl
@[simp] theorem setPageSet_links (s : State) (t : Nat) (p : PageSet) : (setPageSet s t p).links = s.links := rfl
@[simp] theorem setPageSet_units (s : State) (t : Nat) (p : PageSet) : (setPageSet s t p).units = s.units := rfl
@[simp] theorem setPageSet_orders (s : State) (t : Nat) (p : PageSet) : (setPageSet s t p).orders = s.orders := rfl
@[simp] theorem setPageSet_sess (s : State) (t : Nat) (p : PageSet) : (setPageSet s t p).sess = s.sess := rfl
@[simp] theorem setPageSet_irqs (s : State) (t : Nat) (p : PageSet) : (setPageSet s t p).irqs = s.irqs := rfl
@[simp] theorem setPageSet_free (s : State) (t : Nat) (p : PageSet) : (setPageSet s t p).free = s.free := rfl
@[simp] theorem corePut_pending (s : State) (p : Path) (r : CoreResult) : (corePut s p r).pending = s.pending := rfl
@[simp] theorem corePut_partA6 (s : State) (p : Path) (r : CoreResult) : (corePut s p r).partA6 = s.partA6 := rfl
@[simp] theorem corePut_tainted (s : State) (p : Path) (r : CoreResult) : (corePut s p r).tainted = s.tainted := rfl
@[simp] theorem corePut_beacon (s : State) (p : Path) (r : CoreResult) : (corePut s p r).beacon = s.beacon := rfl
@[simp] theorem corePut_epoch (s : State) (p : Path) (r : CoreResult) : (corePut s p r).epoch = s.epoch := rfl
@[simp] theorem corePut_pwr (s : State) (p : Path) (r : CoreResult) : (corePut s p r).pwr = s.pwr := rfl
@[simp] theorem corePut_mem (s : State) (p : Path) (r : CoreResult) : (corePut s p r).mem = s.mem := rfl
@[simp] theorem corePut_regs (s : State) (p : Path) (r : CoreResult) : (corePut s p r).regs = s.regs := rfl
@[simp] theorem corePut_objs (s : State) (p : Path) (r : CoreResult) : (corePut s p r).objs = s.objs := rfl
@[simp] theorem corePut_seqs (s : State) (p : Path) (r : CoreResult) : (corePut s p r).seqs = s.seqs := rfl
@[simp] theorem corePut_ops (s : State) (p : Path) (r : CoreResult) : (corePut s p r).ops = s.ops := rfl
@[simp] theorem corePut_evt (s : State) (p : Path) (r : CoreResult) : (corePut s p r).evt = s.evt := rfl
@[simp] theorem corePut_steps (s : State) (p : Path) (r : CoreResult) : (corePut s p r).steps = s.steps := rfl
@[simp] theorem corePut_commitN (s : State) (p : Path) (r : CoreResult) : (corePut s p r).commitN = s.commitN := rfl
@[simp] theorem corePut_openN (s : State) (p : Path) (r : CoreResult) : (corePut s p r).openN = s.openN := rfl
@[simp] theorem corePut_timers (s : State) (p : Path) (r : CoreResult) : (corePut s p r).timers = s.timers := rfl
@[simp] theorem corePut_links (s : State) (p : Path) (r : CoreResult) : (corePut s p r).links = s.links := rfl
@[simp] theorem corePut_units (s : State) (p : Path) (r : CoreResult) : (corePut s p r).units = s.units := rfl
@[simp] theorem corePut_orders (s : State) (p : Path) (r : CoreResult) : (corePut s p r).orders = s.orders := rfl
@[simp] theorem corePut_sess (s : State) (p : Path) (r : CoreResult) : (corePut s p r).sess = s.sess := rfl
@[simp] theorem corePut_irqs (s : State) (p : Path) (r : CoreResult) : (corePut s p r).irqs = s.irqs := rfl
@[simp] theorem corePut_free (s : State) (p : Path) (r : CoreResult) : (corePut s p r).free = s.free := rfl

end Sys2Proof.Machine
end

