-- ==== Sys2Proof/Laws/Cache.lean ====
section
/-! SUPPORT. What an access past or through the caches can change: counters and the lines the caches hold (R257, R258). -/
namespace Sys2Proof.Machine

/-- A reading of the state that neither registers nor cache lines enter. -/
def Aside {α : Type} (f : State → α) : Prop :=
  (∀ (s : State) (b : Blk) (o : Nat) (v : Word), f (setReg s b o v) = f s) ∧
    ∀ (s : State) (c : SMap (List CLine)), f { s with cache := c } = f s

variable {α : Type} {f : State → α}

theorem aside_foldl {β : Type} {g : State → β → State} (h : ∀ s x, f (g s x) = f s) (l : List β) (s : State) :
    f (l.foldl g s) = f s := by
  induction l generalizing s with
  | nil => rfl
  | cons x l ih => exact (ih _).trans (h s x)

theorem cnt64_aside (hf : Aside f) (s : State) (b : Blk) (o n : Nat) : f (cnt64 s b o n) = f s := by
  unfold cnt64
  exact (hf.1 ..).trans (hf.1 ..)

theorem ctrlBytes_aside (hf : Aside f) (s : State) (a n : Nat) (wr : Bool) : f (ctrlBytes s a n wr) = f s := by
  unfold ctrlBytes
  split
  · exact cnt64_aside hf ..
  · rfl

theorem cacheLine_aside (hf : Aside f) (rg hint a n : Nat) (wr : Bool) (s : State) (l : Nat) :
    f (cacheLine rg hint a n wr s l) = f s := by
  unfold cacheLine
  dsimp only
  generalize hu : cnt64 (cnt64 _ _ _ _) _ _ _ = u
  have h : f u = f s := by
    subst hu
    exact (cnt64_aside hf ..).trans ((cnt64_aside hf ..).trans (hf.2 s _))
  clear hu
  split <;> (first | refine (ctrlBytes_aside hf ..).trans ?_ | skip) <;> split <;> (try split) <;>
    first
    | exact h
    | exact (ctrlBytes_aside hf ..).trans h

theorem invalidateRgn_aside (hf : Aside f) (a n : Nat) (s : State) (rg : Nat) : f (invalidateRgn a n s rg) = f s := by
  unfold invalidateRgn
  dsimp only
  split
  · rfl
  · generalize hu : List.foldl _ _ _ = u
    have h : f u = f s := by
      subst hu
      exact aside_foldl (fun _ _ => ctrlBytes_aside hf ..) _ s
    exact (hf.2 u _).trans h

/-- An access changes counters and cache lines only. -/
theorem traffic_aside (hf : Aside f) (s : State) (rg : Option Nat) (hint a n : Nat) (wr : Bool) :
    f (traffic s rg hint a n wr) = f s := by
  unfold traffic
  split
  · rfl
  · dsimp only
    have h : f (if wr then invalidate s rg a n else s) = f s := by
      split
      · exact aside_foldl (invalidateRgn_aside hf a n) _ s
      · rfl
    split
    · exact (aside_foldl (cacheLine_aside hf _ hint a n wr) _ _).trans h
    · exact (ctrlBytes_aside hf ..).trans h

/-- The fetch of a word changes counters, cache lines and the draw counter only. -/
theorem fetched_aside (hf : Aside f) (hd : ∀ (s : State) (n : Nat), f { s with free := n } = f s) (s : State) (q : Nat) :
    f (fetched s q) = f s := by
  unfold fetched
  dsimp only
  split
  · rfl
  · split
    · exact hd s _
    · exact (traffic_aside hf ..).trans (hd s _)

theorem fetched_mem (s : State) (q : Nat) : (fetched s q).mem = s.mem :=
  fetched_aside (f := State.mem) ⟨fun _ _ _ _ => rfl, fun _ _ => rfl⟩ (fun _ _ => rfl) s q
theorem fetched_objs (s : State) (q : Nat) : (fetched s q).objs = s.objs :=
  fetched_aside (f := State.objs) ⟨fun _ _ _ _ => rfl, fun _ _ => rfl⟩ (fun _ _ => rfl) s q
theorem fetched_seqs (s : State) (q : Nat) : (fetched s q).seqs = s.seqs :=
  fetched_aside (f := State.seqs) ⟨fun _ _ _ _ => rfl, fun _ _ => rfl⟩ (fun _ _ => rfl) s q
theorem fetched_evt (s : State) (q : Nat) : (fetched s q).evt = s.evt :=
  fetched_aside (f := State.evt) ⟨fun _ _ _ _ => rfl, fun _ _ => rfl⟩ (fun _ _ => rfl) s q
theorem fetched_beacon (s : State) (q : Nat) : (fetched s q).beacon = s.beacon :=
  fetched_aside (f := State.beacon) ⟨fun _ _ _ _ => rfl, fun _ _ => rfl⟩ (fun _ _ => rfl) s q
theorem fetched_epoch (s : State) (q : Nat) : (fetched s q).epoch = s.epoch :=
  fetched_aside (f := State.epoch) ⟨fun _ _ _ _ => rfl, fun _ _ => rfl⟩ (fun _ _ => rfl) s q

theorem readP_aside (hn : ∀ (s : State) (m : SMap Seq) (r : SMap Word) (t : List StepRec),
    f { s with seqs := m, regs := r, steps := t } = f s) (s : State) (q n : Nat) : f (readP s q n) = f s := by
  unfold readP setNdet
  split
  · split
    · exact hn s _ _ _
    · rfl
  · rfl

theorem taken_beacon (s : State) (q : Nat) (w : PtiWord) : (taken s q w).beacon = s.beacon :=
  (readP_aside (f := State.beacon) (fun _ _ _ _ => rfl) _ q _).trans (fetched_beacon s q)
theorem taken_epoch (s : State) (q : Nat) (w : PtiWord) : (taken s q w).epoch = s.epoch :=
  (readP_aside (f := State.epoch) (fun _ _ _ _ => rfl) _ q _).trans (fetched_epoch s q)
theorem taken_mem (s : State) (q : Nat) (w : PtiWord) : (taken s q w).mem = s.mem :=
  (readP_aside (f := State.mem) (fun _ _ _ _ => rfl) _ q _).trans (fetched_mem s q)
theorem taken_objs (s : State) (q : Nat) (w : PtiWord) : (taken s q w).objs = s.objs :=
  (readP_aside (f := State.objs) (fun _ _ _ _ => rfl) _ q _).trans (fetched_objs s q)
theorem taken_evt (s : State) (q : Nat) (w : PtiWord) : (taken s q w).evt = s.evt :=
  (readP_aside (f := State.evt) (fun _ _ _ _ => rfl) _ q _).trans (fetched_evt s q)
theorem taken_pwr (s : State) (q : Nat) (w : PtiWord) : (taken s q w).pwr = s.pwr :=
  (readP_aside (f := State.pwr) (fun _ _ _ _ => rfl) _ q _).trans
    (fetched_aside (f := State.pwr) ⟨fun _ _ _ _ => rfl, fun _ _ => rfl⟩ (fun _ _ => rfl) s q)
theorem taken_ops (s : State) (q : Nat) (w : PtiWord) : (taken s q w).ops = s.ops :=
  (readP_aside (f := State.ops) (fun _ _ _ _ => rfl) _ q _).trans
    (fetched_aside (f := State.ops) ⟨fun _ _ _ _ => rfl, fun _ _ => rfl⟩ (fun _ _ => rfl) s q)
theorem taken_gangReq (s : State) (q : Nat) (w : PtiWord) : (taken s q w).gangReq = s.gangReq :=
  (readP_aside (f := State.gangReq) (fun _ _ _ _ => rfl) _ q _).trans
    (fetched_aside (f := State.gangReq) ⟨fun _ _ _ _ => rfl, fun _ _ => rfl⟩ (fun _ _ => rfl) s q)

end Sys2Proof.Machine
end

