-- ==== Sys2Proof/Laws/Keeps.lean ====
section
/-! SUPPORT. What every operation of the module keeps: the queue, the part, and the canonical form of memory, registers, sync
objects and sequencers. `Keeps z t` says it of a state t reached from z; here it is proved of an update of the state, and of the
ways in which operations are put together. -/
namespace Sys2Proof.Machine

/-- The queue and the part are as before, and canonical forms stay. -/
def Keeps (z t : State) : Prop := t.pending = z.pending ∧ t.partA6 = z.partA6 ∧ (Canon z → Canon t)

theorem Keeps.refl (s : State) : Keeps s s := ⟨rfl, rfl, id⟩

theorem Keeps.trans {z s t : State} (h : Keeps z s) (k : Keeps s t) : Keeps z t :=
  ⟨k.1.trans h.1, k.2.1.trans h.2.1, fun c => k.2.2 (h.2.2 c)⟩

theorem keeps_mk {z t : State} (h : Keeps z t) {x0 : BitVec 4} {x1 : BitVec 4} {x2 : Nat} {x3 : List Nat} {x4 :
    List EngOp} {x5 : Nat} {x6 : SMap Nat} {x7 : List HeldSig} {x8 : Evt} {x9 : List PageSet} {x10 : SMap (List
    CLine)} {x11 : Nat} {x12 : Nat} {x13 : Nat} {x14 : Nat} {x15 : Nat} {x16 : List StepRec} {x17 : List (Nat × Nat
    × Nat)} {x18 : SMap (Option (Nat × Word))} {x19 : Bool} {x20 : Bool} {x21 : Scl} {x22 : List Nat} {x23 : Nat ×
    Option Nat} {x24 : List (Nat × Nat × Nat)} {x25 : List (Path × CoreResult)} {x26 : SMap Lnk} {x27 : E2e} {x28 :
    Xlat} {x29 : List (Owner × Nat)} {x30 : List ReadReq} {x31 : Nat} {x32 : List Frame} {x33 : List Coll} {x34 :
    List Frame} {x35 : Agl} {x36 : Option (Nat × List Byte)} {x37 : Agree} {x38 : List (Tmr × Nat)} {x39 : Option
    Nat} {x40 : Nat} {x41 : Nat} {x42 : List (Path × Nat)} {x43 : List Nat} {x44 : SMap CeRate} {x45 : Flk} {x46 :
    SMap Thr} {x47 : Mig} {x48 : Bool} {x49 : SMap UnitRec} {x50 : SMap BandRec} {x51 : List Nat} {x52 : List
    Frame} {x53 : SMap (List OwnerEnt)} {x54 : List Comb} {x55 : Nat} {x56 : Option Nat} {x57 : Fold} {x58 : Fold}
    {x59 : Fold} {x60 : Option Nat} {x61 : Bool} {x62 : BitVec 5} {x63 : Option Nat} {x64 : Option Nat} {x65 : Nat}
    {x66 : Nat} {x67 : Nat} {x68 : List Nat} {x69 : List Nat} {x70 : List Bundle} {x71 : Nat} {x72 : List (Nat ×
    Fold)} {x73 : List (Nat × Fold)} {x74 : Option Nat} {x75 : Bool} {x76 : List Cert} {x77 : List PrismRef} {x78 :
    Option Sess} {x79 : List Order} {x80 : Nat} {x81 : List (Nat × List Byte)} {x82 : List CwtOut} {x83 : Nat} {x84
    : List Bulk} {x85 : List BulkObj} {x86 : Option Snap} {x87 : List (Nat × Nat)} {x88 : Bool} {x89 : Option Nat}
    {x90 : Option Nat} {x91 : Nat} {x92 : List SinkEnt} {x93 : List (List Byte)} {x94 : Bool} {x95 : Option Rst}
    {x96 : Mgmt} {x97 : Word} {x98 : Nat} {x99 : Bool} {x100 : PwrSt} {x101 : SMap PrismSt} {x102 : SMap Nat} {x103 :
    Word} {x104 : Word} {x105 : Word} {x106 : List (Word × Word × Word)} {x107 : List Cart} {x108 : Bool} {x109 :
    List (Nat × Nat)} {x110 : List (Nat × Nat)} {x111 : List CwtOut} {x112 : List EthMsg} {x113 : List (Option
    Osfp)} {x114 : Option Snap} {x115 : Nat} {x116 : Bool} {x117 : Nat} {x118 : Nat} {x119 : Pwr} {x120 : Sec}
    {x121 : Bool} {x122 : Nat} {x123 : List Nat} {x124 : Option Bundle} {x125 : Bool} {x126 : Bool} {x127 : List
    Blk} {x128 : Nat} : Keeps z { t with
    dies := x0, diePower := x1, beacon := x2, poison := x3, ops := x4, opNo := x5, rr := x6, sigs := x7, evt := x8,
    pages := x9, cache := x10, aglGiB := x11, reflN := x12, commitN := x13, openN := x14, epoch := x15, steps
    := x16, ovrSeen := x17, latches := x18, stopIssue := x19, holdIssue := x20, scl := x21, hlthW := x22, hlthSent
    := x23, irqs := x24, coreOut := x25, links := x26, e2e := x27, xlat := x28, ostat := x29, reads := x30, readTag
    := x31, hubIn := x32, colls := x33, voteIn := x34, agl := x35, lastSeal := x36, agree := x37, timers := x38,
    heldOpen := x39, drainMs := x40, voteMs := x41, resv := x42, badWr := x43, ceRate := x44, flk := x45, thr
    := x46, mig := x47, dualOn := x48, units := x49, bands := x50, gangReq := x51, collIn := x52, owners := x53,
    combs := x54, foldK := x55, foldGrp := x56, foldA := x57, foldB := x58, foldR := x59, foldBusy := x60, chkPend
    := x61, updPend := x62, buddy := x63, ward := x64, lateMs := x65, certSec := x66, certRetry := x67, updWait
    := x68, frameWaitSeen := x69, bundles := x70, reflDone := x71, reflWard := x72, reflGot := x73, foldPassed
    := x74, resyncing := x75, certs := x76, prisms := x77, sess := x78, orders := x79, orderNo := x80, compl
    := x81, cwtOut := x82, hostSent := x83, bulks := x84, objects := x85, snap := x86, snapLeft := x87, deferAuto
    := x88, snapReq := x89, snapDefer := x90, ckptJob := x91, ckptSinks := x92, ckptTrust := x93, ckptPend := x94,
    rst := x95, mgmt := x96, prismCtl := x97, prismSeed := x98, eclipsed := x99, pwr := x100, prismSt := x101,
    prismClk := x102, cwtCfg := x103, cwtWin := x104, cwtTmr := x105, ethCfg := x106, carts := x107, tripped
    := x108, retired := x109, pfc := x110, cwtHeld := x111, ethOut := x112, osfp := x113, rsnap := x114, keyNo
    := x115, resyncOut := x116, resyncAt := x117, reflMark := x118, pw := x119, sec := x120, epochHold := x121,
    ovfCount := x122, ethBuf := x123, lastBundle := x124, wardNew := x125, buddyNew := x126, tainted := x127, free
    := x128 } := h

theorem keeps_mk_eq {z t : State} {x0 : BitVec 4} {x1 : BitVec 4} {x2 : Nat} {x3 : List Nat} {x4 : List EngOp} {x5
    : Nat} {x6 : SMap Nat} {x7 : List HeldSig} {x8 : Evt} {x9 : List PageSet} {x10 : SMap (List CLine)} {x11 : Nat}
    {x12 : Nat} {x13 : Nat} {x14 : Nat} {x15 : Nat} {x16 : List StepRec} {x17 : List (Nat × Nat × Nat)} {x18 : SMap
    (Option (Nat × Word))} {x19 : Bool} {x20 : Bool} {x21 : Scl} {x22 : List Nat} {x23 : Nat × Option Nat} {x24 :
    List (Nat × Nat × Nat)} {x25 : List (Path × CoreResult)} {x26 : SMap Lnk} {x27 : E2e} {x28 : Xlat} {x29 : List
    (Owner × Nat)} {x30 : List ReadReq} {x31 : Nat} {x32 : List Frame} {x33 : List Coll} {x34 : List Frame} {x35 :
    Agl} {x36 : Option (Nat × List Byte)} {x37 : Agree} {x38 : List (Tmr × Nat)} {x39 : Option Nat} {x40 : Nat}
    {x41 : Nat} {x42 : List (Path × Nat)} {x43 : List Nat} {x44 : SMap CeRate} {x45 : Flk} {x46 : SMap Thr} {x47 :
    Mig} {x48 : Bool} {x49 : SMap UnitRec} {x50 : SMap BandRec} {x51 : List Nat} {x52 : List Frame} {x53 : SMap
    (List OwnerEnt)} {x54 : List Comb} {x55 : Nat} {x56 : Option Nat} {x57 : Fold} {x58 : Fold} {x59 : Fold} {x60 :
    Option Nat} {x61 : Bool} {x62 : BitVec 5} {x63 : Option Nat} {x64 : Option Nat} {x65 : Nat} {x66 : Nat} {x67 :
    Nat} {x68 : List Nat} {x69 : List Nat} {x70 : List Bundle} {x71 : Nat} {x72 : List (Nat × Fold)} {x73 : List
    (Nat × Fold)} {x74 : Option Nat} {x75 : Bool} {x76 : List Cert} {x77 : List PrismRef} {x78 : Option Sess} {x79
    : List Order} {x80 : Nat} {x81 : List (Nat × List Byte)} {x82 : List CwtOut} {x83 : Nat} {x84 : List Bulk} {x85
    : List BulkObj} {x86 : Option Snap} {x87 : List (Nat × Nat)} {x88 : Bool} {x89 : Option Nat} {x90 : Option Nat}
    {x91 : Nat} {x92 : List SinkEnt} {x93 : List (List Byte)} {x94 : Bool} {x95 : Option Rst} {x96 : Mgmt} {x97 :
    Word} {x98 : Nat} {x99 : Bool} {x100 : PwrSt} {x101 : SMap PrismSt} {x102 : SMap Nat} {x103 : Word} {x104 : Word}
    {x105 : Word} {x106 : List (Word × Word × Word)} {x107 : List Cart} {x108 : Bool} {x109 : List (Nat × Nat)}
    {x110 : List (Nat × Nat)} {x111 : List CwtOut} {x112 : List EthMsg} {x113 : List (Option Osfp)} {x114 : Option
    Snap} {x115 : Nat} {x116 : Bool} {x117 : Nat} {x118 : Nat} {x119 : Pwr} {x120 : Sec} {x121 : Bool} {x122 : Nat}
    {x123 : List Nat} {x124 : Option Bundle} {x125 : Bool} {x126 : Bool} {x127 : List Blk} {x128 : Nat} : Keeps z {
    t with
    dies := x0, diePower := x1, beacon := x2, poison := x3, ops := x4, opNo := x5, rr := x6, sigs := x7, evt := x8,
    pages := x9, cache := x10, aglGiB := x11, reflN := x12, commitN := x13, openN := x14, epoch := x15, steps
    := x16, ovrSeen := x17, latches := x18, stopIssue := x19, holdIssue := x20, scl := x21, hlthW := x22, hlthSent
    := x23, irqs := x24, coreOut := x25, links := x26, e2e := x27, xlat := x28, ostat := x29, reads := x30, readTag
    := x31, hubIn := x32, colls := x33, voteIn := x34, agl := x35, lastSeal := x36, agree := x37, timers := x38,
    heldOpen := x39, drainMs := x40, voteMs := x41, resv := x42, badWr := x43, ceRate := x44, flk := x45, thr
    := x46, mig := x47, dualOn := x48, units := x49, bands := x50, gangReq := x51, collIn := x52, owners := x53,
    combs := x54, foldK := x55, foldGrp := x56, foldA := x57, foldB := x58, foldR := x59, foldBusy := x60, chkPend
    := x61, updPend := x62, buddy := x63, ward := x64, lateMs := x65, certSec := x66, certRetry := x67, updWait
    := x68, frameWaitSeen := x69, bundles := x70, reflDone := x71, reflWard := x72, reflGot := x73, foldPassed
    := x74, resyncing := x75, certs := x76, prisms := x77, sess := x78, orders := x79, orderNo := x80, compl
    := x81, cwtOut := x82, hostSent := x83, bulks := x84, objects := x85, snap := x86, snapLeft := x87, deferAuto
    := x88, snapReq := x89, snapDefer := x90, ckptJob := x91, ckptSinks := x92, ckptTrust := x93, ckptPend := x94,
    rst := x95, mgmt := x96, prismCtl := x97, prismSeed := x98, eclipsed := x99, pwr := x100, prismSt := x101,
    prismClk := x102, cwtCfg := x103, cwtWin := x104, cwtTmr := x105, ethCfg := x106, carts := x107, tripped
    := x108, retired := x109, pfc := x110, cwtHeld := x111, ethOut := x112, osfp := x113, rsnap := x114, keyNo
    := x115, resyncOut := x116, resyncAt := x117, reflMark := x118, pw := x119, sec := x120, epochHold := x121,
    ovfCount := x122, ethBuf := x123, lastBundle := x124, wardNew := x125, buddyNew := x126, tainted := x127, free
    := x128 } = Keeps z t := propext ⟨fun h => h, fun h => h⟩

theorem keeps_mk_all {z t : State} (h : Keeps z t) {m : SMap Byte} {r ob : SMap Word} {sq : SMap Seq} {x0 : BitVec
    4} {x1 : BitVec 4} {x2 : Nat} {x3 : List Nat} {x4 : List EngOp} {x5 : Nat} {x6 : SMap Nat} {x7 : List HeldSig}
    {x8 : Evt} {x9 : List PageSet} {x10 : SMap (List CLine)} {x11 : Nat} {x12 : Nat} {x13 : Nat} {x14 : Nat} {x15 :
    Nat} {x16 : List StepRec} {x17 : List (Nat × Nat × Nat)} {x18 : SMap (Option (Nat × Word))} {x19 : Bool} {x20 :
    Bool} {x21 : Scl} {x22 : List Nat} {x23 : Nat × Option Nat} {x24 : List (Nat × Nat × Nat)} {x25 : List (Path ×
    CoreResult)} {x26 : SMap Lnk} {x27 : E2e} {x28 : Xlat} {x29 : List (Owner × Nat)} {x30 : List ReadReq} {x31 :
    Nat} {x32 : List Frame} {x33 : List Coll} {x34 : List Frame} {x35 : Agl} {x36 : Option (Nat × List Byte)} {x37
    : Agree} {x38 : List (Tmr × Nat)} {x39 : Option Nat} {x40 : Nat} {x41 : Nat} {x42 : List (Path × Nat)} {x43 :
    List Nat} {x44 : SMap CeRate} {x45 : Flk} {x46 : SMap Thr} {x47 : Mig} {x48 : Bool} {x49 : SMap UnitRec} {x50 :
    SMap BandRec} {x51 : List Nat} {x52 : List Frame} {x53 : SMap (List OwnerEnt)} {x54 : List Comb} {x55 : Nat}
    {x56 : Option Nat} {x57 : Fold} {x58 : Fold} {x59 : Fold} {x60 : Option Nat} {x61 : Bool} {x62 : BitVec 5} {x63
    : Option Nat} {x64 : Option Nat} {x65 : Nat} {x66 : Nat} {x67 : Nat} {x68 : List Nat} {x69 : List Nat} {x70 :
    List Bundle} {x71 : Nat} {x72 : List (Nat × Fold)} {x73 : List (Nat × Fold)} {x74 : Option Nat} {x75 : Bool}
    {x76 : List Cert} {x77 : List PrismRef} {x78 : Option Sess} {x79 : List Order} {x80 : Nat} {x81 : List (Nat ×
    List Byte)} {x82 : List CwtOut} {x83 : Nat} {x84 : List Bulk} {x85 : List BulkObj} {x86 : Option Snap} {x87 :
    List (Nat × Nat)} {x88 : Bool} {x89 : Option Nat} {x90 : Option Nat} {x91 : Nat} {x92 : List SinkEnt} {x93 :
    List (List Byte)} {x94 : Bool} {x95 : Option Rst} {x96 : Mgmt} {x97 : Word} {x98 : Nat} {x99 : Bool} {x100 :
    PwrSt} {x101 : SMap PrismSt} {x102 : SMap Nat} {x103 : Word} {x104 : Word} {x105 : Word} {x106 : List (Word × Word ×
    Word)} {x107 : List Cart} {x108 : Bool} {x109 : List (Nat × Nat)} {x110 : List (Nat × Nat)} {x111 : List
    CwtOut} {x112 : List EthMsg} {x113 : List (Option Osfp)} {x114 : Option Snap} {x115 : Nat} {x116 : Bool} {x117
    : Nat} {x118 : Nat} {x119 : Pwr} {x120 : Sec} {x121 : Bool} {x122 : Nat} {x123 : List Nat} {x124 : Option
    Bundle} {x125 : Bool} {x126 : Bool} {x127 : List Blk} {x128 : Nat} (hm : smWf memDef t.mem = true → smWf memDef
    m = true) (hr : smWf regRst t.regs = true → smWf regRst r = true) (ho : smWf (fun _ => (0 : Word)) t.objs =
    true → smWf (fun _ => (0 : Word)) ob = true) (hq : smWf (fun _ => Seq.reset) t.seqs = true → smWf (fun _ =>
    Seq.reset) sq = true) : Keeps z { t with
    mem := m, regs := r, objs := ob, seqs := sq, dies := x0, diePower := x1, beacon := x2, poison := x3, ops := x4,
    opNo := x5, rr := x6, sigs := x7, evt := x8, pages := x9, cache := x10, aglGiB := x11, reflN := x12, commitN
    := x13, openN := x14, epoch := x15, steps := x16, ovrSeen := x17, latches := x18, stopIssue := x19, holdIssue
    := x20, scl := x21, hlthW := x22, hlthSent := x23, irqs := x24, coreOut := x25, links := x26, e2e := x27, xlat
    := x28, ostat := x29, reads := x30, readTag := x31, hubIn := x32, colls := x33, voteIn := x34, agl := x35,
    lastSeal := x36, agree := x37, timers := x38, heldOpen := x39, drainMs := x40, voteMs := x41, resv := x42,
    badWr := x43, ceRate := x44, flk := x45, thr := x46, mig := x47, dualOn := x48, units := x49, bands := x50,
    gangReq := x51, collIn := x52, owners := x53, combs := x54, foldK := x55, foldGrp := x56, foldA := x57, foldB
    := x58, foldR := x59, foldBusy := x60, chkPend := x61, updPend := x62, buddy := x63, ward := x64, lateMs
    := x65, certSec := x66, certRetry := x67, updWait := x68, frameWaitSeen := x69, bundles := x70, reflDone
    := x71, reflWard := x72, reflGot := x73, foldPassed := x74, resyncing := x75, certs := x76, prisms := x77, sess
    := x78, orders := x79, orderNo := x80, compl := x81, cwtOut := x82, hostSent := x83, bulks := x84, objects
    := x85, snap := x86, snapLeft := x87, deferAuto := x88, snapReq := x89, snapDefer := x90, ckptJob := x91,
    ckptSinks := x92, ckptTrust := x93, ckptPend := x94, rst := x95, mgmt := x96, prismCtl := x97, prismSeed
    := x98, eclipsed := x99, pwr := x100, prismSt := x101, prismClk := x102, cwtCfg := x103, cwtWin := x104, cwtTmr
    := x105, ethCfg := x106, carts := x107, tripped := x108, retired := x109, pfc := x110, cwtHeld := x111, ethOut
    := x112, osfp := x113, rsnap := x114, keyNo := x115, resyncOut := x116, resyncAt := x117, reflMark := x118, pw
    := x119, sec := x120, epochHold := x121, ovfCount := x122, ethBuf := x123, lastBundle := x124, wardNew := x125,
    buddyNew := x126, tainted := x127, free := x128 } := ⟨h.1, h.2.1, fun c => have k := h.2.2 c; ⟨hm k.1, hr
    k.2.1, ho k.2.2.1, hq k.2.2.2⟩⟩

theorem keeps_fst {α : Type} {z t : State} {a : α} {p : State × α} (e : p = (t, a)) (h : Keeps z p.1) : Keeps z t := by
  subst e; exact h

theorem keeps_gen {z x : State} {P : Prop} (h : Keeps z x) (k : Keeps z x → P) : P := k h

theorem keeps_gen_fst {α : Type} {z : State} {x : State × α} {P : Prop} (h : Keeps z x.1) (k : Keeps z x.1 → P) : P := k h

theorem keeps_foldl {α : Type} {z : State} {f : State → α → State} (hf : ∀ t a, Keeps z t → Keeps z (f t a))
    (l : List α) {s : State} (h : Keeps z s) : Keeps z (l.foldl f s) := by
  induction l generalizing s with
  | nil => exact h
  | cons a r ih => exact ih (hf s a h)

theorem keeps_foldl_fst {α β : Type} {z : State} {f : State × β → α → State × β}
    (hf : ∀ (p : State × β) a, Keeps z p.1 → Keeps z (f p a).1) (l : List α) {p : State × β} (h : Keeps z p.1) :
    Keeps z (l.foldl f p).1 := by
  induction l generalizing p with
  | nil => exact h
  | cons a r ih => exact ih (hf p a h)

theorem smWf_foldl {α β : Type} [DecidableEq α] {d : Nat → α} {f : SMap α → β → SMap α}
    (hf : ∀ m a, smWf d m = true → smWf d (f m a) = true) (l : List β) {m : SMap α} (h : smWf d m = true) :
    smWf d (l.foldl f m) = true := by
  induction l generalizing m with
  | nil => exact h
  | cons a r ih => exact ih (hf m a h)

theorem memPutList_wf {m : SMap Byte} (a : Nat) (l : List Byte) (h : smWf memDef m = true) :
    smWf memDef (memPutList m a l) = true := by
  induction l generalizing m a with
  | nil => exact h
  | cons b r ih => exact ih _ (smWf_smPut _ _ h)

end Sys2Proof.Machine
end

