-- ==== Sys2Proof/Laws/KeepsOps.lean ====
section
/-! SUPPORT. What the operations of Ops keep. -/
namespace Sys2Proof.Machine

theorem run_keeps {z : State} {bs : List Blk} {f : State → State} {s : State} (h : Keeps z (f s)) :
    ∀ t, run bs f s = .next t → Keeps z t := by
  unfold run
  intro t ht
  split at ht
  · cases ht
  · cases ht; exact h

theorem setReg_keeps {z : State} (s : State) (b : Blk) (o : Nat) (w : Word) (hK : Keeps z s) : Keeps z (setReg s b o w) := by
  unfold setReg
  repeat' first
    | with_reducible assumption
    | (intro xS; refine keeps_gen (z := z) (x := xS) ?_ (fun _ => ?_); revert xS; dsimp only; rotate_left; clear_value xS)
    | (intro xS; refine keeps_gen_fst (z := z) (x := xS) ?_ (fun _ => ?_); revert xS; dsimp only; rotate_left; clear_value xS)
    | intro _
    | lift_lets
    | with_reducible exact Keeps.refl _
    | simp only [keeps_mk_eq]
    | split
    | with_reducible apply keeps_mk_all
    | with_reducible apply smWf_smPut
    | with_reducible apply smWf_smUpd
    | with_reducible apply smWf_smDel
    | with_reducible apply smWf_filter
    | with_reducible apply smWf_foldl
    | intro _
    | rfl
    | split
    | dsimp only

theorem setFld_keeps {z : State} (s : State) (b : Blk) (o hi lo v : Nat) (hK : Keeps z s) : Keeps z (setFld s b o hi lo v) := by
  unfold setFld
  repeat' first
    | with_reducible assumption
    | intro _
    | with_reducible apply setReg_keeps
    | with_reducible exact Keeps.refl _
    | split
    | dsimp only

theorem raise_keeps {z : State} (s : State) (ev : Ev) (wh step : Nat) (args : List EArg) (hK : Keeps z s) : Keeps z (raise s ev wh step args) := by
  unfold raise
  repeat' first
    | with_reducible assumption
    | (intro xS; refine keeps_gen (z := z) (x := xS) ?_ (fun _ => ?_); revert xS; dsimp only; rotate_left; clear_value xS)
    | (intro xS; refine keeps_gen_fst (z := z) (x := xS) ?_ (fun _ => ?_); revert xS; dsimp only; rotate_left; clear_value xS)
    | intro _
    | lift_lets
    | with_reducible exact Keeps.refl _
    | simp only [keeps_mk_eq]
    | split
    | dsimp only

theorem raiseIf_keeps {z : State} (c : Bool) (s : State) (ev : Ev) (wh step : Nat) (args : List EArg) (hK : Keeps z s) : Keeps z (raiseIf c s ev wh step args) := by
  unfold raiseIf
  repeat' first
    | with_reducible assumption
    | (intro xS; refine keeps_gen (z := z) (x := xS) ?_ (fun _ => ?_); revert xS; dsimp only; rotate_left; clear_value xS)
    | (intro xS; refine keeps_gen_fst (z := z) (x := xS) ?_ (fun _ => ?_); revert xS; dsimp only; rotate_left; clear_value xS)
    | intro _
    | lift_lets
    | with_reducible exact Keeps.refl _
    | simp only [keeps_mk_eq]
    | split
    | dsimp only

theorem cntAdd_keeps {z : State} (s : State) (b : Blk) (o n : Nat) (hK : Keeps z s) : Keeps z (cntAdd s b o n) := by
  unfold cntAdd
  repeat' first
    | with_reducible assumption
    | (intro xS; refine keeps_gen (z := z) (x := xS) ?_ (fun _ => ?_); revert xS; dsimp only; rotate_left; clear_value xS)
    | (intro xS; refine keeps_gen_fst (z := z) (x := xS) ?_ (fun _ => ?_); revert xS; dsimp only; rotate_left; clear_value xS)
    | intro _
    | lift_lets
    | with_reducible exact Keeps.refl _
    | simp only [keeps_mk_eq]
    | split
    | with_reducible apply keeps_mk_all
    | with_reducible apply smWf_smPut
    | with_reducible apply smWf_smUpd
    | with_reducible apply smWf_smDel
    | with_reducible apply smWf_filter
    | with_reducible apply smWf_foldl
    | intro _
    | rfl
    | split
    | dsimp only

theorem cnt_keeps {z : State} (s : State) (b : Blk) (o : Nat) (hK : Keeps z s) : Keeps z (cnt s b o) := by
  unfold cnt
  repeat' first
    | with_reducible assumption
    | intro _
    | with_reducible apply cntAdd_keeps
    | with_reducible exact Keeps.refl _
    | split
    | dsimp only

theorem cnt64_keeps {z : State} (s : State) (b : Blk) (o n : Nat) (hK : Keeps z s) : Keeps z (cnt64 s b o n) := by
  unfold cnt64
  repeat' first
    | with_reducible assumption
    | (intro xS; refine keeps_gen (z := z) (x := xS) ?_ (fun _ => ?_); revert xS; dsimp only; rotate_left; clear_value xS)
    | (intro xS; refine keeps_gen_fst (z := z) (x := xS) ?_ (fun _ => ?_); revert xS; dsimp only; rotate_left; clear_value xS)
    | intro _
    | lift_lets
    | with_reducible apply setReg_keeps
    | with_reducible exact Keeps.refl _
    | split
    | dsimp only

theorem memWr_keeps {z : State} (s : State) (a : Nat) (l : List Byte) (hK : Keeps z s) : Keeps z (memWr s a l) := by
  unfold memWr
  repeat' first
    | with_reducible assumption
    | (intro xS; refine keeps_gen (z := z) (x := xS) ?_ (fun _ => ?_); revert xS; dsimp only; rotate_left; clear_value xS)
    | (intro xS; refine keeps_gen_fst (z := z) (x := xS) ?_ (fun _ => ?_); revert xS; dsimp only; rotate_left; clear_value xS)
    | intro _
    | lift_lets
    | with_reducible exact Keeps.refl _
    | simp only [keeps_mk_eq]
    | split
    | with_reducible apply keeps_mk_all
    | with_reducible apply smWf_smPut
    | with_reducible apply smWf_smUpd
    | with_reducible apply smWf_smDel
    | with_reducible apply smWf_filter
    | with_reducible apply smWf_foldl
    | intro _
    | apply memPutList_wf
    | rfl
    | split
    | dsimp only

theorem unpoison_keeps {z : State} (s : State) (a n : Nat) (hK : Keeps z s) : Keeps z (unpoison s a n) := by
  unfold unpoison
  repeat' first
    | with_reducible assumption
    | (intro xS; refine keeps_gen (z := z) (x := xS) ?_ (fun _ => ?_); revert xS; dsimp only; rotate_left; clear_value xS)
    | (intro xS; refine keeps_gen_fst (z := z) (x := xS) ?_ (fun _ => ?_); revert xS; dsimp only; rotate_left; clear_value xS)
    | intro _
    | lift_lets
    | with_reducible exact Keeps.refl _
    | simp only [keeps_mk_eq]
    | split
    | dsimp only

theorem wrBytes_keeps {z : State} (s : State) (a : Nat) (l : List Byte) (hK : Keeps z s) : Keeps z (wrBytes s a l) := by
  unfold wrBytes
  repeat' first
    | with_reducible assumption
    | (intro xS; refine keeps_gen (z := z) (x := xS) ?_ (fun _ => ?_); revert xS; dsimp only; rotate_left; clear_value xS)
    | (intro xS; refine keeps_gen_fst (z := z) (x := xS) ?_ (fun _ => ?_); revert xS; dsimp only; rotate_left; clear_value xS)
    | intro _
    | lift_lets
    | with_reducible exact Keeps.refl _
    | simp only [keeps_mk_eq]
    | split
    | with_reducible apply keeps_mk_all
    | with_reducible apply smWf_smPut
    | with_reducible apply smWf_smUpd
    | with_reducible apply smWf_smDel
    | with_reducible apply smWf_filter
    | with_reducible apply smWf_foldl
    | intro _
    | apply memPutList_wf
    | rfl
    | split
    | dsimp only

theorem wrLE_keeps {z : State} (s : State) (a n v : Nat) (hK : Keeps z s) : Keeps z (wrLE s a n v) := by
  unfold wrLE
  repeat' first
    | with_reducible assumption
    | intro _
    | with_reducible apply wrBytes_keeps
    | with_reducible exact Keeps.refl _
    | split
    | dsimp only

theorem raiseAcc_keeps {z : State} (s : State) (e : AccErr) (wh step : Nat) (hK : Keeps z s) : Keeps z (raiseAcc s e wh step) := by
  unfold raiseAcc
  repeat' first
    | with_reducible assumption
    | (intro xS; refine keeps_gen (z := z) (x := xS) ?_ (fun _ => ?_); revert xS; dsimp only; rotate_left; clear_value xS)
    | (intro xS; refine keeps_gen_fst (z := z) (x := xS) ?_ (fun _ => ?_); revert xS; dsimp only; rotate_left; clear_value xS)
    | intro _
    | lift_lets
    | with_reducible exact Keeps.refl _
    | simp only [keeps_mk_eq]
    | split
    | dsimp only

theorem applyRefused_keeps {z : State} (s : State) (b : Blk) (o bad : Nat) (hK : Keeps z s) : Keeps z (applyRefused s b o bad) := by
  unfold applyRefused
  repeat' first
    | with_reducible assumption
    | intro _
    | with_reducible apply raise_keeps
    | with_reducible exact Keeps.refl _
    | split
    | dsimp only

theorem fireArms_keeps {z : State} (s : State) (die : Nat) (arms : List Nat) (hK : Keeps z s) : Keeps z (fireArms s die arms) := by
  unfold fireArms
  repeat' first
    | with_reducible assumption
    | (intro xS; refine keeps_gen (z := z) (x := xS) ?_ (fun _ => ?_); revert xS; dsimp only; rotate_left; clear_value xS)
    | (intro xS; refine keeps_gen_fst (z := z) (x := xS) ?_ (fun _ => ?_); revert xS; dsimp only; rotate_left; clear_value xS)
    | intro _
    | lift_lets
    | with_reducible exact Keeps.refl _
    | with_reducible refine keeps_foldl (fun _ _ _ => ?_) _ ?_
    | with_reducible refine keeps_foldl_fst (fun _ _ _ => ?_) _ ?_
    | simp only [keeps_mk_eq]
    | split
    | with_reducible apply keeps_mk_all
    | with_reducible apply smWf_smPut
    | with_reducible apply smWf_smUpd
    | with_reducible apply smWf_smDel
    | with_reducible apply smWf_filter
    | with_reducible apply smWf_foldl
    | intro _
    | rfl
    | split
    | dsimp only

theorem objPut_keeps {z : State} (s : State) (die i : Nat) (v : Word) (hK : Keeps z s) : Keeps z (objPut s die i v) := by
  unfold objPut
  repeat' first
    | with_reducible assumption
    | (intro xS; refine keeps_gen (z := z) (x := xS) ?_ (fun _ => ?_); revert xS; dsimp only; rotate_left; clear_value xS)
    | (intro xS; refine keeps_gen_fst (z := z) (x := xS) ?_ (fun _ => ?_); revert xS; dsimp only; rotate_left; clear_value xS)
    | intro _
    | lift_lets
    | with_reducible apply fireArms_keeps
    | with_reducible exact Keeps.refl _
    | simp only [keeps_mk_eq]
    | split
    | with_reducible apply keeps_mk_all
    | with_reducible apply smWf_smPut
    | with_reducible apply smWf_smUpd
    | with_reducible apply smWf_smDel
    | with_reducible apply smWf_filter
    | with_reducible apply smWf_foldl
    | intro _
    | rfl
    | split
    | dsimp only

theorem objAdd_keeps {z : State} (s : State) (die i n : Nat) (hK : Keeps z s) : Keeps z (objAdd s die i n) := by
  unfold objAdd
  repeat' first
    | with_reducible assumption
    | intro _
    | with_reducible apply objPut_keeps
    | with_reducible exact Keeps.refl _
    | split
    | dsimp only

theorem objSignal_keeps {z : State} (s : State) (die i n : Nat) (hK : Keeps z s) : Keeps z (objSignal s die i n) := by
  unfold objSignal
  repeat' first
    | with_reducible assumption
    | intro _
    | with_reducible apply cnt_keeps
    | with_reducible apply objAdd_keeps
    | with_reducible exact Keeps.refl _
    | split
    | dsimp only

theorem sysObj_keeps {z : State} (s : State) (i v : Nat) (hK : Keeps z s) : Keeps z (sysObj s i v) := by
  unfold sysObj
  repeat' first
    | with_reducible assumption
    | intro _
    | with_reducible apply objPut_keeps
    | with_reducible exact Keeps.refl _
    | with_reducible refine keeps_foldl (fun _ _ _ => ?_) _ ?_
    | with_reducible refine keeps_foldl_fst (fun _ _ _ => ?_) _ ?_
    | split
    | dsimp only

theorem sysObjInc_keeps {z : State} (s : State) (i : Nat) (hK : Keeps z s) : Keeps z (sysObjInc s i) := by
  unfold sysObjInc
  repeat' first
    | with_reducible assumption
    | intro _
    | with_reducible apply objAdd_keeps
    | with_reducible exact Keeps.refl _
    | with_reducible refine keeps_foldl (fun _ _ _ => ?_) _ ?_
    | with_reducible refine keeps_foldl_fst (fun _ _ _ => ?_) _ ?_
    | split
    | dsimp only

theorem laneSend_keeps {z : State} (s : State) (f : MgmtFrame) (hK : Keeps z s) : Keeps z (laneSend s f) := by
  unfold laneSend
  repeat' first
    | with_reducible assumption
    | (intro xS; refine keeps_gen (z := z) (x := xS) ?_ (fun _ => ?_); revert xS; dsimp only; rotate_left; clear_value xS)
    | (intro xS; refine keeps_gen_fst (z := z) (x := xS) ?_ (fun _ => ?_); revert xS; dsimp only; rotate_left; clear_value xS)
    | intro _
    | lift_lets
    | with_reducible exact Keeps.refl _
    | simp only [keeps_mk_eq]
    | split
    | dsimp only

theorem lanePost_keeps {z : State} (s : State) (mtype : Nat) (body : List Byte) (hK : Keeps z s) : Keeps z (lanePost s mtype body) := by
  unfold lanePost
  repeat' first
    | with_reducible assumption
    | (intro xS; refine keeps_gen (z := z) (x := xS) ?_ (fun _ => ?_); revert xS; dsimp only; rotate_left; clear_value xS)
    | (intro xS; refine keeps_gen_fst (z := z) (x := xS) ?_ (fun _ => ?_); revert xS; dsimp only; rotate_left; clear_value xS)
    | intro _
    | lift_lets
    | with_reducible apply laneSend_keeps
    | with_reducible exact Keeps.refl _
    | simp only [keeps_mk_eq]
    | split
    | dsimp only

theorem healthSend_keeps {z : State} (s : State) (hK : Keeps z s) : Keeps z (healthSend s) := by
  unfold healthSend
  repeat' first
    | with_reducible assumption
    | intro _
    | with_reducible apply lanePost_keeps
    | with_reducible exact Keeps.refl _
    | split
    | dsimp only

theorem setPenalty_keeps {z : State} (s : State) (p : Nat) (hK : Keeps z s) : Keeps z (setPenalty s p) := by
  unfold setPenalty
  repeat' first
    | with_reducible assumption
    | (intro xS; refine keeps_gen (z := z) (x := xS) ?_ (fun _ => ?_); revert xS; dsimp only; rotate_left; clear_value xS)
    | (intro xS; refine keeps_gen_fst (z := z) (x := xS) ?_ (fun _ => ?_); revert xS; dsimp only; rotate_left; clear_value xS)
    | intro _
    | lift_lets
    | with_reducible apply healthSend_keeps
    | with_reducible exact Keeps.refl _
    | simp only [keeps_mk_eq]
    | split
    | with_reducible apply keeps_mk_all
    | with_reducible apply smWf_smPut
    | with_reducible apply smWf_smUpd
    | with_reducible apply smWf_smDel
    | with_reducible apply smWf_filter
    | with_reducible apply smWf_foldl
    | intro _
    | rfl
    | split
    | dsimp only

theorem healthPts_keeps {z : State} (s : State) (i pts : Nat) (hK : Keeps z s) : Keeps z (healthPts s i pts) := by
  unfold healthPts
  repeat' first
    | with_reducible assumption
    | (intro xS; refine keeps_gen (z := z) (x := xS) ?_ (fun _ => ?_); revert xS; dsimp only; rotate_left; clear_value xS)
    | (intro xS; refine keeps_gen_fst (z := z) (x := xS) ?_ (fun _ => ?_); revert xS; dsimp only; rotate_left; clear_value xS)
    | intro _
    | lift_lets
    | with_reducible apply cnt_keeps
    | with_reducible apply setReg_keeps
    | with_reducible apply setPenalty_keeps
    | with_reducible exact Keeps.refl _
    | split
    | dsimp only

theorem health_keeps {z : State} (s : State) (i : Nat) (hK : Keeps z s) : Keeps z (health s i) := by
  unfold health
  repeat' first
    | with_reducible assumption
    | intro _
    | with_reducible apply healthPts_keeps
    | with_reducible exact Keeps.refl _
    | split
    | dsimp only

theorem setSeq_keeps {z : State} (s : State) (q : Nat) (x : Seq) (hK : Keeps z s) : Keeps z (setSeq s q x) := by
  unfold setSeq
  repeat' first
    | with_reducible assumption
    | (intro xS; refine keeps_gen (z := z) (x := xS) ?_ (fun _ => ?_); revert xS; dsimp only; rotate_left; clear_value xS)
    | (intro xS; refine keeps_gen_fst (z := z) (x := xS) ?_ (fun _ => ?_); revert xS; dsimp only; rotate_left; clear_value xS)
    | intro _
    | lift_lets
    | with_reducible exact Keeps.refl _
    | simp only [keeps_mk_eq]
    | split
    | with_reducible apply keeps_mk_all
    | with_reducible apply smWf_smPut
    | with_reducible apply smWf_smUpd
    | with_reducible apply smWf_smDel
    | with_reducible apply smWf_filter
    | with_reducible apply smWf_foldl
    | intro _
    | rfl
    | split
    | dsimp only

theorem recErr_keeps {z : State} (s : State) (q status pc : Nat) (hK : Keeps z s) : Keeps z (recErr s q status pc) := by
  unfold recErr
  repeat' first
    | with_reducible assumption
    | (intro xS; refine keeps_gen (z := z) (x := xS) ?_ (fun _ => ?_); revert xS; dsimp only; rotate_left; clear_value xS)
    | (intro xS; refine keeps_gen_fst (z := z) (x := xS) ?_ (fun _ => ?_); revert xS; dsimp only; rotate_left; clear_value xS)
    | intro _
    | lift_lets
    | with_reducible exact Keeps.refl _
    | simp only [keeps_mk_eq]
    | split
    | with_reducible apply keeps_mk_all
    | with_reducible apply smWf_smPut
    | with_reducible apply smWf_smUpd
    | with_reducible apply smWf_smDel
    | with_reducible apply smWf_filter
    | with_reducible apply smWf_foldl
    | intro _
    | rfl
    | split
    | dsimp only

theorem failStatusAt_keeps {z : State} (s : State) (q wh status pc step : Nat) (args : List EArg) (hK : Keeps z s) : Keeps z (failStatusAt s q wh status pc step args) := by
  unfold failStatusAt
  repeat' first
    | with_reducible assumption
    | (intro xS; refine keeps_gen (z := z) (x := xS) ?_ (fun _ => ?_); revert xS; dsimp only; rotate_left; clear_value xS)
    | (intro xS; refine keeps_gen_fst (z := z) (x := xS) ?_ (fun _ => ?_); revert xS; dsimp only; rotate_left; clear_value xS)
    | intro _
    | lift_lets
    | with_reducible apply recErr_keeps
    | with_reducible exact Keeps.refl _
    | simp only [keeps_mk_eq]
    | split
    | dsimp only

theorem failStatus_keeps {z : State} (s : State) (q status pc step : Nat) (args : List EArg) (hK : Keeps z s) : Keeps z (failStatus s q status pc step args) := by
  unfold failStatus
  repeat' first
    | with_reducible assumption
    | intro _
    | with_reducible apply failStatusAt_keeps
    | with_reducible exact Keeps.refl _
    | split
    | dsimp only

end Sys2Proof.Machine
end

