-- ==== Sys2Proof/Laws/KeepsCache.lean ====
section
/-! SUPPORT. What the operations of Cache keep. -/
namespace Sys2Proof.Machine

theorem ctrlBytes_keeps {z : State} (s : State) (a n : Nat) (wr : Bool) (hK : Keeps z s) : Keeps z (ctrlBytes s a n wr) := by
  unfold ctrlBytes
  repeat' first
    | with_reducible assumption
    | (intro xS; refine keeps_gen (z := z) (x := xS) ?_ (fun _ => ?_); revert xS; dsimp only; rotate_left; clear_value xS)
    | (intro xS; refine keeps_gen_fst (z := z) (x := xS) ?_ (fun _ => ?_); revert xS; dsimp only; rotate_left; clear_value xS)
    | intro _
    | lift_lets
    | with_reducible apply cnt64_keeps
    | with_reducible exact Keeps.refl _
    | simp only [keeps_mk_eq]
    | split
    | dsimp only

theorem cacheLine_keeps {z : State} (rg hint a n : Nat) (wr : Bool) (s : State) (line : Nat) (hK : Keeps z s) : Keeps z (cacheLine rg hint a n wr s line) := by
  unfold cacheLine
  repeat' first
    | with_reducible assumption
    | (intro xS; refine keeps_gen (z := z) (x := xS) ?_ (fun _ => ?_); revert xS; dsimp only; rotate_left; clear_value xS)
    | (intro xS; refine keeps_gen_fst (z := z) (x := xS) ?_ (fun _ => ?_); revert xS; dsimp only; rotate_left; clear_value xS)
    | intro _
    | lift_lets
    | with_reducible apply cnt64_keeps
    | with_reducible apply ctrlBytes_keeps
    | with_reducible exact Keeps.refl _
    | simp only [keeps_mk_eq]
    | split
    | dsimp only

theorem writeBack_keeps {z : State} (s : State) (l : CLine) (mask : BitVec 4) (hK : Keeps z s) : Keeps z (writeBack s l mask) := by
  unfold writeBack
  repeat' first
    | with_reducible assumption
    | intro _
    | with_reducible apply ctrlBytes_keeps
    | with_reducible exact Keeps.refl _
    | split
    | dsimp only

theorem flushCache_keeps {z : State} (s : State) (rg : Nat) (hK : Keeps z s) : Keeps z (flushCache s rg) := by
  unfold flushCache
  repeat' first
    | with_reducible assumption
    | (intro xS; refine keeps_gen (z := z) (x := xS) ?_ (fun _ => ?_); revert xS; dsimp only; rotate_left; clear_value xS)
    | (intro xS; refine keeps_gen_fst (z := z) (x := xS) ?_ (fun _ => ?_); revert xS; dsimp only; rotate_left; clear_value xS)
    | intro _
    | lift_lets
    | with_reducible apply writeBack_keeps
    | with_reducible exact Keeps.refl _
    | with_reducible refine keeps_foldl (fun _ _ _ => ?_) _ ?_
    | with_reducible refine keeps_foldl_fst (fun _ _ _ => ?_) _ ?_
    | simp only [keeps_mk_eq]
    | split
    | dsimp only

theorem invalidateRgn_keeps {z : State} (a n : Nat) (s : State) (rg : Nat) (hK : Keeps z s) : Keeps z (invalidateRgn a n s rg) := by
  unfold invalidateRgn
  repeat' first
    | with_reducible assumption
    | (intro xS; refine keeps_gen (z := z) (x := xS) ?_ (fun _ => ?_); revert xS; dsimp only; rotate_left; clear_value xS)
    | (intro xS; refine keeps_gen_fst (z := z) (x := xS) ?_ (fun _ => ?_); revert xS; dsimp only; rotate_left; clear_value xS)
    | intro _
    | lift_lets
    | with_reducible apply writeBack_keeps
    | with_reducible exact Keeps.refl _
    | with_reducible refine keeps_foldl (fun _ _ _ => ?_) _ ?_
    | with_reducible refine keeps_foldl_fst (fun _ _ _ => ?_) _ ?_
    | simp only [keeps_mk_eq]
    | split
    | dsimp only

theorem invalidate_keeps {z : State} (s : State) (keep : Option Nat) (a n : Nat) (hK : Keeps z s) : Keeps z (invalidate s keep a n) := by
  unfold invalidate
  repeat' first
    | with_reducible assumption
    | intro _
    | with_reducible apply invalidateRgn_keeps
    | with_reducible exact Keeps.refl _
    | with_reducible refine keeps_foldl (fun _ _ _ => ?_) _ ?_
    | with_reducible refine keeps_foldl_fst (fun _ _ _ => ?_) _ ?_
    | split
    | dsimp only

theorem traffic_keeps {z : State} (s : State) (rg : Option Nat) (hint a n : Nat) (wr : Bool) (hK : Keeps z s) : Keeps z (traffic s rg hint a n wr) := by
  unfold traffic
  repeat' first
    | with_reducible assumption
    | (intro xS; refine keeps_gen (z := z) (x := xS) ?_ (fun _ => ?_); revert xS; dsimp only; rotate_left; clear_value xS)
    | (intro xS; refine keeps_gen_fst (z := z) (x := xS) ?_ (fun _ => ?_); revert xS; dsimp only; rotate_left; clear_value xS)
    | intro _
    | lift_lets
    | with_reducible apply invalidate_keeps
    | with_reducible apply cacheLine_keeps
    | with_reducible apply ctrlBytes_keeps
    | with_reducible exact Keeps.refl _
    | with_reducible refine keeps_foldl (fun _ _ _ => ?_) _ ?_
    | with_reducible refine keeps_foldl_fst (fun _ _ _ => ?_) _ ?_
    | simp only [keeps_mk_eq]
    | split
    | dsimp only

theorem demote_keeps {z : State} (s : State) (rg : Nat) (hK : Keeps z s) : Keeps z (demote s rg) := by
  unfold demote
  repeat' first
    | with_reducible assumption
    | (intro xS; refine keeps_gen (z := z) (x := xS) ?_ (fun _ => ?_); revert xS; dsimp only; rotate_left; clear_value xS)
    | (intro xS; refine keeps_gen_fst (z := z) (x := xS) ?_ (fun _ => ?_); revert xS; dsimp only; rotate_left; clear_value xS)
    | intro _
    | lift_lets
    | with_reducible exact Keeps.refl _
    | simp only [keeps_mk_eq]
    | split
    | dsimp only

end Sys2Proof.Machine
end

