-- ==== Sys2Proof/Laws/KeepsOperands.lean ====
section
/-! SUPPORT. What the operations of Operands keep. -/
namespace Sys2Proof.Machine

theorem fetched_keeps {z : State} (s : State) (q : Nat) (hK : Keeps z s) : Keeps z (fetched s q) := by
  unfold fetched
  repeat' first
    | with_reducible assumption
    | (intro xS; refine keeps_gen (z := z) (x := xS) ?_ (fun _ => ?_); revert xS; dsimp only; rotate_left; clear_value xS)
    | (intro xS; refine keeps_gen_fst (z := z) (x := xS) ?_ (fun _ => ?_); revert xS; dsimp only; rotate_left; clear_value xS)
    | intro _
    | lift_lets
    | with_reducible apply traffic_keeps
    | with_reducible exact Keeps.refl _
    | simp only [keeps_mk_eq]
    | split
    | dsimp only

theorem updStep_keeps {z : State} (s : State) (n : Nat) (f : StepRec → StepRec) (hK : Keeps z s) : Keeps z (updStep s n f) := by
  unfold updStep
  repeat' first
    | with_reducible assumption
    | (intro xS; refine keeps_gen (z := z) (x := xS) ?_ (fun _ => ?_); revert xS; dsimp only; rotate_left; clear_value xS)
    | (intro xS; refine keeps_gen_fst (z := z) (x := xS) ?_ (fun _ => ?_); revert xS; dsimp only; rotate_left; clear_value xS)
    | intro _
    | lift_lets
    | with_reducible exact Keeps.refl _
    | simp only [keeps_mk_eq]
    | split
    | dsimp only

theorem setNdet_keeps {z : State} (s : State) (q : Nat) (hK : Keeps z s) : Keeps z (setNdet s q) := by
  unfold setNdet
  repeat' first
    | with_reducible assumption
    | (intro xS; refine keeps_gen (z := z) (x := xS) ?_ (fun _ => ?_); revert xS; dsimp only; rotate_left; clear_value xS)
    | (intro xS; refine keeps_gen_fst (z := z) (x := xS) ?_ (fun _ => ?_); revert xS; dsimp only; rotate_left; clear_value xS)
    | intro _
    | lift_lets
    | with_reducible exact Keeps.refl _
    | simp only [keeps_mk_eq]
    | split
    | with_reducible apply keeps_mk_all
    | with_reducible apply smWf_smPut
    | with_reducible apply smWf_smUpd
    | with_reducible apply smWf_smDel
    | with_reducible apply smWf_filter
    | with_reducible apply smWf_foldl
    | intro _
    | rfl
    | split
    | dsimp only

theorem readP_keeps {z : State} (s : State) (q n : Nat) (hK : Keeps z s) : Keeps z (readP s q n) := by
  unfold readP
  repeat' first
    | with_reducible assumption
    | intro _
    | with_reducible apply setNdet_keeps
    | with_reducible exact Keeps.refl _
    | split
    | dsimp only

theorem taken_keeps {z : State} (s : State) (q : Nat) (w : PtiWord) (hK : Keeps z s) : Keeps z (taken s q w) := by
  unfold taken
  repeat' first
    | with_reducible assumption
    | intro _
    | with_reducible apply readP_keeps
    | with_reducible apply fetched_keeps
    | with_reducible exact Keeps.refl _
    | split
    | dsimp only

theorem seqEnd_keeps {z : State} (s : State) (q pc : Nat) (hK : Keeps z s) : Keeps z (seqEnd s q pc) := by
  unfold seqEnd
  repeat' first
    | with_reducible assumption
    | (intro xS; refine keeps_gen (z := z) (x := xS) ?_ (fun _ => ?_); revert xS; dsimp only; rotate_left; clear_value xS)
    | (intro xS; refine keeps_gen_fst (z := z) (x := xS) ?_ (fun _ => ?_); revert xS; dsimp only; rotate_left; clear_value xS)
    | intro _
    | lift_lets
    | with_reducible apply setSeq_keeps
    | with_reducible exact Keeps.refl _
    | simp only [keeps_mk_eq]
    | split
    | dsimp only

theorem seqNext_keeps {z : State} (s : State) (q : Nat) (hK : Keeps z s) : Keeps z (seqNext s q) := by
  unfold seqNext
  repeat' first
    | with_reducible assumption
    | intro _
    | with_reducible apply seqEnd_keeps
    | with_reducible exact Keeps.refl _
    | split
    | dsimp only

theorem signal_keeps {z : State} (s : State) (q : Nat) (w : PtiWord) (hK : Keeps z s) : Keeps z (signal s q w) := by
  unfold signal
  repeat' first
    | with_reducible assumption
    | intro _
    | with_reducible apply objSignal_keeps
    | with_reducible exact Keeps.refl _
    | split
    | dsimp only

theorem ptiSelf_keeps {z : State} (op : PtiOp) (q : Nat) (w : PtiWord) (act : State → State) (s : State) (hact : ∀  t, Keeps z t → Keeps z (act  t)) (hK : Keeps z s) : Keeps z (ptiSelf op q w act s) := by
  unfold ptiSelf
  repeat' first
    | with_reducible assumption
    | (intro xS; refine keeps_gen (z := z) (x := xS) ?_ (fun _ => ?_); revert xS; dsimp only; rotate_left; clear_value xS)
    | (intro xS; refine keeps_gen_fst (z := z) (x := xS) ?_ (fun _ => ?_); revert xS; dsimp only; rotate_left; clear_value xS)
    | intro _
    | lift_lets
    | with_reducible apply hact
    | with_reducible apply taken_keeps
    | with_reducible apply seqNext_keeps
    | with_reducible apply signal_keeps
    | with_reducible exact Keeps.refl _
    | split
    | dsimp only

theorem selfDone_keeps {z : State} (s : State) (q : Nat) (w : PtiWord) (hK : Keeps z s) : Keeps z (selfDone s q w) := by
  unfold selfDone
  repeat' first
    | with_reducible assumption
    | intro _
    | with_reducible apply seqNext_keeps
    | with_reducible apply signal_keeps
    | with_reducible exact Keeps.refl _
    | split
    | dsimp only

theorem selfSet_keeps {z : State} (q : Nat) (w : PtiWord) (f : Seq → Seq) (s : State) (hK : Keeps z s) : Keeps z (selfSet q w f s) := by
  unfold selfSet
  repeat' first
    | with_reducible assumption
    | intro _
    | with_reducible apply selfDone_keeps
    | with_reducible apply setSeq_keeps
    | with_reducible exact Keeps.refl _
    | split
    | dsimp only

theorem selfFail_keeps {z : State} (op : PtiOp) (q : Nat) (w : PtiWord) (status : Nat) (s : State) (hK : Keeps z s) : Keeps z (selfFail op q w status s) := by
  unfold selfFail
  repeat' first
    | with_reducible assumption
    | (intro xS; refine keeps_gen (z := z) (x := xS) ?_ (fun _ => ?_); revert xS; dsimp only; rotate_left; clear_value xS)
    | (intro xS; refine keeps_gen_fst (z := z) (x := xS) ?_ (fun _ => ?_); revert xS; dsimp only; rotate_left; clear_value xS)
    | intro _
    | lift_lets
    | with_reducible apply failStatus_keeps
    | with_reducible apply setSeq_keeps
    | with_reducible apply seqNext_keeps
    | with_reducible apply signal_keeps
    | with_reducible exact Keeps.refl _
    | split
    | dsimp only

theorem haltIllegal_keeps {z : State} (s : State) (q : Nat) (v : BitVec 128) (hK : Keeps z s) : Keeps z (haltIllegal s q v) := by
  unfold haltIllegal
  repeat' first
    | with_reducible assumption
    | (intro xS; refine keeps_gen (z := z) (x := xS) ?_ (fun _ => ?_); revert xS; dsimp only; rotate_left; clear_value xS)
    | (intro xS; refine keeps_gen_fst (z := z) (x := xS) ?_ (fun _ => ?_); revert xS; dsimp only; rotate_left; clear_value xS)
    | intro _
    | lift_lets
    | with_reducible apply setSeq_keeps
    | with_reducible apply raise_keeps
    | with_reducible exact Keeps.refl _
    | simp only [keeps_mk_eq]
    | split
    | dsimp only

end Sys2Proof.Machine
end

