-- ==== Sys2Proof/Laws/KeepsRegView.lean ====
section
/-! SUPPORT. What the operations of RegView keep. -/
namespace Sys2Proof.Machine

theorem setLatch_keeps {z : State} (s : State) (p : Nat) (b : Blk) (o : Nat) (hK : Keeps z s) : Keeps z (setLatch s p b o) := by
  unfold setLatch
  repeat' first
    | with_reducible assumption
    | (intro xS; refine keeps_gen (z := z) (x := xS) ?_ (fun _ => ?_); revert xS; dsimp only; rotate_left; clear_value xS)
    | (intro xS; refine keeps_gen_fst (z := z) (x := xS) ?_ (fun _ => ?_); revert xS; dsimp only; rotate_left; clear_value xS)
    | intro _
    | lift_lets
    | with_reducible exact Keeps.refl _
    | simp only [keeps_mk_eq]
    | split
    | dsimp only

end Sys2Proof.Machine
end

