-- ==== Sys2Proof/Laws/KeepsCtl.lean ====
section
/-! SUPPORT. What the operations of Ctl keep. -/
namespace Sys2Proof.Machine

theorem opPtiIllegal_keeps {z : State} (q : Nat) (s : State) (hK : Keeps z s) : Keeps z (opPtiIllegal q s) := by
  unfold opPtiIllegal
  repeat' first
    | with_reducible assumption
    | (intro xS; refine keeps_gen (z := z) (x := xS) ?_ (fun _ => ?_); revert xS; dsimp only; rotate_left; clear_value xS)
    | (intro xS; refine keeps_gen_fst (z := z) (x := xS) ?_ (fun _ => ?_); revert xS; dsimp only; rotate_left; clear_value xS)
    | intro _
    | lift_lets
    | with_reducible apply haltIllegal_keeps
    | with_reducible apply fetched_keeps
    | with_reducible apply raiseIf_keeps
    | with_reducible exact Keeps.refl _
    | simp only [keeps_mk_eq]
    | split
    | dsimp only

theorem execPtiIllegal_keeps {z : State} (q : Fin 256) (s : State) (hK : Keeps z s) : ∀ t', execPtiIllegal q s = .next t' → Keeps z t' := by
  unfold execPtiIllegal
  repeat' first
    | with_reducible (refine (run_keeps ?_ : ∀ t, _ = Host.Outcome.next t → Keeps _ t))
    | with_reducible assumption
    | intro _
    | with_reducible apply opPtiIllegal_keeps
    | with_reducible exact Keeps.refl _
    | split
    | dsimp only

theorem execNop_keeps {z : State} (q : Fin 256) (w : PtiWord) (s : State) (hK : Keeps z s) : ∀ t', execNop q w s = .next t' → Keeps z t' := by
  unfold execNop
  repeat' first
    | with_reducible (refine (run_keeps ?_ : ∀ t, _ = Host.Outcome.next t → Keeps _ t))
    | with_reducible assumption
    | intro _
    | with_reducible apply ptiSelf_keeps
    | with_reducible apply selfDone_keeps
    | with_reducible exact Keeps.refl _
    | split
    | dsimp only

theorem opJmp_keeps {z : State} (q : Nat) (w : PtiWord) (s : State) (hK : Keeps z s) : Keeps z (opJmp q w s) := by
  unfold opJmp
  repeat' first
    | with_reducible assumption
    | (intro xS; refine keeps_gen (z := z) (x := xS) ?_ (fun _ => ?_); revert xS; dsimp only; rotate_left; clear_value xS)
    | (intro xS; refine keeps_gen_fst (z := z) (x := xS) ?_ (fun _ => ?_); revert xS; dsimp only; rotate_left; clear_value xS)
    | intro _
    | lift_lets
    | with_reducible apply haltIllegal_keeps
    | with_reducible apply seqEnd_keeps
    | with_reducible apply signal_keeps
    | with_reducible exact Keeps.refl _
    | split
    | dsimp only

theorem execJmp_keeps {z : State} (q : Fin 256) (w : PtiWord) (s : State) (hK : Keeps z s) : ∀ t', execJmp q w s = .next t' → Keeps z t' := by
  unfold execJmp
  repeat' first
    | with_reducible (refine (run_keeps ?_ : ∀ t, _ = Host.Outcome.next t → Keeps _ t))
    | with_reducible assumption
    | intro _
    | with_reducible apply ptiSelf_keeps
    | with_reducible apply opJmp_keeps
    | with_reducible exact Keeps.refl _
    | split
    | dsimp only

theorem opCall_keeps {z : State} (q : Nat) (w : PtiWord) (s : State) (hK : Keeps z s) : Keeps z (opCall q w s) := by
  unfold opCall
  repeat' first
    | with_reducible assumption
    | (intro xS; refine keeps_gen (z := z) (x := xS) ?_ (fun _ => ?_); revert xS; dsimp only; rotate_left; clear_value xS)
    | (intro xS; refine keeps_gen_fst (z := z) (x := xS) ?_ (fun _ => ?_); revert xS; dsimp only; rotate_left; clear_value xS)
    | intro _
    | lift_lets
    | with_reducible apply haltIllegal_keeps
    | with_reducible apply seqEnd_keeps
    | with_reducible apply signal_keeps
    | with_reducible apply setSeq_keeps
    | with_reducible exact Keeps.refl _
    | simp only [keeps_mk_eq]
    | split
    | dsimp only

theorem execCall_keeps {z : State} (q : Fin 256) (w : PtiWord) (s : State) (hK : Keeps z s) : ∀ t', execCall q w s = .next t' → Keeps z t' := by
  unfold execCall
  repeat' first
    | with_reducible (refine (run_keeps ?_ : ∀ t, _ = Host.Outcome.next t → Keeps _ t))
    | with_reducible assumption
    | intro _
    | with_reducible apply ptiSelf_keeps
    | with_reducible apply opCall_keeps
    | with_reducible exact Keeps.refl _
    | split
    | dsimp only

theorem opRet_keeps {z : State} (q : Nat) (w : PtiWord) (s : State) (hK : Keeps z s) : Keeps z (opRet q w s) := by
  unfold opRet
  repeat' first
    | with_reducible assumption
    | (intro xS; refine keeps_gen (z := z) (x := xS) ?_ (fun _ => ?_); revert xS; dsimp only; rotate_left; clear_value xS)
    | (intro xS; refine keeps_gen_fst (z := z) (x := xS) ?_ (fun _ => ?_); revert xS; dsimp only; rotate_left; clear_value xS)
    | intro _
    | lift_lets
    | with_reducible apply haltIllegal_keeps
    | with_reducible apply seqEnd_keeps
    | with_reducible apply signal_keeps
    | with_reducible apply setSeq_keeps
    | with_reducible exact Keeps.refl _
    | simp only [keeps_mk_eq]
    | split
    | dsimp only

theorem execRet_keeps {z : State} (q : Fin 256) (w : PtiWord) (s : State) (hK : Keeps z s) : ∀ t', execRet q w s = .next t' → Keeps z t' := by
  unfold execRet
  repeat' first
    | with_reducible (refine (run_keeps ?_ : ∀ t, _ = Host.Outcome.next t → Keeps _ t))
    | with_reducible assumption
    | intro _
    | with_reducible apply ptiSelf_keeps
    | with_reducible apply opRet_keeps
    | with_reducible exact Keeps.refl _
    | split
    | dsimp only

theorem opHalt_keeps {z : State} (q : Nat) (w : PtiWord) (s : State) (hK : Keeps z s) : Keeps z (opHalt q w s) := by
  unfold opHalt
  repeat' first
    | with_reducible assumption
    | intro _
    | with_reducible apply seqNext_keeps
    | with_reducible apply setFld_keeps
    | with_reducible apply signal_keeps
    | with_reducible exact Keeps.refl _
    | split
    | dsimp only

theorem execHalt_keeps {z : State} (q : Fin 256) (w : PtiWord) (s : State) (hK : Keeps z s) : ∀ t', execHalt q w s = .next t' → Keeps z t' := by
  unfold execHalt
  repeat' first
    | with_reducible (refine (run_keeps ?_ : ∀ t, _ = Host.Outcome.next t → Keeps _ t))
    | with_reducible assumption
    | intro _
    | with_reducible apply ptiSelf_keeps
    | with_reducible apply opHalt_keeps
    | with_reducible exact Keeps.refl _
    | split
    | dsimp only

theorem opCtlStep_keeps {z : State} (q : Nat) (w : PtiWord) (s : State) (hK : Keeps z s) : Keeps z (opCtlStep q w s) := by
  unfold opCtlStep
  repeat' first
    | with_reducible assumption
    | (intro xS; refine keeps_gen (z := z) (x := xS) ?_ (fun _ => ?_); revert xS; dsimp only; rotate_left; clear_value xS)
    | (intro xS; refine keeps_gen_fst (z := z) (x := xS) ?_ (fun _ => ?_); revert xS; dsimp only; rotate_left; clear_value xS)
    | intro _
    | lift_lets
    | with_reducible apply setSeq_keeps
    | with_reducible apply selfDone_keeps
    | with_reducible exact Keeps.refl _
    | simp only [keeps_mk_eq]
    | split
    | dsimp only

theorem execCtlStep_keeps {z : State} (q : Fin 256) (w : PtiWord) (s : State) (hK : Keeps z s) : ∀ t', execCtlStep q w s = .next t' → Keeps z t' := by
  unfold execCtlStep
  repeat' first
    | with_reducible (refine (run_keeps ?_ : ∀ t, _ = Host.Outcome.next t → Keeps _ t))
    | with_reducible assumption
    | intro _
    | with_reducible apply ptiSelf_keeps
    | with_reducible apply opCtlStep_keeps
    | with_reducible exact Keeps.refl _
    | split
    | dsimp only

theorem execCtlSlipg_keeps {z : State} (q : Fin 256) (w : PtiWord) (s : State) (hK : Keeps z s) : ∀ t', execCtlSlipg q w s = .next t' → Keeps z t' := by
  unfold execCtlSlipg
  repeat' first
    | with_reducible (refine (run_keeps ?_ : ∀ t, _ = Host.Outcome.next t → Keeps _ t))
    | with_reducible assumption
    | (intro xS; refine keeps_gen (z := z) (x := xS) ?_ (fun _ => ?_); revert xS; dsimp only; rotate_left; clear_value xS)
    | (intro xS; refine keeps_gen_fst (z := z) (x := xS) ?_ (fun _ => ?_); revert xS; dsimp only; rotate_left; clear_value xS)
    | intro _
    | lift_lets
    | with_reducible apply ptiSelf_keeps
    | with_reducible apply selfSet_keeps
    | with_reducible exact Keeps.refl _
    | simp only [keeps_mk_eq]
    | split
    | dsimp only

theorem overrun_keeps {z : State} (s : State) (q late ahead : Nat) (hK : Keeps z s) : Keeps z (overrun s q late ahead) := by
  unfold overrun
  repeat' first
    | with_reducible assumption
    | (intro xS; refine keeps_gen (z := z) (x := xS) ?_ (fun _ => ?_); revert xS; dsimp only; rotate_left; clear_value xS)
    | (intro xS; refine keeps_gen_fst (z := z) (x := xS) ?_ (fun _ => ?_); revert xS; dsimp only; rotate_left; clear_value xS)
    | intro _
    | lift_lets
    | with_reducible apply cnt_keeps
    | with_reducible apply setReg_keeps
    | with_reducible apply setFld_keeps
    | with_reducible apply raise_keeps
    | with_reducible exact Keeps.refl _
    | simp only [keeps_mk_eq]
    | split
    | dsimp only

theorem opBwait_keeps {z : State} (q : Nat) (w : PtiWord) (s : State) (hK : Keeps z s) : Keeps z (opBwait q w s) := by
  unfold opBwait
  repeat' first
    | with_reducible assumption
    | (intro xS; refine keeps_gen (z := z) (x := xS) ?_ (fun _ => ?_); revert xS; dsimp only; rotate_left; clear_value xS)
    | (intro xS; refine keeps_gen_fst (z := z) (x := xS) ?_ (fun _ => ?_); revert xS; dsimp only; rotate_left; clear_value xS)
    | intro _
    | lift_lets
    | with_reducible apply selfFail_keeps
    | with_reducible apply selfDone_keeps
    | with_reducible apply overrun_keeps
    | with_reducible apply setSeq_keeps
    | with_reducible exact Keeps.refl _
    | simp only [keeps_mk_eq]
    | split
    | dsimp only

theorem execBwait_keeps {z : State} (q : Fin 256) (w : PtiWord) (s : State) (hK : Keeps z s) : ∀ t', execBwait q w s = .next t' → Keeps z t' := by
  unfold execBwait
  repeat' first
    | with_reducible (refine (run_keeps ?_ : ∀ t, _ = Host.Outcome.next t → Keeps _ t))
    | with_reducible assumption
    | intro _
    | with_reducible apply ptiSelf_keeps
    | with_reducible apply opBwait_keeps
    | with_reducible exact Keeps.refl _
    | split
    | dsimp only

theorem opBwaitFire_keeps {z : State} (q : Nat) (s : State) (hK : Keeps z s) : Keeps z (opBwaitFire q s) := by
  unfold opBwaitFire
  repeat' first
    | with_reducible assumption
    | (intro xS; refine keeps_gen (z := z) (x := xS) ?_ (fun _ => ?_); revert xS; dsimp only; rotate_left; clear_value xS)
    | (intro xS; refine keeps_gen_fst (z := z) (x := xS) ?_ (fun _ => ?_); revert xS; dsimp only; rotate_left; clear_value xS)
    | intro _
    | lift_lets
    | with_reducible apply setSeq_keeps
    | with_reducible apply seqNext_keeps
    | with_reducible apply objSignal_keeps
    | with_reducible exact Keeps.refl _
    | simp only [keeps_mk_eq]
    | split
    | dsimp only

theorem execBwaitFire_keeps {z : State} (q : Fin 256) (s : State) (hK : Keeps z s) : ∀ t', execBwaitFire q s = .next t' → Keeps z t' := by
  unfold execBwaitFire
  repeat' first
    | with_reducible (refine (run_keeps ?_ : ∀ t, _ = Host.Outcome.next t → Keeps _ t))
    | with_reducible assumption
    | intro _
    | with_reducible apply opBwaitFire_keeps
    | with_reducible exact Keeps.refl _
    | split
    | dsimp only

theorem opBread_keeps {z : State} (q : Nat) (w : PtiWord) (s : State) (hK : Keeps z s) : Keeps z (opBread q w s) := by
  unfold opBread
  repeat' first
    | with_reducible assumption
    | intro _
    | with_reducible apply selfSet_keeps
    | with_reducible apply setNdet_keeps
    | with_reducible exact Keeps.refl _
    | split
    | dsimp only

theorem execBread_keeps {z : State} (q : Fin 256) (w : PtiWord) (s : State) (hK : Keeps z s) : ∀ t', execBread q w s = .next t' → Keeps z t' := by
  unfold execBread
  repeat' first
    | with_reducible (refine (run_keeps ?_ : ∀ t, _ = Host.Outcome.next t → Keeps _ t))
    | with_reducible assumption
    | intro _
    | with_reducible apply ptiSelf_keeps
    | with_reducible apply opBread_keeps
    | with_reducible exact Keeps.refl _
    | split
    | dsimp only

theorem opCtrRd_keeps {z : State} (q : Nat) (w : PtiWord) (s : State) (hK : Keeps z s) : Keeps z (opCtrRd q w s) := by
  unfold opCtrRd
  repeat' first
    | with_reducible assumption
    | (intro xS; refine keeps_gen (z := z) (x := xS) ?_ (fun _ => ?_); revert xS; dsimp only; rotate_left; clear_value xS)
    | (intro xS; refine keeps_gen_fst (z := z) (x := xS) ?_ (fun _ => ?_); revert xS; dsimp only; rotate_left; clear_value xS)
    | intro _
    | lift_lets
    | with_reducible apply selfFail_keeps
    | with_reducible apply setLatch_keeps
    | with_reducible apply selfSet_keeps
    | with_reducible apply setNdet_keeps
    | with_reducible exact Keeps.refl _
    | simp only [keeps_mk_eq]
    | split
    | dsimp only

theorem execCtrRd_keeps {z : State} (q : Fin 256) (w : PtiWord) (s : State) (hK : Keeps z s) : ∀ t', execCtrRd q w s = .next t' → Keeps z t' := by
  unfold execCtrRd
  repeat' first
    | with_reducible (refine (run_keeps ?_ : ∀ t, _ = Host.Outcome.next t → Keeps _ t))
    | with_reducible assumption
    | intro _
    | with_reducible apply ptiSelf_keeps
    | with_reducible apply opCtrRd_keeps
    | with_reducible exact Keeps.refl _
    | split
    | dsimp only

theorem opSeqAbandonRestart_keeps {z : State} (s : State) (hK : Keeps z s) : Keeps z (opSeqAbandonRestart s) := by
  unfold opSeqAbandonRestart
  repeat' first
    | with_reducible assumption
    | (intro xS; refine keeps_gen (z := z) (x := xS) ?_ (fun _ => ?_); revert xS; dsimp only; rotate_left; clear_value xS)
    | (intro xS; refine keeps_gen_fst (z := z) (x := xS) ?_ (fun _ => ?_); revert xS; dsimp only; rotate_left; clear_value xS)
    | intro _
    | lift_lets
    | with_reducible exact Keeps.refl _
    | with_reducible refine keeps_foldl (fun _ _ _ => ?_) _ ?_
    | with_reducible refine keeps_foldl_fst (fun _ _ _ => ?_) _ ?_
    | simp only [keeps_mk_eq]
    | split
    | with_reducible apply keeps_mk_all
    | with_reducible apply smWf_smPut
    | with_reducible apply smWf_smUpd
    | with_reducible apply smWf_smDel
    | with_reducible apply smWf_filter
    | with_reducible apply smWf_foldl
    | intro _
    | rfl
    | split
    | dsimp only

theorem execSeqAbandonRestart_keeps {z : State} (s : State) (hK : Keeps z s) : ∀ t', execSeqAbandonRestart s = .next t' → Keeps z t' := by
  unfold execSeqAbandonRestart
  repeat' first
    | with_reducible (refine (run_keeps ?_ : ∀ t, _ = Host.Outcome.next t → Keeps _ t))
    | with_reducible assumption
    | intro _
    | with_reducible apply opSeqAbandonRestart_keeps
    | with_reducible exact Keeps.refl _
    | split
    | dsimp only

end Sys2Proof.Machine
end

