-- ==== Sys2Proof/Laws/KeepsBlocks.lean ====
section
/-! SUPPORT. What the operations of Blocks keep. -/
namespace Sys2Proof.Machine

theorem poisonRead_keeps {z : State} (s : State) (a wh step : Nat) (hK : Keeps z s) : Keeps z (poisonRead s a wh step) := by
  unfold poisonRead
  repeat' first
    | with_reducible assumption
    | (intro xS; refine keeps_gen (z := z) (x := xS) ?_ (fun _ => ?_); revert xS; dsimp only; rotate_left; clear_value xS)
    | (intro xS; refine keeps_gen_fst (z := z) (x := xS) ?_ (fun _ => ?_); revert xS; dsimp only; rotate_left; clear_value xS)
    | intro _
    | lift_lets
    | with_reducible apply raise_keeps
    | with_reducible apply setFld_keeps
    | with_reducible apply cnt_keeps
    | with_reducible exact Keeps.refl _
    | simp only [keeps_mk_eq]
    | split
    | dsimp only

theorem crcFail_keeps {z : State} (s : State) (cx : Cx) (hK : Keeps z s) : Keeps z (crcFail s cx) := by
  unfold crcFail
  repeat' first
    | with_reducible assumption
    | intro _
    | with_reducible apply raise_keeps
    | with_reducible apply setFld_keeps
    | with_reducible apply cnt_keeps
    | with_reducible exact Keeps.refl _
    | split
    | dsimp only

theorem crcUncured_keeps {z : State} (s : State) (cx : Cx) (hK : Keeps z s) : Keeps z (crcUncured s cx) := by
  unfold crcUncured
  repeat' first
    | with_reducible assumption
    | intro _
    | with_reducible apply voteSet_keeps
    | with_reducible apply health_keeps
    | with_reducible apply setFld_keeps
    | with_reducible apply cnt_keeps
    | with_reducible exact Keeps.refl _
    | split
    | dsimp only

theorem badScale_keeps {z : State} (s : State) (cx : Cx) (d : Desc) (i : Nat) (hK : Keeps z s) : Keeps z (badScale s cx d i) := by
  unfold badScale
  repeat' first
    | with_reducible assumption
    | intro _
    | with_reducible apply raise_keeps
    | with_reducible apply cnt_keeps
    | with_reducible exact Keeps.refl _
    | split
    | dsimp only

theorem badWrite_keeps {z : State} (s : State) (cx : Cx) (d : Desc) (i : Nat) (hK : Keeps z s) : Keeps z (badWrite s cx d i) := by
  unfold badWrite
  repeat' first
    | with_reducible assumption
    | (intro xS; refine keeps_gen (z := z) (x := xS) ?_ (fun _ => ?_); revert xS; dsimp only; rotate_left; clear_value xS)
    | (intro xS; refine keeps_gen_fst (z := z) (x := xS) ?_ (fun _ => ?_); revert xS; dsimp only; rotate_left; clear_value xS)
    | intro _
    | lift_lets
    | with_reducible apply raiseIf_keeps
    | with_reducible apply cnt_keeps
    | with_reducible apply badScale_keeps
    | with_reducible exact Keeps.refl _
    | simp only [keeps_mk_eq]
    | split
    | dsimp only

theorem badHeader_keeps {z : State} (s : State) (cx : Cx) (d : Desc) (i : Nat) (hK : Keeps z s) : Keeps z (badHeader s cx d i) := by
  unfold badHeader
  repeat' first
    | with_reducible assumption
    | intro _
    | with_reducible apply raise_keeps
    | with_reducible apply setFld_keeps
    | with_reducible apply cnt_keeps
    | with_reducible exact Keeps.refl _
    | split
    | dsimp only

theorem hdrChecks_keeps {z : State} (s : State) (cx : Cx) (d : Desc) (i : Nat) (vals : Bool) (r : RawBlk) (hK : Keeps z s) : Keeps z (hdrChecks s cx d i vals r).st := by
  unfold hdrChecks
  repeat' first
    | with_reducible assumption
    | intro _
    | with_reducible apply badHeader_keeps
    | with_reducible apply cnt_keeps
    | with_reducible apply badScale_keeps
    | with_reducible exact Keeps.refl _
    | with_reducible refine keeps_fst (by assumption) ?_
    | split
    | dsimp only

theorem blkTraffic_keeps {z : State} (s : State) (rg : Option Nat) (hint a ms msLen : Nat) (h : Hdr) (wr : Bool) (hK : Keeps z s) : Keeps z (blkTraffic s rg hint a ms msLen h wr) := by
  unfold blkTraffic
  repeat' first
    | with_reducible assumption
    | (intro xS; refine keeps_gen (z := z) (x := xS) ?_ (fun _ => ?_); revert xS; dsimp only; rotate_left; clear_value xS)
    | (intro xS; refine keeps_gen_fst (z := z) (x := xS) ?_ (fun _ => ?_); revert xS; dsimp only; rotate_left; clear_value xS)
    | intro _
    | lift_lets
    | with_reducible apply traffic_keeps
    | with_reducible exact Keeps.refl _
    | split
    | dsimp only

theorem readBlk_keeps {z : State} (s : State) (cx : Cx) (d : Desc) (i : Nat) (vals : Bool) (hK : Keeps z s) : Keeps z (readBlk s cx d i vals).st := by
  unfold readBlk
  repeat' first
    | with_reducible assumption
    | (intro xS; refine keeps_gen (z := z) (x := xS) ?_ (fun _ => ?_); revert xS; dsimp only; rotate_left; clear_value xS)
    | (intro xS; refine keeps_gen_fst (z := z) (x := xS) ?_ (fun _ => ?_); revert xS; dsimp only; rotate_left; clear_value xS)
    | intro _
    | lift_lets
    | with_reducible apply raiseAcc_keeps
    | with_reducible apply cnt64_keeps
    | with_reducible apply blkTraffic_keeps
    | with_reducible apply crcUncured_keeps
    | with_reducible apply crcFail_keeps
    | with_reducible apply poisonRead_keeps
    | with_reducible apply cnt_keeps
    | with_reducible apply hdrChecks_keeps
    | with_reducible exact Keeps.refl _
    | with_reducible refine keeps_fst (by assumption) ?_
    | simp only [keeps_mk_eq]
    | split
    | dsimp only

theorem sparseMeta_keeps {z : State} (s : State) (cx : Cx) (d : Desc) (i : Nat) (b : BlkVal) (hK : Keeps z s) : Keeps z (sparseMeta s cx d i b) := by
  unfold sparseMeta
  repeat' first
    | with_reducible assumption
    | (intro xS; refine keeps_gen (z := z) (x := xS) ?_ (fun _ => ?_); revert xS; dsimp only; rotate_left; clear_value xS)
    | (intro xS; refine keeps_gen_fst (z := z) (x := xS) ?_ (fun _ => ?_); revert xS; dsimp only; rotate_left; clear_value xS)
    | intro _
    | lift_lets
    | with_reducible exact Keeps.refl _
    | simp only [keeps_mk_eq]
    | split
    | dsimp only

theorem readBlks_keeps {z : State} (cx : Cx) (d : Desc) (vals : Bool)  : ∀ (a0 : List Nat) (a1 : State) (a2 : List BlkVal), Keeps z a1 → Keeps z (readBlks cx d vals a0 a1 a2).1 := by
  intro a0
  induction a0 with
  | nil =>
    intro a1 a2 hK
    first | rw [readBlks] | unfold readBlks
    repeat' first
      | with_reducible assumption
      | (intro xS; refine keeps_gen (z := z) (x := xS) ?_ (fun _ => ?_); revert xS; dsimp only; rotate_left; clear_value xS)
      | (intro xS; refine keeps_gen_fst (z := z) (x := xS) ?_ (fun _ => ?_); revert xS; dsimp only; rotate_left; clear_value xS)
      | intro _
      | lift_lets
      | with_reducible apply ih
      | with_reducible apply readBlk_keeps
      | with_reducible apply sparseMeta_keeps
      | with_reducible exact Keeps.refl _
      | with_reducible refine keeps_fst (by assumption) ?_
      | split
      | dsimp only
  | cons x0 l0 ih =>
    intro a1 a2 hK
    first | rw [readBlks] | unfold readBlks
    repeat' first
      | with_reducible assumption
      | (intro xS; refine keeps_gen (z := z) (x := xS) ?_ (fun _ => ?_); revert xS; dsimp only; rotate_left; clear_value xS)
      | (intro xS; refine keeps_gen_fst (z := z) (x := xS) ?_ (fun _ => ?_); revert xS; dsimp only; rotate_left; clear_value xS)
      | intro _
      | lift_lets
      | with_reducible apply ih
      | with_reducible apply readBlk_keeps
      | with_reducible apply sparseMeta_keeps
      | with_reducible exact Keeps.refl _
      | with_reducible refine keeps_fst (by assumption) ?_
      | split
      | dsimp only

theorem readTensor_keeps {z : State} (s : State) (cx : Cx) (d : Desc) (hK : Keeps z s) : Keeps z (readTensor s cx d).1 := by
  unfold readTensor
  repeat' first
    | with_reducible assumption
    | (intro xS; refine keeps_gen (z := z) (x := xS) ?_ (fun _ => ?_); revert xS; dsimp only; rotate_left; clear_value xS)
    | (intro xS; refine keeps_gen_fst (z := z) (x := xS) ?_ (fun _ => ?_); revert xS; dsimp only; rotate_left; clear_value xS)
    | intro _
    | lift_lets
    | with_reducible apply readBlks_keeps
    | with_reducible exact Keeps.refl _
    | with_reducible refine keeps_fst (by assumption) ?_
    | simp only [keeps_mk_eq]
    | split
    | dsimp only

theorem readWinGo_keeps {z : State} (cx : Cx) (d : Desc) (r0 c0 nr nc : Nat)  : ∀ (a0 : List Nat) (a1 : State) (a2 : List BlkVal), Keeps z a1 → Keeps z (readWinGo cx d r0 c0 nr nc a0 a1 a2).1 := by
  intro a0
  induction a0 with
  | nil =>
    intro a1 a2 hK
    first | rw [readWinGo] | unfold readWinGo
    repeat' first
      | with_reducible assumption
      | (intro xS; refine keeps_gen (z := z) (x := xS) ?_ (fun _ => ?_); revert xS; dsimp only; rotate_left; clear_value xS)
      | (intro xS; refine keeps_gen_fst (z := z) (x := xS) ?_ (fun _ => ?_); revert xS; dsimp only; rotate_left; clear_value xS)
      | intro _
      | lift_lets
      | with_reducible apply ih
      | with_reducible apply readBlk_keeps
      | with_reducible apply sparseMeta_keeps
      | with_reducible exact Keeps.refl _
      | with_reducible refine keeps_fst (by assumption) ?_
      | split
      | dsimp only
  | cons x0 l0 ih =>
    intro a1 a2 hK
    first | rw [readWinGo] | unfold readWinGo
    repeat' first
      | with_reducible assumption
      | (intro xS; refine keeps_gen (z := z) (x := xS) ?_ (fun _ => ?_); revert xS; dsimp only; rotate_left; clear_value xS)
      | (intro xS; refine keeps_gen_fst (z := z) (x := xS) ?_ (fun _ => ?_); revert xS; dsimp only; rotate_left; clear_value xS)
      | intro _
      | lift_lets
      | with_reducible apply ih
      | with_reducible apply readBlk_keeps
      | with_reducible apply sparseMeta_keeps
      | with_reducible exact Keeps.refl _
      | with_reducible refine keeps_fst (by assumption) ?_
      | split
      | dsimp only

theorem readWin_keeps {z : State} (s : State) (cx : Cx) (d : Desc) (r0 c0 nr nc : Nat) (hK : Keeps z s) : Keeps z (readWin s cx d r0 c0 nr nc).1 := by
  unfold readWin
  repeat' first
    | with_reducible assumption
    | (intro xS; refine keeps_gen (z := z) (x := xS) ?_ (fun _ => ?_); revert xS; dsimp only; rotate_left; clear_value xS)
    | (intro xS; refine keeps_gen_fst (z := z) (x := xS) ?_ (fun _ => ?_); revert xS; dsimp only; rotate_left; clear_value xS)
    | intro _
    | lift_lets
    | with_reducible apply readWinGo_keeps
    | with_reducible exact Keeps.refl _
    | with_reducible refine keeps_fst (by assumption) ?_
    | simp only [keeps_mk_eq]
    | split
    | dsimp only

theorem updAcc_keeps {z : State} (s : State) (k : Nat) (f : EstAcc → EstAcc) (hK : Keeps z s) : Keeps z (updAcc s k f) := by
  unfold updAcc
  repeat' first
    | with_reducible assumption
    | (intro xS; refine keeps_gen (z := z) (x := xS) ?_ (fun _ => ?_); revert xS; dsimp only; rotate_left; clear_value xS)
    | (intro xS; refine keeps_gen_fst (z := z) (x := xS) ?_ (fun _ => ?_); revert xS; dsimp only; rotate_left; clear_value xS)
    | intro _
    | lift_lets
    | with_reducible exact Keeps.refl _
    | simp only [keeps_mk_eq]
    | split
    | dsimp only

theorem deliverSat_keeps {z : State} (s : State) (cx : Cx) (d : Desc) (i n : Nat) (hK : Keeps z s) : Keeps z (deliverSat s cx d i n) := by
  unfold deliverSat
  repeat' first
    | with_reducible assumption
    | (intro xS; refine keeps_gen (z := z) (x := xS) ?_ (fun _ => ?_); revert xS; dsimp only; rotate_left; clear_value xS)
    | (intro xS; refine keeps_gen_fst (z := z) (x := xS) ?_ (fun _ => ?_); revert xS; dsimp only; rotate_left; clear_value xS)
    | intro _
    | lift_lets
    | with_reducible apply cnt_keeps
    | with_reducible apply updAcc_keeps
    | with_reducible apply raise_keeps
    | with_reducible apply setFld_keeps
    | with_reducible apply cntAdd_keeps
    | with_reducible exact Keeps.refl _
    | simp only [keeps_mk_eq]
    | split
    | dsimp only

theorem deliverFlush_keeps {z : State} (s : State) (cx : Cx) (d : Desc) (flush mblocks : Nat) (hK : Keeps z s) : Keeps z (deliverFlush s cx d flush mblocks) := by
  unfold deliverFlush
  repeat' first
    | with_reducible assumption
    | (intro xS; refine keeps_gen (z := z) (x := xS) ?_ (fun _ => ?_); revert xS; dsimp only; rotate_left; clear_value xS)
    | (intro xS; refine keeps_gen_fst (z := z) (x := xS) ?_ (fun _ => ?_); revert xS; dsimp only; rotate_left; clear_value xS)
    | intro _
    | lift_lets
    | with_reducible apply cntAdd_keeps
    | with_reducible apply updAcc_keeps
    | with_reducible apply cnt_keeps
    | with_reducible exact Keeps.refl _
    | simp only [keeps_mk_eq]
    | split
    | dsimp only

theorem voteWrite_keeps {z : State} (s : State) (cx : Cx) (d : Desc) (sat nan inf : Bool) (hK : Keeps z s) : Keeps z (voteWrite s cx d sat nan inf) := by
  unfold voteWrite
  repeat' first
    | with_reducible assumption
    | intro _
    | with_reducible apply voteSet_keeps
    | with_reducible exact Keeps.refl _
    | split
    | dsimp only

theorem storeBlk_keeps {z : State} (s : State) (cx : Cx) (d : Desc) (i : Nat) (h : Hdr) (payload scales : List Byte) (hK : Keeps z s) : Keeps z (storeBlk s cx d i h payload scales) := by
  unfold storeBlk
  repeat' first
    | with_reducible assumption
    | (intro xS; refine keeps_gen (z := z) (x := xS) ?_ (fun _ => ?_); revert xS; dsimp only; rotate_left; clear_value xS)
    | (intro xS; refine keeps_gen_fst (z := z) (x := xS) ?_ (fun _ => ?_); revert xS; dsimp only; rotate_left; clear_value xS)
    | intro _
    | lift_lets
    | with_reducible apply wrBytes_keeps
    | with_reducible apply traffic_keeps
    | with_reducible apply memWr_keeps
    | with_reducible apply unpoison_keeps
    | with_reducible exact Keeps.refl _
    | simp only [keeps_mk_eq]
    | split
    | dsimp only

theorem formCounts_keeps {z : State} (s : State) (cx : Cx) (d : Desc) (i : Nat) (b : Formed) (hK : Keeps z s) : Keeps z (formCounts s cx d i b) := by
  unfold formCounts
  repeat' first
    | with_reducible assumption
    | (intro xS; refine keeps_gen (z := z) (x := xS) ?_ (fun _ => ?_); revert xS; dsimp only; rotate_left; clear_value xS)
    | (intro xS; refine keeps_gen_fst (z := z) (x := xS) ?_ (fun _ => ?_); revert xS; dsimp only; rotate_left; clear_value xS)
    | intro _
    | lift_lets
    | with_reducible apply deliverSat_keeps
    | with_reducible apply voteWrite_keeps
    | with_reducible apply badWrite_keeps
    | with_reducible apply deliverFlush_keeps
    | with_reducible exact Keeps.refl _
    | split
    | dsimp only

theorem writeBlk_keeps {z : State} (s : State) (cx : Cx) (d : Desc) (f : Fmt) (i : Nat) (w : WrSpec) (vals : List EV) (hK : Keeps z s) : Keeps z (writeBlk s cx d f i w vals) := by
  unfold writeBlk
  repeat' first
    | with_reducible assumption
    | (intro xS; refine keeps_gen (z := z) (x := xS) ?_ (fun _ => ?_); revert xS; dsimp only; rotate_left; clear_value xS)
    | (intro xS; refine keeps_gen_fst (z := z) (x := xS) ?_ (fun _ => ?_); revert xS; dsimp only; rotate_left; clear_value xS)
    | intro _
    | lift_lets
    | with_reducible apply formCounts_keeps
    | with_reducible apply storeBlk_keeps
    | with_reducible exact Keeps.refl _
    | split
    | dsimp only

theorem writeZero_keeps {z : State} (s : State) (cx : Cx) (d : Desc) (i vrows vcols : Nat) (hK : Keeps z s) : Keeps z (writeZero s cx d i vrows vcols) := by
  unfold writeZero
  repeat' first
    | with_reducible assumption
    | (intro xS; refine keeps_gen (z := z) (x := xS) ?_ (fun _ => ?_); revert xS; dsimp only; rotate_left; clear_value xS)
    | (intro xS; refine keeps_gen_fst (z := z) (x := xS) ?_ (fun _ => ?_); revert xS; dsimp only; rotate_left; clear_value xS)
    | intro _
    | lift_lets
    | with_reducible apply storeBlk_keeps
    | with_reducible exact Keeps.refl _
    | split
    | dsimp only

end Sys2Proof.Machine
end

