-- ==== Sys2Proof/Laws/KeepsMove.lean ====
section
/-! SUPPORT. What the operations of Move keep. -/
namespace Sys2Proof.Machine

theorem execLi_keeps {z : State} (q : Fin 256) (w : PtiWord) (s : State) (hK : Keeps z s) : ∀ t', execLi q w s = .next t' → Keeps z t' := by
  unfold execLi
  repeat' first
    | with_reducible (refine (run_keeps ?_ : ∀ t, _ = Host.Outcome.next t → Keeps _ t))
    | with_reducible assumption
    | intro _
    | with_reducible apply ptiSelf_keeps
    | with_reducible apply selfSet_keeps
    | with_reducible exact Keeps.refl _
    | split
    | dsimp only

theorem execLih_keeps {z : State} (q : Fin 256) (w : PtiWord) (s : State) (hK : Keeps z s) : ∀ t', execLih q w s = .next t' → Keeps z t' := by
  unfold execLih
  repeat' first
    | with_reducible (refine (run_keeps ?_ : ∀ t, _ = Host.Outcome.next t → Keeps _ t))
    | with_reducible assumption
    | intro _
    | with_reducible apply ptiSelf_keeps
    | with_reducible apply selfSet_keeps
    | with_reducible exact Keeps.refl _
    | split
    | dsimp only

theorem execMov_keeps {z : State} (q : Fin 256) (w : PtiWord) (s : State) (hK : Keeps z s) : ∀ t', execMov q w s = .next t' → Keeps z t' := by
  unfold execMov
  repeat' first
    | with_reducible (refine (run_keeps ?_ : ∀ t, _ = Host.Outcome.next t → Keeps _ t))
    | with_reducible assumption
    | intro _
    | with_reducible apply ptiSelf_keeps
    | with_reducible apply selfSet_keeps
    | with_reducible exact Keeps.refl _
    | split
    | dsimp only

theorem scal2_keeps {z : State} (f : DWord → DWord → DWord) (q : Nat) (w : PtiWord)  : ∀ s, Keeps z s → Keeps z (scal2 f q w s) := by
  intro s hK
  unfold scal2
  repeat' first
    | with_reducible assumption
    | intro _
    | with_reducible apply selfSet_keeps
    | with_reducible exact Keeps.refl _
    | split
    | dsimp only

theorem execAdd_keeps {z : State} (q : Fin 256) (w : PtiWord) (s : State) (hK : Keeps z s) : ∀ t', execAdd q w s = .next t' → Keeps z t' := by
  unfold execAdd
  repeat' first
    | with_reducible (refine (run_keeps ?_ : ∀ t, _ = Host.Outcome.next t → Keeps _ t))
    | with_reducible assumption
    | intro _
    | with_reducible apply ptiSelf_keeps
    | with_reducible apply scal2_keeps
    | with_reducible exact Keeps.refl _
    | split
    | dsimp only

theorem execSub_keeps {z : State} (q : Fin 256) (w : PtiWord) (s : State) (hK : Keeps z s) : ∀ t', execSub q w s = .next t' → Keeps z t' := by
  unfold execSub
  repeat' first
    | with_reducible (refine (run_keeps ?_ : ∀ t, _ = Host.Outcome.next t → Keeps _ t))
    | with_reducible assumption
    | intro _
    | with_reducible apply ptiSelf_keeps
    | with_reducible apply scal2_keeps
    | with_reducible exact Keeps.refl _
    | split
    | dsimp only

theorem execMul_keeps {z : State} (q : Fin 256) (w : PtiWord) (s : State) (hK : Keeps z s) : ∀ t', execMul q w s = .next t' → Keeps z t' := by
  unfold execMul
  repeat' first
    | with_reducible (refine (run_keeps ?_ : ∀ t, _ = Host.Outcome.next t → Keeps _ t))
    | with_reducible assumption
    | intro _
    | with_reducible apply ptiSelf_keeps
    | with_reducible apply scal2_keeps
    | with_reducible exact Keeps.refl _
    | split
    | dsimp only

theorem execAndI_keeps {z : State} (q : Fin 256) (w : PtiWord) (s : State) (hK : Keeps z s) : ∀ t', execAndI q w s = .next t' → Keeps z t' := by
  unfold execAndI
  repeat' first
    | with_reducible (refine (run_keeps ?_ : ∀ t, _ = Host.Outcome.next t → Keeps _ t))
    | with_reducible assumption
    | intro _
    | with_reducible apply ptiSelf_keeps
    | with_reducible apply scal2_keeps
    | with_reducible exact Keeps.refl _
    | split
    | dsimp only

theorem execOrI_keeps {z : State} (q : Fin 256) (w : PtiWord) (s : State) (hK : Keeps z s) : ∀ t', execOrI q w s = .next t' → Keeps z t' := by
  unfold execOrI
  repeat' first
    | with_reducible (refine (run_keeps ?_ : ∀ t, _ = Host.Outcome.next t → Keeps _ t))
    | with_reducible assumption
    | intro _
    | with_reducible apply ptiSelf_keeps
    | with_reducible apply scal2_keeps
    | with_reducible exact Keeps.refl _
    | split
    | dsimp only

theorem execXorI_keeps {z : State} (q : Fin 256) (w : PtiWord) (s : State) (hK : Keeps z s) : ∀ t', execXorI q w s = .next t' → Keeps z t' := by
  unfold execXorI
  repeat' first
    | with_reducible (refine (run_keeps ?_ : ∀ t, _ = Host.Outcome.next t → Keeps _ t))
    | with_reducible assumption
    | intro _
    | with_reducible apply ptiSelf_keeps
    | with_reducible apply scal2_keeps
    | with_reducible exact Keeps.refl _
    | split
    | dsimp only

theorem execShl_keeps {z : State} (q : Fin 256) (w : PtiWord) (s : State) (hK : Keeps z s) : ∀ t', execShl q w s = .next t' → Keeps z t' := by
  unfold execShl
  repeat' first
    | with_reducible (refine (run_keeps ?_ : ∀ t, _ = Host.Outcome.next t → Keeps _ t))
    | with_reducible assumption
    | intro _
    | with_reducible apply ptiSelf_keeps
    | with_reducible apply scal2_keeps
    | with_reducible exact Keeps.refl _
    | split
    | dsimp only

theorem execShr_keeps {z : State} (q : Fin 256) (w : PtiWord) (s : State) (hK : Keeps z s) : ∀ t', execShr q w s = .next t' → Keeps z t' := by
  unfold execShr
  repeat' first
    | with_reducible (refine (run_keeps ?_ : ∀ t, _ = Host.Outcome.next t → Keeps _ t))
    | with_reducible assumption
    | intro _
    | with_reducible apply ptiSelf_keeps
    | with_reducible apply scal2_keeps
    | with_reducible exact Keeps.refl _
    | split
    | dsimp only

theorem execSar_keeps {z : State} (q : Fin 256) (w : PtiWord) (s : State) (hK : Keeps z s) : ∀ t', execSar q w s = .next t' → Keeps z t' := by
  unfold execSar
  repeat' first
    | with_reducible (refine (run_keeps ?_ : ∀ t, _ = Host.Outcome.next t → Keeps _ t))
    | with_reducible assumption
    | intro _
    | with_reducible apply ptiSelf_keeps
    | with_reducible apply scal2_keeps
    | with_reducible exact Keeps.refl _
    | split
    | dsimp only

theorem execCmp_keeps {z : State} (q : Fin 256) (w : PtiWord) (s : State) (hK : Keeps z s) : ∀ t', execCmp q w s = .next t' → Keeps z t' := by
  unfold execCmp
  repeat' first
    | with_reducible (refine (run_keeps ?_ : ∀ t, _ = Host.Outcome.next t → Keeps _ t))
    | with_reducible assumption
    | intro _
    | with_reducible apply ptiSelf_keeps
    | with_reducible apply selfSet_keeps
    | with_reducible exact Keeps.refl _
    | split
    | dsimp only

theorem opPlog_keeps {z : State} (q : Nat) (w : PtiWord) (s : State) (hK : Keeps z s) : Keeps z (opPlog q w s) := by
  unfold opPlog
  repeat' first
    | with_reducible assumption
    | intro _
    | with_reducible apply selfSet_keeps
    | with_reducible apply readP_keeps
    | with_reducible exact Keeps.refl _
    | split
    | dsimp only

theorem execPlog_keeps {z : State} (q : Fin 256) (w : PtiWord) (s : State) (hK : Keeps z s) : ∀ t', execPlog q w s = .next t' → Keeps z t' := by
  unfold execPlog
  repeat' first
    | with_reducible (refine (run_keeps ?_ : ∀ t, _ = Host.Outcome.next t → Keeps _ t))
    | with_reducible assumption
    | intro _
    | with_reducible apply ptiSelf_keeps
    | with_reducible apply opPlog_keeps
    | with_reducible exact Keeps.refl _
    | split
    | dsimp only

theorem seqAccFail_keeps {z : State} (op : PtiOp) (q : Nat) (w : PtiWord) (e : AccErr) (s : State) (hK : Keeps z s) : Keeps z (seqAccFail op q w e s) := by
  unfold seqAccFail
  repeat' first
    | with_reducible assumption
    | intro _
    | with_reducible apply selfFail_keeps
    | with_reducible apply raiseAcc_keeps
    | with_reducible exact Keeps.refl _
    | split
    | dsimp only

theorem opLds_keeps {z : State} (q : Nat) (w : PtiWord) (s : State) (hK : Keeps z s) : Keeps z (opLds q w s) := by
  unfold opLds
  repeat' first
    | with_reducible assumption
    | (intro xS; refine keeps_gen (z := z) (x := xS) ?_ (fun _ => ?_); revert xS; dsimp only; rotate_left; clear_value xS)
    | (intro xS; refine keeps_gen_fst (z := z) (x := xS) ?_ (fun _ => ?_); revert xS; dsimp only; rotate_left; clear_value xS)
    | intro _
    | lift_lets
    | with_reducible apply seqAccFail_keeps
    | with_reducible apply selfFail_keeps
    | with_reducible apply poisonRead_keeps
    | with_reducible apply selfSet_keeps
    | with_reducible apply traffic_keeps
    | with_reducible exact Keeps.refl _
    | simp only [keeps_mk_eq]
    | split
    | dsimp only

theorem execLds_keeps {z : State} (q : Fin 256) (w : PtiWord) (s : State) (hK : Keeps z s) : ∀ t', execLds q w s = .next t' → Keeps z t' := by
  unfold execLds
  repeat' first
    | with_reducible (refine (run_keeps ?_ : ∀ t, _ = Host.Outcome.next t → Keeps _ t))
    | with_reducible assumption
    | intro _
    | with_reducible apply ptiSelf_keeps
    | with_reducible apply opLds_keeps
    | with_reducible exact Keeps.refl _
    | split
    | dsimp only

theorem opSts_keeps {z : State} (q : Nat) (w : PtiWord) (s : State) (hK : Keeps z s) : Keeps z (opSts q w s) := by
  unfold opSts
  repeat' first
    | with_reducible assumption
    | (intro xS; refine keeps_gen (z := z) (x := xS) ?_ (fun _ => ?_); revert xS; dsimp only; rotate_left; clear_value xS)
    | (intro xS; refine keeps_gen_fst (z := z) (x := xS) ?_ (fun _ => ?_); revert xS; dsimp only; rotate_left; clear_value xS)
    | intro _
    | lift_lets
    | with_reducible apply seqAccFail_keeps
    | with_reducible apply selfDone_keeps
    | with_reducible apply wrLE_keeps
    | with_reducible apply traffic_keeps
    | with_reducible exact Keeps.refl _
    | simp only [keeps_mk_eq]
    | split
    | dsimp only

theorem execSts_keeps {z : State} (q : Fin 256) (w : PtiWord) (s : State) (hK : Keeps z s) : ∀ t', execSts q w s = .next t' → Keeps z t' := by
  unfold execSts
  repeat' first
    | with_reducible (refine (run_keeps ?_ : ∀ t, _ = Host.Outcome.next t → Keeps _ t))
    | with_reducible assumption
    | intro _
    | with_reducible apply ptiSelf_keeps
    | with_reducible apply opSts_keeps
    | with_reducible exact Keeps.refl _
    | split
    | dsimp only

theorem opDld_keeps {z : State} (q : Nat) (w : PtiWord) (s : State) (hK : Keeps z s) : Keeps z (opDld q w s) := by
  unfold opDld
  repeat' first
    | with_reducible assumption
    | (intro xS; refine keeps_gen (z := z) (x := xS) ?_ (fun _ => ?_); revert xS; dsimp only; rotate_left; clear_value xS)
    | (intro xS; refine keeps_gen_fst (z := z) (x := xS) ?_ (fun _ => ?_); revert xS; dsimp only; rotate_left; clear_value xS)
    | intro _
    | lift_lets
    | with_reducible apply seqAccFail_keeps
    | with_reducible apply selfFail_keeps
    | with_reducible apply poisonRead_keeps
    | with_reducible apply selfSet_keeps
    | with_reducible apply traffic_keeps
    | with_reducible exact Keeps.refl _
    | simp only [keeps_mk_eq]
    | split
    | dsimp only

theorem execDld_keeps {z : State} (q : Fin 256) (w : PtiWord) (s : State) (hK : Keeps z s) : ∀ t', execDld q w s = .next t' → Keeps z t' := by
  unfold execDld
  repeat' first
    | with_reducible (refine (run_keeps ?_ : ∀ t, _ = Host.Outcome.next t → Keeps _ t))
    | with_reducible assumption
    | intro _
    | with_reducible apply ptiSelf_keeps
    | with_reducible apply opDld_keeps
    | with_reducible exact Keeps.refl _
    | split
    | dsimp only

theorem tagHdr_keeps {z : State} (s : State) (cx : Cx) (d : Desc) (i : Nat) (hK : Keeps z s) : Keeps z (tagHdr s cx d i).1 := by
  unfold tagHdr
  repeat' first
    | with_reducible assumption
    | (intro xS; refine keeps_gen (z := z) (x := xS) ?_ (fun _ => ?_); revert xS; dsimp only; rotate_left; clear_value xS)
    | (intro xS; refine keeps_gen_fst (z := z) (x := xS) ?_ (fun _ => ?_); revert xS; dsimp only; rotate_left; clear_value xS)
    | intro _
    | lift_lets
    | with_reducible apply raiseAcc_keeps
    | with_reducible apply traffic_keeps
    | with_reducible apply crcUncured_keeps
    | with_reducible apply crcFail_keeps
    | with_reducible apply poisonRead_keeps
    | with_reducible apply cnt64_keeps
    | with_reducible exact Keeps.refl _
    | with_reducible refine keeps_fst (by assumption) ?_
    | simp only [keeps_mk_eq]
    | split
    | dsimp only

theorem tagHdrs_keeps {z : State} (cx : Cx) (d : Desc)  : ∀ (a0 : List Nat) (a1 : State) (a2 : List Nat), Keeps z a1 → Keeps z (tagHdrs cx d a0 a1 a2).1 := by
  intro a0
  induction a0 with
  | nil =>
    intro a1 a2 hK
    first | rw [tagHdrs] | unfold tagHdrs
    repeat' first
      | with_reducible assumption
      | with_reducible apply ih
      | with_reducible apply tagHdr_keeps
      | with_reducible exact Keeps.refl _
      | with_reducible refine keeps_fst (by assumption) ?_
      | simp only [keeps_mk_eq]
      | split
      | dsimp only
  | cons x0 l0 ih =>
    intro a1 a2 hK
    first | rw [tagHdrs] | unfold tagHdrs
    repeat' first
      | with_reducible assumption
      | with_reducible apply ih
      | with_reducible apply tagHdr_keeps
      | with_reducible exact Keeps.refl _
      | with_reducible refine keeps_fst (by assumption) ?_
      | simp only [keeps_mk_eq]
      | split
      | dsimp only

theorem opTagp_keeps {z : State} (q : Nat) (w : PtiWord) (s : State) (hK : Keeps z s) : Keeps z (opTagp q w s) := by
  unfold opTagp
  repeat' first
    | with_reducible assumption
    | (intro xS; refine keeps_gen (z := z) (x := xS) ?_ (fun _ => ?_); revert xS; dsimp only; rotate_left; clear_value xS)
    | (intro xS; refine keeps_gen_fst (z := z) (x := xS) ?_ (fun _ => ?_); revert xS; dsimp only; rotate_left; clear_value xS)
    | intro _
    | lift_lets
    | with_reducible apply selfFail_keeps
    | with_reducible apply tagHdrs_keeps
    | with_reducible apply selfSet_keeps
    | with_reducible exact Keeps.refl _
    | with_reducible refine keeps_fst (by assumption) ?_
    | simp only [keeps_mk_eq]
    | split
    | dsimp only

theorem execTagp_keeps {z : State} (q : Fin 256) (w : PtiWord) (s : State) (hK : Keeps z s) : ∀ t', execTagp q w s = .next t' → Keeps z t' := by
  unfold execTagp
  repeat' first
    | with_reducible (refine (run_keeps ?_ : ∀ t, _ = Host.Outcome.next t → Keeps _ t))
    | with_reducible assumption
    | intro _
    | with_reducible apply ptiSelf_keeps
    | with_reducible apply opTagp_keeps
    | with_reducible exact Keeps.refl _
    | split
    | dsimp only

end Sys2Proof.Machine
end

