-- ==== Sys2Proof/Laws/KeepsLinks.lean ====
section
/-! SUPPORT. What the operations of Links keep. -/
namespace Sys2Proof.Machine

theorem tmArm_keeps {z : State} (s : State) (t : Tmr) (d : Nat) (hK : Keeps z s) : Keeps z (tmArm s t d) := by
  unfold tmArm
  repeat' first
    | with_reducible assumption
    | (intro xS; refine keeps_gen (z := z) (x := xS) ?_ (fun _ => ?_); revert xS; dsimp only; rotate_left; clear_value xS)
    | (intro xS; refine keeps_gen_fst (z := z) (x := xS) ?_ (fun _ => ?_); revert xS; dsimp only; rotate_left; clear_value xS)
    | intro _
    | lift_lets
    | with_reducible exact Keeps.refl _
    | simp only [keeps_mk_eq]
    | split
    | dsimp only

theorem tmOff_keeps {z : State} (s : State) (t : Tmr) (hK : Keeps z s) : Keeps z (tmOff s t) := by
  unfold tmOff
  repeat' first
    | with_reducible assumption
    | (intro xS; refine keeps_gen (z := z) (x := xS) ?_ (fun _ => ?_); revert xS; dsimp only; rotate_left; clear_value xS)
    | (intro xS; refine keeps_gen_fst (z := z) (x := xS) ?_ (fun _ => ?_); revert xS; dsimp only; rotate_left; clear_value xS)
    | intro _
    | lift_lets
    | with_reducible exact Keeps.refl _
    | simp only [keeps_mk_eq]
    | split
    | dsimp only

theorem xlatInvalid_keeps {z : State} (s : State) (lc wh step : Nat) (hK : Keeps z s) : Keeps z (xlatInvalid s lc wh step) := by
  unfold xlatInvalid
  repeat' first
    | with_reducible assumption
    | intro _
    | with_reducible apply raise_keeps
    | with_reducible exact Keeps.refl _
    | split
    | dsimp only

theorem setLink_keeps {z : State} (s : State) (l : Nat) (x : Lnk) (hK : Keeps z s) : Keeps z (setLink s l x) := by
  unfold setLink
  repeat' first
    | with_reducible assumption
    | (intro xS; refine keeps_gen (z := z) (x := xS) ?_ (fun _ => ?_); revert xS; dsimp only; rotate_left; clear_value xS)
    | (intro xS; refine keeps_gen_fst (z := z) (x := xS) ?_ (fun _ => ?_); revert xS; dsimp only; rotate_left; clear_value xS)
    | intro _
    | lift_lets
    | with_reducible exact Keeps.refl _
    | simp only [keeps_mk_eq]
    | split
    | dsimp only

theorem setLinkSt_keeps {z : State} (s : State) (l st : Nat) (hK : Keeps z s) : Keeps z (setLinkSt s l st) := by
  unfold setLinkSt
  repeat' first
    | with_reducible assumption
    | intro _
    | with_reducible apply setFld_keeps
    | with_reducible exact Keeps.refl _
    | split
    | dsimp only

theorem putLanes_keeps {z : State} (s : State) (l : Nat) (fl : List (List Byte)) (hK : Keeps z s) : Keeps z (putLanes s l fl) := by
  unfold putLanes
  repeat' first
    | with_reducible assumption
    | (intro xS; refine keeps_gen (z := z) (x := xS) ?_ (fun _ => ?_); revert xS; dsimp only; rotate_left; clear_value xS)
    | (intro xS; refine keeps_gen_fst (z := z) (x := xS) ?_ (fun _ => ?_); revert xS; dsimp only; rotate_left; clear_value xS)
    | intro _
    | lift_lets
    | with_reducible apply setLink_keeps
    | with_reducible exact Keeps.refl _
    | simp only [keeps_mk_eq]
    | split
    | dsimp only

theorem putEnt_keeps {z : State} (s : State) (l : Nat) (e : TxEnt) (hK : Keeps z s) : Keeps z (putEnt s l e) := by
  unfold putEnt
  repeat' first
    | with_reducible assumption
    | (intro xS; refine keeps_gen (z := z) (x := xS) ?_ (fun _ => ?_); revert xS; dsimp only; rotate_left; clear_value xS)
    | (intro xS; refine keeps_gen_fst (z := z) (x := xS) ?_ (fun _ => ?_); revert xS; dsimp only; rotate_left; clear_value xS)
    | intro _
    | lift_lets
    | with_reducible apply setLink_keeps
    | with_reducible apply cnt64_keeps
    | with_reducible apply putLanes_keeps
    | with_reducible exact Keeps.refl _
    | simp only [keeps_mk_eq]
    | split
    | dsimp only

theorem startEnt_keeps {z : State} (s : State) (l n : Nat) (frame : Option Frame) (ctrl : List Byte) (hK : Keeps z s) : Keeps z (startEnt s l n frame ctrl) := by
  unfold startEnt
  repeat' first
    | with_reducible assumption
    | (intro xS; refine keeps_gen (z := z) (x := xS) ?_ (fun _ => ?_); revert xS; dsimp only; rotate_left; clear_value xS)
    | (intro xS; refine keeps_gen_fst (z := z) (x := xS) ?_ (fun _ => ?_); revert xS; dsimp only; rotate_left; clear_value xS)
    | intro _
    | lift_lets
    | with_reducible apply putEnt_keeps
    | with_reducible apply setLink_keeps
    | with_reducible exact Keeps.refl _
    | simp only [keeps_mk_eq]
    | split
    | dsimp only

theorem txNew_keeps {z : State} (s : State) (l : Nat) (hK : Keeps z s) : ∀ t', txNew s l = some t' → Keeps z t' := by
  unfold txNew
  dsimp only
  repeat' first | split | (intro _ h; cases h; done) | (intro _ h; cases h) 
  all_goals (try dsimp only)
  repeat' first
    | with_reducible assumption
    | (intro xS; refine keeps_gen (z := z) (x := xS) ?_ (fun _ => ?_); revert xS; dsimp only; rotate_left; clear_value xS)
    | (intro xS; refine keeps_gen_fst (z := z) (x := xS) ?_ (fun _ => ?_); revert xS; dsimp only; rotate_left; clear_value xS)
    | intro _
    | lift_lets
    | with_reducible apply startEnt_keeps
    | with_reducible apply setLink_keeps
    | with_reducible exact Keeps.refl _
    | simp only [keeps_mk_eq]
    | split
    | dsimp only

theorem txOne_keeps {z : State} (s : State) (l : Nat) (hK : Keeps z s) : ∀ t', txOne s l = some t' → Keeps z t' := by
  unfold txOne
  dsimp only
  repeat' first | split | (intro _ h; cases h; done) | (intro _ h; cases h) 
  all_goals (try dsimp only)
  repeat' first
    | with_reducible assumption
    | (intro xS; refine keeps_gen (z := z) (x := xS) ?_ (fun _ => ?_); revert xS; dsimp only; rotate_left; clear_value xS)
    | (intro xS; refine keeps_gen_fst (z := z) (x := xS) ?_ (fun _ => ?_); revert xS; dsimp only; rotate_left; clear_value xS)
    | intro _
    | lift_lets
    | with_reducible apply putEnt_keeps
    | (with_reducible refine txNew_keeps _ _ ?_ _ (by assumption))
    | (with_reducible refine txNew_keeps _ _ ?_ _ (by assumption))
    | with_reducible exact Keeps.refl _
    | simp only [keeps_mk_eq]
    | split
    | dsimp only

theorem pumpGo_keeps {z : State}   : ∀ (a0 : Nat) (a1 : Nat) (a2 : State), Keeps z a2 → Keeps z (pumpGo  a0 a1 a2) := by
  intro a0
  induction a0 with
  | zero =>
    intro a1 a2 hK
    first | rw [pumpGo] | unfold pumpGo
    repeat' first
      | with_reducible assumption
      | with_reducible apply ih
      | (with_reducible refine txOne_keeps _ _ ?_ _ (by assumption))
      | with_reducible exact Keeps.refl _
      | with_reducible refine keeps_fst (by assumption) ?_
      | simp only [keeps_mk_eq]
      | split
      | dsimp only
  | succ n0 ih =>
    intro a1 a2 hK
    first | rw [pumpGo] | unfold pumpGo
    repeat' first
      | with_reducible assumption
      | with_reducible apply ih
      | (with_reducible refine txOne_keeps _ _ ?_ _ (by assumption))
      | with_reducible exact Keeps.refl _
      | with_reducible refine keeps_fst (by assumption) ?_
      | simp only [keeps_mk_eq]
      | split
      | dsimp only

theorem pump_keeps {z : State} (s : State) (l : Nat) (hK : Keeps z s) : Keeps z (pump s l) := by
  unfold pump
  repeat' first
    | with_reducible assumption
    | intro _
    | with_reducible apply pumpGo_keeps
    | with_reducible exact Keeps.refl _
    | split
    | dsimp only

theorem sendCtrl_keeps {z : State} (s : State) (l : Nat) (c : List Byte) (hK : Keeps z s) : Keeps z (sendCtrl s l c) := by
  unfold sendCtrl
  repeat' first
    | with_reducible assumption
    | (intro xS; refine keeps_gen (z := z) (x := xS) ?_ (fun _ => ?_); revert xS; dsimp only; rotate_left; clear_value xS)
    | (intro xS; refine keeps_gen_fst (z := z) (x := xS) ?_ (fun _ => ?_); revert xS; dsimp only; rotate_left; clear_value xS)
    | intro _
    | lift_lets
    | with_reducible apply pump_keeps
    | with_reducible apply setLink_keeps
    | with_reducible exact Keeps.refl _
    | simp only [keeps_mk_eq]
    | split
    | dsimp only

theorem sendBare_keeps {z : State} (s : State) (l ft : Nat) (hK : Keeps z s) : Keeps z (sendBare s l ft) := by
  unfold sendBare
  repeat' first
    | with_reducible assumption
    | (intro xS; refine keeps_gen (z := z) (x := xS) ?_ (fun _ => ?_); revert xS; dsimp only; rotate_left; clear_value xS)
    | (intro xS; refine keeps_gen_fst (z := z) (x := xS) ?_ (fun _ => ?_); revert xS; dsimp only; rotate_left; clear_value xS)
    | intro _
    | lift_lets
    | with_reducible apply putLanes_keeps
    | with_reducible exact Keeps.refl _
    | split
    | dsimp only

theorem enqueue_keeps {z : State} (s : State) (l : Nat) (f : Frame) (hK : Keeps z s) : Keeps z (enqueue s l f) := by
  unfold enqueue
  repeat' first
    | with_reducible assumption
    | (intro xS; refine keeps_gen (z := z) (x := xS) ?_ (fun _ => ?_); revert xS; dsimp only; rotate_left; clear_value xS)
    | (intro xS; refine keeps_gen_fst (z := z) (x := xS) ?_ (fun _ => ?_); revert xS; dsimp only; rotate_left; clear_value xS)
    | intro _
    | lift_lets
    | with_reducible apply pump_keeps
    | with_reducible apply setLink_keeps
    | with_reducible exact Keeps.refl _
    | simp only [keeps_mk_eq]
    | split
    | dsimp only

theorem dropAt_keeps {z : State} (s : State) (l : Nat) (hK : Keeps z s) : Keeps z (dropAt s l) := by
  unfold dropAt
  repeat' first
    | with_reducible assumption
    | intro _
    | with_reducible apply cnt_keeps
    | with_reducible exact Keeps.refl _
    | split
    | dsimp only

theorem sendHop_keeps {z : State} (s : State) (d : Nat) (f : Frame) (hK : Keeps z s) : Keeps z (sendHop s d f) := by
  unfold sendHop
  repeat' first
    | with_reducible assumption
    | (intro xS; refine keeps_gen (z := z) (x := xS) ?_ (fun _ => ?_); revert xS; dsimp only; rotate_left; clear_value xS)
    | (intro xS; refine keeps_gen_fst (z := z) (x := xS) ?_ (fun _ => ?_); revert xS; dsimp only; rotate_left; clear_value xS)
    | intro _
    | lift_lets
    | with_reducible apply enqueue_keeps
    | with_reducible apply dropAt_keeps
    | with_reducible exact Keeps.refl _
    | simp only [keeps_mk_eq]
    | split
    | dsimp only

theorem launch_keeps {z : State} (s : State) (f : Frame) (hK : Keeps z s) : Keeps z (launch s f) := by
  unfold launch
  repeat' first
    | with_reducible assumption
    | (intro xS; refine keeps_gen (z := z) (x := xS) ?_ (fun _ => ?_); revert xS; dsimp only; rotate_left; clear_value xS)
    | (intro xS; refine keeps_gen_fst (z := z) (x := xS) ?_ (fun _ => ?_); revert xS; dsimp only; rotate_left; clear_value xS)
    | intro _
    | lift_lets
    | with_reducible apply setLink_keeps
    | with_reducible apply sendHop_keeps
    | with_reducible exact Keeps.refl _
    | simp only [keeps_mk_eq]
    | split
    | dsimp only

theorem showAgl_keeps {z : State} (s : State) (hK : Keeps z s) : Keeps z (showAgl s) := by
  unfold showAgl
  repeat' first
    | with_reducible assumption
    | (intro xS; refine keeps_gen (z := z) (x := xS) ?_ (fun _ => ?_); revert xS; dsimp only; rotate_left; clear_value xS)
    | (intro xS; refine keeps_gen_fst (z := z) (x := xS) ?_ (fun _ => ?_); revert xS; dsimp only; rotate_left; clear_value xS)
    | intro _
    | lift_lets
    | with_reducible apply setReg_keeps
    | with_reducible exact Keeps.refl _
    | split
    | dsimp only

theorem addRec_keeps {z : State} (s : State) (kind : JKind) (step peer : Nat) (f : Frame) (origin : List Byte) (hK : Keeps z s) : Keeps z (addRec s kind step peer f origin) := by
  unfold addRec
  repeat' first
    | with_reducible assumption
    | (intro xS; refine keeps_gen (z := z) (x := xS) ?_ (fun _ => ?_); revert xS; dsimp only; rotate_left; clear_value xS)
    | (intro xS; refine keeps_gen_fst (z := z) (x := xS) ?_ (fun _ => ?_); revert xS; dsimp only; rotate_left; clear_value xS)
    | intro _
    | lift_lets
    | with_reducible apply showAgl_keeps
    | with_reducible exact Keeps.refl _
    | simp only [keeps_mk_eq]
    | split
    | dsimp only

theorem aglWait_keeps {z : State} (s : State) (w : JWait) (hK : Keeps z s) : Keeps z (aglWait s w) := by
  unfold aglWait
  repeat' first
    | with_reducible assumption
    | (intro xS; refine keeps_gen (z := z) (x := xS) ?_ (fun _ => ?_); revert xS; dsimp only; rotate_left; clear_value xS)
    | (intro xS; refine keeps_gen_fst (z := z) (x := xS) ?_ (fun _ => ?_); revert xS; dsimp only; rotate_left; clear_value xS)
    | intro _
    | lift_lets
    | with_reducible apply cnt_keeps
    | with_reducible apply raise_keeps
    | with_reducible exact Keeps.refl _
    | simp only [keeps_mk_eq]
    | split
    | dsimp only

theorem diverge_keeps {z : State} (s : State) (old new : Frame) (hK : Keeps z s) : Keeps z (diverge s old new) := by
  unfold diverge
  repeat' first
    | with_reducible assumption
    | (intro xS; refine keeps_gen (z := z) (x := xS) ?_ (fun _ => ?_); revert xS; dsimp only; rotate_left; clear_value xS)
    | (intro xS; refine keeps_gen_fst (z := z) (x := xS) ?_ (fun _ => ?_); revert xS; dsimp only; rotate_left; clear_value xS)
    | intro _
    | lift_lets
    | with_reducible apply raise_keeps
    | with_reducible apply cnt_keeps
    | with_reducible exact Keeps.refl _
    | split
    | dsimp only

theorem recordTx_keeps {z : State} (s : State) (f : Frame) (hK : Keeps z s) : Keeps z (recordTx s f) := by
  unfold recordTx
  repeat' first
    | with_reducible assumption
    | (intro xS; refine keeps_gen (z := z) (x := xS) ?_ (fun _ => ?_); revert xS; dsimp only; rotate_left; clear_value xS)
    | (intro xS; refine keeps_gen_fst (z := z) (x := xS) ?_ (fun _ => ?_); revert xS; dsimp only; rotate_left; clear_value xS)
    | intro _
    | lift_lets
    | with_reducible apply diverge_keeps
    | with_reducible apply addRec_keeps
    | with_reducible exact Keeps.refl _
    | simp only [keeps_mk_eq]
    | split
    | dsimp only

theorem noteStat_keeps {z : State} (s : State) (o : Owner) (st : Nat) (hK : Keeps z s) : Keeps z (noteStat s o st) := by
  unfold noteStat
  repeat' first
    | with_reducible assumption
    | (intro xS; refine keeps_gen (z := z) (x := xS) ?_ (fun _ => ?_); revert xS; dsimp only; rotate_left; clear_value xS)
    | (intro xS; refine keeps_gen_fst (z := z) (x := xS) ?_ (fun _ => ?_); revert xS; dsimp only; rotate_left; clear_value xS)
    | intro _
    | lift_lets
    | with_reducible exact Keeps.refl _
    | simp only [keeps_mk_eq]
    | split
    | dsimp only

theorem unsent_keeps {z : State} (s : State) (f : Frame) (o : Owner) (hK : Keeps z s) : Keeps z (unsent s f o) := by
  unfold unsent
  repeat' first
    | with_reducible assumption
    | (intro xS; refine keeps_gen (z := z) (x := xS) ?_ (fun _ => ?_); revert xS; dsimp only; rotate_left; clear_value xS)
    | (intro xS; refine keeps_gen_fst (z := z) (x := xS) ?_ (fun _ => ?_); revert xS; dsimp only; rotate_left; clear_value xS)
    | intro _
    | lift_lets
    | with_reducible apply xlatInvalid_keeps
    | with_reducible apply noteStat_keeps
    | with_reducible exact Keeps.refl _
    | simp only [keeps_mk_eq]
    | split
    | dsimp only

theorem sendSeq_keeps {z : State} (s : State) (f : Frame) (o : Owner) (collid : Nat) (hK : Keeps z s) : Keeps z (sendSeq s f o collid) := by
  unfold sendSeq
  repeat' first
    | with_reducible assumption
    | (intro xS; refine keeps_gen (z := z) (x := xS) ?_ (fun _ => ?_); revert xS; dsimp only; rotate_left; clear_value xS)
    | (intro xS; refine keeps_gen_fst (z := z) (x := xS) ?_ (fun _ => ?_); revert xS; dsimp only; rotate_left; clear_value xS)
    | intro _
    | lift_lets
    | with_reducible apply launch_keeps
    | with_reducible apply unsent_keeps
    | with_reducible exact Keeps.refl _
    | simp only [keeps_mk_eq]
    | split
    | dsimp only

theorem emit_keeps {z : State} (s : State) (f : Frame) (o : Owner) (collid : Nat) (hK : Keeps z s) : Keeps z (emit s f o collid) := by
  unfold emit
  repeat' first
    | with_reducible assumption
    | (intro xS; refine keeps_gen (z := z) (x := xS) ?_ (fun _ => ?_); revert xS; dsimp only; rotate_left; clear_value xS)
    | (intro xS; refine keeps_gen_fst (z := z) (x := xS) ?_ (fun _ => ?_); revert xS; dsimp only; rotate_left; clear_value xS)
    | intro _
    | lift_lets
    | with_reducible apply unsent_keeps
    | with_reducible apply sendSeq_keeps
    | with_reducible apply recordTx_keeps
    | with_reducible apply aglWait_keeps
    | with_reducible exact Keeps.refl _
    | split
    | dsimp only

theorem hubSend_keeps {z : State} (s : State) (f : Frame) (o : Owner) (collid : Nat) (hK : Keeps z s) : Keeps z (hubSend s f o collid) := by
  unfold hubSend
  repeat' first
    | with_reducible assumption
    | intro _
    | with_reducible apply emit_keeps
    | with_reducible exact Keeps.refl _
    | split
    | dsimp only

theorem clearStat_keeps {z : State} (s : State) (o : Owner) (hK : Keeps z s) : Keeps z (clearStat s o) := by
  unfold clearStat
  repeat' first
    | with_reducible assumption
    | (intro xS; refine keeps_gen (z := z) (x := xS) ?_ (fun _ => ?_); revert xS; dsimp only; rotate_left; clear_value xS)
    | (intro xS; refine keeps_gen_fst (z := z) (x := xS) ?_ (fun _ => ?_); revert xS; dsimp only; rotate_left; clear_value xS)
    | intro _
    | lift_lets
    | with_reducible exact Keeps.refl _
    | simp only [keeps_mk_eq]
    | split
    | dsimp only

end Sys2Proof.Machine
end

