-- ==== Sys2Proof/Laws/KeepsScale.lean ====
section
/-! SUPPORT. What the operations of Scale keep. -/
namespace Sys2Proof.Machine

theorem estCount_keeps {z : State} (s : State) (slot off bit n : Nat) (hK : Keeps z s) : Keeps z (estCount s slot off bit n) := by
  unfold estCount
  repeat' first
    | with_reducible assumption
    | (intro xS; refine keeps_gen (z := z) (x := xS) ?_ (fun _ => ?_); revert xS; dsimp only; rotate_left; clear_value xS)
    | (intro xS; refine keeps_gen_fst (z := z) (x := xS) ?_ (fun _ => ?_); revert xS; dsimp only; rotate_left; clear_value xS)
    | intro _
    | lift_lets
    | with_reducible apply wrLE_keeps
    | with_reducible apply raise_keeps
    | with_reducible exact Keeps.refl _
    | split
    | dsimp only

theorem estCounts_keeps {z : State} (s : State) (slot : Nat) (a : EstAcc) (hK : Keeps z s) : Keeps z (estCounts s slot a) := by
  unfold estCounts
  repeat' first
    | with_reducible assumption
    | intro _
    | with_reducible apply estCount_keeps
    | with_reducible exact Keeps.refl _
    | split
    | dsimp only

theorem estFlags_keeps {z : State} (s : State) (slot : Nat) (empty corr nox : Bool) (hK : Keeps z s) : Keeps z (estFlags s slot empty corr nox) := by
  unfold estFlags
  repeat' first
    | with_reducible assumption
    | (intro xS; refine keeps_gen (z := z) (x := xS) ?_ (fun _ => ?_); revert xS; dsimp only; rotate_left; clear_value xS)
    | (intro xS; refine keeps_gen_fst (z := z) (x := xS) ?_ (fun _ => ?_); revert xS; dsimp only; rotate_left; clear_value xS)
    | intro _
    | lift_lets
    | with_reducible apply wrLE_keeps
    | with_reducible exact Keeps.refl _
    | split
    | dsimp only

theorem hubRefused_keeps {z : State} (s : State) (e : AccErr) (n : Nat) (hK : Keeps z s) : Keeps z (hubRefused s e n) := by
  unfold hubRefused
  repeat' first
    | with_reducible assumption
    | intro _
    | with_reducible apply raiseIf_keeps
    | with_reducible apply raiseAcc_keeps
    | with_reducible exact Keeps.refl _
    | split
    | dsimp only

theorem estNox_keeps {z : State} (s : State) (slot n : Nat) (e : Option AccErr) (hK : Keeps z s) : Keeps z (estNox s slot n e) := by
  unfold estNox
  repeat' first
    | with_reducible assumption
    | (intro xS; refine keeps_gen (z := z) (x := xS) ?_ (fun _ => ?_); revert xS; dsimp only; rotate_left; clear_value xS)
    | (intro xS; refine keeps_gen_fst (z := z) (x := xS) ?_ (fun _ => ?_); revert xS; dsimp only; rotate_left; clear_value xS)
    | intro _
    | lift_lets
    | with_reducible apply estFlags_keeps
    | with_reducible apply wrLE_keeps
    | with_reducible apply hubRefused_keeps
    | with_reducible exact Keeps.refl _
    | simp only [keeps_mk_eq]
    | split
    | dsimp only

theorem estTensor_keeps {z : State} (s : State) (n slot : Nat) (c : EstCfg) (hK : Keeps z s) : Keeps z (estTensor s n slot c) := by
  unfold estTensor
  repeat' first
    | with_reducible assumption
    | (intro xS; refine keeps_gen (z := z) (x := xS) ?_ (fun _ => ?_); revert xS; dsimp only; rotate_left; clear_value xS)
    | (intro xS; refine keeps_gen_fst (z := z) (x := xS) ?_ (fun _ => ?_); revert xS; dsimp only; rotate_left; clear_value xS)
    | intro _
    | lift_lets
    | with_reducible apply estCounts_keeps
    | with_reducible apply estNox_keeps
    | with_reducible apply estFlags_keeps
    | with_reducible apply wrLE_keeps
    | with_reducible exact Keeps.refl _
    | simp only [keeps_mk_eq]
    | split
    | dsimp only

theorem chanCommit_keeps {z : State} (sd : ScaleDesc) (w : Nat) (c : EstCfg) (par : Nat) (x : State × Nat × Nat) (ch : Nat) (hK : Keeps z x.1) : Keeps z (chanCommit sd w c par x ch).1 := by
  unfold chanCommit
  repeat' first
    | with_reducible assumption
    | (intro xS; refine keeps_gen (z := z) (x := xS) ?_ (fun _ => ?_); revert xS; dsimp only; rotate_left; clear_value xS)
    | (intro xS; refine keeps_gen_fst (z := z) (x := xS) ?_ (fun _ => ?_); revert xS; dsimp only; rotate_left; clear_value xS)
    | intro _
    | lift_lets
    | with_reducible apply wrLE_keeps
    | with_reducible exact Keeps.refl _
    | with_reducible refine keeps_fst (by assumption) ?_
    | split
    | dsimp only

theorem estChannel_keeps {z : State} (s : State) (n slot : Nat) (c : EstCfg) (hK : Keeps z s) : Keeps z (estChannel s n slot c) := by
  unfold estChannel
  repeat' first
    | with_reducible assumption
    | (intro xS; refine keeps_gen (z := z) (x := xS) ?_ (fun _ => ?_); revert xS; dsimp only; rotate_left; clear_value xS)
    | (intro xS; refine keeps_gen_fst (z := z) (x := xS) ?_ (fun _ => ?_); revert xS; dsimp only; rotate_left; clear_value xS)
    | intro _
    | lift_lets
    | with_reducible apply estCounts_keeps
    | with_reducible apply estNox_keeps
    | with_reducible apply chanCommit_keeps
    | with_reducible apply estFlags_keeps
    | with_reducible apply wrLE_keeps
    | with_reducible apply raise_keeps
    | with_reducible apply setFld_keeps
    | with_reducible apply cntAdd_keeps
    | with_reducible exact Keeps.refl _
    | with_reducible refine keeps_foldl (fun _ _ _ => ?_) _ ?_
    | with_reducible refine keeps_foldl_fst (fun _ _ _ => ?_) _ ?_
    | with_reducible refine keeps_fst (by assumption) ?_
    | simp only [keeps_mk_eq]
    | split
    | dsimp only

theorem flushCheck_keeps {z : State} (s : State) (n slot : Nat) (c : EstCfg) (hK : Keeps z s) : Keeps z (flushCheck s n slot c) := by
  unfold flushCheck
  repeat' first
    | with_reducible assumption
    | (intro xS; refine keeps_gen (z := z) (x := xS) ?_ (fun _ => ?_); revert xS; dsimp only; rotate_left; clear_value xS)
    | (intro xS; refine keeps_gen_fst (z := z) (x := xS) ?_ (fun _ => ?_); revert xS; dsimp only; rotate_left; clear_value xS)
    | intro _
    | lift_lets
    | with_reducible apply raiseIf_keeps
    | with_reducible exact Keeps.refl _
    | split
    | dsimp only

theorem estCommit_keeps {z : State} (n : Nat) (s : State) (slot : Nat) (hK : Keeps z s) : Keeps z (estCommit n s slot) := by
  unfold estCommit
  repeat' first
    | with_reducible assumption
    | (intro xS; refine keeps_gen (z := z) (x := xS) ?_ (fun _ => ?_); revert xS; dsimp only; rotate_left; clear_value xS)
    | (intro xS; refine keeps_gen_fst (z := z) (x := xS) ?_ (fun _ => ?_); revert xS; dsimp only; rotate_left; clear_value xS)
    | intro _
    | lift_lets
    | with_reducible apply flushCheck_keeps
    | with_reducible apply estTensor_keeps
    | with_reducible apply estChannel_keeps
    | with_reducible exact Keeps.refl _
    | simp only [keeps_mk_eq]
    | split
    | dsimp only

theorem setFade_keeps {z : State} (s : State) (g : Nat) (f : Fade) (hK : Keeps z s) : Keeps z (setFade s g f) := by
  unfold setFade
  repeat' first
    | with_reducible assumption
    | (intro xS; refine keeps_gen (z := z) (x := xS) ?_ (fun _ => ?_); revert xS; dsimp only; rotate_left; clear_value xS)
    | (intro xS; refine keeps_gen_fst (z := z) (x := xS) ?_ (fun _ => ?_); revert xS; dsimp only; rotate_left; clear_value xS)
    | intro _
    | lift_lets
    | with_reducible exact Keeps.refl _
    | simp only [keeps_mk_eq]
    | split
    | dsimp only

theorem fadeCommit_keeps {z : State} (n : Nat) (s : State) (g : Nat) (hK : Keeps z s) : Keeps z (fadeCommit n s g) := by
  unfold fadeCommit
  repeat' first
    | with_reducible assumption
    | (intro xS; refine keeps_gen (z := z) (x := xS) ?_ (fun _ => ?_); revert xS; dsimp only; rotate_left; clear_value xS)
    | (intro xS; refine keeps_gen_fst (z := z) (x := xS) ?_ (fun _ => ?_); revert xS; dsimp only; rotate_left; clear_value xS)
    | intro _
    | lift_lets
    | with_reducible apply setFade_keeps
    | with_reducible apply raise_keeps
    | with_reducible apply setFld_keeps
    | with_reducible apply raiseIf_keeps
    | with_reducible exact Keeps.refl _
    | split
    | dsimp only

theorem sclCommit_keeps {z : State} (s : State) (n : Nat) (hK : Keeps z s) : Keeps z (sclCommit s n) := by
  unfold sclCommit
  repeat' first
    | with_reducible assumption
    | intro _
    | with_reducible apply fadeCommit_keeps
    | with_reducible apply estCommit_keeps
    | with_reducible exact Keeps.refl _
    | with_reducible refine keeps_foldl (fun _ _ _ => ?_) _ ?_
    | with_reducible refine keeps_foldl_fst (fun _ _ _ => ?_) _ ?_
    | split
    | dsimp only

theorem setLs_keeps {z : State} (s : State) (e : Nat) (hK : Keeps z s) : Keeps z (setLs s e) := by
  unfold setLs
  repeat' first
    | with_reducible assumption
    | (intro xS; refine keeps_gen (z := z) (x := xS) ?_ (fun _ => ?_); revert xS; dsimp only; rotate_left; clear_value xS)
    | (intro xS; refine keeps_gen_fst (z := z) (x := xS) ?_ (fun _ => ?_); revert xS; dsimp only; rotate_left; clear_value xS)
    | intro _
    | lift_lets
    | with_reducible apply setFld_keeps
    | with_reducible exact Keeps.refl _
    | simp only [keeps_mk_eq]
    | split
    | dsimp only

theorem lsHalve_keeps {z : State} (s : State) (low : Nat) (hK : Keeps z s) : Keeps z (lsHalve s low) := by
  unfold lsHalve
  repeat' first
    | with_reducible assumption
    | (intro xS; refine keeps_gen (z := z) (x := xS) ?_ (fun _ => ?_); revert xS; dsimp only; rotate_left; clear_value xS)
    | (intro xS; refine keeps_gen_fst (z := z) (x := xS) ?_ (fun _ => ?_); revert xS; dsimp only; rotate_left; clear_value xS)
    | intro _
    | lift_lets
    | with_reducible apply setLs_keeps
    | with_reducible apply raiseIf_keeps
    | with_reducible exact Keeps.refl _
    | simp only [keeps_mk_eq]
    | split
    | dsimp only

theorem lsDouble_keeps {z : State} (s : State) (m : Nat) (hK : Keeps z s) : Keeps z (lsDouble s m) := by
  unfold lsDouble
  repeat' first
    | with_reducible assumption
    | (intro xS; refine keeps_gen (z := z) (x := xS) ?_ (fun _ => ?_); revert xS; dsimp only; rotate_left; clear_value xS)
    | (intro xS; refine keeps_gen_fst (z := z) (x := xS) ?_ (fun _ => ?_); revert xS; dsimp only; rotate_left; clear_value xS)
    | intro _
    | lift_lets
    | with_reducible apply setLs_keeps
    | with_reducible exact Keeps.refl _
    | simp only [keeps_mk_eq]
    | split
    | dsimp only

theorem lsWrite_keeps {z : State} (s : State) (n : Nat) (hK : Keeps z s) : Keeps z (lsWrite s n) := by
  unfold lsWrite
  repeat' first
    | with_reducible assumption
    | (intro xS; refine keeps_gen (z := z) (x := xS) ?_ (fun _ => ?_); revert xS; dsimp only; rotate_left; clear_value xS)
    | (intro xS; refine keeps_gen_fst (z := z) (x := xS) ?_ (fun _ => ?_); revert xS; dsimp only; rotate_left; clear_value xS)
    | intro _
    | lift_lets
    | with_reducible apply wrBytes_keeps
    | with_reducible apply traffic_keeps
    | with_reducible apply memWr_keeps
    | with_reducible apply unpoison_keeps
    | with_reducible apply raise_keeps
    | with_reducible exact Keeps.refl _
    | simp only [keeps_mk_eq]
    | split
    | dsimp only

theorem estSample_keeps {z : State} (s : State) (hK : Keeps z s) : Keeps z (estSample s) := by
  unfold estSample
  repeat' first
    | with_reducible assumption
    | (intro xS; refine keeps_gen (z := z) (x := xS) ?_ (fun _ => ?_); revert xS; dsimp only; rotate_left; clear_value xS)
    | (intro xS; refine keeps_gen_fst (z := z) (x := xS) ?_ (fun _ => ?_); revert xS; dsimp only; rotate_left; clear_value xS)
    | intro _
    | lift_lets
    | with_reducible apply applyRefused_keeps
    | with_reducible apply estCount_keeps
    | with_reducible exact Keeps.refl _
    | with_reducible refine keeps_foldl (fun _ _ _ => ?_) _ ?_
    | with_reducible refine keeps_foldl_fst (fun _ _ _ => ?_) _ ?_
    | simp only [keeps_mk_eq]
    | split
    | dsimp only

theorem rangeReset_keeps {z : State} (n : Nat) (s : State) (slot : Nat) (hK : Keeps z s) : Keeps z (rangeReset n s slot) := by
  unfold rangeReset
  repeat' first
    | with_reducible assumption
    | (intro xS; refine keeps_gen (z := z) (x := xS) ?_ (fun _ => ?_); revert xS; dsimp only; rotate_left; clear_value xS)
    | (intro xS; refine keeps_gen_fst (z := z) (x := xS) ?_ (fun _ => ?_); revert xS; dsimp only; rotate_left; clear_value xS)
    | intro _
    | lift_lets
    | with_reducible apply wrBytes_keeps
    | with_reducible apply hubRefused_keeps
    | with_reducible exact Keeps.refl _
    | simp only [keeps_mk_eq]
    | split
    | dsimp only

theorem sclOpen_keeps {z : State} (s : State) (n : Nat) (hK : Keeps z s) : Keeps z (sclOpen s n) := by
  unfold sclOpen
  repeat' first
    | with_reducible assumption
    | (intro xS; refine keeps_gen (z := z) (x := xS) ?_ (fun _ => ?_); revert xS; dsimp only; rotate_left; clear_value xS)
    | (intro xS; refine keeps_gen_fst (z := z) (x := xS) ?_ (fun _ => ?_); revert xS; dsimp only; rotate_left; clear_value xS)
    | intro _
    | lift_lets
    | with_reducible apply estSample_keeps
    | with_reducible apply lsWrite_keeps
    | with_reducible apply lsDouble_keeps
    | with_reducible apply rangeReset_keeps
    | with_reducible exact Keeps.refl _
    | with_reducible refine keeps_foldl (fun _ _ _ => ?_) _ ?_
    | with_reducible refine keeps_foldl_fst (fun _ _ _ => ?_) _ ?_
    | simp only [keeps_mk_eq]
    | split
    | dsimp only

end Sys2Proof.Machine
end

