-- ==== Sys2Proof/Laws/KeepsAbandon.lean ====
section
/-! SUPPORT. What the operations of Abandon keep. -/
namespace Sys2Proof.Machine

theorem sendVote_keeps {z : State} (s : State) (lc step epoch arg a b phase kind : Nat) (o : Owner) (hK : Keeps z s) : Keeps z (sendVote s lc step epoch arg a b phase kind o) := by
  unfold sendVote
  repeat' first
    | with_reducible assumption
    | intro _
    | with_reducible apply hubSend_keeps
    | with_reducible exact Keeps.refl _
    | split
    | dsimp only

theorem agreeApply_keeps {z : State} (s : State) (flag : Bool) (low : Nat) (hK : Keeps z s) : Keeps z (agreeApply s flag low) := by
  unfold agreeApply
  repeat' first
    | with_reducible assumption
    | (intro xS; refine keeps_gen (z := z) (x := xS) ?_ (fun _ => ?_); revert xS; dsimp only; rotate_left; clear_value xS)
    | (intro xS; refine keeps_gen_fst (z := z) (x := xS) ?_ (fun _ => ?_); revert xS; dsimp only; rotate_left; clear_value xS)
    | intro _
    | lift_lets
    | with_reducible apply lsHalve_keeps
    | with_reducible apply tmOff_keeps
    | with_reducible exact Keeps.refl _
    | simp only [keeps_mk_eq]
    | split
    | dsimp only

theorem agreeNotice_keeps {z : State} (s : State) (hK : Keeps z s) : Keeps z (agreeNotice s) := by
  unfold agreeNotice
  repeat' first
    | with_reducible assumption
    | (intro xS; refine keeps_gen (z := z) (x := xS) ?_ (fun _ => ?_); revert xS; dsimp only; rotate_left; clear_value xS)
    | (intro xS; refine keeps_gen_fst (z := z) (x := xS) ?_ (fun _ => ?_); revert xS; dsimp only; rotate_left; clear_value xS)
    | intro _
    | lift_lets
    | with_reducible apply tmArm_keeps
    | with_reducible apply sendVote_keeps
    | with_reducible exact Keeps.refl _
    | simp only [keeps_mk_eq]
    | split
    | dsimp only

theorem agreePhase0_keeps {z : State} (s : State) (hK : Keeps z s) : Keeps z (agreePhase0 s) := by
  unfold agreePhase0
  repeat' first
    | with_reducible assumption
    | (intro xS; refine keeps_gen (z := z) (x := xS) ?_ (fun _ => ?_); revert xS; dsimp only; rotate_left; clear_value xS)
    | (intro xS; refine keeps_gen_fst (z := z) (x := xS) ?_ (fun _ => ?_); revert xS; dsimp only; rotate_left; clear_value xS)
    | intro _
    | lift_lets
    | with_reducible apply tmArm_keeps
    | with_reducible apply sendVote_keeps
    | with_reducible exact Keeps.refl _
    | simp only [keeps_mk_eq]
    | split
    | dsimp only

theorem agreeBegin_keeps {z : State} (s : State) (cause1 : Bool) (low : Nat) (hK : Keeps z s) : Keeps z (agreeBegin s cause1 low) := by
  unfold agreeBegin
  repeat' first
    | with_reducible assumption
    | (intro xS; refine keeps_gen (z := z) (x := xS) ?_ (fun _ => ?_); revert xS; dsimp only; rotate_left; clear_value xS)
    | (intro xS; refine keeps_gen_fst (z := z) (x := xS) ?_ (fun _ => ?_); revert xS; dsimp only; rotate_left; clear_value xS)
    | intro _
    | lift_lets
    | with_reducible apply agreeApply_keeps
    | with_reducible apply agreePhase0_keeps
    | with_reducible apply agreeNotice_keeps
    | with_reducible exact Keeps.refl _
    | simp only [keeps_mk_eq]
    | split
    | dsimp only

theorem xlatSwitch_keeps {z : State} (s : State) (hK : Keeps z s) : Keeps z (xlatSwitch s) := by
  unfold xlatSwitch
  repeat' first
    | with_reducible assumption
    | (intro xS; refine keeps_gen (z := z) (x := xS) ?_ (fun _ => ?_); revert xS; dsimp only; rotate_left; clear_value xS)
    | (intro xS; refine keeps_gen_fst (z := z) (x := xS) ?_ (fun _ => ?_); revert xS; dsimp only; rotate_left; clear_value xS)
    | intro _
    | lift_lets
    | with_reducible apply setFld_keeps
    | with_reducible exact Keeps.refl _
    | simp only [keeps_mk_eq]
    | split
    | dsimp only

theorem abandonWork_keeps {z : State} (s : State) (ns : List Nat) (hK : Keeps z s) : Keeps z (abandonWork s ns) := by
  unfold abandonWork
  repeat' first
    | with_reducible assumption
    | (intro xS; refine keeps_gen (z := z) (x := xS) ?_ (fun _ => ?_); revert xS; dsimp only; rotate_left; clear_value xS)
    | (intro xS; refine keeps_gen_fst (z := z) (x := xS) ?_ (fun _ => ?_); revert xS; dsimp only; rotate_left; clear_value xS)
    | intro _
    | lift_lets
    | with_reducible exact Keeps.refl _
    | with_reducible refine keeps_foldl (fun _ _ _ => ?_) _ ?_
    | with_reducible refine keeps_foldl_fst (fun _ _ _ => ?_) _ ?_
    | simp only [keeps_mk_eq]
    | split
    | with_reducible apply keeps_mk_all
    | with_reducible apply smWf_smPut
    | with_reducible apply smWf_smUpd
    | with_reducible apply smWf_smDel
    | with_reducible apply smWf_filter
    | with_reducible apply smWf_foldl
    | intro _
    | rfl
    | split
    | dsimp only

theorem abandonEvent_keeps {z : State} (cause : Nat) (s : State) (n : Nat) (hK : Keeps z s) : Keeps z (abandonEvent cause s n) := by
  unfold abandonEvent
  repeat' first
    | with_reducible assumption
    | intro _
    | with_reducible apply raise_keeps
    | with_reducible apply sysObjInc_keeps
    | with_reducible exact Keeps.refl _
    | split
    | dsimp only

theorem cancelHeld_keeps {z : State} (s : State) (hK : Keeps z s) : Keeps z (cancelHeld s) := by
  unfold cancelHeld
  repeat' first
    | with_reducible assumption
    | (intro xS; refine keeps_gen (z := z) (x := xS) ?_ (fun _ => ?_); revert xS; dsimp only; rotate_left; clear_value xS)
    | (intro xS; refine keeps_gen_fst (z := z) (x := xS) ?_ (fun _ => ?_); revert xS; dsimp only; rotate_left; clear_value xS)
    | intro _
    | lift_lets
    | with_reducible apply setFld_keeps
    | with_reducible exact Keeps.refl _
    | simp only [keeps_mk_eq]
    | split
    | dsimp only

theorem setEpoch_keeps {z : State} (s : State) (e : Nat) (hK : Keeps z s) : Keeps z (setEpoch s e) := by
  unfold setEpoch
  repeat' first
    | with_reducible assumption
    | (intro xS; refine keeps_gen (z := z) (x := xS) ?_ (fun _ => ?_); revert xS; dsimp only; rotate_left; clear_value xS)
    | (intro xS; refine keeps_gen_fst (z := z) (x := xS) ?_ (fun _ => ?_); revert xS; dsimp only; rotate_left; clear_value xS)
    | intro _
    | lift_lets
    | with_reducible apply xlatSwitch_keeps
    | with_reducible apply sysObj_keeps
    | with_reducible exact Keeps.refl _
    | simp only [keeps_mk_eq]
    | split
    | dsimp only

theorem abandonUnder_keeps {z : State} (s : State) (low cause e : Nat) (hK : Keeps z s) : Keeps z (abandonUnder s low cause e) := by
  unfold abandonUnder
  have h1 := setEpoch_keeps s e hK
  generalize setEpoch s e = s1 at h1
  dsimp only
  split
  · exact agreeBegin_keeps _ _ _ h1
  · refine agreeBegin_keeps _ _ _ (cancelHeld_keeps _ (sysObj_keeps _ _ _ ?_))
    simp only [keeps_mk_eq]
    refine keeps_foldl (fun _ _ _ => ?_) _ (abandonWork_keeps _ _ ?_)
    · apply abandonEvent_keeps; assumption
    · simp only [keeps_mk_eq]; exact h1

theorem abandon_keeps {z : State} (s : State) (n cause : Nat) (hK : Keeps z s) : Keeps z (abandon s n cause) := by
  unfold abandon
  repeat' first
    | with_reducible assumption
    | (intro xS; refine keeps_gen (z := z) (x := xS) ?_ (fun _ => ?_); revert xS; dsimp only; rotate_left; clear_value xS)
    | (intro xS; refine keeps_gen_fst (z := z) (x := xS) ?_ (fun _ => ?_); revert xS; dsimp only; rotate_left; clear_value xS)
    | intro _
    | lift_lets
    | with_reducible apply raise_keeps
    | with_reducible apply abandonUnder_keeps
    | with_reducible exact Keeps.refl _
    | simp only [keeps_mk_eq]
    | split
    | dsimp only

theorem adoptEpoch_keeps {z : State} (s : State) (e : Nat) (hK : Keeps z s) : Keeps z (adoptEpoch s e) := by
  unfold adoptEpoch
  repeat' first
    | with_reducible assumption
    | (intro xS; refine keeps_gen (z := z) (x := xS) ?_ (fun _ => ?_); revert xS; dsimp only; rotate_left; clear_value xS)
    | (intro xS; refine keeps_gen_fst (z := z) (x := xS) ?_ (fun _ => ?_); revert xS; dsimp only; rotate_left; clear_value xS)
    | intro _
    | lift_lets
    | with_reducible apply abandonUnder_keeps
    | with_reducible exact Keeps.refl _
    | simp only [keeps_mk_eq]
    | split
    | dsimp only

end Sys2Proof.Machine
end

