-- ==== Sys2Proof/Laws/KeepsSync.lean ====
section
/-! SUPPORT. What the operations of Sync keep. -/
namespace Sys2Proof.Machine

theorem deliverSig_keeps {z : State} (s : State) (g : HeldSig) (hK : Keeps z s) : Keeps z (deliverSig s g) := by
  unfold deliverSig
  repeat' first
    | with_reducible assumption
    | (intro xS; refine keeps_gen (z := z) (x := xS) ?_ (fun _ => ?_); revert xS; dsimp only; rotate_left; clear_value xS)
    | (intro xS; refine keeps_gen_fst (z := z) (x := xS) ?_ (fun _ => ?_); revert xS; dsimp only; rotate_left; clear_value xS)
    | intro _
    | lift_lets
    | with_reducible apply objPut_keeps
    | with_reducible apply objSignal_keeps
    | with_reducible apply emit_keeps
    | with_reducible exact Keeps.refl _
    | simp only [keeps_mk_eq]
    | split
    | dsimp only

theorem releaseGo_keeps {z : State}   : ∀ (a0 : List HeldSig) (a1 : List HeldSig) (a2 : State), Keeps z a2 → Keeps z (releaseGo  a0 a1 a2) := by
  intro a0
  induction a0 with
  | nil =>
    intro a1 a2 hK
    first | rw [releaseGo] | unfold releaseGo
    repeat' first
      | with_reducible assumption
      | with_reducible apply ih
      | with_reducible apply deliverSig_keeps
      | with_reducible exact Keeps.refl _
      | with_reducible refine keeps_fst (by assumption) ?_
      | simp only [keeps_mk_eq]
      | split
      | dsimp only
  | cons x0 l0 ih =>
    intro a1 a2 hK
    first | rw [releaseGo] | unfold releaseGo
    repeat' first
      | with_reducible assumption
      | with_reducible apply ih
      | with_reducible apply deliverSig_keeps
      | with_reducible exact Keeps.refl _
      | with_reducible refine keeps_fst (by assumption) ?_
      | simp only [keeps_mk_eq]
      | split
      | dsimp only

theorem releaseSigs_keeps {z : State} (s : State) (hK : Keeps z s) : Keeps z (releaseSigs s) := by
  unfold releaseSigs
  repeat' first
    | with_reducible assumption
    | intro _
    | with_reducible apply releaseGo_keeps
    | with_reducible exact Keeps.refl _
    | split
    | dsimp only

theorem sendSig_keeps {z : State} (s : State) (g : HeldSig) (hK : Keeps z s) : Keeps z (sendSig s g) := by
  unfold sendSig
  repeat' first
    | with_reducible assumption
    | (intro xS; refine keeps_gen (z := z) (x := xS) ?_ (fun _ => ?_); revert xS; dsimp only; rotate_left; clear_value xS)
    | (intro xS; refine keeps_gen_fst (z := z) (x := xS) ?_ (fun _ => ?_); revert xS; dsimp only; rotate_left; clear_value xS)
    | intro _
    | lift_lets
    | with_reducible apply releaseSigs_keeps
    | with_reducible exact Keeps.refl _
    | simp only [keeps_mk_eq]
    | split
    | dsimp only

theorem sySend_keeps {z : State} (q : Nat) (w : PtiWord) (isSet : Bool) (v : Word) (s : State) (hK : Keeps z s) : Keeps z (sySend q w isSet v s) := by
  unfold sySend
  repeat' first
    | with_reducible assumption
    | (intro xS; refine keeps_gen (z := z) (x := xS) ?_ (fun _ => ?_); revert xS; dsimp only; rotate_left; clear_value xS)
    | (intro xS; refine keeps_gen_fst (z := z) (x := xS) ?_ (fun _ => ?_); revert xS; dsimp only; rotate_left; clear_value xS)
    | intro _
    | lift_lets
    | with_reducible apply objPut_keeps
    | with_reducible apply objAdd_keeps
    | with_reducible apply sendSig_keeps
    | with_reducible exact Keeps.refl _
    | split
    | dsimp only

theorem syReserved_keeps {z : State} (op : PtiOp) (q : Nat) (w : PtiWord) (s : State) (hK : Keeps z s) : Keeps z (syReserved op q w s) := by
  unfold syReserved
  repeat' first
    | with_reducible assumption
    | intro _
    | with_reducible apply selfFail_keeps
    | with_reducible apply cnt_keeps
    | with_reducible exact Keeps.refl _
    | split
    | dsimp only

theorem syGo_keeps {z : State} (op : PtiOp) (q : Nat) (w : PtiWord) (isSet : Bool) (v : Word) (s : State) (hK : Keeps z s) : Keeps z (syGo op q w isSet v s) := by
  unfold syGo
  repeat' first
    | with_reducible assumption
    | intro _
    | with_reducible apply selfFail_keeps
    | with_reducible apply xlatInvalid_keeps
    | with_reducible apply seqNext_keeps
    | with_reducible apply sySend_keeps
    | with_reducible exact Keeps.refl _
    | split
    | dsimp only

theorem opSyncAdd_keeps {z : State} (q : Nat) (w : PtiWord) (s : State) (hK : Keeps z s) : Keeps z (opSyncAdd q w s) := by
  unfold opSyncAdd
  repeat' first
    | with_reducible assumption
    | (intro xS; refine keeps_gen (z := z) (x := xS) ?_ (fun _ => ?_); revert xS; dsimp only; rotate_left; clear_value xS)
    | (intro xS; refine keeps_gen_fst (z := z) (x := xS) ?_ (fun _ => ?_); revert xS; dsimp only; rotate_left; clear_value xS)
    | intro _
    | lift_lets
    | with_reducible apply syReserved_keeps
    | with_reducible apply selfFail_keeps
    | with_reducible apply cnt_keeps
    | with_reducible apply syGo_keeps
    | with_reducible exact Keeps.refl _
    | split
    | dsimp only

theorem execSyncAdd_keeps {z : State} (q : Fin 256) (w : PtiWord) (s : State) (hK : Keeps z s) : ∀ t', execSyncAdd q w s = .next t' → Keeps z t' := by
  unfold execSyncAdd
  repeat' first
    | with_reducible (refine (run_keeps ?_ : ∀ t, _ = Host.Outcome.next t → Keeps _ t))
    | with_reducible assumption
    | intro _
    | with_reducible apply ptiSelf_keeps
    | with_reducible apply opSyncAdd_keeps
    | with_reducible exact Keeps.refl _
    | split
    | dsimp only

theorem opSyncSet_keeps {z : State} (q : Nat) (w : PtiWord) (s : State) (hK : Keeps z s) : Keeps z (opSyncSet q w s) := by
  unfold opSyncSet
  repeat' first
    | with_reducible assumption
    | intro _
    | with_reducible apply syReserved_keeps
    | with_reducible apply selfFail_keeps
    | with_reducible apply syGo_keeps
    | with_reducible exact Keeps.refl _
    | split
    | dsimp only

theorem execSyncSet_keeps {z : State} (q : Fin 256) (w : PtiWord) (s : State) (hK : Keeps z s) : ∀ t', execSyncSet q w s = .next t' → Keeps z t' := by
  unfold execSyncSet
  repeat' first
    | with_reducible (refine (run_keeps ?_ : ∀ t, _ = Host.Outcome.next t → Keeps _ t))
    | with_reducible assumption
    | intro _
    | with_reducible apply ptiSelf_keeps
    | with_reducible apply opSyncSet_keeps
    | with_reducible exact Keeps.refl _
    | split
    | dsimp only

theorem waitDone_keeps {z : State} (q pd : Nat) (s : State) (hK : Keeps z s) : Keeps z (waitDone q pd s) := by
  unfold waitDone
  repeat' first
    | with_reducible assumption
    | (intro xS; refine keeps_gen (z := z) (x := xS) ?_ (fun _ => ?_); revert xS; dsimp only; rotate_left; clear_value xS)
    | (intro xS; refine keeps_gen_fst (z := z) (x := xS) ?_ (fun _ => ?_); revert xS; dsimp only; rotate_left; clear_value xS)
    | intro _
    | lift_lets
    | with_reducible apply seqNext_keeps
    | with_reducible apply setSeq_keeps
    | with_reducible exact Keeps.refl _
    | simp only [keeps_mk_eq]
    | split
    | dsimp only

theorem waitGo_keeps {z : State} (q : Nat) (w : PtiWord) (timed : Bool) (tmo : Nat) (s : State) (hK : Keeps z s) : Keeps z (waitGo q w timed tmo s) := by
  unfold waitGo
  repeat' first
    | with_reducible assumption
    | (intro xS; refine keeps_gen (z := z) (x := xS) ?_ (fun _ => ?_); revert xS; dsimp only; rotate_left; clear_value xS)
    | (intro xS; refine keeps_gen_fst (z := z) (x := xS) ?_ (fun _ => ?_); revert xS; dsimp only; rotate_left; clear_value xS)
    | intro _
    | lift_lets
    | with_reducible apply waitDone_keeps
    | with_reducible apply setSeq_keeps
    | with_reducible exact Keeps.refl _
    | simp only [keeps_mk_eq]
    | split
    | dsimp only

theorem opWait_keeps {z : State} (q : Nat) (w : PtiWord) (s : State) (hK : Keeps z s) : Keeps z (opWait q w s) := by
  unfold opWait
  repeat' first
    | with_reducible assumption
    | intro _
    | with_reducible apply selfFail_keeps
    | with_reducible apply waitGo_keeps
    | with_reducible exact Keeps.refl _
    | split
    | dsimp only

theorem execWait_keeps {z : State} (q : Fin 256) (w : PtiWord) (s : State) (hK : Keeps z s) : ∀ t', execWait q w s = .next t' → Keeps z t' := by
  unfold execWait
  repeat' first
    | with_reducible (refine (run_keeps ?_ : ∀ t, _ = Host.Outcome.next t → Keeps _ t))
    | with_reducible assumption
    | intro _
    | with_reducible apply ptiSelf_keeps
    | with_reducible apply opWait_keeps
    | with_reducible exact Keeps.refl _
    | split
    | dsimp only

theorem opWaitTo_keeps {z : State} (q : Nat) (w : PtiWord) (s : State) (hK : Keeps z s) : Keeps z (opWaitTo q w s) := by
  unfold opWaitTo
  repeat' first
    | with_reducible assumption
    | (intro xS; refine keeps_gen (z := z) (x := xS) ?_ (fun _ => ?_); revert xS; dsimp only; rotate_left; clear_value xS)
    | (intro xS; refine keeps_gen_fst (z := z) (x := xS) ?_ (fun _ => ?_); revert xS; dsimp only; rotate_left; clear_value xS)
    | intro _
    | lift_lets
    | with_reducible apply selfFail_keeps
    | with_reducible apply waitGo_keeps
    | with_reducible exact Keeps.refl _
    | split
    | dsimp only

theorem execWaitTo_keeps {z : State} (q : Fin 256) (w : PtiWord) (s : State) (hK : Keeps z s) : ∀ t', execWaitTo q w s = .next t' → Keeps z t' := by
  unfold execWaitTo
  repeat' first
    | with_reducible (refine (run_keeps ?_ : ∀ t, _ = Host.Outcome.next t → Keeps _ t))
    | with_reducible assumption
    | intro _
    | with_reducible apply ptiSelf_keeps
    | with_reducible apply opWaitTo_keeps
    | with_reducible exact Keeps.refl _
    | split
    | dsimp only

theorem opWaitReached_keeps {z : State} (q : Nat) (s : State) (hK : Keeps z s) : Keeps z (opWaitReached q s) := by
  unfold opWaitReached
  repeat' first
    | with_reducible assumption
    | (intro xS; refine keeps_gen (z := z) (x := xS) ?_ (fun _ => ?_); revert xS; dsimp only; rotate_left; clear_value xS)
    | (intro xS; refine keeps_gen_fst (z := z) (x := xS) ?_ (fun _ => ?_); revert xS; dsimp only; rotate_left; clear_value xS)
    | intro _
    | lift_lets
    | with_reducible apply waitDone_keeps
    | with_reducible exact Keeps.refl _
    | simp only [keeps_mk_eq]
    | split
    | dsimp only

theorem execWaitReached_keeps {z : State} (q : Fin 256) (s : State) (hK : Keeps z s) : ∀ t', execWaitReached q s = .next t' → Keeps z t' := by
  unfold execWaitReached
  repeat' first
    | with_reducible (refine (run_keeps ?_ : ∀ t, _ = Host.Outcome.next t → Keeps _ t))
    | with_reducible assumption
    | intro _
    | with_reducible apply opWaitReached_keeps
    | with_reducible exact Keeps.refl _
    | split
    | dsimp only

theorem waitExpire_keeps {z : State} (q : Nat) (i : WaitInfo) (s : State) (hK : Keeps z s) : Keeps z (waitExpire q i s) := by
  unfold waitExpire
  repeat' first
    | with_reducible assumption
    | (intro xS; refine keeps_gen (z := z) (x := xS) ?_ (fun _ => ?_); revert xS; dsimp only; rotate_left; clear_value xS)
    | (intro xS; refine keeps_gen_fst (z := z) (x := xS) ?_ (fun _ => ?_); revert xS; dsimp only; rotate_left; clear_value xS)
    | intro _
    | lift_lets
    | with_reducible apply seqNext_keeps
    | with_reducible apply raise_keeps
    | with_reducible apply setSeq_keeps
    | with_reducible exact Keeps.refl _
    | simp only [keeps_mk_eq]
    | split
    | dsimp only

theorem opSyncTimeout_keeps {z : State} (q : Nat) (s : State) (hK : Keeps z s) : Keeps z (opSyncTimeout q s) := by
  unfold opSyncTimeout
  repeat' first
    | with_reducible assumption
    | (intro xS; refine keeps_gen (z := z) (x := xS) ?_ (fun _ => ?_); revert xS; dsimp only; rotate_left; clear_value xS)
    | (intro xS; refine keeps_gen_fst (z := z) (x := xS) ?_ (fun _ => ?_); revert xS; dsimp only; rotate_left; clear_value xS)
    | intro _
    | lift_lets
    | with_reducible apply waitExpire_keeps
    | with_reducible exact Keeps.refl _
    | simp only [keeps_mk_eq]
    | split
    | dsimp only

theorem execSyncTimeout_keeps {z : State} (q : Fin 256) (s : State) (hK : Keeps z s) : ∀ t', execSyncTimeout q s = .next t' → Keeps z t' := by
  unfold execSyncTimeout
  repeat' first
    | with_reducible (refine (run_keeps ?_ : ∀ t, _ = Host.Outcome.next t → Keeps _ t))
    | with_reducible assumption
    | intro _
    | with_reducible apply opSyncTimeout_keeps
    | with_reducible exact Keeps.refl _
    | split
    | dsimp only

theorem opSyncRd_keeps {z : State} (q : Nat) (w : PtiWord) (s : State) (hK : Keeps z s) : Keeps z (opSyncRd q w s) := by
  unfold opSyncRd
  repeat' first
    | with_reducible assumption
    | (intro xS; refine keeps_gen (z := z) (x := xS) ?_ (fun _ => ?_); revert xS; dsimp only; rotate_left; clear_value xS)
    | (intro xS; refine keeps_gen_fst (z := z) (x := xS) ?_ (fun _ => ?_); revert xS; dsimp only; rotate_left; clear_value xS)
    | intro _
    | lift_lets
    | with_reducible apply selfFail_keeps
    | with_reducible apply setNdet_keeps
    | with_reducible apply seqNext_keeps
    | with_reducible apply setSeq_keeps
    | with_reducible exact Keeps.refl _
    | split
    | dsimp only

theorem execSyncRd_keeps {z : State} (q : Fin 256) (w : PtiWord) (s : State) (hK : Keeps z s) : ∀ t', execSyncRd q w s = .next t' → Keeps z t' := by
  unfold execSyncRd
  repeat' first
    | with_reducible (refine (run_keeps ?_ : ∀ t, _ = Host.Outcome.next t → Keeps _ t))
    | with_reducible assumption
    | intro _
    | with_reducible apply ptiSelf_keeps
    | with_reducible apply opSyncRd_keeps
    | with_reducible exact Keeps.refl _
    | split
    | dsimp only

end Sys2Proof.Machine
end

