-- ==== Sys2Proof/Laws/KeepsEngine.lean ====
section
/-! SUPPORT. What the operations of Engine keep. -/
namespace Sys2Proof.Machine

theorem enqueueOp_keeps {z : State} (q : Nat) (e : Eng) (op : PtiOp) (w : PtiWord) (s : State) (hK : Keeps z s) : Keeps z (enqueueOp q e op w s) := by
  unfold enqueueOp
  repeat' first
    | with_reducible assumption
    | (intro xS; refine keeps_gen (z := z) (x := xS) ?_ (fun _ => ?_); revert xS; dsimp only; rotate_left; clear_value xS)
    | (intro xS; refine keeps_gen_fst (z := z) (x := xS) ?_ (fun _ => ?_); revert xS; dsimp only; rotate_left; clear_value xS)
    | intro _
    | lift_lets
    | with_reducible apply setSeq_keeps
    | with_reducible apply seqNext_keeps
    | with_reducible apply wake_keeps
    | with_reducible exact Keeps.refl _
    | simp only [keeps_mk_eq]
    | split
    | dsimp only

theorem pendDone_keeps {z : State} (s : State) (q p : Nat) (v : Bool) (hK : Keeps z s) : Keeps z (pendDone s q p v) := by
  unfold pendDone
  repeat' first
    | with_reducible assumption
    | (intro xS; refine keeps_gen (z := z) (x := xS) ?_ (fun _ => ?_); revert xS; dsimp only; rotate_left; clear_value xS)
    | (intro xS; refine keeps_gen_fst (z := z) (x := xS) ?_ (fun _ => ?_); revert xS; dsimp only; rotate_left; clear_value xS)
    | intro _
    | lift_lets
    | with_reducible apply setSeq_keeps
    | with_reducible exact Keeps.refl _
    | simp only [keeps_mk_eq]
    | split
    | dsimp only

theorem mcastSignal_keeps {z : State} (o : EngOp) (s : State) (d : Nat) (hK : Keeps z s) : Keeps z (mcastSignal o s d) := by
  unfold mcastSignal
  repeat' first
    | with_reducible assumption
    | (intro xS; refine keeps_gen (z := z) (x := xS) ?_ (fun _ => ?_); revert xS; dsimp only; rotate_left; clear_value xS)
    | (intro xS; refine keeps_gen_fst (z := z) (x := xS) ?_ (fun _ => ?_); revert xS; dsimp only; rotate_left; clear_value xS)
    | intro _
    | lift_lets
    | with_reducible apply objSignal_keeps
    | with_reducible exact Keeps.refl _
    | simp only [keeps_mk_eq]
    | split
    | dsimp only

theorem opSignal_keeps {z : State} (s : State) (o : EngOp) (hK : Keeps z s) : Keeps z (opSignal s o) := by
  unfold opSignal
  repeat' first
    | with_reducible assumption
    | intro _
    | with_reducible apply releaseSigs_keeps
    | with_reducible apply mcastSignal_keeps
    | with_reducible apply objSignal_keeps
    | with_reducible exact Keeps.refl _
    | with_reducible refine keeps_foldl (fun _ _ _ => ?_) _ ?_
    | with_reducible refine keeps_foldl_fst (fun _ _ _ => ?_) _ ?_
    | split
    | dsimp only

theorem setOp_keeps {z : State} (s : State) (o : EngOp) (hK : Keeps z s) : Keeps z (setOp s o) := by
  unfold setOp
  repeat' first
    | with_reducible assumption
    | (intro xS; refine keeps_gen (z := z) (x := xS) ?_ (fun _ => ?_); revert xS; dsimp only; rotate_left; clear_value xS)
    | (intro xS; refine keeps_gen_fst (z := z) (x := xS) ?_ (fun _ => ?_); revert xS; dsimp only; rotate_left; clear_value xS)
    | intro _
    | lift_lets
    | with_reducible exact Keeps.refl _
    | simp only [keeps_mk_eq]
    | split
    | dsimp only

theorem dropOp_keeps {z : State} (s : State) (no : Nat) (hK : Keeps z s) : Keeps z (dropOp s no) := by
  unfold dropOp
  repeat' first
    | with_reducible assumption
    | (intro xS; refine keeps_gen (z := z) (x := xS) ?_ (fun _ => ?_); revert xS; dsimp only; rotate_left; clear_value xS)
    | (intro xS; refine keeps_gen_fst (z := z) (x := xS) ?_ (fun _ => ?_); revert xS; dsimp only; rotate_left; clear_value xS)
    | intro _
    | lift_lets
    | with_reducible exact Keeps.refl _
    | simp only [keeps_mk_eq]
    | split
    | dsimp only

theorem turnTo_keeps {z : State} (s : State) (o : EngOp) (hK : Keeps z s) : Keeps z (turnTo s o) := by
  unfold turnTo
  repeat' first
    | with_reducible assumption
    | (intro xS; refine keeps_gen (z := z) (x := xS) ?_ (fun _ => ?_); revert xS; dsimp only; rotate_left; clear_value xS)
    | (intro xS; refine keeps_gen_fst (z := z) (x := xS) ?_ (fun _ => ?_); revert xS; dsimp only; rotate_left; clear_value xS)
    | intro _
    | lift_lets
    | with_reducible exact Keeps.refl _
    | simp only [keeps_mk_eq]
    | split
    | dsimp only

theorem completeOpAt_keeps {z : State} (s : State) (o : EngOp) (status wh : Nat) (hK : Keeps z s) : Keeps z (completeOpAt s o status wh) := by
  unfold completeOpAt
  repeat' first
    | with_reducible assumption
    | (intro xS; refine keeps_gen (z := z) (x := xS) ?_ (fun _ => ?_); revert xS; dsimp only; rotate_left; clear_value xS)
    | (intro xS; refine keeps_gen_fst (z := z) (x := xS) ?_ (fun _ => ?_); revert xS; dsimp only; rotate_left; clear_value xS)
    | intro _
    | lift_lets
    | with_reducible apply dropOp_keeps
    | with_reducible apply turnTo_keeps
    | with_reducible apply failStatusAt_keeps
    | with_reducible apply releaseSigs_keeps
    | with_reducible apply opSignal_keeps
    | with_reducible apply clearStat_keeps
    | with_reducible exact Keeps.refl _
    | split
    | dsimp only

theorem completeOp_keeps {z : State} (s : State) (o : EngOp) (status : Nat) (hK : Keeps z s) : Keeps z (completeOp s o status) := by
  unfold completeOp
  repeat' first
    | with_reducible assumption
    | intro _
    | with_reducible apply completeOpAt_keeps
    | with_reducible exact Keeps.refl _
    | split
    | dsimp only

theorem issueFail_keeps {z : State} (q : Nat) (e : Eng) (op : PtiOp) (w : PtiWord) (status : Nat) (s : State) (hK : Keeps z s) : Keeps z (issueFail q e op w status s) := by
  unfold issueFail
  repeat' first
    | with_reducible assumption
    | (intro xS; refine keeps_gen (z := z) (x := xS) ?_ (fun _ => ?_); revert xS; dsimp only; rotate_left; clear_value xS)
    | (intro xS; refine keeps_gen_fst (z := z) (x := xS) ?_ (fun _ => ?_); revert xS; dsimp only; rotate_left; clear_value xS)
    | intro _
    | lift_lets
    | with_reducible apply failStatus_keeps
    | with_reducible apply seqNext_keeps
    | with_reducible apply opSignal_keeps
    | with_reducible exact Keeps.refl _
    | split
    | dsimp only

theorem ptiIssue_keeps {z : State} (op : PtiOp) (q : Nat) (w : PtiWord) (act : State → State) (s : State) (hact : ∀  t, Keeps z t → Keeps z (act  t)) (hK : Keeps z s) : Keeps z (ptiIssue op q w act s) := by
  unfold ptiIssue
  repeat' first
    | with_reducible assumption
    | (intro xS; refine keeps_gen (z := z) (x := xS) ?_ (fun _ => ?_); revert xS; dsimp only; rotate_left; clear_value xS)
    | (intro xS; refine keeps_gen_fst (z := z) (x := xS) ?_ (fun _ => ?_); revert xS; dsimp only; rotate_left; clear_value xS)
    | intro _
    | lift_lets
    | with_reducible apply hact
    | with_reducible apply taken_keeps
    | with_reducible apply seqNext_keeps
    | with_reducible apply opSignal_keeps
    | with_reducible exact Keeps.refl _
    | split
    | dsimp only

end Sys2Proof.Machine
end

