-- ==== Sys2Proof/Laws/KeepsFaults.lean ====
section
/-! SUPPORT. What the operations of Faults keep. -/
namespace Sys2Proof.Machine

theorem flicker_keeps {z : State} (s : State) (i : Nat) (hK : Keeps z s) : Keeps z (flicker s i) := by
  unfold flicker
  repeat' first
    | with_reducible assumption
    | (intro xS; refine keeps_gen (z := z) (x := xS) ?_ (fun _ => ?_); revert xS; dsimp only; rotate_left; clear_value xS)
    | (intro xS; refine keeps_gen_fst (z := z) (x := xS) ?_ (fun _ => ?_); revert xS; dsimp only; rotate_left; clear_value xS)
    | intro _
    | lift_lets
    | with_reducible apply setFld_keeps
    | with_reducible apply cnt_keeps
    | with_reducible apply sysObjInc_keeps
    | with_reducible apply raise_keeps
    | with_reducible exact Keeps.refl _
    | simp only [keeps_mk_eq]
    | split
    | dsimp only

theorem setCe_keeps {z : State} (s : State) (b : Blk) (c : CeRate) (hK : Keeps z s) : Keeps z (setCe s b c) := by
  unfold setCe
  repeat' first
    | with_reducible assumption
    | (intro xS; refine keeps_gen (z := z) (x := xS) ?_ (fun _ => ?_); revert xS; dsimp only; rotate_left; clear_value xS)
    | (intro xS; refine keeps_gen_fst (z := z) (x := xS) ?_ (fun _ => ?_); revert xS; dsimp only; rotate_left; clear_value xS)
    | intro _
    | lift_lets
    | with_reducible exact Keeps.refl _
    | simp only [keeps_mk_eq]
    | split
    | dsimp only

theorem ceCheck_keeps {z : State} (s : State) (b : Blk) (hK : Keeps z s) : Keeps z (ceCheck s b) := by
  unfold ceCheck
  repeat' first
    | with_reducible assumption
    | (intro xS; refine keeps_gen (z := z) (x := xS) ?_ (fun _ => ?_); revert xS; dsimp only; rotate_left; clear_value xS)
    | (intro xS; refine keeps_gen_fst (z := z) (x := xS) ?_ (fun _ => ?_); revert xS; dsimp only; rotate_left; clear_value xS)
    | intro _
    | lift_lets
    | with_reducible apply flicker_keeps
    | with_reducible apply health_keeps
    | with_reducible apply raise_keeps
    | with_reducible apply setCe_keeps
    | with_reducible exact Keeps.refl _
    | simp only [keeps_mk_eq]
    | split
    | dsimp only

theorem ceAdd_keeps {z : State} (s : State) (b : Blk) (hK : Keeps z s) : Keeps z (ceAdd s b) := by
  unfold ceAdd
  repeat' first
    | with_reducible assumption
    | (intro xS; refine keeps_gen (z := z) (x := xS) ?_ (fun _ => ?_); revert xS; dsimp only; rotate_left; clear_value xS)
    | (intro xS; refine keeps_gen_fst (z := z) (x := xS) ?_ (fun _ => ?_); revert xS; dsimp only; rotate_left; clear_value xS)
    | intro _
    | lift_lets
    | with_reducible apply ceCheck_keeps
    | with_reducible apply setCe_keeps
    | with_reducible exact Keeps.refl _
    | simp only [keeps_mk_eq]
    | split
    | dsimp only

theorem ceMinute_keeps {z : State} (s : State) (b : Blk) (hK : Keeps z s) : Keeps z (ceMinute s b) := by
  unfold ceMinute
  repeat' first
    | with_reducible assumption
    | (intro xS; refine keeps_gen (z := z) (x := xS) ?_ (fun _ => ?_); revert xS; dsimp only; rotate_left; clear_value xS)
    | (intro xS; refine keeps_gen_fst (z := z) (x := xS) ?_ (fun _ => ?_); revert xS; dsimp only; rotate_left; clear_value xS)
    | intro _
    | lift_lets
    | with_reducible apply ceCheck_keeps
    | with_reducible apply setCe_keeps
    | with_reducible exact Keeps.refl _
    | simp only [keeps_mk_eq]
    | split
    | dsimp only

theorem poisonSec_keeps {z : State} (s : State) (wh a : Nat) (hK : Keeps z s) : Keeps z (poisonSec s wh a) := by
  unfold poisonSec
  repeat' first
    | with_reducible assumption
    | (intro xS; refine keeps_gen (z := z) (x := xS) ?_ (fun _ => ?_); revert xS; dsimp only; rotate_left; clear_value xS)
    | (intro xS; refine keeps_gen_fst (z := z) (x := xS) ?_ (fun _ => ?_); revert xS; dsimp only; rotate_left; clear_value xS)
    | intro _
    | lift_lets
    | with_reducible apply health_keeps
    | with_reducible apply raise_keeps
    | with_reducible exact Keeps.refl _
    | simp only [keeps_mk_eq]
    | split
    | dsimp only

theorem memErr_keeps {z : State} (s : State) (e : MemErr) (hK : Keeps z s) : Keeps z (memErr s e) := by
  unfold memErr
  repeat' first
    | with_reducible assumption
    | (intro xS; refine keeps_gen (z := z) (x := xS) ?_ (fun _ => ?_); revert xS; dsimp only; rotate_left; clear_value xS)
    | (intro xS; refine keeps_gen_fst (z := z) (x := xS) ?_ (fun _ => ?_); revert xS; dsimp only; rotate_left; clear_value xS)
    | intro _
    | lift_lets
    | with_reducible apply ceAdd_keeps
    | with_reducible apply setFld_keeps
    | with_reducible apply cnt_keeps
    | with_reducible apply setReg_keeps
    | with_reducible apply poisonSec_keeps
    | with_reducible exact Keeps.refl _
    | simp only [keeps_mk_eq]
    | split
    | dsimp only

theorem memErrs_keeps {z : State} (s : State) (l : List MemErr) (hK : Keeps z s) : Keeps z (memErrs s l) := by
  unfold memErrs
  repeat' first
    | with_reducible assumption
    | intro _
    | with_reducible apply memErr_keeps
    | with_reducible exact Keeps.refl _
    | with_reducible refine keeps_foldl (fun _ _ _ => ?_) _ ?_
    | with_reducible refine keeps_foldl_fst (fun _ _ _ => ?_) _ ?_
    | split
    | dsimp only

end Sys2Proof.Machine
end

