-- ==== Sys2Proof/Laws/KeepsMem.lean ====
section
/-! SUPPORT. What the operations of Mem keep. -/
namespace Sys2Proof.Machine

theorem opPatrolScrub_keeps {z : State} (k : Nat) (errs : List MemErr) (s : State) (hK : Keeps z s) : Keeps z (opPatrolScrub k errs s) := by
  unfold opPatrolScrub
  repeat' first
    | with_reducible assumption
    | (intro xS; refine keeps_gen (z := z) (x := xS) ?_ (fun _ => ?_); revert xS; dsimp only; rotate_left; clear_value xS)
    | (intro xS; refine keeps_gen_fst (z := z) (x := xS) ?_ (fun _ => ?_); revert xS; dsimp only; rotate_left; clear_value xS)
    | intro _
    | lift_lets
    | with_reducible apply memErrs_keeps
    | with_reducible exact Keeps.refl _
    | simp only [keeps_mk_eq]
    | split
    | dsimp only

theorem execPatrolScrub_keeps {z : State} (k : Fin 32) (errs : List MemErr) (s : State) (hK : Keeps z s) : ∀ t', execPatrolScrub k errs s = .next t' → Keeps z t' := by
  unfold execPatrolScrub
  repeat' first
    | with_reducible (refine (run_keeps ?_ : ∀ t, _ = Host.Outcome.next t → Keeps _ t))
    | with_reducible assumption
    | intro _
    | with_reducible apply opPatrolScrub_keeps
    | with_reducible exact Keeps.refl _
    | split
    | dsimp only

theorem opCeRateMinute_keeps {z : State} (c : MemCtrl) (s : State) (hK : Keeps z s) : Keeps z (opCeRateMinute c s) := by
  unfold opCeRateMinute
  repeat' first
    | with_reducible assumption
    | intro _
    | with_reducible apply ceMinute_keeps
    | with_reducible exact Keeps.refl _
    | split
    | dsimp only

theorem execCeRateMinute_keeps {z : State} (c : MemCtrl) (s : State) (hK : Keeps z s) : ∀ t', execCeRateMinute c s = .next t' → Keeps z t' := by
  unfold execCeRateMinute
  repeat' first
    | with_reducible (refine (run_keeps ?_ : ∀ t, _ = Host.Outcome.next t → Keeps _ t))
    | with_reducible assumption
    | intro _
    | with_reducible apply opCeRateMinute_keeps
    | with_reducible exact Keeps.refl _
    | split
    | dsimp only

theorem thrSend_keeps {z : State} (s : State) (key : Nat) (hK : Keeps z s) : Keeps z (thrSend s key) := by
  unfold thrSend
  repeat' first
    | with_reducible assumption
    | (intro xS; refine keeps_gen (z := z) (x := xS) ?_ (fun _ => ?_); revert xS; dsimp only; rotate_left; clear_value xS)
    | (intro xS; refine keeps_gen_fst (z := z) (x := xS) ?_ (fun _ => ?_); revert xS; dsimp only; rotate_left; clear_value xS)
    | intro _
    | lift_lets
    | with_reducible apply raise_keeps
    | with_reducible exact Keeps.refl _
    | simp only [keeps_mk_eq]
    | split
    | dsimp only

theorem thrReport_keeps {z : State} (s : State) (key level : Nat) (hK : Keeps z s) : Keeps z (thrReport s key level) := by
  unfold thrReport
  repeat' first
    | with_reducible assumption
    | (intro xS; refine keeps_gen (z := z) (x := xS) ?_ (fun _ => ?_); revert xS; dsimp only; rotate_left; clear_value xS)
    | (intro xS; refine keeps_gen_fst (z := z) (x := xS) ?_ (fun _ => ?_); revert xS; dsimp only; rotate_left; clear_value xS)
    | intro _
    | lift_lets
    | with_reducible apply thrSend_keeps
    | with_reducible exact Keeps.refl _
    | simp only [keeps_mk_eq]
    | split
    | dsimp only

theorem thrHeld_keeps {z : State} (s : State) (hK : Keeps z s) : Keeps z (thrHeld s) := by
  unfold thrHeld
  repeat' first
    | with_reducible assumption
    | intro _
    | with_reducible apply thrSend_keeps
    | with_reducible exact Keeps.refl _
    | with_reducible refine keeps_foldl (fun _ _ _ => ?_) _ ?_
    | with_reducible refine keeps_foldl_fst (fun _ _ _ => ?_) _ ?_
    | split
    | dsimp only

theorem opStackTempSample_keeps {z : State} (k : Nat) (temp : Nat) (s : State) (hK : Keeps z s) : Keeps z (opStackTempSample k temp s) := by
  unfold opStackTempSample
  repeat' first
    | with_reducible assumption
    | (intro xS; refine keeps_gen (z := z) (x := xS) ?_ (fun _ => ?_); revert xS; dsimp only; rotate_left; clear_value xS)
    | (intro xS; refine keeps_gen_fst (z := z) (x := xS) ?_ (fun _ => ?_); revert xS; dsimp only; rotate_left; clear_value xS)
    | intro _
    | lift_lets
    | with_reducible apply setFld_keeps
    | with_reducible apply flicker_keeps
    | with_reducible apply thrReport_keeps
    | with_reducible exact Keeps.refl _
    | simp only [keeps_mk_eq]
    | split
    | dsimp only

theorem execStackTempSample_keeps {z : State} (k : Fin 32) (temp : BitVec 8) (s : State) (hK : Keeps z s) : ∀ t', execStackTempSample k temp s = .next t' → Keeps z t' := by
  unfold execStackTempSample
  repeat' first
    | with_reducible (refine (run_keeps ?_ : ∀ t, _ = Host.Outcome.next t → Keeps _ t))
    | with_reducible assumption
    | intro _
    | with_reducible apply opStackTempSample_keeps
    | with_reducible exact Keeps.refl _
    | split
    | dsimp only

theorem opLpddrMr4Change_keeps {z : State} (k : Nat) (code : Nat) (hot : Bool) (s : State) (hK : Keeps z s) : Keeps z (opLpddrMr4Change k code hot s) := by
  unfold opLpddrMr4Change
  repeat' first
    | with_reducible assumption
    | (intro xS; refine keeps_gen (z := z) (x := xS) ?_ (fun _ => ?_); revert xS; dsimp only; rotate_left; clear_value xS)
    | (intro xS; refine keeps_gen_fst (z := z) (x := xS) ?_ (fun _ => ?_); revert xS; dsimp only; rotate_left; clear_value xS)
    | intro _
    | lift_lets
    | with_reducible apply setFld_keeps
    | with_reducible apply thrReport_keeps
    | with_reducible exact Keeps.refl _
    | split
    | dsimp only

theorem execLpddrMr4Change_keeps {z : State} (k : Fin 48) (code : BitVec 4) (hot : Bool) (s : State) (hK : Keeps z s) : ∀ t', execLpddrMr4Change k code hot s = .next t' → Keeps z t' := by
  unfold execLpddrMr4Change
  repeat' first
    | with_reducible (refine (run_keeps ?_ : ∀ t, _ = Host.Outcome.next t → Keeps _ t))
    | with_reducible assumption
    | intro _
    | with_reducible apply opLpddrMr4Change_keeps
    | with_reducible exact Keeps.refl _
    | split
    | dsimp only

theorem thrTick_keeps {z : State} (s : State) (hK : Keeps z s) : Keeps z (thrTick s) := by
  unfold thrTick
  repeat' first
    | with_reducible assumption
    | intro _
    | with_reducible apply cnt64_keeps
    | with_reducible exact Keeps.refl _
    | with_reducible refine keeps_foldl (fun _ _ _ => ?_) _ ?_
    | with_reducible refine keeps_foldl_fst (fun _ _ _ => ?_) _ ?_
    | split
    | dsimp only

theorem testModeWrite_keeps {z : State} (s : State) (b : Blk) (hK : Keeps z s) : Keeps z (testModeWrite s b) := by
  unfold testModeWrite
  repeat' first
    | with_reducible assumption
    | intro _
    | with_reducible apply setFld_keeps
    | with_reducible exact Keeps.refl _
    | with_reducible refine keeps_foldl (fun _ _ _ => ?_) _ ?_
    | with_reducible refine keeps_foldl_fst (fun _ _ _ => ?_) _ ?_
    | split
    | dsimp only

theorem opTestReady_keeps {z : State} (c : MemCtrl) (s : State) (hK : Keeps z s) : Keeps z (opTestReady c s) := by
  unfold opTestReady
  repeat' first
    | with_reducible assumption
    | intro _
    | with_reducible apply setFld_keeps
    | with_reducible exact Keeps.refl _
    | split
    | dsimp only

theorem execTestReady_keeps {z : State} (c : MemCtrl) (s : State) (hK : Keeps z s) : ∀ t', execTestReady c s = .next t' → Keeps z t' := by
  unfold execTestReady
  repeat' first
    | with_reducible (refine (run_keeps ?_ : ∀ t, _ = Host.Outcome.next t → Keeps _ t))
    | with_reducible assumption
    | intro _
    | with_reducible apply opTestReady_keeps
    | with_reducible exact Keeps.refl _
    | split
    | dsimp only

theorem tgStartWrite_keeps {z : State} (s : State) (b : Blk) (ch : Nat) (hK : Keeps z s) : Keeps z (tgStartWrite s b ch) := by
  unfold tgStartWrite
  repeat' first
    | with_reducible assumption
    | intro _
    | with_reducible apply setFld_keeps
    | with_reducible apply setReg_keeps
    | with_reducible exact Keeps.refl _
    | split
    | dsimp only

theorem tgOp_keeps {z : State} (b : Blk) (ch : Nat) (wr : Bool) (flt : List (Nat × Nat)) (s : State) (i : Nat) (hK : Keeps z s) : Keeps z (tgOp b ch wr flt s i) := by
  unfold tgOp
  repeat' first
    | with_reducible assumption
    | (intro xS; refine keeps_gen (z := z) (x := xS) ?_ (fun _ => ?_); revert xS; dsimp only; rotate_left; clear_value xS)
    | (intro xS; refine keeps_gen_fst (z := z) (x := xS) ?_ (fun _ => ?_); revert xS; dsimp only; rotate_left; clear_value xS)
    | intro _
    | lift_lets
    | with_reducible apply unpoison_keeps
    | with_reducible apply memWr_keeps
    | with_reducible apply traffic_keeps
    | with_reducible apply memErrs_keeps
    | with_reducible apply setReg_keeps
    | with_reducible apply setFld_keeps
    | with_reducible exact Keeps.refl _
    | split
    | dsimp only

theorem opMemTgDone_keeps {z : State} (c : MemCtrl) (ch : Nat) (flt : List (Nat × Nat)) (s : State) (hK : Keeps z s) : Keeps z (opMemTgDone c ch flt s) := by
  unfold opMemTgDone
  repeat' first
    | with_reducible assumption
    | (intro xS; refine keeps_gen (z := z) (x := xS) ?_ (fun _ => ?_); revert xS; dsimp only; rotate_left; clear_value xS)
    | (intro xS; refine keeps_gen_fst (z := z) (x := xS) ?_ (fun _ => ?_); revert xS; dsimp only; rotate_left; clear_value xS)
    | intro _
    | lift_lets
    | with_reducible apply tgOp_keeps
    | with_reducible apply raise_keeps
    | with_reducible apply setFld_keeps
    | with_reducible exact Keeps.refl _
    | with_reducible refine keeps_foldl (fun _ _ _ => ?_) _ ?_
    | with_reducible refine keeps_foldl_fst (fun _ _ _ => ?_) _ ?_
    | split
    | dsimp only

theorem execMemTgDone_keeps {z : State} (c : MemCtrl) (ch : Fin 16) (flt : List (Nat × Nat)) (s : State) (hK : Keeps z s) : ∀ t', execMemTgDone c ch flt s = .next t' → Keeps z t' := by
  unfold execMemTgDone
  repeat' first
    | with_reducible (refine (run_keeps ?_ : ∀ t, _ = Host.Outcome.next t → Keeps _ t))
    | with_reducible assumption
    | intro _
    | with_reducible apply opMemTgDone_keeps
    | with_reducible exact Keeps.refl _
    | split
    | dsimp only

theorem migApplyWrite_keeps {z : State} (s : State) (hK : Keeps z s) : Keeps z (migApplyWrite s) := by
  unfold migApplyWrite
  repeat' first
    | with_reducible assumption
    | (intro xS; refine keeps_gen (z := z) (x := xS) ?_ (fun _ => ?_); revert xS; dsimp only; rotate_left; clear_value xS)
    | (intro xS; refine keeps_gen_fst (z := z) (x := xS) ?_ (fun _ => ?_); revert xS; dsimp only; rotate_left; clear_value xS)
    | intro _
    | lift_lets
    | with_reducible apply applyRefused_keeps
    | with_reducible apply setReg_keeps
    | with_reducible exact Keeps.refl _
    | simp only [keeps_mk_eq]
    | split
    | dsimp only

theorem migDone_keeps {z : State} (s : State) (o : MigOrd) (status : Nat) (hK : Keeps z s) : Keeps z (migDone s o status) := by
  unfold migDone
  repeat' first
    | with_reducible assumption
    | (intro xS; refine keeps_gen (z := z) (x := xS) ?_ (fun _ => ?_); revert xS; dsimp only; rotate_left; clear_value xS)
    | (intro xS; refine keeps_gen_fst (z := z) (x := xS) ?_ (fun _ => ?_); revert xS; dsimp only; rotate_left; clear_value xS)
    | intro _
    | lift_lets
    | with_reducible apply wrLE_keeps
    | with_reducible apply traffic_keeps
    | with_reducible apply setReg_keeps
    | with_reducible apply setFld_keeps
    | with_reducible apply objSignal_keeps
    | with_reducible exact Keeps.refl _
    | simp only [keeps_mk_eq]
    | split
    | dsimp only

theorem migDrain_keeps {z : State}   : ∀ (a0 : Nat) (a1 : State), Keeps z a1 → Keeps z (migDrain  a0 a1) := by
  intro a0
  induction a0 with
  | zero =>
    intro a1 hK
    first | rw [migDrain] | unfold migDrain
    repeat' first
      | with_reducible assumption
      | with_reducible apply ih
      | with_reducible apply migDone_keeps
      | with_reducible exact Keeps.refl _
      | with_reducible refine keeps_fst (by assumption) ?_
      | simp only [keeps_mk_eq]
      | split
      | dsimp only
  | succ n0 ih =>
    intro a1 hK
    first | rw [migDrain] | unfold migDrain
    repeat' first
      | with_reducible assumption
      | with_reducible apply ih
      | with_reducible apply migDone_keeps
      | with_reducible exact Keeps.refl _
      | with_reducible refine keeps_fst (by assumption) ?_
      | simp only [keeps_mk_eq]
      | split
      | dsimp only

theorem opMigOrderStart_keeps {z : State} (s : State) (hK : Keeps z s) : Keeps z (opMigOrderStart s) := by
  unfold opMigOrderStart
  repeat' first
    | with_reducible assumption
    | (intro xS; refine keeps_gen (z := z) (x := xS) ?_ (fun _ => ?_); revert xS; dsimp only; rotate_left; clear_value xS)
    | (intro xS; refine keeps_gen_fst (z := z) (x := xS) ?_ (fun _ => ?_); revert xS; dsimp only; rotate_left; clear_value xS)
    | intro _
    | lift_lets
    | with_reducible apply raiseIf_keeps
    | with_reducible apply migDrain_keeps
    | with_reducible apply setFld_keeps
    | with_reducible exact Keeps.refl _
    | simp only [keeps_mk_eq]
    | split
    | dsimp only

theorem execMigOrderStart_keeps {z : State} (s : State) (hK : Keeps z s) : ∀ t', execMigOrderStart s = .next t' → Keeps z t' := by
  unfold execMigOrderStart
  repeat' first
    | with_reducible (refine (run_keeps ?_ : ∀ t, _ = Host.Outcome.next t → Keeps _ t))
    | with_reducible assumption
    | intro _
    | with_reducible apply opMigOrderStart_keeps
    | with_reducible exact Keeps.refl _
    | split
    | dsimp only

theorem migPage_keeps {z : State} (s : State) (src dst : Nat) (hK : Keeps z s) : Keeps z (migPage s src dst) := by
  unfold migPage
  repeat' first
    | with_reducible assumption
    | (intro xS; refine keeps_gen (z := z) (x := xS) ?_ (fun _ => ?_); revert xS; dsimp only; rotate_left; clear_value xS)
    | (intro xS; refine keeps_gen_fst (z := z) (x := xS) ?_ (fun _ => ?_); revert xS; dsimp only; rotate_left; clear_value xS)
    | intro _
    | lift_lets
    | with_reducible apply poisonRead_keeps
    | with_reducible apply wrBytes_keeps
    | with_reducible apply traffic_keeps
    | with_reducible exact Keeps.refl _
    | simp only [keeps_mk_eq]
    | split
    | dsimp only

theorem migBlock_keeps {z : State} (s : State) (o : MigOrd) (i : Nat) (hK : Keeps z s) : Keeps z (migBlock s o i).1 := by
  unfold migBlock
  extract_lets +onlyGivenNames a da r ms scales s0 bad s1
  have h0 : Keeps z s0 := cnt64_keeps _ _ _ _ (blkTraffic_keeps _ _ _ _ _ _ _ _ hK)
  have h1 : Keeps z s1 := by
    dsimp only [s1]
    generalize bad = q
    cases q
    · exact h0
    · exact poisonRead_keeps _ _ _ _ h0
  clear_value s1
  intros
  repeat' first
    | with_reducible assumption
    | with_reducible apply raise_keeps
    | with_reducible apply crcUncured_keeps
    | with_reducible apply crcFail_keeps
    | with_reducible apply cnt64_keeps
    | with_reducible apply memWr_keeps
    | with_reducible apply unpoison_keeps
    | with_reducible apply blkTraffic_keeps
    | with_reducible apply wrBytes_keeps
    | split

theorem migMove_keeps {z : State} (o : MigOrd)  : ∀ (a0 : List Nat) (a1 : State), Keeps z a1 → Keeps z (migMove o a0 a1).1 := by
  intro a0
  induction a0 with
  | nil =>
    intro a1 hK
    first | rw [migMove] | unfold migMove
    repeat' first
      | with_reducible assumption
      | (intro xS; refine keeps_gen (z := z) (x := xS) ?_ (fun _ => ?_); revert xS; dsimp only; rotate_left; clear_value xS)
      | (intro xS; refine keeps_gen_fst (z := z) (x := xS) ?_ (fun _ => ?_); revert xS; dsimp only; rotate_left; clear_value xS)
      | intro _
      | lift_lets
      | with_reducible apply ih
      | with_reducible apply raiseIf_keeps
      | with_reducible apply raiseAcc_keeps
      | with_reducible apply cnt64_keeps
      | with_reducible apply migPage_keeps
      | with_reducible apply migBlock_keeps
      | with_reducible exact Keeps.refl _
      | with_reducible refine keeps_fst (by assumption) ?_
      | simp only [keeps_mk_eq]
      | split
      | dsimp only
  | cons x0 l0 ih =>
    intro a1 hK
    first | rw [migMove] | unfold migMove
    repeat' first
      | with_reducible assumption
      | (intro xS; refine keeps_gen (z := z) (x := xS) ?_ (fun _ => ?_); revert xS; dsimp only; rotate_left; clear_value xS)
      | (intro xS; refine keeps_gen_fst (z := z) (x := xS) ?_ (fun _ => ?_); revert xS; dsimp only; rotate_left; clear_value xS)
      | intro _
      | lift_lets
      | with_reducible apply ih
      | with_reducible apply raiseIf_keeps
      | with_reducible apply raiseAcc_keeps
      | with_reducible apply cnt64_keeps
      | with_reducible apply migPage_keeps
      | with_reducible apply migBlock_keeps
      | with_reducible exact Keeps.refl _
      | with_reducible refine keeps_fst (by assumption) ?_
      | simp only [keeps_mk_eq]
      | split
      | dsimp only

theorem opMigOrderComplete_keeps {z : State} (errs : List MemErr) (s : State) (hK : Keeps z s) : Keeps z (opMigOrderComplete errs s) := by
  unfold opMigOrderComplete
  repeat' first
    | with_reducible assumption
    | (intro xS; refine keeps_gen (z := z) (x := xS) ?_ (fun _ => ?_); revert xS; dsimp only; rotate_left; clear_value xS)
    | (intro xS; refine keeps_gen_fst (z := z) (x := xS) ?_ (fun _ => ?_); revert xS; dsimp only; rotate_left; clear_value xS)
    | intro _
    | lift_lets
    | with_reducible apply migMove_keeps
    | with_reducible apply memErrs_keeps
    | with_reducible apply migDrain_keeps
    | with_reducible apply migDone_keeps
    | with_reducible exact Keeps.refl _
    | with_reducible refine keeps_fst (by assumption) ?_
    | simp only [keeps_mk_eq]
    | split
    | dsimp only

theorem execMigOrderComplete_keeps {z : State} (errs : List MemErr) (s : State) (hK : Keeps z s) : ∀ t', execMigOrderComplete errs s = .next t' → Keeps z t' := by
  unfold execMigOrderComplete
  repeat' first
    | with_reducible (refine (run_keeps ?_ : ∀ t, _ = Host.Outcome.next t → Keeps _ t))
    | with_reducible assumption
    | intro _
    | with_reducible apply opMigOrderComplete_keeps
    | with_reducible exact Keeps.refl _
    | split
    | dsimp only

end Sys2Proof.Machine
end

