-- ==== Sys2Proof/Laws/KeepsConvert.lean ====
section
/-! SUPPORT. What the operations of Convert keep. -/
namespace Sys2Proof.Machine

theorem writeTileSat_keeps {z : State} (cx : Cx) (d : Desc) (f : Fmt) (rnd : Rnd) (ovf : Bool) (valid : Nat → Nat → Bool) (val : Nat → Nat → EV)     (pre : Nat → Nat) (s : State) (i : Nat) (hK : Keeps z s) : Keeps z (writeTileSat cx d f rnd ovf valid val pre s i) := by
  unfold writeTileSat
  repeat' first
    | with_reducible assumption
    | (intro xS; refine keeps_gen (z := z) (x := xS) ?_ (fun _ => ?_); revert xS; dsimp only; rotate_left; clear_value xS)
    | (intro xS; refine keeps_gen_fst (z := z) (x := xS) ?_ (fun _ => ?_); revert xS; dsimp only; rotate_left; clear_value xS)
    | intro _
    | lift_lets
    | with_reducible apply writeZero_keeps
    | with_reducible apply formCounts_keeps
    | with_reducible apply storeBlk_keeps
    | with_reducible exact Keeps.refl _
    | split
    | dsimp only

theorem writeTile_keeps {z : State} (cx : Cx) (d : Desc) (f : Fmt) (rnd : Rnd) (ovf : Bool) (valid : Nat → Nat → Bool) (val : Nat → Nat → EV)     (s : State) (i : Nat) (hK : Keeps z s) : Keeps z (writeTile cx d f rnd ovf valid val s i) := by
  unfold writeTile
  repeat' first
    | with_reducible assumption
    | intro _
    | with_reducible apply writeTileSat_keeps
    | with_reducible exact Keeps.refl _
    | split
    | dsimp only

theorem writeTensor_keeps {z : State} (s : State) (cx : Cx) (d : Desc) (f : Fmt) (rnd : Rnd) (ovf : Bool) (valid : Nat → Nat → Bool)     (val : Nat → Nat → EV) (hK : Keeps z s) : Keeps z (writeTensor s cx d f rnd ovf valid val) := by
  unfold writeTensor
  repeat' first
    | with_reducible assumption
    | intro _
    | with_reducible apply writeTile_keeps
    | with_reducible exact Keeps.refl _
    | with_reducible refine keeps_foldl (fun _ _ _ => ?_) _ ?_
    | with_reducible refine keeps_foldl_fst (fun _ _ _ => ?_) _ ?_
    | split
    | dsimp only

theorem mxPut_keeps {z : State} (s : State) (base : Nat) (f : Fmt) (k v : Nat) (hK : Keeps z s) : Keeps z (mxPut s base f k v) := by
  unfold mxPut
  repeat' first
    | with_reducible assumption
    | (intro xS; refine keeps_gen (z := z) (x := xS) ?_ (fun _ => ?_); revert xS; dsimp only; rotate_left; clear_value xS)
    | (intro xS; refine keeps_gen_fst (z := z) (x := xS) ?_ (fun _ => ?_); revert xS; dsimp only; rotate_left; clear_value xS)
    | intro _
    | lift_lets
    | with_reducible apply wrLE_keeps
    | with_reducible exact Keeps.refl _
    | split
    | dsimp only

theorem mxReport_keeps {z : State} (s : State) (cx : Cx) (n : Nat) (hK : Keeps z s) : Keeps z (mxReport s cx n) := by
  unfold mxReport
  repeat' first
    | with_reducible assumption
    | intro _
    | with_reducible apply raise_keeps
    | with_reducible apply cntAdd_keeps
    | with_reducible exact Keeps.refl _
    | split
    | dsimp only

theorem storeForms_keeps {z : State} (cx : Cx) (d : Desc) (bs : List (Nat × Formed)) (s : State) (hK : Keeps z s) : Keeps z (storeForms cx d bs s) := by
  unfold storeForms
  repeat' first
    | with_reducible assumption
    | intro _
    | with_reducible apply formCounts_keeps
    | with_reducible apply storeBlk_keeps
    | with_reducible exact Keeps.refl _
    | with_reducible refine keeps_foldl (fun _ _ _ => ?_) _ ?_
    | with_reducible refine keeps_foldl_fst (fun _ _ _ => ?_) _ ?_
    | split
    | dsimp only

theorem writeMxBlk_keeps {z : State} (m : MxSrc) (inw : Nat → Nat → Bool) (val : Nat → Nat → EV) (x : State × MxCnt) (j : Nat) (hK : Keeps z x.1) : Keeps z (writeMxBlk m inw val x j).1 := by
  unfold writeMxBlk
  repeat' first
    | with_reducible assumption
    | (intro xS; refine keeps_gen (z := z) (x := xS) ?_ (fun _ => ?_); revert xS; dsimp only; rotate_left; clear_value xS)
    | (intro xS; refine keeps_gen_fst (z := z) (x := xS) ?_ (fun _ => ?_); revert xS; dsimp only; rotate_left; clear_value xS)
    | intro _
    | lift_lets
    | with_reducible apply mxPut_keeps
    | with_reducible apply wrLE_keeps
    | with_reducible exact Keeps.refl _
    | with_reducible refine keeps_foldl (fun _ _ _ => ?_) _ ?_
    | with_reducible refine keeps_foldl_fst (fun _ _ _ => ?_) _ ?_
    | with_reducible refine keeps_fst (by assumption) ?_
    | split
    | dsimp only

theorem writeMx_keeps {z : State} (s : State) (cx : Cx) (d : Desc) (m : MxSrc) (inw : Nat → Nat → Bool) (val : Nat → Nat → EV) (hK : Keeps z s) : Keeps z (writeMx s cx d m inw val) := by
  unfold writeMx
  repeat' first
    | with_reducible assumption
    | (intro xS; refine keeps_gen (z := z) (x := xS) ?_ (fun _ => ?_); revert xS; dsimp only; rotate_left; clear_value xS)
    | (intro xS; refine keeps_gen_fst (z := z) (x := xS) ?_ (fun _ => ?_); revert xS; dsimp only; rotate_left; clear_value xS)
    | intro _
    | lift_lets
    | with_reducible apply writeMxBlk_keeps
    | with_reducible apply mxReport_keeps
    | with_reducible apply deliverSat_keeps
    | with_reducible exact Keeps.refl _
    | with_reducible refine keeps_foldl (fun _ _ _ => ?_) _ ?_
    | with_reducible refine keeps_foldl_fst (fun _ _ _ => ?_) _ ?_
    | with_reducible refine keeps_fst (by assumption) ?_
    | split
    | dsimp only

end Sys2Proof.Machine
end

