-- ==== Sys2Proof/Laws/KeepsVec.lean ====
section
/-! SUPPORT. What the operations of Vec keep. -/
namespace Sys2Proof.Machine

theorem memEnv_keeps {z : State} (s : State) (cx : Cx) (errs : List MemErr) (reread : Nat) (hK : Keeps z s) : Keeps z (memEnv s cx errs reread) := by
  unfold memEnv
  repeat' first
    | with_reducible assumption
    | intro _
    | with_reducible apply crcFail_keeps
    | with_reducible apply memErrs_keeps
    | with_reducible exact Keeps.refl _
    | with_reducible refine keeps_foldl (fun _ _ _ => ?_) _ ?_
    | with_reducible refine keeps_foldl_fst (fun _ _ _ => ?_) _ ?_
    | split
    | dsimp only

theorem vecIssue_keeps {z : State} (op : PtiOp) (q : Nat) (w : PtiWord) (s : State) (hK : Keeps z s) : Keeps z (vecIssue op q w s) := by
  unfold vecIssue
  repeat' first
    | with_reducible assumption
    | intro _
    | with_reducible apply ptiIssue_keeps
    | with_reducible apply enqueueOp_keeps
    | with_reducible exact Keeps.refl _
    | split
    | dsimp only

theorem vecSrc_keeps {z : State} (s : State) (cx : Cx) (a : Desc) (od : Option Desc) (hK : Keeps z s) : Keeps z (vecSrc s cx a od).1 := by
  unfold vecSrc
  repeat' first
    | with_reducible assumption
    | (intro xS; refine keeps_gen (z := z) (x := xS) ?_ (fun _ => ?_); revert xS; dsimp only; rotate_left; clear_value xS)
    | (intro xS; refine keeps_gen_fst (z := z) (x := xS) ?_ (fun _ => ?_); revert xS; dsimp only; rotate_left; clear_value xS)
    | intro _
    | lift_lets
    | with_reducible apply readTensor_keeps
    | with_reducible exact Keeps.refl _
    | with_reducible refine keeps_fst (by assumption) ?_
    | simp only [keeps_mk_eq]
    | split
    | dsimp only

theorem readAcc_keeps {z : State} (s : State) (cx : Cx) (w : PtiWord) (d : Desc) (hK : Keeps z s) : Keeps z (readAcc s cx w d).1 := by
  unfold readAcc
  repeat' first
    | with_reducible assumption
    | (intro xS; refine keeps_gen (z := z) (x := xS) ?_ (fun _ => ?_); revert xS; dsimp only; rotate_left; clear_value xS)
    | (intro xS; refine keeps_gen_fst (z := z) (x := xS) ?_ (fun _ => ?_); revert xS; dsimp only; rotate_left; clear_value xS)
    | intro _
    | lift_lets
    | with_reducible apply readTensor_keeps
    | with_reducible exact Keeps.refl _
    | with_reducible refine keeps_fst (by assumption) ?_
    | split
    | dsimp only

theorem vecWrite_keeps {z : State} (s : State) (cx : Cx) (d : Desc) (f : Fmt) (w : PtiWord) (old : Option TensorVal)     (valid : Nat → Nat → Bool) (val : Nat → Nat → EV) (hK : Keeps z s) : Keeps z (vecWrite s cx d f w old valid val).1 := by
  unfold vecWrite
  repeat' first
    | with_reducible assumption
    | (intro xS; refine keeps_gen (z := z) (x := xS) ?_ (fun _ => ?_); revert xS; dsimp only; rotate_left; clear_value xS)
    | (intro xS; refine keeps_gen_fst (z := z) (x := xS) ?_ (fun _ => ?_); revert xS; dsimp only; rotate_left; clear_value xS)
    | intro _
    | lift_lets
    | with_reducible apply raiseAcc_keeps
    | with_reducible apply writeTensor_keeps
    | with_reducible exact Keeps.refl _
    | with_reducible refine keeps_fst (by assumption) ?_
    | simp only [keeps_mk_eq]
    | split
    | dsimp only

theorem vecElems_keeps {z : State} (s : State) (cx : Cx) (o : EngOp) (dd : Desc) (f : Fmt) (ta : TensorVal) (b c : VSrc) (hK : Keeps z s) : Keeps z (vecElems s cx o dd f ta b c).1 := by
  unfold vecElems
  repeat' first
    | with_reducible assumption
    | (intro xS; refine keeps_gen (z := z) (x := xS) ?_ (fun _ => ?_); revert xS; dsimp only; rotate_left; clear_value xS)
    | (intro xS; refine keeps_gen_fst (z := z) (x := xS) ?_ (fun _ => ?_); revert xS; dsimp only; rotate_left; clear_value xS)
    | intro _
    | lift_lets
    | with_reducible apply readAcc_keeps
    | with_reducible apply vecWrite_keeps
    | with_reducible exact Keeps.refl _
    | with_reducible refine keeps_fst (by assumption) ?_
    | split
    | dsimp only

theorem vecMap_keeps {z : State} (s : State) (cx : Cx) (o : EngOp) (dd da : Desc) (hK : Keeps z s) :
    Keeps z (vecMap s cx o dd da).1 := by
  have hb : ∀ t, Keeps z t → Keeps z (if vecArity o.op < 2 then (t, 0, VSrc.const evZero)
      else if wImmf o.w then (t, 0, VSrc.const (f32Val (o.w.imm.toNat % u32Mod))) else vecSrc t cx da o.db).1 := by
    intro t ht
    split
    · exact ht
    · split
      · exact ht
      · exact vecSrc_keeps _ _ _ _ ht
  have hc : ∀ t, Keeps z t → Keeps z (if vecArity o.op < 3 then (t, 0, VSrc.const evZero) else vecSrc t cx da o.dc).1 := by
    intro t ht
    split
    · exact ht
    · exact vecSrc_keeps _ _ _ _ ht
  unfold vecMap
  dsimp only
  split
  · rename_i f fa _ _
    have h1 := readTensor_keeps s cx da hK
    generalize readTensor s cx da = rt at h1
    have h2 := hb rt.1 h1
    generalize (if vecArity o.op < 2 then (rt.1, 0, VSrc.const evZero)
      else if wImmf o.w then (rt.1, 0, VSrc.const (f32Val (o.w.imm.toNat % u32Mod))) else vecSrc rt.1 cx da o.db) = rb at h2
    have h3 := hc rb.1 h2
    generalize (if vecArity o.op < 3 then (rb.1, 0, VSrc.const evZero) else vecSrc rb.1 cx da o.dc) = rc at h3
    generalize (!if o.op = .cvt then convOk fa f else convOk fa .fp32 && convOk .fp32 f) = conv
    repeat' first
      | with_reducible assumption
      | with_reducible apply vecElems_keeps
      | split
  · exact hK

theorem mxToTensor_keeps {z : State} (s : State) (cx : Cx) (w : PtiWord) (m : MxSrc) (dd : Desc) (hK : Keeps z s) : Keeps z (mxToTensor s cx w m dd).1 := by
  unfold mxToTensor
  repeat' first
    | with_reducible assumption
    | (intro xS; refine keeps_gen (z := z) (x := xS) ?_ (fun _ => ?_); revert xS; dsimp only; rotate_left; clear_value xS)
    | (intro xS; refine keeps_gen_fst (z := z) (x := xS) ?_ (fun _ => ?_); revert xS; dsimp only; rotate_left; clear_value xS)
    | intro _
    | lift_lets
    | with_reducible apply raiseAcc_keeps
    | with_reducible apply readAcc_keeps
    | with_reducible apply vecWrite_keeps
    | with_reducible apply mxReport_keeps
    | with_reducible apply storeForms_keeps
    | with_reducible exact Keeps.refl _
    | with_reducible refine keeps_foldl (fun _ _ _ => ?_) _ ?_
    | with_reducible refine keeps_foldl_fst (fun _ _ _ => ?_) _ ?_
    | with_reducible refine keeps_fst (by assumption) ?_
    | simp only [keeps_mk_eq]
    | split
    | dsimp only

theorem tensorToMx_keeps {z : State} (s : State) (cx : Cx) (acc : Bool) (t : TensorVal) (dd : Desc) (m : MxSrc) (hK : Keeps z s) : Keeps z (tensorToMx s cx acc t dd m).1 := by
  unfold tensorToMx
  repeat' first
    | with_reducible assumption
    | (intro xS; refine keeps_gen (z := z) (x := xS) ?_ (fun _ => ?_); revert xS; dsimp only; rotate_left; clear_value xS)
    | (intro xS; refine keeps_gen_fst (z := z) (x := xS) ?_ (fun _ => ?_); revert xS; dsimp only; rotate_left; clear_value xS)
    | intro _
    | lift_lets
    | with_reducible apply raiseAcc_keeps
    | with_reducible apply writeMx_keeps
    | with_reducible exact Keeps.refl _
    | with_reducible refine keeps_fst (by assumption) ?_
    | simp only [keeps_mk_eq]
    | split
    | dsimp only

theorem cvtExec_keeps {z : State} (s : State) (cx : Cx) (o : EngOp) (dd da : Desc) (hK : Keeps z s) : Keeps z (cvtExec s cx o dd da).1 := by
  unfold cvtExec
  repeat' first
    | with_reducible assumption
    | (intro xS; refine keeps_gen (z := z) (x := xS) ?_ (fun _ => ?_); revert xS; dsimp only; rotate_left; clear_value xS)
    | (intro xS; refine keeps_gen_fst (z := z) (x := xS) ?_ (fun _ => ?_); revert xS; dsimp only; rotate_left; clear_value xS)
    | (intro xL; clear_value xL)
    | lift_lets
    | with_reducible apply vecMap_keeps
    | with_reducible apply readTensor_keeps
    | with_reducible apply tensorToMx_keeps
    | with_reducible apply mxToTensor_keeps
    | with_reducible exact Keeps.refl _
    | with_reducible refine keeps_fst (by assumption) ?_
    | simp only [keeps_mk_eq]
    | split
    | dsimp only

theorem vecReduce_keeps {z : State} (s : State) (cx : Cx) (o : EngOp) (dd da : Desc) (hK : Keeps z s) : Keeps z (vecReduce s cx o dd da).1 := by
  unfold vecReduce
  repeat' first
    | with_reducible assumption
    | (intro xS; refine keeps_gen (z := z) (x := xS) ?_ (fun _ => ?_); revert xS; dsimp only; rotate_left; clear_value xS)
    | (intro xS; refine keeps_gen_fst (z := z) (x := xS) ?_ (fun _ => ?_); revert xS; dsimp only; rotate_left; clear_value xS)
    | intro _
    | lift_lets
    | with_reducible apply readTensor_keeps
    | with_reducible apply readAcc_keeps
    | with_reducible apply vecWrite_keeps
    | with_reducible exact Keeps.refl _
    | with_reducible refine keeps_fst (by assumption) ?_
    | simp only [keeps_mk_eq]
    | split
    | dsimp only

theorem chanFold_keeps {z : State} (s : State) (a : Nat) (l : List EV) (hK : Keeps z s) : Keeps z (chanFold s a l) := by
  unfold chanFold
  repeat' first
    | with_reducible assumption
    | (intro xS; refine keeps_gen (z := z) (x := xS) ?_ (fun _ => ?_); revert xS; dsimp only; rotate_left; clear_value xS)
    | (intro xS; refine keeps_gen_fst (z := z) (x := xS) ?_ (fun _ => ?_); revert xS; dsimp only; rotate_left; clear_value xS)
    | intro _
    | lift_lets
    | with_reducible apply wrLE_keeps
    | with_reducible exact Keeps.refl _
    | with_reducible refine keeps_foldl (fun _ _ _ => ?_) _ ?_
    | with_reducible refine keeps_foldl_fst (fun _ _ _ => ?_) _ ?_
    | simp only [keeps_mk_eq]
    | split
    | dsimp only

theorem rangeDeliver_keeps {z : State} (s : State) (c : EstCfg) (step : Nat) (es : List (Nat × Nat × EV)) (hK : Keeps z s) : Keeps z (rangeDeliver s c step es) := by
  unfold rangeDeliver
  repeat' first
    | with_reducible assumption
    | (intro xS; refine keeps_gen (z := z) (x := xS) ?_ (fun _ => ?_); revert xS; dsimp only; rotate_left; clear_value xS)
    | (intro xS; refine keeps_gen_fst (z := z) (x := xS) ?_ (fun _ => ?_); revert xS; dsimp only; rotate_left; clear_value xS)
    | intro _
    | lift_lets
    | with_reducible apply chanFold_keeps
    | with_reducible exact Keeps.refl _
    | with_reducible refine keeps_foldl (fun _ _ _ => ?_) _ ?_
    | with_reducible refine keeps_foldl_fst (fun _ _ _ => ?_) _ ?_
    | split
    | dsimp only

theorem amaxDeliver_keeps {z : State} (s : State) (cx : Cx) (da : Desc) (m : EV) (nonfin : Nat) (es : List (Nat × Nat × EV)) (hK : Keeps z s) : Keeps z (amaxDeliver s cx da m nonfin es) := by
  unfold amaxDeliver
  repeat' first
    | with_reducible assumption
    | (intro xS; refine keeps_gen (z := z) (x := xS) ?_ (fun _ => ?_); revert xS; dsimp only; rotate_left; clear_value xS)
    | (intro xS; refine keeps_gen_fst (z := z) (x := xS) ?_ (fun _ => ?_); revert xS; dsimp only; rotate_left; clear_value xS)
    | intro _
    | lift_lets
    | with_reducible apply cnt_keeps
    | with_reducible apply updAcc_keeps
    | with_reducible apply rangeDeliver_keeps
    | with_reducible exact Keeps.refl _
    | simp only [keeps_mk_eq]
    | split
    | dsimp only

theorem vecAmaxExec_keeps {z : State} (s : State) (cx : Cx) (o : EngOp) (dd da : Desc) (hK : Keeps z s) : Keeps z (vecAmaxExec s cx o dd da).1 := by
  unfold vecAmaxExec
  repeat' first
    | with_reducible assumption
    | (intro xS; refine keeps_gen (z := z) (x := xS) ?_ (fun _ => ?_); revert xS; dsimp only; rotate_left; clear_value xS)
    | (intro xS; refine keeps_gen_fst (z := z) (x := xS) ?_ (fun _ => ?_); revert xS; dsimp only; rotate_left; clear_value xS)
    | intro _
    | lift_lets
    | with_reducible apply readTensor_keeps
    | with_reducible apply readAcc_keeps
    | with_reducible apply vecWrite_keeps
    | with_reducible apply amaxDeliver_keeps
    | with_reducible exact Keeps.refl _
    | with_reducible refine keeps_fst (by assumption) ?_
    | simp only [keeps_mk_eq]
    | split
    | dsimp only

theorem verifyBlk_keeps {z : State} (s : State) (cx : Cx) (d : Desc) (i : Nat) (hK : Keeps z s) : Keeps z (verifyBlk s cx d i).1 := by
  unfold verifyBlk
  repeat' first
    | with_reducible assumption
    | (intro xS; refine keeps_gen (z := z) (x := xS) ?_ (fun _ => ?_); revert xS; dsimp only; rotate_left; clear_value xS)
    | (intro xS; refine keeps_gen_fst (z := z) (x := xS) ?_ (fun _ => ?_); revert xS; dsimp only; rotate_left; clear_value xS)
    | intro _
    | lift_lets
    | with_reducible apply raiseAcc_keeps
    | with_reducible apply cnt64_keeps
    | with_reducible apply blkTraffic_keeps
    | with_reducible apply crcUncured_keeps
    | with_reducible apply crcFail_keeps
    | with_reducible apply poisonRead_keeps
    | with_reducible apply cnt_keeps
    | with_reducible exact Keeps.refl _
    | with_reducible refine keeps_fst (by assumption) ?_
    | simp only [keeps_mk_eq]
    | split
    | dsimp only

theorem verifyGo_keeps {z : State} (cx : Cx) (d : Desc)  : ∀ (a0 : List Nat) (a1 : State), Keeps z a1 → Keeps z (verifyGo cx d a0 a1).1 := by
  intro a0
  induction a0 with
  | nil =>
    intro a1 hK
    first | rw [verifyGo] | unfold verifyGo
    repeat' first
      | with_reducible assumption
      | (intro xS; refine keeps_gen (z := z) (x := xS) ?_ (fun _ => ?_); revert xS; dsimp only; rotate_left; clear_value xS)
      | (intro xS; refine keeps_gen_fst (z := z) (x := xS) ?_ (fun _ => ?_); revert xS; dsimp only; rotate_left; clear_value xS)
      | intro _
      | lift_lets
      | with_reducible apply ih
      | with_reducible apply verifyBlk_keeps
      | with_reducible exact Keeps.refl _
      | with_reducible refine keeps_fst (by assumption) ?_
      | split
      | dsimp only
  | cons x0 l0 ih =>
    intro a1 hK
    first | rw [verifyGo] | unfold verifyGo
    repeat' first
      | with_reducible assumption
      | (intro xS; refine keeps_gen (z := z) (x := xS) ?_ (fun _ => ?_); revert xS; dsimp only; rotate_left; clear_value xS)
      | (intro xS; refine keeps_gen_fst (z := z) (x := xS) ?_ (fun _ => ?_); revert xS; dsimp only; rotate_left; clear_value xS)
      | intro _
      | lift_lets
      | with_reducible apply ih
      | with_reducible apply verifyBlk_keeps
      | with_reducible exact Keeps.refl _
      | with_reducible refine keeps_fst (by assumption) ?_
      | split
      | dsimp only

theorem chkVerifyExec_keeps {z : State} (s : State) (cx : Cx) (o : EngOp) (da : Desc) (hK : Keeps z s) : Keeps z (chkVerifyExec s cx o da).1 := by
  unfold chkVerifyExec
  repeat' first
    | with_reducible assumption
    | (intro xS; refine keeps_gen (z := z) (x := xS) ?_ (fun _ => ?_); revert xS; dsimp only; rotate_left; clear_value xS)
    | (intro xS; refine keeps_gen_fst (z := z) (x := xS) ?_ (fun _ => ?_); revert xS; dsimp only; rotate_left; clear_value xS)
    | intro _
    | lift_lets
    | with_reducible apply verifyGo_keeps
    | with_reducible exact Keeps.refl _
    | with_reducible refine keeps_fst (by assumption) ?_
    | split
    | dsimp only

theorem chkCmpGo_keeps {z : State} (cx : Cx) (da db : Desc)  : ∀ (a0 : List Nat) (a1 : State) (a2 : Bool), Keeps z a1 → Keeps z (chkCmpGo cx da db a0 a1 a2).1 := by
  intro a0
  induction a0 with
  | nil =>
    intro a1 a2 hK
    first | rw [chkCmpGo] | unfold chkCmpGo
    repeat' first
      | with_reducible assumption
      | (intro xS; refine keeps_gen (z := z) (x := xS) ?_ (fun _ => ?_); revert xS; dsimp only; rotate_left; clear_value xS)
      | (intro xS; refine keeps_gen_fst (z := z) (x := xS) ?_ (fun _ => ?_); revert xS; dsimp only; rotate_left; clear_value xS)
      | intro _
      | lift_lets
      | with_reducible apply ih
      | with_reducible apply readBlk_keeps
      | with_reducible exact Keeps.refl _
      | with_reducible refine keeps_fst (by assumption) ?_
      | split
      | dsimp only
  | cons x0 l0 ih =>
    intro a1 a2 hK
    first | rw [chkCmpGo] | unfold chkCmpGo
    repeat' first
      | with_reducible assumption
      | (intro xS; refine keeps_gen (z := z) (x := xS) ?_ (fun _ => ?_); revert xS; dsimp only; rotate_left; clear_value xS)
      | (intro xS; refine keeps_gen_fst (z := z) (x := xS) ?_ (fun _ => ?_); revert xS; dsimp only; rotate_left; clear_value xS)
      | intro _
      | lift_lets
      | with_reducible apply ih
      | with_reducible apply readBlk_keeps
      | with_reducible exact Keeps.refl _
      | with_reducible refine keeps_fst (by assumption) ?_
      | split
      | dsimp only

theorem chkCmpExec_keeps {z : State} (s : State) (cx : Cx) (da db : Desc) (hK : Keeps z s) : Keeps z (chkCmpExec s cx da db).1 := by
  unfold chkCmpExec
  repeat' first
    | with_reducible assumption
    | intro _
    | with_reducible apply chkCmpGo_keeps
    | with_reducible exact Keeps.refl _
    | with_reducible refine keeps_fst (by assumption) ?_
    | split
    | dsimp only

theorem chkFoldGo_keeps {z : State} (cx : Cx) (d : Desc)  : ∀ (a0 : List Nat) (a1 : State) (a2 : Fold), Keeps z a1 → Keeps z (chkFoldGo cx d a0 a1 a2).1 := by
  intro a0
  induction a0 with
  | nil =>
    intro a1 a2 hK
    first | rw [chkFoldGo] | unfold chkFoldGo
    repeat' first
      | with_reducible assumption
      | (intro xS; refine keeps_gen (z := z) (x := xS) ?_ (fun _ => ?_); revert xS; dsimp only; rotate_left; clear_value xS)
      | (intro xS; refine keeps_gen_fst (z := z) (x := xS) ?_ (fun _ => ?_); revert xS; dsimp only; rotate_left; clear_value xS)
      | intro _
      | lift_lets
      | with_reducible apply ih
      | with_reducible apply readBlk_keeps
      | with_reducible exact Keeps.refl _
      | with_reducible refine keeps_fst (by assumption) ?_
      | split
      | dsimp only
  | cons x0 l0 ih =>
    intro a1 a2 hK
    first | rw [chkFoldGo] | unfold chkFoldGo
    repeat' first
      | with_reducible assumption
      | (intro xS; refine keeps_gen (z := z) (x := xS) ?_ (fun _ => ?_); revert xS; dsimp only; rotate_left; clear_value xS)
      | (intro xS; refine keeps_gen_fst (z := z) (x := xS) ?_ (fun _ => ?_); revert xS; dsimp only; rotate_left; clear_value xS)
      | intro _
      | lift_lets
      | with_reducible apply ih
      | with_reducible apply readBlk_keeps
      | with_reducible exact Keeps.refl _
      | with_reducible refine keeps_fst (by assumption) ?_
      | split
      | dsimp only

theorem chkFoldExec_keeps {z : State} (s : State) (cx : Cx) (o : EngOp) (da : Desc) (hK : Keeps z s) : Keeps z (chkFoldExec s cx o da).1 := by
  unfold chkFoldExec
  repeat' first
    | with_reducible assumption
    | (intro xS; refine keeps_gen (z := z) (x := xS) ?_ (fun _ => ?_); revert xS; dsimp only; rotate_left; clear_value xS)
    | (intro xS; refine keeps_gen_fst (z := z) (x := xS) ?_ (fun _ => ?_); revert xS; dsimp only; rotate_left; clear_value xS)
    | intro _
    | lift_lets
    | with_reducible apply raiseAcc_keeps
    | with_reducible apply chkFoldGo_keeps
    | with_reducible apply wrBytes_keeps
    | with_reducible apply traffic_keeps
    | with_reducible exact Keeps.refl _
    | with_reducible refine keeps_fst (by assumption) ?_
    | simp only [keeps_mk_eq]
    | split
    | dsimp only

theorem vecRun_keeps {z : State} (s : State) (o : EngOp) (hK : Keeps z s) : Keeps z (vecRun s o).1 := by
  unfold vecRun
  repeat' first
    | with_reducible assumption
    | (intro xS; refine keeps_gen (z := z) (x := xS) ?_ (fun _ => ?_); revert xS; dsimp only; rotate_left; clear_value xS)
    | (intro xS; refine keeps_gen_fst (z := z) (x := xS) ?_ (fun _ => ?_); revert xS; dsimp only; rotate_left; clear_value xS)
    | intro _
    | lift_lets
    | with_reducible apply chkVerifyExec_keeps
    | with_reducible apply chkFoldExec_keeps
    | with_reducible apply chkCmpExec_keeps
    | with_reducible apply cvtExec_keeps
    | with_reducible apply vecAmaxExec_keeps
    | with_reducible apply vecReduce_keeps
    | with_reducible apply vecMap_keeps
    | with_reducible exact Keeps.refl _
    | with_reducible refine keeps_fst (by assumption) ?_
    | simp only [keeps_mk_eq]
    | split
    | dsimp only

theorem dualMismatch_keeps {z : State} (s : State) (o : EngOp) (temp volt : Nat) (hK : Keeps z s) : Keeps z (dualMismatch s o temp volt) := by
  unfold dualMismatch
  repeat' first
    | with_reducible assumption
    | intro _
    | with_reducible apply health_keeps
    | with_reducible apply raise_keeps
    | with_reducible apply cnt_keeps
    | with_reducible exact Keeps.refl _
    | split
    | dsimp only

theorem dualUncured_keeps {z : State} (s : State) (o : EngOp) (hK : Keeps z s) : Keeps z (dualUncured s o) := by
  unfold dualUncured
  repeat' first
    | with_reducible assumption
    | intro _
    | with_reducible apply voteSet_keeps
    | with_reducible apply health_keeps
    | with_reducible apply raise_keeps
    | with_reducible apply cnt_keeps
    | with_reducible exact Keeps.refl _
    | split
    | dsimp only

theorem vecDual_keeps {z : State} (s : State) (o : EngOp) (e : EngEnv) (hK : Keeps z s) : Keeps z (vecDual s o e).1 := by
  unfold vecDual
  repeat' first
    | with_reducible assumption
    | (intro xS; refine keeps_gen (z := z) (x := xS) ?_ (fun _ => ?_); revert xS; dsimp only; rotate_left; clear_value xS)
    | (intro xS; refine keeps_gen_fst (z := z) (x := xS) ?_ (fun _ => ?_); revert xS; dsimp only; rotate_left; clear_value xS)
    | intro _
    | lift_lets
    | with_reducible apply vecRun_keeps
    | with_reducible apply dualMismatch_keeps
    | with_reducible apply dualUncured_keeps
    | with_reducible exact Keeps.refl _
    | with_reducible refine keeps_fst (by assumption) ?_
    | simp only [keeps_mk_eq]
    | split
    | dsimp only

theorem vecPred_keeps {z : State} (s : State) (o : EngOp) (v : Bool) (hK : Keeps z s) : Keeps z (vecPred s o v) := by
  unfold vecPred
  repeat' first
    | with_reducible assumption
    | intro _
    | with_reducible apply pendDone_keeps
    | with_reducible exact Keeps.refl _
    | split
    | dsimp only

theorem opVecComplete_keeps {z : State} (q : Nat) (e : EngEnv) (s : State) (hK : Keeps z s) : Keeps z (opVecComplete q e s) := by
  unfold opVecComplete
  repeat' first
    | with_reducible assumption
    | (intro xS; refine keeps_gen (z := z) (x := xS) ?_ (fun _ => ?_); revert xS; dsimp only; rotate_left; clear_value xS)
    | (intro xS; refine keeps_gen_fst (z := z) (x := xS) ?_ (fun _ => ?_); revert xS; dsimp only; rotate_left; clear_value xS)
    | intro _
    | lift_lets
    | with_reducible apply vecDual_keeps
    | with_reducible apply memEnv_keeps
    | with_reducible apply completeOp_keeps
    | with_reducible apply vecPred_keeps
    | with_reducible exact Keeps.refl _
    | with_reducible refine keeps_fst (by assumption) ?_
    | simp only [keeps_mk_eq]
    | split
    | dsimp only

theorem execVecComplete_keeps {z : State} (q : Fin 256) (e : EngEnv) (s : State) (hK : Keeps z s) : ∀ t', execVecComplete q e s = .next t' → Keeps z t' := by
  unfold execVecComplete
  repeat' first
    | with_reducible (refine (run_keeps ?_ : ∀ t, _ = Host.Outcome.next t → Keeps _ t))
    | with_reducible assumption
    | intro _
    | with_reducible apply opVecComplete_keeps
    | with_reducible exact Keeps.refl _
    | split
    | dsimp only

theorem execVecAdd_keeps {z : State} (q : Fin 256) (w : PtiWord) (s : State) (hK : Keeps z s) : ∀ t', execVecAdd q w s = .next t' → Keeps z t' := by
  unfold execVecAdd
  repeat' first
    | with_reducible (refine (run_keeps ?_ : ∀ t, _ = Host.Outcome.next t → Keeps _ t))
    | with_reducible assumption
    | intro _
    | with_reducible apply vecIssue_keeps
    | with_reducible exact Keeps.refl _
    | split
    | dsimp only

theorem execVecSub_keeps {z : State} (q : Fin 256) (w : PtiWord) (s : State) (hK : Keeps z s) : ∀ t', execVecSub q w s = .next t' → Keeps z t' := by
  unfold execVecSub
  repeat' first
    | with_reducible (refine (run_keeps ?_ : ∀ t, _ = Host.Outcome.next t → Keeps _ t))
    | with_reducible assumption
    | intro _
    | with_reducible apply vecIssue_keeps
    | with_reducible exact Keeps.refl _
    | split
    | dsimp only

theorem execVecMul_keeps {z : State} (q : Fin 256) (w : PtiWord) (s : State) (hK : Keeps z s) : ∀ t', execVecMul q w s = .next t' → Keeps z t' := by
  unfold execVecMul
  repeat' first
    | with_reducible (refine (run_keeps ?_ : ∀ t, _ = Host.Outcome.next t → Keeps _ t))
    | with_reducible assumption
    | intro _
    | with_reducible apply vecIssue_keeps
    | with_reducible exact Keeps.refl _
    | split
    | dsimp only

theorem execVecFma_keeps {z : State} (q : Fin 256) (w : PtiWord) (s : State) (hK : Keeps z s) : ∀ t', execVecFma q w s = .next t' → Keeps z t' := by
  unfold execVecFma
  repeat' first
    | with_reducible (refine (run_keeps ?_ : ∀ t, _ = Host.Outcome.next t → Keeps _ t))
    | with_reducible assumption
    | intro _
    | with_reducible apply vecIssue_keeps
    | with_reducible exact Keeps.refl _
    | split
    | dsimp only

theorem execVecMax_keeps {z : State} (q : Fin 256) (w : PtiWord) (s : State) (hK : Keeps z s) : ∀ t', execVecMax q w s = .next t' → Keeps z t' := by
  unfold execVecMax
  repeat' first
    | with_reducible (refine (run_keeps ?_ : ∀ t, _ = Host.Outcome.next t → Keeps _ t))
    | with_reducible assumption
    | intro _
    | with_reducible apply vecIssue_keeps
    | with_reducible exact Keeps.refl _
    | split
    | dsimp only

theorem execVecMin_keeps {z : State} (q : Fin 256) (w : PtiWord) (s : State) (hK : Keeps z s) : ∀ t', execVecMin q w s = .next t' → Keeps z t' := by
  unfold execVecMin
  repeat' first
    | with_reducible (refine (run_keeps ?_ : ∀ t, _ = Host.Outcome.next t → Keeps _ t))
    | with_reducible assumption
    | intro _
    | with_reducible apply vecIssue_keeps
    | with_reducible exact Keeps.refl _
    | split
    | dsimp only

theorem execVecAbs_keeps {z : State} (q : Fin 256) (w : PtiWord) (s : State) (hK : Keeps z s) : ∀ t', execVecAbs q w s = .next t' → Keeps z t' := by
  unfold execVecAbs
  repeat' first
    | with_reducible (refine (run_keeps ?_ : ∀ t, _ = Host.Outcome.next t → Keeps _ t))
    | with_reducible assumption
    | intro _
    | with_reducible apply vecIssue_keeps
    | with_reducible exact Keeps.refl _
    | split
    | dsimp only

theorem execVecNeg_keeps {z : State} (q : Fin 256) (w : PtiWord) (s : State) (hK : Keeps z s) : ∀ t', execVecNeg q w s = .next t' → Keeps z t' := by
  unfold execVecNeg
  repeat' first
    | with_reducible (refine (run_keeps ?_ : ∀ t, _ = Host.Outcome.next t → Keeps _ t))
    | with_reducible assumption
    | intro _
    | with_reducible apply vecIssue_keeps
    | with_reducible exact Keeps.refl _
    | split
    | dsimp only

theorem execVecExp_keeps {z : State} (q : Fin 256) (w : PtiWord) (s : State) (hK : Keeps z s) : ∀ t', execVecExp q w s = .next t' → Keeps z t' := by
  unfold execVecExp
  repeat' first
    | with_reducible (refine (run_keeps ?_ : ∀ t, _ = Host.Outcome.next t → Keeps _ t))
    | with_reducible assumption
    | intro _
    | with_reducible apply vecIssue_keeps
    | with_reducible exact Keeps.refl _
    | split
    | dsimp only

theorem execVecLog_keeps {z : State} (q : Fin 256) (w : PtiWord) (s : State) (hK : Keeps z s) : ∀ t', execVecLog q w s = .next t' → Keeps z t' := by
  unfold execVecLog
  repeat' first
    | with_reducible (refine (run_keeps ?_ : ∀ t, _ = Host.Outcome.next t → Keeps _ t))
    | with_reducible assumption
    | intro _
    | with_reducible apply vecIssue_keeps
    | with_reducible exact Keeps.refl _
    | split
    | dsimp only

theorem execVecRcp_keeps {z : State} (q : Fin 256) (w : PtiWord) (s : State) (hK : Keeps z s) : ∀ t', execVecRcp q w s = .next t' → Keeps z t' := by
  unfold execVecRcp
  repeat' first
    | with_reducible (refine (run_keeps ?_ : ∀ t, _ = Host.Outcome.next t → Keeps _ t))
    | with_reducible assumption
    | intro _
    | with_reducible apply vecIssue_keeps
    | with_reducible exact Keeps.refl _
    | split
    | dsimp only

theorem execVecSqrt_keeps {z : State} (q : Fin 256) (w : PtiWord) (s : State) (hK : Keeps z s) : ∀ t', execVecSqrt q w s = .next t' → Keeps z t' := by
  unfold execVecSqrt
  repeat' first
    | with_reducible (refine (run_keeps ?_ : ∀ t, _ = Host.Outcome.next t → Keeps _ t))
    | with_reducible assumption
    | intro _
    | with_reducible apply vecIssue_keeps
    | with_reducible exact Keeps.refl _
    | split
    | dsimp only

theorem execVecRsqrt_keeps {z : State} (q : Fin 256) (w : PtiWord) (s : State) (hK : Keeps z s) : ∀ t', execVecRsqrt q w s = .next t' → Keeps z t' := by
  unfold execVecRsqrt
  repeat' first
    | with_reducible (refine (run_keeps ?_ : ∀ t, _ = Host.Outcome.next t → Keeps _ t))
    | with_reducible assumption
    | intro _
    | with_reducible apply vecIssue_keeps
    | with_reducible exact Keeps.refl _
    | split
    | dsimp only

theorem execVecTanh_keeps {z : State} (q : Fin 256) (w : PtiWord) (s : State) (hK : Keeps z s) : ∀ t', execVecTanh q w s = .next t' → Keeps z t' := by
  unfold execVecTanh
  repeat' first
    | with_reducible (refine (run_keeps ?_ : ∀ t, _ = Host.Outcome.next t → Keeps _ t))
    | with_reducible assumption
    | intro _
    | with_reducible apply vecIssue_keeps
    | with_reducible exact Keeps.refl _
    | split
    | dsimp only

theorem execVecSigm_keeps {z : State} (q : Fin 256) (w : PtiWord) (s : State) (hK : Keeps z s) : ∀ t', execVecSigm q w s = .next t' → Keeps z t' := by
  unfold execVecSigm
  repeat' first
    | with_reducible (refine (run_keeps ?_ : ∀ t, _ = Host.Outcome.next t → Keeps _ t))
    | with_reducible assumption
    | intro _
    | with_reducible apply vecIssue_keeps
    | with_reducible exact Keeps.refl _
    | split
    | dsimp only

theorem execCvt_keeps {z : State} (q : Fin 256) (w : PtiWord) (s : State) (hK : Keeps z s) : ∀ t', execCvt q w s = .next t' → Keeps z t' := by
  unfold execCvt
  repeat' first
    | with_reducible (refine (run_keeps ?_ : ∀ t, _ = Host.Outcome.next t → Keeps _ t))
    | with_reducible assumption
    | intro _
    | with_reducible apply vecIssue_keeps
    | with_reducible exact Keeps.refl _
    | split
    | dsimp only

theorem execVecSum_keeps {z : State} (q : Fin 256) (w : PtiWord) (s : State) (hK : Keeps z s) : ∀ t', execVecSum q w s = .next t' → Keeps z t' := by
  unfold execVecSum
  repeat' first
    | with_reducible (refine (run_keeps ?_ : ∀ t, _ = Host.Outcome.next t → Keeps _ t))
    | with_reducible assumption
    | intro _
    | with_reducible apply vecIssue_keeps
    | with_reducible exact Keeps.refl _
    | split
    | dsimp only

theorem execVecRmax_keeps {z : State} (q : Fin 256) (w : PtiWord) (s : State) (hK : Keeps z s) : ∀ t', execVecRmax q w s = .next t' → Keeps z t' := by
  unfold execVecRmax
  repeat' first
    | with_reducible (refine (run_keeps ?_ : ∀ t, _ = Host.Outcome.next t → Keeps _ t))
    | with_reducible assumption
    | intro _
    | with_reducible apply vecIssue_keeps
    | with_reducible exact Keeps.refl _
    | split
    | dsimp only

theorem execVecAmax_keeps {z : State} (q : Fin 256) (w : PtiWord) (s : State) (hK : Keeps z s) : ∀ t', execVecAmax q w s = .next t' → Keeps z t' := by
  unfold execVecAmax
  repeat' first
    | with_reducible (refine (run_keeps ?_ : ∀ t, _ = Host.Outcome.next t → Keeps _ t))
    | with_reducible assumption
    | intro _
    | with_reducible apply vecIssue_keeps
    | with_reducible exact Keeps.refl _
    | split
    | dsimp only

theorem execChkFold_keeps {z : State} (q : Fin 256) (w : PtiWord) (s : State) (hK : Keeps z s) : ∀ t', execChkFold q w s = .next t' → Keeps z t' := by
  unfold execChkFold
  repeat' first
    | with_reducible (refine (run_keeps ?_ : ∀ t, _ = Host.Outcome.next t → Keeps _ t))
    | with_reducible assumption
    | intro _
    | with_reducible apply vecIssue_keeps
    | with_reducible exact Keeps.refl _
    | split
    | dsimp only

theorem chkPredIssue_keeps {z : State} (op : PtiOp) (q : Nat) (w : PtiWord) (s : State) (hK : Keeps z s) : Keeps z (chkPredIssue op q w s) := by
  unfold chkPredIssue
  repeat' first
    | with_reducible assumption
    | (intro xS; refine keeps_gen (z := z) (x := xS) ?_ (fun _ => ?_); revert xS; dsimp only; rotate_left; clear_value xS)
    | (intro xS; refine keeps_gen_fst (z := z) (x := xS) ?_ (fun _ => ?_); revert xS; dsimp only; rotate_left; clear_value xS)
    | intro _
    | lift_lets
    | with_reducible apply ptiIssue_keeps
    | with_reducible apply enqueueOp_keeps
    | with_reducible apply setSeq_keeps
    | with_reducible exact Keeps.refl _
    | simp only [keeps_mk_eq]
    | split
    | dsimp only

theorem execChkVerify_keeps {z : State} (q : Fin 256) (w : PtiWord) (s : State) (hK : Keeps z s) : ∀ t', execChkVerify q w s = .next t' → Keeps z t' := by
  unfold execChkVerify
  repeat' first
    | with_reducible (refine (run_keeps ?_ : ∀ t, _ = Host.Outcome.next t → Keeps _ t))
    | with_reducible assumption
    | intro _
    | with_reducible apply chkPredIssue_keeps
    | with_reducible exact Keeps.refl _
    | split
    | dsimp only

theorem execChkCmp_keeps {z : State} (q : Fin 256) (w : PtiWord) (s : State) (hK : Keeps z s) : ∀ t', execChkCmp q w s = .next t' → Keeps z t' := by
  unfold execChkCmp
  repeat' first
    | with_reducible (refine (run_keeps ?_ : ∀ t, _ = Host.Outcome.next t → Keeps _ t))
    | with_reducible assumption
    | intro _
    | with_reducible apply chkPredIssue_keeps
    | with_reducible exact Keeps.refl _
    | split
    | dsimp only

end Sys2Proof.Machine
end

