-- ==== Sys2Proof/Laws/KeepsUnits.lean ====
section
/-! SUPPORT. What the operations of Units keep. -/
namespace Sys2Proof.Machine

theorem setUnit_keeps {z : State} (s : State) (rg u : Nat) (r : UnitRec) (hK : Keeps z s) : Keeps z (setUnit s rg u r) := by
  unfold setUnit
  repeat' first
    | with_reducible assumption
    | (intro xS; refine keeps_gen (z := z) (x := xS) ?_ (fun _ => ?_); revert xS; dsimp only; rotate_left; clear_value xS)
    | (intro xS; refine keeps_gen_fst (z := z) (x := xS) ?_ (fun _ => ?_); revert xS; dsimp only; rotate_left; clear_value xS)
    | intro _
    | lift_lets
    | with_reducible exact Keeps.refl _
    | simp only [keeps_mk_eq]
    | split
    | dsimp only

theorem setMap_keeps {z : State} (s : State) (rg l phys : Nat) (hK : Keeps z s) : Keeps z (setMap s rg l phys) := by
  unfold setMap
  repeat' first
    | with_reducible assumption
    | (intro xS; refine keeps_gen (z := z) (x := xS) ?_ (fun _ => ?_); revert xS; dsimp only; rotate_left; clear_value xS)
    | (intro xS; refine keeps_gen_fst (z := z) (x := xS) ?_ (fun _ => ?_); revert xS; dsimp only; rotate_left; clear_value xS)
    | intro _
    | lift_lets
    | with_reducible apply setFld_keeps
    | with_reducible exact Keeps.refl _
    | with_reducible refine keeps_foldl (fun _ _ _ => ?_) _ ?_
    | with_reducible refine keeps_foldl_fst (fun _ _ _ => ?_) _ ?_
    | split
    | dsimp only

theorem rehome_keeps {z : State} (rg u : Nat) (s : State) (l : Nat) (hK : Keeps z s) : Keeps z (rehome rg u s l) := by
  unfold rehome
  repeat' first
    | with_reducible assumption
    | (intro xS; refine keeps_gen (z := z) (x := xS) ?_ (fun _ => ?_); revert xS; dsimp only; rotate_left; clear_value xS)
    | (intro xS; refine keeps_gen_fst (z := z) (x := xS) ?_ (fun _ => ?_); revert xS; dsimp only; rotate_left; clear_value xS)
    | intro _
    | lift_lets
    | with_reducible apply setMap_keeps
    | with_reducible apply raise_keeps
    | with_reducible exact Keeps.refl _
    | simp only [keeps_mk_eq]
    | split
    | dsimp only

theorem unserve_keeps {z : State} (s : State) (rg u : Nat) (hK : Keeps z s) : Keeps z (unserve s rg u) := by
  unfold unserve
  repeat' first
    | with_reducible assumption
    | (intro xS; refine keeps_gen (z := z) (x := xS) ?_ (fun _ => ?_); revert xS; dsimp only; rotate_left; clear_value xS)
    | (intro xS; refine keeps_gen_fst (z := z) (x := xS) ?_ (fun _ => ?_); revert xS; dsimp only; rotate_left; clear_value xS)
    | intro _
    | lift_lets
    | with_reducible apply setUnit_keeps
    | with_reducible apply rehome_keeps
    | with_reducible exact Keeps.refl _
    | with_reducible refine keeps_foldl (fun _ _ _ => ?_) _ ?_
    | with_reducible refine keeps_foldl_fst (fun _ _ _ => ?_) _ ?_
    | simp only [keeps_mk_eq]
    | split
    | dsimp only

theorem unitCertGo_keeps {z : State} (s : State) (rg u : Nat) (hK : Keeps z s) : Keeps z (unitCertGo s rg u) := by
  unfold unitCertGo
  repeat' first
    | with_reducible assumption
    | (intro xS; refine keeps_gen (z := z) (x := xS) ?_ (fun _ => ?_); revert xS; dsimp only; rotate_left; clear_value xS)
    | (intro xS; refine keeps_gen_fst (z := z) (x := xS) ?_ (fun _ => ?_); revert xS; dsimp only; rotate_left; clear_value xS)
    | intro _
    | lift_lets
    | with_reducible apply setUnit_keeps
    | with_reducible apply raise_keeps
    | with_reducible exact Keeps.refl _
    | simp only [keeps_mk_eq]
    | split
    | dsimp only

theorem eclipseUnit_keeps {z : State} (s : State) (rg u : Nat) (hK : Keeps z s) : Keeps z (eclipseUnit s rg u) := by
  unfold eclipseUnit
  repeat' first
    | with_reducible assumption
    | (intro xS; refine keeps_gen (z := z) (x := xS) ?_ (fun _ => ?_); revert xS; dsimp only; rotate_left; clear_value xS)
    | (intro xS; refine keeps_gen_fst (z := z) (x := xS) ?_ (fun _ => ?_); revert xS; dsimp only; rotate_left; clear_value xS)
    | intro _
    | lift_lets
    | with_reducible apply setUnit_keeps
    | with_reducible apply unitCertGo_keeps
    | with_reducible apply unserve_keeps
    | with_reducible apply health_keeps
    | with_reducible apply raise_keeps
    | with_reducible exact Keeps.refl _
    | simp only [keeps_mk_eq]
    | split
    | dsimp only

theorem retireUnitSt_keeps {z : State} (s : State) (rg u : Nat) (hK : Keeps z s) : Keeps z (retireUnitSt s rg u) := by
  unfold retireUnitSt
  repeat' first
    | with_reducible assumption
    | (intro xS; refine keeps_gen (z := z) (x := xS) ?_ (fun _ => ?_); revert xS; dsimp only; rotate_left; clear_value xS)
    | (intro xS; refine keeps_gen_fst (z := z) (x := xS) ?_ (fun _ => ?_); revert xS; dsimp only; rotate_left; clear_value xS)
    | intro _
    | lift_lets
    | with_reducible apply setUnit_keeps
    | with_reducible apply unserve_keeps
    | with_reducible exact Keeps.refl _
    | simp only [keeps_mk_eq]
    | split
    | dsimp only

theorem uneclipse_keeps {z : State} (s : State) (rg u : Nat) (hK : Keeps z s) : Keeps z (uneclipse s rg u) := by
  unfold uneclipse
  repeat' first
    | with_reducible assumption
    | (intro xS; refine keeps_gen (z := z) (x := xS) ?_ (fun _ => ?_); revert xS; dsimp only; rotate_left; clear_value xS)
    | (intro xS; refine keeps_gen_fst (z := z) (x := xS) ?_ (fun _ => ?_); revert xS; dsimp only; rotate_left; clear_value xS)
    | intro _
    | lift_lets
    | with_reducible apply setUnit_keeps
    | with_reducible exact Keeps.refl _
    | simp only [keeps_mk_eq]
    | split
    | dsimp only

theorem fenceMove_keeps {z : State} (s : State) (rg u p q : Nat) (hK : Keeps z s) : Keeps z (fenceMove s rg u p q) := by
  unfold fenceMove
  repeat' first
    | with_reducible assumption
    | (intro xS; refine keeps_gen (z := z) (x := xS) ?_ (fun _ => ?_); revert xS; dsimp only; rotate_left; clear_value xS)
    | (intro xS; refine keeps_gen_fst (z := z) (x := xS) ?_ (fun _ => ?_); revert xS; dsimp only; rotate_left; clear_value xS)
    | intro _
    | lift_lets
    | with_reducible apply raise_keeps
    | with_reducible apply setMap_keeps
    | with_reducible exact Keeps.refl _
    | with_reducible refine keeps_foldl (fun _ _ _ => ?_) _ ?_
    | with_reducible refine keeps_foldl_fst (fun _ _ _ => ?_) _ ?_
    | simp only [keeps_mk_eq]
    | split
    | dsimp only

theorem fenceBack_keeps {z : State} (s : State) (rg u p : Nat) (hK : Keeps z s) : Keeps z (fenceBack s rg u p) := by
  unfold fenceBack
  repeat' first
    | with_reducible assumption
    | intro _
    | with_reducible apply fenceMove_keeps
    | with_reducible exact Keeps.refl _
    | split
    | dsimp only

theorem fenceSwitch_keeps {z : State} (s : State) (rg u : Nat) (hK : Keeps z s) : Keeps z (fenceSwitch s rg u) := by
  unfold fenceSwitch
  repeat' first
    | with_reducible assumption
    | (intro xS; refine keeps_gen (z := z) (x := xS) ?_ (fun _ => ?_); revert xS; dsimp only; rotate_left; clear_value xS)
    | (intro xS; refine keeps_gen_fst (z := z) (x := xS) ?_ (fun _ => ?_); revert xS; dsimp only; rotate_left; clear_value xS)
    | intro _
    | lift_lets
    | with_reducible apply fenceMove_keeps
    | with_reducible apply fenceBack_keeps
    | with_reducible exact Keeps.refl _
    | simp only [keeps_mk_eq]
    | split
    | dsimp only

theorem unitTemp_keeps {z : State} (s : State) (rg u t : Nat) (hK : Keeps z s) : Keeps z (unitTemp s rg u t) := by
  unfold unitTemp
  repeat' first
    | with_reducible assumption
    | (intro xS; refine keeps_gen (z := z) (x := xS) ?_ (fun _ => ?_); revert xS; dsimp only; rotate_left; clear_value xS)
    | (intro xS; refine keeps_gen_fst (z := z) (x := xS) ?_ (fun _ => ?_); revert xS; dsimp only; rotate_left; clear_value xS)
    | intro _
    | lift_lets
    | with_reducible apply fenceSwitch_keeps
    | with_reducible apply setUnit_keeps
    | with_reducible exact Keeps.refl _
    | simp only [keeps_mk_eq]
    | split
    | dsimp only

theorem applyFence_keeps {z : State} (rg : Nat) (s : State) (u : Nat) (hK : Keeps z s) : Keeps z (applyFence rg s u) := by
  unfold applyFence
  repeat' first
    | with_reducible assumption
    | (intro xS; refine keeps_gen (z := z) (x := xS) ?_ (fun _ => ?_); revert xS; dsimp only; rotate_left; clear_value xS)
    | (intro xS; refine keeps_gen_fst (z := z) (x := xS) ?_ (fun _ => ?_); revert xS; dsimp only; rotate_left; clear_value xS)
    | intro _
    | lift_lets
    | with_reducible apply setUnit_keeps
    | with_reducible apply fenceBack_keeps
    | with_reducible apply fenceSwitch_keeps
    | with_reducible apply raise_keeps
    | with_reducible exact Keeps.refl _
    | simp only [keeps_mk_eq]
    | split
    | dsimp only

theorem fenceApplyWrite_keeps {z : State} (s : State) (rg : Nat) (hK : Keeps z s) : Keeps z (fenceApplyWrite s rg) := by
  unfold fenceApplyWrite
  repeat' first
    | with_reducible assumption
    | intro _
    | with_reducible apply applyFence_keeps
    | with_reducible exact Keeps.refl _
    | with_reducible refine keeps_foldl (fun _ _ _ => ?_) _ ?_
    | with_reducible refine keeps_foldl_fst (fun _ _ _ => ?_) _ ?_
    | split
    | dsimp only

theorem updBand_keeps {z : State} (s : State) (rg idx b : Nat) (f : BandRec → BandRec) (hK : Keeps z s) : Keeps z (updBand s rg idx b f) := by
  unfold updBand
  repeat' first
    | with_reducible assumption
    | (intro xS; refine keeps_gen (z := z) (x := xS) ?_ (fun _ => ?_); revert xS; dsimp only; rotate_left; clear_value xS)
    | (intro xS; refine keeps_gen_fst (z := z) (x := xS) ?_ (fun _ => ?_); revert xS; dsimp only; rotate_left; clear_value xS)
    | intro _
    | lift_lets
    | with_reducible exact Keeps.refl _
    | simp only [keeps_mk_eq]
    | split
    | dsimp only

theorem abftMismatch_keeps {z : State} (s : State) (rg u pc step : Nat) (f : AbftFail) (diff tau : Nat) (hK : Keeps z s) : Keeps z (abftMismatch s rg u pc step f diff tau) := by
  unfold abftMismatch
  repeat' first
    | with_reducible assumption
    | (intro xS; refine keeps_gen (z := z) (x := xS) ?_ (fun _ => ?_); revert xS; dsimp only; rotate_left; clear_value xS)
    | (intro xS; refine keeps_gen_fst (z := z) (x := xS) ?_ (fun _ => ?_); revert xS; dsimp only; rotate_left; clear_value xS)
    | intro _
    | lift_lets
    | with_reducible apply setFld_keeps
    | with_reducible apply cnt_keeps
    | with_reducible apply updBand_keeps
    | with_reducible apply raise_keeps
    | with_reducible exact Keeps.refl _
    | simp only [keeps_mk_eq]
    | split
    | dsimp only

theorem eclipseWindow_keeps {z : State} (s : State) (rg u : Nat) (hK : Keeps z s) : Keeps z (eclipseWindow s rg u) := by
  unfold eclipseWindow
  repeat' first
    | with_reducible assumption
    | (intro xS; refine keeps_gen (z := z) (x := xS) ?_ (fun _ => ?_); revert xS; dsimp only; rotate_left; clear_value xS)
    | (intro xS; refine keeps_gen_fst (z := z) (x := xS) ?_ (fun _ => ?_); revert xS; dsimp only; rotate_left; clear_value xS)
    | intro _
    | lift_lets
    | with_reducible apply eclipseUnit_keeps
    | with_reducible apply setUnit_keeps
    | with_reducible exact Keeps.refl _
    | simp only [keeps_mk_eq]
    | split
    | dsimp only

end Sys2Proof.Machine
end

