-- ==== Sys2Proof/Laws/KeepsMma.lean ====
section
/-! SUPPORT. What the operations of Mma keep. -/
namespace Sys2Proof.Machine

theorem mmaIssue_keeps {z : State} (op : PtiOp) (q : Nat) (w : PtiWord) (s : State) (hK : Keeps z s) : Keeps z (mmaIssue op q w s) := by
  unfold mmaIssue
  repeat' first
    | with_reducible assumption
    | (intro xS; refine keeps_gen (z := z) (x := xS) ?_ (fun _ => ?_); revert xS; dsimp only; rotate_left; clear_value xS)
    | (intro xS; refine keeps_gen_fst (z := z) (x := xS) ?_ (fun _ => ?_); revert xS; dsimp only; rotate_left; clear_value xS)
    | intro _
    | lift_lets
    | with_reducible apply ptiIssue_keeps
    | with_reducible apply issueFail_keeps
    | with_reducible apply setSeq_keeps
    | with_reducible apply enqueueOp_keeps
    | with_reducible exact Keeps.refl _
    | simp only [keeps_mk_eq]
    | split
    | dsimp only

theorem execMmaFp4_keeps {z : State} (q : Fin 256) (w : PtiWord) (s : State) (hK : Keeps z s) : ∀ t', execMmaFp4 q w s = .next t' → Keeps z t' := by
  unfold execMmaFp4
  repeat' first
    | with_reducible (refine (run_keeps ?_ : ∀ t, _ = Host.Outcome.next t → Keeps _ t))
    | with_reducible assumption
    | intro _
    | with_reducible apply mmaIssue_keeps
    | with_reducible exact Keeps.refl _
    | split
    | dsimp only

theorem execMmaFp8_keeps {z : State} (q : Fin 256) (w : PtiWord) (s : State) (hK : Keeps z s) : ∀ t', execMmaFp8 q w s = .next t' → Keeps z t' := by
  unfold execMmaFp8
  repeat' first
    | with_reducible (refine (run_keeps ?_ : ∀ t, _ = Host.Outcome.next t → Keeps _ t))
    | with_reducible assumption
    | intro _
    | with_reducible apply mmaIssue_keeps
    | with_reducible exact Keeps.refl _
    | split
    | dsimp only

theorem execMmaBf16_keeps {z : State} (q : Fin 256) (w : PtiWord) (s : State) (hK : Keeps z s) : ∀ t', execMmaBf16 q w s = .next t' → Keeps z t' := by
  unfold execMmaBf16
  repeat' first
    | with_reducible (refine (run_keeps ?_ : ∀ t, _ = Host.Outcome.next t → Keeps _ t))
    | with_reducible assumption
    | intro _
    | with_reducible apply mmaIssue_keeps
    | with_reducible exact Keeps.refl _
    | split
    | dsimp only

theorem execMmaT19_keeps {z : State} (q : Fin 256) (w : PtiWord) (s : State) (hK : Keeps z s) : ∀ t', execMmaT19 q w s = .next t' → Keeps z t' := by
  unfold execMmaT19
  repeat' first
    | with_reducible (refine (run_keeps ?_ : ∀ t, _ = Host.Outcome.next t → Keeps _ t))
    | with_reducible assumption
    | intro _
    | with_reducible apply mmaIssue_keeps
    | with_reducible exact Keeps.refl _
    | split
    | dsimp only

theorem execMmaF32_keeps {z : State} (q : Fin 256) (w : PtiWord) (s : State) (hK : Keeps z s) : ∀ t', execMmaF32 q w s = .next t' → Keeps z t' := by
  unfold execMmaF32
  repeat' first
    | with_reducible (refine (run_keeps ?_ : ∀ t, _ = Host.Outcome.next t → Keeps _ t))
    | with_reducible assumption
    | intro _
    | with_reducible apply mmaIssue_keeps
    | with_reducible exact Keeps.refl _
    | split
    | dsimp only

theorem gangApplyWrite_keeps {z : State} (s : State) (q : Nat) (hK : Keeps z s) : Keeps z (gangApplyWrite s q) := by
  unfold gangApplyWrite
  repeat' first
    | with_reducible assumption
    | (intro xS; refine keeps_gen (z := z) (x := xS) ?_ (fun _ => ?_); revert xS; dsimp only; rotate_left; clear_value xS)
    | (intro xS; refine keeps_gen_fst (z := z) (x := xS) ?_ (fun _ => ?_); revert xS; dsimp only; rotate_left; clear_value xS)
    | intro _
    | lift_lets
    | with_reducible exact Keeps.refl _
    | simp only [keeps_mk_eq]
    | split
    | dsimp only

theorem opGangModeChange_keeps {z : State} (q : Nat) (s : State) (hK : Keeps z s) : Keeps z (opGangModeChange q s) := by
  unfold opGangModeChange
  repeat' first
    | with_reducible assumption
    | (intro xS; refine keeps_gen (z := z) (x := xS) ?_ (fun _ => ?_); revert xS; dsimp only; rotate_left; clear_value xS)
    | (intro xS; refine keeps_gen_fst (z := z) (x := xS) ?_ (fun _ => ?_); revert xS; dsimp only; rotate_left; clear_value xS)
    | intro _
    | lift_lets
    | with_reducible apply setFld_keeps
    | with_reducible exact Keeps.refl _
    | simp only [keeps_mk_eq]
    | split
    | dsimp only

theorem execGangModeChange_keeps {z : State} (q : Fin 256) (s : State) (hK : Keeps z s) : ∀ t', execGangModeChange q s = .next t' → Keeps z t' := by
  unfold execGangModeChange
  repeat' first
    | with_reducible (refine (run_keeps ?_ : ∀ t, _ = Host.Outcome.next t → Keeps _ t))
    | with_reducible assumption
    | intro _
    | with_reducible apply opGangModeChange_keeps
    | with_reducible exact Keeps.refl _
    | split
    | dsimp only

theorem writeI32_keeps {z : State} (cx : Cx) (d : Desc) (valid : Nat → Nat → Bool) (val : Nat → Nat → EV) (sat : Nat) (s : State) (i : Nat) (hK : Keeps z s) : Keeps z (writeI32 cx d valid val sat s i) := by
  unfold writeI32
  repeat' first
    | with_reducible assumption
    | (intro xS; refine keeps_gen (z := z) (x := xS) ?_ (fun _ => ?_); revert xS; dsimp only; rotate_left; clear_value xS)
    | (intro xS; refine keeps_gen_fst (z := z) (x := xS) ?_ (fun _ => ?_); revert xS; dsimp only; rotate_left; clear_value xS)
    | intro _
    | lift_lets
    | with_reducible apply writeZero_keeps
    | with_reducible apply storeBlk_keeps
    | with_reducible apply voteWrite_keeps
    | with_reducible apply deliverSat_keeps
    | with_reducible exact Keeps.refl _
    | simp only [keeps_mk_eq]
    | split
    | dsimp only

theorem unitRun_keeps {z : State} (rg fl : Nat) (ck : Nat × Nat) (zs : Nat) (s : State) (u : Nat) (hK : Keeps z s) : Keeps z (unitRun rg fl ck zs s u) := by
  unfold unitRun
  repeat' first
    | with_reducible assumption
    | (intro xS; refine keeps_gen (z := z) (x := xS) ?_ (fun _ => ?_); revert xS; dsimp only; rotate_left; clear_value xS)
    | (intro xS; refine keeps_gen_fst (z := z) (x := xS) ?_ (fun _ => ?_); revert xS; dsimp only; rotate_left; clear_value xS)
    | intro _
    | lift_lets
    | with_reducible apply setFld_keeps
    | with_reducible apply cntAdd_keeps
    | with_reducible apply cnt64_keeps
    | with_reducible exact Keeps.refl _
    | split
    | dsimp only

theorem mmaCounts_keeps {z : State} (s : State) (o : EngOp) (tgt mode : Nat) (r : MmaOut) (acc : Nat → Nat → MmaAcc) (runs : Nat → Nat) (hK : Keeps z s) : Keeps z (mmaCounts s o tgt mode r acc runs) := by
  unfold mmaCounts
  repeat' first
    | with_reducible assumption
    | (intro xS; refine keeps_gen (z := z) (x := xS) ?_ (fun _ => ?_); revert xS; dsimp only; rotate_left; clear_value xS)
    | (intro xS; refine keeps_gen_fst (z := z) (x := xS) ?_ (fun _ => ?_); revert xS; dsimp only; rotate_left; clear_value xS)
    | intro _
    | lift_lets
    | with_reducible apply unitRun_keeps
    | with_reducible exact Keeps.refl _
    | with_reducible refine keeps_foldl (fun _ _ _ => ?_) _ ?_
    | with_reducible refine keeps_foldl_fst (fun _ _ _ => ?_) _ ?_
    | split
    | dsimp only

theorem mmaWrite_keeps {z : State} (s : State) (cx : Cx) (o : EngOp) (r : MmaOut) (acc : Nat → Nat → MmaAcc) (hK : Keeps z s) : Keeps z (mmaWrite s cx o r acc) := by
  unfold mmaWrite
  repeat' first
    | with_reducible assumption
    | (intro xS; refine keeps_gen (z := z) (x := xS) ?_ (fun _ => ?_); revert xS; dsimp only; rotate_left; clear_value xS)
    | (intro xS; refine keeps_gen_fst (z := z) (x := xS) ?_ (fun _ => ?_); revert xS; dsimp only; rotate_left; clear_value xS)
    | intro _
    | lift_lets
    | with_reducible apply writeI32_keeps
    | with_reducible apply writeTileSat_keeps
    | with_reducible exact Keeps.refl _
    | with_reducible refine keeps_foldl (fun _ _ _ => ?_) _ ?_
    | with_reducible refine keeps_foldl_fst (fun _ _ _ => ?_) _ ?_
    | split
    | dsimp only

theorem sparseShow_keeps {z : State} (s : State) (o : EngOp) (tgt n k : Nat) (tb : TensorVal) (hK : Keeps z s) : Keeps z (sparseShow s o tgt n k tb) := by
  unfold sparseShow
  repeat' first
    | with_reducible assumption
    | (intro xS; refine keeps_gen (z := z) (x := xS) ?_ (fun _ => ?_); revert xS; dsimp only; rotate_left; clear_value xS)
    | (intro xS; refine keeps_gen_fst (z := z) (x := xS) ?_ (fun _ => ?_); revert xS; dsimp only; rotate_left; clear_value xS)
    | intro _
    | lift_lets
    | with_reducible apply setFld_keeps
    | with_reducible exact Keeps.refl _
    | with_reducible refine keeps_foldl (fun _ _ _ => ?_) _ ?_
    | with_reducible refine keeps_foldl_fst (fun _ _ _ => ?_) _ ?_
    | simp only [keeps_mk_eq]
    | split
    | dsimp only

theorem mmaRead_keeps {z : State} (s : State) (cx : Cx) (o : EngOp) (tgt : Nat) (dc da db : Desc) (fc fa fb : Fmt) (hK : Keeps z s) : Keeps z (mmaRead s cx o tgt dc da db fc fa fb).1 := by
  unfold mmaRead
  repeat' first
    | with_reducible assumption
    | (intro xS; refine keeps_gen (z := z) (x := xS) ?_ (fun _ => ?_); revert xS; dsimp only; rotate_left; clear_value xS)
    | (intro xS; refine keeps_gen_fst (z := z) (x := xS) ?_ (fun _ => ?_); revert xS; dsimp only; rotate_left; clear_value xS)
    | intro _
    | lift_lets
    | with_reducible apply readWin_keeps
    | with_reducible apply sparseShow_keeps
    | with_reducible apply raiseAcc_keeps
    | with_reducible exact Keeps.refl _
    | with_reducible refine keeps_fst (by assumption) ?_
    | simp only [keeps_mk_eq]
    | split
    | dsimp only

theorem mmaMismatches_keeps {z : State} (o : EngOp) (tgt mode : Nat) (r : MmaOut) (l : List AbftFail) (s : State) (j : Nat) (hK : Keeps z s) : Keeps z (mmaMismatches o tgt mode r l s j) := by
  unfold mmaMismatches
  repeat' first
    | with_reducible assumption
    | (intro xS; refine keeps_gen (z := z) (x := xS) ?_ (fun _ => ?_); revert xS; dsimp only; rotate_left; clear_value xS)
    | (intro xS; refine keeps_gen_fst (z := z) (x := xS) ?_ (fun _ => ?_); revert xS; dsimp only; rotate_left; clear_value xS)
    | intro _
    | lift_lets
    | with_reducible apply abftMismatch_keeps
    | with_reducible exact Keeps.refl _
    | with_reducible refine keeps_foldl (fun _ _ _ => ?_) _ ?_
    | with_reducible refine keeps_foldl_fst (fun _ _ _ => ?_) _ ?_
    | split
    | dsimp only

theorem mmaFinish_keeps {z : State} (s : State) (cx : Cx) (o : EngOp) (tgt : Nat) (l0 : List AbftFail) (r : MmaOut) (hK : Keeps z s) : Keeps z (mmaFinish s cx o tgt l0 r).1 := by
  unfold mmaFinish
  repeat' first
    | with_reducible assumption
    | (intro xS; refine keeps_gen (z := z) (x := xS) ?_ (fun _ => ?_); revert xS; dsimp only; rotate_left; clear_value xS)
    | (intro xS; refine keeps_gen_fst (z := z) (x := xS) ?_ (fun _ => ?_); revert xS; dsimp only; rotate_left; clear_value xS)
    | intro _
    | lift_lets
    | with_reducible apply mmaCounts_keeps
    | with_reducible apply mmaMismatches_keeps
    | with_reducible apply voteSet_keeps
    | with_reducible apply health_keeps
    | with_reducible apply mmaWrite_keeps
    | with_reducible apply eclipseWindow_keeps
    | with_reducible exact Keeps.refl _
    | with_reducible refine keeps_foldl (fun _ _ _ => ?_) _ ?_
    | with_reducible refine keeps_foldl_fst (fun _ _ _ => ?_) _ ?_
    | with_reducible refine keeps_fst (by assumption) ?_
    | simp only [keeps_mk_eq]
    | split
    | dsimp only

theorem mmaRun_keeps {z : State} (s : State) (o : EngOp) (tgt : Nat) (e : MmaEnv) (hK : Keeps z s) : Keeps z (mmaRun s o tgt e).1 := by
  unfold mmaRun
  repeat' first
    | with_reducible assumption
    | (intro xS; refine keeps_gen (z := z) (x := xS) ?_ (fun _ => ?_); revert xS; dsimp only; rotate_left; clear_value xS)
    | (intro xS; refine keeps_gen_fst (z := z) (x := xS) ?_ (fun _ => ?_); revert xS; dsimp only; rotate_left; clear_value xS)
    | intro _
    | lift_lets
    | with_reducible apply mmaRead_keeps
    | with_reducible apply mmaFinish_keeps
    | with_reducible exact Keeps.refl _
    | with_reducible refine keeps_fst (by assumption) ?_
    | simp only [keeps_mk_eq]
    | split
    | dsimp only

theorem opMmaComplete_keeps {z : State} (q : Nat) (tgt : Nat) (e : MmaEnv) (s : State) (hK : Keeps z s) : Keeps z (opMmaComplete q tgt e s) := by
  unfold opMmaComplete
  repeat' first
    | with_reducible assumption
    | (intro xS; refine keeps_gen (z := z) (x := xS) ?_ (fun _ => ?_); revert xS; dsimp only; rotate_left; clear_value xS)
    | (intro xS; refine keeps_gen_fst (z := z) (x := xS) ?_ (fun _ => ?_); revert xS; dsimp only; rotate_left; clear_value xS)
    | intro _
    | lift_lets
    | with_reducible apply memEnv_keeps
    | with_reducible apply mmaRun_keeps
    | with_reducible apply completeOpAt_keeps
    | with_reducible exact Keeps.refl _
    | with_reducible refine keeps_fst (by assumption) ?_
    | simp only [keeps_mk_eq]
    | split
    | dsimp only

theorem execMmaComplete_keeps {z : State} (q : Fin 256) (tgt : Fin 5) (e : MmaEnv) (s : State) (hK : Keeps z s) : ∀ t', execMmaComplete q tgt e s = .next t' → Keeps z t' := by
  unfold execMmaComplete
  repeat' first
    | with_reducible (refine (run_keeps ?_ : ∀ t, _ = Host.Outcome.next t → Keeps _ t))
    | with_reducible assumption
    | intro _
    | with_reducible apply opMmaComplete_keeps
    | with_reducible exact Keeps.refl _
    | split
    | dsimp only

end Sys2Proof.Machine
end

