-- ==== Sys2Proof/Laws/KeepsXfer.lean ====
section
/-! SUPPORT. What the operations of Xfer keep. -/
namespace Sys2Proof.Machine

theorem copyReads_keeps {z : State} (cx : Cx) (d a : Desc) (w : Win)  : ∀ (a0 : List Nat) (a1 : State) (a2 : List (Nat × Formed)), Keeps z a1 → Keeps z (copyReads cx d a w a0 a1 a2).1 := by
  intro a0
  induction a0 with
  | nil =>
    intro a1 a2 hK
    first | rw [copyReads] | unfold copyReads
    repeat' first
      | with_reducible assumption
      | (intro xS; refine keeps_gen (z := z) (x := xS) ?_ (fun _ => ?_); revert xS; dsimp only; rotate_left; clear_value xS)
      | (intro xS; refine keeps_gen_fst (z := z) (x := xS) ?_ (fun _ => ?_); revert xS; dsimp only; rotate_left; clear_value xS)
      | intro _
      | lift_lets
      | with_reducible apply ih
      | with_reducible apply readBlk_keeps
      | with_reducible exact Keeps.refl _
      | with_reducible refine keeps_fst (by assumption) ?_
      | split
      | dsimp only
  | cons x0 l0 ih =>
    intro a1 a2 hK
    first | rw [copyReads] | unfold copyReads
    repeat' first
      | with_reducible assumption
      | (intro xS; refine keeps_gen (z := z) (x := xS) ?_ (fun _ => ?_); revert xS; dsimp only; rotate_left; clear_value xS)
      | (intro xS; refine keeps_gen_fst (z := z) (x := xS) ?_ (fun _ => ?_); revert xS; dsimp only; rotate_left; clear_value xS)
      | intro _
      | lift_lets
      | with_reducible apply ih
      | with_reducible apply readBlk_keeps
      | with_reducible exact Keeps.refl _
      | with_reducible refine keeps_fst (by assumption) ?_
      | split
      | dsimp only

theorem copyForms_keeps {z : State} (s : State) (cx : Cx) (o : EngOp) (dd da : Desc) (hK : Keeps z s) : Keeps z (copyForms s cx o dd da).1 := by
  unfold copyForms
  repeat' first
    | with_reducible assumption
    | (intro xS; refine keeps_gen (z := z) (x := xS) ?_ (fun _ => ?_); revert xS; dsimp only; rotate_left; clear_value xS)
    | (intro xS; refine keeps_gen_fst (z := z) (x := xS) ?_ (fun _ => ?_); revert xS; dsimp only; rotate_left; clear_value xS)
    | intro _
    | lift_lets
    | with_reducible apply copyReads_keeps
    | with_reducible apply readWin_keeps
    | with_reducible exact Keeps.refl _
    | with_reducible refine keeps_fst (by assumption) ?_
    | simp only [keeps_mk_eq]
    | split
    | dsimp only

theorem copyMxIn_keeps {z : State} (s : State) (cx : Cx) (o : EngOp) (dd da : Desc) (f : Fmt) (hK : Keeps z s) : Keeps z (copyMxIn s cx o dd da f).1 := by
  unfold copyMxIn
  repeat' first
    | with_reducible assumption
    | (intro xS; refine keeps_gen (z := z) (x := xS) ?_ (fun _ => ?_); revert xS; dsimp only; rotate_left; clear_value xS)
    | (intro xS; refine keeps_gen_fst (z := z) (x := xS) ?_ (fun _ => ?_); revert xS; dsimp only; rotate_left; clear_value xS)
    | intro _
    | lift_lets
    | with_reducible apply raiseAcc_keeps
    | with_reducible exact Keeps.refl _
    | with_reducible refine keeps_foldl (fun _ _ _ => ?_) _ ?_
    | with_reducible refine keeps_foldl_fst (fun _ _ _ => ?_) _ ?_
    | with_reducible refine keeps_fst (by assumption) ?_
    | simp only [keeps_mk_eq]
    | split
    | dsimp only

theorem copyBlks_keeps {z : State} (s : State) (cx : Cx) (o : EngOp) (dd da : Desc) (hK : Keeps z s) : Keeps z (copyBlks s cx o dd da).1 := by
  unfold copyBlks
  repeat' first
    | with_reducible assumption
    | (intro xS; refine keeps_gen (z := z) (x := xS) ?_ (fun _ => ?_); revert xS; dsimp only; rotate_left; clear_value xS)
    | (intro xS; refine keeps_gen_fst (z := z) (x := xS) ?_ (fun _ => ?_); revert xS; dsimp only; rotate_left; clear_value xS)
    | intro _
    | lift_lets
    | with_reducible apply copyMxIn_keeps
    | with_reducible apply copyForms_keeps
    | with_reducible exact Keeps.refl _
    | with_reducible refine keeps_fst (by assumption) ?_
    | simp only [keeps_mk_eq]
    | split
    | dsimp only

theorem copyMxOut_keeps {z : State} (s : State) (cx : Cx) (o : EngOp) (dd da : Desc) (f : Fmt) (hK : Keeps z s) : Keeps z (copyMxOut s cx o dd da f).1 := by
  unfold copyMxOut
  repeat' first
    | with_reducible assumption
    | (intro xS; refine keeps_gen (z := z) (x := xS) ?_ (fun _ => ?_); revert xS; dsimp only; rotate_left; clear_value xS)
    | (intro xS; refine keeps_gen_fst (z := z) (x := xS) ?_ (fun _ => ?_); revert xS; dsimp only; rotate_left; clear_value xS)
    | intro _
    | lift_lets
    | with_reducible apply readWin_keeps
    | with_reducible apply raiseAcc_keeps
    | with_reducible apply writeMx_keeps
    | with_reducible exact Keeps.refl _
    | with_reducible refine keeps_fst (by assumption) ?_
    | simp only [keeps_mk_eq]
    | split
    | dsimp only

theorem copyLocal_keeps {z : State} (s : State) (cx : Cx) (o : EngOp) (dd da : Desc) (hK : Keeps z s) : Keeps z (copyLocal s cx o dd da).1 := by
  unfold copyLocal
  repeat' first
    | with_reducible assumption
    | (intro xS; refine keeps_gen (z := z) (x := xS) ?_ (fun _ => ?_); revert xS; dsimp only; rotate_left; clear_value xS)
    | (intro xS; refine keeps_gen_fst (z := z) (x := xS) ?_ (fun _ => ?_); revert xS; dsimp only; rotate_left; clear_value xS)
    | intro _
    | lift_lets
    | with_reducible apply copyMxOut_keeps
    | with_reducible apply copyBlks_keeps
    | with_reducible apply raiseAcc_keeps
    | with_reducible apply mxReport_keeps
    | with_reducible apply storeForms_keeps
    | with_reducible exact Keeps.refl _
    | with_reducible refine keeps_fst (by assumption) ?_
    | simp only [keeps_mk_eq]
    | split
    | dsimp only

theorem copyRemote_keeps {z : State} (s : State) (cx : Cx) (o : EngOp) (dd da : Desc) (hK : Keeps z s) : Keeps z (copyRemote s cx o dd da).1 := by
  unfold copyRemote
  repeat' first
    | with_reducible assumption
    | (intro xS; refine keeps_gen (z := z) (x := xS) ?_ (fun _ => ?_); revert xS; dsimp only; rotate_left; clear_value xS)
    | (intro xS; refine keeps_gen_fst (z := z) (x := xS) ?_ (fun _ => ?_); revert xS; dsimp only; rotate_left; clear_value xS)
    | intro _
    | lift_lets
    | with_reducible apply xlatInvalid_keeps
    | with_reducible apply copyBlks_keeps
    | with_reducible apply emit_keeps
    | with_reducible apply formCounts_keeps
    | with_reducible apply mxReport_keeps
    | with_reducible exact Keeps.refl _
    | with_reducible refine keeps_foldl (fun _ _ _ => ?_) _ ?_
    | with_reducible refine keeps_foldl_fst (fun _ _ _ => ?_) _ ?_
    | with_reducible refine keeps_fst (by assumption) ?_
    | split
    | dsimp only

theorem copyStart_keeps {z : State} (s : State) (o : EngOp) (hK : Keeps z s) : Keeps z (copyStart s o) := by
  unfold copyStart
  repeat' first
    | with_reducible assumption
    | (intro xS; refine keeps_gen (z := z) (x := xS) ?_ (fun _ => ?_); revert xS; dsimp only; rotate_left; clear_value xS)
    | (intro xS; refine keeps_gen_fst (z := z) (x := xS) ?_ (fun _ => ?_); revert xS; dsimp only; rotate_left; clear_value xS)
    | intro _
    | lift_lets
    | with_reducible apply copyRemote_keeps
    | with_reducible apply setOp_keeps
    | with_reducible exact Keeps.refl _
    | with_reducible refine keeps_fst (by assumption) ?_
    | simp only [keeps_mk_eq]
    | split
    | dsimp only

theorem mcastExec_keeps {z : State} (s : State) (cx : Cx) (o : EngOp) (dd da : Desc) (hK : Keeps z s) : Keeps z (mcastExec s cx o dd da).1 := by
  unfold mcastExec
  repeat' first
    | with_reducible assumption
    | (intro xS; refine keeps_gen (z := z) (x := xS) ?_ (fun _ => ?_); revert xS; dsimp only; rotate_left; clear_value xS)
    | (intro xS; refine keeps_gen_fst (z := z) (x := xS) ?_ (fun _ => ?_); revert xS; dsimp only; rotate_left; clear_value xS)
    | intro _
    | lift_lets
    | with_reducible apply copyReads_keeps
    | with_reducible apply storeForms_keeps
    | with_reducible exact Keeps.refl _
    | with_reducible refine keeps_foldl (fun _ _ _ => ?_) _ ?_
    | with_reducible refine keeps_foldl_fst (fun _ _ _ => ?_) _ ?_
    | with_reducible refine keeps_fst (by assumption) ?_
    | simp only [keeps_mk_eq]
    | split
    | dsimp only

theorem zeroExec_keeps {z : State} (s : State) (cx : Cx) (dd : Desc) (hK : Keeps z s) : Keeps z (zeroExec s cx dd).1 := by
  unfold zeroExec
  repeat' first
    | with_reducible assumption
    | (intro xS; refine keeps_gen (z := z) (x := xS) ?_ (fun _ => ?_); revert xS; dsimp only; rotate_left; clear_value xS)
    | (intro xS; refine keeps_gen_fst (z := z) (x := xS) ?_ (fun _ => ?_); revert xS; dsimp only; rotate_left; clear_value xS)
    | intro _
    | lift_lets
    | with_reducible apply raiseAcc_keeps
    | with_reducible apply writeZero_keeps
    | with_reducible exact Keeps.refl _
    | with_reducible refine keeps_foldl (fun _ _ _ => ?_) _ ?_
    | with_reducible refine keeps_foldl_fst (fun _ _ _ => ?_) _ ?_
    | with_reducible refine keeps_fst (by assumption) ?_
    | simp only [keeps_mk_eq]
    | split
    | dsimp only

theorem prefBlk_keeps {z : State} (cx : Cx) (d : Desc) (s : State) (i : Nat) (hK : Keeps z s) : Keeps z (prefBlk cx d s i) := by
  unfold prefBlk
  repeat' first
    | with_reducible assumption
    | (intro xS; refine keeps_gen (z := z) (x := xS) ?_ (fun _ => ?_); revert xS; dsimp only; rotate_left; clear_value xS)
    | (intro xS; refine keeps_gen_fst (z := z) (x := xS) ?_ (fun _ => ?_); revert xS; dsimp only; rotate_left; clear_value xS)
    | intro _
    | lift_lets
    | with_reducible apply traffic_keeps
    | with_reducible exact Keeps.refl _
    | split
    | dsimp only

theorem prefExec_keeps {z : State} (s : State) (cx : Cx) (da : Desc) (hK : Keeps z s) : Keeps z (prefExec s cx da).1 := by
  unfold prefExec
  repeat' first
    | with_reducible assumption
    | (intro xS; refine keeps_gen (z := z) (x := xS) ?_ (fun _ => ?_); revert xS; dsimp only; rotate_left; clear_value xS)
    | (intro xS; refine keeps_gen_fst (z := z) (x := xS) ?_ (fun _ => ?_); revert xS; dsimp only; rotate_left; clear_value xS)
    | intro _
    | lift_lets
    | with_reducible apply raiseAcc_keeps
    | with_reducible apply prefBlk_keeps
    | with_reducible exact Keeps.refl _
    | with_reducible refine keeps_foldl (fun _ _ _ => ?_) _ ?_
    | with_reducible refine keeps_foldl_fst (fun _ _ _ => ?_) _ ?_
    | with_reducible refine keeps_fst (by assumption) ?_
    | simp only [keeps_mk_eq]
    | split
    | dsimp only

theorem xferRun_keeps {z : State} (s : State) (o : EngOp) (hK : Keeps z s) : Keeps z (xferRun s o).1 := by
  unfold xferRun
  repeat' first
    | with_reducible assumption
    | (intro xS; refine keeps_gen (z := z) (x := xS) ?_ (fun _ => ?_); revert xS; dsimp only; rotate_left; clear_value xS)
    | (intro xS; refine keeps_gen_fst (z := z) (x := xS) ?_ (fun _ => ?_); revert xS; dsimp only; rotate_left; clear_value xS)
    | intro _
    | lift_lets
    | with_reducible apply copyLocal_keeps
    | with_reducible apply mcastExec_keeps
    | with_reducible apply zeroExec_keeps
    | with_reducible apply prefExec_keeps
    | with_reducible exact Keeps.refl _
    | with_reducible refine keeps_fst (by assumption) ?_
    | simp only [keeps_mk_eq]
    | split
    | dsimp only

theorem xferIssue_keeps {z : State} (op : PtiOp) (q : Nat) (w : PtiWord) (s : State) (hK : Keeps z s) : Keeps z (xferIssue op q w s) := by
  unfold xferIssue
  repeat' first
    | with_reducible assumption
    | (intro xS; refine keeps_gen (z := z) (x := xS) ?_ (fun _ => ?_); revert xS; dsimp only; rotate_left; clear_value xS)
    | (intro xS; refine keeps_gen_fst (z := z) (x := xS) ?_ (fun _ => ?_); revert xS; dsimp only; rotate_left; clear_value xS)
    | intro _
    | lift_lets
    | with_reducible apply issueFail_keeps
    | with_reducible apply enqueueOp_keeps
    | with_reducible exact Keeps.refl _
    | split
    | dsimp only

end Sys2Proof.Machine
end

