-- ==== Sys2Proof/Laws/KeepsColl.lean ====
section
/-! SUPPORT. What the operations of Coll keep. -/
namespace Sys2Proof.Machine

theorem contribVals_keeps {z : State} (s : State) (c : Coll) (i : Nat) (hK : Keeps z s) : Keeps z (contribVals s c i).1 := by
  unfold contribVals
  repeat' first
    | with_reducible assumption
    | (intro xS; refine keeps_gen (z := z) (x := xS) ?_ (fun _ => ?_); revert xS; dsimp only; rotate_left; clear_value xS)
    | (intro xS; refine keeps_gen_fst (z := z) (x := xS) ?_ (fun _ => ?_); revert xS; dsimp only; rotate_left; clear_value xS)
    | intro _
    | lift_lets
    | with_reducible apply readWin_keeps
    | with_reducible exact Keeps.refl _
    | with_reducible refine keeps_fst (by assumption) ?_
    | simp only [keeps_mk_eq]
    | split
    | dsimp only

theorem orPayload_keeps {z : State} (s : State) (c : Coll) (i : Nat) (hK : Keeps z s) : Keeps z (orPayload s c i).1 := by
  unfold orPayload
  repeat' first
    | with_reducible assumption
    | (intro xS; refine keeps_gen (z := z) (x := xS) ?_ (fun _ => ?_); revert xS; dsimp only; rotate_left; clear_value xS)
    | (intro xS; refine keeps_gen_fst (z := z) (x := xS) ?_ (fun _ => ?_); revert xS; dsimp only; rotate_left; clear_value xS)
    | intro _
    | lift_lets
    | with_reducible apply readBlk_keeps
    | with_reducible exact Keeps.refl _
    | with_reducible refine keeps_fst (by assumption) ?_
    | simp only [keeps_mk_eq]
    | split
    | dsimp only

theorem collSend_keeps {z : State} (s : State) (c : Coll) (i phase : Nat) (own : Bool) (blk : List Byte) (hK : Keeps z s) : Keeps z (collSend s c i phase own blk) := by
  unfold collSend
  repeat' first
    | with_reducible assumption
    | (intro xS; refine keeps_gen (z := z) (x := xS) ?_ (fun _ => ?_); revert xS; dsimp only; rotate_left; clear_value xS)
    | (intro xS; refine keeps_gen_fst (z := z) (x := xS) ?_ (fun _ => ?_); revert xS; dsimp only; rotate_left; clear_value xS)
    | intro _
    | lift_lets
    | with_reducible apply emit_keeps
    | with_reducible apply sendSeq_keeps
    | with_reducible exact Keeps.refl _
    | split
    | dsimp only

theorem collFail_keeps {z : State} (x : State × Coll) (st : Nat) (hK : Keeps z x.1) : Keeps z (collFail x st).1 := by
  unfold collFail
  repeat' first
    | with_reducible assumption
    | (intro xS; refine keeps_gen (z := z) (x := xS) ?_ (fun _ => ?_); revert xS; dsimp only; rotate_left; clear_value xS)
    | (intro xS; refine keeps_gen_fst (z := z) (x := xS) ?_ (fun _ => ?_); revert xS; dsimp only; rotate_left; clear_value xS)
    | intro _
    | lift_lets
    | with_reducible exact Keeps.refl _
    | with_reducible refine keeps_fst (by assumption) ?_
    | simp only [keeps_mk_eq]
    | split
    | dsimp only

theorem collStore_keeps {z : State} (x : State × Coll) (i : Nat) (b : Formed) (hK : Keeps z x.1) : Keeps z (collStore x i b).1 := by
  unfold collStore
  repeat' first
    | with_reducible assumption
    | (intro xS; refine keeps_gen (z := z) (x := xS) ?_ (fun _ => ?_); revert xS; dsimp only; rotate_left; clear_value xS)
    | (intro xS; refine keeps_gen_fst (z := z) (x := xS) ?_ (fun _ => ?_); revert xS; dsimp only; rotate_left; clear_value xS)
    | intro _
    | lift_lets
    | with_reducible apply collFail_keeps
    | with_reducible apply raiseAcc_keeps
    | with_reducible apply formCounts_keeps
    | with_reducible apply storeBlk_keeps
    | with_reducible exact Keeps.refl _
    | with_reducible refine keeps_fst (by assumption) ?_
    | simp only [keeps_mk_eq]
    | split
    | dsimp only

theorem collResult_keeps {z : State} (x : State × Coll) (i : Nat) (b : Formed) (hK : Keeps z x.1) : Keeps z (collResult x i b).1 := by
  unfold collResult
  repeat' first
    | with_reducible assumption
    | (intro xS; refine keeps_gen (z := z) (x := xS) ?_ (fun _ => ?_); revert xS; dsimp only; rotate_left; clear_value xS)
    | (intro xS; refine keeps_gen_fst (z := z) (x := xS) ?_ (fun _ => ?_); revert xS; dsimp only; rotate_left; clear_value xS)
    | intro _
    | lift_lets
    | with_reducible apply collStore_keeps
    | with_reducible apply collSend_keeps
    | with_reducible exact Keeps.refl _
    | with_reducible refine keeps_fst (by assumption) ?_
    | split
    | dsimp only

theorem collBegin_keeps {z : State} (x : State × Coll) (i : Nat) (hK : Keeps z x.1) : Keeps z (collBegin x i).1 := by
  unfold collBegin
  repeat' first
    | with_reducible assumption
    | (intro xS; refine keeps_gen (z := z) (x := xS) ?_ (fun _ => ?_); revert xS; dsimp only; rotate_left; clear_value xS)
    | (intro xS; refine keeps_gen_fst (z := z) (x := xS) ?_ (fun _ => ?_); revert xS; dsimp only; rotate_left; clear_value xS)
    | intro _
    | lift_lets
    | with_reducible apply orPayload_keeps
    | with_reducible apply collFail_keeps
    | with_reducible apply collResult_keeps
    | with_reducible apply contribVals_keeps
    | with_reducible apply collSend_keeps
    | with_reducible exact Keeps.refl _
    | with_reducible refine keeps_foldl (fun _ _ _ => ?_) _ ?_
    | with_reducible refine keeps_foldl_fst (fun _ _ _ => ?_) _ ?_
    | with_reducible refine keeps_fst (by assumption) ?_
    | simp only [keeps_mk_eq]
    | split
    | dsimp only

theorem wireChk_keeps {z : State} (s : State) (c : Coll) (i : Nat) (blk : List Byte) (hK : Keeps z s) : Keeps z (wireChk s c i blk) := by
  unfold wireChk
  repeat' first
    | with_reducible assumption
    | intro _
    | with_reducible apply badHeader_keeps
    | with_reducible exact Keeps.refl _
    | split
    | dsimp only

theorem collOwn_keeps {z : State} (x : State × Coll) (i k : Nat) (blk : List Byte) (hK : Keeps z x.1) : Keeps z (collOwn x i k blk).1 := by
  unfold collOwn
  repeat' first
    | with_reducible assumption
    | (intro xS; refine keeps_gen (z := z) (x := xS) ?_ (fun _ => ?_); revert xS; dsimp only; rotate_left; clear_value xS)
    | (intro xS; refine keeps_gen_fst (z := z) (x := xS) ?_ (fun _ => ?_); revert xS; dsimp only; rotate_left; clear_value xS)
    | intro _
    | lift_lets
    | with_reducible apply orPayload_keeps
    | with_reducible apply collFail_keeps
    | with_reducible apply collResult_keeps
    | with_reducible apply contribVals_keeps
    | with_reducible exact Keeps.refl _
    | with_reducible refine keeps_fst (by assumption) ?_
    | simp only [keeps_mk_eq]
    | split
    | dsimp only

theorem collPass_keeps {z : State} (x : State × Coll) (i k : Nat) (blk : List Byte) (hK : Keeps z x.1) : Keeps z (collPass x i k blk).1 := by
  unfold collPass
  repeat' first
    | with_reducible assumption
    | (intro xS; refine keeps_gen (z := z) (x := xS) ?_ (fun _ => ?_); revert xS; dsimp only; rotate_left; clear_value xS)
    | (intro xS; refine keeps_gen_fst (z := z) (x := xS) ?_ (fun _ => ?_); revert xS; dsimp only; rotate_left; clear_value xS)
    | intro _
    | lift_lets
    | with_reducible apply orPayload_keeps
    | with_reducible apply collFail_keeps
    | with_reducible apply collSend_keeps
    | with_reducible apply contribVals_keeps
    | with_reducible exact Keeps.refl _
    | with_reducible refine keeps_fst (by assumption) ?_
    | simp only [keeps_mk_eq]
    | split
    | dsimp only

theorem collGather_keeps {z : State} (x : State × Coll) (i : Nat) (blk : List Byte) (hK : Keeps z x.1) : Keeps z (collGather x i blk).1 := by
  unfold collGather
  repeat' first
    | with_reducible assumption
    | (intro xS; refine keeps_gen (z := z) (x := xS) ?_ (fun _ => ?_); revert xS; dsimp only; rotate_left; clear_value xS)
    | (intro xS; refine keeps_gen_fst (z := z) (x := xS) ?_ (fun _ => ?_); revert xS; dsimp only; rotate_left; clear_value xS)
    | intro _
    | lift_lets
    | with_reducible apply collStore_keeps
    | with_reducible apply collSend_keeps
    | with_reducible exact Keeps.refl _
    | with_reducible refine keeps_fst (by assumption) ?_
    | simp only [keeps_mk_eq]
    | split
    | dsimp only

theorem collBlk_keeps {z : State} (x : State × Coll) (rank phase : Nat) (blk : List Byte) (hK : Keeps z x.1) : Keeps z (collBlk x rank phase blk).1 := by
  unfold collBlk
  repeat' first
    | with_reducible assumption
    | (intro xS; refine keeps_gen (z := z) (x := xS) ?_ (fun _ => ?_); revert xS; dsimp only; rotate_left; clear_value xS)
    | (intro xS; refine keeps_gen_fst (z := z) (x := xS) ?_ (fun _ => ?_); revert xS; dsimp only; rotate_left; clear_value xS)
    | intro _
    | lift_lets
    | with_reducible apply wireChk_keeps
    | with_reducible apply collOwn_keeps
    | with_reducible apply collPass_keeps
    | with_reducible apply collGather_keeps
    | with_reducible exact Keeps.refl _
    | with_reducible refine keeps_fst (by assumption) ?_
    | split
    | dsimp only

theorem setColl_keeps {z : State} (s : State) (c : Coll) (hK : Keeps z s) : Keeps z (setColl s c) := by
  unfold setColl
  repeat' first
    | with_reducible assumption
    | (intro xS; refine keeps_gen (z := z) (x := xS) ?_ (fun _ => ?_); revert xS; dsimp only; rotate_left; clear_value xS)
    | (intro xS; refine keeps_gen_fst (z := z) (x := xS) ?_ (fun _ => ?_); revert xS; dsimp only; rotate_left; clear_value xS)
    | intro _
    | lift_lets
    | with_reducible exact Keeps.refl _
    | simp only [keeps_mk_eq]
    | split
    | dsimp only

theorem collTake_keeps {z : State} (s : State) (l : Nat) (c : Coll) (f : Frame) (hK : Keeps z s) : Keeps z (collTake s l c f) := by
  unfold collTake
  repeat' first
    | with_reducible assumption
    | (intro xS; refine keeps_gen (z := z) (x := xS) ?_ (fun _ => ?_); revert xS; dsimp only; rotate_left; clear_value xS)
    | (intro xS; refine keeps_gen_fst (z := z) (x := xS) ?_ (fun _ => ?_); revert xS; dsimp only; rotate_left; clear_value xS)
    | intro _
    | lift_lets
    | with_reducible apply collBlk_keeps
    | with_reducible apply setColl_keeps
    | with_reducible apply dropAt_keeps
    | with_reducible exact Keeps.refl _
    | with_reducible refine keeps_foldl (fun _ _ _ => ?_) _ ?_
    | with_reducible refine keeps_foldl_fst (fun _ _ _ => ?_) _ ?_
    | with_reducible refine keeps_fst (by assumption) ?_
    | split
    | dsimp only

theorem collCatchUp_keeps {z : State} (s : State) (c : Coll) (hK : Keeps z s) : Keeps z (collCatchUp s c) := by
  unfold collCatchUp
  repeat' first
    | with_reducible assumption
    | (intro xS; refine keeps_gen (z := z) (x := xS) ?_ (fun _ => ?_); revert xS; dsimp only; rotate_left; clear_value xS)
    | (intro xS; refine keeps_gen_fst (z := z) (x := xS) ?_ (fun _ => ?_); revert xS; dsimp only; rotate_left; clear_value xS)
    | intro _
    | lift_lets
    | with_reducible apply collTake_keeps
    | with_reducible exact Keeps.refl _
    | with_reducible refine keeps_foldl (fun _ _ _ => ?_) _ ?_
    | with_reducible refine keeps_foldl_fst (fun _ _ _ => ?_) _ ?_
    | simp only [keeps_mk_eq]
    | split
    | dsimp only

theorem barrierSend_keeps {z : State} (s : State) (c : Coll) (hK : Keeps z s) : Keeps z (barrierSend s c) := by
  unfold barrierSend
  repeat' first
    | with_reducible assumption
    | intro _
    | with_reducible apply hubSend_keeps
    | with_reducible exact Keeps.refl _
    | split
    | dsimp only

theorem barrierTake_keeps {z : State} (s : State) (l : Nat) (c : Coll) (f : Frame) (hK : Keeps z s) : Keeps z (barrierTake s l c f) := by
  unfold barrierTake
  repeat' first
    | with_reducible assumption
    | (intro xS; refine keeps_gen (z := z) (x := xS) ?_ (fun _ => ?_); revert xS; dsimp only; rotate_left; clear_value xS)
    | (intro xS; refine keeps_gen_fst (z := z) (x := xS) ?_ (fun _ => ?_); revert xS; dsimp only; rotate_left; clear_value xS)
    | intro _
    | lift_lets
    | with_reducible apply dropAt_keeps
    | with_reducible apply setColl_keeps
    | with_reducible apply barrierSend_keeps
    | with_reducible exact Keeps.refl _
    | simp only [keeps_mk_eq]
    | split
    | dsimp only

theorem barrierCatchUp_keeps {z : State} (s : State) (c : Coll) (hK : Keeps z s) : Keeps z (barrierCatchUp s c) := by
  unfold barrierCatchUp
  repeat' first
    | with_reducible assumption
    | (intro xS; refine keeps_gen (z := z) (x := xS) ?_ (fun _ => ?_); revert xS; dsimp only; rotate_left; clear_value xS)
    | (intro xS; refine keeps_gen_fst (z := z) (x := xS) ?_ (fun _ => ?_); revert xS; dsimp only; rotate_left; clear_value xS)
    | intro _
    | lift_lets
    | with_reducible apply barrierTake_keeps
    | with_reducible exact Keeps.refl _
    | with_reducible refine keeps_foldl (fun _ _ _ => ?_) _ ?_
    | with_reducible refine keeps_foldl_fst (fun _ _ _ => ?_) _ ?_
    | simp only [keeps_mk_eq]
    | split
    | dsimp only

theorem collBeginAll_keeps {z : State} (s : State) (c : Coll) (hK : Keeps z s) : Keeps z (collBeginAll s c) := by
  unfold collBeginAll
  repeat' first
    | with_reducible assumption
    | (intro xS; refine keeps_gen (z := z) (x := xS) ?_ (fun _ => ?_); revert xS; dsimp only; rotate_left; clear_value xS)
    | (intro xS; refine keeps_gen_fst (z := z) (x := xS) ?_ (fun _ => ?_); revert xS; dsimp only; rotate_left; clear_value xS)
    | intro _
    | lift_lets
    | with_reducible apply setColl_keeps
    | with_reducible apply barrierCatchUp_keeps
    | with_reducible apply barrierSend_keeps
    | with_reducible apply collBegin_keeps
    | with_reducible apply collCatchUp_keeps
    | with_reducible exact Keeps.refl _
    | with_reducible refine keeps_foldl (fun _ _ _ => ?_) _ ?_
    | with_reducible refine keeps_foldl_fst (fun _ _ _ => ?_) _ ?_
    | with_reducible refine keeps_fst (by assumption) ?_
    | simp only [keeps_mk_eq]
    | split
    | dsimp only

theorem collOpen_keeps {z : State} (s : State) (o : EngOp) (hK : Keeps z s) : Keeps z (collOpen s o).1 := by
  unfold collOpen
  repeat' first
    | with_reducible assumption
    | (intro xS; refine keeps_gen (z := z) (x := xS) ?_ (fun _ => ?_); revert xS; dsimp only; rotate_left; clear_value xS)
    | (intro xS; refine keeps_gen_fst (z := z) (x := xS) ?_ (fun _ => ?_); revert xS; dsimp only; rotate_left; clear_value xS)
    | (intro xL; clear_value xL)
    | lift_lets
    | with_reducible apply raiseAcc_keeps
    | with_reducible apply xlatInvalid_keeps
    | with_reducible apply collBeginAll_keeps
    | with_reducible exact Keeps.refl _
    | with_reducible refine keeps_fst (by assumption) ?_
    | simp only [keeps_mk_eq]
    | split
    | dsimp only

theorem collStart_keeps {z : State} (s : State) (o : EngOp) (hK : Keeps z s) : Keeps z (collStart s o) := by
  unfold collStart
  repeat' first
    | with_reducible assumption
    | (intro xS; refine keeps_gen (z := z) (x := xS) ?_ (fun _ => ?_); revert xS; dsimp only; rotate_left; clear_value xS)
    | (intro xS; refine keeps_gen_fst (z := z) (x := xS) ?_ (fun _ => ?_); revert xS; dsimp only; rotate_left; clear_value xS)
    | intro _
    | lift_lets
    | with_reducible apply collOpen_keeps
    | with_reducible apply setOp_keeps
    | with_reducible exact Keeps.refl _
    | simp only [keeps_mk_eq]
    | split
    | dsimp only

theorem dropColl_keeps {z : State} (s : State) (c : Coll) (hK : Keeps z s) : Keeps z (dropColl s c) := by
  unfold dropColl
  repeat' first
    | with_reducible assumption
    | (intro xS; refine keeps_gen (z := z) (x := xS) ?_ (fun _ => ?_); revert xS; dsimp only; rotate_left; clear_value xS)
    | (intro xS; refine keeps_gen_fst (z := z) (x := xS) ?_ (fun _ => ?_); revert xS; dsimp only; rotate_left; clear_value xS)
    | intro _
    | lift_lets
    | with_reducible apply clearStat_keeps
    | with_reducible exact Keeps.refl _
    | simp only [keeps_mk_eq]
    | split
    | dsimp only

end Sys2Proof.Machine
end

