-- ==== Sys2Proof/Laws/KeepsRoute.lean ====
section
/-! SUPPORT. What the operations of Route keep. -/
namespace Sys2Proof.Machine

theorem writeIdx_keeps {z : State} (cx : Cx) (d : Desc) (l : List IdxEnt) (s : State) (i : Nat) (hK : Keeps z s) : Keeps z (writeIdx cx d l s i) := by
  unfold writeIdx
  repeat' first
    | with_reducible assumption
    | (intro xS; refine keeps_gen (z := z) (x := xS) ?_ (fun _ => ?_); revert xS; dsimp only; rotate_left; clear_value xS)
    | (intro xS; refine keeps_gen_fst (z := z) (x := xS) ?_ (fun _ => ?_); revert xS; dsimp only; rotate_left; clear_value xS)
    | intro _
    | lift_lets
    | with_reducible apply storeBlk_keeps
    | with_reducible exact Keeps.refl _
    | split
    | dsimp only

theorem gateExec_keeps {z : State} (s : State) (cx : Cx) (o : EngOp) (dI dG : Desc) (hK : Keeps z s) : Keeps z (gateExec s cx o dI dG).1 := by
  unfold gateExec
  repeat' first
    | with_reducible assumption
    | (intro xS; refine keeps_gen (z := z) (x := xS) ?_ (fun _ => ?_); revert xS; dsimp only; rotate_left; clear_value xS)
    | (intro xS; refine keeps_gen_fst (z := z) (x := xS) ?_ (fun _ => ?_); revert xS; dsimp only; rotate_left; clear_value xS)
    | intro _
    | lift_lets
    | with_reducible apply readTensor_keeps
    | with_reducible apply raiseAcc_keeps
    | with_reducible apply writeIdx_keeps
    | with_reducible apply cntAdd_keeps
    | with_reducible apply raiseIf_keeps
    | with_reducible exact Keeps.refl _
    | with_reducible refine keeps_foldl (fun _ _ _ => ?_) _ ?_
    | with_reducible refine keeps_foldl_fst (fun _ _ _ => ?_) _ ?_
    | with_reducible refine keeps_fst (by assumption) ?_
    | simp only [keeps_mk_eq]
    | split
    | dsimp only

theorem readIdx_keeps {z : State} (s : State) (cx : Cx) (d : Desc) (n : Nat) (hK : Keeps z s) : Keeps z (readIdx s cx d n).1 := by
  unfold readIdx
  repeat' first
    | with_reducible assumption
    | (intro xS; refine keeps_gen (z := z) (x := xS) ?_ (fun _ => ?_); revert xS; dsimp only; rotate_left; clear_value xS)
    | (intro xS; refine keeps_gen_fst (z := z) (x := xS) ?_ (fun _ => ?_); revert xS; dsimp only; rotate_left; clear_value xS)
    | intro _
    | lift_lets
    | with_reducible apply readBlks_keeps
    | with_reducible apply cntAdd_keeps
    | with_reducible apply raiseIf_keeps
    | with_reducible exact Keeps.refl _
    | with_reducible refine keeps_fst (by assumption) ?_
    | simp only [keeps_mk_eq]
    | split
    | dsimp only

theorem regionChk_keeps {z : State} (s : State) (cx : Cx) (wr : Bool) (d : Desc) (n : Nat) (e : OwnerEnt) (hK : Keeps z s) : Keeps z (regionChk s cx wr d n e).1 := by
  unfold regionChk
  repeat' first
    | with_reducible assumption
    | (intro xS; refine keeps_gen (z := z) (x := xS) ?_ (fun _ => ?_); revert xS; dsimp only; rotate_left; clear_value xS)
    | (intro xS; refine keeps_gen_fst (z := z) (x := xS) ?_ (fun _ => ?_); revert xS; dsimp only; rotate_left; clear_value xS)
    | intro _
    | lift_lets
    | with_reducible apply raiseAcc_keeps
    | with_reducible apply xlatInvalid_keeps
    | with_reducible exact Keeps.refl _
    | with_reducible refine keeps_fst (by assumption) ?_
    | simp only [keeps_mk_eq]
    | split
    | dsimp only

theorem dispExpert_keeps {z : State} (cx : Cx) (o : EngOp) (d : Desc) (f : Fmt) (tx : TensorVal) (l : List IdxEnt) (hb : Nat) (s : State)     (p : Nat × OwnerEnt) (hK : Keeps z s) : Keeps z (dispExpert cx o d f tx l hb s p) := by
  unfold dispExpert
  repeat' first
    | with_reducible assumption
    | (intro xS; refine keeps_gen (z := z) (x := xS) ?_ (fun _ => ?_); revert xS; dsimp only; rotate_left; clear_value xS)
    | (intro xS; refine keeps_gen_fst (z := z) (x := xS) ?_ (fun _ => ?_); revert xS; dsimp only; rotate_left; clear_value xS)
    | intro _
    | lift_lets
    | with_reducible apply formCounts_keeps
    | with_reducible apply cntAdd_keeps
    | with_reducible apply storeBlk_keeps
    | with_reducible apply emit_keeps
    | with_reducible exact Keeps.refl _
    | with_reducible refine keeps_foldl (fun _ _ _ => ?_) _ ?_
    | with_reducible refine keeps_foldl_fst (fun _ _ _ => ?_) _ ?_
    | split
    | dsimp only

theorem regionChks_keeps {z : State} (cx : Cx) (wr : Bool) (mk : OwnerEnt → Desc × Nat)  : ∀ (a0 : List OwnerEnt) (a1 : State), Keeps z a1 → Keeps z (regionChks cx wr mk a0 a1).1 := by
  intro a0
  induction a0 with
  | nil =>
    intro a1 hK
    first | rw [regionChks] | unfold regionChks
    repeat' first
      | with_reducible assumption
      | (intro xS; refine keeps_gen (z := z) (x := xS) ?_ (fun _ => ?_); revert xS; dsimp only; rotate_left; clear_value xS)
      | (intro xS; refine keeps_gen_fst (z := z) (x := xS) ?_ (fun _ => ?_); revert xS; dsimp only; rotate_left; clear_value xS)
      | intro _
      | lift_lets
      | with_reducible apply ih
      | with_reducible apply regionChk_keeps
      | with_reducible exact Keeps.refl _
      | with_reducible refine keeps_fst (by assumption) ?_
      | split
      | dsimp only
  | cons x0 l0 ih =>
    intro a1 hK
    first | rw [regionChks] | unfold regionChks
    repeat' first
      | with_reducible assumption
      | (intro xS; refine keeps_gen (z := z) (x := xS) ?_ (fun _ => ?_); revert xS; dsimp only; rotate_left; clear_value xS)
      | (intro xS; refine keeps_gen_fst (z := z) (x := xS) ?_ (fun _ => ?_); revert xS; dsimp only; rotate_left; clear_value xS)
      | intro _
      | lift_lets
      | with_reducible apply ih
      | with_reducible apply regionChk_keeps
      | with_reducible exact Keeps.refl _
      | with_reducible refine keeps_fst (by assumption) ?_
      | split
      | dsimp only

theorem dispExec_keeps {z : State} (s : State) (cx : Cx) (o : EngOp) (dI dX : Desc) (hK : Keeps z s) : Keeps z (dispExec s cx o dI dX).1 := by
  unfold dispExec
  repeat' first
    | with_reducible assumption
    | (intro xS; refine keeps_gen (z := z) (x := xS) ?_ (fun _ => ?_); revert xS; dsimp only; rotate_left; clear_value xS)
    | (intro xS; refine keeps_gen_fst (z := z) (x := xS) ?_ (fun _ => ?_); revert xS; dsimp only; rotate_left; clear_value xS)
    | intro _
    | lift_lets
    | with_reducible apply readIdx_keeps
    | with_reducible apply readTensor_keeps
    | with_reducible apply regionChks_keeps
    | with_reducible apply dispExpert_keeps
    | with_reducible exact Keeps.refl _
    | with_reducible refine keeps_foldl (fun _ _ _ => ?_) _ ?_
    | with_reducible refine keeps_foldl_fst (fun _ _ _ => ?_) _ ?_
    | with_reducible refine keeps_fst (by assumption) ?_
    | simp only [keeps_mk_eq]
    | split
    | dsimp only

theorem dispStart_keeps {z : State} (s : State) (o : EngOp) (hK : Keeps z s) : Keeps z (dispStart s o) := by
  unfold dispStart
  repeat' first
    | with_reducible assumption
    | (intro xS; refine keeps_gen (z := z) (x := xS) ?_ (fun _ => ?_); revert xS; dsimp only; rotate_left; clear_value xS)
    | (intro xS; refine keeps_gen_fst (z := z) (x := xS) ?_ (fun _ => ?_); revert xS; dsimp only; rotate_left; clear_value xS)
    | intro _
    | lift_lets
    | with_reducible apply dispExec_keeps
    | with_reducible apply setOp_keeps
    | with_reducible exact Keeps.refl _
    | with_reducible refine keeps_fst (by assumption) ?_
    | simp only [keeps_mk_eq]
    | split
    | dsimp only

theorem sendRead_keeps {z : State} (s : State) (o : EngOp) (ent : OwnerEnt) (src ms count : Nat) (hK : Keeps z s) : Keeps z (sendRead s o ent src ms count) := by
  unfold sendRead
  repeat' first
    | with_reducible assumption
    | (intro xS; refine keeps_gen (z := z) (x := xS) ?_ (fun _ => ?_); revert xS; dsimp only; rotate_left; clear_value xS)
    | (intro xS; refine keeps_gen_fst (z := z) (x := xS) ?_ (fun _ => ?_); revert xS; dsimp only; rotate_left; clear_value xS)
    | intro _
    | lift_lets
    | with_reducible apply emit_keeps
    | with_reducible exact Keeps.refl _
    | simp only [keeps_mk_eq]
    | split
    | dsimp only

theorem sendReads_keeps {z : State}   : ∀ (a0 : Nat) (a1 : State) (a2 : EngOp) (a3 : Desc) (a4 : OwnerEnt) (a5 : Nat) (a6 : Nat), Keeps z a1 → Keeps z (sendReads  a0 a1 a2 a3 a4 a5 a6) := by
  intro a0
  induction a0 with
  | zero =>
    intro a1 a2 a3 a4 a5 a6 hK
    first | rw [sendReads] | unfold sendReads
    repeat' first
      | with_reducible assumption
      | (intro xS; refine keeps_gen (z := z) (x := xS) ?_ (fun _ => ?_); revert xS; dsimp only; rotate_left; clear_value xS)
      | (intro xS; refine keeps_gen_fst (z := z) (x := xS) ?_ (fun _ => ?_); revert xS; dsimp only; rotate_left; clear_value xS)
      | intro _
      | lift_lets
      | with_reducible apply ih
      | with_reducible apply sendRead_keeps
      | with_reducible exact Keeps.refl _
      | with_reducible refine keeps_fst (by assumption) ?_
      | split
      | dsimp only
  | succ n0 ih =>
    intro a1 a2 a3 a4 a5 a6 hK
    first | rw [sendReads] | unfold sendReads
    repeat' first
      | with_reducible assumption
      | (intro xS; refine keeps_gen (z := z) (x := xS) ?_ (fun _ => ?_); revert xS; dsimp only; rotate_left; clear_value xS)
      | (intro xS; refine keeps_gen_fst (z := z) (x := xS) ?_ (fun _ => ?_); revert xS; dsimp only; rotate_left; clear_value xS)
      | intro _
      | lift_lets
      | with_reducible apply ih
      | with_reducible apply sendRead_keeps
      | with_reducible exact Keeps.refl _
      | with_reducible refine keeps_fst (by assumption) ?_
      | split
      | dsimp only

theorem combStartX_keeps {z : State} (s : State) (cx : Cx) (o : EngOp) (dY dI : Desc) (hK : Keeps z s) : Keeps z (combStartX s cx o dY dI).1 := by
  unfold combStartX
  repeat' first
    | with_reducible assumption
    | (intro xS; refine keeps_gen (z := z) (x := xS) ?_ (fun _ => ?_); revert xS; dsimp only; rotate_left; clear_value xS)
    | (intro xS; refine keeps_gen_fst (z := z) (x := xS) ?_ (fun _ => ?_); revert xS; dsimp only; rotate_left; clear_value xS)
    | intro _
    | lift_lets
    | with_reducible apply readIdx_keeps
    | with_reducible apply regionChk_keeps
    | with_reducible apply sendReads_keeps
    | with_reducible exact Keeps.refl _
    | with_reducible refine keeps_foldl (fun _ _ _ => ?_) _ ?_
    | with_reducible refine keeps_foldl_fst (fun _ _ _ => ?_) _ ?_
    | with_reducible refine keeps_fst (by assumption) ?_
    | simp only [keeps_mk_eq]
    | split
    | dsimp only

theorem combStart_keeps {z : State} (s : State) (o : EngOp) (hK : Keeps z s) : Keeps z (combStart s o) := by
  unfold combStart
  repeat' first
    | with_reducible assumption
    | (intro xS; refine keeps_gen (z := z) (x := xS) ?_ (fun _ => ?_); revert xS; dsimp only; rotate_left; clear_value xS)
    | (intro xS; refine keeps_gen_fst (z := z) (x := xS) ?_ (fun _ => ?_); revert xS; dsimp only; rotate_left; clear_value xS)
    | intro _
    | lift_lets
    | with_reducible apply combStartX_keeps
    | with_reducible apply setOp_keeps
    | with_reducible exact Keeps.refl _
    | with_reducible refine keeps_fst (by assumption) ?_
    | simp only [keeps_mk_eq]
    | split
    | dsimp only

theorem combGot_keeps {z : State} (cx : Cx) (o : EngOp) (d : Desc) (ent : OwnerEnt)  : ∀ (a0 : List Nat) (a1 : State) (a2 : List BlkVal), Keeps z a1 → Keeps z (combGot cx o d ent a0 a1 a2).1 := by
  intro a0
  induction a0 with
  | nil =>
    intro a1 a2 hK
    first | rw [combGot] | unfold combGot
    repeat' first
      | with_reducible assumption
      | (intro xS; refine keeps_gen (z := z) (x := xS) ?_ (fun _ => ?_); revert xS; dsimp only; rotate_left; clear_value xS)
      | (intro xS; refine keeps_gen_fst (z := z) (x := xS) ?_ (fun _ => ?_); revert xS; dsimp only; rotate_left; clear_value xS)
      | intro _
      | lift_lets
      | with_reducible apply ih
      | with_reducible apply hdrChecks_keeps
      | with_reducible apply sparseMeta_keeps
      | with_reducible exact Keeps.refl _
      | with_reducible refine keeps_fst (by assumption) ?_
      | simp only [keeps_mk_eq]
      | split
      | dsimp only
  | cons x0 l0 ih =>
    intro a1 a2 hK
    first | rw [combGot] | unfold combGot
    repeat' first
      | with_reducible assumption
      | (intro xS; refine keeps_gen (z := z) (x := xS) ?_ (fun _ => ?_); revert xS; dsimp only; rotate_left; clear_value xS)
      | (intro xS; refine keeps_gen_fst (z := z) (x := xS) ?_ (fun _ => ?_); revert xS; dsimp only; rotate_left; clear_value xS)
      | intro _
      | lift_lets
      | with_reducible apply ih
      | with_reducible apply hdrChecks_keeps
      | with_reducible apply sparseMeta_keeps
      | with_reducible exact Keeps.refl _
      | with_reducible refine keeps_fst (by assumption) ?_
      | simp only [keeps_mk_eq]
      | split
      | dsimp only

theorem combVals_keeps {z : State} (s : State) (cx : Cx) (o : EngOp) (dY : Desc) (f : Fmt) (ent : OwnerEnt) (n : Nat) (hK : Keeps z s) :
    Keeps z (combVals s cx o dY f ent n).1 := by
  unfold combVals
  dsimp only
  split
  · exact readBlks_keeps _ _ _ _ _ _ hK
  · exact combGot_keeps _ _ _ _ _ _ _ hK

theorem combAll_keeps {z : State} (cx : Cx) (o : EngOp) (dY : Desc) (f : Fmt) (l : List IdxEnt) (hb : Nat)  : ∀ (a0 : List (Nat × OwnerEnt)) (a1 : State) (a2 : List (List (BlkVal × List EV))), Keeps z a1 → Keeps z (combAll cx o dY f l hb a0 a1 a2).1 := by
  intro a0
  induction a0 with
  | nil =>
    intro a1 a2 hK
    first | rw [combAll] | unfold combAll
    repeat' first
      | with_reducible assumption
      | (intro xS; refine keeps_gen (z := z) (x := xS) ?_ (fun _ => ?_); revert xS; dsimp only; rotate_left; clear_value xS)
      | (intro xS; refine keeps_gen_fst (z := z) (x := xS) ?_ (fun _ => ?_); revert xS; dsimp only; rotate_left; clear_value xS)
      | intro _
      | lift_lets
      | with_reducible apply ih
      | with_reducible apply combVals_keeps
      | with_reducible exact Keeps.refl _
      | with_reducible refine keeps_fst (by assumption) ?_
      | split
      | dsimp only
  | cons x0 l0 ih =>
    intro a1 a2 hK
    first | rw [combAll] | unfold combAll
    repeat' first
      | with_reducible assumption
      | (intro xS; refine keeps_gen (z := z) (x := xS) ?_ (fun _ => ?_); revert xS; dsimp only; rotate_left; clear_value xS)
      | (intro xS; refine keeps_gen_fst (z := z) (x := xS) ?_ (fun _ => ?_); revert xS; dsimp only; rotate_left; clear_value xS)
      | intro _
      | lift_lets
      | with_reducible apply ih
      | with_reducible apply combVals_keeps
      | with_reducible exact Keeps.refl _
      | with_reducible refine keeps_fst (by assumption) ?_
      | split
      | dsimp only

theorem combFinish_keeps {z : State} (s : State) (cx : Cx) (o : EngOp) (dY : Desc) (c : Comb) (hK : Keeps z s) : Keeps z (combFinish s cx o dY c).1 := by
  unfold combFinish
  repeat' first
    | with_reducible assumption
    | (intro xS; refine keeps_gen (z := z) (x := xS) ?_ (fun _ => ?_); revert xS; dsimp only; rotate_left; clear_value xS)
    | (intro xS; refine keeps_gen_fst (z := z) (x := xS) ?_ (fun _ => ?_); revert xS; dsimp only; rotate_left; clear_value xS)
    | intro _
    | lift_lets
    | with_reducible apply combAll_keeps
    | with_reducible apply raiseAcc_keeps
    | with_reducible apply writeTensor_keeps
    | with_reducible exact Keeps.refl _
    | with_reducible refine keeps_fst (by assumption) ?_
    | simp only [keeps_mk_eq]
    | split
    | dsimp only

theorem routeRun_keeps {z : State} (s : State) (o : EngOp) (hK : Keeps z s) : Keeps z (routeRun s o).1 := by
  unfold routeRun
  repeat' first
    | with_reducible assumption
    | (intro xS; refine keeps_gen (z := z) (x := xS) ?_ (fun _ => ?_); revert xS; dsimp only; rotate_left; clear_value xS)
    | (intro xS; refine keeps_gen_fst (z := z) (x := xS) ?_ (fun _ => ?_); revert xS; dsimp only; rotate_left; clear_value xS)
    | intro _
    | lift_lets
    | with_reducible apply gateExec_keeps
    | with_reducible apply combFinish_keeps
    | with_reducible exact Keeps.refl _
    | with_reducible refine keeps_fst (by assumption) ?_
    | simp only [keeps_mk_eq]
    | split
    | dsimp only

theorem routeForget_keeps {z : State} (s : State) (o : EngOp) (hK : Keeps z s) : Keeps z (routeForget s o) := by
  unfold routeForget
  repeat' first
    | with_reducible assumption
    | (intro xS; refine keeps_gen (z := z) (x := xS) ?_ (fun _ => ?_); revert xS; dsimp only; rotate_left; clear_value xS)
    | (intro xS; refine keeps_gen_fst (z := z) (x := xS) ?_ (fun _ => ?_); revert xS; dsimp only; rotate_left; clear_value xS)
    | intro _
    | lift_lets
    | with_reducible exact Keeps.refl _
    | simp only [keeps_mk_eq]
    | split
    | dsimp only

end Sys2Proof.Machine
end

