-- ==== Sys2Proof/Laws/KeepsKick.lean ====
section
/-! SUPPORT. What the operations of Kick keep. -/
namespace Sys2Proof.Machine

theorem startOp_keeps {z : State} (s : State) (o : EngOp) (hK : Keeps z s) : Keeps z (startOp s o) := by
  unfold startOp
  repeat' first
    | with_reducible assumption
    | (intro xS; refine keeps_gen (z := z) (x := xS) ?_ (fun _ => ?_); revert xS; dsimp only; rotate_left; clear_value xS)
    | (intro xS; refine keeps_gen_fst (z := z) (x := xS) ?_ (fun _ => ?_); revert xS; dsimp only; rotate_left; clear_value xS)
    | intro _
    | lift_lets
    | with_reducible apply copyStart_keeps
    | with_reducible apply turnTo_keeps
    | with_reducible apply collStart_keeps
    | with_reducible apply dispStart_keeps
    | with_reducible apply combStart_keeps
    | with_reducible exact Keeps.refl _
    | simp only [keeps_mk_eq]
    | split
    | dsimp only

theorem kickOne_keeps {z : State} (s : State) (hK : Keeps z s) : Keeps z (kickOne s) := by
  unfold kickOne
  repeat' first
    | with_reducible assumption
    | (intro xS; refine keeps_gen (z := z) (x := xS) ?_ (fun _ => ?_); revert xS; dsimp only; rotate_left; clear_value xS)
    | (intro xS; refine keeps_gen_fst (z := z) (x := xS) ?_ (fun _ => ?_); revert xS; dsimp only; rotate_left; clear_value xS)
    | intro _
    | lift_lets
    | with_reducible apply startOp_keeps
    | with_reducible exact Keeps.refl _
    | simp only [keeps_mk_eq]
    | split
    | dsimp only

theorem kick_keeps {z : State} (s : State) (hK : Keeps z s) : Keeps z (kick s) := by
  unfold kick
  repeat' first
    | with_reducible assumption
    | intro _
    | with_reducible apply releaseSigs_keeps
    | with_reducible apply kickOne_keeps
    | with_reducible exact Keeps.refl _
    | with_reducible refine keeps_foldl (fun _ _ _ => ?_) _ ?_
    | with_reducible refine keeps_foldl_fst (fun _ _ _ => ?_) _ ?_
    | split
    | dsimp only

theorem execXferCopy_keeps {z : State} (q : Fin 256) (w : PtiWord) (s : State) (hK : Keeps z s) : ∀ t', execXferCopy q w s = .next t' → Keeps z t' := by
  unfold execXferCopy
  repeat' first
    | with_reducible (refine (run_keeps ?_ : ∀ t, _ = Host.Outcome.next t → Keeps _ t))
    | with_reducible assumption
    | intro _
    | with_reducible apply ptiIssue_keeps
    | with_reducible apply kick_keeps
    | with_reducible apply xferIssue_keeps
    | with_reducible exact Keeps.refl _
    | split
    | dsimp only

theorem execXferMcast_keeps {z : State} (q : Fin 256) (w : PtiWord) (s : State) (hK : Keeps z s) : ∀ t', execXferMcast q w s = .next t' → Keeps z t' := by
  unfold execXferMcast
  repeat' first
    | with_reducible (refine (run_keeps ?_ : ∀ t, _ = Host.Outcome.next t → Keeps _ t))
    | with_reducible assumption
    | intro _
    | with_reducible apply ptiIssue_keeps
    | with_reducible apply xferIssue_keeps
    | with_reducible exact Keeps.refl _
    | split
    | dsimp only

theorem execXferZero_keeps {z : State} (q : Fin 256) (w : PtiWord) (s : State) (hK : Keeps z s) : ∀ t', execXferZero q w s = .next t' → Keeps z t' := by
  unfold execXferZero
  repeat' first
    | with_reducible (refine (run_keeps ?_ : ∀ t, _ = Host.Outcome.next t → Keeps _ t))
    | with_reducible assumption
    | intro _
    | with_reducible apply ptiIssue_keeps
    | with_reducible apply xferIssue_keeps
    | with_reducible exact Keeps.refl _
    | split
    | dsimp only

theorem execXferPref_keeps {z : State} (q : Fin 256) (w : PtiWord) (s : State) (hK : Keeps z s) : ∀ t', execXferPref q w s = .next t' → Keeps z t' := by
  unfold execXferPref
  repeat' first
    | with_reducible (refine (run_keeps ?_ : ∀ t, _ = Host.Outcome.next t → Keeps _ t))
    | with_reducible assumption
    | intro _
    | with_reducible apply ptiIssue_keeps
    | with_reducible apply xferIssue_keeps
    | with_reducible exact Keeps.refl _
    | split
    | dsimp only

theorem execXferColl_keeps {z : State} (q : Fin 256) (w : PtiWord) (s : State) (hK : Keeps z s) : ∀ t', execXferColl q w s = .next t' → Keeps z t' := by
  unfold execXferColl
  repeat' first
    | with_reducible (refine (run_keeps ?_ : ∀ t, _ = Host.Outcome.next t → Keeps _ t))
    | with_reducible assumption
    | intro _
    | with_reducible apply ptiIssue_keeps
    | with_reducible apply kick_keeps
    | with_reducible apply xferIssue_keeps
    | with_reducible exact Keeps.refl _
    | split
    | dsimp only

theorem opXferComplete_keeps {z : State} (rg e : Nat) (errs : List MemErr) (reread : Nat) (s : State) (hK : Keeps z s) : Keeps z (opXferComplete rg e errs reread s) := by
  unfold opXferComplete
  repeat' first
    | with_reducible assumption
    | (intro xS; refine keeps_gen (z := z) (x := xS) ?_ (fun _ => ?_); revert xS; dsimp only; rotate_left; clear_value xS)
    | (intro xS; refine keeps_gen_fst (z := z) (x := xS) ?_ (fun _ => ?_); revert xS; dsimp only; rotate_left; clear_value xS)
    | intro _
    | lift_lets
    | with_reducible apply memEnv_keeps
    | with_reducible apply xferRun_keeps
    | with_reducible apply kick_keeps
    | with_reducible apply completeOp_keeps
    | with_reducible exact Keeps.refl _
    | with_reducible refine keeps_fst (by assumption) ?_
    | simp only [keeps_mk_eq]
    | split
    | dsimp only

theorem execXferComplete_keeps {z : State} (rg : Fin 16) (e : Fin 4) (errs : List MemErr) (reread : Nat) (s : State) (hK : Keeps z s) : ∀ t', execXferComplete rg e errs reread s = .next t' → Keeps z t' := by
  unfold execXferComplete
  repeat' first
    | with_reducible (refine (run_keeps ?_ : ∀ t, _ = Host.Outcome.next t → Keeps _ t))
    | with_reducible assumption
    | intro _
    | with_reducible apply opXferComplete_keeps
    | with_reducible exact Keeps.refl _
    | split
    | dsimp only

theorem routeIssue_keeps {z : State} (op : PtiOp) (q : Nat) (w : PtiWord) (s : State) (hK : Keeps z s) : Keeps z (routeIssue op q w s) := by
  unfold routeIssue
  repeat' first
    | with_reducible assumption
    | intro _
    | with_reducible apply ptiIssue_keeps
    | with_reducible apply kick_keeps
    | with_reducible apply enqueueOp_keeps
    | with_reducible exact Keeps.refl _
    | split
    | dsimp only

theorem execGate_keeps {z : State} (q : Fin 256) (w : PtiWord) (s : State) (hK : Keeps z s) : ∀ t', execGate q w s = .next t' → Keeps z t' := by
  unfold execGate
  repeat' first
    | with_reducible (refine (run_keeps ?_ : ∀ t, _ = Host.Outcome.next t → Keeps _ t))
    | with_reducible assumption
    | intro _
    | with_reducible apply routeIssue_keeps
    | with_reducible exact Keeps.refl _
    | split
    | dsimp only

theorem execDispatch_keeps {z : State} (q : Fin 256) (w : PtiWord) (s : State) (hK : Keeps z s) : ∀ t', execDispatch q w s = .next t' → Keeps z t' := by
  unfold execDispatch
  repeat' first
    | with_reducible (refine (run_keeps ?_ : ∀ t, _ = Host.Outcome.next t → Keeps _ t))
    | with_reducible assumption
    | intro _
    | with_reducible apply routeIssue_keeps
    | with_reducible exact Keeps.refl _
    | split
    | dsimp only

theorem execCombine_keeps {z : State} (q : Fin 256) (w : PtiWord) (s : State) (hK : Keeps z s) : ∀ t', execCombine q w s = .next t' → Keeps z t' := by
  unfold execCombine
  repeat' first
    | with_reducible (refine (run_keeps ?_ : ∀ t, _ = Host.Outcome.next t → Keeps _ t))
    | with_reducible assumption
    | intro _
    | with_reducible apply routeIssue_keeps
    | with_reducible exact Keeps.refl _
    | split
    | dsimp only

theorem opRouteComplete_keeps {z : State} (d : Nat) (errs : List MemErr) (reread : Nat) (s : State) (hK : Keeps z s) : Keeps z (opRouteComplete d errs reread s) := by
  unfold opRouteComplete
  repeat' first
    | with_reducible assumption
    | (intro xS; refine keeps_gen (z := z) (x := xS) ?_ (fun _ => ?_); revert xS; dsimp only; rotate_left; clear_value xS)
    | (intro xS; refine keeps_gen_fst (z := z) (x := xS) ?_ (fun _ => ?_); revert xS; dsimp only; rotate_left; clear_value xS)
    | intro _
    | lift_lets
    | with_reducible apply routeRun_keeps
    | with_reducible apply memEnv_keeps
    | with_reducible apply kick_keeps
    | with_reducible apply completeOp_keeps
    | with_reducible apply routeForget_keeps
    | with_reducible exact Keeps.refl _
    | with_reducible refine keeps_fst (by assumption) ?_
    | simp only [keeps_mk_eq]
    | split
    | dsimp only

theorem execRouteComplete_keeps {z : State} (d : Fin 4) (errs : List MemErr) (reread : Nat) (s : State) (hK : Keeps z s) : ∀ t', execRouteComplete d errs reread s = .next t' → Keeps z t' := by
  unfold execRouteComplete
  repeat' first
    | with_reducible (refine (run_keeps ?_ : ∀ t, _ = Host.Outcome.next t → Keeps _ t))
    | with_reducible assumption
    | intro _
    | with_reducible apply opRouteComplete_keeps
    | with_reducible exact Keeps.refl _
    | split
    | dsimp only

end Sys2Proof.Machine
end

