-- ==== Sys2Proof/Laws/KeepsUpd.lean ====
section
/-! SUPPORT. What the operations of Upd keep. -/
namespace Sys2Proof.Machine

theorem hubBlock_keeps {z : State} (s : State) (lc step epoch hmsg field : Nat) (blk : List Byte) (hK : Keeps z s) : Keeps z (hubBlock s lc step epoch hmsg field blk) := by
  unfold hubBlock
  repeat' first
    | with_reducible assumption
    | intro _
    | with_reducible apply hubSend_keeps
    | with_reducible exact Keeps.refl _
    | split
    | dsimp only

theorem hubMsg_keeps {z : State} (s : State) (lc step epoch hmsg field tensor block : Nat) (l : List Byte) (hK : Keeps z s) : Keeps z (hubMsg s lc step epoch hmsg field tensor block l) := by
  unfold hubMsg
  repeat' first
    | with_reducible assumption
    | (intro xS; refine keeps_gen (z := z) (x := xS) ?_ (fun _ => ?_); revert xS; dsimp only; rotate_left; clear_value xS)
    | (intro xS; refine keeps_gen_fst (z := z) (x := xS) ?_ (fun _ => ?_); revert xS; dsimp only; rotate_left; clear_value xS)
    | intro _
    | lift_lets
    | with_reducible apply hubBlock_keeps
    | with_reducible exact Keeps.refl _
    | simp only [keeps_mk_eq]
    | split
    | dsimp only

theorem sendTensor_keeps {z : State} (s : State) (lc step hmsg field : Nat) (d : Desc) (hK : Keeps z s) : Keeps z (sendTensor s lc step hmsg field d) := by
  unfold sendTensor
  repeat' first
    | with_reducible assumption
    | (intro xS; refine keeps_gen (z := z) (x := xS) ?_ (fun _ => ?_); revert xS; dsimp only; rotate_left; clear_value xS)
    | (intro xS; refine keeps_gen_fst (z := z) (x := xS) ?_ (fun _ => ?_); revert xS; dsimp only; rotate_left; clear_value xS)
    | intro _
    | lift_lets
    | with_reducible apply hubBlock_keeps
    | with_reducible exact Keeps.refl _
    | with_reducible refine keeps_foldl (fun _ _ _ => ?_) _ ?_
    | with_reducible refine keeps_foldl_fst (fun _ _ _ => ?_) _ ?_
    | split
    | dsimp only

theorem updMirror_keeps {z : State} (s : State) (o : EngOp) (hK : Keeps z s) : Keeps z (updMirror s o) := by
  unfold updMirror
  repeat' first
    | with_reducible assumption
    | (intro xS; refine keeps_gen (z := z) (x := xS) ?_ (fun _ => ?_); revert xS; dsimp only; rotate_left; clear_value xS)
    | (intro xS; refine keeps_gen_fst (z := z) (x := xS) ?_ (fun _ => ?_); revert xS; dsimp only; rotate_left; clear_value xS)
    | intro _
    | lift_lets
    | with_reducible apply updStep_keeps
    | with_reducible apply hubMsg_keeps
    | with_reducible apply sendTensor_keeps
    | with_reducible exact Keeps.refl _
    | simp only [keeps_mk_eq]
    | split
    | dsimp only

theorem updIssue_keeps {z : State} (op : PtiOp) (q : Nat) (w : PtiWord) (s : State) (hK : Keeps z s) : Keeps z (updIssue op q w s) := by
  unfold updIssue
  repeat' first
    | with_reducible assumption
    | (intro xS; refine keeps_gen (z := z) (x := xS) ?_ (fun _ => ?_); revert xS; dsimp only; rotate_left; clear_value xS)
    | (intro xS; refine keeps_gen_fst (z := z) (x := xS) ?_ (fun _ => ?_); revert xS; dsimp only; rotate_left; clear_value xS)
    | intro _
    | lift_lets
    | with_reducible apply issueFail_keeps
    | with_reducible apply setSeq_keeps
    | with_reducible apply enqueueOp_keeps
    | with_reducible apply updMirror_keeps
    | with_reducible exact Keeps.refl _
    | simp only [keeps_mk_eq]
    | split
    | dsimp only

theorem execUpdAdam_keeps {z : State} (q : Fin 256) (w : PtiWord) (s : State) (hK : Keeps z s) : ∀ t', execUpdAdam q w s = .next t' → Keeps z t' := by
  unfold execUpdAdam
  repeat' first
    | with_reducible (refine (run_keeps ?_ : ∀ t, _ = Host.Outcome.next t → Keeps _ t))
    | with_reducible assumption
    | intro _
    | with_reducible apply ptiIssue_keeps
    | with_reducible apply updIssue_keeps
    | with_reducible exact Keeps.refl _
    | split
    | dsimp only

theorem execUpdSgdm_keeps {z : State} (q : Fin 256) (w : PtiWord) (s : State) (hK : Keeps z s) : ∀ t', execUpdSgdm q w s = .next t' → Keeps z t' := by
  unfold execUpdSgdm
  repeat' first
    | with_reducible (refine (run_keeps ?_ : ∀ t, _ = Host.Outcome.next t → Keeps _ t))
    | with_reducible assumption
    | intro _
    | with_reducible apply ptiIssue_keeps
    | with_reducible apply updIssue_keeps
    | with_reducible exact Keeps.refl _
    | split
    | dsimp only

theorem execUpdSignm_keeps {z : State} (q : Fin 256) (w : PtiWord) (s : State) (hK : Keeps z s) : ∀ t', execUpdSignm q w s = .next t' → Keeps z t' := by
  unfold execUpdSignm
  repeat' first
    | with_reducible (refine (run_keeps ?_ : ∀ t, _ = Host.Outcome.next t → Keeps _ t))
    | with_reducible assumption
    | intro _
    | with_reducible apply ptiIssue_keeps
    | with_reducible apply updIssue_keeps
    | with_reducible exact Keeps.refl _
    | split
    | dsimp only

theorem setPageSet_keeps {z : State} (s : State) (t : Nat) (p : PageSet) (hK : Keeps z s) : Keeps z (setPageSet s t p) := by
  unfold setPageSet
  repeat' first
    | with_reducible assumption
    | (intro xS; refine keeps_gen (z := z) (x := xS) ?_ (fun _ => ?_); revert xS; dsimp only; rotate_left; clear_value xS)
    | (intro xS; refine keeps_gen_fst (z := z) (x := xS) ?_ (fun _ => ?_); revert xS; dsimp only; rotate_left; clear_value xS)
    | intro _
    | lift_lets
    | with_reducible exact Keeps.refl _
    | simp only [keeps_mk_eq]
    | split
    | dsimp only

theorem putPage_keeps {z : State} (s : State) (t i : Nat) (e : PageEnt) (hK : Keeps z s) : Keeps z (putPage s t i e) := by
  unfold putPage
  repeat' first
    | with_reducible assumption
    | (intro xS; refine keeps_gen (z := z) (x := xS) ?_ (fun _ => ?_); revert xS; dsimp only; rotate_left; clear_value xS)
    | (intro xS; refine keeps_gen_fst (z := z) (x := xS) ?_ (fun _ => ?_); revert xS; dsimp only; rotate_left; clear_value xS)
    | intro _
    | lift_lets
    | with_reducible apply memWr_keeps
    | with_reducible apply setPageSet_keeps
    | with_reducible exact Keeps.refl _
    | simp only [keeps_mk_eq]
    | split
    | dsimp only

theorem freeShow_keeps {z : State} (s : State) (t : Nat) (hK : Keeps z s) : Keeps z (freeShow s t) := by
  unfold freeShow
  repeat' first
    | with_reducible assumption
    | (intro xS; refine keeps_gen (z := z) (x := xS) ?_ (fun _ => ?_); revert xS; dsimp only; rotate_left; clear_value xS)
    | (intro xS; refine keeps_gen_fst (z := z) (x := xS) ?_ (fun _ => ?_); revert xS; dsimp only; rotate_left; clear_value xS)
    | intro _
    | lift_lets
    | with_reducible apply setFld_keeps
    | with_reducible apply raise_keeps
    | with_reducible apply setPageSet_keeps
    | with_reducible exact Keeps.refl _
    | simp only [keeps_mk_eq]
    | split
    | dsimp only

theorem popFrame_keeps {z : State} (s : State) (t : Nat) (hK : Keeps z s) : ∀ t', popFrame s t = some t' → Keeps z t'.1 := by
  unfold popFrame
  dsimp only
  repeat' first | split | (intro _ h; cases h; done) | (intro _ h; cases h) 
  all_goals (try dsimp only)
  repeat' first
    | with_reducible assumption
    | (intro xS; refine keeps_gen (z := z) (x := xS) ?_ (fun _ => ?_); revert xS; dsimp only; rotate_left; clear_value xS)
    | (intro xS; refine keeps_gen_fst (z := z) (x := xS) ?_ (fun _ => ?_); revert xS; dsimp only; rotate_left; clear_value xS)
    | intro _
    | lift_lets
    | with_reducible apply memWr_keeps
    | with_reducible apply freeShow_keeps
    | with_reducible apply setPageSet_keeps
    | with_reducible exact Keeps.refl _
    | simp only [keeps_mk_eq]
    | split
    | dsimp only

theorem prepEnt_keeps {z : State} (n t i : Nat) (e : PageEnt) (s : State) (hK : Keeps z s) : Keeps z (prepEnt n t i e s).1 := by
  unfold prepEnt
  repeat' first
    | with_reducible assumption
    | (intro xS; refine keeps_gen (z := z) (x := xS) ?_ (fun _ => ?_); revert xS; dsimp only; rotate_left; clear_value xS)
    | (intro xS; refine keeps_gen_fst (z := z) (x := xS) ?_ (fun _ => ?_); revert xS; dsimp only; rotate_left; clear_value xS)
    | intro _
    | lift_lets
    | with_reducible apply putPage_keeps
    | with_reducible apply cnt_keeps
    | (with_reducible refine popFrame_keeps _ _ ?_ _ (by assumption))
    | with_reducible exact Keeps.refl _
    | with_reducible refine keeps_fst (by assumption) ?_
    | simp only [keeps_mk_eq]
    | split
    | dsimp only

theorem prepAddr_keeps {z : State} (refl : Bool) (n : Nat) (x : State × Bool) (a : Nat) (hK : Keeps z x.1) : Keeps z (prepAddr refl n x a).1 := by
  unfold prepAddr
  repeat' first
    | with_reducible assumption
    | (intro xS; refine keeps_gen (z := z) (x := xS) ?_ (fun _ => ?_); revert xS; dsimp only; rotate_left; clear_value xS)
    | (intro xS; refine keeps_gen_fst (z := z) (x := xS) ?_ (fun _ => ?_); revert xS; dsimp only; rotate_left; clear_value xS)
    | intro _
    | lift_lets
    | with_reducible apply prepEnt_keeps
    | with_reducible exact Keeps.refl _
    | with_reducible refine keeps_fst (by assumption) ?_
    | simp only [keeps_mk_eq]
    | split
    | dsimp only

theorem physBlk_keeps {z : State} (s : State) (cx : Cx) (d : Desc) (i p : Nat) (hK : Keeps z s) : Keeps z (physBlk s cx d i p).st := by
  unfold physBlk
  repeat' first
    | with_reducible assumption
    | (intro xS; refine keeps_gen (z := z) (x := xS) ?_ (fun _ => ?_); revert xS; dsimp only; rotate_left; clear_value xS)
    | (intro xS; refine keeps_gen_fst (z := z) (x := xS) ?_ (fun _ => ?_); revert xS; dsimp only; rotate_left; clear_value xS)
    | intro _
    | lift_lets
    | with_reducible apply traffic_keeps
    | with_reducible apply cnt64_keeps
    | with_reducible apply crcUncured_keeps
    | with_reducible apply crcFail_keeps
    | with_reducible apply poisonRead_keeps
    | with_reducible apply cnt_keeps
    | with_reducible apply hdrChecks_keeps
    | with_reducible exact Keeps.refl _
    | with_reducible refine keeps_fst (by assumption) ?_
    | split
    | dsimp only

theorem updBlks_keeps {z : State} (cx : Cx) (refl : Bool) (d : Desc)  : ∀ (a0 : List Nat) (a1 : State) (a2 : List BlkVal), Keeps z a1 → Keeps z (updBlks cx refl d a0 a1 a2).1 := by
  intro a0
  induction a0 with
  | nil =>
    intro a1 a2 hK
    first | rw [updBlks] | unfold updBlks
    repeat' first
      | with_reducible assumption
      | (intro xS; refine keeps_gen (z := z) (x := xS) ?_ (fun _ => ?_); revert xS; dsimp only; rotate_left; clear_value xS)
      | (intro xS; refine keeps_gen_fst (z := z) (x := xS) ?_ (fun _ => ?_); revert xS; dsimp only; rotate_left; clear_value xS)
      | intro _
      | lift_lets
      | with_reducible apply ih
      | with_reducible apply raiseAcc_keeps
      | with_reducible apply physBlk_keeps
      | with_reducible apply cnt_keeps
      | with_reducible exact Keeps.refl _
      | with_reducible refine keeps_fst (by assumption) ?_
      | simp only [keeps_mk_eq]
      | split
      | dsimp only
  | cons x0 l0 ih =>
    intro a1 a2 hK
    first | rw [updBlks] | unfold updBlks
    repeat' first
      | with_reducible assumption
      | (intro xS; refine keeps_gen (z := z) (x := xS) ?_ (fun _ => ?_); revert xS; dsimp only; rotate_left; clear_value xS)
      | (intro xS; refine keeps_gen_fst (z := z) (x := xS) ?_ (fun _ => ?_); revert xS; dsimp only; rotate_left; clear_value xS)
      | intro _
      | lift_lets
      | with_reducible apply ih
      | with_reducible apply raiseAcc_keeps
      | with_reducible apply physBlk_keeps
      | with_reducible apply cnt_keeps
      | with_reducible exact Keeps.refl _
      | with_reducible refine keeps_fst (by assumption) ?_
      | simp only [keeps_mk_eq]
      | split
      | dsimp only

theorem updTensor_keeps {z : State} (s : State) (cx : Cx) (refl : Bool) (d : Desc) (hK : Keeps z s) : Keeps z (updTensor s cx refl d).1 := by
  unfold updTensor
  repeat' first
    | with_reducible assumption
    | (intro xS; refine keeps_gen (z := z) (x := xS) ?_ (fun _ => ?_); revert xS; dsimp only; rotate_left; clear_value xS)
    | (intro xS; refine keeps_gen_fst (z := z) (x := xS) ?_ (fun _ => ?_); revert xS; dsimp only; rotate_left; clear_value xS)
    | intro _
    | lift_lets
    | with_reducible apply updBlks_keeps
    | with_reducible exact Keeps.refl _
    | with_reducible refine keeps_fst (by assumption) ?_
    | simp only [keeps_mk_eq]
    | split
    | dsimp only

theorem physWr_keeps {z : State} (s : State) (p : Nat) (l : List Byte) (hK : Keeps z s) : Keeps z (physWr s p l) := by
  unfold physWr
  repeat' first
    | with_reducible assumption
    | intro _
    | with_reducible apply memWr_keeps
    | with_reducible apply unpoison_keeps
    | with_reducible apply traffic_keeps
    | with_reducible exact Keeps.refl _
    | split
    | dsimp only

theorem updFold_keeps {z : State} (s : State) (j : UpdJob) (mm : Bool) (r : RawBlk) (hK : Keeps z s) : Keeps z (updFold s j mm r) := by
  unfold updFold
  repeat' first
    | with_reducible assumption
    | (intro xS; refine keeps_gen (z := z) (x := xS) ?_ (fun _ => ?_); revert xS; dsimp only; rotate_left; clear_value xS)
    | (intro xS; refine keeps_gen_fst (z := z) (x := xS) ?_ (fun _ => ?_); revert xS; dsimp only; rotate_left; clear_value xS)
    | intro _
    | lift_lets
    | with_reducible exact Keeps.refl _
    | simp only [keeps_mk_eq]
    | split
    | dsimp only

theorem updStore_keeps {z : State} (s : State) (j : UpdJob) (d : Desc) (mm : Bool) (i : Nat) (b : Formed) (hK : Keeps z s) : Keeps z (updStore s j d mm i b) := by
  unfold updStore
  repeat' first
    | with_reducible assumption
    | (intro xS; refine keeps_gen (z := z) (x := xS) ?_ (fun _ => ?_); revert xS; dsimp only; rotate_left; clear_value xS)
    | (intro xS; refine keeps_gen_fst (z := z) (x := xS) ?_ (fun _ => ?_); revert xS; dsimp only; rotate_left; clear_value xS)
    | intro _
    | lift_lets
    | with_reducible apply physWr_keeps
    | with_reducible apply updFold_keeps
    | with_reducible apply formCounts_keeps
    | with_reducible exact Keeps.refl _
    | simp only [keeps_mk_eq]
    | split
    | dsimp only

theorem updWrite_keeps {z : State} (j : UpdJob) (d : Desc) (mm : Bool) (rnd : Nat → Nat → Rnd) (told : TensorVal) (val : Nat → Nat → EV) (s : State) (hK : Keeps z s) : Keeps z (updWrite j d mm rnd told val s) := by
  unfold updWrite
  repeat' first
    | with_reducible assumption
    | (intro xS; refine keeps_gen (z := z) (x := xS) ?_ (fun _ => ?_); revert xS; dsimp only; rotate_left; clear_value xS)
    | (intro xS; refine keeps_gen_fst (z := z) (x := xS) ?_ (fun _ => ?_); revert xS; dsimp only; rotate_left; clear_value xS)
    | intro _
    | lift_lets
    | with_reducible apply updStore_keeps
    | with_reducible exact Keeps.refl _
    | with_reducible refine keeps_foldl (fun _ _ _ => ?_) _ ?_
    | with_reducible refine keeps_foldl_fst (fun _ _ _ => ?_) _ ?_
    | simp only [keeps_mk_eq]
    | split
    | dsimp only

theorem nonfin_keeps {z : State} (s : State) (j : UpdJob) (tiles : List (List (Option (EV × EV × EV)))) (hK : Keeps z s) : Keeps z (nonfin s j tiles) := by
  unfold nonfin
  repeat' first
    | with_reducible assumption
    | (intro xS; refine keeps_gen (z := z) (x := xS) ?_ (fun _ => ?_); revert xS; dsimp only; rotate_left; clear_value xS)
    | (intro xS; refine keeps_gen_fst (z := z) (x := xS) ?_ (fun _ => ?_); revert xS; dsimp only; rotate_left; clear_value xS)
    | intro _
    | lift_lets
    | with_reducible apply raise_keeps
    | with_reducible apply setFld_keeps
    | with_reducible apply cntAdd_keeps
    | with_reducible exact Keeps.refl _
    | with_reducible refine keeps_foldl (fun _ _ _ => ?_) _ ?_
    | with_reducible refine keeps_foldl_fst (fun _ _ _ => ?_) _ ?_
    | split
    | dsimp only

theorem fadeReport_keeps {z : State} (s : State) (j : UpdJob) (tg : TensorVal) (hK : Keeps z s) : Keeps z (fadeReport s j tg) := by
  unfold fadeReport
  repeat' first
    | with_reducible assumption
    | (intro xS; refine keeps_gen (z := z) (x := xS) ?_ (fun _ => ?_); revert xS; dsimp only; rotate_left; clear_value xS)
    | (intro xS; refine keeps_gen_fst (z := z) (x := xS) ?_ (fun _ => ?_); revert xS; dsimp only; rotate_left; clear_value xS)
    | intro _
    | lift_lets
    | with_reducible exact Keeps.refl _
    | simp only [keeps_mk_eq]
    | split
    | dsimp only

theorem updBody_keeps {z : State} (s : State) (j : UpdJob) (wc : Option Desc) (tp tm tv tg : TensorVal) (hK : Keeps z s) : Keeps z (updBody s j wc tp tm tv tg) := by
  unfold updBody
  repeat' first
    | with_reducible assumption
    | (intro xS; refine keeps_gen (z := z) (x := xS) ?_ (fun _ => ?_); revert xS; dsimp only; rotate_left; clear_value xS)
    | (intro xS; refine keeps_gen_fst (z := z) (x := xS) ?_ (fun _ => ?_); revert xS; dsimp only; rotate_left; clear_value xS)
    | intro _
    | lift_lets
    | with_reducible apply updWrite_keeps
    | with_reducible apply nonfin_keeps
    | with_reducible apply cnt64_keeps
    | with_reducible apply fadeReport_keeps
    | with_reducible exact Keeps.refl _
    | simp only [keeps_mk_eq]
    | split
    | dsimp only

theorem updExec_keeps {z : State} (s : State) (j : UpdJob) (grads : Option TensorVal) (hK : Keeps z s) : Keeps z (updExec s j grads).1 := by
  unfold updExec
  repeat' first
    | with_reducible assumption
    | (intro xS; refine keeps_gen (z := z) (x := xS) ?_ (fun _ => ?_); revert xS; dsimp only; rotate_left; clear_value xS)
    | (intro xS; refine keeps_gen_fst (z := z) (x := xS) ?_ (fun _ => ?_); revert xS; dsimp only; rotate_left; clear_value xS)
    | intro _
    | lift_lets
    | with_reducible apply updTensor_keeps
    | with_reducible apply raiseAcc_keeps
    | with_reducible apply prepAddr_keeps
    | with_reducible apply updBody_keeps
    | with_reducible exact Keeps.refl _
    | with_reducible refine keeps_foldl (fun _ _ _ => ?_) _ ?_
    | with_reducible refine keeps_foldl_fst (fun _ _ _ => ?_) _ ?_
    | with_reducible refine keeps_fst (by assumption) ?_
    | simp only [keeps_mk_eq]
    | split
    | dsimp only

theorem updFetch_keeps {z : State} (s : State) (o : EngOp) (hK : Keeps z s) : Keeps z (updFetch s o).1 := by
  unfold updFetch
  repeat' first
    | with_reducible assumption
    | (intro xS; refine keeps_gen (z := z) (x := xS) ?_ (fun _ => ?_); revert xS; dsimp only; rotate_left; clear_value xS)
    | (intro xS; refine keeps_gen_fst (z := z) (x := xS) ?_ (fun _ => ?_); revert xS; dsimp only; rotate_left; clear_value xS)
    | intro _
    | lift_lets
    | with_reducible apply raiseAcc_keeps
    | with_reducible apply traffic_keeps
    | with_reducible apply poisonRead_keeps
    | with_reducible apply setOp_keeps
    | with_reducible exact Keeps.refl _
    | with_reducible refine keeps_fst (by assumption) ?_
    | simp only [keeps_mk_eq]
    | split
    | dsimp only

theorem frameWait_keeps {z : State} (s : State) (o : EngOp) (hK : Keeps z s) : Keeps z (frameWait s o) := by
  unfold frameWait
  repeat' first
    | with_reducible assumption
    | (intro xS; refine keeps_gen (z := z) (x := xS) ?_ (fun _ => ?_); revert xS; dsimp only; rotate_left; clear_value xS)
    | (intro xS; refine keeps_gen_fst (z := z) (x := xS) ?_ (fun _ => ?_); revert xS; dsimp only; rotate_left; clear_value xS)
    | intro _
    | lift_lets
    | with_reducible apply setFld_keeps
    | with_reducible apply raise_keeps
    | with_reducible exact Keeps.refl _
    | simp only [keeps_mk_eq]
    | split
    | dsimp only

theorem updRun_keeps {z : State} (s : State) (o : EngOp) (hK : Keeps z s) : Keeps z (updRun s o) := by
  unfold updRun
  repeat' first
    | with_reducible assumption
    | (intro xS; refine keeps_gen (z := z) (x := xS) ?_ (fun _ => ?_); revert xS; dsimp only; rotate_left; clear_value xS)
    | (intro xS; refine keeps_gen_fst (z := z) (x := xS) ?_ (fun _ => ?_); revert xS; dsimp only; rotate_left; clear_value xS)
    | intro _
    | lift_lets
    | with_reducible apply kick_keeps
    | with_reducible apply completeOp_keeps
    | with_reducible apply updExec_keeps
    | with_reducible apply frameWait_keeps
    | with_reducible apply setOp_keeps
    | with_reducible exact Keeps.refl _
    | with_reducible refine keeps_fst (by assumption) ?_
    | simp only [keeps_mk_eq]
    | split
    | dsimp only

theorem dualMiss_keeps {z : State} (step : Nat) (s : State) (n : Nat) (hK : Keeps z s) : Keeps z (dualMiss step s n) := by
  unfold dualMiss
  repeat' first
    | with_reducible assumption
    | intro _
    | with_reducible apply health_keeps
    | with_reducible apply raise_keeps
    | with_reducible apply setFld_keeps
    | with_reducible apply cnt_keeps
    | with_reducible exact Keeps.refl _
    | with_reducible refine keeps_foldl (fun _ _ _ => ?_) _ ?_
    | with_reducible refine keeps_foldl_fst (fun _ _ _ => ?_) _ ?_
    | split
    | dsimp only

theorem dualMisses_keeps {z : State} (step : Nat) (mis : List (Nat × Nat)) (s : State) (hK : Keeps z s) : Keeps z (dualMisses step mis s) := by
  unfold dualMisses
  repeat' first
    | with_reducible assumption
    | intro _
    | with_reducible apply dualMiss_keeps
    | with_reducible exact Keeps.refl _
    | with_reducible refine keeps_foldl (fun _ _ _ => ?_) _ ?_
    | with_reducible refine keeps_foldl_fst (fun _ _ _ => ?_) _ ?_
    | split
    | dsimp only

theorem freeShadow_keeps {z : State} (s : State) (n : Nat) (hK : Keeps z s) : Keeps z (freeShadow s n) := by
  unfold freeShadow
  repeat' first
    | with_reducible assumption
    | (intro xS; refine keeps_gen (z := z) (x := xS) ?_ (fun _ => ?_); revert xS; dsimp only; rotate_left; clear_value xS)
    | (intro xS; refine keeps_gen_fst (z := z) (x := xS) ?_ (fun _ => ?_); revert xS; dsimp only; rotate_left; clear_value xS)
    | intro _
    | lift_lets
    | with_reducible apply putPage_keeps
    | with_reducible exact Keeps.refl _
    | with_reducible refine keeps_foldl (fun _ _ _ => ?_) _ ?_
    | with_reducible refine keeps_foldl_fst (fun _ _ _ => ?_) _ ?_
    | simp only [keeps_mk_eq]
    | split
    | dsimp only

theorem commitFailed_keeps {z : State} (s : State) (n : Nat) (hK : Keeps z s) : Keeps z (commitFailed s n) := by
  unfold commitFailed
  repeat' first
    | with_reducible assumption
    | (intro xS; refine keeps_gen (z := z) (x := xS) ?_ (fun _ => ?_); revert xS; dsimp only; rotate_left; clear_value xS)
    | (intro xS; refine keeps_gen_fst (z := z) (x := xS) ?_ (fun _ => ?_); revert xS; dsimp only; rotate_left; clear_value xS)
    | intro _
    | lift_lets
    | with_reducible apply health_keeps
    | with_reducible apply freeShadow_keeps
    | with_reducible exact Keeps.refl _
    | simp only [keeps_mk_eq]
    | split
    | dsimp only

theorem opUpdStart_keeps {z : State} (grp tgt : Nat) (e : UpdEnv) (s : State) (hK : Keeps z s) : Keeps z (opUpdStart grp tgt e s) := by
  unfold opUpdStart
  repeat' first
    | with_reducible assumption
    | (intro xS; refine keeps_gen (z := z) (x := xS) ?_ (fun _ => ?_); revert xS; dsimp only; rotate_left; clear_value xS)
    | (intro xS; refine keeps_gen_fst (z := z) (x := xS) ?_ (fun _ => ?_); revert xS; dsimp only; rotate_left; clear_value xS)
    | intro _
    | lift_lets
    | with_reducible apply dualMisses_keeps
    | with_reducible apply memEnv_keeps
    | with_reducible apply kick_keeps
    | with_reducible apply completeOp_keeps
    | with_reducible apply commitFailed_keeps
    | with_reducible apply updFetch_keeps
    | with_reducible apply updRun_keeps
    | with_reducible exact Keeps.refl _
    | with_reducible refine keeps_fst (by assumption) ?_
    | simp only [keeps_mk_eq]
    | split
    | dsimp only

theorem execUpdStart_keeps {z : State} (grp : Fin 5) (tgt : Fin 16) (e : UpdEnv) (s : State) (hK : Keeps z s) : ∀ t', execUpdStart grp tgt e s = .next t' → Keeps z t' := by
  unfold execUpdStart
  repeat' first
    | with_reducible (refine (run_keeps ?_ : ∀ t, _ = Host.Outcome.next t → Keeps _ t))
    | with_reducible assumption
    | intro _
    | with_reducible apply opUpdStart_keeps
    | with_reducible exact Keeps.refl _
    | split
    | dsimp only

theorem opUpdFrameResume_keeps {z : State} (grp tgt : Nat) (s : State) (hK : Keeps z s) : Keeps z (opUpdFrameResume grp tgt s) := by
  unfold opUpdFrameResume
  repeat' first
    | with_reducible assumption
    | (intro xS; refine keeps_gen (z := z) (x := xS) ?_ (fun _ => ?_); revert xS; dsimp only; rotate_left; clear_value xS)
    | (intro xS; refine keeps_gen_fst (z := z) (x := xS) ?_ (fun _ => ?_); revert xS; dsimp only; rotate_left; clear_value xS)
    | intro _
    | lift_lets
    | with_reducible apply updRun_keeps
    | with_reducible exact Keeps.refl _
    | simp only [keeps_mk_eq]
    | split
    | dsimp only

theorem execUpdFrameResume_keeps {z : State} (grp : Fin 5) (tgt : Fin 16) (s : State) (hK : Keeps z s) : ∀ t', execUpdFrameResume grp tgt s = .next t' → Keeps z t' := by
  unfold execUpdFrameResume
  repeat' first
    | with_reducible (refine (run_keeps ?_ : ∀ t, _ = Host.Outcome.next t → Keeps _ t))
    | with_reducible assumption
    | intro _
    | with_reducible apply opUpdFrameResume_keeps
    | with_reducible exact Keeps.refl _
    | split
    | dsimp only

theorem opUpdComplete_keeps {z : State} (grp tgt : Nat) (s : State) (hK : Keeps z s) : Keeps z (opUpdComplete grp tgt s) := by
  unfold opUpdComplete
  repeat' first
    | with_reducible assumption
    | (intro xS; refine keeps_gen (z := z) (x := xS) ?_ (fun _ => ?_); revert xS; dsimp only; rotate_left; clear_value xS)
    | (intro xS; refine keeps_gen_fst (z := z) (x := xS) ?_ (fun _ => ?_); revert xS; dsimp only; rotate_left; clear_value xS)
    | intro _
    | lift_lets
    | with_reducible apply kick_keeps
    | with_reducible apply completeOp_keeps
    | with_reducible apply updStep_keeps
    | with_reducible exact Keeps.refl _
    | simp only [keeps_mk_eq]
    | split
    | dsimp only

theorem execUpdComplete_keeps {z : State} (grp : Fin 5) (tgt : Fin 16) (s : State) (hK : Keeps z s) : ∀ t', execUpdComplete grp tgt s = .next t' → Keeps z t' := by
  unfold execUpdComplete
  repeat' first
    | with_reducible (refine (run_keeps ?_ : ∀ t, _ = Host.Outcome.next t → Keeps _ t))
    | with_reducible assumption
    | intro _
    | with_reducible apply opUpdComplete_keeps
    | with_reducible exact Keeps.refl _
    | split
    | dsimp only

end Sys2Proof.Machine
end

