-- ==== Sys2Proof/Laws/KeepsSteps.lean ====
section
/-! SUPPORT. What the operations of Steps keep. -/
namespace Sys2Proof.Machine

theorem updSample_keeps {z : State} (s : State) (t : Nat) (hK : Keeps z s) : Keeps z (updSample s t) := by
  unfold updSample
  repeat' first
    | with_reducible assumption
    | (intro xS; refine keeps_gen (z := z) (x := xS) ?_ (fun _ => ?_); revert xS; dsimp only; rotate_left; clear_value xS)
    | (intro xS; refine keeps_gen_fst (z := z) (x := xS) ?_ (fun _ => ?_); revert xS; dsimp only; rotate_left; clear_value xS)
    | intro _
    | lift_lets
    | with_reducible apply applyRefused_keeps
    | with_reducible apply setPageSet_keeps
    | with_reducible exact Keeps.refl _
    | simp only [keeps_mk_eq]
    | split
    | dsimp only

theorem chkSample_keeps {z : State} (s : State) (hK : Keeps z s) : Keeps z (chkSample s) := by
  unfold chkSample
  repeat' first
    | with_reducible assumption
    | (intro xS; refine keeps_gen (z := z) (x := xS) ?_ (fun _ => ?_); revert xS; dsimp only; rotate_left; clear_value xS)
    | (intro xS; refine keeps_gen_fst (z := z) (x := xS) ?_ (fun _ => ?_); revert xS; dsimp only; rotate_left; clear_value xS)
    | intro _
    | lift_lets
    | with_reducible exact Keeps.refl _
    | simp only [keeps_mk_eq]
    | split
    | dsimp only

theorem openSample_keeps {z : State} (s : State) (n : Nat) (hK : Keeps z s) : Keeps z (openSample s n) := by
  unfold openSample
  repeat' first
    | with_reducible assumption
    | (intro xS; refine keeps_gen (z := z) (x := xS) ?_ (fun _ => ?_); revert xS; dsimp only; rotate_left; clear_value xS)
    | (intro xS; refine keeps_gen_fst (z := z) (x := xS) ?_ (fun _ => ?_); revert xS; dsimp only; rotate_left; clear_value xS)
    | intro _
    | lift_lets
    | with_reducible apply chkSample_keeps
    | with_reducible apply updSample_keeps
    | with_reducible apply sclOpen_keeps
    | with_reducible apply setFld_keeps
    | with_reducible exact Keeps.refl _
    | with_reducible refine keeps_foldl (fun _ _ _ => ?_) _ ?_
    | with_reducible refine keeps_foldl_fst (fun _ _ _ => ?_) _ ?_
    | simp only [keeps_mk_eq]
    | split
    | dsimp only

theorem stepResult_keeps {z : State} (s : State) (cmd : Nat) (o : StepOutcome) (hK : Keeps z s) : Keeps z (stepResult s cmd o) := by
  unfold stepResult
  repeat' first
    | with_reducible assumption
    | intro _
    | with_reducible apply setFld_keeps
    | with_reducible exact Keeps.refl _
    | split
    | dsimp only

theorem heldResult_keeps {z : State} (s : State) (cmd : Nat) (o : StepOutcome) (hK : Keeps z s) : Keeps z (heldResult s cmd o) := by
  unfold heldResult
  repeat' first
    | with_reducible assumption
    | intro _
    | with_reducible apply setFld_keeps
    | with_reducible exact Keeps.refl _
    | split
    | dsimp only

theorem openStep_keeps {z : State} (s : State) (n : Nat) (replay : Bool) (hK : Keeps z s) : Keeps z (openStep s n replay).1 := by
  unfold openStep
  repeat' first
    | with_reducible assumption
    | (intro xS; refine keeps_gen (z := z) (x := xS) ?_ (fun _ => ?_); revert xS; dsimp only; rotate_left; clear_value xS)
    | (intro xS; refine keeps_gen_fst (z := z) (x := xS) ?_ (fun _ => ?_); revert xS; dsimp only; rotate_left; clear_value xS)
    | intro _
    | lift_lets
    | with_reducible apply raise_keeps
    | with_reducible apply openSample_keeps
    | with_reducible apply sysObj_keeps
    | with_reducible exact Keeps.refl _
    | with_reducible refine keeps_fst (by assumption) ?_
    | simp only [keeps_mk_eq]
    | split
    | dsimp only

theorem opStepOpen_keeps {z : State} (n : Nat) (s : State) (hK : Keeps z s) : Keeps z (opStepOpen n s) := by
  unfold opStepOpen
  repeat' first
    | with_reducible assumption
    | (intro xS; refine keeps_gen (z := z) (x := xS) ?_ (fun _ => ?_); revert xS; dsimp only; rotate_left; clear_value xS)
    | (intro xS; refine keeps_gen_fst (z := z) (x := xS) ?_ (fun _ => ?_); revert xS; dsimp only; rotate_left; clear_value xS)
    | intro _
    | lift_lets
    | with_reducible apply stepResult_keeps
    | with_reducible apply raise_keeps
    | with_reducible apply openStep_keeps
    | with_reducible exact Keeps.refl _
    | with_reducible refine keeps_fst (by assumption) ?_
    | simp only [keeps_mk_eq]
    | split
    | dsimp only

theorem opHeldOpenRelease_keeps {z : State} (s : State) (hK : Keeps z s) : Keeps z (opHeldOpenRelease s) := by
  unfold opHeldOpenRelease
  repeat' first
    | with_reducible assumption
    | (intro xS; refine keeps_gen (z := z) (x := xS) ?_ (fun _ => ?_); revert xS; dsimp only; rotate_left; clear_value xS)
    | (intro xS; refine keeps_gen_fst (z := z) (x := xS) ?_ (fun _ => ?_); revert xS; dsimp only; rotate_left; clear_value xS)
    | intro _
    | lift_lets
    | with_reducible apply openStep_keeps
    | with_reducible apply heldResult_keeps
    | with_reducible exact Keeps.refl _
    | with_reducible refine keeps_fst (by assumption) ?_
    | simp only [keeps_mk_eq]
    | split
    | dsimp only

theorem execHeldOpenRelease_keeps {z : State} (s : State) (hK : Keeps z s) : ∀ t', execHeldOpenRelease s = .next t' → Keeps z t' := by
  unfold execHeldOpenRelease
  repeat' first
    | with_reducible (refine (run_keeps ?_ : ∀ t, _ = Host.Outcome.next t → Keeps _ t))
    | with_reducible assumption
    | intro _
    | with_reducible apply opHeldOpenRelease_keeps
    | with_reducible exact Keeps.refl _
    | split
    | dsimp only

theorem opReplayStepOpen_keeps {z : State} (s : State) (hK : Keeps z s) : Keeps z (opReplayStepOpen s) := by
  unfold opReplayStepOpen
  repeat' first
    | with_reducible assumption
    | (intro xS; refine keeps_gen (z := z) (x := xS) ?_ (fun _ => ?_); revert xS; dsimp only; rotate_left; clear_value xS)
    | (intro xS; refine keeps_gen_fst (z := z) (x := xS) ?_ (fun _ => ?_); revert xS; dsimp only; rotate_left; clear_value xS)
    | intro _
    | lift_lets
    | with_reducible apply openStep_keeps
    | with_reducible exact Keeps.refl _
    | with_reducible refine keeps_fst (by assumption) ?_
    | simp only [keeps_mk_eq]
    | split
    | dsimp only

theorem execReplayStepOpen_keeps {z : State} (s : State) (hK : Keeps z s) : ∀ t', execReplayStepOpen s = .next t' → Keeps z t' := by
  unfold execReplayStepOpen
  repeat' first
    | with_reducible (refine (run_keeps ?_ : ∀ t, _ = Host.Outcome.next t → Keeps _ t))
    | with_reducible assumption
    | intro _
    | with_reducible apply opReplayStepOpen_keeps
    | with_reducible exact Keeps.refl _
    | split
    | dsimp only

theorem enterDraining_keeps {z : State} (s : State) (n : Nat) (hK : Keeps z s) : Keeps z (enterDraining s n) := by
  unfold enterDraining
  repeat' first
    | with_reducible assumption
    | (intro xS; refine keeps_gen (z := z) (x := xS) ?_ (fun _ => ?_); revert xS; dsimp only; rotate_left; clear_value xS)
    | (intro xS; refine keeps_gen_fst (z := z) (x := xS) ?_ (fun _ => ?_); revert xS; dsimp only; rotate_left; clear_value xS)
    | intro _
    | lift_lets
    | with_reducible apply tmArm_keeps
    | with_reducible apply updStep_keeps
    | with_reducible exact Keeps.refl _
    | simp only [keeps_mk_eq]
    | split
    | dsimp only

theorem opStepDeclare_keeps {z : State} (n : Nat) (s : State) (hK : Keeps z s) : Keeps z (opStepDeclare n s) := by
  unfold opStepDeclare
  repeat' first
    | with_reducible assumption
    | (intro xS; refine keeps_gen (z := z) (x := xS) ?_ (fun _ => ?_); revert xS; dsimp only; rotate_left; clear_value xS)
    | (intro xS; refine keeps_gen_fst (z := z) (x := xS) ?_ (fun _ => ?_); revert xS; dsimp only; rotate_left; clear_value xS)
    | intro _
    | lift_lets
    | with_reducible apply stepResult_keeps
    | with_reducible apply enterDraining_keeps
    | with_reducible apply updStep_keeps
    | with_reducible exact Keeps.refl _
    | simp only [keeps_mk_eq]
    | split
    | dsimp only

theorem opHeldDeclareRelease_keeps {z : State} (s : State) (hK : Keeps z s) : Keeps z (opHeldDeclareRelease s) := by
  unfold opHeldDeclareRelease
  repeat' first
    | with_reducible assumption
    | (intro xS; refine keeps_gen (z := z) (x := xS) ?_ (fun _ => ?_); revert xS; dsimp only; rotate_left; clear_value xS)
    | (intro xS; refine keeps_gen_fst (z := z) (x := xS) ?_ (fun _ => ?_); revert xS; dsimp only; rotate_left; clear_value xS)
    | intro _
    | lift_lets
    | with_reducible apply heldResult_keeps
    | with_reducible apply enterDraining_keeps
    | with_reducible exact Keeps.refl _
    | simp only [keeps_mk_eq]
    | split
    | dsimp only

theorem execHeldDeclareRelease_keeps {z : State} (s : State) (hK : Keeps z s) : ∀ t', execHeldDeclareRelease s = .next t' → Keeps z t' := by
  unfold execHeldDeclareRelease
  repeat' first
    | with_reducible (refine (run_keeps ?_ : ∀ t, _ = Host.Outcome.next t → Keeps _ t))
    | with_reducible assumption
    | intro _
    | with_reducible apply opHeldDeclareRelease_keeps
    | with_reducible exact Keeps.refl _
    | split
    | dsimp only

theorem opStepAbandon_keeps {z : State} (n : Nat) (s : State) (hK : Keeps z s) : Keeps z (opStepAbandon n s) := by
  unfold opStepAbandon
  repeat' first
    | with_reducible assumption
    | (intro xS; refine keeps_gen (z := z) (x := xS) ?_ (fun _ => ?_); revert xS; dsimp only; rotate_left; clear_value xS)
    | (intro xS; refine keeps_gen_fst (z := z) (x := xS) ?_ (fun _ => ?_); revert xS; dsimp only; rotate_left; clear_value xS)
    | intro _
    | lift_lets
    | with_reducible apply stepResult_keeps
    | with_reducible apply abandon_keeps
    | with_reducible exact Keeps.refl _
    | simp only [keeps_mk_eq]
    | split
    | dsimp only

theorem sendDigest_keeps {z : State} (s : State) (n : Nat) (d : List Byte) (lc : Nat) (hK : Keeps z s) : Keeps z (sendDigest s n d lc) := by
  unfold sendDigest
  repeat' first
    | with_reducible assumption
    | intro _
    | with_reducible apply hubSend_keeps
    | with_reducible exact Keeps.refl _
    | split
    | dsimp only

theorem sealMismatch_keeps {z : State} (s : State) (n : Nat) (hK : Keeps z s) : Keeps z (sealMismatch s n) := by
  unfold sealMismatch
  repeat' first
    | with_reducible assumption
    | intro _
    | with_reducible apply abandon_keeps
    | with_reducible apply raise_keeps
    | with_reducible exact Keeps.refl _
    | split
    | dsimp only

theorem digestCheck_keeps {z : State} (s : State) (n : Nat) (hK : Keeps z s) : Keeps z (digestCheck s n) := by
  unfold digestCheck
  repeat' first
    | with_reducible assumption
    | (intro xS; refine keeps_gen (z := z) (x := xS) ?_ (fun _ => ?_); revert xS; dsimp only; rotate_left; clear_value xS)
    | (intro xS; refine keeps_gen_fst (z := z) (x := xS) ?_ (fun _ => ?_); revert xS; dsimp only; rotate_left; clear_value xS)
    | intro _
    | lift_lets
    | with_reducible apply sealMismatch_keeps
    | with_reducible exact Keeps.refl _
    | simp only [keeps_mk_eq]
    | split
    | dsimp only

theorem voteResult_keeps {z : State} (s : State) (n : Nat) (w : BitVec 5) (hK : Keeps z s) : Keeps z (voteResult s n w) := by
  unfold voteResult
  repeat' first
    | with_reducible assumption
    | (intro xS; refine keeps_gen (z := z) (x := xS) ?_ (fun _ => ?_); revert xS; dsimp only; rotate_left; clear_value xS)
    | (intro xS; refine keeps_gen_fst (z := z) (x := xS) ?_ (fun _ => ?_); revert xS; dsimp only; rotate_left; clear_value xS)
    | intro _
    | lift_lets
    | with_reducible apply updStep_keeps
    | with_reducible apply abandon_keeps
    | with_reducible apply raise_keeps
    | with_reducible apply digestCheck_keeps
    | with_reducible apply sendDigest_keeps
    | with_reducible exact Keeps.refl _
    | with_reducible refine keeps_foldl (fun _ _ _ => ?_) _ ?_
    | with_reducible refine keeps_foldl_fst (fun _ _ _ => ?_) _ ?_
    | simp only [keeps_mk_eq]
    | split
    | dsimp only

theorem voteSend_keeps {z : State} (s : State) (ms : List Nat) (rank n phase : Nat) (w : BitVec 5) (hK : Keeps z s) : Keeps z (voteSend s ms rank n phase w) := by
  unfold voteSend
  repeat' first
    | with_reducible assumption
    | intro _
    | with_reducible apply sendVote_keeps
    | with_reducible exact Keeps.refl _
    | split
    | dsimp only

theorem voteMine_keeps {z : State} (s : State) (n : Nat) (w : BitVec 5) (hK : Keeps z s) : Keeps z (voteMine s n w) := by
  unfold voteMine
  repeat' first
    | with_reducible assumption
    | intro _
    | with_reducible apply voteResult_keeps
    | with_reducible exact Keeps.refl _
    | split
    | dsimp only

theorem voteTake_keeps {z : State} (l : Nat) (f : Frame) (s : State) (hK : Keeps z s) : Keeps z (voteTake l f s) := by
  unfold voteTake
  repeat' first
    | with_reducible assumption
    | (intro xS; refine keeps_gen (z := z) (x := xS) ?_ (fun _ => ?_); revert xS; dsimp only; rotate_left; clear_value xS)
    | (intro xS; refine keeps_gen_fst (z := z) (x := xS) ?_ (fun _ => ?_); revert xS; dsimp only; rotate_left; clear_value xS)
    | intro _
    | lift_lets
    | with_reducible apply dropAt_keeps
    | with_reducible apply voteMine_keeps
    | with_reducible apply voteSend_keeps
    | with_reducible exact Keeps.refl _
    | simp only [keeps_mk_eq]
    | split
    | dsimp only

theorem voteHeld_keeps {z : State} (s : State) (n : Nat) (hK : Keeps z s) : Keeps z (voteHeld s n) := by
  unfold voteHeld
  repeat' first
    | with_reducible assumption
    | (intro xS; refine keeps_gen (z := z) (x := xS) ?_ (fun _ => ?_); revert xS; dsimp only; rotate_left; clear_value xS)
    | (intro xS; refine keeps_gen_fst (z := z) (x := xS) ?_ (fun _ => ?_); revert xS; dsimp only; rotate_left; clear_value xS)
    | intro _
    | lift_lets
    | with_reducible apply voteTake_keeps
    | with_reducible exact Keeps.refl _
    | with_reducible refine keeps_foldl (fun _ _ _ => ?_) _ ?_
    | with_reducible refine keeps_foldl_fst (fun _ _ _ => ?_) _ ?_
    | simp only [keeps_mk_eq]
    | split
    | dsimp only

theorem enterVoting_keeps {z : State} (s : State) (r : StepRec) (hK : Keeps z s) : Keeps z (enterVoting s r) := by
  unfold enterVoting
  repeat' first
    | with_reducible assumption
    | (intro xS; refine keeps_gen (z := z) (x := xS) ?_ (fun _ => ?_); revert xS; dsimp only; rotate_left; clear_value xS)
    | (intro xS; refine keeps_gen_fst (z := z) (x := xS) ?_ (fun _ => ?_); revert xS; dsimp only; rotate_left; clear_value xS)
    | intro _
    | lift_lets
    | with_reducible apply updStep_keeps
    | with_reducible apply tmOff_keeps
    | with_reducible apply tmArm_keeps
    | with_reducible apply voteResult_keeps
    | with_reducible apply voteHeld_keeps
    | with_reducible apply voteSend_keeps
    | with_reducible exact Keeps.refl _
    | simp only [keeps_mk_eq]
    | split
    | dsimp only

theorem opDrainComplete_keeps {z : State} (s : State) (hK : Keeps z s) : Keeps z (opDrainComplete s) := by
  unfold opDrainComplete
  repeat' first
    | with_reducible assumption
    | (intro xS; refine keeps_gen (z := z) (x := xS) ?_ (fun _ => ?_); revert xS; dsimp only; rotate_left; clear_value xS)
    | (intro xS; refine keeps_gen_fst (z := z) (x := xS) ?_ (fun _ => ?_); revert xS; dsimp only; rotate_left; clear_value xS)
    | intro _
    | lift_lets
    | with_reducible apply enterVoting_keeps
    | with_reducible exact Keeps.refl _
    | simp only [keeps_mk_eq]
    | split
    | dsimp only

theorem execDrainComplete_keeps {z : State} (s : State) (hK : Keeps z s) : ∀ t', execDrainComplete s = .next t' → Keeps z t' := by
  unfold execDrainComplete
  repeat' first
    | with_reducible (refine (run_keeps ?_ : ∀ t, _ = Host.Outcome.next t → Keeps _ t))
    | with_reducible assumption
    | intro _
    | with_reducible apply opDrainComplete_keeps
    | with_reducible exact Keeps.refl _
    | split
    | dsimp only

theorem stepExpire_keeps {z : State} (st : StepSt) (t : Nat → Tmr) (s : State) (hK : Keeps z s) : Keeps z (stepExpire st t s) := by
  unfold stepExpire
  repeat' first
    | with_reducible assumption
    | (intro xS; refine keeps_gen (z := z) (x := xS) ?_ (fun _ => ?_); revert xS; dsimp only; rotate_left; clear_value xS)
    | (intro xS; refine keeps_gen_fst (z := z) (x := xS) ?_ (fun _ => ?_); revert xS; dsimp only; rotate_left; clear_value xS)
    | intro _
    | lift_lets
    | with_reducible apply abandon_keeps
    | with_reducible apply raise_keeps
    | with_reducible apply tmOff_keeps
    | with_reducible exact Keeps.refl _
    | simp only [keeps_mk_eq]
    | split
    | dsimp only

theorem execDrainLimitExpire_keeps {z : State} (s : State) (hK : Keeps z s) : ∀ t', execDrainLimitExpire s = .next t' → Keeps z t' := by
  unfold execDrainLimitExpire
  repeat' first
    | with_reducible (refine (run_keeps ?_ : ∀ t, _ = Host.Outcome.next t → Keeps _ t))
    | with_reducible assumption
    | intro _
    | with_reducible apply stepExpire_keeps
    | with_reducible exact Keeps.refl _
    | split
    | dsimp only

theorem execVoteLimitExpire_keeps {z : State} (s : State) (hK : Keeps z s) : ∀ t', execVoteLimitExpire s = .next t' → Keeps z t' := by
  unfold execVoteLimitExpire
  repeat' first
    | with_reducible (refine (run_keeps ?_ : ∀ t, _ = Host.Outcome.next t → Keeps _ t))
    | with_reducible assumption
    | intro _
    | with_reducible apply stepExpire_keeps
    | with_reducible exact Keeps.refl _
    | split
    | dsimp only

theorem aglSeal_keeps {z : State} (s : State) (n : Nat) (hK : Keeps z s) : Keeps z (aglSeal s n) := by
  unfold aglSeal
  repeat' first
    | with_reducible assumption
    | (intro xS; refine keeps_gen (z := z) (x := xS) ?_ (fun _ => ?_); revert xS; dsimp only; rotate_left; clear_value xS)
    | (intro xS; refine keeps_gen_fst (z := z) (x := xS) ?_ (fun _ => ?_); revert xS; dsimp only; rotate_left; clear_value xS)
    | intro _
    | lift_lets
    | with_reducible apply showAgl_keeps
    | with_reducible exact Keeps.refl _
    | simp only [keeps_mk_eq]
    | split
    | dsimp only

theorem reflWait_keeps {z : State} (s : State) (hK : Keeps z s) : Keeps z (reflWait s) := by
  unfold reflWait
  repeat' first
    | with_reducible assumption
    | intro _
    | with_reducible apply tmArm_keeps
    | with_reducible exact Keeps.refl _
    | split
    | dsimp only

theorem sendSeal_keeps {z : State} (s : State) (r : StepRec) (hK : Keeps z s) : Keeps z (sendSeal s r) := by
  unfold sendSeal
  repeat' first
    | with_reducible assumption
    | (intro xS; refine keeps_gen (z := z) (x := xS) ?_ (fun _ => ?_); revert xS; dsimp only; rotate_left; clear_value xS)
    | (intro xS; refine keeps_gen_fst (z := z) (x := xS) ?_ (fun _ => ?_); revert xS; dsimp only; rotate_left; clear_value xS)
    | intro _
    | lift_lets
    | with_reducible apply reflWait_keeps
    | with_reducible apply hubMsg_keeps
    | with_reducible exact Keeps.refl _
    | with_reducible refine keeps_foldl (fun _ _ _ => ?_) _ ?_
    | with_reducible refine keeps_foldl_fst (fun _ _ _ => ?_) _ ?_
    | simp only [keeps_mk_eq]
    | split
    | dsimp only

theorem opStepSeal_keeps {z : State} (s : State) (hK : Keeps z s) : Keeps z (opStepSeal s) := by
  unfold opStepSeal
  repeat' first
    | with_reducible assumption
    | (intro xS; refine keeps_gen (z := z) (x := xS) ?_ (fun _ => ?_); revert xS; dsimp only; rotate_left; clear_value xS)
    | (intro xS; refine keeps_gen_fst (z := z) (x := xS) ?_ (fun _ => ?_); revert xS; dsimp only; rotate_left; clear_value xS)
    | intro _
    | lift_lets
    | with_reducible apply updStep_keeps
    | with_reducible apply tmOff_keeps
    | with_reducible apply aglSeal_keeps
    | with_reducible apply sendSeal_keeps
    | with_reducible apply sysObj_keeps
    | with_reducible exact Keeps.refl _
    | simp only [keeps_mk_eq]
    | split
    | dsimp only

theorem execStepSeal_keeps {z : State} (s : State) (hK : Keeps z s) : ∀ t', execStepSeal s = .next t' → Keeps z t' := by
  unfold execStepSeal
  repeat' first
    | with_reducible (refine (run_keeps ?_ : ∀ t, _ = Host.Outcome.next t → Keeps _ t))
    | with_reducible assumption
    | intro _
    | with_reducible apply opStepSeal_keeps
    | with_reducible exact Keeps.refl _
    | split
    | dsimp only

theorem opAgreeNoticeRepeat_keeps {z : State} (s : State) (hK : Keeps z s) : Keeps z (opAgreeNoticeRepeat s) := by
  unfold opAgreeNoticeRepeat
  repeat' first
    | with_reducible assumption
    | intro _
    | with_reducible apply agreeNotice_keeps
    | with_reducible exact Keeps.refl _
    | split
    | dsimp only

theorem execAgreeNoticeRepeat_keeps {z : State} (s : State) (hK : Keeps z s) : ∀ t', execAgreeNoticeRepeat s = .next t' → Keeps z t' := by
  unfold execAgreeNoticeRepeat
  repeat' first
    | with_reducible (refine (run_keeps ?_ : ∀ t, _ = Host.Outcome.next t → Keeps _ t))
    | with_reducible assumption
    | intro _
    | with_reducible apply opAgreeNoticeRepeat_keeps
    | with_reducible exact Keeps.refl _
    | split
    | dsimp only

theorem opAgreePhase0Resend_keeps {z : State} (s : State) (hK : Keeps z s) : Keeps z (opAgreePhase0Resend s) := by
  unfold opAgreePhase0Resend
  repeat' first
    | with_reducible assumption
    | intro _
    | with_reducible apply agreePhase0_keeps
    | with_reducible exact Keeps.refl _
    | split
    | dsimp only

theorem execAgreePhase0Resend_keeps {z : State} (s : State) (hK : Keeps z s) : ∀ t', execAgreePhase0Resend s = .next t' → Keeps z t' := by
  unfold execAgreePhase0Resend
  repeat' first
    | with_reducible (refine (run_keeps ?_ : ∀ t, _ = Host.Outcome.next t → Keeps _ t))
    | with_reducible assumption
    | intro _
    | with_reducible apply opAgreePhase0Resend_keeps
    | with_reducible exact Keeps.refl _
    | split
    | dsimp only

theorem serveVote_keeps {z : State} (s : State) (low : Nat) (hK : Keeps z s) : Keeps z (serveVote s low) := by
  unfold serveVote
  repeat' first
    | with_reducible assumption
    | (intro xS; refine keeps_gen (z := z) (x := xS) ?_ (fun _ => ?_); revert xS; dsimp only; rotate_left; clear_value xS)
    | (intro xS; refine keeps_gen_fst (z := z) (x := xS) ?_ (fun _ => ?_); revert xS; dsimp only; rotate_left; clear_value xS)
    | intro _
    | lift_lets
    | with_reducible apply voteSend_keeps
    | with_reducible exact Keeps.refl _
    | simp only [keeps_mk_eq]
    | split
    | dsimp only

theorem agreeResult_keeps {z : State} (s : State) (flag : Bool) (low : Nat) (hK : Keeps z s) : Keeps z (agreeResult s flag low) := by
  unfold agreeResult
  repeat' first
    | with_reducible assumption
    | intro _
    | with_reducible apply serveVote_keeps
    | with_reducible apply agreeApply_keeps
    | with_reducible exact Keeps.refl _
    | split
    | dsimp only

theorem agreeTake_keeps {z : State} (l : Nat) (f : Frame) (s0 : State) (hK : Keeps z s0) : Keeps z (agreeTake l f s0) := by
  unfold agreeTake
  repeat' first
    | with_reducible assumption
    | (intro xS; refine keeps_gen (z := z) (x := xS) ?_ (fun _ => ?_); revert xS; dsimp only; rotate_left; clear_value xS)
    | (intro xS; refine keeps_gen_fst (z := z) (x := xS) ?_ (fun _ => ?_); revert xS; dsimp only; rotate_left; clear_value xS)
    | intro _
    | lift_lets
    | with_reducible apply adoptEpoch_keeps
    | with_reducible apply dropAt_keeps
    | with_reducible apply agreeBegin_keeps
    | with_reducible apply sendVote_keeps
    | with_reducible apply agreeResult_keeps
    | with_reducible exact Keeps.refl _
    | simp only [keeps_mk_eq]
    | split
    | dsimp only

theorem putBundle_keeps {z : State} (s : State) (b : Bundle) (hK : Keeps z s) : Keeps z (putBundle s b) := by
  unfold putBundle
  repeat' first
    | with_reducible assumption
    | (intro xS; refine keeps_gen (z := z) (x := xS) ?_ (fun _ => ?_); revert xS; dsimp only; rotate_left; clear_value xS)
    | (intro xS; refine keeps_gen_fst (z := z) (x := xS) ?_ (fun _ => ?_); revert xS; dsimp only; rotate_left; clear_value xS)
    | intro _
    | lift_lets
    | with_reducible exact Keeps.refl _
    | simp only [keeps_mk_eq]
    | split
    | dsimp only

theorem digestKeep_keeps {z : State} (s : State) (f : Frame) (hK : Keeps z s) : Keeps z (digestKeep s f) := by
  unfold digestKeep
  repeat' first
    | with_reducible assumption
    | (intro xS; refine keeps_gen (z := z) (x := xS) ?_ (fun _ => ?_); revert xS; dsimp only; rotate_left; clear_value xS)
    | (intro xS; refine keeps_gen_fst (z := z) (x := xS) ?_ (fun _ => ?_); revert xS; dsimp only; rotate_left; clear_value xS)
    | intro _
    | lift_lets
    | with_reducible apply putBundle_keeps
    | with_reducible exact Keeps.refl _
    | simp only [keeps_mk_eq]
    | split
    | dsimp only

theorem digestTake_keeps {z : State} (l : Nat) (f : Frame) (s0 : State) (hK : Keeps z s0) : Keeps z (digestTake l f s0) := by
  unfold digestTake
  repeat' first
    | with_reducible assumption
    | (intro xS; refine keeps_gen (z := z) (x := xS) ?_ (fun _ => ?_); revert xS; dsimp only; rotate_left; clear_value xS)
    | (intro xS; refine keeps_gen_fst (z := z) (x := xS) ?_ (fun _ => ?_); revert xS; dsimp only; rotate_left; clear_value xS)
    | intro _
    | lift_lets
    | with_reducible apply digestKeep_keeps
    | with_reducible apply sendDigest_keeps
    | with_reducible apply digestCheck_keeps
    | with_reducible apply updStep_keeps
    | with_reducible apply dropAt_keeps
    | with_reducible exact Keeps.refl _
    | simp only [keeps_mk_eq]
    | split
    | dsimp only

end Sys2Proof.Machine
end

