-- ==== Sys2Proof/Laws/KeepsPrism.lean ====
section
/-! SUPPORT. What the operations of Prism keep. -/
namespace Sys2Proof.Machine

theorem setPrism_keeps {z : State} (s : State) (rg idx : Nat) (p : PrismSt) (hK : Keeps z s) : Keeps z (setPrism s rg idx p) := by
  unfold setPrism
  repeat' first
    | with_reducible assumption
    | (intro xS; refine keeps_gen (z := z) (x := xS) ?_ (fun _ => ?_); revert xS; dsimp only; rotate_left; clear_value xS)
    | (intro xS; refine keeps_gen_fst (z := z) (x := xS) ?_ (fun _ => ?_); revert xS; dsimp only; rotate_left; clear_value xS)
    | intro _
    | lift_lets
    | with_reducible exact Keeps.refl _
    | simp only [keeps_mk_eq]
    | split
    | dsimp only

theorem prismMismatch_keeps {z : State} (s : State) (r : PrismRep) (b : Nat) (hK : Keeps z s) : Keeps z (prismMismatch s r b) := by
  unfold prismMismatch
  repeat' first
    | with_reducible assumption
    | (intro xS; refine keeps_gen (z := z) (x := xS) ?_ (fun _ => ?_); revert xS; dsimp only; rotate_left; clear_value xS)
    | (intro xS; refine keeps_gen_fst (z := z) (x := xS) ?_ (fun _ => ?_); revert xS; dsimp only; rotate_left; clear_value xS)
    | intro _
    | lift_lets
    | with_reducible apply updBand_keeps
    | with_reducible apply cnt_keeps
    | with_reducible apply flicker_keeps
    | with_reducible apply health_keeps
    | with_reducible apply raise_keeps
    | with_reducible exact Keeps.refl _
    | simp only [keeps_mk_eq]
    | split
    | dsimp only

theorem prismKeep_keeps {z : State} (s : State) (p : PrismRef) (hK : Keeps z s) : Keeps z (prismKeep s p) := by
  unfold prismKeep
  repeat' first
    | with_reducible assumption
    | (intro xS; refine keeps_gen (z := z) (x := xS) ?_ (fun _ => ?_); revert xS; dsimp only; rotate_left; clear_value xS)
    | (intro xS; refine keeps_gen_fst (z := z) (x := xS) ?_ (fun _ => ?_); revert xS; dsimp only; rotate_left; clear_value xS)
    | intro _
    | lift_lets
    | with_reducible exact Keeps.refl _
    | simp only [keeps_mk_eq]
    | split
    | dsimp only

theorem dieCompare_keeps {z : State} (s : State) (vec : Bool) (b : Nat) (hK : Keeps z s) : Keeps z (dieCompare s vec b) := by
  unfold dieCompare
  repeat' first
    | with_reducible assumption
    | (intro xS; refine keeps_gen (z := z) (x := xS) ?_ (fun _ => ?_); revert xS; dsimp only; rotate_left; clear_value xS)
    | (intro xS; refine keeps_gen_fst (z := z) (x := xS) ?_ (fun _ => ?_); revert xS; dsimp only; rotate_left; clear_value xS)
    | intro _
    | lift_lets
    | with_reducible apply flicker_keeps
    | with_reducible apply health_keeps
    | with_reducible apply raise_keeps
    | with_reducible apply cnt_keeps
    | with_reducible exact Keeps.refl _
    | with_reducible refine keeps_foldl (fun _ _ _ => ?_) _ ?_
    | with_reducible refine keeps_foldl_fst (fun _ _ _ => ?_) _ ?_
    | split
    | dsimp only

theorem prismReport_keeps {z : State} (s : State) (d : Nat) (r : PrismRep) (b : Nat) (hK : Keeps z s) : Keeps z (prismReport s d r b) := by
  unfold prismReport
  repeat' first
    | with_reducible assumption
    | (intro xS; refine keeps_gen (z := z) (x := xS) ?_ (fun _ => ?_); revert xS; dsimp only; rotate_left; clear_value xS)
    | (intro xS; refine keeps_gen_fst (z := z) (x := xS) ?_ (fun _ => ?_); revert xS; dsimp only; rotate_left; clear_value xS)
    | intro _
    | lift_lets
    | with_reducible apply cnt_keeps
    | with_reducible apply prismMismatch_keeps
    | with_reducible apply prismKeep_keeps
    | with_reducible apply dieCompare_keeps
    | with_reducible apply raise_keeps
    | with_reducible exact Keeps.refl _
    | with_reducible refine keeps_foldl (fun _ _ _ => ?_) _ ?_
    | with_reducible refine keeps_foldl_fst (fun _ _ _ => ?_) _ ?_
    | simp only [keeps_mk_eq]
    | split
    | dsimp only

theorem opPrismBurst_keeps {z : State} (rg idx : Nat) (wrong : Option DWord) (abft : Bool) (temp volt start : Nat) (s : State) (hK : Keeps z s) : Keeps z (opPrismBurst rg idx wrong abft temp volt start s) := by
  unfold opPrismBurst
  repeat' first
    | with_reducible assumption
    | (intro xS; refine keeps_gen (z := z) (x := xS) ?_ (fun _ => ?_); revert xS; dsimp only; rotate_left; clear_value xS)
    | (intro xS; refine keeps_gen_fst (z := z) (x := xS) ?_ (fun _ => ?_); revert xS; dsimp only; rotate_left; clear_value xS)
    | intro _
    | lift_lets
    | with_reducible apply setPrism_keeps
    | with_reducible apply updBand_keeps
    | with_reducible apply cnt64_keeps
    | with_reducible apply prismReport_keeps
    | with_reducible apply prismMismatch_keeps
    | with_reducible exact Keeps.refl _
    | simp only [keeps_mk_eq]
    | split
    | dsimp only

theorem execPrismBurst_keeps {z : State} (rg : Fin 16) (idx : Fin 82) (wrong : Option DWord) (abft : Bool) (temp volt freq : BitVec 16) (start : DWord)     (s : State) (hK : Keeps z s) : ∀ t', execPrismBurst rg idx wrong abft temp volt freq start s = .next t' → Keeps z t' := by
  unfold execPrismBurst
  repeat' first
    | with_reducible (refine (run_keeps ?_ : ∀ t, _ = Host.Outcome.next t → Keeps _ t))
    | with_reducible assumption
    | intro _
    | with_reducible apply opPrismBurst_keeps
    | with_reducible exact Keeps.refl _
    | split
    | dsimp only

theorem foldResume_keeps {z : State} (s : State) (hK : Keeps z s) : Keeps z (foldResume s) := by
  unfold foldResume
  repeat' first
    | with_reducible assumption
    | intro _
    | with_reducible apply setFld_keeps
    | with_reducible exact Keeps.refl _
    | split
    | dsimp only

end Sys2Proof.Machine
end

