-- ==== Sys2Proof/Laws/KeepsCwt.lean ====
section
/-! SUPPORT. What the operations of Cwt keep. -/
namespace Sys2Proof.Machine

theorem pauseSend_keeps {z : State} (s : State) (port : Nat) (stop : Bool) (hK : Keeps z s) : Keeps z (pauseSend s port stop) := by
  unfold pauseSend
  repeat' first
    | with_reducible assumption
    | (intro xS; refine keeps_gen (z := z) (x := xS) ?_ (fun _ => ?_); revert xS; dsimp only; rotate_left; clear_value xS)
    | (intro xS; refine keeps_gen_fst (z := z) (x := xS) ?_ (fun _ => ?_); revert xS; dsimp only; rotate_left; clear_value xS)
    | intro _
    | lift_lets
    | with_reducible exact Keeps.refl _
    | simp only [keeps_mk_eq]
    | split
    | dsimp only

theorem bufIn_keeps {z : State} (s : State) (port n : Nat) (hK : Keeps z s) : Keeps z (bufIn s port n) := by
  unfold bufIn
  repeat' first
    | with_reducible assumption
    | (intro xS; refine keeps_gen (z := z) (x := xS) ?_ (fun _ => ?_); revert xS; dsimp only; rotate_left; clear_value xS)
    | (intro xS; refine keeps_gen_fst (z := z) (x := xS) ?_ (fun _ => ?_); revert xS; dsimp only; rotate_left; clear_value xS)
    | intro _
    | lift_lets
    | with_reducible apply pauseSend_keeps
    | with_reducible apply setFld_keeps
    | with_reducible exact Keeps.refl _
    | simp only [keeps_mk_eq]
    | split
    | dsimp only

theorem bufTick_keeps {z : State} (s : State) (port : Nat) (hK : Keeps z s) : Keeps z (bufTick s port) := by
  unfold bufTick
  repeat' first
    | with_reducible assumption
    | (intro xS; refine keeps_gen (z := z) (x := xS) ?_ (fun _ => ?_); revert xS; dsimp only; rotate_left; clear_value xS)
    | (intro xS; refine keeps_gen_fst (z := z) (x := xS) ?_ (fun _ => ?_); revert xS; dsimp only; rotate_left; clear_value xS)
    | intro _
    | lift_lets
    | with_reducible apply pauseSend_keeps
    | with_reducible apply setFld_keeps
    | with_reducible exact Keeps.refl _
    | simp only [keeps_mk_eq]
    | split
    | dsimp only

theorem netOut_keeps {z : State} (s : State) (port dst : Nat) (f : CwtFrame) (hK : Keeps z s) : Keeps z (netOut s port dst f) := by
  unfold netOut
  repeat' first
    | with_reducible assumption
    | (intro xS; refine keeps_gen (z := z) (x := xS) ?_ (fun _ => ?_); revert xS; dsimp only; rotate_left; clear_value xS)
    | (intro xS; refine keeps_gen_fst (z := z) (x := xS) ?_ (fun _ => ?_); revert xS; dsimp only; rotate_left; clear_value xS)
    | intro _
    | lift_lets
    | with_reducible exact Keeps.refl _
    | simp only [keeps_mk_eq]
    | split
    | dsimp only

theorem hostSend_keeps {z : State} (s : State) (f : CwtFrame) (hK : Keeps z s) : Keeps z (hostSend s f) := by
  unfold hostSend
  repeat' first
    | with_reducible assumption
    | (intro xS; refine keeps_gen (z := z) (x := xS) ?_ (fun _ => ?_); revert xS; dsimp only; rotate_left; clear_value xS)
    | (intro xS; refine keeps_gen_fst (z := z) (x := xS) ?_ (fun _ => ?_); revert xS; dsimp only; rotate_left; clear_value xS)
    | intro _
    | lift_lets
    | with_reducible apply netOut_keeps
    | with_reducible exact Keeps.refl _
    | simp only [keeps_mk_eq]
    | split
    | dsimp only

theorem hostAck_keeps {z : State} (s : State) (q : Nat) (hK : Keeps z s) : Keeps z (hostAck s q) := by
  unfold hostAck
  repeat' first
    | with_reducible assumption
    | intro _
    | with_reducible apply hostSend_keeps
    | with_reducible exact Keeps.refl _
    | split
    | dsimp only

theorem hostNack_keeps {z : State} (s : State) (q code offset : Nat) (hK : Keeps z s) : Keeps z (hostNack s q code offset) := by
  unfold hostNack
  repeat' first
    | with_reducible assumption
    | (intro xS; refine keeps_gen (z := z) (x := xS) ?_ (fun _ => ?_); revert xS; dsimp only; rotate_left; clear_value xS)
    | (intro xS; refine keeps_gen_fst (z := z) (x := xS) ?_ (fun _ => ?_); revert xS; dsimp only; rotate_left; clear_value xS)
    | intro _
    | lift_lets
    | with_reducible apply hostSend_keeps
    | with_reducible exact Keeps.refl _
    | simp only [keeps_mk_eq]
    | split
    | dsimp only

theorem strayNack_keeps {z : State} (s : State) (port q code : Nat) (hK : Keeps z s) : Keeps z (strayNack s port q code) := by
  unfold strayNack
  repeat' first
    | with_reducible assumption
    | (intro xS; refine keeps_gen (z := z) (x := xS) ?_ (fun _ => ?_); revert xS; dsimp only; rotate_left; clear_value xS)
    | (intro xS; refine keeps_gen_fst (z := z) (x := xS) ?_ (fun _ => ?_); revert xS; dsimp only; rotate_left; clear_value xS)
    | intro _
    | lift_lets
    | with_reducible apply netOut_keeps
    | with_reducible exact Keeps.refl _
    | simp only [keeps_mk_eq]
    | split
    | dsimp only

theorem giveCredit_keeps {z : State} (s : State) (q : Nat) (hK : Keeps z s) : Keeps z (giveCredit s q) := by
  unfold giveCredit
  repeat' first
    | with_reducible assumption
    | (intro xS; refine keeps_gen (z := z) (x := xS) ?_ (fun _ => ?_); revert xS; dsimp only; rotate_left; clear_value xS)
    | (intro xS; refine keeps_gen_fst (z := z) (x := xS) ?_ (fun _ => ?_); revert xS; dsimp only; rotate_left; clear_value xS)
    | intro _
    | lift_lets
    | with_reducible apply hostSend_keeps
    | with_reducible exact Keeps.refl _
    | simp only [keeps_mk_eq]
    | split
    | dsimp only

theorem repeatCredit_keeps {z : State} (s : State) (q : Nat) (hK : Keeps z s) : Keeps z (repeatCredit s q) := by
  unfold repeatCredit
  repeat' first
    | with_reducible assumption
    | (intro xS; refine keeps_gen (z := z) (x := xS) ?_ (fun _ => ?_); revert xS; dsimp only; rotate_left; clear_value xS)
    | (intro xS; refine keeps_gen_fst (z := z) (x := xS) ?_ (fun _ => ?_); revert xS; dsimp only; rotate_left; clear_value xS)
    | intro _
    | lift_lets
    | with_reducible apply hostSend_keeps
    | with_reducible exact Keeps.refl _
    | simp only [keeps_mk_eq]
    | split
    | dsimp only

theorem pushGo_keeps {z : State}   : ∀ (a0 : Nat) (a1 : State), Keeps z a1 → Keeps z (pushGo  a0 a1) := by
  intro a0
  induction a0 with
  | zero =>
    intro a1 hK
    first | rw [pushGo] | unfold pushGo
    repeat' first
      | with_reducible assumption
      | (intro xS; refine keeps_gen (z := z) (x := xS) ?_ (fun _ => ?_); revert xS; dsimp only; rotate_left; clear_value xS)
      | (intro xS; refine keeps_gen_fst (z := z) (x := xS) ?_ (fun _ => ?_); revert xS; dsimp only; rotate_left; clear_value xS)
      | intro _
      | lift_lets
      | with_reducible apply ih
      | with_reducible apply hostSend_keeps
      | with_reducible exact Keeps.refl _
      | with_reducible refine keeps_fst (by assumption) ?_
      | simp only [keeps_mk_eq]
      | split
      | dsimp only
  | succ n0 ih =>
    intro a1 hK
    first | rw [pushGo] | unfold pushGo
    repeat' first
      | with_reducible assumption
      | (intro xS; refine keeps_gen (z := z) (x := xS) ?_ (fun _ => ?_); revert xS; dsimp only; rotate_left; clear_value xS)
      | (intro xS; refine keeps_gen_fst (z := z) (x := xS) ?_ (fun _ => ?_); revert xS; dsimp only; rotate_left; clear_value xS)
      | intro _
      | lift_lets
      | with_reducible apply ih
      | with_reducible apply hostSend_keeps
      | with_reducible exact Keeps.refl _
      | with_reducible refine keeps_fst (by assumption) ?_
      | simp only [keeps_mk_eq]
      | split
      | dsimp only

theorem pushEvents_keeps {z : State} (s : State) (hK : Keeps z s) : Keeps z (pushEvents s) := by
  unfold pushEvents
  repeat' first
    | with_reducible assumption
    | (intro xS; refine keeps_gen (z := z) (x := xS) ?_ (fun _ => ?_); revert xS; dsimp only; rotate_left; clear_value xS)
    | (intro xS; refine keeps_gen_fst (z := z) (x := xS) ?_ (fun _ => ?_); revert xS; dsimp only; rotate_left; clear_value xS)
    | intro _
    | lift_lets
    | with_reducible apply pushGo_keeps
    | with_reducible exact Keeps.refl _
    | simp only [keeps_mk_eq]
    | split
    | dsimp only

theorem eventsAcked_keeps {z : State} (s : State) (fs : List CwtFrame) (hK : Keeps z s) : Keeps z (eventsAcked s fs) := by
  unfold eventsAcked
  repeat' first
    | with_reducible assumption
    | (intro xS; refine keeps_gen (z := z) (x := xS) ?_ (fun _ => ?_); revert xS; dsimp only; rotate_left; clear_value xS)
    | (intro xS; refine keeps_gen_fst (z := z) (x := xS) ?_ (fun _ => ?_); revert xS; dsimp only; rotate_left; clear_value xS)
    | intro _
    | lift_lets
    | with_reducible exact Keeps.refl _
    | with_reducible refine keeps_foldl (fun _ _ _ => ?_) _ ?_
    | with_reducible refine keeps_foldl_fst (fun _ _ _ => ?_) _ ?_
    | simp only [keeps_mk_eq]
    | split
    | dsimp only

theorem pushCompl_keeps {z : State} (s : State) (hK : Keeps z s) : Keeps z (pushCompl s) := by
  unfold pushCompl
  repeat' first
    | with_reducible assumption
    | (intro xS; refine keeps_gen (z := z) (x := xS) ?_ (fun _ => ?_); revert xS; dsimp only; rotate_left; clear_value xS)
    | (intro xS; refine keeps_gen_fst (z := z) (x := xS) ?_ (fun _ => ?_); revert xS; dsimp only; rotate_left; clear_value xS)
    | intro _
    | lift_lets
    | with_reducible apply hostSend_keeps
    | with_reducible exact Keeps.refl _
    | with_reducible refine keeps_foldl (fun _ _ _ => ?_) _ ?_
    | with_reducible refine keeps_foldl_fst (fun _ _ _ => ?_) _ ?_
    | simp only [keeps_mk_eq]
    | split
    | dsimp only

theorem hostSeen_keeps {z : State} (s : State) (port : Nat) (f : CwtFrame) (hK : Keeps z s) : Keeps z (hostSeen s port f) := by
  unfold hostSeen
  repeat' first
    | with_reducible assumption
    | (intro xS; refine keeps_gen (z := z) (x := xS) ?_ (fun _ => ?_); revert xS; dsimp only; rotate_left; clear_value xS)
    | (intro xS; refine keeps_gen_fst (z := z) (x := xS) ?_ (fun _ => ?_); revert xS; dsimp only; rotate_left; clear_value xS)
    | intro _
    | lift_lets
    | with_reducible apply eventsAcked_keeps
    | with_reducible exact Keeps.refl _
    | simp only [keeps_mk_eq]
    | split
    | dsimp only

theorem seqCheck_keeps {z : State} (s : State) (f : CwtFrame) (hK : Keeps z s) :
    ∀ t', seqCheck s f = .drop t' → Keeps z t' := by
  unfold seqCheck
  try dsimp only
  repeat' first | split | (intro _ h; cases h; done) | (intro _ h; cases h)
  repeat' first
    | with_reducible assumption
    | with_reducible apply hostNack_keeps
    | with_reducible apply hostBusy_keeps
    | with_reducible apply hostAck_keeps
    | with_reducible apply cnt_keeps
    | simp only [keeps_mk_eq]

theorem epochCheck_keeps {z : State} (s : State) (f : CwtFrame) (hK : Keeps z s) :
    ∀ t', epochCheck s f = .drop t' → Keeps z t' := by
  unfold epochCheck
  try dsimp only
  repeat' first | split | (intro _ h; cases h; done) | (intro _ h; cases h)
  repeat' first
    | with_reducible assumption
    | with_reducible apply hostNack_keeps
    | with_reducible apply hostBusy_keeps
    | with_reducible apply hostAck_keeps
    | with_reducible apply cnt_keeps
    | simp only [keeps_mk_eq]

theorem hostBusy_keeps {z : State} (s : State) (q : Nat) (hK : Keeps z s) : Keeps z (hostBusy s q) := by
  unfold hostBusy
  repeat' first
    | with_reducible assumption
    | intro _
    | with_reducible apply hostNack_keeps
    | with_reducible apply cnt_keeps
    | with_reducible exact Keeps.refl _
    | split
    | dsimp only

theorem creditCheck_keeps {z : State} (s : State) (f : CwtFrame) (hK : Keeps z s) :
    ∀ t', creditCheck s f = .drop t' → Keeps z t' := by
  unfold creditCheck
  try dsimp only
  repeat' first | split | (intro _ h; cases h; done) | (intro _ h; cases h)
  repeat' first
    | with_reducible assumption
    | with_reducible apply hostNack_keeps
    | with_reducible apply hostBusy_keeps
    | with_reducible apply hostAck_keeps
    | with_reducible apply cnt_keeps
    | simp only [keeps_mk_eq]

theorem hostTake_keeps {z : State} (s0 : State) (f : CwtFrame) (hK : Keeps z s0) : Keeps z (hostTake s0 f) := by
  unfold hostTake
  repeat' first
    | with_reducible assumption
    | (intro xS; refine keeps_gen (z := z) (x := xS) ?_ (fun _ => ?_); revert xS; dsimp only; rotate_left; clear_value xS)
    | (intro xS; refine keeps_gen_fst (z := z) (x := xS) ?_ (fun _ => ?_); revert xS; dsimp only; rotate_left; clear_value xS)
    | intro _
    | lift_lets
    | with_reducible apply bufIn_keeps
    | with_reducible exact Keeps.refl _
    | simp only [keeps_mk_eq]
    | split
    | dsimp only

theorem hostRx_keeps {z : State} (ty : Nat) (port : Nat) (p : CwtPeer) (f : CwtFrame) (act : State → State × Bool) (s : State) (hact : ∀  t, Keeps z t → Keeps z (act  t).1) (hK : Keeps z s) : Keeps z (hostRx ty port p f act s) := by
  unfold hostRx
  repeat' first
    | with_reducible assumption
    | (intro xS; refine keeps_gen (z := z) (x := xS) ?_ (fun _ => ?_); revert xS; dsimp only; rotate_left; clear_value xS)
    | (intro xS; refine keeps_gen_fst (z := z) (x := xS) ?_ (fun _ => ?_); revert xS; dsimp only; rotate_left; clear_value xS)
    | intro _
    | lift_lets
    | with_reducible apply hact
    | with_reducible apply strayNack_keeps
    | with_reducible apply hostSeen_keeps
    | with_reducible apply hostTake_keeps
    | with_reducible apply hostAck_keeps
    | with_reducible apply pushEvents_keeps
    | with_reducible apply pushCompl_keeps
    | with_reducible apply giveCredit_keeps
    | (with_reducible refine seqCheck_keeps _ _ ?_ _ (by assumption))
    | (with_reducible refine epochCheck_keeps _ _ ?_ _ (by assumption))
    | (with_reducible refine creditCheck_keeps _ _ ?_ _ (by assumption))
    | with_reducible exact Keeps.refl _
    | simp only [keeps_mk_eq]
    | split
    | dsimp only

theorem sessEnd_keeps {z : State} (s : State) (hK : Keeps z s) : Keeps z (sessEnd s) := by
  unfold sessEnd
  repeat' first
    | with_reducible assumption
    | (intro xS; refine keeps_gen (z := z) (x := xS) ?_ (fun _ => ?_); revert xS; dsimp only; rotate_left; clear_value xS)
    | (intro xS; refine keeps_gen_fst (z := z) (x := xS) ?_ (fun _ => ?_); revert xS; dsimp only; rotate_left; clear_value xS)
    | intro _
    | lift_lets
    | with_reducible apply setReg_keeps
    | with_reducible apply setFld_keeps
    | with_reducible exact Keeps.refl _
    | simp only [keeps_mk_eq]
    | split
    | dsimp only

theorem setBulk_keeps {z : State} (s : State) (b : Bulk) (hK : Keeps z s) : Keeps z (setBulk s b) := by
  unfold setBulk
  repeat' first
    | with_reducible assumption
    | (intro xS; refine keeps_gen (z := z) (x := xS) ?_ (fun _ => ?_); revert xS; dsimp only; rotate_left; clear_value xS)
    | (intro xS; refine keeps_gen_fst (z := z) (x := xS) ?_ (fun _ => ?_); revert xS; dsimp only; rotate_left; clear_value xS)
    | intro _
    | lift_lets
    | with_reducible exact Keeps.refl _
    | simp only [keeps_mk_eq]
    | split
    | dsimp only

theorem sinkSend_keeps {z : State} (s : State) (k : Nat) (f : CwtFrame) (hK : Keeps z s) : Keeps z (sinkSend s k f) := by
  unfold sinkSend
  repeat' first
    | with_reducible assumption
    | (intro xS; refine keeps_gen (z := z) (x := xS) ?_ (fun _ => ?_); revert xS; dsimp only; rotate_left; clear_value xS)
    | (intro xS; refine keeps_gen_fst (z := z) (x := xS) ?_ (fun _ => ?_); revert xS; dsimp only; rotate_left; clear_value xS)
    | intro _
    | lift_lets
    | with_reducible apply netOut_keeps
    | with_reducible apply setBulk_keeps
    | with_reducible apply cnt64_keeps
    | with_reducible exact Keeps.refl _
    | simp only [keeps_mk_eq]
    | split
    | dsimp only

theorem bulkPump_keeps {z : State}   : ∀ (a0 : Nat) (a1 : Nat) (a2 : Nat) (a3 : State), Keeps z a3 → Keeps z (bulkPump  a0 a1 a2 a3) := by
  intro a0
  induction a0 with
  | zero =>
    intro a1 a2 a3 hK
    first | rw [bulkPump] | unfold bulkPump
    repeat' first
      | with_reducible assumption
      | with_reducible apply ih
      | with_reducible apply sinkSend_keeps
      | with_reducible apply setBulk_keeps
      | with_reducible exact Keeps.refl _
      | with_reducible refine keeps_fst (by assumption) ?_
      | simp only [keeps_mk_eq]
      | split
      | dsimp only
  | succ n0 ih =>
    intro a1 a2 a3 hK
    first | rw [bulkPump] | unfold bulkPump
    repeat' first
      | with_reducible assumption
      | with_reducible apply ih
      | with_reducible apply sinkSend_keeps
      | with_reducible apply setBulk_keeps
      | with_reducible exact Keeps.refl _
      | with_reducible refine keeps_fst (by assumption) ?_
      | simp only [keeps_mk_eq]
      | split
      | dsimp only

theorem bulkQueue_keeps {z : State} (s : State) (k q : Nat) (fs : List CwtFrame) (hK : Keeps z s) : Keeps z (bulkQueue s k q fs) := by
  unfold bulkQueue
  repeat' first
    | with_reducible assumption
    | (intro xS; refine keeps_gen (z := z) (x := xS) ?_ (fun _ => ?_); revert xS; dsimp only; rotate_left; clear_value xS)
    | (intro xS; refine keeps_gen_fst (z := z) (x := xS) ?_ (fun _ => ?_); revert xS; dsimp only; rotate_left; clear_value xS)
    | intro _
    | lift_lets
    | with_reducible apply bulkPump_keeps
    | with_reducible apply setBulk_keeps
    | with_reducible exact Keeps.refl _
    | simp only [keeps_mk_eq]
    | split
    | dsimp only

theorem sinkCredit_keeps {z : State} (s : State) (k q : Nat) (hK : Keeps z s) : Keeps z (sinkCredit s k q) := by
  unfold sinkCredit
  repeat' first
    | with_reducible assumption
    | (intro xS; refine keeps_gen (z := z) (x := xS) ?_ (fun _ => ?_); revert xS; dsimp only; rotate_left; clear_value xS)
    | (intro xS; refine keeps_gen_fst (z := z) (x := xS) ?_ (fun _ => ?_); revert xS; dsimp only; rotate_left; clear_value xS)
    | intro _
    | lift_lets
    | with_reducible apply sinkSend_keeps
    | with_reducible apply setBulk_keeps
    | with_reducible exact Keeps.refl _
    | simp only [keeps_mk_eq]
    | split
    | dsimp only

theorem objBegin_keeps {z : State} (s : State) (i : Nat) (hK : Keeps z s) : Keeps z (objBegin s i) := by
  unfold objBegin
  repeat' first
    | with_reducible assumption
    | (intro xS; refine keeps_gen (z := z) (x := xS) ?_ (fun _ => ?_); revert xS; dsimp only; rotate_left; clear_value xS)
    | (intro xS; refine keeps_gen_fst (z := z) (x := xS) ?_ (fun _ => ?_); revert xS; dsimp only; rotate_left; clear_value xS)
    | intro _
    | lift_lets
    | with_reducible apply bulkQueue_keeps
    | with_reducible apply sinkCredit_keeps
    | with_reducible exact Keeps.refl _
    | simp only [keeps_mk_eq]
    | split
    | dsimp only

theorem objsBegin_keeps {z : State} (s : State) (hK : Keeps z s) : Keeps z (objsBegin s) := by
  unfold objsBegin
  repeat' first
    | with_reducible assumption
    | intro _
    | with_reducible apply objBegin_keeps
    | with_reducible exact Keeps.refl _
    | with_reducible refine keeps_foldl (fun _ _ _ => ?_) _ ?_
    | with_reducible refine keeps_foldl_fst (fun _ _ _ => ?_) _ ?_
    | split
    | dsimp only

theorem addObjs_keeps {z : State} (s : State) (l : List BulkObj) (hK : Keeps z s) : Keeps z (addObjs s l) := by
  unfold addObjs
  repeat' first
    | with_reducible assumption
    | (intro xS; refine keeps_gen (z := z) (x := xS) ?_ (fun _ => ?_); revert xS; dsimp only; rotate_left; clear_value xS)
    | (intro xS; refine keeps_gen_fst (z := z) (x := xS) ?_ (fun _ => ?_); revert xS; dsimp only; rotate_left; clear_value xS)
    | intro _
    | lift_lets
    | with_reducible apply objsBegin_keeps
    | with_reducible exact Keeps.refl _
    | simp only [keeps_mk_eq]
    | split
    | dsimp only

theorem bulkOpen_keeps {z : State} (s : State) (job k : Nat) (e : SinkEnt) (hK : Keeps z s) : Keeps z (bulkOpen s job k e) := by
  unfold bulkOpen
  repeat' first
    | with_reducible assumption
    | (intro xS; refine keeps_gen (z := z) (x := xS) ?_ (fun _ => ?_); revert xS; dsimp only; rotate_left; clear_value xS)
    | (intro xS; refine keeps_gen_fst (z := z) (x := xS) ?_ (fun _ => ?_); revert xS; dsimp only; rotate_left; clear_value xS)
    | intro _
    | lift_lets
    | with_reducible apply sinkSend_keeps
    | with_reducible exact Keeps.refl _
    | simp only [keeps_mk_eq]
    | split
    | dsimp only

theorem bulkEnd_keeps {z : State} (s : State) (hK : Keeps z s) : Keeps z (bulkEnd s) := by
  unfold bulkEnd
  repeat' first
    | with_reducible assumption
    | (intro xS; refine keeps_gen (z := z) (x := xS) ?_ (fun _ => ?_); revert xS; dsimp only; rotate_left; clear_value xS)
    | (intro xS; refine keeps_gen_fst (z := z) (x := xS) ?_ (fun _ => ?_); revert xS; dsimp only; rotate_left; clear_value xS)
    | intro _
    | lift_lets
    | with_reducible exact Keeps.refl _
    | simp only [keeps_mk_eq]
    | split
    | dsimp only

theorem objsAcked_keeps {z : State} (s : State) (k : Nat) (fs : List CwtFrame) (hK : Keeps z s) : Keeps z (objsAcked s k fs) := by
  unfold objsAcked
  repeat' first
    | with_reducible assumption
    | (intro xS; refine keeps_gen (z := z) (x := xS) ?_ (fun _ => ?_); revert xS; dsimp only; rotate_left; clear_value xS)
    | (intro xS; refine keeps_gen_fst (z := z) (x := xS) ?_ (fun _ => ?_); revert xS; dsimp only; rotate_left; clear_value xS)
    | intro _
    | lift_lets
    | with_reducible exact Keeps.refl _
    | simp only [keeps_mk_eq]
    | split
    | dsimp only

theorem sinkSeen_keeps {z : State} (s : State) (k : Nat) (f : CwtFrame) (hK : Keeps z s) : Keeps z (sinkSeen s k f) := by
  unfold sinkSeen
  repeat' first
    | with_reducible assumption
    | (intro xS; refine keeps_gen (z := z) (x := xS) ?_ (fun _ => ?_); revert xS; dsimp only; rotate_left; clear_value xS)
    | (intro xS; refine keeps_gen_fst (z := z) (x := xS) ?_ (fun _ => ?_); revert xS; dsimp only; rotate_left; clear_value xS)
    | intro _
    | lift_lets
    | with_reducible apply objsAcked_keeps
    | with_reducible apply setBulk_keeps
    | with_reducible exact Keeps.refl _
    | simp only [keeps_mk_eq]
    | split
    | dsimp only

theorem sinkRx_keeps {z : State} (ty port : Nat) (p : CwtPeer) (f : CwtFrame) (act : Nat → State → State) (s : State) (hact : ∀ a0 t, Keeps z t → Keeps z (act a0 t)) (hK : Keeps z s) : Keeps z (sinkRx ty port p f act s) := by
  unfold sinkRx
  repeat' first
    | with_reducible assumption
    | (intro xS; refine keeps_gen (z := z) (x := xS) ?_ (fun _ => ?_); revert xS; dsimp only; rotate_left; clear_value xS)
    | (intro xS; refine keeps_gen_fst (z := z) (x := xS) ?_ (fun _ => ?_); revert xS; dsimp only; rotate_left; clear_value xS)
    | intro _
    | lift_lets
    | with_reducible apply hact
    | with_reducible apply sinkSeen_keeps
    | with_reducible apply sinkSend_keeps
    | with_reducible apply cnt_keeps
    | with_reducible apply setBulk_keeps
    | with_reducible apply bufIn_keeps
    | with_reducible exact Keeps.refl _
    | simp only [keeps_mk_eq]
    | split
    | dsimp only

theorem resendHost_keeps {z : State} (s : State) (q from_ : Nat) (hK : Keeps z s) : Keeps z (resendHost s q from_) := by
  unfold resendHost
  repeat' first
    | with_reducible assumption
    | (intro xS; refine keeps_gen (z := z) (x := xS) ?_ (fun _ => ?_); revert xS; dsimp only; rotate_left; clear_value xS)
    | (intro xS; refine keeps_gen_fst (z := z) (x := xS) ?_ (fun _ => ?_); revert xS; dsimp only; rotate_left; clear_value xS)
    | intro _
    | lift_lets
    | with_reducible apply netOut_keeps
    | with_reducible exact Keeps.refl _
    | with_reducible refine keeps_foldl (fun _ _ _ => ?_) _ ?_
    | with_reducible refine keeps_foldl_fst (fun _ _ _ => ?_) _ ?_
    | simp only [keeps_mk_eq]
    | split
    | dsimp only

theorem resendSink_keeps {z : State} (s : State) (k q from_ : Nat) (hK : Keeps z s) : Keeps z (resendSink s k q from_) := by
  unfold resendSink
  repeat' first
    | with_reducible assumption
    | (intro xS; refine keeps_gen (z := z) (x := xS) ?_ (fun _ => ?_); revert xS; dsimp only; rotate_left; clear_value xS)
    | (intro xS; refine keeps_gen_fst (z := z) (x := xS) ?_ (fun _ => ?_); revert xS; dsimp only; rotate_left; clear_value xS)
    | intro _
    | lift_lets
    | with_reducible apply netOut_keeps
    | with_reducible exact Keeps.refl _
    | with_reducible refine keeps_foldl (fun _ _ _ => ?_) _ ?_
    | with_reducible refine keeps_foldl_fst (fun _ _ _ => ?_) _ ?_
    | simp only [keeps_mk_eq]
    | split
    | dsimp only

theorem sessLost_keeps {z : State} (s : State) (cause : Nat) (hK : Keeps z s) : Keeps z (sessLost s cause) := by
  unfold sessLost
  repeat' first
    | with_reducible assumption
    | (intro xS; refine keeps_gen (z := z) (x := xS) ?_ (fun _ => ?_); revert xS; dsimp only; rotate_left; clear_value xS)
    | (intro xS; refine keeps_gen_fst (z := z) (x := xS) ?_ (fun _ => ?_); revert xS; dsimp only; rotate_left; clear_value xS)
    | intro _
    | lift_lets
    | with_reducible apply setFld_keeps
    | with_reducible apply raise_keeps
    | with_reducible exact Keeps.refl _
    | simp only [keeps_mk_eq]
    | split
    | dsimp only

end Sys2Proof.Machine
end

