-- ==== Sys2Proof/Laws/KeepsLinkRx.lean ====
section
/-! SUPPORT. What the operations of LinkRx keep. -/
namespace Sys2Proof.Machine

theorem setBadLane_keeps {z : State} (s : State) (l lane : Nat) (bad : Bool) (hK : Keeps z s) : Keeps z (setBadLane s l lane bad) := by
  unfold setBadLane
  repeat' first
    | with_reducible assumption
    | intro _
    | with_reducible apply setFld_keeps
    | with_reducible exact Keeps.refl _
    | split
    | dsimp only

theorem showLanes_keeps {z : State} (s : State) (l : Nat) (hK : Keeps z s) : Keeps z (showLanes s l) := by
  unfold showLanes
  repeat' first
    | with_reducible assumption
    | (intro xS; refine keeps_gen (z := z) (x := xS) ?_ (fun _ => ?_); revert xS; dsimp only; rotate_left; clear_value xS)
    | (intro xS; refine keeps_gen_fst (z := z) (x := xS) ?_ (fun _ => ?_); revert xS; dsimp only; rotate_left; clear_value xS)
    | intro _
    | lift_lets
    | with_reducible apply setFld_keeps
    | with_reducible exact Keeps.refl _
    | split
    | dsimp only

theorem linkDegraded_keeps {z : State} (s : State) (l a : Nat) (hK : Keeps z s) : Keeps z (linkDegraded s l a) := by
  unfold linkDegraded
  repeat' first
    | with_reducible assumption
    | intro _
    | with_reducible apply health_keeps
    | with_reducible apply raise_keeps
    | with_reducible apply setFld_keeps
    | with_reducible exact Keeps.refl _
    | split
    | dsimp only

theorem identCheck_keeps {z : State} (s : State) (l : Nat) (hK : Keeps z s) : Keeps z (identCheck s l) := by
  unfold identCheck
  repeat' first
    | with_reducible assumption
    | (intro xS; refine keeps_gen (z := z) (x := xS) ?_ (fun _ => ?_); revert xS; dsimp only; rotate_left; clear_value xS)
    | (intro xS; refine keeps_gen_fst (z := z) (x := xS) ?_ (fun _ => ?_); revert xS; dsimp only; rotate_left; clear_value xS)
    | intro _
    | lift_lets
    | with_reducible apply pump_keeps
    | with_reducible apply setFld_keeps
    | with_reducible apply setLinkSt_keeps
    | with_reducible apply setLink_keeps
    | with_reducible apply raise_keeps
    | with_reducible exact Keeps.refl _
    | simp only [keeps_mk_eq]
    | split
    | dsimp only

theorem linkTmOff_keeps {z : State} (s : State) (l : Nat) (hK : Keeps z s) : Keeps z (linkTmOff s l) := by
  unfold linkTmOff
  repeat' first
    | with_reducible assumption
    | intro _
    | with_reducible apply tmOff_keeps
    | with_reducible exact Keeps.refl _
    | split
    | dsimp only

theorem trainReset_keeps {z : State} (s : State) (l phase : Nat) (hK : Keeps z s) : Keeps z (trainReset s l phase) := by
  unfold trainReset
  repeat' first
    | with_reducible assumption
    | (intro xS; refine keeps_gen (z := z) (x := xS) ?_ (fun _ => ?_); revert xS; dsimp only; rotate_left; clear_value xS)
    | (intro xS; refine keeps_gen_fst (z := z) (x := xS) ?_ (fun _ => ?_); revert xS; dsimp only; rotate_left; clear_value xS)
    | intro _
    | lift_lets
    | with_reducible apply setLinkSt_keeps
    | with_reducible apply linkTmOff_keeps
    | with_reducible apply setLink_keeps
    | with_reducible exact Keeps.refl _
    | simp only [keeps_mk_eq]
    | split
    | dsimp only

theorem trainStart_keeps {z : State} (s : State) (l : Nat) (hK : Keeps z s) : Keeps z (trainStart s l) := by
  unfold trainStart
  repeat' first
    | with_reducible assumption
    | intro _
    | with_reducible apply sendCtrl_keeps
    | with_reducible apply tmArm_keeps
    | with_reducible apply trainReset_keeps
    | with_reducible exact Keeps.refl _
    | split
    | dsimp only

theorem opLinkLightDetect_keeps {z : State} (l : Nat) (s : State) (hK : Keeps z s) : Keeps z (opLinkLightDetect l s) := by
  unfold opLinkLightDetect
  repeat' first
    | with_reducible assumption
    | intro _
    | with_reducible apply trainStart_keeps
    | with_reducible exact Keeps.refl _
    | split
    | dsimp only

theorem execLinkLightDetect_keeps {z : State} (l : Fin 6) (s : State) (hK : Keeps z s) : ∀ t', execLinkLightDetect l s = .next t' → Keeps z t' := by
  unfold execLinkLightDetect
  repeat' first
    | with_reducible (refine (run_keeps ?_ : ∀ t, _ = Host.Outcome.next t → Keeps _ t))
    | with_reducible assumption
    | intro _
    | with_reducible apply opLinkLightDetect_keeps
    | with_reducible exact Keeps.refl _
    | split
    | dsimp only

theorem opLinkTrainTimeout_keeps {z : State} (l : Nat) (s : State) (hK : Keeps z s) : Keeps z (opLinkTrainTimeout l s) := by
  unfold opLinkTrainTimeout
  repeat' first
    | with_reducible assumption
    | (intro xS; refine keeps_gen (z := z) (x := xS) ?_ (fun _ => ?_); revert xS; dsimp only; rotate_left; clear_value xS)
    | (intro xS; refine keeps_gen_fst (z := z) (x := xS) ?_ (fun _ => ?_); revert xS; dsimp only; rotate_left; clear_value xS)
    | intro _
    | lift_lets
    | with_reducible apply trainReset_keeps
    | with_reducible apply setLink_keeps
    | with_reducible exact Keeps.refl _
    | simp only [keeps_mk_eq]
    | split
    | dsimp only

theorem execLinkTrainTimeout_keeps {z : State} (l : Fin 6) (s : State) (hK : Keeps z s) : ∀ t', execLinkTrainTimeout l s = .next t' → Keeps z t' := by
  unfold execLinkTrainTimeout
  repeat' first
    | with_reducible (refine (run_keeps ?_ : ∀ t, _ = Host.Outcome.next t → Keeps _ t))
    | with_reducible assumption
    | intro _
    | with_reducible apply opLinkTrainTimeout_keeps
    | with_reducible exact Keeps.refl _
    | split
    | dsimp only

theorem linkWaitLight_keeps {z : State} (s : State) (l : Nat) (hK : Keeps z s) : Keeps z (linkWaitLight s l) := by
  unfold linkWaitLight
  repeat' first
    | with_reducible assumption
    | (intro xS; refine keeps_gen (z := z) (x := xS) ?_ (fun _ => ?_); revert xS; dsimp only; rotate_left; clear_value xS)
    | (intro xS; refine keeps_gen_fst (z := z) (x := xS) ?_ (fun _ => ?_); revert xS; dsimp only; rotate_left; clear_value xS)
    | intro _
    | lift_lets
    | with_reducible apply setLinkSt_keeps
    | with_reducible apply setLink_keeps
    | with_reducible exact Keeps.refl _
    | simp only [keeps_mk_eq]
    | split
    | dsimp only

theorem linkDark_keeps {z : State} (s : State) (l : Nat) (hK : Keeps z s) : Keeps z (linkDark s l) := by
  unfold linkDark
  repeat' first
    | with_reducible assumption
    | (intro xS; refine keeps_gen (z := z) (x := xS) ?_ (fun _ => ?_); revert xS; dsimp only; rotate_left; clear_value xS)
    | (intro xS; refine keeps_gen_fst (z := z) (x := xS) ?_ (fun _ => ?_); revert xS; dsimp only; rotate_left; clear_value xS)
    | intro _
    | lift_lets
    | with_reducible apply setLink_keeps
    | with_reducible apply setLinkSt_keeps
    | with_reducible apply linkTmOff_keeps
    | with_reducible exact Keeps.refl _
    | simp only [keeps_mk_eq]
    | split
    | dsimp only

theorem linkRetrain_keeps {z : State} (s : State) (l : Nat) (hK : Keeps z s) : Keeps z (linkRetrain s l) := by
  unfold linkRetrain
  repeat' first
    | with_reducible assumption
    | intro _
    | with_reducible apply trainReset_keeps
    | with_reducible exact Keeps.refl _
    | split
    | dsimp only

theorem opLinkUp_keeps {z : State} (l : Nat) (rxDone : List (Nat × Nat)) (txGood : Nat) (s : State) (hK : Keeps z s) : Keeps z (opLinkUp l rxDone txGood s) := by
  unfold opLinkUp
  repeat' first
    | with_reducible assumption
    | (intro xS; refine keeps_gen (z := z) (x := xS) ?_ (fun _ => ?_); revert xS; dsimp only; rotate_left; clear_value xS)
    | (intro xS; refine keeps_gen_fst (z := z) (x := xS) ?_ (fun _ => ?_); revert xS; dsimp only; rotate_left; clear_value xS)
    | intro _
    | lift_lets
    | with_reducible apply setLink_keeps
    | with_reducible apply setBadLane_keeps
    | with_reducible apply tmOff_keeps
    | with_reducible apply setFld_keeps
    | with_reducible apply setLinkSt_keeps
    | with_reducible apply showLanes_keeps
    | with_reducible apply tmArm_keeps
    | with_reducible apply pump_keeps
    | with_reducible apply linkDegraded_keeps
    | with_reducible exact Keeps.refl _
    | with_reducible refine keeps_foldl (fun _ _ _ => ?_) _ ?_
    | with_reducible refine keeps_foldl_fst (fun _ _ _ => ?_) _ ?_
    | simp only [keeps_mk_eq]
    | split
    | dsimp only

theorem execLinkUp_keeps {z : State} (l : Fin 6) (rxDone : List (Nat × Nat)) (txGood : BitVec 72) (s : State) (hK : Keeps z s) : ∀ t', execLinkUp l rxDone txGood s = .next t' → Keeps z t' := by
  unfold execLinkUp
  repeat' first
    | with_reducible (refine (run_keeps ?_ : ∀ t, _ = Host.Outcome.next t → Keeps _ t))
    | with_reducible assumption
    | intro _
    | with_reducible apply opLinkUp_keeps
    | with_reducible exact Keeps.refl _
    | split
    | dsimp only

theorem linkLose_keeps {z : State} (s : State) (l : Nat) (hK : Keeps z s) : Keeps z (linkLose s l) := by
  unfold linkLose
  repeat' first
    | with_reducible assumption
    | (intro xS; refine keeps_gen (z := z) (x := xS) ?_ (fun _ => ?_); revert xS; dsimp only; rotate_left; clear_value xS)
    | (intro xS; refine keeps_gen_fst (z := z) (x := xS) ?_ (fun _ => ?_); revert xS; dsimp only; rotate_left; clear_value xS)
    | intro _
    | lift_lets
    | with_reducible apply setLink_keeps
    | with_reducible apply setFld_keeps
    | with_reducible apply setLinkSt_keeps
    | with_reducible apply linkTmOff_keeps
    | with_reducible apply health_keeps
    | with_reducible apply raise_keeps
    | with_reducible exact Keeps.refl _
    | simp only [keeps_mk_eq]
    | split
    | dsimp only

theorem opLinkLost_keeps {z : State} (l : Nat) (dark : Bool) (s : State) (hK : Keeps z s) : Keeps z (opLinkLost l dark s) := by
  unfold opLinkLost
  repeat' first
    | with_reducible assumption
    | (intro xS; refine keeps_gen (z := z) (x := xS) ?_ (fun _ => ?_); revert xS; dsimp only; rotate_left; clear_value xS)
    | (intro xS; refine keeps_gen_fst (z := z) (x := xS) ?_ (fun _ => ?_); revert xS; dsimp only; rotate_left; clear_value xS)
    | intro _
    | lift_lets
    | with_reducible apply linkLose_keeps
    | with_reducible exact Keeps.refl _
    | split
    | dsimp only

theorem execLinkLost_keeps {z : State} (l : Fin 6) (dark : Bool) (s : State) (hK : Keeps z s) : ∀ t', execLinkLost l dark s = .next t' → Keeps z t' := by
  unfold execLinkLost
  repeat' first
    | with_reducible (refine (run_keeps ?_ : ∀ t, _ = Host.Outcome.next t → Keeps _ t))
    | with_reducible assumption
    | intro _
    | with_reducible apply opLinkLost_keeps
    | with_reducible exact Keeps.refl _
    | split
    | dsimp only

theorem detourServes_keeps {z : State} (s : State) (l : Nat) (hK : Keeps z s) : Keeps z (detourServes s l) := by
  unfold detourServes
  repeat' first
    | with_reducible assumption
    | intro _
    | with_reducible apply raise_keeps
    | with_reducible apply setFld_keeps
    | with_reducible exact Keeps.refl _
    | split
    | dsimp only

theorem opLinkDetour_keeps {z : State} (l : Nat) (s : State) (hK : Keeps z s) : Keeps z (opLinkDetour l s) := by
  unfold opLinkDetour
  repeat' first
    | with_reducible assumption
    | (intro xS; refine keeps_gen (z := z) (x := xS) ?_ (fun _ => ?_); revert xS; dsimp only; rotate_left; clear_value xS)
    | (intro xS; refine keeps_gen_fst (z := z) (x := xS) ?_ (fun _ => ?_); revert xS; dsimp only; rotate_left; clear_value xS)
    | intro _
    | lift_lets
    | with_reducible apply sendHop_keeps
    | with_reducible apply detourServes_keeps
    | with_reducible apply setLink_keeps
    | with_reducible exact Keeps.refl _
    | with_reducible refine keeps_foldl (fun _ _ _ => ?_) _ ?_
    | with_reducible refine keeps_foldl_fst (fun _ _ _ => ?_) _ ?_
    | simp only [keeps_mk_eq]
    | split
    | dsimp only

theorem execLinkDetour_keeps {z : State} (l : Fin 6) (s : State) (hK : Keeps z s) : ∀ t', execLinkDetour l s = .next t' → Keeps z t' := by
  unfold execLinkDetour
  repeat' first
    | with_reducible (refine (run_keeps ?_ : ∀ t, _ = Host.Outcome.next t → Keeps _ t))
    | with_reducible assumption
    | intro _
    | with_reducible apply opLinkDetour_keeps
    | with_reducible exact Keeps.refl _
    | split
    | dsimp only

theorem setCart_keeps {z : State} (s : State) (b : Nat) (c : Cart) (hK : Keeps z s) : Keeps z (setCart s b c) := by
  unfold setCart
  repeat' first
    | with_reducible assumption
    | (intro xS; refine keeps_gen (z := z) (x := xS) ?_ (fun _ => ?_); revert xS; dsimp only; rotate_left; clear_value xS)
    | (intro xS; refine keeps_gen_fst (z := z) (x := xS) ?_ (fun _ => ?_); revert xS; dsimp only; rotate_left; clear_value xS)
    | intro _
    | lift_lets
    | with_reducible exact Keeps.refl _
    | simp only [keeps_mk_eq]
    | split
    | dsimp only

theorem cartFull_keeps {z : State} (s : State) (b : Nat) (hK : Keeps z s) : Keeps z (cartFull s b) := by
  unfold cartFull
  repeat' first
    | with_reducible assumption
    | (intro xS; refine keeps_gen (z := z) (x := xS) ?_ (fun _ => ?_); revert xS; dsimp only; rotate_left; clear_value xS)
    | (intro xS; refine keeps_gen_fst (z := z) (x := xS) ?_ (fun _ => ?_); revert xS; dsimp only; rotate_left; clear_value xS)
    | intro _
    | lift_lets
    | with_reducible exact Keeps.refl _
    | simp only [keeps_mk_eq]
    | split
    | dsimp only

theorem cartEvent_keeps {z : State} (s : State) (hK : Keeps z s) : Keeps z (cartEvent s) := by
  unfold cartEvent
  repeat' first
    | with_reducible assumption
    | intro _
    | with_reducible apply raise_keeps
    | with_reducible exact Keeps.refl _
    | split
    | dsimp only

theorem opLaserCartInsert_keeps {z : State} (b : Nat) (s : State) (hK : Keeps z s) : Keeps z (opLaserCartInsert b s) := by
  unfold opLaserCartInsert
  repeat' first
    | with_reducible assumption
    | (intro xS; refine keeps_gen (z := z) (x := xS) ?_ (fun _ => ?_); revert xS; dsimp only; rotate_left; clear_value xS)
    | (intro xS; refine keeps_gen_fst (z := z) (x := xS) ?_ (fun _ => ?_); revert xS; dsimp only; rotate_left; clear_value xS)
    | intro _
    | lift_lets
    | with_reducible apply cartEvent_keeps
    | with_reducible apply setCart_keeps
    | with_reducible apply cartFull_keeps
    | with_reducible exact Keeps.refl _
    | split
    | dsimp only

theorem execLaserCartInsert_keeps {z : State} (b : Fin 2) (s : State) (hK : Keeps z s) : ∀ t', execLaserCartInsert b s = .next t' → Keeps z t' := by
  unfold execLaserCartInsert
  repeat' first
    | with_reducible (refine (run_keeps ?_ : ∀ t, _ = Host.Outcome.next t → Keeps _ t))
    | with_reducible assumption
    | intro _
    | with_reducible apply opLaserCartInsert_keeps
    | with_reducible exact Keeps.refl _
    | split
    | dsimp only

theorem opLaserCartRemove_keeps {z : State} (b : Nat) (failed : Bool) (s : State) (hK : Keeps z s) : Keeps z (opLaserCartRemove b failed s) := by
  unfold opLaserCartRemove
  repeat' first
    | with_reducible assumption
    | (intro xS; refine keeps_gen (z := z) (x := xS) ?_ (fun _ => ?_); revert xS; dsimp only; rotate_left; clear_value xS)
    | (intro xS; refine keeps_gen_fst (z := z) (x := xS) ?_ (fun _ => ?_); revert xS; dsimp only; rotate_left; clear_value xS)
    | intro _
    | lift_lets
    | with_reducible apply cartEvent_keeps
    | with_reducible apply setCart_keeps
    | with_reducible apply cartFull_keeps
    | with_reducible apply health_keeps
    | with_reducible apply linkLose_keeps
    | with_reducible exact Keeps.refl _
    | with_reducible refine keeps_foldl (fun _ _ _ => ?_) _ ?_
    | with_reducible refine keeps_foldl_fst (fun _ _ _ => ?_) _ ?_
    | simp only [keeps_mk_eq]
    | split
    | dsimp only

theorem execLaserCartRemove_keeps {z : State} (b : Fin 2) (failed : Bool) (s : State) (hK : Keeps z s) : ∀ t', execLaserCartRemove b failed s = .next t' → Keeps z t' := by
  unfold execLaserCartRemove
  repeat' first
    | with_reducible (refine (run_keeps ?_ : ∀ t, _ = Host.Outcome.next t → Keeps _ t))
    | with_reducible assumption
    | intro _
    | with_reducible apply opLaserCartRemove_keeps
    | with_reducible exact Keeps.refl _
    | split
    | dsimp only

theorem opLaserShare_keeps {z : State} (s : State) (hK : Keeps z s) : Keeps z (opLaserShare s) := by
  unfold opLaserShare
  repeat' first
    | with_reducible assumption
    | (intro xS; refine keeps_gen (z := z) (x := xS) ?_ (fun _ => ?_); revert xS; dsimp only; rotate_left; clear_value xS)
    | (intro xS; refine keeps_gen_fst (z := z) (x := xS) ?_ (fun _ => ?_); revert xS; dsimp only; rotate_left; clear_value xS)
    | intro _
    | lift_lets
    | with_reducible exact Keeps.refl _
    | simp only [keeps_mk_eq]
    | split
    | dsimp only

theorem execLaserShare_keeps {z : State} (s : State) (hK : Keeps z s) : ∀ t', execLaserShare s = .next t' → Keeps z t' := by
  unfold execLaserShare
  repeat' first
    | with_reducible (refine (run_keeps ?_ : ∀ t, _ = Host.Outcome.next t → Keeps _ t))
    | with_reducible assumption
    | intro _
    | with_reducible apply opLaserShare_keeps
    | with_reducible exact Keeps.refl _
    | split
    | dsimp only

theorem ackFree_keeps {z : State} (s : State) (l ack : Nat) (hK : Keeps z s) : Keeps z (ackFree s l ack) := by
  unfold ackFree
  repeat' first
    | with_reducible assumption
    | (intro xS; refine keeps_gen (z := z) (x := xS) ?_ (fun _ => ?_); revert xS; dsimp only; rotate_left; clear_value xS)
    | (intro xS; refine keeps_gen_fst (z := z) (x := xS) ?_ (fun _ => ?_); revert xS; dsimp only; rotate_left; clear_value xS)
    | intro _
    | lift_lets
    | with_reducible apply setLink_keeps
    | with_reducible exact Keeps.refl _
    | simp only [keeps_mk_eq]
    | split
    | dsimp only

theorem ackTake_keeps {z : State} (s : State) (l ack : Nat) (hK : Keeps z s) : Keeps z (ackTake s l ack) := by
  unfold ackTake
  repeat' first
    | with_reducible assumption
    | intro _
    | with_reducible apply pump_keeps
    | with_reducible apply ackFree_keeps
    | with_reducible exact Keeps.refl _
    | split
    | dsimp only

theorem sendNak_keeps {z : State} (s : State) (l : Nat) (hK : Keeps z s) : Keeps z (sendNak s l) := by
  unfold sendNak
  repeat' first
    | with_reducible assumption
    | (intro xS; refine keeps_gen (z := z) (x := xS) ?_ (fun _ => ?_); revert xS; dsimp only; rotate_left; clear_value xS)
    | (intro xS; refine keeps_gen_fst (z := z) (x := xS) ?_ (fun _ => ?_); revert xS; dsimp only; rotate_left; clear_value xS)
    | intro _
    | lift_lets
    | with_reducible apply sendBare_keeps
    | with_reducible apply setLink_keeps
    | with_reducible exact Keeps.refl _
    | simp only [keeps_mk_eq]
    | split
    | dsimp only

theorem giveBack_keeps {z : State} (s : State) (l : Nat) (f : Frame) (hK : Keeps z s) : Keeps z (giveBack s l f) := by
  unfold giveBack
  repeat' first
    | with_reducible assumption
    | intro _
    | with_reducible apply sendCtrl_keeps
    | with_reducible exact Keeps.refl _
    | split
    | dsimp only

theorem frameIn_keeps {z : State} (s : State) (l : Nat) (bytes : List Byte) (hK : Keeps z s) : Keeps z (frameIn s l bytes) := by
  unfold frameIn
  repeat' first
    | with_reducible assumption
    | (intro xS; refine keeps_gen (z := z) (x := xS) ?_ (fun _ => ?_); revert xS; dsimp only; rotate_left; clear_value xS)
    | (intro xS; refine keeps_gen_fst (z := z) (x := xS) ?_ (fun _ => ?_); revert xS; dsimp only; rotate_left; clear_value xS)
    | intro _
    | lift_lets
    | with_reducible apply setLink_keeps
    | with_reducible apply giveBack_keeps
    | with_reducible apply dropAt_keeps
    | with_reducible exact Keeps.refl _
    | simp only [keeps_mk_eq]
    | split
    | dsimp only

theorem dataBody_keeps {z : State} (s : State) (l : Nat) (body : List Byte) (hK : Keeps z s) : Keeps z (dataBody s l body) := by
  unfold dataBody
  repeat' first
    | with_reducible assumption
    | (intro xS; refine keeps_gen (z := z) (x := xS) ?_ (fun _ => ?_); revert xS; dsimp only; rotate_left; clear_value xS)
    | (intro xS; refine keeps_gen_fst (z := z) (x := xS) ?_ (fun _ => ?_); revert xS; dsimp only; rotate_left; clear_value xS)
    | intro _
    | lift_lets
    | with_reducible apply frameIn_keeps
    | with_reducible apply setLink_keeps
    | with_reducible exact Keeps.refl _
    | simp only [keeps_mk_eq]
    | split
    | dsimp only

theorem goBack_keeps {z : State} (s : State) (l from_ : Nat) (hK : Keeps z s) : Keeps z (goBack s l from_) := by
  unfold goBack
  repeat' first
    | with_reducible assumption
    | (intro xS; refine keeps_gen (z := z) (x := xS) ?_ (fun _ => ?_); revert xS; dsimp only; rotate_left; clear_value xS)
    | (intro xS; refine keeps_gen_fst (z := z) (x := xS) ?_ (fun _ => ?_); revert xS; dsimp only; rotate_left; clear_value xS)
    | intro _
    | lift_lets
    | with_reducible apply cnt_keeps
    | with_reducible apply putLanes_keeps
    | with_reducible apply setLink_keeps
    | with_reducible exact Keeps.refl _
    | simp only [keeps_mk_eq]
    | split
    | dsimp only

theorem takeCredit_keeps {z : State} (s : State) (l : Nat) (b : List Byte) (hK : Keeps z s) : Keeps z (takeCredit s l b) := by
  unfold takeCredit
  repeat' first
    | with_reducible assumption
    | (intro xS; refine keeps_gen (z := z) (x := xS) ?_ (fun _ => ?_); revert xS; dsimp only; rotate_left; clear_value xS)
    | (intro xS; refine keeps_gen_fst (z := z) (x := xS) ?_ (fun _ => ?_); revert xS; dsimp only; rotate_left; clear_value xS)
    | intro _
    | lift_lets
    | with_reducible apply pump_keeps
    | with_reducible apply setLink_keeps
    | with_reducible exact Keeps.refl _
    | simp only [keeps_mk_eq]
    | split
    | dsimp only

theorem takeMove_keeps {z : State} (s : State) (l : Nat) (b : List Byte) (hK : Keeps z s) : Keeps z (takeMove s l b) := by
  unfold takeMove
  repeat' first
    | with_reducible assumption
    | (intro xS; refine keeps_gen (z := z) (x := xS) ?_ (fun _ => ?_); revert xS; dsimp only; rotate_left; clear_value xS)
    | (intro xS; refine keeps_gen_fst (z := z) (x := xS) ?_ (fun _ => ?_); revert xS; dsimp only; rotate_left; clear_value xS)
    | intro _
    | lift_lets
    | with_reducible apply setLink_keeps
    | with_reducible exact Keeps.refl _
    | simp only [keeps_mk_eq]
    | split
    | dsimp only

theorem takeIdent_keeps {z : State} (s : State) (l : Nat) (b : List Byte) (hK : Keeps z s) : Keeps z (takeIdent s l b) := by
  unfold takeIdent
  repeat' first
    | with_reducible assumption
    | (intro xS; refine keeps_gen (z := z) (x := xS) ?_ (fun _ => ?_); revert xS; dsimp only; rotate_left; clear_value xS)
    | (intro xS; refine keeps_gen_fst (z := z) (x := xS) ?_ (fun _ => ?_); revert xS; dsimp only; rotate_left; clear_value xS)
    | intro _
    | lift_lets
    | with_reducible apply setFld_keeps
    | with_reducible apply setReg_keeps
    | with_reducible apply identCheck_keeps
    | with_reducible apply setLink_keeps
    | with_reducible exact Keeps.refl _
    | simp only [keeps_mk_eq]
    | split
    | dsimp only

theorem ctrlBody_keeps {z : State} (s : State) (l : Nat) (b : List Byte) (hK : Keeps z s) : Keeps z (ctrlBody s l b) := by
  unfold ctrlBody
  repeat' first
    | with_reducible assumption
    | (intro xS; refine keeps_gen (z := z) (x := xS) ?_ (fun _ => ?_); revert xS; dsimp only; rotate_left; clear_value xS)
    | (intro xS; refine keeps_gen_fst (z := z) (x := xS) ?_ (fun _ => ?_); revert xS; dsimp only; rotate_left; clear_value xS)
    | intro _
    | lift_lets
    | with_reducible apply takeCredit_keeps
    | with_reducible apply takeIdent_keeps
    | with_reducible apply takeMove_keeps
    | with_reducible exact Keeps.refl _
    | split
    | dsimp only

theorem flitTake_keeps {z : State} (s : State) (l : Nat) (b : List Byte) (hK : Keeps z s) : Keeps z (flitTake s l b) := by
  unfold flitTake
  repeat' first
    | with_reducible assumption
    | (intro xS; refine keeps_gen (z := z) (x := xS) ?_ (fun _ => ?_); revert xS; dsimp only; rotate_left; clear_value xS)
    | (intro xS; refine keeps_gen_fst (z := z) (x := xS) ?_ (fun _ => ?_); revert xS; dsimp only; rotate_left; clear_value xS)
    | intro _
    | lift_lets
    | with_reducible apply cnt64_keeps
    | with_reducible apply pump_keeps
    | with_reducible apply goBack_keeps
    | with_reducible apply ackFree_keeps
    | with_reducible apply ackTake_keeps
    | with_reducible apply setLink_keeps
    | with_reducible apply dataBody_keeps
    | with_reducible apply ctrlBody_keeps
    | with_reducible exact Keeps.refl _
    | simp only [keeps_mk_eq]
    | split
    | dsimp only

theorem flitRx_keeps {z : State} (s : State) (l : Nat) (b rx : List Byte) (hK : Keeps z s) : Keeps z (flitRx s l b rx) := by
  unfold flitRx
  repeat' first
    | with_reducible assumption
    | (intro xS; refine keeps_gen (z := z) (x := xS) ?_ (fun _ => ?_); revert xS; dsimp only; rotate_left; clear_value xS)
    | (intro xS; refine keeps_gen_fst (z := z) (x := xS) ?_ (fun _ => ?_); revert xS; dsimp only; rotate_left; clear_value xS)
    | intro _
    | lift_lets
    | with_reducible apply sendNak_keeps
    | with_reducible apply cnt_keeps
    | with_reducible apply cnt64_keeps
    | with_reducible apply flitTake_keeps
    | with_reducible exact Keeps.refl _
    | simp only [keeps_mk_eq]
    | split
    | dsimp only

theorem flitRow_keeps {z : State} (l : Nat) (b rx : List Byte) (mine : Nat → Nat → Bool) (s : State) (hK : Keeps z s) : Keeps z (flitRow l b rx mine s) := by
  unfold flitRow
  repeat' first
    | with_reducible assumption
    | intro _
    | with_reducible apply flitRx_keeps
    | with_reducible exact Keeps.refl _
    | split
    | dsimp only

theorem execFlitDataRx_keeps {z : State} (l : Fin 6) (bytes rx check : List Byte) (s : State) (hK : Keeps z s) : ∀ t', execFlitDataRx l bytes rx check s = .next t' → Keeps z t' := by
  unfold execFlitDataRx
  repeat' first
    | with_reducible (refine (run_keeps ?_ : ∀ t, _ = Host.Outcome.next t → Keeps _ t))
    | with_reducible assumption
    | intro _
    | with_reducible apply flitRow_keeps
    | with_reducible exact Keeps.refl _
    | split
    | dsimp only

theorem execFlitIdleRx_keeps {z : State} (l : Fin 6) (bytes rx check : List Byte) (s : State) (hK : Keeps z s) : ∀ t', execFlitIdleRx l bytes rx check s = .next t' → Keeps z t' := by
  unfold execFlitIdleRx
  repeat' first
    | with_reducible (refine (run_keeps ?_ : ∀ t, _ = Host.Outcome.next t → Keeps _ t))
    | with_reducible assumption
    | intro _
    | with_reducible apply flitRow_keeps
    | with_reducible exact Keeps.refl _
    | split
    | dsimp only

theorem execFlitNakRx_keeps {z : State} (l : Fin 6) (bytes rx check : List Byte) (s : State) (hK : Keeps z s) : ∀ t', execFlitNakRx l bytes rx check s = .next t' → Keeps z t' := by
  unfold execFlitNakRx
  repeat' first
    | with_reducible (refine (run_keeps ?_ : ∀ t, _ = Host.Outcome.next t → Keeps _ t))
    | with_reducible assumption
    | intro _
    | with_reducible apply flitRow_keeps
    | with_reducible exact Keeps.refl _
    | split
    | dsimp only

theorem execCtrlCreditRx_keeps {z : State} (l : Fin 6) (bytes rx check : List Byte) (s : State) (hK : Keeps z s) : ∀ t', execCtrlCreditRx l bytes rx check s = .next t' → Keeps z t' := by
  unfold execCtrlCreditRx
  repeat' first
    | with_reducible (refine (run_keeps ?_ : ∀ t, _ = Host.Outcome.next t → Keeps _ t))
    | with_reducible assumption
    | intro _
    | with_reducible apply flitRow_keeps
    | with_reducible exact Keeps.refl _
    | split
    | dsimp only

theorem execCtrlSwapRx_keeps {z : State} (l : Fin 6) (bytes rx check : List Byte) (s : State) (hK : Keeps z s) : ∀ t', execCtrlSwapRx l bytes rx check s = .next t' → Keeps z t' := by
  unfold execCtrlSwapRx
  repeat' first
    | with_reducible (refine (run_keeps ?_ : ∀ t, _ = Host.Outcome.next t → Keeps _ t))
    | with_reducible assumption
    | intro _
    | with_reducible apply flitRow_keeps
    | with_reducible exact Keeps.refl _
    | split
    | dsimp only

theorem execCtrlIdentRx_keeps {z : State} (l : Fin 6) (bytes rx check : List Byte) (s : State) (hK : Keeps z s) : ∀ t', execCtrlIdentRx l bytes rx check s = .next t' → Keeps z t' := by
  unfold execCtrlIdentRx
  repeat' first
    | with_reducible (refine (run_keeps ?_ : ∀ t, _ = Host.Outcome.next t → Keeps _ t))
    | with_reducible assumption
    | intro _
    | with_reducible apply flitRow_keeps
    | with_reducible exact Keeps.refl _
    | split
    | dsimp only

theorem execCtrlDropRx_keeps {z : State} (l : Fin 6) (bytes rx check : List Byte) (s : State) (hK : Keeps z s) : ∀ t', execCtrlDropRx l bytes rx check s = .next t' → Keeps z t' := by
  unfold execCtrlDropRx
  repeat' first
    | with_reducible (refine (run_keeps ?_ : ∀ t, _ = Host.Outcome.next t → Keeps _ t))
    | with_reducible assumption
    | intro _
    | with_reducible apply flitRow_keeps
    | with_reducible exact Keeps.refl _
    | split
    | dsimp only

theorem laneMoved_keeps {z : State} (s : State) (l : Nat) (m : LaneMove) (rate : Nat) (hK : Keeps z s) : Keeps z (laneMoved s l m rate) := by
  unfold laneMoved
  repeat' first
    | with_reducible assumption
    | (intro xS; refine keeps_gen (z := z) (x := xS) ?_ (fun _ => ?_); revert xS; dsimp only; rotate_left; clear_value xS)
    | (intro xS; refine keeps_gen_fst (z := z) (x := xS) ?_ (fun _ => ?_); revert xS; dsimp only; rotate_left; clear_value xS)
    | intro _
    | lift_lets
    | with_reducible apply flicker_keeps
    | with_reducible apply cnt_keeps
    | with_reducible apply health_keeps
    | with_reducible apply raise_keeps
    | with_reducible apply linkDegraded_keeps
    | with_reducible exact Keeps.refl _
    | simp only [keeps_mk_eq]
    | split
    | dsimp only

theorem opLaneSwap_keeps {z : State} (l : Nat) (rx : Bool) (s : State) (hK : Keeps z s) : Keeps z (opLaneSwap l rx s) := by
  unfold opLaneSwap
  repeat' first
    | with_reducible assumption
    | (intro xS; refine keeps_gen (z := z) (x := xS) ?_ (fun _ => ?_); revert xS; dsimp only; rotate_left; clear_value xS)
    | (intro xS; refine keeps_gen_fst (z := z) (x := xS) ?_ (fun _ => ?_); revert xS; dsimp only; rotate_left; clear_value xS)
    | intro _
    | lift_lets
    | with_reducible apply laneMoved_keeps
    | with_reducible apply showLanes_keeps
    | with_reducible apply setLink_keeps
    | with_reducible exact Keeps.refl _
    | simp only [keeps_mk_eq]
    | split
    | dsimp only

theorem execLaneSwap_keeps {z : State} (l : Fin 6) (rx : Bool) (s : State) (hK : Keeps z s) : ∀ t', execLaneSwap l rx s = .next t' → Keeps z t' := by
  unfold execLaneSwap
  repeat' first
    | with_reducible (refine (run_keeps ?_ : ∀ t, _ = Host.Outcome.next t → Keeps _ t))
    | with_reducible assumption
    | intro _
    | with_reducible apply opLaneSwap_keeps
    | with_reducible exact Keeps.refl _
    | split
    | dsimp only

theorem laneFail_keeps {z : State} (l : Nat) (s : State) (lane : Nat) (hK : Keeps z s) : Keeps z (laneFail l s lane) := by
  unfold laneFail
  repeat' first
    | with_reducible assumption
    | (intro xS; refine keeps_gen (z := z) (x := xS) ?_ (fun _ => ?_); revert xS; dsimp only; rotate_left; clear_value xS)
    | (intro xS; refine keeps_gen_fst (z := z) (x := xS) ?_ (fun _ => ?_); revert xS; dsimp only; rotate_left; clear_value xS)
    | intro _
    | lift_lets
    | with_reducible apply setBadLane_keeps
    | with_reducible apply showLanes_keeps
    | with_reducible apply setLink_keeps
    | with_reducible apply sendCtrl_keeps
    | with_reducible exact Keeps.refl _
    | simp only [keeps_mk_eq]
    | split
    | dsimp only

theorem opLaneErrorWindow_keeps {z : State} (l : Nat) (syms : List (Nat × Nat)) (unc : List (Nat × Nat)) (dark : List Nat) (s : State) (hK : Keeps z s) : Keeps z (opLaneErrorWindow l syms unc dark s) := by
  unfold opLaneErrorWindow
  repeat' first
    | with_reducible assumption
    | (intro xS; refine keeps_gen (z := z) (x := xS) ?_ (fun _ => ?_); revert xS; dsimp only; rotate_left; clear_value xS)
    | (intro xS; refine keeps_gen_fst (z := z) (x := xS) ?_ (fun _ => ?_); revert xS; dsimp only; rotate_left; clear_value xS)
    | intro _
    | lift_lets
    | with_reducible apply laneFail_keeps
    | with_reducible apply tmArm_keeps
    | with_reducible exact Keeps.refl _
    | with_reducible refine keeps_foldl (fun _ _ _ => ?_) _ ?_
    | with_reducible refine keeps_foldl_fst (fun _ _ _ => ?_) _ ?_
    | split
    | dsimp only

theorem execLaneErrorWindow_keeps {z : State} (l : Fin 6) (syms unc : List (Nat × Nat)) (dark : List Nat) (s : State) (hK : Keeps z s) : ∀ t', execLaneErrorWindow l syms unc dark s = .next t' → Keeps z t' := by
  unfold execLaneErrorWindow
  repeat' first
    | with_reducible (refine (run_keeps ?_ : ∀ t, _ = Host.Outcome.next t → Keeps _ t))
    | with_reducible assumption
    | intro _
    | with_reducible apply opLaneErrorWindow_keeps
    | with_reducible exact Keeps.refl _
    | split
    | dsimp only

theorem opLaneRetrainTimer_keeps {z : State} (l : Nat) (pass : List Nat) (s : State) (hK : Keeps z s) : Keeps z (opLaneRetrainTimer l pass s) := by
  unfold opLaneRetrainTimer
  repeat' first
    | with_reducible assumption
    | (intro xS; refine keeps_gen (z := z) (x := xS) ?_ (fun _ => ?_); revert xS; dsimp only; rotate_left; clear_value xS)
    | (intro xS; refine keeps_gen_fst (z := z) (x := xS) ?_ (fun _ => ?_); revert xS; dsimp only; rotate_left; clear_value xS)
    | intro _
    | lift_lets
    | with_reducible apply tmArm_keeps
    | with_reducible apply showLanes_keeps
    | with_reducible apply setLink_keeps
    | with_reducible apply setBadLane_keeps
    | with_reducible exact Keeps.refl _
    | with_reducible refine keeps_foldl (fun _ _ _ => ?_) _ ?_
    | with_reducible refine keeps_foldl_fst (fun _ _ _ => ?_) _ ?_
    | simp only [keeps_mk_eq]
    | split
    | dsimp only

theorem execLaneRetrainTimer_keeps {z : State} (l : Fin 6) (pass : List Nat) (s : State) (hK : Keeps z s) : ∀ t', execLaneRetrainTimer l pass s = .next t' → Keeps z t' := by
  unfold execLaneRetrainTimer
  repeat' first
    | with_reducible (refine (run_keeps ?_ : ∀ t, _ = Host.Outcome.next t → Keeps _ t))
    | with_reducible assumption
    | intro _
    | with_reducible apply opLaneRetrainTimer_keeps
    | with_reducible exact Keeps.refl _
    | split
    | dsimp only

theorem opIdentTimer_keeps {z : State} (l : Nat) (s : State) (hK : Keeps z s) : Keeps z (opIdentTimer l s) := by
  unfold opIdentTimer
  repeat' first
    | with_reducible assumption
    | intro _
    | with_reducible apply sendCtrl_keeps
    | with_reducible apply tmArm_keeps
    | with_reducible exact Keeps.refl _
    | split
    | dsimp only

theorem execIdentTimer_keeps {z : State} (l : Fin 6) (s : State) (hK : Keeps z s) : ∀ t', execIdentTimer l s = .next t' → Keeps z t' := by
  unfold execIdentTimer
  repeat' first
    | with_reducible (refine (run_keeps ?_ : ∀ t, _ = Host.Outcome.next t → Keeps _ t))
    | with_reducible assumption
    | intro _
    | with_reducible apply opIdentTimer_keeps
    | with_reducible exact Keeps.refl _
    | split
    | dsimp only

theorem opAckStallTimeout_keeps {z : State} (l : Nat) (s : State) (hK : Keeps z s) : Keeps z (opAckStallTimeout l s) := by
  unfold opAckStallTimeout
  repeat' first
    | with_reducible assumption
    | (intro xS; refine keeps_gen (z := z) (x := xS) ?_ (fun _ => ?_); revert xS; dsimp only; rotate_left; clear_value xS)
    | (intro xS; refine keeps_gen_fst (z := z) (x := xS) ?_ (fun _ => ?_); revert xS; dsimp only; rotate_left; clear_value xS)
    | intro _
    | lift_lets
    | with_reducible apply goBack_keeps
    | with_reducible apply setLink_keeps
    | with_reducible exact Keeps.refl _
    | simp only [keeps_mk_eq]
    | split
    | dsimp only

theorem execAckStallTimeout_keeps {z : State} (l : Fin 6) (s : State) (hK : Keeps z s) : ∀ t', execAckStallTimeout l s = .next t' → Keeps z t' := by
  unfold execAckStallTimeout
  repeat' first
    | with_reducible (refine (run_keeps ?_ : ∀ t, _ = Host.Outcome.next t → Keeps _ t))
    | with_reducible assumption
    | intro _
    | with_reducible apply opAckStallTimeout_keeps
    | with_reducible exact Keeps.refl _
    | split
    | dsimp only

theorem lnkApplyWrite_keeps {z : State} (s : State) (l : Nat) (hK : Keeps z s) : Keeps z (lnkApplyWrite s l) := by
  unfold lnkApplyWrite
  repeat' first
    | with_reducible assumption
    | (intro xS; refine keeps_gen (z := z) (x := xS) ?_ (fun _ => ?_); revert xS; dsimp only; rotate_left; clear_value xS)
    | (intro xS; refine keeps_gen_fst (z := z) (x := xS) ?_ (fun _ => ?_); revert xS; dsimp only; rotate_left; clear_value xS)
    | intro _
    | lift_lets
    | with_reducible apply setLink_keeps
    | with_reducible apply detourServes_keeps
    | with_reducible apply identCheck_keeps
    | with_reducible exact Keeps.refl _
    | simp only [keeps_mk_eq]
    | split
    | dsimp only

theorem lnkEnableWrite_keeps {z : State} (s : State) (l : Nat) (hK : Keeps z s) : Keeps z (lnkEnableWrite s l) := by
  unfold lnkEnableWrite
  repeat' first
    | with_reducible assumption
    | (intro xS; refine keeps_gen (z := z) (x := xS) ?_ (fun _ => ?_); revert xS; dsimp only; rotate_left; clear_value xS)
    | (intro xS; refine keeps_gen_fst (z := z) (x := xS) ?_ (fun _ => ?_); revert xS; dsimp only; rotate_left; clear_value xS)
    | intro _
    | lift_lets
    | with_reducible apply setLinkSt_keeps
    | with_reducible apply setLink_keeps
    | with_reducible apply linkTmOff_keeps
    | with_reducible exact Keeps.refl _
    | simp only [keeps_mk_eq]
    | split
    | dsimp only

end Sys2Proof.Machine
end

