-- ==== Sys2Proof/Laws/KeepsDeliver.lean ====
section
/-! SUPPORT. What the operations of Deliver keep. -/
namespace Sys2Proof.Machine

theorem sendStatus_keeps {z : State} (s : State) (f : Frame) (code : Nat) (hK : Keeps z s) : Keeps z (sendStatus s f code) := by
  unfold sendStatus
  repeat' first
    | with_reducible assumption
    | intro _
    | with_reducible apply hubSend_keeps
    | with_reducible exact Keeps.refl _
    | split
    | dsimp only

theorem refuseFrame_keeps {z : State} (s : State) (f : Frame) (code : Nat) (ev : Ev) (hK : Keeps z s) : Keeps z (refuseFrame s f code ev) := by
  unfold refuseFrame
  repeat' first
    | with_reducible assumption
    | intro _
    | with_reducible apply sendStatus_keeps
    | with_reducible apply raise_keeps
    | with_reducible exact Keeps.refl _
    | split
    | dsimp only

theorem putWire_keeps {z : State} (s : State) (a ms : Nat) (r : RawBlk) (hK : Keeps z s) : Keeps z (putWire s a ms r) := by
  unfold putWire
  repeat' first
    | with_reducible assumption
    | (intro xS; refine keeps_gen (z := z) (x := xS) ?_ (fun _ => ?_); revert xS; dsimp only; rotate_left; clear_value xS)
    | (intro xS; refine keeps_gen_fst (z := z) (x := xS) ?_ (fun _ => ?_); revert xS; dsimp only; rotate_left; clear_value xS)
    | intro _
    | lift_lets
    | with_reducible apply wrBytes_keeps
    | with_reducible apply traffic_keeps
    | with_reducible apply memWr_keeps
    | with_reducible apply unpoison_keeps
    | with_reducible exact Keeps.refl _
    | split
    | dsimp only

theorem blockTake_keeps {z : State} (s : State) (f : Frame) (hK : Keeps z s) : Keeps z (blockTake s f) := by
  unfold blockTake
  repeat' first
    | with_reducible assumption
    | (intro xS; refine keeps_gen (z := z) (x := xS) ?_ (fun _ => ?_); revert xS; dsimp only; rotate_left; clear_value xS)
    | (intro xS; refine keeps_gen_fst (z := z) (x := xS) ?_ (fun _ => ?_); revert xS; dsimp only; rotate_left; clear_value xS)
    | intro _
    | lift_lets
    | with_reducible apply refuseFrame_keeps
    | with_reducible apply putWire_keeps
    | with_reducible exact Keeps.refl _
    | simp only [keeps_mk_eq]
    | split
    | dsimp only

theorem syncTake_keeps {z : State} (s : State) (l : Nat) (f : Frame) (hK : Keeps z s) : Keeps z (syncTake s l f) := by
  unfold syncTake
  repeat' first
    | with_reducible assumption
    | (intro xS; refine keeps_gen (z := z) (x := xS) ?_ (fun _ => ?_); revert xS; dsimp only; rotate_left; clear_value xS)
    | (intro xS; refine keeps_gen_fst (z := z) (x := xS) ?_ (fun _ => ?_); revert xS; dsimp only; rotate_left; clear_value xS)
    | intro _
    | lift_lets
    | with_reducible apply dropAt_keeps
    | with_reducible apply refuseFrame_keeps
    | with_reducible apply sendStatus_keeps
    | with_reducible apply cnt_keeps
    | with_reducible apply objPut_keeps
    | with_reducible apply objAdd_keeps
    | with_reducible exact Keeps.refl _
    | split
    | dsimp only

theorem serveBlk_keeps {z : State} (f : Frame) (src ms : Nat) (x : State × Bool) (k : Nat) (hK : Keeps z x.1) : Keeps z (serveBlk f src ms x k).1 := by
  unfold serveBlk
  repeat' first
    | with_reducible assumption
    | (intro xS; refine keeps_gen (z := z) (x := xS) ?_ (fun _ => ?_); revert xS; dsimp only; rotate_left; clear_value xS)
    | (intro xS; refine keeps_gen_fst (z := z) (x := xS) ?_ (fun _ => ?_); revert xS; dsimp only; rotate_left; clear_value xS)
    | intro _
    | lift_lets
    | with_reducible apply refuseFrame_keeps
    | with_reducible apply sendStatus_keeps
    | with_reducible apply poisonRead_keeps
    | with_reducible apply blkTraffic_keeps
    | with_reducible apply hubSend_keeps
    | with_reducible exact Keeps.refl _
    | with_reducible refine keeps_fst (by assumption) ?_
    | simp only [keeps_mk_eq]
    | split
    | dsimp only

theorem readTake_keeps {z : State} (s : State) (f : Frame) (hK : Keeps z s) : Keeps z (readTake s f) := by
  unfold readTake
  repeat' first
    | with_reducible assumption
    | (intro xS; refine keeps_gen (z := z) (x := xS) ?_ (fun _ => ?_); revert xS; dsimp only; rotate_left; clear_value xS)
    | (intro xS; refine keeps_gen_fst (z := z) (x := xS) ?_ (fun _ => ?_); revert xS; dsimp only; rotate_left; clear_value xS)
    | intro _
    | lift_lets
    | with_reducible apply refuseFrame_keeps
    | with_reducible apply serveBlk_keeps
    | with_reducible exact Keeps.refl _
    | with_reducible refine keeps_foldl (fun _ _ _ => ?_) _ ?_
    | with_reducible refine keeps_foldl_fst (fun _ _ _ => ?_) _ ?_
    | with_reducible refine keeps_fst (by assumption) ?_
    | split
    | dsimp only

theorem readPlace_keeps {z : State} (s : State) (r : ReadReq) (blk : List Byte) (hK : Keeps z s) : Keeps z (readPlace s r blk) := by
  unfold readPlace
  repeat' first
    | with_reducible assumption
    | (intro xS; refine keeps_gen (z := z) (x := xS) ?_ (fun _ => ?_); revert xS; dsimp only; rotate_left; clear_value xS)
    | (intro xS; refine keeps_gen_fst (z := z) (x := xS) ?_ (fun _ => ?_); revert xS; dsimp only; rotate_left; clear_value xS)
    | intro _
    | lift_lets
    | with_reducible apply cnt64_keeps
    | with_reducible apply noteStat_keeps
    | with_reducible apply crcUncured_keeps
    | with_reducible apply crcFail_keeps
    | with_reducible exact Keeps.refl _
    | simp only [keeps_mk_eq]
    | split
    | dsimp only

theorem refetched_keeps {z : State} (s : State) (j : Nat) (f : Frame) (hK : Keeps z s) : Keeps z (refetched s j f) := by
  unfold refetched
  repeat' first
    | with_reducible assumption
    | (intro xS; refine keeps_gen (z := z) (x := xS) ?_ (fun _ => ?_); revert xS; dsimp only; rotate_left; clear_value xS)
    | (intro xS; refine keeps_gen_fst (z := z) (x := xS) ?_ (fun _ => ?_); revert xS; dsimp only; rotate_left; clear_value xS)
    | intro _
    | lift_lets
    | with_reducible exact Keeps.refl _
    | simp only [keeps_mk_eq]
    | split
    | dsimp only

theorem rdataTake_keeps {z : State} (s : State) (l : Nat) (f : Frame) (hK : Keeps z s) : Keeps z (rdataTake s l f) := by
  unfold rdataTake
  repeat' first
    | with_reducible assumption
    | (intro xS; refine keeps_gen (z := z) (x := xS) ?_ (fun _ => ?_); revert xS; dsimp only; rotate_left; clear_value xS)
    | (intro xS; refine keeps_gen_fst (z := z) (x := xS) ?_ (fun _ => ?_); revert xS; dsimp only; rotate_left; clear_value xS)
    | intro _
    | lift_lets
    | with_reducible apply refetched_keeps
    | with_reducible apply readPlace_keeps
    | with_reducible apply dropAt_keeps
    | with_reducible exact Keeps.refl _
    | simp only [keeps_mk_eq]
    | split
    | dsimp only

theorem zrunMem_keeps {z : State} (s : State) (f : Frame) (hK : Keeps z s) : Keeps z (zrunMem s f) := by
  unfold zrunMem
  repeat' first
    | with_reducible assumption
    | (intro xS; refine keeps_gen (z := z) (x := xS) ?_ (fun _ => ?_); revert xS; dsimp only; rotate_left; clear_value xS)
    | (intro xS; refine keeps_gen_fst (z := z) (x := xS) ?_ (fun _ => ?_); revert xS; dsimp only; rotate_left; clear_value xS)
    | intro _
    | lift_lets
    | with_reducible apply refuseFrame_keeps
    | with_reducible apply putWire_keeps
    | with_reducible exact Keeps.refl _
    | with_reducible refine keeps_foldl (fun _ _ _ => ?_) _ ?_
    | with_reducible refine keeps_foldl_fst (fun _ _ _ => ?_) _ ?_
    | simp only [keeps_mk_eq]
    | split
    | dsimp only

theorem collRx_keeps {z : State} (s : State) (l : Nat) (f : Frame) (hK : Keeps z s) : Keeps z (collRx s l f) := by
  unfold collRx
  repeat' first
    | with_reducible assumption
    | (intro xS; refine keeps_gen (z := z) (x := xS) ?_ (fun _ => ?_); revert xS; dsimp only; rotate_left; clear_value xS)
    | (intro xS; refine keeps_gen_fst (z := z) (x := xS) ?_ (fun _ => ?_); revert xS; dsimp only; rotate_left; clear_value xS)
    | intro _
    | lift_lets
    | with_reducible apply collTake_keeps
    | with_reducible apply zrunMem_keeps
    | with_reducible apply dropAt_keeps
    | with_reducible exact Keeps.refl _
    | simp only [keeps_mk_eq]
    | split
    | dsimp only

theorem voteRx_keeps {z : State} (s : State) (l : Nat) (f : Frame) (hK : Keeps z s) : Keeps z (voteRx s l f) := by
  unfold voteRx
  repeat' first
    | with_reducible assumption
    | (intro xS; refine keeps_gen (z := z) (x := xS) ?_ (fun _ => ?_); revert xS; dsimp only; rotate_left; clear_value xS)
    | (intro xS; refine keeps_gen_fst (z := z) (x := xS) ?_ (fun _ => ?_); revert xS; dsimp only; rotate_left; clear_value xS)
    | intro _
    | lift_lets
    | with_reducible apply voteTake_keeps
    | with_reducible apply barrierTake_keeps
    | with_reducible apply agreeTake_keeps
    | with_reducible apply dropAt_keeps
    | with_reducible exact Keeps.refl _
    | simp only [keeps_mk_eq]
    | split
    | dsimp only

theorem hubTake_keeps {z : State} (s : State) (l : Nat) (f : Frame) (hK : Keeps z s) : Keeps z (hubTake s l f) := by
  unfold hubTake
  repeat' first
    | with_reducible assumption
    | (intro xS; refine keeps_gen (z := z) (x := xS) ?_ (fun _ => ?_); revert xS; dsimp only; rotate_left; clear_value xS)
    | (intro xS; refine keeps_gen_fst (z := z) (x := xS) ?_ (fun _ => ?_); revert xS; dsimp only; rotate_left; clear_value xS)
    | intro _
    | lift_lets
    | with_reducible apply dropAt_keeps
    | with_reducible exact Keeps.refl _
    | simp only [keeps_mk_eq]
    | split
    | dsimp only

theorem frameFx_keeps {z : State} (s : State) (l : Nat) (f : Frame) (hK : Keeps z s) : Keeps z (frameFx s l f) := by
  unfold frameFx
  repeat' first
    | with_reducible assumption
    | intro _
    | with_reducible apply collRx_keeps
    | with_reducible apply voteRx_keeps
    | with_reducible apply digestTake_keeps
    | with_reducible apply rdataTake_keeps
    | with_reducible apply hubTake_keeps
    | with_reducible apply blockTake_keeps
    | with_reducible apply syncTake_keeps
    | with_reducible apply readTake_keeps
    | with_reducible exact Keeps.refl _
    | split
    | dsimp only

theorem servedMatch_keeps {z : State} (s : State) (f : Frame) (hK : Keeps z s) : Keeps z (servedMatch s f) := by
  unfold servedMatch
  repeat' first
    | with_reducible assumption
    | (intro xS; refine keeps_gen (z := z) (x := xS) ?_ (fun _ => ?_); revert xS; dsimp only; rotate_left; clear_value xS)
    | (intro xS; refine keeps_gen_fst (z := z) (x := xS) ?_ (fun _ => ?_); revert xS; dsimp only; rotate_left; clear_value xS)
    | intro _
    | lift_lets
    | with_reducible exact Keeps.refl _
    | simp only [keeps_mk_eq]
    | split
    | dsimp only

theorem journalRx_keeps {z : State} (s : State) (l : Nat) (f : Frame) (hK : Keeps z s) : Keeps z (journalRx s l f) := by
  unfold journalRx
  repeat' first
    | with_reducible assumption
    | (intro xS; refine keeps_gen (z := z) (x := xS) ?_ (fun _ => ?_); revert xS; dsimp only; rotate_left; clear_value xS)
    | (intro xS; refine keeps_gen_fst (z := z) (x := xS) ?_ (fun _ => ?_); revert xS; dsimp only; rotate_left; clear_value xS)
    | intro _
    | lift_lets
    | with_reducible apply refetched_keeps
    | with_reducible apply cnt_keeps
    | with_reducible apply servedMatch_keeps
    | with_reducible apply frameFx_keeps
    | with_reducible apply addRec_keeps
    | with_reducible apply aglWait_keeps
    | with_reducible exact Keeps.refl _
    | simp only [keeps_mk_eq]
    | split
    | dsimp only

theorem deliver_keeps {z : State} (s : State) (l : Nat) (f : Frame) (hK : Keeps z s) : Keeps z (deliver s l f) := by
  unfold deliver
  repeat' first
    | with_reducible assumption
    | (intro xS; refine keeps_gen (z := z) (x := xS) ?_ (fun _ => ?_); revert xS; dsimp only; rotate_left; clear_value xS)
    | (intro xS; refine keeps_gen_fst (z := z) (x := xS) ?_ (fun _ => ?_); revert xS; dsimp only; rotate_left; clear_value xS)
    | intro _
    | lift_lets
    | with_reducible apply cnt_keeps
    | with_reducible apply adoptEpoch_keeps
    | with_reducible apply journalRx_keeps
    | with_reducible apply frameFx_keeps
    | with_reducible exact Keeps.refl _
    | split
    | dsimp only

theorem noteDue_keeps {z : State} (s : State) (lc : Nat) (hK : Keeps z s) : Keeps z (noteDue s lc) := by
  unfold noteDue
  repeat' first
    | with_reducible assumption
    | (intro xS; refine keeps_gen (z := z) (x := xS) ?_ (fun _ => ?_); revert xS; dsimp only; rotate_left; clear_value xS)
    | (intro xS; refine keeps_gen_fst (z := z) (x := xS) ?_ (fun _ => ?_); revert xS; dsimp only; rotate_left; clear_value xS)
    | intro _
    | lift_lets
    | with_reducible exact Keeps.refl _
    | simp only [keeps_mk_eq]
    | split
    | dsimp only

theorem deliverGo_keeps {z : State}   : ∀ (a0 : Nat) (a1 : State) (a2 : Nat) (a3 : Frame), Keeps z a1 → Keeps z (deliverGo  a0 a1 a2 a3) := by
  intro a0
  induction a0 with
  | zero =>
    intro a1 a2 a3 hK
    first | rw [deliverGo] | unfold deliverGo
    repeat' first
      | with_reducible assumption
      | (intro xS; refine keeps_gen (z := z) (x := xS) ?_ (fun _ => ?_); revert xS; dsimp only; rotate_left; clear_value xS)
      | (intro xS; refine keeps_gen_fst (z := z) (x := xS) ?_ (fun _ => ?_); revert xS; dsimp only; rotate_left; clear_value xS)
      | intro _
      | lift_lets
      | with_reducible apply ih
      | with_reducible apply deliver_keeps
      | with_reducible exact Keeps.refl _
      | with_reducible refine keeps_fst (by assumption) ?_
      | simp only [keeps_mk_eq]
      | split
      | dsimp only
  | succ n0 ih =>
    intro a1 a2 a3 hK
    first | rw [deliverGo] | unfold deliverGo
    repeat' first
      | with_reducible assumption
      | (intro xS; refine keeps_gen (z := z) (x := xS) ?_ (fun _ => ?_); revert xS; dsimp only; rotate_left; clear_value xS)
      | (intro xS; refine keeps_gen_fst (z := z) (x := xS) ?_ (fun _ => ?_); revert xS; dsimp only; rotate_left; clear_value xS)
      | intro _
      | lift_lets
      | with_reducible apply ih
      | with_reducible apply deliver_keeps
      | with_reducible exact Keeps.refl _
      | with_reducible refine keeps_fst (by assumption) ?_
      | simp only [keeps_mk_eq]
      | split
      | dsimp only

theorem orderTake_keeps {z : State} (s : State) (l : Nat) (f : Frame) (hK : Keeps z s) : Keeps z (orderTake s l f) := by
  unfold orderTake
  repeat' first
    | with_reducible assumption
    | (intro xS; refine keeps_gen (z := z) (x := xS) ?_ (fun _ => ?_); revert xS; dsimp only; rotate_left; clear_value xS)
    | (intro xS; refine keeps_gen_fst (z := z) (x := xS) ?_ (fun _ => ?_); revert xS; dsimp only; rotate_left; clear_value xS)
    | intro _
    | lift_lets
    | with_reducible apply deliverGo_keeps
    | with_reducible apply noteDue_keeps
    | with_reducible apply cnt_keeps
    | with_reducible apply raise_keeps
    | with_reducible exact Keeps.refl _
    | simp only [keeps_mk_eq]
    | split
    | dsimp only

theorem aglLose_keeps {z : State} (s : State) (j : Nat) (hK : Keeps z s) : Keeps z (aglLose s j) := by
  unfold aglLose
  repeat' first
    | with_reducible assumption
    | (intro xS; refine keeps_gen (z := z) (x := xS) ?_ (fun _ => ?_); revert xS; dsimp only; rotate_left; clear_value xS)
    | (intro xS; refine keeps_gen_fst (z := z) (x := xS) ?_ (fun _ => ?_); revert xS; dsimp only; rotate_left; clear_value xS)
    | intro _
    | lift_lets
    | with_reducible apply abandon_keeps
    | with_reducible apply raise_keeps
    | with_reducible apply showAgl_keeps
    | with_reducible exact Keeps.refl _
    | simp only [keeps_mk_eq]
    | split
    | dsimp only

theorem ownerStat_keeps {z : State} (s : State) (o : Owner) (code : Nat) (hK : Keeps z s) : Keeps z (ownerStat s o code) := by
  unfold ownerStat
  repeat' first
    | with_reducible assumption
    | (intro xS; refine keeps_gen (z := z) (x := xS) ?_ (fun _ => ?_); revert xS; dsimp only; rotate_left; clear_value xS)
    | (intro xS; refine keeps_gen_fst (z := z) (x := xS) ?_ (fun _ => ?_); revert xS; dsimp only; rotate_left; clear_value xS)
    | intro _
    | lift_lets
    | with_reducible apply failStatus_keeps
    | with_reducible apply aglLose_keeps
    | with_reducible apply noteStat_keeps
    | with_reducible exact Keeps.refl _
    | simp only [keeps_mk_eq]
    | split
    | dsimp only

theorem statusTake_keeps {z : State} (s : State) (l : Nat) (f : Frame) (hK : Keeps z s) : Keeps z (statusTake s l f) := by
  unfold statusTake
  repeat' first
    | with_reducible assumption
    | (intro xS; refine keeps_gen (z := z) (x := xS) ?_ (fun _ => ?_); revert xS; dsimp only; rotate_left; clear_value xS)
    | (intro xS; refine keeps_gen_fst (z := z) (x := xS) ?_ (fun _ => ?_); revert xS; dsimp only; rotate_left; clear_value xS)
    | intro _
    | lift_lets
    | with_reducible apply ownerStat_keeps
    | with_reducible apply dropAt_keeps
    | with_reducible exact Keeps.refl _
    | simp only [keeps_mk_eq]
    | split
    | dsimp only

theorem ackedStat_keeps {z : State} (s : State) (u : Unack) (hK : Keeps z s) : Keeps z (ackedStat s u) := by
  unfold ackedStat
  repeat' first
    | with_reducible assumption
    | intro _
    | with_reducible apply ownerStat_keeps
    | with_reducible exact Keeps.refl _
    | split
    | dsimp only

theorem ackeTake_keeps {z : State} (s : State) (f : Frame) (hK : Keeps z s) : Keeps z (ackeTake s f) := by
  unfold ackeTake
  repeat' first
    | with_reducible assumption
    | (intro xS; refine keeps_gen (z := z) (x := xS) ?_ (fun _ => ?_); revert xS; dsimp only; rotate_left; clear_value xS)
    | (intro xS; refine keeps_gen_fst (z := z) (x := xS) ?_ (fun _ => ?_); revert xS; dsimp only; rotate_left; clear_value xS)
    | intro _
    | lift_lets
    | with_reducible apply ackedStat_keeps
    | with_reducible exact Keeps.refl _
    | with_reducible refine keeps_foldl (fun _ _ _ => ?_) _ ?_
    | with_reducible refine keeps_foldl_fst (fun _ _ _ => ?_) _ ?_
    | simp only [keeps_mk_eq]
    | split
    | dsimp only

theorem frameHere_keeps {z : State} (s : State) (l : Nat) (f : Frame) (hK : Keeps z s) : Keeps z (frameHere s l f) := by
  unfold frameHere
  repeat' first
    | with_reducible assumption
    | (intro xS; refine keeps_gen (z := z) (x := xS) ?_ (fun _ => ?_); revert xS; dsimp only; rotate_left; clear_value xS)
    | (intro xS; refine keeps_gen_fst (z := z) (x := xS) ?_ (fun _ => ?_); revert xS; dsimp only; rotate_left; clear_value xS)
    | intro _
    | lift_lets
    | with_reducible apply ackeTake_keeps
    | with_reducible apply statusTake_keeps
    | with_reducible apply crcFail_keeps
    | with_reducible apply orderTake_keeps
    | with_reducible exact Keeps.refl _
    | simp only [keeps_mk_eq]
    | split
    | dsimp only

theorem frameRx_keeps {z : State} (l : Nat) (ty : Nat) (s : State) (hK : Keeps z s) : Keeps z (frameRx l ty s) := by
  unfold frameRx
  repeat' first
    | with_reducible assumption
    | (intro xS; refine keeps_gen (z := z) (x := xS) ?_ (fun _ => ?_); revert xS; dsimp only; rotate_left; clear_value xS)
    | (intro xS; refine keeps_gen_fst (z := z) (x := xS) ?_ (fun _ => ?_); revert xS; dsimp only; rotate_left; clear_value xS)
    | intro _
    | lift_lets
    | with_reducible apply sendHop_keeps
    | with_reducible apply giveBack_keeps
    | with_reducible apply setLink_keeps
    | with_reducible apply dropAt_keeps
    | with_reducible apply wake_keeps
    | with_reducible apply kick_keeps
    | with_reducible apply frameHere_keeps
    | with_reducible exact Keeps.refl _
    | simp only [keeps_mk_eq]
    | split
    | dsimp only

theorem execBlockFrameRx_keeps {z : State} (l : Fin 7) (s : State) (hK : Keeps z s) : ∀ t', execBlockFrameRx l s = .next t' → Keeps z t' := by
  unfold execBlockFrameRx
  repeat' first
    | with_reducible (refine (run_keeps ?_ : ∀ t, _ = Host.Outcome.next t → Keeps _ t))
    | with_reducible assumption
    | intro _
    | with_reducible apply frameRx_keeps
    | with_reducible exact Keeps.refl _
    | split
    | dsimp only

theorem execSyncFrameRx_keeps {z : State} (l : Fin 7) (s : State) (hK : Keeps z s) : ∀ t', execSyncFrameRx l s = .next t' → Keeps z t' := by
  unfold execSyncFrameRx
  repeat' first
    | with_reducible (refine (run_keeps ?_ : ∀ t, _ = Host.Outcome.next t → Keeps _ t))
    | with_reducible assumption
    | intro _
    | with_reducible apply frameRx_keeps
    | with_reducible exact Keeps.refl _
    | split
    | dsimp only

theorem execReadFrameRx_keeps {z : State} (l : Fin 7) (s : State) (hK : Keeps z s) : ∀ t', execReadFrameRx l s = .next t' → Keeps z t' := by
  unfold execReadFrameRx
  repeat' first
    | with_reducible (refine (run_keeps ?_ : ∀ t, _ = Host.Outcome.next t → Keeps _ t))
    | with_reducible assumption
    | intro _
    | with_reducible apply frameRx_keeps
    | with_reducible exact Keeps.refl _
    | split
    | dsimp only

theorem execRdataFrameRx_keeps {z : State} (l : Fin 7) (s : State) (hK : Keeps z s) : ∀ t', execRdataFrameRx l s = .next t' → Keeps z t' := by
  unfold execRdataFrameRx
  repeat' first
    | with_reducible (refine (run_keeps ?_ : ∀ t, _ = Host.Outcome.next t → Keeps _ t))
    | with_reducible assumption
    | intro _
    | with_reducible apply frameRx_keeps
    | with_reducible exact Keeps.refl _
    | split
    | dsimp only

theorem execCollFrameRx_keeps {z : State} (l : Fin 7) (s : State) (hK : Keeps z s) : ∀ t', execCollFrameRx l s = .next t' → Keeps z t' := by
  unfold execCollFrameRx
  repeat' first
    | with_reducible (refine (run_keeps ?_ : ∀ t, _ = Host.Outcome.next t → Keeps _ t))
    | with_reducible assumption
    | intro _
    | with_reducible apply frameRx_keeps
    | with_reducible exact Keeps.refl _
    | split
    | dsimp only

theorem execZrunFrameRx_keeps {z : State} (l : Fin 7) (s : State) (hK : Keeps z s) : ∀ t', execZrunFrameRx l s = .next t' → Keeps z t' := by
  unfold execZrunFrameRx
  repeat' first
    | with_reducible (refine (run_keeps ?_ : ∀ t, _ = Host.Outcome.next t → Keeps _ t))
    | with_reducible assumption
    | intro _
    | with_reducible apply frameRx_keeps
    | with_reducible exact Keeps.refl _
    | split
    | dsimp only

theorem execVoteFrameRx_keeps {z : State} (l : Fin 7) (s : State) (hK : Keeps z s) : ∀ t', execVoteFrameRx l s = .next t' → Keeps z t' := by
  unfold execVoteFrameRx
  repeat' first
    | with_reducible (refine (run_keeps ?_ : ∀ t, _ = Host.Outcome.next t → Keeps _ t))
    | with_reducible assumption
    | intro _
    | with_reducible apply frameRx_keeps
    | with_reducible exact Keeps.refl _
    | split
    | dsimp only

theorem execDigestFrameRx_keeps {z : State} (l : Fin 7) (s : State) (hK : Keeps z s) : ∀ t', execDigestFrameRx l s = .next t' → Keeps z t' := by
  unfold execDigestFrameRx
  repeat' first
    | with_reducible (refine (run_keeps ?_ : ∀ t, _ = Host.Outcome.next t → Keeps _ t))
    | with_reducible assumption
    | intro _
    | with_reducible apply frameRx_keeps
    | with_reducible exact Keeps.refl _
    | split
    | dsimp only

theorem execAckeFrameRx_keeps {z : State} (l : Fin 7) (s : State) (hK : Keeps z s) : ∀ t', execAckeFrameRx l s = .next t' → Keeps z t' := by
  unfold execAckeFrameRx
  repeat' first
    | with_reducible (refine (run_keeps ?_ : ∀ t, _ = Host.Outcome.next t → Keeps _ t))
    | with_reducible assumption
    | intro _
    | with_reducible apply frameRx_keeps
    | with_reducible exact Keeps.refl _
    | split
    | dsimp only

theorem execStatusFrameRx_keeps {z : State} (l : Fin 7) (s : State) (hK : Keeps z s) : ∀ t', execStatusFrameRx l s = .next t' → Keeps z t' := by
  unfold execStatusFrameRx
  repeat' first
    | with_reducible (refine (run_keeps ?_ : ∀ t, _ = Host.Outcome.next t → Keeps _ t))
    | with_reducible assumption
    | intro _
    | with_reducible apply frameRx_keeps
    | with_reducible exact Keeps.refl _
    | split
    | dsimp only

theorem opAckeTimer_keeps {z : State} (lc : Nat) (s : State) (hK : Keeps z s) : Keeps z (opAckeTimer lc s) := by
  unfold opAckeTimer
  repeat' first
    | with_reducible assumption
    | (intro xS; refine keeps_gen (z := z) (x := xS) ?_ (fun _ => ?_); revert xS; dsimp only; rotate_left; clear_value xS)
    | (intro xS; refine keeps_gen_fst (z := z) (x := xS) ?_ (fun _ => ?_); revert xS; dsimp only; rotate_left; clear_value xS)
    | intro _
    | lift_lets
    | with_reducible apply hubSend_keeps
    | with_reducible exact Keeps.refl _
    | simp only [keeps_mk_eq]
    | split
    | dsimp only

theorem execAckeTimer_keeps {z : State} (lc : BitVec 18) (s : State) (hK : Keeps z s) : ∀ t', execAckeTimer lc s = .next t' → Keeps z t' := by
  unfold execAckeTimer
  repeat' first
    | with_reducible (refine (run_keeps ?_ : ∀ t, _ = Host.Outcome.next t → Keeps _ t))
    | with_reducible assumption
    | intro _
    | with_reducible apply opAckeTimer_keeps
    | with_reducible exact Keeps.refl _
    | split
    | dsimp only

theorem opE2eTimeout_keeps {z : State} (s : State) (hK : Keeps z s) : Keeps z (opE2eTimeout s) := by
  unfold opE2eTimeout
  repeat' first
    | with_reducible assumption
    | (intro xS; refine keeps_gen (z := z) (x := xS) ?_ (fun _ => ?_); revert xS; dsimp only; rotate_left; clear_value xS)
    | (intro xS; refine keeps_gen_fst (z := z) (x := xS) ?_ (fun _ => ?_); revert xS; dsimp only; rotate_left; clear_value xS)
    | intro _
    | lift_lets
    | with_reducible apply raise_keeps
    | with_reducible apply collFail_keeps
    | with_reducible apply kick_keeps
    | with_reducible apply ownerStat_keeps
    | with_reducible apply voteSet_keeps
    | with_reducible exact Keeps.refl _
    | with_reducible refine keeps_fst (by assumption) ?_
    | simp only [keeps_mk_eq]
    | split
    | dsimp only

theorem execE2eTimeout_keeps {z : State} (s : State) (hK : Keeps z s) : ∀ t', execE2eTimeout s = .next t' → Keeps z t' := by
  unfold execE2eTimeout
  repeat' first
    | with_reducible (refine (run_keeps ?_ : ∀ t, _ = Host.Outcome.next t → Keeps _ t))
    | with_reducible assumption
    | intro _
    | with_reducible apply opE2eTimeout_keeps
    | with_reducible exact Keeps.refl _
    | split
    | dsimp only

theorem opJournalAdmit_keeps {z : State} (s : State) (hK : Keeps z s) : Keeps z (opJournalAdmit s) := by
  unfold opJournalAdmit
  repeat' first
    | with_reducible assumption
    | (intro xS; refine keeps_gen (z := z) (x := xS) ?_ (fun _ => ?_); revert xS; dsimp only; rotate_left; clear_value xS)
    | (intro xS; refine keeps_gen_fst (z := z) (x := xS) ?_ (fun _ => ?_); revert xS; dsimp only; rotate_left; clear_value xS)
    | intro _
    | lift_lets
    | with_reducible apply kick_keeps
    | with_reducible apply sendSeq_keeps
    | with_reducible apply recordTx_keeps
    | with_reducible apply unsent_keeps
    | with_reducible apply cnt_keeps
    | with_reducible apply journalRx_keeps
    | with_reducible exact Keeps.refl _
    | simp only [keeps_mk_eq]
    | split
    | dsimp only

theorem execJournalAdmit_keeps {z : State} (s : State) (hK : Keeps z s) : ∀ t', execJournalAdmit s = .next t' → Keeps z t' := by
  unfold execJournalAdmit
  repeat' first
    | with_reducible (refine (run_keeps ?_ : ∀ t, _ = Host.Outcome.next t → Keeps _ t))
    | with_reducible assumption
    | intro _
    | with_reducible apply opJournalAdmit_keeps
    | with_reducible exact Keeps.refl _
    | split
    | dsimp only

theorem sendRefetch_keeps {z : State} (s : State) (r : JRec) (hK : Keeps z s) : Keeps z (sendRefetch s r) := by
  unfold sendRefetch
  repeat' first
    | with_reducible assumption
    | (intro xS; refine keeps_gen (z := z) (x := xS) ?_ (fun _ => ?_); revert xS; dsimp only; rotate_left; clear_value xS)
    | (intro xS; refine keeps_gen_fst (z := z) (x := xS) ?_ (fun _ => ?_); revert xS; dsimp only; rotate_left; clear_value xS)
    | intro _
    | lift_lets
    | with_reducible apply aglLose_keeps
    | with_reducible apply emit_keeps
    | with_reducible exact Keeps.refl _
    | simp only [keeps_mk_eq]
    | split
    | dsimp only

theorem redone_keeps {z : State} (s : State) (r : JRec) (hK : Keeps z s) : Keeps z (redone s r) := by
  unfold redone
  repeat' first
    | with_reducible assumption
    | (intro xS; refine keeps_gen (z := z) (x := xS) ?_ (fun _ => ?_); revert xS; dsimp only; rotate_left; clear_value xS)
    | (intro xS; refine keeps_gen_fst (z := z) (x := xS) ?_ (fun _ => ?_); revert xS; dsimp only; rotate_left; clear_value xS)
    | intro _
    | lift_lets
    | with_reducible exact Keeps.refl _
    | simp only [keeps_mk_eq]
    | split
    | dsimp only

theorem hostRecFx_keeps {z : State} (s : State) (f : Frame) (hK : Keeps z s) : Keeps z (hostRecFx s f) := by
  unfold hostRecFx
  repeat' first
    | with_reducible assumption
    | intro _
    | with_reducible apply putWire_keeps
    | with_reducible apply wrBytes_keeps
    | with_reducible exact Keeps.refl _
    | split
    | dsimp only

theorem opJournalRedeliver_keeps {z : State} (rcrcOk : Bool) (s : State) (hK : Keeps z s) : Keeps z (opJournalRedeliver rcrcOk s) := by
  unfold opJournalRedeliver
  repeat' first
    | with_reducible assumption
    | (intro xS; refine keeps_gen (z := z) (x := xS) ?_ (fun _ => ?_); revert xS; dsimp only; rotate_left; clear_value xS)
    | (intro xS; refine keeps_gen_fst (z := z) (x := xS) ?_ (fun _ => ?_); revert xS; dsimp only; rotate_left; clear_value xS)
    | intro _
    | lift_lets
    | with_reducible apply sendRefetch_keeps
    | with_reducible apply hostRecFx_keeps
    | with_reducible apply redone_keeps
    | with_reducible apply kick_keeps
    | with_reducible apply readPlace_keeps
    | with_reducible apply frameFx_keeps
    | with_reducible exact Keeps.refl _
    | simp only [keeps_mk_eq]
    | split
    | dsimp only

theorem execJournalRedeliver_keeps {z : State} (rcrcOk : Bool) (s : State) (hK : Keeps z s) : ∀ t', execJournalRedeliver rcrcOk s = .next t' → Keeps z t' := by
  unfold execJournalRedeliver
  repeat' first
    | with_reducible (refine (run_keeps ?_ : ∀ t, _ = Host.Outcome.next t → Keeps _ t))
    | with_reducible assumption
    | intro _
    | with_reducible apply opJournalRedeliver_keeps
    | with_reducible exact Keeps.refl _
    | split
    | dsimp only

theorem resendRec_keeps {z : State} (s : State) (r : JRec) (hK : Keeps z s) : Keeps z (resendRec s r) := by
  unfold resendRec
  repeat' first
    | with_reducible assumption
    | (intro xS; refine keeps_gen (z := z) (x := xS) ?_ (fun _ => ?_); revert xS; dsimp only; rotate_left; clear_value xS)
    | (intro xS; refine keeps_gen_fst (z := z) (x := xS) ?_ (fun _ => ?_); revert xS; dsimp only; rotate_left; clear_value xS)
    | intro _
    | lift_lets
    | with_reducible apply sendSeq_keeps
    | with_reducible exact Keeps.refl _
    | simp only [keeps_mk_eq]
    | split
    | dsimp only

theorem opSendJournalResend_keeps {z : State} (lc : Nat) (s : State) (hK : Keeps z s) : Keeps z (opSendJournalResend lc s) := by
  unfold opSendJournalResend
  repeat' first
    | with_reducible assumption
    | (intro xS; refine keeps_gen (z := z) (x := xS) ?_ (fun _ => ?_); revert xS; dsimp only; rotate_left; clear_value xS)
    | (intro xS; refine keeps_gen_fst (z := z) (x := xS) ?_ (fun _ => ?_); revert xS; dsimp only; rotate_left; clear_value xS)
    | intro _
    | lift_lets
    | with_reducible apply resendRec_keeps
    | with_reducible exact Keeps.refl _
    | simp only [keeps_mk_eq]
    | split
    | dsimp only

theorem execSendJournalResend_keeps {z : State} (lc : BitVec 18) (s : State) (hK : Keeps z s) : ∀ t', execSendJournalResend lc s = .next t' → Keeps z t' := by
  unfold execSendJournalResend
  repeat' first
    | with_reducible (refine (run_keeps ?_ : ∀ t, _ = Host.Outcome.next t → Keeps _ t))
    | with_reducible assumption
    | intro _
    | with_reducible apply opSendJournalResend_keeps
    | with_reducible exact Keeps.refl _
    | split
    | dsimp only

theorem opJournalRefetchRx_keeps {z : State} (s : State) (hK : Keeps z s) : Keeps z (opJournalRefetchRx s) := by
  unfold opJournalRefetchRx
  repeat' first
    | with_reducible assumption
    | (intro xS; refine keeps_gen (z := z) (x := xS) ?_ (fun _ => ?_); revert xS; dsimp only; rotate_left; clear_value xS)
    | (intro xS; refine keeps_gen_fst (z := z) (x := xS) ?_ (fun _ => ?_); revert xS; dsimp only; rotate_left; clear_value xS)
    | intro _
    | lift_lets
    | with_reducible apply resendRec_keeps
    | with_reducible apply sendStatus_keeps
    | with_reducible exact Keeps.refl _
    | simp only [keeps_mk_eq]
    | split
    | dsimp only

theorem execJournalRefetchRx_keeps {z : State} (s : State) (hK : Keeps z s) : ∀ t', execJournalRefetchRx s = .next t' → Keeps z t' := by
  unfold execJournalRefetchRx
  repeat' first
    | with_reducible (refine (run_keeps ?_ : ∀ t, _ = Host.Outcome.next t → Keeps _ t))
    | with_reducible assumption
    | intro _
    | with_reducible apply opJournalRefetchRx_keeps
    | with_reducible exact Keeps.refl _
    | split
    | dsimp only

end Sys2Proof.Machine
end

