-- ==== Sys2Proof/Laws/KeepsEcdsa.lean ====
section
/-! SUPPORT. What the operations of Ecdsa keep. -/
namespace Sys2Proof.Machine

theorem signMsg_keeps {z : State} (s : State) (msg : List Byte) (hK : Keeps z s) : Keeps z (signMsg s msg).1 := by
  unfold signMsg
  repeat' first
    | with_reducible assumption
    | (intro xS; refine keeps_gen (z := z) (x := xS) ?_ (fun _ => ?_); revert xS; dsimp only; rotate_left; clear_value xS)
    | (intro xS; refine keeps_gen_fst (z := z) (x := xS) ?_ (fun _ => ?_); revert xS; dsimp only; rotate_left; clear_value xS)
    | intro _
    | lift_lets
    | with_reducible exact Keeps.refl _
    | with_reducible refine keeps_fst (by assumption) ?_
    | simp only [keeps_mk_eq]
    | split
    | dsimp only

theorem mbDone_keeps {z : State} (s : State) (c code : Nat) (out : List Byte) (hK : Keeps z s) : Keeps z (mbDone s c code out) := by
  unfold mbDone
  repeat' first
    | with_reducible assumption
    | (intro xS; refine keeps_gen (z := z) (x := xS) ?_ (fun _ => ?_); revert xS; dsimp only; rotate_left; clear_value xS)
    | (intro xS; refine keeps_gen_fst (z := z) (x := xS) ?_ (fun _ => ?_); revert xS; dsimp only; rotate_left; clear_value xS)
    | intro _
    | lift_lets
    | with_reducible apply setReg_keeps
    | with_reducible exact Keeps.refl _
    | with_reducible refine keeps_foldl (fun _ _ _ => ?_) _ ?_
    | with_reducible refine keeps_foldl_fst (fun _ _ _ => ?_) _ ?_
    | split
    | dsimp only

theorem setStream_keeps {z : State} (s : State) (c : Nat) (v : Option (List Byte)) (hK : Keeps z s) : Keeps z (setStream s c v) := by
  unfold setStream
  repeat' first
    | with_reducible assumption
    | (intro xS; refine keeps_gen (z := z) (x := xS) ?_ (fun _ => ?_); revert xS; dsimp only; rotate_left; clear_value xS)
    | (intro xS; refine keeps_gen_fst (z := z) (x := xS) ?_ (fun _ => ?_); revert xS; dsimp only; rotate_left; clear_value xS)
    | intro _
    | lift_lets
    | with_reducible exact Keeps.refl _
    | simp only [keeps_mk_eq]
    | split
    | dsimp only

theorem signEngine_keeps {z : State} (s : State) (msg : List Byte) (hK : Keeps z s) : Keeps z (signEngine s msg).1 := by
  unfold signEngine
  dsimp only
  split
  · exact mbDone_keeps _ _ _ _ (signMsg_keeps _ _ (setStream_keeps _ _ _ hK))
  · exact mbDone_keeps _ _ _ _ (setStream_keeps _ _ _ hK)

end Sys2Proof.Machine
end

