-- ==== Sys2Proof/Laws/KeepsCkpt.lean ====
section
/-! SUPPORT. What the operations of Ckpt keep. -/
namespace Sys2Proof.Machine

theorem ckptSample_keeps {z : State} (s : State) (hK : Keeps z s) : Keeps z (ckptSample s) := by
  unfold ckptSample
  repeat' first
    | with_reducible assumption
    | (intro xS; refine keeps_gen (z := z) (x := xS) ?_ (fun _ => ?_); revert xS; dsimp only; rotate_left; clear_value xS)
    | (intro xS; refine keeps_gen_fst (z := z) (x := xS) ?_ (fun _ => ?_); revert xS; dsimp only; rotate_left; clear_value xS)
    | intro _
    | lift_lets
    | with_reducible apply applyRefused_keeps
    | with_reducible exact Keeps.refl _
    | simp only [keeps_mk_eq]
    | split
    | dsimp only

theorem holdFrame_keeps {z : State} (v : Bool) (s : State) (x : SnapFrame) (hK : Keeps z s) : Keeps z (holdFrame v s x) := by
  unfold holdFrame
  repeat' first
    | with_reducible assumption
    | (intro xS; refine keeps_gen (z := z) (x := xS) ?_ (fun _ => ?_); revert xS; dsimp only; rotate_left; clear_value xS)
    | (intro xS; refine keeps_gen_fst (z := z) (x := xS) ?_ (fun _ => ?_); revert xS; dsimp only; rotate_left; clear_value xS)
    | intro _
    | lift_lets
    | with_reducible apply putPage_keeps
    | with_reducible exact Keeps.refl _
    | simp only [keeps_mk_eq]
    | split
    | dsimp only

theorem ckptShow_keeps {z : State} (s : State) (hK : Keeps z s) : Keeps z (ckptShow s) := by
  unfold ckptShow
  repeat' first
    | with_reducible assumption
    | intro _
    | with_reducible apply setFld_keeps
    | with_reducible exact Keeps.refl _
    | split
    | dsimp only

theorem frameBack_keeps {z : State} (s : State) (x : SnapFrame) (hK : Keeps z s) : Keeps z (frameBack s x) := by
  unfold frameBack
  repeat' first
    | with_reducible assumption
    | (intro xS; refine keeps_gen (z := z) (x := xS) ?_ (fun _ => ?_); revert xS; dsimp only; rotate_left; clear_value xS)
    | (intro xS; refine keeps_gen_fst (z := z) (x := xS) ?_ (fun _ => ?_); revert xS; dsimp only; rotate_left; clear_value xS)
    | intro _
    | lift_lets
    | with_reducible apply freeShow_keeps
    | with_reducible apply memWr_keeps
    | with_reducible apply setPageSet_keeps
    | with_reducible exact Keeps.refl _
    | simp only [keeps_mk_eq]
    | split
    | dsimp only

theorem releaseFrames_keeps {z : State} (s : State) (l : List SnapFrame) (hK : Keeps z s) : Keeps z (releaseFrames s l) := by
  unfold releaseFrames
  repeat' first
    | with_reducible assumption
    | (intro xS; refine keeps_gen (z := z) (x := xS) ?_ (fun _ => ?_); revert xS; dsimp only; rotate_left; clear_value xS)
    | (intro xS; refine keeps_gen_fst (z := z) (x := xS) ?_ (fun _ => ?_); revert xS; dsimp only; rotate_left; clear_value xS)
    | intro _
    | lift_lets
    | with_reducible apply frameBack_keeps
    | with_reducible apply holdFrame_keeps
    | with_reducible apply raise_keeps
    | with_reducible exact Keeps.refl _
    | with_reducible refine keeps_foldl (fun _ _ _ => ?_) _ ?_
    | with_reducible refine keeps_foldl_fst (fun _ _ _ => ?_) _ ?_
    | split
    | dsimp only

theorem pageUncured_keeps {z : State} (s : State) (hK : Keeps z s) : Keeps z (pageUncured s) := by
  unfold pageUncured
  repeat' first
    | with_reducible assumption
    | intro _
    | with_reducible apply raise_keeps
    | with_reducible apply crcUncured_keeps
    | with_reducible apply crcFail_keeps
    | with_reducible exact Keeps.refl _
    | split
    | dsimp only

theorem openSinks_keeps {z : State} (s : State) (job : Nat) (l : List SinkEnt) (hK : Keeps z s) : Keeps z (openSinks s job l) := by
  unfold openSinks
  repeat' first
    | with_reducible assumption
    | intro _
    | with_reducible apply bulkOpen_keeps
    | with_reducible exact Keeps.refl _
    | with_reducible refine keeps_foldl (fun _ _ _ => ?_) _ ?_
    | with_reducible refine keeps_foldl_fst (fun _ _ _ => ?_) _ ?_
    | split
    | dsimp only

theorem dropObjs_keeps {z : State} (s : State) (who : Nat) (hK : Keeps z s) : Keeps z (dropObjs s who) := by
  unfold dropObjs
  repeat' first
    | with_reducible assumption
    | (intro xS; refine keeps_gen (z := z) (x := xS) ?_ (fun _ => ?_); revert xS; dsimp only; rotate_left; clear_value xS)
    | (intro xS; refine keeps_gen_fst (z := z) (x := xS) ?_ (fun _ => ?_); revert xS; dsimp only; rotate_left; clear_value xS)
    | intro _
    | lift_lets
    | with_reducible exact Keeps.refl _
    | simp only [keeps_mk_eq]
    | split
    | dsimp only

theorem snapAdvance_keeps {z : State} (s : State) (hK : Keeps z s) : Keeps z (snapAdvance s) := by
  unfold snapAdvance
  repeat' first
    | with_reducible assumption
    | (intro xS; refine keeps_gen (z := z) (x := xS) ?_ (fun _ => ?_); revert xS; dsimp only; rotate_left; clear_value xS)
    | (intro xS; refine keeps_gen_fst (z := z) (x := xS) ?_ (fun _ => ?_); revert xS; dsimp only; rotate_left; clear_value xS)
    | intro _
    | lift_lets
    | with_reducible apply ckptShow_keeps
    | with_reducible apply addObjs_keeps
    | with_reducible apply setReg_keeps
    | with_reducible apply dropObjs_keeps
    | with_reducible apply setFld_keeps
    | with_reducible apply raise_keeps
    | with_reducible exact Keeps.refl _
    | simp only [keeps_mk_eq]
    | split
    | dsimp only

theorem snapStart_keeps {z : State} (s0 : State) (r : StepRec) (fold auto : Bool) (hK : Keeps z s0) : Keeps z (snapStart s0 r fold auto) := by
  unfold snapStart
  repeat' first
    | with_reducible assumption
    | (intro xS; refine keeps_gen (z := z) (x := xS) ?_ (fun _ => ?_); revert xS; dsimp only; rotate_left; clear_value xS)
    | (intro xS; refine keeps_gen_fst (z := z) (x := xS) ?_ (fun _ => ?_); revert xS; dsimp only; rotate_left; clear_value xS)
    | intro _
    | lift_lets
    | with_reducible apply ckptSample_keeps
    | with_reducible apply holdFrame_keeps
    | with_reducible apply ckptShow_keeps
    | with_reducible apply addObjs_keeps
    | with_reducible apply openSinks_keeps
    | with_reducible exact Keeps.refl _
    | with_reducible refine keeps_foldl (fun _ _ _ => ?_) _ ?_
    | with_reducible refine keeps_foldl_fst (fun _ _ _ => ?_) _ ?_
    | simp only [keeps_mk_eq]
    | split
    | dsimp only

theorem snapAbort_keeps {z : State} (s : State) (cause : Nat) (hK : Keeps z s) : Keeps z (snapAbort s cause) := by
  unfold snapAbort
  repeat' first
    | with_reducible assumption
    | (intro xS; refine keeps_gen (z := z) (x := xS) ?_ (fun _ => ?_); revert xS; dsimp only; rotate_left; clear_value xS)
    | (intro xS; refine keeps_gen_fst (z := z) (x := xS) ?_ (fun _ => ?_); revert xS; dsimp only; rotate_left; clear_value xS)
    | intro _
    | lift_lets
    | with_reducible apply releaseFrames_keeps
    | with_reducible apply dropObjs_keeps
    | with_reducible apply tmOff_keeps
    | with_reducible apply ckptShow_keeps
    | with_reducible apply raise_keeps
    | with_reducible apply setFld_keeps
    | with_reducible apply cnt_keeps
    | with_reducible exact Keeps.refl _
    | simp only [keeps_mk_eq]
    | split
    | dsimp only

theorem snapTake_keeps {z : State} (s : State) (r : StepRec) (fold auto : Bool) (hK : Keeps z s) : Keeps z (snapTake s r fold auto) := by
  unfold snapTake
  repeat' first
    | with_reducible assumption
    | (intro xS; refine keeps_gen (z := z) (x := xS) ?_ (fun _ => ?_); revert xS; dsimp only; rotate_left; clear_value xS)
    | (intro xS; refine keeps_gen_fst (z := z) (x := xS) ?_ (fun _ => ?_); revert xS; dsimp only; rotate_left; clear_value xS)
    | intro _
    | lift_lets
    | with_reducible apply snapStart_keeps
    | with_reducible apply snapAbort_keeps
    | with_reducible apply pageUncured_keeps
    | with_reducible exact Keeps.refl _
    | split
    | dsimp only

theorem snapAtFlip_keeps {z : State} (s : State) (r : StepRec) (fold : Bool) (hK : Keeps z s) : Keeps z (snapAtFlip s r fold) := by
  unfold snapAtFlip
  dsimp only
  repeat' first
    | with_reducible assumption
    | with_reducible apply raise_keeps
    | with_reducible apply setFld_keeps
    | with_reducible apply cnt_keeps
    | with_reducible apply snapTake_keeps
    | simp only [keeps_mk_eq]
    | split

theorem sendReports_keeps {z : State} (s : State) (n : Snap) (hK : Keeps z s) : Keeps z (sendReports s n) := by
  unfold sendReports
  repeat' first
    | with_reducible assumption
    | (intro xS; refine keeps_gen (z := z) (x := xS) ?_ (fun _ => ?_); revert xS; dsimp only; rotate_left; clear_value xS)
    | (intro xS; refine keeps_gen_fst (z := z) (x := xS) ?_ (fun _ => ?_); revert xS; dsimp only; rotate_left; clear_value xS)
    | intro _
    | lift_lets
    | with_reducible apply hubMsg_keeps
    | with_reducible exact Keeps.refl _
    | with_reducible refine keeps_foldl (fun _ _ _ => ?_) _ ?_
    | with_reducible refine keeps_foldl_fst (fun _ _ _ => ?_) _ ?_
    | split
    | dsimp only

theorem opSnapshotRelease_keeps {z : State} (refl : Bool) (s : State) (hK : Keeps z s) : Keeps z (opSnapshotRelease refl s) := by
  unfold opSnapshotRelease
  repeat' first
    | with_reducible assumption
    | (intro xS; refine keeps_gen (z := z) (x := xS) ?_ (fun _ => ?_); revert xS; dsimp only; rotate_left; clear_value xS)
    | (intro xS; refine keeps_gen_fst (z := z) (x := xS) ?_ (fun _ => ?_); revert xS; dsimp only; rotate_left; clear_value xS)
    | intro _
    | lift_lets
    | with_reducible apply sendReports_keeps
    | with_reducible apply ckptShow_keeps
    | with_reducible apply sysObjInc_keeps
    | with_reducible apply releaseFrames_keeps
    | with_reducible apply dropObjs_keeps
    | with_reducible apply tmArm_keeps
    | with_reducible exact Keeps.refl _
    | simp only [keeps_mk_eq]
    | split
    | dsimp only

theorem execSnapshotRelease_keeps {z : State} (refl : Bool) (s : State) (hK : Keeps z s) : ∀ t', execSnapshotRelease refl s = .next t' → Keeps z t' := by
  unfold execSnapshotRelease
  repeat' first
    | with_reducible (refine (run_keeps ?_ : ∀ t, _ = Host.Outcome.next t → Keeps _ t))
    | with_reducible assumption
    | intro _
    | with_reducible apply opSnapshotRelease_keeps
    | with_reducible exact Keeps.refl _
    | split
    | dsimp only

theorem opReflReportTimeout_keeps {z : State} (s : State) (hK : Keeps z s) : Keeps z (opReflReportTimeout s) := by
  unfold opReflReportTimeout
  repeat' first
    | with_reducible assumption
    | (intro xS; refine keeps_gen (z := z) (x := xS) ?_ (fun _ => ?_); revert xS; dsimp only; rotate_left; clear_value xS)
    | (intro xS; refine keeps_gen_fst (z := z) (x := xS) ?_ (fun _ => ?_); revert xS; dsimp only; rotate_left; clear_value xS)
    | intro _
    | lift_lets
    | with_reducible apply tmOff_keeps
    | with_reducible exact Keeps.refl _
    | simp only [keeps_mk_eq]
    | split
    | dsimp only

theorem execReflReportTimeout_keeps {z : State} (s : State) (hK : Keeps z s) : ∀ t', execReflReportTimeout s = .next t' → Keeps z t' := by
  unfold execReflReportTimeout
  repeat' first
    | with_reducible (refine (run_keeps ?_ : ∀ t, _ = Host.Outcome.next t → Keeps _ t))
    | with_reducible assumption
    | intro _
    | with_reducible apply opReflReportTimeout_keeps
    | with_reducible exact Keeps.refl _
    | split
    | dsimp only

theorem opManifestWrite_keeps {z : State} (s : State) (hK : Keeps z s) : Keeps z (opManifestWrite s) := by
  unfold opManifestWrite
  repeat' first
    | with_reducible assumption
    | (intro xS; refine keeps_gen (z := z) (x := xS) ?_ (fun _ => ?_); revert xS; dsimp only; rotate_left; clear_value xS)
    | (intro xS; refine keeps_gen_fst (z := z) (x := xS) ?_ (fun _ => ?_); revert xS; dsimp only; rotate_left; clear_value xS)
    | intro _
    | lift_lets
    | with_reducible apply snapAbort_keeps
    | with_reducible apply signMsg_keeps
    | with_reducible apply tmOff_keeps
    | with_reducible apply ckptShow_keeps
    | with_reducible apply addObjs_keeps
    | with_reducible apply signEngine_keeps
    | with_reducible exact Keeps.refl _
    | with_reducible refine keeps_fst (by assumption) ?_
    | simp only [keeps_mk_eq]
    | split
    | dsimp only

theorem execManifestWrite_keeps {z : State} (s : State) (hK : Keeps z s) : ∀ t', execManifestWrite s = .next t' → Keeps z t' := by
  unfold execManifestWrite
  repeat' first
    | with_reducible (refine (run_keeps ?_ : ∀ t, _ = Host.Outcome.next t → Keeps _ t))
    | with_reducible assumption
    | intro _
    | with_reducible apply opManifestWrite_keeps
    | with_reducible exact Keeps.refl _
    | split
    | dsimp only

theorem ckptReqWrite_keeps {z : State} (s : State) (v : Nat) (hK : Keeps z s) : Keeps z (ckptReqWrite s v) := by
  unfold ckptReqWrite
  repeat' first
    | with_reducible assumption
    | (intro xS; refine keeps_gen (z := z) (x := xS) ?_ (fun _ => ?_); revert xS; dsimp only; rotate_left; clear_value xS)
    | (intro xS; refine keeps_gen_fst (z := z) (x := xS) ?_ (fun _ => ?_); revert xS; dsimp only; rotate_left; clear_value xS)
    | intro _
    | lift_lets
    | with_reducible exact Keeps.refl _
    | simp only [keeps_mk_eq]
    | split
    | dsimp only

theorem takeReport_keeps {z : State} (s : State) (shard : Nat) (digest sink : List Byte) (hK : Keeps z s) : Keeps z (takeReport s shard digest sink) := by
  unfold takeReport
  repeat' first
    | with_reducible assumption
    | (intro xS; refine keeps_gen (z := z) (x := xS) ?_ (fun _ => ?_); revert xS; dsimp only; rotate_left; clear_value xS)
    | (intro xS; refine keeps_gen_fst (z := z) (x := xS) ?_ (fun _ => ?_); revert xS; dsimp only; rotate_left; clear_value xS)
    | intro _
    | lift_lets
    | with_reducible apply raise_keeps
    | with_reducible exact Keeps.refl _
    | simp only [keeps_mk_eq]
    | split
    | dsimp only

theorem rsnapAbort_keeps {z : State} (s : State) (hK : Keeps z s) : Keeps z (rsnapAbort s) := by
  unfold rsnapAbort
  repeat' first
    | with_reducible assumption
    | (intro xS; refine keeps_gen (z := z) (x := xS) ?_ (fun _ => ?_); revert xS; dsimp only; rotate_left; clear_value xS)
    | (intro xS; refine keeps_gen_fst (z := z) (x := xS) ?_ (fun _ => ?_); revert xS; dsimp only; rotate_left; clear_value xS)
    | intro _
    | lift_lets
    | with_reducible apply ckptShow_keeps
    | with_reducible apply releaseFrames_keeps
    | with_reducible apply dropObjs_keeps
    | with_reducible exact Keeps.refl _
    | simp only [keeps_mk_eq]
    | split
    | dsimp only

theorem rsnapStart_keeps {z : State} (s0 : State) (lc step epoch slot job ls lsJ : Nat) (slots cmds : List (List Byte)) (hK : Keeps z s0) : Keeps z (rsnapStart s0 lc step epoch slot job ls lsJ slots cmds) := by
  unfold rsnapStart
  repeat' first
    | with_reducible assumption
    | (intro xS; refine keeps_gen (z := z) (x := xS) ?_ (fun _ => ?_); revert xS; dsimp only; rotate_left; clear_value xS)
    | (intro xS; refine keeps_gen_fst (z := z) (x := xS) ?_ (fun _ => ?_); revert xS; dsimp only; rotate_left; clear_value xS)
    | intro _
    | lift_lets
    | with_reducible apply ckptSample_keeps
    | with_reducible apply holdFrame_keeps
    | with_reducible apply rsnapAbort_keeps
    | with_reducible apply pageUncured_keeps
    | with_reducible apply ckptShow_keeps
    | with_reducible apply addObjs_keeps
    | with_reducible apply openSinks_keeps
    | with_reducible exact Keeps.refl _
    | with_reducible refine keeps_foldl (fun _ _ _ => ?_) _ ?_
    | with_reducible refine keeps_foldl_fst (fun _ _ _ => ?_) _ ?_
    | simp only [keeps_mk_eq]
    | split
    | dsimp only

end Sys2Proof.Machine
end

