-- ==== Sys2Proof/Laws/KeepsRefl.lean ====
section
/-! SUPPORT. What the operations of Refl keep. -/
namespace Sys2Proof.Machine

theorem hmsgRow_keeps {z : State} (m : Nat) (act : Frame → State → State) (s : State) (hact : ∀ a0 t, Keeps z t → Keeps z (act a0 t)) (hK : Keeps z s) : Keeps z (hmsgRow m act s) := by
  unfold hmsgRow
  repeat' first
    | with_reducible assumption
    | (intro xS; refine keeps_gen (z := z) (x := xS) ?_ (fun _ => ?_); revert xS; dsimp only; rotate_left; clear_value xS)
    | (intro xS; refine keeps_gen_fst (z := z) (x := xS) ?_ (fun _ => ?_); revert xS; dsimp only; rotate_left; clear_value xS)
    | intro _
    | lift_lets
    | with_reducible apply hact
    | with_reducible exact Keeps.refl _
    | simp only [keeps_mk_eq]
    | split
    | dsimp only

theorem reflAnswer_keeps {z : State} (s : State) (lc code n : Nat) (hK : Keeps z s) : Keeps z (reflAnswer s lc code n) := by
  unfold reflAnswer
  repeat' first
    | with_reducible assumption
    | intro _
    | with_reducible apply hubSend_keeps
    | with_reducible exact Keeps.refl _
    | split
    | dsimp only

theorem reflRow_keeps {z : State} (code : Nat) (act : Nat → Nat → State → State) (s : State) (hK : Keeps z s)
    (hact : ∀ a b t, Keeps z t → Keeps z (act a b t)) : Keeps z (reflRow code act s) := by
  unfold reflRow
  repeat' first
    | with_reducible assumption
    | with_reducible apply hact
    | simp only [keeps_mk_eq]
    | split

theorem bundleDone_keeps {z : State} (s : State) (b : Bundle) (hK : Keeps z s) : Keeps z (bundleDone s b) := by
  unfold bundleDone
  repeat' first
    | with_reducible assumption
    | (intro xS; refine keeps_gen (z := z) (x := xS) ?_ (fun _ => ?_); revert xS; dsimp only; rotate_left; clear_value xS)
    | (intro xS; refine keeps_gen_fst (z := z) (x := xS) ?_ (fun _ => ?_); revert xS; dsimp only; rotate_left; clear_value xS)
    | intro _
    | lift_lets
    | with_reducible apply putBundle_keeps
    | with_reducible apply reflAnswer_keeps
    | with_reducible exact Keeps.refl _
    | simp only [keeps_mk_eq]
    | split
    | dsimp only

theorem cmdTake_keeps {z : State} (f : Frame) (s : State) (hK : Keeps z s) : Keeps z (cmdTake f s) := by
  unfold cmdTake
  repeat' first
    | with_reducible assumption
    | (intro xS; refine keeps_gen (z := z) (x := xS) ?_ (fun _ => ?_); revert xS; dsimp only; rotate_left; clear_value xS)
    | (intro xS; refine keeps_gen_fst (z := z) (x := xS) ?_ (fun _ => ?_); revert xS; dsimp only; rotate_left; clear_value xS)
    | intro _
    | lift_lets
    | with_reducible apply bundleDone_keeps
    | with_reducible exact Keeps.refl _
    | simp only [keeps_mk_eq]
    | split
    | dsimp only

theorem execHmsgCommandBlock_keeps {z : State} (s : State) (hK : Keeps z s) : ∀ t', execHmsgCommandBlock s = .next t' → Keeps z t' := by
  unfold execHmsgCommandBlock
  repeat' first
    | with_reducible (refine (run_keeps ?_ : ∀ t, _ = Host.Outcome.next t → Keeps _ t))
    | with_reducible assumption
    | intro _
    | with_reducible apply hmsgRow_keeps
    | with_reducible apply cmdTake_keeps
    | with_reducible exact Keeps.refl _
    | split
    | dsimp only

theorem gradTake_keeps {z : State} (f : Frame) (s : State) (hK : Keeps z s) : Keeps z (gradTake f s) := by
  unfold gradTake
  repeat' first
    | with_reducible assumption
    | (intro xS; refine keeps_gen (z := z) (x := xS) ?_ (fun _ => ?_); revert xS; dsimp only; rotate_left; clear_value xS)
    | (intro xS; refine keeps_gen_fst (z := z) (x := xS) ?_ (fun _ => ?_); revert xS; dsimp only; rotate_left; clear_value xS)
    | intro _
    | lift_lets
    | with_reducible apply bundleDone_keeps
    | with_reducible exact Keeps.refl _
    | simp only [keeps_mk_eq]
    | split
    | dsimp only

theorem execHmsgGradientBlock_keeps {z : State} (s : State) (hK : Keeps z s) : ∀ t', execHmsgGradientBlock s = .next t' → Keeps z t' := by
  unfold execHmsgGradientBlock
  repeat' first
    | with_reducible (refine (run_keeps ?_ : ∀ t, _ = Host.Outcome.next t → Keeps _ t))
    | with_reducible assumption
    | intro _
    | with_reducible apply hmsgRow_keeps
    | with_reducible apply gradTake_keeps
    | with_reducible exact Keeps.refl _
    | split
    | dsimp only

theorem sealForSpare_keeps {z : State} (f : Frame) (s : State) (hK : Keeps z s) : Keeps z (sealForSpare f s) := by
  unfold sealForSpare
  repeat' first
    | with_reducible assumption
    | (intro xS; refine keeps_gen (z := z) (x := xS) ?_ (fun _ => ?_); revert xS; dsimp only; rotate_left; clear_value xS)
    | (intro xS; refine keeps_gen_fst (z := z) (x := xS) ?_ (fun _ => ?_); revert xS; dsimp only; rotate_left; clear_value xS)
    | intro _
    | lift_lets
    | with_reducible apply takeState_keeps
    | with_reducible apply regenWc_keeps
    | with_reducible apply putBundle_keeps
    | with_reducible exact Keeps.refl _
    | with_reducible refine keeps_foldl (fun _ _ _ => ?_) _ ?_
    | with_reducible refine keeps_foldl_fst (fun _ _ _ => ?_) _ ?_
    | simp only [keeps_mk_eq]
    | split
    | dsimp only

theorem sealTake_keeps {z : State} (f : Frame) (s : State) (hK : Keeps z s) : Keeps z (sealTake f s) := by
  unfold sealTake
  repeat' first
    | with_reducible assumption
    | (intro xS; refine keeps_gen (z := z) (x := xS) ?_ (fun _ => ?_); revert xS; dsimp only; rotate_left; clear_value xS)
    | (intro xS; refine keeps_gen_fst (z := z) (x := xS) ?_ (fun _ => ?_); revert xS; dsimp only; rotate_left; clear_value xS)
    | intro _
    | lift_lets
    | with_reducible apply bundleDone_keeps
    | with_reducible apply sealForSpare_keeps
    | with_reducible exact Keeps.refl _
    | simp only [keeps_mk_eq]
    | split
    | dsimp only

theorem execHmsgSealBlock_keeps {z : State} (s : State) (hK : Keeps z s) : ∀ t', execHmsgSealBlock s = .next t' → Keeps z t' := by
  unfold execHmsgSealBlock
  repeat' first
    | with_reducible (refine (run_keeps ?_ : ∀ t, _ = Host.Outcome.next t → Keeps _ t))
    | with_reducible assumption
    | intro _
    | with_reducible apply hmsgRow_keeps
    | with_reducible apply sealTake_keeps
    | with_reducible exact Keeps.refl _
    | split
    | dsimp only

theorem applyCmds_keeps {z : State} (b : Bundle) (e : Nat) : ∀ (l : List (Nat × List Byte)) (s : State), Keeps z s →
    ∀ t', applyCmds b e l s = some t' → Keeps z t' := by
  intro l
  induction l with
  | nil => intro s hK t' h; rw [applyCmds] at h; cases h; exact hK
  | cons c r ih =>
    intro s hK t' h
    rw [applyCmds] at h
    split at h
    · exact ih _ hK _ h
    · split at h
      · cases h
      · rename_i e2
        have h1 := keeps_fst e2 (updExec_keeps _ _ _ hK)
        refine ih _ ?_ _ h
        split
        · exact raise_keeps _ _ _ _ _ h1
        · exact h1

theorem bundleApplied_keeps {z : State} (s : State) (b : Bundle) (hK : Keeps z s) : Keeps z (bundleApplied s b) := by
  unfold bundleApplied
  repeat' first
    | with_reducible assumption
    | (intro xS; refine keeps_gen (z := z) (x := xS) ?_ (fun _ => ?_); revert xS; dsimp only; rotate_left; clear_value xS)
    | (intro xS; refine keeps_gen_fst (z := z) (x := xS) ?_ (fun _ => ?_); revert xS; dsimp only; rotate_left; clear_value xS)
    | intro _
    | lift_lets
    | with_reducible apply setReg_keeps
    | with_reducible apply hubMsg_keeps
    | with_reducible apply rsnapStart_keeps
    | with_reducible exact Keeps.refl _
    | simp only [keeps_mk_eq]
    | split
    | dsimp only

theorem applyBundle_keeps {z : State} (s : State) (b : Bundle) (hK : Keeps z s) : ∀ t', applyBundle s b = some t' → Keeps z t' := by
  unfold applyBundle
  intro t' h
  simp only [Option.map_eq_some_iff] at h
  obtain ⟨u, hu, rfl⟩ := h
  refine bundleApplied_keeps _ _ (applyCmds_keeps _ _ _ _ ?_ _ hu)
  simp only [keeps_mk_eq]
  exact hK

theorem reflFrameWait_keeps {z : State} (s : State) (n : Nat) (hK : Keeps z s) : Keeps z (reflFrameWait s n) := by
  unfold reflFrameWait
  repeat' first
    | with_reducible assumption
    | (intro xS; refine keeps_gen (z := z) (x := xS) ?_ (fun _ => ?_); revert xS; dsimp only; rotate_left; clear_value xS)
    | (intro xS; refine keeps_gen_fst (z := z) (x := xS) ?_ (fun _ => ?_); revert xS; dsimp only; rotate_left; clear_value xS)
    | intro _
    | lift_lets
    | with_reducible apply setFld_keeps
    | with_reducible apply raise_keeps
    | with_reducible exact Keeps.refl _
    | simp only [keeps_mk_eq]
    | split
    | dsimp only

theorem slowRun_keeps {z : State} (s : State) (b : Bundle) (hK : Keeps z s) : Keeps z (slowRun s b).1 := by
  unfold slowRun
  have h1 : Keeps z (dualMisses b.step (bundleMis s b) { s with free := s.free + 1 }) :=
    dualMisses_keeps _ _ _ (by simpa only [keeps_mk_eq] using hK)
  dsimp only
  split
  · exact raise_keeps _ _ _ _ _ (commitFailed_keeps _ _ h1)
  · split
    · exact applyBundle_keeps _ _ h1 _ (by assumption)
    · exact reflFrameWait_keeps _ _ hK

theorem opReflApplyComplete_keeps {z : State} (s : State) (hK : Keeps z s) : Keeps z (opReflApplyComplete s) := by
  unfold opReflApplyComplete
  repeat' first
    | with_reducible assumption
    | (intro xS; refine keeps_gen (z := z) (x := xS) ?_ (fun _ => ?_); revert xS; dsimp only; rotate_left; clear_value xS)
    | (intro xS; refine keeps_gen_fst (z := z) (x := xS) ?_ (fun _ => ?_); revert xS; dsimp only; rotate_left; clear_value xS)
    | intro _
    | lift_lets
    | with_reducible apply dualMisses_keeps
    | with_reducible apply raise_keeps
    | with_reducible apply commitFailed_keeps
    | with_reducible apply reflAnswer_keeps
    | with_reducible apply reflFrameWait_keeps
    | with_reducible apply slowRun_keeps
    | with_reducible exact Keeps.refl _
    | simp only [keeps_mk_eq]
    | split
    | dsimp only

theorem execReflApplyComplete_keeps {z : State} (s : State) (hK : Keeps z s) : ∀ t', execReflApplyComplete s = .next t' → Keeps z t' := by
  unfold execReflApplyComplete
  repeat' first
    | with_reducible (refine (run_keeps ?_ : ∀ t, _ = Host.Outcome.next t → Keeps _ t))
    | with_reducible assumption
    | intro _
    | with_reducible apply opReflApplyComplete_keeps
    | with_reducible exact Keeps.refl _
    | split
    | dsimp only

theorem setReflState_keeps {z : State} (s : State) (v : Nat) (hK : Keeps z s) : Keeps z (setReflState s v) := by
  unfold setReflState
  repeat' first
    | with_reducible assumption
    | intro _
    | with_reducible apply setFld_keeps
    | with_reducible exact Keeps.refl _
    | split
    | dsimp only

theorem resyncPage_keeps {z : State} (lc n : Nat) (s : State) (x : SnapFrame) (hK : Keeps z s) : Keeps z (resyncPage lc n s x) := by
  unfold resyncPage
  repeat' first
    | with_reducible assumption
    | (intro xS; refine keeps_gen (z := z) (x := xS) ?_ (fun _ => ?_); revert xS; dsimp only; rotate_left; clear_value xS)
    | (intro xS; refine keeps_gen_fst (z := z) (x := xS) ?_ (fun _ => ?_); revert xS; dsimp only; rotate_left; clear_value xS)
    | intro _
    | lift_lets
    | with_reducible apply hubBlock_keeps
    | with_reducible exact Keeps.refl _
    | with_reducible refine keeps_foldl (fun _ _ _ => ?_) _ ?_
    | with_reducible refine keeps_foldl_fst (fun _ _ _ => ?_) _ ?_
    | split
    | dsimp only

theorem resyncSend_keeps {z : State} (s : State) (hK : Keeps z s) : Keeps z (resyncSend s) := by
  unfold resyncSend
  repeat' first
    | with_reducible assumption
    | (intro xS; refine keeps_gen (z := z) (x := xS) ?_ (fun _ => ?_); revert xS; dsimp only; rotate_left; clear_value xS)
    | (intro xS; refine keeps_gen_fst (z := z) (x := xS) ?_ (fun _ => ?_); revert xS; dsimp only; rotate_left; clear_value xS)
    | intro _
    | lift_lets
    | with_reducible apply reflWait_keeps
    | with_reducible apply resyncPage_keeps
    | with_reducible exact Keeps.refl _
    | with_reducible refine keeps_foldl (fun _ _ _ => ?_) _ ?_
    | with_reducible refine keeps_foldl_fst (fun _ _ _ => ?_) _ ?_
    | simp only [keeps_mk_eq]
    | split
    | dsimp only

theorem resyncStore_keeps {z : State} (s : State) (p : Nat) (f : Frame) (hK : Keeps z s) : Keeps z (resyncStore s p f) := by
  unfold resyncStore
  repeat' first
    | with_reducible assumption
    | (intro xS; refine keeps_gen (z := z) (x := xS) ?_ (fun _ => ?_); revert xS; dsimp only; rotate_left; clear_value xS)
    | (intro xS; refine keeps_gen_fst (z := z) (x := xS) ?_ (fun _ => ?_); revert xS; dsimp only; rotate_left; clear_value xS)
    | intro _
    | lift_lets
    | with_reducible apply physWr_keeps
    | with_reducible exact Keeps.refl _
    | split
    | dsimp only

theorem resyncTake_keeps {z : State} (f : Frame) (s : State) (hK : Keeps z s) : Keeps z (resyncTake f s) := by
  unfold resyncTake
  repeat' first
    | with_reducible assumption
    | (intro xS; refine keeps_gen (z := z) (x := xS) ?_ (fun _ => ?_); revert xS; dsimp only; rotate_left; clear_value xS)
    | (intro xS; refine keeps_gen_fst (z := z) (x := xS) ?_ (fun _ => ?_); revert xS; dsimp only; rotate_left; clear_value xS)
    | intro _
    | lift_lets
    | with_reducible apply setReflState_keeps
    | with_reducible apply resyncStore_keeps
    | with_reducible exact Keeps.refl _
    | simp only [keeps_mk_eq]
    | split
    | dsimp only

theorem execHmsgResyncData_keeps {z : State} (s : State) (hK : Keeps z s) : ∀ t', execHmsgResyncData s = .next t' → Keeps z t' := by
  unfold execHmsgResyncData
  repeat' first
    | with_reducible (refine (run_keeps ?_ : ∀ t, _ = Host.Outcome.next t → Keeps _ t))
    | with_reducible assumption
    | intro _
    | with_reducible apply hmsgRow_keeps
    | with_reducible apply resyncTake_keeps
    | with_reducible exact Keeps.refl _
    | split
    | dsimp only

theorem applyWaiting_keeps {z : State}   : ∀ (a0 : Nat) (a1 : State), Keeps z a1 → Keeps z (applyWaiting  a0 a1) := by
  intro a0
  induction a0 with
  | zero =>
    intro a1 hK
    first | rw [applyWaiting] | unfold applyWaiting
    repeat' first
      | with_reducible assumption
      | with_reducible apply ih
      | with_reducible apply slowRun_keeps
      | with_reducible exact Keeps.refl _
      | with_reducible refine keeps_fst (by assumption) ?_
      | simp only [keeps_mk_eq]
      | split
      | dsimp only
  | succ n0 ih =>
    intro a1 hK
    first | rw [applyWaiting] | unfold applyWaiting
    repeat' first
      | with_reducible assumption
      | with_reducible apply ih
      | with_reducible apply slowRun_keeps
      | with_reducible exact Keeps.refl _
      | with_reducible refine keeps_fst (by assumption) ?_
      | simp only [keeps_mk_eq]
      | split
      | dsimp only

theorem wardServe_keeps {z : State} (s : State) (hK : Keeps z s) : Keeps z (wardServe s) := by
  unfold wardServe
  repeat' first
    | with_reducible assumption
    | (intro xS; refine keeps_gen (z := z) (x := xS) ?_ (fun _ => ?_); revert xS; dsimp only; rotate_left; clear_value xS)
    | (intro xS; refine keeps_gen_fst (z := z) (x := xS) ?_ (fun _ => ?_); revert xS; dsimp only; rotate_left; clear_value xS)
    | intro _
    | lift_lets
    | with_reducible apply applyWaiting_keeps
    | with_reducible apply resyncPage_keeps
    | with_reducible apply hubMsg_keeps
    | with_reducible exact Keeps.refl _
    | with_reducible refine keeps_foldl (fun _ _ _ => ?_) _ ?_
    | with_reducible refine keeps_foldl_fst (fun _ _ _ => ?_) _ ?_
    | simp only [keeps_mk_eq]
    | split
    | dsimp only

theorem promoTick_keeps {z : State} (s : State) (hK : Keeps z s) : Keeps z (promoTick s) := by
  unfold promoTick
  repeat' first
    | with_reducible assumption
    | (intro xS; refine keeps_gen (z := z) (x := xS) ?_ (fun _ => ?_); revert xS; dsimp only; rotate_left; clear_value xS)
    | (intro xS; refine keeps_gen_fst (z := z) (x := xS) ?_ (fun _ => ?_); revert xS; dsimp only; rotate_left; clear_value xS)
    | intro _
    | lift_lets
    | with_reducible apply wardServe_keeps
    | with_reducible apply resyncSend_keeps
    | with_reducible exact Keeps.refl _
    | simp only [keeps_mk_eq]
    | split
    | dsimp only

theorem opResyncDone_keeps {z : State} (s : State) (hK : Keeps z s) : Keeps z (opResyncDone s) := by
  unfold opResyncDone
  repeat' first
    | with_reducible assumption
    | (intro xS; refine keeps_gen (z := z) (x := xS) ?_ (fun _ => ?_); revert xS; dsimp only; rotate_left; clear_value xS)
    | (intro xS; refine keeps_gen_fst (z := z) (x := xS) ?_ (fun _ => ?_); revert xS; dsimp only; rotate_left; clear_value xS)
    | intro _
    | lift_lets
    | with_reducible apply applyWaiting_keeps
    | with_reducible apply setReg_keeps
    | with_reducible apply reflAnswer_keeps
    | with_reducible apply setReflState_keeps
    | with_reducible exact Keeps.refl _
    | simp only [keeps_mk_eq]
    | split
    | dsimp only

theorem execResyncDone_keeps {z : State} (s : State) (hK : Keeps z s) : ∀ t', execResyncDone s = .next t' → Keeps z t' := by
  unfold execResyncDone
  repeat' first
    | with_reducible (refine (run_keeps ?_ : ∀ t, _ = Host.Outcome.next t → Keeps _ t))
    | with_reducible assumption
    | intro _
    | with_reducible apply opResyncDone_keeps
    | with_reducible exact Keeps.refl _
    | split
    | dsimp only

theorem haveTake_keeps {z : State} (lc n : Nat) (s : State) (hK : Keeps z s) : Keeps z (haveTake lc n s) := by
  unfold haveTake
  repeat' first
    | with_reducible assumption
    | (intro xS; refine keeps_gen (z := z) (x := xS) ?_ (fun _ => ?_); revert xS; dsimp only; rotate_left; clear_value xS)
    | (intro xS; refine keeps_gen_fst (z := z) (x := xS) ?_ (fun _ => ?_); revert xS; dsimp only; rotate_left; clear_value xS)
    | intro _
    | lift_lets
    | with_reducible apply tmOff_keeps
    | with_reducible apply updStep_keeps
    | with_reducible exact Keeps.refl _
    | simp only [keeps_mk_eq]
    | split
    | dsimp only

theorem execReflHave_keeps {z : State} (s : State) (hK : Keeps z s) : ∀ t', execReflHave s = .next t' → Keeps z t' := by
  unfold execReflHave
  repeat' first
    | with_reducible (refine (run_keeps ?_ : ∀ t, _ = Host.Outcome.next t → Keeps _ t))
    | with_reducible assumption
    | intro _
    | with_reducible apply reflRow_keeps
    | with_reducible apply haveTake_keeps
    | with_reducible exact Keeps.refl _
    | split
    | dsimp only

theorem doneTake_keeps {z : State} (lc n : Nat) (s : State) (hK : Keeps z s) : Keeps z (doneTake lc n s) := by
  unfold doneTake
  repeat' first
    | with_reducible assumption
    | (intro xS; refine keeps_gen (z := z) (x := xS) ?_ (fun _ => ?_); revert xS; dsimp only; rotate_left; clear_value xS)
    | (intro xS; refine keeps_gen_fst (z := z) (x := xS) ?_ (fun _ => ?_); revert xS; dsimp only; rotate_left; clear_value xS)
    | intro _
    | lift_lets
    | with_reducible apply tmOff_keeps
    | with_reducible apply setReg_keeps
    | with_reducible exact Keeps.refl _
    | simp only [keeps_mk_eq]
    | split
    | dsimp only

theorem execReflDone_keeps {z : State} (s : State) (hK : Keeps z s) : ∀ t', execReflDone s = .next t' → Keeps z t' := by
  unfold execReflDone
  repeat' first
    | with_reducible (refine (run_keeps ?_ : ∀ t, _ = Host.Outcome.next t → Keeps _ t))
    | with_reducible assumption
    | intro _
    | with_reducible apply reflRow_keeps
    | with_reducible apply doneTake_keeps
    | with_reducible exact Keeps.refl _
    | split
    | dsimp only

theorem reflLate_keeps {z : State} (s : State) (n : Nat) (hK : Keeps z s) : Keeps z (reflLate s n) := by
  unfold reflLate
  repeat' first
    | with_reducible assumption
    | intro _
    | with_reducible apply raise_keeps
    | with_reducible apply setFld_keeps
    | with_reducible exact Keeps.refl _
    | split
    | dsimp only

theorem opReflLateTimeout_keeps {z : State} (s : State) (hK : Keeps z s) : Keeps z (opReflLateTimeout s) := by
  unfold opReflLateTimeout
  repeat' first
    | with_reducible assumption
    | intro _
    | with_reducible apply reflLate_keeps
    | with_reducible apply tmOff_keeps
    | with_reducible exact Keeps.refl _
    | split
    | dsimp only

theorem execReflLateTimeout_keeps {z : State} (s : State) (hK : Keeps z s) : ∀ t', execReflLateTimeout s = .next t' → Keeps z t' := by
  unfold execReflLateTimeout
  repeat' first
    | with_reducible (refine (run_keeps ?_ : ∀ t, _ = Host.Outcome.next t → Keeps _ t))
    | with_reducible assumption
    | intro _
    | with_reducible apply opReflLateTimeout_keeps
    | with_reducible exact Keeps.refl _
    | split
    | dsimp only

theorem reflMismatch_keeps {z : State} (s : State) (m : Nat) (hK : Keeps z s) : Keeps z (reflMismatch s m) := by
  unfold reflMismatch
  repeat' first
    | with_reducible assumption
    | (intro xS; refine keeps_gen (z := z) (x := xS) ?_ (fun _ => ?_); revert xS; dsimp only; rotate_left; clear_value xS)
    | (intro xS; refine keeps_gen_fst (z := z) (x := xS) ?_ (fun _ => ?_); revert xS; dsimp only; rotate_left; clear_value xS)
    | intro _
    | lift_lets
    | with_reducible apply health_keeps
    | with_reducible apply raise_keeps
    | with_reducible apply setFld_keeps
    | with_reducible apply resyncSend_keeps
    | with_reducible exact Keeps.refl _
    | simp only [keeps_mk_eq]
    | split
    | dsimp only

theorem reflCompare_keeps {z : State} (s : State) (m : Nat) (hK : Keeps z s) : Keeps z (reflCompare s m) := by
  unfold reflCompare
  dsimp only
  split
  · split
    · exact hK
    · split
      · simp only [keeps_mk_eq]; exact hK
      · apply reflMismatch_keeps; simp only [keeps_mk_eq]; exact hK
  · exact hK

theorem foldRecTake_keeps {z : State} (f : Frame) (s : State) (hK : Keeps z s) : Keeps z (foldRecTake f s) := by
  unfold foldRecTake
  repeat' first
    | with_reducible assumption
    | (intro xS; refine keeps_gen (z := z) (x := xS) ?_ (fun _ => ?_); revert xS; dsimp only; rotate_left; clear_value xS)
    | (intro xS; refine keeps_gen_fst (z := z) (x := xS) ?_ (fun _ => ?_); revert xS; dsimp only; rotate_left; clear_value xS)
    | intro _
    | lift_lets
    | with_reducible apply reflLate_keeps
    | with_reducible apply reflCompare_keeps
    | with_reducible exact Keeps.refl _
    | simp only [keeps_mk_eq]
    | split
    | dsimp only

theorem execHmsgReflFoldRecord_keeps {z : State} (s : State) (hK : Keeps z s) : ∀ t', execHmsgReflFoldRecord s = .next t' → Keeps z t' := by
  unfold execHmsgReflFoldRecord
  repeat' first
    | with_reducible (refine (run_keeps ?_ : ∀ t, _ = Host.Outcome.next t → Keeps _ t))
    | with_reducible assumption
    | intro _
    | with_reducible apply hmsgRow_keeps
    | with_reducible apply foldRecTake_keeps
    | with_reducible exact Keeps.refl _
    | split
    | dsimp only

theorem reportTake_keeps {z : State} (f : Frame) (s : State) (hK : Keeps z s) : Keeps z (reportTake f s) := by
  unfold reportTake
  repeat' first
    | with_reducible assumption
    | (intro xS; refine keeps_gen (z := z) (x := xS) ?_ (fun _ => ?_); revert xS; dsimp only; rotate_left; clear_value xS)
    | (intro xS; refine keeps_gen_fst (z := z) (x := xS) ?_ (fun _ => ?_); revert xS; dsimp only; rotate_left; clear_value xS)
    | intro _
    | lift_lets
    | with_reducible apply takeReport_keeps
    | with_reducible exact Keeps.refl _
    | with_reducible refine keeps_foldl (fun _ _ _ => ?_) _ ?_
    | with_reducible refine keeps_foldl_fst (fun _ _ _ => ?_) _ ?_
    | split
    | dsimp only

theorem execHmsgDigestReport_keeps {z : State} (s : State) (hK : Keeps z s) : ∀ t', execHmsgDigestReport s = .next t' → Keeps z t' := by
  unfold execHmsgDigestReport
  repeat' first
    | with_reducible (refine (run_keeps ?_ : ∀ t, _ = Host.Outcome.next t → Keeps _ t))
    | with_reducible assumption
    | intro _
    | with_reducible apply hmsgRow_keeps
    | with_reducible apply reportTake_keeps
    | with_reducible exact Keeps.refl _
    | split
    | dsimp only

end Sys2Proof.Machine
end

