-- ==== Sys2Proof/Laws/KeepsOrders.lean ====
section
/-! SUPPORT. What the operations of Orders keep. -/
namespace Sys2Proof.Machine

theorem setOrder_keeps {z : State} (s : State) (o : Order) (hK : Keeps z s) : Keeps z (setOrder s o) := by
  unfold setOrder
  repeat' first
    | with_reducible assumption
    | (intro xS; refine keeps_gen (z := z) (x := xS) ?_ (fun _ => ?_); revert xS; dsimp only; rotate_left; clear_value xS)
    | (intro xS; refine keeps_gen_fst (z := z) (x := xS) ?_ (fun _ => ?_); revert xS; dsimp only; rotate_left; clear_value xS)
    | intro _
    | lift_lets
    | with_reducible exact Keeps.refl _
    | simp only [keeps_mk_eq]
    | split
    | dsimp only

theorem orderStat_keeps {z : State} (s : State) (o : Order) (x : Nat × Option Ev) (hK : Keeps z s) : Keeps z (orderStat s o x).1 := by
  unfold orderStat
  repeat' first
    | with_reducible assumption
    | (intro xS; refine keeps_gen (z := z) (x := xS) ?_ (fun _ => ?_); revert xS; dsimp only; rotate_left; clear_value xS)
    | (intro xS; refine keeps_gen_fst (z := z) (x := xS) ?_ (fun _ => ?_); revert xS; dsimp only; rotate_left; clear_value xS)
    | intro _
    | lift_lets
    | with_reducible exact Keeps.refl _
    | with_reducible refine keeps_fst (by assumption) ?_
    | simp only [keeps_mk_eq]
    | split
    | dsimp only

theorem orderStart_keeps {z : State} (s : State) (o : Order) (hK : Keeps z s) : Keeps z (orderStart s o).1 := by
  unfold orderStart
  repeat' first
    | with_reducible assumption
    | (intro xS; refine keeps_gen (z := z) (x := xS) ?_ (fun _ => ?_); revert xS; dsimp only; rotate_left; clear_value xS)
    | (intro xS; refine keeps_gen_fst (z := z) (x := xS) ?_ (fun _ => ?_); revert xS; dsimp only; rotate_left; clear_value xS)
    | intro _
    | lift_lets
    | with_reducible apply raise_keeps
    | with_reducible apply orderStat_keeps
    | with_reducible exact Keeps.refl _
    | with_reducible refine keeps_fst (by assumption) ?_
    | simp only [keeps_mk_eq]
    | split
    | dsimp only

theorem workTake_keeps {z : State} (kind port : Nat) (f : CwtFrame) (act : Order → State → State × Order) (s : State) (hK : Keeps z s)
    (hact : ∀ o t, Keeps z t → Keeps z (act o t).1) : Keeps z (workTake kind port f act s).1 := by
  unfold workTake
  dsimp only
  have h1 := orderStart_keeps { s with orderNo := s.orderNo + 1 } (parseOrder s port f) ((keeps_mk_eq ..).mpr hK)
  generalize orderStart { s with orderNo := s.orderNo + 1 } (parseOrder s port f) = x at h1
  have h2 : Keeps z (if x.2.status = 0 ∧ x.2.kind = kind then act x.2 x.1 else (x.1, x.2)).1 := by
    split
    · exact hact _ _ h1
    · exact h1
  generalize (if x.2.status = 0 ∧ x.2.kind = kind then act x.2 x.1 else (x.1, x.2)) = y at h2
  split
  · exact hostNack_keeps _ _ _ _ hK
  · split
    · exact hostNack_keeps _ _ _ _ (cnt_keeps _ _ _ hK)
    · split
      · exact hostBusy_keeps _ _ hK
      · simp only [keeps_mk_eq]
        exact h2

theorem workRx_keeps {z : State} (kind port : Nat) (p : CwtPeer) (f : CwtFrame) (act : Order → State → State × Order) (s : State) (hact : ∀ a0 t, Keeps z t → Keeps z (act a0 t).1) (hK : Keeps z s) : Keeps z (workRx kind port p f act s) := by
  unfold workRx
  repeat' first
    | with_reducible assumption
    | intro _
    | with_reducible apply hact
    | with_reducible apply hostRx_keeps
    | with_reducible apply workTake_keeps
    | with_reducible exact Keeps.refl _
    | with_reducible refine keeps_fst (by assumption) ?_
    | split
    | dsimp only

theorem hostRec_keeps {z : State} (s : State) (o : Order) (a ms : Nat) (isBlk : Bool) (d : List Byte) (hK : Keeps z s) : Keeps z (hostRec s o a ms isBlk d) := by
  unfold hostRec
  repeat' first
    | with_reducible assumption
    | intro _
    | with_reducible apply addRec_keeps
    | with_reducible exact Keeps.refl _
    | split
    | dsimp only

theorem placeBlk_keeps {z : State} (x : State × Order) (b : List Byte) (hK : Keeps z x.1) : Keeps z (placeBlk x b).1 := by
  unfold placeBlk
  repeat' first
    | with_reducible assumption
    | (intro xS; refine keeps_gen (z := z) (x := xS) ?_ (fun _ => ?_); revert xS; dsimp only; rotate_left; clear_value xS)
    | (intro xS; refine keeps_gen_fst (z := z) (x := xS) ?_ (fun _ => ?_); revert xS; dsimp only; rotate_left; clear_value xS)
    | intro _
    | lift_lets
    | with_reducible apply orderStat_keeps
    | with_reducible apply hostRec_keeps
    | with_reducible apply putWire_keeps
    | with_reducible apply cnt64_keeps
    | with_reducible exact Keeps.refl _
    | with_reducible refine keeps_fst (by assumption) ?_
    | simp only [keeps_mk_eq]
    | split
    | dsimp only

theorem setHold_keeps {z : State} (s : State) (q : Nat) (h : Option Nat) (hK : Keeps z s) : Keeps z (setHold s q h) := by
  unfold setHold
  repeat' first
    | with_reducible assumption
    | (intro xS; refine keeps_gen (z := z) (x := xS) ?_ (fun _ => ?_); revert xS; dsimp only; rotate_left; clear_value xS)
    | (intro xS; refine keeps_gen_fst (z := z) (x := xS) ?_ (fun _ => ?_); revert xS; dsimp only; rotate_left; clear_value xS)
    | intro _
    | lift_lets
    | with_reducible exact Keeps.refl _
    | simp only [keeps_mk_eq]
    | split
    | dsimp only

theorem backTo_keeps {z : State} (s : State) (q first n : Nat) (hK : Keeps z s) : Keeps z (backTo s q first n) := by
  unfold backTo
  repeat' first
    | with_reducible assumption
    | (intro xS; refine keeps_gen (z := z) (x := xS) ?_ (fun _ => ?_); revert xS; dsimp only; rotate_left; clear_value xS)
    | (intro xS; refine keeps_gen_fst (z := z) (x := xS) ?_ (fun _ => ?_); revert xS; dsimp only; rotate_left; clear_value xS)
    | intro _
    | lift_lets
    | with_reducible exact Keeps.refl _
    | simp only [keeps_mk_eq]
    | split
    | dsimp only

theorem dataBlocks_keeps {z : State} (s : State) (o : Order) (f : CwtFrame) (hK : Keeps z s) : Keeps z (dataBlocks s o f).1 := by
  unfold dataBlocks
  repeat' first
    | with_reducible assumption
    | (intro xS; refine keeps_gen (z := z) (x := xS) ?_ (fun _ => ?_); revert xS; dsimp only; rotate_left; clear_value xS)
    | (intro xS; refine keeps_gen_fst (z := z) (x := xS) ?_ (fun _ => ?_); revert xS; dsimp only; rotate_left; clear_value xS)
    | intro _
    | lift_lets
    | with_reducible apply hostNack_keeps
    | with_reducible apply backTo_keeps
    | with_reducible apply setOrder_keeps
    | with_reducible apply crcFail_keeps
    | with_reducible apply setHold_keeps
    | with_reducible apply hostBusy_keeps
    | with_reducible apply placeBlk_keeps
    | with_reducible exact Keeps.refl _
    | with_reducible refine keeps_foldl (fun _ _ _ => ?_) _ ?_
    | with_reducible refine keeps_foldl_fst (fun _ _ _ => ?_) _ ?_
    | with_reducible refine keeps_fst (by assumption) ?_
    | simp only [keeps_mk_eq]
    | split
    | dsimp only

theorem dataPlain_keeps {z : State} (s : State) (o : Order) (f : CwtFrame) (hK : Keeps z s) : Keeps z (dataPlain s o f).1 := by
  unfold dataPlain
  repeat' first
    | with_reducible assumption
    | (intro xS; refine keeps_gen (z := z) (x := xS) ?_ (fun _ => ?_); revert xS; dsimp only; rotate_left; clear_value xS)
    | (intro xS; refine keeps_gen_fst (z := z) (x := xS) ?_ (fun _ => ?_); revert xS; dsimp only; rotate_left; clear_value xS)
    | intro _
    | lift_lets
    | with_reducible apply hostBusy_keeps
    | with_reducible apply hostRec_keeps
    | with_reducible apply setOrder_keeps
    | with_reducible apply wrBytes_keeps
    | with_reducible apply traffic_keeps
    | with_reducible apply orderStat_keeps
    | with_reducible exact Keeps.refl _
    | with_reducible refine keeps_fst (by assumption) ?_
    | simp only [keeps_mk_eq]
    | split
    | dsimp only

theorem dataTake_keeps {z : State} (f : CwtFrame) (s : State) (hK : Keeps z s) : Keeps z (dataTake f s).1 := by
  unfold dataTake
  repeat' first
    | with_reducible assumption
    | (intro xS; refine keeps_gen (z := z) (x := xS) ?_ (fun _ => ?_); revert xS; dsimp only; rotate_left; clear_value xS)
    | (intro xS; refine keeps_gen_fst (z := z) (x := xS) ?_ (fun _ => ?_); revert xS; dsimp only; rotate_left; clear_value xS)
    | intro _
    | lift_lets
    | with_reducible apply hostNack_keeps
    | with_reducible apply cnt_keeps
    | with_reducible apply dataBlocks_keeps
    | with_reducible apply dataPlain_keeps
    | with_reducible exact Keeps.refl _
    | with_reducible refine keeps_fst (by assumption) ?_
    | simp only [keeps_mk_eq]
    | split
    | dsimp only

theorem sendPieces_keeps {z : State} (s : State) (o : Order) (off : Nat) (l : List Byte) (hK : Keeps z s) : Keeps z (sendPieces s o off l) := by
  unfold sendPieces
  repeat' first
    | with_reducible assumption
    | (intro xS; refine keeps_gen (z := z) (x := xS) ?_ (fun _ => ?_); revert xS; dsimp only; rotate_left; clear_value xS)
    | (intro xS; refine keeps_gen_fst (z := z) (x := xS) ?_ (fun _ => ?_); revert xS; dsimp only; rotate_left; clear_value xS)
    | intro _
    | lift_lets
    | with_reducible apply hostSend_keeps
    | with_reducible exact Keeps.refl _
    | with_reducible refine keeps_foldl (fun _ _ _ => ?_) _ ?_
    | with_reducible refine keeps_foldl_fst (fun _ _ _ => ?_) _ ?_
    | split
    | dsimp only

theorem readPlain_keeps {z : State} (o : Order) (s : State) (hK : Keeps z s) : Keeps z (readPlain o s).1 := by
  unfold readPlain
  repeat' first
    | with_reducible assumption
    | (intro xS; refine keeps_gen (z := z) (x := xS) ?_ (fun _ => ?_); revert xS; dsimp only; rotate_left; clear_value xS)
    | (intro xS; refine keeps_gen_fst (z := z) (x := xS) ?_ (fun _ => ?_); revert xS; dsimp only; rotate_left; clear_value xS)
    | intro _
    | lift_lets
    | with_reducible apply orderStat_keeps
    | with_reducible apply poisonRead_keeps
    | with_reducible apply traffic_keeps
    | with_reducible apply sendPieces_keeps
    | with_reducible exact Keeps.refl _
    | with_reducible refine keeps_fst (by assumption) ?_
    | simp only [keeps_mk_eq]
    | split
    | dsimp only

theorem readBlksGo_keeps {z : State} (o : Order)  : ∀ (a0 : Nat) (a1 : Nat) (a2 : Nat) (a3 : State), Keeps z a3 → Keeps z (readBlksGo o a0 a1 a2 a3).1 := by
  intro a0
  induction a0 with
  | zero =>
    intro a1 a2 a3 hK
    first | rw [readBlksGo] | unfold readBlksGo
    repeat' first
      | with_reducible assumption
      | (intro xS; refine keeps_gen (z := z) (x := xS) ?_ (fun _ => ?_); revert xS; dsimp only; rotate_left; clear_value xS)
      | (intro xS; refine keeps_gen_fst (z := z) (x := xS) ?_ (fun _ => ?_); revert xS; dsimp only; rotate_left; clear_value xS)
      | intro _
      | lift_lets
      | with_reducible apply ih
      | with_reducible apply poisonRead_keeps
      | with_reducible apply blkTraffic_keeps
      | with_reducible exact Keeps.refl _
      | with_reducible refine keeps_fst (by assumption) ?_
      | simp only [keeps_mk_eq]
      | split
      | dsimp only
  | succ n0 ih =>
    intro a1 a2 a3 hK
    first | rw [readBlksGo] | unfold readBlksGo
    repeat' first
      | with_reducible assumption
      | (intro xS; refine keeps_gen (z := z) (x := xS) ?_ (fun _ => ?_); revert xS; dsimp only; rotate_left; clear_value xS)
      | (intro xS; refine keeps_gen_fst (z := z) (x := xS) ?_ (fun _ => ?_); revert xS; dsimp only; rotate_left; clear_value xS)
      | intro _
      | lift_lets
      | with_reducible apply ih
      | with_reducible apply poisonRead_keeps
      | with_reducible apply blkTraffic_keeps
      | with_reducible exact Keeps.refl _
      | with_reducible refine keeps_fst (by assumption) ?_
      | simp only [keeps_mk_eq]
      | split
      | dsimp only

theorem sendBodies_keeps {z : State} (o : Order)  : ∀ (a0 : List (List Byte)) (a1 : Nat) (a2 : State), Keeps z a2 → Keeps z (sendBodies o a0 a1 a2) := by
  intro a0
  induction a0 with
  | nil =>
    intro a1 a2 hK
    first | rw [sendBodies] | unfold sendBodies
    repeat' first
      | with_reducible assumption
      | with_reducible apply ih
      | with_reducible apply hostSend_keeps
      | with_reducible exact Keeps.refl _
      | with_reducible refine keeps_fst (by assumption) ?_
      | split
      | dsimp only
  | cons x0 l0 ih =>
    intro a1 a2 hK
    first | rw [sendBodies] | unfold sendBodies
    repeat' first
      | with_reducible assumption
      | with_reducible apply ih
      | with_reducible apply hostSend_keeps
      | with_reducible exact Keeps.refl _
      | with_reducible refine keeps_fst (by assumption) ?_
      | split
      | dsimp only

theorem readBlocks_keeps {z : State} (o : Order) (s : State) (hK : Keeps z s) : Keeps z (readBlocks o s).1 := by
  unfold readBlocks
  repeat' first
    | with_reducible assumption
    | (intro xS; refine keeps_gen (z := z) (x := xS) ?_ (fun _ => ?_); revert xS; dsimp only; rotate_left; clear_value xS)
    | (intro xS; refine keeps_gen_fst (z := z) (x := xS) ?_ (fun _ => ?_); revert xS; dsimp only; rotate_left; clear_value xS)
    | intro _
    | lift_lets
    | with_reducible apply readBlksGo_keeps
    | with_reducible apply orderStat_keeps
    | with_reducible apply sendBodies_keeps
    | with_reducible exact Keeps.refl _
    | with_reducible refine keeps_foldl (fun _ _ _ => ?_) _ ?_
    | with_reducible refine keeps_foldl_fst (fun _ _ _ => ?_) _ ?_
    | with_reducible refine keeps_fst (by assumption) ?_
    | simp only [keeps_mk_eq]
    | split
    | dsimp only

theorem readOrder_keeps {z : State} (o : Order) (s : State) (hK : Keeps z s) : Keeps z (readOrder o s).1 := by
  unfold readOrder
  repeat' first
    | with_reducible assumption
    | intro _
    | with_reducible apply readBlocks_keeps
    | with_reducible apply readPlain_keeps
    | with_reducible exact Keeps.refl _
    | with_reducible refine keeps_fst (by assumption) ?_
    | split
    | dsimp only

theorem signalTo_keeps {z : State} (s : State) (die i n : Nat) (hK : Keeps z s) : Keeps z (signalTo s die i n).1 := by
  unfold signalTo
  repeat' first
    | with_reducible assumption
    | intro _
    | with_reducible apply cnt_keeps
    | with_reducible apply objAdd_keeps
    | with_reducible exact Keeps.refl _
    | with_reducible refine keeps_fst (by assumption) ?_
    | split
    | dsimp only

theorem retire_keeps {z : State} (s : State) (o : Order) (hK : Keeps z s) : Keeps z (retire s o) := by
  unfold retire
  repeat' first
    | with_reducible assumption
    | (intro xS; refine keeps_gen (z := z) (x := xS) ?_ (fun _ => ?_); revert xS; dsimp only; rotate_left; clear_value xS)
    | (intro xS; refine keeps_gen_fst (z := z) (x := xS) ?_ (fun _ => ?_); revert xS; dsimp only; rotate_left; clear_value xS)
    | intro _
    | lift_lets
    | with_reducible apply signalTo_keeps
    | with_reducible apply pushEvents_keeps
    | with_reducible apply pushCompl_keeps
    | with_reducible exact Keeps.refl _
    | with_reducible refine keeps_fst (by assumption) ?_
    | simp only [keeps_mk_eq]
    | split
    | dsimp only

theorem abortTake_keeps {z : State} (f : CwtFrame) (s : State) (hK : Keeps z s) : Keeps z (abortTake f s).1 := by
  unfold abortTake
  repeat' first
    | with_reducible assumption
    | (intro xS; refine keeps_gen (z := z) (x := xS) ?_ (fun _ => ?_); revert xS; dsimp only; rotate_left; clear_value xS)
    | (intro xS; refine keeps_gen_fst (z := z) (x := xS) ?_ (fun _ => ?_); revert xS; dsimp only; rotate_left; clear_value xS)
    | intro _
    | lift_lets
    | with_reducible apply hostSend_keeps
    | with_reducible apply setHold_keeps
    | with_reducible apply setOrder_keeps
    | with_reducible exact Keeps.refl _
    | with_reducible refine keeps_fst (by assumption) ?_
    | simp only [keeps_mk_eq]
    | split
    | dsimp only

end Sys2Proof.Machine
end

