-- ==== Sys2Proof/Laws/KeepsReset.lean ====
section
/-! SUPPORT. What the operations of Reset keep. -/
namespace Sys2Proof.Machine

theorem ibi_keeps {z : State} (s : State) (b : Nat) (hK : Keeps z s) : Keeps z (ibi s b) := by
  unfold ibi
  repeat' first
    | with_reducible assumption
    | (intro xS; refine keeps_gen (z := z) (x := xS) ?_ (fun _ => ?_); revert xS; dsimp only; rotate_left; clear_value xS)
    | (intro xS; refine keeps_gen_fst (z := z) (x := xS) ?_ (fun _ => ?_); revert xS; dsimp only; rotate_left; clear_value xS)
    | intro _
    | lift_lets
    | with_reducible exact Keeps.refl _
    | simp only [keeps_mk_eq]
    | split
    | dsimp only

theorem abandonAll_keeps {z : State} (s : State) (cause : Nat) (hK : Keeps z s) : Keeps z (abandonAll s cause) := by
  unfold abandonAll
  repeat' first
    | with_reducible assumption
    | (intro xS; refine keeps_gen (z := z) (x := xS) ?_ (fun _ => ?_); revert xS; dsimp only; rotate_left; clear_value xS)
    | (intro xS; refine keeps_gen_fst (z := z) (x := xS) ?_ (fun _ => ?_); revert xS; dsimp only; rotate_left; clear_value xS)
    | intro _
    | lift_lets
    | with_reducible apply abandon_keeps
    | with_reducible exact Keeps.refl _
    | simp only [keeps_mk_eq]
    | split
    | dsimp only

theorem pwrRefused_keeps {z : State} (s : State) (why : Nat) (hK : Keeps z s) : Keeps z (pwrRefused s why) := by
  unfold pwrRefused
  repeat' first
    | with_reducible assumption
    | intro _
    | with_reducible apply raise_keeps
    | with_reducible apply cnt_keeps
    | with_reducible apply setFld_keeps
    | with_reducible exact Keeps.refl _
    | split
    | dsimp only

theorem pwrTake_keeps {z : State} (s : State) (t : Nat) (hK : Keeps z s) : Keeps z (pwrTake s t) := by
  unfold pwrTake
  repeat' first
    | with_reducible assumption
    | (intro xS; refine keeps_gen (z := z) (x := xS) ?_ (fun _ => ?_); revert xS; dsimp only; rotate_left; clear_value xS)
    | (intro xS; refine keeps_gen_fst (z := z) (x := xS) ?_ (fun _ => ?_); revert xS; dsimp only; rotate_left; clear_value xS)
    | intro _
    | lift_lets
    | with_reducible apply pwrRefused_keeps
    | with_reducible exact Keeps.refl _
    | simp only [keeps_mk_eq]
    | split
    | dsimp only

theorem pwrRequest_keeps {z : State} (s : State) (v : Nat) (hK : Keeps z s) : Keeps z (pwrRequest s v) := by
  unfold pwrRequest
  repeat' first
    | with_reducible assumption
    | (intro xS; refine keeps_gen (z := z) (x := xS) ?_ (fun _ => ?_); revert xS; dsimp only; rotate_left; clear_value xS)
    | (intro xS; refine keeps_gen_fst (z := z) (x := xS) ?_ (fun _ => ?_); revert xS; dsimp only; rotate_left; clear_value xS)
    | intro _
    | lift_lets
    | with_reducible apply pwrTake_keeps
    | with_reducible exact Keeps.refl _
    | simp only [keeps_mk_eq]
    | split
    | dsimp only

theorem dropRegs_keeps {z : State} (s : State) (p : Nat → Bool) (hK : Keeps z s) : Keeps z (dropRegs s p) := by
  unfold dropRegs
  repeat' first
    | with_reducible assumption
    | (intro xS; refine keeps_gen (z := z) (x := xS) ?_ (fun _ => ?_); revert xS; dsimp only; rotate_left; clear_value xS)
    | (intro xS; refine keeps_gen_fst (z := z) (x := xS) ?_ (fun _ => ?_); revert xS; dsimp only; rotate_left; clear_value xS)
    | intro _
    | lift_lets
    | with_reducible exact Keeps.refl _
    | simp only [keeps_mk_eq]
    | split
    | with_reducible apply keeps_mk_all
    | with_reducible apply smWf_smPut
    | with_reducible apply smWf_smUpd
    | with_reducible apply smWf_smDel
    | with_reducible apply smWf_filter
    | with_reducible apply smWf_foldl
    | intro _
    | rfl
    | split
    | dsimp only

theorem dropOps_keeps {z : State} (s : State) (p : EngOp → Bool) (hK : Keeps z s) : Keeps z (dropOps s p) := by
  unfold dropOps
  repeat' first
    | with_reducible assumption
    | (intro xS; refine keeps_gen (z := z) (x := xS) ?_ (fun _ => ?_); revert xS; dsimp only; rotate_left; clear_value xS)
    | (intro xS; refine keeps_gen_fst (z := z) (x := xS) ?_ (fun _ => ?_); revert xS; dsimp only; rotate_left; clear_value xS)
    | intro _
    | lift_lets
    | with_reducible exact Keeps.refl _
    | simp only [keeps_mk_eq]
    | split
    | dsimp only

theorem dieLose_keeps {z : State} (s : State) (d : Nat) (hK : Keeps z s) : Keeps z (dieLose s d) := by
  unfold dieLose
  repeat' first
    | with_reducible assumption
    | (intro xS; refine keeps_gen (z := z) (x := xS) ?_ (fun _ => ?_); revert xS; dsimp only; rotate_left; clear_value xS)
    | (intro xS; refine keeps_gen_fst (z := z) (x := xS) ?_ (fun _ => ?_); revert xS; dsimp only; rotate_left; clear_value xS)
    | intro _
    | lift_lets
    | with_reducible apply dropRegs_keeps
    | with_reducible apply fenceApplyWrite_keeps
    | with_reducible exact Keeps.refl _
    | with_reducible refine keeps_foldl (fun _ _ _ => ?_) _ ?_
    | with_reducible refine keeps_foldl_fst (fun _ _ _ => ?_) _ ?_
    | simp only [keeps_mk_eq]
    | split
    | with_reducible apply keeps_mk_all
    | with_reducible apply smWf_smPut
    | with_reducible apply smWf_smUpd
    | with_reducible apply smWf_smDel
    | with_reducible apply smWf_filter
    | with_reducible apply smWf_foldl
    | intro _
    | apply memPutList_wf
    | rfl
    | split
    | dsimp only

theorem sealedLost_keeps {z : State} (s : State) (d : Nat) (hK : Keeps z s) : Keeps z (sealedLost s d) := by
  unfold sealedLost
  repeat' first
    | with_reducible assumption
    | (intro xS; refine keeps_gen (z := z) (x := xS) ?_ (fun _ => ?_); revert xS; dsimp only; rotate_left; clear_value xS)
    | (intro xS; refine keeps_gen_fst (z := z) (x := xS) ?_ (fun _ => ?_); revert xS; dsimp only; rotate_left; clear_value xS)
    | intro _
    | lift_lets
    | with_reducible apply raise_keeps
    | with_reducible apply commitFailed_keeps
    | with_reducible exact Keeps.refl _
    | simp only [keeps_mk_eq]
    | split
    | dsimp only

theorem dieClear_keeps {z : State} (s : State) (d : Nat) (hK : Keeps z s) : Keeps z (dieClear s d) := by
  unfold dieClear
  repeat' first
    | with_reducible assumption
    | (intro xS; refine keeps_gen (z := z) (x := xS) ?_ (fun _ => ?_); revert xS; dsimp only; rotate_left; clear_value xS)
    | (intro xS; refine keeps_gen_fst (z := z) (x := xS) ?_ (fun _ => ?_); revert xS; dsimp only; rotate_left; clear_value xS)
    | intro _
    | lift_lets
    | with_reducible apply flushCache_keeps
    | with_reducible apply sealedLost_keeps
    | with_reducible apply dieLose_keeps
    | with_reducible apply dropOps_keeps
    | with_reducible exact Keeps.refl _
    | with_reducible refine keeps_foldl (fun _ _ _ => ?_) _ ?_
    | with_reducible refine keeps_foldl_fst (fun _ _ _ => ?_) _ ?_
    | split
    | dsimp only

theorem showDies_keeps {z : State} (s : State) (hK : Keeps z s) : Keeps z (showDies s) := by
  unfold showDies
  repeat' first
    | with_reducible assumption
    | (intro xS; refine keeps_gen (z := z) (x := xS) ?_ (fun _ => ?_); revert xS; dsimp only; rotate_left; clear_value xS)
    | (intro xS; refine keeps_gen_fst (z := z) (x := xS) ?_ (fun _ => ?_); revert xS; dsimp only; rotate_left; clear_value xS)
    | intro _
    | lift_lets
    | with_reducible exact Keeps.refl _
    | simp only [keeps_mk_eq]
    | split
    | dsimp only

theorem streamAbort_keeps {z : State} (s : State) (hK : Keeps z s) : Keeps z (streamAbort s) := by
  unfold streamAbort
  dsimp only
  repeat' first
    | with_reducible assumption
    | with_reducible apply rsnapAbort_keeps
    | with_reducible apply snapAbort_keeps
    | split

theorem dieResetStart_keeps {z : State} (s : State) (d : Nat) (hK : Keeps z s) : Keeps z (dieResetStart s d) := by
  unfold dieResetStart
  repeat' first
    | with_reducible assumption
    | (intro xS; refine keeps_gen (z := z) (x := xS) ?_ (fun _ => ?_); revert xS; dsimp only; rotate_left; clear_value xS)
    | (intro xS; refine keeps_gen_fst (z := z) (x := xS) ?_ (fun _ => ?_); revert xS; dsimp only; rotate_left; clear_value xS)
    | intro _
    | lift_lets
    | with_reducible apply dieClear_keeps
    | with_reducible apply tmArm_keeps
    | with_reducible apply showDies_keeps
    | with_reducible apply streamAbort_keeps
    | with_reducible exact Keeps.refl _
    | simp only [keeps_mk_eq]
    | split
    | dsimp only

theorem jobClear_keeps {z : State} (s0 : State) (hK : Keeps z s0) : Keeps z (jobClear s0) := by
  unfold jobClear
  repeat' first
    | with_reducible assumption
    | (intro xS; refine keeps_gen (z := z) (x := xS) ?_ (fun _ => ?_); revert xS; dsimp only; rotate_left; clear_value xS)
    | (intro xS; refine keeps_gen_fst (z := z) (x := xS) ?_ (fun _ => ?_); revert xS; dsimp only; rotate_left; clear_value xS)
    | intro _
    | lift_lets
    | with_reducible apply flushCache_keeps
    | with_reducible apply sessEnd_keeps
    | with_reducible apply bulkEnd_keeps
    | with_reducible apply rsnapAbort_keeps
    | with_reducible apply snapAbort_keeps
    | with_reducible apply dropRegs_keeps
    | with_reducible apply setFld_keeps
    | with_reducible apply setReg_keeps
    | with_reducible exact Keeps.refl _
    | with_reducible refine keeps_foldl (fun _ _ _ => ?_) _ ?_
    | with_reducible refine keeps_foldl_fst (fun _ _ _ => ?_) _ ?_
    | simp only [keeps_mk_eq]
    | split
    | with_reducible apply keeps_mk_all
    | with_reducible apply smWf_smPut
    | with_reducible apply smWf_smUpd
    | with_reducible apply smWf_smDel
    | with_reducible apply smWf_filter
    | with_reducible apply smWf_foldl
    | intro _
    | rfl
    | split
    | dsimp only

theorem unsetLogical_keeps {z : State} (s : State) (hK : Keeps z s) : Keeps z (unsetLogical s) := by
  unfold unsetLogical
  repeat' first
    | with_reducible assumption
    | intro _
    | with_reducible apply setReg_keeps
    | with_reducible exact Keeps.refl _
    | split
    | dsimp only

theorem laneResp_keeps {z : State} (s : State) (mseq cmd status : Nat) (body : List Byte) (hK : Keeps z s) : Keeps z (laneResp s mseq cmd status body) := by
  unfold laneResp
  repeat' first
    | with_reducible assumption
    | (intro xS; refine keeps_gen (z := z) (x := xS) ?_ (fun _ => ?_); revert xS; dsimp only; rotate_left; clear_value xS)
    | (intro xS; refine keeps_gen_fst (z := z) (x := xS) ?_ (fun _ => ?_); revert xS; dsimp only; rotate_left; clear_value xS)
    | intro _
    | lift_lets
    | with_reducible apply laneSend_keeps
    | with_reducible exact Keeps.refl _
    | simp only [keeps_mk_eq]
    | split
    | dsimp only

theorem laneLate_keeps {z : State} (s : State) (hK : Keeps z s) : Keeps z (laneLate s) := by
  unfold laneLate
  repeat' first
    | with_reducible assumption
    | (intro xS; refine keeps_gen (z := z) (x := xS) ?_ (fun _ => ?_); revert xS; dsimp only; rotate_left; clear_value xS)
    | (intro xS; refine keeps_gen_fst (z := z) (x := xS) ?_ (fun _ => ?_); revert xS; dsimp only; rotate_left; clear_value xS)
    | intro _
    | lift_lets
    | with_reducible apply laneResp_keeps
    | with_reducible exact Keeps.refl _
    | with_reducible refine keeps_foldl (fun _ _ _ => ?_) _ ?_
    | with_reducible refine keeps_foldl_fst (fun _ _ _ => ?_) _ ?_
    | simp only [keeps_mk_eq]
    | split
    | dsimp only

theorem jobResetGo_keeps {z : State} (s : State) (release : Bool) (hK : Keeps z s) : Keeps z (jobResetGo s release) := by
  unfold jobResetGo
  repeat' first
    | with_reducible assumption
    | intro _
    | with_reducible apply laneLate_keeps
    | with_reducible apply pwrRequest_keeps
    | with_reducible apply unsetLogical_keeps
    | with_reducible apply jobClear_keeps
    | with_reducible exact Keeps.refl _
    | split
    | dsimp only

theorem jobResetStart_keeps {z : State} (s : State) (release : Bool) (hK : Keeps z s) : Keeps z (jobResetStart s release) := by
  unfold jobResetStart
  repeat' first
    | with_reducible assumption
    | (intro xS; refine keeps_gen (z := z) (x := xS) ?_ (fun _ => ?_); revert xS; dsimp only; rotate_left; clear_value xS)
    | (intro xS; refine keeps_gen_fst (z := z) (x := xS) ?_ (fun _ => ?_); revert xS; dsimp only; rotate_left; clear_value xS)
    | intro _
    | lift_lets
    | with_reducible apply tmArm_keeps
    | with_reducible apply jobResetGo_keeps
    | with_reducible exact Keeps.refl _
    | simp only [keeps_mk_eq]
    | split
    | dsimp only

theorem jobResetCommitted_keeps {z : State} (s : State) (hK : Keeps z s) : Keeps z (jobResetCommitted s) := by
  unfold jobResetCommitted
  repeat' first
    | with_reducible assumption
    | (intro xS; refine keeps_gen (z := z) (x := xS) ?_ (fun _ => ?_); revert xS; dsimp only; rotate_left; clear_value xS)
    | (intro xS; refine keeps_gen_fst (z := z) (x := xS) ?_ (fun _ => ?_); revert xS; dsimp only; rotate_left; clear_value xS)
    | intro _
    | lift_lets
    | with_reducible apply jobResetGo_keeps
    | with_reducible exact Keeps.refl _
    | simp only [keeps_mk_eq]
    | split
    | dsimp only

theorem fencesOff_keeps {z : State} (s : State) (hK : Keeps z s) : Keeps z (fencesOff s) := by
  unfold fencesOff
  repeat' first
    | with_reducible assumption
    | intro _
    | with_reducible apply fenceApplyWrite_keeps
    | with_reducible exact Keeps.refl _
    | with_reducible refine keeps_foldl (fun _ _ _ => ?_) _ ?_
    | with_reducible refine keeps_foldl_fst (fun _ _ _ => ?_) _ ?_
    | split
    | dsimp only

theorem bootOver_keeps {z : State} (s : State) (stage : Nat) (hK : Keeps z s) : Keeps z (bootOver s stage) :=
  ⟨hK.1, hK.2.1, fun c => ⟨rfl, smWf_foldl (fun _ _ hm => smWf_smPut _ _ hm) _ (hK.2.2 c).2.1, rfl, rfl⟩⟩

theorem bootFrom_keeps {z : State} (s0 : State) (stage : Nat) (hK : Keeps z s0) : Keeps z (bootFrom s0 stage) := by
  unfold bootFrom
  repeat' first
    | with_reducible assumption
    | intro _
    | with_reducible apply bootOver_keeps
    | with_reducible apply fencesOff_keeps
    | with_reducible apply dropRegs_keeps
    | with_reducible exact Keeps.refl _
    | split
    | dsimp only

theorem bootStart_keeps {z : State} (s : State) (stage : Nat) (hK : Keeps z s) : Keeps z (bootStart s stage) := by
  unfold bootStart
  repeat' first
    | with_reducible assumption
    | (intro xS; refine keeps_gen (z := z) (x := xS) ?_ (fun _ => ?_); revert xS; dsimp only; rotate_left; clear_value xS)
    | (intro xS; refine keeps_gen_fst (z := z) (x := xS) ?_ (fun _ => ?_); revert xS; dsimp only; rotate_left; clear_value xS)
    | intro _
    | lift_lets
    | with_reducible apply bootFrom_keeps
    | with_reducible apply ibi_keeps
    | with_reducible exact Keeps.refl _
    | simp only [keeps_mk_eq]
    | split
    | dsimp only

theorem moduleReset_keeps {z : State} (s : State) (hK : Keeps z s) : Keeps z (moduleReset s) := by
  unfold moduleReset
  repeat' first
    | with_reducible assumption
    | intro _
    | with_reducible apply bootStart_keeps
    | with_reducible exact Keeps.refl _
    | split
    | dsimp only

theorem powerOff_keeps {z : State} (s : State) (hK : Keeps z s) : Keeps z (powerOff s) := by
  unfold powerOff
  repeat' first
    | with_reducible assumption
    | (intro xS; refine keeps_gen (z := z) (x := xS) ?_ (fun _ => ?_); revert xS; dsimp only; rotate_left; clear_value xS)
    | (intro xS; refine keeps_gen_fst (z := z) (x := xS) ?_ (fun _ => ?_); revert xS; dsimp only; rotate_left; clear_value xS)
    | intro _
    | lift_lets
    | with_reducible apply bootFrom_keeps
    | with_reducible exact Keeps.refl _
    | simp only [keeps_mk_eq]
    | split
    | dsimp only

end Sys2Proof.Machine
end

