-- ==== Sys2Proof/Laws/KeepsSec.lean ====
section
/-! SUPPORT. What the operations of Sec keep. -/
namespace Sys2Proof.Machine

theorem imgLoad_keeps {z : State} (s : State) (ty : Nat) (imgs : List ((List Byte × List Byte) × (List Byte × List Byte))) (hK : Keeps z s) : ∀ t', imgLoad s ty imgs = some t' → Keeps z t' := by
  unfold imgLoad
  dsimp only
  repeat' first | split | (intro _ h; cases h; done) | (intro _ h; cases h) 
  all_goals (try dsimp only)
  repeat' first
    | with_reducible assumption
    | (intro xS; refine keeps_gen (z := z) (x := xS) ?_ (fun _ => ?_); revert xS; dsimp only; rotate_left; clear_value xS)
    | (intro xS; refine keeps_gen_fst (z := z) (x := xS) ?_ (fun _ => ?_); revert xS; dsimp only; rotate_left; clear_value xS)
    | intro _
    | lift_lets
    | with_reducible exact Keeps.refl _
    | simp only [keeps_mk_eq]
    | split
    | dsimp only

theorem alarmLog_keeps {z : State} (s : State) (x : Nat × Int) (hK : Keeps z s) : Keeps z (alarmLog s x) := by
  unfold alarmLog
  repeat' first
    | with_reducible assumption
    | (intro xS; refine keeps_gen (z := z) (x := xS) ?_ (fun _ => ?_); revert xS; dsimp only; rotate_left; clear_value xS)
    | (intro xS; refine keeps_gen_fst (z := z) (x := xS) ?_ (fun _ => ?_); revert xS; dsimp only; rotate_left; clear_value xS)
    | intro _
    | lift_lets
    | with_reducible apply setFld_keeps
    | with_reducible apply ibi_keeps
    | with_reducible apply raise_keeps
    | with_reducible exact Keeps.refl _
    | simp only [keeps_mk_eq]
    | split
    | dsimp only

theorem eraseKeys_keeps {z : State} (s : State) (hK : Keeps z s) : Keeps z (eraseKeys s) := by
  unfold eraseKeys
  repeat' first
    | with_reducible assumption
    | (intro xS; refine keeps_gen (z := z) (x := xS) ?_ (fun _ => ?_); revert xS; dsimp only; rotate_left; clear_value xS)
    | (intro xS; refine keeps_gen_fst (z := z) (x := xS) ?_ (fun _ => ?_); revert xS; dsimp only; rotate_left; clear_value xS)
    | intro _
    | lift_lets
    | with_reducible apply raise_keeps
    | with_reducible exact Keeps.refl _
    | simp only [keeps_mk_eq]
    | split
    | dsimp only

theorem lockModule_keeps {z : State} (s : State) (hK : Keeps z s) : Keeps z (lockModule s) := by
  unfold lockModule
  repeat' first
    | with_reducible assumption
    | intro _
    | with_reducible apply abandonAll_keeps
    | with_reducible apply setFld_keeps
    | with_reducible exact Keeps.refl _
    | split
    | dsimp only

theorem alarms_keeps {z : State} (s : State) (l : List (Nat × Int)) (hK : Keeps z s) : Keeps z (alarms s l) := by
  unfold alarms
  repeat' first
    | with_reducible assumption
    | (intro xS; refine keeps_gen (z := z) (x := xS) ?_ (fun _ => ?_); revert xS; dsimp only; rotate_left; clear_value xS)
    | (intro xS; refine keeps_gen_fst (z := z) (x := xS) ?_ (fun _ => ?_); revert xS; dsimp only; rotate_left; clear_value xS)
    | intro _
    | lift_lets
    | with_reducible apply alarmLog_keeps
    | with_reducible apply eraseKeys_keeps
    | with_reducible apply lockModule_keeps
    | with_reducible apply moduleReset_keeps
    | with_reducible exact Keeps.refl _
    | with_reducible refine keeps_foldl (fun _ _ _ => ?_) _ ?_
    | with_reducible refine keeps_foldl_fst (fun _ _ _ => ?_) _ ?_
    | split
    | dsimp only

theorem alarm_keeps {z : State} (s : State) (source : Nat) (temp : Int) (hK : Keeps z s) : Keeps z (alarm s source temp) := by
  unfold alarm
  repeat' first
    | with_reducible assumption
    | (intro xS; refine keeps_gen (z := z) (x := xS) ?_ (fun _ => ?_); revert xS; dsimp only; rotate_left; clear_value xS)
    | (intro xS; refine keeps_gen_fst (z := z) (x := xS) ?_ (fun _ => ?_); revert xS; dsimp only; rotate_left; clear_value xS)
    | intro _
    | lift_lets
    | with_reducible apply alarms_keeps
    | with_reducible exact Keeps.refl _
    | simp only [keeps_mk_eq]
    | split
    | dsimp only

theorem alarmsLatched_keeps {z : State} (s : State) (hK : Keeps z s) : Keeps z (alarmsLatched s) := by
  unfold alarmsLatched
  repeat' first
    | with_reducible assumption
    | (intro xS; refine keeps_gen (z := z) (x := xS) ?_ (fun _ => ?_); revert xS; dsimp only; rotate_left; clear_value xS)
    | (intro xS; refine keeps_gen_fst (z := z) (x := xS) ?_ (fun _ => ?_); revert xS; dsimp only; rotate_left; clear_value xS)
    | intro _
    | lift_lets
    | with_reducible apply alarms_keeps
    | with_reducible exact Keeps.refl _
    | simp only [keeps_mk_eq]
    | split
    | dsimp only

theorem execLidOpen_keeps {z : State} (temp : Int) (s : State) (hK : Keeps z s) : ∀ t', execLidOpen temp s = .next t' → Keeps z t' := by
  unfold execLidOpen
  repeat' first
    | with_reducible (refine (run_keeps ?_ : ∀ t, _ = Host.Outcome.next t → Keeps _ t))
    | with_reducible assumption
    | intro _
    | with_reducible apply alarm_keeps
    | with_reducible exact Keeps.refl _
    | split
    | dsimp only

theorem execVoltageGlitch_keeps {z : State} (temp : Int) (s : State) (hK : Keeps z s) : ∀ t', execVoltageGlitch temp s = .next t' → Keeps z t' := by
  unfold execVoltageGlitch
  repeat' first
    | with_reducible (refine (run_keeps ?_ : ∀ t, _ = Host.Outcome.next t → Keeps _ t))
    | with_reducible assumption
    | intro _
    | with_reducible apply alarm_keeps
    | with_reducible exact Keeps.refl _
    | split
    | dsimp only

theorem execClockGlitch_keeps {z : State} (temp : Int) (s : State) (hK : Keeps z s) : ∀ t', execClockGlitch temp s = .next t' → Keeps z t' := by
  unfold execClockGlitch
  repeat' first
    | with_reducible (refine (run_keeps ?_ : ∀ t, _ = Host.Outcome.next t → Keeps _ t))
    | with_reducible assumption
    | intro _
    | with_reducible apply alarm_keeps
    | with_reducible exact Keeps.refl _
    | split
    | dsimp only

theorem attest_keeps {z : State} (s : State) (nonce : List Byte) (hK : Keeps z s) : ∀ t', attest s nonce = some t' → Keeps z t'.1 := by
  unfold attest
  dsimp only
  repeat' first | split | (intro _ h; cases h; done) | (intro _ h; cases h) 
  all_goals (try dsimp only)
  repeat' first
    | with_reducible assumption
    | (intro xS; refine keeps_gen (z := z) (x := xS) ?_ (fun _ => ?_); revert xS; dsimp only; rotate_left; clear_value xS)
    | (intro xS; refine keeps_gen_fst (z := z) (x := xS) ?_ (fun _ => ?_); revert xS; dsimp only; rotate_left; clear_value xS)
    | intro _
    | lift_lets
    | with_reducible apply signMsg_keeps
    | with_reducible exact Keeps.refl _
    | with_reducible refine keeps_fst (by assumption) ?_
    | split
    | dsimp only

theorem mbAttest_keeps {z : State} (s : State) (c len : Nat) (hK : Keeps z s) : Keeps z (mbAttest s c len) := by
  unfold mbAttest
  repeat' first
    | with_reducible assumption
    | (intro xS; refine keeps_gen (z := z) (x := xS) ?_ (fun _ => ?_); revert xS; dsimp only; rotate_left; clear_value xS)
    | (intro xS; refine keeps_gen_fst (z := z) (x := xS) ?_ (fun _ => ?_); revert xS; dsimp only; rotate_left; clear_value xS)
    | intro _
    | lift_lets
    | with_reducible apply mbDone_keeps
    | (with_reducible refine attest_keeps _ _ ?_ _ (by assumption))
    | with_reducible exact Keeps.refl _
    | with_reducible refine keeps_fst (by assumption) ?_
    | simp only [keeps_mk_eq]
    | split
    | dsimp only

theorem mbSignStart_keeps {z : State} (s : State) (c : Nat) (hK : Keeps z s) : Keeps z (mbSignStart s c) := by
  unfold mbSignStart
  repeat' first
    | with_reducible assumption
    | intro _
    | with_reducible apply mbDone_keeps
    | with_reducible apply setStream_keeps
    | with_reducible exact Keeps.refl _
    | split
    | dsimp only

theorem mbSignData_keeps {z : State} (s : State) (c len : Nat) (hK : Keeps z s) : Keeps z (mbSignData s c len) := by
  unfold mbSignData
  repeat' first
    | with_reducible assumption
    | (intro xS; refine keeps_gen (z := z) (x := xS) ?_ (fun _ => ?_); revert xS; dsimp only; rotate_left; clear_value xS)
    | (intro xS; refine keeps_gen_fst (z := z) (x := xS) ?_ (fun _ => ?_); revert xS; dsimp only; rotate_left; clear_value xS)
    | intro _
    | lift_lets
    | with_reducible apply mbDone_keeps
    | with_reducible apply setStream_keeps
    | with_reducible exact Keeps.refl _
    | simp only [keeps_mk_eq]
    | split
    | dsimp only

theorem mbSignEnd_keeps {z : State} (s : State) (c : Nat) (hK : Keeps z s) : Keeps z (mbSignEnd s c) := by
  unfold mbSignEnd
  repeat' first
    | with_reducible assumption
    | (intro xS; refine keeps_gen (z := z) (x := xS) ?_ (fun _ => ?_); revert xS; dsimp only; rotate_left; clear_value xS)
    | (intro xS; refine keeps_gen_fst (z := z) (x := xS) ?_ (fun _ => ?_); revert xS; dsimp only; rotate_left; clear_value xS)
    | intro _
    | lift_lets
    | with_reducible apply mbDone_keeps
    | with_reducible apply setStream_keeps
    | with_reducible apply signMsg_keeps
    | with_reducible exact Keeps.refl _
    | with_reducible refine keeps_fst (by assumption) ?_
    | simp only [keeps_mk_eq]
    | split
    | dsimp only

theorem mbChallenge_keeps {z : State} (s : State) (c : Nat) (hK : Keeps z s) : Keeps z (mbChallenge s c) := by
  unfold mbChallenge
  repeat' first
    | with_reducible assumption
    | (intro xS; refine keeps_gen (z := z) (x := xS) ?_ (fun _ => ?_); revert xS; dsimp only; rotate_left; clear_value xS)
    | (intro xS; refine keeps_gen_fst (z := z) (x := xS) ?_ (fun _ => ?_); revert xS; dsimp only; rotate_left; clear_value xS)
    | intro _
    | lift_lets
    | with_reducible apply mbDone_keeps
    | with_reducible exact Keeps.refl _
    | simp only [keeps_mk_eq]
    | split
    | dsimp only

theorem dbgFail_keeps {z : State} (s : State) (c : Nat) (temp : Int) (hK : Keeps z s) : Keeps z (dbgFail s c temp) := by
  unfold dbgFail
  repeat' first
    | with_reducible assumption
    | (intro xS; refine keeps_gen (z := z) (x := xS) ?_ (fun _ => ?_); revert xS; dsimp only; rotate_left; clear_value xS)
    | (intro xS; refine keeps_gen_fst (z := z) (x := xS) ?_ (fun _ => ?_); revert xS; dsimp only; rotate_left; clear_value xS)
    | intro _
    | lift_lets
    | with_reducible apply mbDone_keeps
    | with_reducible apply setReg_keeps
    | with_reducible apply alarm_keeps
    | with_reducible exact Keeps.refl _
    | split
    | dsimp only

theorem mbResponse_keeps {z : State} (s : State) (c len : Nat) (temp : Int) (hK : Keeps z s) : Keeps z (mbResponse s c len temp) := by
  unfold mbResponse
  repeat' first
    | with_reducible assumption
    | (intro xS; refine keeps_gen (z := z) (x := xS) ?_ (fun _ => ?_); revert xS; dsimp only; rotate_left; clear_value xS)
    | (intro xS; refine keeps_gen_fst (z := z) (x := xS) ?_ (fun _ => ?_); revert xS; dsimp only; rotate_left; clear_value xS)
    | intro _
    | lift_lets
    | with_reducible apply mbDone_keeps
    | with_reducible apply dbgFail_keeps
    | with_reducible apply setFld_keeps
    | with_reducible exact Keeps.refl _
    | simp only [keeps_mk_eq]
    | split
    | dsimp only

theorem mbAdvance_keeps {z : State} (s : State) (c : Nat) (hK : Keeps z s) : Keeps z (mbAdvance s c) := by
  unfold mbAdvance
  repeat' first
    | with_reducible assumption
    | (intro xS; refine keeps_gen (z := z) (x := xS) ?_ (fun _ => ?_); revert xS; dsimp only; rotate_left; clear_value xS)
    | (intro xS; refine keeps_gen_fst (z := z) (x := xS) ?_ (fun _ => ?_); revert xS; dsimp only; rotate_left; clear_value xS)
    | intro _
    | lift_lets
    | with_reducible apply mbDone_keeps
    | with_reducible exact Keeps.refl _
    | with_reducible refine keeps_foldl (fun _ _ _ => ?_) _ ?_
    | with_reducible refine keeps_foldl_fst (fun _ _ _ => ?_) _ ?_
    | simp only [keeps_mk_eq]
    | split
    | dsimp only

theorem mbProvision_keeps {z : State} (s : State) (c len : Nat) (tok : Bool) (hK : Keeps z s) : Keeps z (mbProvision s c len tok) := by
  unfold mbProvision
  repeat' first
    | with_reducible assumption
    | (intro xS; refine keeps_gen (z := z) (x := xS) ?_ (fun _ => ?_); revert xS; dsimp only; rotate_left; clear_value xS)
    | (intro xS; refine keeps_gen_fst (z := z) (x := xS) ?_ (fun _ => ?_); revert xS; dsimp only; rotate_left; clear_value xS)
    | intro _
    | lift_lets
    | with_reducible apply mbDone_keeps
    | with_reducible exact Keeps.refl _
    | simp only [keeps_mk_eq]
    | split
    | dsimp only

end Sys2Proof.Machine
end

