-- ==== Sys2Proof/Laws/KeepsPower.lean ====
section
/-! SUPPORT. What the operations of Power keep. -/
namespace Sys2Proof.Machine

theorem dieOff_keeps {z : State} (s : State) (d : Nat) (hK : Keeps z s) : Keeps z (dieOff s d) := by
  unfold dieOff
  repeat' first
    | with_reducible assumption
    | (intro xS; refine keeps_gen (z := z) (x := xS) ?_ (fun _ => ?_); revert xS; dsimp only; rotate_left; clear_value xS)
    | (intro xS; refine keeps_gen_fst (z := z) (x := xS) ?_ (fun _ => ?_); revert xS; dsimp only; rotate_left; clear_value xS)
    | intro _
    | lift_lets
    | with_reducible apply dieLose_keeps
    | with_reducible apply sealedLost_keeps
    | with_reducible apply showDies_keeps
    | with_reducible exact Keeps.refl _
    | simp only [keeps_mk_eq]
    | split
    | dsimp only

theorem opRailFault_keeps {z : State} (die rail : Nat) (s : State) (hK : Keeps z s) : Keeps z (opRailFault die rail s) := by
  unfold opRailFault
  repeat' first
    | with_reducible assumption
    | (intro xS; refine keeps_gen (z := z) (x := xS) ?_ (fun _ => ?_); revert xS; dsimp only; rotate_left; clear_value xS)
    | (intro xS; refine keeps_gen_fst (z := z) (x := xS) ?_ (fun _ => ?_); revert xS; dsimp only; rotate_left; clear_value xS)
    | intro _
    | lift_lets
    | with_reducible apply ibi_keeps
    | with_reducible apply raise_keeps
    | with_reducible apply dieOff_keeps
    | with_reducible apply powerOff_keeps
    | with_reducible exact Keeps.refl _
    | simp only [keeps_mk_eq]
    | split
    | dsimp only

theorem execRailFault_keeps {z : State} (die : Fin 5) (rail : BitVec 8) (s : State) (hK : Keeps z s) : ∀ t', execRailFault die rail s = .next t' → Keeps z t' := by
  unfold execRailFault
  repeat' first
    | with_reducible (refine (run_keeps ?_ : ∀ t, _ = Host.Outcome.next t → Keeps _ t))
    | with_reducible assumption
    | intro _
    | with_reducible apply opRailFault_keeps
    | with_reducible exact Keeps.refl _
    | split
    | dsimp only

theorem opInputExcursion_keeps {z : State} (mv : Nat) (s : State) (hK : Keeps z s) : Keeps z (opInputExcursion mv s) := by
  unfold opInputExcursion
  repeat' first
    | with_reducible assumption
    | intro _
    | with_reducible apply ibi_keeps
    | with_reducible apply raise_keeps
    | with_reducible apply cnt_keeps
    | with_reducible exact Keeps.refl _
    | split
    | dsimp only

theorem execInputExcursion_keeps {z : State} (mv : BitVec 16) (s : State) (hK : Keeps z s) : ∀ t', execInputExcursion mv s = .next t' → Keeps z t' := by
  unfold execInputExcursion
  repeat' first
    | with_reducible (refine (run_keeps ?_ : ∀ t, _ = Host.Outcome.next t → Keeps _ t))
    | with_reducible assumption
    | intro _
    | with_reducible apply opInputExcursion_keeps
    | with_reducible exact Keeps.refl _
    | split
    | dsimp only

theorem opInputPowerLoss_keeps {z : State} (s : State) (hK : Keeps z s) : Keeps z (opInputPowerLoss s) := by
  unfold opInputPowerLoss
  repeat' first
    | with_reducible assumption
    | intro _
    | with_reducible apply powerOff_keeps
    | with_reducible exact Keeps.refl _
    | split
    | dsimp only

theorem execInputPowerLoss_keeps {z : State} (s : State) (hK : Keeps z s) : ∀ t', execInputPowerLoss s = .next t' → Keeps z t' := by
  unfold execInputPowerLoss
  repeat' first
    | with_reducible (refine (run_keeps ?_ : ∀ t, _ = Host.Outcome.next t → Keeps _ t))
    | with_reducible assumption
    | intro _
    | with_reducible apply opInputPowerLoss_keeps
    | with_reducible exact Keeps.refl _
    | split
    | dsimp only

theorem opPowerOn_keeps {z : State} (s : State) (hK : Keeps z s) : Keeps z (opPowerOn s) := by
  unfold opPowerOn
  repeat' first
    | with_reducible assumption
    | intro _
    | with_reducible apply bootStart_keeps
    | with_reducible exact Keeps.refl _
    | split
    | dsimp only

theorem execPowerOn_keeps {z : State} (s : State) (hK : Keeps z s) : ∀ t', execPowerOn s = .next t' → Keeps z t' := by
  unfold execPowerOn
  repeat' first
    | with_reducible (refine (run_keeps ?_ : ∀ t, _ = Host.Outcome.next t → Keeps _ t))
    | with_reducible assumption
    | intro _
    | with_reducible apply opPowerOn_keeps
    | with_reducible exact Keeps.refl _
    | split
    | dsimp only

theorem execPwrEnMate_keeps {z : State} (s : State) (hK : Keeps z s) : ∀ t', execPwrEnMate s = .next t' → Keeps z t' := by
  unfold execPwrEnMate
  repeat' first
    | with_reducible (refine (run_keeps ?_ : ∀ t, _ = Host.Outcome.next t → Keeps _ t))
    | with_reducible assumption
    | (intro xS; refine keeps_gen (z := z) (x := xS) ?_ (fun _ => ?_); revert xS; dsimp only; rotate_left; clear_value xS)
    | (intro xS; refine keeps_gen_fst (z := z) (x := xS) ?_ (fun _ => ?_); revert xS; dsimp only; rotate_left; clear_value xS)
    | intro _
    | lift_lets
    | with_reducible exact Keeps.refl _
    | simp only [keeps_mk_eq]
    | split
    | dsimp only

theorem opPwrEnOpen_keeps {z : State} (s : State) (hK : Keeps z s) : Keeps z (opPwrEnOpen s) := by
  unfold opPwrEnOpen
  repeat' first
    | with_reducible assumption
    | (intro xS; refine keeps_gen (z := z) (x := xS) ?_ (fun _ => ?_); revert xS; dsimp only; rotate_left; clear_value xS)
    | (intro xS; refine keeps_gen_fst (z := z) (x := xS) ?_ (fun _ => ?_); revert xS; dsimp only; rotate_left; clear_value xS)
    | intro _
    | lift_lets
    | with_reducible apply opInputPowerLoss_keeps
    | with_reducible exact Keeps.refl _
    | simp only [keeps_mk_eq]
    | split
    | dsimp only

theorem execPwrEnOpen_keeps {z : State} (s : State) (hK : Keeps z s) : ∀ t', execPwrEnOpen s = .next t' → Keeps z t' := by
  unfold execPwrEnOpen
  repeat' first
    | with_reducible (refine (run_keeps ?_ : ∀ t, _ = Host.Outcome.next t → Keeps _ t))
    | with_reducible assumption
    | intro _
    | with_reducible apply opPwrEnOpen_keeps
    | with_reducible exact Keeps.refl _
    | split
    | dsimp only

theorem opPowerSample_keeps {z : State} (w1 w100 mv : Nat) (s : State) (hK : Keeps z s) : Keeps z (opPowerSample w1 w100 mv s) := by
  unfold opPowerSample
  repeat' first
    | with_reducible assumption
    | (intro xS; refine keeps_gen (z := z) (x := xS) ?_ (fun _ => ?_); revert xS; dsimp only; rotate_left; clear_value xS)
    | (intro xS; refine keeps_gen_fst (z := z) (x := xS) ?_ (fun _ => ?_); revert xS; dsimp only; rotate_left; clear_value xS)
    | intro _
    | lift_lets
    | with_reducible apply setReg_keeps
    | with_reducible apply ibi_keeps
    | with_reducible apply raise_keeps
    | with_reducible exact Keeps.refl _
    | simp only [keeps_mk_eq]
    | split
    | dsimp only

theorem execPowerSample_keeps {z : State} (w1 w100 mv : BitVec 16) (s : State) (hK : Keeps z s) : ∀ t', execPowerSample w1 w100 mv s = .next t' → Keeps z t' := by
  unfold execPowerSample
  repeat' first
    | with_reducible (refine (run_keeps ?_ : ∀ t, _ = Host.Outcome.next t → Keeps _ t))
    | with_reducible assumption
    | intro _
    | with_reducible apply opPowerSample_keeps
    | with_reducible exact Keeps.refl _
    | split
    | dsimp only

theorem showCaps_keeps {z : State} (s : State) (hK : Keeps z s) : Keeps z (showCaps s) := by
  unfold showCaps
  repeat' first
    | with_reducible assumption
    | intro _
    | with_reducible apply setFld_keeps
    | with_reducible exact Keeps.refl _
    | with_reducible refine keeps_foldl (fun _ _ _ => ?_) _ ?_
    | with_reducible refine keeps_foldl_fst (fun _ _ _ => ?_) _ ?_
    | split
    | dsimp only

theorem opPowerCapStep_keeps {z : State} (s : State) (hK : Keeps z s) : Keeps z (opPowerCapStep s) := by
  unfold opPowerCapStep
  repeat' first
    | with_reducible assumption
    | (intro xS; refine keeps_gen (z := z) (x := xS) ?_ (fun _ => ?_); revert xS; dsimp only; rotate_left; clear_value xS)
    | (intro xS; refine keeps_gen_fst (z := z) (x := xS) ?_ (fun _ => ?_); revert xS; dsimp only; rotate_left; clear_value xS)
    | intro _
    | lift_lets
    | with_reducible apply tmArm_keeps
    | with_reducible apply showCaps_keeps
    | with_reducible exact Keeps.refl _
    | simp only [keeps_mk_eq]
    | split
    | dsimp only

theorem execPowerCapStep_keeps {z : State} (s : State) (hK : Keeps z s) : ∀ t', execPowerCapStep s = .next t' → Keeps z t' := by
  unfold execPowerCapStep
  repeat' first
    | with_reducible (refine (run_keeps ?_ : ∀ t, _ = Host.Outcome.next t → Keeps _ t))
    | with_reducible assumption
    | intro _
    | with_reducible apply opPowerCapStep_keeps
    | with_reducible exact Keeps.refl _
    | split
    | dsimp only

theorem levelReport_keeps {z : State} (s : State) (d level : Nat) (hK : Keeps z s) : Keeps z (levelReport s d level) := by
  unfold levelReport
  repeat' first
    | with_reducible assumption
    | (intro xS; refine keeps_gen (z := z) (x := xS) ?_ (fun _ => ?_); revert xS; dsimp only; rotate_left; clear_value xS)
    | (intro xS; refine keeps_gen_fst (z := z) (x := xS) ?_ (fun _ => ?_); revert xS; dsimp only; rotate_left; clear_value xS)
    | intro _
    | lift_lets
    | with_reducible apply ibi_keeps
    | with_reducible apply raise_keeps
    | with_reducible exact Keeps.refl _
    | simp only [keeps_mk_eq]
    | split
    | dsimp only

theorem levelEnter_keeps {z : State} (s : State) (d old new : Nat) (hK : Keeps z s) : Keeps z (levelEnter s d old new) := by
  unfold levelEnter
  repeat' first
    | with_reducible assumption
    | (intro xS; refine keeps_gen (z := z) (x := xS) ?_ (fun _ => ?_); revert xS; dsimp only; rotate_left; clear_value xS)
    | (intro xS; refine keeps_gen_fst (z := z) (x := xS) ?_ (fun _ => ?_); revert xS; dsimp only; rotate_left; clear_value xS)
    | intro _
    | lift_lets
    | with_reducible apply flicker_keeps
    | with_reducible apply health_keeps
    | with_reducible apply ibi_keeps
    | with_reducible apply raise_keeps
    | with_reducible exact Keeps.refl _
    | split
    | dsimp only

theorem coldAlarm_keeps {z : State} (s : State) (d : Nat) (t : Int) (hK : Keeps z s) : Keeps z (coldAlarm s d t) := by
  unfold coldAlarm
  repeat' first
    | with_reducible assumption
    | intro _
    | with_reducible apply alarm_keeps
    | with_reducible exact Keeps.refl _
    | simp only [keeps_mk_eq]
    | split
    | dsimp only

theorem opThermalSample_keeps {z : State} (d : Nat) (t : Int) (units : List (Nat × Nat × Int)) (s : State) (hK : Keeps z s) : Keeps z (opThermalSample d t units s) := by
  unfold opThermalSample
  repeat' first
    | with_reducible assumption
    | (intro xS; refine keeps_gen (z := z) (x := xS) ?_ (fun _ => ?_); revert xS; dsimp only; rotate_left; clear_value xS)
    | (intro xS; refine keeps_gen_fst (z := z) (x := xS) ?_ (fun _ => ?_); revert xS; dsimp only; rotate_left; clear_value xS)
    | intro _
    | lift_lets
    | with_reducible apply setFld_keeps
    | with_reducible apply thrReport_keeps
    | with_reducible apply levelReport_keeps
    | with_reducible apply levelEnter_keeps
    | with_reducible apply unitTemp_keeps
    | with_reducible apply showCaps_keeps
    | with_reducible apply coldAlarm_keeps
    | with_reducible exact Keeps.refl _
    | with_reducible refine keeps_foldl (fun _ _ _ => ?_) _ ?_
    | with_reducible refine keeps_foldl_fst (fun _ _ _ => ?_) _ ?_
    | simp only [keeps_mk_eq]
    | split
    | dsimp only

theorem execThermalSample_keeps {z : State} (d : Fin 5) (t : Int) (units : List (Fin 4 × Fin 66 × Int)) (s : State) (hK : Keeps z s) : ∀ t', execThermalSample d t units s = .next t' → Keeps z t' := by
  unfold execThermalSample
  repeat' first
    | with_reducible (refine (run_keeps ?_ : ∀ t, _ = Host.Outcome.next t → Keeps _ t))
    | with_reducible assumption
    | intro _
    | with_reducible apply opThermalSample_keeps
    | with_reducible exact Keeps.refl _
    | split
    | dsimp only

theorem opThermalTrip_keeps {z : State} (d : Nat) (s : State) (hK : Keeps z s) : Keeps z (opThermalTrip d s) := by
  unfold opThermalTrip
  repeat' first
    | with_reducible assumption
    | (intro xS; refine keeps_gen (z := z) (x := xS) ?_ (fun _ => ?_); revert xS; dsimp only; rotate_left; clear_value xS)
    | (intro xS; refine keeps_gen_fst (z := z) (x := xS) ?_ (fun _ => ?_); revert xS; dsimp only; rotate_left; clear_value xS)
    | intro _
    | lift_lets
    | with_reducible apply dieOff_keeps
    | with_reducible apply setFld_keeps
    | with_reducible apply linkDark_keeps
    | with_reducible apply alarm_keeps
    | with_reducible apply ibi_keeps
    | with_reducible apply raise_keeps
    | with_reducible exact Keeps.refl _
    | with_reducible refine keeps_foldl (fun _ _ _ => ?_) _ ?_
    | with_reducible refine keeps_foldl_fst (fun _ _ _ => ?_) _ ?_
    | simp only [keeps_mk_eq]
    | split
    | dsimp only

theorem execThermalTrip_keeps {z : State} (d : Fin 5) (s : State) (hK : Keeps z s) : ∀ t', execThermalTrip d s = .next t' → Keeps z t' := by
  unfold execThermalTrip
  repeat' first
    | with_reducible (refine (run_keeps ?_ : ∀ t, _ = Host.Outcome.next t → Keeps _ t))
    | with_reducible assumption
    | intro _
    | with_reducible apply opThermalTrip_keeps
    | with_reducible exact Keeps.refl _
    | split
    | dsimp only

theorem opCoolantCheck_keeps {z : State} (inlet outlet : Int) (s : State) (hK : Keeps z s) : Keeps z (opCoolantCheck inlet outlet s) := by
  unfold opCoolantCheck
  repeat' first
    | with_reducible assumption
    | (intro xS; refine keeps_gen (z := z) (x := xS) ?_ (fun _ => ?_); revert xS; dsimp only; rotate_left; clear_value xS)
    | (intro xS; refine keeps_gen_fst (z := z) (x := xS) ?_ (fun _ => ?_); revert xS; dsimp only; rotate_left; clear_value xS)
    | intro _
    | lift_lets
    | with_reducible apply setFld_keeps
    | with_reducible apply raiseIf_keeps
    | with_reducible exact Keeps.refl _
    | simp only [keeps_mk_eq]
    | split
    | dsimp only

theorem execCoolantCheck_keeps {z : State} (inlet outlet : Int) (s : State) (hK : Keeps z s) : ∀ t', execCoolantCheck inlet outlet s = .next t' → Keeps z t' := by
  unfold execCoolantCheck
  repeat' first
    | with_reducible (refine (run_keeps ?_ : ∀ t, _ = Host.Outcome.next t → Keeps _ t))
    | with_reducible assumption
    | (intro xS; refine keeps_gen (z := z) (x := xS) ?_ (fun _ => ?_); revert xS; dsimp only; rotate_left; clear_value xS)
    | (intro xS; refine keeps_gen_fst (z := z) (x := xS) ?_ (fun _ => ?_); revert xS; dsimp only; rotate_left; clear_value xS)
    | intro _
    | lift_lets
    | with_reducible apply opCoolantCheck_keeps
    | with_reducible exact Keeps.refl _
    | split
    | dsimp only

theorem wakeArm_keeps {z : State} (s : State) (hK : Keeps z s) : Keeps z (wakeArm s) := by
  unfold wakeArm
  repeat' first
    | with_reducible assumption
    | (intro xS; refine keeps_gen (z := z) (x := xS) ?_ (fun _ => ?_); revert xS; dsimp only; rotate_left; clear_value xS)
    | (intro xS; refine keeps_gen_fst (z := z) (x := xS) ?_ (fun _ => ?_); revert xS; dsimp only; rotate_left; clear_value xS)
    | intro _
    | lift_lets
    | with_reducible apply tmOff_keeps
    | with_reducible apply wake_keeps
    | with_reducible apply tmArm_keeps
    | with_reducible exact Keeps.refl _
    | simp only [keeps_mk_eq]
    | split
    | dsimp only

theorem lowEnter_keeps {z : State} (s : State) (hK : Keeps z s) : Keeps z (lowEnter s) := by
  unfold lowEnter
  repeat' first
    | with_reducible assumption
    | (intro xS; refine keeps_gen (z := z) (x := xS) ?_ (fun _ => ?_); revert xS; dsimp only; rotate_left; clear_value xS)
    | (intro xS; refine keeps_gen_fst (z := z) (x := xS) ?_ (fun _ => ?_); revert xS; dsimp only; rotate_left; clear_value xS)
    | intro _
    | lift_lets
    | with_reducible apply wakeArm_keeps
    | with_reducible exact Keeps.refl _
    | with_reducible refine keeps_foldl (fun _ _ _ => ?_) _ ?_
    | simp only [keeps_mk_eq]
    | split
    | dsimp only

theorem portDown_keeps {z : State} (s : State) (p : Nat) (hK : Keeps z s) : Keeps z (portDown s p) := by
  unfold portDown
  repeat' first
    | with_reducible assumption
    | intro _
    | with_reducible apply setFld_keeps
    | with_reducible exact Keeps.refl _
    | split
    | dsimp only

theorem bandSave_keeps {z : State} (s : State) (hK : Keeps z s) : Keeps z (bandSave s) := by
  unfold bandSave
  repeat' first
    | with_reducible assumption
    | (intro xS; refine keeps_gen (z := z) (x := xS) ?_ (fun _ => ?_); revert xS; dsimp only; rotate_left; clear_value xS)
    | (intro xS; refine keeps_gen_fst (z := z) (x := xS) ?_ (fun _ => ?_); revert xS; dsimp only; rotate_left; clear_value xS)
    | intro _
    | lift_lets
    | with_reducible exact Keeps.refl _
    | simp only [keeps_mk_eq]
    | split
    | dsimp only

theorem enterShade_keeps {z : State} (s : State) (hK : Keeps z s) : Keeps z (enterShade s) := by
  unfold enterShade
  repeat' first
    | with_reducible assumption
    | (intro xS; refine keeps_gen (z := z) (x := xS) ?_ (fun _ => ?_); revert xS; dsimp only; rotate_left; clear_value xS)
    | (intro xS; refine keeps_gen_fst (z := z) (x := xS) ?_ (fun _ => ?_); revert xS; dsimp only; rotate_left; clear_value xS)
    | intro _
    | lift_lets
    | with_reducible apply dieClear_keeps
    | with_reducible apply bandSave_keeps
    | with_reducible apply portDown_keeps
    | with_reducible apply linkDark_keeps
    | with_reducible apply showDies_keeps
    | with_reducible exact Keeps.refl _
    | with_reducible refine keeps_foldl (fun _ _ _ => ?_) _ ?_
    | with_reducible refine keeps_foldl_fst (fun _ _ _ => ?_) _ ?_
    | simp only [keeps_mk_eq]
    | split
    | dsimp only

theorem fastLost_keeps {z : State} (s : State) (hK : Keeps z s) : Keeps z (fastLost s) := by
  unfold fastLost
  repeat' first
    | with_reducible assumption
    | (intro xS; refine keeps_gen (z := z) (x := xS) ?_ (fun _ => ?_); revert xS; dsimp only; rotate_left; clear_value xS)
    | (intro xS; refine keeps_gen_fst (z := z) (x := xS) ?_ (fun _ => ?_); revert xS; dsimp only; rotate_left; clear_value xS)
    | intro _
    | lift_lets
    | with_reducible exact Keeps.refl _
    | simp only [keeps_mk_eq]
    | split
    | with_reducible apply keeps_mk_all
    | with_reducible apply smWf_smPut
    | with_reducible apply smWf_smUpd
    | with_reducible apply smWf_smDel
    | with_reducible apply smWf_filter
    | with_reducible apply smWf_foldl
    | intro _
    | apply memPutList_wf
    | rfl
    | split
    | dsimp only

theorem enterState_keeps {z : State} (s : State) (c : Nat) (hK : Keeps z s) : Keeps z (enterState s c) := by
  unfold enterState
  repeat' first
    | with_reducible assumption
    | (intro xS; refine keeps_gen (z := z) (x := xS) ?_ (fun _ => ?_); revert xS; dsimp only; rotate_left; clear_value xS)
    | (intro xS; refine keeps_gen_fst (z := z) (x := xS) ?_ (fun _ => ?_); revert xS; dsimp only; rotate_left; clear_value xS)
    | intro _
    | lift_lets
    | with_reducible apply wakeArm_keeps
    | with_reducible apply enterShade_keeps
    | with_reducible apply fastLost_keeps
    | with_reducible apply lowEnter_keeps
    | with_reducible exact Keeps.refl _
    | simp only [keeps_mk_eq]
    | split
    | dsimp only

theorem leaveDark_keeps {z : State} (s : State) (train : BitVec 32) (hK : Keeps z s) : Keeps z (leaveDark s train) := by
  unfold leaveDark
  repeat' first
    | with_reducible assumption
    | (intro xS; refine keeps_gen (z := z) (x := xS) ?_ (fun _ => ?_); revert xS; dsimp only; rotate_left; clear_value xS)
    | (intro xS; refine keeps_gen_fst (z := z) (x := xS) ?_ (fun _ => ?_); revert xS; dsimp only; rotate_left; clear_value xS)
    | intro _
    | lift_lets
    | with_reducible apply alarmsLatched_keeps
    | with_reducible apply raise_keeps
    | with_reducible exact Keeps.refl _
    | with_reducible refine keeps_foldl (fun _ _ _ => ?_) _ ?_
    | with_reducible refine keeps_foldl_fst (fun _ _ _ => ?_) _ ?_
    | simp only [keeps_mk_eq]
    | split
    | dsimp only

theorem leaveShade_keeps {z : State} (s : State) (c : Nat) (hK : Keeps z s) : Keeps z (leaveShade s c) := by
  unfold leaveShade
  repeat' first
    | with_reducible assumption
    | (intro xS; refine keeps_gen (z := z) (x := xS) ?_ (fun _ => ?_); revert xS; dsimp only; rotate_left; clear_value xS)
    | (intro xS; refine keeps_gen_fst (z := z) (x := xS) ?_ (fun _ => ?_); revert xS; dsimp only; rotate_left; clear_value xS)
    | intro _
    | lift_lets
    | with_reducible apply linkWaitLight_keeps
    | with_reducible apply showDies_keeps
    | with_reducible exact Keeps.refl _
    | with_reducible refine keeps_foldl (fun _ _ _ => ?_) _ ?_
    | with_reducible refine keeps_foldl_fst (fun _ _ _ => ?_) _ ?_
    | simp only [keeps_mk_eq]
    | split
    | dsimp only

theorem exitState_keeps {z : State} (s : State) (c : Nat) (train : BitVec 32) (hK : Keeps z s) : Keeps z (exitState s c train) := by
  unfold exitState
  repeat' first
    | with_reducible assumption
    | (intro xS; refine keeps_gen (z := z) (x := xS) ?_ (fun _ => ?_); revert xS; dsimp only; rotate_left; clear_value xS)
    | (intro xS; refine keeps_gen_fst (z := z) (x := xS) ?_ (fun _ => ?_); revert xS; dsimp only; rotate_left; clear_value xS)
    | intro _
    | lift_lets
    | with_reducible apply leaveDark_keeps
    | with_reducible apply leaveShade_keeps
    | with_reducible apply tmOff_keeps
    | with_reducible apply wake_keeps
    | with_reducible exact Keeps.refl _
    | simp only [keeps_mk_eq]
    | split
    | dsimp only

theorem pwrSettle_keeps {z : State} (s : State) (hK : Keeps z s) : Keeps z (pwrSettle s) := by
  unfold pwrSettle
  repeat' first
    | with_reducible assumption
    | (intro xS; refine keeps_gen (z := z) (x := xS) ?_ (fun _ => ?_); revert xS; dsimp only; rotate_left; clear_value xS)
    | (intro xS; refine keeps_gen_fst (z := z) (x := xS) ?_ (fun _ => ?_); revert xS; dsimp only; rotate_left; clear_value xS)
    | intro _
    | lift_lets
    | with_reducible apply pwrTake_keeps
    | with_reducible exact Keeps.refl _
    | simp only [keeps_mk_eq]
    | split
    | dsimp only

theorem opPwrStateEntered_keeps {z : State} (train : BitVec 32) (s : State) (hK : Keeps z s) : Keeps z (opPwrStateEntered train s) := by
  unfold opPwrStateEntered
  repeat' first
    | with_reducible assumption
    | (intro xS; refine keeps_gen (z := z) (x := xS) ?_ (fun _ => ?_); revert xS; dsimp only; rotate_left; clear_value xS)
    | (intro xS; refine keeps_gen_fst (z := z) (x := xS) ?_ (fun _ => ?_); revert xS; dsimp only; rotate_left; clear_value xS)
    | intro _
    | lift_lets
    | with_reducible apply pwrSettle_keeps
    | with_reducible apply enterState_keeps
    | with_reducible apply pwrRefused_keeps
    | with_reducible apply exitState_keeps
    | with_reducible exact Keeps.refl _
    | simp only [keeps_mk_eq]
    | split
    | dsimp only

theorem execPwrStateEntered_keeps {z : State} (train : BitVec 32) (s : State) (hK : Keeps z s) : ∀ t', execPwrStateEntered train s = .next t' → Keeps z t' := by
  unfold execPwrStateEntered
  repeat' first
    | with_reducible (refine (run_keeps ?_ : ∀ t, _ = Host.Outcome.next t → Keeps _ t))
    | with_reducible assumption
    | intro _
    | with_reducible apply opPwrStateEntered_keeps
    | with_reducible exact Keeps.refl _
    | split
    | dsimp only

theorem opWakeSource_keeps {z : State} (w : WakeSrc) (s : State) (hK : Keeps z s) : Keeps z (opWakeSource w s) := by
  unfold opWakeSource
  repeat' first
    | with_reducible assumption
    | intro _
    | with_reducible apply wake_keeps
    | with_reducible exact Keeps.refl _
    | split
    | dsimp only

theorem execWakeSource_keeps {z : State} (w : WakeSrc) (s : State) (hK : Keeps z s) : ∀ t', execWakeSource w s = .next t' → Keeps z t' := by
  unfold execWakeSource
  repeat' first
    | with_reducible (refine (run_keeps ?_ : ∀ t, _ = Host.Outcome.next t → Keeps _ t))
    | with_reducible assumption
    | intro _
    | with_reducible apply opWakeSource_keeps
    | with_reducible exact Keeps.refl _
    | split
    | dsimp only

theorem opWakeTimer_keeps {z : State} (s : State) (hK : Keeps z s) : Keeps z (opWakeTimer s) := by
  unfold opWakeTimer
  repeat' first
    | with_reducible assumption
    | intro _
    | with_reducible apply wake_keeps
    | with_reducible apply tmOff_keeps
    | with_reducible exact Keeps.refl _
    | split
    | dsimp only

theorem execWakeTimer_keeps {z : State} (s : State) (hK : Keeps z s) : ∀ t', execWakeTimer s = .next t' → Keeps z t' := by
  unfold execWakeTimer
  repeat' first
    | with_reducible (refine (run_keeps ?_ : ∀ t, _ = Host.Outcome.next t → Keeps _ t))
    | with_reducible assumption
    | intro _
    | with_reducible apply opWakeTimer_keeps
    | with_reducible exact Keeps.refl _
    | split
    | dsimp only

theorem opAutodimIdle_keeps {z : State} (s : State) (hK : Keeps z s) : Keeps z (opAutodimIdle s) := by
  unfold opAutodimIdle
  repeat' first
    | with_reducible assumption
    | (intro xS; refine keeps_gen (z := z) (x := xS) ?_ (fun _ => ?_); revert xS; dsimp only; rotate_left; clear_value xS)
    | (intro xS; refine keeps_gen_fst (z := z) (x := xS) ?_ (fun _ => ?_); revert xS; dsimp only; rotate_left; clear_value xS)
    | intro _
    | lift_lets
    | with_reducible exact Keeps.refl _
    | simp only [keeps_mk_eq]
    | split
    | dsimp only

theorem execAutodimIdle_keeps {z : State} (s : State) (hK : Keeps z s) : ∀ t', execAutodimIdle s = .next t' → Keeps z t' := by
  unfold execAutodimIdle
  repeat' first
    | with_reducible (refine (run_keeps ?_ : ∀ t, _ = Host.Outcome.next t → Keeps _ t))
    | with_reducible assumption
    | intro _
    | with_reducible apply opAutodimIdle_keeps
    | with_reducible exact Keeps.refl _
    | split
    | dsimp only

theorem opMemRetrainDone_keeps {z : State} (k : Nat) (s : State) (hK : Keeps z s) : Keeps z (opMemRetrainDone k s) := by
  unfold opMemRetrainDone
  repeat' first
    | with_reducible assumption
    | (intro xS; refine keeps_gen (z := z) (x := xS) ?_ (fun _ => ?_); revert xS; dsimp only; rotate_left; clear_value xS)
    | (intro xS; refine keeps_gen_fst (z := z) (x := xS) ?_ (fun _ => ?_); revert xS; dsimp only; rotate_left; clear_value xS)
    | intro _
    | lift_lets
    | with_reducible exact Keeps.refl _
    | simp only [keeps_mk_eq]
    | split
    | dsimp only

theorem execMemRetrainDone_keeps {z : State} (k : Fin 32) (s : State) (hK : Keeps z s) : ∀ t', execMemRetrainDone k s = .next t' → Keeps z t' := by
  unfold execMemRetrainDone
  repeat' first
    | with_reducible (refine (run_keeps ?_ : ∀ t, _ = Host.Outcome.next t → Keeps _ t))
    | with_reducible assumption
    | intro _
    | with_reducible apply opMemRetrainDone_keeps
    | with_reducible exact Keeps.refl _
    | split
    | dsimp only

theorem opBandTableSave_keeps {z : State} (s : State) (hK : Keeps z s) : Keeps z (opBandTableSave s) := by
  unfold opBandTableSave
  repeat' first
    | with_reducible assumption
    | intro _
    | with_reducible apply tmArm_keeps
    | with_reducible apply bandSave_keeps
    | with_reducible exact Keeps.refl _
    | split
    | dsimp only

theorem execBandTableSave_keeps {z : State} (s : State) (hK : Keeps z s) : ∀ t', execBandTableSave s = .next t' → Keeps z t' := by
  unfold execBandTableSave
  repeat' first
    | with_reducible (refine (run_keeps ?_ : ∀ t, _ = Host.Outcome.next t → Keeps _ t))
    | with_reducible assumption
    | intro _
    | with_reducible apply opBandTableSave_keeps
    | with_reducible exact Keeps.refl _
    | split
    | dsimp only

theorem degradeEvent_keeps {z : State} (s : State) (d dir : Nat) (hK : Keeps z s) : Keeps z (degradeEvent s d dir) := by
  unfold degradeEvent
  repeat' first
    | with_reducible assumption
    | intro _
    | with_reducible apply raise_keeps
    | with_reducible exact Keeps.refl _
    | split
    | dsimp only

theorem dieDegradeGo_keeps {z : State} (s : State) (d : Nat) (hK : Keeps z s) : Keeps z (dieDegradeGo s d) := by
  unfold dieDegradeGo
  repeat' first
    | with_reducible assumption
    | (intro xS; refine keeps_gen (z := z) (x := xS) ?_ (fun _ => ?_); revert xS; dsimp only; rotate_left; clear_value xS)
    | (intro xS; refine keeps_gen_fst (z := z) (x := xS) ?_ (fun _ => ?_); revert xS; dsimp only; rotate_left; clear_value xS)
    | intro _
    | lift_lets
    | with_reducible apply abandonAll_keeps
    | with_reducible apply degradeEvent_keeps
    | with_reducible apply showDies_keeps
    | with_reducible exact Keeps.refl _
    | simp only [keeps_mk_eq]
    | split
    | dsimp only

theorem dieRestoreGo_keeps {z : State} (s : State) (d : Nat) (hK : Keeps z s) : Keeps z (dieRestoreGo s d) := by
  unfold dieRestoreGo
  repeat' first
    | with_reducible assumption
    | (intro xS; refine keeps_gen (z := z) (x := xS) ?_ (fun _ => ?_); revert xS; dsimp only; rotate_left; clear_value xS)
    | (intro xS; refine keeps_gen_fst (z := z) (x := xS) ?_ (fun _ => ?_); revert xS; dsimp only; rotate_left; clear_value xS)
    | intro _
    | lift_lets
    | with_reducible apply degradeEvent_keeps
    | with_reducible apply showDies_keeps
    | with_reducible exact Keeps.refl _
    | simp only [keeps_mk_eq]
    | split
    | dsimp only

theorem opDieResetDone_keeps {z : State} (d : Nat) (ok : Bool) (s : State) (hK : Keeps z s) : Keeps z (opDieResetDone d ok s) := by
  unfold opDieResetDone
  repeat' first
    | with_reducible assumption
    | (intro xS; refine keeps_gen (z := z) (x := xS) ?_ (fun _ => ?_); revert xS; dsimp only; rotate_left; clear_value xS)
    | (intro xS; refine keeps_gen_fst (z := z) (x := xS) ?_ (fun _ => ?_); revert xS; dsimp only; rotate_left; clear_value xS)
    | intro _
    | lift_lets
    | with_reducible apply tmOff_keeps
    | with_reducible apply showDies_keeps
    | with_reducible apply dieDegradeGo_keeps
    | with_reducible exact Keeps.refl _
    | simp only [keeps_mk_eq]
    | split
    | dsimp only

theorem execDieResetDone_keeps {z : State} (d : Fin 4) (ok : Bool) (s : State) (hK : Keeps z s) : ∀ t', execDieResetDone d ok s = .next t' → Keeps z t' := by
  unfold execDieResetDone
  repeat' first
    | with_reducible (refine (run_keeps ?_ : ∀ t, _ = Host.Outcome.next t → Keeps _ t))
    | with_reducible assumption
    | intro _
    | with_reducible apply opDieResetDone_keeps
    | with_reducible exact Keeps.refl _
    | split
    | dsimp only

theorem bootFail_keeps {z : State} (s : State) (err : Nat) (hK : Keeps z s) : Keeps z (bootFail s err) := by
  unfold bootFail
  repeat' first
    | with_reducible assumption
    | (intro xS; refine keeps_gen (z := z) (x := xS) ?_ (fun _ => ?_); revert xS; dsimp only; rotate_left; clear_value xS)
    | (intro xS; refine keeps_gen_fst (z := z) (x := xS) ?_ (fun _ => ?_); revert xS; dsimp only; rotate_left; clear_value xS)
    | intro _
    | lift_lets
    | with_reducible apply tmOff_keeps
    | with_reducible apply ibi_keeps
    | with_reducible apply raise_keeps
    | with_reducible exact Keeps.refl _
    | simp only [keeps_mk_eq]
    | split
    | dsimp only

theorem bootNext_keeps {z : State} (s : State) (p : Nat) (hK : Keeps z s) : Keeps z (bootNext s p) := by
  unfold bootNext
  repeat' first
    | with_reducible assumption
    | (intro xS; refine keeps_gen (z := z) (x := xS) ?_ (fun _ => ?_); revert xS; dsimp only; rotate_left; clear_value xS)
    | (intro xS; refine keeps_gen_fst (z := z) (x := xS) ?_ (fun _ => ?_); revert xS; dsimp only; rotate_left; clear_value xS)
    | intro _
    | lift_lets
    | with_reducible apply ibi_keeps
    | with_reducible exact Keeps.refl _
    | simp only [keeps_mk_eq]
    | split
    | dsimp only

theorem bootDies_keeps {z : State} (s : State) (units : List (Nat × Nat)) (dies : BitVec 4) (hK : Keeps z s) : Keeps z (bootDies s units dies) := by
  unfold bootDies
  repeat' first
    | with_reducible assumption
    | (intro xS; refine keeps_gen (z := z) (x := xS) ?_ (fun _ => ?_); revert xS; dsimp only; rotate_left; clear_value xS)
    | (intro xS; refine keeps_gen_fst (z := z) (x := xS) ?_ (fun _ => ?_); revert xS; dsimp only; rotate_left; clear_value xS)
    | intro _
    | lift_lets
    | with_reducible apply dieDegradeGo_keeps
    | with_reducible apply dieRestoreGo_keeps
    | with_reducible apply eclipseUnit_keeps
    | with_reducible apply showDies_keeps
    | with_reducible exact Keeps.refl _
    | with_reducible refine keeps_foldl (fun _ _ _ => ?_) _ ?_
    | with_reducible refine keeps_foldl_fst (fun _ _ _ => ?_) _ ?_
    | simp only [keeps_mk_eq]
    | split
    | dsimp only

theorem bootReady_keeps {z : State} (s : State) (hK : Keeps z s) : Keeps z (bootReady s) := by
  unfold bootReady
  repeat' first
    | with_reducible assumption
    | (intro xS; refine keeps_gen (z := z) (x := xS) ?_ (fun _ => ?_); revert xS; dsimp only; rotate_left; clear_value xS)
    | (intro xS; refine keeps_gen_fst (z := z) (x := xS) ?_ (fun _ => ?_); revert xS; dsimp only; rotate_left; clear_value xS)
    | intro _
    | lift_lets
    | with_reducible apply setFld_keeps
    | with_reducible apply tmOff_keeps
    | with_reducible apply wakeArm_keeps
    | with_reducible apply ibi_keeps
    | with_reducible apply raise_keeps
    | with_reducible apply lowEnter_keeps
    | with_reducible exact Keeps.refl _
    | simp only [keeps_mk_eq]
    | split
    | dsimp only

theorem opBootPhaseEnd_keeps {z : State} (ph : Nat) (imgs : List ((List Byte × List Byte) × (List Byte × List Byte))) (units : List (Nat × Nat)) (dies : BitVec 4)     (s : State) (hK : Keeps z s) : Keeps z (opBootPhaseEnd ph imgs units dies s) := by
  unfold opBootPhaseEnd
  repeat' first
    | with_reducible assumption
    | (intro xS; refine keeps_gen (z := z) (x := xS) ?_ (fun _ => ?_); revert xS; dsimp only; rotate_left; clear_value xS)
    | (intro xS; refine keeps_gen_fst (z := z) (x := xS) ?_ (fun _ => ?_); revert xS; dsimp only; rotate_left; clear_value xS)
    | intro _
    | lift_lets
    | with_reducible apply tmOff_keeps
    | with_reducible apply bootNext_keeps
    | with_reducible apply bootFail_keeps
    | with_reducible apply bootDies_keeps
    | with_reducible apply bootReady_keeps
    | (with_reducible refine imgLoad_keeps _ _ _ ?_ _ (by assumption))
    | with_reducible exact Keeps.refl _
    | simp only [keeps_mk_eq]
    | split
    | dsimp only

theorem execBootPhaseEnd_keeps {z : State} (ph : Fin 8) (imgs : List ((List Byte × List Byte) × (List Byte × List Byte))) (units : List (Fin 16 × Fin 66))     (dies : BitVec 4) (s : State) (hK : Keeps z s) : ∀ t', execBootPhaseEnd ph imgs units dies s = .next t' → Keeps z t' := by
  unfold execBootPhaseEnd
  repeat' first
    | with_reducible (refine (run_keeps ?_ : ∀ t, _ = Host.Outcome.next t → Keeps _ t))
    | with_reducible assumption
    | intro _
    | with_reducible apply opBootPhaseEnd_keeps
    | with_reducible exact Keeps.refl _
    | split
    | dsimp only

theorem opBootPhaseTimeout_keeps {z : State} (s : State) (hK : Keeps z s) : Keeps z (opBootPhaseTimeout s) := by
  unfold opBootPhaseTimeout
  repeat' first
    | with_reducible assumption
    | intro _
    | with_reducible apply bootFail_keeps
    | with_reducible exact Keeps.refl _
    | split
    | dsimp only

theorem execBootPhaseTimeout_keeps {z : State} (s : State) (hK : Keeps z s) : ∀ t', execBootPhaseTimeout s = .next t' → Keeps z t' := by
  unfold execBootPhaseTimeout
  repeat' first
    | with_reducible (refine (run_keeps ?_ : ∀ t, _ = Host.Outcome.next t → Keeps _ t))
    | with_reducible assumption
    | intro _
    | with_reducible apply opBootPhaseTimeout_keeps
    | with_reducible exact Keeps.refl _
    | split
    | dsimp only

theorem execResetN_keeps {z : State} (s : State) (hK : Keeps z s) : ∀ t', execResetN s = .next t' → Keeps z t' := by
  unfold execResetN
  repeat' first
    | with_reducible (refine (run_keeps ?_ : ∀ t, _ = Host.Outcome.next t → Keeps _ t))
    | with_reducible assumption
    | intro _
    | with_reducible apply moduleReset_keeps
    | with_reducible exact Keeps.refl _
    | split
    | dsimp only

theorem opJobResetForced_keeps {z : State} (s : State) (hK : Keeps z s) : Keeps z (opJobResetForced s) := by
  unfold opJobResetForced
  repeat' first
    | with_reducible assumption
    | (intro xS; refine keeps_gen (z := z) (x := xS) ?_ (fun _ => ?_); revert xS; dsimp only; rotate_left; clear_value xS)
    | (intro xS; refine keeps_gen_fst (z := z) (x := xS) ?_ (fun _ => ?_); revert xS; dsimp only; rotate_left; clear_value xS)
    | intro _
    | lift_lets
    | with_reducible apply jobResetGo_keeps
    | with_reducible apply raise_keeps
    | with_reducible exact Keeps.refl _
    | simp only [keeps_mk_eq]
    | split
    | dsimp only

theorem execJobResetForced_keeps {z : State} (s : State) (hK : Keeps z s) : ∀ t', execJobResetForced s = .next t' → Keeps z t' := by
  unfold execJobResetForced
  repeat' first
    | with_reducible (refine (run_keeps ?_ : ∀ t, _ = Host.Outcome.next t → Keeps _ t))
    | with_reducible assumption
    | intro _
    | with_reducible apply opJobResetForced_keeps
    | with_reducible exact Keeps.refl _
    | split
    | dsimp only

theorem wdogArm_keeps {z : State} (s : State) (hK : Keeps z s) : Keeps z (wdogArm s) := by
  unfold wdogArm
  repeat' first
    | with_reducible assumption
    | (intro xS; refine keeps_gen (z := z) (x := xS) ?_ (fun _ => ?_); revert xS; dsimp only; rotate_left; clear_value xS)
    | (intro xS; refine keeps_gen_fst (z := z) (x := xS) ?_ (fun _ => ?_); revert xS; dsimp only; rotate_left; clear_value xS)
    | intro _
    | lift_lets
    | with_reducible apply tmOff_keeps
    | with_reducible apply tmArm_keeps
    | with_reducible exact Keeps.refl _
    | split
    | dsimp only

theorem opWatchdogExpire_keeps {z : State} (s : State) (hK : Keeps z s) : Keeps z (opWatchdogExpire s) := by
  unfold opWatchdogExpire
  repeat' first
    | with_reducible assumption
    | intro _
    | with_reducible apply moduleReset_keeps
    | with_reducible exact Keeps.refl _
    | split
    | dsimp only

theorem execWatchdogExpire_keeps {z : State} (s : State) (hK : Keeps z s) : ∀ t', execWatchdogExpire s = .next t' → Keeps z t' := by
  unfold execWatchdogExpire
  repeat' first
    | with_reducible (refine (run_keeps ?_ : ∀ t, _ = Host.Outcome.next t → Keeps _ t))
    | with_reducible assumption
    | intro _
    | with_reducible apply opWatchdogExpire_keeps
    | with_reducible exact Keeps.refl _
    | split
    | dsimp only

theorem pwrResetWrite_keeps {z : State} (s : State) (v : Nat) (hK : Keeps z s) : Keeps z (pwrResetWrite s v) := by
  unfold pwrResetWrite
  repeat' first
    | with_reducible assumption
    | (intro xS; refine keeps_gen (z := z) (x := xS) ?_ (fun _ => ?_); revert xS; dsimp only; rotate_left; clear_value xS)
    | (intro xS; refine keeps_gen_fst (z := z) (x := xS) ?_ (fun _ => ?_); revert xS; dsimp only; rotate_left; clear_value xS)
    | intro _
    | lift_lets
    | with_reducible apply moduleReset_keeps
    | with_reducible apply jobResetStart_keeps
    | with_reducible apply dieResetStart_keeps
    | with_reducible exact Keeps.refl _
    | with_reducible refine keeps_foldl (fun _ _ _ => ?_) _ ?_
    | with_reducible refine keeps_foldl_fst (fun _ _ _ => ?_) _ ?_
    | split
    | dsimp only

end Sys2Proof.Machine
end

