-- ==== Sys2Proof/Laws/KeepsCommit.lean ====
section
/-! SUPPORT. What the operations of Commit keep. -/
namespace Sys2Proof.Machine

theorem foldPass_keeps {z : State} (s : State) (m : Nat) (group : Bool) (hK : Keeps z s) : Keeps z (foldPass s m group) := by
  unfold foldPass
  repeat' first
    | with_reducible assumption
    | (intro xS; refine keeps_gen (z := z) (x := xS) ?_ (fun _ => ?_); revert xS; dsimp only; rotate_left; clear_value xS)
    | (intro xS; refine keeps_gen_fst (z := z) (x := xS) ?_ (fun _ => ?_); revert xS; dsimp only; rotate_left; clear_value xS)
    | intro _
    | lift_lets
    | with_reducible apply setReg_keeps
    | with_reducible apply reflCompare_keeps
    | with_reducible exact Keeps.refl _
    | simp only [keeps_mk_eq]
    | split
    | dsimp only

theorem foldStart_keeps {z : State} (s : State) (m : Nat) (rows : List Byte) (hK : Keeps z s) : Keeps z (foldStart s m rows) := by
  unfold foldStart
  repeat' first
    | with_reducible assumption
    | (intro xS; refine keeps_gen (z := z) (x := xS) ?_ (fun _ => ?_); revert xS; dsimp only; rotate_left; clear_value xS)
    | (intro xS; refine keeps_gen_fst (z := z) (x := xS) ?_ (fun _ => ?_); revert xS; dsimp only; rotate_left; clear_value xS)
    | intro _
    | lift_lets
    | with_reducible apply foldPass_keeps
    | with_reducible apply collBeginAll_keeps
    | with_reducible exact Keeps.refl _
    | simp only [keeps_mk_eq]
    | split
    | dsimp only

theorem foldFlip_keeps {z : State} (s : State) (n : Nat) (hK : Keeps z s) : Keeps z (foldFlip s n) := by
  unfold foldFlip
  repeat' first
    | with_reducible assumption
    | (intro xS; refine keeps_gen (z := z) (x := xS) ?_ (fun _ => ?_); revert xS; dsimp only; rotate_left; clear_value xS)
    | (intro xS; refine keeps_gen_fst (z := z) (x := xS) ?_ (fun _ => ?_); revert xS; dsimp only; rotate_left; clear_value xS)
    | intro _
    | lift_lets
    | with_reducible apply setReg_keeps
    | with_reducible apply foldStart_keeps
    | with_reducible exact Keeps.refl _
    | with_reducible refine keeps_foldl (fun _ _ _ => ?_) _ ?_
    | with_reducible refine keeps_foldl_fst (fun _ _ _ => ?_) _ ?_
    | simp only [keeps_mk_eq]
    | split
    | dsimp only

theorem foldMiss_keeps {z : State} (s : State) (m : Nat) (hK : Keeps z s) : Keeps z (foldMiss s m) := by
  unfold foldMiss
  repeat' first
    | with_reducible assumption
    | (intro xS; refine keeps_gen (z := z) (x := xS) ?_ (fun _ => ?_); revert xS; dsimp only; rotate_left; clear_value xS)
    | (intro xS; refine keeps_gen_fst (z := z) (x := xS) ?_ (fun _ => ?_); revert xS; dsimp only; rotate_left; clear_value xS)
    | intro _
    | lift_lets
    | with_reducible apply setFld_keeps
    | with_reducible apply raise_keeps
    | with_reducible apply snapAbort_keeps
    | with_reducible exact Keeps.refl _
    | simp only [keeps_mk_eq]
    | split
    | dsimp only

theorem foldEnd_keeps {z : State} (s : State) (c : Coll) (m : Nat) (rows : List Byte) (hK : Keeps z s) : Keeps z (foldEnd s c m rows) := by
  unfold foldEnd
  repeat' first
    | with_reducible assumption
    | (intro xS; refine keeps_gen (z := z) (x := xS) ?_ (fun _ => ?_); revert xS; dsimp only; rotate_left; clear_value xS)
    | (intro xS; refine keeps_gen_fst (z := z) (x := xS) ?_ (fun _ => ?_); revert xS; dsimp only; rotate_left; clear_value xS)
    | intro _
    | lift_lets
    | with_reducible apply dropColl_keeps
    | with_reducible apply foldStart_keeps
    | with_reducible apply foldPass_keeps
    | with_reducible apply foldMiss_keeps
    | with_reducible exact Keeps.refl _
    | split
    | dsimp only

theorem opCollComplete_keeps {z : State} (k : Nat) (s : State) (hK : Keeps z s) : Keeps z (opCollComplete k s) := by
  unfold opCollComplete
  repeat' first
    | with_reducible assumption
    | (intro xS; refine keeps_gen (z := z) (x := xS) ?_ (fun _ => ?_); revert xS; dsimp only; rotate_left; clear_value xS)
    | (intro xS; refine keeps_gen_fst (z := z) (x := xS) ?_ (fun _ => ?_); revert xS; dsimp only; rotate_left; clear_value xS)
    | intro _
    | lift_lets
    | with_reducible apply kick_keeps
    | with_reducible apply completeOp_keeps
    | with_reducible apply foldEnd_keeps
    | with_reducible apply dropColl_keeps
    | with_reducible exact Keeps.refl _
    | simp only [keeps_mk_eq]
    | split
    | dsimp only

theorem execCollComplete_keeps {z : State} (k : Fin 17) (s : State) (hK : Keeps z s) : ∀ t', execCollComplete k s = .next t' → Keeps z t' := by
  unfold execCollComplete
  repeat' first
    | with_reducible (refine (run_keeps ?_ : ∀ t, _ = Host.Outcome.next t → Keeps _ t))
    | with_reducible assumption
    | intro _
    | with_reducible apply opCollComplete_keeps
    | with_reducible exact Keeps.refl _
    | split
    | dsimp only

theorem commitStep_keeps {z : State} (s : State) (r : StepRec) (hK : Keeps z s) : Keeps z (commitStep s r) := by
  unfold commitStep
  repeat' first
    | with_reducible assumption
    | (intro xS; refine keeps_gen (z := z) (x := xS) ?_ (fun _ => ?_); revert xS; dsimp only; rotate_left; clear_value xS)
    | (intro xS; refine keeps_gen_fst (z := z) (x := xS) ?_ (fun _ => ?_); revert xS; dsimp only; rotate_left; clear_value xS)
    | intro _
    | lift_lets
    | with_reducible apply sclCommit_keeps
    | with_reducible apply raise_keeps
    | with_reducible apply sysObj_keeps
    | with_reducible apply foldFlip_keeps
    | with_reducible apply snapAtFlip_keeps
    | with_reducible apply reflWait_keeps
    | with_reducible apply jobResetCommitted_keeps
    | with_reducible apply kick_keeps
    | with_reducible exact Keeps.refl _
    | simp only [keeps_mk_eq]
    | split
    | dsimp only

theorem opPageSetFlip_keeps {z : State} (s : State) (hK : Keeps z s) : Keeps z (opPageSetFlip s) := by
  unfold opPageSetFlip
  repeat' first
    | with_reducible assumption
    | (intro xS; refine keeps_gen (z := z) (x := xS) ?_ (fun _ => ?_); revert xS; dsimp only; rotate_left; clear_value xS)
    | (intro xS; refine keeps_gen_fst (z := z) (x := xS) ?_ (fun _ => ?_); revert xS; dsimp only; rotate_left; clear_value xS)
    | intro _
    | lift_lets
    | with_reducible apply commitStep_keeps
    | with_reducible exact Keeps.refl _
    | simp only [keeps_mk_eq]
    | split
    | dsimp only

theorem execPageSetFlip_keeps {z : State} (s : State) (hK : Keeps z s) : ∀ t', execPageSetFlip s = .next t' → Keeps z t' := by
  unfold execPageSetFlip
  repeat' first
    | with_reducible (refine (run_keeps ?_ : ∀ t, _ = Host.Outcome.next t → Keeps _ t))
    | with_reducible assumption
    | intro _
    | with_reducible apply opPageSetFlip_keeps
    | with_reducible exact Keeps.refl _
    | split
    | dsimp only

end Sys2Proof.Machine
end

