-- ==== Sys2Proof/Laws/KeepsCert.lean ====
section
/-! SUPPORT. What the operations of Cert keep. -/
namespace Sys2Proof.Machine

theorem certStart_keeps {z : State} (s : State) (w : CertWhat) (hK : Keeps z s) : Keeps z (certStart s w) := by
  unfold certStart
  repeat' first
    | with_reducible assumption
    | (intro xS; refine keeps_gen (z := z) (x := xS) ?_ (fun _ => ?_); revert xS; dsimp only; rotate_left; clear_value xS)
    | (intro xS; refine keeps_gen_fst (z := z) (x := xS) ?_ (fun _ => ?_); revert xS; dsimp only; rotate_left; clear_value xS)
    | intro _
    | lift_lets
    | with_reducible exact Keeps.refl _
    | simp only [keeps_mk_eq]
    | split
    | dsimp only

theorem certOut_keeps {z : State} (s : State) (w : CertWhat) (hK : Keeps z s) : Keeps z (certOut s w) := by
  unfold certOut
  repeat' first
    | with_reducible assumption
    | (intro xS; refine keeps_gen (z := z) (x := xS) ?_ (fun _ => ?_); revert xS; dsimp only; rotate_left; clear_value xS)
    | (intro xS; refine keeps_gen_fst (z := z) (x := xS) ?_ (fun _ => ?_); revert xS; dsimp only; rotate_left; clear_value xS)
    | intro _
    | lift_lets
    | with_reducible apply uneclipse_keeps
    | with_reducible apply showDies_keeps
    | with_reducible apply pwrRequest_keeps
    | with_reducible apply setFld_keeps
    | with_reducible exact Keeps.refl _
    | simp only [keeps_mk_eq]
    | split
    | dsimp only

theorem certPass_keeps {z : State} (s : State) (w : CertWhat) (bands : Nat) (hK : Keeps z s) : Keeps z (certPass s w bands) := by
  unfold certPass
  repeat' first
    | with_reducible assumption
    | (intro xS; refine keeps_gen (z := z) (x := xS) ?_ (fun _ => ?_); revert xS; dsimp only; rotate_left; clear_value xS)
    | (intro xS; refine keeps_gen_fst (z := z) (x := xS) ?_ (fun _ => ?_); revert xS; dsimp only; rotate_left; clear_value xS)
    | intro _
    | lift_lets
    | with_reducible apply certOut_keeps
    | with_reducible apply raise_keeps
    | with_reducible exact Keeps.refl _
    | simp only [keeps_mk_eq]
    | split
    | dsimp only

theorem partnerFree_keeps {z : State} (s : State) (w : CertWhat) (hK : Keeps z s) : Keeps z (partnerFree s w) := by
  unfold partnerFree
  repeat' first
    | with_reducible assumption
    | (intro xS; refine keeps_gen (z := z) (x := xS) ?_ (fun _ => ?_); revert xS; dsimp only; rotate_left; clear_value xS)
    | (intro xS; refine keeps_gen_fst (z := z) (x := xS) ?_ (fun _ => ?_); revert xS; dsimp only; rotate_left; clear_value xS)
    | intro _
    | lift_lets
    | with_reducible apply setUnit_keeps
    | with_reducible exact Keeps.refl _
    | with_reducible refine keeps_foldl (fun _ _ _ => ?_) _ ?_
    | simp only [keeps_mk_eq]
    | split
    | dsimp only

theorem certFail_keeps {z : State} (s : State) (c : Cert) (hK : Keeps z s) : Keeps z (certFail s c) := by
  unfold certFail
  repeat' first
    | with_reducible assumption
    | (intro xS; refine keeps_gen (z := z) (x := xS) ?_ (fun _ => ?_); revert xS; dsimp only; rotate_left; clear_value xS)
    | (intro xS; refine keeps_gen_fst (z := z) (x := xS) ?_ (fun _ => ?_); revert xS; dsimp only; rotate_left; clear_value xS)
    | intro _
    | lift_lets
    | with_reducible apply health_keeps
    | with_reducible apply raise_keeps
    | with_reducible apply partnerFree_keeps
    | with_reducible exact Keeps.refl _
    | simp only [keeps_mk_eq]
    | split
    | dsimp only

theorem opCertRunEnd_keeps {z : State} (k : Nat) (res : CertRes) (bands : Nat) (s : State) (hK : Keeps z s) : Keeps z (opCertRunEnd k res bands s) := by
  unfold opCertRunEnd
  repeat' first
    | with_reducible assumption
    | (intro xS; refine keeps_gen (z := z) (x := xS) ?_ (fun _ => ?_); revert xS; dsimp only; rotate_left; clear_value xS)
    | (intro xS; refine keeps_gen_fst (z := z) (x := xS) ?_ (fun _ => ?_); revert xS; dsimp only; rotate_left; clear_value xS)
    | intro _
    | lift_lets
    | with_reducible apply certPass_keeps
    | with_reducible apply certFail_keeps
    | with_reducible apply prismMismatch_keeps
    | with_reducible exact Keeps.refl _
    | simp only [keeps_mk_eq]
    | split
    | dsimp only

theorem execCertRunEnd_keeps {z : State} (k : Nat) (res : CertRes) (bands : BitVec 16) (s : State) (hK : Keeps z s) : ∀ t', execCertRunEnd k res bands s = .next t' → Keeps z t' := by
  unfold execCertRunEnd
  repeat' first
    | with_reducible (refine (run_keeps ?_ : ∀ t, _ = Host.Outcome.next t → Keeps _ t))
    | with_reducible assumption
    | intro _
    | with_reducible apply opCertRunEnd_keeps
    | with_reducible exact Keeps.refl _
    | split
    | dsimp only

theorem certAgain_keeps {z : State} (s : State) (c : Cert) (hK : Keeps z s) : Keeps z (certAgain s c) := by
  unfold certAgain
  repeat' first
    | with_reducible assumption
    | (intro xS; refine keeps_gen (z := z) (x := xS) ?_ (fun _ => ?_); revert xS; dsimp only; rotate_left; clear_value xS)
    | (intro xS; refine keeps_gen_fst (z := z) (x := xS) ?_ (fun _ => ?_); revert xS; dsimp only; rotate_left; clear_value xS)
    | intro _
    | lift_lets
    | with_reducible apply unitCertGo_keeps
    | with_reducible apply certStart_keeps
    | with_reducible exact Keeps.refl _
    | with_reducible refine keeps_foldl (fun _ _ _ => ?_) _ ?_
    | simp only [keeps_mk_eq]
    | split
    | dsimp only

theorem opCertRetryTimer_keeps {z : State} (k : Nat) (s : State) (hK : Keeps z s) : Keeps z (opCertRetryTimer k s) := by
  unfold opCertRetryTimer
  repeat' first
    | with_reducible assumption
    | (intro xS; refine keeps_gen (z := z) (x := xS) ?_ (fun _ => ?_); revert xS; dsimp only; rotate_left; clear_value xS)
    | (intro xS; refine keeps_gen_fst (z := z) (x := xS) ?_ (fun _ => ?_); revert xS; dsimp only; rotate_left; clear_value xS)
    | intro _
    | lift_lets
    | with_reducible apply certAgain_keeps
    | with_reducible exact Keeps.refl _
    | simp only [keeps_mk_eq]
    | split
    | dsimp only

theorem execCertRetryTimer_keeps {z : State} (k : Nat) (s : State) (hK : Keeps z s) : ∀ t', execCertRetryTimer k s = .next t' → Keeps z t' := by
  unfold execCertRetryTimer
  repeat' first
    | with_reducible (refine (run_keeps ?_ : ∀ t, _ = Host.Outcome.next t → Keeps _ t))
    | with_reducible assumption
    | intro _
    | with_reducible apply opCertRetryTimer_keeps
    | with_reducible exact Keeps.refl _
    | split
    | dsimp only

theorem execCertSpareAvailable_keeps {z : State} (rg : Fin 16) (u : Fin 66) (s : State) (hK : Keeps z s) : ∀ t', execCertSpareAvailable rg u s = .next t' → Keeps z t' := by
  unfold execCertSpareAvailable
  repeat' first
    | with_reducible (refine (run_keeps ?_ : ∀ t, _ = Host.Outcome.next t → Keeps _ t))
    | with_reducible assumption
    | intro _
    | with_reducible apply unitCertGo_keeps
    | with_reducible exact Keeps.refl _
    | split
    | dsimp only

theorem opHealthDecay_keeps {z : State} (s : State) (hK : Keeps z s) : Keeps z (opHealthDecay s) := by
  unfold opHealthDecay
  repeat' first
    | with_reducible assumption
    | (intro xS; refine keeps_gen (z := z) (x := xS) ?_ (fun _ => ?_); revert xS; dsimp only; rotate_left; clear_value xS)
    | (intro xS; refine keeps_gen_fst (z := z) (x := xS) ?_ (fun _ => ?_); revert xS; dsimp only; rotate_left; clear_value xS)
    | intro _
    | lift_lets
    | with_reducible apply setReg_keeps
    | with_reducible apply tmArm_keeps
    | with_reducible apply setPenalty_keeps
    | with_reducible exact Keeps.refl _
    | with_reducible refine keeps_foldl (fun _ _ _ => ?_) _ ?_
    | with_reducible refine keeps_foldl_fst (fun _ _ _ => ?_) _ ?_
    | simp only [keeps_mk_eq]
    | split
    | dsimp only

theorem execHealthDecay_keeps {z : State} (s : State) (hK : Keeps z s) : ∀ t', execHealthDecay s = .next t' → Keeps z t' := by
  unfold execHealthDecay
  repeat' first
    | with_reducible (refine (run_keeps ?_ : ∀ t, _ = Host.Outcome.next t → Keeps _ t))
    | with_reducible assumption
    | intro _
    | with_reducible apply opHealthDecay_keeps
    | with_reducible exact Keeps.refl _
    | split
    | dsimp only

end Sys2Proof.Machine
end

