-- ==== Sys2Proof/Laws/KeepsRegShow.lean ====
section
/-! SUPPORT. What the operations of RegShow keep. -/
namespace Sys2Proof.Machine

theorem regHit_keeps {z : State} (s : State) (off : Nat) (hK : Keeps z s) : Keeps z (regHit s off).1 := by
  unfold regHit
  repeat' first
    | with_reducible assumption
    | (intro xS; refine keeps_gen (z := z) (x := xS) ?_ (fun _ => ?_); revert xS; dsimp only; rotate_left; clear_value xS)
    | (intro xS; refine keeps_gen_fst (z := z) (x := xS) ?_ (fun _ => ?_); revert xS; dsimp only; rotate_left; clear_value xS)
    | intro _
    | lift_lets
    | with_reducible apply raise_keeps
    | with_reducible apply cnt_keeps
    | with_reducible exact Keeps.refl _
    | with_reducible refine keeps_fst (by assumption) ?_
    | simp only [keeps_mk_eq]
    | split
    | dsimp only

theorem rcTake_keeps {z : State} (s : State) (b : Blk) (o : Nat) (hK : Keeps z s) : Keeps z (rcTake s b o) := by
  unfold rcTake
  repeat' first
    | with_reducible assumption
    | (intro xS; refine keeps_gen (z := z) (x := xS) ?_ (fun _ => ?_); revert xS; dsimp only; rotate_left; clear_value xS)
    | (intro xS; refine keeps_gen_fst (z := z) (x := xS) ?_ (fun _ => ?_); revert xS; dsimp only; rotate_left; clear_value xS)
    | intro _
    | lift_lets
    | with_reducible apply setReg_keeps
    | with_reducible exact Keeps.refl _
    | simp only [keeps_mk_eq]
    | split
    | dsimp only

theorem readAt_keeps {z : State} (p : Path) (b : Blk) (o : Nat) (s : State) (hK : Keeps z s) : Keeps z (readAt p b o s).1 := by
  unfold readAt
  repeat' first
    | with_reducible assumption
    | intro _
    | with_reducible apply setFld_keeps
    | with_reducible apply setLatch_keeps
    | with_reducible apply rcTake_keeps
    | with_reducible exact Keeps.refl _
    | with_reducible refine keeps_fst (by assumption) ?_
    | split
    | dsimp only

theorem regRead_keeps {z : State} (p : Path) (off : Nat) (s : State) (hK : Keeps z s) : Keeps z (regRead p off s).1 := by
  unfold regRead
  repeat' first
    | with_reducible assumption
    | (intro xS; refine keeps_gen (z := z) (x := xS) ?_ (fun _ => ?_); revert xS; dsimp only; rotate_left; clear_value xS)
    | (intro xS; refine keeps_gen_fst (z := z) (x := xS) ?_ (fun _ => ?_); revert xS; dsimp only; rotate_left; clear_value xS)
    | intro _
    | lift_lets
    | with_reducible apply regHit_keeps
    | with_reducible apply readAt_keeps
    | with_reducible exact Keeps.refl _
    | with_reducible refine keeps_fst (by assumption) ?_
    | simp only [keeps_mk_eq]
    | split
    | dsimp only

end Sys2Proof.Machine
end

