-- ==== Sys2Proof/Laws/KeepsRegWrite.lean ====
section
/-! SUPPORT. What the operations of RegWrite keep. -/
namespace Sys2Proof.Machine

theorem routeApplyWrite_keeps {z : State} (s : State) (d : Nat) (hK : Keeps z s) : Keeps z (routeApplyWrite s d) := by
  unfold routeApplyWrite
  repeat' first
    | with_reducible assumption
    | (intro xS; refine keeps_gen (z := z) (x := xS) ?_ (fun _ => ?_); revert xS; dsimp only; rotate_left; clear_value xS)
    | (intro xS; refine keeps_gen_fst (z := z) (x := xS) ?_ (fun _ => ?_); revert xS; dsimp only; rotate_left; clear_value xS)
    | intro _
    | lift_lets
    | with_reducible apply applyRefused_keeps
    | with_reducible exact Keeps.refl _
    | simp only [keeps_mk_eq]
    | split
    | dsimp only

theorem lsApplyWrite_keeps {z : State} (s : State) (hK : Keeps z s) : Keeps z (lsApplyWrite s) := by
  unfold lsApplyWrite
  repeat' first
    | with_reducible assumption
    | (intro xS; refine keeps_gen (z := z) (x := xS) ?_ (fun _ => ?_); revert xS; dsimp only; rotate_left; clear_value xS)
    | (intro xS; refine keeps_gen_fst (z := z) (x := xS) ?_ (fun _ => ?_); revert xS; dsimp only; rotate_left; clear_value xS)
    | intro _
    | lift_lets
    | with_reducible apply setLs_keeps
    | with_reducible exact Keeps.refl _
    | simp only [keeps_mk_eq]
    | split
    | dsimp only

theorem sclApplyWrite_keeps {z : State} (s : State) (v : Nat) (hK : Keeps z s) : Keeps z (sclApplyWrite s v) := by
  unfold sclApplyWrite
  repeat' first
    | with_reducible assumption
    | (intro xS; refine keeps_gen (z := z) (x := xS) ?_ (fun _ => ?_); revert xS; dsimp only; rotate_left; clear_value xS)
    | (intro xS; refine keeps_gen_fst (z := z) (x := xS) ?_ (fun _ => ?_); revert xS; dsimp only; rotate_left; clear_value xS)
    | intro _
    | lift_lets
    | with_reducible apply lsApplyWrite_keeps
    | with_reducible exact Keeps.refl _
    | simp only [keeps_mk_eq]
    | split
    | dsimp only

theorem xlatApplyWrite_keeps {z : State} (s : State) (hK : Keeps z s) : Keeps z (xlatApplyWrite s) := by
  unfold xlatApplyWrite
  repeat' first
    | with_reducible assumption
    | (intro xS; refine keeps_gen (z := z) (x := xS) ?_ (fun _ => ?_); revert xS; dsimp only; rotate_left; clear_value xS)
    | (intro xS; refine keeps_gen_fst (z := z) (x := xS) ?_ (fun _ => ?_); revert xS; dsimp only; rotate_left; clear_value xS)
    | intro _
    | lift_lets
    | with_reducible apply applyRefused_keeps
    | with_reducible apply xlatSwitch_keeps
    | with_reducible apply setFld_keeps
    | with_reducible exact Keeps.refl _
    | simp only [keeps_mk_eq]
    | split
    | dsimp only

theorem buddySet_keeps {z : State} (s : State) (hK : Keeps z s) : Keeps z (buddySet s) := by
  unfold buddySet
  repeat' first
    | with_reducible assumption
    | (intro xS; refine keeps_gen (z := z) (x := xS) ?_ (fun _ => ?_); revert xS; dsimp only; rotate_left; clear_value xS)
    | (intro xS; refine keeps_gen_fst (z := z) (x := xS) ?_ (fun _ => ?_); revert xS; dsimp only; rotate_left; clear_value xS)
    | (intro xL; clear_value xL)
    | lift_lets
    | with_reducible apply raise_keeps
    | with_reducible apply tmOff_keeps
    | with_reducible apply resyncSend_keeps
    | with_reducible exact Keeps.refl _
    | simp only [keeps_mk_eq]
    | split
    | dsimp only

theorem wardSet_keeps {z : State} (s : State) (hK : Keeps z s) : Keeps z (wardSet s) := by
  unfold wardSet
  repeat' first
    | with_reducible assumption
    | (intro xS; refine keeps_gen (z := z) (x := xS) ?_ (fun _ => ?_); revert xS; dsimp only; rotate_left; clear_value xS)
    | (intro xS; refine keeps_gen_fst (z := z) (x := xS) ?_ (fun _ => ?_); revert xS; dsimp only; rotate_left; clear_value xS)
    | intro _
    | lift_lets
    | with_reducible apply setReflState_keeps
    | with_reducible exact Keeps.refl _
    | simp only [keeps_mk_eq]
    | split
    | dsimp only

theorem resilApplyWrite_keeps {z : State} (s : State) (hK : Keeps z s) : Keeps z (resilApplyWrite s) := by
  unfold resilApplyWrite
  repeat' first
    | with_reducible assumption
    | (intro xS; refine keeps_gen (z := z) (x := xS) ?_ (fun _ => ?_); revert xS; dsimp only; rotate_left; clear_value xS)
    | (intro xS; refine keeps_gen_fst (z := z) (x := xS) ?_ (fun _ => ?_); revert xS; dsimp only; rotate_left; clear_value xS)
    | intro _
    | lift_lets
    | with_reducible apply buddySet_keeps
    | with_reducible apply wardSet_keeps
    | with_reducible exact Keeps.refl _
    | simp only [keeps_mk_eq]
    | split
    | dsimp only

theorem stepApplyWrite_keeps {z : State} (s : State) (hK : Keeps z s) : Keeps z (stepApplyWrite s) := by
  unfold stepApplyWrite
  repeat' first
    | with_reducible assumption
    | (intro xS; refine keeps_gen (z := z) (x := xS) ?_ (fun _ => ?_); revert xS; dsimp only; rotate_left; clear_value xS)
    | (intro xS; refine keeps_gen_fst (z := z) (x := xS) ?_ (fun _ => ?_); revert xS; dsimp only; rotate_left; clear_value xS)
    | intro _
    | lift_lets
    | with_reducible apply setFld_keeps
    | with_reducible apply xlatSwitch_keeps
    | with_reducible apply setSteps_keeps
    | with_reducible exact Keeps.refl _
    | simp only [keeps_mk_eq]
    | split
    | dsimp only

theorem stepCmdWrite_keeps {z : State} (s : State) (v : Nat) (hK : Keeps z s) : Keeps z (stepCmdWrite s v) := by
  unfold stepCmdWrite
  repeat' first
    | with_reducible assumption
    | (intro xS; refine keeps_gen (z := z) (x := xS) ?_ (fun _ => ?_); revert xS; dsimp only; rotate_left; clear_value xS)
    | (intro xS; refine keeps_gen_fst (z := z) (x := xS) ?_ (fun _ => ?_); revert xS; dsimp only; rotate_left; clear_value xS)
    | intro _
    | lift_lets
    | with_reducible apply opStepOpen_keeps
    | with_reducible apply opStepDeclare_keeps
    | with_reducible apply opStepAbandon_keeps
    | with_reducible exact Keeps.refl _
    | simp only [keeps_mk_eq]
    | split
    | dsimp only

theorem hlthApplyWrite_keeps {z : State} (s : State) (hK : Keeps z s) : Keeps z (hlthApplyWrite s) := by
  unfold hlthApplyWrite
  repeat' first
    | with_reducible assumption
    | (intro xS; refine keeps_gen (z := z) (x := xS) ?_ (fun _ => ?_); revert xS; dsimp only; rotate_left; clear_value xS)
    | (intro xS; refine keeps_gen_fst (z := z) (x := xS) ?_ (fun _ => ?_); revert xS; dsimp only; rotate_left; clear_value xS)
    | intro _
    | lift_lets
    | with_reducible exact Keeps.refl _
    | simp only [keeps_mk_eq]
    | split
    | dsimp only

theorem cwtApplyWrite_keeps {z : State} (s : State) (hK : Keeps z s) : Keeps z (cwtApplyWrite s) := by
  unfold cwtApplyWrite
  repeat' first
    | with_reducible assumption
    | (intro xS; refine keeps_gen (z := z) (x := xS) ?_ (fun _ => ?_); revert xS; dsimp only; rotate_left; clear_value xS)
    | (intro xS; refine keeps_gen_fst (z := z) (x := xS) ?_ (fun _ => ?_); revert xS; dsimp only; rotate_left; clear_value xS)
    | intro _
    | lift_lets
    | with_reducible exact Keeps.refl _
    | simp only [keeps_mk_eq]
    | split
    | dsimp only

theorem seqRunWrite_keeps {z : State} (s : State) (q : Nat) (was : Bool) (hK : Keeps z s) : Keeps z (seqRunWrite s q was) := by
  unfold seqRunWrite
  repeat' first
    | with_reducible assumption
    | (intro xS; refine keeps_gen (z := z) (x := xS) ?_ (fun _ => ?_); revert xS; dsimp only; rotate_left; clear_value xS)
    | (intro xS; refine keeps_gen_fst (z := z) (x := xS) ?_ (fun _ => ?_); revert xS; dsimp only; rotate_left; clear_value xS)
    | intro _
    | lift_lets
    | with_reducible apply setSeq_keeps
    | with_reducible exact Keeps.refl _
    | simp only [keeps_mk_eq]
    | split
    | dsimp only

theorem syncValPut_keeps {z : State} (s : State) (d i v : Nat) (hK : Keeps z s) : Keeps z (syncValPut s d i v) := by
  unfold syncValPut
  repeat' first
    | with_reducible assumption
    | intro _
    | with_reducible apply cnt_keeps
    | with_reducible apply objPut_keeps
    | with_reducible exact Keeps.refl _
    | split
    | dsimp only

theorem syncAddPut_keeps {z : State} (s : State) (d i v : Nat) (hK : Keeps z s) : Keeps z (syncAddPut s d i v) := by
  unfold syncAddPut
  repeat' first
    | with_reducible assumption
    | intro _
    | with_reducible apply cnt_keeps
    | with_reducible apply objAdd_keeps
    | with_reducible exact Keeps.refl _
    | split
    | dsimp only

theorem armWritten_keeps {z : State} (s : State) (d a : Nat) (hK : Keeps z s) : Keeps z (armWritten s d a) := by
  unfold armWritten
  repeat' first
    | with_reducible assumption
    | intro _
    | with_reducible apply fireArms_keeps
    | with_reducible exact Keeps.refl _
    | split
    | dsimp only

theorem snapClear_keeps {z : State} (s : State) (b : Blk) (hK : Keeps z s) : Keeps z (snapClear s b) := by
  unfold snapClear
  repeat' first
    | with_reducible assumption
    | (intro xS; refine keeps_gen (z := z) (x := xS) ?_ (fun _ => ?_); revert xS; dsimp only; rotate_left; clear_value xS)
    | (intro xS; refine keeps_gen_fst (z := z) (x := xS) ?_ (fun _ => ?_); revert xS; dsimp only; rotate_left; clear_value xS)
    | intro _
    | lift_lets
    | with_reducible apply setReg_keeps
    | with_reducible exact Keeps.refl _
    | with_reducible refine keeps_foldl (fun _ _ _ => ?_) _ ?_
    | with_reducible refine keeps_foldl_fst (fun _ _ _ => ?_) _ ?_
    | simp only [keeps_mk_eq]
    | split
    | dsimp only

theorem snapGo_keeps {z : State} (s : State) (hK : Keeps z s) : Keeps z (snapGo s) := by
  unfold snapGo
  repeat' first
    | with_reducible assumption
    | (intro xS; refine keeps_gen (z := z) (x := xS) ?_ (fun _ => ?_); revert xS; dsimp only; rotate_left; clear_value xS)
    | (intro xS; refine keeps_gen_fst (z := z) (x := xS) ?_ (fun _ => ?_); revert xS; dsimp only; rotate_left; clear_value xS)
    | intro _
    | lift_lets
    | with_reducible apply setFld_keeps
    | with_reducible apply snapClear_keeps
    | with_reducible apply wrBytes_keeps
    | with_reducible apply traffic_keeps
    | with_reducible exact Keeps.refl _
    | simp only [keeps_mk_eq]
    | split
    | dsimp only

theorem mbWrite_keeps {z : State} (s : State) (c v : Nat) (temp : Int) (tok : Bool) (hK : Keeps z s) : Keeps z (mbWrite s c v temp tok) := by
  unfold mbWrite
  repeat' first
    | with_reducible assumption
    | (intro xS; refine keeps_gen (z := z) (x := xS) ?_ (fun _ => ?_); revert xS; dsimp only; rotate_left; clear_value xS)
    | (intro xS; refine keeps_gen_fst (z := z) (x := xS) ?_ (fun _ => ?_); revert xS; dsimp only; rotate_left; clear_value xS)
    | intro _
    | lift_lets
    | with_reducible apply mbAttest_keeps
    | with_reducible apply mbSignStart_keeps
    | with_reducible apply mbSignData_keeps
    | with_reducible apply mbSignEnd_keeps
    | with_reducible apply mbChallenge_keeps
    | with_reducible apply mbResponse_keeps
    | with_reducible apply mbAdvance_keeps
    | with_reducible apply mbProvision_keeps
    | with_reducible apply mbDone_keeps
    | with_reducible exact Keeps.refl _
    | simp only [keeps_mk_eq]
    | split
    | dsimp only

theorem regEffect_keeps {z : State} (b : Blk) (o v old : Nat) (temp : Int) (tok : Bool) (s : State) (hK : Keeps z s) : Keeps z (regEffect b o v old temp tok s) := by
  unfold regEffect
  repeat' first
    | with_reducible assumption
    | (intro xS; refine keeps_gen (z := z) (x := xS) ?_ (fun _ => ?_); revert xS; dsimp only; rotate_left; clear_value xS)
    | (intro xS; refine keeps_gen_fst (z := z) (x := xS) ?_ (fun _ => ?_); revert xS; dsimp only; rotate_left; clear_value xS)
    | intro _
    | lift_lets
    | with_reducible apply armWritten_keeps
    | with_reducible apply routeApplyWrite_keeps
    | with_reducible apply testModeWrite_keeps
    | with_reducible apply ceCheck_keeps
    | with_reducible apply tgStartWrite_keeps
    | with_reducible apply fenceApplyWrite_keeps
    | with_reducible apply demote_keeps
    | with_reducible apply gangApplyWrite_keeps
    | with_reducible apply seqRunWrite_keeps
    | with_reducible apply stepApplyWrite_keeps
    | with_reducible apply stepCmdWrite_keeps
    | with_reducible apply resilApplyWrite_keeps
    | with_reducible apply xlatApplyWrite_keeps
    | with_reducible apply snapGo_keeps
    | with_reducible apply hlthApplyWrite_keeps
    | with_reducible apply pwrRequest_keeps
    | with_reducible apply pwrResetWrite_keeps
    | with_reducible apply wdogArm_keeps
    | with_reducible apply sclApplyWrite_keeps
    | with_reducible apply migApplyWrite_keeps
    | with_reducible apply foldResume_keeps
    | with_reducible apply ckptReqWrite_keeps
    | with_reducible apply restoreStart_keeps
    | with_reducible apply restoreCommit_keeps
    | with_reducible apply cwtApplyWrite_keeps
    | with_reducible apply mbWrite_keeps
    | with_reducible apply lnkApplyWrite_keeps
    | with_reducible apply lnkEnableWrite_keeps
    | with_reducible apply linkRetrain_keeps
    | with_reducible apply wakeArm_keeps
    | with_reducible exact Keeps.refl _
    | simp only [keeps_mk_eq]
    | split
    | dsimp only

theorem lockedNote_keeps {z : State} (s : State) (b : Blk) (fs : List RegField) (old v : Nat) (hK : Keeps z s) : Keeps z (lockedNote s b fs old v) := by
  unfold lockedNote
  repeat' first
    | with_reducible assumption
    | (intro xS; refine keeps_gen (z := z) (x := xS) ?_ (fun _ => ?_); revert xS; dsimp only; rotate_left; clear_value xS)
    | (intro xS; refine keeps_gen_fst (z := z) (x := xS) ?_ (fun _ => ?_); revert xS; dsimp only; rotate_left; clear_value xS)
    | intro _
    | lift_lets
    | with_reducible apply raise_keeps
    | with_reducible apply cnt_keeps
    | with_reducible exact Keeps.refl _
    | simp only [keeps_mk_eq]
    | split
    | dsimp only

theorem liveNote_keeps {z : State} (s : State) (b : Blk) (o : Nat) (fs : List RegField) (old v : Nat) (hK : Keeps z s) : Keeps z (liveNote s b o fs old v) := by
  unfold liveNote
  repeat' first
    | with_reducible assumption
    | (intro xS; refine keeps_gen (z := z) (x := xS) ?_ (fun _ => ?_); revert xS; dsimp only; rotate_left; clear_value xS)
    | (intro xS; refine keeps_gen_fst (z := z) (x := xS) ?_ (fun _ => ?_); revert xS; dsimp only; rotate_left; clear_value xS)
    | intro _
    | lift_lets
    | with_reducible apply setFld_keeps
    | with_reducible apply cnt_keeps
    | with_reducible apply raise_keeps
    | with_reducible exact Keeps.refl _
    | simp only [keeps_mk_eq]
    | split
    | dsimp only

theorem directWrite_keeps {z : State} (b : Blk) (o v : Nat) (s : State) (hK : Keeps z s) : ∀ t', directWrite b o v s = some t' → Keeps z t' := by
  unfold directWrite
  dsimp only
  repeat' first | split | (intro _ h; cases h; done) | (intro _ h; cases h) 
  all_goals (try dsimp only)
  repeat' first
    | with_reducible assumption
    | (intro xS; refine keeps_gen (z := z) (x := xS) ?_ (fun _ => ?_); revert xS; dsimp only; rotate_left; clear_value xS)
    | (intro xS; refine keeps_gen_fst (z := z) (x := xS) ?_ (fun _ => ?_); revert xS; dsimp only; rotate_left; clear_value xS)
    | intro _
    | lift_lets
    | with_reducible apply syncValPut_keeps
    | with_reducible apply syncAddPut_keeps
    | with_reducible apply setFld_keeps
    | with_reducible exact Keeps.refl _
    | simp only [keeps_mk_eq]
    | split
    | dsimp only

theorem writeFields_keeps {z : State} (p : Path) (b : Blk) (o v0 : Nat) (temp : Int) (tok : Bool) (s : State) (hK : Keeps z s) : Keeps z (writeFields p b o v0 temp tok s) := by
  unfold writeFields
  repeat' first
    | with_reducible assumption
    | (intro xS; refine keeps_gen (z := z) (x := xS) ?_ (fun _ => ?_); revert xS; dsimp only; rotate_left; clear_value xS)
    | (intro xS; refine keeps_gen_fst (z := z) (x := xS) ?_ (fun _ => ?_); revert xS; dsimp only; rotate_left; clear_value xS)
    | intro _
    | lift_lets
    | with_reducible apply lockedNote_keeps
    | with_reducible apply liveNote_keeps
    | with_reducible apply regEffect_keeps
    | with_reducible apply setReg_keeps
    | with_reducible exact Keeps.refl _
    | split
    | dsimp only

theorem writeAt_keeps {z : State} (p : Path) (b : Blk) (o v : Nat) (temp : Int) (tok : Bool) (s : State) (hK : Keeps z s) :
    Keeps z (writeAt p b o v temp tok s) := by
  unfold writeAt
  cases h : directWrite b o v s with
  | none => exact writeFields_keeps _ _ _ _ _ _ _ hK
  | some t => exact directWrite_keeps _ _ _ _ hK _ h

theorem regWrite_keeps {z : State} (p : Path) (off v : Nat) (temp : Int) (tok : Bool) (s : State) (hK : Keeps z s) : Keeps z (regWrite p off v temp tok s) := by
  unfold regWrite
  repeat' first
    | with_reducible assumption
    | (intro xS; refine keeps_gen (z := z) (x := xS) ?_ (fun _ => ?_); revert xS; dsimp only; rotate_left; clear_value xS)
    | (intro xS; refine keeps_gen_fst (z := z) (x := xS) ?_ (fun _ => ?_); revert xS; dsimp only; rotate_left; clear_value xS)
    | intro _
    | lift_lets
    | with_reducible apply regHit_keeps
    | with_reducible apply writeAt_keeps
    | with_reducible exact Keeps.refl _
    | with_reducible refine keeps_fst (by assumption) ?_
    | simp only [keeps_mk_eq]
    | split
    | dsimp only

theorem pathWrite_keeps {z : State} (p : Path) (off v : Nat) (temp : Int) (tok : Bool) (s : State) (hK : Keeps z s) : Keeps z (pathWrite p off v temp tok s) := by
  unfold pathWrite
  repeat' first
    | with_reducible assumption
    | intro _
    | with_reducible apply regWrite_keeps
    | with_reducible exact Keeps.refl _
    | split
    | dsimp only

theorem runWrite_keeps {z : State} (p : Path) (off v : Nat) (temp : Int) (tok : Bool) (s : State) (hK : Keeps z s) : ∀ t', runWrite p off v temp tok s = .next t' → Keeps z t' := by
  unfold runWrite
  repeat' first
    | with_reducible (refine (run_keeps ?_ : ∀ t, _ = Host.Outcome.next t → Keeps _ t))
    | with_reducible assumption
    | intro _
    | with_reducible apply pathWrite_keeps
    | with_reducible exact Keeps.refl _
    | split
    | dsimp only

end Sys2Proof.Machine
end

