-- ==== Sys2Proof/Laws/KeepsRegRows.lean ====
section
/-! SUPPORT. What the operations of RegRows keep. -/
namespace Sys2Proof.Machine

theorem corePut_keeps {z : State} (s : State) (p : Path) (r : CoreResult) (hK : Keeps z s) : Keeps z (corePut s p r) := by
  unfold corePut
  repeat' first
    | with_reducible assumption
    | (intro xS; refine keeps_gen (z := z) (x := xS) ?_ (fun _ => ?_); revert xS; dsimp only; rotate_left; clear_value xS)
    | (intro xS; refine keeps_gen_fst (z := z) (x := xS) ?_ (fun _ => ?_); revert xS; dsimp only; rotate_left; clear_value xS)
    | intro _
    | lift_lets
    | with_reducible exact Keeps.refl _
    | simp only [keeps_mk_eq]
    | split
    | dsimp only

theorem pathRead_keeps {z : State} (p : Path) (off : Nat) (s : State) (hK : Keeps z s) : Keeps z (pathRead p off s) := by
  unfold pathRead
  repeat' first
    | with_reducible assumption
    | (intro xS; refine keeps_gen (z := z) (x := xS) ?_ (fun _ => ?_); revert xS; dsimp only; rotate_left; clear_value xS)
    | (intro xS; refine keeps_gen_fst (z := z) (x := xS) ?_ (fun _ => ?_); revert xS; dsimp only; rotate_left; clear_value xS)
    | intro _
    | lift_lets
    | with_reducible apply regRead_keeps
    | with_reducible apply corePut_keeps
    | with_reducible exact Keeps.refl _
    | with_reducible refine keeps_fst (by assumption) ?_
    | simp only [keeps_mk_eq]
    | split
    | dsimp only

theorem runRead_keeps {z : State} (p : Path) (off : Nat) (s : State) (hK : Keeps z s) : ∀ t', runRead p off s = .next t' → Keeps z t' := by
  unfold runRead
  repeat' first
    | with_reducible (refine (run_keeps ?_ : ∀ t, _ = Host.Outcome.next t → Keeps _ t))
    | with_reducible assumption
    | intro _
    | with_reducible apply pathRead_keeps
    | with_reducible exact Keeps.refl _
    | split
    | dsimp only

theorem execRegisterRcRead_keeps {z : State} (p : Path) (off : BitVec 44) (s : State) (hK : Keeps z s) : ∀ t', execRegisterRcRead p off s = .next t' → Keeps z t' := by
  unfold execRegisterRcRead
  repeat' first
    | with_reducible (refine (run_keeps ?_ : ∀ t, _ = Host.Outcome.next t → Keeps _ t))
    | with_reducible (refine (runRead_keeps _ _ _ ?_ : ∀ t, _ = Host.Outcome.next t → Keeps _ t))
    | with_reducible assumption
    | intro _
    | with_reducible exact Keeps.refl _
    | split
    | dsimp only

theorem execCounterLoRead_keeps {z : State} (p : Path) (off : BitVec 44) (s : State) (hK : Keeps z s) : ∀ t', execCounterLoRead p off s = .next t' → Keeps z t' := by
  unfold execCounterLoRead
  repeat' first
    | with_reducible (refine (run_keeps ?_ : ∀ t, _ = Host.Outcome.next t → Keeps _ t))
    | with_reducible (refine (runRead_keeps _ _ _ ?_ : ∀ t, _ = Host.Outcome.next t → Keeps _ t))
    | with_reducible assumption
    | intro _
    | with_reducible exact Keeps.refl _
    | split
    | dsimp only

theorem execRegisterWrite_keeps {z : State} (p : Path) (off : BitVec 44) (v : Word) (s : State) (hK : Keeps z s) :
    ∀ t', execRegisterWrite p off v s = .next t' → Keeps z t' := by
  unfold execRegisterWrite
  intro t' h
  split at h
  · cases h; exact hK
  · exact runWrite_keeps _ _ _ _ _ _ hK _ h

theorem runReg_keeps {z : State} (p : Path) (b : Blk) (o : Nat) (v : Word) (s : State) (hK : Keeps z s) : ∀ t', runReg p b o v s = .next t' → Keeps z t' := by
  unfold runReg
  repeat' first
    | with_reducible (refine (run_keeps ?_ : ∀ t, _ = Host.Outcome.next t → Keeps _ t))
    | with_reducible (refine (runWrite_keeps _ _ _ _ _ _ ?_ : ∀ t, _ = Host.Outcome.next t → Keeps _ t))
    | with_reducible assumption
    | intro _
    | with_reducible exact Keeps.refl _
    | split
    | dsimp only

theorem execXlatDataAccess_keeps {z : State} (p : Path) (wr : Option Word) (s : State) (hK : Keeps z s) :
    ∀ t', execXlatDataAccess p wr s = .next t' → Keeps z t' := by
  unfold execXlatDataAccess
  intro t' h
  split at h
  · exact runReg_keeps _ _ _ _ _ hK _ h
  · exact runRead_keeps _ _ _ hK _ h

theorem execSnapshotAndClear_keeps {z : State} (p : Path) (v : Word) (s : State) (hK : Keeps z s) : ∀ t', execSnapshotAndClear p v s = .next t' → Keeps z t' := by
  unfold execSnapshotAndClear
  repeat' first
    | with_reducible (refine (run_keeps ?_ : ∀ t, _ = Host.Outcome.next t → Keeps _ t))
    | with_reducible (refine (runReg_keeps _ _ _ _ _ ?_ : ∀ t, _ = Host.Outcome.next t → Keeps _ t))
    | with_reducible assumption
    | intro _
    | with_reducible exact Keeps.refl _
    | split
    | dsimp only

theorem execStepCmdOpen_keeps {z : State} (p : Path) (s : State) (hK : Keeps z s) : ∀ t', execStepCmdOpen p s = .next t' → Keeps z t' := by
  unfold execStepCmdOpen
  repeat' first
    | with_reducible (refine (run_keeps ?_ : ∀ t, _ = Host.Outcome.next t → Keeps _ t))
    | with_reducible (refine (runReg_keeps _ _ _ _ _ ?_ : ∀ t, _ = Host.Outcome.next t → Keeps _ t))
    | with_reducible assumption
    | intro _
    | with_reducible exact Keeps.refl _
    | split
    | dsimp only

theorem execStepCmdDeclare_keeps {z : State} (p : Path) (s : State) (hK : Keeps z s) : ∀ t', execStepCmdDeclare p s = .next t' → Keeps z t' := by
  unfold execStepCmdDeclare
  repeat' first
    | with_reducible (refine (run_keeps ?_ : ∀ t, _ = Host.Outcome.next t → Keeps _ t))
    | with_reducible (refine (runReg_keeps _ _ _ _ _ ?_ : ∀ t, _ = Host.Outcome.next t → Keeps _ t))
    | with_reducible assumption
    | intro _
    | with_reducible exact Keeps.refl _
    | split
    | dsimp only

theorem execStepCmdAbandon_keeps {z : State} (p : Path) (s : State) (hK : Keeps z s) : ∀ t', execStepCmdAbandon p s = .next t' → Keeps z t' := by
  unfold execStepCmdAbandon
  repeat' first
    | with_reducible (refine (run_keeps ?_ : ∀ t, _ = Host.Outcome.next t → Keeps _ t))
    | with_reducible (refine (runReg_keeps _ _ _ _ _ ?_ : ∀ t, _ = Host.Outcome.next t → Keeps _ t))
    | with_reducible assumption
    | intro _
    | with_reducible exact Keeps.refl _
    | split
    | dsimp only

theorem execSeqRun_keeps {z : State} (p : Path) (q : Fin 256) (v : Word) (s : State) (hK : Keeps z s) : ∀ t', execSeqRun p q v s = .next t' → Keeps z t' := by
  unfold execSeqRun
  repeat' first
    | with_reducible (refine (run_keeps ?_ : ∀ t, _ = Host.Outcome.next t → Keeps _ t))
    | with_reducible (refine (runReg_keeps _ _ _ _ _ ?_ : ∀ t, _ = Host.Outcome.next t → Keeps _ t))
    | with_reducible assumption
    | intro _
    | with_reducible exact Keeps.refl _
    | split
    | dsimp only

theorem execGangApply_keeps {z : State} (p : Path) (q : Fin 256) (v : Word) (s : State) (hK : Keeps z s) : ∀ t', execGangApply p q v s = .next t' → Keeps z t' := by
  unfold execGangApply
  repeat' first
    | with_reducible (refine (run_keeps ?_ : ∀ t, _ = Host.Outcome.next t → Keeps _ t))
    | with_reducible (refine (runReg_keeps _ _ _ _ _ ?_ : ∀ t, _ = Host.Outcome.next t → Keeps _ t))
    | with_reducible assumption
    | intro _
    | with_reducible exact Keeps.refl _
    | split
    | dsimp only

theorem execFenceApply_keeps {z : State} (p : Path) (rg : Fin 16) (v : Word) (s : State) (hK : Keeps z s) : ∀ t', execFenceApply p rg v s = .next t' → Keeps z t' := by
  unfold execFenceApply
  repeat' first
    | with_reducible (refine (run_keeps ?_ : ∀ t, _ = Host.Outcome.next t → Keeps _ t))
    | with_reducible (refine (runReg_keeps _ _ _ _ _ ?_ : ∀ t, _ = Host.Outcome.next t → Keeps _ t))
    | with_reducible assumption
    | intro _
    | with_reducible exact Keeps.refl _
    | split
    | dsimp only

theorem execRouteApply_keeps {z : State} (p : Path) (d : Fin 4) (v : Word) (s : State) (hK : Keeps z s) : ∀ t', execRouteApply p d v s = .next t' → Keeps z t' := by
  unfold execRouteApply
  repeat' first
    | with_reducible (refine (run_keeps ?_ : ∀ t, _ = Host.Outcome.next t → Keeps _ t))
    | with_reducible (refine (runReg_keeps _ _ _ _ _ ?_ : ∀ t, _ = Host.Outcome.next t → Keeps _ t))
    | with_reducible assumption
    | intro _
    | with_reducible exact Keeps.refl _
    | split
    | dsimp only

theorem execSclApplyEst_keeps {z : State} (p : Path) (s : State) (hK : Keeps z s) : ∀ t', execSclApplyEst p s = .next t' → Keeps z t' := by
  unfold execSclApplyEst
  repeat' first
    | with_reducible (refine (run_keeps ?_ : ∀ t, _ = Host.Outcome.next t → Keeps _ t))
    | with_reducible (refine (runReg_keeps _ _ _ _ _ ?_ : ∀ t, _ = Host.Outcome.next t → Keeps _ t))
    | with_reducible assumption
    | intro _
    | with_reducible exact Keeps.refl _
    | split
    | dsimp only

theorem execSclApplyLs_keeps {z : State} (p : Path) (s : State) (hK : Keeps z s) : ∀ t', execSclApplyLs p s = .next t' → Keeps z t' := by
  unfold execSclApplyLs
  repeat' first
    | with_reducible (refine (run_keeps ?_ : ∀ t, _ = Host.Outcome.next t → Keeps _ t))
    | with_reducible (refine (runReg_keeps _ _ _ _ _ ?_ : ∀ t, _ = Host.Outcome.next t → Keeps _ t))
    | with_reducible assumption
    | intro _
    | with_reducible exact Keeps.refl _
    | split
    | dsimp only

theorem execMigApply_keeps {z : State} (p : Path) (v : Word) (s : State) (hK : Keeps z s) : ∀ t', execMigApply p v s = .next t' → Keeps z t' := by
  unfold execMigApply
  repeat' first
    | with_reducible (refine (run_keeps ?_ : ∀ t, _ = Host.Outcome.next t → Keeps _ t))
    | with_reducible (refine (runReg_keeps _ _ _ _ _ ?_ : ∀ t, _ = Host.Outcome.next t → Keeps _ t))
    | with_reducible assumption
    | intro _
    | with_reducible exact Keeps.refl _
    | split
    | dsimp only

theorem execUpdApply_keeps {z : State} (p : Path) (v : Word) (s : State) (hK : Keeps z s) : ∀ t', execUpdApply p v s = .next t' → Keeps z t' := by
  unfold execUpdApply
  repeat' first
    | with_reducible (refine (run_keeps ?_ : ∀ t, _ = Host.Outcome.next t → Keeps _ t))
    | with_reducible (refine (runReg_keeps _ _ _ _ _ ?_ : ∀ t, _ = Host.Outcome.next t → Keeps _ t))
    | with_reducible assumption
    | intro _
    | with_reducible exact Keeps.refl _
    | split
    | dsimp only

theorem execLnkApply_keeps {z : State} (p : Path) (l : Fin 6) (v : Word) (s : State) (hK : Keeps z s) : ∀ t', execLnkApply p l v s = .next t' → Keeps z t' := by
  unfold execLnkApply
  repeat' first
    | with_reducible (refine (run_keeps ?_ : ∀ t, _ = Host.Outcome.next t → Keeps _ t))
    | with_reducible (refine (runReg_keeps _ _ _ _ _ ?_ : ∀ t, _ = Host.Outcome.next t → Keeps _ t))
    | with_reducible assumption
    | intro _
    | with_reducible exact Keeps.refl _
    | split
    | dsimp only

theorem execXlatApply_keeps {z : State} (p : Path) (v : Word) (s : State) (hK : Keeps z s) : ∀ t', execXlatApply p v s = .next t' → Keeps z t' := by
  unfold execXlatApply
  repeat' first
    | with_reducible (refine (run_keeps ?_ : ∀ t, _ = Host.Outcome.next t → Keeps _ t))
    | with_reducible (refine (runReg_keeps _ _ _ _ _ ?_ : ∀ t, _ = Host.Outcome.next t → Keeps _ t))
    | with_reducible assumption
    | intro _
    | with_reducible exact Keeps.refl _
    | split
    | dsimp only

theorem execChkApply_keeps {z : State} (p : Path) (v : Word) (s : State) (hK : Keeps z s) : ∀ t', execChkApply p v s = .next t' → Keeps z t' := by
  unfold execChkApply
  repeat' first
    | with_reducible (refine (run_keeps ?_ : ∀ t, _ = Host.Outcome.next t → Keeps _ t))
    | with_reducible (refine (runReg_keeps _ _ _ _ _ ?_ : ∀ t, _ = Host.Outcome.next t → Keeps _ t))
    | with_reducible assumption
    | intro _
    | with_reducible exact Keeps.refl _
    | split
    | dsimp only

theorem execCkptApply_keeps {z : State} (p : Path) (v : Word) (s : State) (hK : Keeps z s) : ∀ t', execCkptApply p v s = .next t' → Keeps z t' := by
  unfold execCkptApply
  repeat' first
    | with_reducible (refine (run_keeps ?_ : ∀ t, _ = Host.Outcome.next t → Keeps _ t))
    | with_reducible (refine (runReg_keeps _ _ _ _ _ ?_ : ∀ t, _ = Host.Outcome.next t → Keeps _ t))
    | with_reducible assumption
    | intro _
    | with_reducible exact Keeps.refl _
    | split
    | dsimp only

theorem execHubResilApply_keeps {z : State} (p : Path) (v : Word) (s : State) (hK : Keeps z s) : ∀ t', execHubResilApply p v s = .next t' → Keeps z t' := by
  unfold execHubResilApply
  repeat' first
    | with_reducible (refine (run_keeps ?_ : ∀ t, _ = Host.Outcome.next t → Keeps _ t))
    | with_reducible (refine (runReg_keeps _ _ _ _ _ ?_ : ∀ t, _ = Host.Outcome.next t → Keeps _ t))
    | with_reducible assumption
    | intro _
    | with_reducible exact Keeps.refl _
    | split
    | dsimp only

theorem execHubStepApply_keeps {z : State} (p : Path) (v : Word) (s : State) (hK : Keeps z s) : ∀ t', execHubStepApply p v s = .next t' → Keeps z t' := by
  unfold execHubStepApply
  repeat' first
    | with_reducible (refine (run_keeps ?_ : ∀ t, _ = Host.Outcome.next t → Keeps _ t))
    | with_reducible (refine (runReg_keeps _ _ _ _ _ ?_ : ∀ t, _ = Host.Outcome.next t → Keeps _ t))
    | with_reducible assumption
    | intro _
    | with_reducible exact Keeps.refl _
    | split
    | dsimp only

theorem execHlthApply_keeps {z : State} (p : Path) (v : Word) (s : State) (hK : Keeps z s) : ∀ t', execHlthApply p v s = .next t' → Keeps z t' := by
  unfold execHlthApply
  repeat' first
    | with_reducible (refine (run_keeps ?_ : ∀ t, _ = Host.Outcome.next t → Keeps _ t))
    | with_reducible (refine (runReg_keeps _ _ _ _ _ ?_ : ∀ t, _ = Host.Outcome.next t → Keeps _ t))
    | with_reducible assumption
    | intro _
    | with_reducible exact Keeps.refl _
    | split
    | dsimp only

theorem execCwtApply_keeps {z : State} (p : Path) (v : Word) (s : State) (hK : Keeps z s) : ∀ t', execCwtApply p v s = .next t' → Keeps z t' := by
  unfold execCwtApply
  repeat' first
    | with_reducible (refine (run_keeps ?_ : ∀ t, _ = Host.Outcome.next t → Keeps _ t))
    | with_reducible (refine (runReg_keeps _ _ _ _ _ ?_ : ∀ t, _ = Host.Outcome.next t → Keeps _ t))
    | with_reducible assumption
    | intro _
    | with_reducible exact Keeps.refl _
    | split
    | dsimp only

theorem execSyncValWrite_keeps {z : State} (p : Path) (d : Fin 4) (o : Fin 4096) (v : Word) (s : State) (hK : Keeps z s) : ∀ t', execSyncValWrite p d o v s = .next t' → Keeps z t' := by
  unfold execSyncValWrite
  repeat' first
    | with_reducible (refine (run_keeps ?_ : ∀ t, _ = Host.Outcome.next t → Keeps _ t))
    | with_reducible (refine (runReg_keeps _ _ _ _ _ ?_ : ∀ t, _ = Host.Outcome.next t → Keeps _ t))
    | with_reducible assumption
    | intro _
    | with_reducible exact Keeps.refl _
    | split
    | dsimp only

theorem execSyncAddWrite_keeps {z : State} (p : Path) (d : Fin 4) (o : Fin 4096) (v : Word) (s : State) (hK : Keeps z s) : ∀ t', execSyncAddWrite p d o v s = .next t' → Keeps z t' := by
  unfold execSyncAddWrite
  repeat' first
    | with_reducible (refine (run_keeps ?_ : ∀ t, _ = Host.Outcome.next t → Keeps _ t))
    | with_reducible (refine (runReg_keeps _ _ _ _ _ ?_ : ∀ t, _ = Host.Outcome.next t → Keeps _ t))
    | with_reducible assumption
    | intro _
    | with_reducible exact Keeps.refl _
    | split
    | dsimp only

theorem execSyncArmWrite_keeps {z : State} (p : Path) (d : Fin 4) (a : Fin 64) (tgt : Bool) (v : Word) (s : State) (hK : Keeps z s) : ∀ t', execSyncArmWrite p d a tgt v s = .next t' → Keeps z t' := by
  unfold execSyncArmWrite
  repeat' first
    | with_reducible (refine (run_keeps ?_ : ∀ t, _ = Host.Outcome.next t → Keeps _ t))
    | with_reducible (refine (runReg_keeps _ _ _ _ _ ?_ : ∀ t, _ = Host.Outcome.next t → Keeps _ t))
    | with_reducible assumption
    | intro _
    | with_reducible exact Keeps.refl _
    | split
    | dsimp only

theorem execBcnSlipClear_keeps {z : State} (p : Path) (d : Fin 4) (g : Fin 16) (v : Word) (s : State) (hK : Keeps z s) : ∀ t', execBcnSlipClear p d g v s = .next t' → Keeps z t' := by
  unfold execBcnSlipClear
  repeat' first
    | with_reducible (refine (run_keeps ?_ : ∀ t, _ = Host.Outcome.next t → Keeps _ t))
    | with_reducible (refine (runReg_keeps _ _ _ _ _ ?_ : ∀ t, _ = Host.Outcome.next t → Keeps _ t))
    | with_reducible assumption
    | intro _
    | with_reducible exact Keeps.refl _
    | split
    | dsimp only

theorem execCacheDemote_keeps {z : State} (p : Path) (rg : Fin 16) (v : Word) (s : State) (hK : Keeps z s) : ∀ t', execCacheDemote p rg v s = .next t' → Keeps z t' := by
  unfold execCacheDemote
  repeat' first
    | with_reducible (refine (run_keeps ?_ : ∀ t, _ = Host.Outcome.next t → Keeps _ t))
    | with_reducible (refine (runReg_keeps _ _ _ _ _ ?_ : ∀ t, _ = Host.Outcome.next t → Keeps _ t))
    | with_reducible assumption
    | intro _
    | with_reducible exact Keeps.refl _
    | split
    | dsimp only

theorem execTestModeEnter_keeps {z : State} (p : Path) (c : MemCtrl) (v : Word) (s : State) (hK : Keeps z s) : ∀ t', execTestModeEnter p c v s = .next t' → Keeps z t' := by
  unfold execTestModeEnter
  repeat' first
    | with_reducible (refine (run_keeps ?_ : ∀ t, _ = Host.Outcome.next t → Keeps _ t))
    | with_reducible (refine (runReg_keeps _ _ _ _ _ ?_ : ∀ t, _ = Host.Outcome.next t → Keeps _ t))
    | with_reducible assumption
    | intro _
    | with_reducible exact Keeps.refl _
    | split
    | dsimp only

theorem execTgStart_keeps {z : State} (p : Path) (c : MemCtrl) (ch : Fin 16) (v : Word) (s : State) (hK : Keeps z s) : ∀ t', execTgStart p c ch v s = .next t' → Keeps z t' := by
  unfold execTgStart
  repeat' first
    | with_reducible (refine (run_keeps ?_ : ∀ t, _ = Host.Outcome.next t → Keeps _ t))
    | with_reducible (refine (runReg_keeps _ _ _ _ _ ?_ : ∀ t, _ = Host.Outcome.next t → Keeps _ t))
    | with_reducible assumption
    | intro _
    | with_reducible exact Keeps.refl _
    | split
    | dsimp only

theorem execLinkRetrain_keeps {z : State} (p : Path) (l : Fin 6) (v : Word) (s : State) (hK : Keeps z s) : ∀ t', execLinkRetrain p l v s = .next t' → Keeps z t' := by
  unfold execLinkRetrain
  repeat' first
    | with_reducible (refine (run_keeps ?_ : ∀ t, _ = Host.Outcome.next t → Keeps _ t))
    | with_reducible (refine (runReg_keeps _ _ _ _ _ ?_ : ∀ t, _ = Host.Outcome.next t → Keeps _ t))
    | with_reducible assumption
    | intro _
    | with_reducible exact Keeps.refl _
    | split
    | dsimp only

theorem execFoldResume_keeps {z : State} (p : Path) (v : Word) (s : State) (hK : Keeps z s) : ∀ t', execFoldResume p v s = .next t' → Keeps z t' := by
  unfold execFoldResume
  repeat' first
    | with_reducible (refine (run_keeps ?_ : ∀ t, _ = Host.Outcome.next t → Keeps _ t))
    | with_reducible (refine (runReg_keeps _ _ _ _ _ ?_ : ∀ t, _ = Host.Outcome.next t → Keeps _ t))
    | with_reducible assumption
    | intro _
    | with_reducible exact Keeps.refl _
    | split
    | dsimp only

theorem execCkptReq_keeps {z : State} (p : Path) (v : Word) (s : State) (hK : Keeps z s) : ∀ t', execCkptReq p v s = .next t' → Keeps z t' := by
  unfold execCkptReq
  repeat' first
    | with_reducible (refine (run_keeps ?_ : ∀ t, _ = Host.Outcome.next t → Keeps _ t))
    | with_reducible (refine (runReg_keeps _ _ _ _ _ ?_ : ∀ t, _ = Host.Outcome.next t → Keeps _ t))
    | with_reducible assumption
    | intro _
    | with_reducible exact Keeps.refl _
    | split
    | dsimp only

theorem execRestoreStart_keeps {z : State} (p : Path) (v : Word) (s : State) (hK : Keeps z s) : ∀ t', execRestoreStart p v s = .next t' → Keeps z t' := by
  unfold execRestoreStart
  repeat' first
    | with_reducible (refine (run_keeps ?_ : ∀ t, _ = Host.Outcome.next t → Keeps _ t))
    | with_reducible (refine (runReg_keeps _ _ _ _ _ ?_ : ∀ t, _ = Host.Outcome.next t → Keeps _ t))
    | with_reducible assumption
    | intro _
    | with_reducible exact Keeps.refl _
    | split
    | dsimp only

theorem execRestoreCommit_keeps {z : State} (p : Path) (v : Word) (s : State) (hK : Keeps z s) : ∀ t', execRestoreCommit p v s = .next t' → Keeps z t' := by
  unfold execRestoreCommit
  repeat' first
    | with_reducible (refine (run_keeps ?_ : ∀ t, _ = Host.Outcome.next t → Keeps _ t))
    | with_reducible (refine (runReg_keeps _ _ _ _ _ ?_ : ∀ t, _ = Host.Outcome.next t → Keeps _ t))
    | with_reducible assumption
    | intro _
    | with_reducible exact Keeps.refl _
    | split
    | dsimp only

theorem execPwrReqWrite_keeps {z : State} (p : Path) (v : Word) (s : State) (hK : Keeps z s) : ∀ t', execPwrReqWrite p v s = .next t' → Keeps z t' := by
  unfold execPwrReqWrite
  repeat' first
    | with_reducible (refine (run_keeps ?_ : ∀ t, _ = Host.Outcome.next t → Keeps _ t))
    | with_reducible (refine (runReg_keeps _ _ _ _ _ ?_ : ∀ t, _ = Host.Outcome.next t → Keeps _ t))
    | with_reducible assumption
    | intro _
    | with_reducible exact Keeps.refl _
    | split
    | dsimp only

theorem execPwrResetModule_keeps {z : State} (p : Path) (s : State) (hK : Keeps z s) : ∀ t', execPwrResetModule p s = .next t' → Keeps z t' := by
  unfold execPwrResetModule
  repeat' first
    | with_reducible (refine (run_keeps ?_ : ∀ t, _ = Host.Outcome.next t → Keeps _ t))
    | with_reducible (refine (runReg_keeps _ _ _ _ _ ?_ : ∀ t, _ = Host.Outcome.next t → Keeps _ t))
    | with_reducible assumption
    | intro _
    | with_reducible exact Keeps.refl _
    | split
    | dsimp only

theorem execPwrResetJob_keeps {z : State} (p : Path) (s : State) (hK : Keeps z s) : ∀ t', execPwrResetJob p s = .next t' → Keeps z t' := by
  unfold execPwrResetJob
  repeat' first
    | with_reducible (refine (run_keeps ?_ : ∀ t, _ = Host.Outcome.next t → Keeps _ t))
    | with_reducible (refine (runReg_keeps _ _ _ _ _ ?_ : ∀ t, _ = Host.Outcome.next t → Keeps _ t))
    | with_reducible assumption
    | intro _
    | with_reducible exact Keeps.refl _
    | split
    | dsimp only

theorem execPwrResetDie_keeps {z : State} (p : Path) (d : Fin 4) (s : State) (hK : Keeps z s) : ∀ t', execPwrResetDie p d s = .next t' → Keeps z t' := by
  unfold execPwrResetDie
  repeat' first
    | with_reducible (refine (run_keeps ?_ : ∀ t, _ = Host.Outcome.next t → Keeps _ t))
    | with_reducible (refine (runReg_keeps _ _ _ _ _ ?_ : ∀ t, _ = Host.Outcome.next t → Keeps _ t))
    | with_reducible assumption
    | intro _
    | with_reducible exact Keeps.refl _
    | split
    | dsimp only

theorem execPwrWdogWrite_keeps {z : State} (p : Path) (v : Word) (s : State) (hK : Keeps z s) : ∀ t', execPwrWdogWrite p v s = .next t' → Keeps z t' := by
  unfold execPwrWdogWrite
  repeat' first
    | with_reducible (refine (run_keeps ?_ : ∀ t, _ = Host.Outcome.next t → Keeps _ t))
    | with_reducible (refine (runReg_keeps _ _ _ _ _ ?_ : ∀ t, _ = Host.Outcome.next t → Keeps _ t))
    | with_reducible assumption
    | intro _
    | with_reducible exact Keeps.refl _
    | split
    | dsimp only

theorem runMb_keeps {z : State} (k : Fin 4) (c : Fin 2) (cmd : Nat) (len : BitVec 13) (temp : Int) (tok : Bool) (s : State) (hK : Keeps z s) : ∀ t', runMb k c cmd len temp tok s = .next t' → Keeps z t' := by
  unfold runMb
  repeat' first
    | with_reducible (refine (run_keeps ?_ : ∀ t, _ = Host.Outcome.next t → Keeps _ t))
    | with_reducible (refine (runWrite_keeps _ _ _ _ _ _ ?_ : ∀ t, _ = Host.Outcome.next t → Keeps _ t))
    | with_reducible assumption
    | intro _
    | with_reducible exact Keeps.refl _
    | split
    | dsimp only

theorem execMbAttest_keeps {z : State} (k : Fin 4) (c : Fin 2) (len : BitVec 13) (s : State) (hK : Keeps z s) : ∀ t', execMbAttest k c len s = .next t' → Keeps z t' := by
  unfold execMbAttest
  repeat' first
    | with_reducible (refine (run_keeps ?_ : ∀ t, _ = Host.Outcome.next t → Keeps _ t))
    | with_reducible (refine (runMb_keeps _ _ _ _ _ _ _ ?_ : ∀ t, _ = Host.Outcome.next t → Keeps _ t))
    | with_reducible assumption
    | intro _
    | with_reducible exact Keeps.refl _
    | split
    | dsimp only

theorem execSignStart_keeps {z : State} (k : Fin 4) (c : Fin 2) (len : BitVec 13) (s : State) (hK : Keeps z s) : ∀ t', execSignStart k c len s = .next t' → Keeps z t' := by
  unfold execSignStart
  repeat' first
    | with_reducible (refine (run_keeps ?_ : ∀ t, _ = Host.Outcome.next t → Keeps _ t))
    | with_reducible (refine (runMb_keeps _ _ _ _ _ _ _ ?_ : ∀ t, _ = Host.Outcome.next t → Keeps _ t))
    | with_reducible assumption
    | intro _
    | with_reducible exact Keeps.refl _
    | split
    | dsimp only

theorem execSignData_keeps {z : State} (k : Fin 4) (c : Fin 2) (len : BitVec 13) (s : State) (hK : Keeps z s) : ∀ t', execSignData k c len s = .next t' → Keeps z t' := by
  unfold execSignData
  repeat' first
    | with_reducible (refine (run_keeps ?_ : ∀ t, _ = Host.Outcome.next t → Keeps _ t))
    | with_reducible (refine (runMb_keeps _ _ _ _ _ _ _ ?_ : ∀ t, _ = Host.Outcome.next t → Keeps _ t))
    | with_reducible assumption
    | intro _
    | with_reducible exact Keeps.refl _
    | split
    | dsimp only

theorem execSignEnd_keeps {z : State} (k : Fin 4) (c : Fin 2) (len : BitVec 13) (s : State) (hK : Keeps z s) : ∀ t', execSignEnd k c len s = .next t' → Keeps z t' := by
  unfold execSignEnd
  repeat' first
    | with_reducible (refine (run_keeps ?_ : ∀ t, _ = Host.Outcome.next t → Keeps _ t))
    | with_reducible (refine (runMb_keeps _ _ _ _ _ _ _ ?_ : ∀ t, _ = Host.Outcome.next t → Keeps _ t))
    | with_reducible assumption
    | intro _
    | with_reducible exact Keeps.refl _
    | split
    | dsimp only

theorem execDbgChallenge_keeps {z : State} (k : Fin 4) (c : Fin 2) (len : BitVec 13) (s : State) (hK : Keeps z s) : ∀ t', execDbgChallenge k c len s = .next t' → Keeps z t' := by
  unfold execDbgChallenge
  repeat' first
    | with_reducible (refine (run_keeps ?_ : ∀ t, _ = Host.Outcome.next t → Keeps _ t))
    | with_reducible (refine (runMb_keeps _ _ _ _ _ _ _ ?_ : ∀ t, _ = Host.Outcome.next t → Keeps _ t))
    | with_reducible assumption
    | intro _
    | with_reducible exact Keeps.refl _
    | split
    | dsimp only

theorem execDbgResponse_keeps {z : State} (k : Fin 4) (c : Fin 2) (len : BitVec 13) (temp : Int) (s : State) (hK : Keeps z s) : ∀ t', execDbgResponse k c len temp s = .next t' → Keeps z t' := by
  unfold execDbgResponse
  repeat' first
    | with_reducible (refine (run_keeps ?_ : ∀ t, _ = Host.Outcome.next t → Keeps _ t))
    | with_reducible (refine (runMb_keeps _ _ _ _ _ _ _ ?_ : ∀ t, _ = Host.Outcome.next t → Keeps _ t))
    | with_reducible assumption
    | intro _
    | with_reducible exact Keeps.refl _
    | split
    | dsimp only

theorem execAdvance_keeps {z : State} (k : Fin 4) (c : Fin 2) (len : BitVec 13) (s : State) (hK : Keeps z s) : ∀ t', execAdvance k c len s = .next t' → Keeps z t' := by
  unfold execAdvance
  repeat' first
    | with_reducible (refine (run_keeps ?_ : ∀ t, _ = Host.Outcome.next t → Keeps _ t))
    | with_reducible (refine (runMb_keeps _ _ _ _ _ _ _ ?_ : ∀ t, _ = Host.Outcome.next t → Keeps _ t))
    | with_reducible assumption
    | intro _
    | with_reducible exact Keeps.refl _
    | split
    | dsimp only

theorem execProvision_keeps {z : State} (k : Fin 4) (c : Fin 2) (len : BitVec 13) (tok : Bool) (s : State) (hK : Keeps z s) : ∀ t', execProvision k c len tok s = .next t' → Keeps z t' := by
  unfold execProvision
  repeat' first
    | with_reducible (refine (run_keeps ?_ : ∀ t, _ = Host.Outcome.next t → Keeps _ t))
    | with_reducible (refine (runMb_keeps _ _ _ _ _ _ _ ?_ : ∀ t, _ = Host.Outcome.next t → Keeps _ t))
    | with_reducible assumption
    | intro _
    | with_reducible exact Keeps.refl _
    | split
    | dsimp only

theorem coreFault_keeps {z : State} (s : State) (p : Path) (e : AccErr) (hK : Keeps z s) : Keeps z (coreFault s p e) := by
  unfold coreFault
  repeat' first
    | with_reducible assumption
    | (intro xS; refine keeps_gen (z := z) (x := xS) ?_ (fun _ => ?_); revert xS; dsimp only; rotate_left; clear_value xS)
    | (intro xS; refine keeps_gen_fst (z := z) (x := xS) ?_ (fun _ => ?_); revert xS; dsimp only; rotate_left; clear_value xS)
    | intro _
    | lift_lets
    | with_reducible apply raiseAcc_keeps
    | with_reducible apply corePut_keeps
    | with_reducible apply raise_keeps
    | with_reducible exact Keeps.refl _
    | split
    | dsimp only

theorem coreWr_keeps {z : State} (s : State) (a n v : Nat) (hK : Keeps z s) : Keeps z (coreWr s a n v) := by
  unfold coreWr
  repeat' first
    | with_reducible assumption
    | intro _
    | with_reducible apply wrBytes_keeps
    | with_reducible apply traffic_keeps
    | with_reducible exact Keeps.refl _
    | split
    | dsimp only

theorem dropResv_keeps {z : State} (s : State) (p : Path) (hK : Keeps z s) : Keeps z (dropResv s p) := by
  unfold dropResv
  repeat' first
    | with_reducible assumption
    | (intro xS; refine keeps_gen (z := z) (x := xS) ?_ (fun _ => ?_); revert xS; dsimp only; rotate_left; clear_value xS)
    | (intro xS; refine keeps_gen_fst (z := z) (x := xS) ?_ (fun _ => ?_); revert xS; dsimp only; rotate_left; clear_value xS)
    | intro _
    | lift_lets
    | with_reducible exact Keeps.refl _
    | simp only [keeps_mk_eq]
    | split
    | dsimp only

theorem coreMem_keeps {z : State} (s : State) (p : Path) (a n : Nat) (k : CoreAcc) (hK : Keeps z s) : Keeps z (coreMem s p a n k) := by
  unfold coreMem
  repeat' first
    | with_reducible assumption
    | (intro xS; refine keeps_gen (z := z) (x := xS) ?_ (fun _ => ?_); revert xS; dsimp only; rotate_left; clear_value xS)
    | (intro xS; refine keeps_gen_fst (z := z) (x := xS) ?_ (fun _ => ?_); revert xS; dsimp only; rotate_left; clear_value xS)
    | intro _
    | lift_lets
    | with_reducible apply corePut_keeps
    | with_reducible apply traffic_keeps
    | with_reducible apply coreWr_keeps
    | with_reducible apply dropResv_keeps
    | with_reducible exact Keeps.refl _
    | simp only [keeps_mk_eq]
    | split
    | dsimp only

theorem coreReg_keeps {z : State} (s : State) (p : Path) (off n : Nat) (k : CoreAcc) (hK : Keeps z s) : Keeps z (coreReg s p off n k) := by
  unfold coreReg
  repeat' first
    | with_reducible assumption
    | (intro xS; refine keeps_gen (z := z) (x := xS) ?_ (fun _ => ?_); revert xS; dsimp only; rotate_left; clear_value xS)
    | (intro xS; refine keeps_gen_fst (z := z) (x := xS) ?_ (fun _ => ?_); revert xS; dsimp only; rotate_left; clear_value xS)
    | intro _
    | lift_lets
    | with_reducible apply corePut_keeps
    | with_reducible apply pathRead_keeps
    | with_reducible apply pathWrite_keeps
    | with_reducible exact Keeps.refl _
    | simp only [keeps_mk_eq]
    | split
    | dsimp only

theorem opCoreMemAccess_keeps {z : State} (p : Path) (a n : Nat) (k : CoreAcc) (errs : List MemErr) (s : State) (hK : Keeps z s) : Keeps z (opCoreMemAccess p a n k errs s) := by
  unfold opCoreMemAccess
  repeat' first
    | with_reducible assumption
    | (intro xS; refine keeps_gen (z := z) (x := xS) ?_ (fun _ => ?_); revert xS; dsimp only; rotate_left; clear_value xS)
    | (intro xS; refine keeps_gen_fst (z := z) (x := xS) ?_ (fun _ => ?_); revert xS; dsimp only; rotate_left; clear_value xS)
    | intro _
    | lift_lets
    | with_reducible apply coreReg_keeps
    | with_reducible apply coreFault_keeps
    | with_reducible apply memErrs_keeps
    | with_reducible apply corePut_keeps
    | with_reducible apply poisonRead_keeps
    | with_reducible apply coreMem_keeps
    | with_reducible exact Keeps.refl _
    | simp only [keeps_mk_eq]
    | split
    | dsimp only

theorem execCoreMemAccess_keeps {z : State} (p : Path) (a : BitVec 56) (n : Fin 65) (k : CoreAcc) (errs : List MemErr) (s : State) (hK : Keeps z s) : ∀ t', execCoreMemAccess p a n k errs s = .next t' → Keeps z t' := by
  unfold execCoreMemAccess
  repeat' first
    | with_reducible (refine (run_keeps ?_ : ∀ t, _ = Host.Outcome.next t → Keeps _ t))
    | with_reducible assumption
    | intro _
    | with_reducible apply opCoreMemAccess_keeps
    | with_reducible exact Keeps.refl _
    | split
    | dsimp only

end Sys2Proof.Machine
end

