-- ==== Sys2Proof/Laws/KeepsCwtRows.lean ====
section
/-! SUPPORT. What the operations of CwtRows keep. -/
namespace Sys2Proof.Machine

theorem openNack_keeps {z : State} (s : State) (c : Sess) (port code : Nat) (hK : Keeps z s) : Keeps z (openNack s c port code) := by
  unfold openNack
  repeat' first
    | with_reducible assumption
    | (intro xS; refine keeps_gen (z := z) (x := xS) ?_ (fun _ => ?_); revert xS; dsimp only; rotate_left; clear_value xS)
    | (intro xS; refine keeps_gen_fst (z := z) (x := xS) ?_ (fun _ => ?_); revert xS; dsimp only; rotate_left; clear_value xS)
    | intro _
    | lift_lets
    | with_reducible apply netOut_keeps
    | with_reducible exact Keeps.refl _
    | simp only [keeps_mk_eq]
    | split
    | dsimp only

theorem openedSend_keeps {z : State} (s : State) (old : List CwtFrame) (hK : Keeps z s) : Keeps z (openedSend s old) := by
  unfold openedSend
  repeat' first
    | with_reducible assumption
    | (intro xS; refine keeps_gen (z := z) (x := xS) ?_ (fun _ => ?_); revert xS; dsimp only; rotate_left; clear_value xS)
    | (intro xS; refine keeps_gen_fst (z := z) (x := xS) ?_ (fun _ => ?_); revert xS; dsimp only; rotate_left; clear_value xS)
    | intro _
    | lift_lets
    | with_reducible apply hostSend_keeps
    | with_reducible apply setFld_keeps
    | with_reducible apply giveCredit_keeps
    | with_reducible apply pushEvents_keeps
    | with_reducible apply pushCompl_keeps
    | with_reducible apply tmArm_keeps
    | with_reducible exact Keeps.refl _
    | with_reducible refine keeps_foldl (fun _ _ _ => ?_) _ ?_
    | with_reducible refine keeps_foldl_fst (fun _ _ _ => ?_) _ ?_
    | split
    | dsimp only

theorem sessNew_keeps {z : State} (s : State) (job addr port : Nat) (hK : Keeps z s) : Keeps z (sessNew s job addr port) := by
  unfold sessNew
  repeat' first
    | with_reducible assumption
    | (intro xS; refine keeps_gen (z := z) (x := xS) ?_ (fun _ => ?_); revert xS; dsimp only; rotate_left; clear_value xS)
    | (intro xS; refine keeps_gen_fst (z := z) (x := xS) ?_ (fun _ => ?_); revert xS; dsimp only; rotate_left; clear_value xS)
    | intro _
    | lift_lets
    | with_reducible apply setReg_keeps
    | with_reducible exact Keeps.refl _
    | simp only [keeps_mk_eq]
    | split
    | dsimp only

theorem openFresh_keeps {z : State} (s : State) (job addr port : Nat) (f : CwtFrame) (old : List CwtFrame) (hK : Keeps z s) : Keeps z (openFresh s job addr port f old) := by
  unfold openFresh
  repeat' first
    | with_reducible assumption
    | intro _
    | with_reducible apply strayNack_keeps
    | with_reducible apply openedSend_keeps
    | with_reducible apply sessNew_keeps
    | with_reducible exact Keeps.refl _
    | split
    | dsimp only

theorem openResume_keeps {z : State} (s : State) (c : Sess) (addr port : Nat) (f : CwtFrame) (hK : Keeps z s) : Keeps z (openResume s c addr port f) := by
  unfold openResume
  repeat' first
    | with_reducible assumption
    | (intro xS; refine keeps_gen (z := z) (x := xS) ?_ (fun _ => ?_); revert xS; dsimp only; rotate_left; clear_value xS)
    | (intro xS; refine keeps_gen_fst (z := z) (x := xS) ?_ (fun _ => ?_); revert xS; dsimp only; rotate_left; clear_value xS)
    | intro _
    | lift_lets
    | with_reducible apply hostSeen_keeps
    | with_reducible apply hostTake_keeps
    | with_reducible apply openedSend_keeps
    | with_reducible apply resendHost_keeps
    | with_reducible apply netOut_keeps
    | with_reducible apply cnt_keeps
    | with_reducible apply openNack_keeps
    | with_reducible exact Keeps.refl _
    | with_reducible refine keeps_foldl (fun _ _ _ => ?_) _ ?_
    | with_reducible refine keeps_foldl_fst (fun _ _ _ => ?_) _ ?_
    | simp only [keeps_mk_eq]
    | split
    | dsimp only

theorem cwtWake_keeps {z : State} (s : State) (hK : Keeps z s) : Keeps z (cwtWake s) := by
  unfold cwtWake
  repeat' first
    | with_reducible assumption
    | intro _
    | with_reducible apply wake_keeps
    | with_reducible exact Keeps.refl _
    | split
    | dsimp only

theorem opCwtOpen_keeps {z : State} (port : Nat) (p : CwtPeer) (f : CwtFrame) (s : State) (hK : Keeps z s) : Keeps z (opCwtOpen port p f s) := by
  unfold opCwtOpen
  repeat' first
    | with_reducible assumption
    | (intro xS; refine keeps_gen (z := z) (x := xS) ?_ (fun _ => ?_); revert xS; dsimp only; rotate_left; clear_value xS)
    | (intro xS; refine keeps_gen_fst (z := z) (x := xS) ?_ (fun _ => ?_); revert xS; dsimp only; rotate_left; clear_value xS)
    | intro _
    | lift_lets
    | with_reducible apply cwtWake_keeps
    | with_reducible apply strayNack_keeps
    | with_reducible apply openFresh_keeps
    | with_reducible apply openResume_keeps
    | with_reducible exact Keeps.refl _
    | simp only [keeps_mk_eq]
    | split
    | dsimp only

theorem execCwtOpen_keeps {z : State} (port : Fin 2) (p : CwtPeer) (f : CwtFrame) (s : State) (hK : Keeps z s) : ∀ t', execCwtOpen port p f s = .next t' → Keeps z t' := by
  unfold execCwtOpen
  repeat' first
    | with_reducible (refine (run_keeps ?_ : ∀ t, _ = Host.Outcome.next t → Keeps _ t))
    | with_reducible assumption
    | intro _
    | with_reducible apply opCwtOpen_keeps
    | with_reducible exact Keeps.refl _
    | split
    | dsimp only

theorem closeTake_keeps {z : State} (f : CwtFrame) (s : State) (hK : Keeps z s) : Keeps z (closeTake f s).1 := by
  unfold closeTake
  repeat' first
    | with_reducible assumption
    | intro _
    | with_reducible apply sessEnd_keeps
    | with_reducible apply hostAck_keeps
    | with_reducible apply hostTake_keeps
    | with_reducible apply hostNack_keeps
    | with_reducible exact Keeps.refl _
    | with_reducible refine keeps_fst (by assumption) ?_
    | split
    | dsimp only

theorem execCwtClose_keeps {z : State} (port : Fin 2) (p : CwtPeer) (f : CwtFrame) (s : State) (hK : Keeps z s) : ∀ t', execCwtClose port p f s = .next t' → Keeps z t' := by
  unfold execCwtClose
  repeat' first
    | with_reducible (refine (run_keeps ?_ : ∀ t, _ = Host.Outcome.next t → Keeps _ t))
    | with_reducible assumption
    | intro _
    | with_reducible apply hostRx_keeps
    | with_reducible apply closeTake_keeps
    | with_reducible exact Keeps.refl _
    | with_reducible refine keeps_fst (by assumption) ?_
    | split
    | dsimp only

theorem sinkNext_keeps {z : State} (s : State) (hK : Keeps z s) : Keeps z (sinkNext s) := by
  unfold sinkNext
  repeat' first
    | with_reducible assumption
    | intro _
    | with_reducible apply rstAdvance_keeps
    | with_reducible apply snapAdvance_keeps
    | with_reducible apply objsBegin_keeps
    | with_reducible exact Keeps.refl _
    | split
    | dsimp only

theorem openedTake_keeps {z : State} (k : Nat) (s : State) (hK : Keeps z s) : Keeps z (openedTake k s) := by
  unfold openedTake
  repeat' first
    | with_reducible assumption
    | (intro xS; refine keeps_gen (z := z) (x := xS) ?_ (fun _ => ?_); revert xS; dsimp only; rotate_left; clear_value xS)
    | (intro xS; refine keeps_gen_fst (z := z) (x := xS) ?_ (fun _ => ?_); revert xS; dsimp only; rotate_left; clear_value xS)
    | intro _
    | lift_lets
    | with_reducible apply sinkNext_keeps
    | with_reducible apply setBulk_keeps
    | with_reducible exact Keeps.refl _
    | simp only [keeps_mk_eq]
    | split
    | dsimp only

theorem execCwtOpened_keeps {z : State} (port : Fin 2) (p : CwtPeer) (f : CwtFrame) (s : State) (hK : Keeps z s) : ∀ t', execCwtOpened port p f s = .next t' → Keeps z t' := by
  unfold execCwtOpened
  repeat' first
    | with_reducible (refine (run_keeps ?_ : ∀ t, _ = Host.Outcome.next t → Keeps _ t))
    | with_reducible assumption
    | intro _
    | with_reducible apply sinkRx_keeps
    | with_reducible apply openedTake_keeps
    | with_reducible exact Keeps.refl _
    | split
    | dsimp only

theorem transferFail_keeps {z : State} (s : State) (who : Nat) (hK : Keeps z s) : Keeps z (transferFail s who) := by
  unfold transferFail
  repeat' first
    | with_reducible assumption
    | (intro xS; refine keeps_gen (z := z) (x := xS) ?_ (fun _ => ?_); revert xS; dsimp only; rotate_left; clear_value xS)
    | (intro xS; refine keeps_gen_fst (z := z) (x := xS) ?_ (fun _ => ?_); revert xS; dsimp only; rotate_left; clear_value xS)
    | intro _
    | lift_lets
    | with_reducible apply snapAbort_keeps
    | with_reducible apply rsnapAbort_keeps
    | with_reducible apply restoreFail_keeps
    | with_reducible exact Keeps.refl _
    | simp only [keeps_mk_eq]
    | split
    | dsimp only

theorem objsFail_keeps {z : State} (s : State) (l : List BulkObj) (hK : Keeps z s) : Keeps z (objsFail s l) := by
  unfold objsFail
  repeat' first
    | with_reducible assumption
    | intro _
    | with_reducible apply transferFail_keeps
    | with_reducible exact Keeps.refl _
    | with_reducible refine keeps_foldl (fun _ _ _ => ?_) _ ?_
    | with_reducible refine keeps_foldl_fst (fun _ _ _ => ?_) _ ?_
    | split
    | dsimp only

theorem bulkDataTake_keeps {z : State} (f : CwtFrame) (k : Nat) (s : State) (hK : Keeps z s) : Keeps z (bulkDataTake f k s) := by
  unfold bulkDataTake
  repeat' first
    | with_reducible assumption
    | (intro xS; refine keeps_gen (z := z) (x := xS) ?_ (fun _ => ?_); revert xS; dsimp only; rotate_left; clear_value xS)
    | (intro xS; refine keeps_gen_fst (z := z) (x := xS) ?_ (fun _ => ?_); revert xS; dsimp only; rotate_left; clear_value xS)
    | intro _
    | lift_lets
    | with_reducible apply sinkNext_keeps
    | with_reducible apply sinkCredit_keeps
    | with_reducible exact Keeps.refl _
    | simp only [keeps_mk_eq]
    | split
    | dsimp only

theorem execCwtBulkData_keeps {z : State} (port : Fin 2) (p : CwtPeer) (f : CwtFrame) (s : State) (hK : Keeps z s) : ∀ t', execCwtBulkData port p f s = .next t' → Keeps z t' := by
  unfold execCwtBulkData
  repeat' first
    | with_reducible (refine (run_keeps ?_ : ∀ t, _ = Host.Outcome.next t → Keeps _ t))
    | with_reducible assumption
    | intro _
    | with_reducible apply sinkRx_keeps
    | with_reducible apply bulkDataTake_keeps
    | with_reducible exact Keeps.refl _
    | split
    | dsimp only

theorem anyRx_keeps {z : State} (ty port : Nat) (p : CwtPeer) (f : CwtFrame) (host : State → State) (sink : Nat → State → State) (s : State) (hhost : ∀  t, Keeps z t → Keeps z (host  t)) (hsink : ∀ a0 t, Keeps z t → Keeps z (sink a0 t)) (hK : Keeps z s) : Keeps z (anyRx ty port p f host sink s) := by
  unfold anyRx
  repeat' first
    | with_reducible assumption
    | (intro xS; refine keeps_gen (z := z) (x := xS) ?_ (fun _ => ?_); revert xS; dsimp only; rotate_left; clear_value xS)
    | (intro xS; refine keeps_gen_fst (z := z) (x := xS) ?_ (fun _ => ?_); revert xS; dsimp only; rotate_left; clear_value xS)
    | intro _
    | lift_lets
    | with_reducible apply hhost
    | with_reducible apply hsink
    | with_reducible apply hostRx_keeps
    | with_reducible apply sinkRx_keeps
    | with_reducible apply sinkNext_keeps
    | with_reducible exact Keeps.refl _
    | simp only [keeps_mk_eq]
    | split
    | dsimp only

theorem execCwtAck_keeps {z : State} (port : Fin 2) (p : CwtPeer) (f : CwtFrame) (s : State) (hK : Keeps z s) : ∀ t', execCwtAck port p f s = .next t' → Keeps z t' := by
  unfold execCwtAck
  repeat' first
    | with_reducible (refine (run_keeps ?_ : ∀ t, _ = Host.Outcome.next t → Keeps _ t))
    | with_reducible assumption
    | intro _
    | with_reducible apply anyRx_keeps
    | with_reducible exact Keeps.refl _
    | split
    | dsimp only
    | simp only [id_eq]

theorem execCwtKeepalive_keeps {z : State} (port : Fin 2) (p : CwtPeer) (f : CwtFrame) (s : State) (hK : Keeps z s) : ∀ t', execCwtKeepalive port p f s = .next t' → Keeps z t' := by
  unfold execCwtKeepalive
  repeat' first
    | with_reducible (refine (run_keeps ?_ : ∀ t, _ = Host.Outcome.next t → Keeps _ t))
    | with_reducible assumption
    | intro _
    | with_reducible apply anyRx_keeps
    | with_reducible exact Keeps.refl _
    | split
    | dsimp only
    | simp only [id_eq]

theorem hostRto_keeps {z : State} (s : State) (q : Nat) (d : Option Nat) (n : Nat) (hK : Keeps z s) : Keeps z (hostRto s q d n) := by
  unfold hostRto
  repeat' first
    | with_reducible assumption
    | (intro xS; refine keeps_gen (z := z) (x := xS) ?_ (fun _ => ?_); revert xS; dsimp only; rotate_left; clear_value xS)
    | (intro xS; refine keeps_gen_fst (z := z) (x := xS) ?_ (fun _ => ?_); revert xS; dsimp only; rotate_left; clear_value xS)
    | intro _
    | lift_lets
    | with_reducible exact Keeps.refl _
    | simp only [keeps_mk_eq]
    | split
    | dsimp only

theorem sinkRto_keeps {z : State} (s : State) (k q : Nat) (d : Option Nat) (n : Nat) (hK : Keeps z s) : Keeps z (sinkRto s k q d n) := by
  unfold sinkRto
  repeat' first
    | with_reducible assumption
    | (intro xS; refine keeps_gen (z := z) (x := xS) ?_ (fun _ => ?_); revert xS; dsimp only; rotate_left; clear_value xS)
    | (intro xS; refine keeps_gen_fst (z := z) (x := xS) ?_ (fun _ => ?_); revert xS; dsimp only; rotate_left; clear_value xS)
    | intro _
    | lift_lets
    | with_reducible apply setBulk_keeps
    | with_reducible exact Keeps.refl _
    | simp only [keeps_mk_eq]
    | split
    | dsimp only

theorem hostNackTake_keeps {z : State} (f : CwtFrame) (s : State) (hK : Keeps z s) : Keeps z (hostNackTake f s) := by
  unfold hostNackTake
  repeat' first
    | with_reducible assumption
    | (intro xS; refine keeps_gen (z := z) (x := xS) ?_ (fun _ => ?_); revert xS; dsimp only; rotate_left; clear_value xS)
    | (intro xS; refine keeps_gen_fst (z := z) (x := xS) ?_ (fun _ => ?_); revert xS; dsimp only; rotate_left; clear_value xS)
    | intro _
    | lift_lets
    | with_reducible apply hostRto_keeps
    | with_reducible apply resendHost_keeps
    | with_reducible exact Keeps.refl _
    | simp only [keeps_mk_eq]
    | split
    | dsimp only

theorem sinkNackTake_keeps {z : State} (f : CwtFrame) (k : Nat) (s : State) (hK : Keeps z s) : Keeps z (sinkNackTake f k s) := by
  unfold sinkNackTake
  repeat' first
    | with_reducible assumption
    | (intro xS; refine keeps_gen (z := z) (x := xS) ?_ (fun _ => ?_); revert xS; dsimp only; rotate_left; clear_value xS)
    | (intro xS; refine keeps_gen_fst (z := z) (x := xS) ?_ (fun _ => ?_); revert xS; dsimp only; rotate_left; clear_value xS)
    | intro _
    | lift_lets
    | with_reducible apply sinkRto_keeps
    | with_reducible apply resendSink_keeps
    | with_reducible apply objsFail_keeps
    | with_reducible exact Keeps.refl _
    | simp only [keeps_mk_eq]
    | split
    | dsimp only

theorem execCwtNack_keeps {z : State} (port : Fin 2) (p : CwtPeer) (f : CwtFrame) (s : State) (hK : Keeps z s) : ∀ t', execCwtNack port p f s = .next t' → Keeps z t' := by
  unfold execCwtNack
  repeat' first
    | with_reducible (refine (run_keeps ?_ : ∀ t, _ = Host.Outcome.next t → Keeps _ t))
    | with_reducible assumption
    | intro _
    | with_reducible apply anyRx_keeps
    | with_reducible apply hostNackTake_keeps
    | with_reducible apply sinkNackTake_keeps
    | with_reducible exact Keeps.refl _
    | split
    | dsimp only

theorem hostCreditTake_keeps {z : State} (f : CwtFrame) (s : State) (hK : Keeps z s) : Keeps z (hostCreditTake f s) := by
  unfold hostCreditTake
  repeat' first
    | with_reducible assumption
    | (intro xS; refine keeps_gen (z := z) (x := xS) ?_ (fun _ => ?_); revert xS; dsimp only; rotate_left; clear_value xS)
    | (intro xS; refine keeps_gen_fst (z := z) (x := xS) ?_ (fun _ => ?_); revert xS; dsimp only; rotate_left; clear_value xS)
    | intro _
    | lift_lets
    | with_reducible exact Keeps.refl _
    | simp only [keeps_mk_eq]
    | split
    | dsimp only

theorem sinkCreditTake_keeps {z : State} (f : CwtFrame) (k : Nat) (s : State) (hK : Keeps z s) : Keeps z (sinkCreditTake f k s) := by
  unfold sinkCreditTake
  repeat' first
    | with_reducible assumption
    | (intro xS; refine keeps_gen (z := z) (x := xS) ?_ (fun _ => ?_); revert xS; dsimp only; rotate_left; clear_value xS)
    | (intro xS; refine keeps_gen_fst (z := z) (x := xS) ?_ (fun _ => ?_); revert xS; dsimp only; rotate_left; clear_value xS)
    | intro _
    | lift_lets
    | with_reducible apply bulkQueue_keeps
    | with_reducible apply setBulk_keeps
    | with_reducible exact Keeps.refl _
    | simp only [keeps_mk_eq]
    | split
    | dsimp only

theorem execCwtCredit_keeps {z : State} (port : Fin 2) (p : CwtPeer) (f : CwtFrame) (s : State) (hK : Keeps z s) : ∀ t', execCwtCredit port p f s = .next t' → Keeps z t' := by
  unfold execCwtCredit
  repeat' first
    | with_reducible (refine (run_keeps ?_ : ∀ t, _ = Host.Outcome.next t → Keeps _ t))
    | with_reducible assumption
    | intro _
    | with_reducible apply anyRx_keeps
    | with_reducible apply hostCreditTake_keeps
    | with_reducible apply sinkCreditTake_keeps
    | with_reducible exact Keeps.refl _
    | split
    | dsimp only

theorem opWork_keeps {z : State} (kind port : Nat) (p : CwtPeer) (f : CwtFrame) (act : Order → State → State × Order) (s : State) (hact : ∀ a0 t, Keeps z t → Keeps z (act a0 t).1) (hK : Keeps z s) : Keeps z (opWork kind port p f act s) := by
  unfold opWork
  repeat' first
    | with_reducible assumption
    | intro _
    | with_reducible apply hact
    | with_reducible apply workRx_keeps
    | with_reducible apply cwtWake_keeps
    | with_reducible exact Keeps.refl _
    | split
    | dsimp only

theorem execWorkWrite_keeps {z : State} (port : Fin 2) (p : CwtPeer) (f : CwtFrame) (s : State) (hK : Keeps z s) : ∀ t', execWorkWrite port p f s = .next t' → Keeps z t' := by
  unfold execWorkWrite
  repeat' first
    | with_reducible (refine (run_keeps ?_ : ∀ t, _ = Host.Outcome.next t → Keeps _ t))
    | with_reducible assumption
    | intro _
    | with_reducible apply opWork_keeps
    | with_reducible exact Keeps.refl _
    | split
    | dsimp only

theorem execWorkRead_keeps {z : State} (port : Fin 2) (p : CwtPeer) (f : CwtFrame) (s : State) (hK : Keeps z s) : ∀ t', execWorkRead port p f s = .next t' → Keeps z t' := by
  unfold execWorkRead
  repeat' first
    | with_reducible (refine (run_keeps ?_ : ∀ t, _ = Host.Outcome.next t → Keeps _ t))
    | with_reducible assumption
    | intro _
    | with_reducible apply opWork_keeps
    | with_reducible apply readOrder_keeps
    | with_reducible exact Keeps.refl _
    | with_reducible refine keeps_fst (by assumption) ?_
    | split
    | dsimp only

theorem execWorkSignal_keeps {z : State} (port : Fin 2) (p : CwtPeer) (f : CwtFrame) (s : State) (hK : Keeps z s) : ∀ t', execWorkSignal port p f s = .next t' → Keeps z t' := by
  unfold execWorkSignal
  repeat' first
    | with_reducible (refine (run_keeps ?_ : ∀ t, _ = Host.Outcome.next t → Keeps _ t))
    | with_reducible assumption
    | intro _
    | with_reducible apply opWork_keeps
    | with_reducible exact Keeps.refl _
    | split
    | dsimp only

theorem execWorkRegrd_keeps {z : State} (port : Fin 2) (p : CwtPeer) (f : CwtFrame) (s : State) (hK : Keeps z s) : ∀ t', execWorkRegrd port p f s = .next t' → Keeps z t' := by
  unfold execWorkRegrd
  repeat' first
    | with_reducible (refine (run_keeps ?_ : ∀ t, _ = Host.Outcome.next t → Keeps _ t))
    | with_reducible assumption
    | intro _
    | with_reducible apply opWork_keeps
    | with_reducible exact Keeps.refl _
    | split
    | dsimp only

theorem execWorkRegwr_keeps {z : State} (port : Fin 2) (p : CwtPeer) (f : CwtFrame) (s : State) (hK : Keeps z s) : ∀ t', execWorkRegwr port p f s = .next t' → Keeps z t' := by
  unfold execWorkRegwr
  repeat' first
    | with_reducible (refine (run_keeps ?_ : ∀ t, _ = Host.Outcome.next t → Keeps _ t))
    | with_reducible assumption
    | intro _
    | with_reducible apply opWork_keeps
    | with_reducible exact Keeps.refl _
    | split
    | dsimp only

theorem execCwtData_keeps {z : State} (port : Fin 2) (p : CwtPeer) (f : CwtFrame) (s : State) (hK : Keeps z s) : ∀ t', execCwtData port p f s = .next t' → Keeps z t' := by
  unfold execCwtData
  repeat' first
    | with_reducible (refine (run_keeps ?_ : ∀ t, _ = Host.Outcome.next t → Keeps _ t))
    | with_reducible assumption
    | intro _
    | with_reducible apply hostRx_keeps
    | with_reducible apply dataTake_keeps
    | with_reducible exact Keeps.refl _
    | with_reducible refine keeps_fst (by assumption) ?_
    | split
    | dsimp only

theorem execCwtAbort_keeps {z : State} (port : Fin 2) (p : CwtPeer) (f : CwtFrame) (s : State) (hK : Keeps z s) : ∀ t', execCwtAbort port p f s = .next t' → Keeps z t' := by
  unfold execCwtAbort
  repeat' first
    | with_reducible (refine (run_keeps ?_ : ∀ t, _ = Host.Outcome.next t → Keeps _ t))
    | with_reducible assumption
    | intro _
    | with_reducible apply hostRx_keeps
    | with_reducible apply abortTake_keeps
    | with_reducible exact Keeps.refl _
    | with_reducible refine keeps_fst (by assumption) ?_
    | split
    | dsimp only

theorem regDenied_keeps {z : State} (s : State) (o : Order) (hK : Keeps z s) : Keeps z (regDenied s o).1 := by
  unfold regDenied
  repeat' first
    | with_reducible assumption
    | (intro xS; refine keeps_gen (z := z) (x := xS) ?_ (fun _ => ?_); revert xS; dsimp only; rotate_left; clear_value xS)
    | (intro xS; refine keeps_gen_fst (z := z) (x := xS) ?_ (fun _ => ?_); revert xS; dsimp only; rotate_left; clear_value xS)
    | intro _
    | lift_lets
    | with_reducible apply raise_keeps
    | with_reducible exact Keeps.refl _
    | with_reducible refine keeps_fst (by assumption) ?_
    | simp only [keeps_mk_eq]
    | split
    | dsimp only

theorem orderAct_keeps {z : State} (o : Order) (s : State) (hK : Keeps z s) : Keeps z (orderAct o s).1 := by
  unfold orderAct
  repeat' first
    | with_reducible assumption
    | (intro xS; refine keeps_gen (z := z) (x := xS) ?_ (fun _ => ?_); revert xS; dsimp only; rotate_left; clear_value xS)
    | (intro xS; refine keeps_gen_fst (z := z) (x := xS) ?_ (fun _ => ?_); revert xS; dsimp only; rotate_left; clear_value xS)
    | intro _
    | lift_lets
    | with_reducible apply signalTo_keeps
    | with_reducible apply regRead_keeps
    | with_reducible apply regDenied_keeps
    | with_reducible apply regWrite_keeps
    | with_reducible exact Keeps.refl _
    | with_reducible refine keeps_fst (by assumption) ?_
    | simp only [keeps_mk_eq]
    | split
    | dsimp only

theorem opOrderRetire_keeps {z : State} (q : Nat) (s : State) (hK : Keeps z s) : Keeps z (opOrderRetire q s) := by
  unfold opOrderRetire
  repeat' first
    | with_reducible assumption
    | (intro xS; refine keeps_gen (z := z) (x := xS) ?_ (fun _ => ?_); revert xS; dsimp only; rotate_left; clear_value xS)
    | (intro xS; refine keeps_gen_fst (z := z) (x := xS) ?_ (fun _ => ?_); revert xS; dsimp only; rotate_left; clear_value xS)
    | intro _
    | lift_lets
    | with_reducible apply retire_keeps
    | with_reducible apply orderAct_keeps
    | with_reducible exact Keeps.refl _
    | simp only [keeps_mk_eq]
    | split
    | dsimp only

theorem execOrderRetire_keeps {z : State} (q : Fin 256) (s : State) (hK : Keeps z s) : ∀ t', execOrderRetire q s = .next t' → Keeps z t' := by
  unfold execOrderRetire
  repeat' first
    | with_reducible (refine (run_keeps ?_ : ∀ t, _ = Host.Outcome.next t → Keeps _ t))
    | with_reducible assumption
    | intro _
    | with_reducible apply opOrderRetire_keeps
    | with_reducible exact Keeps.refl _
    | split
    | dsimp only

theorem opRtoExpire_keeps {z : State} (dst : Option (Fin 64)) (q : Nat) (s : State) (hK : Keeps z s) : Keeps z (opRtoExpire dst q s) := by
  unfold opRtoExpire
  repeat' first
    | with_reducible assumption
    | (intro xS; refine keeps_gen (z := z) (x := xS) ?_ (fun _ => ?_); revert xS; dsimp only; rotate_left; clear_value xS)
    | (intro xS; refine keeps_gen_fst (z := z) (x := xS) ?_ (fun _ => ?_); revert xS; dsimp only; rotate_left; clear_value xS)
    | intro _
    | lift_lets
    | with_reducible apply sessLost_keeps
    | with_reducible apply hostRto_keeps
    | with_reducible apply resendHost_keeps
    | with_reducible apply resendSink_keeps
    | with_reducible apply sinkRto_keeps
    | with_reducible apply setBulk_keeps
    | with_reducible exact Keeps.refl _
    | simp only [keeps_mk_eq]
    | split
    | dsimp only

theorem execCwtRtoExpire_keeps {z : State} (dst : Option (Fin 64)) (q : Fin 256) (s : State) (hK : Keeps z s) : ∀ t', execCwtRtoExpire dst q s = .next t' → Keeps z t' := by
  unfold execCwtRtoExpire
  repeat' first
    | with_reducible (refine (run_keeps ?_ : ∀ t, _ = Host.Outcome.next t → Keeps _ t))
    | with_reducible assumption
    | intro _
    | with_reducible apply opRtoExpire_keeps
    | with_reducible exact Keeps.refl _
    | split
    | dsimp only

theorem opKeepalive_keeps {z : State} (dst : Option (Fin 64)) (s : State) (hK : Keeps z s) : Keeps z (opKeepalive dst s) := by
  unfold opKeepalive
  repeat' first
    | with_reducible assumption
    | (intro xS; refine keeps_gen (z := z) (x := xS) ?_ (fun _ => ?_); revert xS; dsimp only; rotate_left; clear_value xS)
    | (intro xS; refine keeps_gen_fst (z := z) (x := xS) ?_ (fun _ => ?_); revert xS; dsimp only; rotate_left; clear_value xS)
    | intro _
    | lift_lets
    | with_reducible apply hostSend_keeps
    | with_reducible apply sinkSend_keeps
    | with_reducible exact Keeps.refl _
    | simp only [keeps_mk_eq]
    | split
    | dsimp only

theorem execCwtKeepaliveTimer_keeps {z : State} (dst : Option (Fin 64)) (s : State) (hK : Keeps z s) : ∀ t', execCwtKeepaliveTimer dst s = .next t' → Keeps z t' := by
  unfold execCwtKeepaliveTimer
  repeat' first
    | with_reducible (refine (run_keeps ?_ : ∀ t, _ = Host.Outcome.next t → Keeps _ t))
    | with_reducible assumption
    | intro _
    | with_reducible apply opKeepalive_keeps
    | with_reducible exact Keeps.refl _
    | split
    | dsimp only

theorem opSilence_keeps {z : State} (s : State) (hK : Keeps z s) : Keeps z (opSilence s) := by
  unfold opSilence
  repeat' first
    | with_reducible assumption
    | intro _
    | with_reducible apply sessLost_keeps
    | with_reducible exact Keeps.refl _
    | split
    | dsimp only

theorem execCwtSilenceTimeout_keeps {z : State} (s : State) (hK : Keeps z s) : ∀ t', execCwtSilenceTimeout s = .next t' → Keeps z t' := by
  unfold execCwtSilenceTimeout
  repeat' first
    | with_reducible (refine (run_keeps ?_ : ∀ t, _ = Host.Outcome.next t → Keeps _ t))
    | with_reducible assumption
    | intro _
    | with_reducible apply opSilence_keeps
    | with_reducible exact Keeps.refl _
    | split
    | dsimp only

theorem opCreditRepeat_keeps {z : State} (s : State) (hK : Keeps z s) : Keeps z (opCreditRepeat s) := by
  unfold opCreditRepeat
  repeat' first
    | with_reducible assumption
    | (intro xS; refine keeps_gen (z := z) (x := xS) ?_ (fun _ => ?_); revert xS; dsimp only; rotate_left; clear_value xS)
    | (intro xS; refine keeps_gen_fst (z := z) (x := xS) ?_ (fun _ => ?_); revert xS; dsimp only; rotate_left; clear_value xS)
    | intro _
    | lift_lets
    | with_reducible apply repeatCredit_keeps
    | with_reducible apply tmArm_keeps
    | with_reducible apply sinkCredit_keeps
    | with_reducible exact Keeps.refl _
    | with_reducible refine keeps_foldl (fun _ _ _ => ?_) _ ?_
    | with_reducible refine keeps_foldl_fst (fun _ _ _ => ?_) _ ?_
    | split
    | dsimp only

theorem execCreditRepeatTimer_keeps {z : State} (s : State) (hK : Keeps z s) : ∀ t', execCreditRepeatTimer s = .next t' → Keeps z t' := by
  unfold execCreditRepeatTimer
  repeat' first
    | with_reducible (refine (run_keeps ?_ : ∀ t, _ = Host.Outcome.next t → Keeps _ t))
    | with_reducible assumption
    | intro _
    | with_reducible apply opCreditRepeat_keeps
    | with_reducible exact Keeps.refl _
    | split
    | dsimp only

theorem opBulkTimeout_keeps {z : State} (k q : Nat) (s : State) (hK : Keeps z s) : Keeps z (opBulkTimeout k q s) := by
  unfold opBulkTimeout
  repeat' first
    | with_reducible assumption
    | intro _
    | with_reducible apply objsFail_keeps
    | with_reducible exact Keeps.refl _
    | split
    | dsimp only

theorem execBulkTimeout_keeps {z : State} (k : Fin 64) (q : Fin 17) (s : State) (hK : Keeps z s) : ∀ t', execBulkTimeout k q s = .next t' → Keeps z t' := by
  unfold execBulkTimeout
  repeat' first
    | with_reducible (refine (run_keeps ?_ : ∀ t, _ = Host.Outcome.next t → Keeps _ t))
    | with_reducible assumption
    | intro _
    | with_reducible apply opBulkTimeout_keeps
    | with_reducible exact Keeps.refl _
    | split
    | dsimp only

theorem pauseOn_keeps {z : State} (port : Nat) (s : State) (prio : Nat) (hK : Keeps z s) : Keeps z (pauseOn port s prio) := by
  unfold pauseOn
  repeat' first
    | with_reducible assumption
    | (intro xS; refine keeps_gen (z := z) (x := xS) ?_ (fun _ => ?_); revert xS; dsimp only; rotate_left; clear_value xS)
    | (intro xS; refine keeps_gen_fst (z := z) (x := xS) ?_ (fun _ => ?_); revert xS; dsimp only; rotate_left; clear_value xS)
    | intro _
    | lift_lets
    | with_reducible exact Keeps.refl _
    | simp only [keeps_mk_eq]
    | split
    | dsimp only

theorem pauseOff_keeps {z : State} (port : Nat) (s : State) (prio : Nat) (hK : Keeps z s) : Keeps z (pauseOff port s prio) := by
  unfold pauseOff
  repeat' first
    | with_reducible assumption
    | (intro xS; refine keeps_gen (z := z) (x := xS) ?_ (fun _ => ?_); revert xS; dsimp only; rotate_left; clear_value xS)
    | (intro xS; refine keeps_gen_fst (z := z) (x := xS) ?_ (fun _ => ?_); revert xS; dsimp only; rotate_left; clear_value xS)
    | intro _
    | lift_lets
    | with_reducible apply netOut_keeps
    | with_reducible exact Keeps.refl _
    | with_reducible refine keeps_foldl (fun _ _ _ => ?_) _ ?_
    | with_reducible refine keeps_foldl_fst (fun _ _ _ => ?_) _ ?_
    | simp only [keeps_mk_eq]
    | split
    | dsimp only

theorem opPfcFrameRx_keeps {z : State} (port prio : Nat) (stop pause : Bool) (s : State) (hK : Keeps z s) : Keeps z (opPfcFrameRx port prio stop pause s) := by
  unfold opPfcFrameRx
  repeat' first
    | with_reducible assumption
    | (intro xS; refine keeps_gen (z := z) (x := xS) ?_ (fun _ => ?_); revert xS; dsimp only; rotate_left; clear_value xS)
    | (intro xS; refine keeps_gen_fst (z := z) (x := xS) ?_ (fun _ => ?_); revert xS; dsimp only; rotate_left; clear_value xS)
    | intro _
    | lift_lets
    | with_reducible apply pauseOn_keeps
    | with_reducible apply pauseOff_keeps
    | with_reducible exact Keeps.refl _
    | with_reducible refine keeps_foldl (fun _ _ _ => ?_) _ ?_
    | with_reducible refine keeps_foldl_fst (fun _ _ _ => ?_) _ ?_
    | split
    | dsimp only

theorem execPfcFrameRx_keeps {z : State} (port : Fin 2) (prio : Fin 8) (stop pause : Bool) (s : State) (hK : Keeps z s) : ∀ t', execPfcFrameRx port prio stop pause s = .next t' → Keeps z t' := by
  unfold execPfcFrameRx
  repeat' first
    | with_reducible (refine (run_keeps ?_ : ∀ t, _ = Host.Outcome.next t → Keeps _ t))
    | with_reducible assumption
    | intro _
    | with_reducible apply opPfcFrameRx_keeps
    | with_reducible exact Keeps.refl _
    | split
    | dsimp only

theorem ethAnswer_keeps {z : State} (port : Nat) (own : Bool) (m : EthMsg) (s : State) (hK : Keeps z s) : Keeps z (ethAnswer port own m s) := by
  unfold ethAnswer
  repeat' first
    | with_reducible assumption
    | (intro xS; refine keeps_gen (z := z) (x := xS) ?_ (fun _ => ?_); revert xS; dsimp only; rotate_left; clear_value xS)
    | (intro xS; refine keeps_gen_fst (z := z) (x := xS) ?_ (fun _ => ?_); revert xS; dsimp only; rotate_left; clear_value xS)
    | intro _
    | lift_lets
    | with_reducible exact Keeps.refl _
    | simp only [keeps_mk_eq]
    | split
    | dsimp only

theorem execNeighborDiscoveryRx_keeps {z : State} (port : Fin 2) (v6 : Bool) (target asker : Nat) (own : Bool) (s : State) (hK : Keeps z s) : ∀ t', execNeighborDiscoveryRx port v6 target asker own s = .next t' → Keeps z t' := by
  unfold execNeighborDiscoveryRx
  repeat' first
    | with_reducible (refine (run_keeps ?_ : ∀ t, _ = Host.Outcome.next t → Keeps _ t))
    | with_reducible assumption
    | intro _
    | with_reducible apply ethAnswer_keeps
    | with_reducible exact Keeps.refl _
    | split
    | dsimp only

theorem execIcmpEchoRx_keeps {z : State} (port : Fin 2) (v6 : Bool) (asker : Nat) (ident seq : BitVec 16) (data : List Byte) (own : Bool) (s : State) (hK : Keeps z s) : ∀ t', execIcmpEchoRx port v6 asker ident seq data own s = .next t' → Keeps z t' := by
  unfold execIcmpEchoRx
  repeat' first
    | with_reducible (refine (run_keeps ?_ : ∀ t, _ = Host.Outcome.next t → Keeps _ t))
    | with_reducible assumption
    | intro _
    | with_reducible apply ethAnswer_keeps
    | with_reducible exact Keeps.refl _
    | split
    | dsimp only

theorem opEthLinkChange_keeps {z : State} (port : Nat) (up : Bool) (s : State) (hK : Keeps z s) : Keeps z (opEthLinkChange port up s) := by
  unfold opEthLinkChange
  repeat' first
    | with_reducible assumption
    | intro _
    | with_reducible apply setFld_keeps
    | with_reducible apply portDown_keeps
    | with_reducible exact Keeps.refl _
    | split
    | dsimp only

theorem execEthLinkChange_keeps {z : State} (port : Fin 2) (up : Bool) (s : State) (hK : Keeps z s) : ∀ t', execEthLinkChange port up s = .next t' → Keeps z t' := by
  unfold execEthLinkChange
  repeat' first
    | with_reducible (refine (run_keeps ?_ : ∀ t, _ = Host.Outcome.next t → Keeps _ t))
    | with_reducible assumption
    | intro _
    | with_reducible apply opEthLinkChange_keeps
    | with_reducible exact Keeps.refl _
    | split
    | dsimp only

theorem opEthFrameDiscard_keeps {z : State} (port : Nat) (why : EthDrop) (s : State) (hK : Keeps z s) : Keeps z (opEthFrameDiscard port why s) := by
  unfold opEthFrameDiscard
  repeat' first
    | with_reducible assumption
    | intro _
    | with_reducible apply cnt_keeps
    | with_reducible exact Keeps.refl _
    | split
    | dsimp only

theorem execEthFrameDiscard_keeps {z : State} (port : Fin 2) (why : EthDrop) (s : State) (hK : Keeps z s) : ∀ t', execEthFrameDiscard port why s = .next t' → Keeps z t' := by
  unfold execEthFrameDiscard
  repeat' first
    | with_reducible (refine (run_keeps ?_ : ∀ t, _ = Host.Outcome.next t → Keeps _ t))
    | with_reducible assumption
    | intro _
    | with_reducible apply opEthFrameDiscard_keeps
    | with_reducible exact Keeps.refl _
    | split
    | dsimp only

theorem opOsfpInsert_keeps {z : State} (port watts : Nat) (s : State) (hK : Keeps z s) : Keeps z (opOsfpInsert port watts s) := by
  unfold opOsfpInsert
  repeat' first
    | with_reducible assumption
    | (intro xS; refine keeps_gen (z := z) (x := xS) ?_ (fun _ => ?_); revert xS; dsimp only; rotate_left; clear_value xS)
    | (intro xS; refine keeps_gen_fst (z := z) (x := xS) ?_ (fun _ => ?_); revert xS; dsimp only; rotate_left; clear_value xS)
    | intro _
    | lift_lets
    | with_reducible exact Keeps.refl _
    | simp only [keeps_mk_eq]
    | split
    | dsimp only

theorem execOsfpInsert_keeps {z : State} (port : Fin 2) (watts : BitVec 8) (s : State) (hK : Keeps z s) : ∀ t', execOsfpInsert port watts s = .next t' → Keeps z t' := by
  unfold execOsfpInsert
  repeat' first
    | with_reducible (refine (run_keeps ?_ : ∀ t, _ = Host.Outcome.next t → Keeps _ t))
    | with_reducible assumption
    | intro _
    | with_reducible apply opOsfpInsert_keeps
    | with_reducible exact Keeps.refl _
    | split
    | dsimp only

theorem opOsfpRemove_keeps {z : State} (port : Nat) (s : State) (hK : Keeps z s) : Keeps z (opOsfpRemove port s) := by
  unfold opOsfpRemove
  repeat' first
    | with_reducible assumption
    | (intro xS; refine keeps_gen (z := z) (x := xS) ?_ (fun _ => ?_); revert xS; dsimp only; rotate_left; clear_value xS)
    | (intro xS; refine keeps_gen_fst (z := z) (x := xS) ?_ (fun _ => ?_); revert xS; dsimp only; rotate_left; clear_value xS)
    | intro _
    | lift_lets
    | with_reducible apply setFld_keeps
    | with_reducible exact Keeps.refl _
    | simp only [keeps_mk_eq]
    | split
    | dsimp only

theorem execOsfpRemove_keeps {z : State} (port : Fin 2) (s : State) (hK : Keeps z s) : ∀ t', execOsfpRemove port s = .next t' → Keeps z t' := by
  unfold execOsfpRemove
  repeat' first
    | with_reducible (refine (run_keeps ?_ : ∀ t, _ = Host.Outcome.next t → Keeps _ t))
    | with_reducible assumption
    | intro _
    | with_reducible apply opOsfpRemove_keeps
    | with_reducible exact Keeps.refl _
    | split
    | dsimp only

end Sys2Proof.Machine
end

