-- ==== Sys2Proof/Laws/KeepsMgmt.lean ====
section
/-! SUPPORT. What the operations of Mgmt keep. -/
namespace Sys2Proof.Machine

theorem lanePushGo_keeps {z : State}   : ∀ (a0 : Nat) (a1 : State), Keeps z a1 → Keeps z (lanePushGo  a0 a1) := by
  intro a0
  induction a0 with
  | zero =>
    intro a1 hK
    first | rw [lanePushGo] | unfold lanePushGo
    repeat' first
      | with_reducible assumption
      | (intro xS; refine keeps_gen (z := z) (x := xS) ?_ (fun _ => ?_); revert xS; dsimp only; rotate_left; clear_value xS)
      | (intro xS; refine keeps_gen_fst (z := z) (x := xS) ?_ (fun _ => ?_); revert xS; dsimp only; rotate_left; clear_value xS)
      | intro _
      | lift_lets
      | with_reducible apply ih
      | with_reducible apply lanePost_keeps
      | with_reducible exact Keeps.refl _
      | with_reducible refine keeps_fst (by assumption) ?_
      | simp only [keeps_mk_eq]
      | split
      | dsimp only
  | succ n0 ih =>
    intro a1 hK
    first | rw [lanePushGo] | unfold lanePushGo
    repeat' first
      | with_reducible assumption
      | (intro xS; refine keeps_gen (z := z) (x := xS) ?_ (fun _ => ?_); revert xS; dsimp only; rotate_left; clear_value xS)
      | (intro xS; refine keeps_gen_fst (z := z) (x := xS) ?_ (fun _ => ?_); revert xS; dsimp only; rotate_left; clear_value xS)
      | intro _
      | lift_lets
      | with_reducible apply ih
      | with_reducible apply lanePost_keeps
      | with_reducible exact Keeps.refl _
      | with_reducible refine keeps_fst (by assumption) ?_
      | simp only [keeps_mk_eq]
      | split
      | dsimp only

theorem lanePush_keeps {z : State} (s : State) (hK : Keeps z s) : Keeps z (lanePush s) := by
  unfold lanePush
  repeat' first
    | with_reducible assumption
    | intro _
    | with_reducible apply lanePushGo_keeps
    | with_reducible exact Keeps.refl _
    | split
    | dsimp only

theorem ans_keeps {z : State} (s : State) (status : Nat) (hK : Keeps z s) : Keeps z (ans s status).st := by
  unfold ans
  repeat' first
    | with_reducible assumption
    | intro _
    | with_reducible exact Keeps.refl _
    | with_reducible refine keeps_fst (by assumption) ?_
    | split
    | dsimp only

theorem ansIf_keeps {z : State} (c : Bool) (bad : Nat) (f : State → State) (s : State) (hf : ∀  t, Keeps z t → Keeps z (f  t)) (hK : Keeps z s) : Keeps z (ansIf c bad f s).st := by
  unfold ansIf
  repeat' first
    | with_reducible assumption
    | intro _
    | with_reducible apply hf
    | with_reducible apply ans_keeps
    | with_reducible exact Keeps.refl _
    | with_reducible refine keeps_fst (by assumption) ?_
    | split
    | dsimp only

theorem cmdRx_keeps {z : State} (mseq : Word) (serial : DWord) (cmd : Nat) (act : State → Answer) (s : State) (hK : Keeps z s)
    (hact : ∀ t, Keeps z t → Keeps z (act t).st) : Keeps z (cmdRx mseq serial cmd act s) := by
  unfold cmdRx
  dsimp only
  repeat' first
    | with_reducible assumption
    | with_reducible apply hact
    | with_reducible apply wake_keeps
    | with_reducible apply laneSend_keeps
    | with_reducible apply lanePush_keeps
    | with_reducible apply laneResp_keeps
    | simp only [keeps_mk_eq]
    | split

theorem doSetCoord_keeps {z : State} (pc : BitVec 18) (pdim : BitVec 18) (mode : Bool) (s : State) (hK : Keeps z s) : Keeps z (doSetCoord pc pdim mode s).st := by
  unfold doSetCoord
  repeat' first
    | with_reducible assumption
    | (intro xS; refine keeps_gen (z := z) (x := xS) ?_ (fun _ => ?_); revert xS; dsimp only; rotate_left; clear_value xS)
    | (intro xS; refine keeps_gen_fst (z := z) (x := xS) ?_ (fun _ => ?_); revert xS; dsimp only; rotate_left; clear_value xS)
    | intro _
    | lift_lets
    | with_reducible apply ansIf_keeps
    | with_reducible apply setFld_keeps
    | with_reducible exact Keeps.refl _
    | with_reducible refine keeps_fst (by assumption) ?_
    | split
    | dsimp only

theorem execSetCoord_keeps {z : State} (mseq : Word) (serial : DWord) (pc pdim : BitVec 18) (mode : Bool) (s : State) (hK : Keeps z s) : ∀ t', execSetCoord mseq serial pc pdim mode s = .next t' → Keeps z t' := by
  unfold execSetCoord
  repeat' first
    | with_reducible (refine (run_keeps ?_ : ∀ t, _ = Host.Outcome.next t → Keeps _ t))
    | with_reducible assumption
    | intro _
    | with_reducible apply cmdRx_keeps
    | with_reducible apply doSetCoord_keeps
    | with_reducible exact Keeps.refl _
    | split
    | dsimp only

theorem takeLogical_keeps {z : State} (lc : BitVec 18) (valid : Bool) (s : State) (hK : Keeps z s) : Keeps z (takeLogical lc valid s) := by
  unfold takeLogical
  repeat' first
    | with_reducible assumption
    | (intro xS; refine keeps_gen (z := z) (x := xS) ?_ (fun _ => ?_); revert xS; dsimp only; rotate_left; clear_value xS)
    | (intro xS; refine keeps_gen_fst (z := z) (x := xS) ?_ (fun _ => ?_); revert xS; dsimp only; rotate_left; clear_value xS)
    | intro _
    | lift_lets
    | with_reducible apply setFld_keeps
    | with_reducible exact Keeps.refl _
    | simp only [keeps_mk_eq]
    | split
    | dsimp only

theorem doSetLogical_keeps {z : State} (lc : BitVec 18) (valid : Bool) (s : State) (hK : Keeps z s) : Keeps z (doSetLogical lc valid s).st := by
  unfold doSetLogical
  repeat' first
    | with_reducible assumption
    | intro _
    | with_reducible apply ansIf_keeps
    | with_reducible apply takeLogical_keeps
    | with_reducible exact Keeps.refl _
    | with_reducible refine keeps_fst (by assumption) ?_
    | split
    | dsimp only

theorem execSetLogical_keeps {z : State} (mseq : Word) (serial : DWord) (lc : BitVec 18) (valid : Bool) (s : State) (hK : Keeps z s) : ∀ t', execSetLogical mseq serial lc valid s = .next t' → Keeps z t' := by
  unfold execSetLogical
  repeat' first
    | with_reducible (refine (run_keeps ?_ : ∀ t, _ = Host.Outcome.next t → Keeps _ t))
    | with_reducible assumption
    | intro _
    | with_reducible apply cmdRx_keeps
    | with_reducible apply doSetLogical_keeps
    | with_reducible exact Keeps.refl _
    | split
    | dsimp only

theorem putEntries_keeps {z : State} (first : Nat) (l : List Word) (s : State) (hK : Keeps z s) : Keeps z (putEntries first l s) := by
  unfold putEntries
  repeat' first
    | with_reducible assumption
    | (intro xS; refine keeps_gen (z := z) (x := xS) ?_ (fun _ => ?_); revert xS; dsimp only; rotate_left; clear_value xS)
    | (intro xS; refine keeps_gen_fst (z := z) (x := xS) ?_ (fun _ => ?_); revert xS; dsimp only; rotate_left; clear_value xS)
    | intro _
    | lift_lets
    | with_reducible exact Keeps.refl _
    | with_reducible refine keeps_foldl (fun _ _ _ => ?_) _ ?_
    | with_reducible refine keeps_foldl_fst (fun _ _ _ => ?_) _ ?_
    | simp only [keeps_mk_eq]
    | split
    | dsimp only

theorem doXlatLoad_keeps {z : State} (first : BitVec 18) (l : List Word) (s : State) (hK : Keeps z s) : Keeps z (doXlatLoad first l s).st := by
  unfold doXlatLoad
  repeat' first
    | with_reducible assumption
    | intro _
    | with_reducible apply ansIf_keeps
    | with_reducible apply putEntries_keeps
    | with_reducible exact Keeps.refl _
    | with_reducible refine keeps_fst (by assumption) ?_
    | split
    | dsimp only

theorem execXlatLoad_keeps {z : State} (mseq : Word) (serial : DWord) (first : BitVec 18) (l : List Word) (s : State) (hK : Keeps z s) : ∀ t', execXlatLoad mseq serial first l s = .next t' → Keeps z t' := by
  unfold execXlatLoad
  repeat' first
    | with_reducible (refine (run_keeps ?_ : ∀ t, _ = Host.Outcome.next t → Keeps _ t))
    | with_reducible assumption
    | intro _
    | with_reducible apply cmdRx_keeps
    | with_reducible apply doXlatLoad_keeps
    | with_reducible exact Keeps.refl _
    | split
    | dsimp only

theorem doXlatArm_keeps {z : State} (e : Word) (s : State) (hK : Keeps z s) : Keeps z (doXlatArm e s).st := by
  unfold doXlatArm
  repeat' first
    | with_reducible assumption
    | intro _
    | with_reducible apply ans_keeps
    | with_reducible apply xlatApplyWrite_keeps
    | with_reducible apply setReg_keeps
    | with_reducible exact Keeps.refl _
    | with_reducible refine keeps_fst (by assumption) ?_
    | split
    | dsimp only

theorem execXlatArm_keeps {z : State} (mseq : Word) (serial : DWord) (e : Word) (s : State) (hK : Keeps z s) : ∀ t', execXlatArm mseq serial e s = .next t' → Keeps z t' := by
  unfold execXlatArm
  repeat' first
    | with_reducible (refine (run_keeps ?_ : ∀ t, _ = Host.Outcome.next t → Keeps _ t))
    | with_reducible assumption
    | intro _
    | with_reducible apply cmdRx_keeps
    | with_reducible apply doXlatArm_keeps
    | with_reducible exact Keeps.refl _
    | split
    | dsimp only

theorem doLinkCfg_keeps {z : State} (l : Fin 6) (coord : BitVec 18) (sn : DWord) (det0 det1 : BitVec 16) (thresh : BitVec 20) (s : State) (hK : Keeps z s) : Keeps z (doLinkCfg l coord sn det0 det1 thresh s).st := by
  unfold doLinkCfg
  repeat' first
    | with_reducible assumption
    | (intro xS; refine keeps_gen (z := z) (x := xS) ?_ (fun _ => ?_); revert xS; dsimp only; rotate_left; clear_value xS)
    | (intro xS; refine keeps_gen_fst (z := z) (x := xS) ?_ (fun _ => ?_); revert xS; dsimp only; rotate_left; clear_value xS)
    | intro _
    | lift_lets
    | with_reducible apply setFld_keeps
    | with_reducible apply setReg_keeps
    | with_reducible apply ans_keeps
    | with_reducible apply lnkApplyWrite_keeps
    | with_reducible exact Keeps.refl _
    | with_reducible refine keeps_fst (by assumption) ?_
    | split
    | dsimp only

theorem execLinkCfg_keeps {z : State} (mseq : Word) (serial : DWord) (l : Fin 6) (coord : BitVec 18) (sn : DWord) (det0 det1 : BitVec 16)     (thresh : BitVec 20) (s : State) (hK : Keeps z s) : ∀ t', execLinkCfg mseq serial l coord sn det0 det1 thresh s = .next t' → Keeps z t' := by
  unfold execLinkCfg
  repeat' first
    | with_reducible (refine (run_keeps ?_ : ∀ t, _ = Host.Outcome.next t → Keeps _ t))
    | with_reducible assumption
    | intro _
    | with_reducible apply cmdRx_keeps
    | with_reducible apply doLinkCfg_keeps
    | with_reducible exact Keeps.refl _
    | split
    | dsimp only

theorem eclipseModule_keeps {z : State} (s : State) (hK : Keeps z s) : Keeps z (eclipseModule s) := by
  unfold eclipseModule
  repeat' first
    | with_reducible assumption
    | (intro xS; refine keeps_gen (z := z) (x := xS) ?_ (fun _ => ?_); revert xS; dsimp only; rotate_left; clear_value xS)
    | (intro xS; refine keeps_gen_fst (z := z) (x := xS) ?_ (fun _ => ?_); revert xS; dsimp only; rotate_left; clear_value xS)
    | intro _
    | lift_lets
    | with_reducible apply snapAbort_keeps
    | with_reducible apply abandonAll_keeps
    | with_reducible apply setFld_keeps
    | with_reducible exact Keeps.refl _
    | simp only [keeps_mk_eq]
    | split
    | dsimp only

theorem doEclipse_keeps {z : State} (w : SvcWhat) (s : State) (hK : Keeps z s) : Keeps z (doEclipse w s).st := by
  unfold doEclipse
  repeat' first
    | with_reducible assumption
    | (intro xS; refine keeps_gen (z := z) (x := xS) ?_ (fun _ => ?_); revert xS; dsimp only; rotate_left; clear_value xS)
    | (intro xS; refine keeps_gen_fst (z := z) (x := xS) ?_ (fun _ => ?_); revert xS; dsimp only; rotate_left; clear_value xS)
    | intro _
    | lift_lets
    | with_reducible apply ansIf_keeps
    | with_reducible apply eclipseUnit_keeps
    | with_reducible apply showDies_keeps
    | with_reducible apply eclipseModule_keeps
    | with_reducible exact Keeps.refl _
    | with_reducible refine keeps_fst (by assumption) ?_
    | simp only [keeps_mk_eq]
    | split
    | dsimp only

theorem execEclipse_keeps {z : State} (mseq : Word) (serial : DWord) (w : SvcWhat) (s : State) (hK : Keeps z s) : ∀ t', execEclipse mseq serial w s = .next t' → Keeps z t' := by
  unfold execEclipse
  repeat' first
    | with_reducible (refine (run_keeps ?_ : ∀ t, _ = Host.Outcome.next t → Keeps _ t))
    | with_reducible assumption
    | intro _
    | with_reducible apply cmdRx_keeps
    | with_reducible apply doEclipse_keeps
    | with_reducible exact Keeps.refl _
    | split
    | dsimp only

theorem doCertify_keeps {z : State} (w : SvcWhat) (s : State) (hK : Keeps z s) : Keeps z (doCertify w s).st := by
  unfold doCertify
  repeat' first
    | with_reducible assumption
    | (intro xS; refine keeps_gen (z := z) (x := xS) ?_ (fun _ => ?_); revert xS; dsimp only; rotate_left; clear_value xS)
    | (intro xS; refine keeps_gen_fst (z := z) (x := xS) ?_ (fun _ => ?_); revert xS; dsimp only; rotate_left; clear_value xS)
    | intro _
    | lift_lets
    | with_reducible apply ans_keeps
    | with_reducible apply ansIf_keeps
    | with_reducible apply certStart_keeps
    | with_reducible exact Keeps.refl _
    | with_reducible refine keeps_fst (by assumption) ?_
    | simp only [keeps_mk_eq]
    | split
    | dsimp only

theorem execCertify_keeps {z : State} (mseq : Word) (serial : DWord) (w : SvcWhat) (s : State) (hK : Keeps z s) : ∀ t', execCertify mseq serial w s = .next t' → Keeps z t' := by
  unfold execCertify
  repeat' first
    | with_reducible (refine (run_keeps ?_ : ∀ t, _ = Host.Outcome.next t → Keeps _ t))
    | with_reducible assumption
    | intro _
    | with_reducible apply cmdRx_keeps
    | with_reducible apply doCertify_keeps
    | with_reducible exact Keeps.refl _
    | split
    | dsimp only

theorem doPromote_keeps {z : State} (lc : BitVec 18) (s : State) (hK : Keeps z s) : Keeps z (doPromote lc s).st := by
  unfold doPromote
  repeat' first
    | with_reducible assumption
    | intro _
    | with_reducible apply ansIf_keeps
    | with_reducible apply wake_keeps
    | with_reducible apply takeLogical_keeps
    | with_reducible exact Keeps.refl _
    | with_reducible refine keeps_fst (by assumption) ?_
    | split
    | dsimp only

theorem execPromote_keeps {z : State} (mseq : Word) (serial : DWord) (lc : BitVec 18) (s : State) (hK : Keeps z s) : ∀ t', execPromote mseq serial lc s = .next t' → Keeps z t' := by
  unfold execPromote
  repeat' first
    | with_reducible (refine (run_keeps ?_ : ∀ t, _ = Host.Outcome.next t → Keeps _ t))
    | with_reducible assumption
    | intro _
    | with_reducible apply cmdRx_keeps
    | with_reducible apply doPromote_keeps
    | with_reducible exact Keeps.refl _
    | split
    | dsimp only

theorem doDieDegrade_keeps {z : State} (d : Fin 4) (s : State) (hK : Keeps z s) : Keeps z (doDieDegrade d s).st := by
  unfold doDieDegrade
  repeat' first
    | with_reducible assumption
    | intro _
    | with_reducible apply ansIf_keeps
    | with_reducible apply dieDegradeGo_keeps
    | with_reducible exact Keeps.refl _
    | with_reducible refine keeps_fst (by assumption) ?_
    | split
    | dsimp only

theorem execDieDegrade_keeps {z : State} (mseq : Word) (serial : DWord) (d : Fin 4) (s : State) (hK : Keeps z s) : ∀ t', execDieDegrade mseq serial d s = .next t' → Keeps z t' := by
  unfold execDieDegrade
  repeat' first
    | with_reducible (refine (run_keeps ?_ : ∀ t, _ = Host.Outcome.next t → Keeps _ t))
    | with_reducible assumption
    | intro _
    | with_reducible apply cmdRx_keeps
    | with_reducible apply doDieDegrade_keeps
    | with_reducible exact Keeps.refl _
    | split
    | dsimp only

theorem doDieRestore_keeps {z : State} (d : Fin 4) (s : State) (hK : Keeps z s) : Keeps z (doDieRestore d s).st := by
  unfold doDieRestore
  repeat' first
    | with_reducible assumption
    | intro _
    | with_reducible apply ansIf_keeps
    | with_reducible apply dieRestoreGo_keeps
    | with_reducible exact Keeps.refl _
    | with_reducible refine keeps_fst (by assumption) ?_
    | split
    | dsimp only

theorem execDieRestore_keeps {z : State} (mseq : Word) (serial : DWord) (d : Fin 4) (s : State) (hK : Keeps z s) : ∀ t', execDieRestore mseq serial d s = .next t' → Keeps z t' := by
  unfold execDieRestore
  repeat' first
    | with_reducible (refine (run_keeps ?_ : ∀ t, _ = Host.Outcome.next t → Keeps _ t))
    | with_reducible assumption
    | intro _
    | with_reducible apply cmdRx_keeps
    | with_reducible apply doDieRestore_keeps
    | with_reducible exact Keeps.refl _
    | split
    | dsimp only

theorem doRetireUnit_keeps {z : State} (rg : Fin 16) (u : Fin 66) (s : State) (hK : Keeps z s) : Keeps z (doRetireUnit rg u s).st := by
  unfold doRetireUnit
  repeat' first
    | with_reducible assumption
    | intro _
    | with_reducible apply ansIf_keeps
    | with_reducible apply retireUnitSt_keeps
    | with_reducible exact Keeps.refl _
    | with_reducible refine keeps_fst (by assumption) ?_
    | split
    | dsimp only

theorem execRetireUnit_keeps {z : State} (mseq : Word) (serial : DWord) (rg : Fin 16) (u : Fin 66) (s : State) (hK : Keeps z s) : ∀ t', execRetireUnit mseq serial rg u s = .next t' → Keeps z t' := by
  unfold execRetireUnit
  repeat' first
    | with_reducible (refine (run_keeps ?_ : ∀ t, _ = Host.Outcome.next t → Keeps _ t))
    | with_reducible assumption
    | intro _
    | with_reducible apply cmdRx_keeps
    | with_reducible apply doRetireUnit_keeps
    | with_reducible exact Keeps.refl _
    | split
    | dsimp only

theorem doFence_keeps {z : State} (rg : Fin 16) (u : Fin 66) (mask : BitVec 16) (s : State) (hK : Keeps z s) : Keeps z (doFence rg u mask s).st := by
  unfold doFence
  repeat' first
    | with_reducible assumption
    | intro _
    | with_reducible apply ans_keeps
    | with_reducible apply fenceApplyWrite_keeps
    | with_reducible apply setFld_keeps
    | with_reducible exact Keeps.refl _
    | with_reducible refine keeps_fst (by assumption) ?_
    | split
    | dsimp only

theorem execFence_keeps {z : State} (mseq : Word) (serial : DWord) (rg : Fin 16) (u : Fin 66) (mask : BitVec 16) (s : State) (hK : Keeps z s) : ∀ t', execFence mseq serial rg u mask s = .next t' → Keeps z t' := by
  unfold execFence
  repeat' first
    | with_reducible (refine (run_keeps ?_ : ∀ t, _ = Host.Outcome.next t → Keeps _ t))
    | with_reducible assumption
    | intro _
    | with_reducible apply cmdRx_keeps
    | with_reducible apply doFence_keeps
    | with_reducible exact Keeps.refl _
    | split
    | dsimp only

theorem doChecked_keeps {z : State} (s : State) (hK : Keeps z s) : Keeps z (doChecked s).st := by
  unfold doChecked
  repeat' first
    | with_reducible assumption
    | intro _
    | with_reducible apply ans_keeps
    | with_reducible apply setFld_keeps
    | with_reducible exact Keeps.refl _
    | with_reducible refine keeps_fst (by assumption) ?_
    | split
    | dsimp only

theorem execChecked_keeps {z : State} (mseq : Word) (serial : DWord) (s : State) (hK : Keeps z s) : ∀ t', execChecked mseq serial s = .next t' → Keeps z t' := by
  unfold execChecked
  repeat' first
    | with_reducible (refine (run_keeps ?_ : ∀ t, _ = Host.Outcome.next t → Keeps _ t))
    | with_reducible assumption
    | intro _
    | with_reducible apply cmdRx_keeps
    | with_reducible apply doChecked_keeps
    | with_reducible exact Keeps.refl _
    | split
    | dsimp only

theorem doUnchecked_keeps {z : State} (s : State) (hK : Keeps z s) : Keeps z (doUnchecked s).st := by
  unfold doUnchecked
  repeat' first
    | with_reducible assumption
    | intro _
    | with_reducible apply ans_keeps
    | with_reducible apply setFld_keeps
    | with_reducible exact Keeps.refl _
    | with_reducible refine keeps_fst (by assumption) ?_
    | split
    | dsimp only

theorem execUnchecked_keeps {z : State} (mseq : Word) (serial : DWord) (s : State) (hK : Keeps z s) : ∀ t', execUnchecked mseq serial s = .next t' → Keeps z t' := by
  unfold execUnchecked
  repeat' first
    | with_reducible (refine (run_keeps ?_ : ∀ t, _ = Host.Outcome.next t → Keeps _ t))
    | with_reducible assumption
    | intro _
    | with_reducible apply cmdRx_keeps
    | with_reducible apply doUnchecked_keeps
    | with_reducible exact Keeps.refl _
    | split
    | dsimp only

theorem doPenalize_keeps {z : State} (pts : Nat) (s : State) (hK : Keeps z s) : Keeps z (doPenalize pts s).st := by
  unfold doPenalize
  repeat' first
    | with_reducible assumption
    | intro _
    | with_reducible apply ansIf_keeps
    | with_reducible apply healthPts_keeps
    | with_reducible exact Keeps.refl _
    | with_reducible refine keeps_fst (by assumption) ?_
    | split
    | dsimp only

theorem execPenalize_keeps {z : State} (mseq : Word) (serial : DWord) (pts : BitVec 16) (s : State) (hK : Keeps z s) : ∀ t', execPenalize mseq serial pts s = .next t' → Keeps z t' := by
  unfold execPenalize
  repeat' first
    | with_reducible (refine (run_keeps ?_ : ∀ t, _ = Host.Outcome.next t → Keeps _ t))
    | with_reducible assumption
    | intro _
    | with_reducible apply cmdRx_keeps
    | with_reducible apply doPenalize_keeps
    | with_reducible exact Keeps.refl _
    | split
    | dsimp only

theorem doBandClear_keeps {z : State} (s : State) (hK : Keeps z s) : Keeps z (doBandClear s).st := by
  unfold doBandClear
  repeat' first
    | with_reducible assumption
    | (intro xS; refine keeps_gen (z := z) (x := xS) ?_ (fun _ => ?_); revert xS; dsimp only; rotate_left; clear_value xS)
    | (intro xS; refine keeps_gen_fst (z := z) (x := xS) ?_ (fun _ => ?_); revert xS; dsimp only; rotate_left; clear_value xS)
    | intro _
    | lift_lets
    | with_reducible apply ans_keeps
    | with_reducible exact Keeps.refl _
    | with_reducible refine keeps_fst (by assumption) ?_
    | simp only [keeps_mk_eq]
    | split
    | dsimp only

theorem execBandClear_keeps {z : State} (mseq : Word) (serial : DWord) (s : State) (hK : Keeps z s) : ∀ t', execBandClear mseq serial s = .next t' → Keeps z t' := by
  unfold execBandClear
  repeat' first
    | with_reducible (refine (run_keeps ?_ : ∀ t, _ = Host.Outcome.next t → Keeps _ t))
    | with_reducible assumption
    | intro _
    | with_reducible apply cmdRx_keeps
    | with_reducible apply doBandClear_keeps
    | with_reducible exact Keeps.refl _
    | split
    | dsimp only

theorem doReflBuddy_keeps {z : State} (lc : BitVec 18) (valid : Bool) (s : State) (hK : Keeps z s) : Keeps z (doReflBuddy lc valid s).st := by
  unfold doReflBuddy
  repeat' first
    | with_reducible assumption
    | intro _
    | with_reducible apply ans_keeps
    | with_reducible apply buddySet_keeps
    | with_reducible apply setFld_keeps
    | with_reducible exact Keeps.refl _
    | with_reducible refine keeps_fst (by assumption) ?_
    | split
    | dsimp only

theorem execReflBuddy_keeps {z : State} (mseq : Word) (serial : DWord) (lc : BitVec 18) (valid : Bool) (s : State) (hK : Keeps z s) : ∀ t', execReflBuddy mseq serial lc valid s = .next t' → Keeps z t' := by
  unfold execReflBuddy
  repeat' first
    | with_reducible (refine (run_keeps ?_ : ∀ t, _ = Host.Outcome.next t → Keeps _ t))
    | with_reducible assumption
    | intro _
    | with_reducible apply cmdRx_keeps
    | with_reducible apply doReflBuddy_keeps
    | with_reducible exact Keeps.refl _
    | split
    | dsimp only

theorem doHealthGet_keeps {z : State} (s : State) (hK : Keeps z s) : Keeps z (doHealthGet s).st := by
  unfold doHealthGet
  repeat' first
    | with_reducible assumption
    | intro _
    | with_reducible apply ans_keeps
    | with_reducible apply healthSend_keeps
    | with_reducible exact Keeps.refl _
    | with_reducible refine keeps_fst (by assumption) ?_
    | split
    | dsimp only

theorem execHealthGet_keeps {z : State} (mseq : Word) (serial : DWord) (s : State) (hK : Keeps z s) : ∀ t', execHealthGet mseq serial s = .next t' → Keeps z t' := by
  unfold execHealthGet
  repeat' first
    | with_reducible (refine (run_keeps ?_ : ∀ t, _ = Host.Outcome.next t → Keeps _ t))
    | with_reducible assumption
    | intro _
    | with_reducible apply cmdRx_keeps
    | with_reducible apply doHealthGet_keeps
    | with_reducible exact Keeps.refl _
    | split
    | dsimp only

theorem doRegRead_keeps {z : State} (a : Nat) (s : State) (hK : Keeps z s) : Keeps z (doRegRead a s).st := by
  unfold doRegRead
  repeat' first
    | with_reducible assumption
    | (intro xS; refine keeps_gen (z := z) (x := xS) ?_ (fun _ => ?_); revert xS; dsimp only; rotate_left; clear_value xS)
    | (intro xS; refine keeps_gen_fst (z := z) (x := xS) ?_ (fun _ => ?_); revert xS; dsimp only; rotate_left; clear_value xS)
    | intro _
    | lift_lets
    | with_reducible apply regRead_keeps
    | with_reducible apply ans_keeps
    | with_reducible exact Keeps.refl _
    | with_reducible refine keeps_fst (by assumption) ?_
    | simp only [keeps_mk_eq]
    | split
    | dsimp only

theorem execRegRead_keeps {z : State} (mseq : Word) (serial : DWord) (a : BitVec 64) (s : State) (hK : Keeps z s) : ∀ t', execRegRead mseq serial a s = .next t' → Keeps z t' := by
  unfold execRegRead
  repeat' first
    | with_reducible (refine (run_keeps ?_ : ∀ t, _ = Host.Outcome.next t → Keeps _ t))
    | with_reducible assumption
    | intro _
    | with_reducible apply cmdRx_keeps
    | with_reducible apply doRegRead_keeps
    | with_reducible exact Keeps.refl _
    | split
    | dsimp only

theorem doRegWrite_keeps {z : State} (a v : Nat) (s : State) (hK : Keeps z s) : Keeps z (doRegWrite a v s).st := by
  unfold doRegWrite
  repeat' first
    | with_reducible assumption
    | (intro xS; refine keeps_gen (z := z) (x := xS) ?_ (fun _ => ?_); revert xS; dsimp only; rotate_left; clear_value xS)
    | (intro xS; refine keeps_gen_fst (z := z) (x := xS) ?_ (fun _ => ?_); revert xS; dsimp only; rotate_left; clear_value xS)
    | intro _
    | lift_lets
    | with_reducible apply ans_keeps
    | with_reducible apply regWrite_keeps
    | with_reducible exact Keeps.refl _
    | with_reducible refine keeps_fst (by assumption) ?_
    | simp only [keeps_mk_eq]
    | split
    | dsimp only

theorem execRegWrite_keeps {z : State} (mseq : Word) (serial : DWord) (a : BitVec 64) (v : Word) (s : State) (hK : Keeps z s) : ∀ t', execRegWrite mseq serial a v s = .next t' → Keeps z t' := by
  unfold execRegWrite
  repeat' first
    | with_reducible (refine (run_keeps ?_ : ∀ t, _ = Host.Outcome.next t → Keeps _ t))
    | with_reducible assumption
    | intro _
    | with_reducible apply cmdRx_keeps
    | with_reducible apply doRegWrite_keeps
    | with_reducible exact Keeps.refl _
    | split
    | dsimp only

theorem doAttest_keeps {z : State} (nonce : List Byte) (s : State) (hK : Keeps z s) : Keeps z (doAttest nonce s).st := by
  unfold doAttest
  repeat' first
    | with_reducible assumption
    | (intro xS; refine keeps_gen (z := z) (x := xS) ?_ (fun _ => ?_); revert xS; dsimp only; rotate_left; clear_value xS)
    | (intro xS; refine keeps_gen_fst (z := z) (x := xS) ?_ (fun _ => ?_); revert xS; dsimp only; rotate_left; clear_value xS)
    | intro _
    | lift_lets
    | with_reducible apply ans_keeps
    | (with_reducible refine attest_keeps _ _ ?_ _ (by assumption))
    | with_reducible exact Keeps.refl _
    | with_reducible refine keeps_fst (by assumption) ?_
    | simp only [keeps_mk_eq]
    | split
    | dsimp only

theorem execAttest_keeps {z : State} (mseq : Word) (serial : DWord) (nonce : List Byte) (s : State) (hK : Keeps z s) : ∀ t', execAttest mseq serial nonce s = .next t' → Keeps z t' := by
  unfold execAttest
  repeat' first
    | with_reducible (refine (run_keeps ?_ : ∀ t, _ = Host.Outcome.next t → Keeps _ t))
    | with_reducible assumption
    | intro _
    | with_reducible apply cmdRx_keeps
    | with_reducible apply doAttest_keeps
    | with_reducible exact Keeps.refl _
    | split
    | dsimp only

theorem orderEnd_keeps {z : State} (s : State) (o : Order) (hK : Keeps z s) : Keeps z (orderEnd s o) := by
  unfold orderEnd
  repeat' first
    | with_reducible assumption
    | (intro xS; refine keeps_gen (z := z) (x := xS) ?_ (fun _ => ?_); revert xS; dsimp only; rotate_left; clear_value xS)
    | (intro xS; refine keeps_gen_fst (z := z) (x := xS) ?_ (fun _ => ?_); revert xS; dsimp only; rotate_left; clear_value xS)
    | intro _
    | lift_lets
    | with_reducible apply retire_keeps
    | with_reducible apply orderAct_keeps
    | with_reducible exact Keeps.refl _
    | split
    | dsimp only

theorem sessFinish_keeps {z : State} (s : State) (hK : Keeps z s) : Keeps z (sessFinish s) := by
  unfold sessFinish
  repeat' first
    | with_reducible assumption
    | (intro xS; refine keeps_gen (z := z) (x := xS) ?_ (fun _ => ?_); revert xS; dsimp only; rotate_left; clear_value xS)
    | (intro xS; refine keeps_gen_fst (z := z) (x := xS) ?_ (fun _ => ?_); revert xS; dsimp only; rotate_left; clear_value xS)
    | intro _
    | lift_lets
    | with_reducible apply sessEnd_keeps
    | with_reducible apply orderEnd_keeps
    | with_reducible exact Keeps.refl _
    | with_reducible refine keeps_foldl (fun _ _ _ => ?_) _ ?_
    | with_reducible refine keeps_foldl_fst (fun _ _ _ => ?_) _ ?_
    | split
    | dsimp only

theorem doJobRelease_keeps {z : State} (mseq : Nat) (s : State) (hK : Keeps z s) : Keeps z (doJobRelease mseq s).st := by
  unfold doJobRelease
  repeat' first
    | with_reducible assumption
    | (intro xS; refine keeps_gen (z := z) (x := xS) ?_ (fun _ => ?_); revert xS; dsimp only; rotate_left; clear_value xS)
    | (intro xS; refine keeps_gen_fst (z := z) (x := xS) ?_ (fun _ => ?_); revert xS; dsimp only; rotate_left; clear_value xS)
    | intro _
    | lift_lets
    | with_reducible apply ans_keeps
    | with_reducible apply jobResetStart_keeps
    | with_reducible apply snapAbort_keeps
    | with_reducible apply abandonAll_keeps
    | with_reducible apply sessFinish_keeps
    | with_reducible exact Keeps.refl _
    | with_reducible refine keeps_fst (by assumption) ?_
    | simp only [keeps_mk_eq]
    | split
    | dsimp only

theorem execJobRelease_keeps {z : State} (mseq : Word) (serial : DWord) (s : State) (hK : Keeps z s) : ∀ t', execJobRelease mseq serial s = .next t' → Keeps z t' := by
  unfold execJobRelease
  repeat' first
    | with_reducible (refine (run_keeps ?_ : ∀ t, _ = Host.Outcome.next t → Keeps _ t))
    | with_reducible assumption
    | intro _
    | with_reducible apply cmdRx_keeps
    | with_reducible apply doJobRelease_keeps
    | with_reducible exact Keeps.refl _
    | split
    | dsimp only

theorem opMgmtResend_keeps {z : State} (s : State) (hK : Keeps z s) : Keeps z (opMgmtResend s) := by
  unfold opMgmtResend
  repeat' first
    | with_reducible assumption
    | (intro xS; refine keeps_gen (z := z) (x := xS) ?_ (fun _ => ?_); revert xS; dsimp only; rotate_left; clear_value xS)
    | (intro xS; refine keeps_gen_fst (z := z) (x := xS) ?_ (fun _ => ?_); revert xS; dsimp only; rotate_left; clear_value xS)
    | intro _
    | lift_lets
    | with_reducible apply laneSend_keeps
    | with_reducible exact Keeps.refl _
    | with_reducible refine keeps_foldl (fun _ _ _ => ?_) _ ?_
    | with_reducible refine keeps_foldl_fst (fun _ _ _ => ?_) _ ?_
    | simp only [keeps_mk_eq]
    | split
    | dsimp only

theorem execMgmtResendTimer_keeps {z : State} (s : State) (hK : Keeps z s) : ∀ t', execMgmtResendTimer s = .next t' → Keeps z t' := by
  unfold execMgmtResendTimer
  repeat' first
    | with_reducible (refine (run_keeps ?_ : ∀ t, _ = Host.Outcome.next t → Keeps _ t))
    | with_reducible assumption
    | intro _
    | with_reducible apply opMgmtResend_keeps
    | with_reducible exact Keeps.refl _
    | split
    | dsimp only

theorem opMgmtAck_keeps {z : State} (serial : DWord) (mseq : Nat) (s : State) (hK : Keeps z s) : Keeps z (opMgmtAck serial mseq s) := by
  unfold opMgmtAck
  repeat' first
    | with_reducible assumption
    | (intro xS; refine keeps_gen (z := z) (x := xS) ?_ (fun _ => ?_); revert xS; dsimp only; rotate_left; clear_value xS)
    | (intro xS; refine keeps_gen_fst (z := z) (x := xS) ?_ (fun _ => ?_); revert xS; dsimp only; rotate_left; clear_value xS)
    | intro _
    | lift_lets
    | with_reducible apply lanePush_keeps
    | with_reducible exact Keeps.refl _
    | simp only [keeps_mk_eq]
    | split
    | dsimp only

theorem execMgmtAck_keeps {z : State} (serial : DWord) (mseq : Word) (s : State) (hK : Keeps z s) : ∀ t', execMgmtAck serial mseq s = .next t' → Keeps z t' := by
  unfold execMgmtAck
  repeat' first
    | with_reducible (refine (run_keeps ?_ : ∀ t, _ = Host.Outcome.next t → Keeps _ t))
    | with_reducible assumption
    | intro _
    | with_reducible apply opMgmtAck_keeps
    | with_reducible exact Keeps.refl _
    | split
    | dsimp only

theorem opHealthPeriod_keeps {z : State} (s : State) (hK : Keeps z s) : Keeps z (opHealthPeriod s) := by
  unfold opHealthPeriod
  repeat' first
    | with_reducible assumption
    | (intro xS; refine keeps_gen (z := z) (x := xS) ?_ (fun _ => ?_); revert xS; dsimp only; rotate_left; clear_value xS)
    | (intro xS; refine keeps_gen_fst (z := z) (x := xS) ?_ (fun _ => ?_); revert xS; dsimp only; rotate_left; clear_value xS)
    | intro _
    | lift_lets
    | with_reducible apply healthSend_keeps
    | with_reducible apply tmArm_keeps
    | with_reducible exact Keeps.refl _
    | split
    | dsimp only

theorem execHealthPeriod_keeps {z : State} (s : State) (hK : Keeps z s) : ∀ t', execHealthPeriod s = .next t' → Keeps z t' := by
  unfold execHealthPeriod
  repeat' first
    | with_reducible (refine (run_keeps ?_ : ∀ t, _ = Host.Outcome.next t → Keeps _ t))
    | with_reducible assumption
    | intro _
    | with_reducible apply opHealthPeriod_keeps
    | with_reducible exact Keeps.refl _
    | split
    | dsimp only

theorem execI3cPwrReqWrite_keeps {z : State} (v : Word) (s : State) (hK : Keeps z s) : ∀ t', execI3cPwrReqWrite v s = .next t' → Keeps z t' := by
  unfold execI3cPwrReqWrite
  repeat' first
    | with_reducible (refine (run_keeps ?_ : ∀ t, _ = Host.Outcome.next t → Keeps _ t))
    | with_reducible (refine (runReg_keeps _ _ _ _ _ ?_ : ∀ t, _ = Host.Outcome.next t → Keeps _ t))
    | with_reducible assumption
    | intro _
    | with_reducible exact Keeps.refl _
    | split
    | dsimp only

theorem i3cAssign_keeps {z : State} (dyn : Nat) (s : State) (hK : Keeps z s) : Keeps z (i3cAssign dyn s) := by
  unfold i3cAssign
  repeat' first
    | with_reducible assumption
    | (intro xS; refine keeps_gen (z := z) (x := xS) ?_ (fun _ => ?_); revert xS; dsimp only; rotate_left; clear_value xS)
    | (intro xS; refine keeps_gen_fst (z := z) (x := xS) ?_ (fun _ => ?_); revert xS; dsimp only; rotate_left; clear_value xS)
    | intro _
    | lift_lets
    | with_reducible exact Keeps.refl _
    | simp only [keeps_mk_eq]
    | split
    | dsimp only

theorem opI3cSetdasa_keeps {z : State} (static dyn : Nat) (s : State) (hK : Keeps z s) : Keeps z (opI3cSetdasa static dyn s) := by
  unfold opI3cSetdasa
  repeat' first
    | with_reducible assumption
    | intro _
    | with_reducible apply i3cAssign_keeps
    | with_reducible exact Keeps.refl _
    | split
    | dsimp only

theorem execI3cSetdasa_keeps {z : State} (static dyn : BitVec 7) (s : State) (hK : Keeps z s) : ∀ t', execI3cSetdasa static dyn s = .next t' → Keeps z t' := by
  unfold execI3cSetdasa
  repeat' first
    | with_reducible (refine (run_keeps ?_ : ∀ t, _ = Host.Outcome.next t → Keeps _ t))
    | with_reducible assumption
    | intro _
    | with_reducible apply opI3cSetdasa_keeps
    | with_reducible exact Keeps.refl _
    | split
    | dsimp only

theorem execI3cEntdaa_keeps {z : State} (dyn : BitVec 7) (s : State) (hK : Keeps z s) : ∀ t', execI3cEntdaa dyn s = .next t' → Keeps z t' := by
  unfold execI3cEntdaa
  repeat' first
    | with_reducible (refine (run_keeps ?_ : ∀ t, _ = Host.Outcome.next t → Keeps _ t))
    | with_reducible assumption
    | intro _
    | with_reducible apply i3cAssign_keeps
    | with_reducible exact Keeps.refl _
    | split
    | dsimp only

end Sys2Proof.Machine
end

