-- ==== Sys2Proof/Laws/KeepsTick.lean ====
section
/-! SUPPORT. What the operations of Tick keep. -/
namespace Sys2Proof.Machine

theorem capTick_keeps {z : State} (s : State) (hK : Keeps z s) : Keeps z (capTick s) := by
  unfold capTick
  repeat' first
    | with_reducible assumption
    | intro _
    | with_reducible apply cnt64_keeps
    | with_reducible exact Keeps.refl _
    | split
    | dsimp only

theorem d3Tick_keeps {z : State} (s : State) (hK : Keeps z s) : Keeps z (d3Tick s) := by
  unfold d3Tick
  repeat' first
    | with_reducible assumption
    | intro _
    | with_reducible apply cnt64_keeps
    | with_reducible exact Keeps.refl _
    | with_reducible refine keeps_foldl (fun _ _ _ => ?_) _ ?_
    | with_reducible refine keeps_foldl_fst (fun _ _ _ => ?_) _ ?_
    | split
    | dsimp only

theorem resTick_keeps {z : State} (s : State) (hK : Keeps z s) : Keeps z (resTick s) := by
  unfold resTick
  repeat' first
    | with_reducible assumption
    | intro _
    | with_reducible apply cnt64_keeps
    | with_reducible exact Keeps.refl _
    | split
    | dsimp only

theorem prismTick_keeps {z : State} (s : State) (hK : Keeps z s) : Keeps z (prismTick s) := by
  unfold prismTick
  repeat' first
    | with_reducible assumption
    | (intro xS; refine keeps_gen (z := z) (x := xS) ?_ (fun _ => ?_); revert xS; dsimp only; rotate_left; clear_value xS)
    | (intro xS; refine keeps_gen_fst (z := z) (x := xS) ?_ (fun _ => ?_); revert xS; dsimp only; rotate_left; clear_value xS)
    | intro _
    | lift_lets
    | with_reducible exact Keeps.refl _
    | simp only [keeps_mk_eq]
    | split
    | dsimp only

theorem idleTick_keeps {z : State} (s : State) (hK : Keeps z s) : Keeps z (idleTick s) := by
  unfold idleTick
  repeat' first
    | with_reducible assumption
    | (intro xS; refine keeps_gen (z := z) (x := xS) ?_ (fun _ => ?_); revert xS; dsimp only; rotate_left; clear_value xS)
    | (intro xS; refine keeps_gen_fst (z := z) (x := xS) ?_ (fun _ => ?_); revert xS; dsimp only; rotate_left; clear_value xS)
    | intro _
    | lift_lets
    | with_reducible exact Keeps.refl _
    | with_reducible refine keeps_foldl (fun _ _ _ => ?_) _ ?_
    | simp only [keeps_mk_eq]
    | split
    | dsimp only

theorem ethTick_keeps {z : State} (s : State) (hK : Keeps z s) : Keeps z (ethTick s) := by
  unfold ethTick
  repeat' first
    | with_reducible assumption
    | intro _
    | with_reducible apply bufTick_keeps
    | with_reducible exact Keeps.refl _
    | split
    | dsimp only

theorem pushAll_keeps {z : State} (s : State) (hK : Keeps z s) : Keeps z (pushAll s) := by
  unfold pushAll
  repeat' first
    | with_reducible assumption
    | intro _
    | with_reducible apply lanePush_keeps
    | with_reducible apply pushEvents_keeps
    | with_reducible apply pushCompl_keeps
    | with_reducible exact Keeps.refl _
    | split
    | dsimp only

theorem tick_keeps {z : State} (s : State) (hK : Keeps z s) : Keeps z (tick s) := by
  unfold tick
  repeat' first
    | with_reducible assumption
    | (intro xS; refine keeps_gen (z := z) (x := xS) ?_ (fun _ => ?_); revert xS; dsimp only; rotate_left; clear_value xS)
    | (intro xS; refine keeps_gen_fst (z := z) (x := xS) ?_ (fun _ => ?_); revert xS; dsimp only; rotate_left; clear_value xS)
    | intro _
    | lift_lets
    | with_reducible apply resTick_keeps
    | with_reducible apply pushAll_keeps
    | with_reducible apply promoTick_keeps
    | with_reducible apply ethTick_keeps
    | with_reducible apply prismTick_keeps
    | with_reducible apply d3Tick_keeps
    | with_reducible apply capTick_keeps
    | with_reducible apply thrTick_keeps
    | with_reducible apply thrHeld_keeps
    | with_reducible apply idleTick_keeps
    | with_reducible exact Keeps.refl _
    | simp only [keeps_mk_eq]
    | split
    | dsimp only

end Sys2Proof.Machine
end

