-- ==== Sys2Proof/Laws/KeepsExec.lean ====
section
/-! SUPPORT. What every command keeps: one case per row of the table. -/
namespace Sys2Proof.Machine

theorem exec_keeps (i : Instr) (s t : State) (h : exec i s = .next t) : Keeps s t := by
  cases i
  case stepCmdOpen => exact execStepCmdOpen_keeps _ _ (Keeps.refl s) t h
  case stepCmdDeclare => exact execStepCmdDeclare_keeps _ _ (Keeps.refl s) t h
  case stepCmdAbandon => exact execStepCmdAbandon_keeps _ _ (Keeps.refl s) t h
  case heldOpenRelease => exact execHeldOpenRelease_keeps _ (Keeps.refl s) t h
  case heldDeclareRelease => exact execHeldDeclareRelease_keeps _ (Keeps.refl s) t h
  case drainComplete => exact execDrainComplete_keeps _ (Keeps.refl s) t h
  case drainLimitExpire => exact execDrainLimitExpire_keeps _ (Keeps.refl s) t h
  case voteLimitExpire => exact execVoteLimitExpire_keeps _ (Keeps.refl s) t h
  case stepSeal => exact execStepSeal_keeps _ (Keeps.refl s) t h
  case pageSetFlip => exact execPageSetFlip_keeps _ (Keeps.refl s) t h
  case seqAbandonRestart => exact execSeqAbandonRestart_keeps _ (Keeps.refl s) t h
  case agreeNoticeRepeat => exact execAgreeNoticeRepeat_keeps _ (Keeps.refl s) t h
  case agreePhase0Resend => exact execAgreePhase0Resend_keeps _ (Keeps.refl s) t h
  case replayStepOpen => exact execReplayStepOpen_keeps _ (Keeps.refl s) t h
  case seqRun => exact execSeqRun_keeps _ _ _ _ (Keeps.refl s) t h
  case ptiIllegal => exact execPtiIllegal_keeps _ _ (Keeps.refl s) t h
  case nop => exact execNop_keeps _ _ _ (Keeps.refl s) t h
  case jmp => exact execJmp_keeps _ _ _ (Keeps.refl s) t h
  case call => exact execCall_keeps _ _ _ (Keeps.refl s) t h
  case ret => exact execRet_keeps _ _ _ (Keeps.refl s) t h
  case halt => exact execHalt_keeps _ _ _ (Keeps.refl s) t h
  case ctlStep => exact execCtlStep_keeps _ _ _ (Keeps.refl s) t h
  case ctlSlipg => exact execCtlSlipg_keeps _ _ _ (Keeps.refl s) t h
  case bwait => exact execBwait_keeps _ _ _ (Keeps.refl s) t h
  case bwaitFire => exact execBwaitFire_keeps _ _ (Keeps.refl s) t h
  case bread => exact execBread_keeps _ _ _ (Keeps.refl s) t h
  case ctrRd => exact execCtrRd_keeps _ _ _ (Keeps.refl s) t h
  case li => exact execLi_keeps _ _ _ (Keeps.refl s) t h
  case lih => exact execLih_keeps _ _ _ (Keeps.refl s) t h
  case mov => exact execMov_keeps _ _ _ (Keeps.refl s) t h
  case add => exact execAdd_keeps _ _ _ (Keeps.refl s) t h
  case sub => exact execSub_keeps _ _ _ (Keeps.refl s) t h
  case mul => exact execMul_keeps _ _ _ (Keeps.refl s) t h
  case andI => exact execAndI_keeps _ _ _ (Keeps.refl s) t h
  case orI => exact execOrI_keeps _ _ _ (Keeps.refl s) t h
  case xorI => exact execXorI_keeps _ _ _ (Keeps.refl s) t h
  case shl => exact execShl_keeps _ _ _ (Keeps.refl s) t h
  case shr => exact execShr_keeps _ _ _ (Keeps.refl s) t h
  case sar => exact execSar_keeps _ _ _ (Keeps.refl s) t h
  case cmp => exact execCmp_keeps _ _ _ (Keeps.refl s) t h
  case plog => exact execPlog_keeps _ _ _ (Keeps.refl s) t h
  case lds => exact execLds_keeps _ _ _ (Keeps.refl s) t h
  case sts => exact execSts_keeps _ _ _ (Keeps.refl s) t h
  case dld => exact execDld_keeps _ _ _ (Keeps.refl s) t h
  case tagp => exact execTagp_keeps _ _ _ (Keeps.refl s) t h
  case syncAdd => exact execSyncAdd_keeps _ _ _ (Keeps.refl s) t h
  case syncSet => exact execSyncSet_keeps _ _ _ (Keeps.refl s) t h
  case wait => exact execWait_keeps _ _ _ (Keeps.refl s) t h
  case waitTo => exact execWaitTo_keeps _ _ _ (Keeps.refl s) t h
  case waitReached => exact execWaitReached_keeps _ _ (Keeps.refl s) t h
  case syncTimeout => exact execSyncTimeout_keeps _ _ (Keeps.refl s) t h
  case syncRd => exact execSyncRd_keeps _ _ _ (Keeps.refl s) t h
  case mmaFp4 => exact execMmaFp4_keeps _ _ _ (Keeps.refl s) t h
  case mmaFp8 => exact execMmaFp8_keeps _ _ _ (Keeps.refl s) t h
  case mmaBf16 => exact execMmaBf16_keeps _ _ _ (Keeps.refl s) t h
  case mmaT19 => exact execMmaT19_keeps _ _ _ (Keeps.refl s) t h
  case mmaF32 => exact execMmaF32_keeps _ _ _ (Keeps.refl s) t h
  case mmaComplete => exact execMmaComplete_keeps _ _ _ _ (Keeps.refl s) t h
  case vecAdd => exact execVecAdd_keeps _ _ _ (Keeps.refl s) t h
  case vecSub => exact execVecSub_keeps _ _ _ (Keeps.refl s) t h
  case vecMul => exact execVecMul_keeps _ _ _ (Keeps.refl s) t h
  case vecFma => exact execVecFma_keeps _ _ _ (Keeps.refl s) t h
  case vecMax => exact execVecMax_keeps _ _ _ (Keeps.refl s) t h
  case vecMin => exact execVecMin_keeps _ _ _ (Keeps.refl s) t h
  case vecAbs => exact execVecAbs_keeps _ _ _ (Keeps.refl s) t h
  case vecNeg => exact execVecNeg_keeps _ _ _ (Keeps.refl s) t h
  case vecExp => exact execVecExp_keeps _ _ _ (Keeps.refl s) t h
  case vecLog => exact execVecLog_keeps _ _ _ (Keeps.refl s) t h
  case vecRcp => exact execVecRcp_keeps _ _ _ (Keeps.refl s) t h
  case vecSqrt => exact execVecSqrt_keeps _ _ _ (Keeps.refl s) t h
  case vecRsqrt => exact execVecRsqrt_keeps _ _ _ (Keeps.refl s) t h
  case vecTanh => exact execVecTanh_keeps _ _ _ (Keeps.refl s) t h
  case vecSigm => exact execVecSigm_keeps _ _ _ (Keeps.refl s) t h
  case cvt => exact execCvt_keeps _ _ _ (Keeps.refl s) t h
  case vecSum => exact execVecSum_keeps _ _ _ (Keeps.refl s) t h
  case vecRmax => exact execVecRmax_keeps _ _ _ (Keeps.refl s) t h
  case vecAmax => exact execVecAmax_keeps _ _ _ (Keeps.refl s) t h
  case vecComplete => exact execVecComplete_keeps _ _ _ (Keeps.refl s) t h
  case xferCopy => exact execXferCopy_keeps _ _ _ (Keeps.refl s) t h
  case xferMcast => exact execXferMcast_keeps _ _ _ (Keeps.refl s) t h
  case xferZero => exact execXferZero_keeps _ _ _ (Keeps.refl s) t h
  case xferPref => exact execXferPref_keeps _ _ _ (Keeps.refl s) t h
  case xferColl => exact execXferColl_keeps _ _ _ (Keeps.refl s) t h
  case xferComplete => exact execXferComplete_keeps _ _ _ _ _ (Keeps.refl s) t h
  case collComplete => exact execCollComplete_keeps _ _ (Keeps.refl s) t h
  case gate => exact execGate_keeps _ _ _ (Keeps.refl s) t h
  case dispatch => exact execDispatch_keeps _ _ _ (Keeps.refl s) t h
  case combine => exact execCombine_keeps _ _ _ (Keeps.refl s) t h
  case routeComplete => exact execRouteComplete_keeps _ _ _ _ (Keeps.refl s) t h
  case updAdam => exact execUpdAdam_keeps _ _ _ (Keeps.refl s) t h
  case updSgdm => exact execUpdSgdm_keeps _ _ _ (Keeps.refl s) t h
  case updSignm => exact execUpdSignm_keeps _ _ _ (Keeps.refl s) t h
  case updStart => exact execUpdStart_keeps _ _ _ _ (Keeps.refl s) t h
  case updFrameResume => exact execUpdFrameResume_keeps _ _ _ (Keeps.refl s) t h
  case updComplete => exact execUpdComplete_keeps _ _ _ (Keeps.refl s) t h
  case chkVerify => exact execChkVerify_keeps _ _ _ (Keeps.refl s) t h
  case chkFold => exact execChkFold_keeps _ _ _ (Keeps.refl s) t h
  case chkCmp => exact execChkCmp_keeps _ _ _ (Keeps.refl s) t h
  case gangApply => exact execGangApply_keeps _ _ _ _ (Keeps.refl s) t h
  case gangModeChange => exact execGangModeChange_keeps _ _ (Keeps.refl s) t h
  case fenceApply => exact execFenceApply_keeps _ _ _ _ (Keeps.refl s) t h
  case routeApply => exact execRouteApply_keeps _ _ _ _ (Keeps.refl s) t h
  case sclApplyEst => exact execSclApplyEst_keeps _ _ (Keeps.refl s) t h
  case sclApplyLs => exact execSclApplyLs_keeps _ _ (Keeps.refl s) t h
  case migApply => exact execMigApply_keeps _ _ _ (Keeps.refl s) t h
  case updApply => exact execUpdApply_keeps _ _ _ (Keeps.refl s) t h
  case lnkApply => exact execLnkApply_keeps _ _ _ _ (Keeps.refl s) t h
  case xlatApply => exact execXlatApply_keeps _ _ _ (Keeps.refl s) t h
  case chkApply => exact execChkApply_keeps _ _ _ (Keeps.refl s) t h
  case ckptApply => exact execCkptApply_keeps _ _ _ (Keeps.refl s) t h
  case hubResilApply => exact execHubResilApply_keeps _ _ _ (Keeps.refl s) t h
  case hubStepApply => exact execHubStepApply_keeps _ _ _ (Keeps.refl s) t h
  case hlthApply => exact execHlthApply_keeps _ _ _ (Keeps.refl s) t h
  case cwtApply => exact execCwtApply_keeps _ _ _ (Keeps.refl s) t h
  case syncValWrite => exact execSyncValWrite_keeps _ _ _ _ _ (Keeps.refl s) t h
  case syncAddWrite => exact execSyncAddWrite_keeps _ _ _ _ _ (Keeps.refl s) t h
  case syncArmWrite => exact execSyncArmWrite_keeps _ _ _ _ _ _ (Keeps.refl s) t h
  case bcnSlipClear => exact execBcnSlipClear_keeps _ _ _ _ _ (Keeps.refl s) t h
  case cacheDemote => exact execCacheDemote_keeps _ _ _ _ (Keeps.refl s) t h
  case coreMemAccess => exact execCoreMemAccess_keeps _ _ _ _ _ _ (Keeps.refl s) t h
  case patrolScrub => exact execPatrolScrub_keeps _ _ _ (Keeps.refl s) t h
  case stackTempSample => exact execStackTempSample_keeps _ _ _ (Keeps.refl s) t h
  case testModeEnter => exact execTestModeEnter_keeps _ _ _ _ (Keeps.refl s) t h
  case testReady => exact execTestReady_keeps _ _ (Keeps.refl s) t h
  case tgStart => exact execTgStart_keeps _ _ _ _ _ (Keeps.refl s) t h
  case memTgDone => exact execMemTgDone_keeps _ _ _ _ (Keeps.refl s) t h
  case migOrderStart => exact execMigOrderStart_keeps _ (Keeps.refl s) t h
  case migOrderComplete => exact execMigOrderComplete_keeps _ _ (Keeps.refl s) t h
  case linkLightDetect => exact execLinkLightDetect_keeps _ _ (Keeps.refl s) t h
  case linkTrainTimeout => exact execLinkTrainTimeout_keeps _ _ (Keeps.refl s) t h
  case linkUp => exact execLinkUp_keeps _ _ _ _ (Keeps.refl s) t h
  case linkRetrain => exact execLinkRetrain_keeps _ _ _ _ (Keeps.refl s) t h
  case flitDataRx => exact execFlitDataRx_keeps _ _ _ _ _ (Keeps.refl s) t h
  case flitIdleRx => exact execFlitIdleRx_keeps _ _ _ _ _ (Keeps.refl s) t h
  case flitNakRx => exact execFlitNakRx_keeps _ _ _ _ _ (Keeps.refl s) t h
  case ctrlCreditRx => exact execCtrlCreditRx_keeps _ _ _ _ _ (Keeps.refl s) t h
  case ctrlSwapRx => exact execCtrlSwapRx_keeps _ _ _ _ _ (Keeps.refl s) t h
  case ctrlIdentRx => exact execCtrlIdentRx_keeps _ _ _ _ _ (Keeps.refl s) t h
  case ctrlDropRx => exact execCtrlDropRx_keeps _ _ _ _ _ (Keeps.refl s) t h
  case laneSwap => exact execLaneSwap_keeps _ _ _ (Keeps.refl s) t h
  case laneErrorWindow => exact execLaneErrorWindow_keeps _ _ _ _ _ (Keeps.refl s) t h
  case laneRetrainTimer => exact execLaneRetrainTimer_keeps _ _ _ (Keeps.refl s) t h
  case identTimer => exact execIdentTimer_keeps _ _ (Keeps.refl s) t h
  case ackStallTimeout => exact execAckStallTimeout_keeps _ _ (Keeps.refl s) t h
  case linkLost => exact execLinkLost_keeps _ _ _ (Keeps.refl s) t h
  case linkDetour => exact execLinkDetour_keeps _ _ (Keeps.refl s) t h
  case laserCartInsert => exact execLaserCartInsert_keeps _ _ (Keeps.refl s) t h
  case laserCartRemove => exact execLaserCartRemove_keeps _ _ _ (Keeps.refl s) t h
  case laserShare => exact execLaserShare_keeps _ (Keeps.refl s) t h
  case blockFrameRx => exact execBlockFrameRx_keeps _ _ (Keeps.refl s) t h
  case syncFrameRx => exact execSyncFrameRx_keeps _ _ (Keeps.refl s) t h
  case readFrameRx => exact execReadFrameRx_keeps _ _ (Keeps.refl s) t h
  case rdataFrameRx => exact execRdataFrameRx_keeps _ _ (Keeps.refl s) t h
  case collFrameRx => exact execCollFrameRx_keeps _ _ (Keeps.refl s) t h
  case zrunFrameRx => exact execZrunFrameRx_keeps _ _ (Keeps.refl s) t h
  case voteFrameRx => exact execVoteFrameRx_keeps _ _ (Keeps.refl s) t h
  case digestFrameRx => exact execDigestFrameRx_keeps _ _ (Keeps.refl s) t h
  case ackeFrameRx => exact execAckeFrameRx_keeps _ _ (Keeps.refl s) t h
  case statusFrameRx => exact execStatusFrameRx_keeps _ _ (Keeps.refl s) t h
  case ackeTimer => exact execAckeTimer_keeps _ _ (Keeps.refl s) t h
  case e2eTimeout => exact execE2eTimeout_keeps _ (Keeps.refl s) t h
  case hmsgCommandBlock => exact execHmsgCommandBlock_keeps _ (Keeps.refl s) t h
  case hmsgGradientBlock => exact execHmsgGradientBlock_keeps _ (Keeps.refl s) t h
  case hmsgSealBlock => exact execHmsgSealBlock_keeps _ (Keeps.refl s) t h
  case hmsgReflFoldRecord => exact execHmsgReflFoldRecord_keeps _ (Keeps.refl s) t h
  case hmsgDigestReport => exact execHmsgDigestReport_keeps _ (Keeps.refl s) t h
  case hmsgResyncData => exact execHmsgResyncData_keeps _ (Keeps.refl s) t h
  case reflHave => exact execReflHave_keeps _ (Keeps.refl s) t h
  case reflDone => exact execReflDone_keeps _ (Keeps.refl s) t h
  case reflApplyComplete => exact execReflApplyComplete_keeps _ (Keeps.refl s) t h
  case reflLateTimeout => exact execReflLateTimeout_keeps _ (Keeps.refl s) t h
  case resyncDone => exact execResyncDone_keeps _ (Keeps.refl s) t h
  case journalRefetchRx => exact execJournalRefetchRx_keeps _ (Keeps.refl s) t h
  case journalAdmit => exact execJournalAdmit_keeps _ (Keeps.refl s) t h
  case journalRedeliver => exact execJournalRedeliver_keeps _ _ (Keeps.refl s) t h
  case sendJournalResend => exact execSendJournalResend_keeps _ _ (Keeps.refl s) t h
  case prismBurst => exact execPrismBurst_keeps _ _ _ _ _ _ ‹_› _ _ (Keeps.refl s) t h
  case bandTableSave => exact execBandTableSave_keeps _ (Keeps.refl s) t h
  case foldResume => exact execFoldResume_keeps _ _ _ (Keeps.refl s) t h
  case certRunEnd => exact execCertRunEnd_keeps _ _ _ _ (Keeps.refl s) t h
  case certRetryTimer => exact execCertRetryTimer_keeps _ _ (Keeps.refl s) t h
  case certSpareAvailable => exact execCertSpareAvailable_keeps _ _ _ (Keeps.refl s) t h
  case healthDecay => exact execHealthDecay_keeps _ (Keeps.refl s) t h
  case healthPeriod => exact execHealthPeriod_keeps _ (Keeps.refl s) t h
  case ckptReq => exact execCkptReq_keeps _ _ _ (Keeps.refl s) t h
  case snapshotRelease => exact execSnapshotRelease_keeps _ _ (Keeps.refl s) t h
  case reflReportTimeout => exact execReflReportTimeout_keeps _ (Keeps.refl s) t h
  case manifestWrite => exact execManifestWrite_keeps _ (Keeps.refl s) t h
  case restoreStart => exact execRestoreStart_keeps _ _ _ (Keeps.refl s) t h
  case restoreEnd => exact execRestoreEnd_keeps _ (Keeps.refl s) t h
  case restoreCommit => exact execRestoreCommit_keeps _ _ _ (Keeps.refl s) t h
  case cwtOpen => exact execCwtOpen_keeps _ _ _ _ (Keeps.refl s) t h
  case cwtOpened => exact execCwtOpened_keeps _ _ _ _ (Keeps.refl s) t h
  case cwtClose => exact execCwtClose_keeps _ _ _ _ (Keeps.refl s) t h
  case cwtAck => exact execCwtAck_keeps _ _ _ _ (Keeps.refl s) t h
  case cwtNack => exact execCwtNack_keeps _ _ _ _ (Keeps.refl s) t h
  case cwtCredit => exact execCwtCredit_keeps _ _ _ _ (Keeps.refl s) t h
  case workWrite => exact execWorkWrite_keeps _ _ _ _ (Keeps.refl s) t h
  case workRead => exact execWorkRead_keeps _ _ _ _ (Keeps.refl s) t h
  case workSignal => exact execWorkSignal_keeps _ _ _ _ (Keeps.refl s) t h
  case workRegrd => exact execWorkRegrd_keeps _ _ _ _ (Keeps.refl s) t h
  case workRegwr => exact execWorkRegwr_keeps _ _ _ _ (Keeps.refl s) t h
  case cwtData => exact execCwtData_keeps _ _ _ _ (Keeps.refl s) t h
  case orderRetire => exact execOrderRetire_keeps _ _ (Keeps.refl s) t h
  case cwtAbort => exact execCwtAbort_keeps _ _ _ _ (Keeps.refl s) t h
  case cwtKeepalive => exact execCwtKeepalive_keeps _ _ _ _ (Keeps.refl s) t h
  case cwtBulkData => exact execCwtBulkData_keeps _ _ _ _ (Keeps.refl s) t h
  case cwtRtoExpire => exact execCwtRtoExpire_keeps _ _ _ (Keeps.refl s) t h
  case cwtKeepaliveTimer => exact execCwtKeepaliveTimer_keeps _ _ (Keeps.refl s) t h
  case cwtSilenceTimeout => exact execCwtSilenceTimeout_keeps _ (Keeps.refl s) t h
  case creditRepeatTimer => exact execCreditRepeatTimer_keeps _ (Keeps.refl s) t h
  case bulkTimeout => exact execBulkTimeout_keeps _ _ _ (Keeps.refl s) t h
  case pfcFrameRx => exact execPfcFrameRx_keeps _ _ _ _ _ (Keeps.refl s) t h
  case neighborDiscoveryRx => exact execNeighborDiscoveryRx_keeps _ _ _ _ _ _ (Keeps.refl s) t h
  case icmpEchoRx => exact execIcmpEchoRx_keeps _ _ _ _ _ _ _ _ (Keeps.refl s) t h
  case osfpInsert => exact execOsfpInsert_keeps _ _ _ (Keeps.refl s) t h
  case osfpRemove => exact execOsfpRemove_keeps _ _ (Keeps.refl s) t h
  case mgmtResendTimer => exact execMgmtResendTimer_keeps _ (Keeps.refl s) t h
  case mgmtAck => exact execMgmtAck_keeps _ _ _ (Keeps.refl s) t h
  case setCoord => exact execSetCoord_keeps _ _ _ _ _ _ (Keeps.refl s) t h
  case setLogical => exact execSetLogical_keeps _ _ _ _ _ (Keeps.refl s) t h
  case xlatLoad => exact execXlatLoad_keeps _ _ _ _ _ (Keeps.refl s) t h
  case xlatArm => exact execXlatArm_keeps _ _ _ _ (Keeps.refl s) t h
  case linkCfg => exact execLinkCfg_keeps _ _ _ _ _ _ _ _ _ (Keeps.refl s) t h
  case eclipse => exact execEclipse_keeps _ _ _ _ (Keeps.refl s) t h
  case certify => exact execCertify_keeps _ _ _ _ (Keeps.refl s) t h
  case promote => exact execPromote_keeps _ _ _ _ (Keeps.refl s) t h
  case dieDegrade => exact execDieDegrade_keeps _ _ _ _ (Keeps.refl s) t h
  case dieRestore => exact execDieRestore_keeps _ _ _ _ (Keeps.refl s) t h
  case retireUnit => exact execRetireUnit_keeps _ _ _ _ _ (Keeps.refl s) t h
  case fence => exact execFence_keeps _ _ _ _ _ _ (Keeps.refl s) t h
  case checked => exact execChecked_keeps _ _ _ (Keeps.refl s) t h
  case unchecked => exact execUnchecked_keeps _ _ _ (Keeps.refl s) t h
  case penalize => exact execPenalize_keeps _ _ _ _ (Keeps.refl s) t h
  case bandClear => exact execBandClear_keeps _ _ _ (Keeps.refl s) t h
  case reflBuddy => exact execReflBuddy_keeps _ _ _ _ _ (Keeps.refl s) t h
  case regRead => exact execRegRead_keeps _ _ _ _ (Keeps.refl s) t h
  case regWrite => exact execRegWrite_keeps _ _ _ _ _ (Keeps.refl s) t h
  case healthGet => exact execHealthGet_keeps _ _ _ (Keeps.refl s) t h
  case attest => exact execAttest_keeps _ _ _ _ (Keeps.refl s) t h
  case jobRelease => exact execJobRelease_keeps _ _ _ (Keeps.refl s) t h
  case i3cPwrReqWrite => exact execI3cPwrReqWrite_keeps _ _ (Keeps.refl s) t h
  case i3cSetdasa => exact execI3cSetdasa_keeps _ _ _ (Keeps.refl s) t h
  case i3cEntdaa => exact execI3cEntdaa_keeps _ _ (Keeps.refl s) t h
  case inputExcursion => exact execInputExcursion_keeps _ _ (Keeps.refl s) t h
  case inputPowerLoss => exact execInputPowerLoss_keeps _ (Keeps.refl s) t h
  case powerOn => exact execPowerOn_keeps _ (Keeps.refl s) t h
  case pwrEnMate => exact execPwrEnMate_keeps _ (Keeps.refl s) t h
  case pwrEnOpen => exact execPwrEnOpen_keeps _ (Keeps.refl s) t h
  case railFault => exact execRailFault_keeps _ _ _ (Keeps.refl s) t h
  case powerSample => exact execPowerSample_keeps _ _ _ _ (Keeps.refl s) t h
  case powerCapStep => exact execPowerCapStep_keeps _ (Keeps.refl s) t h
  case thermalSample => exact execThermalSample_keeps _ _ _ _ (Keeps.refl s) t h
  case thermalTrip => exact execThermalTrip_keeps _ _ (Keeps.refl s) t h
  case coolantCheck => exact execCoolantCheck_keeps _ _ _ (Keeps.refl s) t h
  case pwrReqWrite => exact execPwrReqWrite_keeps _ _ _ (Keeps.refl s) t h
  case pwrStateEntered => exact execPwrStateEntered_keeps _ _ (Keeps.refl s) t h
  case wakeSource => exact execWakeSource_keeps _ _ (Keeps.refl s) t h
  case wakeTimer => exact execWakeTimer_keeps _ (Keeps.refl s) t h
  case autodimIdle => exact execAutodimIdle_keeps _ (Keeps.refl s) t h
  case bootPhaseEnd => exact execBootPhaseEnd_keeps _ _ _ _ _ (Keeps.refl s) t h
  case bootPhaseTimeout => exact execBootPhaseTimeout_keeps _ (Keeps.refl s) t h
  case resetN => exact execResetN_keeps _ (Keeps.refl s) t h
  case pwrResetModule => exact execPwrResetModule_keeps _ _ (Keeps.refl s) t h
  case pwrResetJob => exact execPwrResetJob_keeps _ _ (Keeps.refl s) t h
  case pwrResetDie => exact execPwrResetDie_keeps _ _ _ (Keeps.refl s) t h
  case jobResetForced => exact execJobResetForced_keeps _ (Keeps.refl s) t h
  case pwrWdogWrite => exact execPwrWdogWrite_keeps _ _ _ (Keeps.refl s) t h
  case watchdogExpire => exact execWatchdogExpire_keeps _ (Keeps.refl s) t h
  case mbAttest => exact execMbAttest_keeps _ _ _ _ (Keeps.refl s) t h
  case signStart => exact execSignStart_keeps _ _ _ _ (Keeps.refl s) t h
  case signData => exact execSignData_keeps _ _ _ _ (Keeps.refl s) t h
  case signEnd => exact execSignEnd_keeps _ _ _ _ (Keeps.refl s) t h
  case dbgChallenge => exact execDbgChallenge_keeps _ _ _ _ (Keeps.refl s) t h
  case dbgResponse => exact execDbgResponse_keeps _ _ _ _ _ (Keeps.refl s) t h
  case advance => exact execAdvance_keeps _ _ _ _ (Keeps.refl s) t h
  case provision => exact execProvision_keeps _ _ _ _ _ (Keeps.refl s) t h
  case lidOpen => exact execLidOpen_keeps _ _ (Keeps.refl s) t h
  case voltageGlitch => exact execVoltageGlitch_keeps _ _ (Keeps.refl s) t h
  case clockGlitch => exact execClockGlitch_keeps _ _ (Keeps.refl s) t h
  case registerWrite => exact execRegisterWrite_keeps _ _ _ _ (Keeps.refl s) t h
  case registerRcRead => exact execRegisterRcRead_keeps _ _ _ (Keeps.refl s) t h
  case counterLoRead => exact execCounterLoRead_keeps _ _ _ (Keeps.refl s) t h
  case xlatDataAccess => exact execXlatDataAccess_keeps _ _ _ (Keeps.refl s) t h
  case snapshotAndClear => exact execSnapshotAndClear_keeps _ _ _ (Keeps.refl s) t h
  case lpddrMr4Change => exact execLpddrMr4Change_keeps _ _ _ _ (Keeps.refl s) t h
  case ceRateMinute => exact execCeRateMinute_keeps _ _ (Keeps.refl s) t h
  case memRetrainDone => exact execMemRetrainDone_keeps _ _ (Keeps.refl s) t h
  case ethLinkChange => exact execEthLinkChange_keeps _ _ _ (Keeps.refl s) t h
  case ethFrameDiscard => exact execEthFrameDiscard_keeps _ _ _ (Keeps.refl s) t h
  case dieResetDone => exact execDieResetDone_keeps _ _ _ (Keeps.refl s) t h

end Sys2Proof.Machine
end

