-- ==== Sys2Proof/Laws/RegWrite.lean ====
section
/-! SUPPORT. What a quiet write of a register comes to, once for all register rows. -/
namespace Sys2Proof.Machine

theorem lockedNote_quiet (s : State) (b : Blk) (fs : List RegField) (old v : Nat) (h : changes fs .rwl old v = false) :
    lockedNote s b fs old v = s := by
  simp only [lockedNote, h]; rfl

theorem liveNote_quiet (s : State) (b : Blk) (o : Nat) (fs : List RegField) (old v : Nat) (h : changes fs .live old v = false) :
    liveNote s b o fs old v = s := by
  simp only [liveNote, h]; rfl

/-- The fields of a quiet write. -/
theorem writeFields_quiet (s : State) (p : Path) (b : Blk) (o v : Nat) (temp : Int) (tok : Bool) (hq : quiet s b o v = true)
    (hi : writeIgnored s b o v = false) (hr : b ≠ .regdec) (hc : isChecked s b o = false) :
    writeFields p b o v temp tok s = regEffect b o v (regShow s b o).toNat temp tok (wroteReg s b o v) := by
  have hl : changes (fieldsAt b o) .live (regShow s b o).toNat v = false := by
    simp only [quiet, Bool.and_eq_true, Bool.not_eq_true'] at hq; exact hq.1
  have hk : (if lockSet s b o = true then lockedNote s b (fieldsAt b o) (regShow s b o).toNat v else s) = s := by
    by_cases hx : lockSet s b o = true
    · have : changes (fieldsAt b o) .rwl (regShow s b o).toNat v = false := by
        simp only [quiet, Bool.and_eq_true, Bool.not_eq_true', hx, Bool.true_and] at hq; exact hq.2
      rw [if_pos hx, lockedNote_quiet _ _ _ _ _ this]
    · rw [if_neg hx]
  have hv : checkedKeep s b o (regShow s b o).toNat v = v := by simp [checkedKeep, hc]
  unfold fieldsAt at hk hl
  unfold writeFields
  simp only [hi, hr, false_and, if_false, Bool.false_eq_true, hv, hk]
  rw [liveNote_quiet _ _ _ _ _ _ hl]
  rfl

/-- A quiet write through a path. -/
theorem runWrite_quiet (s : State) (p : Path) (b : Blk) (o v : Nat) (temp : Int) (tok : Bool) (h : writes s p b o v)
    (hd : directWrite b o v s = none) (hi : writeIgnored s b o v = false) (hr : b ≠ .regdec) (hc : isChecked s b o = false) :
    runWrite p (b.base + o) v temp tok s = .next (regEffect b o v (regShow s b o).toNat temp tok (wroteReg s b o v)) := by
  obtain ⟨ht, hp, ha, hm, hh, hq⟩ := h
  unfold runWrite run
  rw [if_neg (by simp [ht])]
  unfold pathWrite
  rw [if_pos (by simp [hp, ha, hm])]
  unfold regWrite
  rw [hh]
  simp only [writeAt, hd, Option.getD_none, writeFields_quiet s p b o v temp tok hq hi hr hc]

/-- A write of a register that no word stands for. -/
theorem runWrite_direct (s t : State) (p : Path) (b : Blk) (o v : Nat) (temp : Int) (tok : Bool) (h : writes s p b o v)
    (hd : directWrite b o v s = some t) : runWrite p (b.base + o) v temp tok s = .next t := by
  obtain ⟨ht, hp, ha, hm, hh, hq⟩ := h
  unfold runWrite run
  rw [if_neg (by simp [ht])]
  unfold pathWrite
  rw [if_pos (by simp [hp, ha, hm])]
  unfold regWrite
  rw [hh]
  simp only [writeAt, hd, Option.getD_some]

end Sys2Proof.Machine
end

