-- ==== Sys2Proof/Tests/Slice0.lean ====
section
/-! SUPPORT. Tests: well-formedness, decoding words written out from the spec's encoding, single commands on small states,
and a witness for the hypotheses of every statement. -/
namespace Sys2Proof.Tests
open Sys2Proof.Machine

set_option Elab.async false

/-! ## Small states -/

/-- A PTI word of zeros. -/
def w0 : PtiWord := { gneg := false, gpred := 0, mod := 0, opd := 0, opa := 0, opb := 0, opc := 0, sig := 0, sigv := false,
                      tgt := 0, imm := 0 }

/-- A word whose completion object is 7. -/
def w7 : PtiWord := { w0 with sig := 7, sigv := true }

/-- The module in run, as after a wake. -/
def run0 : State := { State.reset with pwr := .run }

/-- A sequencer at address 0x1000 that runs. -/
def q0 : Seq := { Seq.reset with pc := 0x1000, st := .running }

/-- The same, trying again the word that it has: no fetch. -/
def qAgain : Seq := { q0 with st := .queueStall }

/-- Sequencer 0 of MD0 in state `x`, at a word. -/
def atX (s : State) (x : Seq) (op : PtiOp) (w : PtiWord) : State :=
  setSeq (wrBytes s 0x1000 (leBytes 16 (ptiEncode op w).toNat)) 0 { x with pc := 0x1000 }

/-- Sequencer 0 of MD0 at a word, fresh. -/
def atW (op : PtiOp) (w : PtiWord) : State := atX run0 q0 op w

/-- Deciding `issues`. -/
def issuesB (s : State) (q : Fin 256) (op : PtiOp) (w : PtiWord) : Bool :=
  decide (s.tainted = []) && seqReady s q op w && guardTrue (seqAt s q) w

theorem issues_of {s : State} {q : Fin 256} {op : PtiOp} {w : PtiWord} (h : issuesB s q op w = true) : issues s q op w := by
  simpa [issuesB, issues, and_assoc] using h

/-- Deciding `skips`. -/
def skipsB (s : State) (q : Fin 256) (op : PtiOp) (w : PtiWord) : Bool :=
  decide (s.tainted = []) && seqReady s q op w && !guardTrue (seqAt s q) w

theorem skips_of {s : State} {q : Fin 256} {op : PtiOp} {w : PtiWord} (h : skipsB s q op w = true) : skips s q op w := by
  simpa [skipsB, skips, and_assoc] using h

/-- Deciding `writes`. -/
def writesB (s : State) (p : Path) (b : Blk) (o v : Nat) : Bool :=
  decide (s.tainted = []) && pathUp s p && decide ((b.base + o) % 4 = 0) && mayWrite s p (b.base + o) &&
    decide (regHit s (b.base + o) = (s, some (b, o))) && quiet s b o v

theorem writes_of {s : State} {p : Path} {b : Blk} {o v : Nat} (h : writesB s p b o v = true) : writes s p b o v := by
  simpa [writesB, writes, and_assoc] using h

/-- Deciding `Canon`. -/
def canonB (s : State) : Bool :=
  smWf memDef s.mem && smWf regRst s.regs && smWf (fun _ => (0 : Word)) s.objs && smWf (fun _ => Seq.reset) s.seqs

theorem canon_of {s : State} (h : canonB s = true) : Canon s := by
  simpa [canonB, Canon, and_assoc] using h

/-! ## Well-formedness -/

/-- An ill-formed term for each check. -/
theorem test_wf_refuses :
    Instr.wf (.nop 0 { w0 with mod := 2 }) = false ∧ Instr.wf (.tagp 0 { w0 with opa := 16 }) = false ∧
    Instr.wf (.cwtData 0 (.host 0) { cwtFrame cData 1 [] with fflags := 4 }) = false ∧
    Instr.wf (.coreMemAccess (.core 0 0) 0 4 (.store (2 ^ 32)) []) = false ∧
    Instr.wf (.attest 0 0 []) = false ∧ Instr.wf (.xlatLoad 0 0 0 (List.replicate 361 0)) = false := by decide +kernel

/-- A well-formed term for each check. -/
theorem test_wf_takes :
    Instr.wf (.nop 0 w0) = true ∧ Instr.wf (.cwtData 0 (.host 0) (cwtFrame cData 1 [])) = true ∧
    Instr.wf (.coreMemAccess (.core 0 0) 0 4 (.store (2 ^ 32 - 1)) []) = true ∧ Instr.wf .stepSeal = true := by decide +kernel

/-! ## Witnesses: the queue, words, control flow -/

/-- A guard that is false: not p0. -/
def wNo : PtiWord := { w7 with gneg := true }

/-- F32 needs its rounding field. -/
def wOf (op : PtiOp) : PtiWord := if op = .mmaF32 then { w7 with mod := 8 } else w7

theorem wit_StepFront : State.reset.pending = [] := rfl

theorem wit_StepKeepsCanon :
    Canon { run0 with pending := [.pwrEnMate] } ∧ ∃ t, step { run0 with pending := [.pwrEnMate] } = .next t :=
  ⟨canon_of (by decide +kernel), _, rfl⟩

theorem wit_ExecKeepsQueue : ∃ t, exec .pwrEnMate { run0 with pending := [.stepSeal] } = .next t := ⟨_, rfl⟩

theorem wit_PtiRoundTrip :
    ptiLegal .tagp { w0 with opa := 15, opd := 7, mod := 2, imm := -1 } = none ∧
    ptiDecode 0x1009_8000_0000_0000_0000_0004_0000_0005#128 =
      .ok (.syncAdd, { w0 with gneg := true, gpred := 1, mod := 0x8000, imm := 0x000400000005 }) := by
  exact ⟨by decide +kernel, rfl⟩

/-- The illegal words of R198: class 9, class 15; an operation that no table gives; a reserved bit; a MOD bit. -/
theorem wit_PtiWords :
    9 ≤ ((0x9000_0000_0000_0000_0000_0000_0000_0000#128).extractLsb' 124 4).toNat ∧
    9 ≤ ((-1 : BitVec 128).extractLsb' 124 4).toNat ∧
    ptiOpOf 0 0xFF = none ∧ ((0x0FF0_0000_0000_0000_0000_0000_0000_0000#128).extractLsb' 116 8).toNat = 0xFF ∧
    ptiOpOf 0 0 = some .nop ∧
    (0x0000_0000_0000_0000_0001_0000_0000_0000#128).extractLsb' 48 11 ≠ 0 ∧
    (0x0000_0000_0000_0000_0400_0000_0000_0000#128).extractLsb' 48 11 ≠ 0 ∧
    (0x0000_0002_0000_0000_0000_0000_0000_0000#128).extractLsb' 48 11 = 0 ∧
    (0x0000_0002_0000_0000_0000_0000_0000_0000#128).extractLsb' 96 16 &&& ~~~(ptiModMask .nop) ≠ 0 := by decide +kernel

/-- A sequencer at an illegal word. -/
def sIll : State := setSeq (wrBytes run0 0x1000 (leBytes 16 (2 ^ 128 - 1))) 0 q0

theorem wit_PtiIllegalHalts :
    sIll.tainted = [] ∧ seqLive sIll 0 = true ∧ ptiFetch sIll (seqAt sIll 0).pc = some (-1) ∧
    ptiDecode (-1) = .error .illegalClass :=
  ⟨rfl, by decide +kernel, by decide +kernel, rfl⟩

/-- A sequencer of MD0 at a word of MD3, which is out of service. -/
def sAway : State := setSeq { run0 with dies := 7 } 0 { q0 with pc := 0x1E000000000 }

theorem wit_PtiIllegalHalts_absent :
    sAway.tainted = [] ∧ seqLive sAway 0 = true ∧ accChk sAway (seqAt sAway 0).pc false = some .dieAbsent :=
  ⟨rfl, by decide +kernel, by decide +kernel⟩

/-- Every operation can issue: MOVE, CTL, SYNC and the engines' classes. -/
theorem wit_issues : ∀ x ∈ ctlRows ++ moveRows ++ syncRows ++ mmaRows ++ vecRows ++ xferRows ++ routeRows ++ updRows ++ chkRows,
    issues (atW x.2 (wOf x.2)) 0 x.2 (wOf x.2) := by
  have h : ∀ x ∈ ctlRows ++ moveRows ++ syncRows ++ mmaRows ++ vecRows ++ xferRows ++ routeRows ++ updRows ++ chkRows,
    issuesB (atW x.2 (wOf x.2)) 0 x.2 (wOf x.2) = true := by decide +kernel
  exact fun x hx => issues_of (h x hx)

theorem wit_ScalarInstructions :
    (∀ op ∈ ([.add, .sub, .mul, .andI, .orI, .xorI, .shl, .shr, .sar, .li, .lih, .mov, .bread, .cmp, .plog] : List PtiOp),
      issues (atW op { w7 with opd := 31, opa := 1, opb := 2, opc := 0 }) 0 op { w7 with opd := 31, opa := 1, opb := 2 } ∨
      issues (atW op { w7 with opd := 7, opa := 1, opb := 2 }) 0 op { w7 with opd := 7, opa := 1, opb := 2 }) := by
  have h : ∀ op ∈ ([.add, .sub, .mul, .andI, .orI, .xorI, .shl, .shr, .sar, .li, .lih, .mov, .bread, .cmp, .plog] : List PtiOp),
    issuesB (atW op { w7 with opd := 31, opa := 1, opb := 2, opc := 0 }) 0 op { w7 with opd := 31, opa := 1, opb := 2 } = true ∨
      issuesB (atW op { w7 with opd := 7, opa := 1, opb := 2 }) 0 op { w7 with opd := 7, opa := 1, opb := 2 } = true := by
    decide +kernel
  exact fun op ho => (h op ho).imp issues_of issues_of

theorem wit_ZeroRegisters :
    smWf (fun _ => (0 : DWord)) (putS (putS q0 31 5) 1 9).s = true ∧ (31 : Nat) < 32 ∧ (7 : Nat) < 8 ∧ (31 : Nat) ≠ 0 ∧
    (1 : Nat) ≠ 31 ∧ (6 : Nat) < 8 ∧ (6 : Nat) ≠ 7 := by decide +kernel

theorem wit_SelfDoneEffect : Canon (atW .nop w7) ∧ w7.sigv = true ∧ dieIn (atW .nop w7) 0 = true ∧ w7.sig.toNat < 4032 ∧
    4032 ≤ { w7 with sig := 4032 }.sig.toNat ∧ (1 : Nat) ≠ (0 : Fin 256).val ∧
    (4095 : Nat) < 4096 ∧ (4095 : Nat) ≠ w7.sig.toNat := ⟨canon_of (by decide +kernel), by decide +kernel⟩

theorem wit_FalseGuard :
    ∀ x ∈ ctlRows ++ moveRows ++ syncRows ++ mmaRows ++ vecRows ++ xferRows ++ routeRows ++ updRows ++ chkRows,
      skips (atW x.2 { wOf x.2 with gneg := true }) 0 x.2 { wOf x.2 with gneg := true } := by
  have h : ∀ x ∈ ctlRows ++ moveRows ++ syncRows ++ mmaRows ++ vecRows ++ xferRows ++ routeRows ++ updRows ++ chkRows,
      skipsB (atW x.2 { wOf x.2 with gneg := true }) 0 x.2 { wOf x.2 with gneg := true } = true := by decide +kernel
  exact fun x hx => skips_of (h x hx)

/-- Sequencer 0 with the call stack full but for its last level. -/
def x7 : Seq := { q0 with stack := [16, 16, 16, 16, 16, 16, 16] }

theorem wit_ControlFlow :
    issues (atW .jmp { w0 with imm := 0x1230 }) 0 .jmp { w0 with imm := 0x1230 } ∧
    (BitVec.toNat (0x1230 : BitVec 48)) % 16 = 0 ∧
    issues (atX run0 x7 .call { w0 with mod := 1, imm := -16 }) 0 .call { w0 with mod := 1, imm := -16 } ∧
    (BitVec.ofNat 48 0x1000 + (-16)).toNat % 16 = 0 ∧ x7.stack.length < 8 ∧
    issues (atX run0 x7 .ret w0) 0 .ret w0 ∧ (seqAt (atX run0 x7 .ret w0) 0).stack = 16 :: [16, 16, 16, 16, 16, 16] :=
  ⟨issues_of (by decide +kernel), by decide, issues_of (by decide +kernel), by decide, by decide, issues_of (by decide +kernel),
    by decide +kernel⟩

/-- BWAIT at beacon 5: the boundaries of what it does. -/
def sB (v : DWord) : State := atX { run0 with beacon := 5 } (putS q0 1 v) .bwait { w7 with opa := 1 }

/-- Sequencer 0 in a beacon wait that its target ends. -/
def sBw : State := setSeq run0 0 { q0 with st := .beaconWait, bwait := some ⟨0, some 7⟩ }

theorem wit_BeaconLaunch :
    (issuesB (sB 5) 0 .bwait { w7 with opa := 1 } = true ∧ issuesB (sB 6) 0 .bwait { w7 with opa := 1 } = true ∧ issuesB (sB (5 + 2 ^ 34)) 0 .bwait { w7 with opa := 1 } = true ∧ issuesB (sB (6 + 2 ^ 34)) 0 .bwait { w7 with opa := 1 } = true) ∧
    sreg (seqAt (sB 5) 0) 1 = 5 ∧ slipOfs (sB 5) 0 0 = 0 ∧ (sB 5).beacon = 5 ∧
    0 ≤ fld (sB 5) (.bcn 0) rBcnOvrTol 15 0 ∧
    sBw.tainted = [] ∧ (seqAt sBw 0).st = .beaconWait ∧ (seqAt sBw 0).bwait = some ⟨0, some 7⟩ ∧ 0 ≤ sBw.beacon ∧
    dieIn sBw 0 = true :=
  ⟨by decide +kernel, by decide +kernel, by decide +kernel, rfl, by decide +kernel, rfl, by decide +kernel, by decide +kernel,
    Nat.zero_le _, by decide +kernel⟩

/-! ## Witnesses: loads, sync objects -/

/-- A descriptor of 2 × 2 blocks of BF16 at 0x200000, with source 0x3000. -/
def d0 : Desc := { src := 0x3000, base := 0x200000, sb := 0, tensor := 1, fmt := Fmt.code .bf16, scaling := false, axis := false,
                   hint := 0, zpm := 0, rows := 64, cols := 64, scd := 0, zp := 0, kind := 0, fgroup := 0, est := 0, blk0 := 0 }

/-- s1 = 0x2000, s2 = 2, s4 = 0x2004, s5 beyond the fast tier's end, d1 valid. -/
def xL : Seq := putD (putS (putS (putS (putS qAgain 1 0x2000) 2 2) 4 0x2004) 5 0xEFFFFFFFFFC0) 1 (some d0)

/-- Operands of the loads. -/
def wL : PtiWord := { w7 with opd := 3, opa := 1, opb := 2 }
/-- TAGP on d1 with n in IMM. -/
def wT (n : BitVec 48) : PtiWord := { w7 with opd := 7, opa := 1, opb := 2, imm := n }

/-- At a load. -/
def sL (op : PtiOp) (w : PtiWord) : State := atX run0 xL op w

theorem wit_MemoryReadingInstructions :
    (issuesB (sL .lds wL) 0 .lds wL = true ∧
      accChk (atIssue (sL .lds wL) 0 wL) 0x2000 false = none ∧
      poisoned (sL .lds wL) (xlatPage (sL .lds wL) 0x2000) 64 = false ∧ (sreg (seqAt (sL .lds wL) 0) 1).toNat = 0x2000 ∧ issuesB (sL .dld wL) 0 .dld wL = true ∧
      accChk (atIssue (sL .dld wL) 0 wL) 0x2000 false = none ∧
      poisoned (sL .dld wL) (xlatPage (sL .dld wL) 0x2000) 64 = false ∧ (sreg (seqAt (sL .dld wL) 0) 1).toNat = 0x2000) ∧
    (issuesB (sL .tagp (wT 0)) 0 .tagp (wT 0) = true ∧ issuesB (sL .tagp (wT 1)) 0 .tagp (wT 1) = true ∧ issuesB (sL .tagp (wT 2)) 0 .tagp (wT 2) = true ∧ issuesB (sL .tagp (wT 3)) 0 .tagp (wT 3) = true ∧ issuesB (sL .tagp (wT 64)) 0 .tagp (wT 64) = true ∧ issuesB (sL .tagp (wT 65)) 0 .tagp (wT 65) = true) ∧
    dreg (seqAt (sL .tagp (wT 1)) 0) 1 = some d0 ∧ nBlocks d0 = 4 ∧ (sreg xL 2).toNat = 2 ∧
    issuesB (sL .tagp { wT 2 with opa := 0 }) 0 .tagp { wT 2 with opa := 0 } = true ∧ dreg xL 0 = none ∧
    (tagHdrs (seqCx (sL .tagp (wT 2)) 0) d0 [2, 3] (sL .tagp (wT 2)) []).2.1 = 0 ∧
    (issuesB (sL .ctrRd { w7 with imm := BitVec.ofNat 48 4 }) 0 .ctrRd
      { w7 with imm := BitVec.ofNat 48 4 } = true ∧ issuesB (sL .ctrRd { w7 with imm := BitVec.ofNat 48 (Blk.chk.base + rChkPrismRunsLo) }) 0 .ctrRd
      { w7 with imm := BitVec.ofNat 48 (Blk.chk.base + rChkPrismRunsLo) } = true) ∧
    ctrTarget 0 4 = none ∧ ctrTarget 0 (Blk.chk.base + rChkPrismRunsLo) = some (.chk, rChkPrismRunsLo) := by
  refine ⟨?_, ?_, ?_, ?_, ?_, ?_, ?_, ?_, ?_, ?_, ?_⟩ <;> decide +kernel

theorem wit_Store :
    Canon (sL .sts wL) ∧ issues (sL .sts wL) 0 .sts wL ∧ (sreg (seqAt (sL .sts wL) 0) 1).toNat % 8 = 0 ∧
    accChk (atIssue (sL .sts wL) 0 wL) 0x2000 true = none :=
  ⟨canon_of (by decide +kernel), issues_of (by decide +kernel), by decide +kernel, by decide +kernel⟩

theorem wit_PtiFrame :
    Canon (sL .add wL) ∧ (∃ t, exec (.add 0 wL) (sL .add wL) = .next t) ∧ Canon (sL .lds wL) ∧
    (∃ t, exec (.lds 0 wL) (sL .lds wL) = .next t) :=
  ⟨canon_of (by decide +kernel), ⟨_, rfl⟩, canon_of (by decide +kernel), ⟨_, rfl⟩⟩

theorem wit_ReachedRule : (2 ^ 31 - 1 : Nat) < 2 ^ 31 ∧ (0 : Nat) < 1 ∧ (2 ^ 31 : Nat) ≤ 2 ^ 31 := by decide

/-- Arm 63 of MD1 on object 4095, target 5. -/
def sArm : State :=
  setReg (setReg run0 (.sync 1) (0x10000 + 16 * 63) (0x80000000 ||| 4095)) (.sync 1) (0x10004 + 16 * 63) 5

theorem wit_ObjectPut :
    Canon sArm ∧ rbit sArm (.sync 1) (0x10000 + 16 * 63) 31 = true ∧ fld sArm (.sync 1) (0x10000 + 16 * 63) 11 0 = 4095 ∧
    reached 5 (regAt sArm (.sync 1) (0x10004 + 16 * 63)) = true ∧ rbit sArm (.sync 1) 0x10000 31 = false :=
  ⟨canon_of (by decide +kernel), by decide +kernel⟩

/-- IMM of a SYNC word: object 4031 with count 1, on MD k or module 1. -/
def immObj (o n : Nat) : BitVec 48 := BitVec.ofNat 48 (o + 2 ^ 34 * n)
def immDie (o n d : Nat) : BitVec 48 := BitVec.ofNat 48 (o + 2 ^ 34 * n + 2 ^ 12 + 2 ^ 13 * d)
def immRem (o n lc : Nat) : BitVec 48 := BitVec.ofNat 48 (o + 2 ^ 34 * n + 2 ^ 15 + 2 ^ 16 * lc)
/-- A SYNC word with an immediate count. -/
def wS (i : BitVec 48) : PtiWord := { w0 with mod := 0x8000, imm := i }
/-- The same with the count or value in s2. -/
def wSr (i : BitVec 48) : PtiWord := { w0 with opa := 2, imm := i }

/-- The module with logical coordinate 0, and an entry for module 1 in the bank in force. -/
def runLc : State :=
  let s := setReg run0 .coord rCoordLogical 0x80000000
  { s with xlat := { s.xlat with dim := 1, bank0 := [(0, 0x80000000), (1, 0x80000001)], bank1 := [(0, 0x80000000), (1, 0x80000001)] } }

/-- Sequencer 0 at a SYNC word there. -/
def sS (op : PtiOp) (w : PtiWord) : State := atX runLc xL op w

theorem wit_Signals :
    issues (sS .syncAdd (wS (immObj 4031 1))) 0 .syncAdd (wS (immObj 4031 1)) ∧
    issues (sS .syncSet (wSr (immObj 4031 0))) 0 .syncSet (wSr (immObj 4031 0)) ∧
    issues (sS .syncAdd (wSr (immDie 0 0 3))) 0 .syncAdd (wSr (immDie 0 0 3)) ∧
    issues (sS .syncSet (wSr (immDie 0 0 3))) 0 .syncSet (wSr (immDie 0 0 3)) ∧
    issues (sS .syncAdd (wS (immRem 0 16383 1))) 0 .syncAdd (wS (immRem 0 16383 1)) ∧
    syObj (wS (immObj 4031 1)) = 4031 ∧ dieIn (sS .syncAdd (wSr (immDie 0 0 3))) 3 = true ∧
    canSend (sS .syncAdd (wS (immRem 0 16383 1))) 1 = true ∧ wImmf (wS (immObj 4031 1)) = true ∧
    (sreg (seqAt (sS .syncAdd (wSr (immDie 0 0 3))) 0) 2).toNat % 2 ^ 31 = 2 :=
  ⟨issues_of (by decide +kernel), issues_of (by decide +kernel), issues_of (by decide +kernel), issues_of (by decide +kernel),
    issues_of (by decide +kernel), by decide +kernel⟩

/-- WAIT words: object 9, target t by immediate; object 9, target s2 and timeout s3 by register. -/
def wWi (t : Nat) : PtiWord := { w0 with opd := 7, mod := 0x8000, imm := BitVec.ofNat 48 (9 + 4096 * t) }
def wWr : PtiWord := { w0 with opd := 7, opa := 2, opb := 6, imm := 9 }
/-- s6 holds a timeout. -/
def sW (op : PtiOp) (w : PtiWord) (tmo : DWord) : State := atX run0 (putS xL 6 tmo) op w
/-- Sequencer 0 in a wait for object 9 to reach 1, until beacon 0; and one for a target already reached. -/
def iW (t : Word) : WaitInfo := { obj := 9, target := t, pd := 7, deadline := some 0, timed := true }
def sWt (t : Word) : State := setSeq run0 0 { q0 with st := .syncWait, wait := some (iW t) }

theorem wit_WaitsAndTheirEnds :
    issuesB (sW .wait (wWi 0) 0) 0 .wait (wWi 0) = true ∧ reached (objVal (sW .wait (wWi 0) 0) 0 9) 0 = true ∧
    issuesB (sW .wait (wWi 1) 0) 0 .wait (wWi 1) = true ∧ reached (objVal (sW .wait (wWi 1) 0) 0 9) 1 = false ∧
    (issuesB (sW .waitTo wWr 0) 0 .waitTo wWr = true ∧
      sreg (seqAt (sW .waitTo wWr 0) 0) 6 = 0 ∧ issuesB (sW .waitTo wWr 1) 0 .waitTo wWr = true ∧
      sreg (seqAt (sW .waitTo wWr 1) 0) 6 = 1 ∧ issuesB (sW .waitTo wWr (2 ^ 34)) 0 .waitTo wWr = true ∧
      sreg (seqAt (sW .waitTo wWr (2 ^ 34)) 0) 6 = (2 ^ 34) ∧ issuesB (sW .waitTo wWr (2 ^ 34 + 1)) 0 .waitTo wWr = true ∧
      sreg (seqAt (sW .waitTo wWr (2 ^ 34 + 1)) 0) 6 = (2 ^ 34 + 1)) ∧
    reached 0 (sreg xL 0).toNat = true ∧ reached 0 2 = false ∧
    issuesB (sW .waitTo { wWr with opa := 0 } 1) 0 .waitTo { wWr with opa := 0 } = true ∧
    issuesB (sW .syncRd wWr 0) 0 .syncRd wWr = true ∧
    (sWt 0).tainted = [] ∧ (seqAt (sWt 0) 0).st = .syncWait ∧ (seqAt (sWt 0) 0).wait = some (iW 0) ∧
    reached (objVal (sWt 0) 0 9) 0 = true ∧ (seqAt (sWt 1) 0).wait = some (iW 1) ∧ reached (objVal (sWt 1) 0 9) 1 = false ∧
    (iW 1).deadline = some 0 ∧ (iW 1).pd ≠ 0 ∧ dieIn (sWt 0) 0 = true := by
  refine ⟨?_, ?_, ?_, ?_, ?_, ?_, ?_, ?_, ?_, ?_, ?_, ?_, ?_, ?_, ?_, ?_, ?_, ?_⟩ <;> decide +kernel

/-! ## Witnesses: refusals, engines -/

/-- An instruction of sequencer 0 in an engine's queue, with d1 for every descriptor. -/
def mkO (op : PtiOp) (e : Eng) (w : PtiWord) : EngOp :=
  { no := 0, q := 0, eng := e, op := op, w := w, step := 0, pc := 0x1000, dd := some d0, da := some d0, db := some d0,
    dc := some d0, sa := 0, sb := 0, sc := 0, phase := .queued, status := 0, fin := 0 }

/-- The same with another number. -/
def oNo (o : EngOp) (n : Nat) : EngOp := { o with no := n }

/-- Engine words: d1 for every descriptor, object 7, engine t. -/
def wE (t : BitVec 3) : PtiWord := { w7 with opd := 1, opa := 1, opb := 1, opc := 1, tgt := t.setWidth _ }

/-- F32 with its pass count. -/
def wEo (op : PtiOp) (t : BitVec 3) : PtiWord := if op = .mmaF32 then { wE t with mod := 8 } else wE t

/-- Sequencer 0 at an engine word, with these instructions queued. -/
def sE (op : PtiOp) (w : PtiWord) (l : List EngOp) : State := { atX run0 xL op w with ops := l }

/-- The module with the page map of unit 0 of region 0 empty. -/
def noUnit : State := setReg run0 (rgnBlk 0) rRgnUnitmap 127

/-- JMP to a misaligned target; a CALL within a full stack. -/
def wJ : PtiWord := { w7 with imm := 8 }
def x8 : Seq := { q0 with stack := [16, 16, 16, 16, 16, 16, 16, 16] }

theorem wit_PtiRefusals_control :
    issuesB (atW .jmp wJ) 0 .jmp wJ = true ∧ wJ.imm.toNat % 16 ≠ 0 ∧ issuesB (atX run0 x8 .call w7) 0 .call w7 = true ∧
    8 ≤ x8.stack.length ∧ issuesB (atW .call wJ) 0 .call wJ = true ∧ issuesB (atW .ret w7) 0 .ret w7 = true ∧
    (seqAt (atW .ret w7) 0).stack = [] := by
  refine ⟨?_, ?_, ?_, ?_, ?_, ?_, ?_⟩ <;> decide +kernel

theorem wit_PtiRefusals_access :
    (issuesB (sL .lds { wL with opa := 4 }) 0 .lds { wL with opa := 4 } = true ∧
      issuesB (sL .lds { wL with opa := 5 }) 0 .lds { wL with opa := 5 } = true ∧ issuesB (sL .sts { wL with opa := 4 }) 0 .sts { wL with opa := 4 } = true ∧
      issuesB (sL .sts { wL with opa := 5 }) 0 .sts { wL with opa := 5 } = true ∧ issuesB (sL .dld { wL with opa := 4 }) 0 .dld { wL with opa := 4 } = true ∧
      issuesB (sL .dld { wL with opa := 5 }) 0 .dld { wL with opa := 5 } = true) ∧
    (sreg xL 4).toNat % 8 ≠ 0 ∧ (sreg xL 4).toNat % 64 ≠ 0 ∧ (sreg xL 5).toNat % 64 = 0 ∧
    accChk (sL .lds { wL with opa := 5 }) (sreg xL 5).toNat false = some .addr ∧
    accChk (sL .sts { wL with opa := 5 }) (sreg xL 5).toNat true = some .addr := by
  refine ⟨?_, ?_, ?_, ?_, ?_, ?_⟩ <;> decide +kernel

/-- MD3 out of service. -/
def sAbs (op : PtiOp) (w : PtiWord) : State := { sS op w with dies := 7 }

theorem wit_PtiRefusals_signals :
    (issuesB (sS .syncAdd (wSr (immObj 4032 0))) 0 .syncAdd (wSr (immObj 4032 0)) = true ∧
      issuesB (sS .syncAdd (wSr (immObj 4095 0))) 0 .syncAdd (wSr (immObj 4095 0)) = true ∧
      issuesB (sAbs .syncAdd (wSr (immDie 0 0 3))) 0 .syncAdd (wSr (immDie 0 0 3)) = true ∧ issuesB (sS .syncSet (wSr (immObj 4032 0))) 0 .syncSet (wSr (immObj 4032 0)) = true ∧
      issuesB (sS .syncSet (wSr (immObj 4095 0))) 0 .syncSet (wSr (immObj 4095 0)) = true ∧
      issuesB (sAbs .syncSet (wSr (immDie 0 0 3))) 0 .syncSet (wSr (immDie 0 0 3)) = true) ∧
    syObj (wSr (immObj 4032 0)) = 4032 ∧ dieIn (sAbs .syncAdd (wSr (immDie 0 0 3))) 3 = false ∧
    issuesB (sS .syncAdd (wS (immObj 9 0))) 0 .syncAdd (wS (immObj 9 0)) = true ∧
    (wS (immObj 9 0)).imm.toNat / 2 ^ 34 = 0 ∧
    issuesB (sS .syncSet (wSr (immRem 9 0 1))) 0 .syncSet (wSr (immRem 9 0 1)) = true ∧
    issuesB (sS .syncAdd (wS (immRem 9 1 63))) 0 .syncAdd (wS (immRem 9 1 63)) = true ∧
    canSend (sS .syncAdd (wS (immRem 9 1 63))) 63 = false := by
  refine ⟨?_, ?_, ?_, ?_, ?_, ?_, ?_, ?_⟩ <;> decide +kernel

theorem wit_PtiRefusals_issue :
    (issuesB (sE .mmaFp4 (wEo .mmaFp4 5) []) 0 .mmaFp4 (wEo .mmaFp4 5) = true ∧
      issuesB { sE .mmaFp4 (wEo .mmaFp4 4) [] with gangReq := [0] } 0 .mmaFp4 (wEo .mmaFp4 4) = true ∧ issuesB (sE .mmaF32 (wEo .mmaF32 5) []) 0 .mmaF32 (wEo .mmaF32 5) = true ∧
      issuesB { sE .mmaF32 (wEo .mmaF32 4) [] with gangReq := [0] } 0 .mmaF32 (wEo .mmaF32 4) = true) ∧
    (issuesB (sE .xferMcast (wE 4) []) 0 .xferMcast (wE 4) = true ∧ issuesB (sE .xferZero (wE 4) []) 0 .xferZero (wE 4) = true ∧ issuesB (sE .xferPref (wE 4) []) 0 .xferPref (wE 4) = true) ∧
    (wE 5).tgt.toNat = 5 := by
  refine ⟨?_, ?_, ?_⟩ <;> decide +kernel

/-- M, N and K by immediate. -/
def wM (m n k : Nat) : PtiWord := { wE 0 with imm := BitVec.ofNat 48 (m + 2 ^ 10 * n + 2 ^ 19 * k) }

theorem wit_PtiRefusals_mma :
    opDescBad (mkO .mmaBf16 (.mma 0 4) (wE 4)) = false ∧ fmtOf d0.fmt = some .bf16 ∧ gangNow run0 0 = 0 ∧
    gangNow (setFld run0 (.clu 0) rCluGangNow 1 0 1) 0 ≠ 0 ∧
    mmaUnits noUnit 0 0 = false ∧ mmaUnits run0 0 0 = true ∧ mmaUnits run0 0 4 = true ∧
    (mmaDims (wM 513 1 1) 0 d0 d0).1 = 513 ∧ (mmaDims (wM 1 65 1) 0 d0 d0).2.1 = mmaWidth 0 0 + 1 ∧
    (mmaDims (wM 1 1 65537) 0 d0 d0).2.2 = 65537 ∧ (mmaDims (wM 0 0 0) 64 d0 d0).1 = 0 := by
  refine ⟨?_, ?_, ?_, ?_, ?_, ?_, ?_, ?_, ?_, ?_, ?_⟩ <;> decide +kernel

/-- Queues of the engines of sequencer 0 with n instructions of NOP's shape. -/
def qs (e : Eng) (n : Nat) : List EngOp := (List.range n).map (oNo (mkO .vecAdd e w7))

/-- Operations of a class issue with their queue one short of full, and with it full. -/
def canIssue (ops : List PtiOp) (e : Eng) (n : Nat) (t : BitVec 3) : Bool :=
  ops.all (fun op => issuesB (sE op (wEo op t) (qs e (n - 1))) 0 op (wEo op t) && issuesB (sE op (wEo op t) (qs e n)) 0 op (wEo op t))

theorem wit_TransferIssue :
    canIssue (mmaRows.map (·.2)) (.mma 0 4) 4 4 = true ∧ canIssue (.chkFold :: vecRows.map (·.2)) (.vec 0) 8 0 = true ∧
    canIssue (xferRows.map (·.2)) (.dma 0 3) 4 3 = true ∧ canIssue (routeRows.map (·.2)) (.route 0) 2 0 = true ∧
    (engQueue (sE .mmaFp4 (wE 4) (qs (.mma 0 4) 3)) (.mma 0 4) 0).length = 3 ∧
    (engQueue (sE .mmaFp4 (wE 4) (qs (.mma 0 4) 4)) (.mma 0 4) 0).length = 4 ∧
    (engQueue (sE .vecAdd (wE 0) (qs (.vec 0) 7)) (.vec 0) 0).length = 7 ∧
    (engQueue (sE .vecAdd (wE 0) (qs (.vec 0) 8)) (.vec 0) 0).length = 8 ∧
    (engQueue (sE .xferCopy (wE 3) (qs (.dma 0 3) 3)) (.dma 0 3) 0).length = 3 ∧
    (engQueue (sE .xferZero (wE 3) (qs (.dma 0 3) 4)) (.dma 0 3) 0).length = 4 ∧
    (engQueue (sE .gate (wE 0) (qs (.route 0) 1)) (.route 0) 0).length = 1 := by
  refine ⟨?_, ?_, ?_, ?_, ?_, ?_, ?_, ?_, ?_, ?_, ?_⟩ <;> decide +kernel

/-- Step 1 as it opens. -/
def rec1 : StepRec :=
  { n := 1, st := .open, declared := false, vote := 0, latched := none, ored := none, digest := none, peers := [], ndet := false,
    ls := 16, lsJ := none, replay := false, cause := 0, cmds := [], satSeen := false, updDone := 0, reflHave := false,
    members := [0], rank := 0, voted := false }

/-- The module in step 1. -/
def run1 : State := { run0 with steps := [rec1], openN := 1 }

/-- A parameter tensor in FP32. -/
def dP : Desc := { d0 with fmt := Fmt.code .fp32 }

/-- Sequencer 0 in step 1 at an UPD of the parameters d2 with moments and gradient d1, recipe 0. -/
def sU (op : PtiOp) (w : PtiWord) (l : List EngOp) : State :=
  { atX run1 { putD xL 2 (some dP) with step := 1 } op w with ops := l }

/-- UPD words. -/
def wU : PtiWord := { w7 with opd := 2, opa := 1, opb := 1, opc := 1 }

theorem wit_CheckAndUpdateIssue :
    (Canon (sE .chkVerify (wE 7) (qs (.vec 0) 7)) ∧
      issues (sE .chkVerify (wE 7) (qs (.vec 0) 7)) 0 .chkVerify (wE 7) ∧ Canon (sE .chkCmp (wE 7) (qs (.vec 0) 7)) ∧
      issues (sE .chkCmp (wE 7) (qs (.vec 0) 7)) 0 .chkCmp (wE 7)) ∧
    (engQueue (sE .chkCmp (wE 7) (qs (.vec 0) 7)) (.vec 0) 0).length = 7 := by
  refine ⟨⟨canon_of ?_, issues_of ?_, canon_of ?_, issues_of ?_⟩, ?_⟩ <;> decide +kernel

theorem wit_CheckAndUpdateIssue_upd :
    (issuesB (sU .updAdam wU []) 0 .updAdam wU = true ∧
      updIssueStat (sU .updAdam wU []) (mkOp (sU .updAdam wU []) 0 (.upd 0 0) .updAdam wU) = 0 ∧ issuesB (sU .updSgdm wU []) 0 .updSgdm wU = true ∧
      updIssueStat (sU .updSgdm wU []) (mkOp (sU .updSgdm wU []) 0 (.upd 0 0) .updSgdm wU) = 0 ∧ issuesB (sU .updSignm wU []) 0 .updSignm wU = true ∧
      updIssueStat (sU .updSignm wU []) (mkOp (sU .updSignm wU []) 0 (.upd 0 0) .updSignm wU) = 0) ∧
    updFull (sU .updAdam wU (qs (.upd 0 0) 1)) 0 0 0 = false ∧ updFull (sU .updAdam wU (qs (.upd 0 0) 2)) 0 0 0 = true ∧
    issuesB (sE .updAdam wU []) 0 .updAdam wU = true ∧
    updIssueStat (sE .updAdam wU []) (mkOp (sE .updAdam wU []) 0 (.upd 0 0) .updAdam wU) ≠ 0 := by
  refine ⟨?_, ?_, ?_, ?_, ?_⟩ <;> decide +kernel

theorem wit_CompletionEffect :
    Canon (sE .xferMcast (wE 0) [mkO .xferMcast (.dma 0 0) (wE 0)]) ∧ (sE .xferMcast (wE 0) []).sigs = [] ∧ (0x14 : Nat) < 256 ∧
    (wE 0).sigv = true ∧ (wE 0).sig.toNat < 4032 ∧ dieIn run0 0 = true ∧ (0x14 : Nat) ≠ 0 ∧ fld run0 (.clu 0) rCluSeqErr 31 24 = 0 ∧ statusEv 0x14 ≠ none ∧
    statusEv 0x01 = some .descInvalid :=
  ⟨canon_of (by decide +kernel), by decide +kernel⟩

/-- An engine with one instruction. -/
def sOp (o : EngOp) : State := { run0 with ops := [o] }

theorem wit_EngineCompletes :
    engPick (sOp (mkO .vecAdd (.vec 0) w7)) (.vec 0) (fun _ => true) = some (mkO .vecAdd (.vec 0) w7) ∧
    engPick (sOp (mkO .mmaBf16 (.mma 0 4) w7)) (.mma 0 4) (mmaMay (sOp (mkO .mmaBf16 (.mma 0 4) w7)) 0 4) =
      some (mkO .mmaBf16 (.mma 0 4) w7) ∧
    engPick (sOp (mkO .xferZero (.dma 0 3) w7)) (.dma 0 3) (xferMay (sOp (mkO .xferZero (.dma 0 3) w7))) =
      some (mkO .xferZero (.dma 0 3) w7) ∧
    engPick (sOp { mkO .xferCopy (.dma 0 3) w7 with phase := .sent, status := 4 }) (.dma 0 3)
      (xferMay (sOp { mkO .xferCopy (.dma 0 3) w7 with phase := .sent, status := 4 })) =
      some { mkO .xferCopy (.dma 0 3) w7 with phase := .sent, status := 4 } ∧
    engPick (sOp (mkO .gate (.route 0) w7)) (.route 0) (routeMay (sOp (mkO .gate (.route 0) w7))) =
      some (mkO .gate (.route 0) w7) := by
  refine ⟨?_, ?_, ?_, ?_, ?_⟩ <;> decide +kernel

/-- No free spare in region 0; member 1 has an instruction issued before that of member 0, whose share failed once. -/
def abf0 : AbftFail := { mem := 0, pass := 0, tile := 0, wave := 0, kind := 0, idx := 0, obs := 0, temp := 0, volt := 0 }
def sNoSpare : State :=
  let s := { run0 with ops := [mkO .mmaBf16 (.mma 0 1) w7, oNo (mkO .mmaBf16 (.mma 0 0) w7) 1] }
  [64, 65].foldl (fun t u => setUnit t 0 u { unitAt t 0 u with eclipsed := true }) s

theorem wit_EngineCompletes_waits :
    engPick sNoSpare (.mma 0 0) (mmaMay sNoSpare 0 0) = some (oNo (mkO .mmaBf16 (.mma 0 0) w7) 1) ∧
    rerunWaits sNoSpare (oNo (mkO .mmaBf16 (.mma 0 0) w7) 1) 0
      (mmaFails (oNo (mkO .mmaBf16 (.mma 0 0) w7) 1) 0 ⟨[], 0, [abf0]⟩) = true := by
  refine ⟨?_, ?_⟩ <;> decide +kernel

/-- An UPD of step 1, sealed. -/
def oU : EngOp := { mkO .updAdam (.upd 0 0) wU with step := 1 }
def sSeal (o : EngOp) : State := { run1 with steps := [{ rec1 with st := .sealed }], ops := [o] }

/-- A collective that is refused, and a barrier that has ended. -/
def cl0 : Coll :=
  { no := 0, q := 0, step := 0, op := 5, red := 0, sparse := false, satm := false, rnd := 0, members := [0], rank := 0, root := 0,
    collid := 0, first := 0, nblk := 0, sd := d0, dd := d0, fin := [], parts := [], sent := [], passes := 2, status := 0,
    fold := none }
def oC : EngOp := { mkO .xferColl (.dma 0 0) w7 with phase := .sent, status := 4 }

theorem wit_GangUpdateCollective :
    mmaIdle { run0 with gangReq := [3] } 3 = true ∧
    engPick (sSeal oU) (.upd 0 0) (fun p => decide (p.phase = .queued) && stepSealed (sSeal oU) p.step &&
      !updBehind (sSeal oU) p && !(sSeal oU).updWait.contains p.no) = some oU ∧
    engPick { sSeal oU with updWait := [0] } (.upd 0 0)
      (fun p => decide (p.phase = .queued) && [0].contains p.no) = some oU ∧
    engPick (sSeal { oU with phase := .done }) (.upd 0 0) (fun p => decide (p.phase = .done)) = some { oU with phase := .done } ∧
    collRefused (sOp oC) = some oC ∧ collEnded { sOp oC with colls := [{ cl0 with status := 4 }] } { cl0 with status := 4 } = true ∧
    (sOp oC).ops.find? (fun p => decide (p.no = cl0.no)) = some oC := by
  refine ⟨?_, ?_, ?_, ?_, ?_, ?_, ?_⟩ <;> decide +kernel

theorem wit_RoundRobin :
    engPick { run0 with ops := [mkO .gate (.route 0) w7, { mkO .gate (.route 0) w7 with no := 1, q := 63 }] } (.route 0)
      (fun _ => true) = some { mkO .gate (.route 0) w7 with no := 1, q := 63 } := by decide +kernel

/-! ## Witnesses: registers, memory controllers -/

/-- The management core that writes. -/
def pM : Path := .mgmt 0

theorem wit_RegisterWrite :
    writes run0 pM .hub rHubDrainLim 60000 ∧ mbRowed (Blk.hub.base + rHubDrainLim) 60000 = false ∧
    directWrite .hub rHubDrainLim 60000 run0 = none ∧ writeIgnored run0 .hub rHubDrainLim 60000 = false ∧
    isChecked run0 .hub rHubDrainLim = false ∧
    (BitVec.ofNat 44 (Blk.hub.base + rHubDrainLim)).toNat = Blk.hub.base + rHubDrainLim :=
  ⟨writes_of (by decide +kernel), by decide +kernel, rfl, by decide +kernel, by decide +kernel, by decide +kernel⟩

theorem wit_RegisterFields :
    Canon run0 ∧ (∀ f ∈ fieldsAt .hub rHubDrainLim, f.lo ≤ f.hi ∧ f.hi < 32) ∧ quiet run0 .hub rHubDrainLim 0xFFFF = true ∧
    (∃ f ∈ fieldsAt .hub rHubDrainLim, f.acc = .rw ∧ f.lo ≤ 15 ∧ 15 ≤ f.hi) ∧
    quiet run0 (.sync 0) 0x1100C 0x7F = true ∧
    (∀ f ∈ fieldsAt (.sync 0) 0x1100C, f.lo ≤ 6 → 6 ≤ f.hi → f.acc = .ro ∨ f.acc = .rc ∨ f.acc = .wo) :=
  ⟨canon_of (by decide +kernel), by decide +kernel, by decide +kernel, by decide +kernel, by decide +kernel, by decide +kernel⟩

theorem wit_RegisterFields_locked :
    changes (fieldsAt .sec rSecPolicy) .rwl 0 0xFF = true ∧
    (∃ f ∈ fieldsAt .sec rSecPolicy, f.acc = .rwl ∧ ∀ g ∈ fieldsAt .sec rSecPolicy, g.lo ≤ g.hi ∧
      (g.acc = .rw ∨ g.acc = .live → g.hi < f.lo ∨ f.hi < g.lo)) := by decide +kernel

theorem wit_TaintedBlocks :
    changes (fieldsAt .hub rHubDrainLim) .live 500 0x101F4 = true ∧ writeBlks run0 (Blk.hub.base + rHubDrainLim) 1 = [.hub] ∧
    Blk.hub ∈ { run0 with tainted := [.hub] }.tainted := by decide +kernel

/-- Registers whose write has a row of its own, with the word of the row. -/
def rowWrites : List (Blk × Nat × Nat) :=
  [(.clu 0, rCluApply, 1), (.clu 255, rCluApply, 1), (.rgn 3 3, rRgnApply, 1), (.route 3, rRouteApply, 1), (.mig, rMigApply, 1),
   (.lnk 5, rLnkApply, 1), (.chk, rChkApply, 1), (.ckpt, rCkptApply, 1), (.scl, rSclApply, 1), (.scl, rSclApply, 2),
   (.xlat, rXlatApply, 1), (.hub, rHubResilApply, 1), (.hub, rHubStepApply, 1), (.hlth, rHlthApply, 1), (.cwt, rCwtApply, 1),
   (.clu 0, rCluSeqCtl, 1), (.clu 0, rCluSeqCtl, 0), (.upd, rUpdApply, 31), (.rgn 0 0, rRgnCacheCtl, 0x100),
   (.hc 31, rHcCtl, 1), (.lpc 47, rHcCtl, 1), (.hc 0, tgBase 15 + rTgCtl, 1), (.lnk 0, rLnkCtl, 5), (.chk, rChkFoldStatus, 4),
   (.ckpt, rCkptReq, 7), (.ckpt, rCkptRstCtl, 1), (.ckpt, rCkptRstCtl, 4), (.evt, rEvtClr, 1), (.bcn 3, 0x40 + 8 * 15, 0),
   (.bcn 3, 0x40 + 8 * 15, 1), (.xlat, rXlatData, 0x80000001), (.sync 3, 16 * 4031, 5), (.sync 3, 16 * 4095, 5),
   (.sync 0, 16 * 4031 + 4, 2 ^ 31 - 1), (.sync 0, 16 * 4031 + 4, 2 ^ 31), (.sync 0, 16 * 4032 + 4, 1),
   (.sync 0, rSyncArmCtl + 16 * 63, 0x80000FFF), (.sync 0, rSyncArmTgt + 16 * 63, 5), (.hub, rHubStepCmd, 1),
   (.hub, rHubStepCmd, 2), (.hub, rHubStepCmd, 3), (.pwr, rPwrReq, 4), (.pwr, rPwrReset, 1), (.pwr, rPwrReset, 2),
   (.pwr, rPwrReset, 4), (.pwr, rPwrReset, 32), (.pwr, rPwrWdog, 1), (.pwr, rPwrWdog, 0), (.sec, rSecMbCmd, 0x2001),
   (.sec, rSecMbCmd + 0x2000, 0x20), (.sec, rSecMbCmd, 2), (.sec, rSecMbCmd, 3), (.sec, rSecMbCmd, 4), (.sec, rSecMbCmd, 16),
   (.sec, rSecMbCmd, 17), (.sec, rSecMbCmd, 0x30)]

/-- Every row that writes a register can be written. -/
theorem wit_writes : ∀ x ∈ rowWrites, writes run0 pM x.1 x.2.1 x.2.2 := by
  have h : rowWrites.all (fun x => writesB run0 pM x.1 x.2.1 x.2.2) = true := by decide +kernel
  exact fun x hx => writes_of (List.all_eq_true.mp h x hx)

/-- A table in memory is within reach, and an empty one too; XLAT_DATA is no table. -/
theorem wit_ApplyRegisters :
    bitAt 1 0 = true ∧ (.clu 0, rCluApply, 1) ∈ rowWrites ∧
    tblBad (setReg run0 (.route 3) rRouteOwnerCount 4096) 0 (64 * 4096) = none ∧ tblBad run0 0 0 = none ∧ tblBad run0 0 (64 * 16) = none ∧
    run0.mig.fly = [] ∧ tblsBad run0 (grpLists run0 0 2) = none ∧ run0.openN = run0.commitN ∧ run1.openN ≠ run1.commitN ∧
    run0.sess = none :=
  ⟨by decide +kernel, by decide +kernel, by decide +kernel, by decide +kernel, by decide +kernel, rfl, by decide +kernel, rfl,
    by decide, rfl⟩

/-- Sequencer 0 with RUN set. -/
def sRun : State := setReg run0 (.clu 0) rCluSeqCtl 1

/-- A restore that is READY. -/
def rst0 : Rst := { want := 0, needFold := false, job := 0, trust := [], sinks := [], staged := [], ready := true, step := 3 }

theorem wit_RegisterActions :
    rbit (wroteReg run0 (.clu 0) rCluSeqCtl 1) (.clu 0) rCluSeqCtl 0 = true ∧ bitAt (regShow run0 (.clu 0) rCluSeqCtl).toNat 0 = false ∧
    (seqAt run0 0).st = .stopped ∧
    writesB (setSeq sRun 0 q0) pM (.clu 0) rCluSeqCtl 0 = true ∧
    rbit (wroteReg sRun (.clu 0) rCluSeqCtl 0) (.clu 0) rCluSeqCtl 0 = false ∧ bitAt (regShow sRun (.clu 0) rCluSeqCtl).toNat 0 = true ∧
    (seqAt (setSeq sRun 0 q0) 0).st = .running ∧ writesB sRun pM (.clu 0) rCluSeqCtl 1 = true ∧
    run0.steps = [] ∧ writesB { run0 with rst := some rst0 } pM .ckpt rCkptRstCtl 4 = true ∧ rst0.ready = true ∧
    locate 0 = some (.sync 0, 0) ∧ snapBufOk run0 0 (snapBytes run0 (.sync 0)).length = true ∧
    (regAt run0 .evt rEvtClrBlock).toNat = 0 := by
  refine ⟨?_, ?_, ?_, ?_, ?_, ?_, ?_, ?_, ?_, ?_, ?_, ?_, ?_, ?_⟩ <;> decide +kernel

theorem wit_SyncRegisters :
    (.sync 3, 16 * 4031, 5) ∈ rowWrites ∧ (.sync 3, 16 * 4095, 5) ∈ rowWrites ∧ (.sync 0, 16 * 4031 + 4, 2 ^ 31 - 1) ∈ rowWrites ∧
    (.sync 0, 16 * 4031 + 4, 2 ^ 31) ∈ rowWrites ∧ (.sync 0, 16 * 4032 + 4, 1) ∈ rowWrites ∧
    (.sync 0, rSyncArmTgt + 16 * 63, 5) ∈ rowWrites ∧ (2 ^ 31 - 1 : Nat) < 2 ^ 31 := by decide +kernel

/-- Core 0 of MD0, and the register offset of SYNC_ARM_TGT of arm 0. -/
def pC : Path := .core 0 0

theorem wit_RegisterReads :
    run0.tainted = [] ∧ pathUp run0 pM = true ∧
    mayRead pM (Blk.chk.base + rChkPrismRunsLo) = true ∧
    regHit run0 (Blk.chk.base + rChkPrismRunsLo) = (run0, some (.chk, rChkPrismRunsLo)) ∧ isCtrLo .chk rChkPrismRunsLo = true ∧
    regHit run0 (Blk.clu 0).base = (run0, some (.clu 0, 0)) ∧ isCtrLo (.clu 0) 0 = false ∧ (0 : Nat) < 4 ∧
    regHit run0 (Blk.xlat.base + rXlatData) = (run0, some (.xlat, rXlatData)) ∧ mayRead pM (Blk.xlat.base + rXlatData) = true ∧
    mayRead pC (Blk.sec.base) = false ∧ pathUp run0 pC = true := by
  refine ⟨?_, ?_, ?_, ?_, ?_, ?_, ?_, ?_, ?_, ?_, ?_, ?_⟩ <;> decide +kernel

theorem wit_RegisterReads_core :
    pathUp run0 pC = true ∧ ((64 : Fin 65).val ≠ 0) ∧ (0x2000 : Nat) < 0xF00000000000 ∧
    coreErr run0 pC 0x2000 64 .load = none ∧ coreErr run0 pC 0x2000 8 (.store 5) = none ∧ coreErr run0 pC 0x2000 8 .lr = none ∧
    coreErr run0 pC 0x2000 4 (.sc 5) = none ∧ coreErr run0 pC 0x2000 4 (.amo .maxu 5) = none ∧
    corePoison run0 0x2000 8 .lr = false ∧ corePoison run0 0x2000 64 .load = false ∧
    (pC, xlatPage run0 0x2000 / 64) ∈ { run0 with resv := [(pC, 0x80)] }.resv ∧ (pC, xlatPage run0 0x2000 / 64) ∉ run0.resv ∧
    coreErr run0 pC 0x2004 8 (.amo .maxu 5) = some .align ∧ (BitVec.ofNat 56 0x2000).toNat = 0x2000 := by
  refine ⟨?_, ?_, ?_, ?_, ?_, ?_, ?_, ?_, ?_, ?_, ?_, ?_, ?_, ?_⟩ <;> decide +kernel

theorem wit_MemoryUpkeep :
    run0.tainted = [] ∧ ctrlOf run0 0 = some (.hc 0) ∧ ctrlFitted run0 (.hc 0) = true ∧ ctrlFitted run0 (ctrlBlk (.lpc 47)) = true ∧
    ctrlFitted run0 (ctrlBlk (.hc 31)) = true ∧ (smGet (fun _ => CeRate.reset) run0.ceRate (ctrlKey (ctrlBlk (.hc 31)))).next ≤
      { run0 with beacon := 12000000000 }.beacon ∧
    (smGet (fun _ => Thr.reset) run0.thr 0).next ≤ { run0 with beacon := 12000000000 }.beacon ∧ (47 : Fin 48).val < npkg run0 ∧
    (Thr.reset.level ≠ { Thr.reset with sent := 1 }.sent ∧ (0 : Nat) < 0 + btSec ∧ CeRate.reset.quiet = false ∧
      ceThresh run0 (.hc 31) < ceSum { CeRate.reset with buckets := [100000] }) ∧
    (85 : Nat) < 95 ∧ stackLevel 95 0 100 = 3 ∧ stackLevel 95 2 99 = 2 ∧ stackLevel 95 2 95 = 2 ∧ stackLevel 95 1 94 = 1 ∧
    stackLevel 95 1 85 = 1 ∧ stackLevel 95 0 84 = 0 ∧ stackLevel 95 3 81 = 0 := by decide +kernel

/-- HC0 in TEST mode, with a busy generator. -/
def sTest : State :=
  setFld (setFld (setFld run0 (.hc 0) rHcCtl 1 0 1) (.hc 0) rHcStatus 7 7 1) (.hc 0) (tgBase 15 + rTgStatus) 1 1 1

/-- MIG with its order 0 asked for. -/
def sMig : State := { run0 with mig := { Mig.reset with applied := true, obj := 9 }, objs := [(9, 1)] }
def oMig : MigOrd := { k := 0, src := 0, dst := 0, srcSb := 0, dstSb := 0, count := 0, raw := true, msb := 0, sig := 9, status := 0 }

theorem wit_TestAndMigration :
    ctrlFitted sTest (ctrlBlk (.hc 0)) = true ∧ fld sTest (.hc 0) rHcCtl 1 0 = 1 ∧ (15 : Fin 16).val < (Blk.hc 0).tgChannels ∧
    rbit sTest (.hc 0) (tgBase 15 + rTgStatus) 1 = true ∧ rbit sTest (.hc 0) rHcStatus 7 = true ∧ sMig.mig.applied = true ∧ sMig.mig.fly.length < 4 ∧
    reached (objVal sMig sMig.mig.die sMig.mig.obj) (BitVec.ofNat 32 (sMig.mig.next + 1)) = true ∧
    { sMig with mig := { sMig.mig with fly := [oMig] } }.mig.fly = oMig :: [] ∧ oMig.status = 0 := by decide +kernel

/-! ## Witnesses: steps -/

/-- The module alone in group 0: its logical coordinate is 0, the group table at 0x5000, the member list at 0x6000. -/
def runG : State :=
  let s := wrBytes (wrBytes runLc 0x5000 (leBytes 8 0x6000 ++ leBytes 4 1)) 0x6000 (leBytes 4 0)
  { s with xlat := { s.xlat with grp := 0x5000, grpCount := 1 } }

/-- HUB_STEP_ARG names step n. -/
def argS (s : State) (n : Word) : State := setReg s .hub rHubStepArg n

/-- The module in step 1 in a given state of the step. -/
def inStep (st : StepSt) : State := argS { runG with steps := [{ rec1 with st := st }], openN := 1 } 1

theorem wit_StepCommands :
    writesB (argS runG 1) pM .hub rHubStepCmd 1 = true ∧ (regAt (argS runG 1) .hub rHubStepArg).toNat = (argS runG 1).openN + 1 ∧
    worksNot runG = false ∧ runG.pw.left = false ∧ (1 : Nat) ≤ stepLast ∧ stepLeft runG 1 = false ∧ runG.epochHold = false ∧
    stepLeft (inStep .abandoned) 1 = true ∧ { runG with epochHold := true }.epochHold = true ∧ canOpen (argS runG 1) 1 = true ∧
    (openStep (wroteReg (argS runG 1) .hub rHubStepCmd 1) 1 false).2 = true ∧
    canOpen (argS (inStep .open) 2) 2 = false ∧ writesB (argS (inStep .open) 2) pM .hub rHubStepCmd 1 = true ∧
    (regAt (argS runG 3) .hub rHubStepArg).toNat ≠ (argS runG 3).openN + 1 ∧
    writesB (inStep .open) pM .hub rHubStepCmd 2 = true ∧ (stepRec (inStep .open) 1).any (fun r => !r.declared) = true ∧
    writesB (inStep .sealed) pM .hub rHubStepCmd 3 = true ∧ (stepRec (inStep .sealed) 1).any (fun r => r.st == .sealed) = true ∧
    writesB (inStep .voting) pM .hub rHubStepCmd 3 = true ∧ (inStep .voting).epoch ≠ u32Max ∧
    writesB (argS runG 0) pM .hub rHubStepCmd 3 = true ∧ (stepRec (argS runG 0) 0).isNone = true ∧ 0 ≤ runG.commitN := by
  refine ⟨?_, ?_, ?_, ?_, ?_, ?_, ?_, ?_, ?_, ?_, ?_, ?_, ?_, ?_, ?_, ?_, ?_, ?_, ?_, ?_, ?_, ?_, ?_⟩ <;> decide +kernel

theorem wit_StepOpens : Canon runG ∧ stepGroup runG = some ([0], 0) ∧ (3 : Nat) < 4 ∧ stepGroup run0 = none :=
  ⟨canon_of (by decide +kernel), by decide +kernel, by decide +kernel, by decide +kernel⟩

/-- A timer that has expired. -/
def due (s : State) (t : Tmr) : State := { s with timers := [(t, 0)] }

theorem wit_StepProgress :
    (stepLeft { runG with heldOpen := some 1 } 1 = false ∧ runG.epochHold = false) ∧
    (canOpen { runG with heldOpen := some 1 } 1 = true ∧ (openStep { runG with heldOpen := none } 1 false).2 = true) ∧
    ({ inStep .open with steps := [{ rec1 with declared := true }] }.steps.find? (fun x => decide (x.st = StepSt.open) && x.declared) =
      some { rec1 with declared := true }) ∧
    ((inStep .draining).steps.find? (fun x => decide (x.st = StepSt.draining)) = some { rec1 with st := .draining } ∧
      transferring (inStep .draining) 1 = false ∧ tmDue (due (inStep .draining) (.drain 1)) (.drain 1) = true) ∧
    ((inStep .voting).steps.find? (fun x => decide (x.st = StepSt.voting)) = some { rec1 with st := .voting } ∧
      tmDue (due (inStep .voting) (.vote 1)) (.vote 1) = true) ∧
    digestsIn runG { rec1 with st := .voting, ored := some 0, digest := some [] } = true ∧ runG.foldBusy = none ∧
    rbit runG .chk rChkFoldStatus 0 = false ∧
    ((1 : Nat) = (inStep .sealed).commitN + 1 ∧ updsDone (inStep .sealed) 1 = true ∧ (inStep .sealed).stopIssue = false ∧
      buddyAllows (inStep .sealed) rec1 = true) ∧
    (let s := due { runG with agree := { runG.agree with active := true } } .agreeNotice
     s.agree.active = true ∧ tmDue s .agreeNotice = true) ∧
    (tmDue (due runG .agreePhase0) .agreePhase0 = true ∧ runG.agree.active = false ∧
      (inStep .abandoned).steps.find? (fun x => decide (x.st = StepSt.abandoned)) = some { rec1 with st := .abandoned } ∧
      canOpen (inStep .abandoned) 1 = true ∧ (openStep (inStep .abandoned) 1 true).2 = true) := by
  refine ⟨?_, ?_, ?_, ?_, ?_, ?_, ?_, ?_, ?_, ?_, ?_⟩ <;> decide +kernel

/-- Sequencer 9 restarts. -/
def sRst : State := setSeq run0 9 { q0 with st := .restarting, p := 0xFF, stack := [16] }

theorem wit_RestartEffect :
    sRst.tainted = [] ∧ Canon sRst ∧ (seqAt sRst 9).st = .restarting ∧ (seqAt sRst 255).st ≠ .restarting :=
  ⟨rfl, canon_of (by decide +kernel), by decide +kernel, by decide +kernel⟩

/-! ## Witnesses: links and frames -/

/-- LNK0 in a state of LNK_STATUS, enabled, with its controller as given, PDIM 2 on each axis. -/
def sLk (st : Nat) (x : Lnk) : State :=
  setLink (setFld (setFld (setReg runLc .coord rCoordPdim 0x1041) (.lnk 0) rLnkCtl 0 0 1) (.lnk 0) rLnkStatus 2 0 st) 0 x

/-- A controller with all lanes. -/
def lnk68 : Lnk := { Lnk.reset with rxAct := List.range 68, txAct := List.range 68, credit := [2048, 2048, 2048, 2048] }

/-- 35 lanes that completed training, the first with n corrected symbols. -/
def done35 (n : Nat) : List (Nat × Nat) := (List.range 35).map (fun k => (k, if k = 0 then n else 0))

theorem wit_LinkTraining :
    (lasersOn (sLk lsDown .reset) = true ∧ rbit (sLk lsDown .reset) (.lnk 0) rLnkCtl 0 = true ∧
      linkUnused (sLk lsDown .reset) 0 = false ∧ linkSt (sLk lsDown .reset) 0 = lsDown) ∧
    tmDue (due (sLk lsTraining .reset) (.train 0)) (.train 0) = true ∧ linkLive (sLk lsUp lnk68) 0 = true ∧
    (linkLive (sLk lsUp { lnk68 with rxAct := List.range 33 }) 0 = true ∧ (List.range 33).length < 34) ∧
    (linkOf (sLk lsLost { lnk68 with lost := true }) 0).lost = true ∧ (linkOf (sLk lsLost { lnk68 with lost := true }) 0).detour = false ∧
    (linkSt (sLk lsTraining { lnk68 with phase := 6 }) 0 = lsTraining ∧ (linkOf (sLk lsTraining { lnk68 with phase := 6 }) 0).phase = 6 ∧
      lasersOn (sLk lsTraining { lnk68 with phase := 6 }) = true ∧
      34 ≤ ((List.range 72).filter (fun k => (done35 200).any (fun p => decide (p.1 = k)) &&
        (done35 200).all (fun p => decide (p.1 ≠ k) || decide (p.2 < lnk68.thresh)))).length) ∧
    (linkOf (sLk lsTraining { lnk68 with phase := 1 }) 0).phase = 1 ∧ lnk68.phase = 0 := by
  refine ⟨?_, ?_, ?_, ?_, ?_, ?_, ?_, ?_, ?_⟩ <;> decide +kernel

/-- A lane that is to be swapped; a frame that awaits its acknowledgement. -/
def mv0 : LaneMove := { rx := true, fail := 3, spare := none, lsn := 0 }
def tx0 : TxEnt := { lsn := 0, n := 1, off := 0, frame := none, ctrl := [], sent := 0 }

theorem wit_LinkTraining_upkeep :
    ((linkOf (sLk lsUp { lnk68 with moves := [mv0] }) 0).moves.find? (fun k => k.rx == true) = some mv0 ∧
      moveDue (linkOf (sLk lsUp { lnk68 with moves := [mv0] }) 0) mv0 = true) ∧
    (tmDue (due (sLk lsUp lnk68) (.laneWin 0)) (.laneWin 0) = true ∧ linkLive (due (sLk lsUp lnk68) (.laneWin 0)) 0 = true ∧
      (71 : Nat) < 72) ∧
    (let s := due (setFld (sLk lsUp { lnk68 with rxAct := List.range 67 }) (.lnk 0) (rLaneBad 67) 3 3 1) (.laneRetrain 0)
     tmDue s (.laneRetrain 0) = true ∧ linkLive s 0 = true ∧ laneBad s 0 67 = true ∧ 67 ∉ (linkOf s 0).rxAct ∧
      67 ∉ (linkOf s 0).rxSpare) ∧
    tmDue (due (sLk lsUp lnk68) (.ident 0)) (.ident 0) = true ∧
    (let s := { sLk lsUp { lnk68 with retry := [tx0] } with beacon := 800 }
     linkLive s 0 = true ∧ (linkOf s 0).stallAt + 4 * btUs ≤ s.beacon ∧ (linkOf s 0).retry = [tx0]) ∧
    ({ run0 with carts := [{ fitted := false, works := false, full := false, stable := false }] }.carts[0]?.map (fun c => c.fitted)) =
      some false ∧
    (run0.carts[0]?.map (fun c => c.fitted && c.works)) = some true ∧ cartOk run0 0 = true ∧ cartOk run0 1 = true := by
  refine ⟨?_, ?_, ?_, ?_, ?_, ?_, ?_, ?_, ?_⟩ <;> decide +kernel

/-- A flit of a type with LSN 0 and a CTYPE. -/
def flit (ty ct : Nat) : List Byte := flitBytes ty 0 0 (BitVec.ofNat 8 ct :: List.replicate 249 0)

set_option maxRecDepth 20000 in
theorem wit_Flits :
    flitTakes (sLk lsUp lnk68) 0 true = true ∧ flitTakes (sLk lsUp lnk68) 0 false = true ∧
    flitTakes (sLk lsTraining { lnk68 with phase := 5 }) 0 false = true ∧
    (flitOk (flit 1 0) = true ∧ flitTy (flit 1 0) = ftData ∧ flitLsn (flit 1 0) = (linkOf (sLk lsUp lnk68) 0).rxExp) ∧
    (flitOk (flit 2 3) = true ∧ flitTy (flit 2 3) = ftCtrl ∧ leAt (flit 2 3) 4 1 = 3) ∧
    (flitTy (flit 0 0) = ftIdle ∧ flitOk (flit 0 0) = true ∧ flitTy (flit 3 0) = ftNak ∧ flitOk (flit 3 0) = true) ∧ flitOk [] = false ∧
    flitLsn (flit 1 0) ≠ (linkOf (sLk lsUp { lnk68 with rxExp := 1 }) 0).rxExp ∧
    fecErrs (flit 1 0) [] = none ∧ fecErrs (flit 1 0) (0xFF :: (flit 1 0).drop 1 ++ rsParity (flit 1 0)) = some 1 := by
  refine ⟨?_, ?_, ?_, ?_, ?_, ?_, ?_, ?_, ?_, ?_⟩ <;> decide +kernel

/-- Frames of another module to this one, alone on its paths. -/
def fr (ty : Nat) (body : List Byte) : Frame := { mkFrame runLc ty 0 0 false 0 false 0 0 0 body with src := adOf 1 0 false }

/-- The same in the loopback path. -/
def sFr (s : State) (f : Frame) : State := setLink s 6 { linkOf s 6 with rxq := [f] }

theorem wit_FrameArrival :
    (linkOf (sFr runLc (fr tyRead [])) 6).rxq = [fr tyRead []] ∧ routeOf (sFr runLc (fr tyRead [])) (fr tyRead []) none = .here ∧
    frameAsleep (sFr runLc (fr tyRead [])) (fr tyRead []) = false ∧
    frameAsleep { sFr runLc (fr tyRead []) with pwr := .dusk } (fr tyRead []) = true ∧
    routeOf runLc { fr tyRead [] with hops := 1, codes := 5 } (some 0) = .hop 5 { fr tyRead [] with hops := 0, codes := 0 } ∧
    routeOf runLc { fr tyRead [] with hops := 1, codes := 6 } none = .invalid ∧ (6 : Fin 7).val = 6 := by
  refine ⟨?_, ?_, ?_, ?_, ?_, ?_, ?_⟩ <;> decide +kernel

/-- A ZERO block's header, as it travels; the frame that carries it to 0x200000. -/
def hZ : Hdr :=
  { fmt := Fmt.code .bf16, layout := 0, flags := 1, vrows := 32, vcols := 32, cut := 0, x := 0x3F800000, tensor := 1, block := 0, step := 0,
    epoch := 0, crc := 0 }
def fB : Frame := fr tyBlock (leBytes 8 0x200000 ++ hdrBytes { hZ with crc := blkCrc hZ [] [] })

set_option maxRecDepth 20000 in
theorem wit_FrameEffects :
    frameCrcBad fB = false ∧ frameCrcBad { fB with body := leBytes 8 0x200000 ++ hdrBytes hZ } = true ∧
    (fB.esn = rxExp runLc (adLc fB.src) (tyClass fB.ty)) ∧
    ({ fB with esn := 2 ^ 32 - 1 }.esn ≠ rxExp runLc 1 0 ∧
      reached (BitVec.ofNat 32 (rxExp runLc 1 0)) (BitVec.ofNat 32 (2 ^ 32 - 1)) = true) ∧
    (reached (BitVec.ofNat 32 (rxExp runLc 1 0)) (BitVec.ofNat 32 1) = false ∧ runLc.e2e.store = [] ∧ fB.body.length ≤ 4096) ∧
    ({ fB with epoch := 1 }.epoch ≠ 0 ∧ { fB with epoch := 1 }.epoch < { runLc with epoch := 2 }.epoch) ∧
    (fB.epoch = 0 ∧ rxJournaled fB = false) ∧
    (fB.ty = tyBlock ∧ adHub fB.dst = false ∧ leAt fB.body 0 8 = 0x200000 ∧
      frameAddrChk runLc 0x200000 0 false true = none ∧ (unwireBlk (fB.body.drop 8)).scales.isEmpty = true) ∧
    (let f := { fr tySync (leBytes 1 1 ++ [0, 0, 0] ++ leBytes 4 5) with arg := 4031 }
     adHub f.dst = false ∧ dieIn runLc (adDie f.dst) = true ∧ f.arg % 4096 < 4032 ∧ leAt f.body 0 1 = 1) ∧
    (let f := { fr tySync (leBytes 1 0 ++ [0, 0, 0] ++ leBytes 4 (2 ^ 31 - 1)) with arg := 4031 }
     leAt f.body 0 1 = 0 ∧ 0 < leAt f.body 4 4 ∧ leAt f.body 4 4 < 2 ^ 31) ∧
    (let f := fr tyRead (leBytes 8 0x200000 ++ leBytes 4 65536 ++ leBytes 4 0 ++ leBytes 8 0)
     0 < leAt f.body 8 4 ∧ leAt f.body 8 4 ≤ 65536) := by
  refine ⟨?_, ?_, ?_, ?_, ?_, ?_, ?_, ?_, ?_, ?_, ?_⟩ <;> decide +kernel

/-- A frame that has not been acknowledged, and records of the journal. -/
def un0 : Unack := { lc := 1, cls := 0, esn := 0, deadline := 0, step := 0, collid := 0, owner := .hub, stat := 0 }
def jr0 (k : JKind) : JRec :=
  { kind := k, step := 1, jseq := 0, peer := 1, frame := { fB with step := 1 }, origin := [], matched := false, redone := false }
def jw0 : JWait := { tx := true, frame := { fB with step := 1 }, owner := .hub, collid := 0 }
/-- The journal with one record, step 1 a replay. -/
def sJ (k : JKind) : State :=
  { inStep .open with steps := [{ rec1 with replay := true }], agl := { runG.agl with recs := [jr0 k] }, epoch := 2 }

theorem wit_EndToEndAndJournal :
    (let s := { runLc with e2e := { runLc.e2e with due := [(1, ⟨64, 0⟩)] } }
     (smGet (fun _ => ({ n := 0, since := 0 } : AckDue)) s.e2e.due 1).n = 64) ∧
    { runLc with e2e := { runLc.e2e with unack := [un0] } }.e2e.unack.find? (fun x => decide (x.deadline ≤ 0)) = some un0 ∧
    (let s := { inStep .open with agl := { runG.agl with wait := [jw0] } }
     s.agl.wait.find? (waitMay s) = some jw0) ∧
    nextRedeliver (sJ .rxHost) = some (jr0 .rxHost) ∧ nextRedeliver (sJ .rxLink) = some (jr0 .rxLink) ∧
    ((jr0 .rxLink).kind ≠ .rxHost ∧ (jr0 .rxLink).frame.ty ≠ tyRdata) ∧
    (let s := { sJ .txLink with lastSeal := some (1, []) }
     s.agl.recs.find? (fun x => decide (x.step = 1) && x.kind == .txLink && decide (x.peer = 1) && decide (x.frame.epoch < s.epoch)) =
      some (jr0 .txLink) ∧ s.agree.active = false ∧ s.agl.served = []) ∧
    { runLc with hubIn := [fr tyRead []] }.hubIn = fr tyRead [] :: [] := by
  refine ⟨?_, ?_, ?_, ?_, ?_, ?_, ?_, ?_⟩ <;> decide +kernel

/-- Hub messages of HMSG m; the ward and the buddy are module 1. -/
def hm (m : Nat) : Frame := fr tyBlock (leBytes 7 0 ++ leBytes 1 m)
def sW1 : State := { runLc with ward := some 1, buddy := some 1 }
/-- A bundle of step 1 without commands. -/
def bu0 : Bundle := { lc := 1, step := 1, epoch := 0, cmds := [], grads := [], seals := [], digest := none, whole := true }

theorem wit_HubMessages :
    (hmsgOf (hm 1) = 1 ∧ hmsgOf (hm 2) = 2 ∧ hmsgOf (hm 3) = 3 ∧ hmsgOf (hm 4) = 4 ∧ hmsgOf (hm 5) = 5 ∧ hmsgOf (hm 6) = 6) ∧
    { sW1 with hubIn := [hm 1] }.hubIn = hm 1 :: [] ∧ leAt (fr tySync [0x10]).body 0 1 = 0x10 ∧ leAt (fr tySync [0x11]).body 0 1 = 0x11 ∧
    sW1.buddy = some (adLc (fr tySync [0x10]).src) ∧ fromWard sW1 (hm 1) = true ∧ fromWard runLc (hm 1) = false ∧
    (fromBuddy runLc (hm 1) = false ∧ fromWard { sW1 with ward := none } (hm 6) = false ∧ fromBuddy { sW1 with ward := none } (hm 6) = true) ∧
    dualFails (bundleMis { sW1 with bundles := [bu0] } bu0) = false ∧
    nextBundle { sW1 with bundles := [bu0] } = some bu0 ∧ (applyBundle { sW1 with bundles := [bu0] } bu0).isSome = true ∧
    sW1.resyncing = false ∧ { sW1 with resyncing := true }.ward = some 1 ∧ tmDue (due sW1 .refl) .refl = true := by
  refine ⟨?_, ?_, ?_, ?_, ?_, ?_, ?_, ?_, ?_, ?_, ?_, ?_, ?_, ?_⟩ <;> decide +kernel

/-- Set 4 with one page, whose other frame a checkpoint holds, and no free frame; a bundle whose one command updates it. -/
def pgW : PageEnt :=
  { home := 0x100000200000, f0 := 0x100000200000, f1 := 0x100000400000, pstep := 0, cur := false, pend := false, hold0 := false,
    hold1 := true }
def dW : Desc := { d0 with base := 0x100000200000, fmt := Fmt.code .fp32, rows := 16, cols := 32 }
def sPg : State :=
  let h := { hZ with fmt := Fmt.code .fp32, vrows := 16 }
  { wrBytes sW1 (hdrAddr sW1 0x100000200000) (hdrBytes { h with crc := blkCrc h [] [] }) with
    pages := List.replicate 4 .empty ++ [{ PageSet.empty with ents := [pgW] }] }
def bu1 : Bundle :=
  { bu0 with cmds := [(0, leBytes 16 (ptiEncode .updSgdm wU).toNat ++ List.replicate 48 0 ++ descBytesO sPg (some dW) ++ descBytesO sPg (some dW)
      ++ List.replicate 64 0 ++ descBytesO sPg (some dW) ++ List.replicate 64 0)] }

set_option maxRecDepth 20000 in
theorem wit_HubMessages_pages :
    pageSetOf sPg (hmsgField (fr tyBlock (leBytes 6 0x100000200000 ++ leBytes 1 0 ++ leBytes 1 6)) % 2 ^ 48) = some 4 ∧
    (resyncAddr sPg 4 0x100000200000).isSome = true ∧ nextBundle { sPg with bundles := [bu1] } = some bu1 ∧
    applyBundle { sPg with bundles := [bu1] } bu1 = none := by
  refine ⟨?_, ?_, ?_, ?_⟩ <;> decide +kernel

/-- Credit for a burst of every reporter; a unit in eclipse; certifications. -/
def sPr : State := { run0 with prismClk := [(0, 65536000)] }
def ecl0 : State := setUnit run0 0 5 { unitAt run0 0 5 with eclipsed := true }
def ce0 (run : Bool) : Cert := { what := .unit 0 5, running := run, at_ := 0 }

theorem wit_PrismAndHealth :
    (burstKind sPr 0 0 = some 0 ∧ burstKind sPr 81 0 = some 6 ∧ bitAt sPr.prismCtl.toNat 0 = true ∧ reporterUp sPr 0 0 = true ∧
      reporterUp sPr 0 81 = true ∧ creditOf sPr 0 (prismOf sPr 0 0) = creditCap * 8000 ∧ reporterBusy sPr 0 0 = false ∧
      burstLen 0 * 8000 ≤ creditCap * 8000) ∧
    (tmAt (due run0 .band) .band).getD (60 * btMinute) ≤ (due run0 .band).beacon ∧
    ({ ecl0 with certs := [ce0 true] }.certs[0]? = some (ce0 true) ∧ (ce0 true).running = true ∧ secondSpare ecl0 0 5 = true) ∧
    ({ ecl0 with certs := [ce0 false] }.certs[0]? = some (ce0 false) ∧ (ce0 false).running = false) ∧
    ((unitAt ecl0 0 5).eclipsed = true ∧ ecl0.certs = [] ∧
      (dieSpares ecl0 0).filter (fun k => !(certPartners ecl0).contains k) ≠ []) ∧
    (tmAt (due run0 .decay) .decay).getD (675 * btSec) ≤ (due run0 .decay).beacon ∧
    (laneUp run0 = true ∧ (tmAt (due run0 .healthSend) .healthSend).getD 1 ≤ (due run0 .healthSend).beacon) ∧ (1000 : Nat) ≤ 1000 := by
  refine ⟨?_, ?_, ?_, ?_, ?_, ?_, ?_, ?_⟩ <;> decide +kernel

/-- A snapshot of step 3 in a phase; a buddy is awaited when `b`. -/
def sn0 (ph : Nat) : Snap :=
  { step := 3, epoch := 0, slot := 0, job := 0, auto := false, fold := false, ls := 16, lsJ := 0, lc := 0, refl := false, frames := [],
    shards := [{ shard := 0, kind := 0, pages := 0, body := [], digest := [] }], sinks := [], phase := ph, reports := [], reportsDone := false, partRefl := false,
    manifest := [] }
def sSn (ph : Nat) : State := { runLc with snap := some (sn0 ph) }

theorem wit_Checkpoints :
    objsDone (sSn 1) 0 = true ∧ (sn0 1).phase = 1 ∧ objsDone { runLc with rsnap := some (sn0 1) } 1 = true ∧
    (let s := due { sSn 2 with buddy := some 1 } .reflReport
     tmDue s .reflReport = true ∧ reportsIn s (sn0 2) = false) ∧
    (reportsIn (sSn 2) (sn0 2) = true ∧ (sSn 2).foldBusy ≠ some (sn0 2).step ∧ canSign { sSn 2 with sec := { (sSn 2).sec with hasKey := false } } = false ∧
      canSign { sSn 2 with sec := { (sSn 2).sec with life := 1, hasKey := true } } = true) ∧
    rstPlan runLc { rst0 with ready := false, step := 0 } = .failed [] [] := by
  refine ⟨?_, ?_, ?_, ?_, ?_, ?_⟩ <;> decide +kernel

/-- A manifest of step 3 without sinks and shards, signed with the private key 1 under the nonce 1. -/
def manB : List Byte := leBytes 4 0x31464D43 ++ leBytes 2 1 ++ leBytes 1 1 ++ leBytes 1 1 ++ leBytes 8 0 ++ leBytes 4 0 ++ leBytes 4 3 ++
  leBytes 104 0
def manS : List Byte := manB ++ ecdsaSig 1 1 manB
/-- A sink that holds it in slot 0 and nothing in slot 1, as read. -/
def sk0 : SinkEnt := { bytes := [], eth := 0 }
def obj (slot : Nat) (d : List Byte) : BulkObj :=
  { who := 2, sink := rstPort 0, q := 1, keyH := 0, keyL := keyLow 0 slot 3 0, put := false, data := d, len := 0, done := true,
    found := !d.isEmpty }
def rst1 : Rst := { rst0 with ready := false, step := 0, trust := [pointBytes ecG], sinks := [sk0] }
def sMan : State := { runLc with ckptSinks := [sk0], rst := some rst1, objects := [obj 0 manS, obj 1 []] }

set_option maxRecDepth 20000 in
theorem wit_Checkpoints_ready :
    (match rstPlan sMan rst1 with
      | .ready m _ _ _ _ _ => decide (manStep m = 3)
      | _ => false) = true := by decide +kernel

/-! ## Witnesses: CWT and Ethernet -/

/-- Deciding `hostTakes`. -/
def hostTakesB (s : State) (port : Fin 2) (addr : Nat) (f : CwtFrame) : Bool :=
  portUp s port && s.sess.any (fun c => decide (c.addr = addr ∧ c.lost = false)) &&
    (decide (seqCheck (hostSeen s port f) f = .accept) && decide (epochCheck (hostSeen s port f) f = .accept) &&
      decide (creditCheck (hostSeen s port f) f = .accept))

theorem hostTakes_of {s : State} {port : Fin 2} {addr : Nat} {f : CwtFrame} (h : hostTakesB s port addr f = true) :
    hostTakes s port addr f := by
  simp only [hostTakesB, Bool.and_eq_true, decide_eq_true_eq] at h
  obtain ⟨⟨h1, h2⟩, ⟨h3, h4⟩, h5⟩ := h
  refine ⟨h1, ?_, h3, h4, h5⟩
  cases hc : s.sess with
  | none => simp [hc] at h2
  | some c => exact ⟨c, rfl, by simpa [hc] using h2⟩

/-- The port ETH0 up. -/
def runE : State := setFld run0 (.eth 0) rEthStatus 0 0 1

/-- A session of job 7 with the host at address 9, queue 1 with credit. -/
def qC : CwtQ := { CwtQ.reset with flim := 100, blim := 1000000 }
def se0 : Sess := { job := 7, addr := 9, port := 0, lost := false, qs := [(1, qC)], rxAt := 0, txAt := 0 }
def runS : State := { runE with sess := some se0 }

/-- A frame of a type on queue 1. -/
def hf (ty : Nat) (b : List Byte) : CwtFrame := cwtFrame ty 1 b

/-- An order of queue 1. -/
def or0 : Order :=
  { no := 0, queue := 1, order := 5, kind := 1, flags := 0, step := 0, epoch := 0, addr := 0x200000, len := 4, obj := 0, saddr := 0,
    ident := [], port := 0, bytes := 0, pos := 0, part := [], blk := 0, done := false, aborted := false, status := 0, rcd := [] }
def runO : State := { runS with orders := [or0] }

theorem wit_CwtSession :
    (portUp runE 0 = true ∧ leAt (leBytes 8 7) 0 8 ≠ 0 ∧ (cwtWake runE).sess = none) ∧
    (hostTakes runS 0 9 (hf cClose (leBytes 8 7)) ∧
      (hostSeen runS 0 (hf cClose (leBytes 8 7))).sess.any (fun c => decide (c.job = leAt (leBytes 8 7) 0 8)) = true) ∧
    hostTakes runS 0 9 (hf cAck []) ∧ hostTakes runS 0 9 (hf cKeepalive []) ∧ hostTakes runS 0 9 (hf cNack []) ∧
    hostTakes runS 0 9 (hf cCredit []) ∧
    (hostTakes runO 0 9 { hf cAbort [] with order := 5 } ∧
      orderFind (hostSeen runO 0 { hf cAbort [] with order := 5 }) 1 5 = some or0 ∧ or0.journaled = false) :=
  ⟨by decide +kernel, ⟨hostTakes_of (by decide +kernel), by decide +kernel⟩, hostTakes_of (by decide +kernel),
    hostTakes_of (by decide +kernel), hostTakes_of (by decide +kernel), hostTakes_of (by decide +kernel),
    hostTakes_of (by decide +kernel), by decide +kernel⟩

/-- The WORK frame of order 6 of a kind. -/
def wf (k : Nat) : CwtFrame :=
  { hf cWork (leBytes 8 6 ++ leBytes 2 1 ++ leBytes 1 k ++ [0] ++ leBytes 4 0 ++ leBytes 4 0 ++ leBytes 8 0x200000 ++ leBytes 8 4 ++
      leBytes 4 0 ++ leBytes 8 0 ++ leBytes 16 0) with order := 6 }
def df : CwtFrame := { hf cData [1, 2, 3, 4] with order := 5 }

theorem wit_CwtOrders :
    (workKind (wf 1) = 1 ∧ hostTakesB (cwtWake runS) 0 9 (wf 1) = true ∧
      orderOk (hostSeen (cwtWake runS) 0 (wf 1)) (wf 1) (parseOrder (hostSeen (cwtWake runS) 0 (wf 1)) 0 (wf 1)) = true ∧
      (parseOrder (hostSeen (cwtWake runS) 0 (wf 1)) 0 (wf 1)).stepb = false ∧ workKind (wf 2) = 2 ∧ hostTakesB (cwtWake runS) 0 9 (wf 2) = true ∧
      orderOk (hostSeen (cwtWake runS) 0 (wf 2)) (wf 2) (parseOrder (hostSeen (cwtWake runS) 0 (wf 2)) 0 (wf 2)) = true ∧
      (parseOrder (hostSeen (cwtWake runS) 0 (wf 2)) 0 (wf 2)).stepb = false ∧ workKind (wf 3) = 3 ∧ hostTakesB (cwtWake runS) 0 9 (wf 3) = true ∧
      orderOk (hostSeen (cwtWake runS) 0 (wf 3)) (wf 3) (parseOrder (hostSeen (cwtWake runS) 0 (wf 3)) 0 (wf 3)) = true ∧
      (parseOrder (hostSeen (cwtWake runS) 0 (wf 3)) 0 (wf 3)).stepb = false ∧ workKind (wf 4) = 4 ∧ hostTakesB (cwtWake runS) 0 9 (wf 4) = true ∧
      orderOk (hostSeen (cwtWake runS) 0 (wf 4)) (wf 4) (parseOrder (hostSeen (cwtWake runS) 0 (wf 4)) 0 (wf 4)) = true ∧
      (parseOrder (hostSeen (cwtWake runS) 0 (wf 4)) 0 (wf 4)).stepb = false ∧ workKind (wf 5) = 5 ∧ hostTakesB (cwtWake runS) 0 9 (wf 5) = true ∧
      orderOk (hostSeen (cwtWake runS) 0 (wf 5)) (wf 5) (parseOrder (hostSeen (cwtWake runS) 0 (wf 5)) 0 (wf 5)) = true ∧
      (parseOrder (hostSeen (cwtWake runS) 0 (wf 5)) 0 (wf 5)).stepb = false) ∧
    (runS.orders.filter (fun y => y.queue == 1 && y.inFlight)).length < orderMax ∧
    (hostTakesB runO 0 9 df = true ∧ (dataTake df (hostSeen runO 0 df)).2 = true) ∧
    orderNext { runO with orders := [{ or0 with done := true }] } 1 = some { or0 with done := true } ∧
    orderNext { runO with orders := [{ or0 with kind := 3 }] } 1 = some { or0 with kind := 3 } ∧
    orderNext { runO with orders := [{ or0 with kind := 4, status := 0x10 }] } 1 = some { or0 with kind := 4, status := 0x10 } := by
  refine ⟨?_, ?_, ?_, ?_, ?_, ?_⟩ <;> decide +kernel

/-- A connection to sink 3. -/
def bu3 : Bulk := { sink := 3, eth := 0, v4 := false, open_ := true, qs := [(1, qC)], txAt := 0 }
def runB : State := { runE with bulks := [bu3] }
/-- A queue whose oldest frame is due again, n times expired. -/
def qLate (n : Nat) : CwtQ := { qC with unack := [hf cWork []], sent := [0], rto := some 0, rtoN := n }

theorem wit_CwtSinksAndTimers :
    (bulkOf (sinkSeen runB 3 (hf cOpened [])) 3 = some bu3 ∧ (0 : Nat) = (cwtQ bu3.qs 1).rxNext ∧ limited cOpened = false) ∧
    (bulkOf (sinkSeen runB 3 (hf cBulkData [])) 3 = some bu3 ∧ limited cBulkData = true ∧ seqLt 0 (cwtQ bu3.qs 1).flim = true ∧
      (cwtQ bu3.qs 1).rxBytes + 0 ≤ (cwtQ bu3.qs 1).blim) ∧
    ((bulkOf (sinkSeen runB 3 (hf cAck [])) 3).isSome = true ∧ (bulkOf (sinkSeen runB 3 (hf cKeepalive [])) 3).isSome = true ∧ (bulkOf (sinkSeen runB 3 (hf cNack [])) 3).isSome = true ∧ (bulkOf (sinkSeen runB 3 (hf cCredit [])) 3).isSome = true) ∧
    rtoDue runE (cwtQ [(1, qLate 0)] 1) = true ∧ (cwtQ [(1, qLate 7)] 1).rtoN = 7 ∧ (cwtQ [(1, qLate 6)] 1).rtoN < 7 ∧
    bu3.txAt + keepEvery ≤ { runB with beacon := keepEvery }.beacon ∧
    se0.rxAt + 3000 * btMs ≤ { runS with beacon := 3000 * btMs }.beacon ∧
    (tmAt runS .creditRep).getD 0 ≤ runS.beacon ∧ getsOf runS = [] ∧
    bulkLate { runB with bulks := [{ bu3 with qs := [(16, qLate 0)] }], beacon := bulkTmo runB } 3 16 = true := by
  refine ⟨?_, ?_, ?_, ?_, ?_, ?_, ?_, ?_, ?_, ?_, ?_⟩ <;> decide +kernel

/-- ETH_PFC mode m in force at ETH0. -/
def pfcM (m : Word) : State := { runE with ethCfg := [(0x4651, 0xCC ||| m, 0x300020), (0x4651, 0xCD, 0x300020)] }

theorem wit_Ethernet :
    (portUp (pfcM 1) 0 = true ∧ flowMode (pfcM 1) 0 = 1) ∧ flowMode (pfcM 3) 0 = 3 ∧ (portUp (pfcM 2) 0 = true ∧ flowMode (pfcM 2) 0 = 2) ∧
    ({ runE with osfp := [none, none] }.osfp.getD (0 : Fin 2) none).isSome = false ∧ (runE.osfp.getD (1 : Fin 2) none).isSome = true ∧
    ethCan run0 0 = true ∧ rbit runE (.eth 0) rEthStatus 0 = true := by
  refine ⟨?_, ?_, ?_, ?_, ?_, ?_, ?_⟩ <;> decide +kernel

/-! ## Witnesses: management, power, boot, security -/

/-- A unit, a die in eclipse. -/
def eclD : State := { run0 with pw := { run0.pw with dieEcl := 8 } }
def degD : State := { run0 with pw := { run0.pw with degraded := 8 } }
/-- A response in the store. -/
def mf0 : MgmtFrame := { mtype := 2, mseq := 5, cmd := 1, mstatus := 0, epoch := 0, body := [] }

theorem wit_MgmtCommands :
    laneHears run0 0 ∧ (laneHeard run0).mgmt.resp.find? (fun r => r.1 == 5) = none ∧ laneUp (doSetLogical 0 true (laneHeard run0)).st = true ∧
    ({ run0 with mgmt := { run0.mgmt with resp := [(5, mf0)] } }.mgmt.resp.find? (fun y => y.1 == 5) = some (5, mf0)) ∧
    rbit run0 .coord rCoordPhys 31 = false ∧ rbit (setReg run0 .coord rCoordPhys 0x80000000) .coord rCoordPhys 31 = true ∧
    laneOff 0 = none ∧ ([] : List Byte).length ≠ 32 ∧ unitUp run0 0 0 = true ∧ isSpare State.reset = true :=
  ⟨⟨rfl, by decide +kernel, Or.inl rfl⟩, by decide +kernel, by decide +kernel, by decide +kernel, by decide +kernel, by decide +kernel,
    by decide +kernel, by decide, by decide +kernel, by decide +kernel⟩

/-- REG_WRITE of PWR_RESET.MODULE takes the lane down before the response can go. -/
theorem wit_MgmtCommands_lane_lost :
    laneUp (doRegWrite (0xF00000000000 + (Blk.pwr.base + rPwrReset)) 1 (laneHeard run0)).st = false := by decide +kernel

theorem wit_LaneAndI3c :
    laneUp run0 = true ∧ (0 : DWord).toNat = serialOf run0 ∧ (0x30 : BitVec 7).toNat = 0x30 + run0.pw.straps.toNat ∧
    run0.pwr ≠ .off ∧ run0.pw.i3cAddr = none ∧ writesB run0 .i3c .pwr rPwrReq 4 = true := by
  refine ⟨?_, ?_, ?_, ?_, ?_, ?_⟩ <;> decide +kernel

/-- 110 °C at the hub's sensor, and at MD0's. -/
def hot5 (d : Nat) : State :=
  if d < 4 then setFld run0 (.clk d) rClkStatus 31 24 (tempField 440) else setFld run0 .pwr rPwrTherm 31 24 (tempField 440)

theorem wit_PowerAndTemperature :
    run0.pwr ≠ .off ∧ (36000 ≤ (36000 : BitVec 16).toNat ∧ (39999 : BitVec 16).toNat < 40000) ∧
    (60000 < (60001 : BitVec 16).toNat ∧ (64000 : BitVec 16).toNat ≤ 64000) ∧
    ({ run0 with pwr := .off }.pwr = .off ∧ { run0 with pwr := .off }.pw.enabled = true) ∧
    (((decide (wattCap run0 < (6901 : BitVec 16).toNat) && !run0.pw.ovr) || false) = true ∧ run0.pw.capAt = none) ∧
    ((6900 : BitVec 16).toNat ≤ wattCap run0 ∧ (6999 : BitVec 16).toNat < 7000) ∧
    (tmAt (due run0 .capStep) .capStep).getD (100 * btUs) ≤ (due run0 .capStep).beacon ∧
    (run0.tripped = false ∧ run0.diePower.getLsbD 3 = true) ∧ atTrip (hot5 0) 0 = true ∧ atTrip (hot5 4) 4 = true := by
  refine ⟨?_, ?_, ?_, ?_, ?_, ?_, ?_, ?_, ?_, ?_⟩ <;> decide +kernel

/-- A target of the power state. -/
def tgt (s : State) (t : Nat) : State := { s with pw := { s.pw with target := t } }

theorem wit_PowerStates :
    writesB run0 pM .pwr rPwrReq 4 = true ∧ ladder run0 = true ∧ run0.tripped = false ∧ run0.pw.stop = false ∧
    (run0.pwr.code < (tgt run0 1).pw.target ∧ pwrRefuse (tgt run0 1) 1 = 0) ∧
    (let s := { tgt run1 2 with pwr := .dim }
     s.pwr.code < s.pw.target ∧ pwrRefuse s (s.pwr.code + 1) ≠ 0) ∧
    (tgt State.reset 0).pw.target < (tgt State.reset 0).pwr.code ∧ wakes State.reset .cwt = true ∧ wakeDue (due State.reset .wake) = true ∧
    ((tgt run0 0).pw.target = 0 ∧ rbit run0 .pwr rPwrCtl 16 = true ∧ dimDue { run0 with beacon := 2000 } = true) := by
  refine ⟨?_, ?_, ?_, ?_, ?_, ?_, ?_, ?_, ?_, ?_⟩ <;> decide +kernel

/-- A boot stage. -/
def sBt (k : Nat) : State := { State.reset with pwr := .boot, pw := { State.reset.pw with stage := k, b4 := decide (k = 7) } }

theorem wit_Boot :
    (sBt 1).pwr = .boot ∧ (sBt 6).pw.stage = 6 ∧ (sBt 2).pw.stage = 2 ∧ (3 ≤ (sBt 3).pw.stage ∧ (sBt 3).pw.b4 = false) ∧
    ((sBt 7).pw.stage = 7 ∧ (sBt 7).pw.b4 = true) ∧ tmDue (due (sBt 3) .stage) .stage = true ∧
    (tmDue (due (sBt 5) .phase) .stage = false ∧ tmDue (due (sBt 5) .phase) .phase = true) := by
  refine ⟨?_, ?_, ?_, ?_, ?_, ?_, ?_⟩ <;> decide +kernel

theorem wit_Resets :
    run0.pwr ≠ .off ∧ (.pwr, rPwrReset, 2 ^ (2 + (3 : Fin 4).val)) ∈ rowWrites ∧ tmDue (due run0 .wdog) .wdog = true ∧
    ({ run0 with pw := { run0.pw with jobWait := some false } }.pw.jobWait = some false ∧ tmDue (due run0 .jobReset) .jobReset = true) ∧
    ({ run0 with pw := { run0.pw with dieRst := 8 } }.pw.dieRst.getLsbD 3 = true ∧ tmDue (due run0 (.dieReset 3)) (.dieReset 3) = true) := by
  refine ⟨?_, ?_, ?_, ?_, ?_⟩ <;> decide +kernel

theorem wit_Security :
    (.sec, rSecMbCmd, 1 + 256 * 32) ∈ rowWrites ∧ (.sec, rSecMbCmd + 0x2000, 0x20 + 256 * 0) ∈ rowWrites ∧ (31 : Nat) ≠ 32 ∧
    (run0.sec.stream[0]?).getD none = none ∧ rbit (setFld run0 .sec rSecDebug 8 8 1) .sec rSecDebug 8 = true ∧
    rbit (setFld run0 .sec rSecFuse 0 0 1) .sec rSecFuse 0 = true ∧ (rbit run0 .sec rSecFuse 0 = false ∧ run0.sec.life = 1) ∧
    { run0.sec with life := 0 }.life ≠ 1 := by
  refine ⟨?_, ?_, ?_, ?_, ?_, ?_, ?_, ?_⟩ <;> decide +kernel

/-! ## Worked examples of the spec -/

/-- "123456789". -/
def digits : List Byte := [0x31, 0x32, 0x33, 0x34, 0x35, 0x36, 0x37, 0x38, 0x39]

/-- The check values of R154 and R316. -/
theorem test_crc_check_values : crc32c digits = 0xE3069283 ∧ crc16 digits = 0x29B1 := by decide +kernel

/-- Example 3.2: FP32 to E4M3, nearest and toward zero, saturating and overflowing. -/
theorem test_example_3_2 :
    (cvt .e4m3 .rne false (f32Val 0x3E99999A)).code = 0x2A ∧ (cvt .e4m3 .rtz false (f32Val 0x3E99999A)).code = 0x29 ∧
    (cvt .e4m3 .rne false (f32Val 0xBA83126F)).code = 0x81 ∧ (cvt .e4m3 .rtz false (f32Val 0xBA83126F)).code = 0x80 ∧
    (cvt .e4m3 .rne false (f32Val 0x43E10000)).code = 0x7E ∧ (cvt .e4m3 .rne true (f32Val 0x43E10000)).cnt = false ∧
    (cvt .e4m3 .rne false (f32Val 0x43FA0000)).code = 0x7E ∧ (cvt .e4m3 .rne true (f32Val 0x43FA0000)).code = 0x7F ∧
    (cvt .e4m3 .rne true (f32Val 0x43FA0000)).cnt = true := by decide +kernel

/-- Example 9.1: address 0x0141_2345_6ABC lies in stack 0 of MD2, HC16. -/
theorem test_example_9_1 : ctrlOf State.reset 0x014123456ABC = some (.hc 16) := by decide +kernel

/-- Example 10.1: one AdamW element. -/
theorem test_example_10_1 :
    let r : Recipe := { shard := 0, decay := true, nesterov := false, msr := false, lr := evPow2 (-10), b1 := f32Val 0x3F600000,
                        b2 := f32Val 0x3F700000, eps := evPow2 (-20), wd := evPow2 (-4), gscale := evInt 1, bc1 := evInt 8,
                        bc2 := evInt 16, wcd := 0 }
    let x := updElem .updAdam r (updK r 16) (evInt 1) evZero evZero (codeVal .bf16 0x4700)
    f32Of x.1 = 0x3F7FBC00 ∧ f32Of x.2.1 = 0x3D800000 ∧ f32Of x.2.2 = 0x3C800000 := by decide +kernel

/-- The check vector of R249. -/
theorem test_philox : philox 0 0 0 0 0 = [0x6627E8D5, 0xE169C58D, 0xBC57AC4C, 0x9B00DBD8] := by decide +kernel

/-- The generator of the link code has 24 roots from α^0 on: its last coefficient is their product α^276 = α^21 (R315). -/
theorem test_rs_generator : rsGen.length = 24 ∧ rsGen.getLastD 0 = 117 := by decide +kernel

/-- SHA-256 of the empty message (FIPS 180-4). -/
theorem test_sha256_empty : beNat (sha256 []) = 0xE3B0C44298FC1C149AFBF4C8996FB92427AE41E4649B934CA495991B7852B855 := by
  decide +kernel

/-- A sum wraps modulo 2^64 (Table 7.4), and the sequencer is at the next word. -/
def xWrap : Seq := putS (putS qAgain 1 (-1)) 2 2
def wWrap : PtiWord := { w0 with opd := 1, opa := 1, opb := 2 }
theorem test_add_wraps :
    (match exec (.add 0 wWrap) (atX run0 xWrap .add wWrap) with
      | .next t => decide (sreg (seqAt t 0) 1 = 1) && decide ((seqAt t 0).pc = 0x1010)
      | _ => false) = true := by decide +kernel

/-- The boot's end leaves dusk (R457): the last phase, then the state after reset's power state. -/
theorem test_boot_ends_in_dusk :
    (match exec (.bootPhaseEnd 7 [] [] 0) (sBt 7) with
      | .next t => decide (t.pwr = .dusk) && decide (t.pw.stage = 8)
      | _ => false) = true := by decide +kernel

/-- A wake leads from dusk to run (R452, R454). -/
theorem test_wake_to_run :
    (match exec (.wakeSource .cwt) State.reset with
      | .next t => (match exec (.pwrStateEntered 0) t with
        | .next u => decide (u.pwr = .run)
        | _ => false)
      | _ => false) = true := by decide +kernel

/-- A LIVE bit taints its block, and the block's next use is a fault (R488). -/
theorem test_live_taints :
    (match exec (.registerWrite pM (BitVec.ofNat 44 (Blk.hub.base + rHubDrainLim)) 0x101F4) run0 with
      | .next t => decide (t.tainted = [.hub]) &&
        (match exec (.registerWrite pM (BitVec.ofNat 44 (Blk.hub.base + rHubDrainLim)) 0x101F4) t with
          | .fault .taintedBlock => true
          | _ => false)
      | _ => false) = true := by decide +kernel

/-- SYNC.ADD of an object of the die (R213), and the arm that fires on it (R185). -/
theorem test_sync_add :
    (match exec (.syncAdd 0 (wS (immObj 9 5))) (sS .syncAdd (wS (immObj 9 5))) with
      | .next t => decide (objVal t 0 9 = 5)
      | _ => false) = true := by decide +kernel

/-- OPEN of step 1 opens it, and the object OPEN shows its number (R187, R523). -/
theorem test_step_opens :
    (match exec (.stepCmdOpen pM) (argS runG 1) with
      | .next t => decide (t.openN = 1) && decide (objVal t 0 oOpen = 1) && decide (t.steps.length = 1)
      | _ => false) = true := by decide +kernel

end Sys2Proof.Tests
end

/-! ## The queue and the part (R1, R2) -/
namespace Sys2Proof.Machine

/-- Settles O5: the case split over the rows of the command table is `exec_keeps`, whose first two parts are the queue and the
part number. -/
theorem execKeepsQueue : Obligations.ExecKeepsQueue := by
  intro c s t hexec
  obtain ⟨hqueue, hpart, -⟩ := exec_keeps c s t hexec
  exact ⟨hqueue, hpart⟩

end Sys2Proof.Machine

/-! ## Rules that the steps and the frames share (R488, R32, R36) -/
namespace Sys2Proof.Machine

/-- Where no block is tainted, a command acts (R488). -/
theorem run_of_untainted {bs : List Blk} {f : State → State} {s : State} (h : s.tainted = []) : run bs f s = .next (f s) := by
  simp [run, h]

/-- A write of one register leaves every other as it is, where the registers are in canonical form. -/
theorem regAt_wroteReg_ne {s : State} {b b' : Blk} {o o' : Nat} (v : Nat) (hregs : smWf regRst s.regs = true)
    (hne : b'.base + o' ≠ b.base + o) : regAt (wroteReg s b o v) b' o' = regAt s b' o' :=
  smGet_smPut_ne _ hne hregs

/-! Equations of a written state. Their proofs stand in parentheses so that `simp` rewrites with them: as steps of its
`dsimp` they would have the kernel unfold the write of a concrete register. -/

@[simp] theorem wroteReg_eclipsed (s : State) (b : Blk) (o v : Nat) : (wroteReg s b o v).eclipsed = s.eclipsed := (rfl)
@[simp] theorem wroteReg_epochHold (s : State) (b : Blk) (o v : Nat) : (wroteReg s b o v).epochHold = s.epochHold := (rfl)
@[simp] theorem wroteReg_pw (s : State) (b : Blk) (o v : Nat) : (wroteReg s b o v).pw = s.pw := (rfl)
@[simp] theorem wroteReg_openN (s : State) (b : Blk) (o v : Nat) : (wroteReg s b o v).openN = s.openN := (rfl)
@[simp] theorem wroteReg_commitN (s : State) (b : Blk) (o v : Nat) : (wroteReg s b o v).commitN = s.commitN := (rfl)
@[simp] theorem wroteReg_epoch (s : State) (b : Blk) (o v : Nat) : (wroteReg s b o v).epoch = s.epoch := (rfl)
@[simp] theorem stepRec_wroteReg (s : State) (b : Blk) (o v n : Nat) : stepRec (wroteReg s b o v) n = stepRec s n := (rfl)
@[simp] theorem stepLeft_wroteReg (s : State) (b : Blk) (o v n : Nat) : stepLeft (wroteReg s b o v) n = stepLeft s n := (rfl)
@[simp] theorem canOpen_wroteReg (s : State) (b : Blk) (o v n : Nat) : canOpen (wroteReg s b o v) n = canOpen s n := (rfl)

theorem canOpen_of_epochHold {s : State} (n : Nat) (h : s.epochHold = true) : canOpen s n = false := by
  simp [canOpen, h]

theorem epochHold_of_canOpen {s : State} {n : Nat} (h : canOpen s n = true) : s.epochHold = false := by
  simp only [canOpen, Bool.and_eq_true, Bool.not_eq_true'] at h
  obtain ⟨⟨hhold, -⟩, -⟩ := h
  exact hhold

theorem canDrain_of_epochHold {s : State} (n : Nat) (h : s.epochHold = true) : canDrain s n = false := by
  simp [canDrain, h]

theorem canDrain_eq {s : State} (n : Nat) (h : s.epochHold = false) : canDrain s n = decide (n ≤ s.commitN + 1) := by
  simp [canDrain, h]

end Sys2Proof.Machine

/-! ## HUB_STEP_CMD (R523) -/
namespace Sys2Proof.Machine

/-! ### What OPEN, DECLARE and ABANDON come to -/

theorem opStepOpen_refused {n : Nat} {s : State} (h : n ≠ s.openN + 1 ∨ s.epochHold = true ∨ stepLeft s n = true) :
    opStepOpen n s = stepResult s 1 .refused := by
  unfold opStepOpen
  rw [if_pos]
  rcases h with hturn | hhold | hleft
  · exact .inl hturn
  · exact .inr (.inr (.inr (.inl hhold)))
  · exact .inr (.inr (.inr (.inr hleft)))

section InTurn
variable {n : Nat} {s : State} (hturn : n = s.openN + 1) (hworks : worksNot s = false) (hpwr : s.pw.left = false)
  (hhold : s.epochHold = false) (hleft : stepLeft s n = false)
include hturn hworks hpwr hhold hleft

/-- None of the reasons for which OPEN is refused at once. -/
theorem not_openRefused :
    ¬ (n ≠ s.openN + 1 ∨ worksNot s = true ∨ s.pw.left = true ∨ s.epochHold = true ∨ stepLeft s n = true) := by
  simp [← hturn, hworks, hpwr, hhold, hleft]

variable (hlast : n ≤ stepLast)
include hlast

theorem opStepOpen_held (hcan : canOpen s n = false) : opStepOpen n s = stepResult { s with heldOpen := some n } 1 .held := by
  unfold opStepOpen
  rw [if_neg (not_openRefused hturn hworks hpwr hhold hleft), if_neg (Nat.not_lt.mpr hlast), if_pos (by simp [hcan])]

theorem opStepOpen_opens {t : State} (hcan : canOpen s n = true) (hopen : openStep s n false = (t, true)) :
    opStepOpen n s = stepResult { t with heldOpen := none } 1 .ok := by
  unfold opStepOpen
  rw [if_neg (not_openRefused hturn hworks hpwr hhold hleft), if_neg (Nat.not_lt.mpr hlast), if_neg (by simp [hcan]), hopen]

end InTurn

theorem opStepDeclare_open {n : Nat} {s : State} {r : StepRec} (hrec : stepRec s n = some r) (hst : r.st = .open)
    (hnew : r.declared = false) (hhold : s.epochHold = false) :
    opStepDeclare n s = if n ≤ s.commitN + 1 then stepResult (enterDraining s n) 2 .ok
      else stepResult (updStep s n (fun x => { x with declared := true })) 2 .held := by
  simp [opStepDeclare, hrec, hst, hnew, hhold, canDrain_eq n hhold]

theorem opStepAbandon_sealed {n : Nat} {s : State} {r : StepRec} (hrec : stepRec s n = some r) (hst : r.st = .sealed) :
    opStepAbandon n s = stepResult s 3 .alreadyDone := by
  simp [opStepAbandon, hrec, hst]

theorem opStepAbandon_unsealed {n : Nat} {s : State} {r : StepRec} (hrec : stepRec s n = some r) (hseal : r.st ≠ .sealed)
    (hleft : r.st ≠ .abandoned) (hepoch : s.epoch ≠ u32Max) :
    opStepAbandon n s = stepResult (abandon s n (if r.vote &&& (vOvf ||| vNan) = 0 then 6 else 1)) 3 .ok := by
  simp [opStepAbandon, hrec, hseal, hleft, hepoch]

theorem opStepAbandon_committed {n : Nat} {s : State} (hrec : stepRec s n = none) (hcommit : n ≤ s.commitN) :
    opStepAbandon n s = stepResult s 3 .alreadyDone := by
  simp [opStepAbandon, hrec, hcommit]

/-! ### The write that gives the command -/

theorem stepCmdWrite_open (s : State) : stepCmdWrite s 1 = opStepOpen (regAt s .hub rHubStepArg).toNat s := rfl
theorem stepCmdWrite_declare (s : State) : stepCmdWrite s 2 = opStepDeclare (regAt s .hub rHubStepArg).toNat s := rfl
theorem stepCmdWrite_abandon (s : State) : stepCmdWrite s 3 = opStepAbandon (regAt s .hub rHubStepArg).toNat s := rfl

theorem runReg_stepCmd {s : State} {p : Path} {c : Nat} (v : Word) (hv : v.toNat = c) (h : writes s p .hub rHubStepCmd c) :
    runReg p .hub rHubStepCmd v s = .next (stepCmdWrite (wroteReg s .hub rHubStepCmd c) c) := by
  subst hv
  exact runWrite_quiet s p .hub rHubStepCmd v.toNat 0 false h rfl rfl (by decide) (by simp [isChecked])

section Canonical
variable {s : State} {p : Path} (hregs : smWf regRst s.regs = true)
include hregs

/-- Writing HUB_STEP_CMD leaves HUB_STEP_ARG. -/
theorem stepArg_wroteReg (v : Nat) : regAt (wroteReg s .hub rHubStepCmd v) .hub rHubStepArg = regAt s .hub rHubStepArg :=
  regAt_wroteReg_ne v hregs (mt Nat.add_left_cancel (by decide))

theorem worksNot_wroteReg (v : Nat) : worksNot (wroteReg s .hub rHubStepCmd v) = worksNot s := by
  have hsec : regAt (wroteReg s .hub rHubStepCmd v) .sec rSecStatus = regAt s .sec rSecStatus :=
    regAt_wroteReg_ne v hregs (by simp only [Blk.base, rSecStatus, rHubStepCmd, ne_eq, Nat.reduceAdd, Nat.reduceEqDiff, not_false_eq_true])
  simp only [worksNot, rbit, hsec, wroteReg_eclipsed]

theorem exec_stepCmdOpen (h : writes s p .hub rHubStepCmd 1) : exec (.stepCmdOpen p) s =
    .next (opStepOpen (regAt s .hub rHubStepArg).toNat (wroteReg s .hub rHubStepCmd 1)) := by
  rw [← stepArg_wroteReg hregs 1, ← stepCmdWrite_open]
  exact runReg_stepCmd 1 rfl h

theorem exec_stepCmdDeclare (h : writes s p .hub rHubStepCmd 2) : exec (.stepCmdDeclare p) s =
    .next (opStepDeclare (regAt s .hub rHubStepArg).toNat (wroteReg s .hub rHubStepCmd 2)) := by
  rw [← stepArg_wroteReg hregs 2, ← stepCmdWrite_declare]
  exact runReg_stepCmd 2 rfl h

theorem exec_stepCmdAbandon (h : writes s p .hub rHubStepCmd 3) : exec (.stepCmdAbandon p) s =
    .next (opStepAbandon (regAt s .hub rHubStepArg).toNat (wroteReg s .hub rHubStepCmd 3)) := by
  rw [← stepArg_wroteReg hregs 3, ← stepCmdWrite_abandon]
  exact runReg_stepCmd 3 rfl h

end Canonical

/-! ### In which states the commands come to that -/

/-- What `Obligations.StepCommands` says of one path and one state. -/
def StepCommandsAt (p : Path) (s : State) : Prop :=
  let n := (regAt s .hub rHubStepArg).toNat
  let b := fun (c : Nat) => wroteReg s .hub rHubStepCmd c
  (∀ t, writes s p .hub rHubStepCmd 1 → n = s.openN + 1 → worksNot s = false → s.pw.left = false → n ≤ stepLast →
    stepLeft s n = false → canOpen s n = true → openStep (b 1) n false = (t, true) →
    exec (.stepCmdOpen p) s = .next (stepResult { t with heldOpen := none } 1 .ok)) ∧
  (writes s p .hub rHubStepCmd 1 → n = s.openN + 1 → worksNot s = false → s.pw.left = false → n ≤ stepLast →
    s.epochHold = false → stepLeft s n = false → canOpen s n = false →
    exec (.stepCmdOpen p) s = .next (stepResult { b 1 with heldOpen := some n } 1 .held)) ∧
  (writes s p .hub rHubStepCmd 1 → n ≠ s.openN + 1 ∨ s.epochHold = true ∨ stepLeft s n = true →
    exec (.stepCmdOpen p) s = .next (stepResult (b 1) 1 .refused)) ∧
  (∀ r, writes s p .hub rHubStepCmd 2 → stepRec s n = some r → r.st = .open → r.declared = false → s.epochHold = false →
    exec (.stepCmdDeclare p) s = .next (if n ≤ s.commitN + 1 then stepResult (enterDraining (b 2) n) 2 .ok
      else stepResult (updStep (b 2) n (fun x => { x with declared := true })) 2 .held)) ∧
  (∀ r, writes s p .hub rHubStepCmd 3 → stepRec s n = some r →
    (r.st = .sealed → exec (.stepCmdAbandon p) s = .next (stepResult (b 3) 3 .alreadyDone)) ∧
    (r.st ≠ .sealed → r.st ≠ .abandoned → s.epoch ≠ u32Max → exec (.stepCmdAbandon p) s =
      .next (stepResult (abandon (b 3) n (if r.vote &&& (vOvf ||| vNan) = 0 then 6 else 1)) 3 .ok))) ∧
  (writes s p .hub rHubStepCmd 3 → stepRec s n = none → n ≤ s.commitN →
    exec (.stepCmdAbandon p) s = .next (stepResult (b 3) 3 .alreadyDone))

theorem stepCommands_iff : Obligations.StepCommands ↔ ∀ p s, StepCommandsAt p s := Iff.rfl

/-- Where the registers are in canonical form, which every command keeps (`exec_keeps`), the commands do
what the statement says. -/
theorem stepCommandsAt_of_canonical {s : State} (p : Path) (hregs : smWf regRst s.regs = true) : StepCommandsAt p s := by
  have hworks : worksNot s = false → worksNot (wroteReg s .hub rHubStepCmd 1) = false := (worksNot_wroteReg hregs 1).trans
  refine ⟨?_, ?_, ?_, ?_, ?_, ?_⟩
  · intro t hw hturn hwork hpwr hlast hleft hcan hopen
    have hhold := epochHold_of_canOpen hcan
    rw [exec_stepCmdOpen hregs hw, opStepOpen_opens (by simpa using hturn) (hworks hwork) (by simpa using hpwr)
      (by simpa using hhold) (by simpa using hleft) hlast (by simpa using hcan) hopen]
  · intro hw hturn hwork hpwr hlast hhold hleft hcan
    rw [exec_stepCmdOpen hregs hw, opStepOpen_held (by simpa using hturn) (hworks hwork) (by simpa using hpwr)
      (by simpa using hhold) (by simpa using hleft) hlast (by simpa using hcan)]
  · intro hw hwhy
    rw [exec_stepCmdOpen hregs hw, opStepOpen_refused (by simpa using hwhy)]
  · intro r hw hrec hst hnew hhold
    rw [exec_stepCmdDeclare hregs hw, opStepDeclare_open (by simpa using hrec) hst hnew (by simpa using hhold),
      wroteReg_commitN]
  · intro r hw hrec
    rw [exec_stepCmdAbandon hregs hw]
    refine ⟨fun hst => ?_, fun hseal hleft hepoch => ?_⟩
    · rw [opStepAbandon_sealed (by simpa using hrec) hst]
    · rw [opStepAbandon_unsealed (by simpa using hrec) hseal hleft (by simpa using hepoch)]
  · intro hw hrec hcommit
    rw [exec_stepCmdAbandon hregs hw, opStepAbandon_committed (by simpa using hrec) (by simpa using hcommit)]

/-- A state out of canonical form: HUB_STEP_CMD is listed with its reset value, and hides the 2 that is listed after it for
HUB_STEP_ARG, which lies below. -/
def hiddenStepArg : State :=
  { State.reset with regs := [(Blk.hub.base + rHubStepCmd, 0), (Blk.hub.base + rHubStepArg, 2)], openN := 1 }

theorem writes_hiddenStepArg : writes hiddenStepArg (.mgmt 0) .hub rHubStepCmd 1 :=
  ⟨rfl, by decide +kernel, by decide +kernel, by decide +kernel, by decide +kernel, by decide +kernel⟩

theorem stepArg_hiddenStepArg : regAt hiddenStepArg .hub rHubStepArg = 0 := by decide +kernel

/-- The write of HUB_STEP_CMD stores 0, which takes its entry away: OPEN then acts on step 2, and holds it. -/
theorem heldOpen_hiddenStepArg : (stepCmdWrite (wroteReg hiddenStepArg .hub rHubStepCmd 1) 1).heldOpen = some 2 := by
  decide +kernel

/-- Refutes O38: the statement is over every state, and where the registers are not in canonical form the write of HUB_STEP_CMD
may change what HUB_STEP_ARG reads as: in `hiddenStepArg` an OPEN that is to be refused is held. What the statement lacks is
the canonical form, with which its clauses hold (`stepCommandsAt_of_canonical`). -/
theorem not_stepCommands : ¬ Obligations.StepCommands := by
  intro h
  obtain ⟨-, -, hrefused, -⟩ := stepCommands_iff.mp h (.mgmt 0) hiddenStepArg
  have hturn : (regAt hiddenStepArg .hub rHubStepArg).toNat ≠ hiddenStepArg.openN + 1 := by simp [stepArg_hiddenStepArg]
  have hexec : exec (.stepCmdOpen (.mgmt 0)) hiddenStepArg = .next (stepCmdWrite (wroteReg hiddenStepArg .hub rHubStepCmd 1) 1) :=
    runReg_stepCmd 1 rfl writes_hiddenStepArg
  have heq := Host.Outcome.next.inj (hexec.symm.trans (hrefused writes_hiddenStepArg (.inl hturn)))
  have hnone : (none : Option Nat) = some 2 := (congrArg State.heldOpen heq).symm.trans heldOpen_hiddenStepArg
  cases hnone

end Sys2Proof.Machine

/-! ## Steps on their way (R32, R35–R41, R46, R174, R523, R524) -/
namespace Sys2Proof.Machine

/-! ### Held commands -/

theorem opHeldOpenRelease_opens {s t : State} {n : Nat} (hheld : s.heldOpen = some n) (hturn : n = s.openN + 1)
    (hcan : canOpen s n = true) (hleft : stepLeft s n = false) (hopen : openStep { s with heldOpen := none } n false = (t, true)) :
    opHeldOpenRelease s = heldResult t 1 .ok := by
  have hgo : n = s.openN + 1 ∧ canOpen s n = true ∧ (!stepLeft s n) = true := ⟨hturn, hcan, by simp [hleft]⟩
  unfold opHeldOpenRelease
  simp only [hheld, if_pos hgo, hopen]

theorem opHeldOpenRelease_of_epochHold {s : State} (hhold : s.epochHold = true) : opHeldOpenRelease s = s := by
  unfold opHeldOpenRelease
  cases hheld : s.heldOpen with
  | none => rfl
  | some n => simp [canOpen_of_epochHold n hhold]

theorem opHeldDeclareRelease_drains {s : State} {r : StepRec}
    (hfind : s.steps.find? (fun x => decide (x.st = .open) && x.declared) = some r) (hnext : r.n ≤ s.commitN + 1)
    (hhold : s.epochHold = false) : opHeldDeclareRelease s = heldResult (enterDraining s r.n) 2 .ok := by
  have hdrain : canDrain s r.n = true := by simp [canDrain_eq _ hhold, hnext]
  unfold opHeldDeclareRelease
  simp only [hfind, hdrain, if_true]

theorem opHeldDeclareRelease_of_epochHold {s : State} (hhold : s.epochHold = true) : opHeldDeclareRelease s = s := by
  unfold opHeldDeclareRelease
  split
  · rw [canDrain_of_epochHold _ hhold, if_neg Bool.false_ne_true]
  · rfl

/-! ### The drain and the vote -/

theorem opDrainComplete_votes {s : State} {r : StepRec} (hfind : s.steps.find? (fun x => decide (x.st = .draining)) = some r)
    (hquiet : transferring s r.n = false) (hhold : s.epochHold = false) : opDrainComplete s = enterVoting s r := by
  unfold opDrainComplete
  simp only [hfind, hquiet, hhold, Bool.or_false, Bool.false_eq_true, if_false]

theorem opDrainComplete_of_epochHold {s : State} (hhold : s.epochHold = true) : opDrainComplete s = s := by
  unfold opDrainComplete
  split
  · rw [hhold, Bool.or_true, if_pos rfl]
  · rfl

/-- A limit that has run out, of the drain or of the vote (R38). -/
theorem stepExpire_due {s : State} {r : StepRec} {st : StepSt} {t : Nat → Tmr}
    (hfind : s.steps.find? (fun x => decide (x.st = st)) = some r) (hdue : tmDue s (t r.n) = true) :
    stepExpire st t s = abandon (raise (tmOff s (t r.n)) .stepTimeout whHub r.n []) r.n 4 := by
  unfold stepExpire
  simp only [hfind, hdue, if_true]

/-! ### The seal, the flip and the replay -/

theorem opStepSeal_seals {s : State} {r : StepRec} (hfind : s.steps.find? (fun x => decide (x.st = .voting)) = some r)
    (hvote : r.ored = some 0) (hdigests : digestsIn s r = true) (hfold : s.foldBusy = none)
    (hhalt : rbit s .chk rChkFoldStatus 0 = false) (hhold : s.epochHold = false) :
    opStepSeal s =
      let u := updStep (tmOff s (.vote r.n)) r.n (fun x => { x with st := .sealed })
      sendSeal (sysObj (aglSeal { u with lastSeal := some (r.n, r.digest.getD []), foldA := .zero, foldB := .zero } r.n)
        oSeal r.n) r := by
  have hgo : r.ored = some 0 ∧ digestsIn s r = true ∧ foldAllows s = true ∧ (!s.epochHold) = true :=
    ⟨hvote, hdigests, by simp [foldAllows, hfold, hhalt], by simp [hhold]⟩
  unfold opStepSeal
  simp only [hfind, if_pos hgo]

theorem opStepSeal_of_epochHold {s : State} (hhold : s.epochHold = true) : opStepSeal s = s := by
  unfold opStepSeal
  split
  · exact if_neg (by simp [hhold])
  · rfl

theorem opPageSetFlip_commits {s : State} {r : StepRec} (hfind : s.steps.find? (fun x => decide (x.st = .sealed)) = some r)
    (hnext : r.n = s.commitN + 1) (hupds : updsDone s r.n = true) (hissue : s.stopIssue = false) (hhold : s.epochHold = false)
    (hbuddy : buddyAllows s r = true) : opPageSetFlip s = commitStep s r := by
  have hsealed : r.st = .sealed := by simpa using List.find?_some hfind
  have hflip : canFlip s r = true := by
    simp [canFlip, hsealed, ← hnext, hupds, hissue, hhold, hbuddy]
  unfold opPageSetFlip
  simp only [hfind, hflip, if_true]

theorem opPageSetFlip_of_epochHold {s : State} (hhold : s.epochHold = true) : opPageSetFlip s = s := by
  unfold opPageSetFlip
  split
  · exact if_neg (by simp [canFlip, hhold])
  · rfl

theorem opReplayStepOpen_opens {s t : State} {r : StepRec}
    (hfind : s.steps.find? (fun x => decide (x.st = .abandoned)) = some r) (hagree : s.agree.active = false)
    (hcan : canOpen s r.n = true) (hworks : worksNot s = false) (hpwr : s.pw.left = false)
    (hopen : openStep s r.n true = (t, true)) : opReplayStepOpen s = t := by
  have hlowest : lowestAbandoned s = some r.n := by simp [lowestAbandoned, hfind]
  unfold opReplayStepOpen
  simp only [hlowest, hagree, hcan, hworks, hpwr, hopen, Bool.not_false, Bool.and_self, if_true]

theorem opReplayStepOpen_of_epochHold {s : State} (hhold : s.epochHold = true) : opReplayStepOpen s = s := by
  unfold opReplayStepOpen
  split
  · exact if_neg (by simp [canOpen_of_epochHold _ hhold])
  · rfl

/-! ### The agreement's timers -/

theorem opAgreeNoticeRepeat_due {s : State} (hactive : s.agree.active = true) (hdue : tmDue s .agreeNotice = true) :
    opAgreeNoticeRepeat s = agreeNotice s :=
  if_pos (by simp [hactive, hdue])

theorem opAgreePhase0Resend_due {s : State} (hactive : s.agree.active = true) (hdue : tmDue s .agreePhase0 = true) :
    opAgreePhase0Resend s = agreePhase0 s :=
  if_pos (by simp [hactive, hdue])

/-- Settles O40: no block is tainted, so each row is its operation, and the lemmas above say what that comes to. That nothing
moves while the steps hold their state after the last epoch is the model's choice (log 243). -/
theorem stepProgress : Obligations.StepProgress := by
  intro s htaint
  have acts {bs : List Blk} {f : State → State} {t : State} (h : f s = t) : run bs f s = .next t :=
    (run_of_untainted htaint).trans (congrArg _ h)
  refine ⟨?_, ?_, ?_, ?_, ?_, ?_, ?_, ?_, ?_, ?_, ?_⟩
  · exact fun n t hheld hturn hcan hleft hopen => acts (opHeldOpenRelease_opens hheld hturn hcan hleft hopen)
  · exact fun r hfind hnext hhold => acts (opHeldDeclareRelease_drains hfind hnext hhold)
  · exact fun r hfind hquiet hhold => acts (opDrainComplete_votes hfind hquiet hhold)
  · exact fun r hfind hdue => acts (stepExpire_due hfind hdue)
  · exact fun r hfind hdue => acts (stepExpire_due hfind hdue)
  · exact fun r hfind hvote hdigests hfold hhalt hhold => acts (opStepSeal_seals hfind hvote hdigests hfold hhalt hhold)
  · exact fun r hfind hnext hupds hissue hhold hbuddy => acts (opPageSetFlip_commits hfind hnext hupds hissue hhold hbuddy)
  · exact fun hhold => ⟨acts (opHeldOpenRelease_of_epochHold hhold), acts (opHeldDeclareRelease_of_epochHold hhold),
      acts (opDrainComplete_of_epochHold hhold), acts (opStepSeal_of_epochHold hhold), acts (opPageSetFlip_of_epochHold hhold),
      acts (opReplayStepOpen_of_epochHold hhold)⟩
  · exact fun hactive hdue => acts (opAgreeNoticeRepeat_due hactive hdue)
  · exact fun hactive hdue => acts (opAgreePhase0Resend_due hactive hdue)
  · exact fun r t hfind hagree hcan hworks hpwr hopen => acts (opReplayStepOpen_opens hfind hagree hcan hworks hpwr hopen)

end Sys2Proof.Machine

/-! ## What a frame taken here does (R52, R155, R186, R334, R335, R526, R527) -/
namespace Sys2Proof.Machine

/-! ### Order -/

/-- Frames other than ACKE and STATUS are sequenced (R334). -/
theorem frameHere_sequenced {s : State} {l : Nat} {f : Frame} (hacke : f.ty ≠ tyAcke) (hstatus : f.ty ≠ tyStatus)
    (hcrc : frameCrcBad f = false) : frameHere s l f = orderTake s l f := by
  simp [frameHere, hacke, hstatus, hcrc]

theorem frameHere_crcBad {s : State} {l : Nat} {f : Frame} (hacke : f.ty ≠ tyAcke) (hstatus : f.ty ≠ tyStatus)
    (hcrc : frameCrcBad f = true) : frameHere s l f = crcFail s { hubCx with step := f.step } := by
  simp [frameHere, hacke, hstatus, hcrc]

section Order
variable {s : State} {l : Nat} {f : Frame} (hesn : f.esn ≠ rxExp s (adLc f.src) (tyClass f.ty))
include hesn

theorem orderTake_duplicate
    (hpast : reached (BitVec.ofNat 32 (rxExp s (adLc f.src) (tyClass f.ty))) (BitVec.ofNat 32 f.esn) = true) :
    orderTake s l f = noteDue (if l < 6 then cnt s (.lnk l) rLnkE2eDup else s) (adLc f.src) := by
  simp [orderTake, hesn, hpast]

/-- A frame ahead of its turn is kept: with an empty store there is room for a frame of any LEN. -/
theorem orderTake_ahead
    (hahead : reached (BitVec.ofNat 32 (rxExp s (adLc f.src) (tyClass f.ty))) (BitVec.ofNat 32 f.esn) = false)
    (hstore : s.e2e.store = []) (hlen : f.body.length ≤ 4096) :
    orderTake s l f = { s with e2e := { s.e2e with store := [{ lc := adLc f.src, cls := tyClass f.ty, frame := f }] } } := by
  have hempty : storeBytes s.e2e = 0 := by simp [storeBytes, hstore]
  have hroom : ¬ storeMax < storeBytes s.e2e + 32 + f.body.length := by
    unfold storeMax
    omega
  simp [orderTake, hesn, hahead, hstore, hroom]

end Order

/-! ### In its turn -/

theorem deliver_stale {s : State} {l : Nat} {f : Frame} (hepoch : f.epoch ≠ 0) (hpast : f.epoch < s.epoch) :
    deliver s l f = cnt s .chk rChkStaleEpoch :=
  if_pos ⟨hepoch, hpast⟩

theorem deliver_epochZero {s : State} {l : Nat} {f : Frame} (hepoch : f.epoch = 0) (hjournal : rxJournaled f = false) :
    deliver s l f = frameFx (adoptEpoch s 0) l f := by
  simp [deliver, hepoch, hjournal]

theorem frameFx_block {s : State} {l : Nat} {f : Frame} (hty : f.ty = tyBlock) (hhub : adHub f.dst = false) :
    frameFx s l f = blockTake s f := by
  simp [frameFx, hty, hhub, tyBlock, tyColl, tyZrun, tyVote, tyDigest, tyRdata]

theorem frameFx_sync {s : State} {l : Nat} {f : Frame} (hty : f.ty = tySync) (hhub : adHub f.dst = false) :
    frameFx s l f = syncTake s l f := by
  simp [frameFx, hty, hhub, tySync, tyBlock, tyColl, tyZrun, tyVote, tyDigest, tyRdata]

theorem frameFx_read {s : State} {l : Nat} {f : Frame} (hty : f.ty = tyRead) (hhub : adHub f.dst = false) :
    frameFx s l f = readTake s f := by
  simp [frameFx, hty, hhub, tyRead, tySync, tyBlock, tyColl, tyZrun, tyVote, tyDigest, tyRdata]

theorem blockTake_written {s : State} {f : Frame}
    (hchk : frameAddrChk s (leAt f.body 0 8 % 2 ^ 48) (leAt f.body 0 8 / 2 ^ 48 * 2 ^ 32 + f.arg)
      (!(unwireBlk (f.body.drop 8)).scales.isEmpty) true = none) :
    blockTake s f = putWire s (leAt f.body 0 8 % 2 ^ 48) (leAt f.body 0 8 / 2 ^ 48 * 2 ^ 32 + f.arg) (unwireBlk (f.body.drop 8)) := by
  unfold blockTake
  simp only [hchk]

section Sync
variable {s : State} {l : Nat} {f : Frame} (hdie : dieIn s (adDie f.dst) = true) (hobj : f.arg % 4096 < 4032)
include hdie hobj

/-- A SYNC frame to a program object of a die in service: its operation decides. -/
theorem syncTake_program (hop : leAt f.body 0 1 ≤ 1) : syncTake s l f =
    if leAt f.body 0 1 = 1 then objPut s (adDie f.dst) (f.arg % 4096) (BitVec.ofNat 32 (leAt f.body 4 4))
    else if leAt f.body 4 4 = 0 ∨ 2147483648 ≤ leAt f.body 4 4 then
      sendStatus (cnt s (.sync (adDie f.dst)) rSyncBadOp) f 0x08
    else objAdd s (adDie f.dst) (f.arg % 4096) (leAt f.body 4 4) := by
  have hsys : isSysObj (f.arg % 4096) = false := by
    simp only [isSysObj, Bool.and_eq_false_iff, decide_eq_false_iff_not]
    omega
  simp [syncTake, hdie, hsys, Nat.not_lt.mpr hop]

theorem syncTake_set (hop : leAt f.body 0 1 = 1) :
    syncTake s l f = objPut s (adDie f.dst) (f.arg % 4096) (BitVec.ofNat 32 (leAt f.body 4 4)) := by
  rw [syncTake_program hdie hobj (Nat.le_of_eq hop), if_pos hop]

theorem syncTake_add (hop : leAt f.body 0 1 = 0) (hpos : 0 < leAt f.body 4 4) (hmax : leAt f.body 4 4 < 2 ^ 31) :
    syncTake s l f = objAdd s (adDie f.dst) (f.arg % 4096) (leAt f.body 4 4) := by
  rw [syncTake_program hdie hobj (by omega), if_neg (by omega), if_neg (by omega)]

end Sync

theorem readTake_served {s : State} {f : Frame} (hpos : 0 < leAt f.body 8 4) (hmax : leAt f.body 8 4 ≤ 65536) :
    readTake s f = ((List.range (leAt f.body 8 4)).foldl (serveBlk f (leAt f.body 0 8) (leAt f.body 16 8)) (s, true)).1 :=
  if_neg (by omega)

/-- Settles O45, along the path of a frame: its type, its CRC, its place in the order, its epoch, its effect. That the CRC is
checked before the order is the model's choice (log 111). -/
theorem frameEffects : Obligations.FrameEffects := by
  intro l s f
  refine ⟨?_, ?_, ?_, ?_, ?_, ?_, ?_, ?_, ?_, ?_⟩
  · exact fun hacke => if_pos hacke
  · exact fun hstatus => (if_neg (by simp [hstatus, tyStatus, tyAcke])).trans (if_pos hstatus)
  · exact fun hacke hstatus hcrc => frameHere_crcBad hacke hstatus hcrc
  · intro hacke hstatus hcrc hesn
    rw [frameHere_sequenced hacke hstatus hcrc]
    exact ⟨orderTake_duplicate hesn, orderTake_ahead hesn⟩
  · exact fun hepoch hpast => deliver_stale hepoch hpast
  · exact fun hepoch hjournal => deliver_epochZero hepoch hjournal
  · exact fun hty hhub hchk => (frameFx_block hty hhub).trans (blockTake_written hchk)
  · exact fun hty hhub hdie hobj hop => (frameFx_sync hty hhub).trans (syncTake_set hdie hobj hop)
  · exact fun hty hhub hdie hobj hop hpos hmax => (frameFx_sync hty hhub).trans (syncTake_add hdie hobj hop hpos hmax)
  · exact fun hty hhub hpos hmax => (frameFx_read hty hhub).trans (readTake_served hpos hmax)

end Sys2Proof.Machine

/-! ## Gang modes, updates and the ends of collectives (R102, R106, R41, R42, R227, R304, R307, R336, R339) -/
namespace Sys2Proof.Machine

/-- Where no block is tainted, a command comes to what its operation comes to (R488). -/
theorem run_eq_of_untainted {bs : List Blk} {f : State → State} {s t : State} (htaint : s.tainted = []) (h : f s = t) :
    run bs f s = .next t :=
  (run_of_untainted htaint).trans (congrArg _ h)

theorem opGangModeChange_idle {q : Nat} {s : State} (hreq : s.gangReq.contains q = true) (hidle : mmaIdle s q = true) :
    opGangModeChange q s =
      setFld { s with gangReq := s.gangReq.filter (· != q) } (.clu q) rCluGangNow 1 0 (fld s (.clu q) rCluGang 1 0) :=
  if_pos (by rw [hreq, hidle]; rfl)

/-! ### Starting an update -/

theorem dualFails_iff {mis : List (Nat × Nat)} : dualFails mis = true ↔ ∃ x ∈ mis, 3 ≤ x.2 := by
  simp [dualFails]

theorem dualFails_eq_false {mis : List (Nat × Nat)} (h : ∀ x ∈ mis, x.2 < 3) : dualFails mis = false := by
  rw [Bool.eq_false_iff, ne_eq, dualFails_iff]
  exact fun ⟨x, hmem, hthree⟩ => Nat.not_lt.mpr hthree (h x hmem)

/-- No access error has the status of success (Table 7.2). -/
theorem AccErr.status_ne_zero (e : AccErr) : e.status ≠ 0 := by
  cases e <;> decide

/-- An update instruction that has read its recipe, and the scale exponents of its operands. -/
def withRecipe (s : State) (o : EngOp) : EngOp :=
  let rx := fun (d : Option Desc) => d.map (fun y => y.readX s o.step)
  { o with recipe := some (rdBytes s (updRecipe o) 64), dd := rx o.dd, da := rx o.da, db := rx o.db }

theorem updFetch_refused {s : State} {o : EngOp} {e : AccErr} (hchk : accChk s (updRecipe o) false = some e) :
    updFetch s o = (raiseAcc s e (whClu o.q) o.step, e.status, o) := by
  simp only [updFetch, hchk]

theorem updFetch_read {s : State} {o : EngOp} (hchk : accChk s (updRecipe o) false = none)
    (hclean : poisoned s (xlatPage s (updRecipe o)) 64 = false) :
    updFetch s o =
      (setOp (traffic s none 0 (xlatPage s (updRecipe o)) 64 false) (withRecipe s o), 0, withRecipe s o) := by
  simp only [updFetch, hchk, hclean, Bool.false_eq_true, if_false]
  rfl

section Start
variable {grp tgt : Nat} {v : UpdEnv} {s : State} {o : EngOp}
  (hpick : engPick s (.upd grp tgt) (fun p => decide (p.phase = .queued) && stepSealed s p.step && !updBehind s p &&
    !s.updWait.contains p.no) = some o)
include hpick

/-- Three disagreements on one block (R41). -/
theorem opUpdStart_commitFails (hmis : ∃ x ∈ v.mis, 3 ≤ x.2) : opUpdStart grp tgt v s =
    kick (completeOp (commitFailed (dualMisses o.step v.mis (memEnv s (opCx o false) v.errs v.reread)) o.step) o 0x14) := by
  simp only [opUpdStart, hpick, dualFails_iff.mpr hmis, if_true]

variable (hmis : ∀ x ∈ v.mis, x.2 < 3) {c : State}
  (hc : dualMisses o.step v.mis (memEnv s (opCx o false) v.errs v.reread) = c)
include hmis hc

theorem opUpdStart_runs (hchk : accChk c (updRecipe o) false = none)
    (hclean : poisoned c (xlatPage c (updRecipe o)) 64 = false) : opUpdStart grp tgt v s =
      updRun (setOp (traffic c none 0 (xlatPage c (updRecipe o)) 64 false) (withRecipe c o)) (withRecipe c o) := by
  simp only [opUpdStart, hpick, dualFails_eq_false hmis, hc, updFetch_read hchk hclean, Bool.false_eq_true, if_false, ne_eq,
    not_true_eq_false]

theorem opUpdStart_refused {e : AccErr} (hchk : accChk c (updRecipe o) false = some e) : opUpdStart grp tgt v s =
    kick (completeOp (raiseAcc c e (whClu o.q) o.step) o e.status) := by
  simp only [opUpdStart, hpick, dualFails_eq_false hmis, hc, updFetch_refused hchk, Bool.false_eq_true, if_false,
    if_pos e.status_ne_zero]

end Start

/-! ### An update on its way, and its end -/

theorem opUpdFrameResume_resumes {grp tgt : Nat} {s : State} {o : EngOp}
    (hpick : engPick s (.upd grp tgt) (fun p => decide (p.phase = .queued) && s.updWait.contains p.no) = some o) :
    opUpdFrameResume grp tgt s = updRun s o := by
  simp only [opUpdFrameResume, hpick]

theorem opUpdComplete_completes {grp tgt : Nat} {s : State} {o : EngOp}
    (hpick : engPick s (.upd grp tgt) (fun p => decide (p.phase = .done)) = some o) :
    opUpdComplete grp tgt s = kick (completeOp (updStep s o.step (fun r => { r with updDone := r.updDone + 1 })) o 0) := by
  simp only [opUpdComplete, hpick]

/-! ### The end of a collective -/

theorem opCollComplete_refused {s : State} {o : EngOp} (href : collRefused s = some o) :
    opCollComplete 16 s = kick (completeOp s o o.status) := by
  simp only [opCollComplete, href, if_true]

theorem opCollComplete_ended {k : Nat} {s : State} {c : Coll} {o : EngOp} (hk : k < 16) (hcoll : s.colls[k]? = some c)
    (hend : collEnded s c = true) (hown : c.fold = none) (hop : s.ops.find? (fun p => decide (p.no = c.no)) = some o) :
    opCollComplete k s = kick (completeOp (dropColl s c) o (collStat s c)) := by
  simp only [opCollComplete, if_neg (Nat.ne_of_lt hk), hcoll, hend, hown, hop, Bool.not_true, Bool.false_eq_true, if_false]

/-- Settles O27: no block is tainted, so each row is its operation; an update starts along the checks of its disagreements and
of its recipe's address. -/
theorem gangUpdateCollective : Obligations.GangUpdateCollective := by
  refine ⟨?_, ?_, ?_⟩
  · exact fun q s htaint hreq hidle => run_eq_of_untainted htaint (opGangModeChange_idle hreq hidle)
  · intro g e v s o htaint
    refine ⟨fun hpick hmis => ⟨fun hchk hclean => ?_, fun k hchk => ?_⟩, fun hpick hmis => ?_, fun hpick => ?_, fun hpick => ?_⟩
    · exact run_eq_of_untainted htaint (opUpdStart_runs hpick hmis rfl hchk hclean)
    · exact run_eq_of_untainted htaint (opUpdStart_refused hpick hmis rfl hchk)
    · exact run_eq_of_untainted htaint (opUpdStart_commitFails hpick hmis)
    · exact run_eq_of_untainted htaint (opUpdFrameResume_resumes hpick)
    · exact run_eq_of_untainted htaint (opUpdComplete_completes hpick)
  · intro k s htaint
    refine ⟨fun o hk href => ?_, fun c o hk hcoll hend hown hop => ?_⟩
    · exact run_eq_of_untainted htaint (hk ▸ opCollComplete_refused href)
    · exact run_eq_of_untainted htaint (opCollComplete_ended hk hcoll hend hown hop)

end Sys2Proof.Machine

/-! ## Register reads, and accesses of the cores to memory (R140, R200, R302, R473, R482, R489, R500) -/
namespace Sys2Proof.Machine

/-! ### Reads of registers -/

theorem readAt_xlatData (p : Path) (s : State) : readAt p .xlat rXlatData s =
    (setFld s .xlat rXlatIdx 17 0 (fld s .xlat rXlatIdx 17 0 + 1), regShow s .xlat rXlatData) :=
  if_pos ⟨rfl, rfl⟩

section ReadAt
variable {p : Path} {s : State} {b : Blk} {o : Nat} (hxlat : ¬ (b = .xlat ∧ o = rXlatData))
include hxlat

theorem readAt_counterLo (hlo : isCtrLo b o = true) : readAt p b o s = (setLatch s (pathKey p) b o, regShow s b o) := by
  rw [readAt, if_neg hxlat, if_pos hlo]

/-- A register that is no word of a 64-bit counter. -/
theorem readAt_plain (hlo : isCtrLo b o = false) (hhi : o < 4 ∨ isCtrLo b (o - 4) = false) :
    readAt p b o s = (rcTake s b o, w32 (hideWo (fieldsAt b o) (regShow s b o).toNat)) := by
  have hnoHi : ¬ (4 ≤ o ∧ isCtrLo b (o - 4) = true) := by
    rintro ⟨hfour, hctr⟩
    rcases hhi with hlow | hno
    · omega
    · simp [hno] at hctr
  rw [readAt, if_neg hxlat, if_neg (by simp [hlo]), if_neg hnoHi]
  rfl

end ReadAt

section PathRead
variable {p : Path} {off : Nat} {s : State} (hup : pathUp s p = true) (halign : off % 4 = 0)
include hup halign

/-- A read that its path may make shows the register it reaches. -/
theorem pathRead_reaches {b : Blk} {o : Nat} {x : State × Word} (hmay : mayRead p off = true)
    (hhit : regHit s off = (s, some (b, o))) (hread : readAt p b o s = x) :
    pathRead p off s = corePut x.1 p (.value x.2.toNat) := by
  simp only [pathRead, regRead, hup, halign, hmay, hhit, hread, decide_true, Bool.and_self, if_true]

/-- What a control core may not read is an access fault: its SEC block (R473; the model's choice, log 60). -/
theorem pathRead_core_denied {d : Fin 4} {k : Fin 8} (hcore : p = .core d k) (hmay : mayRead p off = false) :
    pathRead p off s = corePut s p .fault := by
  subst hcore
  simp only [pathRead, hup, halign, hmay, decide_true, Bool.and_self, if_true, Bool.false_eq_true, if_false]

end PathRead

/-! ### Accesses of a control core to memory -/

/-- The register space begins at 0xF000_0000_0000 (Table 1.6). -/
theorem not_regSpace_of_below {a : Nat} (ha : a < 0xF00000000000) : ¬ (0xF00000000000 ≤ a ∧ a < 0x1000000000000) :=
  mt And.left (Nat.not_le.mpr ha)

section CoreAccess
variable {s : State} {d : Fin 4} {k : Fin 8} {a n : Nat} {c : CoreAcc} (hup : pathUp s (.core d k) = true) (hn : n ≠ 0)
  (ha : a < 0xF00000000000)
include hup hn ha

theorem opCoreMemAccess_refused {e : AccErr} (herr : coreErr s (.core d k) a n c = some e) :
    opCoreMemAccess (.core d k) a n c [] s = coreFault s (.core d k) e := by
  simp only [opCoreMemAccess, hup, hn, if_neg (not_regSpace_of_below ha), herr, Bool.not_true,
    Bool.false_eq_true, or_self, if_false]

/-- An access that passes its checks and meets no poisoned sector, where the environment brings no memory error. -/
theorem opCoreMemAccess_passes (herr : coreErr s (.core d k) a n c = none) (hclean : corePoison s a n c = false) :
    opCoreMemAccess (.core d k) a n c [] s = coreMem s (.core d k) a n c := by
  simp only [opCoreMemAccess, hup, hn, if_neg (not_regSpace_of_below ha), herr, memErrs, List.foldl_nil, hclean,
    Bool.not_true, Bool.false_eq_true, or_self, if_false]

end CoreAccess

theorem coreMem_sc_reserved {s : State} {p : Path} {a n v : Nat} (hresv : (p, xlatPage s a / 64) ∈ s.resv) :
    coreMem s p a n (.sc v) = corePut (dropResv (coreWr s a n v) p) p (.value 0) :=
  if_pos (List.contains_iff_mem.mpr hresv)

theorem coreMem_sc_unreserved {s : State} {p : Path} {a n v : Nat} (hresv : (p, xlatPage s a / 64) ∉ s.resv) :
    coreMem s p a n (.sc v) = corePut (dropResv s p) p (.value 1) :=
  if_neg (mt List.contains_iff_mem.mp hresv)

/-- Settles O35: a read comes to what the register it reaches gives; an access to memory that its checks pass comes to `coreMem`,
whose cases are the accesses. That a control core's access to SEC faults is the model's choice (log 60), as are the reservation
(log 40) and the shapes of accesses (log 61). -/
theorem registerReads : Obligations.RegisterReads := by
  refine ⟨?_, ?_⟩
  · intro p a s b o htaint hup halign
    refine ⟨fun hmay hhit hlo hxlat => ?_, fun hmay hhit hlo hxlat hhi => ?_, fun hmay hhit => ?_, fun d k hcore hmay => ?_⟩
    · exact run_eq_of_untainted htaint (pathRead_reaches hup halign hmay hhit (readAt_counterLo hxlat hlo))
    · exact run_eq_of_untainted htaint (pathRead_reaches hup halign hmay hhit (readAt_plain hxlat hlo hhi))
    · exact run_eq_of_untainted htaint (pathRead_reaches hup (by decide) hmay hhit (readAt_xlatData p s))
    · exact run_eq_of_untainted htaint (pathRead_core_denied hup halign hcore hmay)
  · intro d k a n s v p pa old ok
    have passes {c : CoreAcc} (h : ok c) : exec (.coreMemAccess p a n c []) s = .next (coreMem s p a.toNat n c) := by
      obtain ⟨htaint, hup, hn, ha, herr, hclean⟩ := h
      exact run_eq_of_untainted htaint (opCoreMemAccess_passes hup hn ha herr hclean)
    refine ⟨passes, passes, passes, fun h hresv => ?_, fun h hresv => ?_, fun op => passes, ?_⟩
    · exact (passes h).trans (congrArg _ (coreMem_sc_reserved hresv))
    · exact (passes h).trans (congrArg _ (coreMem_sc_unreserved hresv))
    · exact fun c e htaint hup hn ha herr => run_eq_of_untainted htaint (opCoreMemAccess_refused hup hn ha herr)

end Sys2Proof.Machine

/-! ## An instruction of a sequencer that issues (R171, R175, R488) -/
namespace Sys2Proof.Machine

section Issues
variable {s : State} {q : Fin 256} {op : PtiOp} {w : PtiWord} (h : issues s q op w) {bs : List Blk} {act : State → State}
include h

/-- An instruction that its sequencer executes itself acts, once it issues. -/
theorem run_ptiSelf_of_issues : run bs (ptiSelf op q w act) s = .next (act (atIssue s q w)) := by
  obtain ⟨htaint, hready, hguard⟩ := h
  exact run_eq_of_untainted htaint ((if_pos hready).trans (if_pos hguard))

/-- An instruction of an engine is handed over, once it issues. -/
theorem run_ptiIssue_of_issues : run bs (ptiIssue op q w act) s = .next (act (atIssue s q w)) := by
  obtain ⟨htaint, hready, hguard⟩ := h
  exact run_eq_of_untainted htaint ((if_pos hready).trans (if_pos hguard))

end Issues

/-! ### Immediates -/

theorem sextI_toNat (v : BitVec 48) : sextI 48 v.toNat = v.toInt := by
  rw [BitVec.toInt_eq_toNat_cond, sextI, Nat.mod_eq_of_lt v.isLt]
  by_cases hpos : v.toNat < 2 ^ 47
  · rw [if_pos hpos, if_pos (by omega)]
  · rw [if_neg hpos, if_neg (by omega)]

/-- The immediate as `sext48` extends it is the immediate extended to 64 bits. -/
theorem sext48_toNat (v : BitVec 48) : sext48 v.toNat = v.signExtend 64 := by
  rw [sext48, sextI_toNat, BitVec.signExtend]

theorem addSext48_toNat (a : DWord) (v : BitVec 48) : addSext48 a v.toNat = (a + v.signExtend 64).toNat := by
  rw [addSext48, sext48_toNat]

/-! ## Scalar and predicate instructions (R203, R209, R213, Table 7.4) -/

/-- CMP compares as signed or unsigned numbers. -/
theorem cmpVal_eq (cc : Nat) (y z : DWord) : cmpVal cc y z =
    match cc with
    | 0 => decide (y = z) | 1 => decide (y ≠ z) | 2 => decide (y.toInt < z.toInt) | 3 => decide (z.toInt ≤ y.toInt)
    | 4 => decide (y.toNat < z.toNat) | _ => decide (z.toNat ≤ y.toNat) := by
  rcases cc with _ | _ | _ | _ | _ | cc
  · rfl
  · exact (decide_not ..).symm
  · rfl
  · exact (decide_not ..).symm.trans (decide_eq_decide.mpr Int.not_lt)
  · rfl
  · exact (decide_not ..).symm.trans (decide_eq_decide.mpr Nat.not_lt)

theorem plogVal_eq (op : Nat) (m n : Bool) : plogVal op m n =
    match op with
    | 0 => m && n | 1 => m || n | 2 => xor m n | _ => m && !n := by
  rcases op with _ | _ | _ | op
  · rfl
  · rfl
  · cases m <;> cases n <;> rfl
  · rfl

/-- Settles O9, row by row: an instruction that issues acts (`run_ptiSelf_of_issues`), and what its action writes is the value of
Table 7.4. -/
theorem scalarInstructions : Obligations.ScalarInstructions := by
  refine ⟨fun x hx q w s h => ?_, fun q w s => ⟨fun h => ?_, fun h => ?_, fun h => ?_, fun h => ?_⟩,
    fun q w s => ⟨fun h => ?_, fun h => ?_⟩⟩
  · simp only [List.mem_cons, List.not_mem_nil, or_false] at hx
    rcases hx with rfl | rfl | rfl | rfl | rfl | rfl | rfl | rfl | rfl <;> exact run_ptiSelf_of_issues h
  · simp only [← sext48_toNat]
    exact run_ptiSelf_of_issues h
  · exact run_ptiSelf_of_issues h
  · exact run_ptiSelf_of_issues h
  · rw [← taken_beacon s q w]
    exact run_ptiSelf_of_issues h
  · exact (run_ptiSelf_of_issues h).trans (congrArg (fun v => Host.Outcome.next (selfDone (setSeq _ q (putP _ _ v)) q w))
      (cmpVal_eq ..))
  · exact (run_ptiSelf_of_issues h).trans (congrArg (fun v => Host.Outcome.next (selfDone (setSeq _ q (putP _ _ v)) q w))
      (plogVal_eq ..))

/-! ## Control flow (R196, R208) -/

section Flow
variable {s : State} {q : Nat} {w : PtiWord}

theorem opJmp_aligned (h : jumpTarget (seqAt s q).pc w % 16 = 0) :
    opJmp q w s = seqEnd (signal s q w) q (jumpTarget (seqAt s q).pc w) :=
  if_neg (fun hne => hne h)

theorem opCall_taken (h : jumpTarget (seqAt s q).pc w % 16 = 0) (hdepth : (seqAt s q).stack.length < 8) :
    opCall q w s = seqEnd (signal (setSeq s q { seqAt s q with stack := pcNext (seqAt s q).pc :: (seqAt s q).stack }) q w) q
      (jumpTarget (seqAt s q).pc w) :=
  if_neg (by omega)

theorem opRet_pops {a : Nat} {r : List Nat} (h : (seqAt s q).stack = a :: r) :
    opRet q w s = seqEnd (signal (setSeq s q { seqAt s q with stack := r }) q w) q a := by
  simp only [opRet, h]

end Flow

/-- Settles O13: each row acts once it issues, and JMP, CALL and RET act along the checks of R208. That CTL.STEP marks the step it
names is the model's reading (log 25). -/
theorem controlFlow : Obligations.ControlFlow := by
  refine ⟨fun q w s => ⟨fun h => ?_, fun h hdst => ?_, fun h hdst hdepth => ?_, fun a r h hstack => ?_⟩,
    fun q w s => ⟨fun h => ?_, fun h => ?_, fun h => ?_⟩⟩
  · exact run_ptiSelf_of_issues h
  · exact (run_ptiSelf_of_issues h).trans (congrArg _ (opJmp_aligned hdst))
  · exact (run_ptiSelf_of_issues h).trans (congrArg _ (opCall_taken hdst hdepth))
  · exact (run_ptiSelf_of_issues h).trans (congrArg _ (opRet_pops hstack))
  · exact run_ptiSelf_of_issues h
  · exact run_ptiSelf_of_issues h
  · exact run_ptiSelf_of_issues h

end Sys2Proof.Machine

/-! ## What an operation changes of a sparse map -/
namespace Sys2Proof.Machine

/-- From one sparse map to another nothing changes but at the keys of `P`, and the canonical form stays. -/
def OnlyAt {α : Type} [DecidableEq α] (d : Nat → α) (P : Nat → Prop) (m m' : SMap α) : Prop :=
  smWf d m = true → smWf d m' = true ∧ ∀ k, ¬ P k → smGet d m' k = smGet d m k

namespace OnlyAt
variable {α : Type} [DecidableEq α] {d : Nat → α} {P : Nat → Prop} {m m' m'' : SMap α}

theorem refl (m : SMap α) : OnlyAt d P m m := fun h => ⟨h, fun _ _ => rfl⟩

theorem trans (h : OnlyAt d P m m') (h' : OnlyAt d P m' m'') : OnlyAt d P m m'' := fun hm =>
  have ⟨hm', hk⟩ := h hm
  have ⟨hm'', hk'⟩ := h' hm'
  ⟨hm'', fun k hP => (hk' k hP).trans (hk k hP)⟩

theorem wf (h : OnlyAt d P m m') (hm : smWf d m = true) : smWf d m' = true := (h hm).1

theorem get (h : OnlyAt d P m m') (hm : smWf d m = true) {k : Nat} (hk : ¬ P k) : smGet d m' k = smGet d m k := (h hm).2 k hk

theorem mono {P' : Nat → Prop} (h : OnlyAt d P m m') (hP : ∀ k, P k → P' k) : OnlyAt d P' m m' := fun hm =>
  have ⟨hm', hk⟩ := h hm
  ⟨hm', fun k hn => hk k (mt (hP k) hn)⟩

theorem put {k : Nat} (hP : P k) (v : α) : OnlyAt d P m (smPut d m k v) := fun hm =>
  ⟨smWf_smPut k v hm, fun _ hj => smGet_smPut_ne v (fun e => hj (e ▸ hP)) hm⟩

theorem put_self (k : Nat) (v : α) : OnlyAt d (· = k) m (smPut d m k v) := put (P := (· = k)) rfl v

theorem foldl {σ β : Type} {g : σ → SMap α} {f : σ → β → σ} {l : List β}
    (hf : ∀ s, ∀ x ∈ l, OnlyAt d P (g s) (g (f s x))) (s : σ) : OnlyAt d P (g s) (g (l.foldl f s)) := by
  induction l generalizing s with
  | nil => exact refl (g s)
  | cons x l ih => exact (hf s x (.head l)).trans (ih (fun t y hy => hf t y (.tail x hy)) (f s x))

end OnlyAt

/-! ## Registers of a fetch (R257, R282, R283, R286) -/

theorem sramSpace_ne_fast (o d : Nat) : sramSpace o ≠ .fast d := by
  unfold sramSpace
  dsimp only
  split
  · exact nofun
  split
  · exact nofun
  split
  · exact nofun
  · exact nofun

theorem lt_of_spaceOf_fast {s : State} {a d : Nat} (h : spaceOf s a = .fast d) : a < 0x28000000000 := by
  unfold spaceOf at h
  split at h
  next hfast => exact hfast
  split at h
  · cases h
  split at h
  · exact absurd h (sramSpace_ne_fast _ d)
  split at h
  · cases h
  · cases h

theorem hcOf_lt {a : Nat} (h : a < 0x28000000000) : hcOf a < 64 := by
  have hdie : a / 0xA000000000 < 4 := Nat.div_lt_of_lt_mul h
  dsimp only [hcOf]
  omega

theorem npkg_pos (s : State) : 0 < npkg s := by
  unfold npkg
  split <;> decide

theorem npkg_le (s : State) : npkg s ≤ 64 := by
  unfold npkg
  split <;> decide

/-- A tier address is homed by one of the controllers of its tier (R262, R264). -/
theorem ctrlOf_lt {s : State} {a : Nat} {b : Blk} (h : ctrlOf s a = some b) : ∃ c < 64, b = .hc c ∨ b = .lpc c := by
  unfold ctrlOf at h
  split at h
  next hfast => exact ⟨hcOf a, hcOf_lt (lt_of_spaceOf_fast hfast), .inl (Option.some.inj h).symm⟩
  next => exact ⟨lpcOf s a, Nat.lt_of_lt_of_le (Nat.mod_lt _ (npkg_pos s)) (npkg_le s), .inr (Option.some.inj h).symm⟩
  next => cases h

theorem cnt64_onlyAt {P : Nat → Prop} (s : State) {b : Blk} {o : Nat} (n : Nat) (hlo : P (b.base + o))
    (hhi : P (b.base + (o + 4))) : OnlyAt regRst P s.regs (cnt64 s b o n).regs :=
  (OnlyAt.put hlo _).trans (OnlyAt.put hhi _)

theorem ctrlBytes_onlyAt (q : Nat) (s : State) (a n : Nat) (wr : Bool) :
    OnlyAt regRst (fetchCounter q) s.regs (ctrlBytes s a n wr).regs := by
  unfold ctrlBytes
  split
  next b hctrl =>
    obtain ⟨c, hc, hb⟩ := ctrlOf_lt hctrl
    have counts {o : Nat} (ho : o ∈ [rHcRdBytesLo, rHcRdBytesHi, rHcWrBytesLo, rHcWrBytesHi]) : fetchCounter q (b.base + o) :=
      .inr ⟨c, hc, o, ho, hb.imp (congrArg (Blk.base · + o)) (congrArg (Blk.base · + o))⟩
    cases wr
    · exact cnt64_onlyAt s n (counts (by decide)) (counts (by decide))
    · exact cnt64_onlyAt s n (counts (by decide)) (counts (by decide))
  next => exact .refl _

/-- The hits and misses of a region's cache. -/
theorem cacheCounts_onlyAt (q hits misses : Nat) {s t : State} (hregs : t.regs = s.regs) :
    OnlyAt regRst (fetchCounter q) s.regs (cnt64 (cnt64 t (.rgn (q / 16 / 4) (q / 16 % 4)) rRgnCacheHitLo hits)
      (.rgn (q / 16 / 4) (q / 16 % 4)) rRgnCacheMissLo misses).regs := by
  have counts {o : Nat} (ho : o ∈ [rRgnCacheHitLo, rRgnCacheHitHi, rRgnCacheMissLo, rRgnCacheMissHi]) :
      fetchCounter q (Blk.base (.rgn (q / 16 / 4) (q / 16 % 4)) + o) :=
    .inl ⟨o, ho, by rw [Nat.div_div_eq_div_mul]⟩
  rw [← hregs]
  exact (cnt64_onlyAt t hits (counts (by decide)) (counts (by decide))).trans
    (cnt64_onlyAt _ misses (counts (by decide)) (counts (by decide)))

theorem cacheLine_onlyAt (q hint a n : Nat) (s : State) (line : Nat) :
    OnlyAt regRst (fetchCounter q) s.regs (cacheLine (q / 16) hint a n false s line).regs := by
  unfold cacheLine
  dsimp only
  generalize hcounted : cnt64 (cnt64 _ _ _ _) _ _ _ = u
  have hu : OnlyAt regRst (fetchCounter q) s.regs u.regs := hcounted ▸ cacheCounts_onlyAt q _ _ rfl
  clear hcounted
  simp only [Bool.false_and, Bool.false_eq_true, if_false]
  split
  · exact (hu.trans (ctrlBytes_onlyAt q _ _ _ _)).trans (ctrlBytes_onlyAt q _ _ _ _)
  · exact hu.trans (ctrlBytes_onlyAt q _ _ _ _)

/-- A read through the region's cache. -/
theorem traffic_onlyAt (q hint a n : Nat) (s : State) :
    OnlyAt regRst (fetchCounter q) s.regs (traffic s (some (q / 16)) hint a n false).regs := by
  unfold traffic
  split
  · exact .refl _
  · exact OnlyAt.foldl (g := State.regs) (fun t line _ => cacheLine_onlyAt q hint a n t line) s

theorem fetched_onlyAt (q : Nat) (s : State) : OnlyAt regRst (fetchCounter q) s.regs (fetched s q).regs := by
  unfold fetched
  dsimp only
  split
  · exact .refl _
  · split
    · exact .refl _
    · exact traffic_onlyAt q 0 _ 16 { s with free := s.free + 1 }

end Sys2Proof.Machine

/-! ## The frame of the register-only instructions (R171, R173, R213) -/
namespace Sys2Proof.Machine

/-- The registers that a register-only instruction of sequencer q may change: CLU_SEQ_STATUS, the arms of its die, and the
counters of its fetch. -/
def scalarReg (q k : Nat) : Prop :=
  k = Blk.base (.clu q) + rCluSeqStatus ∨ (∃ a < 64, k = Blk.base (.sync (q / 64)) + (0x10000 + 16 * a)) ∨ fetchCounter q k

/-- What no register-only instruction touches. -/
def untouched (s : State) : SMap Byte × List EngOp × List Nat × List PageSet × List (Nat × StepSt) :=
  (s.mem, s.ops, s.poison, s.pages, s.steps.map (fun r => (r.n, r.st)))

/-- The completion object of an instruction, if it has one, is no system object (R187). -/
def programSig (w : PtiWord) : Prop := w.sigv = true → w.sig.toNat < 4032

/-- What a register-only instruction of sequencer q leaves as it was. -/
structure ScalarFrame (q : Nat) (w : PtiWord) (s t : State) : Prop where
  rest : untouched t = untouched s
  seqs : OnlyAt (fun _ => Seq.reset) (· = q) s.seqs t.seqs
  evt : programSig w → t.evt = s.evt
  regs : programSig w → OnlyAt regRst (scalarReg q) s.regs t.regs

namespace ScalarFrame
variable {q : Nat} {w : PtiWord} {s t u : State}

theorem refl (s : State) : ScalarFrame q w s s := ⟨rfl, .refl _, fun _ => rfl, fun _ => .refl _⟩

theorem trans (h : ScalarFrame q w s t) (h' : ScalarFrame q w t u) : ScalarFrame q w s u where
  rest := h'.rest.trans h.rest
  seqs := h.seqs.trans h'.seqs
  evt hsig := (h'.evt hsig).trans (h.evt hsig)
  regs hsig := (h.regs hsig).trans (h'.regs hsig)

theorem mem (h : ScalarFrame q w s t) : t.mem = s.mem := congrArg Prod.fst h.rest

end ScalarFrame

section Frame
variable (q : Nat) (w : PtiWord) (s : State)

theorem setSeq_frame (x : Seq) : ScalarFrame q w s (setSeq s q x) :=
  ⟨rfl, .put_self q x, fun _ => rfl, fun _ => .refl _⟩

theorem seqEnd_frame (pc : Nat) : ScalarFrame q w s (seqEnd s q pc) := setSeq_frame q w s _

theorem seqNext_frame : ScalarFrame q w s (seqNext s q) := seqEnd_frame q w s _

theorem fetched_frame : ScalarFrame q w s (fetched s q) where
  rest := fetched_aside (f := untouched) ⟨fun _ _ _ _ => rfl, fun _ _ => rfl⟩ (fun _ _ => rfl) s q
  seqs := fetched_seqs s q ▸ .refl _
  evt _ := fetched_evt s q
  regs _ := (fetched_onlyAt q s).mono fun _ h => .inr (.inr h)

theorem setNdet_frame : ScalarFrame q w s (setNdet s q) := by
  unfold setNdet
  split
  · refine ⟨?_, .put_self q _, fun _ => rfl, fun _ => .put (.inl rfl) _⟩
    have hsteps (n : Nat) : (s.steps.map (fun r => if r.n = n then { r with ndet := true } else r)).map (fun r => (r.n, r.st)) =
        s.steps.map (fun r => (r.n, r.st)) := by
      rw [List.map_map]
      exact List.map_congr_left fun r _ => by dsimp only [Function.comp]; split <;> rfl
    simp only [untouched, hsteps]
  · exact .refl s

theorem readP_frame (n : Nat) : ScalarFrame q w s (readP s q n) := by
  unfold readP
  split
  · exact setNdet_frame q w s
  · exact .refl s

theorem taken_frame : ScalarFrame q w s (taken s q w) := (fetched_frame q w s).trans (readP_frame q w _ _)

/-- Arms that fire change no register but their own. -/
theorem fireArms_onlyAt (die : Nat) {arms : List Nat} (harms : ∀ a ∈ arms, a < 64) :
    OnlyAt regRst (fun k => ∃ a < 64, k = Blk.base (.sync die) + (0x10000 + 16 * a)) s.regs (fireArms s die arms).regs := by
  unfold fireArms
  dsimp only
  refine OnlyAt.foldl (g := fun r => r) (fun r a ha => ?_) s.regs
  exact OnlyAt.put ⟨a, harms a ha, rfl⟩ _

theorem armsDue_lt {objs : SMap Word} {die a : Nat} (h : a ∈ armsDue objs s die) : a < 64 :=
  List.mem_range.mp (List.mem_filter.mp h).1

theorem objPut_frame (i : Nat) (v : Word) : ScalarFrame q w s (objPut s (q / 64) i v) where
  rest := rfl
  seqs := .refl _
  evt _ := rfl
  regs _ := (fireArms_onlyAt { s with objs := _ } (q / 64) fun _ ha => armsDue_lt s (List.mem_filter.mp ha).1).mono
    fun _ h => .inr (.inl h)

theorem signal_frame : ScalarFrame q w s (signal s q w) := by
  unfold signal objSignal
  split
  next hsigv =>
    split
    · exact .refl s
    split
    next hsys =>
      have hnot : ¬ programSig w := fun h => by
        simp only [isSysObj, Bool.and_eq_true, decide_eq_true_eq] at hsys
        have hprogram := h hsigv
        omega
      exact ⟨rfl, .refl _, (absurd · hnot), (absurd · hnot)⟩
    next => exact objPut_frame q w s _ _
  next => exact .refl s

theorem selfDone_frame : ScalarFrame q w s (selfDone s q w) := (signal_frame q w s).trans (seqNext_frame q w _)

theorem selfSet_frame (f : Seq → Seq) : ScalarFrame q w s (selfSet q w f s) :=
  (setSeq_frame q w s _).trans (selfDone_frame q w _)

theorem opBread_frame : ScalarFrame q w s (opBread q w s) := (setNdet_frame q w s).trans (selfSet_frame q w _ _)

theorem opPlog_frame : ScalarFrame q w s (opPlog q w s) :=
  ((readP_frame q w s _).trans (readP_frame q w _ _)).trans (selfSet_frame q w _ _)

end Frame

/-- An instruction of the sequencer acts; or its guard is false or it does not issue, which is within the frame (R171, R175). -/
theorem ptiSelf_acts_or_frame (op : PtiOp) (q : Nat) (w : PtiWord) (act : State → State) (s : State) :
    ptiSelf op q w act s = act (taken s q w) ∨ ScalarFrame q w s (ptiSelf op q w act s) := by
  have htaken := taken_frame q w s
  unfold ptiSelf
  dsimp only
  split
  · split
    · exact .inl rfl
    · split
      · exact .inr (htaken.trans (seqNext_frame q w _))
      · exact .inr (htaken.trans (selfDone_frame q w _))
  · exact .inr (.refl s)

theorem ptiSelf_frame {op : PtiOp} {q : Nat} {w : PtiWord} {act : State → State} (hact : ∀ t, ScalarFrame q w t (act t))
    (s : State) : ScalarFrame q w s (ptiSelf op q w act s) := by
  rcases ptiSelf_acts_or_frame op q w act s with h | h
  · exact h ▸ (taken_frame q w s).trans (hact _)
  · exact h

/-- A command that answers a next state answers what its operation comes to. -/
theorem of_run_next {P : State → Prop} {bs : List Blk} {f : State → State} {s t : State} (h : run bs f s = .next t)
    (hP : P (f s)) : P t := by
  unfold run at h
  split at h
  · cases h
  · exact Host.Outcome.next.inj h ▸ hP

theorem scalarRows_frame {q : Fin 256} {w : PtiWord} {s t : State} :
    ∀ x ∈ ([(.nop, .nop), (.ctlSlipg, .ctlSlipg), (.bread, .bread)] ++ moveRows.take 14 :
        List ((Fin 256 → PtiWord → Instr) × PtiOp)), exec (x.1 q w) s = .next t → ScalarFrame q w s t := by
  intro x hx h
  simp only [moveRows, List.take_succ_cons, List.take_zero, List.cons_append, List.nil_append, List.mem_cons, List.not_mem_nil,
    or_false] at hx
  rcases hx with rfl | rfl | rfl | rfl | rfl | rfl | rfl | rfl | rfl | rfl | rfl | rfl | rfl | rfl | rfl | rfl | rfl
  · exact of_run_next h (ptiSelf_frame (selfDone_frame q w) s)
  · exact of_run_next h (ptiSelf_frame (fun u => selfSet_frame q w u _) s)
  · exact of_run_next h (ptiSelf_frame (opBread_frame q w) s)
  -- LI to CMP change the sequencer and complete.
  iterate 13 exact of_run_next h (ptiSelf_frame (fun u => selfSet_frame q w u _) s)
  · exact of_run_next h (ptiSelf_frame (opPlog_frame q w) s)

end Sys2Proof.Machine

/-! ## The frame of the instructions that read (R194, R207, R210, R211) -/
namespace Sys2Proof.Machine

/-- Memory and the sequencers. -/
def memSeqs (s : State) : SMap Byte × SMap Seq := (s.mem, s.seqs)

theorem memSeqs_congr {s t : State} (hmem : t.mem = s.mem) (hseqs : t.seqs = s.seqs) : memSeqs t = memSeqs s :=
  Prod.ext hmem hseqs

theorem memSeqs_aside : Aside memSeqs := ⟨fun _ _ _ _ => memSeqs_congr rfl rfl, fun _ _ => memSeqs_congr rfl rfl⟩

/-- What an instruction of sequencer q that stores nothing leaves as it was: memory, and every other sequencer. -/
structure LoadFrame (q : Nat) (s t : State) : Prop where
  mem : t.mem = s.mem
  seqs : OnlyAt (fun _ => Seq.reset) (· = q) s.seqs t.seqs

theorem ScalarFrame.load {q : Nat} {w : PtiWord} {s t : State} (h : ScalarFrame q w s t) : LoadFrame q s t := ⟨h.mem, h.seqs⟩

namespace LoadFrame
variable {q : Nat} {s t u : State}

theorem of_eq (h : memSeqs t = memSeqs s) : LoadFrame q s t := by
  obtain ⟨hmem, hseqs⟩ := Prod.mk.inj h
  exact ⟨hmem, hseqs ▸ .refl _⟩

theorem refl (s : State) : LoadFrame q s s := ⟨rfl, .refl _⟩

theorem trans (h : LoadFrame q s t) (h' : LoadFrame q t u) : LoadFrame q s u := ⟨h'.mem.trans h.mem, h.seqs.trans h'.seqs⟩

end LoadFrame

/-! ### Reads that go wrong -/

section MemSeqs
variable (s : State)

@[simp] theorem memSeqs_setReg (b : Blk) (o : Nat) (v : Word) : memSeqs (setReg s b o v) = memSeqs s := memSeqs_congr rfl rfl
@[simp] theorem memSeqs_setFld (b : Blk) (o hi lo v : Nat) : memSeqs (setFld s b o hi lo v) = memSeqs s := memSeqs_congr rfl rfl
@[simp] theorem memSeqs_cnt (b : Blk) (o : Nat) : memSeqs (cnt s b o) = memSeqs s := memSeqs_congr rfl rfl
@[simp] theorem memSeqs_cnt64 (b : Blk) (o n : Nat) : memSeqs (cnt64 s b o n) = memSeqs s := cnt64_aside memSeqs_aside s b o n
@[simp] theorem memSeqs_raise (ev : Ev) (wh st : Nat) (l : List EArg) : memSeqs (raise s ev wh st l) = memSeqs s :=
  memSeqs_congr rfl rfl
@[simp] theorem memSeqs_raiseAcc (e : AccErr) (wh st : Nat) : memSeqs (raiseAcc s e wh st) = memSeqs s := memSeqs_congr rfl rfl
@[simp] theorem memSeqs_voteSet (n : Nat) (v : BitVec 5) : memSeqs (voteSet s n v) = memSeqs s := memSeqs_congr rfl rfl
@[simp] theorem memSeqs_setLatch (p : Nat) (b : Blk) (o : Nat) : memSeqs (setLatch s p b o) = memSeqs s := memSeqs_congr rfl rfl
@[simp] theorem memSeqs_traffic (rg : Option Nat) (hint a n : Nat) (wr : Bool) :
    memSeqs (traffic s rg hint a n wr) = memSeqs s := traffic_aside memSeqs_aside s rg hint a n wr

@[simp] theorem memSeqs_poisonRead (a wh step : Nat) : memSeqs (poisonRead s a wh step) = memSeqs s := by
  unfold poisonRead
  split
  · simp only [memSeqs_raise, memSeqs_setFld, memSeqs_cnt]
  · exact memSeqs_raise ..

@[simp] theorem memSeqs_lanePost (m : Nat) (l : List Byte) : memSeqs (lanePost s m l) = memSeqs s := by
  unfold lanePost
  split
  · exact memSeqs_congr rfl rfl
  · rfl

@[simp] theorem memSeqs_setPenalty (p : Nat) : memSeqs (setPenalty s p) = memSeqs s := by
  unfold setPenalty
  extract_lets sc old moved quiet go post r1 r2
  have hpost (t : State) : memSeqs (post t) = memSeqs t := by
    dsimp only [post]
    split
    · exact memSeqs_lanePost t _ _
    · rfl
  exact (hpost _).trans (memSeqs_congr rfl rfl)

@[simp] theorem memSeqs_health (i : Nat) : memSeqs (health s i) = memSeqs s := by
  simp only [health, healthPts, memSeqs_setPenalty, memSeqs_setReg, memSeqs_cnt]

@[simp] theorem memSeqs_crcFail (cx : Cx) : memSeqs (crcFail s cx) = memSeqs s := by
  simp only [crcFail, memSeqs_raise, memSeqs_setFld, memSeqs_cnt]

@[simp] theorem memSeqs_crcUncured (cx : Cx) : memSeqs (crcUncured s cx) = memSeqs s := by
  simp only [crcUncured, memSeqs_voteSet, memSeqs_health, memSeqs_setFld, memSeqs_cnt]

theorem memSeqs_tagHdr (cx : Cx) (d : Desc) (i : Nat) : memSeqs (tagHdr s cx d i).1 = memSeqs s := by
  unfold tagHdr
  split
  · exact memSeqs_raiseAcc s _ cx.wh cx.step
  · dsimp only
    split
    · simp only [memSeqs_crcUncured, memSeqs_crcFail, memSeqs_poisonRead, memSeqs_traffic]
    split
    · split
      · simp only [memSeqs_cnt64, memSeqs_traffic]
      · simp only [memSeqs_crcUncured, memSeqs_crcFail, memSeqs_cnt64, memSeqs_traffic]
    · exact memSeqs_traffic ..

end MemSeqs

theorem memSeqs_tagHdrs (cx : Cx) (d : Desc) (l : List Nat) (s : State) (acc : List Nat) :
    memSeqs (tagHdrs cx d l s acc).1 = memSeqs s := by
  induction l generalizing s acc with
  | nil => rfl
  | cons i r ih =>
    have hone := memSeqs_tagHdr s cx d i
    unfold tagHdrs
    split
    next heq =>
      rw [heq] at hone
      exact (ih _ _).trans hone
    next heq =>
      rw [heq] at hone
      exact hone

/-! ### An instruction that fails (R207) -/

theorem recErr_loadFrame (s : State) (q status pc : Nat) : LoadFrame q s (recErr s q status pc) := by
  unfold recErr
  exact ⟨rfl, .put_self q _⟩

theorem failStatus_loadFrame (s : State) (q status pc step : Nat) (l : List EArg) :
    LoadFrame q s (failStatus s q status pc step l) := by
  unfold failStatus failStatusAt
  split
  · exact .refl s
  · exact (recErr_loadFrame s q status pc).trans (.of_eq (memSeqs_congr rfl rfl))

theorem selfFail_loadFrame (op : PtiOp) (q : Nat) (w : PtiWord) (status : Nat) (s : State) :
    LoadFrame q s (selfFail op q w status s) := by
  unfold selfFail
  extract_lets x x1 x2 s1
  have hs1 : LoadFrame q s s1 := (setSeq_frame q w s x2).load.trans (failStatus_loadFrame _ q status x.pc x.step [])
  split
  · exact hs1.trans (seqNext_frame q w s1).load
  · exact hs1.trans (selfDone_frame q w s1).load

theorem seqAccFail_loadFrame (op : PtiOp) (q : Nat) (w : PtiWord) (e : AccErr) (s : State) :
    LoadFrame q s (seqAccFail op q w e s) :=
  (LoadFrame.of_eq (memSeqs_raiseAcc ..)).trans (selfFail_loadFrame op q w _ _)

/-! ### The four instructions -/

section Reads
variable (q : Nat) (w : PtiWord) (s : State)

/-- A read of a poisoned sector fails (R275). -/
theorem readPoisoned_loadFrame (op : PtiOp) (a wh step : Nat) : LoadFrame q s (selfFail op q w 0x11 (poisonRead s a wh step)) :=
  (LoadFrame.of_eq (memSeqs_poisonRead ..)).trans (selfFail_loadFrame ..)

/-- A read gives a register of the sequencer its value. -/
theorem readDone_loadFrame (f : Seq → Seq) (rg : Option Nat) (a n : Nat) :
    LoadFrame q s (selfSet q w f (traffic s rg 0 a n false)) :=
  (LoadFrame.of_eq (memSeqs_traffic ..)).trans (selfSet_frame q w _ f).load

theorem opLds_loadFrame : LoadFrame q s (opLds q w s) := by
  unfold opLds
  dsimp only
  split
  · exact seqAccFail_loadFrame ..
  split
  · exact readPoisoned_loadFrame ..
  · exact readDone_loadFrame ..

theorem opDld_loadFrame : LoadFrame q s (opDld q w s) := by
  unfold opDld
  dsimp only
  split
  · exact seqAccFail_loadFrame ..
  split
  · exact readPoisoned_loadFrame ..
  · exact readDone_loadFrame ..

theorem opTagp_loadFrame : LoadFrame q s (opTagp q w s) := by
  unfold opTagp
  dsimp only
  split
  · exact selfFail_loadFrame ..
  next d _ =>
    split
    · exact selfFail_loadFrame ..
    have hread := memSeqs_tagHdrs (seqCx s q) d
      ((List.range (w.imm.toNat % 128)).map ((sreg (seqAt s q) w.opb.toNat).toNat + ·)) s []
    split
    next heq =>
      rw [heq] at hread
      exact (LoadFrame.of_eq hread).trans (selfSet_frame q w _ _).load
    next heq =>
      rw [heq] at hread
      exact (LoadFrame.of_eq hread).trans (selfFail_loadFrame ..)

theorem opCtrRd_loadFrame : LoadFrame q s (opCtrRd q w s) := by
  unfold opCtrRd
  split
  · exact selfFail_loadFrame ..
  · exact ((LoadFrame.of_eq (memSeqs_setLatch ..)).trans (setNdet_frame q w _).load).trans
      (selfSet_frame q w _ _).load

end Reads

theorem ptiSelf_loadFrame {op : PtiOp} {q : Nat} {w : PtiWord} {act : State → State} (hact : ∀ t, LoadFrame q t (act t))
    (s : State) : LoadFrame q s (ptiSelf op q w act s) := by
  rcases ptiSelf_acts_or_frame op q w act s with h | h
  · exact h ▸ (taken_frame q w s).load.trans (hact _)
  · exact h.load

theorem loadRows_loadFrame {q : Fin 256} {w : PtiWord} {s t : State} :
    ∀ x ∈ ([(.lds, .lds), (.dld, .dld), (.tagp, .tagp), (.ctrRd, .ctrRd)] : List ((Fin 256 → PtiWord → Instr) × PtiOp)),
      exec (x.1 q w) s = .next t → LoadFrame q s t := by
  intro x hx h
  simp only [List.mem_cons, List.not_mem_nil, or_false] at hx
  rcases hx with rfl | rfl | rfl | rfl
  · exact of_run_next h (ptiSelf_loadFrame (opLds_loadFrame q w) s)
  · exact of_run_next h (ptiSelf_loadFrame (opDld_loadFrame q w) s)
  · exact of_run_next h (ptiSelf_loadFrame (opTagp_loadFrame q w) s)
  · exact of_run_next h (ptiSelf_loadFrame (opCtrRd_loadFrame q w) s)

theorem seqAt_of_onlyAt {q p : Nat} {s t : State} (hcanon : Canon s) (h : OnlyAt (fun _ => Seq.reset) (· = q) s.seqs t.seqs)
    (hne : p ≠ q) : seqAt t p = seqAt s p := by
  obtain ⟨-, -, -, hseqs⟩ := hcanon
  exact h.get hseqs hne

theorem memB_congr {s t : State} (h : t.mem = s.mem) (a : Nat) : memB t a = memB s a := congrArg (smGet memDef · a) h

/-- Settles O18: every register-only row keeps `ScalarFrame` and every reading row `LoadFrame`; from canonical forms these say
what each byte, sequencer and register reads as. -/
theorem ptiFrame : Obligations.PtiFrame := by
  refine ⟨fun q w s t hcanon x hx hexec => ?_, fun q w s t hcanon x hx hexec => ?_⟩
  · have hframe := scalarRows_frame x hx hexec
    have hrest := hframe.rest
    simp only [untouched, Prod.mk.injEq] at hrest
    obtain ⟨hmem, hops, hpoison, hpages, hsteps⟩ := hrest
    refine ⟨memB_congr hmem, fun p hne => seqAt_of_onlyAt hcanon hframe.seqs hne, hops, hpoison, hpages, hsteps,
      fun hsig => ⟨hframe.evt hsig, fun k hstatus harms hfetch => ?_⟩⟩
    obtain ⟨-, hregs, -, -⟩ := hcanon
    refine (hframe.regs hsig).get hregs ?_
    rintro (h | ⟨a, ha, h⟩ | h)
    · exact hstatus h
    · exact harms a ha h
    · exact hfetch h
  · have hframe := loadRows_loadFrame x hx hexec
    exact ⟨memB_congr hframe.mem, fun p hne => seqAt_of_onlyAt hcanon hframe.seqs hne⟩

end Sys2Proof.Machine

/-! ## The sequencer after an instruction (R171, R173) -/
namespace Sys2Proof.Machine

theorem seqAt_setSeq_self {s : State} (q : Nat) (x : Seq) (hseqs : smWf (fun _ => Seq.reset) s.seqs = true) :
    seqAt (setSeq s q x) q = x := smGet_smPut_self q x hseqs

theorem seqAt_seqNext {s : State} (q : Nat) (hseqs : smWf (fun _ => Seq.reset) s.seqs = true) : seqAt (seqNext s q) q =
    { seqAt s q with pc := ((seqAt s q).pc + 16) % 2 ^ 48, st := boundarySt s q (seqAt s q), stopAtBoundary := false } :=
  seqAt_setSeq_self q _ hseqs

theorem signal_seqs (s : State) (q : Nat) (w : PtiWord) : (signal s q w).seqs = s.seqs := by
  unfold signal objSignal
  split
  · split
    · rfl
    split
    · rfl
    · rfl
  · rfl

theorem seqAt_congr {s t : State} (h : t.seqs = s.seqs) (p : Nat) : seqAt t p = seqAt s p :=
  congrArg (smGet (fun _ => Seq.reset) · p) h

theorem seqAt_selfDone_pc {s : State} (q : Nat) (w : PtiWord) (hseqs : smWf (fun _ => Seq.reset) s.seqs = true) :
    (seqAt (selfDone s q w) q).pc = ((seqAt s q).pc + 16) % 2 ^ 48 := by
  have hsignal := signal_seqs s q w
  rw [selfDone, seqAt_seqNext q (hsignal ▸ hseqs), seqAt_congr hsignal]

/-- The fetch and the guard leave the sequencer as it is, but for NDET (R195, R213). -/
theorem seqAt_setNdet {s : State} (q : Nat) (hseqs : smWf (fun _ => Seq.reset) s.seqs = true) :
    ∃ b, seqAt (setNdet s q) q = { seqAt s q with ndet := b } := by
  unfold setNdet
  split
  · exact ⟨true, smGet_smPut_self q _ hseqs⟩
  · exact ⟨(seqAt s q).ndet, rfl⟩

theorem seqAt_atIssue {s : State} (q : Fin 256) (w : PtiWord) (hseqs : smWf (fun _ => Seq.reset) s.seqs = true) :
    ∃ b, seqAt (atIssue s q w) q = { seqAt s q with ndet := b } := by
  have hfetch := fetched_seqs s q
  unfold atIssue taken readP
  rw [← seqAt_congr hfetch]
  split
  · exact seqAt_setNdet q (hfetch ▸ hseqs)
  · exact ⟨_, rfl⟩

theorem atIssue_seqs_wf {s : State} (q : Fin 256) (w : PtiWord) (hseqs : smWf (fun _ => Seq.reset) s.seqs = true) :
    smWf (fun _ => Seq.reset) (atIssue s q w).seqs = true := (taken_frame q w s).seqs.wf hseqs

/-! ## STS (R211) -/

/-! ### Bytes of a number, and of memory after a write -/

@[simp] theorem leBytes_length (n v : Nat) : (leBytes n v).length = n := by
  induction n generalizing v with
  | zero => rfl
  | succ n ih => exact congrArg (· + 1) (ih _)

theorem leBytes_getElem {n v k : Nat} (hk : k < (leBytes n v).length) : (leBytes n v)[k] = BitVec.ofNat 8 (v / 256 ^ k) := by
  induction n generalizing v k with
  | zero => cases hk
  | succ n ih =>
    cases k with
    | zero => simp only [leBytes, List.getElem_cons_zero, Nat.pow_zero, Nat.div_one]
    | succ k => simp only [leBytes, List.getElem_cons_succ, ih, Nat.div_div_eq_div_mul, Nat.pow_succ']

theorem leBytes_getElem_toNat {n k : Nat} (v : DWord) (hk : k < (leBytes n v.toNat).length) :
    (leBytes n v.toNat)[k] = v.extractLsb' (8 * k) 8 := by
  rw [leBytes_getElem, BitVec.extractLsb', Nat.shiftRight_eq_div_pow, Nat.pow_mul]

theorem memPutList_onlyAt (m : SMap Byte) (a : Nat) (l : List Byte) :
    OnlyAt memDef (fun x => a ≤ x ∧ x < a + l.length) m (memPutList m a l) := by
  induction l generalizing m a with
  | nil => exact .refl m
  | cons b r ih =>
    have hlen : (b :: r).length = r.length + 1 := rfl
    exact (OnlyAt.put (by omega) b).trans ((ih _ _).mono fun x hx => by omega)

theorem smGet_memPutList {m : SMap Byte} (hm : smWf memDef m = true) (a : Nat) (l : List Byte) {k : Nat} (hk : k < l.length) :
    smGet memDef (memPutList m a l) (a + k) = l[k] := by
  induction l generalizing m a k with
  | nil => cases hk
  | cons b r ih =>
    have hb := smWf_smPut a b hm
    cases k with
    | zero => exact ((memPutList_onlyAt _ (a + 1) r).get hb (by omega)).trans (smGet_smPut_self a b hm)
    | succ k =>
      have hrest := ih hb (a + 1) (Nat.lt_of_succ_lt_succ hk)
      simpa only [memPutList, Nat.add_assoc, Nat.add_comm 1, List.getElem_cons_succ] using hrest

/-! ### The store -/

theorem xlatPage_aside (a : Nat) : Aside (xlatPage · a) := ⟨fun _ _ _ _ => rfl, fun _ _ => rfl⟩

theorem wrLE_traffic_mem (s : State) (rg : Option Nat) (hint b m a n v : Nat) (wr : Bool) :
    (wrLE (traffic s rg hint b m wr) a n v).mem = memPutList s.mem (xlatPage s a) (leBytes n v) := by
  have hpage : xlatPage (traffic s rg hint b m wr) a = xlatPage s a := traffic_aside (xlatPage_aside a) ..
  obtain ⟨hmem, -⟩ := Prod.mk.inj (memSeqs_traffic s rg hint b m wr)
  rw [← hpage, ← hmem]
  rfl

theorem wrLE_traffic_seqs (s : State) (rg : Option Nat) (hint b m a n v : Nat) (wr : Bool) :
    (wrLE (traffic s rg hint b m wr) a n v).seqs = s.seqs := (Prod.mk.inj (memSeqs_traffic s rg hint b m wr)).2

/-- The address of a store. -/
def stsAddr (s : State) (q : Nat) (w : PtiWord) : Nat := (sreg (seqAt s q) w.opa.toNat + w.imm.signExtend 64).toNat

section Sts
variable {s : State} {q : Nat} {w : PtiWord} (halign : stsAddr s q w % 8 = 0) (hchk : accChk s (stsAddr s q w) true = none)
include halign hchk

/-- An aligned store that its checks pass. -/
theorem opSts_writes : opSts q w s = selfDone (wrLE (traffic s (some (q / 16)) 0 (xlatPage s (stsAddr s q w)) 8 true)
    (stsAddr s q w) 8 (sreg (seqAt s q) w.opb.toNat).toNat) q w := by
  have haddr : addSext48 (sreg (seqAt s q) w.opa.toNat) w.imm.toNat = stsAddr s q w := addSext48_toNat _ _
  have hpass : seqAccChk s (stsAddr s q w) 8 true = none := (if_neg (fun hne => hne halign)).trans hchk
  simp only [opSts, haddr, hpass]

theorem opSts_mem : (opSts q w s).mem =
    memPutList s.mem (xlatPage s (stsAddr s q w)) (leBytes 8 (sreg (seqAt s q) w.opb.toNat).toNat) := by
  rw [opSts_writes halign hchk]
  exact (selfDone_frame q w _).mem.trans (wrLE_traffic_mem ..)

theorem opSts_seqs : OnlyAt (fun _ => Seq.reset) (· = q) s.seqs (opSts q w s).seqs := by
  rw [opSts_writes halign hchk]
  exact wrLE_traffic_seqs s _ _ _ _ _ _ _ _ ▸ (selfDone_frame q w _).seqs

theorem seqAt_opSts_pc (hseqs : smWf (fun _ => Seq.reset) s.seqs = true) :
    (seqAt (opSts q w s) q).pc = ((seqAt s q).pc + 16) % 2 ^ 48 := by
  have hwrite := wrLE_traffic_seqs s (some (q / 16)) 0 (xlatPage s (stsAddr s q w)) 8 (stsAddr s q w) 8
    (sreg (seqAt s q) w.opb.toNat).toNat true
  rw [opSts_writes halign hchk, seqAt_selfDone_pc q w (hwrite ▸ hseqs), seqAt_congr hwrite]

end Sts

/-- Settles O17: memory is that of the store's write (`opSts_mem`), read by the rules of `memPutList`; the sequencer completes. -/
theorem store : Obligations.Store := by
  intro q w s hcanon h b a halign hchk
  have hothers := fun p => seqAt_of_onlyAt (p := p) hcanon ((taken_frame q w s).seqs.trans (opSts_seqs halign hchk))
  obtain ⟨hmemwf, -, -, hseqs⟩ := hcanon
  have hmem : (opSts q w b).mem = memPutList s.mem (xlatPage b a) (leBytes 8 (sreg (seqAt b q) w.opb.toNat).toNat) :=
    taken_mem s q w ▸ opSts_mem halign hchk
  refine ⟨opSts q w b, run_ptiSelf_of_issues h, fun k hk => ?_, fun x hx => ?_, ?_, hothers⟩
  · have hlen : k < (leBytes 8 (sreg (seqAt b q) w.opb.toNat).toNat).length := by rw [leBytes_length]; exact hk
    rw [memB, hmem, ← leBytes_getElem_toNat _ hlen]
    exact smGet_memPutList hmemwf _ _ hlen
  · rw [memB, hmem]
    exact (memPutList_onlyAt _ _ _).get hmemwf (by simp only [leBytes_length]; omega)
  · obtain ⟨ndet, hseq⟩ := seqAt_atIssue q w hseqs
    rw [seqAt_opSts_pc halign hchk (atIssue_seqs_wf q w hseqs), hseq]

end Sys2Proof.Machine

/-! ## Issue of CHK.VERIFY, CHK.CMP and UPD (R171, R227, R229, R307) -/
namespace Sys2Proof.Machine

theorem wake_ops (s : State) : (wake s).ops = s.ops := by
  unfold wake
  split <;> rfl

theorem wake_regs (s : State) : (wake s).regs = s.regs := by
  unfold wake
  split <;> rfl

theorem wake_seqs (s : State) : (wake s).seqs = s.seqs := by
  unfold wake
  split <;> rfl

section Enqueue
variable {q : Nat} {e : Eng} {op : PtiOp} {w : PtiWord} {s : State} (hroom : (engQueue s e q).length < engDepth e)
include hroom

/-- While its queue has room an instruction enters it, and its sequencer goes on. -/
theorem enqueueOp_enters :
    ∃ t : State, enqueueOp q e op w s = seqNext t q ∧ t.ops = s.ops ++ [mkOp s q e op w] ∧ t.seqs = s.seqs := by
  unfold enqueueOp
  rw [if_neg (Nat.not_le.mpr hroom)]
  refine ⟨_, rfl, ?_, ?_⟩
  · split
    · rw [wake_ops]
    · rfl
  · split
    · rw [wake_seqs]
    · rfl

theorem enqueueOp_ops : (enqueueOp q e op w s).ops = s.ops ++ [mkOp s q e op w] := by
  obtain ⟨t, hnext, hops, -⟩ := enqueueOp_enters (op := op) (w := w) hroom
  rw [hnext, seqNext_ops, hops]

theorem enqueueOp_seqs : OnlyAt (fun _ => Seq.reset) (· = q) s.seqs (enqueueOp q e op w s).seqs := by
  obtain ⟨t, hnext, -, hseqs⟩ := enqueueOp_enters (op := op) (w := w) hroom
  exact hnext ▸ hseqs ▸ (seqNext_frame q w t).seqs

variable (hseqs : smWf (fun _ => Seq.reset) s.seqs = true)
include hseqs

theorem seqAt_enqueueOp_pc : (seqAt (enqueueOp q e op w s) q).pc = ((seqAt s q).pc + 16) % 2 ^ 48 := by
  obtain ⟨t, hnext, -, ht⟩ := enqueueOp_enters (op := op) (w := w) hroom
  rw [hnext, seqAt_seqNext q (ht ▸ hseqs), seqAt_congr ht]

theorem seqAt_enqueueOp_pend : (seqAt (enqueueOp q e op w s) q).pend = (seqAt s q).pend := by
  obtain ⟨t, hnext, -, ht⟩ := enqueueOp_enters (op := op) (w := w) hroom
  rw [hnext, seqAt_seqNext q (ht ▸ hseqs), seqAt_congr ht]

end Enqueue

/-- What a CHK that writes a predicate does once it issues: it is enqueued, and its predicate is pending (R229). -/
def chkAct (op : PtiOp) (q : Nat) (w : PtiWord) (s : State) : State :=
  let t := enqueueOp q (.vec q) op w s
  if engDepth (.vec q) ≤ (engQueue s (.vec q) q).length ∨ w.opd.toNat = 0 then t
  else setSeq t q { seqAt t q with pend := BitVec.ofNat 8 (setBit (seqAt t q).pend.toNat w.opd.toNat) }

theorem getLsbD_setBit (v : BitVec 8) (i : Nat) {n : Nat} (hn : n < 8) :
    (BitVec.ofNat 8 (setBit v.toNat i)).getLsbD n = (v.getLsbD n || decide (n = i)) := by
  rw [BitVec.getLsbD_ofNat, setBit, Nat.testBit_or, Nat.testBit_two_pow, decide_eq_true hn, Bool.true_and]
  exact congrArg (v.toNat.testBit n || ·) (decide_eq_decide.mpr eq_comm)

section Check
variable {op : PtiOp} {q : Nat} {w : PtiWord} {s : State} (hroom : (engQueue s (.vec q) q).length < 8)
include hroom

theorem chkAct_ops : (chkAct op q w s).ops = s.ops ++ [mkOp s q (.vec q) op w] := by
  have hops := enqueueOp_ops (op := op) (w := w) (e := .vec q) hroom
  unfold chkAct
  dsimp only
  split <;> exact hops

theorem chkAct_seqs : OnlyAt (fun _ => Seq.reset) (· = q) s.seqs (chkAct op q w s).seqs := by
  have hseqs := enqueueOp_seqs (op := op) (w := w) (e := .vec q) hroom
  unfold chkAct
  dsimp only
  split
  · exact hseqs
  · exact hseqs.trans (.put_self q _)

variable (hseqs : smWf (fun _ => Seq.reset) s.seqs = true)
include hseqs

theorem seqAt_chkAct : (seqAt (chkAct op q w s) q).pc = ((seqAt s q).pc + 16) % 2 ^ 48 ∧
    ∀ n < 8, (seqAt (chkAct op q w s) q).pend.getLsbD n =
      ((seqAt s q).pend.getLsbD n || (decide (n = w.opd.toNat) && decide (n ≠ 0))) := by
  have hpc := seqAt_enqueueOp_pc (op := op) (w := w) (e := .vec q) hroom hseqs
  have hpend := seqAt_enqueueOp_pend (op := op) (w := w) (e := .vec q) hroom hseqs
  have hwf := (enqueueOp_seqs (op := op) (w := w) (e := .vec q) hroom).wf hseqs
  unfold chkAct
  dsimp only
  split
  next hzero =>
    have hopd : w.opd.toNat = 0 := hzero.resolve_left (Nat.not_le.mpr hroom)
    refine ⟨hpc, fun n _ => ?_⟩
    rw [hpend, hopd]
    simp only [ne_eq, decide_not, Bool.and_not_self, Bool.or_false]
  next hmarks =>
    have hopd : w.opd.toNat ≠ 0 := mt .inr hmarks
    rw [seqAt_setSeq_self q _ hwf]
    refine ⟨hpc, fun n hn => ?_⟩
    rw [getLsbD_setBit _ _ hn, hpend]
    by_cases heq : n = w.opd.toNat
    · simp only [heq, hopd, ne_eq, not_false_eq_true, decide_true, Bool.and_true]
    · simp only [heq, decide_false, Bool.false_and]

end Check

/-- Settles O24: a CHK that issues comes to `chkAct`, which enters the queue and marks its predicate; an UPD comes to `updIssue`,
whose three branches are its refusal, its stall and its place in the queue. -/
theorem checkAndUpdateIssue : Obligations.CheckAndUpdateIssue := by
  refine ⟨fun q w s hcanon x hx h hroom => ?_, fun q w s x hx h => ?_⟩
  · obtain ⟨-, -, -, hseqs⟩ := id hcanon
    have hbwf := atIssue_seqs_wf q w hseqs
    obtain ⟨ndet, hseq⟩ := seqAt_atIssue q w hseqs
    obtain ⟨hpc, hpend⟩ := seqAt_chkAct (op := x.2) (w := w) hroom hbwf
    rw [hseq] at hpc hpend
    refine ⟨chkAct x.2 q w (atIssue s q w), ?_, ?_, hpc, ?_, hpend⟩
    · simp only [List.mem_cons, List.not_mem_nil, or_false] at hx
      rcases hx with rfl | rfl
      · exact run_ptiIssue_of_issues h
      · exact run_ptiIssue_of_issues h
    · exact (chkAct_ops hroom).trans (congrArg (· ++ _) (taken_ops s q w))
    · exact fun p => seqAt_of_onlyAt hcanon ((taken_frame q w s).seqs.trans (chkAct_seqs hroom))
  · have hexec : exec (x.1 q w) s = .next (updIssue x.2 q w (atIssue s q w)) := by
      simp only [updRows, List.mem_cons, List.not_mem_nil, or_false] at hx
      rcases hx with rfl | rfl | rfl
      · exact run_ptiIssue_of_issues h
      · exact run_ptiIssue_of_issues h
      · exact run_ptiIssue_of_issues h
    refine ⟨fun hstat => ?_, fun hstat hroom => ?_, fun hstat hfull => ?_⟩
    · exact hexec.trans (congrArg _ (if_pos hstat))
    · exact hexec.trans (congrArg _ ((if_neg (fun hne => hne hstat)).trans (if_neg (hroom ▸ Bool.false_ne_true))))
    · exact hexec.trans (congrArg _ ((if_neg (fun hne => hne hstat)).trans (if_pos hfull)))

end Sys2Proof.Machine

/-! ## Test mode, traffic generators and migration (R30, R267, R268, R280, R281, R285) -/
namespace Sys2Proof.Machine

/-! ### TEST mode and its generators -/

theorem opTestReady_drained {c : MemCtrl} {s : State} (hfit : ctrlFitted s (ctrlBlk c) = true)
    (htest : fld s (ctrlBlk c) rHcCtl 1 0 = 1) : opTestReady c s = setFld s (ctrlBlk c) rHcStatus 7 7 1 :=
  if_pos (by simp [hfit, htest])

/-- The operations l of a run by its MODE: write, check, write then check, or neither (Table 9.13). -/
def tgRun (b : Blk) (ch : Nat) (flt : List (Nat × Nat)) (l : List Nat) (s : State) : Nat → State
  | 1 => l.foldl (tgOp b ch false flt) s
  | 2 => l.foldl (tgOp b ch false flt) (l.foldl (tgOp b ch true flt) s)
  | 3 => s
  | _ => l.foldl (tgOp b ch true flt) s

/-- The model's two passes, each guarded by MODE, come to the run of that MODE. -/
theorem tgPasses_eq_tgRun (b : Blk) (ch : Nat) (flt : List (Nat × Nat)) (l : List Nat) (s : State) (m : Nat) :
    (if m = 1 ∨ m = 2 then l.foldl (tgOp b ch false flt) (if m = 1 ∨ m = 3 then s else l.foldl (tgOp b ch true flt) s)
      else if m = 1 ∨ m = 3 then s else l.foldl (tgOp b ch true flt) s) = tgRun b ch flt l s m :=
  match m with
  | 0 | 1 | 2 | 3 => rfl
  | n + 4 => by simp [tgRun]

/-- The end of a run: idle, DONE, and its event (R281). -/
def tgEnd (b : Blk) (ch : Nat) (s : State) : State :=
  raise (setFld (setFld s b (tgBase ch + rTgStatus) 1 1 0) b (tgBase ch + rTgStatus) 0 0 1) .memTgDone (whCtrl b) 0 []

theorem opMemTgDone_busy {c : MemCtrl} {ch : Nat} {s : State} (flt : List (Nat × Nat)) (hch : ch < (ctrlBlk c).tgChannels)
    (hbusy : rbit s (ctrlBlk c) (tgBase ch + rTgStatus) 1 = true) (hready : rbit s (ctrlBlk c) rHcStatus 7 = true)
    (hfit : ctrlFitted s (ctrlBlk c) = true) :
    opMemTgDone c ch flt s = tgEnd (ctrlBlk c) ch
      (tgRun (ctrlBlk c) ch flt (List.range (regAt s (ctrlBlk c) (tgBase ch + rTgCount)).toNat) s
        (fld s (ctrlBlk c) (tgBase ch + rTgCtl) 3 1)) := by
  rw [← tgPasses_eq_tgRun]
  exact if_neg (by simp [hch, hbusy, hready, hfit])

/-! ### Migration orders -/

theorem raiseIf_eq_ite (p : Prop) [Decidable p] (s : State) (ev : Ev) (wh st : Nat) (l : List EArg) :
    raiseIf (decide p) s ev wh st l = if p then raise s ev wh st l else s := by
  split
  next hp => simp only [raiseIf, hp, decide_true, if_true, raise]
  next hp => simp only [raiseIf, hp, decide_false, Bool.false_eq_true, if_false]

/-- The next entry of the ring, as an order (R267). -/
def migEntry (s : State) : MigOrd := parseMig s.mig.next (rdBytes s (s.mig.ring + 64 * (s.mig.next % s.mig.size)) 64)

/-- The next order, with the status MIG refuses it with, 0 for none (R269). -/
def migNext (s : State) : MigOrd := { migEntry s with status := migRefuse s (migEntry s) }

theorem migNext_status (s : State) : (migNext s).status = migRefuse s (migEntry s) := by rw [migNext]

/-- Order o joins those that m has in flight, and the refused ones that are due complete (R268). -/
def migEnter (m : Mig) (o : MigOrd) (t : State) : State :=
  migDrain 4 (setFld { t with mig := { m with next := m.next + 1, fly := m.fly ++ [o] } } .mig rMigStatus 1 1 1)

/-- MIG takes the order its object has counted, while fewer than four are in flight (R267, R268). -/
theorem opMigOrderStart_takes {s : State} (happlied : s.mig.applied = true) (hroom : s.mig.fly.length < 4)
    (hcounted : reached (objVal s s.mig.die s.mig.obj) (BitVec.ofNat 32 (s.mig.next + 1)) = true) :
    opMigOrderStart s = migEnter s.mig (migNext s)
      (if migRefuse s (migEntry s) = 0x0B then raise s .dieAbsentAccess whHub 0 [] else s) := by
  rw [← raiseIf_eq_ite, ← migNext_status]
  exact if_pos (by simp [happlied, hroom, hcounted])

/-- The oldest order in flight, unless it is refused, moves its data and completes (R268). -/
theorem opMigOrderComplete_moves {errs : List MemErr} {s : State} {o : MigOrd} {l : List MigOrd} (hfly : s.mig.fly = o :: l)
    (haccepted : o.status = 0) :
    opMigOrderComplete errs s =
      let x := migMove o (List.range o.count) (memErrs s errs)
      migDrain 4 (migDone x.1 o x.2) := by
  simp only [opMigOrderComplete, hfly, haccepted, ne_eq, not_true_eq_false, if_false]

/-- Settles O37: no block is tainted, so each row is its operation, and the lemmas above say what that comes to. The patterns of
a generator are the model's choice (log 41). -/
theorem testAndMigration : Obligations.TestAndMigration := by
  intro s htaint
  refine ⟨fun c hfit htest => ?_, fun c ch flt => ?_, fun happlied hroom hcounted => ?_, fun errs o l hfly haccepted => ?_⟩
  · exact run_eq_of_untainted htaint (opTestReady_drained hfit htest)
  · exact fun hch hbusy hready hfit => run_eq_of_untainted htaint (opMemTgDone_busy flt hch hbusy hready hfit)
  · exact run_eq_of_untainted htaint (opMigOrderStart_takes happlied hroom hcounted)
  · exact run_eq_of_untainted htaint (opMigOrderComplete_moves hfly haccepted)

end Sys2Proof.Machine

/-! ## Link training, loss and upkeep (R311–R314, R319–R327, R332, R333, R344, R517) -/
namespace Sys2Proof.Machine

/-! ### Training, loss and detour -/

section Training
variable {l : Nat} {s : State}

theorem opLinkLightDetect_trains (hlasers : lasersOn s = true) (henable : rbit s (.lnk l) rLnkCtl 0 = true)
    (hused : linkUnused s l = false)
    (hst : linkSt s l = lsDown ∨ linkSt s l = lsLost ∨ linkSt s l = lsTraining ∧ (linkOf s l).phase = 1) :
    opLinkLightDetect l s = trainStart s l :=
  if_pos (by simpa [hlasers, henable, hused, or_assoc] using hst)

theorem opLinkTrainTimeout_due (hdue : tmDue s (.train l) = true) :
    opLinkTrainTimeout l s =
      let t := trainReset s l 1
      setLink t l { linkOf t l with trainFails := (linkOf t l).trainFails + 1 } :=
  if_pos hdue

theorem opLinkLost_dark (hlive : linkLive s l = true) : opLinkLost l true s = linkLose s l :=
  if_pos (by simp [hlive])

/-- A link with light is lost when too few of its lanes are usable, or when its partner acknowledges nothing (R321). -/
theorem opLinkLost_lit (hlive : linkLive s l = true)
    (hwhy : (linkOf s l).phase = 0 ∧ (usableRx s l < 34 ∨ usableTx s l < 34) ∨ ackDead s l = true) :
    opLinkLost l false s = linkLose s l :=
  if_pos (by simpa [hlive] using hwhy)

theorem opLinkDetour_serves (hlost : (linkOf s l).lost = true) (hidle : (linkOf s l).detour = false) :
    opLinkDetour l s = (rebuilt (linkOf s l) ++ (linkOf s l).txq).foldl (fun t f => sendHop t l f)
      (detourServes (setLink s l { linkOf s l with detour := true, retry := [], txq := [] }) l) :=
  if_pos (by simp [hlost, hidle])

/-- None of the reasons for which a link does not come up (R314). -/
theorem linkUp_ready {rd : List (Nat × Nat)} {tg : Nat} (hlasers : lasersOn s = true) (hst : linkSt s l = lsTraining)
    (hphase : (linkOf s l).phase = 6) (hrx : 34 ≤ (goodLanes (linkOf s l) rd).length) (htx : 34 ≤ (setBits 72 tg).length) :
    ¬ ((!lasersOn s) = true ∨ linkSt s l ≠ lsTraining ∨ (linkOf s l).phase ≠ 6 ∨
      (goodLanes (linkOf s l) rd).length < 34 ∨ (setBits 72 tg).length < 34) := by
  simp [hlasers, hst, hphase, hrx, htx]

end Training

/-! ### Lanes and timers -/

section Upkeep
variable {l : Nat} {s : State}

theorem opLaneSwap_due {rx : Bool} {m : LaneMove} (hmove : (linkOf s l).moves.find? (fun k => k.rx == rx) = some m)
    (hlive : linkLive s l = true) (hdue : moveDue (linkOf s l) m = true) :
    opLaneSwap l rx s =
      let x := linkOf s l
      let act := moveLane (if rx then x.rxAct else x.txAct) m
      let spare := (if rx then x.rxSpare else x.txSpare).filter (fun k => !(some k == m.spare))
      let y := { x with moves := x.moves.erase m }
      laneMoved (showLanes (setLink s l (if rx then { y with rxAct := act, rxSpare := spare }
        else { y with txAct := act, txSpare := spare })) l) l m act.length := by
  unfold opLaneSwap
  simp only [hmove, hlive, hdue, Bool.and_self, if_true]
  cases rx with
  | true => rfl
  | false => rfl

theorem opLaneErrorWindow_due (syms unc : List (Nat × Nat)) (dark : List Nat) (hdue : tmDue s (.laneWin l) = true)
    (hlive : linkLive s l = true) :
    opLaneErrorWindow l syms unc dark s =
      ((syms.filter (fun p => decide ((linkOf s l).thresh < p.2))).map (fun p => p.1)
        ++ (unc.filter (fun p => decide (4 < p.2))).map (fun p => p.1) ++ dark).eraseDups.foldl (laneFail l)
          (tmArm s (.laneWin l) btMs) :=
  if_pos (by simp [hdue, hlive])

/-- A failed lane that passes its training becomes a spare, in its place among the spares (R323). -/
theorem opLaneRetrainTimer_passes {k : Nat} (hdue : tmDue s (.laneRetrain l) = true) (hlive : linkLive s l = true)
    (hbad : laneBad s l k = true) (hact : k ∉ (linkOf s l).rxAct) (hspare : k ∉ (linkOf s l).rxSpare) :
    opLaneRetrainTimer l [k] s =
      let x := linkOf s l
      let t := tmArm s (.laneRetrain l) (10000 * btMs)
      let sp := x.rxSpare.filter (fun j => decide (j < k)) ++ [k] ++ x.rxSpare.filter (fun j => decide (k < j))
      showLanes (setLink (setBadLane t l k false) l { x with rxSpare := sp }) l := by
  have hrun : (tmDue s (.laneRetrain l) && linkLive s l) = true := by simp [hdue, hlive]
  have hfails : (laneBad s l k && !(linkOf s l).rxAct.contains k && !(linkOf s l).rxSpare.contains k) = true := by
    simp [hbad, hact, hspare]
  exact (if_pos hrun).trans (if_pos hfails)

theorem opIdentTimer_due (hdue : tmDue s (.ident l) = true) (hlive : linkLive s l = true) :
    opIdentTimer l s = sendCtrl (tmArm s (.ident l) (1000 * btMs)) l (identBody s l) :=
  if_pos (by simp [hdue, hlive])

theorem opAckStallTimeout_stalled {e : TxEnt} {r : List TxEnt} (hlive : linkLive s l = true)
    (hstall : (linkOf s l).stallAt + 4 * btUs ≤ s.beacon) (hretry : (linkOf s l).retry = e :: r) :
    opAckStallTimeout l s =
      goBack (setLink s l { linkOf s l with stallAt := s.beacon }) l ((e.lsn + e.off) % 16384) := by
  have hrun : (linkLive s l && decide ((linkOf s l).stallAt + 4 * btUs ≤ s.beacon)) = true := by simp [hlive, hstall]
  refine (if_pos hrun).trans ?_
  simp only [hretry]

end Upkeep

/-! ### Laser cartridges -/

section Lasers
variable {b : Nat} {s : State}

theorem opLaserCartInsert_empty (hempty : ∀ c, s.carts[b]? = some c → c.fitted = false) :
    opLaserCartInsert b s = cartEvent (setCart (cartFull s b) b
      { fitted := true, works := true, full := !cartOk s (1 - b), stable := false }) := by
  refine if_neg ?_
  cases hcart : s.carts[b]? with
  | none => simp
  | some c => simp [hempty c hcart]

/-- The cartridge of a bay is withdrawn or fails: where none works any more, every link is lost (R312). -/
theorem opLaserCartRemove_fitted {failed : Bool} {c : Cart} (hcart : s.carts[b]? = some c) (hfit : c.fitted = true)
    (hworks : failed = true → c.works = true) :
    opLaserCartRemove b failed s =
      let t := cartEvent (setCart (if c.works then cartFull s b else s) b
        { fitted := failed, works := false, full := false, stable := false })
      let u := if failed then health t 17 else t
      if cartOk u 0 || cartOk u 1 then u
      else (List.range 6).foldl (fun w k =>
        if linkLive w k || decide (linkSt w k = lsTraining) then linkLose w k else w) u := by
  have hgo : ¬ (!c.fitted || (failed && !c.works)) = true := by simpa [hfit] using hworks
  unfold opLaserCartRemove
  simp only [hcart]
  exact if_neg hgo

theorem opLaserShare_both (hfirst : cartOk s 0 = true) (hsecond : cartOk s 1 = true) :
    opLaserShare s = { s with carts := s.carts.map (fun c => { c with full := false, stable := true }) } :=
  if_pos (by simp [hfirst, hsecond])

end Lasers

/-- Settles O42: no block is tainted, so each row is its operation, and the lemmas above say what that comes to. That light stands
for phases 1 to 4, whose outcome comes with LINK_UP (logs 101, 225), and the sequence numbers and credits that a link comes up with
(logs 102, 103) are the model's choices. -/
theorem linkTraining : Obligations.LinkTraining := by
  refine ⟨fun l s htaint => ⟨?_, ?_, ?_, ?_, ?_, ?_⟩, fun l s htaint => ⟨?_, ?_, ?_, ?_, ?_, ?_, ?_, ?_⟩⟩
  · exact fun hlasers henable hused hst => run_eq_of_untainted htaint (opLinkLightDetect_trains hlasers henable hused hst)
  · exact fun hdue => run_eq_of_untainted htaint (opLinkTrainTimeout_due hdue)
  · exact fun hlive => run_eq_of_untainted htaint (opLinkLost_dark hlive)
  · exact fun hlive hwhy => run_eq_of_untainted htaint (opLinkLost_lit hlive hwhy)
  · exact fun hlost hidle => run_eq_of_untainted htaint (opLinkDetour_serves hlost hidle)
  · exact fun rd tg hlasers hst hphase hrx htx =>
      run_eq_of_untainted htaint (if_neg (linkUp_ready hlasers hst hphase hrx htx))
  · exact fun rx m hmove hlive hdue => run_eq_of_untainted htaint (opLaneSwap_due hmove hlive hdue)
  · intro syms unc dark hdue hlive hsyms hunc hdark
    refine run_eq_of_untainted htaint ?_
    rw [List.filter_eq_self.mpr (by simpa using hsyms), List.filter_eq_self.mpr (by simpa using hunc),
      List.filter_eq_self.mpr (by simpa using hdark)]
    exact opLaneErrorWindow_due syms unc dark hdue hlive
  · intro k hk hdue hlive hbad hact hspare
    refine run_eq_of_untainted htaint ?_
    rw [List.filter_eq_self.mpr (by simpa using hk)]
    exact opLaneRetrainTimer_passes hdue hlive hbad hact hspare
  · exact fun hdue hlive => run_eq_of_untainted htaint (opIdentTimer_due hdue hlive)
  · exact fun e r hlive hstall hretry => run_eq_of_untainted htaint (opAckStallTimeout_stalled hlive hstall hretry)
  · exact fun b hempty => run_eq_of_untainted (bs := []) htaint (opLaserCartInsert_empty hempty)
  · exact fun b failed c hcart hfit hworks => run_eq_of_untainted (bs := []) htaint (opLaserCartRemove_fitted hcart hfit hworks)
  · exact fun hfirst hsecond => run_eq_of_untainted (bs := []) htaint (opLaserShare_both hfirst hsecond)

end Sys2Proof.Machine

/-! ## Flits and frames that arrive at a link (R315–R319, R322, R323, R325, R328–R330, Table 16.4) -/
namespace Sys2Proof.Machine

/-! ### Reception of a flit -/

/-- A flit with k corrected symbols is counted as corrected when there are any (R315). -/
def fecCounted (s : State) (l k : Nat) : State := if 0 < k then cnt64 s (.lnk l) rLnkFecCorrLo 1 else s

/-- A link is read neither from the registers nor from the cache lines. -/
theorem linkOf_aside (l : Nat) : Aside (fun s => linkOf s l) := ⟨fun _ _ _ _ => rfl, fun _ _ => rfl⟩

theorem linkOf_fecCounted (s : State) (l k : Nat) : linkOf (fecCounted s l k) l = linkOf s l := by
  unfold fecCounted
  split
  · exact cnt64_aside (linkOf_aside l) s (.lnk l) rLnkFecCorrLo 1
  · rfl

theorem flitRx_uncorrectable {s : State} {l : Nat} {b rx : List Byte} (hfec : fecErrs b rx = none) :
    flitRx s l b rx = sendNak (cnt s (.lnk l) rLnkFecUncorr) l := by
  simp only [flitRx, hfec]

section Decoded
variable {s : State} {l k : Nat} {b rx : List Byte} (hfec : fecErrs b rx = some k)
include hfec

theorem flitRx_checkFails (hcheck : flitOk b = false) :
    flitRx s l b rx = sendNak (cnt (fecCounted s l k) (.lnk l) rLnkFlitCrc) l := by
  simp only [flitRx, hfec, hcheck, Bool.not_false, if_true, fecCounted]

variable (hcheck : flitOk b = true)
include hcheck

theorem flitRx_outOfOrder (hlsn : flitLsn b ≠ (linkOf s l).rxExp) : flitRx s l b rx = sendNak (fecCounted s l k) l := by
  rw [← linkOf_fecCounted s l k] at hlsn
  simp only [flitRx, hfec, hcheck, Bool.not_true, Bool.false_eq_true, if_false]
  exact if_pos hlsn

theorem flitRx_accepted (hlsn : flitLsn b = (linkOf s l).rxExp) : flitRx s l b rx = flitTake (fecCounted s l k) l b := by
  rw [← linkOf_fecCounted s l k] at hlsn
  simp only [flitRx, hfec, hcheck, Bool.not_true, Bool.false_eq_true, if_false]
  exact if_neg (not_not_intro hlsn)

end Decoded

/-! ### An accepted flit -/

/-- An accepted flit is counted, and acknowledges (R319). -/
def flitAcked (s : State) (l : Nat) (b : List Byte) : State := ackTake (cnt64 s (.lnk l) rLnkRxFlitsLo 1) l (flitAck b)

/-- After a flit that takes an LSN the next one is expected (R318). -/
def flitInTurn (s : State) (l : Nat) (b : List Byte) : State :=
  let a := flitAcked s l b
  setLink a l { linkOf a l with rxExp := ((linkOf a l).rxExp + 1) % 16384 }

section Accepted
variable {s : State} {l : Nat} {b : List Byte}

theorem flitTake_data (hty : flitTy b = ftData) : flitTake s l b = dataBody (flitInTurn s l b) l (slice b 4 250) := by
  simp [flitTake, hty, ftData, ftNak, ftIdle, flitInTurn, flitAcked]

theorem flitTake_ctrl (hty : flitTy b = ftCtrl) : flitTake s l b = ctrlBody (flitInTurn s l b) l (slice b 4 250) := by
  simp [flitTake, hty, ftCtrl, ftData, ftNak, ftIdle, flitInTurn, flitAcked]

theorem flitTake_idle (hty : flitTy b = ftIdle) : flitTake s l b = flitAcked s l b := by
  simp [flitTake, hty, ftNak, ftIdle, flitAcked]

theorem flitTake_nak (hty : flitTy b = ftNak) :
    flitTake s l b = pump (goBack (ackFree (cnt64 s (.lnk l) rLnkRxFlitsLo 1) l (flitAck b)) l (flitAck b)) l := by
  simp [flitTake, hty]

end Accepted

/-! ### The rows of the flits -/

/-- A row that takes flits, and which flits it is for. -/
abbrev FlitRow : Type := (Fin 6 → List Byte → List Byte → List Byte → Instr) × Prop

/-- The rows that take flits, each with the flits it is for (R318, Table 11.3). -/
def flitRows (b : List Byte) : List FlitRow :=
  let ct := leAt b 4 1
  [(.flitDataRx, flitTy b = ftData), (.flitIdleRx, flitTy b = ftIdle), (.flitNakRx, flitTy b = ftNak),
   (.ctrlCreditRx, flitTy b = ftCtrl ∧ ct ≠ 2 ∧ ct ≠ 3 ∧ ct ≠ 4), (.ctrlSwapRx, flitTy b = ftCtrl ∧ ct = 2),
   (.ctrlIdentRx, flitTy b = ftCtrl ∧ ct = 3), (.ctrlDropRx, flitTy b = ftCtrl ∧ ct = 4)]

/-- Each row is `flitRow` with a test of its own, which the flits that the row is for meet. -/
theorem flitRow_of_mem {b : List Byte} {r : FlitRow} (hrow : r ∈ flitRows b) (l : Fin 6)
    (rx ck : List Byte) (s : State) :
    ∃ mine, exec (r.1 l b rx ck) s = run [.lnk l] (flitRow l b (rx ++ ck) mine) s ∧
      (r.2 → mine (flitTy b) (leAt b 4 1) = true) := by
  simp only [flitRows, List.mem_cons, List.not_mem_nil, or_false] at hrow
  rcases hrow with rfl | rfl | rfl | rfl | rfl | rfl | rfl
  · exact ⟨_, rfl, decide_eq_true⟩
  · exact ⟨_, rfl, decide_eq_true⟩
  · exact ⟨_, rfl, decide_eq_true⟩
  · exact ⟨_, rfl, fun ⟨hty, hct⟩ => by simp [hty, hct]⟩
  · exact ⟨_, rfl, fun ⟨hty, hct⟩ => by simp [hty, hct]⟩
  · exact ⟨_, rfl, fun ⟨hty, hct⟩ => by simp [hty, hct]⟩
  · exact ⟨_, rfl, fun ⟨hty, hct⟩ => by simp [hty, hct]⟩

section Rows
variable {l : Fin 6} {b rx ck : List Byte} {s : State} (htaint : s.tainted = [])
  (htakes : flitTakes s l (decide (flitTy b = ftData)) = true)
include htaint htakes

/-- A row receives a flit that shows no type, and one of its own. -/
theorem exec_flitRow {r : FlitRow} (hrow : r ∈ flitRows b)
    (hmine : fecErrs b (rx ++ ck) = none ∨ flitOk b = false ∨ r.2) :
    exec (r.1 l b rx ck) s = .next (flitRx s l b (rx ++ ck)) := by
  obtain ⟨mine, hexec, hmeets⟩ := flitRow_of_mem hrow l rx ck s
  refine hexec.trans (run_eq_of_untainted htaint (if_pos ?_))
  rcases hmine with hfec | hcheck | hty
  · simp [htakes, hfec]
  · simp [htakes, hcheck]
  · simp [htakes, hmeets hty]

theorem exec_flitRow_accepted {k : Nat} {r : FlitRow} (hrow : r ∈ flitRows b) (hty : r.2)
    (hfec : fecErrs b (rx ++ ck) = some k) (hcheck : flitOk b = true) (hlsn : flitLsn b = (linkOf s l).rxExp) :
    exec (r.1 l b rx ck) s = .next (flitTake (fecCounted s l k) l b) := by
  rw [exec_flitRow htaint htakes hrow (.inr (.inr hty)), flitRx_accepted hfec hcheck hlsn]

end Rows

/-- Settles O43, along the reception of a flit: its code, its check, its LSN, its type. That a flit's command carries what
the decoder settles on, and that an unknown CTYPE has no effect, are the model's choices (logs 67, 107). -/
theorem flits : Obligations.Flits := by
  intro l b rx ck s htaint htakes
  refine ⟨fun hfec r hrow => ?_, fun k hfec => ⟨fun r hrow => ⟨fun hcheck => ?_, fun hcheck hmine hlsn => ?_,
    fun hcheck hmine hlsn hty => ?_⟩, fun hcheck hlsn => ⟨fun hty => ?_, fun hty => ?_, fun hty => ?_⟩⟩⟩
  · rw [exec_flitRow htaint htakes hrow (.inl hfec), flitRx_uncorrectable hfec]
  · rw [exec_flitRow htaint htakes hrow (.inr (.inl hcheck)), flitRx_checkFails hfec hcheck]
    rfl
  · rw [exec_flitRow htaint htakes hrow (.inr (.inr hmine)), flitRx_outOfOrder hfec hcheck hlsn]
    rfl
  · rw [exec_flitRow_accepted htaint htakes hrow hmine hfec hcheck hlsn, flitTake_ctrl hty]
    rfl
  · have hrow : (Instr.flitDataRx, flitTy b = ftData) ∈ flitRows b := .head _
    rw [exec_flitRow_accepted htaint htakes hrow hty hfec hcheck hlsn, flitTake_data hty]
    rfl
  · have hrow : (Instr.flitIdleRx, flitTy b = ftIdle) ∈ flitRows b := .tail _ (.head _)
    rw [exec_flitRow_accepted htaint htakes hrow hty hfec hcheck hlsn, flitTake_idle hty]
    rfl
  · have hrow : (Instr.flitNakRx, flitTy b = ftNak) ∈ flitRows b := .tail _ (.tail _ (.head _))
    rw [exec_flitRow_accepted htaint htakes hrow hty hfec hcheck hlsn, flitTake_nak hty]
    rfl

/-! ### A whole frame at the head of a receive queue -/

section Frames
variable {l ty : Nat} {s : State} {f : Frame} {r : List Frame} (hqueue : (linkOf s l).rxq = f :: r) (hty : f.ty = ty)
include hqueue hty

theorem frameRx_here (hroute : routeOf s f (if l < 6 then some l else none) = .here) (hawake : frameAsleep s f = false) :
    frameRx l ty s = kick (frameHere (giveBack (setLink s l { linkOf s l with rxq := r }) l f) l f) := by
  simp only [frameRx, hqueue, hty, hroute, hawake, ne_eq, not_true_eq_false, Bool.false_eq_true, if_false]

theorem frameRx_hop {d : Nat} {g : Frame} (hroute : routeOf s f (if l < 6 then some l else none) = .hop d g) :
    frameRx l ty s = sendHop (giveBack (setLink s l { linkOf s l with rxq := r }) l f) d g := by
  simp only [frameRx, hqueue, hty, hroute, ne_eq, not_true_eq_false, if_false]

theorem frameRx_invalid (hroute : routeOf s f (if l < 6 then some l else none) = .invalid) :
    frameRx l ty s = giveBack (dropAt (setLink s l { linkOf s l with rxq := r }) l) l f := by
  simp only [frameRx, hqueue, hty, hroute, ne_eq, not_true_eq_false, if_false]

theorem frameRx_asleep (hroute : routeOf s f (if l < 6 then some l else none) = .here) (hasleep : frameAsleep s f = true) :
    frameRx l ty s = wake s := by
  simp only [frameRx, hqueue, hty, hroute, hasleep, ne_eq, not_true_eq_false, if_false, if_true]

end Frames

/-- The rows that receive frames, each with its type (Table 11.5). -/
def frameRows : List ((Fin 7 → Instr) × Nat) :=
  [(.blockFrameRx, tyBlock), (.syncFrameRx, tySync), (.readFrameRx, tyRead), (.rdataFrameRx, tyRdata), (.collFrameRx, tyColl),
   (.zrunFrameRx, tyZrun), (.voteFrameRx, tyVote), (.digestFrameRx, tyDigest), (.ackeFrameRx, tyAcke), (.statusFrameRx, tyStatus)]

theorem exec_frameRow {x : (Fin 7 → Instr) × Nat} (hrow : x ∈ frameRows) (l : Fin 7) (s : State) :
    exec (x.1 l) s = run [.xlat] (frameRx l x.2) s := by
  simp only [frameRows, List.mem_cons, List.not_mem_nil, or_false] at hrow
  rcases hrow with rfl | rfl | rfl | rfl | rfl | rfl | rfl | rfl | rfl | rfl <;> rfl

/-- Settles O44: each row is `frameRx` for its type, which acts along the route. That a frame waits in dusk is the model's choice
(log 117), and so is the loopback path, number 6, which has no counter and no credit (log 69). -/
theorem frameArrival : Obligations.FrameArrival := by
  intro l s f r htaint hqueue c from_ x hrow hty
  have acts {t : State} (h : frameRx l x.2 s = t) : exec (x.1 l) s = .next t :=
    (exec_frameRow hrow l s).trans (run_eq_of_untainted htaint h)
  refine ⟨?_, ?_, ?_, ?_⟩
  · exact fun hroute hawake => acts (frameRx_here hqueue hty hroute hawake)
  · exact fun d g hroute => acts (frameRx_hop hqueue hty hroute)
  · exact fun hroute => acts (frameRx_invalid hqueue hty hroute)
  · exact fun hroute hasleep => acts (frameRx_asleep hqueue hty hroute hasleep)

end Sys2Proof.Machine

/-! ## End-to-end timers and the journal (R335, R336, R363–R373) -/
namespace Sys2Proof.Machine

variable {s : State}

theorem opAckeTimer_due {lc : Nat}
    (hdue : let d := smGet (fun _ => ({ n := 0, since := 0 } : AckDue)) s.e2e.due lc
      d.n ≠ 0 ∧ (64 ≤ d.n ∨ d.since + 2 * btUs ≤ s.beacon + 1)) :
    opAckeTimer lc s =
      let t := { s with e2e := { s.e2e with due := smDel s.e2e.due lc } }
      hubSend t { mkFrame s tyAcke lc 0 true 0 true 0 0 (rxExp s lc 0) [] with esn := rxExp s lc 1 } .hub 0 :=
  if_pos hdue

theorem opE2eTimeout_expired {u : Unack} (hfind : s.e2e.unack.find? (fun x => decide (x.deadline ≤ s.beacon)) = some u) :
    opE2eTimeout s =
      let t := raise { s with e2e := { s.e2e with unack := s.e2e.unack.erase u } } .collFail whHub u.step
        [a32 u.lc, a32 u.esn, a32 u.collid, a8 (u.cls % 2)]
      kick (ownerStat (if u.step = 0 then t else voteSet t u.step vColl) u.owner (if u.stat = 0 then 0x12 else u.stat)) := by
  simp only [opE2eTimeout, hfind]

theorem opJournalAdmit_admits {w : JWait} (hfind : s.agl.wait.find? (waitMay s) = some w) :
    opJournalAdmit s =
      let t := { s with agl := { s.agl with wait := s.agl.wait.erase w } }
      if w.tx then kick (if canSend t (adLc w.frame.dst) then sendSeq (recordTx t w.frame) w.frame w.owner w.collid
        else unsent t w.frame w.owner)
      else if w.frame.epoch < s.epoch then cnt t .chk rChkStaleEpoch
      else kick (journalRx t w.collid w.frame) := by
  simp only [opJournalAdmit, hfind]

section Redeliver
variable {r : JRec} (hnext : nextRedeliver s = some r)
include hnext

theorem opJournalRedeliver_rcrcFails : opJournalRedeliver false s = sendRefetch s r := by
  simp only [opJournalRedeliver, hnext, Bool.not_false, if_true]

theorem opJournalRedeliver_host (hkind : r.kind = .rxHost) :
    opJournalRedeliver true s = hostRecFx (redone s r) r.frame := by
  simp only [opJournalRedeliver, hnext, hkind, Bool.not_true, Bool.false_eq_true, if_false, if_true]

theorem opJournalRedeliver_link (hkind : r.kind ≠ .rxHost) (hty : r.frame.ty ≠ tyRdata) :
    opJournalRedeliver true s = kick (frameFx (redone s r) loopLink r.frame) := by
  simp only [opJournalRedeliver, hnext, hkind, hty, Bool.not_true, Bool.false_eq_true, if_false]

end Redeliver

/-- The re-send of a record waits for the agreement, and for the arrivals that the records served before it stand for (R373). -/
theorem opSendJournalResend_resends {lc n : Nat} {d : List Byte} {r : JRec} (hseal : s.lastSeal = some (n, d))
    (hfind : s.agl.recs.find? (fun x => decide (x.step = n) && x.kind == .txLink && decide (x.peer = lc) &&
      decide (x.frame.epoch < s.epoch)) = some r)
    (hagree : s.agree.active = false)
    (hserved : ∀ x ∈ s.agl.served, x.step = n → x.peer = lc → x.jseq < r.jseq → x.matched = true) :
    opSendJournalResend lc s = resendRec s r := by
  have hmatched : s.agl.served.any (fun t => decide (t.step = n) && decide (t.peer = lc) && decide (t.jseq < r.jseq) &&
      !t.matched) = false := by
    simpa [and_imp] using hserved
  simp only [opSendJournalResend, hseal, hfind, hagree, hmatched, Bool.false_eq_true, or_self, if_false]

theorem opJournalRefetchRx_read {f : Frame} {l : List Frame} (hqueue : s.hubIn = f :: l) (hty : f.ty = tyRead) :
    opJournalRefetchRx s =
      match refetchRec { s with hubIn := l } f with
      | some x => resendRec { s with hubIn := l } x
      | none => sendStatus { s with hubIn := l } f 0x08 := by
  unfold opJournalRefetchRx
  simp only [hqueue]
  exact if_neg (not_not_intro hty)

/-- Settles O46: no block is tainted, so each row is its operation, and the lemmas above say what that comes to. That a refetch
which cannot be served is answered with LIMIT is the model's choice (log 114). -/
theorem endToEndAndJournal : Obligations.EndToEndAndJournal := by
  intro s htaint
  refine ⟨?_, fun u hfind => ?_, fun w hfind => ?_,
    fun r hnext => ⟨?_, fun hkind => ?_, fun hkind hty => ?_⟩, fun lc n d r hseal hfind hagree hserved => ?_,
    fun f l hqueue hty => ?_⟩
  · intro lc d hany hwhen
    exact run_eq_of_untainted htaint (opAckeTimer_due ⟨hany, hwhen⟩)
  · exact run_eq_of_untainted htaint (opE2eTimeout_expired hfind)
  · exact run_eq_of_untainted htaint (opJournalAdmit_admits hfind)
  · exact run_eq_of_untainted htaint (opJournalRedeliver_rcrcFails hnext)
  · exact run_eq_of_untainted htaint (opJournalRedeliver_host hnext hkind)
  · exact run_eq_of_untainted htaint (opJournalRedeliver_link hnext hkind hty)
  · exact run_eq_of_untainted htaint (opSendJournalResend_resends hseal hfind hagree hserved)
  · exact run_eq_of_untainted htaint (opJournalRefetchRx_read hqueue hty)

end Sys2Proof.Machine

/-! ## Hub messages and the reflection of a step (R375–R381, R358, R404) -/
namespace Sys2Proof.Machine

/-! ### The front of the hub's queue -/

section Front
variable {s : State} {f : Frame} {r : List Frame} (hqueue : s.hubIn = f :: r)
include hqueue

theorem hmsgRow_front {m : Nat} (act : Frame → State → State) (hty : f.ty = tyBlock) (hhmsg : hmsgOf f = m) :
    hmsgRow m act s = act f { s with hubIn := r } := by
  simp only [hmsgRow, hqueue]
  exact if_pos ⟨hty, hhmsg⟩

theorem reflRow_front {code : Nat} (act : Nat → Nat → State → State) (hty : f.ty = tySync)
    (hcode : leAt f.body 0 1 = code) :
    reflRow code act s = act (adLc f.src) (leAt f.body 4 4) { s with hubIn := r } := by
  simp only [reflRow, hqueue]
  exact if_pos ⟨hty, hcode⟩

end Front

/-- The rows of the hub messages, each with its HMSG and what it does. -/
def hmsgRows : List (Instr × Nat × (Frame → State → State)) :=
  [(.hmsgCommandBlock, 1, cmdTake), (.hmsgGradientBlock, 2, gradTake), (.hmsgSealBlock, 3, sealTake),
   (.hmsgReflFoldRecord, 4, foldRecTake), (.hmsgDigestReport, 5, reportTake), (.hmsgResyncData, 6, resyncTake)]

theorem exec_hmsgRow {x : Instr × Nat × (Frame → State → State)} (hrow : x ∈ hmsgRows) (s : State) :
    exec x.1 s = run [.hub] (hmsgRow x.2.1 x.2.2) s := by
  simp only [hmsgRows, List.mem_cons, List.not_mem_nil, or_false] at hrow
  rcases hrow with rfl | rfl | rfl | rfl | rfl | rfl <;> rfl

/-! ### REFL_HAVE and REFL_DONE act for the buddy (R377) -/

section Answer
variable {s : State} {lc : Nat} (n : Nat) (hbuddy : s.buddy = some lc)
include hbuddy

theorem haveTake_buddy : haveTake lc n s = tmOff (updStep s n (fun r => { r with reflHave := true })) .refl :=
  if_pos hbuddy

theorem doneTake_buddy : doneTake lc n s =
    let u := tmOff { s with reflDone := n, resyncOut := false } .refl
    setReg u .hub rHubReflAcked (BitVec.ofNat 32 (max (regAt u .hub rHubReflAcked).toNat n)) :=
  if_pos hbuddy

end Answer

/-! ### Messages of the ward and of the buddy (R375, R380, R383) -/

section Sender
variable {s : State} {f : Frame}

theorem cmdTake_other (hward : fromWard s f = false) (hbuddy : fromBuddy s f = false) : cmdTake f s = s := by
  simp [cmdTake, hward, hbuddy]

theorem cmdTake_taken (hfrom : fromWard s f = true ∨ fromBuddy s f = true) : cmdTake f s =
    let b := bundleOf s f
    let k := hmsgField f % u32Mod
    bundleDone s { b with cmds := (k, hmsgData f) :: b.cmds.filter (fun x => x.1 != k) } :=
  if_neg (by rcases hfrom with h | h <;> simp [h])

theorem gradTake_other (hward : fromWard s f = false) : gradTake f s = s := by
  simp [gradTake, hward]

theorem gradTake_ward (hward : fromWard s f = true) : gradTake f s =
    let b := bundleOf s f
    let k := hmsgField f % u32Mod
    let i := (parseHdr (hmsgBlk f)).block
    bundleDone s { b with grads := (k, i, hmsgBlk f) :: b.grads.filter (fun x => !(x.1 == k && x.2.1 == i)) } :=
  if_neg (by simp [hward])

theorem sealTake_other (hward : fromWard s f = false) (hbuddy : fromBuddy s f = false) : sealTake f s = s := by
  simp [sealTake, hward, hbuddy]

theorem sealTake_ward (hward : fromWard s f = true) : sealTake f s =
    let b := bundleOf s f
    let k := hmsgField f % u32Mod
    bundleDone s { b with seals := (k, hmsgData f) :: b.seals.filter (fun x => x.1 != k) } :=
  if_pos hward

theorem resyncTake_other (hward : fromWard s f = false) (hbuddy : fromBuddy s f = false) : resyncTake f s = s := by
  simp [resyncTake, hward, hbuddy]

/-- The set that keeps the address's page has the frame to store in (R383, P4). -/
theorem resyncTake_buddy {n p : Nat} (hward : fromWard s f = false) (hbuddy : fromBuddy s f = true)
    (hset : pageSetOf s (hmsgField f % 2 ^ 48) = some n) (haddr : resyncAddr s n (hmsgField f % 2 ^ 48) = some p) :
    resyncTake f s = resyncStore s p f := by
  simp only [resyncTake, hward, hbuddy, hset, haddr, Option.bind_some, Bool.false_eq_true, if_false, if_true]

end Sender

/-! ### The ward's resynchronization is under way from its first data on (R380) -/

/-- Whether the module is resynchronizing, and the step that the stream is of. -/
def resyncMark (s : State) : Bool × Nat := (s.resyncing, s.resyncAt)

/-- A write past the caches enters no reading that leaves registers, cache lines, memory, reservations and poison aside. -/
theorem physWr_aside {α : Type} {g : State → α} (hg : Aside g)
    (hmem : ∀ (s : State) (a : Nat) (l : List Byte), g (memWr s a l) = g s)
    (hpoison : ∀ (s : State) (a n : Nat), g (unpoison s a n) = g s) (s : State) (p : Nat) (l : List Byte) :
    g (physWr s p l) = g s := by
  unfold physWr
  split
  · rfl
  · rw [hmem, hpoison, traffic_aside hg]

theorem resyncMark_aside : Aside resyncMark := ⟨fun _ _ _ _ => rfl, fun _ _ => rfl⟩

theorem resyncMark_resyncStore (s : State) (p : Nat) (f : Frame) : resyncMark (resyncStore s p f) = resyncMark s :=
  have writes := physWr_aside resyncMark_aside (fun _ _ _ => rfl) (fun _ _ _ => rfl)
  (writes ..).trans (writes ..)

theorem resyncMark_resyncTake {s : State} {f : Frame} (hward : fromWard s f = true) :
    resyncMark (resyncTake f s) = (true, f.step) := by
  simp only [resyncTake, hward, if_true]
  split
  · exact resyncMark_resyncStore ..
  · rfl

/-! ### The slow-tier engines run over a bundle (R301, R304, R377) -/

/-- The state once the engines have met the disagreements over a bundle. -/
def slowMet (s : State) (b : Bundle) : State := dualMisses b.step (bundleMis s b) { s with free := s.free + 1 }

section SlowRun
variable {s : State} {b : Bundle}

theorem slowRun_commitFails (hthree : ∃ x ∈ bundleMis s b, 3 ≤ x.2) :
    slowRun s b = (raise (commitFailed (slowMet s b) b.step) .commitFail whHub b.step [], false) :=
  if_pos (dualFails_iff.mpr hthree)

theorem slowRun_engines (hfew : ¬ ∃ x ∈ bundleMis s b, 3 ≤ x.2) : slowRun s b =
    match applyBundle (slowMet s b) b with
    | some t => (t, true)
    | none => (reflFrameWait s b.step, false) :=
  if_neg (mt dualFails_iff.mp hfew)

variable (hsync : s.resyncing = false) (hnext : nextBundle s = some b)
include hsync hnext

theorem opReflApplyComplete_next : opReflApplyComplete s =
    if (slowRun s b).2 then reflAnswer (slowRun s b).1 b.lc 0x11 b.step else (slowRun s b).1 := by
  simp only [opReflApplyComplete, hsync, hnext, Bool.false_eq_true, if_false]
  rfl

theorem opReflApplyComplete_commitFails (hthree : ∃ x ∈ bundleMis s b, 3 ≤ x.2) :
    opReflApplyComplete s = raise (commitFailed (slowMet s b) b.step) .commitFail whHub b.step [] := by
  rw [opReflApplyComplete_next hsync hnext, slowRun_commitFails hthree]
  exact if_neg Bool.false_ne_true

/-- The engines apply the bundle, or wait for a frame (R304). -/
theorem opReflApplyComplete_engines (hfew : ¬ ∃ x ∈ bundleMis s b, 3 ≤ x.2) : opReflApplyComplete s =
    match applyBundle (slowMet s b) b with
    | some t => reflAnswer t b.lc 0x11 b.step
    | none => reflFrameWait s b.step := by
  rw [opReflApplyComplete_next hsync hnext, slowRun_engines hfew]
  cases applyBundle (slowMet s b) b <;> rfl

end SlowRun

theorem opResyncDone_ends {s : State} {lc : Nat} (hward : s.ward = some lc) (hsync : s.resyncing = true) :
    opResyncDone s =
      let t := { s with resyncing := false, reflN := s.resyncAt,
                        bundles := s.bundles.filter (fun b => decide (s.resyncAt < b.step)) }
      let u := applyWaiting t.bundles.length (setReg t .hub rHubReflStep (BitVec.ofNat 32 s.resyncAt))
      reflAnswer (setFld u .hub rHubReflStatus 2 0 2) lc 0x11 u.reflN := by
  simp only [opResyncDone, hward, hsync, if_true]
  rfl

/-- Settles O47: the message at the front of the hub's queue acts by its HMSG, the messages of ward and buddy by their sender,
and the next bundle along the disagreements of the slow-tier engines. Those disagreements are a free value (log 79); that
RESYNC_DONE applies the bundles that waited, and what a promoted spare does with its buddy's messages, are the model's choices
(logs 140, 227). -/
theorem hubMessages : Obligations.HubMessages := by
  refine ⟨fun s f r htaint hqueue => ⟨fun x hrow hty hhmsg => ?_, fun hty hcode hbuddy => ?_, fun hty hcode hbuddy => ?_⟩,
    fun s f => ⟨fun hward => ⟨gradTake_other hward, fun hbuddy => ?_⟩, cmdTake_taken, fun hward => ?_,
      fun hward hbuddy n hset p haddr => resyncTake_buddy hward hbuddy hset haddr⟩,
    fun s htaint => ⟨fun b hsync hnext => ?_, fun lc hward hsync => ?_, fun hdue => ?_⟩⟩
  · exact (exec_hmsgRow hrow s).trans (run_eq_of_untainted htaint (hmsgRow_front hqueue _ hty hhmsg))
  · exact run_eq_of_untainted htaint ((reflRow_front hqueue haveTake hty hcode).trans (haveTake_buddy _ hbuddy))
  · exact run_eq_of_untainted htaint ((reflRow_front hqueue doneTake hty hcode).trans (doneTake_buddy _ hbuddy))
  · exact ⟨cmdTake_other hward hbuddy, resyncTake_other hward hbuddy, sealTake_other hward hbuddy⟩
  · obtain ⟨hsync, hstep⟩ := Prod.mk.inj (resyncMark_resyncTake hward)
    exact ⟨gradTake_ward hward, sealTake_ward hward, hsync, hstep⟩
  · by_cases hthree : ∃ x ∈ bundleMis s b, 3 ≤ x.2
    · exact run_eq_of_untainted htaint ((opReflApplyComplete_commitFails hsync hnext hthree).trans (if_pos hthree).symm)
    · exact run_eq_of_untainted htaint ((opReflApplyComplete_engines hsync hnext hthree).trans (if_neg hthree).symm)
  · exact run_eq_of_untainted htaint (opResyncDone_ends hward hsync)
  · exact run_eq_of_untainted htaint (if_pos hdue)

end Sys2Proof.Machine

/-! ## Prism, certification and the health score (R345–R354, R382–R391, R438) -/
namespace Sys2Proof.Machine

variable {s : State}

/-! ### A prism burst (R349–R351) -/

theorem opPrismBurst_runs {rg idx k : Nat} {wrong : Option DWord} {abft : Bool} {temp volt start : Nat}
    (hkind : burstKind s idx (prismOf s rg idx).b = some k) (hpwr : s.pwr = .run) (hon : bitAt s.prismCtl.toNat 0 = true)
    (hup : reporterUp s rg idx = true) (hcredit : burstLen k * 8000 ≤ creditOf s rg (prismOf s rg idx))
    (hturn : reporterBusy s rg idx = false ∨ creditOf s rg (prismOf s rg idx) = creditCap * 8000) :
    opPrismBurst rg idx wrong abft temp volt start s =
      let p := prismOf s rg idx
      let r : PrismRep :=
        { idx := 82 * rg + idx, dig := (wrong.map (fun d => d.toNat)).getD (prismDigest s.prismSeed p.b k), kind := k,
          temp := temp, volt := volt, freq := islandFreq s rg, start := start }
      let t := setPrism s rg idx
        { b := (p.b + 1) % u32Mod, base := prismClkOf s rg - (creditOf s rg p - burstLen k * 8000) }
      let u := updBand (cnt64 t .chk rChkPrismRunsLo 1) rg idx (repBand s rg idx temp) (fun x => { x with runs := stick x.runs })
      prismReport (if abft then prismMismatch u r p.b else u) (rg / 4) r p.b := by
  have hmay : s.pwr = .run ∧ bitAt s.prismCtl.toNat 0 ∧ reporterUp s rg idx ∧
      burstLen k * 8000 ≤ creditOf s rg (prismOf s rg idx) ∧
      (!reporterBusy s rg idx ∨ creditOf s rg (prismOf s rg idx) = creditCap * 8000) :=
    ⟨hpwr, hon, hup, hcredit, hturn.imp_left (by simp [·])⟩
  simp only [opPrismBurst, hkind, if_pos hmay]
  cases wrong <;> rfl

/-! ### Certification (R386, R387) -/

section RunEnd
variable {k bands : Nat} {c : Cert} (hcert : s.certs[k]? = some c) (hrun : c.running = true) (hdue : c.at_ ≤ s.beacon)
include hcert hrun hdue

theorem opCertRunEnd_pass : opCertRunEnd k .pass bands s = certPass s c.what bands := by
  simp [opCertRunEnd, hcert, hrun, Nat.not_lt.mpr hdue]

theorem opCertRunEnd_fail : opCertRunEnd k .fail bands s = certFail s c := by
  simp [opCertRunEnd, hcert, hrun, Nat.not_lt.mpr hdue]

/-- The second spare agreed with the unit, so the partner is charged (R387). -/
theorem opCertRunEnd_second {rg u b kind temp volt start : Nat} (hunit : c.what = .unit rg u)
    (hspare : secondSpare s rg u = true) :
    opCertRunEnd k (.second b kind temp volt start) bands s =
      let p := (unitAt s rg u).partner.getD 0
      certPass (prismMismatch s { idx := 82 * (p / 66) + p % 66, dig := 0, kind := kind, temp := temp, volt := volt,
                                  freq := islandFreq s (p / 66), start := start } b) c.what bands := by
  simp [opCertRunEnd, hcert, hrun, Nat.not_lt.mpr hdue, hunit, hspare]

end RunEnd

theorem opCertRetryTimer_due {k : Nat} {c : Cert} (hcert : s.certs[k]? = some c) (hrun : c.running = false)
    (hdue : c.at_ ≤ s.beacon) : opCertRetryTimer k s = certAgain s c := by
  simp [opCertRetryTimer, hcert, hrun, Nat.not_lt.mpr hdue]

theorem unitCertGo_starts {rg u p : Nat} {l : List Nat} (hecl : (unitAt s rg u).eclipsed = true)
    (hnone : s.certs.any (fun c => decide (c.what = .unit rg u)) = false)
    (hspares : (dieSpares s (rg / 4)).filter (fun k => !(certPartners s).contains k) = p :: l) :
    unitCertGo s rg u =
      let t := setUnit s rg u { unitAt s rg u with certWait := false, partner := some p }
      { t with certs := t.certs ++ [{ what := .unit rg u, running := true, at_ := t.beacon + t.certSec * 200000000 }] } := by
  simp only [unitCertGo, hecl, hnone, hspares, Bool.not_true, Bool.or_self, Bool.false_eq_true, if_false]

/-! ### Health (R391, R438) -/

theorem opHealthPeriod_due (hlane : laneUp s = true)
    (hdue : (tmAt s .healthSend).getD (s.mgmt.period * btMs) ≤ s.beacon) :
    opHealthPeriod s = tmArm (healthSend s) .healthSend (s.mgmt.period * btMs) := by
  simp [opHealthPeriod, hlane, hdue]

theorem b2n_le_one (b : Bool) : b2n b ≤ 1 := by
  cases b <;> decide

theorem decay_zero (k : Nat) : decay k 0 = 0 := rfl

/-- The factor is below 1, so the product rounded up is no more than what it was (R391). -/
theorem decay_le (k p : Nat) : decay k p ≤ p := by
  have hround := b2n_le_one (Config.decayUp k p)
  unfold decay decayConst
  split <;> omega

/-- The factor is above 99 / 100, and rounding takes less than a point (R391). -/
theorem decay_ge (k p : Nat) : p * 99 ≤ 100 * decay k p + 100 := by
  unfold decay decayConst
  split <;> omega

/-- Settles O48: no block is tainted, so each row is its operation, and the lemmas above say what that comes to. That a decay
rounds to either neighbour of the product is the model's choice (log 53), and so are the credit of a reporter (log 99) and the
operands of a burst (log 228). -/
theorem prismAndHealth : Obligations.PrismAndHealth := by
  intro s htaint
  refine ⟨fun rg idx wrong start abft temp volt freq k => ?_, fun hdue => ?_, fun k c bands hcert hrun hdue => ⟨?_, ?_, ?_⟩,
    fun k c hcert hrun hdue => ?_, fun rg u p l hecl hnone hspares => ?_, fun hdue => ?_, fun hlane hdue => ?_,
    fun k p => ⟨decay_zero k, decay_le k p, fun _ => decay_ge k p⟩⟩
  · intro p c hkind hpwr hon hup hcredit hturn
    exact run_eq_of_untainted htaint (opPrismBurst_runs hkind hpwr hon hup hcredit hturn)
  · exact run_eq_of_untainted (bs := []) htaint (if_pos hdue)
  · exact run_eq_of_untainted (bs := []) htaint (opCertRunEnd_pass hcert hrun hdue)
  · exact run_eq_of_untainted (bs := []) htaint (opCertRunEnd_fail hcert hrun hdue)
  · intro rg u b kind temp volt start hunit hspare
    exact run_eq_of_untainted (bs := []) htaint (opCertRunEnd_second hcert hrun hdue hunit hspare)
  · exact run_eq_of_untainted (bs := []) htaint (opCertRetryTimer_due hcert hrun hdue)
  · exact run_eq_of_untainted (bs := []) (f := (unitCertGo · rg u)) htaint (unitCertGo_starts hecl hnone hspares)
  · exact run_eq_of_untainted htaint (if_pos hdue)
  · exact run_eq_of_untainted htaint (opHealthPeriod_due hlane hdue)

end Sys2Proof.Machine

/-! ## Snapshots, manifests and restores (R399, R404, R407–R411, R471) -/
namespace Sys2Proof.Machine

variable {s : State}

/-! ### Release and reports of a snapshot (R399, R404) -/

theorem opSnapshotRelease_own {n : Snap} (hsnap : s.snap = some n) (hphase : n.phase = 1) (hdone : objsDone s 0 = true) :
    opSnapshotRelease false s =
      let t := releaseFrames { s with snap := some { n with phase := 2, frames := [] } } n.frames
      ckptShow (tmArm (sysObjInc t oSnap) .reflReport reportWait) := by
  simp only [opSnapshotRelease, hsnap, Bool.false_eq_true, if_false]
  exact if_pos ⟨hphase, hdone⟩

theorem opSnapshotRelease_refl {n : Snap} (hsnap : s.rsnap = some n) (hphase : n.phase = 1) (hdone : objsDone s 1 = true) :
    opSnapshotRelease true s =
      sendReports (ckptShow (sysObjInc (releaseFrames (dropObjs { s with rsnap := none } 1) n.frames) oSnap)) n := by
  simp only [opSnapshotRelease, hsnap, if_true]
  exact if_pos ⟨hphase, hdone⟩

theorem opReflReportTimeout_due {n : Snap} (hsnap : s.snap = some n) (hphase : n.phase = 2)
    (hdue : tmDue s .reflReport = true) (hmiss : reportsIn s n = false) :
    opReflReportTimeout s =
      { tmOff s .reflReport with snap := some { n with reportsDone := true, partRefl := true } } := by
  simp only [opReflReportTimeout, hsnap]
  exact if_pos ⟨hphase, hdue, by rw [hmiss]; rfl⟩

/-! ### The manifest's signature (R471, R472, R478) -/

theorem signEngine_refuses {msg : List Byte} (hsign : canSign s = false) :
    signEngine s msg = (mbDone (setStream s 1 none) 1 mbRefused [], none) :=
  if_neg (Bool.eq_false_iff.mp hsign)

theorem signEngine_signs {msg : List Byte} (hsign : canSign s = true) :
    signEngine s msg =
      let x := signMsg (setStream s 1 none) msg
      (mbDone x.1 1 mbOk x.2, some x.2) :=
  if_pos hsign

section Manifest
variable {n : Snap} (hsnap : s.snap = some n) (hphase : n.phase = 2) (hrep : reportsIn s n = true)
  (hfold : s.foldBusy ≠ some n.step)
include hsnap hphase hrep hfold

theorem opManifestWrite_of_refusal {t : State} (hsig : signEngine s (manBody s n) = (t, none)) :
    opManifestWrite s = snapAbort t abSign := by
  rw [opManifestWrite, hsnap]
  refine (if_pos ⟨hphase, hrep, hfold⟩).trans ?_
  rw [hsig]

theorem opManifestWrite_of_signature {t : State} {sig : List Byte}
    (hsig : signEngine s (manBody s n) = (t, some sig)) :
    opManifestWrite s =
      let u := tmOff t .reflReport
      let m := manBody s n ++ sig
      ckptShow (addObjs { u with snap := some { n with phase := 3, manifest := m },
                                 objects := u.objects.filter (fun o => decide (o.who ≠ 0)) } (manObjs n m)) := by
  rw [opManifestWrite, hsnap]
  refine (if_pos ⟨hphase, hrep, hfold⟩).trans ?_
  rw [hsig]
  rfl

end Manifest

/-! ### The end of a restore (R410, R411) -/

@[simp] theorem setReg_rst (b : Blk) (o : Nat) (w : Word) : (setReg s b o w).rst = s.rst := rfl

@[simp] theorem setFld_rst (b : Blk) (o hi lo v : Nat) : (setFld s b o hi lo v).rst = s.rst := rfl

@[simp] theorem ckptShow_rst : (ckptShow s).rst = s.rst :=
  (setFld_rst ..).trans (setFld_rst ..)

@[simp] theorem dropObjs_rst (who : Nat) : (dropObjs s who).rst = s.rst := rfl

section RestoreEnd
variable {r : Rst} (hrst : s.rst = some r) (hready : r.ready = false)
include hrst hready

theorem opRestoreEnd_failed {mx : List Mixed} {pre : List (List Byte × List Byte)} (hplan : rstPlan s r = .failed mx pre) :
    opRestoreEnd s = restoreFail (stageBodies (mx.foldl raiseMixed s) pre) := by
  simp [opRestoreEnd, hrst, hready, hplan]

/-- What follows the staging writes registers, which keep the restore that it marks ready. -/
theorem opRestoreEnd_ready {m : List Byte} {bs pre : List (List Byte × List Byte)} {older : Bool} {copies : Nat}
    {mx : List Mixed} (hplan : rstPlan s r = .ready m bs older copies mx pre) :
    ∃ q, (opRestoreEnd s).rst = some q ∧ q.ready = true ∧ q.step = manStep m := by
  simp [opRestoreEnd, hrst, hready, hplan]

end RestoreEnd

/-- Settles O49: no block is tainted, so each row is its operation, and the lemmas above say what that comes to. That a refused
signature aborts with cause 5 is the model's choice (log 135), and so is that the signature runs through mailbox channel 1 as
one command (log 253). -/
theorem checkpoints : Obligations.Checkpoints := by
  intro s htaint
  refine ⟨fun n hsnap hphase hdone => ?_, fun n hsnap hphase hdone => ?_, fun n hsnap hphase hdue hmiss => ?_,
    fun n hsnap hphase hrep hfold => ⟨fun hsign => ?_, fun hsign => ?_⟩, fun r mx pre hrst hready hplan => ?_,
    fun r m bs older copies mx pre hrst hready hplan => ?_⟩
  · exact run_eq_of_untainted htaint (opSnapshotRelease_own hsnap hphase hdone)
  · exact run_eq_of_untainted htaint (opSnapshotRelease_refl hsnap hphase hdone)
  · exact run_eq_of_untainted htaint (opReflReportTimeout_due hsnap hphase hdue hmiss)
  · exact run_eq_of_untainted htaint (opManifestWrite_of_refusal hsnap hphase hrep hfold (signEngine_refuses hsign))
  · exact run_eq_of_untainted htaint (opManifestWrite_of_signature hsnap hphase hrep hfold (signEngine_signs hsign))
  · exact run_eq_of_untainted htaint (opRestoreEnd_failed hrst hready hplan)
  · exact ⟨opRestoreEnd s, run_of_untainted htaint, opRestoreEnd_ready hrst hready hplan⟩

end Sys2Proof.Machine

/-! ## Sinks and CWT timers (R400, R405, R419–R423, R430) -/
namespace Sys2Proof.Machine

variable {s : State}

/-! ### Reception from a sink (R400, R419, R420) -/

/-- A frame that a connection takes gets its place in the sequence, acts, and is acknowledged. -/
theorem sinkRx_of_takes {port : Fin 2} {k : Fin 64} {ty : Nat} {f : CwtFrame} {b : Bulk} {act : Nat → State → State}
    (htakes : sinkTakes s port k f b) (hty : f.ty = ty) (hseq : takesSeq ty = true) :
    sinkRx ty port (.sink k) f act s =
      let n := if limited f.ty then f.body.length else 0
      let t := setBulk (bufIn (sinkSeen s k f) port (48 + f.body.length)) { b with qs := updQ b.qs f.queue (fun y =>
        { y with rxNext := (y.rxNext + 1) % u32Mod, rxBytes := y.rxBytes + n }) }
      sinkSend (act k t) k (cwtFrame cAck f.queue []) := by
  subst hty
  obtain ⟨hup, hopen, hbulk, hnext, hcredit⟩ := htakes
  obtain ⟨c, hc⟩ := Option.isSome_iff_exists.mp hopen
  have hwithin : (limited f.ty && (!seqLt f.seq (cwtQ b.qs f.queue).flim ||
      decide ((cwtQ b.qs f.queue).blim < (cwtQ b.qs f.queue).rxBytes + f.body.length))) = false := by
    cases hlim : limited f.ty with
    | false => rfl
    | true =>
      obtain ⟨hframes, hbytes⟩ := hcredit hlim
      simp [hframes, hbytes]
  rw [hnext] at hwithin
  simp [sinkRx, hup, hc, hbulk, hseq, hnext, hwithin]

/-- A frame of a type without a sequence number acts as soon as it has been seen. -/
theorem anyRx_sink_of_unsequenced {port : Fin 2} {k : Fin 64} {ty : Nat} {f : CwtFrame} {host : State → State}
    {act : Nat → State → State} (hup : portUp s port = true) (hopen : (bulkOf s k).isSome = true)
    (hseen : (bulkOf (sinkSeen s k f) k).isSome = true) (hty : f.ty = ty) (hseq : takesSeq ty = false) :
    anyRx ty port (.sink k) f host act s = sinkNext (act k (sinkSeen s k f)) := by
  obtain ⟨c, hc⟩ := Option.isSome_iff_exists.mp hopen
  obtain ⟨b, hb⟩ := Option.isSome_iff_exists.mp hseen
  simp [anyRx, sinkRx, hty, hup, hc, hb, hseq]

/-! ### Retransmission (R421) -/

theorem opRtoExpire_sink {k : Fin 64} {q : Nat} {b : Bulk} (hbulk : bulkOf s k = some b)
    (hdue : rtoDue s (cwtQ b.qs q) = true) :
    opRtoExpire (some k) q s =
      let n := (cwtQ b.qs q).rtoN + 1
      resendSink (sinkRto (setBulk s { b with txAt := s.beacon }) k q (some (nextRto s n)) n) k q (oldestSeq (cwtQ b.qs q)) := by
  simp [opRtoExpire, hbulk, hdue]

section HostRto
variable {q : Nat} {c : Sess} (hsess : s.sess = some c) (hlost : c.lost = false) (hdue : rtoDue s (cwtQ c.qs q) = true)
include hsess hlost hdue

theorem opRtoExpire_host_eighth (hn : 7 ≤ (cwtQ c.qs q).rtoN) : opRtoExpire none q s = sessLost s 0 := by
  simp [opRtoExpire, hsess, hlost, hdue, hn]

theorem opRtoExpire_host_earlier (hn : (cwtQ c.qs q).rtoN < 7) :
    opRtoExpire none q s =
      let n := (cwtQ c.qs q).rtoN + 1
      let t := hostRto s q (some (nextRto s n)) n
      resendHost { t with sess := t.sess.map (fun d => { d with txAt := s.beacon }) } q (oldestSeq (cwtQ c.qs q)) := by
  simp [opRtoExpire, hsess, hlost, hdue, Nat.not_le.mpr hn]

end HostRto

/-! ### Keepalive, silence, credit and bulk timers (R405, R421, R422, R430) -/

theorem opKeepalive_sink {k : Fin 64} {b : Bulk} (hbulk : bulkOf s k = some b) (hquiet : b.txAt + keepEvery ≤ s.beacon) :
    opKeepalive (some k) s = sinkSend s k (cwtFrame cKeepalive 0 []) := by
  simp [opKeepalive, hbulk, hquiet]

theorem opKeepalive_host {c : Sess} (hsess : s.sess = some c) (hlost : c.lost = false)
    (hquiet : c.txAt + keepEvery ≤ s.beacon) :
    opKeepalive none s = hostSend s (cwtFrame cKeepalive 0 []) := by
  simp [opKeepalive, hsess, hlost, hquiet]

theorem opSilence_due {c : Sess} (hsess : s.sess = some c) (hquiet : c.rxAt + 3000 * btMs ≤ s.beacon) :
    opSilence s = sessLost s 1 :=
  if_pos ((Option.any_eq_true _ _).mpr ⟨c, hsess, decide_eq_true hquiet⟩)

theorem opCreditRepeat_no_gets {c : Sess} (hsess : s.sess = some c) (hdue : (tmAt s .creditRep).getD 0 ≤ s.beacon)
    (hgets : getsOf s = []) :
    opCreditRepeat s =
      tmArm ((List.range (cwtQueues s)).foldl (fun u q => repeatCredit u (q + 1)) s) .creditRep creditEvery := by
  simp [opCreditRepeat, hsess, hgets, Nat.not_lt.mpr hdue]

/-- Settles O52: no block is tainted, so each row is its operation. What a sink sends acts along the path of its reception, by
whether its type takes a sequence number; a timer acts where its time has passed, a keepalive after the 100 ms of R421
(`keepEvery`). That NACKs 6, 7 and 8 of a sink fail its objects, in `sinkNackTake`, is the model's choice (log 192). -/
theorem cwtSinksAndTimers : Obligations.CwtSinksAndTimers := by
  intro s htaint
  refine ⟨fun port k f b htakes => ⟨fun hty => ?_, fun hty => ?_⟩,
    fun port k f hup hopen hseen => ⟨fun hty => ?_, fun hty => ?_, fun hty => ?_, fun hty => ?_⟩,
    fun k q b hbulk hdue => ?_, fun k b hbulk hquiet => ?_,
    fun q c hsess hlost hdue => ⟨fun hn => ?_, fun hn => ?_⟩, fun c hsess hlost hquiet => ?_, fun c hsess hquiet => ?_,
    fun c hsess hdue hgets => ?_, fun k q hlate => ?_⟩
  · exact run_eq_of_untainted htaint (sinkRx_of_takes htakes hty rfl)
  · exact run_eq_of_untainted htaint (sinkRx_of_takes htakes hty rfl)
  · exact run_eq_of_untainted htaint (anyRx_sink_of_unsequenced hup hopen hseen hty rfl)
  · exact run_eq_of_untainted htaint (anyRx_sink_of_unsequenced hup hopen hseen hty rfl)
  · exact run_eq_of_untainted htaint (anyRx_sink_of_unsequenced hup hopen hseen hty rfl)
  · exact run_eq_of_untainted htaint (anyRx_sink_of_unsequenced hup hopen hseen hty rfl)
  · exact run_eq_of_untainted htaint (opRtoExpire_sink hbulk hdue)
  · exact run_eq_of_untainted htaint (opKeepalive_sink hbulk hquiet)
  · exact run_eq_of_untainted htaint (opRtoExpire_host_eighth hsess hlost hdue hn)
  · exact run_eq_of_untainted htaint (opRtoExpire_host_earlier hsess hlost hdue hn)
  · exact run_eq_of_untainted htaint (opKeepalive_host hsess hlost hquiet)
  · exact run_eq_of_untainted htaint (opSilence_due hsess hquiet)
  · exact run_eq_of_untainted htaint (opCreditRepeat_no_gets hsess hdue hgets)
  · exact run_eq_of_untainted htaint (if_pos hlate)

end Sys2Proof.Machine

/-! ## The CWT session and work orders (R417–R422, R423, R426–R429, R433) -/
namespace Sys2Proof.Machine

variable {s : State}

/-! ### Reception from the host (R417–R421) -/

/-- A frame that the session takes acts on the state in which it has been seen; what follows is up to its action. -/
theorem hostRx_of_takes {port : Fin 2} {addr ty : Nat} {f : CwtFrame} {act : State → State × Bool}
    (htakes : hostTakes s port addr f) (hty : f.ty = ty) :
    hostRx ty port (.host addr) f act s =
      if (act (hostSeen s port f)).2 then hostTaken f (act (hostSeen s port f)).1 else (act (hostSeen s port f)).1 := by
  subst hty
  obtain ⟨hup, ⟨c, hsess, haddr, hlost⟩, hseq, hepoch, hcredit⟩ := htakes
  simp [hostRx, hostTaken, hup, hsess, haddr, hlost, hseq, hepoch, hcredit]

section Taken
variable {port : Fin 2} {addr ty : Nat} {f : CwtFrame} (htakes : hostTakes s port addr f) (hty : f.ty = ty)
include htakes hty

theorem hostRx_accepts {act : State → State × Bool} {t : State} (hact : act (hostSeen s port f) = (t, true)) :
    hostRx ty port (.host addr) f act s = hostTaken f t := by
  rw [hostRx_of_takes htakes hty, hact, if_pos rfl]

theorem anyRx_host {host : State → State} {sink : Nat → State → State} :
    anyRx ty port (.host addr) f host sink s = hostTaken f (host (hostSeen s port f)) :=
  hostRx_accepts (act := fun t => (host t, true)) htakes hty rfl

theorem hostRx_closes (hjob : (hostSeen s port f).sess.any (fun c => decide (c.job = leAt f.body 0 8)) = true) :
    hostRx ty port (.host addr) f (closeTake f) s = sessEnd (hostAck (hostTake (hostSeen s port f) f) f.queue) := by
  have hclose : closeTake f (hostSeen s port f) = (sessEnd (hostAck (hostTake (hostSeen s port f) f) f.queue), false) :=
    if_pos hjob
  rw [hostRx_of_takes htakes hty, hclose]
  rfl

end Taken

/-- ABORT of an order that has not retired marks it and answers that it is aborted (R429). -/
theorem abortTake_of_unretired {f : CwtFrame} {o : Order} (hfind : orderFind s f.queue f.order = some o)
    (hjournal : o.journaled = false) :
    abortTake f s = (hostSend (setHold (setOrder s { o with done := true, aborted := true, part := [] }) f.queue none)
      { cwtFrame cAbortResp f.queue [] with order := f.order, arg := 0 }, true) := by
  simp [abortTake, hfind, hjournal]

/-- An OPEN that finds no session starts one with every SEQ 0, whether or not it asks for RESUME. -/
theorem opCwtOpen_fresh {port : Fin 2} {addr : Nat} {f : CwtFrame} (hty : f.ty = cOpen) (hup : portUp s port = true)
    (hqueue : f.queue = 0) (hseq : f.seq = 0) (hjob : leAt f.body 0 8 ≠ 0) (hnone : (cwtWake s).sess = none) :
    opCwtOpen port (.host addr) f s = openedSend (sessNew (cwtWake s) (leAt f.body 0 8) addr port) [] := by
  simp [opCwtOpen, openFresh, hty, hup, hqueue, hseq, hjob, hnone]

/-- Settles O50: no block is tainted, so each row is its operation; a frame that the session takes acts and is then
acknowledged, but for CLOSE, whose acknowledgement goes out before the session ends. CREDIT is R422, NACK R423 and Table 15.4,
ABORT R429. That OPEN with RESUME and no session is a fresh one is the model's choice (log 189), and so is that a frame that
wakes the module is processed at once (log 194). -/
theorem cwtSession : Obligations.CwtSession := by
  intro port addr f s htaint
  refine ⟨fun hty hup hqueue hseq hjob hnone => ?_, fun hty htakes hjob => ?_, fun hty htakes => ?_, fun hty htakes => ?_,
    fun hty htakes => ?_, fun hty htakes => ?_, fun o hty htakes hfind hjournal => ?_⟩
  · exact run_eq_of_untainted htaint (opCwtOpen_fresh hty hup hqueue hseq hjob hnone)
  · exact run_eq_of_untainted htaint (hostRx_closes htakes hty hjob)
  · exact run_eq_of_untainted htaint (anyRx_host htakes hty)
  · exact run_eq_of_untainted htaint (anyRx_host htakes hty)
  · exact run_eq_of_untainted htaint (anyRx_host htakes hty)
  · exact run_eq_of_untainted htaint (anyRx_host htakes hty)
  · exact run_eq_of_untainted htaint (hostRx_accepts htakes hty (abortTake_of_unretired hfind hjournal))

/-! ### Work orders (R426–R429, R433) -/

/-- A WORK frame of a well-formed order of the epoch, on a queue with room, puts the order behind the others. -/
theorem workTake_of_orderOk {kind : Nat} {port : Nat} {f : CwtFrame} {act : Order → State → State × Order}
    (hok : orderOk s f (parseOrder s port f) = true)
    (hepoch : (parseOrder s port f).stepb = true → (parseOrder s port f).epoch = s.epoch)
    (hroom : (s.orders.filter (fun x => x.queue == (parseOrder s port f).queue && x.inFlight)).length < orderMax) :
    workTake kind port f act s =
      let a := orderStart { s with orderNo := s.orderNo + 1 } (parseOrder s port f)
      let b := if a.2.status = 0 ∧ a.2.kind = kind then act a.2 a.1 else a
      ({ b.1 with orders := b.1.orders ++ [b.2] }, true) := by
  have hcurrent : ((parseOrder s port f).stepb && decide ((parseOrder s port f).epoch ≠ s.epoch)) = false := by
    cases hstep : (parseOrder s port f).stepb with
    | false => rfl
    | true => simp [hepoch hstep]
  simp only [workTake, hok, hcurrent, Nat.not_le.mpr hroom, Bool.not_true, Bool.false_eq_true, if_false]

/-- A WORK frame of its kind, on a port that is up, is received by a module that it has woken. -/
theorem opWork_of_kind {kind port : Nat} {p : CwtPeer} {f : CwtFrame} {act : Order → State → State × Order}
    (hty : f.ty = cWork) (hkind : workKind f = kind) (hup : portUp s port = true) :
    opWork kind port p f act s = hostRx cWork port p f (workTake kind port f act) (cwtWake s) := by
  simp [opWork, workRx, hty, hkind, hup]

section Retire
variable {q : Nat} {o : Order} (hnext : orderNext s q = some o)
include hnext

theorem opOrderRetire_done (hdone : o.done = true) : opOrderRetire q s = retire s o := by
  simp [opOrderRetire, canRetire, hnext, hdone]

theorem opOrderRetire_refused (hkind : 3 ≤ o.kind) (hstatus : o.status ≠ 0) : opOrderRetire q s = retire s o := by
  simp [opOrderRetire, canRetire, hnext, hkind, hstatus]

theorem opOrderRetire_acts (hdone : o.done = false) (hkind : 3 ≤ o.kind) (hstatus : o.status = 0) :
    opOrderRetire q s = retire (orderAct o s).1 (orderAct o s).2 := by
  simp [opOrderRetire, canRetire, hnext, hdone, hkind, hstatus]

end Retire

/-- Settles O51: the five WORK rows differ in their kind and their action alone, and no block is tainted, so each is `opWork`.
Retirement is R428 and R429. The model's choices are that an order retires when it has finished, in any position (log 207),
that a frame that wakes the module is processed at once (log 194), and the BYTES of a REGWR and of a SIGNAL (log 191). -/
theorem cwtOrders : Obligations.CwtOrders := by
  intro port addr f s htaint
  refine ⟨?_, fun hty htakes htake => ?_, fun q o hnext =>
    ⟨fun hdone => ?_, fun _ hkind hstatus => ?_, fun hdone hkind hstatus => ?_⟩⟩
  · intro x hx t o hty hkind hup htakes hok hepoch hroom
    have hexec : exec (x.1 port (.host addr) f) s = run [.cwt] (opWork x.2.1 port (.host addr) f x.2.2) s := by
      simp only [List.mem_cons, List.not_mem_nil, or_false] at hx
      obtain rfl | rfl | rfl | rfl | rfl := hx <;> rfl
    exact hexec.trans (run_eq_of_untainted htaint ((opWork_of_kind hty hkind hup).trans
      (hostRx_accepts htakes hty (workTake_of_orderOk hok hepoch hroom))))
  · exact run_eq_of_untainted htaint (hostRx_accepts htakes hty (Prod.ext rfl htake))
  · exact run_eq_of_untainted htaint (opOrderRetire_done hnext hdone)
  · exact run_eq_of_untainted htaint (opOrderRetire_refused hnext hkind hstatus)
  · exact run_eq_of_untainted htaint (opOrderRetire_acts hnext hdone hkind hstatus)

end Sys2Proof.Machine

/-! ## Ethernet ports (R413, R414, R417, R439, R514) -/
namespace Sys2Proof.Machine

variable {s : State}

/-! ### What a port that is up receives (R413, R414, R417) -/

section PortUp
variable {port : Nat} (hup : portUp s port = true)
include hup

theorem opPfcFrameRx_pfc {prio : Nat} (stop : Bool) (hmode : flowMode s port = 1 ∨ flowMode s port = 3) :
    opPfcFrameRx port prio stop false s = if stop then pauseOn port s prio else pauseOff port s prio := by
  simp [opPfcFrameRx, hup, hmode]

theorem opPfcFrameRx_pause {prio : Nat} (stop : Bool) (hmode : flowMode s port = 2) :
    opPfcFrameRx port prio stop true s = (List.range 8).foldl (if stop then pauseOn port else pauseOff port) s := by
  simp [opPfcFrameRx, hup, hmode]

theorem ethAnswer_own (m : EthMsg) : ethAnswer port true m s = { s with ethOut := s.ethOut ++ [m] } :=
  if_pos (by rw [hup]; rfl)

theorem opEthFrameDiscard_up (why : EthDrop) :
    opEthFrameDiscard port why s = if why = .cwtHead then cnt s .cwt rCwtBad else cnt s (.eth port) rEthRxDrop := by
  simp [opEthFrameDiscard, hup]

end PortUp

/-! ### Plugs and link state (R439, R514) -/

section Port
variable {port : Nat}

theorem opOsfpInsert_empty {watts : Nat} (hcage : (s.osfp.getD port none).isSome = false) :
    opOsfpInsert port watts s = { s with osfp := s.osfp.set port (some { lowPower := decide (15 < watts) }) } := by
  simp only [opOsfpInsert, hcage, Bool.false_eq_true, if_false]

theorem opOsfpRemove_present (hcage : (s.osfp.getD port none).isSome = true) :
    opOsfpRemove port s = setFld (setFld { s with osfp := s.osfp.set port none } (.eth port) rEthStatus 0 0 0)
      (.eth port) rEthStatus 1 1 1 :=
  if_neg (by rw [← Option.not_isSome, hcage]; decide)

theorem opEthLinkChange_up (hcan : ethCan s port = true) :
    opEthLinkChange port true s = setFld s (.eth port) rEthStatus 0 0 1 :=
  if_pos hcan

theorem opEthLinkChange_down (hwasUp : rbit s (.eth port) rEthStatus 0 = true) :
    opEthLinkChange port false s = setFld (setFld s (.eth port) rEthStatus 0 0 0) (.eth port) rEthStatus 1 1 1 :=
  if_pos hwasUp

end Port

/-- Settles O53: no block is tainted, so each row is its operation on its port. The rows rest on R413 (flow control and answers),
R414 and R417 (discards), R439 (link state) and R514 (plugs). The model's choices are that the command says whether a request
names the port's own address (log 142), that the end of a pause by its quanta is the command with stop = false (log 196), and
when a port can come up (log 197). -/
theorem ethernet : Obligations.Ethernet := by
  intro port s htaint
  refine ⟨fun prio hup hmode => ⟨?_, ?_⟩, fun prio hup hmode => ⟨?_, ?_⟩, fun v6 target asker hup => ?_,
    fun v6 asker ident seq data hup => ?_, fun watts hcage => ?_, fun hcage => ?_, fun hcan => ?_, fun hwasUp => ?_,
    fun why hup => ?_⟩
  · exact run_eq_of_untainted htaint (opPfcFrameRx_pfc hup true hmode)
  · exact run_eq_of_untainted htaint (opPfcFrameRx_pfc hup false hmode)
  · exact run_eq_of_untainted htaint (opPfcFrameRx_pause hup true hmode)
  · exact run_eq_of_untainted htaint (opPfcFrameRx_pause hup false hmode)
  · exact run_eq_of_untainted htaint (ethAnswer_own hup _)
  · exact run_eq_of_untainted htaint (ethAnswer_own hup _)
  · exact run_eq_of_untainted htaint (opOsfpInsert_empty hcage)
  · exact run_eq_of_untainted htaint (opOsfpRemove_present hcage)
  · exact run_eq_of_untainted htaint (opEthLinkChange_up hcan)
  · exact run_eq_of_untainted htaint (opEthLinkChange_down hwasUp)
  · exact run_eq_of_untainted htaint (opEthFrameDiscard_up hup why)

end Sys2Proof.Machine

/-! ## The management lane and the I3C port (R434–R437, R452) -/
namespace Sys2Proof.Machine

variable {s : State}

/-! ### A command that reaches the module (R435, R436) -/

section Hears
variable {m : Word} {serial : DWord} {cmd : Nat} {act : State → Answer} (hhears : laneHears s serial)
include hhears

theorem laneHears_passes : (!laneUp s || !(decide (serial = 0) || decide (serial.toNat = serialOf s))) = false := by
  obtain ⟨-, hup, hserial⟩ := hhears
  simp only [hup, ← Bool.decide_or, decide_eq_true hserial, Bool.not_true, Bool.or_self]

theorem cmdRx_answers (hnew : (laneHeard s).mgmt.resp.find? (fun r => r.1 == m.toNat) = none)
    (hup : laneUp (act (laneHeard s)).st = true) :
    cmdRx m serial cmd act s = lanePush (laneResp (act (laneHeard s)).st m.toNat cmd (act (laneHeard s)).status
      (act (laneHeard s)).body) := by
  simp only [laneHeard] at hnew hup
  simp only [cmdRx, laneHears_passes hhears, laneHeard, hnew, hup, Bool.false_eq_true, if_false, if_true]

theorem cmdRx_loses_answer (hnew : (laneHeard s).mgmt.resp.find? (fun r => r.1 == m.toNat) = none)
    (hdown : laneUp (act (laneHeard s)).st = false) : cmdRx m serial cmd act s = (act (laneHeard s)).st := by
  simp only [laneHeard] at hnew hdown
  simp only [cmdRx, laneHears_passes hhears, laneHeard, hnew, hdown, Bool.false_eq_true, if_false]

theorem cmdRx_repeats {r : Nat × MgmtFrame} (hold : (laneHeard s).mgmt.resp.find? (fun y => y.1 == m.toNat) = some r) :
    cmdRx m serial cmd act s = laneSend (laneHeard s) r.2 := by
  simp only [laneHeard] at hold
  simp only [cmdRx, laneHears_passes hhears, laneHeard, hold, Bool.false_eq_true, if_false]

end Hears

/-! ### What a command does or refuses (R437) -/

/-- A command acts where its condition holds, and otherwise answers its refusal and changes nothing. -/
theorem ansIf_eq {c : Bool} {p : Prop} [Decidable p] {bad : Nat} {f : State → State} (h : c = true ↔ p) :
    ansIf c bad f s = if p then ans (f s) msOk else ans s bad := by
  by_cases hp : p
  · rw [ansIf, if_pos (h.mpr hp), if_pos hp]
  · rw [ansIf, if_neg (mt h.mp hp), if_neg hp]

theorem doSetCoord_locked {pc pdim : BitVec 18} {mode : Bool} (hlock : rbit s .coord rCoordPhys 31 = true) :
    doSetCoord pc pdim mode s = ans s msLocked := by
  simp only [doSetCoord, ansIf, hlock, Bool.not_true, Bool.false_eq_true, if_false]

theorem doSetCoord_unlocked {pc pdim : BitVec 18} {mode : Bool} (hlock : rbit s .coord rCoordPhys 31 = false) :
    doSetCoord pc pdim mode s = ans (setFld (setFld (setFld (setFld s .coord rCoordPhys 17 0 pc.toNat)
      .coord rCoordPhys 18 18 (b2n mode)) .coord rCoordPdim 17 0 pdim.toNat) .coord rCoordPhys 31 31 1) msOk := by
  simp only [doSetCoord, ansIf, hlock, Bool.not_false, if_true]

theorem doEclipse_module : doEclipse .module s = if s.eclipsed then ans s msState else ans (eclipseModule s) msOk := by
  cases heclipsed : s.eclipsed <;> simp only [doEclipse, ansIf, heclipsed] <;> rfl

theorem doRegRead_outside {a : Nat} (hout : laneOff a = none) : doRegRead a s = ans s msBadArg := by
  simp only [doRegRead, hout]

theorem doRegWrite_outside {a v : Nat} (hout : laneOff a = none) : doRegWrite a v s = ans s msBadArg := by
  simp only [doRegWrite, hout]

/-- Settles O54: every command is `cmdRx` of its code and its effect, and no block is tainted, so it comes to one of the three
answers above; the effects act on their conditions. The model's choices are STATE for what is already so (log 199), BAD_ARG for
an address, a count or a nonce that Table 15.10 does not allow (log 200), and that the answer to a command that takes the lane
down is lost (log 201). -/
theorem mgmtCommands : Obligations.MgmtCommands := by
  refine ⟨fun m n s hhears => ?_, fun s => ⟨?_, ?_, ?_, ?_, ?_, ?_, ?_, ?_, ?_, ?_, ?_, ?_, ?_⟩⟩
  · intro h x hx
    obtain ⟨bs, hexec⟩ : ∃ bs, exec x.1 s = run bs (cmdRx m n x.2.1 x.2.2) s := by
      obtain ⟨_, _, _, rfl⟩ | ⟨_, _, rfl⟩ | ⟨_, _, rfl⟩ | ⟨_, rfl⟩ | ⟨_, _, _, _, _, _, rfl⟩ | ⟨_, rfl⟩ | ⟨_, rfl⟩ | ⟨_, rfl⟩ |
        ⟨_, rfl⟩ | ⟨_, rfl⟩ | ⟨_, _, rfl⟩ | ⟨_, _, _, rfl⟩ | rfl | rfl | ⟨_, rfl⟩ | rfl | ⟨_, _, rfl⟩ | ⟨_, rfl⟩ |
        ⟨_, _, rfl⟩ | rfl | ⟨_, rfl⟩ | rfl := hx <;> dsimp only [exec] <;> exact ⟨_, rfl⟩
    have hcmd {t : State} (hrx : cmdRx m n x.2.1 x.2.2 s = t) : exec x.1 s = .next t :=
      hexec.trans (run_eq_of_untainted hhears.1 hrx)
    refine ⟨fun hnew => ⟨fun hup => ?_, fun hdown => ?_⟩, fun r hold => ?_⟩
    · exact hcmd (cmdRx_answers hhears hnew hup)
    · exact hcmd (cmdRx_loses_answer hhears hnew hdown)
    · exact hcmd (cmdRx_repeats hhears hold)
  · exact fun _ _ _ => doSetCoord_locked
  · exact fun _ _ _ => doSetCoord_unlocked
  · exact fun lc valid => ansIf_eq Option.isNone_iff_eq_none
  · exact fun first l => ansIf_eq (by rw [Bool.and_eq_true, decide_eq_true_iff, decide_eq_true_iff])
  · exact fun rg u => ansIf_eq Iff.rfl
  · exact doEclipse_module
  · exact fun rg u => rfl
  · exact fun lc => ansIf_eq Iff.rfl
  · exact fun d => ansIf_eq Iff.rfl
  · exact fun d => ansIf_eq Iff.rfl
  · exact fun pts => ansIf_eq decide_eq_true_iff
  · exact fun a hout => ⟨doRegRead_outside hout, fun v => doRegWrite_outside hout⟩
  · exact fun nonce hlen => if_pos hlen

/-! ### EVENT and HEALTH frames until they are acknowledged (R432, R436) -/

theorem opMgmtResend_up (hup : laneUp s = true) :
    opMgmtResend s =
      let due := fun (x : Nat × MgmtFrame) => decide (x.1 + laneEvery ≤ s.beacon)
      let m := { s.mgmt with unack := s.mgmt.unack.map (fun x => if due x then (s.beacon, x.2) else x) }
      (s.mgmt.unack.filter due).foldl (fun t x => laneSend t x.2) { s with mgmt := m } :=
  if_neg (by rw [hup]; decide)

theorem opMgmtAck_own {serial : DWord} {k : Nat} (hup : laneUp s = true) (hserial : serial.toNat = serialOf s) :
    opMgmtAck serial k s =
      let hit := fun (x : Nat × MgmtFrame) => x.2.mseq == k
      let gone := (s.mgmt.unack.filter hit).flatMap (fun x => frameEseqs x.2)
      let ring := { s.evt.mgmt with recs := s.evt.mgmt.recs.filter (fun r => !gone.contains (recEseq r)) }
      lanePush { s with mgmt := { s.mgmt with unack := s.mgmt.unack.filter (fun x => !hit x) },
                        evt := { s.evt with mgmt := ring } } :=
  if_neg (by simp [hup, hserial])

/-! ### The I3C port (R434, R452) -/

/-- A target that holds no dynamic address takes the one it is given. -/
theorem i3cAssign_unaddressed {dyn : Nat} (hpower : s.pwr ≠ .off) (hnone : s.pw.i3cAddr = none) :
    i3cAssign dyn s = { s with pw := { s.pw with i3cAddr := some dyn } } := by
  simp [i3cAssign, hpower, hnone]

theorem opI3cSetdasa_own {static dyn : Nat} (hstatic : static = 0x30 + s.pw.straps.toNat) :
    opI3cSetdasa static dyn s = i3cAssign dyn s :=
  if_pos hstatic

/-- A write of PWR_REQ requests the power state that its low three bits name. -/
theorem regEffect_pwrReq (v old : Nat) (temp : Int) (tok : Bool) (s : State) :
    regEffect .pwr rPwrReq v old temp tok s = pwrRequest s (v % 8) := by
  have hfield : bits v 2 0 = v % 8 := congrArg (· % 8) (Nat.div_one v)
  rw [← hfield]
  rfl

theorem runReg_pwrReq {p : Path} (v : Word) (h : writes s p .pwr rPwrReq v.toNat) :
    runReg p .pwr rPwrReq v s = .next (pwrRequest (wroteReg s .pwr rPwrReq v.toNat) (v.toNat % 8)) := by
  rw [← regEffect_pwrReq v.toNat (regShow s .pwr rPwrReq).toNat 0 false]
  exact runWrite_quiet s p .pwr rPwrReq v.toNat 0 false h rfl rfl (by decide) (by simp [isChecked])

/-- Settles O55: no block is tainted, so each row is its operation; a resend takes the frames that are due, an ACK those of its
MSEQ, and PWR_REQ is written as through any path. That the port takes a dynamic address only while it holds none is the model's
choice (log 202). The statement says what a write of PWR_REQ does, not that the port writes nothing else: that is `mayWrite`. -/
theorem laneAndI3c : Obligations.LaneAndI3c := by
  intro s htaint
  refine ⟨fun hup => ?_, fun n k hup hserial => ?_, fun static dyn hstatic hpower hnone => ?_, fun dyn hpower hnone => ?_,
    fun v hwrites => ?_⟩
  · exact run_eq_of_untainted (bs := []) htaint (opMgmtResend_up hup)
  · exact run_eq_of_untainted (bs := []) htaint (opMgmtAck_own hup hserial)
  · exact run_eq_of_untainted (bs := []) htaint ((opI3cSetdasa_own hstatic).trans (i3cAssign_unaddressed hpower hnone))
  · exact run_eq_of_untainted (bs := []) htaint (i3cAssign_unaddressed hpower hnone)
  · exact runReg_pwrReq v hwrites

end Sys2Proof.Machine

/-! ## The state after reset, and the canonical form that every step keeps (R462) -/
namespace Sys2Proof.Machine

/-- The two kinds of step: a tick of an empty queue, and the front command with the rest of the queue. -/
theorem step_cases {s t : State} (h : step s = .next t) :
    t = tick s ∨ ∃ c r, exec c { s with pending := r } = .next t := by
  unfold step at h
  split at h
  next => exact .inl (Host.Outcome.next.inj h).symm
  next c r _ => exact .inr ⟨c, r, h⟩

/-- Settles O4: a tick keeps the canonical forms (`tick_keeps`), and so does every row of the command table (`exec_keeps`); the
queue has no part in them. -/
theorem stepKeepsCanon : Obligations.StepKeepsCanon := by
  intro s t hcanon hstep
  obtain rfl | ⟨c, r, hexec⟩ := step_cases hstep
  · obtain ⟨-, -, hkeeps⟩ := tick_keeps s (Keeps.refl s)
    exact hkeeps hcanon
  · obtain ⟨-, -, hkeeps⟩ := exec_keeps c { s with pending := r } t hexec
    exact hkeeps hcanon

/-- REGDEC_CTL is the one register that reset lists (R462). -/
theorem regAt_reset (b : Blk) (o : Nat) : regAt State.reset b o = if b.base + o = Blk.regdec.base then 2 else regRst (b.base + o) := by
  split
  next h => rw [regAt, h]; rfl
  next h => exact smGet_smIns_ne regRst Blk.regdec.base (b.base + o) 2 [] h

/-- Settles O3: the one register that is listed does not read as its table says, and nothing else is listed. -/
theorem resetCanon : Obligations.ResetCanon := by
  have hlock : (2 : Word) ≠ regRst Blk.regdec.base := by decide +kernel
  have hregs : smWfFrom regRst 0 [(Blk.regdec.base, 2)] = true := by
    simp only [smWfFrom, hlock, Nat.zero_le, decide_true, decide_false, Bool.not_false, Bool.and_self]
  exact ⟨rfl, hregs, rfl, rfl⟩

/-- Settles O2: registers read as `regAt_reset` says, and the rest is what reset lists. What stands where a table gives a dash is
the model's choice (logs 7, 8, 12 and 13). -/
theorem resetState : Obligations.ResetState := by
  have hregs {b : Blk} {o : Nat} (h : b.base + o ≠ Blk.regdec.base) : regAt State.reset b o = regRst (b.base + o) := by
    rw [regAt_reset, if_neg h]
  refine ⟨rfl, fun b o h => hregs h, by decide +kernel, by decide +kernel, rfl, by decide +kernel, by decide +kernel, rfl, rfl, rfl,
    rfl, rfl, by decide +kernel, by decide +kernel, rfl, rfl, rfl, rfl, rfl, rfl, rfl, fun _ => rfl, fun _ _ => rfl⟩

end Sys2Proof.Machine

/-! ## Input power, rails and temperatures (R440–R449, R476, R511) -/
namespace Sys2Proof.Machine

section Powered
variable {s : State} (hpwr : s.pwr ≠ .off)
include hpwr

theorem opInputExcursion_warns {mv : Nat} (hrange : 36000 ≤ mv ∧ mv < 40000 ∨ 60000 < mv ∧ mv ≤ 64000) :
    opInputExcursion mv s = ibi (raise (cnt s .pwr rPwrInputExc) .pwrInput whHub 0 [a16 mv]) 2 :=
  if_pos ⟨hpwr, hrange⟩

/-- A limit that is newly met is reported, where no report has gone out before (R442). -/
theorem opPowerSample_enters {w1 w100 mv : Nat} {ovr hold : Bool} (hovr : ovr = decide (wattCap s < w1))
    (hhold : hold = (decide (7000 < w100) || (s.holdIssue && decide (w100 = 7000))))
    (henters : ((ovr && !s.pw.ovr) || (hold && !s.holdIssue)) = true) (hfirst : s.pw.capAt = none) :
    opPowerSample w1 w100 mv s =
      let t := setReg { s with holdIssue := hold, pw := { s.pw with ovr := ovr } } .pwr rPwrInput (w32 (mv * 65536 + min 65535 w1))
      ibi (raise { t with pw := { t.pw with capAt := some s.beacon } } .pwrCap whHub 0 []) 2 := by
  subst hovr hhold
  exact (if_neg hpwr).trans (if_pos (by simp [henters, hfirst]))

/-- A sample within both limits ends the hold and reports nothing (R442). -/
theorem opPowerSample_within {w1 w100 mv : Nat} (hcap : w1 ≤ wattCap s) (hpeak : w100 < 7000) :
    opPowerSample w1 w100 mv s = setReg { s with holdIssue := false, pw := { s.pw with ovr := false } } .pwr rPwrInput
      (w32 (mv * 65536 + min 65535 w1)) := by
  have hovr : decide (wattCap s < w1) = false := decide_eq_false (Nat.not_lt.mpr hcap)
  have hhold : (decide (7000 < w100) || (s.holdIssue && decide (w100 = 7000))) = false := by
    simp [Nat.ne_of_lt hpeak, Nat.le_of_lt hpeak]
  unfold opPowerSample
  simp only [if_neg hpwr, hovr, hhold, Bool.false_and, Bool.or_self, Bool.false_eq_true, if_false]

section Sensed
variable (htrip : s.tripped = false)
include htrip

theorem opThermalSample_hub (t : Int) : opThermalSample 4 t [] s =
    let new := thermLevel s.pw.hubLevel t
    coldAlarm (levelReport (setFld { s with pw := { s.pw with hubLevel := new } } .pwr rPwrTherm 31 24 (tempField t)) 4 new) 4 t :=
  (if_neg (by simp [hpwr, htrip])).trans (if_neg (by decide))

/-- A sample of a die that brings no temperature of a unit. -/
theorem opThermalSample_die {d : Nat} (t : Int) (hd : d < 4) (hdie : s.diePower.getLsbD d = true) : opThermalSample d t [] s =
    let old := fld s (.clk d) rClkStatus 18 16
    let new := thermLevel old t
    let u := setFld (setFld s (.clk d) rClkStatus 31 24 (tempField t)) (.clk d) rClkStatus 18 16 new
    coldAlarm (showCaps (thrReport (levelReport (levelEnter u d old new) d new) (128 + d) (min 2 new))) d t := by
  have hsensed : ¬ (s.pwr = .off ∨ s.tripped = true ∨ d < 4 ∧ (!s.diePower.getLsbD d) = true) := by simp [hpwr, htrip, hdie]
  unfold opThermalSample coldest
  simp only [if_neg hsensed, if_pos hd, List.foldl_nil, List.map_nil]

theorem opThermalTrip_trips {d : Nat} (hhot : atTrip s d = true) : opThermalTrip d s =
    let t := fieldTemp (if d < 4 then fld s (.clk d) rClkStatus 31 24 else fld s .pwr rPwrTherm 31 24)
    let a := (List.range 4).foldl (fun x k => if x.diePower.getLsbD k then dieOff x k else x) s
    let b := (List.range 4).foldl (fun x k => setFld x (.clk k) rClkStatus 18 16 4) a
    let c := { b with tripped := true, pw := { b.pw with target := b.pwr.code, req := none, stop := false } }
    alarm (ibi (raise ((List.range 6).foldl linkDark c) .thermTrip (if d < 4 then whDie d else whHub) 0 []) 1) alTemp (4 * t) :=
  if_neg (by simp [hpwr, htrip, hhot])

end Sensed
end Powered

/-- Settles O56: no block is tainted, so each row is its operation, which acts while the module has power. The rows rest on R440,
R441, R442, R449 and R511 too; that a trip takes a last sample of 110 °C, that a temperature alarm fires at the first sample below
its range, and how events pack rails and levels are the model's choices (logs 159 to 161). -/
theorem powerAndTemperature : Obligations.PowerAndTemperature := by
  refine ⟨fun s htaint => ?_, fun s htaint => ?_⟩
  · refine ⟨fun mv hpwr hrange => ?_, fun hpwr => ?_, fun hoff hmated => ?_, ?_, fun hpwr => ?_, fun d r hpwr => ?_,
      fun w1 w100 mv hpwr => ?_, fun w1 w100 mv hpwr hcap hpeak => ?_, fun hdue => ?_⟩
    · exact run_eq_of_untainted (bs := []) htaint (opInputExcursion_warns hpwr hrange)
    · exact run_eq_of_untainted (bs := []) htaint (if_neg hpwr)
    · exact run_eq_of_untainted (bs := []) htaint (if_pos ⟨hoff, hmated⟩)
    · exact run_of_untainted (bs := []) (f := fun t => { t with pw := { t.pw with enabled := true } }) htaint
    · exact run_eq_of_untainted (bs := []) htaint (if_neg hpwr)
    · exact run_eq_of_untainted (bs := []) htaint (if_neg hpwr)
    · exact fun henters hfirst => run_eq_of_untainted (bs := []) htaint (opPowerSample_enters hpwr rfl rfl henters hfirst)
    · exact run_eq_of_untainted (bs := []) htaint (opPowerSample_within hpwr hcap hpeak)
    · exact run_eq_of_untainted (bs := []) htaint (if_pos hdue)
  · refine ⟨fun t hpwr htrip => ?_, fun d t hpwr htrip hdie => ?_, fun d hpwr htrip hhot => ?_, fun i o hpwr => ?_⟩
    · exact run_eq_of_untainted (bs := []) htaint (opThermalSample_hub hpwr htrip t)
    · exact run_eq_of_untainted (bs := []) htaint (opThermalSample_die hpwr htrip t d.isLt hdie)
    · exact run_eq_of_untainted (bs := []) htaint (opThermalTrip_trips hpwr htrip hhot)
    · exact run_eq_of_untainted (bs := []) htaint (if_neg hpwr)

end Sys2Proof.Machine

/-! ## Power states (R450–R456) -/
namespace Sys2Proof.Machine

/-- A stop that does not stand may be cleared. -/
theorem clearStop_eq {s : State} (hstop : s.pw.stop = false) : { s with pw := { s.pw with stop := false } } = s := by
  rw [← hstop]

/-- The end of a stage, where no entry is being stopped: one state deeper or back to run, or up to the target (R450, R451). -/
theorem opPwrStateEntered_onward {s : State} (train : BitVec 32) (htrip : s.tripped = false) (hladder : ladder s = true)
    (hstop : s.pw.stop = false) : opPwrStateEntered train s =
      if s.pwr.code < s.pw.target then
        if pwrRefuse s (s.pwr.code + 1) = 0 then pwrSettle (enterState s (s.pwr.code + 1))
        else pwrSettle (pwrRefused { s with pw := { s.pw with target := 0 } } (pwrRefuse s (s.pwr.code + 1)))
      else if s.pw.target < s.pwr.code then pwrSettle (exitState s s.pw.target train) else s := by
  unfold opPwrStateEntered
  rw [if_neg (by simp [htrip, hladder])]
  simp only [hstop, clearStop_eq hstop, Bool.false_eq_true, false_and, if_false]

/-- Settles O57: no block is tainted, so each row is its operation, and PWR_REQ is written as through any path. The wake timer is
R456's; that a refusal during an entry goes back to run is the model's choice (log 150), as are logs 152 and 153. -/
theorem powerStates : Obligations.PowerStates := by
  intro s htaint
  refine ⟨fun p v hwrites => ?_, fun tr htrip hladder hstop => ?_, fun w hwakes => ?_, fun hdue => ?_,
    fun hrun htarget htrip hauto hidle => ?_⟩
  · exact runReg_pwrReq v hwrites
  · have onward {t : State} (h : _ = t) : exec (.pwrStateEntered tr) s = .next t :=
      run_eq_of_untainted (bs := []) htaint ((opPwrStateEntered_onward tr htrip hladder hstop).trans h)
    refine ⟨fun hdeeper hfree => ?_, fun hdeeper hrefuse => ?_, fun hup => ?_⟩
    · exact onward ((if_pos hdeeper).trans (if_pos hfree))
    · exact onward ((if_pos hdeeper).trans (if_neg hrefuse))
    · exact onward ((if_neg (Nat.lt_asymm hup)).trans (if_pos hup))
  · exact run_eq_of_untainted (bs := []) htaint (if_pos hwakes)
  · exact run_eq_of_untainted (bs := []) htaint (if_pos hdue)
  · exact run_eq_of_untainted (bs := []) htaint (if_pos (by simp [hrun, htarget, htrip, hauto, hidle]))

end Sys2Proof.Machine

/-! ## Boot (R457, R458, R462, R467, R468, R486) -/
namespace Sys2Proof.Machine

/-- The way through the checks of BOOT_PHASE_END for the phase that is in progress: B4, which runs beside the others, is not it. -/
theorem ite_phase_inTurn {s a b c : State} {ph : Nat} (hboot : s.pwr = .boot) (hbeside : ph ≠ 4) (hstage : s.pw.stage = ph) :
    (if s.pwr ≠ .boot then a else if ph = 4 then b else if ph ≠ s.pw.stage then a else c) = c := by
  simp [hboot, hbeside, hstage]

section Booting
variable {s : State} (hboot : s.pwr = .boot)
include hboot

/-- B4 ends while another phase is in progress. -/
theorem opBootPhaseEnd_b4 {imgs : List ((List Byte × List Byte) × (List Byte × List Byte))} {us : List (Nat × Nat)} {d : BitVec 4}
    (hbegun : 3 ≤ s.pw.stage) (hlast : s.pw.stage < 8) (hb4 : s.pw.b4 = false) :
    opBootPhaseEnd 4 imgs us d s = tmOff { s with pw := { s.pw with b4 := true } } .stage :=
  (if_neg (by simp [hboot])).trans ((if_pos rfl).trans (if_pos ⟨hbegun, hlast, by simp [hb4]⟩))

theorem opBootPhaseTimeout_stage (hdue : tmDue s .stage = true) : opBootPhaseTimeout s = bootFail s 4 := by
  simp [opBootPhaseTimeout, hboot, hdue]

theorem opBootPhaseTimeout_phase (hstage : tmDue s .stage = false) (hdue : tmDue s .phase = true) :
    opBootPhaseTimeout s = bootFail s (if s.pw.stage = 3 then 2 else if s.pw.stage = 5 then 3 else 4) := by
  simp [opBootPhaseTimeout, hboot, hdue, hstage]

end Booting

/-- Settles O58: no block is tainted, so each row is its operation; a phase that ends is in progress, or it is B4. The rows rest on
R462, R468 and R486 too; that ERR tells the training of memory (2) and the self-test (3) from another timeout (4) is the model's
reading of Table 16.8, and its bounds run from the start of the boot (log 155). -/
theorem boot : Obligations.Boot := by
  intro imgs us d s htaint hboot
  have ends {ph : Fin 8} {t : State} (h : opBootPhaseEnd ph imgs (us.map (fun u => (u.1.val, u.2.val))) d s = t) :
      exec (.bootPhaseEnd ph imgs us d) s = .next t := run_eq_of_untainted (bs := []) htaint h
  refine ⟨fun hstage => ?_, fun hstage => ?_, fun hstage => ?_, fun hstage => ?_, fun hbegun hlast hb4 => ?_, fun hstage => ?_,
    fun hstage => ?_, fun hstage hb4 => ?_, fun hdue => ?_, fun hstage hdue => ?_⟩
  · exact ends (ite_phase_inTurn hboot (by decide) hstage)
  · exact ends (ite_phase_inTurn hboot (by decide) hstage)
  · exact ends (ite_phase_inTurn hboot (by decide) hstage)
  · exact ends (ite_phase_inTurn hboot (by decide) hstage)
  · exact ends (opBootPhaseEnd_b4 hboot hbegun hlast hb4)
  · exact ends (ite_phase_inTurn hboot (by decide) hstage)
  · exact ends (ite_phase_inTurn hboot (by decide) hstage)
  · exact ends ((ite_phase_inTurn hboot (by decide) hstage).trans (if_pos hb4))
  · exact run_eq_of_untainted (bs := []) htaint (opBootPhaseTimeout_stage hboot hdue)
  · exact run_eq_of_untainted (bs := []) htaint (opBootPhaseTimeout_phase hboot hstage hdue)

end Sys2Proof.Machine

/-! ## Resets and the watchdog (R459–R461) -/
namespace Sys2Proof.Machine

@[simp] theorem wroteReg_pwr (s : State) (b : Blk) (o v : Nat) : (wroteReg s b o v).pwr = s.pwr := (rfl)

theorem moduleReset_powered {s : State} (hpwr : s.pwr ≠ .off) : moduleReset s = bootStart s 1 :=
  if_neg (by simpa using hpwr)

/-! ### Writes of PWR_RESET and PWR_WDOG -/

/-- A write of a register of PWR stores its fields and has its effect. -/
theorem runReg_pwr {s : State} {p : Path} {o : Nat} {v : Word} {n : Nat} (hn : v.toNat = n) (h : writes s p .pwr o n) :
    runReg p .pwr o v s = .next (regEffect .pwr o n (regShow s .pwr o).toNat 0 false (wroteReg s .pwr o n)) := by
  subst hn
  exact runWrite_quiet s p .pwr o v.toNat 0 false h rfl rfl (by decide) (by simp [isChecked])

theorem regEffect_pwrReset (v old : Nat) (temp : Int) (tok : Bool) (s : State) :
    regEffect .pwr rPwrReset v old temp tok s = pwrResetWrite s v := rfl

theorem regEffect_pwrWdog (v old : Nat) (temp : Int) (tok : Bool) (s : State) :
    regEffect .pwr rPwrWdog v old temp tok s = wdogArm s := rfl

theorem runReg_pwrReset {s : State} {p : Path} {v : Word} {n : Nat} (hn : v.toNat = n) (h : writes s p .pwr rPwrReset n) :
    runReg p .pwr rPwrReset v s = .next (pwrResetWrite (wroteReg s .pwr rPwrReset n) n) := by
  rw [runReg_pwr hn h, regEffect_pwrReset]

theorem runReg_pwrWdog {s : State} {p : Path} {v : Word} (h : writes s p .pwr rPwrWdog v.toNat) :
    runReg p .pwr rPwrWdog v s = .next (wdogArm (wroteReg s .pwr rPwrWdog v.toNat)) := by
  rw [runReg_pwr rfl h, regEffect_pwrWdog]

/-- A power of two has one bit. -/
theorem bitAt_two_pow (a b : Nat) : bitAt (2 ^ a) b = decide (a = b) := by
  rw [← Nat.testBit_two_pow, Nat.testBit_eq_decide_div_mod_eq]
  rfl

theorem pwrResetWrite_module (s : State) : pwrResetWrite s 1 = moduleReset s := by
  rw [pwrResetWrite, if_pos (by decide)]

/-- A write that sets no bit for the module resets the job, then the dies, by their bits. -/
theorem pwrResetWrite_two_pow_succ (s : State) (n : Nat) : pwrResetWrite s (2 ^ (n + 1)) =
    (List.range 4).foldl (fun t d => if n = 1 + d then dieResetStart t d else t) (if n = 0 then jobResetStart s false else s) := by
  have hdie (d : Nat) : n + 1 = 2 + d ↔ n = 1 + d := by omega
  simp [pwrResetWrite, bitAt_two_pow, hdie]

theorem pwrResetWrite_job (s : State) : pwrResetWrite s 2 = jobResetStart s false := by
  refine (pwrResetWrite_two_pow_succ s 0).trans ?_
  simp [List.range_succ]

/-- The bit of one die resets that die alone. -/
theorem pwrResetWrite_die (s : State) (d : Fin 4) : pwrResetWrite s (2 ^ (2 + d.val)) = dieResetStart s d := by
  rw [show 2 + d.val = (1 + d.val) + 1 by omega, pwrResetWrite_two_pow_succ]
  simp only [List.range_succ, List.range_zero, List.nil_append, List.cons_append, List.foldl_cons, List.foldl_nil,
    Nat.add_left_cancel_iff]
  obtain hd | hd | hd | hd : d.val = 0 ∨ d.val = 1 ∨ d.val = 2 ∨ d.val = 3 := by omega
  all_goals simp [hd]

/-! ### The ends of the waits -/

theorem opJobResetForced_due {s : State} {r : Bool} (hwait : s.pw.jobWait = some r) (hdue : tmDue s .jobReset = true) :
    opJobResetForced s = jobResetGo (raise s .resetForced whHub
      (((s.steps.find? (fun x => decide (x.st = .sealed))).map (fun x => x.n)).getD 0) []) r := by
  simp only [opJobResetForced, hwait, hdue, if_true]

/-- Settles O59: no block is tainted, so each row is its operation; PWR_RESET and PWR_WDOG are written as through any path. -/
theorem resets : Obligations.Resets := by
  intro p s htaint
  refine ⟨fun hpwr => ?_, fun hpwr hwrites => ?_, fun hpwr hdue => ?_, fun hwrites => ?_, fun r hwait hdue => ?_,
    fun d hwrites => ?_, fun d ok hreset hdue => ?_, fun v hwrites => ?_⟩
  · exact run_eq_of_untainted (bs := []) htaint (moduleReset_powered hpwr)
  · rw [← moduleReset_powered (s := wroteReg s .pwr rPwrReset 1) (by simpa using hpwr), ← pwrResetWrite_module]
    exact runReg_pwrReset rfl hwrites
  · exact run_eq_of_untainted (bs := []) htaint ((if_pos hdue).trans (moduleReset_powered hpwr))
  · rw [← pwrResetWrite_job]
    exact runReg_pwrReset rfl hwrites
  · exact run_eq_of_untainted (bs := []) htaint (opJobResetForced_due hwait hdue)
  · have hword : (BitVec.ofNat 32 (2 ^ (2 + d.val))).toNat = 2 ^ (2 + d.val) :=
      Nat.mod_eq_of_lt (Nat.pow_lt_pow_right (by decide) (by omega))
    rw [← pwrResetWrite_die]
    exact runReg_pwrReset hword hwrites
  · exact run_eq_of_untainted (bs := []) htaint (if_pos ⟨hreset, hdue⟩)
  · exact runReg_pwrWdog hwrites

end Sys2Proof.Machine

/-! ## Fields of a word, s0 and p0 (Table 6.2, R481, R490) -/
namespace Sys2Proof.Machine

theorem testBit_bits (v hi lo j : Nat) : (bits v hi lo).testBit j = (decide (j < hi + 1 - lo) && v.testBit (j + lo)) := by
  rw [bits, Nat.testBit_mod_two_pow, Nat.testBit_div_two_pow]

theorem bits_congr {a b hi lo : Nat} (h : ∀ i, lo ≤ i → i ≤ hi → a.testBit i = b.testBit i) : bits a hi lo = bits b hi lo := by
  refine Nat.eq_of_testBit_eq fun j => ?_
  rw [testBit_bits, testBit_bits]
  by_cases hj : j < hi + 1 - lo
  · rw [h (j + lo) (Nat.le_add_left lo j) (by omega)]
  · simp [hj]

/-- A replaced field has the new value's bits, and every bit outside it is the old one. -/
theorem testBit_putBits {hi lo : Nat} (hle : lo ≤ hi) (v x i : Nat) :
    (putBits v hi lo x).testBit i = if lo ≤ i ∧ i ≤ hi then x.testBit (i - lo) else v.testBit i := by
  have hlow : v % 2 ^ lo < 2 ^ lo := Nat.mod_lt _ (Nat.two_pow_pos lo)
  have hmid : 2 ^ lo * (x % 2 ^ (hi + 1 - lo)) + v % 2 ^ lo < 2 ^ (hi + 1) :=
    calc 2 ^ lo * (x % 2 ^ (hi + 1 - lo)) + v % 2 ^ lo
      _ < 2 ^ lo * (x % 2 ^ (hi + 1 - lo) + 1) := by rw [Nat.mul_succ]; omega
      _ ≤ 2 ^ lo * 2 ^ (hi + 1 - lo) := Nat.mul_le_mul_left _ (Nat.mod_lt _ (Nat.two_pow_pos _))
      _ = 2 ^ (hi + 1) := by rw [← Nat.pow_add, Nat.add_sub_cancel' (by omega)]
  rw [putBits, Nat.mul_comm (v / _), Nat.mul_comm (x % _), Nat.add_assoc, Nat.testBit_two_pow_mul_add _ hmid,
    Nat.testBit_two_pow_mul_add _ hlow, Nat.testBit_mod_two_pow, Nat.testBit_mod_two_pow, Nat.testBit_div_two_pow]
  obtain hi' | hi' | hi' : i < lo ∨ (lo ≤ i ∧ i ≤ hi) ∨ hi < i := by omega
  · simp [show i < hi + 1 by omega, hi', Nat.not_le.mpr hi']
  · simp [show i < hi + 1 by omega, show ¬ i < lo by omega, show i - lo < hi + 1 - lo by omega, hi']
  · simp [show ¬ i < hi + 1 by omega, Nat.not_le.mpr hi', show i - (hi + 1) + (hi + 1) = i by omega]

/-! ### s0 and p0 -/

theorem sreg_putS_self {x : Seq} {n : Nat} (v : DWord) (hregs : smWf (fun _ => (0 : DWord)) x.s = true) (hn : n ≠ 0) :
    sreg (putS x n v) n = v := by
  simp only [sreg, putS, if_neg hn]
  exact smGet_smPut_self n v hregs

theorem sreg_putS_ne {x : Seq} {n k : Nat} (v : DWord) (hregs : smWf (fun _ => (0 : DWord)) x.s = true) (hk : k ≠ n) :
    sreg (putS x n v) k = sreg x k := by
  by_cases hn : n = 0
  · simp [sreg, putS, hn]
  · simp only [sreg, putS, if_neg hn]
    rw [smGet_smPut_ne v hk hregs]

/-- The predicates after a write of one that is not hard-wired. -/
theorem getLsbD_putP {x : Seq} {m k : Nat} (b : Bool) (hm : m ≠ 0) (hk : k < 8) :
    (putP x m b).p.getLsbD k = if k = m then b else x.p.getLsbD k := by
  have hbit : (b2n b).testBit 0 = b := by cases b <;> rfl
  simp only [putP, if_neg hm, BitVec.getLsbD_ofNat, testBit_putBits (Nat.le_refl m), decide_eq_true hk, Bool.true_and]
  by_cases h : k = m
  · subst h
    simpa using hbit
  · rw [if_neg (by omega), if_neg h]
    rfl

theorem preg_putP_self {x : Seq} {m : Nat} (b : Bool) (hm : m ≠ 0) (hlt : m < 8) : preg (putP x m b) m = b := by
  simp [preg, hm, getLsbD_putP b hm hlt]

theorem preg_putP_ne {x : Seq} {m k : Nat} (b : Bool) (hk : k < 8) (hne : k ≠ m) : preg (putP x m b) k = preg x k := by
  by_cases hm : m = 0
  · simp [preg, putP, hm]
  · simp [preg, getLsbD_putP b hm hk, hne]

/-- Settles O10: a read of s0 or p0 does not look at what is stored, and a write of either stores nothing; any other register is
one entry of the scalars' map or one bit of the predicates. -/
theorem zeroRegisters : Obligations.ZeroRegisters := by
  intro x n m v b hregs _ hm
  exact ⟨rfl, rfl, rfl, rfl, sreg_putS_self v hregs, fun _ => sreg_putS_ne v hregs, fun h => preg_putP_self b h hm,
    fun _ => preg_putP_ne b⟩

/-! ### The fields that a write takes (R481, R490) -/

/-- A write takes a field: RW, LIVE, or RWL while it is not locked. -/
def takes (locked : Bool) (f : RegField) : Bool :=
  decide (f.acc = .rw) || decide (f.acc = .live) || (decide (f.acc = .rwl) && !locked)

/-- A bit lies in a field that a write takes. -/
def takesBit (fs : List RegField) (locked : Bool) (i : Nat) : Bool :=
  fs.any (fun f => takes locked f && decide (f.lo ≤ i ∧ i ≤ f.hi))

theorem takesBit_iff {fs : List RegField} {locked : Bool} {i : Nat} :
    takesBit fs locked i = true ↔ ∃ f ∈ fs, takes locked f = true ∧ f.lo ≤ i ∧ i ≤ f.hi := by
  simp [takesBit]

/-- The word after a write, bit by bit. -/
theorem testBit_takeFields {fs : List RegField} (hfs : ∀ f ∈ fs, f.lo ≤ f.hi) (locked : Bool) (old v i : Nat) :
    (takeFields fs locked old v).testBit i = if takesBit fs locked i then v.testBit i else old.testBit i := by
  induction fs generalizing old with
  | nil => rfl
  | cons f fs ih =>
    obtain ⟨hf, hfs⟩ := List.forall_mem_cons.mp hfs
    have hstep : ∀ w : Nat, (if f.acc = .rw ∨ f.acc = .live ∨ (f.acc = .rwl ∧ !locked) then
        putBits w f.hi f.lo (bits v f.hi f.lo) else w).testBit i =
        if takes locked f && decide (f.lo ≤ i ∧ i ≤ f.hi) then v.testBit i else w.testBit i := by
      intro w
      by_cases htakes : takes locked f = true
      · rw [if_pos (by simpa [takes, or_assoc] using htakes), testBit_putBits hf, testBit_bits, htakes]
        by_cases hin : f.lo ≤ i ∧ i ≤ f.hi
        · simp [hin, show i - f.lo < f.hi + 1 - f.lo by omega]
        · simp [hin]
      · rw [if_neg (by simpa [takes, or_assoc] using htakes), Bool.eq_false_iff.mpr htakes]
        rfl
    refine (ih hfs _).trans ?_
    rw [hstep, takesBit, takesBit, List.any_cons]
    cases takes locked f && decide (f.lo ≤ i ∧ i ≤ f.hi) <;> simp

theorem testBit_takeFields_taken {fs : List RegField} (hfs : ∀ f ∈ fs, f.lo ≤ f.hi) {locked : Bool} {i : Nat} (old v : Nat)
    (hin : ∃ f ∈ fs, takes locked f = true ∧ f.lo ≤ i ∧ i ≤ f.hi) : (takeFields fs locked old v).testBit i = v.testBit i := by
  rw [testBit_takeFields hfs, if_pos (takesBit_iff.mpr hin)]

theorem testBit_takeFields_kept {fs : List RegField} (hfs : ∀ f ∈ fs, f.lo ≤ f.hi) {locked : Bool} {i : Nat} (old v : Nat)
    (hout : ∀ f ∈ fs, f.lo ≤ i → i ≤ f.hi → takes locked f = false) : (takeFields fs locked old v).testBit i = old.testBit i := by
  rw [testBit_takeFields hfs, if_neg]
  rw [takesBit_iff]
  rintro ⟨f, hf, htakes, hlo, hhi⟩
  rw [hout f hf hlo hhi] at htakes
  exact Bool.false_ne_true htakes

/-- Where every RWL field is locked, a field that overlaps no RW or LIVE field keeps its value in a write. -/
theorem bits_takeFields_locked {fs : List RegField} {f : RegField} (old v : Nat)
    (hfs : ∀ g ∈ fs, g.lo ≤ g.hi ∧ (g.acc = .rw ∨ g.acc = .live → g.hi < f.lo ∨ f.hi < g.lo)) :
    bits (takeFields fs true old v) f.hi f.lo = bits old f.hi f.lo := by
  refine bits_congr fun i hlo hhi => testBit_takeFields_kept (fun g hg => (hfs g hg).1) old v fun g hg hglo hghi => ?_
  obtain ⟨-, hapart⟩ := hfs g hg
  have hfree : ¬ (g.acc = .rw ∨ g.acc = .live) := fun h => by have := hapart h; omega
  simpa [takes] using hfree

theorem regAt_wroteReg_self {s : State} {b : Blk} {o : Nat} (v : Nat) (hregs : smWf regRst s.regs = true) :
    regAt (wroteReg s b o v) b o = BitVec.ofNat 32 (takeFields (fieldsAt b o) (lockSet s b o) (regAt s b o).toNat v) :=
  smGet_smPut_self _ _ hregs

theorem getLsbD_wroteReg {s : State} {b : Blk} {o i : Nat} (v : Nat) (hregs : smWf regRst s.regs = true) (hi : i < 32) :
    (regAt (wroteReg s b o v) b o).getLsbD i =
      (takeFields (fieldsAt b o) (lockSet s b o) (regAt s b o).toNat v).testBit i := by
  rw [regAt_wroteReg_self v hregs, BitVec.getLsbD_ofNat, decide_eq_true hi, Bool.true_and]

/-- Settles O30, bit by bit of the written word. That a write of a locked CLK register is reported with its die as WHERE, any
other with the hub, is the model's choice (log 178). -/
theorem registerFields : Obligations.RegisterFields := by
  refine ⟨fun s b o v hcanon hfs _ => ?_,
    fun s b fs old v hchanges => ⟨if_pos hchanges, fun _ _ hall _ => bits_takeFields_locked old v hall⟩⟩
  obtain ⟨-, hregs, -, -⟩ := hcanon
  have hle : ∀ f ∈ fieldsAt b o, f.lo ≤ f.hi := fun f hf => (hfs f hf).1
  refine ⟨fun i hi ⟨f, hf, hacc, hlo, hhi⟩ _ => ?_, fun i hi hkept => ?_, fun c r hne => regAt_wroteReg_ne v hregs hne,
    fun a => rfl, rfl⟩
  · refine (getLsbD_wroteReg v hregs hi).trans (testBit_takeFields_taken hle _ v ⟨f, hf, ?_, hlo, hhi⟩)
    obtain hrw | ⟨hrwl, hfree⟩ := hacc
    · simp [takes, hrw]
    · simp [takes, hrwl, hfree]
  · refine (getLsbD_wroteReg v hregs hi).trans (testBit_takeFields_kept hle _ v fun f hf hlo hhi => ?_)
    obtain h | h | h := hkept f hf hlo hhi <;> simp [takes, h]

end Sys2Proof.Machine

/-! ## Register writes, APPLY registers, tainted blocks and the mailbox (R469–R478, R481, R488, R490, R491) -/
namespace Sys2Proof.Machine

/-- Settles O29: a quiet write comes to its fields and its effect, whatever the register. -/
theorem registerWrite : Obligations.RegisterWrite := by
  intro s p a v b o ha hwrites hmb hdirect hignored hdec hchecked
  refine (if_neg (Bool.eq_false_iff.mp hmb)).trans ?_
  rw [ha]
  exact runWrite_quiet s p b o v.toNat 0 false hwrites hdirect hignored hdec hchecked

/-! ### Tainted blocks (R488) -/

theorem run_of_tainted {bs : List Blk} {f : State → State} {s : State} {b : Blk} (hb : b ∈ bs) (htaint : b ∈ s.tainted) :
    run bs f s = .fault .taintedBlock :=
  if_pos (List.any_eq_true.mpr ⟨b, hb, List.contains_iff_mem.mpr htaint⟩)

/-- A block that is listed where it was not is listed. -/
theorem mem_tainting (b : Blk) (l : List Blk) : b ∈ if l.contains b = true then l else b :: l := by
  by_cases h : l.contains b = true
  · rw [if_pos h]
    exact List.contains_iff_mem.mp h
  · rw [if_neg h]
    exact List.mem_cons_self

section Live
variable {fs : List RegField} {old v : Nat} (hlive : changes fs .live old v = true) (s : State) (b : Blk) (o : Nat)
include hlive

theorem mem_tainted_liveNote : b ∈ (liveNote s b o fs old v).tainted := by
  rw [liveNote, if_pos hlive]
  exact mem_tainting b _

theorem evt_liveNote : (liveNote s b o fs old v).evt = (raise (cnt s .regdec rRegdecLive) .regLive whHub 0
    [a64 (0xF00000000000 + b.base + o), a32 old, a32 v]).evt := by
  rw [liveNote, if_pos hlive]
  rfl

end Live

/-- Settles O31. That a command which calls on a tainted block is a fault is the model's choice, since R488 leaves the block's
behaviour undefined (log 10); so are the fields of EVT_REG_LIVE (log 177). -/
theorem taintedBlocks : Obligations.TaintedBlocks := by
  refine ⟨fun s b o v fs old hlive => ⟨mem_tainted_liveNote hlive s b o, evt_liveNote hlive s b o⟩,
    fun s p a v b hmb hblks htaint => ?_, fun s q w htaint => ?_⟩
  · refine (if_neg (Bool.eq_false_iff.mp hmb)).trans ?_
    exact run_of_tainted (hblks ▸ List.mem_singleton_self b) htaint
  · exact run_of_tainted (List.mem_singleton_self _) htaint

/-! ### Registers that no rule of their own keeps from a write -/

/-- A write of the register takes its fields and has its effect: no other map stands behind it, no rule has the write ignored or
held back (R390, R486, R499–R502, R504). -/
def plainReg (b : Blk) (o : Nat) : Bool :=
  match b with
  | .sync _ => decide (0x10000 ≤ o)
  | .xlat => decide (o ≠ rXlatData)
  | .coord => decide (o ≠ rCoordLogical)
  | .bcn _ => decide (o < 0x48)
  | .hlth => decide (o < 0x14C)
  | .chk => decide (o % 0x200 ≠ rChkDual ∧ o % 0x200 ≠ rChkPrismCtl)
  | .regdec => false
  | _ => true

theorem isChecked_of_ne {b : Blk} (hb : b ≠ .chk) (s : State) (o : Nat) : isChecked s b o = false := by
  simp only [isChecked, decide_eq_false hb, Bool.and_false, Bool.false_and]

theorem plainReg_rules {b : Blk} {o : Nat} (h : plainReg b o = true) (v : Nat) (s : State) :
    directWrite b o v s = none ∧ writeIgnored s b o v = false ∧ b ≠ .regdec ∧ isChecked s b o = false := by
  cases b
  case regdec => exact absurd h Bool.false_ne_true
  case sync => exact ⟨if_neg (Nat.not_lt.mpr (of_decide_eq_true h)), rfl, nofun, isChecked_of_ne (by nofun) s o⟩
  case xlat => exact ⟨if_neg (of_decide_eq_true h), rfl, nofun, isChecked_of_ne (by nofun) s o⟩
  case coord =>
    have hother : decide (o = rCoordLogical) = false := decide_eq_false (of_decide_eq_true h)
    exact ⟨rfl, by simp only [writeIgnored, hother, Bool.false_and], nofun, isChecked_of_ne (by nofun) s o⟩
  case bcn =>
    have hbelow : decide (0x48 ≤ o) = false := decide_eq_false (Nat.not_le.mpr (of_decide_eq_true h))
    exact ⟨rfl, by simp only [writeIgnored, hbelow, Bool.false_and], nofun, isChecked_of_ne (by nofun) s o⟩
  case hlth =>
    have hbelow : decide (0x14C ≤ o) = false := decide_eq_false (Nat.not_le.mpr (of_decide_eq_true h))
    exact ⟨rfl, by simp only [writeIgnored, hbelow, Bool.false_and], nofun, isChecked_of_ne (by nofun) s o⟩
  case chk =>
    obtain ⟨hdual, hprism⟩ : o % 0x200 ≠ rChkDual ∧ o % 0x200 ≠ rChkPrismCtl := of_decide_eq_true h
    exact ⟨rfl, rfl, nofun, by
      simp only [isChecked, decide_eq_false hdual, decide_eq_false hprism, Bool.or_false, Bool.and_false]⟩
  all_goals exact ⟨rfl, rfl, nofun, isChecked_of_ne (by nofun) s o⟩

theorem runWrite_plain {s t : State} {p : Path} {b : Blk} {o v : Nat} {temp : Int} {tok : Bool} (hplain : plainReg b o = true)
    (h : writes s p b o v) (heffect : regEffect b o v (regShow s b o).toNat temp tok (wroteReg s b o v) = t) :
    runWrite p (offOf b o) v temp tok s = .next t := by
  obtain ⟨hdirect, hignored, hdec, hchecked⟩ := plainReg_rules hplain v s
  rw [← heffect]
  exact runWrite_quiet s p b o v temp tok h hdirect hignored hdec hchecked

/-! Equations of a written state; their proofs stand in parentheses for the reason given with those above. -/

@[simp] theorem wroteReg_gangReq (s : State) (b : Blk) (o v : Nat) : (wroteReg s b o v).gangReq = s.gangReq := (rfl)
@[simp] theorem wroteReg_mig (s : State) (b : Blk) (o v : Nat) : (wroteReg s b o v).mig = s.mig := (rfl)
@[simp] theorem wroteReg_aglGiB (s : State) (b : Blk) (o v : Nat) : (wroteReg s b o v).aglGiB = s.aglGiB := (rfl)
@[simp] theorem wroteReg_mgmt (s : State) (b : Blk) (o v : Nat) : (wroteReg s b o v).mgmt = s.mgmt := (rfl)
@[simp] theorem wroteReg_free (s : State) (b : Blk) (o v : Nat) : (wroteReg s b o v).free = s.free := (rfl)
@[simp] theorem wroteReg_sec (s : State) (b : Blk) (o v : Nat) : (wroteReg s b o v).sec = s.sec := (rfl)
@[simp] theorem wroteReg_sess (s : State) (b : Blk) (o v : Nat) : (wroteReg s b o v).sess = s.sess := (rfl)

/-! ### The mailbox (R469–R475) -/

theorem bits_mailboxLen {cmd : Nat} (len : BitVec 13) (hcmd : cmd < 256) : bits (cmd + 256 * len.toNat) 20 8 = len.toNat := by
  have := len.isLt
  simp only [bits]
  omega

/-- A command of SEC_MB_CMD acts by its low byte. -/
theorem regEffect_mailbox {c cmd : Nat} (hc : c < 2) (len : BitVec 13) (old : Nat) (temp : Int) (tok : Bool) (s : State) :
    regEffect .sec (rSecMbCmd + 0x2000 * c) (cmd + 256 * len.toNat) old temp tok s = mbWrite s c (cmd + 256 * len.toNat) temp tok := by
  obtain rfl | rfl : c = 0 ∨ c = 1 := by omega
  · rfl
  · rfl

theorem runMb_of_mbWrite {s t : State} {k : Fin 4} {c : Fin 2} {cmd : Nat} {len : BitVec 13} {temp : Int} {tok : Bool}
    (h : writes s (.mgmt k) .sec (rSecMbCmd + 0x2000 * c) (cmd + 256 * len.toNat))
    (hact : mbWrite (wroteReg s .sec (rSecMbCmd + 0x2000 * c) (cmd + 256 * len.toNat)) c (cmd + 256 * len.toNat) temp tok = t) :
    runMb k c cmd len temp tok s = .next t :=
  runWrite_plain rfl h ((regEffect_mailbox c.isLt len _ temp tok _).trans hact)

/-- Settles O60: no block is tainted; a mailbox command is a write of SEC_MB_CMD, which acts by its low byte. That it finishes in its
own step, that a wrong length answers BAD_CMD, that the token is an operand and that a response without a challenge fails are the
model's choices (logs 145 to 148). -/
theorem security : Obligations.Security := by
  refine ⟨fun k c len s htaint => ⟨fun h => ?_, fun h => ?_, fun h => ?_, fun h => ?_, fun h => ?_, fun temp h => ?_, fun h => ?_,
    fun tok h => ?_, fun temp => ?_⟩, fun s c len temp tok => ⟨fun hlen => ?_, fun hnone => ?_, fun hlock => ?_, fun hlock => ?_,
    fun hfree hlife => ?_, fun hfree hlife => ?_⟩⟩
  · exact runMb_of_mbWrite h (by simp [mbWrite, bits_mailboxLen])
  · exact runMb_of_mbWrite h (by simp [mbWrite, mbSignStart])
  · exact runMb_of_mbWrite h (by simp [mbWrite, bits_mailboxLen])
  · exact runMb_of_mbWrite h (by simp [mbWrite])
  · exact runMb_of_mbWrite h (by simp [mbWrite, mbChallenge])
  · exact runMb_of_mbWrite h (by simp [mbWrite, bits_mailboxLen])
  · exact runMb_of_mbWrite h (by simp [mbWrite])
  · exact runMb_of_mbWrite h (by simp [mbWrite, bits_mailboxLen])
  · have sensed (source : Nat) : run [] (fun t => alarm t source temp) s = .next (alarm s source temp) := run_of_untainted htaint
    exact ⟨sensed alLid, sensed alVglitch, sensed alCglitch⟩
  · exact if_pos hlen
  · simp [mbSignData, mbSignEnd, hnone]
  · exact if_pos hlock
  · exact ⟨if_pos hlock, if_pos hlock⟩
  · simp [mbProvision, hfree, hlife]
  · simp [mbProvision, hfree, hlife]

/-! ### The APPLY registers (R491) -/

/-- A register with an APPLY bit acts at a write of that bit. -/
theorem runReg_apply {s : State} {p : Path} {b : Blk} {o : Nat} {v : Word} {c : Prop} [Decidable c] {x y t : State}
    (hplain : plainReg b o = true) (h : writes s p b o v.toNat)
    (heffect : regEffect b o v.toNat (regShow s b o).toNat 0 false (wroteReg s b o v.toNat) = if c then x else y) (hc : c)
    (hx : x = t) : runReg p b o v s = .next t :=
  runWrite_plain hplain h (heffect.trans ((if_pos hc).trans hx))

theorem rgnBlk_of_die (d r : Fin 4) : rgnBlk (4 * d + r) = .rgn d r := by
  simp only [rgnBlk]
  congr 1 <;> omega

section Written
variable {t : State}

theorem routeApplyWrite_good {d : Nat} (htbl : tblBad t (addr48 t (.route d) rRouteOwnerLo rRouteOwnerHi / 64 * 64)
      (64 * fld t (.route d) rRouteOwnerCount 12 0) = none) :
    routeApplyWrite t d = { t with owners := smPut (fun _ => []) t.owners d ((List.range (fld t (.route d) rRouteOwnerCount 12 0)).map
      (fun k => parseOwner (rdBytes t (addr48 t (.route d) rRouteOwnerLo rRouteOwnerHi / 64 * 64 + 64 * k) 64))) } := by
  simp only [routeApplyWrite, htbl]

theorem migApplyWrite_good (hfly : t.mig.fly = []) (htbl : tblBad t (addr48 t .mig rMigRingLo rMigRingHi / 64 * 64)
      (64 * 2 ^ min 16 (max 4 (fld t .mig rMigRingSize 4 0))) = none) :
    migApplyWrite t = setReg { t with mig := {
      ring := addr48 t .mig rMigRingLo rMigRingHi / 64 * 64, size := 2 ^ min 16 (max 4 (fld t .mig rMigRingSize 4 0))
      die := fld t .mig rMigTrig 13 12, obj := fld t .mig rMigTrig 11 0, applied := true, next := 0, fly := [] } } .mig rMigDone 0 := by
  simp [migApplyWrite, hfly, htbl]

theorem xlatApplyWrite_good
    (htbl : tblBad t (addr48 t .xlat rXlatGrpLo rXlatGrpHi / 16 * 16) (16 * fld t .xlat rXlatGrpCount 15 0) = none)
    (hlists : tblsBad t (grpLists t (addr48 t .xlat rXlatGrpLo rXlatGrpHi / 16 * 16) (fld t .xlat rXlatGrpCount 15 0)) = none) :
    xlatApplyWrite t = xlatSwitch (setFld
      { t with xlat := { t.xlat with armed := some (regAt t .xlat rXlatEpoch).toNat } } .xlat rXlatStatus 2 2 1) := by
  simp only [xlatApplyWrite, htbl, hlists, Option.orElse_none]

theorem stepApplyWrite_closed (hclosed : t.openN = t.commitN) : stepApplyWrite t = xlatSwitch (setSteps
    { t with drainMs := limMs (fld t .hub rHubDrainLim 15 0), voteMs := limMs (fld t .hub rHubVoteLim 15 0)
             epoch := (regAt t .hub rHubEpoch).toNat }
    (regAt t .hub rHubStepCommit).toNat (regAt t .hub rHubStepOpen).toNat) :=
  if_neg (by simp [noStepOpen, hclosed])

theorem stepApplyWrite_open (hopen : t.openN ≠ t.commitN) : stepApplyWrite t = setFld t .hub rHubStepStatus 8 8 1 :=
  if_pos (by simp [noStepOpen, hopen])

end Written

/-- Settles O32: each write acts by the effect of its register, on the state that has the written register. CHK_APPLY, CKPT_APPLY and
SCL_APPLY.EST only mark that a configuration is to be taken. When it is sampled (log 58), when the addresses of tables are checked
(log 35), that XLAT_EPOCH is taken at the write (log 175) and what a change of ward or buddy does (log 185) are the model's choices. -/
theorem applyRegisters : Obligations.ApplyRegisters := by
  refine ⟨fun p v s hv => ⟨fun q h => ?_, fun d r h => ?_, fun d h htbl => ?_, fun h hfly htbl => ?_, fun l h => ?_, fun h => ?_,
    fun h => ?_, fun h => ?_, fun h => ?_⟩, fun p v s hv => ⟨fun h htbl hlists => ?_, fun h => ?_, fun h => ⟨fun hclosed => ?_,
    fun hopen => ?_⟩, fun h => ?_, fun h => ⟨fun hnone => ?_, fun hsome => ?_⟩⟩⟩
  · exact runReg_apply rfl h rfl ⟨rfl, hv⟩ (by rw [gangApplyWrite, wroteReg_gangReq])
  · have hrun : runReg p (.rgn d r) rRgnApply v s = .next (fenceApplyWrite (wroteReg s (.rgn d r) rRgnApply v.toNat) (4 * d + r)) :=
      runReg_apply rfl h rfl ⟨rfl, hv⟩ rfl
    rw [← rgnBlk_of_die] at hrun ⊢
    exact hrun
  · change runReg p (.route d) rRouteApply v s = _
    exact runReg_apply rfl h rfl ⟨rfl, hv⟩ (routeApplyWrite_good htbl)
  · exact runReg_apply rfl h rfl ⟨rfl, hv⟩ (migApplyWrite_good (by simpa using hfly) htbl)
  · exact runReg_apply rfl h rfl ⟨rfl, hv⟩ rfl
  · exact runReg_apply rfl h rfl ⟨rfl, hv⟩ rfl
  · exact runReg_apply rfl h rfl ⟨rfl, hv⟩ rfl
  · exact runWrite_plain rfl h rfl
  · exact runWrite_plain rfl h (by rw [← wroteReg_openN s .scl rSclApply 2]; rfl)
  · exact runReg_apply rfl h rfl ⟨rfl, hv⟩ (xlatApplyWrite_good htbl hlists)
  · exact runReg_apply rfl h rfl ⟨rfl, hv⟩
      (by simp only [resilApplyWrite, noStepOpen, decide_eq_true_eq, wroteReg_openN, wroteReg_commitN, wroteReg_aglGiB])
  · exact runReg_apply rfl h rfl ⟨rfl, hv⟩ (stepApplyWrite_closed (by rwa [wroteReg_openN, wroteReg_commitN]))
  · exact runReg_apply rfl h rfl ⟨rfl, hv⟩ (stepApplyWrite_open (by rwa [wroteReg_openN, wroteReg_commitN]))
  · exact runReg_apply rfl h rfl ⟨rfl, hv⟩ (by rw [hlthApplyWrite, wroteReg_mgmt]; rfl)
  · exact runReg_apply rfl h rfl ⟨rfl, hv⟩ (if_neg (by simp [hnone]))
  · exact runReg_apply rfl h rfl ⟨rfl, hv⟩ (if_pos (by rwa [wroteReg_sess]))

end Sys2Proof.Machine

/-! ## The front of the queue (R188) -/
namespace Sys2Proof.Machine

/-- Settles O1: a step takes the front of the queue off before it executes it. That time passes where none waits is the model's
choice (log 3). -/
theorem stepFront : Obligations.StepFront := by
  refine ⟨fun c s => rfl, fun s hidle => ?_⟩
  rw [step, hidle]

end Sys2Proof.Machine

/-! ## PTI words (R197, R198, Table 6.9) -/
namespace Sys2Proof

/-! ### CLASS and OP -/

theorem ptiOpOf_ptiCode (op : PtiOp) : ptiOpOf (ptiCode op).1.toNat (ptiCode op).2.toNat = some op := by
  cases op <;> rfl

theorem ptiCode_class_lt (op : PtiOp) : (ptiCode op).1.toNat < 9 := by
  cases op <;> decide

theorem ptiCode_of_ptiOpOf {cls code : Nat} {op : PtiOp} (h : ptiOpOf cls code = some op) :
    (ptiCode op).1.toNat = cls ∧ (ptiCode op).2.toNat = code := by
  unfold ptiOpOf at h
  split at h
  case h_10 => cases h
  all_goals
    split at h
    all_goals cases h
    all_goals exact ⟨rfl, rfl⟩

/-! ### The fields of a word -/

theorem bit1_getLsbD {n : Nat} (v : BitVec n) (i : Nat) : bit1 (v.getLsbD i) = v.extractLsb' i 1 := by
  rw [BitVec.getLsbD_eq_extractLsb']
  generalize v.extractLsb' i 1 = b
  revert b
  decide

theorem bit1_injective : Function.Injective bit1 := by decide

/-- CLASS, OP and the reserved bits of an encoded word: what lies below a field is dropped, one field after the other. -/
theorem extractLsb'_ptiEncode (op : PtiOp) (w : PtiWord) : (ptiEncode op w).extractLsb' 124 4 = (ptiCode op).1 ∧
    (ptiEncode op w).extractLsb' 116 8 = (ptiCode op).2 ∧ (ptiEncode op w).extractLsb' 48 11 = 0 := by
  unfold ptiEncode
  refine ⟨?_, ?_, ?_⟩
  · repeat rw [BitVec.extractLsb'_append_eq_of_le (by decide)]
    exact BitVec.extractLsb'_eq_self
  all_goals
    repeat rw [BitVec.extractLsb'_append_eq_of_le (by decide)]
    exact BitVec.extractLsb'_append_eq_right

/-- The other fields of an encoded word, in the same way. -/
theorem ptiFields_ptiEncode (op : PtiOp) (w : PtiWord) : ptiFields (ptiEncode op w) = w := by
  cases w
  simp only [ptiFields, PtiWord.mk.injEq]
  simp only [← bit1_injective.eq_iff, bit1_getLsbD, ptiEncode]
  refine ⟨?_, ?_, ?_, ?_, ?_, ?_, ?_, ?_, ?_, ?_, ?_⟩
  all_goals
    repeat rw [BitVec.extractLsb'_append_eq_of_le (by decide)]
    exact BitVec.extractLsb'_append_eq_right

/-- Adjacent fields of a word, from CLASS down, make up the word again. -/
theorem ptiEncode_ptiFields {v : BitVec 128} {op : PtiOp} (hcls : (ptiCode op).1 = v.extractLsb' 124 4)
    (hop : (ptiCode op).2 = v.extractLsb' 116 8) (hrsv : v.extractLsb' 48 11 = 0) : ptiEncode op (ptiFields v) = v := by
  simp only [ptiEncode, ptiFields, hcls, hop, ← hrsv, bit1_getLsbD]
  simp only [BitVec.extractLsb'_append_extractLsb'_eq_extractLsb']
  exact BitVec.extractLsb'_eq_self

/-! ### Decoding -/

section Decode
variable {v : BitVec 128}

theorem ptiDecode_illegalClass (hcls : 9 ≤ (v.extractLsb' 124 4).toNat) : ptiDecode v = .error .illegalClass := if_pos hcls

section Class
variable (hcls : (v.extractLsb' 124 4).toNat < 9)
include hcls

theorem ptiDecode_unassignedOp (hop : ptiOpOf (v.extractLsb' 124 4).toNat (v.extractLsb' 116 8).toNat = none) :
    ptiDecode v = .error .unassignedOp := by
  simp only [ptiDecode, if_neg (Nat.not_le.mpr hcls), hop]

variable {op : PtiOp} (hop : ptiOpOf (v.extractLsb' 124 4).toNat (v.extractLsb' 116 8).toNat = some op)
include hop

theorem ptiDecode_nonzeroReserved (hrsv : v.extractLsb' 48 11 ≠ 0) : ptiDecode v = .error .nonzeroReserved := by
  simp only [ptiDecode, if_neg (Nat.not_le.mpr hcls), hop, if_pos hrsv]

variable (hrsv : v.extractLsb' 48 11 = 0)
include hrsv

theorem ptiDecode_illegal {r : PtiReject} (hlegal : ptiLegal op (ptiFields v) = some r) : ptiDecode v = .error r := by
  simp only [ptiDecode, if_neg (Nat.not_le.mpr hcls), hop, hrsv, ne_eq, not_true_eq_false, if_false, hlegal]

theorem ptiDecode_legal (hlegal : ptiLegal op (ptiFields v) = none) : ptiDecode v = .ok (op, ptiFields v) := by
  simp only [ptiDecode, if_neg (Nat.not_le.mpr hcls), hop, hrsv, ne_eq, not_true_eq_false, if_false, hlegal]

end Class

/-- What a word that decodes is made of. -/
theorem of_ptiDecode_ok {op : PtiOp} {w : PtiWord} (h : ptiDecode v = .ok (op, w)) :
    ptiOpOf (v.extractLsb' 124 4).toNat (v.extractLsb' 116 8).toNat = some op ∧ v.extractLsb' 48 11 = 0 ∧ w = ptiFields v := by
  unfold ptiDecode at h
  dsimp only at h
  split at h
  · cases h
  split at h
  · cases h
  next hop =>
  split at h
  · cases h
  next hrsv =>
  split at h
  · cases h
  · cases h
    exact ⟨hop, not_not.mp hrsv, rfl⟩

end Decode

theorem ptiDecode_ptiEncode {op : PtiOp} {w : PtiWord} (hlegal : ptiLegal op w = none) :
    ptiDecode (ptiEncode op w) = .ok (op, w) := by
  obtain ⟨hcls, hop, hrsv⟩ := extractLsb'_ptiEncode op w
  have hfields := ptiFields_ptiEncode op w
  have hcode := ptiOpOf_ptiCode op
  have hlt := ptiCode_class_lt op
  rw [← hcls] at hcode hlt
  rw [← hop] at hcode
  rw [ptiDecode_legal hlt hcode hrsv (hfields.symm ▸ hlegal), hfields]

/-- Settles O6: the fields of an encoded word are those it was made of, and a word is made of its fields. -/
theorem ptiRoundTrip : Obligations.PtiRoundTrip := by
  refine ⟨fun op w hlegal => ptiDecode_ptiEncode hlegal, fun v op w hdecode => ?_⟩
  obtain ⟨hcode, hrsv, rfl⟩ := of_ptiDecode_ok hdecode
  obtain ⟨hcls, hop⟩ := ptiCode_of_ptiOpOf hcode
  exact ptiEncode_ptiFields (BitVec.eq_of_toNat_eq hcls) (BitVec.eq_of_toNat_eq hop) hrsv

/-- Settles O7: each word that is written out is the encoding of its instruction; an illegal word fails the first of the checks that
it does not pass. -/
theorem ptiWords : Obligations.PtiWords := by
  have decodes {v : BitVec 128} {op : PtiOp} {w : PtiWord} (hv : ptiEncode op w = v) (hlegal : ptiLegal op w = none) :
      ptiDecode v = .ok (op, w) := hv ▸ ptiDecode_ptiEncode hlegal
  refine ⟨?_, fun v hcls => ptiDecode_illegalClass hcls, fun v hcls hop => ptiDecode_unassignedOp hcls hop,
    fun v op hcls hop => ⟨ptiDecode_nonzeroReserved hcls hop, fun hrsv hmod => ptiDecode_illegal hcls hop hrsv (if_pos hmod)⟩⟩
  intro z
  refine ⟨?_, ?_, ?_, ?_, ?_, ?_, ?_, ?_, ?_⟩
  all_goals exact decodes (by decide) (by decide)

end Sys2Proof

/-! ## Illegal words, false guards and launches by the beacon (R30, R175, R188–R192, R198, R209) -/
namespace Sys2Proof.Machine

/-! ### A word that does not decode -/

section Illegal
variable {q : Nat} {s : State} (hlive : seqLive s q = true)
include hlive

theorem opPtiIllegal_rejects {v : BitVec 128} {r : PtiReject} (hfetch : ptiFetch s (seqAt s q).pc = some v)
    (hdecode : ptiDecode v = .error r) : opPtiIllegal q s = haltIllegal (fetched s q) q v := by
  simp only [opPtiIllegal, hlive, if_true, hfetch, hdecode]

theorem opPtiIllegal_absent (hchk : accChk s (seqAt s q).pc false = some .dieAbsent) :
    opPtiIllegal q s = haltIllegal (raise s .dieAbsentAccess (whClu q) (seqAt s q).step []) q 0 := by
  have hfetch : ptiFetch s (seqAt s q).pc = none := if_pos (by simp [hchk])
  simp only [opPtiIllegal, hlive, if_true, hfetch, hchk, decide_true]
  rfl

end Illegal

/-- The halt changes the sequencer and the events, and the fetch neither of them. -/
theorem haltIllegal_fetched (s : State) (q : Nat) (v : BitVec 128) : haltIllegal (fetched s q) q v = { fetched s q with
    seqs := smPut (fun _ => Seq.reset) s.seqs q { seqAt s q with st := .halted }
    evt := evtPush s.evt s.beacon s.epoch .ptiIllegal (whClu q) (seqAt s q).step
      [a64 (seqAt s q).pc, a64 (v.toNat % 2 ^ 64), a64 (v.toNat / 2 ^ 64)] } := by
  have hseqs := fetched_seqs s q
  rw [← seqAt_congr hseqs, ← hseqs, ← fetched_evt s q, ← fetched_beacon s q, ← fetched_epoch s q]
  rfl

/-- Settles O8. That a word at an absent die is not fetched, so that the event of the access comes first, is the model's choice
(log 24). -/
theorem ptiIllegalHalts : Obligations.PtiIllegalHalts := by
  refine ⟨fun q s htaint hlive hchk => ?_, fun q s v r htaint hlive hfetch hdecode => ⟨?_, fetched_mem s q, fetched_objs s q,
    fetched_seqs s q, fetched_evt s q⟩⟩
  · exact run_eq_of_untainted htaint (opPtiIllegal_absent hlive hchk)
  · exact run_eq_of_untainted htaint ((opPtiIllegal_rejects hlive hfetch hdecode).trans (haltIllegal_fetched s q v))

/-! ### A guard that is false -/

section Skips
variable {s : State} {q : Fin 256} {op : PtiOp} {w : PtiWord} (h : skips s q op w) {bs : List Blk} {act : State → State}
include h

theorem run_ptiSelf_of_skips (hcls : (ptiCode op).1 ≠ 1) : run bs (ptiSelf op q w act) s = .next (selfDone (atIssue s q w) q w) := by
  obtain ⟨htaint, hready, hguard⟩ := h
  refine run_eq_of_untainted htaint ((if_pos hready).trans ((if_neg (Bool.eq_false_iff.mp hguard)).trans ?_))
  rw [if_neg (by simpa using hcls)]
  rfl

/-- An instruction of the SYNC class sends nothing. -/
theorem run_ptiSelf_of_skips_sync (hcls : (ptiCode op).1 = 1) : run bs (ptiSelf op q w act) s = .next (seqNext (atIssue s q w) q) := by
  obtain ⟨htaint, hready, hguard⟩ := h
  refine run_eq_of_untainted htaint ((if_pos hready).trans ((if_neg (Bool.eq_false_iff.mp hguard)).trans ?_))
  rw [if_pos (by simpa using hcls)]
  rfl

theorem run_ptiIssue_of_skips :
    run bs (ptiIssue op q w act) s = .next (seqNext (opSignal (atIssue s q w) (mkOp (atIssue s q w) q (.vec q) op w)) q) := by
  obtain ⟨htaint, hready, hguard⟩ := h
  exact run_eq_of_untainted htaint ((if_pos hready).trans (if_neg (Bool.eq_false_iff.mp hguard)))

end Skips

theorem opSignal_silent {s : State} {o : EngOp} (hsigv : o.w.sigv = false) : opSignal s o = s :=
  if_neg (Bool.eq_false_iff.mp hsigv)

theorem opSignal_mcast {s : State} {o : EngOp} (hsigv : o.w.sigv = true) (hop : o.op = .xferMcast) : opSignal s o =
    releaseSigs (((List.range 4).filter (fun d => o.w.imm.getLsbD d)).foldl (mcastSignal o) s) :=
  (if_pos hsigv).trans (if_pos hop)

theorem selfDone_silent {s : State} {q : Nat} {w : PtiWord} (hsigv : w.sigv = false) : selfDone s q w = seqNext s q :=
  congrArg (seqNext · q) (if_neg (Bool.eq_false_iff.mp hsigv))

/-- An instruction that is no XFER.MCAST signals its object once, on the sequencer's die. -/
theorem opSignal_single {s : State} {o : EngOp} (hop : o.op ≠ .xferMcast) : opSignal s o = signal s o.q o.w := by
  rw [opSignal, if_neg hop]
  rfl

theorem run_ptiIssue_of_skips_single {s : State} {q : Fin 256} {op : PtiOp} {w : PtiWord} (h : skips s q op w) {bs : List Blk}
    {act : State → State} (hop : op ≠ .xferMcast) : run bs (ptiIssue op q w act) s = .next (selfDone (atIssue s q w) q w) :=
  (run_ptiIssue_of_skips h).trans (congrArg (fun t => Host.Outcome.next (seqNext t q)) (opSignal_single hop))

/-- Settles O12, class by class: the sequencer's own instructions, those of an engine, and XFER.MCAST, which alone signals on
several dies. -/
theorem falseGuard : Obligations.FalseGuard := by
  intro q w s
  refine ⟨fun x hx h => ?_, fun x hx h => ?_, fun x hx h => ?_⟩
  · simp only [syncRows, List.mem_cons, List.not_mem_nil, or_false] at hx
    rcases hx with rfl | rfl | rfl | rfl | rfl <;> exact run_ptiSelf_of_skips_sync h rfl
  · simp only [List.mem_append] at hx
    rcases hx with (((((hctl | hmove) | hmma) | hvec) | hroute) | hupd) | hchk
    · simp only [ctlRows, List.mem_cons, List.not_mem_nil, or_false] at hctl
      rcases hctl with rfl | rfl | rfl | rfl | rfl | rfl | rfl | rfl | rfl | rfl <;> exact run_ptiSelf_of_skips h (by decide)
    · simp only [moveRows, List.mem_cons, List.not_mem_nil, or_false] at hmove
      rcases hmove with rfl | rfl | rfl | rfl | rfl | rfl | rfl | rfl | rfl | rfl | rfl | rfl | rfl | rfl | rfl | rfl | rfl | rfl |
        rfl <;> exact run_ptiSelf_of_skips h (by decide)
    · simp only [mmaRows, List.mem_cons, List.not_mem_nil, or_false] at hmma
      rcases hmma with rfl | rfl | rfl | rfl | rfl <;> exact run_ptiIssue_of_skips_single h (by decide)
    · simp only [vecRows, List.mem_cons, List.not_mem_nil, or_false] at hvec
      rcases hvec with rfl | rfl | rfl | rfl | rfl | rfl | rfl | rfl | rfl | rfl | rfl | rfl | rfl | rfl | rfl | rfl | rfl | rfl |
        rfl <;> exact run_ptiIssue_of_skips_single h (by decide)
    · simp only [routeRows, List.mem_cons, List.not_mem_nil, or_false] at hroute
      rcases hroute with rfl | rfl | rfl <;> exact run_ptiIssue_of_skips_single h (by decide)
    · simp only [updRows, List.mem_cons, List.not_mem_nil, or_false] at hupd
      rcases hupd with rfl | rfl | rfl <;> exact run_ptiIssue_of_skips_single h (by decide)
    · simp only [chkRows, List.mem_cons, List.not_mem_nil, or_false] at hchk
      rcases hchk with rfl | rfl | rfl <;> exact run_ptiIssue_of_skips_single h (by decide)
  · simp only [xferRows, List.mem_cons, List.not_mem_nil, or_false] at hx
    rcases hx with rfl | rfl | rfl | rfl | rfl
    case inr.inl =>
      refine (run_ptiIssue_of_skips h).trans (congrArg Host.Outcome.next ?_)
      by_cases hsigv : w.sigv = true
      · rw [if_pos ⟨rfl, hsigv⟩]
        exact congrArg (seqNext · q) (opSignal_mcast hsigv rfl)
      · have hsilent := Bool.eq_false_iff.mpr hsigv
        rw [if_neg (fun hc => hsigv hc.2), selfDone_silent hsilent]
        exact congrArg (seqNext · q) (opSignal_silent hsilent)
    all_goals
      rw [if_neg (by simp)]
      exact run_ptiIssue_of_skips_single h (by decide)

/-! ### BWAIT -/

section Bwait
variable {s : State} {q : Nat}

/-- The target of a BWAIT (R209). -/
def bwaitTarget (s : State) (q : Nat) (w : PtiWord) : Nat := (sreg (seqAt s q) w.opa.toNat + w.imm.signExtend 64).toNat

/-- The beacon at which a BWAIT fires: its target with the slip group's offset (R191). -/
def bwaitAt (s : State) (q : Nat) (w : PtiWord) : Nat := (bwaitTarget s q w + slipOfs s (q / 64) (seqAt s q).slipg) % 2 ^ 64

theorem opBwait_eq (w : PtiWord) : opBwait q w s =
    if s.beacon < bwaitAt s q w ∧ 2 ^ 34 < bwaitAt s q w - s.beacon then selfFail .bwait q w 0x0C s
    else if bwaitAt s q w ≤ s.beacon then
      selfDone (overrun s q (s.beacon - bwaitAt s q w) ((s.beacon + 2 ^ 64 - bwaitTarget s q w) % 2 ^ 64)) q w
    else setSeq s q { seqAt s q with
      st := .beaconWait, bwait := some ⟨bwaitAt s q w, if w.sigv then some w.sig.toNat else none⟩ } := by
  simp only [bwaitAt, bwaitTarget, ← addSext48_toNat]
  rfl

theorem opBwait_far {w : PtiWord} (h : 2 ^ 34 < bwaitAt s q w - s.beacon) : opBwait q w s = selfFail .bwait q w 0x0C s :=
  (opBwait_eq w).trans (if_pos ⟨by omega, h⟩)

theorem opBwait_late {w : PtiWord} (h : bwaitAt s q w ≤ s.beacon) : opBwait q w s =
    selfDone (overrun s q (s.beacon - bwaitAt s q w) ((s.beacon + 2 ^ 64 - bwaitTarget s q w) % 2 ^ 64)) q w :=
  (opBwait_eq w).trans ((if_neg (fun hc => Nat.not_lt.mpr h hc.1)).trans (if_pos h))

theorem opBwait_waits {w : PtiWord} (h : s.beacon < bwaitAt s q w) (hnear : bwaitAt s q w - s.beacon ≤ 2 ^ 34) :
    opBwait q w s = setSeq s q { seqAt s q with
      st := .beaconWait, bwait := some ⟨bwaitAt s q w, if w.sigv then some w.sig.toNat else none⟩ } :=
  (opBwait_eq w).trans ((if_neg (fun hc => Nat.not_lt.mpr hnear hc.2)).trans (if_neg (Nat.not_le.mpr h)))

theorem opBwaitFire_fires {i : BWaitInfo} (hst : (seqAt s q).st = .beaconWait) (hwait : (seqAt s q).bwait = some i)
    (hdue : i.eff ≤ s.beacon) (hdie : dieIn s (q / 64) = true) : opBwaitFire q s = seqNext
      (match i.sig with
        | some o => objSignal (setSeq s q { seqAt s q with bwait := none }) (q / 64) o 1
        | none => setSeq s q { seqAt s q with bwait := none }) q := by
  simp only [opBwaitFire, hwait]
  exact if_pos ⟨hst, hdue, hdie⟩

end Bwait

/-- Settles O15, by where the target lies. -/
theorem beaconLaunch : Obligations.BeaconLaunch := by
  intro q w s
  dsimp only
  rw [← taken_beacon s q w]
  refine ⟨fun h hlate => ?_, fun htol a => if_pos htol, fun h hahead hnear => ?_, fun h hfar => ?_,
    fun i htaint hst hwait hdue hdie => ?_⟩
  · exact (run_ptiSelf_of_issues h).trans (congrArg _ (opBwait_late hlate))
  · exact (run_ptiSelf_of_issues h).trans (congrArg _ (opBwait_waits hahead hnear))
  · exact (run_ptiSelf_of_issues h).trans (congrArg _ (opBwait_far hfar))
  · exact run_eq_of_untainted htaint (opBwaitFire_fires hst hwait (taken_beacon s q w ▸ hdue) hdie)

end Sys2Proof.Machine

/-! ## Instructions that read memory, tags and counters (R140, R180, R194, R206, R207, R210–R212) -/
namespace Sys2Proof.Machine

section Reads
variable {s : State} {q : Nat} {w : PtiWord}

/-- The address of a load. -/
def loadAddr (s : State) (q : Nat) (w : PtiWord) : Nat := (sreg (seqAt s q) w.opa.toNat + w.imm.signExtend 64).toNat

theorem seqAccChk_aligned {a n : Nat} {wr : Bool} (halign : a % n = 0) (hchk : accChk s a wr = none) :
    seqAccChk s a n wr = none := (if_neg (fun hne => hne halign)).trans hchk

theorem opLds_reads (halign : loadAddr s q w % 8 = 0) (hchk : accChk s (loadAddr s q w) false = none)
    (hclean : poisoned s (xlatPage s (loadAddr s q w)) 8 = false) : opLds q w s =
      selfSet q w (fun x => putS x w.opd.toNat (BitVec.ofNat 64 (rdLE s (loadAddr s q w) 8)))
        (traffic s (some (q / 16)) 0 (xlatPage s (loadAddr s q w)) 8 false) := by
  have haddr : addSext48 (sreg (seqAt s q) w.opa.toNat) w.imm.toNat = loadAddr s q w := addSext48_toNat _ _
  simp only [opLds, haddr, seqAccChk_aligned halign hchk, hclean, Bool.false_eq_true, if_false]

theorem opDld_reads (halign : loadAddr s q w % 64 = 0) (hchk : accChk s (loadAddr s q w) false = none)
    (hclean : poisoned s (xlatPage s (loadAddr s q w)) 64 = false) : opDld q w s =
      selfSet q w (fun x => putD x w.opd.toNat (some (parseDesc (loadAddr s q w) (rdBytes s (loadAddr s q w) 64))))
        (traffic s (some (q / 16)) 0 (xlatPage s (loadAddr s q w)) 64 false) := by
  have haddr : addSext48 (sreg (seqAt s q) w.opa.toNat) w.imm.toNat = loadAddr s q w := addSext48_toNat _ _
  simp only [opDld, haddr, seqAccChk_aligned halign hchk, hclean, Bool.false_eq_true, if_false]

/-! ### TAGP -/

theorem opTagp_invalid (hdesc : dreg (seqAt s q) w.opa.toNat = none) : opTagp q w s = selfFail .tagp q w 0x01 s := by
  simp only [opTagp, hdesc]

section Tested
variable {d : Desc} (hdesc : dreg (seqAt s q) w.opa.toNat = some d)
include hdesc

theorem opTagp_limit (hn : w.imm.toNat % 128 = 0 ∨ 64 < w.imm.toNat % 128 ∨
      nBlocks d < (sreg (seqAt s q) w.opb.toNat).toNat + w.imm.toNat % 128) : opTagp q w s = selfFail .tagp q w 0x08 s := by
  simp only [opTagp, hdesc]
  exact if_pos hn

theorem opTagp_reads {c : State} {fl : List Nat} (hpos : 1 ≤ w.imm.toNat % 128) (hmax : w.imm.toNat % 128 ≤ 64)
    (hin : (sreg (seqAt s q) w.opb.toNat).toNat + w.imm.toNat % 128 ≤ nBlocks d)
    (hread : tagHdrs (seqCx s q) d ((List.range (w.imm.toNat % 128)).map ((sreg (seqAt s q) w.opb.toNat).toNat + ·)) s [] = (c, 0, fl)) :
    opTagp q w s = selfSet q w (fun x => putP x w.opd.toNat
      (if w.mod.getLsbD 1 then fl.all (fun g => decide (g &&& (w.imm.toNat / 65536 % 65536) ≠ 0))
        else fl.any (fun g => decide (g &&& (w.imm.toNat / 65536 % 65536) ≠ 0)))) c := by
  simp only [opTagp, hdesc, hread]
  exact if_neg (by omega)

end Tested

/-! ### CTR.RD -/

theorem opCtrRd_none (h : ctrTarget q w.imm.toNat = none) : opCtrRd q w s = selfFail .ctrRd q w 0x11 s := by
  simp only [opCtrRd, h]

/-- The latch that a read of the LO word loads holds the HI word (R140). -/
theorem readHi_setLatch (s : State) (p : Nat) (b : Blk) (o : Nat) : readHi (setLatch s p b o) p b o = regView s b (o + 4) := by
  have hlatch : latchAt (setLatch s p b o) p = some (b.base + o, ctrHi s b o) := smGet_smIns_self _ p _ _
  simp only [readHi, hlatch, if_true, ctrHi]

theorem opCtrRd_reads {b : Blk} {o : Nat} (h : ctrTarget q w.imm.toNat = some (b, o)) : opCtrRd q w s =
    selfSet q w (fun x => putS x w.opd.toNat (BitVec.ofNat 64 ((regView s b o).toNat + (regView s b (o + 4)).toNat * 2 ^ 32)))
      (setNdet (setLatch s (seqPath q) b o) q) := by
  simp only [opCtrRd, h, readHi_setLatch]
  rfl

end Reads

/-- Settles O16: each row acts once it issues, and its action comes to what its checks and its reads give. -/
theorem memoryReadingInstructions : Obligations.MemoryReadingInstructions := by
  refine ⟨fun q w s => ⟨fun h halign hchk hclean => ?_, fun h halign hchk hclean => ?_⟩,
    fun q w s h => ⟨fun hdesc => ?_, fun d hdesc hn => ?_, fun d c fl hdesc hpos hmax hin hread => ?_⟩,
    fun q w s h => ⟨fun htarget => ?_, fun k o htarget => ?_⟩⟩
  · exact (run_ptiSelf_of_issues h).trans (congrArg _ (opLds_reads halign hchk hclean))
  · exact (run_ptiSelf_of_issues h).trans (congrArg _ (opDld_reads halign hchk hclean))
  · exact (run_ptiSelf_of_issues h).trans (congrArg _ (opTagp_invalid hdesc))
  · exact (run_ptiSelf_of_issues h).trans (congrArg _ (opTagp_limit hdesc hn))
  · exact (run_ptiSelf_of_issues h).trans (congrArg _ (opTagp_reads hdesc hpos hmax hin hread))
  · exact (run_ptiSelf_of_issues h).trans (congrArg _ (opCtrRd_none htarget))
  · exact (run_ptiSelf_of_issues h).trans (congrArg _ (opCtrRd_reads htarget))

end Sys2Proof.Machine

/-! ## Sync objects: signals and waits (R17, R182–R187, R213) -/
namespace Sys2Proof.Machine

/-- Settles O19: the difference of two numbers of 32 bits, as a natural number. -/
theorem reachedRule : Obligations.ReachedRule := by
  have reached_iff (v t : Word) : reached v t = true ↔ (v.toNat + 2 ^ 32 - t.toNat) % 2 ^ 32 < 2 ^ 31 := by
    have hv := v.isLt
    have ht := t.isLt
    simp only [reached, decide_eq_true_eq, BitVec.toNat_sub]
    omega
  refine ⟨reached_iff, fun t d hd => ?_, fun v d hpos hd => Bool.eq_false_iff.mpr fun h => ?_, by decide, by decide⟩
  · have ht := t.isLt
    rw [reached_iff, BitVec.toNat_add, BitVec.toNat_ofNat]
    omega
  · have hv := v.isLt
    rw [reached_iff, BitVec.toNat_add, BitVec.toNat_ofNat] at h
    omega

/-! ### SYNC.ADD and SYNC.SET -/

theorem isSysObj_program {i : Nat} (h : i < 4032) : isSysObj i = false := by
  simp [isSysObj, Nat.not_le.mpr h]

theorem isSysObj_system {i : Nat} (h : 4032 ≤ i) (hlt : i < 4096) : isSysObj i = true := by
  simp [isSysObj, h, hlt]

section Send
variable {s : State} {q : Nat} {w : PtiWord}

/-- A signal that a SYNC instruction has behind the transfers of its sequencer. -/
def syHeld (s : State) (q : Nat) (w : PtiWord) (rem : Option Nat) (die : Nat) (isSet : Bool) (v : Word) : HeldSig :=
  { q := q, no := s.opNo, rem := rem, die := die, obj := syObj w, isSet := isSet, val := v, step := (seqAt s q).step,
    pc := (seqAt s q).pc }

section Here
variable (hmodule : syRem w = false) (hdie : dieIn s (syDieOf q w) = true)
include hmodule hdie

theorem syGo_passes (op : PtiOp) (isSet : Bool) (v : Word) : syGo op q w isSet v s = seqNext (sySend q w isSet v s) q := by
  simp only [syGo, hmodule, hdie, Bool.false_and, Bool.not_true, Bool.and_false, Bool.false_eq_true, if_false]

theorem syGo_own (op : PtiOp) (isSet : Bool) (v : Word) (hown : syDieOf q w = q / 64) : syGo op q w isSet v s =
    seqNext (objPut s (syDieOf q w) (syObj w) (if isSet then v else objVal s (syDieOf q w) (syObj w) + v)) q := by
  rw [syGo_passes hmodule hdie]
  cases isSet <;> simp [sySend, hmodule, hown, objAdd]

theorem syGo_otherDie (op : PtiOp) (isSet : Bool) (v : Word) (hother : syDieOf q w ≠ q / 64) :
    syGo op q w isSet v s = seqNext (sendSig s (syHeld s q w none (syDieOf q w) isSet v)) q := by
  rw [syGo_passes hmodule hdie]
  simp [sySend, hmodule, hother, syHeld]

end Here

theorem syGo_otherModule (op : PtiOp) (isSet : Bool) (v : Word) (hmodule : syRem w = true) (hcan : canSend s (syLc w) = true) :
    syGo op q w isSet v s = seqNext (sendSig s (syHeld s q w (some (syLc w)) (syDieOf q w) isSet v)) q := by
  simp [syGo, sySend, hmodule, hcan, syHeld]

/-- What SYNC.ADD adds. -/
def syCount (s : State) (q : Nat) (w : PtiWord) : Nat := if wImmf w then syN w else (sreg (seqAt s q) w.opa.toNat).toNat % 2 ^ 31

theorem opSyncAdd_goes (hobj : syObj w < 4032) (hcount : syCount s q w ≠ 0) :
    opSyncAdd q w s = syGo .syncAdd q w false (BitVec.ofNat 32 (syCount s q w)) s := by
  simp only [opSyncAdd, isSysObj_program hobj, Bool.false_eq_true, if_false]
  exact if_neg hcount

theorem opSyncSet_goes (hobj : syObj w < 4032) (hmodule : syRem w = false) :
    opSyncSet q w s = syGo .syncSet q w true ((sreg (seqAt s q) w.opa.toNat).setWidth 32) s := by
  simp only [opSyncSet, isSysObj_program hobj, hmodule, Bool.false_eq_true, if_false]
  rfl

/-- The fields of Table 7.5 as numbers. -/
theorem syN_eq (w : PtiWord) : syN w = w.imm.toNat / 2 ^ 34 := by
  have := w.imm.isLt
  simp only [syN, bits]
  omega

end Send

/-- Settles O21, by where the object lies: on the own die, on another, on another module. -/
theorem signals : Obligations.Signals := by
  intro q w s b o n v die held
  have hn : n = syCount b q w := by
    simp only [n, syCount, syN_eq, b]
  rw [hn]
  refine ⟨fun h ho hpos hmodule hown hdie => ?_, fun h ho hmodule hown hdie => ?_, fun h ho hpos hmodule hother hdie => ?_,
    fun h ho hmodule hother hdie => ?_, fun h ho hpos hmodule hcan => ?_⟩
  · exact (run_ptiSelf_of_issues h).trans (congrArg _ ((opSyncAdd_goes ho hpos).trans (syGo_own hmodule hdie _ false _ hown)))
  · exact (run_ptiSelf_of_issues h).trans (congrArg _ ((opSyncSet_goes ho hmodule).trans (syGo_own hmodule hdie _ true _ hown)))
  · exact (run_ptiSelf_of_issues h).trans (congrArg _ ((opSyncAdd_goes ho hpos).trans (syGo_otherDie hmodule hdie _ _ _ hother)))
  · exact (run_ptiSelf_of_issues h).trans (congrArg _ ((opSyncSet_goes ho hmodule).trans (syGo_otherDie hmodule hdie _ _ _ hother)))
  · exact (run_ptiSelf_of_issues h).trans (congrArg _ ((opSyncAdd_goes ho hpos).trans (syGo_otherModule _ _ _ hmodule hcan)))

/-! ### WAIT, WAIT.to and SYNC.RD -/

section Wait
variable {s : State} {q : Nat} {w : PtiWord}

/-- The target of a wait (R182, Table 7.5). -/
def waitTarget (s : State) (q : Nat) (w : PtiWord) : Word :=
  if wImmf w then w.imm.extractLsb' 12 32 else (sreg (seqAt s q) w.opa.toNat).setWidth 32

theorem waitTarget_eq (s : State) (q : Nat) (w : PtiWord) :
    (if wImmf w then w32 (syTarget w) else w32 (sreg (seqAt s q) w.opa.toNat).toNat) = waitTarget s q w := by
  unfold waitTarget
  refine if_congr Iff.rfl (BitVec.eq_of_toNat_eq ?_) rfl
  have := w.imm.isLt
  simp [w32, syTarget, bits, BitVec.extractLsb'_toNat, Nat.shiftRight_eq_div_pow]

theorem waitGo_reached {timed : Bool} {tmo : Nat} (h : reached (objVal s (q / 64) (syObj w)) (waitTarget s q w) = true) :
    waitGo q w timed tmo s = waitDone q w.opd.toNat s := by
  simp only [waitGo, waitTarget_eq, h, if_true]

theorem waitGo_stalls {timed : Bool} {tmo : Nat} (h : reached (objVal s (q / 64) (syObj w)) (waitTarget s q w) = false) :
    waitGo q w timed tmo s = setSeq s q { seqAt s q with
      st := .syncWait
      wait := some { obj := syObj w, target := waitTarget s q w, pd := w.opd.toNat, timed := timed,
                     deadline := if timed = false ∨ tmo = 0 then none else some (s.beacon + tmo) } } := by
  simp only [waitGo, waitTarget_eq, h, Bool.false_eq_true, if_false]
  cases timed <;> simp

/-- The object named is on the sequencer's die. -/
theorem syAway_here (hmodule : w.imm.getLsbD 15 = false) (hdie : w.imm.getLsbD 12 = false ∨ w.imm.toNat / 2 ^ 13 % 4 = q / 64) :
    syAway q w = false := by
  have hown : syDieOf q w = q / 64 := by
    unfold syDieOf syXd
    split
    next hx => exact hdie.resolve_left (by simp [hx])
    next => rfl
  have hrem : syRem w = false := hmodule
  simp [syAway, hrem, hown]

theorem notAway (hhere : wImmf w = true ∨ w.imm.getLsbD 15 = false ∧ (w.imm.getLsbD 12 = false ∨ w.imm.toNat / 2 ^ 13 % 4 = q / 64)) :
    (!wImmf w && syAway q w) = false := by
  rcases hhere with himm | ⟨hmodule, hdie⟩
  · simp [himm]
  · simp [syAway_here hmodule hdie]

theorem opWait_here (hhere : (!wImmf w && syAway q w) = false) : opWait q w s = waitGo q w false 0 s := by
  rw [opWait, hhere]
  rfl

theorem opWaitTo_here (hhere : (!wImmf w && syAway q w) = false) (htmo : (sreg (seqAt s q) w.opb.toNat).toNat ≤ 2 ^ 34) :
    opWaitTo q w s = waitGo q w true (sreg (seqAt s q) w.opb.toNat).toNat s := by
  simp only [opWaitTo, hhere, Bool.false_eq_true, if_false]
  exact if_neg (Nat.not_lt.mpr htmo)

theorem opWaitTo_limit (hhere : (!wImmf w && syAway q w) = false) (htmo : 2 ^ 34 < (sreg (seqAt s q) w.opb.toNat).toNat) :
    opWaitTo q w s = selfFail .waitTo q w 0x08 s := by
  simp only [opWaitTo, hhere, Bool.false_eq_true, if_false]
  exact if_pos htmo

theorem opSyncRd_here (hhere : syAway q w = false) : opSyncRd q w s = seqNext (setSeq (setNdet s q) q
    (putS (seqAt (setNdet s q) q) w.opd.toNat ((objVal s (q / 64) (syObj w)).setWidth 64))) q := by
  simp only [opSyncRd, hhere, Bool.false_eq_true, if_false, BitVec.ofNat_toNat]

/-! ### The end of a stalled wait -/

section Ends
variable {i : WaitInfo} (hst : (seqAt s q).st = .syncWait) (hwait : (seqAt s q).wait = some i) (hdie : dieIn s (q / 64) = true)
include hst hwait hdie

theorem opWaitReached_ends (h : reached (objVal s (q / 64) i.obj) i.target = true) : opWaitReached q s = waitDone q i.pd s := by
  simp only [opWaitReached, hwait]
  exact if_pos ⟨hst, hdie, h⟩

theorem opSyncTimeout_expires {d : Nat} (hdeadline : i.deadline = some d) (hdue : d ≤ s.beacon)
    (h : reached (objVal s (q / 64) i.obj) i.target = false) : opSyncTimeout q s = waitExpire q i s := by
  simp only [opSyncTimeout, hwait, hdeadline]
  exact if_pos ⟨hst, hdie, hdue, by rw [h]; rfl⟩

end Ends

theorem waitExpire_writes {i : WaitInfo} (hpd : i.pd ≠ 0) : waitExpire q i s = seqNext (raise (setSeq s q
    { putP (seqAt s q) i.pd false with
      wait := none
      toPred := BitVec.ofNat 8 (setBit (putP (seqAt s q) i.pd false).toPred.toNat i.pd) }) .syncTimeout (whClu q) (seqAt s q).step
      [a32 i.obj, a32 i.target.toNat, a32 (objVal s (q / 64) i.obj).toNat, a64 (seqAt s q).pc]) q := by
  simp only [waitExpire, if_neg hpd]

end Wait

/-- Settles O22: a wait here comes to `waitGo`, which ends at once or stalls; a stalled one ends by its object or its deadline. -/
theorem waitsAndTheirEnds : Obligations.WaitsAndTheirEnds := by
  refine ⟨fun q w s => ⟨fun h hhere hr => ?_, fun h hhere hr => ?_, fun h hhere htmo hr => ?_, fun h hhere htmo hr => ?_,
    fun h hhere htmo => ?_, fun h hmodule hdie => ?_⟩, fun q s i htaint hdie hst hwait => ⟨fun hr => ?_, fun d hd hdue hr hpd => ?_⟩⟩
  · exact (run_ptiSelf_of_issues h).trans (congrArg _ ((opWait_here (notAway hhere)).trans (waitGo_reached hr)))
  · exact (run_ptiSelf_of_issues h).trans (congrArg _ ((opWait_here (notAway hhere)).trans (waitGo_stalls hr)))
  · exact (run_ptiSelf_of_issues h).trans (congrArg _ ((opWaitTo_here (notAway hhere) htmo).trans (waitGo_reached hr)))
  · rw [← taken_beacon s q w]
    refine (run_ptiSelf_of_issues h).trans (congrArg _ ((opWaitTo_here (notAway hhere) htmo).trans ((waitGo_stalls hr).trans ?_)))
    simp only [Bool.true_eq_false, false_or]
    rfl
  · exact (run_ptiSelf_of_issues h).trans (congrArg _ (opWaitTo_limit (notAway hhere) htmo))
  · exact (run_ptiSelf_of_issues h).trans (congrArg _ (opSyncRd_here (syAway_here hmodule hdie)))
  · exact run_eq_of_untainted htaint (opWaitReached_ends hst hwait hdie hr)
  · exact run_eq_of_untainted htaint ((opSyncTimeout_expires hst hwait hdie hd hdue hr).trans (waitExpire_writes hpd))

end Sys2Proof.Machine

/-! ## Changes of a sparse map, entry by entry -/
namespace Sys2Proof.Machine

section Each
variable {α : Type} [DecidableEq α] {d : Nat → α}

/-- Updates at distinct keys act on each key once. -/
theorem smGet_foldl_smUpd {key : Nat → Nat} (hkey : Function.Injective key) (f : Nat → α → α) {l : List Nat} (hl : l.Nodup)
    {m : SMap α} (hm : smWf d m = true) {a : Nat} (ha : a ∈ l) :
    smGet d (l.foldl (fun m a => smUpd d m (key a) (f a)) m) (key a) = f a (smGet d m (key a)) := by
  induction l generalizing m with
  | nil => cases ha
  | cons b r ih =>
    obtain ⟨hb, hr⟩ := List.nodup_cons.mp hl
    have hm' := smWf_smUpd (key b) (f b) hm
    rcases List.mem_cons.mp ha with rfl | har
    · have hrest : OnlyAt d (fun k => ∃ c ∈ r, k = key c) (smUpd d m (key a) (f a))
          (r.foldl (fun m a => smUpd d m (key a) (f a)) (smUpd d m (key a) (f a))) :=
        OnlyAt.foldl (g := fun m => m) (fun m c hc => OnlyAt.put ⟨c, hc, rfl⟩ _) _
      refine (hrest.get hm' ?_).trans (smGet_smPut_self _ _ hm)
      rintro ⟨c, hc, heq⟩
      exact hb (hkey heq ▸ hc)
    · refine (ih hr hm' har).trans (congrArg (f a) (smGet_smPut_ne _ (fun heq => ?_) hm))
      exact hb (hkey heq ▸ har)

end Each

/-! ## The restart after an abandonment (R174) -/

theorem seqAt_opSeqAbandonRestart {s : State} (hseqs : smWf (fun _ => Seq.reset) s.seqs = true) {q : Nat} (hq : q < 256) :
    seqAt (opSeqAbandonRestart s) q = if (seqAt s q).st = .restarting then restartSeq s q (seqAt s q) else seqAt s q := by
  unfold opSeqAbandonRestart seqAt
  dsimp only
  generalize hl : List.range 256 = l
  have hmem : q ∈ l := hl ▸ List.mem_range.mpr hq
  exact smGet_foldl_smUpd (d := fun _ => Seq.reset) (key := fun q => q) Function.injective_id
    (fun q x => if x.st = .restarting then restartSeq s q x else x) (hl ▸ List.nodup_range) hseqs hmem

/-- It changes the sequencers alone. -/
theorem opSeqAbandonRestart_rest (s : State) : (opSeqAbandonRestart s).mem = s.mem ∧ (opSeqAbandonRestart s).regs = s.regs ∧
    (opSeqAbandonRestart s).objs = s.objs ∧ (opSeqAbandonRestart s).steps = s.steps ∧
    (opSeqAbandonRestart s).evt = s.evt := by
  simp only [opSeqAbandonRestart, and_self]

/-- Settles O41: each sequencer is changed once, and where it does not restart it is as it was. -/
theorem restartEffect : Obligations.RestartEffect := by
  intro s htaint hcanon
  obtain ⟨-, -, -, hseqs⟩ := hcanon
  have hrun : exec .seqAbandonRestart s = .next (opSeqAbandonRestart s) := run_of_untainted (bs := []) htaint
  refine ⟨opSeqAbandonRestart s, hrun, fun q hq hother => ?_, fun q hq hrestart => ?_, opSeqAbandonRestart_rest s⟩
  · rw [seqAt_opSeqAbandonRestart hseqs hq, if_neg hother]
  · rw [seqAt_opSeqAbandonRestart hseqs hq, if_pos hrestart]
    exact ⟨rfl, rfl, rfl, rfl, rfl, rfl, rfl⟩

/-! ## A change of a sync object, and the arms that it fires (R182, R185, R502) -/

theorem objKey_inj {d e i j : Nat} (hi : i < 4096) (hj : j < 4096) (h : objKey e j = objKey d i) : e = d ∧ j = i := by
  simp only [objKey] at h
  omega

theorem bitAt_clrBit (v : Word) : bitAt (BitVec.ofNat 32 (clrBit v.toNat 31)).toNat 31 = false := by
  have hv := v.isLt
  simp only [clrBit, bitAt, BitVec.toNat_ofNat, beq_eq_false_iff_ne, beq_iff_eq]
  split <;> omega

section Fire
variable (s : State) (d : Nat)

/-- The control register of an arm. -/
def armReg (d a : Nat) : Nat := Blk.base (.sync d) + (0x10000 + 16 * a)

theorem armReg_injective : Function.Injective (armReg d) := fun a b h => by
  simp only [armReg] at h
  omega

/-- An arm that fires is disarmed. -/
theorem rbit_fireArms {arms : List Nat} (harms : arms.Nodup) (hregs : smWf regRst s.regs = true) {a : Nat} (ha : a ∈ arms) :
    rbit (fireArms s d arms) (.sync d) (0x10000 + 16 * a) 31 = false := by
  have hreg : regAt (fireArms s d arms) (.sync d) (0x10000 + 16 * a) =
      BitVec.ofNat 32 (clrBit (regAt s (.sync d) (0x10000 + 16 * a)).toNat 31) :=
    smGet_foldl_smUpd (armReg_injective d) (fun _ (w : Word) => BitVec.ofNat 32 (clrBit w.toNat 31)) harms hregs ha
  rw [rbit, hreg]
  exact bitAt_clrBit _

theorem fireArms_fired_onlyAt (arms : List Nat) :
    OnlyAt regRst (fun k => ∃ a ∈ arms, k = armReg d a) s.regs (fireArms s d arms).regs :=
  OnlyAt.foldl (g := fun r => r) (fun _ a ha => OnlyAt.put ⟨a, ha, rfl⟩ _) s.regs

end Fire

/-- The arms of a die that fire as object i takes value v. -/
def objHits (s : State) (d i : Nat) (v : Word) : List Nat :=
  (armsDue (smPut (fun _ => 0) s.objs (objKey d i) v) s d).filter (fun a => fld s (.sync d) (0x10000 + 16 * a) 11 0 == i)

theorem objPut_eq (s : State) (d i : Nat) (v : Word) : objPut s d i v =
    fireArms { s with objs := smPut (fun _ => 0) s.objs (objKey d i) v } d (objHits s d i v) := rfl

section Put
variable {s : State} {d i : Nat} {v : Word}

theorem objHits_nodup : (objHits s d i v).Nodup := (List.nodup_range.filter _).filter _

variable (hobjs : smWf (fun _ => (0 : Word)) s.objs = true)
include hobjs

/-- They are the armed arms on the object whose target the value reaches. -/
theorem mem_objHits {a : Nat} : a ∈ objHits s d i v ↔ a < 64 ∧ rbit s (.sync d) (0x10000 + 16 * a) 31 = true ∧
    fld s (.sync d) (0x10000 + 16 * a) 11 0 = i ∧ reached v (regAt s (.sync d) (0x10004 + 16 * a)) = true := by
  simp only [objHits, armsDue, List.mem_filter, List.mem_range, beq_iff_eq, and_assoc]
  refine and_congr_right fun _ => ?_
  have hdue (hobj : fld s (.sync d) (0x10000 + 16 * a) 11 0 = i) :
      armDue (smPut (fun _ => 0) s.objs (objKey d i) v) s d a = (rbit s (.sync d) (0x10000 + 16 * a) 31 &&
        reached v (regAt s (.sync d) (0x10004 + 16 * a))) := by
    have hval := smGet_smPut_self (d := fun _ => (0 : Word)) (objKey d i) v hobjs
    change (_ && reached (smGet _ _ (objKey d (fld s (.sync d) (0x10000 + 16 * a) 11 0))) _) = _
    rw [hobj, hval]
    rfl
  constructor
  · rintro ⟨harm, hobj⟩
    obtain ⟨hset, hreach⟩ := Bool.and_eq_true_iff.mp ((hdue hobj).symm.trans harm)
    exact ⟨hset, hobj, hreach⟩
  · rintro ⟨hset, hobj, hreach⟩
    exact ⟨(hdue hobj).trans (Bool.and_eq_true_iff.mpr ⟨hset, hreach⟩), hobj⟩

theorem objVal_objPut_self : objVal (objPut s d i v) d i = v := smGet_smPut_self (d := fun _ => (0 : Word)) _ v hobjs

theorem objVal_objPut_ne (hi : i < 4096) {e j : Nat} (hj : j < 4096) (hne : e ≠ d ∨ j ≠ i) :
    objVal (objPut s d i v) e j = objVal s e j := by
  refine smGet_smPut_ne (d := fun _ => (0 : Word)) v (fun heq => ?_) hobjs
  obtain ⟨rfl, rfl⟩ := objKey_inj hi hj heq
  exact hne.elim (absurd rfl) (absurd rfl)

end Put

/-! ### Signals -/

section Signal
variable (s : State) (d i n : Nat)

@[simp] theorem objSignal_absent (h : dieIn s d = false) : objSignal s d i n = s := by simp [objSignal, h]

theorem objSignal_system (h : dieIn s d = true) (hi : isSysObj i = true) :
    objSignal s d i n = cnt s (.sync d) rSyncRsvdWrite := by simp [objSignal, h, hi]

theorem objSignal_program (h : dieIn s d = true) (hi : isSysObj i = false) :
    objSignal s d i n = objPut s d i (objVal s d i + BitVec.ofNat 32 n) := by simp [objSignal, objAdd, h, hi]

/-- A signal goes to nothing, to the counter of refused writes or to the object (R28, R187). -/
theorem objSignal_cases : objSignal s d i n = s ∨ (isSysObj i = true ∧ objSignal s d i n = cnt s (.sync d) rSyncRsvdWrite) ∨
    (isSysObj i = false ∧ objSignal s d i n = objPut s d i (objVal s d i + BitVec.ofNat 32 n)) := by
  cases hd : dieIn s d with
  | false => exact .inl (objSignal_absent s d i n hd)
  | true =>
    cases hi : isSysObj i with
    | true => exact .inr (.inl ⟨rfl, objSignal_system s d i n hd hi⟩)
    | false => exact .inr (.inr ⟨rfl, objSignal_program s d i n hd hi⟩)

variable {s d i n} (hobjs : smWf (fun _ => (0 : Word)) s.objs = true)
include hobjs

theorem objVal_objSignal_self (hd : dieIn s d = true) (hi : i < 4032) :
    objVal (objSignal s d i n) d i = objVal s d i + BitVec.ofNat 32 n := by
  rw [objSignal_program s d i n hd (isSysObj_program hi), objVal_objPut_self hobjs]

theorem objVal_objSignal_ne (hi : i < 4096) {e j : Nat} (hj : j < 4096) (hne : e ≠ d ∨ j ≠ i) :
    objVal (objSignal s d i n) e j = objVal s e j := by
  rcases objSignal_cases s d i n with h | ⟨-, h⟩ | ⟨-, h⟩
  · rw [h]
  · rw [h]; rfl
  · rw [h, objVal_objPut_ne hobjs hi hj hne]

end Signal

/-- Settles O20: the arms that fire are those of `mem_objHits`. -/
theorem objectPut : Obligations.ObjectPut := by
  intro s d i v hcanon hi t hit
  obtain ⟨-, hregs, hobjs, -⟩ := hcanon
  have hmem (a : Nat) : a ∈ objHits s d i v ↔ hit a := mem_objHits hobjs
  refine ⟨objVal_objPut_self hobjs, fun e j hj hne => objVal_objPut_ne hobjs hi hj hne, fun a ha => ⟨?_, ?_⟩, fun a _ hnot => ?_,
    fun hnone => ?_, fun a => rfl, rfl⟩
  · exact rbit_fireArms { s with objs := _ } d objHits_nodup hregs ((hmem a).mpr ha)
  · exact List.mem_append_right _ (List.mem_map.mpr ⟨a, (hmem a).mpr ha, rfl⟩)
  · refine (fireArms_fired_onlyAt { s with objs := _ } d (objHits s d i v)).get hregs ?_
    rintro ⟨b, hb, heq⟩
    exact hnot ((hmem a).mp (armReg_injective d heq ▸ hb))
  · have hnil : objHits s d i v = [] := List.eq_nil_iff_forall_not_mem.mpr fun a ha => hnone a ((hmem a).mp ha)
    simp only [t, objPut_eq, hnil, fireArms, List.map_nil, List.append_nil]

/-! ## The end of an instruction of the sequencer (R171, R173) -/

theorem sig_lt (w : PtiWord) : w.sig.toNat < 4096 := w.sig.isLt

theorem signal_off {s : State} {q : Nat} {w : PtiWord} (h : w.sigv = false) : signal s q w = s := by simp [signal, h]

theorem signal_on {s : State} {q : Nat} {w : PtiWord} (h : w.sigv = true) :
    signal s q w = objSignal s (q / 64) w.sig.toNat 1 := by simp [signal, h]

/-- Settles O11: the signal changes no sequencer, and the step to the next word changes nothing else. -/
theorem selfDoneEffect : Obligations.SelfDoneEffect := by
  intro s q w x hcanon t
  have hframe : ScalarFrame q w s t := (setSeq_frame q w s x).trans (selfDone_frame q w _)
  obtain ⟨-, -, hobjs, hseqs⟩ := id hcanon
  have hseqsX : smWf (fun _ => Seq.reset) (setSeq s q x).seqs = true := smWf_smPut _ _ hseqs
  have hsignal := signal_seqs (setSeq s q x) q w
  have hval (d i : Nat) : objVal t d i = objVal (signal (setSeq s q x) q w) d i := rfl
  refine ⟨?_, fun p hp => seqAt_of_onlyAt hcanon hframe.seqs hp, fun a => memB_congr hframe.mem a, fun hsig hdie hi => ?_,
    fun hsig hdie hi => ?_, fun d i hi hne => ?_⟩
  · have hat : seqAt (signal (setSeq s q x) q w) q = x := (seqAt_congr hsignal q).trans (seqAt_setSeq_self _ x hseqs)
    have hnext := seqAt_seqNext (s := signal (setSeq s q x) q w) q (hsignal ▸ hseqsX)
    rw [hat] at hnext
    exact hnext
  · rw [hval, signal_on hsig, objVal_objSignal_self (s := setSeq s q x) hobjs hdie hi]
    rfl
  · have hsys := objSignal_system (setSeq s q x) (q / 64) w.sig.toNat 1 hdie (isSysObj_system hi (sig_lt w))
    have ht : t = seqNext (cnt (setSeq s q x) (.sync (q / 64)) rSyncRsvdWrite) q := by
      rw [← hsys, ← signal_on hsig]
      rfl
    have hobjsT : t.objs = s.objs := (congrArg State.objs ht).trans rfl
    exact ⟨hobjsT, ht⟩
  · rw [hval]
    cases hsig : w.sigv with
    | false => rw [signal_off hsig]; rfl
    | true =>
      rw [signal_on hsig]
      exact objVal_objSignal_ne (s := setSeq s q x) hobjs (sig_lt w) hi (hne.resolve_left (by simp [hsig]))

end Sys2Proof.Machine

/-! ## The end of an engine instruction (R173, R207, R224) -/
namespace Sys2Proof.Machine

/-! ### What its signals change -/

/-- A register of the synchronization windows. -/
def syncReg (k : Nat) : Prop := ∃ d, ∃ x < 0x20000, k = Blk.base (.sync d) + x

theorem not_syncReg_clu {q x : Nat} (hx : x < 0x100) : ¬ syncReg (Blk.base (.clu q) + x) := by
  rintro ⟨d, y, hy, heq⟩
  simp only [Blk.base] at heq
  omega

/-- What a signal leaves as it was, whatever object it names. -/
def sigAside (s : State) : SMap Byte × SMap Seq × List EngOp × BitVec 4 :=
  (s.mem, s.seqs, s.ops, s.dies)

/-- What signals to object i leave as it was. -/
structure SigFrame (i : Nat) (s t : State) : Prop where
  aside : sigAside t = sigAside s
  evt : isSysObj i = false → t.evt = s.evt
  regs : OnlyAt regRst syncReg s.regs t.regs
  objs : OnlyAt (fun _ => (0 : Word)) (fun _ => True) s.objs t.objs
  system : isSysObj i = true → t.objs = s.objs

namespace SigFrame
variable {i : Nat} {s t u : State}

theorem refl (s : State) : SigFrame i s s := ⟨rfl, fun _ => rfl, .refl _, .refl _, fun _ => rfl⟩

theorem trans (h : SigFrame i s t) (h' : SigFrame i t u) : SigFrame i s u where
  aside := h'.aside.trans h.aside
  evt hi := (h'.evt hi).trans (h.evt hi)
  regs := h.regs.trans h'.regs
  objs := h.objs.trans h'.objs
  system hi := (h'.system hi).trans (h.system hi)

theorem mem (h : SigFrame i s t) : t.mem = s.mem := congrArg Prod.fst h.aside
theorem seqs (h : SigFrame i s t) : t.seqs = s.seqs := congrArg (·.2.1) h.aside
theorem ops (h : SigFrame i s t) : t.ops = s.ops := congrArg (·.2.2.1) h.aside
theorem dieIn (h : SigFrame i s t) (d : Nat) : dieIn t d = dieIn s d := congrArg (·.2.2.2.getLsbD d) h.aside

/-- The held signals are none of it. -/
theorem holding (h : SigFrame i s t) (l : List HeldSig) : SigFrame i s { t with sigs := l } := ⟨h.1, h.2, h.3, h.4, h.5⟩

end SigFrame

section Signals
variable {i : Nat} (s : State)

theorem cnt_sync_onlyAt (d : Nat) : OnlyAt regRst syncReg s.regs (cnt s (.sync d) rSyncRsvdWrite).regs := by
  have hcount : syncReg (Blk.base (.sync d) + rSyncRsvdWrite) := ⟨d, _, by decide, rfl⟩
  have hsat : syncReg (Blk.base (.sync d) + 0x11008) := ⟨d, _, by decide, rfl⟩
  have hof : Blk.satOf (.sync d) rSyncRsvdWrite = some (0x11008, 0) := rfl
  unfold cnt cntAdd
  dsimp only
  rw [hof]
  dsimp only
  split
  · exact (OnlyAt.put hcount _).trans (OnlyAt.put hsat _)
  · exact OnlyAt.put hcount _

theorem objPut_sigFrame (d : Nat) (v : Word) (hi : isSysObj i = false) : SigFrame i s (objPut s d i v) where
  aside := rfl
  evt _ := rfl
  regs := (fireArms_onlyAt { s with objs := _ } d fun _ ha => armsDue_lt s (List.mem_filter.mp ha).1).mono
    fun k hk => by
      obtain ⟨a, ha, rfl⟩ := hk
      exact ⟨d, 0x10000 + 16 * a, by omega, rfl⟩
  objs := .put trivial v
  system h := absurd (hi.symm.trans h) Bool.false_ne_true

theorem objSignal_sigFrame (d n : Nat) : SigFrame i s (objSignal s d i n) := by
  rcases objSignal_cases s d i n with h | ⟨hi, h⟩ | ⟨hi, h⟩
  · rw [h]
    exact .refl s
  · exact h ▸ ⟨rfl, fun hn => absurd (hi.symm.trans hn) Bool.noConfusion, cnt_sync_onlyAt s d, .refl _, fun _ => rfl⟩
  · exact h ▸ objPut_sigFrame s d _ hi

theorem objSignal_sigs (d n : Nat) : (objSignal s d i n).sigs = s.sigs := by
  rcases objSignal_cases s d i n with h | ⟨-, h⟩ | ⟨-, h⟩ <;> rw [h] <;> rfl

/-- A held signal of this module that adds to object i. -/
def addsHere (i : Nat) (g : HeldSig) : Prop := g.rem = none ∧ g.isSet = false ∧ g.obj = i

theorem deliverSig_addsHere {g : HeldSig} (hg : addsHere i g) : deliverSig s g = objSignal s g.die i g.val.toNat := by
  obtain ⟨hrem, hset, hobj⟩ := hg
  simp only [deliverSig, hrem, hset, hobj, Bool.false_eq_true, if_false]

/-- Where every held signal adds to object i, their release changes no more than signals to it do. -/
theorem releaseGo_sigFrame {l kept : List HeldSig} (hl : ∀ g ∈ l, addsHere i g) (hkept : ∀ g ∈ kept, addsHere i g) :
    SigFrame i s (releaseGo l kept s) ∧ ∀ g ∈ (releaseGo l kept s).sigs, addsHere i g := by
  induction l generalizing kept s with
  | nil => exact ⟨(SigFrame.refl s).holding _, fun g hg => hkept g (List.mem_reverse.mp hg)⟩
  | cons g r ih =>
    obtain ⟨hg, hr⟩ := List.forall_mem_cons.mp hl
    rw [releaseGo]
    split
    · exact ih s hr (List.forall_mem_cons.mpr ⟨hg, hkept⟩)
    · obtain ⟨hrest, hheld⟩ := ih (deliverSig s g) hr hkept
      exact ⟨(deliverSig_addsHere s hg ▸ objSignal_sigFrame s _ _ : SigFrame i s (deliverSig s g)).trans hrest, hheld⟩

theorem releaseSigs_sigFrame (h : ∀ g ∈ s.sigs, addsHere i g) :
    SigFrame i s (releaseSigs s) ∧ ∀ g ∈ (releaseSigs s).sigs, addsHere i g :=
  releaseGo_sigFrame s h (fun _ hg => absurd hg List.not_mem_nil)

end Signals

section Mcast
variable (o : EngOp)

/-- The signal that an XFER.MCAST sends to another die of its mask (R224). -/
def mcastHeld (d : Nat) : HeldSig :=
  { q := o.q, no := o.no, rem := none, die := d, obj := o.w.sig.toNat, isSet := false, val := 1, step := o.step, pc := o.pc }

theorem mcastHeld_addsHere (d : Nat) : addsHere o.w.sig.toNat (mcastHeld o d) := ⟨rfl, rfl, rfl⟩

theorem mcastSignal_own (s : State) : mcastSignal o s (o.q / 64) = objSignal s (o.q / 64) o.w.sig.toNat 1 := if_pos rfl

theorem mcastSignal_other (s : State) {d : Nat} (h : d ≠ o.q / 64) :
    mcastSignal o s d = { s with sigs := sigInsert (mcastHeld o d) s.sigs } := if_neg h

theorem mem_sigInsert {g h : HeldSig} {l : List HeldSig} : g ∈ sigInsert h l ↔ g = h ∨ g ∈ l := by
  induction l with
  | nil => simp [sigInsert]
  | cons a r ih =>
    rw [sigInsert]
    split
    · simp
    · simp [ih, or_left_comm]

theorem sigInsert_last {g : HeldSig} {l : List HeldSig} (h : ∀ x ∈ l, x.no ≤ g.no) : sigInsert g l = l ++ [g] := by
  induction l with
  | nil => rfl
  | cons a r ih =>
    obtain ⟨ha, hr⟩ := List.forall_mem_cons.mp h
    rw [sigInsert, if_neg (Nat.not_lt.mpr ha), ih hr, List.cons_append]

theorem mcastSignal_sigFrame (s : State) (d : Nat) (h : ∀ g ∈ s.sigs, addsHere o.w.sig.toNat g) :
    SigFrame o.w.sig.toNat s (mcastSignal o s d) ∧ ∀ g ∈ (mcastSignal o s d).sigs, addsHere o.w.sig.toNat g := by
  by_cases hd : d = o.q / 64
  · subst hd
    rw [mcastSignal_own, objSignal_sigs]
    exact ⟨objSignal_sigFrame s _ _, h⟩
  · rw [mcastSignal_other o s hd]
    refine ⟨(SigFrame.refl s).holding _, fun g hg => ?_⟩
    rcases mem_sigInsert.mp hg with rfl | hg
    · exact mcastHeld_addsHere o d
    · exact h g hg

theorem foldl_mcastSignal_sigFrame (l : List Nat) (s : State) (h : ∀ g ∈ s.sigs, addsHere o.w.sig.toNat g) :
    SigFrame o.w.sig.toNat s (l.foldl (mcastSignal o) s) ∧
      ∀ g ∈ (l.foldl (mcastSignal o) s).sigs, addsHere o.w.sig.toNat g := by
  induction l generalizing s with
  | nil => exact ⟨.refl s, h⟩
  | cons d r ih =>
    obtain ⟨hfirst, hheld⟩ := mcastSignal_sigFrame o s d h
    obtain ⟨hrest, hend⟩ := ih _ hheld
    exact ⟨hfirst.trans hrest, hend⟩

theorem opSignal_sigFrame (s : State) (h : ∀ g ∈ s.sigs, addsHere o.w.sig.toNat g) :
    SigFrame o.w.sig.toNat s (opSignal s o) ∧ ∀ g ∈ (opSignal s o).sigs, addsHere o.w.sig.toNat g := by
  unfold opSignal
  split
  · split
    · obtain ⟨hsend, hheld⟩ := foldl_mcastSignal_sigFrame o ((List.range 4).filter (fun d => o.w.imm.getLsbD d)) s h
      obtain ⟨hrelease, hend⟩ := releaseSigs_sigFrame _ hheld
      exact ⟨hsend.trans hrelease, hend⟩
    · exact ⟨objSignal_sigFrame s _ _, objSignal_sigs s _ _ ▸ h⟩
  · exact ⟨.refl s, h⟩

/-- The signals of an instruction that completes, and what they set free. -/
theorem completionSignals_sigFrame (s : State) (h : s.sigs = []) : SigFrame o.w.sig.toNat s (releaseSigs (opSignal s o)) := by
  obtain ⟨hsend, hheld⟩ := opSignal_sigFrame o s (h ▸ fun _ hg => absurd hg List.not_mem_nil)
  exact hsend.trans (releaseSigs_sigFrame _ hheld).1

end Mcast

/-! ### How often each die's object is signalled -/

/-- From one state to another, object i of each die of D in service has received 1, and that of any other die nothing. -/
structure Received (i : Nat) (D : Nat → Prop) (s t : State) : Prop where
  frame : SigFrame i s t
  added : ∀ d, D d → dieIn s d = true → objVal t d i = objVal s d i + 1
  kept : ∀ d, ¬ (D d ∧ dieIn s d = true) → objVal t d i = objVal s d i

namespace Received
variable {i : Nat} {D E : Nat → Prop} {s t : State}

theorem refl (s : State) (h : ∀ d, ¬ D d) : Received i D s s := ⟨.refl s, fun d hd => absurd hd (h d), fun _ _ => rfl⟩

theorem congr (h : Received i D s t) (hD : ∀ d, E d ↔ D d) : Received i E s t :=
  ⟨h.frame, fun d hd => h.added d ((hD d).mp hd), fun d hd => h.kept d fun ⟨hDd, hdie⟩ => hd ⟨(hD d).mpr hDd, hdie⟩⟩

theorem holding (h : Received i D s t) (l : List HeldSig) : Received i D s { t with sigs := l } :=
  ⟨h.frame.holding l, h.added, h.kept⟩

variable (hobjs : smWf (fun _ => (0 : Word)) s.objs = true) (hi : i < 4032)
include hobjs hi

/-- One more die. -/
theorem signal (h : Received i D s t) {d : Nat} (hd : ¬ D d) (hE : ∀ e, E e ↔ e = d ∨ D e) :
    Received i E s (objSignal t d i 1) := by
  have hi' : i < 4096 := by omega
  have hwf := h.frame.objs.wf hobjs
  have hother {e : Nat} (hne : e ≠ d) : objVal (objSignal t d i 1) e i = objVal t e i :=
    objVal_objSignal_ne hwf hi' hi' (.inl hne)
  refine ⟨h.frame.trans (objSignal_sigFrame t d 1), fun e he hdie => ?_, fun e he => ?_⟩
  · rcases (hE e).mp he with rfl | hDe
    · rw [objVal_objSignal_self hwf ((h.frame.dieIn e).trans hdie) hi, h.kept e fun ⟨hDe, _⟩ => hd hDe]
      rfl
    · rw [hother fun heq => hd (heq ▸ hDe), h.added e hDe hdie]
  · by_cases heq : e = d
    · subst heq
      have hout : dieIn s e = false := Bool.eq_false_iff.mpr fun hdie => he ⟨(hE e).mpr (.inl rfl), hdie⟩
      rw [objSignal_absent _ _ _ _ ((h.frame.dieIn e).trans hout), h.kept e fun ⟨hDe, _⟩ => hd hDe]
    · rw [hother heq, h.kept e fun ⟨hDe, hdie⟩ => he ⟨(hE e).mpr (.inr hDe), hdie⟩]

end Received

section Deliver
variable {o : EngOp} {s : State} (hobjs : smWf (fun _ => (0 : Word)) s.objs = true) (hi : o.w.sig.toNat < 4032)
include hobjs hi

/-- The object of the own die is signalled at once, and the others wait in the order of the mask. -/
theorem foldl_mcastSignal_received {l : List Nat} (hl : l.Nodup) (hsigs : s.sigs = []) :
    Received o.w.sig.toNat (fun d => d ∈ l ∧ d = o.q / 64) s (l.foldl (mcastSignal o) s) ∧
      (l.foldl (mcastSignal o) s).sigs = (l.filter (· ≠ o.q / 64)).map (mcastHeld o) := by
  induction l using List.reverseRecOn with
  | nil => exact ⟨.refl s (by simp), hsigs⟩
  | append_singleton r d ih =>
    obtain ⟨hr, hd⟩ : r.Nodup ∧ d ∉ r := by
      have := List.nodup_append'.mp hl
      exact ⟨this.1, fun h => this.2.2 h (List.mem_singleton_self d)⟩
    obtain ⟨hrec, hheld⟩ := ih hr
    rw [List.foldl_concat, List.filter_append, List.map_append, ← hheld]
    by_cases hown : d = o.q / 64
    · subst hown
      rw [mcastSignal_own]
      refine ⟨hrec.signal hobjs hi (fun h => hd h.1) fun e => ?_, ?_⟩
      · simp only [List.mem_append, List.mem_singleton]
        tauto
      · simp [objSignal_sigs]
    · rw [mcastSignal_other o _ hown]
      refine ⟨(hrec.congr fun e => ?_).holding _, ?_⟩
      · simp only [List.mem_append, List.mem_singleton]
        refine ⟨fun ⟨he, heq⟩ => ⟨he.resolve_right fun h => hown (h ▸ heq), heq⟩, fun ⟨he, heq⟩ => ⟨.inl he, heq⟩⟩
      · refine (sigInsert_last fun x hx => ?_).trans (by simp [hown])
        rw [hheld] at hx
        obtain ⟨e, -, rfl⟩ := List.mem_map.mp hx
        exact le_rfl

/-- Nothing of the sequencer is before the instruction, so nothing holds its signals back. -/
theorem releaseGo_received {l : List Nat} {D : Nat → Prop} {t : State} (hl : l.Nodup) (hD : ∀ d ∈ l, ¬ D d)
    (hrec : Received o.w.sig.toNat D s t) (hfirst : ∀ p ∈ s.ops, p.q = o.q → o.no ≤ p.no) :
    Received o.w.sig.toNat (fun d => D d ∨ d ∈ l) s (releaseGo (l.map (mcastHeld o)) [] t) ∧
      (releaseGo (l.map (mcastHeld o)) [] t).sigs = [] := by
  induction l generalizing D t with
  | nil => exact ⟨(hrec.congr (by simp)).holding _, rfl⟩
  | cons d r ih =>
    obtain ⟨hd, hr⟩ := List.nodup_cons.mp hl
    have hfree : sigBlocked t (mcastHeld o d) = false := by
      simp only [sigBlocked, hrec.frame.ops, List.any_eq_false]
      intro p hp hblock
      simp only [Bool.and_eq_true, decide_eq_true_eq] at hblock
      obtain ⟨⟨⟨hq, hno⟩, -⟩, -⟩ := hblock
      exact absurd (hfirst p hp hq) (Nat.not_le.mpr hno)
    rw [List.map_cons, releaseGo, hfree, if_neg (by simp), deliverSig_addsHere t (mcastHeld_addsHere o d)]
    have hstep := hrec.signal hobjs hi (hD d (.head r)) (E := fun e => e = d ∨ D e) fun e => Iff.rfl
    obtain ⟨hend, hnone⟩ := ih hr (fun e he h => h.elim (fun heq => hd (heq ▸ he)) (hD e (.tail d he))) hstep
    refine ⟨hend.congr fun e => ?_, hnone⟩
    simp only [List.mem_cons]
    tauto

/-- A multicast signals the object of each die of its mask once (R224). -/
theorem mcastSignals_received (hsig : o.w.sigv = true) (hop : o.op = .xferMcast) (hsigs : s.sigs = [])
    (hfirst : ∀ p ∈ s.ops, p.q = o.q → o.no ≤ p.no) :
    Received o.w.sig.toNat (fun d => d < 4 ∧ o.w.imm.getLsbD d = true) s (releaseSigs (opSignal s o)) := by
  have hl : ((List.range 4).filter (fun d => o.w.imm.getLsbD d)).Nodup := List.nodup_range.filter _
  obtain ⟨hsend, hheld⟩ := foldl_mcastSignal_received (o := o) hobjs hi hl hsigs
  obtain ⟨hall, hnone⟩ := releaseGo_received hobjs hi (hl.filter _)
    (fun d hd h => absurd h.2 (of_decide_eq_true (List.mem_filter.mp hd).2)) hsend hfirst
  rw [opSignal, if_pos hsig, if_pos hop, releaseSigs, releaseSigs, hheld, hnone]
  refine (hall.congr fun d => ?_).holding _
  simp only [List.mem_filter, List.mem_range, decide_eq_true_eq]
  tauto

end Deliver

/-! ### The status, and the completion as a whole -/

/-- The instruction has left its queue and its status is recorded. -/
def completing (s : State) (o : EngOp) (st wh : Nat) : State :=
  clearStat (failStatusAt (dropOp (if o.phase = .sent then s else turnTo s o) o.no) o.q wh st o.pc o.step []) (.op o.no)

theorem completeOpAt_eq (s : State) (o : EngOp) (st wh : Nat) :
    completeOpAt s o st wh = releaseSigs (opSignal (completing s o st wh) o) := rfl

/-- What the record of a status leaves as it was. -/
def statusAside (s : State) : SMap Byte × SMap Word × List HeldSig × BitVec 4 := (s.mem, s.objs, s.sigs, s.dies)

/-- The error record is of registers, and marks the sequencer. -/
theorem recErr_changes (s : State) (q st pc : Nat) : ∃ r x, recErr s q st pc = { s with regs := r, seqs := x } := ⟨_, _, rfl⟩

section Record
variable (s : State) (q wh pc step : Nat) (args : List EArg) {st : Nat}

theorem failStatusAt_zero : failStatusAt s q wh 0 pc step args = s := if_pos rfl

/-- A status changes registers, sequencers and events alone. -/
theorem failStatusAt_changes : ∃ r x e, failStatusAt s q wh st pc step args = { s with regs := r, seqs := x, evt := e } := by
  obtain ⟨r, x, h⟩ := recErr_changes s q st pc
  rw [failStatusAt, h]
  split
  · exact ⟨s.regs, s.seqs, s.evt, rfl⟩
  · exact ⟨r, x, _, rfl⟩

theorem failStatusAt_regs (hst : st ≠ 0) : (failStatusAt s q wh st pc step args).regs = (recErr s q st pc).regs := by
  rw [failStatusAt, if_neg hst]

theorem failStatusAt_evt {ev : Ev} (hst : st ≠ 0) (hev : statusEv st = some ev) :
    (failStatusAt s q wh st pc step args).evt = evtPush s.evt s.beacon s.epoch ev wh step args := by
  obtain ⟨r, x, h⟩ := recErr_changes s q st pc
  rw [failStatusAt, if_neg hst, hev, h]

end Record

theorem recErr_regs_congr {s t : State} (h : t.regs = s.regs) (q st pc : Nat) :
    (recErr t q st pc).regs = (recErr s q st pc).regs := by
  have hat (x : Nat) : regAt t (.clu q) x = regAt s (.clu q) x := congrArg (smGet regRst · _) h
  unfold recErr fld
  dsimp only
  rw [hat, hat, h]

section Completing
variable (s : State) (o : EngOp) (st wh : Nat)

/-- The instruction has left its queue, and one that did not begin on its own has taken its turn. -/
def departing (s : State) (o : EngOp) : State := dropOp (if o.phase = .sent then s else turnTo s o) o.no

/-- The queue of its engine and the turn are all that its leaving changes. -/
theorem departing_eq : ∃ rr, departing s o = { s with ops := s.ops.filter (fun x => x.no != o.no), rr := rr } := by
  unfold departing
  split
  · exact ⟨s.rr, rfl⟩
  · exact ⟨_, rfl⟩

theorem completing_eq : completing s o st wh =
    clearStat (failStatusAt (departing s o) o.q wh st o.pc o.step []) (.op o.no) := rfl

theorem completing_aside : statusAside (completing s o st wh) = statusAside s := by
  obtain ⟨rr, h⟩ := departing_eq s o
  obtain ⟨r, x, e, hfail⟩ := failStatusAt_changes (departing s o) o.q wh o.pc o.step [] (st := st)
  rw [completing_eq, hfail, h]
  rfl

theorem completing_ops : (completing s o st wh).ops = s.ops.filter (fun x => x.no != o.no) := by
  obtain ⟨rr, h⟩ := departing_eq s o
  obtain ⟨r, x, e, hfail⟩ := failStatusAt_changes (departing s o) o.q wh o.pc o.step [] (st := st)
  rw [completing_eq, hfail, h]
  rfl

theorem completing_done : (completing s o 0 wh).evt = s.evt ∧ (completing s o 0 wh).seqs = s.seqs ∧
    (completing s o 0 wh).regs = s.regs := by
  obtain ⟨rr, h⟩ := departing_eq s o
  rw [completing_eq, failStatusAt_zero, h]
  exact ⟨rfl, rfl, rfl⟩

variable {st}

theorem completing_evt {ev : Ev} (hst : st ≠ 0) (hev : statusEv st = some ev) :
    (completing s o st wh).evt = evtPush s.evt s.beacon s.epoch ev wh o.step [] := by
  obtain ⟨rr, h⟩ := departing_eq s o
  calc (completing s o st wh).evt
      = (failStatusAt (departing s o) o.q wh st o.pc o.step []).evt := rfl
    _ = _ := failStatusAt_evt _ _ _ _ _ _ hst hev
    _ = _ := by rw [h]

theorem completing_regs (hst : st ≠ 0) : (completing s o st wh).regs = (recErr s o.q st o.pc).regs := by
  obtain ⟨rr, h⟩ := departing_eq s o
  calc (completing s o st wh).regs
      = (failStatusAt (departing s o) o.q wh st o.pc o.step []).regs := rfl
    _ = (recErr (departing s o) o.q st o.pc).regs := failStatusAt_regs _ _ _ _ _ _ hst
    _ = _ := recErr_regs_congr (by rw [h]) ..

end Completing

theorem bitAt_setBit (v : Nat) {n : Nat} (hn : n < 32) : bitAt (BitVec.ofNat 32 (setBit v n)).toNat n = true := by
  have hset : (BitVec.ofNat 32 (setBit v n)).toNat.testBit n = true := by
    rw [BitVec.toNat_ofNat, Nat.testBit_mod_two_pow, decide_eq_true hn, setBit, Nat.testBit_or, Nat.testBit_two_pow_self]
    simp
  simpa [bitAt, Nat.testBit_eq_decide_div_mod_eq] using hset

section RecErr
variable {s : State} {q st pc : Nat} (hregs : smWf regRst s.regs = true)
include hregs

theorem recErr_wf : smWf regRst (recErr s q st pc).regs = true := by
  unfold recErr
  dsimp only
  exact smWf_smUpd _ _ (smWf_smPut _ _ (smWf_smPut _ _ hregs))

/-- The first error is recorded with its address (R207). -/
theorem regAt_recErr_err (hfirst : fld s (.clu q) rCluSeqErr 31 24 = 0) : regAt (recErr s q st pc) (.clu q) rCluSeqErr =
    BitVec.ofNat 32 (st % 256 * 16777216 + pc / 16 % 16777216) := by
  have hpending : decide (fld s (.clu q) rCluSeqErr 31 24 ≠ 0) = false := decide_eq_false (not_not.mpr hfirst)
  have h1 := smWf_smPut (d := regRst) (Blk.base (.clu q) + rCluSeqErr)
    (BitVec.ofNat 32 (st % 256 * 16777216 + pc / 16 % 16777216)) hregs
  have h2 := smWf_smPut (d := regRst) (Blk.base (.clu q) + rCluSeqErrpcHi) (BitVec.ofNat 32 (pc / 268435456 % 1048576)) h1
  simp only [regAt, recErr, hpending, Bool.false_eq_true, if_false, smUpd]
  rw [smGet_smPut_ne _ (by simp) h2, smGet_smPut_ne _ (by simp) h1, smGet_smPut_self _ _ hregs]

theorem rbit_recErr_status : rbit (recErr s q st pc) (.clu q) rCluSeqStatus 9 = true := by
  unfold rbit regAt recErr smUpd
  rw [smGet_smPut_self _ _ (smWf_smPut _ _ (smWf_smPut _ _ hregs))]
  exact bitAt_setBit _ (by decide)

end RecErr

section Quiet
variable {s : State} (o : EngOp) (hsigs : s.sigs = [])
include hsigs

theorem releaseSigs_none : releaseSigs s = { s with sigs := [] } := by
  rw [releaseSigs, hsigs]
  rfl

theorem completionSignals_off (h : o.w.sigv = false) : releaseSigs (opSignal s o) = { s with sigs := [] } := by
  rw [opSignal, h, if_neg Bool.false_ne_true, releaseSigs_none hsigs]

theorem completionSignals_single (h : o.w.sigv = true) (hop : o.op ≠ .xferMcast) : releaseSigs (opSignal s o) =
    { objSignal s (o.q / 64) o.w.sig.toNat 1 with sigs := [] } := by
  rw [opSignal, if_pos h, if_neg hop, releaseSigs_none ((objSignal_sigs s _ _).trans hsigs)]

theorem completionSignals_objs (h : o.w.sigv = false ∨ 4032 ≤ o.w.sig.toNat) :
    (releaseSigs (opSignal s o)).objs = s.objs := by
  rcases h with hoff | hsys
  · rw [completionSignals_off o hsigs hoff]
  · exact (completionSignals_sigFrame o s hsigs).system (isSysObj_system hsys (sig_lt o.w))

theorem completionSignals_evt (h : o.w.sigv = false ∨ o.w.sig.toNat < 4032) :
    (releaseSigs (opSignal s o)).evt = s.evt := by
  rcases h with hoff | hprogram
  · rw [completionSignals_off o hsigs hoff]
  · exact (completionSignals_sigFrame o s hsigs).evt (isSysObj_program hprogram)

end Quiet

/-- The fields of an error record. -/
theorem bits_errRecord {st pc : Nat} (hst : st < 256) :
    bits (BitVec.ofNat 32 (st % 256 * 16777216 + pc / 16 % 16777216)).toNat 31 24 = st ∧
      bits (BitVec.ofNat 32 (st % 256 * 16777216 + pc / 16 % 16777216)).toNat 23 0 = pc / 16 % 2 ^ 24 := by
  simp only [bits, BitVec.toNat_ofNat]
  omega

/-- Settles O25: the status is recorded as the instruction leaves its queue, and its signals change no register of a cluster. -/
theorem completionEffect : Obligations.CompletionEffect := by
  intro s o st hcanon hsigs hst t
  obtain ⟨-, hregs, hobjs, -⟩ := hcanon
  let u := completing s o st (whClu o.q)
  have ht : t = releaseSigs (opSignal u o) := completeOpAt_eq s o st (whClu o.q)
  have haside : statusAside u = statusAside s := completing_aside s o st (whClu o.q)
  simp only [statusAside, Prod.mk.injEq] at haside
  obtain ⟨humem, huobjs, husigs, hudies⟩ := haside
  have huops : u.ops = s.ops.filter (fun x => x.no != o.no) := completing_ops s o st (whClu o.q)
  have husigs' : u.sigs = [] := husigs.trans hsigs
  have huwf : smWf (fun _ => (0 : Word)) u.objs = true := huobjs ▸ hobjs
  have hdie (d : Nat) : dieIn u d = dieIn s d := congrArg (·.getLsbD d) hudies
  have hval (d i : Nat) : objVal u d i = objVal s d i := congrArg (smGet (fun _ => 0) · (objKey d i)) huobjs
  have hframe : SigFrame o.w.sig.toNat u t := ht ▸ completionSignals_sigFrame o u husigs'
  refine ⟨hframe.ops.trans huops, fun a => memB_congr (hframe.mem.trans humem) a, fun hsig hi hop hin => ?_,
    fun hsig hi hop hfirst d hd => ?_, fun hquiet => ?_, fun hzero hquiet => ?_, fun hne hq hfree => ?_,
    fun ev hne hev hquiet => ?_⟩
  · rw [ht, completionSignals_single o husigs' hsig hop, ← hval]
    exact objVal_objSignal_self huwf ((hdie _).trans hin) hi
  · have hufirst : ∀ p ∈ u.ops, p.q = o.q → o.no ≤ p.no := fun p hp =>
      hfirst p (List.mem_of_mem_filter (huops ▸ hp))
    have hrec := mcastSignals_received huwf hi hsig hop husigs' hufirst
    rw [← hval, ht]
    split
    next hin =>
      obtain ⟨hmask, hin⟩ := Bool.and_eq_true_iff.mp hin
      exact hrec.added d ⟨hd, hmask⟩ ((hdie d).trans hin)
    next hout => exact hrec.kept d fun ⟨⟨_, hmask⟩, hin⟩ => hout (Bool.and_eq_true_iff.mpr ⟨hmask, (hdie d).symm.trans hin⟩)
  · rw [ht, completionSignals_objs o husigs' hquiet, huobjs]
  · subst hzero
    obtain ⟨hevt, hseqs, -⟩ := completing_done s o (whClu o.q)
    exact ⟨(ht ▸ completionSignals_evt o husigs' hquiet).trans hevt, hframe.seqs.trans hseqs⟩
  · have huregs : u.regs = (recErr s o.q st o.pc).regs := completing_regs s o (whClu o.q) hne
    have hkeep {x : Nat} (hx : x < 0x100) : regAt t (.clu o.q) x = regAt (recErr s o.q st o.pc) (.clu o.q) x :=
      (hframe.regs.get (huregs ▸ recErr_wf hregs) (not_syncReg_clu hx)).trans (congrArg (smGet regRst · _) huregs)
    have herr := (hkeep (x := rCluSeqErr) (by decide)).trans (regAt_recErr_err hregs hfree)
    obtain ⟨hcode, haddr⟩ := bits_errRecord (st := st) (pc := o.pc) hst
    rw [fld, fld, rbit, herr, hkeep (x := rCluSeqStatus) (by decide)]
    exact ⟨hcode, haddr, rbit_recErr_status hregs⟩
  · rw [ht, completionSignals_evt o husigs' hquiet]
    exact completing_evt s o (whClu o.q) hne hev

end Sys2Proof.Machine

/-! ## Engines: whose turn it is, and what its completion does (R127, R128, R172, R173, R223, R226, R348) -/
namespace Sys2Proof.Machine

/-! ### Round robin -/

/-- How far a sequencer's turn is after the one last served. -/
def rrDist (last : Nat) (o : EngOp) : Nat := (o.q + 256 - (last + 1)) % 256

theorem rrDist_eq (last : Nat) (o : EngOp) : rrDist last o = (o.q + 255 - last) % 256 :=
  congrArg (· % 256) (Nat.add_sub_add_right (o.q + 255) 1 last)

/-- A further candidate takes the turn where it is nearer than those before it. -/
theorem rrPick_concat (last : Nat) (os : List EngOp) (o : EngOp) :
    rrPick last (os ++ [o]) = some ((rrPick last os).elim o (fun p => if rrDist last o < rrDist last p then o else p)) := by
  rw [rrPick, List.foldl_append, List.foldl_cons, List.foldl_nil, ← rrPick]
  cases rrPick last os with
  | none => rfl
  | some p => exact (apply_ite some _ _ _).symm

theorem rrPick_eq_none {last : Nat} {os : List EngOp} (h : rrPick last os = none) : os = [] := by
  cases os using List.reverseRecOn with
  | nil => rfl
  | append_singleton os o => cases (rrPick_concat last os o).symm.trans h

/-- The turn goes to the nearest. -/
theorem rrPick_nearest {last : Nat} {os : List EngOp} {o : EngOp} (h : rrPick last os = some o) :
    o ∈ os ∧ ∀ p ∈ os, rrDist last o ≤ rrDist last p := by
  induction os using List.reverseRecOn generalizing o with
  | nil => cases h
  | append_singleton os x ih =>
    have ho := Option.some.inj ((rrPick_concat last os x).symm.trans h)
    simp only [List.mem_append, List.mem_singleton, ← ho]
    cases hp : rrPick last os with
    | none => simp [rrPick_eq_none hp]
    | some p =>
      obtain ⟨hmem, hmin⟩ := ih hp
      by_cases hlt : rrDist last x < rrDist last p
      · simp only [Option.elim, if_pos hlt, or_true, true_and]
        rintro r (hr | rfl)
        · exact Nat.le_trans (Nat.le_of_lt hlt) (hmin r hr)
        · exact Nat.le_refl _
      · simp only [Option.elim, if_neg hlt, hmem, true_or, true_and]
        rintro r (hr | rfl)
        · exact hmin r hr
        · exact Nat.not_lt.mp hlt

theorem engPick_eq_some {s : State} {e : Eng} {ok : EngOp → Bool} {o : EngOp} (h : engPick s e ok = some o) :
    engUp s e = true ∧ rrPick (smGet (fun _ => 0) s.rr (engKey e)) ((engHeads s e).filter ok) = some o := by
  unfold engPick at h
  split at h
  · cases h
  next hup => exact ⟨by simpa using hup, h⟩

/-- An instruction at the head of its queue: none of its sequencer's in the engine is earlier. -/
theorem mem_engHeads {s : State} {e : Eng} {o : EngOp} : o ∈ engHeads s e ↔
    o ∈ s.ops ∧ o.eng = e ∧ ∀ p ∈ s.ops, p.eng = e → p.q = o.q → o.no ≤ p.no := by
  simp only [engHeads, List.mem_filter, Bool.and_eq_true, beq_iff_eq, Bool.not_eq_true', List.any_eq_false, decide_eq_true_eq,
    not_and, Nat.not_lt, and_imp]

/-- Settles O28: a head is picked, and none of the heads is nearer. -/
theorem roundRobin : Obligations.RoundRobin := by
  intro s e ok o h
  obtain ⟨hup, hpick⟩ := engPick_eq_some h
  obtain ⟨hmem, hnearest⟩ := rrPick_nearest hpick
  obtain ⟨hhead, hok⟩ := List.mem_filter.mp hmem
  obtain ⟨hops, heng, hfirst⟩ := mem_engHeads.mp hhead
  simp only [rrDist_eq] at hnearest
  exact ⟨hops, heng, hok, hup, hfirst, fun p hp hpok => hnearest p (List.mem_filter.mpr ⟨hp, hpok⟩)⟩

/-! ### Completions -/

section Completes
variable {s : State} {o : EngOp}

theorem opVecComplete_runs {q : Nat} {e : EngEnv} (h : engPick s (.vec q) (fun _ => true) = some o) : opVecComplete q e s =
    completeOp (vecPred (vecDual (memEnv s (opCx o true) e.errs e.reread) o e).1 o
      (vecDual (memEnv s (opCx o true) e.errs e.reread) o e).2.2) o (vecDual (memEnv s (opCx o true) e.errs e.reread) o e).2.1 := by
  simp only [opVecComplete, h]

section Mma
variable {q g : Nat} {e : MmaEnv} (h : engPick s (.mma q g) (mmaMay s q g) = some o)
include h

theorem opMmaComplete_runs (hfree : rerunWaits s o g (mmaFails o g e) = false) : opMmaComplete q g e s =
    completeOpAt (mmaRun (memEnv s (opCx o true) e.errs e.reread) o g e).1 o
      (mmaRun (memEnv s (opCx o true) e.errs e.reread) o g e).2.1 (mmaRun (memEnv s (opCx o true) e.errs e.reread) o g e).2.2 := by
  simp only [opMmaComplete, h, hfree, Bool.false_eq_true, if_false]

theorem opMmaComplete_waits (hwaits : rerunWaits s o g (mmaFails o g e) = true) : opMmaComplete q g e s = s := by
  simp only [opMmaComplete, h, hwaits, if_true]

end Mma

/-- Where no check failed nothing is run again. -/
theorem rerunWaits_of_no_fails {g : Nat} {e : MmaEnv} (h : e.fails = []) : rerunWaits s o g (mmaFails o g e) = false := by
  have hnone : mmaFails o g e = [] := by simp [mmaFails, h]
  simp [rerunWaits, hnone, memFails]

theorem opXferComplete_ends {rg e : Nat} {m : List MemErr} {k : Nat} (h : engPick s (.dma rg e) (xferMay s) = some o) :
    opXferComplete rg e m k s = kick (completeOp
      (if o.phase = .sent then (memEnv s (opCx o true) m k, sentStat (memEnv s (opCx o true) m k) o)
        else xferRun (memEnv s (opCx o true) m k) o).1 o
      (if o.phase = .sent then (memEnv s (opCx o true) m k, sentStat (memEnv s (opCx o true) m k) o)
        else xferRun (memEnv s (opCx o true) m k) o).2) := by
  simp only [opXferComplete, h]

theorem opRouteComplete_ends {d : Nat} {m : List MemErr} {k : Nat} (h : engPick s (.route d) (routeMay s) = some o) :
    opRouteComplete d m k s = kick (completeOp (routeForget (routeRun (memEnv s (opCx o false) m k) o).1 o) o
      (routeRun (memEnv s (opCx o false) m k) o).2) := by
  simp only [opRouteComplete, h]

end Completes

/-- Settles O26: no block is tainted, so each row is its operation on the instruction whose turn it is. That a re-run waits for what
was issued to its member before is the model's choice (log 221). -/
theorem engineCompletes : Obligations.EngineCompletes := by
  intro s o htaint
  refine ⟨fun q e h => ?_, fun q g e h => ⟨fun hfree => ?_, fun hwaits => ?_, rerunWaits_of_no_fails⟩, fun r d m k h => ?_,
    fun d m k h => ?_⟩
  · exact run_eq_of_untainted htaint (opVecComplete_runs h)
  · exact run_eq_of_untainted htaint (opMmaComplete_runs h hfree)
  · exact run_eq_of_untainted htaint (opMmaComplete_waits h hwaits)
  · exact run_eq_of_untainted (bs := []) htaint (opXferComplete_ends h)
  · exact run_eq_of_untainted htaint (opRouteComplete_ends h)

end Sys2Proof.Machine

/-! ## Register writes that act at once (R170, R186, R187, R260, R280, R281, R306, R313, R358, R394, R409, R411, R494, R500–R502) -/
namespace Sys2Proof.Machine

/-! ### CLU_SEQ_CTL.RUN -/

section Run
variable {s : State} {q : Nat} {was : Bool}

theorem seqRunWrite_starts (hnow : seqRunBit s q = true) (hwas : was = false)
    (hst : (seqAt s q).st = .stopped ∨ (seqAt s q).st = .halted) : seqRunWrite s q was =
      setSeq s q { seqAt s q with st := .running, pc := seqEntry s q, stopAtBoundary := false } := by
  simp only [seqRunWrite, hnow, hwas, Bool.not_false, Bool.and_self, if_true]
  exact if_pos hst

theorem seqRunWrite_stops (hnow : seqRunBit s q = false) (hwas : was = true)
    (hst : (seqAt s q).st = .running ∨ (seqAt s q).st = .halted) : seqRunWrite s q was =
      setSeq s q { seqAt s q with st := .stopped } := by
  simp only [seqRunWrite, hnow, hwas, Bool.false_and, Bool.false_eq_true, if_false]
  exact if_pos (by simpa using hst)

theorem seqRunWrite_same (h : seqRunBit s q = was) : seqRunWrite s q was = s := by
  cases was <;> simp [seqRunWrite, h]

end Run

/-! ### What the write of a register sets off

Equations of a written state, as above; their proofs stand in parentheses for the reason given there. -/

@[simp] theorem wroteReg_updPend (s : State) (b : Blk) (o v : Nat) : (wroteReg s b o v).updPend = s.updPend := (rfl)
@[simp] theorem wroteReg_objs (s : State) (b : Blk) (o v : Nat) : (wroteReg s b o v).objs = s.objs := (rfl)
@[simp] theorem seqAt_wroteReg (s : State) (b : Blk) (o v q : Nat) : seqAt (wroteReg s b o v) q = seqAt s q := (rfl)

section Effect
variable (v old : Nat) (temp : Int) (tok : Bool) (s : State)

theorem regEffect_seqCtl (q : Nat) : regEffect (.clu q) rCluSeqCtl v old temp tok s = seqRunWrite s q (bitAt old 0) := by
  simp [regEffect, rCluSeqCtl, rCluApply]

theorem regEffect_updApply : regEffect .upd rUpdApply v old temp tok s =
    { s with updPend := s.updPend ||| BitVec.ofNat 5 (v % 32) } := by
  have hbits : bits v 4 0 = v % 32 := congrArg (· % 32) (Nat.div_one v)
  simp only [regEffect, if_true, hbits]

theorem regEffect_hcCtl (c : MemCtrl) : regEffect (ctrlBlk c) rHcCtl v old temp tok s = testModeWrite s (ctrlBlk c) := by
  cases c <;> simp only [regEffect, ctrlBlk, if_true]

theorem regEffect_lnkCtl (l : Nat) : regEffect (.lnk l) rLnkCtl v old temp tok s =
    if bitAt v 2 then linkRetrain (lnkEnableWrite s l) l else lnkEnableWrite s l := by
  simp [regEffect, rLnkCtl, rLnkApply]

theorem regEffect_cacheDemote (d r : Nat) (hdemote : bitAt v 8 = true) :
    regEffect (.rgn d r) rRgnCacheCtl v old temp tok s = demote s (4 * d + r) := by
  simp [regEffect, rRgnCacheCtl, rRgnApply, hdemote]

theorem regEffect_foldResume (hresume : bitAt v 2 = true) : regEffect .chk rChkFoldStatus v old temp tok s = foldResume s := by
  simp [regEffect, rChkFoldStatus, rChkApply, hresume]

theorem regEffect_ckptReq : regEffect .ckpt rCkptReq v old temp tok s = ckptReqWrite s v := by
  simp only [regEffect, if_true]

theorem regEffect_rstCtl : regEffect .ckpt rCkptRstCtl v old temp tok s = if bitAt v 2 then
    restoreCommit (if bitAt v 0 then restoreStart s else s) else if bitAt v 0 then restoreStart s else s := by
  simp [regEffect, rCkptRstCtl, rCkptReq, rCkptApply]

theorem regEffect_snapGo (hgo : bitAt v 0 = true) : regEffect .evt rEvtClr v old temp tok s = snapGo s := by
  simp only [regEffect, hgo, and_self, if_true]

theorem regEffect_arm (d : Nat) {o : Nat} (a : Fin 64) (ho : o = 0x10000 + 16 * a.val ∨ o = 0x10004 + 16 * a.val) :
    regEffect (.sync d) o v old temp tok s = armWritten s d a := by
  have ha := a.isLt
  have harm : (o - 0x10000) / 16 = a.val := by omega
  simp only [regEffect, harm]
  exact if_pos (by omega)

theorem regEffect_tgCtl (c : MemCtrl) (ch : Fin 16) : regEffect (ctrlBlk c) (tgBase ch + rTgCtl) v old temp tok s =
    if bitAt v 0 then tgStartWrite s (ctrlBlk c) ch else s := by
  have hch := ch.isLt
  have hctl : tgBase ch + rTgCtl ≠ rHcCtl := by simp only [tgBase, rTgCtl, rHcCtl]; omega
  have hrate : tgBase ch + rTgCtl ≠ rHcCeRate := by simp only [tgBase, rTgCtl, rHcCeRate]; omega
  have hgen : 0x800 ≤ tgBase ch + rTgCtl ∧ (tgBase ch + rTgCtl) % 0x80 = rTgCtl := by
    simp only [tgBase, rTgCtl]; omega
  have hchannel : (tgBase ch + rTgCtl - 0x800) / 0x80 = ch := by simp only [tgBase, rTgCtl]; omega
  cases c <;> simp only [ctrlBlk, regEffect, hctl, hrate, hgen, hchannel, true_and, if_false]

end Effect

/-! ### What those operations do -/

section Written
variable (t : State)

theorem testModeWrite_eq (b : Blk) : testModeWrite t b = if fld t b rHcCtl 1 0 = 1 then t
    else (List.range b.tgChannels).foldl (fun u ch => setFld u b (tgBase ch + rTgStatus) 1 1 0) (setFld t b rHcStatus 7 7 0) := rfl

theorem tgStartWrite_eq (b : Blk) (ch : Nat) : tgStartWrite t b ch = if rbit t b rHcStatus 7 = true then
    setFld (setReg t b (tgBase ch + rTgErrcnt) 0) b (tgBase ch + rTgStatus) 1 1 1 else t := rfl

theorem linkRetrain_eq (v l : Nat) : (if bitAt v 2 then linkRetrain t l else t) =
    if bitAt v 2 = true ∧ lasersOn t = true ∧ rbit t (.lnk l) rLnkCtl 0 = true ∧ linkUnused t l = false then trainReset t l 1
    else t := by
  simp only [linkRetrain, ite_and, Bool.and_eq_true, Bool.not_eq_true']

theorem foldResume_eq : foldResume t = setFld t .chk rChkFoldStatus 0 0 0 := rfl

theorem ckptReqWrite_eq (v : Nat) : ckptReqWrite t v = { t with snapReq := some v } := rfl

end Written

/-! ### EVT_CLR.GO -/

theorem snapGo_clears {s : State} {b : Blk} (hblk : locate (regAt s .evt rEvtClrBlock).toNat = some (b, 0))
    (hbuf : snapBufOk s (addr48 s .evt rEvtSnapLo rEvtSnapHi / 64 * 64) (snapBytes s b).length = true) : snapGo s =
      setFld (snapClear (wrBytes (traffic s none 0 (addr48 s .evt rEvtSnapLo rEvtSnapHi / 64 * 64) (snapBytes s b).length true)
        (addr48 s .evt rEvtSnapLo rEvtSnapHi / 64 * 64) (snapBytes s b)) b) .evt rEvtClr 1 1 1 := by
  simp only [snapGo, hblk, hbuf, if_true]

/-! ### Writes that reach no register's fields -/

/-- Only a register that exists is reached. -/
theorem row_of_writes {s : State} {p : Path} {b : Blk} {o v : Nat} (h : writes s p b o v) : b.row o ≠ none := by
  obtain ⟨-, -, -, -, hhit, -⟩ := h
  replace hhit := congrArg Prod.snd hhit
  unfold regHit at hhit
  split at hhit
  · cases hhit
  split at hhit
  · cases hhit
  next c x _ =>
    dsimp only at hhit
    split at hhit
    · cases hhit
    · obtain ⟨r, hr, heq⟩ := Option.map_eq_some_iff.mp hhit
      obtain ⟨rfl, rfl⟩ := Prod.mk.inj heq
      exact hr ▸ nofun

theorem runWrite_ignored {s : State} {p : Path} {b : Blk} {o v : Nat} {temp : Int} {tok : Bool} (h : writes s p b o v)
    (hdirect : directWrite b o v s = none) (hignored : writeIgnored s b o v = true) :
    runWrite p (offOf b o) v temp tok s = .next s := by
  obtain ⟨htaint, hup, halign, hmay, hhit, -⟩ := h
  refine run_eq_of_untainted htaint ?_
  rw [pathWrite, if_pos (by simp [hup, halign, hmay, offOf]), offOf, regWrite, hhit]
  simp only [writeAt, hdirect, Option.getD_none, writeFields, hignored, if_true]

/-- The slip offsets that exist are those of groups 1 to 15 (R501). -/
theorem slip_pos {s : State} {p : Path} {d : Nat} {g : Fin 16} {v : Nat} (h : writes s p (.bcn d) (0x40 + 8 * g) v) : 0 < g.val := by
  refine Nat.pos_of_ne_zero fun hg => row_of_writes h ?_
  rw [hg]
  rfl

theorem runReg_slip_zero {s : State} {p : Path} {d : Fin 4} {g : Fin 16} (h : writes s p (.bcn d) (0x40 + 8 * g) 0) :
    runReg p (.bcn d) (0x40 + 8 * g) 0 s = .next (wroteReg s (.bcn d) (0x40 + 8 * g) 0) :=
  runWrite_quiet s p (.bcn d) (0x40 + 8 * g) 0 0 false h rfl (by simp [writeIgnored]) (by nofun) (isChecked_of_ne (by nofun) s _)

theorem runReg_slip_nonzero {s : State} {p : Path} {d : Fin 4} {g : Fin 16} {v : Word} (hv : v ≠ 0)
    (h : writes s p (.bcn d) (0x40 + 8 * g) v.toNat) : runReg p (.bcn d) (0x40 + 8 * g) v s = .next s := by
  have hpos := slip_pos h
  have hg := g.isLt
  have hne : v.toNat ≠ 0 := fun h0 => hv (BitVec.eq_of_toNat_eq h0)
  refine runWrite_ignored h rfl ?_
  simp only [writeIgnored, Bool.and_eq_true, decide_eq_true_eq]
  omega

theorem runReg_xlatData {s : State} {p : Path} {v : Word} (h : writes s p .xlat rXlatData v.toNat) :
    runReg p .xlat rXlatData v s = .next (let m := smPut (fun _ => 0) (bankIdle s.xlat) (fld s .xlat rXlatIdx 17 0) v
      setFld { s with xlat := if s.xlat.bank then { s.xlat with bank0 := m } else { s.xlat with bank1 := m } }
        .xlat rXlatIdx 17 0 (fld s .xlat rXlatIdx 17 0 + 1)) := by
  refine runWrite_direct s _ p .xlat rXlatData v.toNat 0 false h ?_
  rw [directWrite, if_pos rfl, BitVec.ofNat_toNat, BitVec.setWidth_eq]
  rfl

/-- Settles O33: each write acts by the effect of its register, on the state that has the written register. That RUN = 0 stops a
halted sequencer at once (log 187), that START of a busy generator starts it again (log 76) and what a snapshot-and-clear reaches
(log 184) are the model's choices. -/
theorem registerActions : Obligations.RegisterActions := by
  intro p v s
  refine ⟨fun q h => ⟨fun hnow hwas hst => ?_, fun hnow hwas hst => ?_, fun hsame => ?_⟩, fun h => ?_, fun d r h hdemote => ?_,
    fun c h => ?_, fun c ch h hstart => ?_, fun l h => ?_, fun h hresume => ?_, fun h => ?_, fun h hstart hcommit hsteps => ?_,
    fun h hstart hcommit hready => ?_, fun b h hgo => ?_, fun d g h hv => ?_, fun d g h hv => ?_, runReg_xlatData⟩
  · rw [← seqAt_wroteReg s (.clu q) rCluSeqCtl v.toNat] at hst ⊢
    exact runWrite_plain rfl h ((regEffect_seqCtl ..).trans (seqRunWrite_starts hnow hwas hst))
  · rw [← seqAt_wroteReg s (.clu q) rCluSeqCtl v.toNat] at hst ⊢
    exact runWrite_plain rfl h ((regEffect_seqCtl ..).trans (seqRunWrite_stops hnow hwas hst))
  · exact runWrite_plain rfl h ((regEffect_seqCtl ..).trans (seqRunWrite_same hsame))
  · rw [← wroteReg_updPend s .upd rUpdApply v.toNat]
    exact runWrite_plain rfl h (regEffect_updApply ..)
  · have hrun : runReg p (.rgn d r) rRgnCacheCtl v s = .next (demote (wroteReg s (.rgn d r) rRgnCacheCtl v.toNat) (4 * d + r)) :=
      runWrite_plain rfl h (regEffect_cacheDemote _ _ _ _ _ d r hdemote)
    rw [← rgnBlk_of_die] at hrun ⊢
    exact hrun
  · exact runWrite_plain (by cases c <;> rfl) h ((regEffect_hcCtl ..).trans (testModeWrite_eq _ _))
  · exact runWrite_plain (by cases c <;> rfl) h ((regEffect_tgCtl ..).trans ((if_pos hstart).trans (tgStartWrite_eq _ _ _)))
  · exact runWrite_plain rfl h ((regEffect_lnkCtl ..).trans (linkRetrain_eq _ _ _))
  · exact runWrite_plain rfl h ((regEffect_foldResume _ _ _ _ _ hresume).trans (foldResume_eq _))
  · exact runWrite_plain rfl h ((regEffect_ckptReq ..).trans (ckptReqWrite_eq _ _))
  · refine runWrite_plain rfl h ((regEffect_rstCtl ..).trans ?_)
    simp only [hstart, hcommit, Bool.false_eq_true, if_false, if_true]
  · refine runWrite_plain rfl h ((regEffect_rstCtl ..).trans ?_)
    simp only [hstart, hcommit, Bool.false_eq_true, if_false, if_true]
  · exact fun hblk hbuf => runWrite_plain rfl h ((regEffect_snapGo _ _ _ _ _ hgo).trans (snapGo_clears hblk hbuf))
  · subst hv
    exact runReg_slip_zero h
  · exact runReg_slip_nonzero hv h

/-! ### Sync objects as registers (R186, R187, R502) -/

section SyncWrite
variable {s : State} {p : Path} {d : Fin 4} {o : Fin 4096} {v : Word}

theorem runReg_syncVal (h : writes s p (.sync d) (16 * o) v.toNat) :
    runReg p (.sync d) (16 * o) v s = .next (syncValPut s d o v.toNat) := by
  have ho := o.isLt
  refine runWrite_direct s _ p (.sync d) (16 * o) v.toNat 0 false h ?_
  rw [directWrite, if_pos (by omega), if_pos (by omega), Nat.mul_div_cancel_left o.val (by decide : 0 < 16)]

theorem runReg_syncAdd (h : writes s p (.sync d) (16 * o + 4) v.toNat) :
    runReg p (.sync d) (16 * o + 4) v s = .next (syncAddPut s d o v.toNat) := by
  have ho := o.isLt
  have hobj : (16 * o.val + 4) / 16 = o.val := by omega
  refine runWrite_direct s _ p (.sync d) (16 * o + 4) v.toNat 0 false h ?_
  rw [directWrite, if_pos (by omega), if_neg (by omega), hobj]

end SyncWrite

section SyncPut
variable {s : State} {d i : Nat} {v : Word}

theorem syncValPut_system (h : 4032 ≤ i) (hi : i < 4096) : syncValPut s d i v.toNat = cnt s (.sync d) rSyncRsvdWrite :=
  if_pos (isSysObj_system h hi)

theorem syncAddPut_system (h : 4032 ≤ i) (hi : i < 4096) : syncAddPut s d i v.toNat = cnt s (.sync d) rSyncRsvdWrite :=
  if_pos (isSysObj_system h hi)

variable (h : i < 4032)
include h

theorem syncValPut_program : syncValPut s d i v.toNat = objPut s d i v := by
  rw [syncValPut, isSysObj_program h, BitVec.ofNat_toNat, BitVec.setWidth_eq]
  rfl

theorem syncAddPut_bad (hbad : v = 0 ∨ 2 ^ 31 ≤ v.toNat) : syncAddPut s d i v.toNat = cnt s (.sync d) rSyncBadOp :=
  (if_neg (Bool.eq_false_iff.mp (isSysObj_program h))).trans (if_pos (hbad.imp_left (congrArg BitVec.toNat)))

theorem syncAddPut_program (hpos : v ≠ 0) (hmax : v.toNat < 2 ^ 31) :
    syncAddPut s d i v.toNat = objPut s d i (objVal s d i + v) := by
  have hgood : ¬ (v.toNat = 0 ∨ 2 ^ 31 ≤ v.toNat) := by
    rintro (hzero | hbig)
    · exact hpos (BitVec.eq_of_toNat_eq hzero)
    · exact Nat.not_le.mpr hmax hbig
  refine (if_neg (Bool.eq_false_iff.mp (isSysObj_program h))).trans ((if_neg hgood).trans ?_)
  rw [objAdd, BitVec.ofNat_toNat, BitVec.setWidth_eq]

end SyncPut

theorem fireArms_nil (s : State) (d : Nat) : fireArms s d [] = s := by
  simp only [fireArms, List.foldl_nil, List.map_nil, List.append_nil]

/-- An arm that was written fires where it is armed and its target reached. -/
theorem armWritten_eq (s : State) (d : Nat) (a : Fin 64) :
    armWritten s d a = if armDue s.objs s d a then fireArms s d [a.val] else s := by
  have hthis : (armsDue s.objs s d).filter (· == a.val) = if armDue s.objs s d a then [a.val] else [] := by
    have hrange : (List.range 64).filter (· == a.val) = [a.val] := by
      revert a
      decide
    rw [armsDue, List.filter_comm, hrange]
    simp only [List.filter_cons, List.filter_nil]
  rw [armWritten, hthis]
  split
  · rfl
  · exact fireArms_nil s d

/-- An arm of a written state is held against an object that the write left alone. -/
theorem armDue_wroteReg (s : State) (b : Blk) (o v d a : Nat) : armDue (wroteReg s b o v).objs (wroteReg s b o v) d a =
    (rbit (wroteReg s b o v) (.sync d) (0x10000 + 16 * a) 31 &&
      reached (objVal s d (fld (wroteReg s b o v) (.sync d) (0x10000 + 16 * a) 11 0))
        (regAt (wroteReg s b o v) (.sync d) (0x10004 + 16 * a))) := by
  rw [wroteReg_objs]
  rfl

theorem runReg_syncArm {s : State} {p : Path} {d : Fin 4} {o : Nat} {v : Word} (a : Fin 64)
    (ho : o = 0x10000 + 16 * a.val ∨ o = 0x10004 + 16 * a.val) (h : writes s p (.sync d) o v.toNat) :
    runReg p (.sync d) o v s = .next (armWritten (wroteReg s (.sync d) o v.toNat) d a) :=
  runWrite_plain (decide_eq_true (by omega : 0x10000 ≤ o)) h (regEffect_arm _ _ _ _ _ d a ho)

/-- Settles O34: SYNC_VAL and SYNC_ADD act on the object that they name, and an arm is held against its object once written. -/
theorem syncRegisters : Obligations.SyncRegisters := by
  intro p d o v s
  refine ⟨fun h ho => ?_, fun h ho => ?_, fun h ho hpos hmax => ?_, fun h ho hbad => ?_, fun h ho => ?_, fun a tgt => ?_⟩
  · exact (runReg_syncVal h).trans (congrArg _ (syncValPut_program ho))
  · exact (runReg_syncVal h).trans (congrArg _ (syncValPut_system ho o.isLt))
  · exact (runReg_syncAdd h).trans (congrArg _ (syncAddPut_program ho hpos hmax))
  · exact (runReg_syncAdd h).trans (congrArg _ (syncAddPut_bad ho hbad))
  · exact (runReg_syncAdd h).trans (congrArg _ (syncAddPut_system ho o.isLt))
  · intro r t hit h
    simp only [hit, t, ← armDue_wroteReg, ← armWritten_eq]
    refine runReg_syncArm a ?_ h
    cases tgt
    · exact .inl rfl
    · exact .inr rfl

end Sys2Proof.Machine

/-! ## An issue to a gated engine and the idle clock (R171, R453) -/
namespace Sys2Proof.Machine
open Sys2Proof.Tests

/-- Outside dim, an instruction that enters a gated engine's queue restarts the time that the engines are idle. -/
theorem enqueueOp_idleAt {q : Nat} {e : Eng} {op : PtiOp} {w : PtiWord} {s : State}
    (hroom : (engQueue s e q).length < engDepth e) (hgated : gatedEng e = true) (hpwr : s.pwr ≠ .dim) :
    (enqueueOp q e op w s).pw.idleAt = s.beacon := by
  rw [enqueueOp, if_neg (Nat.not_le.mpr hroom), hgated, decide_eq_false hpwr]
  rfl

theorem exec_vecAdd_of_issues {q : Fin 256} {w : PtiWord} {s : State} (h : issues s q .vecAdd w) :
    exec (.vecAdd q w) s = .next (enqueueOp q (.vec q) .vecAdd w (atIssue s q w)) :=
  run_ptiIssue_of_issues (bs := [.clu q]) (act := enqueueOp q (.vec q) .vecAdd w) h

/-- Sequencer 0 of MD0 in run at a VEC.ADD, five beacon ticks on. -/
def vecAtBeacon5 : State := atX { run0 with beacon := 5 } qAgain .vecAdd w7

/-- Refutes O23: an issue to the vector engine also restarts its idle time, which the statement's next state leaves. -/
theorem not_transferIssue : ¬ Obligations.TransferIssue := by
  rintro ⟨hengine, -⟩
  obtain ⟨-, hvec, -⟩ := hengine 0 w7 vecAtBeacon5
  have hissues : issues vecAtBeacon5 0 .vecAdd w7 := issues_of (by decide +kernel)
  have hempty : (atIssue vecAtBeacon5 0 w7).ops = [] := taken_ops vecAtBeacon5 0 w7
  have hroom : (engQueue (atIssue vecAtBeacon5 0 w7) (.vec 0) 0).length < 8 := by
    rw [engQueue, hempty]
    decide
  have hclaimed := (hvec (.vecAdd, .vecAdd) (by simp [vecRows]) hissues).1 hroom
  have hmodel := exec_vecAdd_of_issues hissues
  have hpwr : vecAtBeacon5.pwr ≠ .dim := by decide
  have hidle : (enqueueOp 0 (.vec 0) .vecAdd w7 (atIssue vecAtBeacon5 0 w7)).pw.idleAt = 5 :=
    (enqueueOp_idleAt hroom rfl ((taken_pwr vecAtBeacon5 0 w7).symm ▸ hpwr)).trans (taken_beacon vecAtBeacon5 0 w7)
  have hleft : (queuedAt (atIssue vecAtBeacon5 0 w7) 0 (.vec 0) .vecAdd w7).pw.idleAt = 0 := by decide +kernel
  dsimp only at hclaimed
  rw [decide_eq_false hpwr, Bool.and_false, if_neg Bool.false_ne_true] at hclaimed
  have hsame := congrArg (·.pw.idleAt) (Host.Outcome.next.inj (hmodel.symm.trans hclaimed))
  exact absurd (hidle.symm.trans (hsame.trans hleft)) (by decide)

end Sys2Proof.Machine
